-- ==== Sys2Proof/Word.lean ====
section
/-! DEFINITION. The word types of the LD9200 model (spec/00_scope.md R8, R9) and their plainest arithmetic. -/

namespace Sys2Proof

/-- A 64-bit register, scalar or instruction word. -/
abbrev Word := BitVec 64

/-- One byte of memory. -/
abbrev Byte := BitVec 8

/-- Bits `[hi:lo]` of a 64-bit word as a number (R8: bit 0 is the least significant). -/
def Word.field (w : Word) (hi lo : Nat) : Nat := (w.toNat / 2 ^ lo) % 2 ^ (hi + 1 - lo)

/-- Bit `n` of a 64-bit word. -/
def Word.bit (w : Word) (n : Nat) : Bool := w.getLsbD n

/-- A number placed at bit `lo` of a 64-bit word, taken modulo `2^width`. -/
def Word.place (v width lo : Nat) : Word := BitVec.ofNat 64 ((v % 2 ^ width) * 2 ^ lo)

/-- A Boolean placed at bit `n`. -/
def Word.placeBit (b : Bool) (n : Nat) : Word := if b then BitVec.ofNat 64 (2 ^ n) else 0

/-- The 64-bit mask of bits `[hi:lo]`. -/
def Word.mask (hi lo : Nat) : Word := BitVec.ofNat 64 ((2 ^ (hi + 1 - lo) - 1) * 2 ^ lo)

/-- Saturating addition at the largest value of a field of `width` bits (counters saturate: R288, R245). -/
def satAdd (width a b : Nat) : Nat := min (a + b) (2 ^ width - 1)

/-- Ceiling division. -/
def ceilDiv (a b : Nat) : Nat := (a + b - 1) / b

end Sys2Proof
end

