-- ==== Sys2Proof/SyntaxTypes.lean ====
section
/-! DEFINITION. The operand types of the commands (spec/00 R10, 02 R28, 04 R97, 07 R192, 08 R235): what a command carries. -/

namespace Sys2Proof

/-- Element formats (R28, R68). -/
inductive Fmt where
  | int4 | int8 | int32 | int64 | fp4 | e2m3 | e3m2 | e4m3 | e5m2 | fp16 | bf16 | fp32 | e8m0
  deriving DecidableEq, Repr

/-- Rounding modes (R39). -/
inductive Rnd where
  | rne | rz | sr
  deriving DecidableEq, Repr

/-- The six issue queues of a core (R54). -/
inductive QueueId where
  | move | ctx0 | ctx1 | vector | row | comm
  deriving DecidableEq, Repr

/-- What the check of a unit's work finds (R205): agreement, a transient fault (the retry agrees), or a lasting one. -/
inductive CheckOutcome where
  | ok
  | transient
  | lasting
  deriving DecidableEq, Repr

/-- A failing comparison of an engine instruction (R172, R205, R213): the group of elements of a cycle or the row, the detail of its location word (R217),
and whether the retry failed too. -/
structure CheckFail where
  group : Nat
  detail : BitVec 28
  lasting : Bool
  deriving DecidableEq, Repr

/-- What a memory read meets (R235): nothing; an error corrected in delivery; an uncorrectable error clean on re-read; one
that persists; or the recurrence that marks a data pin of an HBM channel as failed. The number is a local address. -/
inductive MemErr where
  | none
  | corrected (addr : Nat)
  | reread (addr : Nat)
  | persistent (addr : Nat)
  | pinFail (addr : Nat)
  deriving DecidableEq, Repr

/-- A fault that strikes the matrix engine between an issue and its verdict (R192, R201): which array, and what it disturbs. -/
inductive Upset where
  /-- A bit of the accumulator, or of the FP32 partial, of the data cell at an array row and column. -/
  | cell (array row col bit : Nat)
  /-- A bit of the check column cell of an array row. -/
  | checkCol (array row bit : Nat)
  /-- A bit of the check row cell of an array column. -/
  | checkRow (array col bit : Nat)
  /-- A bit of the corner cell. -/
  | corner (array bit : Nat)
  /-- One copy of a data cell's flags N, P, M (bit 0 to 2). -/
  | flag (array row col bit : Nat)
  /-- A duplicate or parity mismatch of the drain path, an address generator or an operand stream. -/
  | mismatch (array row col : Nat)
  deriving DecidableEq, Repr

/-- The core whose next atomic operation a memory-side unit carries out: its sequencer's or its move queue's (R238). The atomic of
a message is carried out by the AMO command. -/
inductive AtomicSource where
  | sequencer (core : Fin 32)
  | moveQueue (core : Fin 32)
  deriving DecidableEq, Repr

/-- A group definition of a job descriptor (R290). -/
structure GroupDef where
  grp : Nat
  /-- 0 ROW, 1 COL, 2 BLOCK, 3 CORES (R289). -/
  kind : Nat
  core : Nat
  x0 : Nat
  x1 : Nat
  sx : Nat
  y0 : Nat
  y1 : Nat
  sy : Nat
  timeout : Nat
  cmask : BitVec 32
  /-- A reserved field of the definition is not zero. -/
  reserved : Bool
  stage : Nat
  stgsz : Nat
  deriving DecidableEq, Repr

/-- What every message carries besides its operation (R262, R273): sender, stream, arrival half (true for H1), NEW, MC, MSGID, JOB,
CACK, and the CRC-64 as it arrived (R193). -/
structure Msg where
  src : BitVec 16
  core : BitVec 5
  svc : Bool
  /-- Traffic class 0 or 1. -/
  tc : Nat
  /-- Routing class: true for YX. -/
  rc : Bool
  half : Bool
  isNew : Bool
  mc : Bool
  msgid : BitVec 32
  job : BitVec 64
  cack : BitVec 32
  crc : BitVec 64
  deriving DecidableEq, Repr

/-- Which message a response answers: the chip that answers, the stream and MSGID (R274). -/
structure RespTo where
  peer : BitVec 16
  core : BitVec 5
  svc : Bool
  tc : Nat
  rc : Bool
  msgid : BitVec 32
  deriving DecidableEq, Repr

/-- A flit of 256 bytes (R261): its header (R262), the 224 payload bytes, the 96-bit tag and the CRC-32C. On a path the payload is ciphertext; where a
flit waits in a chip it is in clear, and its tag and CRC are not yet formed. -/
structure FlitRef where
  hdr : BitVec 128
  data : List Byte
  tag : BitVec 96
  crc : BitVec 32
  deriving DecidableEq, Repr

/-- What discovery hears of one directed path (R283): the chip heard on the receiver, the chip that the transmitter reaches as its
receiver reports, the peer's identity hash and whether it proved it, and its FPL. -/
structure PathFinding where
  heard : Option (BitVec 16)
  reached : Option (BitVec 16)
  idHash : BitVec 256
  genuine : Bool
  fpl : Nat
  deriving DecidableEq, Repr

/-- The causes for which a path is taken DOWN (R265, R270). -/
inductive PathCause where
  | resends | tagFailures | lossOfLock
  deriving DecidableEq, Repr

/-- A descriptor record (R301); the hash is computed by the receiver from the fields. -/
structure DescRec where
  op : Nat
  rop : Nat
  fast : Bool
  fmt : Nat
  root : Nat
  count : Nat
  seq : BitVec 32
  arr : BitVec 64
  deriving DecidableEq, Repr

/-- Data of a collective on its way between members (R299): a contribution to shards, the FP32 or integer partial of a row of a
two-dimensional group, result elements, the gathered elements of a block, or a block of an all-to-all with its final rank. -/
inductive ChunkKind where
  | contribution
  | rowPartial
  | result
  | block
  | toRank (source dest : Nat)
  deriving DecidableEq, Repr

/-- The report of an aborted collective (R304, R309). -/
structure AbortReport where
  reason : Nat
  field : Nat
  rank : Nat
  nrank : Nat
  seq : BitVec 32
  deriving DecidableEq, Repr

/-- A firmware image as the checks of R416 see it: the outcome of each check that its own bytes decide, and its header (R415). -/
structure Image where
  formatOk : Bool
  rootOk : Bool
  vendorOk : Bool
  ownerSigOk : Bool
  digestOk : Bool
  major : Nat
  minor : Nat
  patch : Nat
  svn : Nat
  fpl : Nat
  fplmin : Nat
  cplmin : Nat
  cplmax : Nat
  nlmin : Nat
  nlmax : Nat
  raiseSvn : Bool
  /-- SM3 hash of OKEY, and whether OKEY is zero. -/
  okey : BitVec 256
  okeyZero : Bool
  /-- SM3 digest of the image, header included. -/
  digest : BitVec 256
  deriving DecidableEq, Repr

/-- One port's address item of a configuration object (R428). -/
structure PortAddress where
  port : Nat
  fixed : Bool
  prefixLen : Nat
  addr : BitVec 128
  gateway : BitVec 128
  deriving DecidableEq, Repr

/-- The items of a configuration object (R428, TARGET 1). -/
structure ConfigItems where
  addrs : List PortAddress
  vlans : List (Nat × BitVec 12)
  recovery : Option (List Byte)
  ilv : Option Nat
  deriving DecidableEq, Repr

/-- A wiring plan object (R428, TARGET 2). -/
structure PlanItems where
  ver : BitVec 16
  nx : Nat
  ny : Nat
  perm : Bool
  entries : List (Nat × BitVec 256)
  deriving DecidableEq, Repr

/-- What an UPDATE fetches (R428). -/
inductive UpdateBody where
  | image (i : Image)
  | settings (c : ConfigItems)
  | plan (p : PlanItems)
  deriving DecidableEq, Repr

/-- A fetched object with what its checks find: the digests, the header's form, the signatures (R429). -/
structure FetchedObject where
  digestOk : Bool
  formatOk : Bool
  sigOk : Bool
  body : UpdateBody
  deriving DecidableEq, Repr

/-- What a stage of the main boot finds (R424 to R427): configuration and calibration validity, identity, self-test failures of cores, failed and passed
die-to-die lanes by direction, group and position, channels that fail training or the pin test, cartridges present and valid
with their serial numbers, operating hours over 100, and of every laser the BOL bias in units of 0.1 mA and the BOL output power in units of 0.01 dBm (R314). -/
structure BootFindings where
  configOk : Bool
  pufOk : Bool
  calOk : Bool
  coreFails : BitVec 32
  laneFails : List (Nat × Nat × Nat)
  lanePasses : List (Nat × Nat × Nat)
  chanFails : List (Nat × Nat)
  cartPresent : Bool × Bool
  cartValid : Bool × Bool
  cartSerial : BitVec 32 × BitVec 32
  cartHours : BitVec 16 × BitVec 16
  bol : Vector Nat 24
  bolPower : Vector (BitVec 16) 24
  deriving DecidableEq, Repr

/-- A supervisory frame as it arrives (R338); `macOk` is what the ring key finds. -/
structure SupFrame where
  type : Nat
  ttl : Nat
  src : BitVec 16
  serial : BitVec 64
  seq : BitVec 16
  payload : List Byte
  macOk : Bool
  deriving DecidableEq, Repr

/-- A report of a power pool (R395). -/
structure PoolMsg where
  chip : BitVec 16
  w : Nat
  b : Nat
  base : Nat
  hash : BitVec 32
  deriving DecidableEq, Repr

/-- Who a session-level command belongs to: a Ningonus session slot, or a client of a serving endpoint: job, service, client (R347, R369). -/
inductive SessionRef where
  | ningonus (slot : Fin 64)
  | client (job : BitVec 64) (svc : Nat) (key : BitVec 256)
  deriving DecidableEq, Repr

/-- A halt record as a HALT message carries it (R443, R445). -/
structure HaltMsg where
  job : BitVec 64
  cause : Nat
  flags : Nat
  origin : BitVec 16
  detail : BitVec 32
  ft0 : BitVec 64
  loc : BitVec 64
  deriving DecidableEq, Repr

/-- A stored checkpoint as a restore reads it: trailer, digest table, and the chunks in clear with the verdict on each tag (R367). -/
structure StoredCheckpoint where
  trailer : List Byte
  table : List Byte
  chunks : List (List Byte × Bool)
  deriving DecidableEq, Repr

/-- The unit in which the acquittal test finds a fault (R456, R457): a core, an HBM channel, the adder pair of a channel, or a unit that has no fence. -/
inductive FailedUnit where
  | core (n : Fin 32)
  | channel (stack : Fin 8) (chan : Fin 32)
  | adder (stack : Fin 8) (chan : Fin 32)
  | other
  deriving DecidableEq, Repr

/-- Why a shard could not be delivered (R365), with the service status codes of R351: 13 NETWORK, 14 DIGEST, 15 FORMAT. -/
inductive ShardRead where
  | bytes (data : List Byte)
  | failed (status : Nat)
  deriving DecidableEq, Repr

end Sys2Proof
end

