-- ==== Sys2Proof/Syntax.lean ====
section
/-! DEFINITION. The commands: one constructor per row of spec/opcode_table.json, with the row's operands. -/

namespace Sys2Proof

/-- A command to the module. -/
inductive Instr where
  /-- The sequencer executes nop, which has no effect. (R99) -/
  | nop (n : Fin 32) (ws : BitVec 4) (k : CheckOutcome)
  /-- Scalar add of two registers modulo 2^64. (R99) -/
  | sAdd (n : Fin 32) (ws : BitVec 4) (rd : BitVec 5) (ra : BitVec 5) (rb : BitVec 5) (k : CheckOutcome)
  /-- Scalar subtract of two registers modulo 2^64. (R99) -/
  | sSub (n : Fin 32) (ws : BitVec 4) (rd : BitVec 5) (ra : BitVec 5) (rb : BitVec 5) (k : CheckOutcome)
  /-- Low 64 bits of a scalar product. (R99) -/
  | sMul (n : Fin 32) (ws : BitVec 4) (rd : BitVec 5) (ra : BitVec 5) (rb : BitVec 5) (k : CheckOutcome)
  /-- High 64 bits of an unsigned scalar product. (R99) -/
  | sMulhu (n : Fin 32) (ws : BitVec 4) (rd : BitVec 5) (ra : BitVec 5) (rb : BitVec 5) (k : CheckOutcome)
  /-- Unsigned quotient, all ones when dividing by zero. (R99) -/
  | sDivu (n : Fin 32) (ws : BitVec 4) (rd : BitVec 5) (ra : BitVec 5) (rb : BitVec 5) (k : CheckOutcome)
  /-- Unsigned remainder, ra when dividing by zero. (R99) -/
  | sRemu (n : Fin 32) (ws : BitVec 4) (rd : BitVec 5) (ra : BitVec 5) (rb : BitVec 5) (k : CheckOutcome)
  /-- Bitwise and of two scalar registers. (R99) -/
  | sAnd (n : Fin 32) (ws : BitVec 4) (rd : BitVec 5) (ra : BitVec 5) (rb : BitVec 5) (k : CheckOutcome)
  /-- Bitwise or of two scalar registers. (R99) -/
  | sOr (n : Fin 32) (ws : BitVec 4) (rd : BitVec 5) (ra : BitVec 5) (rb : BitVec 5) (k : CheckOutcome)
  /-- Bitwise exclusive or of two scalar registers. (R99) -/
  | sXor (n : Fin 32) (ws : BitVec 4) (rd : BitVec 5) (ra : BitVec 5) (rb : BitVec 5) (k : CheckOutcome)
  /-- Shift left by rb[5:0]. (R99) -/
  | sShl (n : Fin 32) (ws : BitVec 4) (rd : BitVec 5) (ra : BitVec 5) (rb : BitVec 5) (k : CheckOutcome)
  /-- Logical shift right by rb[5:0]. (R99) -/
  | sShr (n : Fin 32) (ws : BitVec 4) (rd : BitVec 5) (ra : BitVec 5) (rb : BitVec 5) (k : CheckOutcome)
  /-- Arithmetic shift right by rb[5:0]. (R99) -/
  | sSra (n : Fin 32) (ws : BitVec 4) (rd : BitVec 5) (ra : BitVec 5) (rb : BitVec 5) (k : CheckOutcome)
  /-- Signed minimum of two scalar registers. (R99) -/
  | sMin (n : Fin 32) (ws : BitVec 4) (rd : BitVec 5) (ra : BitVec 5) (rb : BitVec 5) (k : CheckOutcome)
  /-- Signed maximum of two scalar registers. (R99) -/
  | sMax (n : Fin 32) (ws : BitVec 4) (rd : BitVec 5) (ra : BitVec 5) (rb : BitVec 5) (k : CheckOutcome)
  /-- Scalar add of a register and imm38. (R99) -/
  | sAddi (n : Fin 32) (ws : BitVec 4) (rd : BitVec 5) (ra : BitVec 5) (imm : BitVec 38) (k : CheckOutcome)
  /-- Scalar subtract of imm38 from a register. (R99) -/
  | sSubi (n : Fin 32) (ws : BitVec 4) (rd : BitVec 5) (ra : BitVec 5) (imm : BitVec 38) (k : CheckOutcome)
  /-- Scalar multiply of a register by imm38. (R99) -/
  | sMuli (n : Fin 32) (ws : BitVec 4) (rd : BitVec 5) (ra : BitVec 5) (imm : BitVec 38) (k : CheckOutcome)
  /-- Bitwise and with imm38. (R99) -/
  | sAndi (n : Fin 32) (ws : BitVec 4) (rd : BitVec 5) (ra : BitVec 5) (imm : BitVec 38) (k : CheckOutcome)
  /-- Bitwise or with imm38. (R99) -/
  | sOri (n : Fin 32) (ws : BitVec 4) (rd : BitVec 5) (ra : BitVec 5) (imm : BitVec 38) (k : CheckOutcome)
  /-- Bitwise exclusive or with imm38. (R99) -/
  | sXori (n : Fin 32) (ws : BitVec 4) (rd : BitVec 5) (ra : BitVec 5) (imm : BitVec 38) (k : CheckOutcome)
  /-- Shift left by imm38[5:0]. (R99) -/
  | sShli (n : Fin 32) (ws : BitVec 4) (rd : BitVec 5) (ra : BitVec 5) (imm : BitVec 38) (k : CheckOutcome)
  /-- Logical shift right by imm38[5:0]. (R99) -/
  | sShri (n : Fin 32) (ws : BitVec 4) (rd : BitVec 5) (ra : BitVec 5) (imm : BitVec 38) (k : CheckOutcome)
  /-- Arithmetic shift right by imm38[5:0]. (R99) -/
  | sSrai (n : Fin 32) (ws : BitVec 4) (rd : BitVec 5) (ra : BitVec 5) (imm : BitVec 38) (k : CheckOutcome)
  /-- Loads the sign-extended imm43 into rd. (R99) -/
  | sLi (n : Fin 32) (ws : BitVec 4) (rd : BitVec 5) (imm : BitVec 43) (k : CheckOutcome)
  /-- Loads imm43[31:0] into rd[63:32], keeping rd[31:0]. (R99) -/
  | sLih (n : Fin 32) (ws : BitVec 4) (rd : BitVec 5) (imm : BitVec 43) (k : CheckOutcome)
  /-- 64-bit scalar load from an aligned local address. (R101) -/
  | sLd (n : Fin 32) (ws : BitVec 4) (rd : BitVec 5) (ra : BitVec 5) (imm : BitVec 38) (k : CheckOutcome) (err : MemErr)
  /-- 32-bit zero-extended scalar load. (R101) -/
  | sLd32 (n : Fin 32) (ws : BitVec 4) (rd : BitVec 5) (ra : BitVec 5) (imm : BitVec 38) (k : CheckOutcome) (err : MemErr)
  /-- 64-bit scalar store of rd. (R101) -/
  | sSt (n : Fin 32) (ws : BitVec 4) (rd : BitVec 5) (ra : BitVec 5) (imm : BitVec 38) (k : CheckOutcome)
  /-- 32-bit scalar store of rd[31:0]. (R101) -/
  | sSt32 (n : Fin 32) (ws : BitVec 4) (rd : BitVec 5) (ra : BitVec 5) (imm : BitVec 38) (k : CheckOutcome)
  /-- Memory-side INT64 atomic add on an aligned HBM address, returning the old value. (R101) -/
  | sAmoadd (n : Fin 32) (ws : BitVec 4) (rd : BitVec 5) (ra : BitVec 5) (rb : BitVec 5) (k : CheckOutcome)
  /-- Memory-side INT64 atomic maximum, returning the old value. (R101) -/
  | sAmomax (n : Fin 32) (ws : BitVec 4) (rd : BitVec 5) (ra : BitVec 5) (rb : BitVec 5) (k : CheckOutcome)
  /-- Memory-side INT64 atomic minimum, returning the old value. (R101) -/
  | sAmomin (n : Fin 32) (ws : BitVec 4) (rd : BitVec 5) (ra : BitVec 5) (rb : BitVec 5) (k : CheckOutcome)
  /-- Memory-side atomic swap, returning the old value. (R101) -/
  | sAmoswap (n : Fin 32) (ws : BitVec 4) (rd : BitVec 5) (ra : BitVec 5) (rb : BitVec 5) (k : CheckOutcome)
  /-- Memory-side compare-and-swap against rd, returning the old value. (R99) -/
  | sAmocas (n : Fin 32) (ws : BitVec 4) (rd : BitVec 5) (ra : BitVec 5) (rb : BitVec 5) (k : CheckOutcome)
  /-- A sequencer load, store or atomic to remote scratchpad or HBM returns and releases the sequencer. (R104) -/
  | scalarAccessComplete (n : Fin 32) (e : MemErr)
  /-- Branch when ra is zero. (R102) -/
  | bZ (n : Fin 32) (ws : BitVec 4) (ra : BitVec 5) (rb : BitVec 5) (off : BitVec 38) (k : CheckOutcome)
  /-- Branch when ra is non-zero. (R102) -/
  | bNz (n : Fin 32) (ws : BitVec 4) (ra : BitVec 5) (rb : BitVec 5) (off : BitVec 38) (k : CheckOutcome)
  /-- Branch when two registers are equal. (R102) -/
  | bEq (n : Fin 32) (ws : BitVec 4) (ra : BitVec 5) (rb : BitVec 5) (off : BitVec 38) (k : CheckOutcome)
  /-- Branch when two registers differ. (R102) -/
  | bNe (n : Fin 32) (ws : BitVec 4) (ra : BitVec 5) (rb : BitVec 5) (off : BitVec 38) (k : CheckOutcome)
  /-- Branch on signed less-than. (R102) -/
  | bLt (n : Fin 32) (ws : BitVec 4) (ra : BitVec 5) (rb : BitVec 5) (off : BitVec 38) (k : CheckOutcome)
  /-- Branch on unsigned less-than. (R102) -/
  | bLtu (n : Fin 32) (ws : BitVec 4) (ra : BitVec 5) (rb : BitVec 5) (off : BitVec 38) (k : CheckOutcome)
  /-- Branch on signed greater-or-equal. (R102) -/
  | bGe (n : Fin 32) (ws : BitVec 4) (ra : BitVec 5) (rb : BitVec 5) (off : BitVec 38) (k : CheckOutcome)
  /-- Branch on unsigned greater-or-equal. (R102) -/
  | bGeu (n : Fin 32) (ws : BitVec 4) (ra : BitVec 5) (rb : BitVec 5) (off : BitVec 38) (k : CheckOutcome)
  /-- Branch on a predicate register, or on its negation. (R99) -/
  | bP (n : Fin 32) (ws : BitVec 4) (pn : BitVec 3) (neg : Bool) (off : BitVec 38) (k : CheckOutcome)
  /-- Unconditional relative branch. (R102) -/
  | bJ (n : Fin 32) (ws : BitVec 4) (ra : BitVec 5) (rb : BitVec 5) (off : BitVec 38) (k : CheckOutcome)
  /-- Writes the return address to ra and branches. (R102) -/
  | bCall (n : Fin 32) (ws : BitVec 4) (ra : BitVec 5) (rb : BitVec 5) (off : BitVec 38) (k : CheckOutcome)
  /-- Jumps to the address held in ra. (R102) -/
  | bJr (n : Fin 32) (ws : BitVec 4) (ra : BitVec 5) (rb : BitVec 5) (off : BitVec 38) (k : CheckOutcome)
  /-- Sets a predicate to the equality of two registers. (R99) -/
  | pEq (n : Fin 32) (ws : BitVec 4) (pd : BitVec 3) (ra : BitVec 5) (rb : BitVec 5) (k : CheckOutcome)
  /-- Sets a predicate to the inequality of two registers. (R99) -/
  | pNe (n : Fin 32) (ws : BitVec 4) (pd : BitVec 3) (ra : BitVec 5) (rb : BitVec 5) (k : CheckOutcome)
  /-- Sets a predicate to a signed less-than. (R99) -/
  | pLt (n : Fin 32) (ws : BitVec 4) (pd : BitVec 3) (ra : BitVec 5) (rb : BitVec 5) (k : CheckOutcome)
  /-- Sets a predicate to an unsigned less-than. (R99) -/
  | pLtu (n : Fin 32) (ws : BitVec 4) (pd : BitVec 3) (ra : BitVec 5) (rb : BitVec 5) (k : CheckOutcome)
  /-- Sets a predicate to equality with imm40. (R99) -/
  | pEqi (n : Fin 32) (ws : BitVec 4) (pd : BitVec 3) (ra : BitVec 5) (imm : BitVec 40) (k : CheckOutcome)
  /-- Sets a predicate to a signed less-than against imm40. (R99) -/
  | pLti (n : Fin 32) (ws : BitVec 4) (pd : BitVec 3) (ra : BitVec 5) (imm : BitVec 40) (k : CheckOutcome)
  /-- Predicate and. (R99) -/
  | pAnd (n : Fin 32) (ws : BitVec 4) (pd : BitVec 3) (pa : BitVec 3) (pb : BitVec 3) (k : CheckOutcome)
  /-- Predicate or. (R99) -/
  | pOr (n : Fin 32) (ws : BitVec 4) (pd : BitVec 3) (pa : BitVec 3) (pb : BitVec 3) (k : CheckOutcome)
  /-- Predicate exclusive or. (R99) -/
  | pXor (n : Fin 32) (ws : BitVec 4) (pd : BitVec 3) (pa : BitVec 3) (pb : BitVec 3) (k : CheckOutcome)
  /-- Predicate negation. (R99) -/
  | pNot (n : Fin 32) (ws : BitVec 4) (pd : BitVec 3) (pa : BitVec 3) (pb : BitVec 3) (k : CheckOutcome)
  /-- Loads 32 bytes into a descriptor register. (R101) -/
  | dLd (n : Fin 32) (ws : BitVec 4) (dd : BitVec 4) (ra : BitVec 5) (imm : BitVec 39) (k : CheckOutcome) (err : MemErr)
  /-- Stores a descriptor register as 32 bytes. (R101) -/
  | dSt (n : Fin 32) (ws : BitVec 4) (dd : BitVec 4) (ra : BitVec 5) (imm : BitVec 39) (k : CheckOutcome)
  /-- Copies one descriptor register to another. (R99) -/
  | dMov (n : Fin 32) (ws : BitVec 4) (dd : BitVec 4) (ra : BitVec 5) (ds : BitVec 4) (k : CheckOutcome)
  /-- Sets BASE from ra, trapping when ra[63:48] is not zero. (R103) -/
  | dSetbase (n : Fin 32) (ws : BitVec 4) (dd : BitVec 4) (ra : BitVec 5) (k : CheckOutcome)
  /-- Adds ra to BASE modulo 2^48. (R99) -/
  | dAddbase (n : Fin 32) (ws : BitVec 4) (dd : BitVec 4) (ra : BitVec 5) (k : CheckOutcome)
  /-- Sets ROWS, trapping with DESCRIPTOR when the value exceeds 32 bits. (R103) -/
  | dSetrows (n : Fin 32) (ws : BitVec 4) (dd : BitVec 4) (ra : BitVec 5) (k : CheckOutcome)
  /-- Sets COLS, trapping with DESCRIPTOR when the value exceeds 32 bits. (R103) -/
  | dSetcols (n : Fin 32) (ws : BitVec 4) (dd : BitVec 4) (ra : BitVec 5) (k : CheckOutcome)
  /-- Sets STRIDE, trapping when the value exceeds 48 bits. (R103) -/
  | dSetstride (n : Fin 32) (ws : BitVec 4) (dd : BitVec 4) (ra : BitVec 5) (k : CheckOutcome)
  /-- Sets the tensor id from ra[31:0]. (R103) -/
  | dSettid (n : Fin 32) (ws : BitVec 4) (dd : BitVec 4) (ra : BitVec 5) (k : CheckOutcome)
  /-- Sets the per-tensor scale from ra[31:0]. (R103) -/
  | dSetscale (n : Fin 32) (ws : BitVec 4) (dd : BitVec 4) (ra : BitVec 5) (k : CheckOutcome)
  /-- Sets FMT, LAYOUT, SCALED and MXS, and clears MXBLK. (R99) -/
  | dSetfmt (n : Fin 32) (ws : BitVec 4) (dd : BitVec 4) (imm : BitVec 10) (k : CheckOutcome)
  /-- Clears all 256 bits of a descriptor register. (R99) -/
  | dZero (n : Fin 32) (ws : BitVec 4) (dd : BitVec 4) (k : CheckOutcome)
  /-- Reads one word of a descriptor register into a scalar register. (R99) -/
  | dGet (n : Fin 32) (ws : BitVec 4) (rd : BitVec 5) (ds : BitVec 4) (w : BitVec 2) (k : CheckOutcome)
  /-- The sequencer waits for a semaphore count and subtracts it. (R80) -/
  | syncWait (n : Fin 32) (ws : BitVec 4) (sem : BitVec 6) (count : BitVec 16) (k : CheckOutcome)
  /-- Loads a wait-select entry, trapping on a reserved SEM value. (R105) -/
  | syncWsel (n : Fin 32) (ws : BitVec 4) (w : BitVec 4) (sem : BitVec 6) (count : BitVec 16) (pred : BitVec 3) (neg : Bool) (k : CheckOutcome)
  /-- Adds an increment to a local semaphore. (R105) -/
  | syncSig (n : Fin 32) (ws : BitVec 4) (sem : BitVec 6) (val : BitVec 16) (k : CheckOutcome)
  /-- Sets one of the core's semaphores; signals in the same cycle are added after the set. (R106) -/
  | syncSet (n : Fin 32) (ws : BitVec 4) (sem : BitVec 6) (val : BitVec 16) (k : CheckOutcome)
  /-- Signals a cross-core semaphore of a core named by physical number or rank. (R107) -/
  | syncXsig (n : Fin 32) (ws : BitVec 4) (ra : BitVec 5) (xs : BitVec 4) (inc : BitVec 16) (rank : Bool) (k : CheckOutcome)
  /-- Reads a semaphore value without subtraction. (R105) -/
  | syncRead (n : Fin 32) (ws : BitVec 4) (rd : BitVec 5) (sem : BitVec 6) (k : CheckOutcome)
  /-- Waits until the named queues are empty and nothing of them is in flight. (R108) -/
  | syncIdle (n : Fin 32) (ws : BitVec 4) (mask : BitVec 6) (k : CheckOutcome)
  /-- Waits until fabric time reaches a given value. (R108) -/
  | syncUntil (n : Fin 32) (ws : BitVec 4) (ra : BitVec 5) (k : CheckOutcome)
  /-- Reads a CSR within the access rules for job programs. (R110) -/
  | sysCsrr (n : Fin 32) (ws : BitVec 4) (rd : BitVec 5) (ra : BitVec 5) (off : BitVec 32) (k : CheckOutcome)
  /-- Posts a CSR write within the access rules for job programs. (R110) -/
  | sysCsrw (n : Fin 32) (ws : BitVec 4) (rd : BitVec 5) (ra : BitVec 5) (off : BitVec 32) (k : CheckOutcome)
  /-- Invalidates all instruction buffer lines. (R79) -/
  | sysIfence (n : Fin 32) (ws : BitVec 4) (k : CheckOutcome)
  /-- Reads fabric time into a register. (R109) -/
  | sysFt (n : Fin 32) (ws : BitVec 4) (rd : BitVec 5) (k : CheckOutcome)
  /-- Reads the core cycle count since RUNNING. (R109) -/
  | sysCyc (n : Fin 32) (ws : BitVec 4) (rd : BitVec 5) (k : CheckOutcome)
  /-- Stops fetch and waits for every queue and check of the core to finish. (R111) -/
  | sysEnd (n : Fin 32) (ws : BitVec 4) (k : CheckOutcome)
  /-- Raises event 0x91 to the job's runtime with a code. (R109) -/
  | sysEvent (n : Fin 32) (ws : BitVec 4) (code : BitVec 16) (k : CheckOutcome)
  /-- After sys.end every queue has drained, and the core reports its end and enters IDLE held by the job. (R111) -/
  | coreEnd (n : Fin 32)
  /-- An instruction buffer line fill completes after its 64 cycles. (R78) -/
  | instructionFetchFill (n : Fin 32) (err : MemErr)
  /-- The sequencer evaluates the predicate of the next engine instruction and places it in its issue queue or squashes it.
  (R55) -/
  | dispatch (n : Fin 32) (w : Word) (k : CheckOutcome)
  /-- The head of an issue queue starts once its wait is met and its engine accepts it. (R56) -/
  | instructionStart (n : Fin 32) (q : QueueId) (err : MemErr)
  /-- An engine instruction reaches its completion point and signals its local semaphore. (R61) -/
  | instructionComplete (n : Fin 32) (q : QueueId) (fails : List CheckFail) (stretch : Nat)
  /-- All engines and the sequencer wait on local semaphores with nothing in flight, and the core traps with DEADLOCK. (R81) -/
  | deadlockDetect (n : Fin 32)
  /-- A single wait exceeds the wait timeout and the core traps with WAIT_TIMEOUT. (R82) -/
  | waitTimeoutExpiry (n : Fin 32)
  /-- Copies a tensor, with its MX scale array, between layouts. (R112) -/
  | mvCopy (n : Fin 32)
  /-- Converts a tensor element by element under the rounding and saturation rules. (R112) -/
  | mvCvt (n : Fin 32)
  /-- Fills a tensor with the low bits of a scalar register. (R112) -/
  | mvFill (n : Fin 32)
  /-- Applies add, max or min element-wise into an HBM tensor through the memory-side units. (R112) -/
  | mvRed (n : Fin 32)
  /-- Copies a tensor to the same offset in the scratchpads of the cores in a mask. (R112) -/
  | mvBcast (n : Fin 32)
  /-- Streams a product's operands through the arrays into an accumulator bank. (R115) -/
  | mmIssue (n : Fin 32) (stretch : Nat)
  /-- Reads a bank through the adder trees, rounds and writes the product. (R146) -/
  | mmDrain (n : Fin 32)
  /-- The last product of an issue is accumulated in the bank 20 cycles after the issue completes. (R144) -/
  | issueAccumulated (n : Fin 32) (bank : Bool) (upsets : List Upset)
  /-- The row, column and corner comparisons of a drain reach a verdict, and a clean verdict signals the checked semaphore.
  (R202) -/
  | drainVerdict (n : Fin 32)
  /-- After a failed verdict the arrays rerun the product log into the bank and drain it again. (R207) -/
  | matrixRetry (n : Fin 32) (upsets : List Upset) (err : MemErr)
  /-- The retry drain's verdict signals the checked semaphore or starts the lasting-fault sequence. (R207) -/
  | retryVerdict (n : Fin 32)
  /-- Duty reaches zero in RAMP and the arrays' clock is gated. (R154) -/
  | arraysGate (n : Fin 32)
  /-- Duty reaches 100% in RISE and the arrays enter ACTIVE or WARM. (R154) -/
  | arraysRiseEnd (n : Fin 32)
  /-- The keep-warm window elapses in WARM and the arrays enter RAMP. (R155) -/
  | keepWarmExpiry (n : Fin 32)
  /-- Element-wise add rounded once. (R164) -/
  | vecAdd (n : Fin 32)
  /-- Element-wise subtract rounded once. (R164) -/
  | vecSub (n : Fin 32)
  /-- Element-wise multiply rounded once. (R164) -/
  | vecMul (n : Fin 32)
  /-- Element-wise maximum. (R164) -/
  | vecMax (n : Fin 32)
  /-- Element-wise minimum. (R164) -/
  | vecMin (n : Fin 32)
  /-- Fused multiply-add rounded once. (R164) -/
  | vecFma (n : Fin 32)
  /-- Adds an FP32 scalar to every element. (R164) -/
  | vecAdds (n : Fin 32)
  /-- Multiplies every element by an FP32 scalar. (R164) -/
  | vecMuls (n : Fin 32)
  /-- Adds a 1 × COLS row to every row. (R164) -/
  | vecBcadd (n : Fin 32)
  /-- Multiplies every row by a 1 × COLS row. (R164) -/
  | vecBcmul (n : Fin 32)
  /-- Converts elements under the conversion rules. (R164) -/
  | vecCvt (n : Fin 32)
  /-- Evaluates 2^x per element. (R165) -/
  | vecExp2 (n : Fin 32)
  /-- Evaluates log2 per element. (R165) -/
  | vecLog2 (n : Fin 32)
  /-- Evaluates the reciprocal per element. (R165) -/
  | vecRcp (n : Fin 32)
  /-- Evaluates the reciprocal square root per element. (R165) -/
  | vecRsqrt (n : Fin 32)
  /-- Evaluates the square root per element. (R165) -/
  | vecSqrt (n : Fin 32)
  /-- Clears the sign bit of each rounded element. (R164) -/
  | vecAbs (n : Fin 32)
  /-- Inverts the sign bit of each rounded element. (R164) -/
  | vecNeg (n : Fin 32)
  /-- ReLU activation, optionally saving its output. (R165) -/
  | vecRelu (n : Fin 32)
  /-- Sigmoid activation. (R165) -/
  | vecSigmoid (n : Fin 32)
  /-- Tanh activation. (R165) -/
  | vecTanh (n : Fin 32)
  /-- Natural exponential activation. (R165) -/
  | vecExp (n : Fin 32)
  /-- Softplus activation. (R165) -/
  | vecSoftplus (n : Fin 32)
  /-- ELU activation with alpha from a scalar register. (R171) -/
  | vecElu (n : Fin 32)
  /-- GELU activation with the exact normal distribution. (R165) -/
  | vecGelu (n : Fin 32)
  /-- SiLU activation. (R165) -/
  | vecSilu (n : Fin 32)
  /-- Error function activation. (R165) -/
  | vecErf (n : Fin 32)
  /-- Backward of ReLU from the saved output. (R169) -/
  | vecDrelu (n : Fin 32)
  /-- Backward of sigmoid from the saved output. (R169) -/
  | vecDsigmoid (n : Fin 32)
  /-- Backward of tanh from the saved output. (R169) -/
  | vecDtanh (n : Fin 32)
  /-- Backward of exp from the saved output. (R169) -/
  | vecDexp (n : Fin 32)
  /-- Backward of softplus from the saved output. (R169) -/
  | vecDsoftplus (n : Fin 32)
  /-- Backward of ELU from the saved output and alpha. (R169) -/
  | vecDelu (n : Fin 32)
  /-- Backward of GELU from the saved input. (R169) -/
  | vecDgelu (n : Fin 32)
  /-- Backward of SiLU from the saved input. (R169) -/
  | vecDsilu (n : Fin 32)
  /-- Backward of erf from the saved input. (R169) -/
  | vecDerf (n : Fin 32)
  /-- Sum reduction along rows or columns in the fixed lane and tree order. (R166) -/
  | vecRsum (n : Fin 32)
  /-- Maximum reduction along rows or columns. (R166) -/
  | vecRmax (n : Fin 32)
  /-- Minimum reduction along rows or columns. (R166) -/
  | vecRmin (n : Fin 32)
  /-- Sum-of-squares reduction along rows or columns. (R166) -/
  | vecRsumsq (n : Fin 32)
  /-- Forms softmax statistics of the rows into the records. (R180) -/
  | rowStat (n : Fin 32)
  /-- Forms statistics and writes probabilities in one instruction. (R180) -/
  | rowSoftmax (n : Fin 32)
  /-- Online-softmax step over one key block, writing probabilities and rescale factors. (R180) -/
  | rowOsmx (n : Fin 32)
  /-- Divides each row by its record's sum. (R182) -/
  | rowFinish (n : Fin 32)
  /-- Merges received records into the records, optionally writing the factors. (R181) -/
  | rowMerge (n : Fin 32)
  /-- Normalisation forward with mean and reciprocal standard deviation. (R186) -/
  | rowNorm (n : Fin 32)
  /-- RMS normalisation forward with the mean taken as zero. (R186) -/
  | rowRms (n : Fin 32)
  /-- Softmax backward from the upstream gradient and forward scores. (R183) -/
  | rowDsoftmax (n : Fin 32)
  /-- Backward of row.norm. (R187) -/
  | rowDnorm (n : Fin 32)
  /-- Backward of row.rms. (R187) -/
  | rowDrms (n : Fin 32)
  /-- Writes a local tensor to a global address and completes on ACK. (R275) -/
  | cmPut (n : Fin 32)
  /-- Reads from a global address into a local tensor. (R275) -/
  | cmGet (n : Fin 32) (err : MemErr)
  /-- Performs a remote atomic and returns the old value. (R275) -/
  | cmAmo (n : Fin 32) (k : CheckOutcome) (err : MemErr)
  /-- Sends a tensor into a receive ring of another chip. (R275) -/
  | cmSend (n : Fin 32) (err : MemErr)
  /-- Adds an increment to a cross-core semaphore on another chip. (R275) -/
  | cmSignal (n : Fin 32)
  /-- Reduces each shard at its owner and spreads the results to all members. (R299) -/
  | cmAllreduce (n : Fin 32)
  /-- Reduces each shard at its owner and leaves each member its own shard. (R299) -/
  | cmRedscat (n : Fin 32)
  /-- Gathers every member's block at every member. (R299) -/
  | cmAllgather (n : Fin 32)
  /-- Broadcasts the root's tensor to every member. (R299) -/
  | cmBcast (n : Fin 32)
  /-- Reduces the contributions to the root only. (R299) -/
  | cmReduce (n : Fin 32)
  /-- Sends block j of each member to member j. (R299) -/
  | cmAlltoall (n : Fin 32)
  /-- Completes when the member holds P matching records. (R299) -/
  | cmBarrier (n : Fin 32)
  /-- Pip powers a core for a job and starts its PLL, holding signals addressed to it. (R86) -/
  | coreStartRequest (n : Fin 32)
  /-- The PLL locks, the runtime writes the start state, held signals are added and the first line is fetched. (R86) -/
  | corePllLock (n : Fin 32)
  /-- A core held by no job for 100 µs in IDLE is power-gated. (R85) -/
  | coreIdleGate (n : Fin 32)
  /-- Zeroing of a core's scratchpad after it leaves a job completes and the core may be assigned again. (R228) -/
  | scratchpadClearDone (n : Fin 32)
  /-- A die-to-die transfer fails its CRC and is replayed from the replay buffer. (R19) -/
  | d2dCrcReplay (d : Fin 2)
  /-- A die-to-die lane fails in service and is spared, or its group is disabled. (R20) -/
  | d2dLaneFail (d : Fin 2) (g : Fin 20) (l : Fin 34)
  /-- The patrol scrub reads the next scratchpad word or HBM granule and writes back corrections. (R236) -/
  | patrolScrub (addr : Nat) (err : MemErr)
  /-- A channel gives no response within 10 µs on 16 successive accesses and is marked for map-out. (R233) -/
  | channelNotAnswering (addr : Nat) (jobs : List Word)
  /-- A memory-side unit applies one atomic operation to an HBM element. (R237) -/
  | atomicOperation (src : AtomicSource) (k : CheckOutcome) (err : MemErr)
  /-- A stack crosses a temperature threshold upward and its refresh rate rises. (R241) -/
  | refreshRateRaise (k : Fin 8)
  /-- A stack stays 2 °C below a threshold for 100 ms and its refresh rate falls. (R241) -/
  | refreshRateLower (k : Fin 8)
  /-- The zeroing of a granted HBM window completes. (R229) -/
  | windowZeroingDone (job : Word) (w : Fin 16)
  /-- A flit arrives on a directed path, is checked, acknowledged or NAKed, and updates flow control. (R263) -/
  | flitReceive (i : Fin 128) (f : FlitRef) (count : BitVec 64)
  /-- The ACK has not advanced for 8 µs and the transmitter resends from the oldest unacknowledged flit. (R265) -/
  | ackTimeout (i : Fin 128)
  /-- A path is taken DOWN, its retry buffer dropped and the new state propagated. (R270) -/
  | pathDown (i : Fin 128) (cause : PathCause)
  /-- Sources resend unacknowledged messages of the affected streams on their new routes. (R270) -/
  | routeChangeResend
  /-- Every 1 ms a chip sends its path states on TC2 to its row and column. (R260) -/
  | pathStateBroadcast
  /-- A chip receives path states and rederives routes, sending held streams. (R260) -/
  | pathStateReceive (chip : BitVec 16) (usable : BitVec 128) (leaving : BitVec 128)
  /-- After 2^32 flits a path moves to the next key epoch. (R264) -/
  | keyEpochChange (i : Fin 128)
  /-- 2^16 flits after an epoch flip the receiver drops the previous key. (R264) -/
  | previousKeyDiscard (i : Fin 128)
  /-- The executor writes a PUT's data at the target and answers ACK. (R276) -/
  | put (h : Msg) (desc : BitVec 256) (data : List Byte)
  /-- The executor reads the target descriptor and returns GET_DATA. (R276) -/
  | get (h : Msg) (desc : BitVec 256) (err : MemErr)
  /-- The executor performs one atomic and returns AMO_OLD. (R276) -/
  | amo (h : Msg) (desc : BitVec 256) (aop : BitVec 3) (operand : Word) (expected : Word) (k : CheckOutcome) (err : MemErr)
  /-- The executor writes a ring slot, advances the producer and signals the notify semaphore. (R279) -/
  | send (h : Msg) (ring : BitVec 4) (data : List Byte) (err : MemErr)
  /-- The executor adds ARG to a cross-core semaphore of a core of the job. (R276) -/
  | signal (h : Msg) (addr : BitVec 48) (inc : BitVec 32)
  /-- An ACK arrives at the source and completes a put, send or signal. (R275) -/
  | ack (r : RespTo) (crc : Word)
  /-- Returned GET data is written into the local tensor. (R275) -/
  | getData (r : RespTo) (data : List Byte) (crc : Word)
  /-- The old value of an atomic is written into the local tensor's element 0. (R275) -/
  | amoOld (r : RespTo) (old : Word) (crc : Word)
  /-- A source resends every unacknowledged message of a stream from the named MSGID. (R277) -/
  | resend (r : RespTo) (expected : BitVec 32) (failed : Bool) (crc : Word)
  /-- A FAIL status arrives; retried statuses are resent, final ones halt the job. (R280) -/
  | fail (r : RespTo) (status : BitVec 4) (crc : Word)
  /-- 100 µs after a RESEND the next early message may draw a new RESEND. (R277) -/
  | resendHoldoffExpiry (key : RespTo) (half : Bool)
  /-- A message answered RING_FULL or BUSY is resent after 2 µs. (R279) -/
  | messageRetryTimer (r : RespTo)
  /-- A stream with nothing outstanding for 2 s is released from the table. (R277) -/
  | streamRelease (key : RespTo) (half : Bool)
  /-- A message not completed within MSGTO fails with TIMEOUT or UNREACHABLE. (R281) -/
  | messageTimeout (r : RespTo)
  /-- A path on a route that ended in CRC_LASTING drains, relocks and repeats discovery. (R281) -/
  | pathRetrain (i : Fin 128)
  /-- A locked port runs discovery and key agreement and compares its paths with the wiring plan. (R283) -/
  | discovery (port : Fin 16) (fs : Vector PathFinding 8)
  /-- A MISSING path is rechecked every 1 s. (R283) -/
  | missingPeerRecheck (i : Fin 128) (f : PathFinding)
  /-- The runtime checks a group definition locally and sends JOIN records. (R292) -/
  | groupCreate (job : Word) (g : GroupDef)
  /-- A JOIN record arrives, and with P agreeing records the group is created. (R292) -/
  | join (grp : Fin 64) (rank : Nat) (job : Word) (hash : BitVec 256) (cpl : Nat) (failed : Nat)
  /-- Members have sent no JOIN within 10 s and group creation fails. (R292) -/
  | noJoin (job : Word) (grp : Fin 64)
  /-- A collective reaches the head of its group queue, takes its SEQ and sends its descriptor record. (R298) -/
  | collectiveStart (grp : Fin 64) (rank : Nat) (err : MemErr) (k : CheckOutcome)
  /-- A descriptor record arrives; with all P records hashes are compared and writes allowed or MISMATCH raised. (R302) -/
  | descriptorRecord (grp : Fin 64) (dst : Nat) (src : Nat) (rec : DescRec) (k : CheckOutcome) (h : Option Msg)
  /-- A 16 KiB chunk of collective data arrives and is staged, combined or written. (R299) -/
  | collectiveChunk (grp : Fin 64) (dst : Nat) (src : Nat) (seq : BitVec 32) (kind : ChunkKind) (elems : List (Nat × Nat)) (k : CheckOutcome)
      (h : Option Msg)
  /-- A collective completes, forms its completion record and updates the lateness registers. (R303) -/
  | collectiveComplete (grp : Fin 64) (rank : Nat)
  /-- A collective not completed within its timeout aborts and sends an ABORT record. (R304) -/
  | collectiveTimeout (grp : Fin 64) (rank : Nat)
  /-- An ABORT record arrives and the member aborts with the received report. (R304) -/
  | abort (grp : Fin 64) (a : AbortReport)
  /-- After main power is good Pip lights and locks every laser that feeds a wavelength. (R322) -/
  | laserLight
  /-- A cold sweep finds the lane's points and the lane enters ACQUIRE. (R321) -/
  | laneSweepDone (i : Fin 128)
  /-- Stored points fine-lock and the lane enters ACQUIRE. (R321) -/
  | laneRestoreDone (i : Fin 128)
  /-- No lock within 10 ms in RESTORE sends the lane to SWEEP. (R321) -/
  | laneRestoreTimeout (i : Fin 128)
  /-- Carrier recovery acquires and the lane enters VERIFY. (R321) -/
  | laneAcquired (i : Fin 128) (loofs : BitVec 16) (rxp : BitVec 16)
  /-- After 2 ms of matching pilot and training index the lane enters LOCKED, otherwise RELOCK. (R325) -/
  | laneVerify (i : Fin 128) (pilot : BitVec 8) (index : BitVec 8) (moved : Nat)
  /-- A loop reports loss of lock, the path goes DOWN and the lane relocks warm. (R320) -/
  | lossOfLock (i : Fin 128)
  /-- Excess pre-FEC BER or uncorrectable codewords take the lane DOWN to relock. (R320) -/
  | berLimitExceeded (i : Fin 128) (preber : BitVec 16) (corr : BitVec 16) (uncorr : BitVec 16)
  /-- Pre-FEC BER above 1e-4 over 10 s raises event 0x48. (R320) -/
  | berWarning (i : Fin 128) (preber : BitVec 16) (corr : BitVec 16) (uncorr : BitVec 16)
  /-- A LOCKED lane hears another wavelength's index for 100 µs and enters RELOCK. (R325) -/
  | wrongIndexInService (i : Fin 128) (pilot : BitVec 8) (index : BitVec 8)
  /-- A relock attempt ends and returns to VERIFY, or a third failure holds the lane DARK. (R326) -/
  | relockAttempt (i : Fin 128) (found : Bool)
  /-- A lane LOCKED for 1 h has its attempt count reset to 0. (R326) -/
  | attemptCountReset (i : Fin 128)
  /-- A write of RETRY restarts a DARK lane at RESTORE. (R326) -/
  | optLaneRetry (k : Fin 64) (i : Fin 128)
  /-- A write of HULL_CTL.COLD discards every stored lock point. (R323) -/
  | hullCold (k : Fin 64)
  /-- Each second the bias ratio is sampled and the averaged ratio compared with the thresholds. (R327) -/
  | biasSample (i : Fin 24) (bias : BitVec 16) (power : BitVec 16) (offset : BitVec 16) (temp : BitVec 8)
  /-- A spare finishes warming to its assigned grid point. (R328) -/
  | spareWarmDone (i : Fin 24)
  /-- A planned swap drains the affected paths, moves the feed, retrains and soaks the lanes. (R329) -/
  | laserSwap (c : Fin 2)
  /-- A timed stage of a planned swap completes and the next begins. (R329) -/
  | swapStageDone (c : Fin 2)
  /-- A laser's output falls by over 3 dB or its frequency loop loses lock and the feed moves to a spare. (R331) -/
  | suddenLaserFailure (i : Fin 24)
  /-- A cartridge is withdrawn with main power on and the interlock turns its lasers off. (R333) -/
  | cartridgeRemoved (c : Fin 2)
  /-- A worn or failed host laser moves its port to the half's spare. (R335) -/
  | hostLaserSwap (j : Fin 8) (ratio : BitVec 16) (failed : Bool)
  /-- The supervisory by-pass closes on loss of auxiliary supply, RESET_N low or a Pip reset. (R337) -/
  | bypassClose
  /-- The by-pass opens when Pip runs and SUP-IN has given valid code for 10 ms. (R337) -/
  | bypassOpen
  /-- A supervisory frame arrives and is forwarded, dropped at TTL 0 or removed by its originator. (R338) -/
  | supFrame (f : SupFrame)
  /-- Pip sends a HEARTBEAT frame every 100 ms. (R339) -/
  | heartbeat
  /-- No upstream HEARTBEAT for 300 ms or loss of signal raises event 0x4B. (R339) -/
  | heartbeatMissing (signalLost : Bool)
  /-- A host port loses link or an RC connection exhausts its retries, and its pieces are reissued. (R345) -/
  | hostLinkLoss (j : Fin 8) (conn : Option (BitVec 256))
  /-- Every 1 s the device reconnects on ports that are UP again. (R345) -/
  | hostReconnect
  /-- A piece that finds no connection for 30 s fails its transfer with NETWORK. (R345) -/
  | pieceNoConnection (xfer : Nat)
  /-- An RDMA piece completes and the next piece is placed on the connection. (R344) -/
  | rdmaPieceComplete (xfer : Nat) (piece : Nat)
  /-- A received CNP halves the connection's rate. (R343) -/
  | cnp (j : Fin 8) (server : BitVec 256)
  /-- Without a CNP for 100 µs the connection's rate rises by 5 Gb/s. (R343) -/
  | cnpRateRecovery (j : Fin 8) (server : BitVec 256)
  /-- Each host port transmits LLDP every 30 s. (R343) -/
  | lldpTransmit (j : Fin 8)
  /-- A PTP message disciplines fabric time on the root. (R409) -/
  | ptpMessage (j : Fin 8) (ptp : Word)
  /-- A HELLO is verified and answered with HELLO_ACK, opening a session. (R347) -/
  | hello (port : Fin 8) (serving : Option (Word × Nat)) (key : BitVec 256) (sigOk : Bool) (nets : Bool × Bool)
  /-- A DATA datagram is authenticated and its message executed in REQID order or answered from kept responses. (R349) -/
  | data (r : SessionRef) (port : Fin 8) (ctr : Nat) (tagOk : Bool) (reqid : BitVec 32) (mtype : BitVec 16)
  /-- A CLOSE datagram ends the session. (R347) -/
  | close (r : SessionRef) (ctr : Nat) (tagOk : Bool)
  /-- A session with no authenticated datagram for 60 s closes. (R347) -/
  | sessionIdleTimeout (r : SessionRef)
  /-- A held request is executed after 640 ms and the missing REQIDs are skipped. (R349) -/
  | reqidHoldExpiry (r : SessionRef)
  /-- The device retransmits an unanswered EVENT with a doubling interval. (R349) -/
  | requestRetransmit (k : Fin 64)
  /-- Answers with an empty response. (R350) -/
  | ping (k : Fin 64)
  /-- Reads up to 64 CSRs with a status per entry. (R468) -/
  | csrRead (k : Fin 64) (body : List Byte)
  /-- Writes up to 56 CSR entries under MASK with a status per entry. (R469) -/
  | csrWrite (k : Fin 64) (body : List Byte)
  /-- Writing 1 to a LOCK bit locks its register's RWL fields until reset. (R472) -/
  | lockWrite (k : Fin 64) (o : BitVec 32)
  /-- Checks a signed submission and starts fetching the job descriptor. (R353) -/
  | submit (k : Fin 64) (body : List Byte) (sigOk : Bool)
  /-- A fetched descriptor is checked, cores and windows granted, groups created and cores started. (R357) -/
  | jobAdmission (digest : BitVec 256) (desc : List Byte) (prog : List Byte) (args : List Byte) (places : List Nat)
  /-- Every core of the job is RUNNING and the STARTED record is written. (R357) -/
  | jobStarted (job : Word)
  /-- Cancels a starting job or halts a running one. (R358) -/
  | cancel (k : Fin 64) (job : Word)
  /-- Returns the job's last completion record. (R350) -/
  | jobQuery (k : Fin 64) (job : Word)
  /-- Configures one of four work lists. (R359) -/
  | worklist (k : Fin 64) (list : Nat) (server : BitVec 256) (rkey : Nat) (va : Nat) (len : Nat) (interval : Nat)
  /-- At each poll interval the device reads a work list and submits its new entries. (R359) -/
  | worklistPoll (list : Fin 4) (read : Option (Nat × List (List Byte × Bool)))
  /-- A completion record is written to its ring and the producer index advanced. (R360) -/
  | completionRecordWrite (job : Word)
  /-- While the ring is full the consumer index is read again every 1 ms. (R360) -/
  | completionRingRecheck (job : Word) (cons : Nat)
  /-- Defines an event sink bound to the session's key. (R362) -/
  | sinkSet (k : Fin 64) (sink : BitVec 8) (mask : BitVec 16)
  /-- The device delivers a selected event to a sink, queueing it when no session is open. (R362) -/
  | event (sink : Fin 4)
  /-- Changes the current CPL or NL for work created afterwards. (R459) -/
  | levelSet (k : Fin 64) (body : List Byte)
  /-- Returns a HELD module to READY when every site is below its setpoint. (R404) -/
  | resume (k : Fin 64)
  /-- Resets the module at once, or after the last job in mode 1. (R430) -/
  | reset (k : Fin 64) (mode : Byte)
  /-- Fetches and checks an image, configuration or wiring plan and begins writing it. (R429) -/
  | update (k : Fin 64) (body : List Byte) (fetch : Option FetchedObject)
  /-- An update write completes and is read back, setting PENDING or invalidating the target. (R430) -/
  | updateWriteDone (ok : Bool)
  /-- Returns an attestation report signed by the identity key. (R433) -/
  | attest (k : Fin 64) (nonce : List Byte)
  /-- Adds or removes an owner, role, checkpoint or ring key. (R420) -/
  | enroll (k : Fin 64) (body : List Byte) (claimOk : Bool)
  /-- Starts the acquittal test. (R456) -/
  | acquit (k : Fin 64)
  /-- A timed stage of the acquittal test finishes. (R456) -/
  | acquittalStageDone
  /-- The acquittal test ends with PASS or FAIL and updates health and fenced cores. (R457) -/
  | acquittalVerdict (fail : Option FailedUnit)
  /-- Writes the drill schedule DRL_CTL. (R463) -/
  | drillSet (k : Fin 64) (body : List Byte)
  /-- Every 2 µs a service reads its producer index and carries out the next entry. (R363) -/
  | serviceQueuePoll (job : Word) (svc : Nat) (stored : StoredCheckpoint) (buddyBase : Nat)
  /-- The ingest service places shard data in a slot, advances the producer and signals. (R364) -/
  | ingestSlotWrite (job : Word) (svc : Nat) (entry : List Byte) (read : ShardRead)
  /-- A client starts a generation request with prompt tokens. (R369) -/
  | generate (r : SessionRef) (num : Nat) (params : List Byte) (last : Bool) (tokens : List (BitVec 32))
  /-- A client appends prompt tokens to a request. (R369) -/
  | append (r : SessionRef) (num : Nat) (last : Bool) (tokens : List (BitVec 32))
  /-- A client stops a request. (R369) -/
  | stop (r : SessionRef) (num : Nat)
  /-- The endpoint reads the token ring, sends TOKENS, frees slots and writes the next step. (R370) -/
  | tokenRingPoll (job : Word) (svc : Nat)
  /-- Every 1 µs the power estimate is formed and the fast loop limits peaks and rises. (R388) -/
  | estimateUpdate (estimate : Nat)
  /-- A waiting aligned load step is released in its slot. (R388) -/
  | alignedStepRelease
  /-- Every 100 µs power is measured and compared with the estimate for measured mode. (R384) -/
  | powerMeasurement (measured : Nat) (estimate : Nat) (mainv : BitVec 16) (maina : BitVec 16) (auxv : BitVec 16)
  /-- The power manager predicts power per P-state and sets the power ceiling or pause duty. (R386) -/
  | powerControlInterval (pred : Vector Nat 13) (duty : Vector Nat 64) (eq : Fin 13)
  /-- A one-step P-state change completes and the next step may begin. (R380) -/
  | pstateStepDone (n : Fin 32)
  /-- At each 1 µs slot cores run or stop under the pause duty. (R387) -/
  | pauseSlot
  /-- After 10 s with a core running the coefficients are stored and the guard band normalised. (R383) -/
  | calibrationComplete
  /-- Disagreement at or below 6% for 10 s ends measured mode. (R384) -/
  | measuredModeExit
  /-- A write of POW_CTL.CAP changes the cap or is rejected out of range. (R389) -/
  | powCapWrite (k : Fin 64) (cap : BitVec 16)
  /-- A write of MODE, EQ or ALIGN takes effect at the next control interval. (R392) -/
  | powModeWrite (k : Fin 64) (mode : Bool) (eq : Bool) (align : BitVec 4)
  /-- A core rail falls 4% and its clock is stretched until recovery. (R390) -/
  | droopDetect (n : Fin 32) (cycles : Nat) (excess : Bool)
  /-- After 10 ms without a droop window the droop ceiling rises one P-state. (R390) -/
  | droopCeilingRise (n : Fin 32)
  /-- At each 10 ms epoch a pool member sends its report. (R395) -/
  | poolEpoch
  /-- A pool report arrives and is relayed along the column. (R395) -/
  | poolReport (m : PoolMsg)
  /-- At e + 5 ms members compute new budgets or detect mismatch and exclusion. (R396) -/
  | poolBudgetCompute
  /-- Every 10 µs each site is sampled. (R398) -/
  | temperatureSample (site : Fin 57) (a : Option Int) (b : Option Int)
  /-- Every 100 µs thermal ceilings and HBM and fabric pauses are re-evaluated. (R399) -/
  | thermalControl
  /-- After 10 s and site 54 below 60 °C Pip re-enables main power. (R403) -/
  | tripHoldEnd
  /-- Every 1 ms a chip announces its best root candidate on TC2. (R406) -/
  | ftAnnounce
  /-- Every 1 ms a chip exchanges timestamps with its parent and corrects fabric time. (R407) -/
  | ftExchange (t1 : Int) (t2 : Int) (t3 : Int) (t4 : Int) (freq : BitVec 16)
  /-- No exchange for 5 ms sends fabric time into HOLDOVER. (R407) -/
  | ftHoldover
  /-- The auxiliary input enters its range and the germ loader checks the image. (R487) -/
  | auxPowerApplied (slot : BitVec 6) (elapsed : Nat)
  /-- Loss of the auxiliary input turns main power off and enters OFF. (R498) -/
  | auxPowerLost
  /-- MAIN_EN high with the input in range starts main power and the main boot. (R487) -/
  | mainEnHigh
  /-- MAIN_EN low stops cores and lasers and turns main power off. (R488) -/
  | mainEnLow
  /-- The 48 V input below 38 V for 1 ms acts as MAIN_EN low. (R485) -/
  | inputUndervoltage
  /-- The 48 V input above 62 V for 100 µs acts as MAIN_EN low. (R485) -/
  | inputOvervoltage
  /-- RESET_N low holds Pip and the main domain in reset and closes the by-pass. (R489) -/
  | resetNLow
  /-- RESET_N released starts a boot with CAUSE 1. (R489) -/
  | resetNRelease
  /-- A timed stage of the main boot completes. (R424) -/
  | bootStageDone (f : BootFindings)
  /-- The runtime accepts messages and every port has tried its first lock, and the module enters READY or HELD. (R424) -/
  | bootComplete
  /-- The 60 s boot watchdog expires and resets the module. (R426) -/
  | bootWatchdog
  /-- A recovery fetch completes or fails and moves to the next port or round. (R432) -/
  | recoveryFetch (image : Option Image)
  /-- After a full round of failures the backoff wait expires and a new round starts. (R432) -/
  | recoveryRoundWait
  /-- Writing MBX_CMD.SUBMIT presents a debug token for checking. (R477) -/
  | mbxSubmit (sigOk : Bool)
  /-- A RETEST bit requests a retest of a mapped-out channel or cancels a mark. (R233) -/
  | hbmChanClr (k : Fin 64) (stack : Fin 8) (bits : BitVec 32)
  /-- A halt cause stops the job's cores at the origin and multicasts HALT. (R443) -/
  | jobHalt
  /-- A HALT record arrives; the first one stops the job's cores and writes HALTED. (R443) -/
  | halt (m : HaltMsg)
  /-- Every path to a halt-set chip DOWN for 50 ms halts the job. (R442) -/
  | peerLost (job : Word) (chip : BitVec 16)
  /-- A retained BUDDY window's retention time ends unused. (R447) -/
  | retentionEnd (job : Word) (base : Nat)
  /-- Writing HLT_CTL.RELEASE ends every retention at once. (R447) -/
  | hltRelease (k : Fin 64)
  /-- Every 60 s the health score is recomputed with decay of T. (R449) -/
  | healthEvaluation
  /-- Every hour T, L and the lasting faults are written to the journal. (R450) -/
  | healthJournal
  /-- A drill of an enabled kind injects a fault into a unit's check side. (R454) -/
  | drillFire (kind : Fin 12) (unit : Nat)
  /-- A drill's expected outcome fails to occur in time and the unit is fenced. (R455) -/
  | drillEscape (kind : Fin 12) (unit : Nat) (pair : Option (Fin 8 × Fin 32))
  /-- At the end of a second with withheld check events one event 0x18 reports them. (R219) -/
  | eventRateSecond
  /-- Fabric time reaches the value that a waiting sync.until named, and the sequencer resumes. (R108) -/
  | fabricTimeReached (n : Fin 32)
  /-- At cycle Q of a drain the bank has been read, becomes EMPTY and the drain path accepts the next drain. (R146) -/
  | drainBankRead (n : Fin 32)
  /-- The value of a sys.csrr returns, up to 2 µs after issue, and releases the sequencer. (R104) -/
  | csrValueReturn (n : Fin 32)
  /-- A chip receives a neighbour's announcement of the best root candidate and updates its root and parent. (R406) -/
  | rootAnnouncement (chip : BitVec 16) (prio : BitVec 4) (root : BitVec 16)
  /-- A host port gains link, goes UP and raises event 0x93. (R345) -/
  | hostPortUp (j : Fin 8) (lease : BitVec 128) (gateway : BitVec 128)
  /-- The 48 V input enters its range while MAIN_EN is already high, and main power starts. (R487) -/
  | mainInputInRange
  /-- The recovered image has been written and read back, event 0x73 is raised and the module resets with CAUSE 5. (R432) -/
  | recoveryImageWritten (ok : Bool)
  /-- A register write arrives through the debug port: mailbox data, or, after an unlock with SCOPE bit 0, any register with
  owner rights. (R470) -/
  | debugPortWrite (o : BitVec 32) (mask : Word) (value : Word)
  /-- An ICMP or ICMPv6 echo request arrives on a host port and is answered, up to 1,000 replies per second per port. (R343) -/
  | icmpEchoRequest (j : Fin 8) (v6 : Bool)
  /-- An LLDP frame arrives on a host port and its neighbour is recorded. (R343) -/
  | lldpReceive (j : Fin 8) (neighbour : List Byte)
  deriving DecidableEq, Repr

end Sys2Proof
end

