-- ==== Sys2Proof/Decode.lean ====
section
/-! DEFINITION. The command that a word spells by the bits of spec/opcode_table.json. The table gives none of its rows bits ("fields" is empty
in every row): commands arrive as events, and an engine instruction's 64-bit word (spec/04 R91 to R96) is the operand of the commands that fetch and dispatch it. -/

namespace Sys2Proof

/-- No row of the table has bits, so no word spells a command. -/
def decodeTableWord (_nbits _w : Nat) : Option Instr := none

end Sys2Proof
end

