-- ==== Sys2Proof/Machine/Crc.lean ====
section
/-! DEFINITION. The CRC-64 of operand reads, moves and messages (spec/07 R193) and the CRC-32C of a flit (spec/09 R263). -/

namespace Sys2Proof.Machine

/-- One bit step of a non-reflected CRC-64 with the polynomial of R193. -/
def crcBit (c : Word) : Word := if c.msb then (c <<< 1) ^^^ 0x42F0E1EBA9EA3693#64 else c <<< 1

/-- One byte. -/
def crcByte (c : Word) (b : Byte) : Word :=
  let c := c ^^^ (b.zeroExtend 64 <<< 56)
  crcBit (crcBit (crcBit (crcBit (crcBit (crcBit (crcBit (crcBit c)))))))

/-- The CRC-64 of a byte sequence: initial value and final exclusive-or are all ones. -/
def crc64 (bs : List Byte) : Word := bs.foldl crcByte 0xFFFF_FFFF_FFFF_FFFF ^^^ 0xFFFF_FFFF_FFFF_FFFF

/-- The CRC-64 of a transfer: the bytes moved, in ascending destination address order, then the 32 bytes of the destination descriptor, as the fields that
fix the destination (R193; which fields and where they stand in the sequence is a DESIGN CHOICE, log 76). -/
def transferCrc (data : List Byte) (dest : BitVec 256) : Word :=
  crc64 (data ++ (List.range 32).map (fun i => (dest >>> (8 * i)).truncate 8))

/-- One bit step of the reflected CRC-32C. -/
def crc32cBit (c : BitVec 32) : BitVec 32 := if c.getLsbD 0 then (c >>> 1) ^^^ 0x82F63B78#32 else c >>> 1

/-- One byte. -/
def crc32cByte (c : BitVec 32) (b : Byte) : BitVec 32 :=
  let c := c ^^^ b.zeroExtend 32
  crc32cBit (crc32cBit (crc32cBit (crc32cBit (crc32cBit (crc32cBit (crc32cBit (crc32cBit c)))))))

/-- The Castagnoli CRC of RFC 3720 (R263). -/
def crc32c (bs : List Byte) : BitVec 32 := bs.foldl crc32cByte 0xFFFF_FFFF#32 ^^^ 0xFFFF_FFFF#32

end Sys2Proof.Machine
end

