-- ==== Sys2Proof/Config.lean ====
section
/-! DEFINITION. What the spec leaves open or the part fixes: opaque constants with no body, so that no proof sees a value.
Each has a row in notes/assumptions. -/

namespace Sys2Proof.Config

/-- A 64-bit value the spec leaves open, fresh for each number it is applied to (State.fresh counts them up). -/
opaque freeWord : Nat → BitVec 64

/-- The FP32 result of a special function whose interval of the model's working precision does not decide the rounding
(no FP32 argument is known for which this happens): function number and argument bits. -/
opaque undecidedFp32 : Nat → BitVec 64 → BitVec 32

/-- A 32-byte or shorter quantity (a key, a signature, a nonce, a certificate) that the spec names and whose bytes it does
not give: which one, and the number of its use. -/
opaque freeBytes : Nat → Nat → List (BitVec 8)

/-- The SM4-CTR key stream of SM4-GCM under a key and an IV (R264): the standard that the spec names gives its bytes, and nothing here rests on them. -/
opaque gcmStream : BitVec 128 → BitVec 96 → Nat → BitVec 8

/-- The 96-bit tag of SM4-GCM under a key and an IV, over a clear header and a ciphertext (R261, R264). -/
opaque gcmTag : BitVec 128 → BitVec 96 → BitVec 128 → List (BitVec 8) → BitVec 96

end Sys2Proof.Config
end

