-- ==== Sys2Proof/Machine/State.lean ====
section
/-! DEFINITION. The state of one LD9200 module as plain data: everything the spec gives the machine, the queue of waiting
commands, and the model's own clock, counter of free values and list of outputs. -/

namespace Sys2Proof.Machine

/-! ## One core (spec/03 R54 to R60, spec/05 R132 to R145, spec/07 R206) -/

/-- What a core is doing (R85); the numbers are CORE_STATE.RUN. -/
inductive RunState where
  | absent | gated | starting | idle | running | trapped | fenced
  deriving DecidableEq, Repr

/-- CORE_STATE.RUN (R85). -/
def RunState.code : RunState → Nat
  | .absent => 0 | .gated => 1 | .starting => 2 | .idle => 3 | .running => 4 | .trapped => 5 | .fenced => 6

/-- A descriptor register that an instruction names, with the value copied at its dispatch (R59). -/
structure NamedDesc where
  reg : BitVec 4
  val : BitVec 256
  /-- The next register, which describes the scales of an MX tensor (R69). -/
  next : BitVec 256
  deriving DecidableEq, Repr

/-- One instruction in an issue queue, with everything it named copied at dispatch (R54, R59). -/
structure Entry where
  word : Word
  pc : BitVec 48
  /-- Dispatch number within the core: the age that R117 and R150 compare. -/
  seq : Nat
  /-- The wait-select entry copied at dispatch; 0 for WS = 0 (R62). -/
  wsel : BitVec 32
  /-- The up to four descriptor fields of the word from the highest bits down. -/
  d0 : NamedDesc
  d1 : NamedDesc
  d2 : NamedDesc
  d3 : NamedDesc
  /-- The scalar registers that the word names (SR, RA, RR), and the second one of a message (RB). -/
  ra : Word
  rb : Word
  started : Bool
  executed : Bool
  /-- Elements already applied by the memory-side units for mv.red (R238). -/
  progress : Nat
  /-- Numeric flags raised so far: OVERFLOW, INVALID, ACC_OVERFLOW (R38). -/
  flags : BitVec 3
  /-- The time from which it has been at the head of its queue (R82). -/
  since : Nat
  /-- Its operand read delivered nothing: it takes no effect and its job halts (R235). -/
  failed : Bool
  /-- The bytes it wrote as they were before, restored when its check ends in a lasting fault (R216). -/
  undo : List Host.Cell
  /-- The CRC-64 of a move over its bytes and its destination, formed at the source (R193). -/
  crc : Word
  deriving DecidableEq, Repr

/-- The kinds of sequencer access that hold it until they complete (R104). -/
inductive AccessKind where
  | load64 | load32 | store64 | store32 | loadDesc | storeDesc
  /-- The memory-side operation of an s.amo: 0 add, 1 max, 2 min, 3 swap, 4 compare-and-swap (R97, R101). -/
  | amo (op : Nat)
  deriving DecidableEq, Repr

/-- What the sequencer waits on (R80, R94, R104, R108, R111). -/
inductive SeqWait where
  | free
  /-- A semaphore wait of the instruction at pc: code and COUNT, blocked since a time; `own` when it is the wait of a
  sync.wait itself and not of the wait selector (R94). -/
  | sem (code count since : Nat) (own : Bool) (cls : Nat)
  /-- sync.idle with its mask. -/
  | idle (mask : BitVec 6) (since : Nat)
  /-- sync.until with its fabric time. -/
  | until (ft : Word) (since : Nat)
  /-- A load, store or atomic to remote scratchpad or HBM: address, destination register, store value, comparison value and,
  for an atomic already applied by the memory-side unit, the old value. -/
  | access (kind : AccessKind) (addr : BitVec 48) (reg : BitVec 5) (value expected : Word) (desc : BitVec 256)
      (old : Option Word)
  /-- sys.csrr: window offset and destination register. -/
  | csr (offset : Nat) (reg : BitVec 5)
  /-- Stalled: the queue of the next engine instruction has no room (R55). -/
  | full (q : QueueId)
  /-- sys.end has stopped fetching (R111). -/
  | ended
  deriving DecidableEq, Repr

/-- States of an accumulator bank (R145). -/
inductive BankPhase where
  | empty | accum | held | draining
  deriving DecidableEq, Repr

/-- Accumulation modes (R43): exact floating point, exact integer, ordered 16-bit, FP32 emulation, MX. -/
inductive AccMode where
  | exactFloat | exactInt | ordered | fp32 | mx
  deriving DecidableEq, Repr

/-- One data cell of one bank (R132, R197): the 88-bit accumulator or FP32 partial, its overflow bit and the two copies of the
flags N, P, M. -/
structure DataCell where
  acc : BitVec 88
  part : BitVec 32
  ovf : Bool
  flags : BitVec 3
  copy : BitVec 3
  /-- The output's own check term in ordered mode: the binary64 sum of its products (R200). -/
  term : BitVec 64
  deriving DecidableEq, Repr

/-- One check cell (R196, R198): the 104-bit sum of exact mode, or the binary64 sum and mass of ordered mode. -/
structure CheckCell where
  acc : BitVec 104
  sum : BitVec 64
  mass : BitVec 64
  deriving DecidableEq, Repr

/-- One entry of the product log (R206): the issue's queue entry and the CRC-64 of the operand bytes as read. -/
structure ProductIssue where
  entry : Entry
  crc : BitVec 64
  deriving DecidableEq, Repr

/-- One accumulator bank with the product it holds (R117, R132, R136, R145, R194, R206). Data cells lie in the order group,
output row, output column; check columns in the order array, group, output row; check rows by output column. -/
structure Bank where
  phase : BankPhase
  m : Nat
  n : Nat
  fold : Nat
  mode : AccMode
  fmtA : Fmt
  fmtB : Fmt
  /-- SCALED and SCALE of the two operands (R147). -/
  scaleA : Option (BitVec 32)
  scaleB : Option (BitVec 32)
  kacc : Nat
  cells : List DataCell
  /-- The loaded initial value: its format and one element code per output (R46, R132). -/
  cInit : Option (Fmt × List Nat)
  checkCols : List CheckCell
  checkRows : List CheckCell
  corners : List CheckCell
  /-- The first duplicate or parity mismatch: array, row, column (R201). -/
  mismatch : Option (Nat × Nat × Nat)
  log : List ProductIssue
  deriving DecidableEq, Repr

/-- A bank that holds no product (R117, R145). -/
def Bank.vacant : Bank :=
  { phase := .empty, m := 0, n := 0, fold := 1, mode := .exactFloat, fmtA := .fp4, fmtB := .fp4, scaleA := .none,
    scaleB := .none, kacc := 0, cells := [], cInit := .none, checkCols := [], checkRows := [], corners := [],
    mismatch := .none, log := [] }

/-- How far the check of a drain has come (R202, R207). -/
inductive DrainPhase where
  /-- Started or executed; the verdict is open. -/
  | open
  /-- The verdict is clean; the checked semaphore waits for the drain's completion. -/
  | clean
  /-- The verdict failed: the retry waits for the arrays. -/
  | retryWaiting
  /-- The retry has rerun the log and drained again; its verdict is open. -/
  | retryDrained
  deriving DecidableEq, Repr

/-- A drain in flight until its verdict is clean (R203), with the product it read (the log and the check values). -/
structure DrainRec where
  entry : Entry
  bank : Bool
  /-- The bank as the drain read it: what the comparisons of R195 use. -/
  image : Bank
  /-- The bank has been read (cycle Q of R146). -/
  read : Bool
  phase : DrainPhase
  /-- Location word and fabric time of the first failed comparison (R217). -/
  loc : Word
  failFt : Word
  failNow : Nat
  drill : Bool
  deriving DecidableEq, Repr

/-- States of the arrays' clock (R154). -/
inductive ArrayState where
  | gated | rise | active | warm | ramp
  deriving DecidableEq, Repr

/-- A held line of the instruction buffer (R78, R79): the number of a 4 KiB block of the core's own scratchpad and the bytes of that block as the
fill read them, in the canonical form of memory. -/
structure Line where
  block : Nat
  bytes : List Host.Cell
  deriving DecidableEq, Repr

/-- A line of the instruction buffer that is being filled: its block, and since when (R78). -/
structure LineFill where
  block : Nat
  since : Nat
  deriving DecidableEq, Repr

/-- The classes of mesh traffic (R248). -/
inductive MeshClass where
  | request | response | control
  deriving DecidableEq, Repr

/-- The far end of mesh traffic of a core: another core's scratchpad or statistics memory, HBM, the cores of a mesh row that one multicast reaches
(R247), or the fabric ports of a half, true for H1 (R248). -/
inductive MeshEnd where
  | core (k : Nat)
  | hbm
  | row (r : Nat)
  | ports (h1 : Bool)
  deriving DecidableEq, Repr

/-- Traffic of a core on the mesh (R247, R248): the dispatch number of the instruction that caused it, none for an access of the sequencer; its class; its
far end; and the bytes that its requester has reserved for the response before it sent the request. -/
structure MeshFlight where
  seq : Option Nat
  cls : MeshClass
  far : MeshEnd
  room : Nat
  deriving DecidableEq, Repr

/-- One core (R54 to R60, R78, R85, R145, R154). -/
structure Core where
  run : RunState
  /-- Identifier of the job that holds the core; 0 when none does. -/
  job : Word
  /-- Waiting for its scratchpad to be cleared after a job (R228). -/
  clearing : Bool
  /-- A start request that arrived while clearing (R87). -/
  startHeld : Bool
  sregs : Vector Word 32
  preds : Vector Bool 8
  dregs : Vector (BitVec 256) 16
  wsel : Vector (BitVec 32) 16
  pc : BitVec 48
  /-- sem0 to sem31 and xsem0 to xsem15 by semaphore code (R62). -/
  sems : Vector (BitVec 16) 48
  /-- Signals held for the cross-core semaphores before the core starts (R25), exact sums. -/
  heldSignals : Vector Nat 16
  qMove : List Entry
  qCtx0 : List Entry
  qCtx1 : List Entry
  qVector : List Entry
  qRow : List Entry
  qComm : List Entry
  dispatched : Nat
  /-- Lines held in the instruction buffer, most recently used first (R78). -/
  lines : List Line
  fills : List LineFill
  /-- What the core has under way on the mesh, oldest first (R248). -/
  mesh : List MeshFlight
  wait : SeqWait
  /-- The instruction that the sequencer decoded last: the one it waits or stalls with (R55, R80). -/
  current : Word
  /-- A trap that has stopped dispatch and waits for the started instructions (R83): the CORE_TRAP and CORE_TRAPINFO words. -/
  stopping : Option (Word × Word)
  /-- A lasting fault of the core's own units is among the conditions of that trap, recorded or suppressed: it leads to FENCED (R216). -/
  unitFailed : Bool
  trap : Word
  trapInfo : Word
  runcfg : Word
  numst : Word
  mmcfg : Word
  mmcyc : Word
  mmkwc : Word
  /-- Hundredths of a dummy operation not yet counted in mmkwc, 0 to 99 (R154, R156). -/
  kwRest : Nat
  mmcell : Word
  veccyc : Word
  rowcyc : Word
  /-- Core cycles since the core entered RUNNING (R109). -/
  cycles : Word
  bank0 : Bank
  bank1 : Bank
  /-- The check save area: the bank's product saved before a retry (R207). -/
  saved : Option Bank
  drains : List DrainRec
  arrays : ArrayState
  /-- Duty in percent when the arrays entered their state, and that time (R154). -/
  duty : Nat
  arraysSince : Nat
  /-- Choices of ctx0 in a row over an eligible ctx1 head (R150). -/
  weighted : Nat
  /-- The time at which the core entered IDLE held by no job (R85). -/
  idleSince : Nat
  deriving DecidableEq, Repr

/-! ## What a job holds, as the cores see it (spec/12 R354 to R357) -/

/-- A window of HBM held by a job (R229, R355). -/
structure Window where
  base : Nat
  size : Nat
  /-- 0 any half, 1 H0, 2 H1 (R355). -/
  half : Nat
  buddy : Bool
  zeroed : Bool
  deriving DecidableEq, Repr

/-- A request to halt a job, with what its halt record will say (R442, R445). -/
structure HaltRequest where
  job : Word
  cause : Nat
  detail : BitVec 32
  loc : Word
  ft : Word
  fenced : Bool
  deriving DecidableEq, Repr

/-- What one log entry or counter of the check block records (R217, R219). -/
structure CheckEvent where
  loc : Word
  ft : Word
  /-- 0 TRANSIENT, 1 LASTING, 2 VOID, 3 ABANDONED. -/
  outcome : Nat
  drill : Bool
  cls : Nat
  pc : BitVec 48
  retryUs : Nat
  job : Word
  /-- The core for which the event counts; none for a service core's message or request. -/
  core : Option Nat
  deriving DecidableEq, Repr

/-- One event as a sink would deliver it (R362): code, fabric time, job or 0, and the words of its record. -/
structure EventRec where
  code : BitVec 8
  ft : Word
  job : Word
  record : List Word
  deriving DecidableEq, Repr

/-- One event sink (R362): the identity key it is bound to (as its SM3 hash), its mask of ranges, its next SEQ, the events
queued with their SEQ, oldest first, and the count of dropped events. -/
structure Sink where
  key : BitVec 256
  mask : BitVec 16
  seq : Nat
  queue : List (Nat × EventRec)
  dropped : Nat
  deriving DecidableEq, Repr

/-- The variants of R1. -/
inductive Variant where
  | f | h | n
  deriving DecidableEq, Repr

/-- What the part is: its variant (R1), silicon stepping, serial number (R475), and which cores and stacks are disabled (R2). -/
structure Part where
  variant : Variant
  stepping : BitVec 8
  serial : BitVec 128
  absentCores : BitVec 32
  absentStacks : BitVec 8
  deriving DecidableEq, Repr

/-- A receive ring of a job on this device (R279, R355): its number, the address of its control area, log2 of slot size and count, and
the core (job rank) and xsem that it notifies. -/
structure RecvRing where
  ring : Nat
  base : Nat
  slog : Nat
  clog : Nat
  coreRank : Nat
  xsem : Nat
  deriving DecidableEq, Repr

/-- A remote reference (R352). -/
structure RemoteRef where
  srv : Nat
  rkey : Nat
  va : Nat
  len : Nat
  deriving DecidableEq, Repr

/-- A request of a client of a serving endpoint (R369, R370). -/
structure GenReq where
  client : BitVec 256
  num : Nat
  params : List Byte
  tokens : List (BitVec 32)
  complete : Bool
  stopped : Bool
  slot : Option Nat
  deriving DecidableEq, Repr

/-- A response (R349, R351). -/
structure Response where
  status : Nat
  body : List Byte
  deriving DecidableEq, Repr

/-- A session's datagrams and requests, Ningonus or of a serving endpoint (R346, R347, R349): the peer's identity key as its SM3 hash, the SID, the
port of its HELLO, whether it has a network A and a network B address, the time of its last authenticated datagram, the highest accepted CTR with the
accepted ones of its window, and the own counter; then the highest executed REQID, the kept responses, the requests whose turn has come with their
MTYPE, and those held for missing ones with their time of arrival. -/
structure Channel where
  key : BitVec 256
  sid : Word
  port : Nat
  nets : Bool × Bool
  lastAuth : Nat
  rxTop : Option Nat
  rxSeen : List Nat
  tx : Nat
  highest : Option (BitVec 32)
  kept : List (BitVec 32 × Response)
  ready : List (BitVec 32 × Nat)
  waiting : List (BitVec 32 × Nat × Nat)
  deriving DecidableEq, Repr

/-- A service-queue request that a service is carrying out (R363, R366 to R368): its index, the number of its transfer or messages, the request's 64
bytes, what remains (0 data and table, 1 trailer), and the failure code of its messages, 0 for none. -/
structure SvcRequest where
  index : Nat
  xfer : Nat
  entry : List Byte
  stage : Nat
  failed : Nat
  deriving DecidableEq, Repr

/-- A service of a job (R363): kind 1 ingest, 2 checkpoint, 3 serving; its signal, its queue, its specific bytes 16 to 63, and how far
it has come: list index, epoch and byte offset of the ingest, the client sessions, requests and steps of the endpoint. -/
structure Service where
  kind : Nat
  nrank : Nat
  nsem : Nat
  qwin : Nat
  qlog : Nat
  qoff : Nat
  spec : List Byte
  running : Bool
  index : Nat
  epoch : Nat
  offset : Nat
  clients : List Channel
  requests : List GenReq
  step : Nat
  req : Option SvcRequest
  deriving DecidableEq, Repr

/-- How far a job has come (R357). -/
inductive JobPhase where
  /-- Windows are being zeroed, groups created and the program fetched. -/
  | admitted
  | starting
  | running
  deriving DecidableEq, Repr

/-- One job on this device (R353 to R357). -/
structure Job where
  id : Word
  trapPol : Nat
  windows : List Window
  /-- The group definitions of its descriptor (R290, R292). -/
  groups : List GroupDef
  rings : List RecvRing
  phase : JobPhase
  /-- Digest of its descriptor, and the hash of the key that signed its SUBMIT. -/
  digest : BitVec 256
  key : BitVec 256
  /-- Cores chosen, and those that have reached sys.end. -/
  cores : BitVec 32
  ended : BitVec 32
  /-- ENTRY, PLOAD, MMCFG, RUNCFG, and the local address of the argument block (R354). -/
  entryOff : Nat
  pload : Nat
  mmcfg : Word
  runcfg : Word
  argAddr : Nat
  servers : List (BitVec 256)
  services : List Service
  /-- Cancelled by the owner of the job on this device (R358). -/
  cancelled : Bool
  deriving DecidableEq, Repr

/-- A SUBMIT that has been accepted and whose descriptor is not yet read (R353, R357): digest, signing key, NL, the server's entry,
and the work list entry it came from. -/
structure Admission where
  digest : BitVec 256
  key : BitVec 256
  nl : Nat
  ref : RemoteRef
  server : BitVec 256
  deriving DecidableEq, Repr

/-- A completion record (R361). -/
structure JobRecord where
  job : Word
  seq : Nat
  kind : Nat
  reason : Nat
  ft : Word
  arg : Word
  detail : List Byte
  deriving DecidableEq, Repr

/-- A completion ring on a server (R360): its place, the indices, the records not yet written, the next SEQ, and whether the job's final record has
been formed. -/
structure ComplRing where
  job : Word
  server : BitVec 256
  ref : RemoteRef
  prod : Nat
  cons : Nat
  waiting : List JobRecord
  nextSeq : Nat
  final : Bool
  deriving DecidableEq, Repr

/-- A work list (R359): its region, the poll interval in ms, the consumer index, and the time of the last poll. -/
structure WorkList where
  server : BitVec 256
  ref : RemoteRef
  interval : Nat
  cons : Nat
  polled : Option Nat
  deriving DecidableEq, Repr

/-- A BUDDY window retained after a halt (R447). -/
structure Retained where
  job : Word
  base : Nat
  size : Nat
  since : Nat
  deriving DecidableEq, Repr

/-! ## Sessions and host networks (spec/12) -/

/-- An EVENT request of the device that is not yet acknowledged (R349, R362): REQID, sink, SEQ, times of the first and of the last
sending, the present interval. -/
structure EventReq where
  reqid : BitVec 32
  sink : Nat
  seq : Nat
  begun : Nat
  sent : Nat
  interval : Nat
  deriving DecidableEq, Repr

/-- An open Ningonus session (R346 to R349). Role 0 owner, 1 operator, 2 observer, 3 claimant. -/
structure Session where
  ch : Channel
  role : Nat
  evNext : BitVec 32
  evOut : List EventReq
  deriving DecidableEq, Repr

/-- A host port (R342, R343): its link, its addresses, its VLAN, the LLDP neighbour, echo replies in the present second, frames to
serve. -/
structure HostPort where
  up : Bool
  dark : Bool
  fixed : Bool
  addr : BitVec 128
  gateway : BitVec 128
  vlan : Nat
  neighbour : Option (List Byte)
  echoes : Nat
  echoSecond : Nat
  deriving DecidableEq, Repr

/-- An RC connection to a server (R343, R344): its rate is `rate` Gb/s halved `halved` times; time of the last halving, time of the last CNP or rise,
pieces outstanding as transfer and number. A list of connections stands in the order of their next turns. -/
structure Conn where
  server : BitVec 256
  port : Nat
  up : Bool
  rate : Nat
  halved : Nat
  cutAt : Nat
  riseAt : Nat
  pieces : List (Nat × Nat)
  deriving DecidableEq, Repr

/-- What an RDMA transfer serves. -/
inductive XferUse where
  | descriptor (digest : BitVec 256)
  | program (job : Word)
  | update
  | checkpoint (job : Word) (svc : Nat)
  | ingest (job : Word) (svc : Nat)
  deriving DecidableEq, Repr

/-- A transfer in pieces of 1 MiB (R344, R345): pieces waiting for a connection with the time since when, those of them that a failed connection gave
back with the network (true for B) on which they are issued again, and its outcome: none while it runs. -/
structure Xfer where
  id : Nat
  purpose : XferUse
  server : BitVec 256
  waiting : List (Nat × Nat)
  bound : List (Nat × Bool)
  flying : List Nat
  outcome : Option Bool
  deriving DecidableEq, Repr

/-! ## Hull and supervisory ring (spec/11) -/

/-- A planned or forced swap of a cartridge (R329, R331, R332): the worn laser, the spare (none when the wavelength goes dark), the
wavelength, the stage (0 drain begun, 1 drained, 2 transferred, 3 soaking), whether the paths were drained or went DOWN, and the paths that
come back UP. -/
structure Swap where
  laser : Nat
  spare : Option Nat
  wave : Nat
  stage : Nat
  planned : Bool
  paths : List Nat
  /-- Uncorrectable codewords of its lanes as the soak began. -/
  uncorr : List (Nat × Nat)
  deriving DecidableEq, Repr

/-- The hull's own state besides its registers (R323, R327, R330). -/
structure Hull where
  swaps : Vector (Option Swap) 2
  /-- Lasers whose swap is decided and waits, oldest first, with the paths that the failure of each took DOWN. -/
  queued : List (Nat × List Nat)
  /-- The last 60 samples of each laser's bias, newest first, in units of 0.05 mA. -/
  samples : Vector (List Nat) 24
  /-- BOL bias of each laser in units of 0.1 mA, and BOL output power in units of 0.01 dBm, from the cartridge memories (R314). -/
  bol : Vector Nat 24
  bolPower : Vector (BitVec 16) 24
  /-- The port that each half sweeps (R322). -/
  sweepPort : Vector (Option Nat) 2
  /-- Lanes of which event 0x48 has been raised, with the time. -/
  berWarned : List (Nat × Nat)
  /-- Time at which each lane began its present lock, or entered LOCKED. -/
  laneSince : Vector Nat 128
  deriving DecidableEq, Repr

/-- The supervisory ring (R336 to R339): the by-pass, the next SEQ, the time and source of the last heartbeat, and whether its
absence has been reported. -/
structure Ring where
  closed : Bool
  seq : BitVec 16
  heardAt : Nat
  heard : List (BitVec 64 × Nat)
  missing : Bool
  deriving DecidableEq, Repr

/-! ## Power, heat, time (spec/13) -/

/-- The power manager's state besides its registers (R383 to R390). -/
structure Power where
  /-- Windows of 100 µs in a row with a disagreement above 12%, and time since when it has been at or below 6%. -/
  disagree : Nat
  agreeSince : Nat
  /-- Time of main power with a core RUNNING, in ns, and whether coefficients are valid. -/
  runNs : Nat
  calibrated : Bool
  /-- Budget assigned by a pool, none outside a pool. -/
  budget : Option Nat
  /-- Time of each core's last droop window, or of the last rise of its droop ceiling. -/
  droopAt : Vector Nat 32
  /-- Cores whose clock is stopped in the present slot, by the pause duty or by the peak limit. -/
  stopped : BitVec 32
  peakStop : Bool
  /-- Aligned load steps that wait: cores to enter RISE or to start. -/
  aligned : List Nat
  /-- Times at which cores entered RISE in the last 10 µs, newest first. -/
  riseTimes : List Nat
  /-- Rise-limit and throttle-event bookkeeping: times of the last 0x55 and of each core's 0x5B. -/
  throttleAt : Option Nat
  droopEventAt : Vector (Option Nat) 32
  /-- Cores being throttled; thermal pause of the stacks (0 to 7) and hull sites (8 to 15) in units of 1/256; run slots lost to heat by core. -/
  throttled : BitVec 32
  pauses : Vector Nat 16
  extraPause : Vector Nat 32
  /-- The inlet is outside its range; the sites whose last sample was 110 °C or more; HBM and memory-side units are withheld for power. -/
  inletOut : Bool
  hot : List Nat
  pausing : Bool
  /-- MODE, EQ and ALIGN in force: they follow their fields at a control interval. -/
  mode : Bool
  eq : Bool
  align : Nat
  deriving DecidableEq, Repr

/-- A member as the last reports show it (R395 to R397): chip, report, epochs missed. -/
structure PoolMember where
  chip : Nat
  w : Nat
  b : Nat
  base : Nat
  hash : BitVec 32
  missed : Nat
  arrived : Bool
  deriving DecidableEq, Repr

/-- Pool membership of this chip (R394 to R397): the members heard, the own budget for the next epoch, the own base cap, chips excluded since the last
epoch. -/
structure Pool where
  members : List PoolMember
  budget : Nat
  base : Nat
  epoch : Nat
  excluded : List Nat
  /-- RUNNING core cycles of the last 10 ms, and those of them that waited. -/
  runCycles : Nat
  waitCycles : Nat
  deriving DecidableEq, Repr

/-- Fabric time's state besides FT_STAT (R406, R407): the best candidate known, the parent, good exchanges in a row, the time of the
last exchange, whether the one step of ACQUIRE has been made, announcements heard, and the ns still to be slewed with the time of the last correction. -/
structure TimeSync where
  best : Nat × Nat
  parent : Option Nat
  good : Nat
  lastExchange : Nat
  stepped : Bool
  heard : List (Nat × (Nat × Nat) × Nat)
  ptpLocked : Bool
  slew : Int
  slewAt : Nat
  deriving DecidableEq, Repr

/-! ## Boot, flash, fuses, pins (spec/14, spec/17) -/

/-- The contacts of the low-speed connector and the inputs (R482, R485, R486), and the outputs that the module drives. -/
structure Pins where
  aux : Bool
  mainIn : Bool
  mainEn : Bool
  /-- RESET_N is low. -/
  resetLow : Bool
  slotId : BitVec 6
  /-- After an overvoltage main power waits until MAIN_EN is next driven high (R485). -/
  needEdge : Bool
  pwrGood : Bool
  /-- THERM_TRIP_N is driven low. -/
  thermTrip : Bool
  deriving DecidableEq, Repr

/-- An enrolled role key (R348, R419): SM3 hash of the key, role 1 operator or 2 observer. -/
structure RoleKey where
  hash : BitVec 256
  role : Nat
  deriving DecidableEq, Repr

/-- A journal record (R414, R460), with the module time of its entry; that of a thermal shutdown is marked once resumed (R404). -/
structure JournalRec where
  type : Nat
  boot : Nat
  ft : Word
  body : List Word
  time : Nat
  resumed : Bool
  deriving DecidableEq, Repr

/-- Flash, fuses and the one-time-programmable counters (R413, R414, R417, R419, R422): what outlives a reset and a loss of power. -/
structure Flash where
  /-- The image slot: none when its contents are invalid. -/
  slot : Option Image
  cfgOk : Bool
  keys : List RoleKey
  ckeys : BitVec 9
  ringKey : Bool
  recovery : Option (List Byte)
  ilv : Nat
  ports : List PortAddress
  vlans : List (Nat × BitVec 12)
  /-- Configuration and plan written and in force at the next reset. -/
  newSettings : Option ConfigItems
  newPlan : Option PlanItems
  /-- Owner slots, programmed in order. -/
  owners : List (BitVec 256)
  svn : Nat
  bootCnt : Nat
  wdf : Nat
  badr : Nat
  calOk : Bool
  powCal : Bool
  /-- Lanes with a stored lock point; the ring-site temperature in units of 1/16 °C at which each was found; when a port's points were last rewritten after
  a warm lock (R323). -/
  points : BitVec 128
  pointTemp : Vector Int 128
  pointAt : Vector (Option Nat) 16
  journal : List JournalRec
  savedFt : Word
  trips : Nat
  /-- The last thermal shutdown has not been resumed (R403, R404). -/
  held : Bool
  /-- RETEST requests by stack (R233). -/
  retest : Vector (BitVec 32) 8
  /-- Health state as last journalled: T with 16 fractional bits, times of lasting faults (R450). -/
  jrnT : Nat
  jrnLasting : List Nat
  identity : BitVec 256
  unproven : Bool
  /-- Per cartridge: its serial number and the feeds of its switch matrix; per laser: out of use for good as 6 RETIRED or 8 FAILED, else 0
  (R313, R327, R331). -/
  cartSerial : Vector (BitVec 32) 2
  wmap : Vector (BitVec 32) 2
  outOfUse : Vector Nat 24
  /-- The laser of each host port: 0 its own, 1 HS0, 2 HS1; 3 more when the port is dark for good with it (R335). -/
  hostUse : Vector Nat 8
  deriving DecidableEq, Repr

/-- The running boot (R424 to R426): rows of the boot table done, cause, time of its start, whether the image was recovered, recovery
port (0 to 3) and wait in seconds. -/
structure Boot where
  stage : Nat
  cause : Nat
  since : Nat
  watchdog : Bool
  recovering : Bool
  port : Nat
  waitSec : Nat
  waiting : Bool
  /-- The time at which the wait between two rounds began. -/
  waitFrom : Nat
  deriving DecidableEq, Repr

/-- An update in progress (R429, R430): its target and object once checked, and whether the write is being repeated. -/
structure Update where
  target : Nat
  body : UpdateBody
  repeated : Bool
  deriving DecidableEq, Repr

/-! ## Health and drills (spec/15) -/

/-- A drill that waits for its unit's work or whose outcome is open (R453 to R455). -/
structure Drill where
  kind : Nat
  unit : Nat
  since : Nat
  injected : Bool
  deriving DecidableEq, Repr

/-- The health score's state besides its registers (R449 to R452). -/
structure Health where
  /-- T with 16 fractional bits, and contributions since the last evaluation. -/
  t : Nat
  added : Nat
  /-- Times of transient contributions of the last hour, and of lasting faults of the last 30 days. -/
  transients : List Nat
  lasting : List Nat
  /-- Collective completions of the last 24 h and whether this chip was LAST. -/
  late : List (Nat × Bool)
  tripAt : Option Nat
  /-- An escape of kinds 7 to 11 keeps the module degraded (R455). -/
  escaped : Bool
  /-- Kind, unit and time of the last drill that fell due at each unit (R454). -/
  drilled : List (Nat × Nat × Nat)
  deriving DecidableEq, Repr

/-! ## Fabric (spec/09) -/

/-- The name of a stream at its source: sending core or service core, destination chip, traffic class, routing class (R272). -/
structure StreamKey where
  core : Nat
  svc : Bool
  peer : Nat
  tc : Nat
  rc : Bool
  deriving DecidableEq, Repr

/-- A stream at its source: the next MSGID (R272). -/
structure OutStream where
  key : StreamKey
  next : BitVec 32
  deriving DecidableEq, Repr

/-- A record or a chunk of a collective under way to a rank of a group: the chunk's sequence number, the kind of its data, and the elements with their codes
(R299, R301). -/
inductive CollItem where
  | record (grp rank : Nat) (r : DescRec)
  | chunk (grp rank : Nat) (seq : BitVec 32) (kind : ChunkKind) (elems : List (Nat × Nat))
  deriving DecidableEq, Repr

/-- A message not yet acknowledged at its source (R273 to R277). -/
structure OutMsg where
  key : StreamKey
  msgid : BitVec 32
  /-- MOP: 1 PUT, 2 GET, 3 AMO, 4 SEND, 5 SIGNAL (R274); 0 for a record or chunk of a collective, to which R274 gives no code. -/
  mop : Nat
  isNew : Bool
  mc : Bool
  /-- Dispatch number of the instruction in the comm queue, or the number of a service's request. -/
  seq : Nat
  job : Word
  addr : Word
  desc : BitVec 256
  aop : Nat
  ring : Nat
  arg : Nat
  data : List Byte
  since : Nat
  /-- Intermediate chips and destination of its route; empty while no route exists (R258, R259). -/
  route : List Nat
  /-- Its first directed path; none for the own chip. -/
  path : Option Nat
  /-- The offsets of the paths that the hops of its route take (R255). -/
  hops : List Nat
  /-- Answered RING_FULL or BUSY, and waiting to be sent again (R280); the time of that answer. -/
  retry : Bool
  retryAt : Nat
  /-- Its CRC, or that of its response, has failed once (R214), and whether a drill made it fail (R453). -/
  crcFailed : Bool
  drill : Bool
  /-- What it carries of a collective, if it does. -/
  coll : Option CollItem
  deriving DecidableEq, Repr

/-- A stream at its receiver (R277). -/
structure InStream where
  key : StreamKey
  /-- Arrival half: false H0, true H1. -/
  half : Bool
  expected : BitVec 32
  /-- MSGID of the last message with NEW that set the expected one. -/
  begun : BitVec 32
  /-- Kept AMO_OLD responses. -/
  olds : List (BitVec 32 × Word)
  /-- A RESEND has been drawn for the expected MSGID, and when. -/
  resendDrawn : Bool
  drawnAt : Nat
  last : Nat
  deriving DecidableEq, Repr

/-- A planned change of a path, made once its retry buffer has drained (R271): retraining after CRC_LASTING (R281), or the register word of a quarantine
or of a hold for level mismatch (R283). -/
inductive PathChange where
  | retrain
  | settle (w : Word)
  deriving DecidableEq, Repr

/-- The link layer of one directed path and of the receiver of the same port and wavelength (R261 to R267). -/
structure Link where
  /-- Next LSEQ, flits not yet acknowledged, flits waiting to be sent, resends without progress, XOFF by class, epoch, TC0 flits
  sent since the last TC1 flit; whether the path takes no new flits, and the planned change that waits for its drain. -/
  lseq : BitVec 16
  unacked : List FlitRef
  waiting : List FlitRef
  resends : Nat
  xoff : BitVec 3
  epoch : Nat
  tc0Run : Nat
  draining : Bool
  change : Option PathChange
  /-- The secret of its key agreement, the flit counter of the IV, and flits sent in the present epoch (R264). -/
  secret : BitVec 256
  counter : BitVec 64
  epochSent : Nat
  /-- Receiver: next LSEQ expected, NAK to be sent, flits buffered for forwarding, and those of them on their second hop in one dimension in the escape
  buffer (R258, R267), XOFF sent by class, times of recent tag failures. -/
  rxExpected : BitVec 16
  rxNak : Bool
  rxBuffer : List FlitRef
  rxEscape : List FlitRef
  rxXoff : BitVec 3
  tagTimes : List Nat
  /-- The secret of the path that arrives here, its epoch, whether the key of the epoch before is held, and the flits since the flip (R264). -/
  rxSecret : BitVec 256
  rxEpoch : Nat
  rxPrevKey : Bool
  rxSince : Nat
  deriving DecidableEq, Repr

/-- A link that has sent and received nothing. -/
def Link.idle : Link :=
  { lseq := 0, unacked := [], waiting := [], resends := 0, xoff := 0, epoch := 0, tc0Run := 0, draining := false, change := none,
    secret := 0, counter := 0, epochSent := 0, rxExpected := 0, rxNak := false, rxBuffer := [], rxEscape := [], rxXoff := 0, tagTimes := [],
    rxSecret := 0, rxEpoch := 0, rxPrevKey := false, rxSince := 0 }

/-- The wiring plan in the configuration area of flash (R250): entries by chip ID, 0 for any genuine LD9200. -/
structure Plan where
  ver : BitVec 16
  nx : Nat
  ny : Nat
  perm : Bool
  entries : List (Nat × BitVec 256)
  deriving DecidableEq, Repr

/-! ## Groups and collectives (spec/10) -/

/-- A JOIN record of a member (R292). -/
structure JoinRec where
  rank : Nat
  job : Word
  hash : BitVec 256
  cpl : Nat
  /-- Reason of a failed local check, 0 for none. -/
  failed : Nat
  deriving DecidableEq, Repr

/-- An element received for a collective: kind, sending rank, element number and code, in order of arrival. -/
structure Piece where
  kind : ChunkKind
  src : Nat
  elem : Nat
  code : Nat
  deriving DecidableEq, Repr

/-- A collective that has started on a member (R298 to R304). -/
structure Running where
  /-- Dispatch number of its instruction. -/
  entry : Nat
  own : DescRec
  /-- Records held, by rank (R302). -/
  records : List (Nat × DescRec)
  pieces : List Piece
  /-- Result elements that this member has formed or taken: number and code. -/
  results : List (Nat × Nat)
  /-- The row partials of a two-dimensional group have been sent on. -/
  rowSent : Bool
  /-- Results have been spread to the other members. -/
  spread : Bool
  /-- Chunks sent, and those of them that their peer has not consumed (R299): rank, kind, first element and count. -/
  sent : List (Nat × ChunkKind × Nat × Nat)
  unconsumed : List (Nat × ChunkKind × Nat × Nat)
  /-- Numeric flags of the combinations (R38). -/
  flags : BitVec 3
  deriving DecidableEq, Repr

/-- One member core of a group on this device (R298): its queue of dispatch numbers, oldest first. -/
structure Member where
  core : Nat
  rank : Nat
  queue : List Nat
  run : Option Running
  nextSeq : BitVec 32
  done : Nat
  /-- Sequence number and DD of the collective that it completed last, where that writes DD (R305). -/
  last : Option (BitVec 32 × BitVec 256)
  deriving DecidableEq, Repr

/-- States of a group slot that is held (R309). -/
inductive GroupPhase where
  | creating | ready | aborted | halted
  deriving DecidableEq, Repr

/-- One group slot of this device (R289 to R292). -/
structure Group where
  job : Word
  gdef : GroupDef
  phase : GroupPhase
  /-- Members, and for a chip group this chip's rank (R289). -/
  p : Nat
  rank : Nat
  cpl : Nat
  joins : List JoinRec
  since : Nat
  members : List Member
  /-- Records and data that have arrived before this member started the collective (R302): member core, sending rank. -/
  early : List (Nat × Nat × DescRec)
  earlyPieces : List (Nat × BitVec 32 × Piece)
  /-- The program has read or written the staging area (R291). -/
  breached : Bool
  deriving DecidableEq, Repr

/-- What a response carries (R274). -/
inductive Reply where
  | ack
  | getData (data : List Byte)
  | amoOld (old : Word)
  /-- RESEND: the expected MSGID; `crc` when it asks for a message whose CRC-64 failed (R214). -/
  | resend (expected : BitVec 32) (crc : Bool)
  | fail (status : Nat)
  deriving DecidableEq, Repr

/-- What the module sends out. The list is the model's own record of the outside's view. -/
inductive Output where
  | event (e : EventRec)
  /-- A message leaves on its route (R272 to R275). -/
  | message (m : OutMsg)
  /-- A response to a chip (R274). -/
  | reply (dest : RespTo) (r : Reply)
  /-- A flit leaves on a directed path (R261). -/
  | flit (path : Nat) (f : FlitRef)
  /-- The usable paths of this chip, sent to a member of its row or column (R260). -/
  | pathStates (dest : Nat) (usable : BitVec 128)
  /-- A JOIN record to a chip (R292). -/
  | join (dest : Nat) (grp : Nat) (rec : JoinRec)
  /-- A descriptor record, a chunk of elements and an ABORT record to a rank of a group (R301, R299, R304). -/
  | descRec (grp dest : Nat) (rank : Nat) (rec : DescRec)
  | chunk (grp dest : Nat) (rank : Nat) (kind : ChunkKind) (seq : BitVec 32) (elems : List (Nat × Nat))
  | abort (grp dest : Nat) (report : AbortReport)
  /-- A HALT record on TC2 to a chip of the halt set (R443). -/
  | halt (dest : Nat) (m : HaltMsg)
  /-- A Ningonus datagram: HELLO_ACK with its status, a response, an EVENT, a TOKENS message (R346, R349, R362, R369). -/
  | helloAck (port : Nat) (status : Nat) (sid : Word)
  | response (port : Nat) (sid : Word) (reqid : BitVec 32) (r : Response)
  | eventMsg (port : Nat) (sid : Word) (reqid : BitVec 32) (seq : Nat) (e : EventRec)
  | tokens (port : Nat) (sid : Word) (client : BitVec 256) (num status : Nat) (last : Bool) (toks : List (BitVec 32))
  /-- A request to a server's queue pair for an RC connection from a port, with the path MTU asked for (R343, R344). -/
  | connect (port : Nat) (server : BitVec 256) (pathMtu : Nat)
  /-- A fetch of the recovery image on a port: from the configuration's recovery server, or from the one that DHCP names (R431). -/
  | fetchImage (port : Nat) (server : Option (List Byte))
  /-- An RDMA WRITE or READ of bytes at a server; `enciphered` when the bytes travel as ciphertext (R344, R360, R367). -/
  | rdmaWrite (server : BitVec 256) (rkey va : Nat) (data : List Byte) (enciphered : Bool)
  | rdmaRead (server : BitVec 256) (rkey va len : Nat)
  /-- A frame of a host port that is no session's: LLDP, an echo reply, a CNP (R343). -/
  | lldp (port : Nat)
  | echo (port : Nat) (v6 : Bool)
  /-- A supervisory frame (R338). -/
  | supFrame (f : SupFrame)
  /-- A planned-change notice for paths (R260, R329), a pool report (R395), a root announcement and a time exchange (R406, R407). -/
  | notice (dest : Nat) (leaving : BitVec 128)
  | poolReport (dest : Nat) (m : PoolMsg)
  | announce (dest : Nat) (best : Nat × Nat)
  | exchange (dest : Nat)
  deriving DecidableEq, Repr

/-- Why a step stops with a fault. No command of this model faults: every command the spec describes has an effect, and one
whose occasion is absent leaves the state as it is. The one reason stands for a queue entry that the model could not carry
out at all; nothing raises it. Safe. -/
inductive Fault where
  | stuck
  deriving DecidableEq, Repr

/-- Why a step is refused. -/
inductive Refusal where
  /-- The command has no meaning yet; raised by the arm of `exec` that names it. Safe. -/
  | notModelled (mnemonic : String)
  deriving DecidableEq, Repr

/-- The whole module. -/
structure State where
  /-- Commands that are waiting, first in first out. -/
  pending : List Instr
  /-- Time in ns, advanced by the idle step. -/
  now : Nat
  /-- How many free values have been drawn. -/
  fresh : Nat
  /-- What the module has sent, newest first. -/
  out : List Output
  /-- The registers of the CSR window that have no other home here: window offset and value, canonical (R464, R466). -/
  regs : List (Nat × Word)
  /-- Bytes of scratchpad, statistics memory and HBM by local address, canonical. -/
  mem : List Host.Cell
  /-- Poisoned scratchpad words and HBM 64-byte units by address, rising (R235). -/
  poison : List Nat
  cores : Vector Core 32
  /-- Fabric time in ns (R405). -/
  ft : Word
  part : Part
  /-- H1 is lost with the die-to-die link until a boot finds it again (R20). -/
  h1Lost : Bool
  sinks : Vector (Option Sink) 4
  jobs : List Job
  plan : Option Plan
  links : Vector Link 128
  outStreams : List OutStream
  outMsgs : List OutMsg
  inStreams : List InStream
  /-- PUTs whose turn has come and whose scratchpad is being cleared: message, target descriptor, data (R286). -/
  heldPuts : List (Msg × BitVec 256 × List Byte)
  /-- Responses that wait at this chip for a route, oldest first (R259). -/
  heldReplies : List (Msg × Reply)
  /-- Usable paths that chips of the own row and column have reported (R260). -/
  known : List (Nat × BitVec 128)
  /-- Times of CRC_LASTING failures by path, and paths held DOWN until the next boot (R281). -/
  crcTimes : List (Nat × Nat)
  heldDown : List Nat
  /-- What the last discovery of each port found; none before it (R284). -/
  portFinds : Vector (Option (Vector PathFinding 8)) 16
  groups : Vector (Option Group) 64
  /-- JOIN records that arrived before this device created the group (R292). -/
  earlyJoins : List (Nat × JoinRec)
  /-- Creations under way whose own local check has failed: they hold no slot (R292). -/
  forming : List Group
  /-- Groups of a job that could not be created: job, slot, reason, ranks concerned (R292). -/
  groupFails : List (Word × Nat × Nat × List Nat)
  /-- Events 0x85 raised in the current second (R303). -/
  lateRaised : Nat
  /-- Halt causes that have arisen and wait for their halt (R442, R443). -/
  halts : List HaltRequest
  /-- Check events raised and withheld in the current second (R219). -/
  checkRaised : Nat
  checkWithheld : Nat
  /-- Events 0x20 raised in the current second (R244). -/
  eccRaised : Nat
  health : Health
  drills : List Drill
  /-- The running acquittal test: steps finished (R456). -/
  acquittal : Option Nat
  /-- Duplicate HALTs are counted for jobs halted here: identifiers (R443). -/
  halted : List Word
  retained : List Retained
  admissions : List Admission
  rings : List ComplRing
  /-- The last completion record of each job (R350). -/
  lastRecords : List JobRecord
  worklists : Vector (Option WorkList) 4
  sessions : Vector (Option Session) 64
  ports : Vector HostPort 8
  conns : List Conn
  xfers : List Xfer
  hull : Hull
  ring : Ring
  power : Power
  pool : Pool
  time : TimeSync
  pins : Pins
  flash : Flash
  /-- The image that runs; none while nothing does. -/
  running : Option Image
  boot : Boot
  update : Option Update
  /-- A RESET that waits: for the end of a write, or for the last job (R430). -/
  resetWaits : Bool
  resetAfterJobs : Bool
  /-- Second of the last event-rate evaluation (R219). -/
  second : Nat
  /-- Number of the next transfer or service message (the model's own). -/
  nextXfer : Nat
  /-- Networks A and B have been reported lost (R345). -/
  netLost : BitVec 2
  /-- The debug token mailbox's data, and tokens refused since the last boot (R434, R477). -/
  mailbox : Vector Word 15
  refusals : Nat
  deriving DecidableEq, Repr

/-! ## Reset -/

/-- Reset values of CORE_RUNCFG and CORE_MMCFG (R90, R158). -/
def runcfgReset : Word := 0x7530_0008_2082_0820
def mmcfgReset : Word := 0x0000_0001_0000_000F

/-- A core that is gated: registers at their reset values (R85, R86); its register file, which the spec gives no reset value before a job
starts, is 0 (DESIGN CHOICE, log 2). -/
def Core.atReset : Core :=
  { run := .gated, job := 0, clearing := false, startHeld := false, sregs := Vector.replicate 32 0, preds := Vector.replicate 8 false
    dregs := Vector.replicate 16 0, wsel := Vector.replicate 16 0, pc := 0, sems := Vector.replicate 48 0
    heldSignals := Vector.replicate 16 0, qMove := [], qCtx0 := [], qCtx1 := [], qVector := [], qRow := [], qComm := [], dispatched := 0
    lines := [], fills := [], mesh := [], wait := .free, current := 0, stopping := none, unitFailed := false, trap := 0, trapInfo := 0, runcfg := runcfgReset, numst := 0
    mmcfg := mmcfgReset, mmcyc := 0, mmkwc := 0, kwRest := 0, mmcell := 0, veccyc := 0, rowcyc := 0, cycles := 0, bank0 := Bank.vacant
    bank1 := Bank.vacant, saved := none, drains := [], arrays := .gated, duty := 0, arraysSince := 0, weighted := 0, idleSince := 0 }

/-- A host port that is off (R334, R373). -/
def HostPort.off : HostPort :=
  { up := false, dark := false, fixed := false, addr := 0, gateway := 0, vlan := 0, neighbour := none, echoes := 0, echoSecond := 0 }

/-- The power manager before main power (R383, R390 to R392): MODE, EQ and ALIGN at their reset values. -/
def Power.atReset (calibrated : Bool) : Power :=
  { disagree := 0, agreeSince := 0, runNs := 0, calibrated := calibrated, budget := none, droopAt := Vector.replicate 32 0, stopped := 0
    peakStop := false, aligned := [], riseTimes := [], throttleAt := none, droopEventAt := Vector.replicate 32 none, throttled := 0
    pauses := Vector.replicate 16 0, extraPause := Vector.replicate 32 0, inletOut := false, hot := [], pausing := false
    mode := false, eq := true, align := 0 }

/-- No pool (R394). -/
def Pool.off : Pool := { members := [], budget := 0, base := 0, epoch := 0, excluded := [], runCycles := 0, waitCycles := 0 }

/-- Fabric time FREE (R407). -/
def TimeSync.free : TimeSync :=
  { best := (15, 0xFFFF), parent := none, good := 0, lastExchange := 0, stepped := false, heard := [], ptpLocked := false, slew := 0, slewAt := 0 }

/-- The image that stands in the slot of the module as the model takes it (DESIGN CHOICE, log 3): good, version 1.0.0, SVN 0, every level
1. -/
def Image.factory : Image :=
  { formatOk := true, rootOk := true, vendorOk := true, ownerSigOk := true, digestOk := true, major := 1, minor := 0, patch := 0, svn := 0
    fpl := 1, fplmin := 1, cplmin := 1, cplmax := 1, nlmin := 1, nlmax := 1, raiseSvn := false, okey := 0, okeyZero := true, digest := 0 }

/-- The flash and fuses of a module that has never been owned or booted (R419, R425; DESIGN CHOICE, log 3). -/
def Flash.factory : Flash :=
  { slot := some Image.factory, cfgOk := false, keys := [], ckeys := 0, ringKey := false, recovery := none, ilv := 0, ports := [], vlans := []
    newSettings := none, newPlan := none, owners := [], svn := 0, bootCnt := 0, wdf := 0, badr := 0, calOk := false, powCal := false, points := 0
    pointTemp := Vector.replicate 128 0, pointAt := Vector.replicate 16 none
    journal := [], savedFt := 0, trips := 0, held := false, retest := Vector.replicate 8 0, jrnT := 0, jrnLasting := [], identity := 0
    unproven := true, cartSerial := Vector.replicate 2 0, wmap := Vector.replicate 2 0x7654_3210, outOfUse := Vector.replicate 24 0
    hostUse := Vector.replicate 8 0 }

/-- The pins of a module without power: nothing applied, RESET_N pulled up, the slot strap open (R482, R483). -/
def Pins.unpowered : Pins :=
  { aux := false, mainIn := false, mainEn := false, resetLow := false, slotId := 0x3F, needEdge := false, pwrGood := false, thermTrip := false }

/-- The machine before auxiliary power is applied: OFF, every register at its reset value, nothing waiting (R377, R466). A boot starts from
here with AUX_POWER_APPLIED and MAIN_EN_HIGH. -/
def State.reset : State :=
  { pending := [], now := 0, fresh := 0, out := [], regs := [], mem := [], poison := [], cores := Vector.replicate 32 Core.atReset, ft := 0
    part := { variant := .f, stepping := 1, serial := 0, absentCores := 0, absentStacks := 0 }, h1Lost := false
    sinks := Vector.replicate 4 none, jobs := [], plan := none, links := Vector.replicate 128 Link.idle, outStreams := [], outMsgs := []
    inStreams := [], heldPuts := [], heldReplies := [], known := [], crcTimes := [], heldDown := [], portFinds := Vector.replicate 16 none
    groups := Vector.replicate 64 none, earlyJoins := [], forming := [], groupFails := []
    lateRaised := 0, halts := [], checkRaised := 0, checkWithheld := 0, eccRaised := 0
    health := { t := 0, added := 0, transients := [], lasting := [], late := [], tripAt := none, escaped := false, drilled := [] }
    drills := [], acquittal := none, halted := [], retained := [], admissions := [], rings := [], lastRecords := []
    worklists := Vector.replicate 4 none, sessions := Vector.replicate 64 none, ports := Vector.replicate 8 HostPort.off, conns := [], xfers := []
    hull := { swaps := Vector.replicate 2 none, queued := [], samples := Vector.replicate 24 [], bol := Vector.replicate 24 0,
              bolPower := Vector.replicate 24 0, sweepPort := Vector.replicate 2 none, berWarned := [],
              laneSince := Vector.replicate 128 0 }
    ring := { closed := true, seq := 0, heardAt := 0, heard := [], missing := false }
    power := Power.atReset false, pool := Pool.off, time := TimeSync.free, pins := Pins.unpowered, flash := Flash.factory, running := none
    boot := { stage := 0, cause := 0, since := 0, watchdog := false, recovering := false, port := 0, waitSec := 0, waiting := false, waitFrom := 0 }
    update := none, resetWaits := false, resetAfterJobs := false, second := 0, nextXfer := 0, netLost := 0
    mailbox := Vector.replicate 15 0, refusals := 0 }

end Sys2Proof.Machine
end

