-- ==== Sys2Proof/Machine/Ops.lean ====
section
/-! DEFINITION. The named operations over memory, registers, events and cores that every command uses. -/

namespace Sys2Proof.Machine

/-! ### Sparse maps: strictly rising keys, no entry equal to what an unlisted key reads as -/

/-- The value at a key. -/
def sparseGet {α : Type} (dflt : Nat → α) : List (Nat × α) → Nat → α
  | [], a => dflt a
  | (k, v) :: t, a => if a = k then v else if a < k then dflt a else sparseGet dflt t a

/-- Put one entry in front unless it equals what the key reads as unlisted. -/
def sparseCons {α : Type} [DecidableEq α] (dflt : Nat → α) (a : Nat) (v : α) (t : List (Nat × α)) : List (Nat × α) :=
  if v = dflt a then t else (a, v) :: t

/-- The map with a value stored at a key. -/
def sparseSet {α : Type} [DecidableEq α] (dflt : Nat → α) : List (Nat × α) → Nat → α → List (Nat × α)
  | [], a, v => sparseCons dflt a v []
  | (k, w) :: t, a, v =>
    if a < k then sparseCons dflt a v ((k, w) :: t)
    else if a = k then sparseCons dflt a v t
    else (k, w) :: sparseSet dflt t a v

/-- Every listed key is above `lo` and rises, and no entry equals the unlisted value. -/
def sparseWfFrom {α : Type} [DecidableEq α] (dflt : Nat → α) : Nat → List (Nat × α) → Bool
  | _, [] => true
  | lo, (k, v) :: t => decide (lo ≤ k) && decide (v ≠ dflt k) && sparseWfFrom dflt (k + 1) t

/-- The canonical form. -/
def sparseWf {α : Type} [DecidableEq α] (dflt : Nat → α) (l : List (Nat × α)) : Bool := sparseWfFrom dflt 0 l

/-- Remove every entry of a range, so that it reads as unlisted. -/
def sparseClear {α : Type} (l : List (Nat × α)) (lo size : Nat) : List (Nat × α) :=
  l.filter (fun p => decide (p.1 < lo) || decide (lo + size ≤ p.1))

/-! ### Memory -/

/-- Base of core n's scratchpad (R221). -/
def scratchBase (n : Nat) : Nat := n * 0x0800_0000
/-- Size of a core's scratchpad. -/
def scratchSize : Nat := 0x0800_0000
/-- Base of core n's statistics memory (R227). -/
def statsBase (n : Nat) : Nat := 0x0001_0000_0000 + n * 0x0040_0000
/-- Size of a statistics memory. -/
def statsSize : Nat := 0x0008_0000
/-- First HBM address (R71). -/
def hbmBase : Nat := 0x0100_0000_0000

/-- The core whose scratchpad holds an address. -/
def scratchOwner (a : Nat) : Option Nat := if a < 32 * scratchSize then some (a / scratchSize) else none

/-- The core whose statistics memory holds an address. -/
def statsOwner (a : Nat) : Option Nat :=
  if statsBase 0 ≤ a ∧ a < statsBase 32 ∧ (a - statsBase 0) % 0x0040_0000 < statsSize then
    some ((a - statsBase 0) / 0x0040_0000)
  else none

/-- The core whose statistics memory or check save area holds an address (R227). -/
def sideOwner (a : Nat) : Option Nat :=
  let o := (a - statsBase 0) % 0x0040_0000
  if statsBase 0 ≤ a ∧ a < statsBase 32 ∧ (o < statsSize ∨ (0x10_0000 ≤ o ∧ o < 0x20_0000)) then some ((a - statsBase 0) / 0x0040_0000) else none

/-- What a byte that nothing has written reads as: 0 in scratchpad (R228) and HBM (R234, DESIGN CHOICE), the EMPTY record in a
statistics memory (R173). -/
def memDefault (a : Nat) : Byte :=
  match statsOwner a with
  | some _ => if a % 8 = 2 then 0x80 else if a % 8 = 3 then 0xFF else 0
  | none => 0

/-- The canonical form of memory. -/
def Memory.wf (m : List Host.Cell) : Bool := sparseWf memDefault m

/-- Read one byte. -/
def State.readByte (s : State) (a : Nat) : Byte := sparseGet memDefault s.mem a

/-- Read `n` bytes from an address upward. -/
def State.readBytes (s : State) (a n : Nat) : List Byte := (List.range n).map (fun i => s.readByte (a + i))

/-- The number that bytes spell, the first least significant (R9). -/
def natOfBytes : List Byte → Nat
  | [] => 0
  | b :: t => b.toNat + 256 * natOfBytes t

/-- The `n` bytes of a number, the least significant first (R9). -/
def bytesOfNat : Nat → Nat → List Byte
  | 0, _ => []
  | n + 1, v => BitVec.ofNat 8 v :: bytesOfNat n (v / 256)

/-- A little-endian number of `n` bytes in memory. -/
def State.readNat (s : State) (a n : Nat) : Nat := natOfBytes (s.readBytes a n)

/-- Memory with consecutive bytes stored. -/
def memWrite : List Host.Cell → Nat → List Byte → List Host.Cell
  | m, _, [] => m
  | m, a, b :: t => memWrite (sparseSet memDefault m a b) (a + 1) t

/-- The unit of poisoning at an address: its start and its size (R235). -/
def poisonUnit (a : Nat) : Nat × Nat := if a < hbmBase then (a / 8 * 8, 8) else (a / 64 * 64, 64)

/-- Some byte of a range is poisoned. -/
def State.poisonedIn (s : State) (a n : Nat) : Bool :=
  s.poison.any (fun p => decide (p < a + n) && decide (a < p + (poisonUnit p).2))

/-- The poison list after one write of `n` bytes: a unit written whole is clean again (R235). -/
def poisonAfterWrite (l : List Nat) (a n : Nat) : List Nat :=
  l.filter (fun p => !(decide (a ≤ p) && decide (p + (poisonUnit p).2 ≤ a + n)))

/-- One write of consecutive bytes (R222, R232: bytes not written never change). -/
def State.writeBytes (s : State) (a : Nat) (bs : List Byte) : State :=
  { s with mem := memWrite s.mem a bs, poison := poisonAfterWrite s.poison a bs.length }

/-- Store a little-endian number of `n` bytes. -/
def State.writeNat (s : State) (a n v : Nat) : State := s.writeBytes a (bytesOfNat n v)

/-- Return a range to what unlisted addresses read as, poison included: clearing of a scratchpad (R228), reset of records
(R173), zeroing of a window (R229). -/
def State.clearRange (s : State) (a n : Nat) : State :=
  { s with
    mem := sparseClear s.mem a n
    poison := s.poison.filter (fun p => decide (p < a) || decide (a + n ≤ p)) }

/-- Insert an address into a rising list without repeats. -/
def insertRising (a : Nat) : List Nat → List Nat
  | [] => [a]
  | b :: t => if a < b then a :: b :: t else if a = b then b :: t else b :: insertRising a t

/-! ### The CSR window (R464, R466) -/

namespace Csr
def devId : Nat := 0x0
def serial (k : Nat) : Nat := 0x8 + 8 * k
def capCoreMask : Nat := 0x20
def capHbmBytes : Nat := 0x28
def capFabricMask : Nat := 0x30
def capNl : Nat := 0x38
def capUnit : Nat := 0x40
def pipStat : Nat := 0x1_0000
def evtLast : Nat := 0x1_0008
def mbxStat : Nat := 0x1_0010
def mbxCmd : Nat := 0x1_0018
def pipUptime : Nat := 0x1_0020
def mbxData (k : Nat) : Nat := 0x1_0100 + 8 * k
def evtCnt (r : Nat) : Nat := 0x1_0200 + 8 * r
def powCtl : Nat := 0x10_0000
def powStat : Nat := 0x10_0008
def powCnt : Nat := 0x10_0010
def powCore (n : Nat) : Nat := 0x10_0100 + 8 * n
def poolCtl : Nat := 0x10_0200
def poolStat : Nat := 0x10_0208
def thmCtl : Nat := 0x11_0000
def thmTrip : Nat := 0x11_0008
def thmSens (i : Nat) : Nat := 0x11_0100 + 8 * i
def ftNow : Nat := 0x12_0000
def ftCtl : Nat := 0x12_0008
def ftStat : Nat := 0x12_0010
def core (n o : Nat) : Nat := 0x20_0000 + n * 0x1_0000 + o
def chkCtl : Nat := 0x40_0000
def chkStat : Nat := 0x40_0008
def chkCnt (u : Nat) : Nat := 0x40_0100 + 8 * u
def chkCoreCnt (n : Nat) : Nat := 0x40_0200 + 8 * n
def hltScore : Nat := 0x40_0800
def hltComp : Nat := 0x40_0808
def hltCtl : Nat := 0x40_0810
def chkLog (i k : Nat) : Nat := 0x40_1000 + 0x20 * i + 8 * k
def memCtl : Nat := 0x50_0000
def memMap : Nat := 0x50_0008
def spdEcc (n : Nat) : Nat := 0x50_0100 + 8 * n
def spdUeAddr (n : Nat) : Nat := 0x50_0200 + 8 * n
def hbm (stack o : Nat) : Nat := 0x50_8000 + 0x1000 * stack + o
def hbmStat (stack : Nat) : Nat := hbm stack 0
def hbmChanMap (stack : Nat) : Nat := hbm stack 8
def hbmChanClr (stack : Nat) : Nat := hbm stack 0x10
def hbmEcc (stack : Nat) : Nat := hbm stack 0x18
def hbmPinMap (stack : Nat) : Nat := hbm stack 0x20
def hbmUeAddr (stack : Nat) : Nat := hbm stack 0x28
def hbmAmo (stack : Nat) : Nat := hbm stack 0x30
def fabId : Nat := 0x60_0000
def fabCtl : Nat := 0x60_0008
def fabLvl : Nat := 0x60_0010
def fabPortMap : Nat := 0x60_0018
def fabPath (i : Nat) : Nat := 0x60_0100 + 8 * i
def fabLcnt (i : Nat) : Nat := 0x60_0800 + 8 * i
def fabMsgErr (n : Nat) : Nat := 0x60_1000 + 8 * n
def hullCtl : Nat := 0x70_0000
def hullStat : Nat := 0x70_0008
def cartInfo (c : Nat) : Nat := 0x70_0100 + 0x10 * c
def cartWmap (c : Nat) : Nat := 0x70_0108 + 0x10 * c
def lasStat (i : Nat) : Nat := 0x70_0200 + 8 * i
def lasBias (i : Nat) : Nat := 0x70_0300 + 8 * i
def optLane (i : Nat) : Nat := 0x70_0800 + 8 * i
def optFec (i : Nat) : Nat := 0x70_0C00 + 8 * i
def hoptStat (j : Nat) : Nat := 0x70_1000 + 8 * j
def supStat : Nat := 0x70_1100
def ethCtl : Nat := 0x80_0000
def ngsStat : Nat := 0x80_0008
def ethPortStat (j : Nat) : Nat := 0x80_0100 + 8 * j
def ethPortCnt (j : Nat) : Nat := 0x80_0200 + 8 * j
def clCtl : Nat := 0x90_0000
def clLvl : Nat := 0x90_0008
def clGrp (g o : Nat) : Nat := 0x90_1000 + 0x40 * g + o
def secStat : Nat := 0xA0_0000
def secIdHash (k : Nat) : Nat := 0xA0_0010 + 8 * k
def secDbgNonce : Nat := 0xA0_0040
def fwVer : Nat := 0xB0_0000
def fwStat : Nat := 0xB0_0008
def jrnStat : Nat := 0xB0_0010
def d2dStat : Nat := 0xC0_0000
def d2dLane (d g : Nat) : Nat := 0xC0_0100 + 8 * (20 * d + g)
def d2dCnt (d : Nat) : Nat := 0xC0_0300 + 8 * d
def drlCtl : Nat := 0xD0_0000
def drlStat : Nat := 0xD0_0008
def drlCnt (k : Nat) : Nat := 0xD0_0100 + 8 * k
end Csr

/-- Reset value of a register with no other home (R466 and the registers' own descriptions); 0 where they say 0 or "set at
boot". -/
def csrReset (o : Nat) : Word :=
  if o = Csr.mbxStat then 0x8000_0000_0000_0000
  else if o = Csr.powCtl then 0x0000_0100_0000_0AF0
  else if o = Csr.poolCtl then 0x00C8_0384
  else if o = Csr.thmCtl then 0x0055_645F
  else if o = Csr.ftCtl then 0x000F_0000
  else if o = Csr.chkCtl then 0x0010_0000
  else if o = Csr.hltCtl then 0x1E
  else if o = Csr.memCtl then 0x0018_0000
  else if o = Csr.fabCtl then 0x0000_03E8_0000_0030
  else if o = Csr.fabPortMap then 0xFFFF_FFFF_FFFF_FFFF
  else if o = Csr.hullCtl then 0x100
  else if o = Csr.ethCtl then 0x0001_0301
  else if o = Csr.clCtl then 0x2710
  else if o = Csr.drlCtl then 0x0000_0E10_0000_07FF
  else 0

/-- A register of the file. -/
def State.reg (s : State) (o : Nat) : Word := sparseGet csrReset s.regs o

/-- The state with a register of the file set. -/
def State.setReg (s : State) (o : Nat) (v : Word) : State := { s with regs := sparseSet csrReset s.regs o v }

/-- Bits `[hi:lo]` of a register. -/
def State.fld (s : State) (o hi lo : Nat) : Nat := (s.reg o).field hi lo

/-- A word with bits `[hi:lo]` replaced. -/
def Word.withField (w : Word) (hi lo v : Nat) : Word := (w &&& ~~~ Word.mask hi lo) ||| Word.place v (hi + 1 - lo) lo

/-- The state with bits `[hi:lo]` of a register replaced. -/
def State.setFld (s : State) (o hi lo v : Nat) : State := s.setReg o (Word.withField (s.reg o) hi lo v)

/-- A saturating count added to bits `[hi:lo]` of a register. -/
def State.bump (s : State) (o hi lo k : Nat) : State := s.setFld o hi lo (satAdd (hi + 1 - lo) (s.fld o hi lo) k)

/-- Set one bit of a register. -/
def State.setBit (s : State) (o n : Nat) (b : Bool) : State := s.setFld o n n (if b then 1 else 0)

/-! ### Outputs, events, free values -/

/-- Send something out. -/
def State.emit (s : State) (x : Output) : State := { s with out := x :: s.out }

/-- A fresh free value. -/
def State.free (s : State) : Word := Config.freeWord s.fresh

/-- The state after a free value has been drawn. -/
def State.drew (s : State) : State := { s with fresh := s.fresh + 1 }

/-- A sink after an event: the selected event is queued with the sink's SEQ; a full queue drops its oldest (R362). The
Boolean says whether one was dropped. -/
def Sink.take (k : Sink) (e : EventRec) : Sink × Bool :=
  if k.mask.getLsbD (e.code.toNat / 16) then
    let full := decide (4096 ≤ k.queue.length)
    let q := if full then k.queue.drop 1 else k.queue
    ({ k with seq := k.seq + 1, queue := q ++ [(k.seq, e)], dropped := if full then k.dropped + 1 else k.dropped }, full)
  else (k, false)

/-- Offer an event to the four sinks (R362). -/
def State.deliver (s : State) (e : EventRec) : State :=
  { s with sinks := s.sinks.map (fun o => o.map (fun k => (k.take e).1)), out := .event e :: s.out }

/-- Some sink's queue would drop an event (R362). -/
def State.sinkFull (s : State) (e : EventRec) : Bool :=
  s.sinks.toList.any (fun o => match o with | some k => (k.take e).2 | none => false)

/-- The serial number that a module shows on the ring: bytes 0 to 7 of its identity hash (R338). -/
def serialOf (identity : BitVec 256) : BitVec 64 := BitVec.ofNat 64 (natOfBytes ((bytesOfNat 32 identity.toNat).reverse.take 8))

/-- A frame of this module goes on the supervisory ring (R338): TTL 255, its chip ID or 0xFFFF, its serial, the next SEQ; nothing
while the by-pass is closed (R337). -/
def State.ringSend (s : State) (type : Nat) (payload : List Byte) : State :=
  if s.ring.closed then s
  else
  let id := s.reg Csr.fabId
  let f : SupFrame := { type := type, ttl := 255, src := if id.bit 63 then BitVec.ofNat 16 (id.field 15 0) else 0xFFFF
                        serial := serialOf s.flash.identity, seq := s.ring.seq, payload := payload, macOk := s.flash.ringKey }
  { s.emit (.supFrame f) with ring := { s.ring with seq := s.ring.seq + 1 } }

/-- Count and record one event, without the overflow event; events of ranges 0x5x to 0x7x also go on the supervisory ring (R339). -/
def State.raiseOnce (s : State) (code : Nat) (job : Word) (record : List Word) : State :=
  let e : EventRec := { code := BitVec.ofNat 8 code, ft := s.ft, job := job, record := record }
  let s := if code / 16 = 5 ∨ code / 16 = 6 ∨ code / 16 = 7 then s.ringSend 2 (bytesOfNat 1 code ++ record.flatMap (fun w => bytesOfNat 8 w.toNat)) else s
  let s := s.setReg Csr.evtLast (Word.place code 8 56 ||| Word.place s.ft.toNat 48 0)
  let s := s.bump (Csr.evtCnt (code / 16 % 16)) 31 0 1
  s.deliver e

/-- Raise an event (R362, R477); an event queue that overflows raises 0x9B. -/
def State.raiseJob (s : State) (code : Nat) (job : Word) (record : List Word) : State :=
  let e : EventRec := { code := BitVec.ofNat 8 code, ft := s.ft, job := job, record := record }
  let full := s.sinkFull e
  let s := s.raiseOnce code job record
  if full then s.raiseOnce 0x9B 0 [] else s

/-- Raise an event that concerns no job. -/
def State.raise (s : State) (code : Nat) (record : List Word) : State := s.raiseJob code 0 record

/-- Count an event held back by a rate limit (R477). -/
def State.withhold (s : State) (code : Nat) : State := s.bump (Csr.evtCnt (code / 16 % 16)) 63 32 1

/-! ### Presence of units (R2, R4, R20) -/

/-- Core n is not ABSENT. -/
def State.corePresent (s : State) (n : Nat) : Bool :=
  match s.cores[n]? with
  | some c => c.run != .absent
  | none => false

/-- Stack k is present. -/
def State.stackPresent (s : State) (k : Nat) : Bool :=
  decide (k < 8) && !s.part.absentStacks.getLsbD k && !(s.h1Lost && decide (4 ≤ k))

/-- Channel c of stack k is good (R230). -/
def State.channelGood (s : State) (k c : Nat) : Bool :=
  s.stackPresent k && !(s.reg (Csr.hbmChanMap k)).bit c

/-- The channel table of the stacks lo to hi-1 (R230): channels ascending, then stacks ascending. -/
def State.channelTable (s : State) (lo hi : Nat) : List (Nat × Nat) :=
  (List.range 32).flatMap (fun c =>
    ((List.range hi).filter (fun k => decide (lo ≤ k) && s.channelGood k c)).map (fun k => (k, c)))

/-- Bytes of one HBM channel (R230). -/
def channelBytes : Nat := 0x9000_0000

/-- The reported HBM capacity (R231), as CAP_HBM_BYTES holds it. -/
def State.hbmCapacity (s : State) : Nat := s.fld Csr.capHbmBytes 39 0

/-- Stack, channel and byte of an HBM address (R231). -/
def State.hbmPlace (s : State) (addr : Nat) : Option (Nat × Nat × Nat) :=
  let x := addr - hbmBase
  if addr < hbmBase then none
  else
    let cap0 := s.fld Csr.memMap 39 0
    let wide := s.fld Csr.memMap 63 62 == 1
    let tab := if wide then s.channelTable 0 8 else if x < cap0 then s.channelTable 0 4 else s.channelTable 4 8
    let y := if wide || decide (x < cap0) then x else x - cap0
    let n := tab.length
    let g := y / 4096
    match tab[g % n]? with
    | some (k, c) => some (k, c, g / n * 4096 + y % 4096)
    | none => none

/-! ### Cores -/

/-- The state with core n replaced. -/
def State.setCore (s : State) (n : Fin 32) (c : Core) : State := { s with cores := s.cores.set n c }

/-- The state with core n changed by a function. -/
def State.modCore (s : State) (n : Fin 32) (f : Core → Core) : State := s.setCore n (f s.cores[n])

/-- A scalar register as read: s0 is 0 (R58). -/
def Core.s (c : Core) (r : BitVec 5) : Word := if r = 0 then 0 else c.sregs[r.toFin]

/-- A scalar register written: a write to s0 is discarded (R58). -/
def Core.setS (c : Core) (r : BitVec 5) (v : Word) : Core :=
  if r = 0 then c else { c with sregs := c.sregs.set r.toFin v }

/-- A predicate register as read: p0 is 1 (R58). -/
def Core.p (c : Core) (r : BitVec 3) : Bool := if r = 0 then true else c.preds[r.toFin]

/-- A predicate register written: a write to p0 is discarded (R58). -/
def Core.setP (c : Core) (r : BitVec 3) (v : Bool) : Core :=
  if r = 0 then c else { c with preds := c.preds.set r.toFin v }

/-- A descriptor register. -/
def Core.d (c : Core) (r : BitVec 4) : BitVec 256 := c.dregs[r.toFin]

/-- A descriptor register written. -/
def Core.setD (c : Core) (r : BitVec 4) (v : BitVec 256) : Core := { c with dregs := c.dregs.set r.toFin v }

/-- A wait-select entry; WS = 0 means no wait and predicate p0 (R62). -/
def Core.wsEntry (c : Core) (w : BitVec 4) : BitVec 32 := if w = 0 then 0 else c.wsel[w.toFin]

/-- A semaphore by its code (R62). -/
def Core.sem (c : Core) (code : Nat) : Nat :=
  match c.sems[code]? with
  | some v => v.toNat
  | none => 0

/-- A semaphore set by its code. -/
def Core.setSem (c : Core) (code v : Nat) : Core := { c with sems := c.sems.setIfInBounds code (BitVec.ofNat 16 v) }

/-- An issue queue (R54). -/
def Core.queue (c : Core) : QueueId → List Entry
  | .move => c.qMove | .ctx0 => c.qCtx0 | .ctx1 => c.qCtx1 | .vector => c.qVector | .row => c.qRow | .comm => c.qComm

/-- An issue queue replaced. -/
def Core.setQueue (c : Core) (q : QueueId) (l : List Entry) : Core :=
  match q with
  | .move => { c with qMove := l } | .ctx0 => { c with qCtx0 := l } | .ctx1 => { c with qCtx1 := l }
  | .vector => { c with qVector := l } | .row => { c with qRow := l } | .comm => { c with qComm := l }

/-- Instructions that an issue queue holds (R54; DEDUCED, log 83): the comm engine has passed those on whose messages are out or which have entered the queue of their group
(R275, R298). -/
def Core.occupied (c : Core) (q : QueueId) : Nat := if q = .comm then (c.qComm.filter (fun e => e.progress == 0)).length else (c.queue q).length

/-- The queues in the order of R64. -/
def QueueId.all : List QueueId := [.move, .ctx0, .ctx1, .vector, .row, .comm]

/-- The bit of a queue in the sync.idle mask and the DEADLOCK detail (R105, R125). -/
def QueueId.index : QueueId → Nat
  | .move => 0 | .ctx0 => 1 | .ctx1 => 2 | .vector => 3 | .row => 4 | .comm => 5

/-- The instruction class that feeds a queue (R54, R92). -/
def QueueId.cls : QueueId → Nat
  | .move => 1 | .ctx0 => 2 | .ctx1 => 2 | .vector => 3 | .row => 4 | .comm => 5

/-- Some started instruction of the core is not complete, or some drain's verdict is open (R83, R203). -/
def Core.inFlight (c : Core) : Bool :=
  QueueId.all.any (fun q => (c.queue q).any (fun e => e.started)) || !c.drains.isEmpty

/-- A bank of the core. -/
def Core.bank (c : Core) (b : Bool) : Bank := if b then c.bank1 else c.bank0

/-- A bank replaced. -/
def Core.setBank (c : Core) (b : Bool) (x : Bank) : Core := if b then { c with bank1 := x } else { c with bank0 := x }

/-- The duty in percent now (R154): RISE gains 1% per 10 ns, RAMP loses 1% per 50 ns. -/
def Core.dutyNow (c : Core) (now : Nat) : Nat :=
  match c.arrays with
  | .gated => 0
  | .active => 100
  | .warm => 100
  | .rise => min 100 (c.duty + (now - c.arraysSince) / 10)
  | .ramp => c.duty - (now - c.arraysSince) / 50

/-- The arrays enter a state, keeping the duty they have reached (R154). -/
def Core.arraysTo (c : Core) (a : ArrayState) (now : Nat) : Core :=
  { c with duty := c.dutyNow now, arrays := a, arraysSince := now }

/-- The arrays when the core leaves RUNNING: RAMP at once unless gated (R155). -/
def Core.arraysLeave (c : Core) (now : Nat) : Core := if c.arrays = .gated then c else c.arraysTo .ramp now

/-! ### Traps (R83, R84, R125, R126) -/

/-- The trap causes of R125. -/
inductive Cause where
  | illegalOpcode | unitAbsent | fetch | descriptor | address | semOverflow | numeric | deadlock | waitTimeout
  | checkLasting
  deriving DecidableEq, Repr

/-- Cause codes (R125). -/
def Cause.code : Cause → Nat
  | .illegalOpcode => 1 | .unitAbsent => 2 | .fetch => 3 | .descriptor => 4 | .address => 5 | .semOverflow => 6
  | .numeric => 7 | .deadlock => 8 | .waitTimeout => 9 | .checkLasting => 15

/-- Precedence among conditions of one cycle, the lowest number first (R84). -/
def Cause.rank : Cause → Nat
  | .checkLasting => 1 | .unitAbsent => 2 | .fetch => 3 | .illegalOpcode => 4 | .descriptor => 5 | .address => 6
  | .semOverflow => 7 | .numeric => 8 | .deadlock => 9 | .waitTimeout => 10

/-- One trap condition: its cause and what CORE_TRAPINFO will hold (R125). -/
abbrev Condition := Cause × Word

/-- The condition that is recorded: the first of the highest precedence (R84). -/
def firstCondition : List Condition → Option Condition
  | [] => none
  | c :: t =>
    match firstCondition t with
    | none => some c
    | some d => if d.1.rank < c.1.rank then some d else some c

/-- The word of CORE_TRAP (R126). -/
def trapWord (cls : Nat) (cause : Cause) (supp : Nat) (pc : BitVec 48) : Word :=
  Word.place cls 4 60 ||| Word.place cause.code 8 52 ||| Word.place (min supp 15) 4 48 ||| Word.place pc.toNat 48 0

/-- The core's own unit failed: it will be FENCED (R192, R216): CHECK_LASTING with UNIT 1 to 8. -/
def ownUnitFailed (l : List Condition) : Bool :=
  l.any (fun x => x.1 == .checkLasting && decide (1 ≤ x.2.field 63 60) && decide (x.2.field 63 60 ≤ 8))

/-- Instructions still waiting in any queue are discarded (R83); so is a collective that waits in its group's queue (R298). -/
def Core.discardWaiting (c : Core) : Core :=
  { c with
    qMove := c.qMove.filter (·.started), qCtx0 := c.qCtx0.filter (·.started), qCtx1 := c.qCtx1.filter (·.started)
    qVector := c.qVector.filter (·.started), qRow := c.qRow.filter (·.started)
    qComm := c.qComm.filter (fun e => e.started && (decide (e.word.field 59 52 < 0x10) || e.executed)) }

/-! ### The registers of a group's slot (R309) -/

/-- CL_GRP STATE of a phase. -/
def GroupPhase.code : GroupPhase → Nat
  | .creating => 1 | .ready => 2 | .aborted => 3 | .halted => 4

/-- CL_GRP[g]_STAT of a held slot: the fields of one member are those of the lowest rank on this device. -/
def Group.statWord (g : Group) : Word :=
  let m := g.members.head?
  let f (h : Member → Nat) : Nat := match m with | some x => h x | none => 0
  Word.place g.phase.code 3 61 ||| Word.place g.gdef.kind 2 59 ||| Word.place (f (fun x => x.queue.length)) 7 52 |||
  Word.place g.p 13 39 ||| Word.place (f (fun x => x.rank)) 13 26 ||| Word.place g.cpl 8 18 ||| Word.place (f (fun x => x.core)) 5 13

/-- CL_GRP[g]_SEQ of a held slot. -/
def Group.seqWord (g : Group) : Word :=
  match g.members.head? with
  | some m => Word.place (min m.done (2 ^ 32 - 1)) 32 32 ||| Word.place m.nextSeq.toNat 32 0
  | none => 0

/-- A slot's group replaced, with the registers that show it. -/
def State.putGroup (s : State) (i : Nat) (g : Group) : State :=
  let s := { s with groups := s.groups.setIfInBounds i (some g) }
  (s.setReg (Csr.clGrp i 0) g.statWord).setReg (Csr.clGrp i 8) g.seqWord

/-- Collectives of core n that have not started are discarded from the group queues, which the slots' registers show (R298, R309). -/
def State.discardCollectives (s : State) (n : Nat) : State :=
  s.groups.toList.zipIdx.foldl (fun (t : State) p =>
    match p.1 with
    | some g =>
      if g.members.any (fun m => m.core == n) then
        t.putGroup p.2 { g with members := g.members.map (fun (m : Member) =>
          if m.core = n then { m with queue := m.queue.take (if m.run.isSome then 1 else 0) } else m) }
      else t
    | none => t) s

/-- The halt that the runtime's trap policy answers a trap with (R446, R442): cause TRAP, or CHECK_LASTING for a lasting
fault; a retry void is a program fault (R440). -/
def trapHalt (job : Word) (n : Nat) (trap info ft : Word) (fenced : Bool) : HaltRequest :=
  let lastingFault := trap.field 59 52 == 15 && info.field 63 60 != 11
  { job := job, cause := if lastingFault then 2 else 1
    detail := BitVec.ofNat 32 (if lastingFault then 0 else n + trap.field 59 52 * 256)
    loc := if trap.field 59 52 == 15 then info else 0, ft := ft, fenced := fenced }

/-- Steps 4 to 6 of R83 once every started instruction has completed: TRAPPED (or FENCED, R216), the trap record, the
runtime told. -/
def State.settle (s : State) (n : Fin 32) : State :=
  let c := s.cores[n]
  match c.stopping with
  | none => s
  | some (t, i) =>
    if c.inFlight then s
    else
      let c := (c.arraysLeave s.now)
      let s := s.setCore n { c with
        stopping := none, unitFailed := false, trap := t, trapInfo := i, wait := .free, run := if c.unitFailed then .fenced else .trapped }
      { s with halts := s.halts ++ [trapHalt c.job n.val t i s.ft c.unitFailed] }

/-- A trap of core n (R83, R84): conditions of one cycle, the instruction's class and address. The first trap stops dispatch
and discards what waits; a later condition is counted as suppressed, but CHECK_LASTING replaces the recorded cause. A core
that is not RUNNING takes no trap. -/
def State.trap (s : State) (n : Fin 32) (conds : List Condition) (cls : Nat) (pc : BitVec 48) : State :=
  let c := s.cores[n]
  match firstCondition conds with
  | none => s
  | some (cause, info) =>
    if c.run ≠ .running then s
    else
      let c := { c with unitFailed := c.unitFailed || ownUnitFailed conds }
      match c.stopping with
      | none =>
        let w := trapWord cls cause (conds.length - 1) pc
        let s := s.discardCollectives n.val
        (s.setCore n { c.discardWaiting with stopping := some (w, info), wait := .free, fills := [] }).settle n
      | some (t, i) =>
        let supp := t.field 51 48 + conds.length
        if cause = .checkLasting ∧ t.field 59 52 ≠ 15 then
          s.setCore n { c with stopping := some (trapWord cls cause supp pc, info) }
        else s.setCore n { c with stopping := some (Word.withField t 51 48 (min supp 15), i) }

/-! ### Semaphores (R61, R65, R25) -/

/-- Who signals: an instruction of the core itself (its class and address), or someone outside (R126). -/
inductive Signaller where
  | own (cls : Nat) (pc : BitVec 48)
  | outside
  deriving DecidableEq, Repr

/-- A signal applied to core n: the increment is added; above 65,535 the semaphore is set to 65,535 and the core traps with
SEM_OVERFLOW (R65). -/
def State.signal (s : State) (n : Fin 32) (code inc : Nat) (who : Signaller) : State :=
  let c := s.cores[n]
  let v := c.sem code + inc
  if v ≤ 65535 then s.setCore n (c.setSem code v)
  else
    let s := s.setCore n (c.setSem code 65535)
    match who with
    | .own cls pc => s.trap n [(.semOverflow, Word.place code 6 0)] cls pc
    | .outside => s.trap n [(.semOverflow, Word.place code 6 0 ||| Word.placeBit true 8)] 0 c.pc

/-- A signal to a cross-core semaphore from outside the core's own instructions: held until the core begins to issue (R25, R86). A core that sys.end has
made IDLE has begun and ended: the signal is applied, and its overflow leaves 65,535 with no trap to take (log 65). -/
def State.signalCross (s : State) (n : Fin 32) (x inc : Nat) (who : Signaller) : State :=
  let c := s.cores[n]
  if c.run = .starting ∨ c.run = .gated ∨ (c.run = .idle ∧ c.wait ≠ .ended) then
    s.setCore n { c with heldSignals := c.heldSignals.setIfInBounds x ((c.heldSignals[x]?).getD 0 + inc) }
  else s.signal n (32 + x) inc who

/-! ### Jobs and address checks (R73, R89, R229) -/

/-- The job with an identifier. -/
def State.job? (s : State) (id : Word) : Option Job := s.jobs.find? (fun j => j.id == id)

/-- The state with a job replaced by a new record of it. -/
def State.putJob (s : State) (j : Job) : State := { s with jobs := s.jobs.map (fun x => if x.id = j.id then j else x) }

/-- The cores of a job, ascending: the rank of a core is its place here (R60). -/
def State.jobCores (s : State) (id : Word) : List Nat :=
  (List.range 32).filter (fun n => match s.cores[n]? with | some c => id != 0 && c.job == id | none => false)

/-- A range lies in one window of the job (R229). -/
def Job.inWindow (j : Job) (a n : Nat) : Bool :=
  j.windows.any (fun w => decide (w.base ≤ a) && decide (a + n ≤ w.base + w.size))

/-- The job holds HBM at a range (R71, R229). -/
def State.hbmHeld (s : State) (job : Word) (a n : Nat) : Bool :=
  match s.job? job with
  | some j => j.inWindow a n
  | none => false

/-- The condition that an access of core n to scratchpad of core k raises (R73, R89). -/
def State.scratchCondition (s : State) (n : Fin 32) (k : Nat) (info : Word) : List Condition :=
  if k = n.val then []
  else if !s.corePresent k then [(.unitAbsent, info)]
  else
    match s.cores[k]? with
    | some c => if c.job == (s.cores[n]).job then [] else [(.address, info)]
    | none => [(.address, info)]

/-- UNIT_ABSENT when core k is absent (R4, R73). -/
def State.goneCondition (s : State) (k : Nat) (info : Word) : List Condition := if s.corePresent k then [] else [(.unitAbsent, info)]

/-- The conditions of a sequencer access of `n` bytes at a 64-bit address (R73, R101, R227): scratchpad of the job's cores and HBM
windows; aligned to the size; for an atomic, HBM only. What belongs to an absent core is UNIT_ABSENT as well (R4). -/
def State.accessConditions (s : State) (n : Fin 32) (a : Word) (size : Nat) (hbmOnly : Bool) : List Condition :=
  let x := a.toNat
  let align : List Condition := if x % size ≠ 0 then [(.address, a)] else []
  if 2 ^ 48 ≤ x then (.address, a) :: align
  else if x < 32 * scratchSize then
    if hbmOnly then s.goneCondition (x / scratchSize) a ++ (.address, a) :: align
    else s.scratchCondition n (x / scratchSize) a ++ align
  else if s.hbmHeld (s.cores[n]).job x size then align
  else (match sideOwner x with | some k => s.goneCondition k a | none => []) ++ (.address, a) :: align

/-! ### Memory errors (R233, R235, R244) -/

/-- Raise 0x20 at most 16 times per second for the device; count the rest as withheld (R244, R477). -/
def State.raiseEcc (s : State) (record : List Word) : State :=
  if s.eccRaised < 16 then { (s.raise 0x20 record) with eccRaised := s.eccRaised + 1 } else s.withhold 0x20

/-- A contribution to the transient component of the health score (R449, R452). -/
def State.healthAdd (s : State) (k : Nat) : State :=
  { s with health := { s.health with added := s.health.added + k, transients := s.now :: s.health.transients } }

/-- Mark a channel for map-out at the next boot and raise 0x25, once (R233). -/
def State.markChannel (s : State) (k c : Nat) : State :=
  if (s.reg (Csr.hbmChanMap k)).bit (32 + c) then s
  else (s.setBit (Csr.hbmChanMap k) (32 + c) true).raise 0x25 [BitVec.ofNat 64 (k * 32 + c)]

/-- Ask for a job's halt (R442). -/
def State.askHalt (s : State) (h : HaltRequest) : State := { s with halts := s.halts ++ [h] }

/-- The halt request for a poisoned address (R235, R445). -/
def memoryHalt (job ft : Word) (addr : Nat) (stack : Option Nat) : HaltRequest :=
  { job := job, cause := 3, detail := BitVec.ofNat 32 (match stack with | some k => k | none => 0xFF)
    loc := BitVec.ofNat 64 addr, ft := ft, fenced := false }

/-- Poison the word or unit at an address (R235). -/
def State.poisonAt (s : State) (a : Nat) : State := { s with poison := insertRising (poisonUnit a).1 s.poison }

/-- The core whose scratchpad or statistics memory holds an address. -/
def sramOwner (a : Nat) : Option Nat :=
  match scratchOwner a with
  | some k => some k
  | none => statsOwner a

/-- What a memory read meets (the rows of R235): counters, events, poison, marks. The halt of a job is the reader's. -/
def State.memError (s : State) (e : MemErr) : State :=
  match e with
  | .none => s
  | .corrected a =>
    match sramOwner a, s.hbmPlace a with
    | some k, _ => (s.bump (Csr.spdEcc k) 31 0 1).raiseEcc [BitVec.ofNat 64 a]
    | none, some (k, _, _) => s.bump (Csr.hbmEcc k) 31 0 1
    | none, none => s
  | .reread a =>
    match sramOwner a, s.hbmPlace a with
    | some k, _ => ((s.bump (Csr.spdEcc k) 47 32 1).raiseEcc [BitVec.ofNat 64 a]).healthAdd 10
    | none, some (k, _, _) => ((s.bump (Csr.hbmEcc k) 47 32 1).raise 0x22 [BitVec.ofNat 64 a]).healthAdd 10
    | none, none => s
  | .persistent a =>
    match sramOwner a, s.hbmPlace a with
    | some k, _ =>
      let s := (s.bump (Csr.spdEcc k) 63 48 1).setReg (Csr.spdUeAddr k)
        (Word.placeBit true 63 ||| Word.place (poisonUnit a).1 48 0)
      (s.raise 0x21 [BitVec.ofNat 64 a]).poisonAt a
    | none, some (k, c, _) =>
      let s := (s.bump (Csr.hbmEcc k) 63 48 1).setReg (Csr.hbmUeAddr k)
        (Word.placeBit true 63 ||| Word.place c 5 48 ||| Word.place (poisonUnit a).1 48 0)
      ((s.raise 0x23 [BitVec.ofNat 64 a]).poisonAt a).markChannel k c
    | none, none => s
  | .pinFail a =>
    match s.hbmPlace a with
    | some (k, c, _) =>
      let s := s.raise 0x24 [BitVec.ofNat 64 (k * 32 + c)]
      if (s.reg (Csr.hbmPinMap k)).bit c then (s.setBit (Csr.hbmPinMap k) (32 + c) true).markChannel k c
      else s.setBit (Csr.hbmPinMap k) c true
    | none => s

/-- The read delivers nothing: it meets a persistent error now, or bytes poisoned before (R235). -/
def State.readFails (s : State) (e : MemErr) (ranges : List (Nat × Nat)) : Option Nat :=
  match e with
  | .persistent a => some a
  | _ => (ranges.find? (fun r => s.poisonedIn r.1 r.2)).map (fun r => r.1)

/-- A read of the ranges with what it meets: the state after the events of R235, and the address at which it delivers
nothing, if any. Bytes poisoned before read as uncorrectable again. -/
def State.readCheck (s : State) (e : MemErr) (ranges : List (Nat × Nat)) : State × Option Nat :=
  let s := s.memError e
  match e with
  | .persistent a => (s, some a)
  | _ =>
    match s.readFails .none ranges with
    | some a => (s.memError (.persistent a), some a)
    | none => (s, none)

/-- A lasting fault enters the health score (R449). -/
def State.lastingAdd (s : State) : State := { s with health := { s.health with lasting := s.now :: s.health.lasting } }

/-! ### The check log (R216 to R219) -/

/-- The event code of a transient of a unit (R219). -/
def transientCode (unit : Nat) : Nat :=
  if unit ≤ 4 then 0x10 else if unit ≤ 6 then 0x11 else if unit = 7 then 0x12 else if unit ≤ 9 then 0x13 else 0x14

/-- The contribution of a transient to T (R449). -/
def transientWeight (unit : Nat) : Nat := if unit ≤ 6 then 10 else if unit = 7 ∨ unit = 10 then 20 else 5

/-! ### Journal and drills (R414, R453 to R455, R460) -/

/-- Thirty days in ns (R449, R460). -/
def thirtyDays : Nat := 30 * 86400 * 1000000000

/-- A record of an unresumed thermal shutdown is pinned (R414). -/
def JournalRec.pinned (r : JournalRec) : Bool := r.type == 3 && !r.resumed

/-- A record that the circle must not lose: a pinned one, and while there is one also lasting faults, drill escapes and health states of the last 30 days
(R414, R460). -/
def State.journalKeeps (s : State) (r : JournalRec) : Bool :=
  r.pinned || ([2, 5, 7].contains r.type && decide (s.now < r.time + thirtyDays) && s.flash.journal.any JournalRec.pinned)

/-- A list, newest first, without its oldest member that need not be kept. -/
def dropOldest {α : Type} (keep : α → Bool) (l : List α) : List α :=
  (l.reverse.takeWhile keep ++ (l.reverse.dropWhile keep).drop 1).reverse

/-- Add a record to the journal: 65,536 records in a circle, whose kept records are copied forward (R414, R460). -/
def State.journalAdd (s : State) (type : Nat) (body : List Word) : State :=
  let r : JournalRec := { type := type, boot := s.flash.bootCnt, ft := s.ft, body := body, time := s.now, resumed := false }
  let l := if s.flash.journal.length < 65536 then s.flash.journal else dropOldest s.journalKeeps s.flash.journal
  let s := { s with flash := { s.flash with journal := r :: l } }
  let s := s.bump Csr.jrnStat 31 0 1
  s.setFld Csr.jrnStat 47 32 ((s.fld Csr.jrnStat 47 32 + 1) % 65536)

/-- The drill kind that exercises a unit of the check logic (R453). -/
def drillKind (unit : Nat) : Nat :=
  if unit ≤ 4 then 0 else if unit = 5 then 1 else if unit = 6 then 2 else if unit = 7 then 3 else if unit = 8 then 4
  else if unit = 9 then 5 else 6

/-- A drill has been detected and recovered: it is counted, and a module of which every enabled kind has passed is proven (R451, R453). -/
def State.drillPass (s : State) (kind : Nat) : State :=
  let s := (s.bump (Csr.drlCnt kind) 63 32 1).setBit Csr.drlStat kind true
  let en := s.fld Csr.drlCtl 11 0
  let passed := s.fld Csr.drlStat 11 0
  if (List.range 12).all (fun k => en / 2 ^ k % 2 == 0 || passed / 2 ^ k % 2 == 1) then
    { s.setBit Csr.hltScore 63 false with flash := { s.flash with unproven := false } }
  else s

/-- A drill of a kind waits at a unit. -/
def State.drillArmed (s : State) (kind unit : Nat) (injected : Bool) : Bool :=
  s.drills.any (fun d => d.kind == kind && d.unit == unit && d.injected == injected)

/-- Remove a unit's drills of a kind. -/
def State.drillDrop (s : State) (kind unit : Nat) : State :=
  { s with drills := s.drills.filter (fun d => !(d.kind == kind && d.unit == unit)) }

/-- DRL_CNT.FIRED counts an injection (R453, R463). -/
def State.drillFired (s : State) (kind : Nat) : State := s.bump (Csr.drlCnt kind) 31 0 1

/-- A waiting drill has injected its fault; its outcome is open. -/
def State.drillInject (s : State) (kind unit : Nat) : State :=
  { (s.drillFired kind) with drills := s.drills.map (fun (d : Drill) => if d.kind = kind ∧ d.unit = unit then { d with injected := true, since := s.now } else d) }

/-- The check of a unit's work with a drill waiting there: work that would check clean shows a first mismatch instead, marked as a drill;
a real fault leaves the drill waiting (R453, R461). -/
def State.inject (s : State) (kind unit : Nat) (k : CheckOutcome) : CheckOutcome × Bool × State :=
  if k = .ok ∧ s.drillArmed kind unit false then (.transient, true, (s.drillDrop kind unit).drillFired kind) else (k, false, s)

/-- Write one entry of the check log at HEAD (R218, R219). -/
def State.logEntry (s : State) (e : CheckEvent) : State :=
  let head := s.fld Csr.chkStat 7 0
  let full := (s.reg (Csr.chkLog head 2)).bit 63
  let s := if full then (s.setBit Csr.chkStat 32 true).raise 0x17 [] else s
  if full && (s.reg Csr.chkCtl).bit 0 then s
  else
    let info := Word.placeBit true 63 ||| Word.placeBit e.drill 62 ||| Word.place e.outcome 2 60 ||| Word.place e.cls 4 56
      ||| Word.place (min e.retryUs 255) 8 48 ||| Word.place e.pc.toNat 48 0
    let s := (((s.setReg (Csr.chkLog head 0) e.loc).setReg (Csr.chkLog head 1) e.ft).setReg (Csr.chkLog head 2) info)
    (s.setReg (Csr.chkLog head 3) e.job).setFld Csr.chkStat 7 0 ((head + 1) % 256)

/-- Count an event of the check logic in CHK_CNT and CHK_CORE_CNT (R219): field TRANS, VOID or LASTING. -/
def State.countCheck (s : State) (e : CheckEvent) (hi lo : Nat) : State :=
  let s := s.bump (Csr.chkCnt (e.loc.field 63 60)) hi lo 1
  match e.core with
  | some n => s.bump (Csr.chkCoreCnt n) hi lo 1
  | none => s

/-- Record the outcome of a failed comparison: counters, log, event, health (R216, R218, R219, R449, R453). -/
def State.recordCheck (s : State) (e : CheckEvent) : State :=
  let unit := e.loc.field 63 60
  let s := s.logEntry e
  match e.outcome with
  | 0 =>
    if e.drill then s.drillPass (drillKind unit)
    else
      let s := (s.countCheck e 31 0).healthAdd (transientWeight unit)
      if s.checkRaised < s.fld Csr.chkCtl 23 16 then
        { (s.raiseJob (transientCode unit) e.job [e.loc]) with checkRaised := s.checkRaised + 1 }
      else { (s.withhold (transientCode unit)) with checkWithheld := s.checkWithheld + 1 }
  | 1 =>
    let s := if e.drill then s else s.countCheck e 63 48
    (((s.setBit Csr.chkStat 33 true).raiseJob 0x15 e.job [e.loc]).lastingAdd).journalAdd 2 [e.loc]
  | 2 => (s.countCheck e 47 32).raiseJob 0x16 e.job [e.loc]
  | _ => s

end Sys2Proof.Machine
end

