-- ==== Sys2Proof/Machine/Felnu.lean ====
section
/-! DEFINITION. The Felnu instruction word: fields and formats (spec/04 R91, R98, R105, R109, R112, R115, R118, R120, R122,
R123). -/

namespace Sys2Proof.Machine

/-- A word from CLASS, OP, WS and the 48 format bits (R91). -/
def felnuWord (cls op : Nat) (ws : BitVec 4) (low : Nat) : Word :=
  Word.place cls 4 60 ||| Word.place op 8 52 ||| Word.place ws.toNat 4 48 ||| Word.place low 48 0

/-- Format R (R98). -/
def fmtR (rd ra rb : BitVec 5) : Nat := rd.toNat * 2 ^ 43 + ra.toNat * 2 ^ 38 + rb.toNat * 2 ^ 33
/-- Format I (R98). -/
def fmtI (rd ra : BitVec 5) (imm : BitVec 38) : Nat := rd.toNat * 2 ^ 43 + ra.toNat * 2 ^ 38 + imm.toNat
/-- Format U (R98). -/
def fmtU (rd : BitVec 5) (imm : BitVec 43) : Nat := rd.toNat * 2 ^ 43 + imm.toNat
/-- Format PL (R98). -/
def fmtPL (pd pa pb : BitVec 3) : Nat := pd.toNat * 2 ^ 45 + pa.toNat * 2 ^ 42 + pb.toNat * 2 ^ 39
/-- Format D (R98). -/
def fmtD (dd : BitVec 4) (ra : BitVec 5) (ds : BitVec 4) : Nat := dd.toNat * 2 ^ 44 + ra.toNat * 2 ^ 39 + ds.toNat * 2 ^ 35

/-- CLASS of a word (R91). -/
def wCls (w : Word) : Nat := w.field 63 60
/-- OP of a word. -/
def wOp (w : Word) : Nat := w.field 59 52
/-- WS of a word. -/
def wWs (w : Word) : BitVec 4 := BitVec.ofNat 4 (w.field 51 48)
/-- SE of an engine word (R96). -/
def wSe (w : Word) : Bool := w.bit 47
/-- SSEM of an engine word (R96). -/
def wSsem (w : Word) : Nat := w.field 46 42

/-- The rounding mode of an RND field (R97); the reserved value is refused at decode. -/
def rndOf : Nat → Rnd
  | 1 => .rz | 2 => .sr | _ => .rne

/-- The wait-select fields of R62. -/
def wselSem (e : BitVec 32) : Nat := e.toNat / 2 ^ 16 % 64
def wselCount (e : BitVec 32) : Nat := e.toNat % 2 ^ 16
def wselPred (e : BitVec 32) : BitVec 3 := BitVec.ofNat 3 (e.toNat / 2 ^ 22)
def wselNeg (e : BitVec 32) : Bool := e.getLsbD 25

/-- A wait-select entry from its fields (R62). -/
def wselMake (sem : BitVec 6) (count : BitVec 16) (pred : BitVec 3) (neg : Bool) : BitVec 32 :=
  BitVec.ofNat 32 ((if neg then 2 ^ 25 else 0) + pred.toNat * 2 ^ 22 + sem.toNat * 2 ^ 16 + count.toNat)

/-- The predicate of a wait-select entry holds (R62, R63). -/
def predHolds (c : Core) (e : BitVec 32) : Bool := c.p (wselPred e) != wselNeg e

/-- The location word of a failed check (R217). -/
def locWord (unit core array : Nat) (bank : Bool) (row col nrow ncol detail : Nat) : Word :=
  Word.place unit 4 60 ||| Word.place core 5 55 ||| Word.place array 2 53 ||| Word.placeBit bank 52 |||
  Word.place row 8 44 ||| Word.place col 8 36 ||| Word.place (min nrow 15) 4 32 ||| Word.place (min ncol 15) 4 28 |||
  Word.place detail 28 0

/-- The location word of a unit with no array coordinates (R217). -/
def locSimple (unit core detail : Nat) : Word := locWord unit core 0 false 0xFF 0xFF 0 0 detail

end Sys2Proof.Machine
end

