-- ==== Sys2Proof/Machine/Numerics.lean ====
section
/-! DEFINITION. Number formats, exact values, rounding and conversion (spec/02_number_formats.md R28 to R42, R499).
Every value is exact (a sign and a fraction of naturals); a format is entered through ONE rounding step. -/

namespace Sys2Proof.Machine

/-- A non-negative fraction `num / den`; `den` is positive in every value the model forms. -/
structure Frac where
  num : Nat
  den : Nat
  deriving DecidableEq, Repr

/-- A value of some element format: canonical NaN, a signed infinity, or a signed exact magnitude (so that −0 is kept, R30). -/
inductive Val where
  | nan
  | inf (neg : Bool)
  | fin (neg : Bool) (mag : Frac)
  deriving DecidableEq, Repr

/-- The three sticky numeric flags that one operation raises (R38). -/
structure NumFlags where
  ovf : Bool := false
  inv : Bool := false
  acc : Bool := false
  deriving DecidableEq, Repr

/-- No flag. -/
def NumFlags.none : NumFlags := ⟨false, false, false⟩

/-- Flags of two operations together. -/
def NumFlags.or (a b : NumFlags) : NumFlags := ⟨a.ovf || b.ovf, a.inv || b.inv, a.acc || b.acc⟩

/-- Any flag raised. -/
def NumFlags.any (a : NumFlags) : Bool := a.ovf || a.inv || a.acc

/-- How a floating-point format spends its top encodings (R29). -/
inductive Special where
  | ieee
  | e4m3
  | allFinite
  deriving DecidableEq, Repr

/-- A floating-point layout: exponent and significand widths, bias (R28). -/
structure FloatFmt where
  ebits : Nat
  mbits : Nat
  bias : Nat
  special : Special
  deriving DecidableEq, Repr

/-- FP32 (R28). -/
def fp32Fmt : FloatFmt := ⟨8, 23, 127, .ieee⟩

/-- IEEE 754 binary64, the check datapath's format (R198). -/
def fp64Fmt : FloatFmt := ⟨11, 52, 1023, .ieee⟩

/-- BF16 (R28). -/
def bf16Fmt : FloatFmt := ⟨8, 7, 127, .ieee⟩

/-- The floating-point layout of an element format, if it is one (R28). E8M0 and the integers have none. -/
def floatFmt : Fmt → Option FloatFmt
  | .fp4 => some ⟨2, 1, 1, .allFinite⟩
  | .e2m3 => some ⟨2, 3, 1, .allFinite⟩
  | .e3m2 => some ⟨3, 2, 3, .allFinite⟩
  | .e4m3 => some ⟨4, 3, 7, .e4m3⟩
  | .e5m2 => some ⟨5, 2, 15, .ieee⟩
  | .fp16 => some ⟨5, 10, 15, .ieee⟩
  | .bf16 => some bf16Fmt
  | .fp32 => some fp32Fmt
  | _ => none

/-- Width in bits of an element (R28, R68). -/
def fmtBits : Fmt → Nat
  | .int4 => 4 | .int8 => 8 | .int32 => 32 | .int64 => 64
  | .fp4 => 4 | .e2m3 => 6 | .e3m2 => 6 | .e4m3 => 8 | .e5m2 => 8
  | .fp16 => 16 | .bf16 => 16 | .fp32 => 32 | .e8m0 => 8

/-- An integer format (two's complement, R28). -/
def fmtIsInt : Fmt → Bool
  | .int4 => true | .int8 => true | .int32 => true | .int64 => true
  | _ => false

/-- A floating-point element format. -/
def fmtIsFloat (f : Fmt) : Bool := (floatFmt f).isSome

/-- FP32, BF16 or FP16. -/
def fmtIsWideFloat : Fmt → Bool
  | .fp32 => true | .bf16 => true | .fp16 => true
  | _ => false

/-! ### Fractions -/

/-- The fraction in lowest terms. -/
def Frac.norm (q : Frac) : Frac :=
  let g := Nat.gcd q.num q.den
  if g ≤ 1 then q else ⟨q.num / g, q.den / g⟩

def Frac.ofNat (n : Nat) : Frac := ⟨n, 1⟩
def Frac.isZero (q : Frac) : Bool := q.num == 0
def Frac.mul (a b : Frac) : Frac := Frac.norm ⟨a.num * b.num, a.den * b.den⟩
def Frac.div (a b : Frac) : Frac := Frac.norm ⟨a.num * b.den, a.den * b.num⟩
def Frac.lt (a b : Frac) : Bool := a.num * b.den < b.num * a.den
def Frac.le (a b : Frac) : Bool := a.num * b.den ≤ b.num * a.den
def Frac.eq (a b : Frac) : Bool := a.num * b.den == b.num * a.den

/-- `m × 2^e` as a fraction. -/
def Frac.scaled (m : Nat) (e : Int) : Frac :=
  match e with
  | .ofNat k => ⟨m * 2 ^ k, 1⟩
  | .negSucc k => Frac.norm ⟨m, 2 ^ (k + 1)⟩

/-- floor(log2 (n/d)) of a positive fraction. -/
def floorLog2 (q : Frac) : Int :=
  let k : Int := (Nat.log2 q.num : Int) - (Nat.log2 q.den : Int)
  let ok : Bool := match k with
    | .ofNat j => q.den * 2 ^ j ≤ q.num
    | .negSucc j => q.den ≤ q.num * 2 ^ (j + 1)
  if ok then k else k - 1

/-- The magnitude measured in units of `2^qe`: whole units, remainder, and the remainder's denominator. -/
def unitsOf (q : Frac) (qe : Int) : Nat × Nat × Nat :=
  match qe with
  | .ofNat j => let d := q.den * 2 ^ j; (q.num / d, q.num % d, d)
  | .negSucc j => let n := q.num * 2 ^ (j + 1); (n / q.den, n % q.den, q.den)

/-- One rounding of a magnitude of `whole + rem/den` units (R39, R40); `rnd` is the acorn output of the element. -/
def roundUnits (mode : Rnd) (rnd : Nat) (u : Nat × Nat × Nat) : Nat :=
  let (w, r, d) := u
  match mode with
  | .rne => if 2 * r > d || (2 * r == d && w % 2 == 1) then w + 1 else w
  | .rz => w
  | .sr => if (r * 2 ^ 24) / d + rnd ≥ 2 ^ 24 then w + 1 else w

/-! ### Floating-point encodings -/

def FloatFmt.width (f : FloatFmt) : Nat := 1 + f.ebits + f.mbits

/-- Exponent of the smallest normal. -/
def FloatFmt.emin (f : FloatFmt) : Int := 1 - (f.bias : Int)

/-- Exponent of the top binade. -/
def FloatFmt.emax (f : FloatFmt) : Int :=
  match f.special with
  | .ieee => ((2 ^ f.ebits - 2 : Nat) : Int) - f.bias
  | _ => ((2 ^ f.ebits - 1 : Nat) : Int) - f.bias

/-- Encoding (sign cleared) of the largest finite value. -/
def FloatFmt.maxCode (f : FloatFmt) : Nat :=
  match f.special with
  | .ieee => (2 ^ f.ebits - 1) * 2 ^ f.mbits - 1
  | .e4m3 => 2 ^ (f.ebits + f.mbits) - 2
  | .allFinite => 2 ^ (f.ebits + f.mbits) - 1

/-- Encoding of +Inf (IEEE-like formats). -/
def FloatFmt.infCode (f : FloatFmt) : Nat := (2 ^ f.ebits - 1) * 2 ^ f.mbits

/-- The canonical NaN the LD9200 produces (R29); +0 where the format has none (R36). -/
def FloatFmt.nanCode (f : FloatFmt) : Nat :=
  match f.special with
  | .ieee => f.infCode + 2 ^ (f.mbits - 1)
  | .e4m3 => 2 ^ (f.ebits + f.mbits) - 1
  | .allFinite => 0

/-- Sign bit in place. -/
def FloatFmt.signed (f : FloatFmt) (neg : Bool) (code : Nat) : Nat :=
  if neg then 2 ^ (f.ebits + f.mbits) + code else code

/-- The value of a bit pattern (R28, R29). -/
def floatDecode (f : FloatFmt) (bits : Nat) : Val :=
  let m := bits % 2 ^ f.mbits
  let e := (bits / 2 ^ f.mbits) % 2 ^ f.ebits
  let neg := (bits / 2 ^ (f.mbits + f.ebits)) % 2 == 1
  let top := e == 2 ^ f.ebits - 1
  let finite : Val :=
    if e == 0 then .fin neg (Frac.scaled m (f.emin - f.mbits))
    else .fin neg (Frac.scaled (2 ^ f.mbits + m) ((e : Int) - f.bias - f.mbits))
  match f.special with
  | .ieee => if top then (if m == 0 then .inf neg else .nan) else finite
  | .e4m3 => if top && m == 2 ^ f.mbits - 1 then .nan else finite
  | .allFinite => finite

/-- Magnitude code of a fraction after one rounding, on a scale that goes on above the largest finite value with the
spacing of the top binade (R36). -/
def floatRoundCode (f : FloatFmt) (mode : Rnd) (rnd : Nat) (q : Frac) : Nat :=
  if q.isZero then 0
  else
    let e := min (max (floorLog2 q) f.emin) f.emax
    let qe := e - f.mbits
    let m := roundUnits mode rnd (unitsOf q qe)
    (e - f.emin).toNat * 2 ^ f.mbits + m

/-- Overflow result of R36 for a magnitude above the largest finite value. -/
def floatOverflow (f : FloatFmt) (mode : Rnd) (sat neg : Bool) : Nat :=
  match f.special, sat, mode with
  | .allFinite, _, _ => f.signed neg f.maxCode
  | _, true, _ => f.signed neg f.maxCode
  | _, false, .rz => f.signed neg f.maxCode
  | .ieee, false, _ => f.signed neg f.infCode
  | .e4m3, false, _ => f.nanCode

/-- Conversion of an exact value to a floating-point format with its flags (table of R36). -/
def floatEncode (f : FloatFmt) (mode : Rnd) (sat : Bool) (rnd : Nat) : Val → Nat × NumFlags
  | .nan => (f.nanCode, { NumFlags.none with inv := f.special == .allFinite })
  | .inf neg =>
    match f.special, sat with
    | .ieee, _ => (f.signed neg f.infCode, NumFlags.none)
    | .e4m3, true => (f.signed neg f.maxCode, { NumFlags.none with ovf := true })
    | .e4m3, false => (f.nanCode, { NumFlags.none with inv := true })
    | .allFinite, _ => (f.signed neg f.maxCode, { NumFlags.none with ovf := true })
  | .fin neg q =>
    let c := floatRoundCode f mode rnd q
    if c > f.maxCode then (floatOverflow f mode sat neg, { NumFlags.none with ovf := true })
    else (f.signed neg c, NumFlags.none)

/-- One rounding to FP32 with round-to-nearest-even, as a value (the fixed internal rounding of R39). -/
def roundFp32 (v : Val) : Val := floatDecode fp32Fmt (floatEncode fp32Fmt .rne false 0 v).1

/-- One rounding to FP32, as bits. -/
def bitsFp32 (v : Val) : BitVec 32 := BitVec.ofNat 32 (floatEncode fp32Fmt .rne false 0 v).1

/-- The value of FP32 bits. -/
def valFp32 (b : BitVec 32) : Val := floatDecode fp32Fmt b.toNat

/-- One rounding to binary64 (R198). -/
def roundFp64 (v : Val) : Val := floatDecode fp64Fmt (floatEncode fp64Fmt .rne false 0 v).1

/-- One rounding to BF16 to nearest even, an overflow kept at the largest finite value of its sign (R48). -/
def roundBf16Clamp (v : Val) : Val := floatDecode bf16Fmt (floatEncode bf16Fmt .rne true 0 v).1

/-! ### Exact arithmetic on values (IEEE 754 special cases, canonical NaN R30) -/

def Val.zero : Val := .fin false ⟨0, 1⟩
def Val.negZero : Val := .fin true ⟨0, 1⟩
def Val.one : Val := .fin false ⟨1, 1⟩
def Val.ofInt (i : Int) : Val := .fin (i < 0) ⟨i.natAbs, 1⟩

def Val.isNan : Val → Bool | .nan => true | _ => false
def Val.isInf : Val → Bool | .inf _ => true | _ => false
def Val.isFinite : Val → Bool | .fin _ _ => true | _ => false
def Val.isZero : Val → Bool | .fin _ q => q.isZero | _ => false
def Val.isNegInf : Val → Bool | .inf true => true | _ => false
def Val.isPosInf : Val → Bool | .inf false => true | _ => false

/-- Strictly greater than zero. -/
def Val.isPos : Val → Bool | .inf n => !n | .fin n q => !n && !q.isZero | .nan => false

def Val.neg : Val → Val
  | .nan => .nan
  | .inf n => .inf (!n)
  | .fin n q => .fin (!n) q

def Val.abs : Val → Val
  | .nan => .nan
  | .inf _ => .inf false
  | .fin _ q => .fin false q

/-- Exact product. -/
def Val.mul : Val → Val → Val
  | .nan, _ => .nan
  | _, .nan => .nan
  | .inf a, .inf b => .inf (a != b)
  | .inf a, .fin b q => if q.isZero then .nan else .inf (a != b)
  | .fin a q, .inf b => if q.isZero then .nan else .inf (a != b)
  | .fin a p, .fin b q => .fin (a != b) (p.mul q)

/-- Exact sum; a cancelling sum is +0 unless both terms are −0 (R168, R237). -/
def Val.add : Val → Val → Val
  | .nan, _ => .nan
  | _, .nan => .nan
  | .inf a, .inf b => if a == b then .inf a else .nan
  | .inf a, .fin _ _ => .inf a
  | .fin _ _, .inf b => .inf b
  | .fin a p, .fin b q =>
    let x : Int := if a then -((p.num * q.den : Nat) : Int) else ((p.num * q.den : Nat) : Int)
    let y : Int := if b then -((q.num * p.den : Nat) : Int) else ((q.num * p.den : Nat) : Int)
    let t := x + y
    if t == 0 then .fin (a && b) ⟨0, 1⟩
    else .fin (t < 0) (Frac.norm ⟨t.natAbs, p.den * q.den⟩)

def Val.sub (a b : Val) : Val := a.add b.neg

/-- Exact quotient. -/
def Val.div : Val → Val → Val
  | .nan, _ => .nan
  | _, .nan => .nan
  | .inf _, .inf _ => .nan
  | .inf a, .fin b _ => .inf (a != b)
  | .fin a _, .inf b => .fin (a != b) ⟨0, 1⟩
  | .fin a p, .fin b q =>
    if q.isZero then (if p.isZero then .nan else .inf (a != b))
    else .fin (a != b) (p.div q)

/-- Order of two non-NaN values: `a < b`, with −0 below +0 (the rule of vec.max and vec.min, R164). -/
def Val.below : Val → Val → Bool
  | .inf true, .inf true => false
  | .inf true, _ => true
  | _, .inf true => false
  | .inf false, _ => false
  | _, .inf false => true
  | .fin a p, .fin b q =>
    match a, b with
    | false, false => p.lt q
    | true, true => q.lt p
    | true, false => true
    | false, true => false
  | _, _ => false

/-- Numeric order that takes −0 and +0 as equal. -/
def Val.ltNum (a b : Val) : Bool := a.below b && !(a.isZero && b.isZero)

def Val.max (a b : Val) : Val := if a.isNan || b.isNan then .nan else if a.below b then b else a
def Val.min (a b : Val) : Val := if a.isNan || b.isNan then .nan else if a.below b then a else b

/-- `v × 2^e` exactly. -/
def Val.scale (v : Val) (e : Int) : Val := v.mul (.fin false (Frac.scaled 1 e))

/-! ### Integers, E8M0 and element codes -/

/-- Largest value of an n-bit two's complement integer. -/
def intMax (n : Nat) : Int := 2 ^ (n - 1) - 1
/-- Smallest value of an n-bit two's complement integer. -/
def intMin (n : Nat) : Int := -(2 ^ (n - 1))

/-- Two's complement reading of the low `n` bits. -/
def intOfBits (n bits : Nat) : Int :=
  let b := bits % 2 ^ n
  if b ≥ 2 ^ (n - 1) then (b : Int) - 2 ^ n else b

/-- Two's complement bits of an integer modulo `2^n`. -/
def bitsOfInt (n : Nat) (i : Int) : Nat := (i % (2 ^ n : Int)).toNat

/-- Conversion of a value to an n-bit integer: round, then saturate (R37, R97). -/
def intEncode (n : Nat) (mode : Rnd) (rnd : Nat) : Val → Nat × NumFlags
  | .nan => (0, { NumFlags.none with inv := true })
  | .inf neg => (bitsOfInt n (if neg then intMin n else intMax n), { NumFlags.none with ovf := true })
  | .fin neg q =>
    let m : Int := (roundUnits mode rnd (unitsOf q 0) : Nat)
    let v := if neg then -m else m
    if v > intMax n then (bitsOfInt n (intMax n), { NumFlags.none with ovf := true })
    else if v < intMin n then (bitsOfInt n (intMin n), { NumFlags.none with ovf := true })
    else (bitsOfInt n v, NumFlags.none)

/-- E8M0 code of the rounded power of a positive finite value (R499). The biased exponent of 2^e is e + 127. -/
def e8m0Power (mode : Rnd) (rnd : Nat) (q : Frac) : Int :=
  let e := floorLog2 q
  let (_, r, d) := unitsOf q e
  let up : Bool := match mode with
    | .rz => false
    | .sr => (r * 2 ^ 24) / d + rnd ≥ 2 ^ 24
    | .rne => 2 * r > d || (2 * r == d && (e + 127) % 2 == 1)
  if up then e + 1 else e

/-- Conversion to E8M0 (table of R499). -/
def e8m0Encode (mode : Rnd) (rnd : Nat) : Val → Nat × NumFlags
  | .nan => (0xFF, { NumFlags.none with inv := true })
  | .inf true => (0xFF, { NumFlags.none with inv := true })
  | .inf false => (0xFE, { NumFlags.none with ovf := true })
  | .fin neg q =>
    if q.isZero || neg then (0xFF, { NumFlags.none with inv := true })
    else
      let p := e8m0Power mode rnd q
      if p > 127 then (0xFE, { NumFlags.none with ovf := true })
      else if p < -127 then (0, NumFlags.none)
      else ((p + 127).toNat, NumFlags.none)

/-- The value of an element's bits in a format (R28, R29, R37). -/
def elemDecode (f : Fmt) (bits : Nat) : Val :=
  match floatFmt f with
  | some ff => floatDecode ff bits
  | none =>
    match f with
    | .e8m0 => if bits % 256 == 0xFF then .nan else .fin false (Frac.scaled 1 ((bits % 256 : Nat) - 127))
    | g => Val.ofInt (intOfBits (fmtBits g) bits)

/-- Default saturate bit of a destination (R36). -/
def satDefault : Fmt → Bool
  | .fp16 => false | .bf16 => false | .fp32 => false
  | _ => true

/-- The saturate bit that a SAT field selects for a destination (R97). -/
def satOf (sat : Nat) (f : Fmt) : Bool :=
  match sat with
  | 2 => false
  | 3 => true
  | _ => satDefault f

/-- One rounding of an exact value to an element format (R36, R37, R499). -/
def elemEncode (f : Fmt) (mode : Rnd) (sat : Bool) (rnd : Nat) (v : Val) : Nat × NumFlags :=
  match floatFmt f with
  | some ff => floatEncode ff mode sat rnd v
  | none =>
    match f with
    | .e8m0 => e8m0Encode mode rnd v
    | g => intEncode (fmtBits g) mode rnd v

/-- The acorn generator (R41): 24 bits from seed, tensor id and element index. -/
def acornStep (k x : Word) : Word :=
  let x := x ^^^ (x >>> 31)
  let x := x * 0xBF58476D1CE4E5B9#64
  let x := x ^^^ (x >>> 29)
  x + k

def acorn (seed : Word) (tid : BitVec 32) (i : Nat) : Nat :=
  let k := seed ^^^ (tid.zeroExtend 64 * 0x9E3779B97F4A7C15#64)
  let x := BitVec.ofNat 64 i + k
  (acornStep k (acornStep k (acornStep k x))).toNat / 2 ^ 40

/-- An MXINT8 element is a signed fraction with 6 fractional bits (R33); other MX elements are read as they are. -/
def mxElem (f : Fmt) (bits : Nat) : Val :=
  match f with
  | .int8 => (Val.ofInt (intOfBits 8 bits)).scale (-6)
  | g => elemDecode g bits

end Sys2Proof.Machine
end

