-- ==== Sys2Proof/Machine/Operands.lean ====
section
/-! DEFINITION. Operand forms: tensor descriptors, their checks, layouts and elements (spec/03 R67 to R73, 02 R31, 08 R225). -/

namespace Sys2Proof.Machine

/-- A tensor descriptor (R67). -/
abbrev Desc := BitVec 256

/-- Bits `[lo+w-1:lo]` of a descriptor. -/
def Desc.fld (d : Desc) (lo w : Nat) : Nat := d.toNat / 2 ^ lo % 2 ^ w

/-- A descriptor with the `w` bits from `lo` replaced. -/
def Desc.withFld (d : Desc) (lo w v : Nat) : Desc :=
  (d &&& ~~~ (BitVec.ofNat 256 ((2 ^ w - 1) * 2 ^ lo))) ||| BitVec.ofNat 256 (v % 2 ^ w * 2 ^ lo)

def Desc.base (d : Desc) : Nat := d.fld 0 48
def Desc.fmtCode (d : Desc) : Nat := d.fld 48 6
def Desc.layout (d : Desc) : Nat := d.fld 54 2
def Desc.scaled (d : Desc) : Bool := d.getLsbD 56
def Desc.mxs (d : Desc) : Bool := d.getLsbD 57
def Desc.mxblk (d : Desc) : Nat := d.fld 58 2
def Desc.rows (d : Desc) : Nat := d.fld 64 32
def Desc.cols (d : Desc) : Nat := d.fld 96 32
def Desc.stride (d : Desc) : Nat := d.fld 128 48
def Desc.tid (d : Desc) : BitVec 32 := BitVec.ofNat 32 (d.fld 192 32)
def Desc.scale (d : Desc) : BitVec 32 := BitVec.ofNat 32 (d.fld 224 32)

/-- The format of a FMT code (R68). -/
def fmtOfCode : Nat → Option Fmt
  | 0 => some .int4 | 1 => some .int8 | 2 => some .int32 | 3 => some .int64 | 4 => some .fp4 | 5 => some .e2m3
  | 6 => some .e3m2 | 7 => some .e4m3 | 8 => some .e5m2 | 9 => some .fp16 | 10 => some .bf16 | 11 => some .fp32
  | 12 => some .e8m0 | _ => none

/-- The format of a well-formed descriptor (INT4 for a reserved code, which R72 refuses). -/
def Desc.fmt (d : Desc) : Fmt := (fmtOfCode d.fmtCode).getD .int4

/-- The element width in bits. -/
def Desc.bits (d : Desc) : Nat := fmtBits d.fmt

/-- ROWS or COLS is 0 (R71). -/
def Desc.empty (d : Desc) : Bool := d.rows == 0 || d.cols == 0

/-- An MX tensor may have these element formats (R68). -/
def fmtIsMx : Fmt → Bool
  | .e4m3 => true | .e5m2 => true | .e2m3 => true | .e3m2 => true | .fp4 => true | .int8 => true | _ => false

/-- Bytes of one T128 tile (R70). -/
def Desc.tileBytes (d : Desc) : Nat := 2048 * d.bits

/-- Bytes from BASE to the last byte of a non-empty tensor, T128 padding included (R70, R71). -/
def Desc.extent (d : Desc) : Nat :=
  match d.layout with
  | 0 => (d.rows - 1) * d.stride + ceilDiv (d.cols * d.bits) 8
  | 1 => (d.cols - 1) * d.stride + ceilDiv (d.rows * d.bits) 8
  | _ => (ceilDiv d.rows 128 - 1) * d.stride + ceilDiv d.cols 128 * d.tileBytes

/-- Address of the first bit of element (r, c), in bits (R70, R225, R31). -/
def Desc.elemBit (d : Desc) (r c : Nat) : Nat :=
  match d.layout with
  | 0 => (d.base + r * d.stride) * 8 + c * d.bits
  | 1 => (d.base + c * d.stride) * 8 + r * d.bits
  | _ =>
    let tile := d.base + r / 128 * d.stride + c / 128 * d.tileBytes
    let br := r % 128 / 16
    let bc := c % 128 / 16
    (tile + (8 * br + (bc ^^^ br)) * (32 * d.bits)) * 8 + (16 * (r % 16) + c % 16) * d.bits

/-- The bytes that element (r, c) touches: first address and count. -/
def Desc.elemBytes (d : Desc) (r c : Nat) : Nat × Nat :=
  let b := d.elemBit r c
  (b / 8, (b % 8 + d.bits + 7) / 8)

/-- The code of element (r, c) in memory. -/
def State.elem (s : State) (d : Desc) (r c : Nat) : Nat :=
  let (a, k) := d.elemBytes r c
  s.readNat a k / 2 ^ (d.elemBit r c % 8) % 2 ^ d.bits

/-- Memory with element (r, c) stored; bits of its bytes outside the element are kept (R222). -/
def State.putElem (s : State) (d : Desc) (r c v : Nat) : State :=
  let (a, k) := d.elemBytes r c
  let sh := d.elemBit r c % 8
  let old := s.readNat a k
  let low := old % 2 ^ sh
  let high := old / 2 ^ (sh + d.bits)
  { s with mem := memWrite s.mem a (bytesOfNat k (low + (v % 2 ^ d.bits) * 2 ^ sh + high * 2 ^ (sh + d.bits))) }

/-- The positions of a tensor in row-major order. -/
def positions (rows cols : Nat) : List (Nat × Nat) :=
  (List.range rows).flatMap (fun r => (List.range cols).map (fun c => (r, c)))

/-- The byte ranges that a tensor's elements occupy, one per element. -/
def Desc.ranges (d : Desc) : List (Nat × Nat) := (positions d.rows d.cols).map (fun p => d.elemBytes p.1 p.2)

/-- The byte ranges of several tensors. -/
def rangesOf (ds : List Desc) : List (Nat × Nat) := ds.flatMap Desc.ranges

/-- A byte lies in one of several ranges. -/
def inRanges (rs : List (Nat × Nat)) (a : Nat) : Bool := rs.any (fun r => decide (r.1 ≤ a) && decide (a < r.1 + r.2))

/-- After an instruction has written the ranges: units it wrote whole are no longer poisoned (R235). -/
def State.cleanPoison (s : State) (rs : List (Nat × Nat)) : State :=
  { s with poison := s.poison.filter (fun p =>
      !((List.range (poisonUnit p).2).all (fun i => inRanges rs (p + i)))) }

/-- Store a tensor: every element from a function of its position, in row-major order (R222). -/
def State.putTensor (s : State) (d : Desc) (f : Nat → Nat → Nat) : State :=
  let t := (positions d.rows d.cols).foldl (fun t p => t.putElem d p.1 p.2 (f p.1 p.2)) s
  if t.poison.isEmpty then t else t.cleanPoison d.ranges

/-- Give every byte of the ranges that also lies in `src` a fresh free value: the overlapping destination bytes that R113
and R162 leave undefined. -/
def State.freeOverlap (s : State) (dst src : List (Nat × Nat)) : State :=
  dst.foldl (fun t r =>
    (List.range r.2).foldl (fun t i =>
      if inRanges src (r.1 + i) then
        { t.drew with mem := memWrite t.mem (r.1 + i) [BitVec.ofNat 8 t.free.toNat] }
      else t) t) s

/-! ### Staging areas of groups (R291) -/

/-- The bytes of a group's staging area. -/
def stagingOf (g : GroupDef) : Nat × Nat := (g.stage, 0x1_0000 * g.stgsz)

/-- A program's access to these ranges meets the staging area of a group of its job that has not stopped. -/
def Group.meets (g : Group) (job : Word) (l : List (Nat × Nat)) : Bool :=
  g.job == job && (g.phase == .creating || g.phase == .ready) &&
  l.any (fun r => decide (r.1 < g.gdef.stage + 0x1_0000 * g.gdef.stgsz) && decide (g.gdef.stage < r.1 + r.2))

/-- No access to these ranges meets a staging area. -/
def State.clearOfStaging (s : State) (job : Word) (l : List (Nat × Nat)) : Bool :=
  s.groups.toList.all (fun o => match o with | some g => !g.meets job l | none => true)

/-- A program accesses these ranges. Where they meet the staging area of a group, what the area holds is the device's own, so the bytes met are free, and the
group's results are undefined from then on (R291). -/
def State.touchStaging (s : State) (job : Word) (l : List (Nat × Nat)) : State :=
  if s.clearOfStaging job l then s
  else
    let t := (s.groups.toList.filterMap id).foldl (fun (t : State) g => if g.meets job l then t.freeOverlap l [stagingOf g.gdef] else t) s
    { t with groups := t.groups.map (fun o => o.map (fun g => if g.meets job l then { g with breached := true } else g)) }

/-- The same tensor in place: BASE, STRIDE, LAYOUT, FMT and shape agree (R162). -/
def Desc.identical (a b : Desc) : Bool :=
  a.base == b.base && a.stride == b.stride && a.layout == b.layout && a.fmtCode == b.fmtCode && a.rows == b.rows
    && a.cols == b.cols

/-! ### Regions (R71, R73, R227, R229) -/

/-- The regions of R71. -/
inductive Region where
  | scratch (core : Nat)
  | stats (core : Nat)
  | save (core : Nat)
  | hbm
  | none
  deriving DecidableEq, Repr

/-- The region of an address. -/
def regionOf (s : State) (job : Word) (a : Nat) : Region :=
  if a < 32 * scratchSize then .scratch (a / scratchSize)
  else
    match statsOwner a with
    | some k => .stats k
    | none =>
      if statsBase 0 ≤ a ∧ a < statsBase 32 ∧ 0x10_0000 ≤ (a - statsBase 0) % 0x40_0000
          ∧ (a - statsBase 0) % 0x40_0000 < 0x20_0000 then
        .save ((a - statsBase 0) / 0x40_0000)
      else if s.hbmHeld job a 1 then .hbm
      else .none

/-- A range lies wholly in the windows of a job, taken together (R229). -/
def coveredBy (ws : List Window) : Nat → Nat → Nat → Bool
  | 0, _, n => n == 0
  | fuel + 1, a, n =>
    if n = 0 then true
    else
      match ws.find? (fun w => decide (w.base ≤ a) && decide (a < w.base + w.size)) with
      | some w => coveredBy ws fuel (w.base + w.size) (a + n - (w.base + w.size))
      | none => false

/-- The tensor's bytes stay in the region of its BASE (R71). -/
def staysInRegion (s : State) (job : Word) (d : Desc) : Bool :=
  let last := d.base + d.extent
  match regionOf s job d.base with
  | .scratch k => decide (last ≤ (k + 1) * scratchSize)
  | .stats k => decide (last ≤ statsBase k + statsSize)
  | .save k => decide (last ≤ statsBase k + 0x20_0000)
  | .hbm =>
    match s.job? job with
    | some j => coveredBy j.windows 17 d.base d.extent
    | none => false
  | .none => false

/-! ### The checks of R72, in its order -/

/-- The scale array's orientation (R69): true for ROWS × ceil(COLS ÷ 32), false for ceil(ROWS ÷ 32) × COLS, none otherwise. A
square case that fits both counts as blocks along the columns. -/
def scaleAlongCols (d sc : Desc) : Option Bool :=
  if sc.rows = d.rows ∧ sc.cols = ceilDiv d.cols 32 then some true
  else if sc.rows = ceilDiv d.rows 32 ∧ sc.cols = d.cols then some false
  else none

/-- The scale array of an MX tensor fits blocks along the columns (`true`) or along the rows (R69). -/
def scaleFits (d sc : Desc) (alongCols : Bool) : Bool :=
  if alongCols then sc.rows == d.rows && sc.cols == ceilDiv d.cols 32
  else sc.rows == ceilDiv d.rows 32 && sc.cols == d.cols

/-- The elements per group that the innermost dimension must be a multiple of (R31). -/
def lineMultiple : Fmt → Nat
  | .int4 => 2 | .fp4 => 2 | .e2m3 => 4 | .e3m2 => 4 | _ => 1

/-- The position of the field that the first broken rule names, for the rules that do not depend on the region (R72). The rules of R69 come before
that of R31, as the rows of R72's table stand; its list names R31 first (DESIGN CHOICE, log 66). -/
def Desc.fault (d : Desc) (reg : BitVec 4) (sc : Desc) : Option Nat :=
  if d.fld 60 4 ≠ 0 then some 60
  else if d.fld 176 16 ≠ 0 then some 176
  else if (fmtOfCode d.fmtCode).isNone then some 48
  else if d.layout = 3 then some 54
  else if d.mxs ∧ d.mxblk ≠ 0 then some 58
  else if d.mxs ∧ (reg = 15 ∨ !fmtIsMx d.fmt ∨ sc.fmtCode ≠ 0x0C ∨ (scaleAlongCols d sc).isNone) then some 57
  else if d.empty then none
  else if d.layout = 1 ∧ d.rows % lineMultiple d.fmt ≠ 0 then some 64
  else if d.layout ≠ 1 ∧ d.cols % lineMultiple d.fmt ≠ 0 then some 96
  else if d.layout = 2 ∧ d.base % 4096 ≠ 0 then some 0
  else if d.layout = 0 ∧ (d.stride % 64 ≠ 0 ∨ d.stride < ceilDiv (d.cols * d.bits) 8) then some 128
  else if d.layout = 1 ∧ (d.stride % 64 ≠ 0 ∨ d.stride < ceilDiv (d.rows * d.bits) 8) then some 128
  else if d.layout = 2 ∧ d.stride < ceilDiv d.cols 128 * d.tileBytes then some 128
  else none

/-- CORE_TRAPINFO of DESCRIPTOR (R125). -/
def descInfo (reg pos : Nat) : Word := Word.place reg 4 0 ||| Word.place pos 8 8

/-- Which units may access which region (the tables of R73 and R227): the unit that names the tensor. -/
inductive Unit73 where
  | move | matrix | vector | row | comm
  deriving DecidableEq, Repr

/-- The conditions of naming the region of a non-empty tensor (R71, R73, R89, R4): malformed when it leaves its region;
ADDRESS in no region or in one the unit may not access; UNIT_ABSENT in an absent core's scratchpad (of the side memories absentConditions says it). -/
def regionConditions (s : State) (n : Fin 32) (u : Unit73) (d : Desc) (reg : Nat) : List Condition :=
  let job := (s.cores[n]).job
  let at' : Word := BitVec.ofNat 64 d.base
  let r := regionOf s job d.base
  let stays : List Condition := if staysInRegion s job d then [] else [(.descriptor, descInfo reg 0)]
  match r with
  | .none => [(.address, at')]
  | .scratch k => stays ++ s.scratchCondition n k at'
  | .stats k =>
    match u with
    | .move => stays ++ (if s.corePresent k then s.scratchCondition n k at' else [])
    | .row => if k = n.val then stays else stays ++ [(.address, at')]
    | _ => stays ++ [(.address, at')]
  | .save _ => stays ++ [(.address, at')]
  | .hbm =>
    match u with
    | .move => stays
    | .comm => stays
    | _ => stays ++ [(.address, at')]

/-- UNIT_ABSENT of a non-empty tensor whose region belongs to an absent core, malformed or not (R72, R84, R4); an absent core's
scratchpad that a well-formed tensor names is a case of regionConditions. -/
def absentConditions (s : State) (d : Desc) (malformed : Bool) : List Condition :=
  let gone (k : Nat) : List Condition := if s.corePresent k then [] else [(.unitAbsent, BitVec.ofNat 64 d.base)]
  if d.empty then []
  else
    match regionOf s 0 d.base with
    | .scratch k => if malformed then gone k else []
    | .stats k => gone k
    | .save k => gone k
    | _ => []

/-- The conditions of one descriptor: the first broken rule of R72, or the rules of its region. -/
def oneDescConditions (s : State) (n : Fin 32) (u : Unit73) (d : Desc) (reg : BitVec 4) (sc : Desc) : List Condition :=
  match Desc.fault d reg sc with
  | some pos => absentConditions s d true ++ [(.descriptor, descInfo reg.toNat pos)]
  | none => absentConditions s d false ++ (if d.empty then [] else regionConditions s n u d reg.toNat)

/-- All conditions of one named descriptor: its own, and those of the scale array of an MX tensor (R69, R72). -/
def descConditions (s : State) (n : Fin 32) (u : Unit73) (nd : NamedDesc) : List Condition :=
  oneDescConditions s n u nd.val nd.reg nd.next ++
    (if Desc.mxs nd.val && nd.reg != 15 && Desc.mxblk nd.val == 0 && fmtIsMx (Desc.fmt nd.val) then oneDescConditions s n u nd.next (nd.reg + 1) 0 else [])

/-- The value of an MX element: its block's scale applied (R33, R34). -/
def mxValue (f : Fmt) (bits scale : Nat) : Val :=
  if scale = 0xFF then .nan else (mxElem f bits).scale ((scale : Int) - 127)

/-- The scale code of element (r, c) of an MX tensor (R69). -/
def State.mxScale (s : State) (d sc : Desc) (alongCols : Bool) (r c : Nat) : Nat :=
  let _ := d
  if alongCols then s.elem sc r (c / 32) else s.elem sc (r / 32) c

end Sys2Proof.Machine
end

