-- ==== Sys2Proof/Machine/Rules.lean ====
section
/-! DEFINITION. What is checked of an engine instruction: its encoding at decode (spec/04 R93, R96, R97, R112 to R123) and its
operands at dispatch (R113, R116, R119, R121, R124; 03 R71 to R73; 05 R134; 06 R160, R171, R176, R181; 09 R282; 10 R300). -/

namespace Sys2Proof.Machine

/-! ### Encoding (R93) -/

/-- SE = 0 with a non-zero SSEM is an encoding error (R96). -/
def sigLegal (w : Word) : Bool := wSe w || wSsem w == 0

/-- Move words (R112). -/
def moveLegal (w : Word) : Bool :=
  decide (wOp w ≤ 4) && w.field 21 0 == 0 && sigLegal w && w.field 28 27 != 3 && w.field 26 25 != 1 &&
  decide (w.field 24 22 ≤ 4)

/-- Matrix words (R115). -/
def matrixLegal (w : Word) : Bool :=
  sigLegal w && w.field 20 0 == 0 &&
  match wOp w with
  | 0 => decide (w.field 28 26 ≤ 4) && w.field 24 23 != 3 && (w.field 24 23 == 2 || w.field 32 29 == 0)
  | 1 => w.field 31 30 != 3 && w.field 29 28 != 1 && (w.bit 26 || w.field 25 21 == 0)
  | _ => false

/-- Assigned vector opcodes (R118). -/
def vecOpAssigned (op : Nat) : Bool :=
  decide (op ≤ 0x0A) || (decide (0x10 ≤ op) && decide (op ≤ 0x16)) || (decide (0x20 ≤ op) && decide (op ≤ 0x28)) ||
  (decide (0x30 ≤ op) && decide (op ≤ 0x38)) || (decide (0x40 ≤ op) && decide (op ≤ 0x43))

/-- Vector words (R118). -/
def vectorLegal (w : Word) : Bool :=
  vecOpAssigned (wOp w) && w.field 14 0 == 0 && sigLegal w && w.field 20 19 != 3 && w.field 18 17 != 1

/-- Row words (R120). -/
def rowLegal (w : Word) : Bool :=
  (decide (wOp w ≤ 6) || (decide (8 ≤ wOp w) && decide (wOp w ≤ 10))) && sigLegal w && w.field 20 19 != 3 &&
  w.field 18 17 != 1

/-- Comm words (R122, R123). -/
def commLegal (w : Word) : Bool :=
  let op := wOp w
  sigLegal w &&
  if op ≤ 4 then w.field 22 0 == 0 && decide (w.field 25 23 ≤ 4)
  else if 0x10 ≤ op ∧ op ≤ 0x16 then
    w.field 19 0 == 0 &&
    (op == 0x10 || op == 0x11 || op == 0x14 || (w.field 27 26 == 0 && w.field 25 25 == 0)) &&
    (op == 0x13 || op == 0x14 || w.field 24 20 == 0) &&
    (op != 0x16 || (w.field 41 38 == 0 && w.field 37 34 == 0))
  else false

/-- The bits of the low 48 that a class 0 opcode marks 0, and whether it is assigned (R98, R99). -/
def scalarLegal (w : Word) : Bool :=
  let op := wOp w
  let z (hi lo : Nat) : Bool := w.field hi lo == 0
  if op = 0 then z 47 0
  else if op ≤ 0x0E then z 32 0
  else if 0x10 ≤ op ∧ op ≤ 0x15 then true
  else if 0x16 ≤ op ∧ op ≤ 0x18 then z 37 6
  else if op = 0x1A then true
  else if op = 0x1B then z 42 32
  else if 0x20 ≤ op ∧ op ≤ 0x23 then true
  else if 0x24 ≤ op ∧ op ≤ 0x28 then z 32 0
  else if op = 0x30 ∨ op = 0x31 then z 42 38
  else if 0x32 ≤ op ∧ op ≤ 0x37 then true
  else if op = 0x38 then z 43 38
  else if op = 0x39 then z 47 38
  else if op = 0x3A then z 42 38
  else if op = 0x3B then z 42 0
  else if 0x40 ≤ op ∧ op ≤ 0x43 then z 34 0
  else if op = 0x44 ∨ op = 0x45 then true
  else if 0x46 ≤ op ∧ op ≤ 0x48 then z 38 0
  else if op = 0x49 then z 41 0
  else if op = 0x50 ∨ op = 0x51 then true
  else if op = 0x52 then z 43 39 && z 34 0
  else if 0x53 ≤ op ∧ op ≤ 0x59 then z 34 0
  else if op = 0x5A then z 33 0
  else if op = 0x5B then z 34 0
  else if op = 0x5C then z 36 0
  else false

/-- Sync words (R105). -/
def syncLegal (w : Word) : Bool :=
  match wOp w with
  | 0 => w.field 25 0 == 0 && decide (w.field 47 42 < 48)
  | 1 => w.field 17 0 == 0 && w.field 47 44 != 0 && decide (w.field 43 38 < 48)
  | 2 => w.field 25 0 == 0 && decide (w.field 47 42 < 32) && w.field 41 26 != 0
  | 3 => w.field 25 0 == 0 && decide (w.field 47 42 < 48)
  | 4 => w.field 21 0 == 0 && w.field 38 23 != 0
  | 5 => w.field 36 0 == 0 && decide (w.field 42 37 < 48)
  | 6 => w.field 41 0 == 0 && w.field 47 42 != 0
  | 7 => w.field 42 0 == 0
  | _ => false

/-- System words (R109). -/
def systemLegal (w : Word) : Bool :=
  match wOp w with
  | 0 => w.field 37 32 == 0
  | 1 => w.field 37 32 == 0
  | 2 => w.field 47 0 == 0
  | 3 => w.field 42 0 == 0
  | 4 => w.field 42 0 == 0
  | 5 => w.field 47 0 == 0
  | 6 => w.field 47 16 == 0
  | _ => false

/-- The word decodes (R93). -/
def wordLegal (w : Word) : Bool :=
  match wCls w with
  | 0 => scalarLegal w | 1 => moveLegal w | 2 => matrixLegal w | 3 => vectorLegal w | 4 => rowLegal w | 5 => commLegal w
  | 6 => syncLegal w | 7 => systemLegal w | _ => false

/-- The queue that an engine word feeds (R54). -/
def queueOf (w : Word) : Option QueueId :=
  match wCls w with
  | 1 => some .move | 2 => some (if w.bit 41 then .ctx1 else .ctx0) | 3 => some .vector | 4 => some .row | 5 => some .comm
  | _ => none

/-! ### Operand rules -/

/-- An ILLEGAL_OPCODE condition of a word when a rule is broken. -/
def breach (w : Word) (broken : Bool) : List Condition := if broken then [(.illegalOpcode, w)] else []

/-- The descriptor's format is in a list; a reserved FMT is judged by R72 alone. -/
def fmtIn (d : Desc) (l : List Fmt) : Bool :=
  match fmtOfCode d.fmtCode with
  | none => true
  | some f => l.contains f

/-- Two descriptors have the same FMT. -/
def fmtSame (a b : Desc) : Bool := a.fmtCode == b.fmtCode

/-- Two descriptors have the same shape. -/
def shapeSame (a b : Desc) : Bool := a.rows == b.rows && a.cols == b.cols

/-- A descriptor has a given shape. -/
def shapeIs (d : Desc) (r c : Nat) : Bool := d.rows == r && d.cols == c

/-- FP32, BF16 and FP16. -/
def wideFloats : List Fmt := [.fp32, .bf16, .fp16]
/-- The element formats of memory-side arithmetic and of reductions (R113, R237, R300). -/
def redFormats : List Fmt := [.fp32, .bf16, .fp16, .int32, .int64]

/-- The queue entry's named descriptors that a move instruction uses (R112). -/
def moveConditions (s : State) (n : Fin 32) (e : Entry) : List Condition :=
  let w := e.word
  let dd : Desc := e.d0.val
  let ds : Desc := e.d1.val
  let two := descConditions s n .move e.d0 ++ descConditions s n .move e.d1
  let rnd := w.field 28 27
  let sat := w.field 26 25
  let aop := w.field 24 22
  match wOp w with
  | 0 =>
    two ++ breach w (!shapeSame dd ds) ++ breach w (!fmtSame dd ds) ++ breach w (dd.mxs != ds.mxs) ++
    breach w (dd.mxs && ds.mxs && !(shapeSame e.d0.next e.d1.next)) ++
    breach w (rnd != 0 || sat != 0 || w.field 33 29 != 0)
  | 1 =>
    two ++ breach w (!shapeSame dd ds) ++ breach w (dd.mxs || ds.mxs) ++ breach w (sat != 0 || aop != 0)
  | 2 => descConditions s n .move e.d0 ++ breach w (rnd == 2)
  | 3 =>
    let hbm : List Condition :=
      if dd.empty ∨ hbmBase ≤ dd.base ∧ dd.base % (dd.bits / 8) = 0 then [] else [(.address, BitVec.ofNat 64 dd.base)]
    two ++ hbm ++ breach w (!shapeSame dd ds) ++ breach w (!fmtSame dd ds || !fmtIn dd redFormats) ++
    breach w (decide (2 < aop))
  | _ =>
    let mask := (List.range 32).filter (fun k => e.ra.getLsbD k)
    let cores := mask.flatMap (fun k =>
      if !s.corePresent k then [(Cause.unitAbsent, BitVec.ofNat 64 k)]
      else s.scratchCondition n k (BitVec.ofNat 64 (scratchBase k + dd.base % scratchSize)))
    two ++ cores ++ breach w (!shapeSame dd ds) ++ breach w (!fmtSame dd ds) ++
    breach w (!dd.empty && decide (32 * scratchSize ≤ dd.base)) ++ breach w (rnd == 2)

/-- The row of R43 to which a pair of formats belongs. -/
def accModeOf (a b : Fmt) (mxs : Bool) : Option AccMode :=
  if mxs then (if fmtIsMx a && fmtIsMx b then some .mx else none)
  else
    let small := [Fmt.fp4, .e2m3, .e3m2, .e4m3, .e5m2]
    let ints := [Fmt.int4, .int8]
    let half := [Fmt.bf16, .fp16]
    if small.contains a && small.contains b then some .exactFloat
    else if ints.contains a && ints.contains b then some .exactInt
    else if half.contains a && half.contains b then some .ordered
    else if a = .fp32 ∧ b = .fp32 then some .fp32
    else none

/-- Destination formats of a mode (R43). -/
def destFormats : AccMode → List Fmt
  | .exactFloat => [.fp32, .bf16, .fp16, .e4m3, .e5m2]
  | .exactInt => [.int32, .int8, .fp32, .bf16, .fp16]
  | .ordered => [.fp32, .bf16, .fp16, .e4m3, .e5m2]
  | .fp32 => [.fp32, .bf16]
  | .mx => [.fp32, .bf16, .fp16, .e4m3, .e5m2]

/-- Fields of an mm.issue (R115). -/
def issueFold (w : Word) : Nat := 2 ^ w.field 28 26
def issueBank (w : Word) : Bool := w.bit 25
def issueInit (w : Word) : Nat := w.field 24 23
def issueTA (w : Word) : Bool := w.bit 22
def issueTB (w : Word) : Bool := w.bit 21
def issueM (e : Entry) : Nat := if issueTA e.word then Desc.cols e.d0.val else Desc.rows e.d0.val
def issueKA (e : Entry) : Nat := if issueTA e.word then Desc.rows e.d0.val else Desc.cols e.d0.val
def issueKB (e : Entry) : Nat := if issueTB e.word then Desc.cols e.d1.val else Desc.rows e.d1.val
def issueN (e : Entry) : Nat := if issueTB e.word then Desc.rows e.d1.val else Desc.cols e.d1.val

/-- Fields of an mm.drain (R115). -/
def drainBank (w : Word) : Bool := w.bit 27

/-- The bank that a matrix word names. -/
def matrixBank (w : Word) : Bool := if wOp w = 0 then issueBank w else drainBank w

/-- Rules of mm.issue and mm.drain at dispatch (R116, R134). -/
def matrixConditions (s : State) (n : Fin 32) (e : Entry) : List Condition :=
  let w := e.word
  if wOp w = 0 then
    let a : Desc := e.d0.val
    let b : Desc := e.d1.val
    let c : Desc := e.d2.val
    let m := issueM e
    let nn := issueN e
    let init := issueInit w
    let mode := match fmtOfCode a.fmtCode, fmtOfCode b.fmtCode with
      | some fa, some fb => some (accModeOf fa fb (a.mxs && b.mxs))
      | _, _ => none
    let exact := mode == some (some .exactFloat) || mode == some (some .exactInt)
    let named := descConditions s n .matrix e.d0 ++ descConditions s n .matrix e.d1 ++
      (if init = 2 then descConditions s n .matrix e.d2 else [])
    named ++
    breach w (issueKA e != issueKB e) ++
    breach w (!(m == 0 || nn == 0) && (decide (128 / issueFold w < m) || decide (512 < nn))) ++
    breach w (mode == some none) ++
    breach w (a.mxs != b.mxs) ++
    breach w (a.mxs && b.mxs && issueKA e % 32 != 0) ++
    breach w (a.mxs && !scaleFits a e.d0.next (!issueTA w)) ++
    breach w (b.mxs && !scaleFits b e.d1.next (issueTB w)) ++
    breach w (!exact && (a.scaled || b.scaled || (init == 2 && c.scaled))) ++
    breach w (init == 2 && !(shapeIs c m nn &&
      (if mode == some (some .exactInt) then fmtIn c [.int32] else fmtIn c wideFloats))) ++
    breach w (mode == some (some .fp32) && init == 1)
  else
    descConditions s n .matrix e.d0 ++ breach w (Desc.mxs e.d0.val)

/-- FP32 bits that are finite and greater than 0 (R171). -/
def alphaLegal (v : Word) : Bool :=
  (valFp32 (v.truncate 32)).isFinite && (valFp32 (v.truncate 32)).isPos

/-- Rules of the vector class at dispatch (R118, R119, R160, R171). INT64 is a source of vec.cvt and the record tensor of row.merge as R160 has it, though R68
admits INT64 only to moves, comm and memory-side atomics (DESIGN CHOICE, log 67). -/
def vectorConditions (s : State) (n : Fin 32) (e : Entry) : List Condition :=
  let w := e.word
  let op := wOp w
  let dd : Desc := e.d0.val
  let da : Desc := e.d1.val
  let db : Desc := e.d2.val
  let ds : Desc := e.d3.val
  let save := w.bit 16
  let rax := w.bit 15
  let rnd := w.field 20 19
  let usesB := decide (op ≤ 5) || op == 8 || op == 9
  let usesS := op == 5 || (decide (0x30 ≤ op) && decide (op ≤ 0x38)) || (decide (0x20 ≤ op) && decide (op ≤ 0x28) && save)
  let reduction := decide (0x40 ≤ op)
  let used := [e.d0, e.d1] ++ (if usesB then [e.d2] else []) ++ (if usesS then [e.d3] else [])
  let others := [da] ++ (if usesB then [db] else []) ++ (if usesS then [ds] else [])
  let formats : Bool :=
    if op = 0x0A then
      fmtIn da [.int4, .int8, .int32, .int64, .fp4, .e2m3, .e3m2, .e4m3, .e5m2, .fp16, .bf16, .fp32] &&
      fmtIn dd [.int4, .int8, .int32, .fp4, .e2m3, .e3m2, .e4m3, .e5m2, .fp16, .bf16, .fp32]
    else (dd :: others).all (fun d => fmtIn d wideFloats)
  let shapes : Bool :=
    if reduction then (if rax then shapeIs dd 1 da.cols else shapeIs dd da.rows 1)
    else if op = 8 ∨ op = 9 then shapeSame dd da && shapeIs db 1 dd.cols
    else others.all (fun d => shapeSame dd d)
  used.flatMap (fun d => descConditions s n .vector d) ++
  breach w (!formats) ++ breach w ((dd :: others).any (fun d => d.mxs)) ++ breach w (!shapes) ++
  breach w (save && !(decide (0x20 ≤ op) && decide (op ≤ 0x28))) ++ breach w (rax && !reduction) ++
  breach w (rnd == 2 && (op == 6 || op == 7 || op == 0x25 || op == 0x35)) ++
  breach w ((op == 0x25 || op == 0x35) && !alphaLegal e.ra)

/-- Fields of a row word (R120). -/
def rowRec (w : Word) : Nat := w.field 15 0
def rowFirst (w : Word) : Bool := w.bit 16
def rowTakesMask (op : Nat) : Bool := op == 0 || op == 1 || op == 2 || op == 8
def rowTakesGain (op : Nat) : Bool := op == 5 || op == 6 || op == 9 || op == 10
def rowUsesB (op : Nat) : Bool := op == 2 || op == 4 || op == 8 || op == 9 || op == 10

/-- Rules of the row class at dispatch (R120, R121, R160, R176, R181). -/
def rowConditions (s : State) (n : Fin 32) (e : Entry) : List Condition :=
  let w := e.word
  let op := wOp w
  let dd : Desc := e.d0.val
  let da : Desc := e.d1.val
  let db : Desc := e.d2.val
  let dc : Desc := e.d3.val
  let dcReg := w.field 29 26
  let ddReg := w.field 41 38
  let dbReg := w.field 33 30
  let factors := op == 4 && ddReg != 0 && dbReg != 0
  let usesD := if op = 4 then factors else op != 0
  let usesB := if op = 4 then factors else rowUsesB op
  let usesC := dcReg != 0 && (rowTakesMask op || rowTakesGain op)
  let used := (if usesD then [e.d0] else []) ++ [e.d1] ++ (if usesB then [e.d2] else []) ++ (if usesC then [e.d3] else [])
  let formats : Bool :=
    if op = 4 then fmtIn da [.int64] && (!factors || (fmtIn dd [.fp32] && fmtIn db [.fp32]))
    else
      fmtIn da wideFloats && (!usesD || fmtIn dd wideFloats) &&
      (!usesB || fmtIn db (if op = 2 then [.fp32] else wideFloats)) &&
      (!usesC || fmtIn dc (if rowTakesMask op then [.int8] else wideFloats))
  let shapes : Bool :=
    if op = 4 then da.cols == 1 && (!factors || (shapeIs dd da.rows 1 && shapeIs db da.rows 1))
    else
      (!usesD || shapeSame dd da) &&
      (!usesB || (if op = 2 then shapeIs db da.rows 1 else shapeSame db da)) &&
      (!usesC || (if rowTakesMask op then shapeSame dc da else shapeIs dc 1 da.cols))
  used.flatMap (fun d => descConditions s n .row d) ++
  breach w (!formats) ++ breach w (used.any (fun d => Desc.mxs d.val)) ++ breach w (!shapes) ++
  breach w (decide (65536 < rowRec w + da.rows)) ++
  breach w (dcReg != 0 && !(rowTakesMask op || rowTakesGain op)) ++
  breach w (if op = 4 then (ddReg != 0) != (dbReg != 0) else dbReg != 0 && !rowUsesB op)

/-! ### Comm (R124, R282, R300) -/

/-- This chip's ID, and the grid (FAB_ID, R249). -/
def State.chip (s : State) : Nat := s.fld Csr.fabId 15 0
def State.gridX (s : State) : Nat := s.fld Csr.fabId 46 40
def State.gridY (s : State) : Nat := s.fld Csr.fabId 54 48

/-- The job rank of core n: its place among the job's cores (R60). -/
def State.rankOf (s : State) (n : Fin 32) : Nat := (s.jobCores (s.cores[n]).job).idxOf n.val

/-- The rank of core n in a group of its job, none when it is no member (R124, R289). -/
def groupRank (s : State) (n : Fin 32) (g : Group) : Option Nat :=
  let r := s.rankOf n
  if g.job ≠ (s.cores[n]).job then none
  else if g.gdef.kind = 3 then
    if g.gdef.cmask.getLsbD r then some ((List.range r).filter (fun k => g.gdef.cmask.getLsbD k)).length else none
  else if g.gdef.core = r then some g.rank else none

/-- First element and element count of shard k (R294). -/
def shardOf (e p k : Nat) : Nat × Nat := (k * e / p, (k + 1) * e / p - k * e / p)

/-- Conditions of a global address in ra (R124, R282). -/
def globalConditions (s : State) (op : Nat) (a : Word) : List Condition :=
  let x := a.field 55 48
  let y := a.field 63 56
  let multi := op == 0 || op == 4
  let badCoord (v : Nat) : Bool := decide (65 ≤ v) && decide (v ≤ 254)
  let bad : Bool := badCoord x || badCoord y ||
    (!multi && (x == 255 || y == 255)) ||
    (multi && ((x == 255 && y == 255) || (x == 255 && y != s.chip / 256) || (y == 255 && x != s.chip % 256)))
  let far : Bool := a.field 63 48 != s.chip
  (if bad then [(.address, a)] else []) ++ (if far ∧ s.part.variant = .n then [(.unitAbsent, a)] else [])

/-- Rules of message instructions at dispatch (R124, R282). -/
def messageConditions (s : State) (n : Fin 32) (e : Entry) : List Condition :=
  let w := e.word
  let op := wOp w
  let dl : Desc := e.d0.val
  let aop := w.field 25 23
  let amoFormats : List Fmt := if aop = 4 then [.int64] else if aop = 3 then [.fp32, .int32, .int64] else redFormats
  (if op = 4 then [] else descConditions s n .comm e.d0) ++ globalConditions s op e.ra ++
  (if op = 2 then
    breach w (!fmtIn dl amoFormats) ++ breach w (decide (dl.rows * dl.cols < (if aop = 4 then 2 else 1)))
   else []) ++
  (if op = 4 then
    breach w (e.rb == 0 || decide (65535 < e.rb.toNat)) ++
    (if e.ra.field 47 13 ≠ 0 ∨ e.ra.field 7 4 ≠ 0 then [(.address, e.ra)] else [])
   else [])

/-- Elements that a narrow format needs in one run to fill whole bytes or 3-byte groups (R31, R300). -/
def wholeRun (d : Desc) (k : Nat) : Bool := k % lineMultiple d.fmt == 0

/-- Rules of collective instructions at dispatch (R124, R300). A word that names no group of the core still breaks the rules of the operands that every
member uses (R84, R116). -/
def collectiveConditions (s : State) (n : Fin 32) (e : Entry) : List Condition :=
  let w := e.word
  let op := wOp w
  let dd : Desc := e.d0.val
  let ds : Desc := e.d1.val
  let rop := w.field 27 26
  let grp := w.field 33 28
  let operands : List Condition := if op = 0x16 then [] else
    (if op = 0x14 then [] else descConditions s n .comm e.d0) ++ (if op = 0x13 then [] else descConditions s n .comm e.d1)
  match s.groups[grp]? with
  | some (some g) =>
    match groupRank s n g with
    | none => operands ++ breach w true
    | some r =>
      if op = 0x16 then []
      else
        let root := e.ra.toNat
        let isRoot := r == root
        let usesS := op != 0x13 || isRoot
        let usesD := op != 0x14 || isRoot
        let es := ds.rows * ds.cols
        let ed := dd.rows * dd.cols
        let reduction := op == 0x10 || op == 0x11 || op == 0x14
        let used := (if usesD then [dd] else []) ++ (if usesS then [ds] else [])
        let counts : Bool :=
          match op with
          | 0x10 => ed == es
          | 0x11 => ed == (shardOf es g.p r).2
          | 0x12 => ed == g.p * es
          | 0x13 => !usesS || ed == es
          | 0x14 => !usesD || ed == es
          | _ => es % g.p == 0 && ed == es
        let blocks : Bool :=
          match op with
          | 0x12 => wholeRun ds es
          | 0x13 => (List.range g.p).all (fun k => wholeRun dd (shardOf ed g.p k).1)
          | 0x15 => wholeRun ds (es / g.p)
          | _ => true
        (if usesD then descConditions s n .comm e.d0 else []) ++ (if usesS then descConditions s n .comm e.d1 else []) ++
        breach w (usesS && usesD && !fmtSame dd ds) ++
        breach w (reduction && (used.any (fun d => !fmtIn d redFormats) ||
          (rop == 3 && used.any (fun d => !fmtIn d wideFloats)))) ++
        breach w (used.any (fun d => d.mxs)) ++
        breach w (!counts) ++ breach w (!blocks) ++
        breach w ((op == 0x13 || op == 0x14) && decide (g.p ≤ root))
  | _ => operands ++ breach w true

/-- All conditions of an engine instruction at dispatch (R95, R116). -/
def dispatchConditions (s : State) (n : Fin 32) (e : Entry) : List Condition :=
  match wCls e.word with
  | 1 => moveConditions s n e
  | 2 => matrixConditions s n e
  | 3 => vectorConditions s n e
  | 4 => rowConditions s n e
  | _ => if wOp e.word ≤ 4 then messageConditions s n e else collectiveConditions s n e

end Sys2Proof.Machine
end

