-- ==== Sys2Proof/Machine/Lanes.lean ====
section
/-! DEFINITION. Lanes, wavelength feeds and lasers as the hull's registers hold them, and HULL_STAT, which follows from them (spec/11 R313, R314,
R321, R332, R341). -/

namespace Sys2Proof.Machine

/-! ### Lanes (R313, R321) -/

def laneOff : Nat := 0
def laneSweep : Nat := 1
def laneRestore : Nat := 2
def laneAcquire : Nat := 3
def laneVerify : Nat := 4
def laneLocked : Nat := 5
def laneRelock : Nat := 6
def laneDark : Nat := 7
def laneAbsent : Nat := 8

/-- A port exists on this part (R254): none on N; not X6, X7, Y6, Y7 on H. -/
def portPresent (v : Variant) (port : Nat) : Bool :=
  match v with
  | .f => true
  | .h => decide (port % 8 < 6)
  | .n => false

/-- The half of a port (R255): ports 0 to 3 of each dimension are on H0. -/
def portHalf (port : Nat) : Bool := decide (4 ≤ port % 8)

/-- STATE of a lane. -/
def State.laneState (s : State) (i : Nat) : Nat := s.fld (Csr.optLane i) 63 60

/-- A lane enters a state. -/
def State.laneTo (s : State) (i st : Nat) : State := s.setFld (Csr.optLane i) 63 60 st

/-- A lane begins a lock: the time runs from now. -/
def State.lockFrom (s : State) (i st : Nat) : State :=
  let s := s.laneTo i st
  { s with hull := { s.hull with laneSince := s.hull.laneSince.setIfInBounds i s.now } }

/-- A lit lane begins a warm lock from its stored point, or waits for its port's cold sweep without one (R321, R322). -/
def State.beginLock (s : State) (i : Nat) : State :=
  s.lockFrom i (if s.flash.points.getLsbD i then laneRestore else laneSweep)

/-- The cartridge that serves a lane: 0 for H0, 1 for H1. -/
def laneCart (i : Nat) : Nat := if portHalf (i / 8) then 1 else 0

/-- The present lanes of a wavelength on a half (R313). -/
def State.waveLanes (s : State) (c k : Nat) : List Nat :=
  (List.range 128).filter (fun i => i % 8 == k && laneCart i == c && s.laneState i != laneAbsent)

/-! ### Cartridges and lasers (R313, R341) -/

/-- States of LAS_STAT. -/
def lasOff : Nat := 0
def lasWarming : Nat := 1
def lasStandby : Nat := 2
def lasActive : Nat := 3
def lasWarn : Nat := 4
def lasWorn : Nat := 5
def lasRetired : Nat := 6
def lasEol : Nat := 7
def lasFailed : Nat := 8

/-- STATE of a laser. -/
def State.lasState (s : State) (i : Nat) : Nat := s.fld (Csr.lasStat i) 63 60

/-- The laser, numbered within its cartridge, that feeds a wavelength; 15 none. -/
def State.feed (s : State) (c k : Nat) : Nat := s.fld (Csr.cartWmap c) (4 * k + 3) (4 * k)

/-- The wavelength that laser m of cartridge c feeds. -/
def State.waveOf (s : State) (c m : Nat) : Option Nat := (List.range 8).find? (fun k => s.feed c k == m)

/-- A cartridge is present and its memory's digest verified (R314). -/
def State.cartGood (s : State) (c : Nat) : Bool := (s.reg (Csr.cartInfo c)).bit 63 && (s.reg (Csr.cartInfo c)).bit 62

/-- The part has cartridges (R314). -/
def State.hasCarts (s : State) : Bool := s.part.variant != .n

/-- The feed of a wavelength moves to a laser of the cartridge, or to none (15); the switch matrix keeps its place. -/
def State.setFeed (s : State) (c k m : Nat) : State :=
  let s := s.setFld (Csr.cartWmap c) (4 * k + 3) (4 * k) m
  { s with flash := { s.flash with wmap := s.flash.wmap.setIfInBounds c (BitVec.ofNat 32 (s.fld (Csr.cartWmap c) 31 0)) } }

/-- Free spares of a cartridge: unlit, usable and unassigned. -/
def State.freeSpares (s : State) (c : Nat) : List Nat :=
  if s.cartGood c then
    ((List.range 4).map (fun t => 12 * c + 8 + t)).filter (fun i =>
      s.lasState i == lasOff && (s.flash.outOfUse.toList.getD i 0) == 0 && s.waveOf c (i - 12 * c) == none)
  else []

/-- The spare assigned to a wavelength of a cartridge, warm or warming. -/
def State.assignedSpare (s : State) (c k : Nat) : Option Nat :=
  ((List.range 4).map (fun t => 12 * c + 8 + t)).find? (fun i =>
    (s.lasState i == lasWarming || s.lasState i == lasStandby) && s.fld (Csr.lasStat i) 55 52 == k)

/-- λk is dark on half c: its cartridge is absent or invalid, or no laser feeds it. -/
def State.waveDark (s : State) (c k : Nat) : Bool := s.hasCarts && (!s.cartGood c || s.feed c k == 15)

/-- Port p has every present lane LOCKED or DARK, at least one LOCKED. -/
def State.portLocked (s : State) (p : Nat) : Bool :=
  let l := ((List.range 8).map (fun k => s.laneState (8 * p + k))).filter (fun x => x != laneAbsent)
  l.all (fun x => x == laneLocked || x == laneDark) && l.contains laneLocked

/-- Some lane of a port waits for its cold sweep, or is in it. -/
def State.sweeping (s : State) (p : Nat) : Bool := (List.range 8).any (fun k => s.laneState (8 * p + k) == laneSweep)

/-- The port that a half sweeps: one at a time, in ascending index; event 0x4C when the sweep of a port begins (R322). -/
def State.syncSweep (s : State) (c : Fin 2) : State :=
  if (match s.hull.sweepPort[c] with | some p => s.sweeping p | none => false) then s
  else
    let next : Option Nat := (List.range 16).find? (fun p => (if portHalf p then 1 else 0) == c.val && s.sweeping p)
    let s := { s with hull := { s.hull with sweepPort := s.hull.sweepPort.set c next } }
    match next with
    | some p => s.raise 0x4C [BitVec.ofNat 64 p]
    | none => s

/-- HULL_STAT from lanes, feeds, lasers and host ports; event 0x40 for each port newly locked; the halves' sweeps go on (R322, R332, R341). -/
def State.syncHull (s : State) : State :=
  let s := (s.syncSweep 0).syncSweep 1
  let was := s.fld Csr.hullStat 31 16
  let dark (c : Nat) : Nat := (List.range 8).foldl (fun w k => if s.waveDark c k then w + 2 ^ k else w) 0
  let ports := (List.range 16).filter (fun p => s.portLocked p)
  let locked := ports.foldl (fun w p => w + 2 ^ p) 0
  let host := (List.range 8).any (fun j => s.fld (Csr.hoptStat j) 63 60 == 4)
  let bad := dark 0 != 0 || dark 1 != 0 || host
  let s := s.setReg Csr.hullStat (Word.placeBit bad 63 ||| Word.place (dark 1) 8 40 ||| Word.place (dark 0) 8 32 ||| Word.place locked 16 16 |||
    Word.place (s.freeSpares 1).length 3 4 ||| Word.place (s.freeSpares 0).length 3 0)
  (ports.filter (fun p => was / 2 ^ p % 2 == 0)).foldl (fun (t : State) p => t.raise 0x40 [BitVec.ofNat 64 p]) s

end Sys2Proof.Machine
end

