-- ==== Sys2Proof/Machine/Sm3.lean ====
section
/-! DEFINITION. The hash SM3 (GM/T 0004, named by spec/10 R292, R301 and spec/14): digests of definitions, records, objects and keys. -/

namespace Sys2Proof.Machine

namespace Sm3

/-- Rotate a 32-bit word left. -/
def rotl (x : BitVec 32) (k : Nat) : BitVec 32 := x.rotateLeft (k % 32)

def p0 (x : BitVec 32) : BitVec 32 := x ^^^ rotl x 9 ^^^ rotl x 17
def p1 (x : BitVec 32) : BitVec 32 := x ^^^ rotl x 15 ^^^ rotl x 23

/-- The next expanded word from the last sixteen, oldest first. -/
def nextWord (w : List (BitVec 32)) : BitVec 32 :=
  let g (i : Nat) : BitVec 32 := (w[i]?).getD 0
  p1 (g 0 ^^^ g 7 ^^^ rotl (g 13) 15) ^^^ rotl (g 3) 7 ^^^ g 10

/-- The eight chaining words. -/
structure Chain where
  a : BitVec 32
  b : BitVec 32
  c : BitVec 32
  d : BitVec 32
  e : BitVec 32
  f : BitVec 32
  g : BitVec 32
  h : BitVec 32
  deriving DecidableEq, Repr

def iv : Chain :=
  ⟨0x7380166f, 0x4914b2b9, 0x172442d7, 0xda8a0600, 0xa96f30bc, 0x163138aa, 0xe38dee4d, 0xb0fb0e4e⟩

/-- Round j with words W_j and W_(j+4). -/
def roundStep (j : Nat) (v : Chain) (w w4 : BitVec 32) : Chain :=
  let t : BitVec 32 := if j < 16 then 0x79cc4519 else 0x7a879d8a
  let ss1 := rotl (rotl v.a 12 + v.e + rotl t j) 7
  let ss2 := ss1 ^^^ rotl v.a 12
  let ff := if j < 16 then v.a ^^^ v.b ^^^ v.c else (v.a &&& v.b) ||| (v.a &&& v.c) ||| (v.b &&& v.c)
  let gg := if j < 16 then v.e ^^^ v.f ^^^ v.g else (v.e &&& v.f) ||| (~~~v.e &&& v.g)
  let tt1 := ff + v.d + ss2 + (w ^^^ w4)
  let tt2 := gg + v.h + ss1 + w
  ⟨tt1, v.a, rotl v.b 9, v.c, p0 tt2, v.e, rotl v.f 19, v.g⟩

/-- The rounds from j on, over the sixteen words from W_j. -/
def rounds : Nat → Nat → List (BitVec 32) → Chain → Chain
  | 0, _, _, v => v
  | k + 1, j, w, v => rounds k (j + 1) (w.drop 1 ++ [nextWord w]) (roundStep j v ((w[0]?).getD 0) ((w[4]?).getD 0))

/-- One block of sixteen words. -/
def block (v : Chain) (w : List (BitVec 32)) : Chain :=
  let r := rounds 64 0 w v
  ⟨r.a ^^^ v.a, r.b ^^^ v.b, r.c ^^^ v.c, r.d ^^^ v.d, r.e ^^^ v.e, r.f ^^^ v.f, r.g ^^^ v.g, r.h ^^^ v.h⟩

/-- Big-endian words of a byte list. -/
def words : Nat → List Byte → List (BitVec 32)
  | 0, _ => []
  | n + 1, l =>
    let g (i : Nat) : Nat := ((l[i]?).getD 0).toNat
    BitVec.ofNat 32 (g 0 * 2 ^ 24 + g 1 * 2 ^ 16 + g 2 * 2 ^ 8 + g 3) :: words n (l.drop 4)

/-- Blocks in order. -/
def blocks : Nat → Chain → List Byte → Chain
  | 0, v, _ => v
  | n + 1, v, l => blocks n (block v (words 16 l)) (l.drop 64)

/-- The 64-bit length in bits, big-endian. -/
def lengthBytes : Nat → Nat → List Byte
  | 0, _ => []
  | n + 1, v => lengthBytes n (v / 256) ++ [BitVec.ofNat 8 v]

/-- The padded message. -/
def pad (l : List Byte) : List Byte :=
  l ++ [0x80] ++ List.replicate ((119 - l.length % 64) % 64) 0 ++ lengthBytes 8 (8 * l.length)

end Sm3

/-- The SM3 digest of a byte sequence, its first byte most significant. -/
def sm3 (l : List Byte) : BitVec 256 :=
  let m := Sm3.pad l
  let v := Sm3.blocks (m.length / 64) Sm3.iv m
  v.a ++ v.b ++ v.c ++ v.d ++ v.e ++ v.f ++ v.g ++ v.h

/-- The 32 bytes of a digest as a message or a table holds them. -/
def digestOfBytes (l : List Byte) : BitVec 256 := BitVec.ofNat 256 (l.foldl (fun a b => a * 256 + b.toNat) 0)

/-- A digest as 32 bytes. -/
def digestBytes (d : BitVec 256) : List Byte := (List.range 32).map (fun i => BitVec.ofNat 8 (d.toNat / 2 ^ (8 * (31 - i))))

end Sys2Proof.Machine
end

