-- ==== Sys2Proof/Machine/Fabric.lean ====
section
/-! DEFINITION. The fabric below the message: the chip grid, paths and their states, routes, the link layer and discovery (spec/09
R249 to R271, R281, R283 to R288). -/

namespace Sys2Proof.Machine

/-! ### The grid and the paths (R249, R252, R253) -/

/-- A chip ID from its coordinates (R249). -/
def chipAt (x y : Nat) : Nat := y * 256 + x
def chipX (c : Nat) : Nat := c % 256
def chipY (c : Nat) : Nat := c / 256

/-- States of FAB_PATH (R288). -/
def pathDownSt : Nat := 0
def pathTraining : Nat := 1
def pathUp : Nat := 2
def pathMissing : Nat := 3
def pathQuarantined : Nat := 4
def pathIncompatible : Nat := 5
def pathDark : Nat := 6
def pathSelf : Nat := 7
def pathAbsent : Nat := 8

/-- STATE of a directed path. -/
def State.pathState (s : State) (i : Nat) : Nat := s.fld (Csr.fabPath i) 63 60

/-- Members of a row (false) or column (true). -/
def State.dimSize (s : State) (y : Bool) : Nat := if y then s.gridY else s.gridX

/-- A link's sent flits are acknowledged and none waits (R271). -/
def Link.drained (l : Link) : Bool := l.waiting.isEmpty && l.unacked.isEmpty

/-- A path is UP and takes new flits (R271). -/
def State.pathTakes (s : State) (i : Nat) : Bool :=
  s.pathState i == pathUp &&
  match s.links[i]? with
  | some l => !l.draining
  | none => false

/-- A path is UP and routes may use it: a planned change takes it out of them only once it has drained (R256, R271). -/
def State.pathInUse (s : State) (i : Nat) : Bool :=
  s.pathState i == pathUp &&
  match s.links[i]? with
  | some l => !(l.draining && l.drained)
  | none => false

/-- The receiver of path i's port and wavelength takes flits: the path is UP, or MISSING because of whom its transmitter does not reach (DEDUCED, log 82). -/
def State.pathReceives (s : State) (i : Nat) : Bool := s.pathState i == pathUp || s.pathState i == pathMissing

/-- This chip's path of a dimension with an effective offset (R252, R284). -/
def State.pathOfOffset (s : State) (y : Bool) (o : Nat) : Option Nat :=
  ((List.range 64).map (fun j => if y then 64 + j else j)).find? (fun i =>
    s.pathState i != pathAbsent && s.fld (Csr.fabPath i) 7 0 == o)

/-- This chip's UP paths by effective offset, as it reports them (R260). -/
def State.ownMask (s : State) : BitVec 128 :=
  (List.range 128).foldl (fun m j =>
    match s.pathOfOffset (decide (64 ≤ j)) (j % 64 + 1) with
    | some i => if s.pathInUse i then m ||| BitVec.ofNat 128 (2 ^ j) else m
    | none => m) 0

/-- What a chip has reported of its paths. -/
def State.knownMask (s : State) (chip : Nat) : Option (BitVec 128) :=
  match s.known.find? (fun p => p.1 == chip) with
  | some p => some p.2
  | none => none

/-- A chip's path at an offset is UP; `dflt` for a chip that has reported nothing. -/
def State.upAt (s : State) (chip : Nat) (y : Bool) (o : Nat) (dflt : Bool) : Bool :=
  if chip = s.chip then
    match s.pathOfOffset y o with
    | some i => s.pathInUse i
    | none => false
  else
    match s.knownMask chip with
    | some m => m.getLsbD ((if y then 64 else 0) + o - 1)
    | none => dflt

/-- Offsets 1 to 64 that reach a member at offset q (R253). -/
def offsetsTo (n q : Nat) : List Nat := ((List.range 64).map (· + 1)).filter (fun o => o % n == q)

/-- The companion offset of a path: control travels back on the peer's path r(i mod b) (R256). -/
def companionOf (n q o : Nat) : Option Nat :=
  let f := offsetsTo n q
  let r := offsetsTo n ((n - q) % n)
  r[f.idxOf o % r.length]?

/-- The receiver of this chip at an offset works. -/
def State.receivesAt (s : State) (y : Bool) (o : Nat) : Bool :=
  match s.pathOfOffset y o with
  | some j => s.pathReceives j
  | none => false

/-- The chip at an offset in a dimension (R252). -/
def State.peerAt (s : State) (y : Bool) (o : Nat) : Nat :=
  if y then chipAt (chipX s.chip) ((chipY s.chip + o) % s.dimSize y) else chipAt ((chipX s.chip + o) % s.dimSize y) (chipY s.chip)

/-- The companion of path i is UP at the peer, as far as it has reported, and its receiver here works (R256). -/
def State.companionUp (s : State) (i : Nat) : Bool :=
  let y := decide (64 ≤ i)
  let n := s.dimSize y
  let o := s.fld (Csr.fabPath i) 7 0
  match companionOf n (o % n) o with
  | some r => s.receivesAt y r && s.upAt (s.peerAt y o) y r true
  | none => false

/-- A forward path is usable only while it and its companion are both UP (R256). -/
def State.pathUsable (s : State) (i : Nat) : Bool := s.pathState i == pathUp && s.companionUp i

/-- The dimension and offset of a direct hop between two chips. -/
def State.hopOf (s : State) (a b : Nat) : Option (Bool × Nat) :=
  if chipY a = chipY b ∧ chipX a ≠ chipX b then
    some (false, (chipX b + s.gridX - chipX a) % s.gridX)
  else if chipX a = chipX b ∧ chipY a ≠ chipY b then
    some (true, (chipY b + s.gridY - chipY a) % s.gridY)
  else none

/-- Offsets of the usable paths of a hop, ascending (R255, R256). -/
def State.hopPaths (s : State) (a b : Nat) : List Nat :=
  match s.hopOf a b with
  | none => []
  | some (y, q) =>
    let n := s.dimSize y
    (offsetsTo n q).filter (fun o =>
      s.upAt a y o false &&
      match companionOf n q o with
      | some r => s.upAt b y r true && (a != s.chip || s.receivesAt y r)
      | none => false)

/-! ### Routes (R257 to R259) -/

/-- Adjacent equal chips removed: a hop whose two ends coincide is left out (R257). -/
def dropRepeats : List Nat → List Nat
  | a :: b :: t => if a = b then dropRepeats (b :: t) else a :: dropRepeats (b :: t)
  | l => l

/-- Third members w of a hop's row or column, in ascending offset from its start (R258). -/
def State.thirds (s : State) (a b : Nat) : List Nat :=
  match s.hopOf a b with
  | none => []
  | some (y, q) =>
    let n := s.dimSize y
    ((List.range n).filter (fun o => decide (0 < o) && o != q)).map (fun o =>
      if y then chipAt (chipX a) ((chipY a + o) % n) else chipAt ((chipX a + o) % n) (chipY a))

/-- The candidate routes from this chip, in the order of R258, each from source to destination. -/
def State.candidates (s : State) (dst : Nat) (yx : Bool) : List (List Nat) :=
  let src := s.chip
  let corner := if yx then chipAt (chipX src) (chipY dst) else chipAt (chipX dst) (chipY src)
  match dropRepeats [src, corner, dst] with
  | [a, c, b] =>
    [[a, c, b]] ++ (s.thirds a c).map (fun w => [a, w, c, b]) ++ (s.thirds c b).map (fun w => [a, c, w, b]) ++
    (if (s.knownMask c).isSome then [] else (s.thirds a c).map (fun w =>
      let w' := if yx then chipAt (chipX dst) (chipY w) else chipAt (chipX w) (chipY dst)
      [a, w, w', b]))
  | [a, b] => [[a, b]] ++ (s.thirds a b).map (fun w => [a, w, b])
  | l => [l]

/-- Every hop of a route has a usable path and every intermediate chip is known to be up (R258). -/
def State.routeUsable (s : State) : List Nat → Bool
  | a :: b :: t =>
    !(s.hopPaths a b).isEmpty && (t.isEmpty || (s.knownMask b).isSome) && s.routeUsable (b :: t)
  | _ => true

/-- A chip ID names a chip of the grid (R249). -/
def State.onGrid (s : State) (c : Nat) : Bool := decide (chipX c < s.gridX) && decide (chipY c < s.gridY)

/-- The route to a chip: intermediate chips and destination (R258). -/
def State.routeTo (s : State) (dst : Nat) (yx : Bool) : Option (List Nat) :=
  if !(s.reg Csr.fabId).bit 63 then none
  else ((s.candidates dst yx).find? (fun r => s.routeUsable r)).map (fun r => r.drop 1)

/-- The half of the port that an offset uses: this chip's own port, another chip's port unremapped (R252, R284). -/
def State.offsetHalf (s : State) (chip : Nat) (y : Bool) (o : Nat) : Bool :=
  if chip = s.chip then
    match s.pathOfOffset y o with
    | some i => portHalf (i / 8)
    | none => portHalf ((o - 1) / 8)
  else portHalf ((o - 1) / 8)

/-- The offset taken from one chip to the next (R255): the preferred half's when it has one, then entry (c mod 16) mod length. -/
def State.hopOffset (s : State) (a b : Nat) (half : Bool) (c : Nat) : Option Nat :=
  match s.hopOf a b with
  | none => none
  | some (y, _) =>
    let l := s.hopPaths a b
    let pref := l.filter (fun o => s.offsetHalf a y o == half)
    let l := if pref.isEmpty then l else pref
    l[(c % 16) % l.length]?

/-- The path that this chip takes to the next chip. -/
def State.choosePath (s : State) (next : Nat) (half : Bool) (c : Nat) : Option Nat :=
  match s.hopOf s.chip next, s.hopOffset s.chip next half c with
  | some (y, _), some o => s.pathOfOffset y o
  | _, _ => none

/-- The offsets that the hops of a route take; at an intermediate chip the half of the arrival port is preferred (R255). -/
def State.hopOffsets (s : State) : List Nat → Bool → Nat → List Nat
  | a :: b :: t, half, c =>
    match s.hopOffset a b half c with
    | some o => o :: s.hopOffsets (b :: t) (portHalf ((o - 1) / 8)) c
    | none => []
  | _, _, _ => []

/-- Every hop of a route may still use the path that it took. -/
def State.hopsHold (s : State) : List Nat → List Nat → Bool
  | a :: b :: t, o :: os => (s.hopPaths a b).contains o && s.hopsHold (b :: t) os
  | _ :: _ :: _, [] => false
  | _, _ => true

/-! ### Flits and links (R261 to R268) -/

/-- Bits `[lo+w-1:lo]` of a flit header (R262). -/
def hdrFld (h : BitVec 128) (lo w : Nat) : Nat := h.toNat / 2 ^ lo % 2 ^ w

/-- A flit header with a field replaced. -/
def hdrSet (h : BitVec 128) (lo w v : Nat) : BitVec 128 :=
  (h &&& ~~~ BitVec.ofNat 128 ((2 ^ w - 1) * 2 ^ lo)) ||| BitVec.ofNat 128 (v % 2 ^ w * 2 ^ lo)

/-- The flits of a message with the payload bytes `wire`, in clear (R261, R262); LSEQ, EP and the control fields are filled in when a flit is sent. -/
def messageFlits (src dst core : Nat) (svc : Bool) (tc : Nat) (rc : Bool) (route : List Nat) (wire : List Byte) : List FlitRef :=
  let size := wire.length
  let n := ceilDiv size 224
  let wp (k : Nat) : Nat := if k + 1 < route.length then (route[k]?).getD 0xFFFF else 0xFFFF
  (List.range n).map (fun i =>
    let h : Nat := dst + src * 2 ^ 16 + wp 0 * 2 ^ 32 + wp 1 * 2 ^ 48 + tc * 2 ^ 65 + (if rc then 2 ^ 67 else 0)
      + (if i = 0 then 2 ^ 68 else 0) + (if i + 1 = n then 2 ^ 69 else 0) + core * 2 ^ 73 + (if svc then 2 ^ 78 else 0)
      + (if i + 1 = n then size - 224 * i else 224) * 2 ^ 120
    { hdr := BitVec.ofNat 128 h, data := ((wire.drop (224 * i)).take 224 ++ List.replicate 224 0).take 224, tag := 0, crc := 0 })

/-- The bytes of a flit before its CRC (R261). -/
def flitBytes (f : FlitRef) : List Byte := bytesOfNat 16 f.hdr.toNat ++ f.data ++ bytesOfNat 12 f.tag.toNat

/-- Key and salt of an epoch, from the secret of the key agreement by the key derivation function of GB/T 32918: one block of SM3 over secret, epoch and
the counter 1 (R264; the form of the epoch in it is a DESIGN CHOICE, log 77). -/
def pathKey (secret : BitVec 256) (epoch : Nat) : BitVec 128 × BitVec 32 :=
  let d := sm3 (digestBytes secret ++ (bytesOfNat 4 epoch).reverse ++ [0, 0, 0, 1])
  (d.extractLsb' 128 128, d.extractLsb' 96 32)

/-- The payload enciphered or deciphered: SM4-GCM adds its key stream (R264). -/
def gcmApply (key : BitVec 128) (iv : BitVec 96) (data : List Byte) : List Byte :=
  (data.zipIdx).map (fun p => p.1 ^^^ Config.gcmStream key iv p.2)

/-- A flit sealed under a path's secret, an epoch and a flit counter: the IV is the salt followed by the counter; the header is authenticated, the CRC-32C
covers header, ciphertext and tag (R261, R263, R264). -/
def sealFlit (secret : BitVec 256) (epoch : Nat) (count : BitVec 64) (hdr : BitVec 128) (data : List Byte) : FlitRef :=
  let (key, salt) := pathKey secret epoch
  let iv := salt ++ count
  let ct := gcmApply key iv data
  let f : FlitRef := { hdr := hdr, data := ct, tag := Config.gcmTag key iv hdr ct, crc := 0 }
  { f with crc := crc32c (flitBytes f) }

/-- The CRC of a flit is good (R263). -/
def flitCrcGood (f : FlitRef) : Bool := crc32c (flitBytes f) == f.crc

/-- The tag of a flit is good under a secret, an epoch and a counter (R263, R264). -/
def flitTagGood (f : FlitRef) (secret : BitVec 256) (epoch : Nat) (count : BitVec 64) : Bool :=
  let (key, salt) := pathKey secret epoch
  Config.gcmTag key (salt ++ count) f.hdr f.data == f.tag

/-- A flit as its receiver holds it: the payload in clear. -/
def flitOpened (f : FlitRef) (secret : BitVec 256) (epoch : Nat) (count : BitVec 64) : FlitRef :=
  let (key, salt) := pathKey secret epoch
  { hdr := f.hdr, data := gcmApply key (salt ++ count) f.data, tag := 0, crc := 0 }

/-- Traffic class of a flit. -/
def flitTc (f : FlitRef) : Nat := hdrFld f.hdr 65 2

/-- The state with one link changed. -/
def State.modLink (s : State) (i : Nat) (f : Link → Link) : State :=
  match s.links[i]? with
  | some l => { s with links := s.links.setIfInBounds i (f l) }
  | none => s

/-- The first flit that the transmitter may start: TC2 strictly first, then W0 flits of TC0 for each of TC1 (R266, R267). -/
def Link.nextFlit (l : Link) (w0 : Nat) : Option FlitRef :=
  let first (tc : Nat) : Option FlitRef := if l.xoff.getLsbD tc then none else l.waiting.find? (fun f => (flitTc f) == tc)
  match first 2, first 0, first 1 with
  | some f, _, _ => some f
  | none, some f, none => some f
  | none, none, g => g
  | none, some f, some g => if l.tc0Run < w0 then some f else some g

/-- The control that a receiver sends back: XOFF, NAK, the last in-order LSEQ as ACK, and CSEL (R262, R265, R267). -/
def Link.control (l : Link) (csel : Nat) : BitVec 128 :=
  hdrSet (hdrSet (hdrSet (hdrSet 0 113 3 l.rxXoff.toNat) 112 1 (if l.rxNak then 1 else 0)) 96 16 (l.rxExpected - 1).toNat) 79 1 csel

/-- The receivers of this chip whose control travels on its path j, in order of CSEL (R256): the peer's forward paths whose companion path j
is. -/
def State.served (s : State) (j : Nat) : List Nat :=
  let y := decide (64 ≤ j)
  let n := s.dimSize y
  let o := s.fld (Csr.fabPath j) 7 0
  let q := (n - o % n) % n
  ((offsetsTo n q).filter (fun f => companionOf n q f == some o)).filterMap (fun f => s.pathOfOffset y f)

/-- The control in the next flit of path j, which serves its two receivers in turn (R256, R262). -/
def State.controlOn (s : State) (j : Nat) (turn : Nat) : BitVec 128 :=
  let r := s.served j
  let csel := turn % max 1 r.length
  match r[csel]? with
  | some i => match s.links[i]? with
    | some l => l.control csel
    | none => 0
  | none => 0

/-- A flit leaves with control for a companion: it takes the next LSEQ, epoch parity and flit counter, is sealed and enters the retry buffer (R262, R264,
R265). -/
def Link.send (l : Link) (f : FlitRef) (ctl : BitVec 128) : Link × FlitRef :=
  let h := hdrSet (hdrSet (f.hdr ||| ctl) 80 16 l.lseq.toNat) 72 1 (l.epoch % 2)
  let g := sealFlit l.secret l.epoch l.counter h f.data
  ({ l with
      lseq := l.lseq + 1, counter := l.counter + 1, epochSent := l.epochSent + 1, waiting := l.waiting.erase f, unacked := l.unacked ++ [g]
      tc0Run := if (flitTc f) = 0 then l.tc0Run + 1 else if (flitTc f) = 1 then 0 else l.tc0Run }, g)

/-- An idle flit with control: LEN = 0, no step of LSEQ, no place in the retry buffer; the flit counter counts it (R261, R264). -/
def Link.idleFlit (l : Link) (ctl : BitVec 128) : Link × FlitRef :=
  let h := hdrSet (hdrSet ctl 80 16 l.lseq.toNat) 72 1 (l.epoch % 2)
  ({ l with counter := l.counter + 1, epochSent := l.epochSent + 1 }, sealFlit l.secret l.epoch l.counter h (List.replicate 224 0))

/-- A path sends what it may: it is usable, and the retry buffer holds 256 flits (R256, R265). -/
def State.pump : Nat → State → Nat → State
  | 0, s, _ => s
  | fuel + 1, s, i =>
    match s.links[i]? with
    | none => s
    | some l =>
      if !s.pathUsable i ∨ 256 ≤ l.unacked.length then s
      else
        match l.nextFlit (max 1 (s.fld Csr.fabCtl 7 4)) with
        | none => s
        | some f =>
          let (l, g) := l.send f (s.controlOn i l.lseq.toNat)
          State.pump fuel ({ s with links := s.links.setIfInBounds i l }.emit (.flit i g)) i

/-- An idle flit leaves on a path. -/
def State.sendIdle (s : State) (i : Nat) (ctl : BitVec 128) : State :=
  match s.links[i]? with
  | none => s
  | some l =>
    let (l, g) := l.idleFlit ctl
    { s with links := s.links.setIfInBounds i l }.emit (.flit i g)

/-- Put flits on a path. -/
def State.enqueue (s : State) (i : Nat) (fs : List FlitRef) : State :=
  let s := s.modLink i (fun l => { l with waiting := l.waiting ++ fs })
  s.pump (match s.links[i]? with | some l => l.waiting.length | none => 0) i

/-! ### Path states (R260, R270, R271) -/

/-- The other members of this chip's row and column. -/
def State.neighbours (s : State) : List Nat :=
  ((List.range s.gridX).map (fun x => chipAt x (chipY s.chip)) ++ (List.range s.gridY).map (fun y => chipAt (chipX s.chip) y)).filter
    (fun c => c != s.chip)

/-- Send the path states to every member of the row and of the column (R260). -/
def State.broadcastStates (s : State) : State :=
  if !(s.reg Csr.fabId).bit 63 then s
  else s.neighbours.foldl (fun t c => t.emit (.pathStates c s.ownMask)) s

/-- The forward paths of this chip whose control arrives on path i's receiver (R256): those whose companion is the heard chip's path
at the same offset, in ascending order of CSEL. -/
def State.controlled (s : State) (i : Nat) : List Nat :=
  let y := decide (64 ≤ i)
  let n := s.dimSize y
  let o := s.fld (Csr.fabPath i) 7 0
  let q := (n - o % n) % n
  ((offsetsTo n q).filter (fun f => companionOf n q f == some o)).filterMap (fun f => s.pathOfOffset y f)

/-- The flits of a path that is no longer usable are dropped (R270). -/
def State.dropFlits (s : State) (i : Nat) : State :=
  s.modLink i (fun l => { l with unacked := [], waiting := [], resends := 0 })

/-- A path goes DOWN: its flits and those of the forward paths that its receiver controls are dropped; the change is counted, reported and sent (R260,
R270, R288). A planned change that waited for it is void. -/
def State.pathGoesDown (s : State) (i : Nat) : State :=
  let s := (s.setFld (Csr.fabPath i) 63 60 pathDownSt).bump (Csr.fabLcnt i) 63 48 1
  let s := (i :: s.controlled i).foldl State.dropFlits s
  let s := s.modLink i (fun l => { l with draining := false, change := none })
  (s.raise 0x31 [BitVec.ofNat 64 i]).broadcastStates

/-- Resend from the retry buffer (R265): the count of flits resent; after 16 resends without progress the path goes DOWN. -/
def State.goBack (s : State) (i : Nat) : State :=
  match s.links[i]? with
  | none => s
  | some l =>
    if l.unacked.isEmpty then s
    else if 16 ≤ l.resends then s.pathGoesDown i
    else
      let s := (s.bump (Csr.fabLcnt i) 31 0 l.unacked.length).modLink i (fun l => { l with resends := l.resends + 1 })
      l.unacked.foldl (fun t f => t.emit (.flit i f)) s

/-! ### Receiving (R256, R262 to R268) -/

/-- The forward path that the control of a flit arriving on path i's receiver names. -/
def State.controlFor (s : State) (i : Nat) (h : BitVec 128) : Option Nat := (s.controlled i)[hdrFld h 79 1]?

/-- A link with the control of a flit taken in: acknowledged flits leave the retry buffer, and XOFF is as it says (R262, R265, R267). -/
def Link.takeAck (l : Link) (h : BitVec 128) : Link :=
  let ack := BitVec.ofNat 16 (hdrFld h 96 16)
  let kept := l.unacked.filter (fun g => decide (0 < (BitVec.ofNat 16 (hdrFld g.hdr 80 16) - ack).toNat) &&
    decide ((BitVec.ofNat 16 (hdrFld g.hdr 80 16) - ack).toNat < 32768))
  { l with unacked := kept, resends := if kept.length < l.unacked.length then 0 else l.resends, xoff := BitVec.ofNat 3 (hdrFld h 113 3) }

/-- Take in the control fields of a flit for the forward path it names: ACK, NAK and XOFF (R262, R265, R267). -/
def State.takeControl (s : State) (i : Nat) (h : BitVec 128) : State :=
  match s.controlFor i h with
  | none => s
  | some f =>
    let s := s.modLink f (fun l => l.takeAck h)
    let s := if hdrFld h 112 1 = 1 && s.pathUsable f then s.goBack f else s
    s.pump 256 f

/-- The chips of a flit's route behind its source (R262). -/
def flitChain (f : FlitRef) : List Nat :=
  ([hdrFld f.hdr 32 16, hdrFld f.hdr 48 16].filter (fun c => c != 0xFFFF)) ++ [hdrFld f.hdr 0 16]

/-- The hop that a flit has just made is its second in one dimension, on which it uses the escape buffer (R258, R268). -/
def flitEscapes (f : FlitRef) : Bool :=
  let hop := hdrFld f.hdr 70 2
  let full := hdrFld f.hdr 16 16 :: (flitChain f)
  match hop, full[hop - 1]?, full[hop]?, full[hop + 1]? with
  | 0, _, _, _ => false
  | _, some a, some b, some c => (chipY a == chipY b && chipY b == chipY c) || (chipX a == chipX b && chipX b == chipX c)
  | _, _, _, _ => false

/-- Bytes of a class in a list of buffered flits. -/
def bufferedBytes (l : List FlitRef) (tc : Nat) : Nat := 256 * (l.filter (fun f => (flitTc f) == tc)).length

/-- Bytes that a class has buffered at a receiver. -/
def Link.classBytes (l : Link) (tc : Nat) : Nat := bufferedBytes l.rxBuffer tc + bufferedBytes l.rxEscape tc

/-- The buffer of a class and the escape buffer within it, in bytes (R267). -/
def classBuffer : Nat → Nat
  | 0 => 131072 | 1 => 98304 | _ => 73728
def escapeBuffer : Nat → Nat
  | 0 => 16384 | 1 => 16384 | _ => 4096

/-- A receiver has room for a flit (R267, R268): in the escape buffer on a second hop in one dimension, else in the rest of its class's buffer. -/
def Link.hasRoom (l : Link) (f : FlitRef) : Bool :=
  if (flitEscapes f) then decide (bufferedBytes l.rxEscape (flitTc f) + 256 ≤ escapeBuffer (flitTc f))
  else decide (bufferedBytes l.rxBuffer (flitTc f) + 256 ≤ classBuffer (flitTc f) - escapeBuffer (flitTc f))

/-- A flit enters its buffer. -/
def Link.buffer (l : Link) (f : FlitRef) : Link :=
  if (flitEscapes f) then { l with rxEscape := l.rxEscape ++ [f] } else { l with rxBuffer := l.rxBuffer ++ [f] }

/-- A flit leaves its buffer. -/
def Link.unbuffer (l : Link) (f : FlitRef) : Link :=
  if (flitEscapes f) then { l with rxEscape := l.rxEscape.erase f } else { l with rxBuffer := l.rxBuffer.erase f }

/-- XOFF thresholds (R267). -/
def xoffThreshold : Nat → Nat
  | 0 => 65536 | 1 => 32768 | _ => 8192

/-- The XOFF bits a receiver sends: set beyond the threshold, cleared below half of it (R267). -/
def Link.rxXoffNext (l : Link) : BitVec 3 :=
  (List.range 3).foldl (fun x tc =>
    let b := l.classBytes tc
    let on := if xoffThreshold tc < b then true else if b < xoffThreshold tc / 2 then false else l.rxXoff.getLsbD tc
    if on then x ||| BitVec.ofNat 3 (2 ^ tc) else x) 0

/-- A path can start a flit of a class now: it takes flits and is usable, the retry buffer and the class are open, and none of the class waits (R265 to
R267, R271). -/
def State.canForward (s : State) (j tc : Nat) : Bool :=
  s.pathTakes j && s.pathUsable j &&
  match s.links[j]? with
  | some l => decide (l.unacked.length < 256) && !l.xoff.getLsbD tc && !l.waiting.any (fun f => (flitTc f) == tc)
  | none => false

/-- Forward one buffered flit of receiver i along its route (R255, R257, R262); one whose next path is closed stays in its buffer. -/
def State.forwardFlit (s : State) (i : Nat) (f : FlitRef) : State :=
  let hop := hdrFld f.hdr 70 2
  match ((flitChain f)[hop + 1]?).bind (fun next => s.choosePath next (portHalf (i / 8)) (hdrFld f.hdr 73 5)) with
  | none => s
  | some j =>
    if s.canForward j (flitTc f) then
      let g : FlitRef := { f with hdr := hdrSet (hdrSet (hdrSet f.hdr 70 2 (hop + 1)) 96 20 0) 79 1 0 }
      (s.modLink i (fun l => l.unbuffer f)).enqueue j [g]
    else s

/-- Forward what receiver i holds for other chips, oldest first, and set its XOFF bits anew (R255, R267). -/
def State.forward (s : State) (i : Nat) : State :=
  match s.links[i]? with
  | none => s
  | some l =>
    if l.rxBuffer.isEmpty && l.rxEscape.isEmpty then s
    else ((l.rxEscape ++ l.rxBuffer).foldl (fun t f => t.forwardFlit i f) s).modLink i (fun l => { l with rxXoff := l.rxXoffNext })

/-- Every receiver forwards what it can. -/
def State.forwardAll (s : State) : State := (List.range 128).foldl State.forward s

/-- This chip's path that carries the control for the peer's path arriving on receiver i (R256). -/
def State.companionPath (s : State) (i : Nat) : Option Nat :=
  let y := decide (64 ≤ i)
  let n := s.dimSize y
  let o := s.fld (Csr.fabPath i) 7 0
  match companionOf n (o % n) o with
  | some r => s.pathOfOffset y r
  | none => none

/-- Receiver i sends its control back in an idle flit on the companion path (R261, R262, R265, R267). -/
def State.answerFlit (s : State) (i : Nat) : State :=
  match s.companionPath i, s.links[i]? with
  | some j, some l => if s.pathState j ≠ pathUp then s else s.sendIdle j (l.control ((s.served j).idxOf i))
  | _, _ => s

/-- The epoch under which a flit that arrives at a link was sealed, from its parity (R264): the present one; after a flip the one before as long as its
key is held; else the next. -/
def Link.epochOf (l : Link) (h : BitVec 128) : Nat :=
  if hdrFld h 72 1 = l.rxEpoch % 2 then l.rxEpoch else if l.rxPrevKey then l.rxEpoch - 1 else l.rxEpoch + 1

/-- A good flit is counted towards the end of the previous key; one of the next epoch makes that the present one (R264). -/
def Link.countEpoch (l : Link) (epoch : Nat) : Link :=
  if l.rxEpoch < epoch then { l with rxEpoch := epoch, rxPrevKey := true, rxSince := 1 }
  else if l.rxPrevKey then { l with rxSince := l.rxSince + 1 } else l

/-- A flit of a path that arrives discarded: NAK (R263, R265). -/
def State.flitRejected (s : State) (i : Nat) : State := (s.modLink i (fun l => { l with rxNak := true })).answerFlit i

/-- A flit whose tag fails: counted; four within 1 s take the path DOWN with event 0x3A, fewer answer NAK (R263, R265, R286). -/
def State.flitTagFails (s : State) (i : Nat) : State :=
  let s := (s.bump (Csr.fabLcnt i) 47 32 1).modLink i (fun l => { l with
    tagTimes := s.now :: l.tagTimes.filter (fun t => decide (s.now < t + 1000000000)) })
  match s.links[i]? with
  | none => s
  | some l =>
    if 4 ≤ l.tagTimes.length then ((s.modLink i (fun l => { l with tagTimes := [] })).raise 0x3A [BitVec.ofNat 64 i]).pathGoesDown i
    else s.flitRejected i

/-- A flit that checks good, in clear: its control is taken in; in order and with room it is acknowledged, and one for another chip is buffered and forwarded;
out of order or without room it is not taken (R255, R262, R265 to R268). -/
def State.flitTaken (s : State) (i : Nat) (f : FlitRef) : State :=
  let s := s.takeControl i f.hdr
  match s.links[i]? with
  | none => s
  | some l =>
    let gap := BitVec.ofNat 16 (hdrFld f.hdr 80 16) - l.rxExpected
    let transit := hdrFld f.hdr 0 16 != s.chip
    if hdrFld f.hdr 120 8 = 0 then s
    else if gap ≠ 0 then (s.modLink i (fun l => { l with rxNak := l.rxNak || decide (gap.toNat < 32768) })).answerFlit i
    else if transit && !l.hasRoom f then s.flitRejected i
    else
      let s := s.modLink i (fun l => { (if transit then l.buffer f else l) with rxExpected := l.rxExpected + 1, rxNak := false })
      ((s.forward i).modLink i (fun l => { l with rxXoff := l.rxXoffNext })).answerFlit i

/-- A path begins to drain for a planned change (R271). -/
def State.beginDrain (s : State) (i : Nat) (change : Option PathChange) : State :=
  s.modLink i (fun l => { l with draining := true, change := change })

end Sys2Proof.Machine
end

