-- ==== Sys2Proof/Machine/Mesh.lean ====
section
/-! DEFINITION. The on-die mesh: places of the cores, dimension order, and the traffic that a core has under way on it, by class and with the room its
responses need (spec/01 R16, spec/09 R246 to R248). XON and XOFF on a mesh link delay traffic and change nothing else; the spec gives no thresholds (DESIGN CHOICE, log 72). -/

namespace Sys2Proof.Machine

/-- Mesh column and row of a core (R16). -/
def meshPlace (n : Nat) : Nat × Nat := if n < 16 then (n / 4, n % 4) else (7 - (n - 16) / 4, (n - 16) % 4)

/-- Coordinates passed on the way from a to b, a left out. -/
def meshSteps (a b : Nat) : List Nat :=
  if a ≤ b then (List.range (b - a)).map (fun i => a + i + 1) else (List.range (a - b)).map (fun i => a - i - 1)

/-- The routers that a packet enters, in dimension order: along the mesh row first, then along the mesh column (R246). -/
def meshRoute (p q : Nat × Nat) : List (Nat × Nat) :=
  (meshSteps p.1 q.1).map (fun x => (x, p.2)) ++ (meshSteps p.2 q.2).map (fun y => (q.1, y))

/-- The mesh distance of two cores (R226). -/
def meshDistance (a b : Nat) : Nat := (meshRoute (meshPlace a) (meshPlace b)).length

/-- The class of a message's traffic: TC2 is control, MOPs from 0x80 on are responses (R248, R274). -/
def meshClass (mop tc : Nat) : MeshClass := if tc = 2 then .control else if 0x80 ≤ mop then .response else .request

/-- Where core n's traffic for an address goes: none when it stays in the core's own memories. -/
def meshFar (n a : Nat) : Option MeshEnd :=
  match sramOwner a with
  | some k => if k = n then none else some (.core k)
  | none => some .hbm

/-- Traffic enters the mesh; what is under way already is not sent twice. -/
def Core.meshSend (c : Core) (f : MeshFlight) : Core := if c.mesh.contains f then c else { c with mesh := c.mesh ++ [f] }

/-- The request of core n for a tensor: a read reserves room for the bytes of the response first (R248). -/
def meshTensor (n : Nat) (seq : Option Nat) (d : Desc) (reads : Bool) : List MeshFlight :=
  if d.empty then []
  else
    match meshFar n d.base with
    | none => []
    | some far => [{ seq := seq, cls := .request, far := far, room := if reads then ceilDiv (d.rows * d.cols * d.bits) 8 else 0 }]

/-- The requests of an instruction have been served: what is still under way are the responses (R248). -/
def Core.meshServed (c : Core) (seq : Option Nat) : Core :=
  { c with mesh := c.mesh.map (fun f => if f.seq = seq ∧ f.cls = .request then { f with cls := .response } else f) }

/-- The traffic of an instruction, or of the sequencer's access, is over: its reserved room is free again. -/
def Core.meshDone (c : Core) (seq : Option Nat) : Core := { c with mesh := c.mesh.filter (fun f => f.seq != seq) }

/-- An instruction leaves its queue, and its traffic the mesh. -/
def Core.retire (c : Core) (q : QueueId) (seq : Nat) : Core :=
  (c.setQueue q ((c.queue q).filter (fun x => x.seq != seq))).meshDone (some seq)

/-- The bytes that a core has reserved for responses (R248). -/
def Core.meshRoom (c : Core) : Nat := (c.mesh.map (fun f => f.room)).sum

end Sys2Proof.Machine
end

