-- ==== Sys2Proof/Machine/Flags.lean ====
section
/-! DEFINITION. Numeric flags of a core: NUMST and the NUMERIC trap (spec/02 R38, 16 R476). -/

namespace Sys2Proof.Machine

/-- The flags in the bit positions of NUMST[2:0]: OVERFLOW, INVALID, ACC_OVERFLOW (R476). -/
def NumFlags.toBits (f : NumFlags) : BitVec 3 :=
  (if f.ovf then 1 else 0) ||| (if f.inv then 2 else 0) ||| (if f.acc then 4 else 0)

/-- The sticky flags of NUMST with raised flags added (R38). -/
def numstRaise (numst : Word) (f : BitVec 3) : Word := numst ||| f.zeroExtend 64

/-- Some raised flag has its trap enable set in NUMST[34:32] (R38, R476). -/
def numstTraps (numst : Word) (f : BitVec 3) : Bool := (BitVec.ofNat 3 (numst.field 34 32)) &&& f != 0

/-- The NUMERIC conditions of an instruction that raised flags (R38, R125). -/
def numericConditions (numst : Word) (f : BitVec 3) : List Condition :=
  if numstTraps numst f then [(.numeric, f.zeroExtend 64)] else []

/-- A write of NUMST: enables are RW, the flags W1C, the rest is reserved (R476, R11). -/
def numstWrite (old mask value : Word) : Word :=
  let rw := Word.mask 34 32 &&& mask
  let clear := Word.mask 2 0 &&& mask &&& value
  ((old &&& ~~~ rw) ||| (value &&& rw)) &&& ~~~ clear

end Sys2Proof.Machine
end

