-- ==== Sys2Proof/Machine/Start.lean ====
section
/-! DEFINITION. The heads of the issue queues: what lets one start, and who is served first where several wait on one semaphore (spec/03 R56, R62,
R64; 02 R38; 05 R144 to R152; 06 R163; 09 R275; 10 R298). -/

namespace Sys2Proof.Machine

/-- The oldest instruction of a queue that has not started. -/
def Core.head (c : Core) (q : QueueId) : Option Entry := (c.queue q).find? (fun e => !e.started)

/-- The wait of an entry would be met now (R62). -/
def Core.waitMet (c : Core) (e : Entry) : Bool := decide (wselCount e.wsel ≤ c.sem (wselSem e.wsel))

/-- An entry of a queue replaced, by its dispatch number. -/
def replaceEntry (l : List Entry) (e : Entry) : List Entry := l.map (fun x => if x.seq = e.seq then e else x)

/-- The matrix instructions of the core. -/
def Core.matrixEntries (c : Core) : List Entry := c.qCtx0 ++ c.qCtx1

/-- The product is empty (R71, R143). -/
def issueEmpty (e : Entry) : Bool := issueM e == 0 || issueN e == 0

/-- An issue holds the arrays: started and not complete; an empty one does not hold them (R144). -/
def Core.arraysBusy (c : Core) : Bool := c.matrixEntries.any (fun e => e.started && wOp e.word == 0 && !issueEmpty e)

/-- The resources and bank rules that an unstarted matrix head needs (R145, R148, R149): earlier instructions of its bank
started, the bank free for it, the arrays or the drain path free, and no retry pending for an issue. -/
def Core.bankAllows (c : Core) (e : Entry) : Bool :=
  let b := matrixBank e.word
  let older := c.matrixEntries.all (fun x => !(decide (x.seq < e.seq) && !x.started && matrixBank x.word == b))
  let settled (d : DrainRec) : Bool := d.phase == .open || d.phase == .clean
  let noRetry := c.drains.all settled
  older &&
  if wOp e.word = 0 then !c.arraysBusy && noRetry && (c.bank b).phase != .draining
  else c.drains.all (fun d => d.read && (settled d || d.bank != b)) && (c.bank b).phase != .accum

/-- A matrix head is eligible (R149). -/
def Core.eligible (c : Core) (e : Entry) : Bool := c.waitMet e && c.bankAllows e

/-- The arbiter's choice between two eligible heads for one resource (R150): ctx1 is chosen. -/
def Core.choosesCtx1 (c : Core) (h0 h1 : Entry) : Bool :=
  match c.mmcfg.field 9 8 with
  | 0 => decide (h1.seq < h0.seq)
  | 1 => false
  | 2 => true
  | _ => decide (max 1 (c.mmcfg.field 39 32) ≤ c.weighted)

/-- Both context heads are eligible for the same resource. -/
def Core.contest (c : Core) : Option (Entry × Entry) :=
  match c.head .ctx0, c.head .ctx1 with
  | some h0, some h1 =>
    if c.eligible h0 && c.eligible h1 && (decide (wOp h0.word = 0) == decide (wOp h1.word = 0)) then some (h0, h1) else none
  | _, _ => none

/-- The count of the weighted mode after a contested choice (R150): contests for issue and for drain share it, and choices in every mode count (DESIGN CHOICE,
log 73). -/
def Core.countChoice (c : Core) (ctx1 : Bool) : Core := { c with weighted := if ctx1 then 0 else c.weighted + 1 }

/-- An eligible issue waits at the head of a context (R149, R154). -/
def Core.issueEligible (c : Core) : Bool :=
  [c.head .ctx0, c.head .ctx1].any (fun h => match h with | some e => wOp e.word == 0 && c.eligible e | none => false)

/-- The instructions that one engine carries: both contexts feed the matrix engine (R54). -/
def Core.engineEntries (c : Core) (q : QueueId) : List Entry :=
  match q with
  | .ctx0 | .ctx1 => c.matrixEntries
  | _ => c.queue q

/-- An instruction of the engine has raised a flag whose trap is enabled, and its trap is still to come: the engine issues nothing later (R38). -/
def Core.numericPending (c : Core) (q : QueueId) : Bool :=
  (c.engineEntries q).any (fun e => e.executed && numstTraps c.numst e.flags)

/-- The vector or the row engine is held by an instruction that has started and has not read its last element (R163). -/
def Core.engineHeld (c : Core) (q : QueueId) : Bool :=
  match q with
  | .vector | .row => (c.queue q).any (fun e => e.started && !e.executed)
  | _ => false

/-- The arbiter lets the head of a context start: it wins the choice between two eligible heads, or there is none to make (R150). -/
def Core.winsContest (c : Core) (q : QueueId) : Bool :=
  match c.contest with
  | some (h0, h1) => c.choosesCtx1 h0 h1 == (q == QueueId.ctx1)
  | none => true

/-- The queue of the group that a collective names is full: the head of the comm queue waits (R298). -/
def groupFull (s : State) (n : Fin 32) (e : Entry) : Bool :=
  decide (0x10 ≤ wOp e.word) &&
  match s.groups[e.word.field 33 28]? with
  | some (some g) => g.members.any (fun m => m.core == n.val && decide (64 ≤ m.queue.length))
  | _ => false

/-- The engine of a queue can accept its head now (R56): it is free, no numeric trap of an earlier instruction is due, bank rules and arbiter allow a
matrix head, and fewer than 64 messages of the core are outstanding (R275). -/
def Core.accepts (c : Core) (q : QueueId) (e : Entry) : Bool :=
  !c.numericPending q && !c.engineHeld q &&
  match q with
  | .ctx0 | .ctx1 => c.bankAllows e && c.winsContest q
  | .comm => !(decide (64 ≤ (c.qComm.filter (fun x => x.started && decide (wOp x.word ≤ 4))).length) && decide (wOp e.word ≤ 4))
  | _ => true

/-- The head of a queue would start now if its wait were met. -/
def State.canStart (s : State) (n : Fin 32) (q : QueueId) (e : Entry) : Bool := (s.cores[n]).accepts q e && !(q == .comm && groupFull s n e)

/-- What the heads of the queues, served in the order given, leave of a semaphore for whoever comes after them (R64, R151). -/
def State.semLeft (s : State) (n : Fin 32) (qs : List QueueId) (code : Nat) : Nat :=
  qs.foldl (fun left q =>
    match (s.cores[n]).head q with
    | some e =>
      if wselSem e.wsel = code ∧ wselCount e.wsel ≤ left ∧ s.canStart n q e = true then left - wselCount e.wsel else left
    | none => left) ((s.cores[n]).sem code)

/-- The queues that R64 serves before a queue. -/
def QueueId.before (q : QueueId) : List QueueId := QueueId.all.filter (fun r => decide (QueueId.index r < QueueId.index q))

end Sys2Proof.Machine
end

