-- ==== Sys2Proof/Machine/Sequencer.lean ====
section
/-! DEFINITION. The sequencer of a core: fetch, instruction buffer, predicate and wait of its own instructions, control
transfer (spec/03 R54, R77 to R80, 04 R93, R94, R102, 07 R212). -/

namespace Sys2Proof.Machine

/-- The 4 KiB block of an address (R78). -/
def blockOf (a : Nat) : Nat := a / 4096

/-- An address is one from which core n may fetch: 8-byte aligned, in its own scratchpad (R77). -/
def fetchable (n : Fin 32) (a : Nat) : Bool := a % 8 == 0 && decide (a / scratchSize = n.val)

/-- The instruction word at an address of a held line (R78). -/
def Line.wordAt (l : Line) (a : Nat) : Word :=
  BitVec.ofNat 64 (natOfBytes ((List.range 8).map (fun i => sparseGet memDefault l.bytes (a + i))))

/-- The bytes of memory that the fill of a block reads (R78). -/
def State.blockBytes (s : State) (block : Nat) : List Host.Cell := s.mem.filter (fun p => p.1 / 4096 == block)

/-- The held line of pc. -/
def Core.lineOfPc (c : Core) : Option Line := c.lines.find? (fun l => l.block == blockOf c.pc.toNat)

/-- The sequencer of core n finds the word at pc: as the held line has it, or, when the block has been written since the fill, as memory has it
(R78, R79: without sys.ifence the old or the new instruction executes). -/
def State.finds (s : State) (n : Fin 32) (w : Word) : Bool :=
  let c := s.cores[n]
  match c.lineOfPc with
  | some l => l.wordAt c.pc.toNat == w || BitVec.ofNat 64 (s.readNat c.pc.toNat 8) == w
  | none => false

/-- Begin to fill a block unless it is held or being filled (R78). -/
def Core.beginFill (c : Core) (block now : Nat) : Core :=
  if c.lines.any (fun l => l.block == block) || c.fills.any (fun f => f.block == block) then c
  else { c with fills := c.fills ++ [{ block := block, since := now }] }

/-- The fetch at pc: a pc from which the core cannot fetch traps with FETCH; a block not held begins to fill (R77, R78, R126). -/
def State.fetchAt (s : State) (n : Fin 32) : State :=
  let c := s.cores[n]
  let a := c.pc.toNat
  if !fetchable n a then s.trap n [(.fetch, c.pc.zeroExtend 64)] 0 c.pc
  else s.setCore n (c.beginFill (blockOf a) s.now)

/-- Go to the next instruction. -/
def State.advance (s : State) (n : Fin 32) : State :=
  (s.modCore n (fun c => { c with pc := c.pc + 8, wait := .free })).fetchAt n

/-- A taken control transfer (R77, R102). -/
def State.jump (s : State) (n : Fin 32) (cls : Nat) (target : Word) : State :=
  let c := s.cores[n]
  if !fetchable n target.toNat then s.trap n [(.fetch, target)] cls c.pc
  else (s.setCore n { c with pc := target.truncate 48, wait := .free }).fetchAt n

/-- Core n is RUNNING and has taken no trap, and the word is the instruction at pc. -/
def State.atWord (s : State) (n : Fin 32) (w : Word) : Bool :=
  (s.cores[n]).run == .running && (s.cores[n]).stopping.isNone && s.finds n w

/-- The sequencer can execute the instruction word at pc: it waits on nothing, or it waits with that instruction on what the instruction itself
waits on (R55, R78, R80). -/
def State.seqReady (s : State) (n : Fin 32) (w : Word) : Bool :=
  s.atWord n w &&
  match (s.cores[n]).wait with
  | .free => true
  | .sem _ _ _ _ _ => (s.cores[n]).current == w
  | .idle _ _ => (s.cores[n]).current == w
  | _ => false

/-- The held line of pc, and the others behind it. -/
def Core.touchLine (c : Core) : List Line :=
  let b := blockOf c.pc.toNat
  c.lines.filter (fun l => l.block == b) ++ c.lines.filter (fun l => l.block != b)

/-- Decoding an instruction makes its line the most recently used and begins to fill the next block of the scratchpad (R78). -/
def Core.decoded (c : Core) (n : Fin 32) (w : Word) (now : Nat) : Core :=
  let b := blockOf c.pc.toNat
  let c := { c with lines := c.touchLine, current := w }
  if (b + 1) * 4096 / scratchSize = n.val then c.beginFill (b + 1) now else c

/-- The wait of the wait selector has been met already: the instruction waits on its own account (R94). -/
def Core.pastSelector (c : Core) : Bool :=
  match c.wait with
  | .sem _ _ _ true _ => true
  | .idle _ _ => true
  | _ => false

/-- The time from which the sequencer has been blocked. -/
def Core.blockedSince (c : Core) (now : Nat) : Nat :=
  match c.wait with
  | .sem _ _ t _ _ => t
  | .idle _ t => t
  | .until _ t => t
  | _ => now

/-- The record of a sequencer lockstep mismatch (R212, R217). -/
def lockstepEvent (s : State) (n : Fin 32) (outcome cls : Nat) (drill : Bool) : CheckEvent :=
  { loc := locSimple 7 n.val 0, ft := s.ft, outcome := outcome, drill := drill, cls := cls, pc := (s.cores[n]).pc,
    retryUs := 0, job := (s.cores[n]).job, core := some n.val }

/-- A sequencer effect under the lockstep comparison: a transient mismatch executes it again and is recorded, a lasting one
has no effect and fences the core (R212, R216). -/
def lockstep (s : State) (n : Fin 32) (k : CheckOutcome) (cls : Nat) (effect : State → State) : State :=
  let (k, dr, s) := s.inject 3 n.val k
  match k with
  | .ok => effect s
  | .transient => effect (s.recordCheck (lockstepEvent s n 0 cls dr))
  | .lasting =>
    (s.recordCheck (lockstepEvent s n 1 cls dr)).trap n [(.checkLasting, locSimple 7 n.val 0)] cls (s.cores[n]).pc

/-- One instruction of classes 0, 6 and 7: the encoding check (R93), the predicate, the wait of the selector (R94), then the
instruction's own effect under the lockstep comparison (R212). The sequencer is served last among the waiters of a semaphore (R64). Where the word is not
the instruction at pc, or the sequencer is not ready, the command finds nothing to execute and changes nothing. -/
def seqExec (s : State) (n : Fin 32) (ws : BitVec 4) (k : CheckOutcome) (word : Word) (legal : Bool) (body : State → State) :
    Host.Outcome State Fault Refusal :=
  let c := s.cores[n]
  if !s.seqReady n word then .next s
  else
    let s := s.setCore n (c.decoded n word s.now)
    if !legal then .next (s.trap n [(.illegalOpcode, word)] (wCls word) c.pc)
    else if c.pastSelector then .next (lockstep s n k (wCls word) body)
    else
      let e := c.wsEntry ws
      if !predHolds c e then .next (s.advance n)
      else
        let count := wselCount e
        let code := wselSem e
        if s.semLeft n QueueId.all code < count then
          .next (s.modCore n (fun d => { d with wait := .sem code count (c.blockedSince s.now) false (wCls word) }))
        else
          .next (lockstep s n k (wCls word) (fun s =>
            body (s.modCore n (fun d => { d.setSem code (d.sem code - count) with wait := .free }))))

/-- A sequencer instruction that only writes core registers and goes on. -/
def seqWrite (s : State) (n : Fin 32) (ws : BitVec 4) (k : CheckOutcome) (word : Word) (legal : Bool) (f : Core → Core) :
    Host.Outcome State Fault Refusal :=
  seqExec s n ws k word legal (fun s => (s.modCore n f).advance n)

/-- A sequencer instruction whose value check traps, or that writes core registers and goes on. -/
def seqChecked (s : State) (n : Fin 32) (ws : BitVec 4) (k : CheckOutcome) (word : Word) (legal : Bool) (conds : Core → List Condition)
    (f : Core → Core) : Host.Outcome State Fault Refusal :=
  seqExec s n ws k word legal (fun s =>
    match conds s.cores[n] with
    | [] => (s.modCore n f).advance n
    | l => s.trap n l (wCls word) (s.cores[n]).pc)

end Sys2Proof.Machine
end

