-- ==== Sys2Proof/Machine/Access.lean ====
section
/-! DEFINITION. Loads, stores and atomics of the sequencer (spec/04 R101, R104; 03 R73, R75; 08 R237). -/

namespace Sys2Proof.Machine

/-- Bytes of an access (R101). -/
def AccessKind.size : AccessKind → Nat
  | .load64 => 8 | .load32 => 4 | .store64 => 8 | .store32 => 4 | .loadDesc => 32 | .storeDesc => 32 | .amo _ => 8

/-- The access reads memory. -/
def AccessKind.reads : AccessKind → Bool
  | .load64 => true | .load32 => true | .loadDesc => true | .amo _ => true | _ => false

/-- The access is for HBM alone (R101). -/
def AccessKind.hbmOnly : AccessKind → Bool
  | .amo _ => true | _ => false

/-- The INT64 operation of a memory-side unit: 0 add, 1 max, 2 min, 3 swap, 4 compare-and-swap (R97, R237). -/
def amoInt64 (op : Nat) (old operand expected : Word) : Word :=
  match op with
  | 0 => old + operand
  | 1 => if old.slt operand then operand else old
  | 2 => if operand.slt old then operand else old
  | 3 => operand
  | _ => if old = expected then operand else old

/-- What a completed access does to memory and registers: a load delivers its value, a store writes, an atomic delivers the
old value that its unit returned (R101). -/
def accessEffect (s : State) (n : Fin 32) (kind : AccessKind) (addr : Nat) (reg : BitVec 5) (value : Word)
    (desc : BitVec 256) (old : Word) : State :=
  match kind with
  | .load64 => s.modCore n (fun c => c.setS reg (BitVec.ofNat 64 (s.readNat addr 8)))
  | .load32 => s.modCore n (fun c => c.setS reg (BitVec.ofNat 64 (s.readNat addr 4)))
  | .store64 => s.writeNat addr 8 value.toNat
  | .store32 => s.writeNat addr 4 (value.toNat % 2 ^ 32)
  | .loadDesc => s.modCore n (fun c => c.setD (reg.truncate 4) (BitVec.ofNat 256 (s.readNat addr 32)))
  | .storeDesc => s.writeNat addr 32 desc.toNat
  | .amo _ => s.modCore n (fun c => c.setS reg old)

/-- The halt of the job that holds core n for a read that delivers nothing (R235). -/
def State.readHalt (s : State) (n : Fin 32) (addr : Nat) : State :=
  let stack := match sramOwner addr, s.hbmPlace addr with
    | none, some (k, _, _) => some k
    | _, _ => none
  s.askHalt (memoryHalt (s.cores[n]).job s.ft addr stack)

/-- Carry out a checked access: at once in the core's own scratchpad, where a read meets what the error says (R235), otherwise it holds the
sequencer until SCALAR_ACCESS_COMPLETE (R104). -/
def startAccess (s : State) (n : Fin 32) (kind : AccessKind) (a : Word) (reg : BitVec 5) (value expected : Word)
    (desc : BitVec 256) (err : MemErr) : State :=
  let s := s.touchStaging (s.cores[n]).job [(a.toNat, kind.size)]
  if a.toNat / scratchSize = n.val then
    match (if kind.reads then s.readCheck err [(a.toNat, kind.size)] else (s, none)) with
    | (s, some bad) => s.readHalt n bad
    | (s, none) => (accessEffect s n kind a.toNat reg value desc 0).advance n
  else s.modCore n (fun c => { ((meshFar n.val a.toNat).toList.foldl (fun c far => c.meshSend
      { seq := none, cls := .request, far := far, room := if kind.reads then kind.size else 0 }) c) with
    wait := .access kind (a.truncate 48) reg value expected desc none })

/-- A sequencer access instruction (R101). -/
def seqAccess (s : State) (n : Fin 32) (ws : BitVec 4) (k : CheckOutcome) (word : Word) (kind : AccessKind) (addr : Core → Word)
    (reg : BitVec 5) (value expected : Core → Word) (desc : Core → BitVec 256) (err : MemErr) :
    Host.Outcome State Fault Refusal :=
  seqExec s n ws k word true (fun s =>
    let c := s.cores[n]
    let a := addr c
    match s.accessConditions n a kind.size kind.hbmOnly with
    | [] => startAccess s n kind a reg (value c) (expected c) (desc c) err
    | l => s.trap n l 0 c.pc)

/-- s.ld (R101); the lockstep comparison (R212) and what a read of the own scratchpad meets (R235) are operands. -/
def execSLd (n : Fin 32) (ws : BitVec 4) (rd ra : BitVec 5) (imm : BitVec 38) (k : CheckOutcome) (err : MemErr) (s : State) :
    Host.Outcome State Fault Refusal :=
  seqAccess s n ws k (felnuWord 0 0x20 ws (fmtI rd ra imm)) .load64 (fun c => c.s ra + imm.signExtend 64) rd (fun _ => 0)
    (fun _ => 0) (fun _ => 0) err

/-- s.ld32: zero-extended (R99). -/
def execSLd32 (n : Fin 32) (ws : BitVec 4) (rd ra : BitVec 5) (imm : BitVec 38) (k : CheckOutcome) (err : MemErr) (s : State) :
    Host.Outcome State Fault Refusal :=
  seqAccess s n ws k (felnuWord 0 0x21 ws (fmtI rd ra imm)) .load32 (fun c => c.s ra + imm.signExtend 64) rd (fun _ => 0)
    (fun _ => 0) (fun _ => 0) err

/-- s.st (R101). -/
def execSSt (n : Fin 32) (ws : BitVec 4) (rd ra : BitVec 5) (imm : BitVec 38) (k : CheckOutcome) (s : State) :
    Host.Outcome State Fault Refusal :=
  seqAccess s n ws k (felnuWord 0 0x22 ws (fmtI rd ra imm)) .store64 (fun c => c.s ra + imm.signExtend 64) rd
    (fun c => c.s rd) (fun _ => 0) (fun _ => 0) .none

/-- s.st32: rd[31:0] (R99). -/
def execSSt32 (n : Fin 32) (ws : BitVec 4) (rd ra : BitVec 5) (imm : BitVec 38) (k : CheckOutcome) (s : State) :
    Host.Outcome State Fault Refusal :=
  seqAccess s n ws k (felnuWord 0 0x23 ws (fmtI rd ra imm)) .store32 (fun c => c.s ra + imm.signExtend 64) rd
    (fun c => c.s rd) (fun _ => 0) (fun _ => 0) .none

/-- An s.amo instruction: address ra, operand rb, rd receives the old value (R101). -/
def seqAmo (op code : Nat) (n : Fin 32) (ws : BitVec 4) (rd ra rb : BitVec 5) (k : CheckOutcome) (s : State) :
    Host.Outcome State Fault Refusal :=
  seqAccess s n ws k (felnuWord 0 code ws (fmtR rd ra rb)) (.amo op) (fun c => c.s ra) rd (fun c => c.s rb)
    (fun c => c.s rd) (fun _ => 0) .none

/-- s.amoadd. -/
def execSAmoadd (n : Fin 32) (ws : BitVec 4) (rd ra rb : BitVec 5) (k : CheckOutcome) (s : State) : Host.Outcome State Fault Refusal :=
  seqAmo 0 0x24 n ws rd ra rb k s

/-- s.amomax. -/
def execSAmomax (n : Fin 32) (ws : BitVec 4) (rd ra rb : BitVec 5) (k : CheckOutcome) (s : State) : Host.Outcome State Fault Refusal :=
  seqAmo 1 0x25 n ws rd ra rb k s

/-- s.amomin. -/
def execSAmomin (n : Fin 32) (ws : BitVec 4) (rd ra rb : BitVec 5) (k : CheckOutcome) (s : State) : Host.Outcome State Fault Refusal :=
  seqAmo 2 0x26 n ws rd ra rb k s

/-- s.amoswap. -/
def execSAmoswap (n : Fin 32) (ws : BitVec 4) (rd ra rb : BitVec 5) (k : CheckOutcome) (s : State) : Host.Outcome State Fault Refusal :=
  seqAmo 3 0x27 n ws rd ra rb k s

/-- s.amocas: memory receives rb when it equals rd (R99). -/
def execSAmocas (n : Fin 32) (ws : BitVec 4) (rd ra rb : BitVec 5) (k : CheckOutcome) (s : State) : Host.Outcome State Fault Refusal :=
  seqAmo 4 0x28 n ws rd ra rb k s

/-- SCALAR_ACCESS_COMPLETE: the access that holds the sequencer of core n returns, with what its read meets (R104, R235). An
atomic returns once its unit has applied it (R239). -/
def execScalarAccessComplete (n : Fin 32) (e : MemErr) (s : State) : Host.Outcome State Fault Refusal :=
  let c := s.cores[n]
  match c.wait with
  | .access kind addr reg value _ desc old =>
    match kind, old with
    | .amo _, none => .next s
    | _, _ =>
      let a := addr.toNat
      let reads := kind.reads && old.isNone
      match (if reads then s.readCheck e [(a, kind.size)] else (s, none)) with
      | (s, some bad) => .next (s.readHalt n bad)
      | (s, none) => .next ((accessEffect (s.modCore n (fun c => c.meshDone none)) n kind a reg value desc (old.getD 0)).advance n)
  | _ => .next s

end Sys2Proof.Machine
end

