-- ==== Sys2Proof/Machine/Issue.lean ====
section
/-! DEFINITION. Instruction fills, dispatch, start and completion of engine instructions, deadlock and wait timeout (spec/03 R54
to R66, R78, R81 to R84; 04 R93, R95, R117; 05 R145 to R152, R154; 07 R199, R206, R211 to R213, R216; 10 R298). -/

namespace Sys2Proof.Machine

/-! ### Entering RUNNING (R86, R126, R158, R173, R191, R476) -/

/-- The conditions of held signals that summed above 65,535 (R86). -/
def heldConditions (c : Core) : List Condition :=
  (List.range 16).flatMap (fun x =>
    if 65535 < (c.heldSignals[x]?).getD 0 then [(Cause.semOverflow, Word.place (32 + x) 6 0 ||| Word.placeBit true 8)]
    else [])

/-- The cross-core semaphores as a core enters RUNNING: the signals held for it, up to 65,535 (R25, R86). -/
def heldSems (c : Core) : Vector (BitVec 16) 48 :=
  Vector.ofFn (fun i => if i.val < 32 then c.sems[i] else BitVec.ofNat 16 (min 65535 ((c.heldSignals[i.val - 32]?).getD 0)))

/-- A core enters RUNNING: trap record, counters and NUMST clear, records EMPTY, banks empty, arrays gated; the signals held until now take effect (R25,
R86), and no failed message of it has been recorded (R288). -/
def State.enterRunning (s : State) (n : Fin 32) : State :=
  let c := s.cores[n]
  let conds := heldConditions c
  let s := (s.clearRange (statsBase n.val) statsSize).setReg (Csr.fabMsgErr n.val) 0
  let s := s.setCore n { c with
    run := .running, sems := heldSems c, trap := 0, trapInfo := 0, numst := 0, mmcyc := 0, mmkwc := 0, kwRest := 0, mmcell := 0, veccyc := 0, rowcyc := 0
    cycles := 0, bank0 := Bank.vacant, bank1 := Bank.vacant, saved := none, drains := [], arrays := .gated, duty := 0
    arraysSince := s.now, weighted := 0, heldSignals := Vector.replicate 16 0 }
  s.trap n conds 0 c.pc

/-- INSTRUCTION_FETCH_FILL: the oldest line fill of core n completes; the line holds the block's bytes, becomes the most recently used, and the least
recently used of 16 is dropped (R78). The first line of a job makes the core RUNNING (R86). What the read meets is an operand (R235). -/
def execInstructionFetchFill (n : Fin 32) (err : MemErr) (s : State) : Host.Outcome State Fault Refusal :=
  let c := s.cores[n]
  match c.fills with
  | [] => .next s
  | f :: rest =>
    let line : Line := { block := f.block, bytes := s.blockBytes f.block }
    let c' := { c with fills := rest, lines := (line :: c.lines.filter (fun l => l.block != f.block)).take 16 }
    match s.readCheck err [(f.block * 4096, 4096)] with
    | (s, some a) => .next ((s.setCore n { c with fills := rest }).askHalt (memoryHalt c.job s.ft a none))
    | (s, none) =>
      let s := s.setCore n c'
      .next (if c.run = .idle ∧ c.job ≠ 0 then s.enterRunning n else s)

/-! ### Dispatch (R54, R55, R57, R59, R63, R95) -/

/-- A descriptor field of a word, with the values copied (R59). -/
def namedDesc (c : Core) (w : Word) (hi lo : Nat) : NamedDesc :=
  let r := BitVec.ofNat 4 (w.field hi lo)
  { reg := r, val := c.d r, next := c.d (r + 1) }

/-- A scalar field of a word, with the value copied (R59). -/
def namedScalar (c : Core) (w : Word) (hi lo : Nat) : Word := c.s (BitVec.ofNat 5 (w.field hi lo))

/-- The queue entry of an engine word (R59). -/
def makeEntry (c : Core) (w : Word) (now : Nat) : Entry :=
  let z := namedDesc c w 41 38
  let cls := wCls w
  let d (hi lo : Nat) := namedDesc c w hi lo
  { word := w, pc := c.pc, seq := c.dispatched, wsel := c.wsEntry (wWs w)
    d0 := if cls = 2 then d 40 37 else z
    d1 := if cls = 2 then d 36 33 else d 37 34
    d2 := if cls = 2 then d 32 29 else d 33 30
    d3 := d 29 26
    ra := match cls with
      | 1 => namedScalar c w 33 29
      | 2 => namedScalar c w 36 32
      | 3 => namedScalar c w 25 21
      | 4 => namedScalar c w 25 21
      | _ => if wOp w ≤ 4 then namedScalar c w 37 33 else namedScalar c w 24 20
    rb := namedScalar c w 32 28
    started := false, executed := false, progress := 0, flags := 0, since := now, failed := false, undo := [], crc := 0 }

/-- The run-ahead limit of a queue: 0 and values above 32 act as 32 (R57, R90). -/
def runAhead (runcfg : Word) (q : QueueId) : Nat :=
  let lo := 6 * QueueId.index q
  let v := runcfg.field (lo + 5) lo
  if v = 0 ∨ 32 < v then 32 else v

/-- The sequencer can dispatch the word at pc: it waits on nothing, or it is stalled with that word on a full queue (R55). -/
def State.dispatchReady (s : State) (n : Fin 32) (w : Word) : Bool :=
  s.atWord n w &&
  match (s.cores[n]).wait with
  | .free => true
  | .full _ => (s.cores[n]).current == w
  | _ => false

/-- DISPATCH: the sequencer decodes the engine word at pc (or a word that does not decode), evaluates its predicate, waits
for room, checks its operands and queues it (R55, R93, R95). A word that breaks several encoding rules raises one ILLEGAL_OPCODE and suppresses nothing
(DESIGN CHOICE, log 68). -/
def execDispatch (n : Fin 32) (w : Word) (k : CheckOutcome) (s : State) : Host.Outcome State Fault Refusal :=
  let c := s.cores[n]
  if !s.dispatchReady n w then .next s
  else if !wordLegal w then .next ((s.setCore n (c.decoded n w s.now)).trap n [(.illegalOpcode, w)] (wCls w) c.pc)
  else
    match queueOf w with
    | none => .next s
    | some q =>
      let s := s.setCore n (c.decoded n w s.now)
      let e := makeEntry c w s.now
      if !predHolds c e.wsel then .next (s.advance n)
      else if runAhead c.runcfg q ≤ c.occupied q then .next (s.modCore n (fun d => { d with wait := .full q }))
      else
        match dispatchConditions s n e with
        | [] =>
          .next (lockstep s n k (wCls w) (fun s =>
            (s.modCore n (fun d => { d.setQueue q (d.queue q ++ [e]) with dispatched := d.dispatched + 1 })).advance n))
        | l => .next (s.trap n l (wCls w) c.pc)

/-! ### Start (R56, R62, R64, R117, R148 to R152, R199, R206) -/

/-- The accumulation mode of an issue (R43). -/
def issueMode (e : Entry) : AccMode :=
  (accModeOf (Desc.fmt e.d0.val) (Desc.fmt e.d1.val) (Desc.mxs e.d0.val)).getD .exactFloat

/-- Indices that an issue adds to K_acc: block pairs for MX (R136). -/
def issueIndices (e : Entry) : Nat := if Desc.mxs e.d0.val then issueKA e / 32 else issueKA e

/-- The per-tensor scale of an operand, if it applies (R67, R147). -/
def scaleOf (d : Desc) : Option (BitVec 32) := if d.scaled then some d.scale else none

/-- The bank's product has the properties of a continuing issue (R117). -/
def sameProduct (b : Bank) (e : Entry) : Bool :=
  b.phase != .empty && b.m == issueM e && b.n == issueN e && b.fold == issueFold e.word && b.mode == issueMode e &&
  b.fmtA == Desc.fmt e.d0.val && b.fmtB == Desc.fmt e.d1.val && b.scaleA == scaleOf e.d0.val &&
  b.scaleB == scaleOf e.d1.val

/-- Terms that the longest group of a product adds to its partial (R198): C counts as one, FP32 emulation takes three passes. -/
def productTerms (mode : AccMode) (k fold : Nat) (hasC : Bool) : Nat :=
  (if mode = .fp32 then 3 else 1) * ceilDiv k fold + (if hasC then 1 else 0)

/-- The traps of an issue as it starts (R117, R199, R206). -/
def issueStartBreach (c : Core) (e : Entry) : Bool :=
  let b := c.bank (issueBank e.word)
  let cont := issueInit e.word == 1
  let mode := issueMode e
  let k := (if cont then b.kacc else 0) + issueIndices e
  let hasC := if cont then b.cInit.isSome else issueInit e.word == 2
  let ordered := mode == .ordered || mode == .fp32 || mode == .mx
  (cont && !sameProduct b e) || (cont && decide (1024 ≤ b.log.length)) ||
  (ordered && decide (2 ^ 24 < productTerms mode k (issueFold e.word) hasC))

/-- The traps of a drain as it starts (R117). -/
def drainStartBreach (c : Core) (e : Entry) : Bool :=
  let b := c.bank (drainBank e.word)
  let d : Desc := e.d0.val
  b.phase == .empty || !shapeIs d b.m b.n || !(destFormats b.mode).contains d.fmt

/-- The bank as a starting issue leaves it: a new product discards the old one (R117, R136). -/
def bankAtIssue (b : Bank) (e : Entry) : Bank :=
  if issueInit e.word = 1 then { b with phase := .accum }
  else
    { Bank.vacant with
      phase := .accum, m := issueM e, n := issueN e, fold := issueFold e.word, mode := issueMode e
      fmtA := Desc.fmt e.d0.val, fmtB := Desc.fmt e.d1.val, scaleA := scaleOf e.d0.val, scaleB := scaleOf e.d1.val }

/-- The arrays when an issue starts (R154). -/
def Core.arraysStart (c : Core) (now : Nat) : Core :=
  match c.arrays with
  | .gated => c.arraysTo .rise now
  | .ramp => c.arraysTo .rise now
  | .warm => c.arraysTo .active now
  | _ => c

/-- The first `k` elements (1 or 2) of a tensor in row-major order, as a tensor. -/
def firstElements (d : Desc) (k : Nat) : Desc :=
  if k = 1 then (Desc.withFld d 64 32 1).withFld 96 32 1
  else if d.cols < 2 then (Desc.withFld d 64 32 2).withFld 96 32 1
  else (Desc.withFld d 64 32 1).withFld 96 32 2

/-- The descriptors whose elements an instruction reads (R61, R235): of a cm.amo, only the one or two elements that it uses (R122). -/
def sourceDescs (e : Entry) : List Desc :=
  let w := e.word
  let op := wOp w
  let mx (d : NamedDesc) : List Desc := if Desc.mxs d.val then [d.val, d.next] else [d.val]
  match wCls w with
  | 1 => if op = 2 then [] else if op = 0 then mx e.d1 else [e.d1.val]
  | 2 => if op = 0 then (if issueEmpty e then [] else mx e.d0 ++ mx e.d1 ++ (if issueInit w = 2 then [e.d2.val] else []))
    else []
  | 3 =>
    [(e.d1.val : Desc)] ++ (if op ≤ 5 ∨ op = 8 ∨ op = 9 then [(e.d2.val : Desc)] else []) ++
    (if op = 5 ∨ (0x30 ≤ op ∧ op ≤ 0x38) then [(e.d3.val : Desc)] else [])
  | 4 =>
    [(e.d1.val : Desc)] ++ (if op = 8 ∨ op = 9 ∨ op = 10 then [(e.d2.val : Desc)] else []) ++
    (if w.field 29 26 ≠ 0 then [(e.d3.val : Desc)] else [])
  | 5 =>
    if op = 0 ∨ op = 3 then mx e.d0
    else if op = 2 then (if Desc.empty e.d0.val then [] else [firstElements e.d0.val (if w.field 25 23 = 4 then 2 else 1)])
    else []
  | _ => []

/-- The copy of a broadcast's destination descriptor in core k's scratchpad (R112). -/
def bcastDest (d : Desc) (k : Nat) : Desc := Desc.withFld d 0 48 (scratchBase k + d.base % scratchSize)

/-- The destinations of a mv.bcast: the cores of its mask. -/
def bcastDests (e : Entry) : List Desc :=
  ((List.range 32).filter (fun k => e.ra.getLsbD k)).map (fun k => bcastDest e.d0.val k)

/-- Destination tensors of an instruction. -/
def destDescs (e : Entry) : List Desc :=
  let w := e.word
  let op := wOp w
  match wCls w with
  | 1 => if op = 4 then bcastDests e else if op = 0 ∧ Desc.mxs e.d0.val then [e.d0.val, e.d0.next] else [e.d0.val]
  | 2 => if op = 1 then [e.d0.val] else []
  | 3 => if w.bit 16 then [e.d0.val, e.d3.val] else [e.d0.val]
  | 4 =>
    if op = 0 then [] else if op = 2 then [e.d0.val, e.d2.val]
    else if op = 4 then (if w.field 41 38 ≠ 0 ∧ w.field 33 30 ≠ 0 then [e.d0.val, e.d2.val] else [])
    else [e.d0.val]
  | 5 =>
    if op = 1 then (if Desc.mxs e.d0.val then [e.d0.val, e.d0.next] else [e.d0.val])
    else if op = 2 then (if Desc.empty e.d0.val then [] else [firstElements e.d0.val 1])
    else []
  | _ => [e.d0.val]

/-- The mesh rows that hold a target core of a mv.bcast other than the source: one multicast along each of them (R247). -/
def bcastRows (n : Fin 32) (e : Entry) : List Nat :=
  (List.range 4).filter (fun r => (List.range 32).any (fun k => k != n.val && e.ra.getLsbD k && (meshPlace k).2 == r))

/-- The mesh traffic that core n sends as it starts an instruction, its own memories left out (R247, R248). -/
def entryFlights (n : Fin 32) (e : Entry) : List MeshFlight :=
  (sourceDescs e).flatMap (fun d => meshTensor n.val (some e.seq) d true) ++
  (if wCls e.word = 1 ∧ wOp e.word = 4 then
    (bcastRows n e).map (fun r => { seq := some e.seq, cls := .request, far := .row r, room := 0 : MeshFlight })
  else (destDescs e).flatMap (fun d => meshTensor n.val (some e.seq) d false))

/-- Address of record i of core n (R173). -/
def recAddr (n : Fin 32) (i : Nat) : Nat := statsBase n.val + 8 * i

/-- The records of an instruction's rows, as the INT64 tensor of R189. -/
def recDesc (n : Fin 32) (e : Entry) : Desc :=
  let rows := Desc.rows e.d1.val
  BitVec.ofNat 256 (recAddr n (rowRec e.word) + 3 * 2 ^ 48 + 1 * 2 ^ 54 + rows * 2 ^ 64 + 1 * 2 ^ 96)

/-- A row instruction reads the records of its rows, or writes them (R176). -/
def readsRecords (e : Entry) : Bool :=
  wCls e.word == 4 && (wOp e.word == 3 || decide (8 ≤ wOp e.word) || (!rowFirst e.word && (wOp e.word == 0 || wOp e.word == 2 || wOp e.word == 4)))
def writesRecords (e : Entry) : Bool :=
  wCls e.word == 4 && (decide (wOp e.word ≤ 2) || (decide (4 ≤ wOp e.word) && decide (wOp e.word ≤ 6)))

/-- The bytes that an instruction of core n reads, records included. -/
def entryReads (n : Fin 32) (e : Entry) : List (Nat × Nat) :=
  rangesOf ((sourceDescs e).filter (fun d => !Desc.empty d) ++ (if readsRecords e then [recDesc n e] else []))

/-- The bytes that an instruction of core n writes, records included. -/
def entryWrites (n : Fin 32) (e : Entry) : List (Nat × Nat) :=
  rangesOf ((destDescs e).filter (fun d => !Desc.empty d) ++ (if writesRecords e then [recDesc n e] else []))

/-- What an engine does to accept and start the head of a queue, beyond consuming its wait: none when it cannot accept it now.
The first part is the trap conditions of the start. -/
def startEffect (c : Core) (q : QueueId) (e : Entry) (now : Nat) : Option (List Condition × Core) :=
  if !c.accepts q e then none
  else
    match q with
    | .ctx0 | .ctx1 =>
      let c := if c.contest.isSome then c.countChoice (q == QueueId.ctx1) else c
      if wOp e.word = 0 then
        if issueStartBreach c e then some ([(.illegalOpcode, e.word)], c)
        else
          let b := issueBank e.word
          let c := c.setBank b (bankAtIssue (c.bank b) e)
          some ([], if issueEmpty e then c else c.arraysStart now)
      else if drainStartBreach c e then some ([(.illegalOpcode, e.word)], c)
      else
        let b := drainBank e.word
        let image := c.bank b
        let c := c.setBank b { image with phase := .draining }
        let d : DrainRec :=
          { entry := e, bank := b, image := image, read := false, phase := .open, loc := 0, failFt := 0, failNow := 0
            drill := false }
        some ([], { c with drains := c.drains ++ [d] })
    | _ => some ([], c)

/-- The present slot of fabric time is this chip's for aligned load steps (R388): slots of 2^a µs, frames of 16. -/
def State.ownSlot (s : State) : Bool :=
  let a := s.power.align
  a == 0 || s.ft.toNat / (1000 * 2 ^ a) % 16 == (s.chip % 256 + s.chip / 256) % 16

/-- Cores that have entered RISE in the last `w` ns. -/
def State.recentRises (s : State) (w : Nat) : Nat := (s.power.riseTimes.filter (fun t => decide (s.now < t + w))).length

/-- The fast loop lets no further core enter RISE now: 4 in this 1 µs, or an aligned load step out of its slot (R388). -/
def State.riseHeld (s : State) : Bool := decide (4 ≤ s.recentRises 1000) || (decide (8 ≤ s.recentRises 10000) && !s.ownSlot)

/-- An aligned load step waits: a core to enter RISE, or to start (R388). -/
def State.awaitSlot (s : State) (n : Nat) : State :=
  { s with power := { s.power with aligned := if s.power.aligned.contains n then s.power.aligned else s.power.aligned ++ [n] } }

/-- Record that a core has entered RISE. -/
def State.noteRise (s : State) (entered : Bool) : State :=
  if entered then
    { s with power := { s.power with riseTimes := s.now :: s.power.riseTimes.filter (fun t => decide (s.now < t + 10000)) } }
  else s

/-- INSTRUCTION_START: the head of a queue starts: its engine accepts it, its wait is met by what the queues served before it leave of the semaphore, and
is consumed (R56, R64, R151); its operand reads may meet a memory error (R235). A head that cannot start stays where it is. -/
def execInstructionStart (n : Fin 32) (q : QueueId) (err : MemErr) (s : State) : Host.Outcome State Fault Refusal :=
  let c := s.cores[n]
  if c.run ≠ .running ∨ c.stopping.isSome then .next s
  else
    match c.head q with
    | none => .next s
    | some e =>
      if s.semLeft n (QueueId.before q) (wselSem e.wsel) < wselCount e.wsel || (q == .comm && groupFull s n e) then .next s
      else
        match startEffect c q e s.now with
        | none => .next s
        | some (l@(_ :: _), c) => .next ((s.setCore n c).trap n l (wCls e.word) e.pc)
        | some ([], c) =>
          let rises := c.arrays == .rise && (s.cores[n]).arrays != .rise
          if rises && s.riseHeld then .next (if decide (8 ≤ s.recentRises 10000) && !s.ownSlot then s.awaitSlot n.val else s)
          else
          let s := (s.noteRise rises).touchStaging c.job (if 0x10 ≤ wOp e.word ∧ q = .comm then [] else entryReads n e ++ entryWrites n e)
          let code := wselSem e.wsel
          let c := c.setSem code (c.sem code - wselCount e.wsel)
          let ranges := if s.poison.isEmpty ∨ (sourceDescs e).any (fun d => d.empty) then [] else entryReads n e
          match s.readCheck err ranges with
          | (s', bad) =>
            let e' := { e with started := true, failed := bad.isSome }
            let l := replaceEntry (c.queue q) e'
            let l := match l.find? (fun x => !x.started) with
              | some h => replaceEntry l { h with since := s.now }
              | none => l
            let s' := s'.setCore n ((entryFlights n e).foldl Core.meshSend (c.setQueue q l))
            match bad with
            | none => .next s'
            | some a =>
              let stack := match sramOwner a, s'.hbmPlace a with
                | none, some (k, _, _) => some k
                | _, _ => none
              .next (s'.askHalt (memoryHalt c.job s'.ft a stack))

/-! ### Completion (R61, R38, R172, R211, R213, R216) -/

/-- Elements that an element-wise vector instruction processes in one cycle (R159). -/
def vectorWidth (e : Entry) : Nat :=
  let op := wOp e.word
  let narrow (d : Desc) : Bool := d.fmt == .bf16 || d.fmt == .fp16
  if (decide (op ≤ 0x0A) || op == 0x15 || op == 0x16 || op == 0x20 || op == 0x30) && narrow e.d0.val && (sourceDescs e).all narrow then 1024 else 512

/-- Cycles for which a vector or row instruction holds its engine (R163, R159, R176). -/
def engineCycles (e : Entry) : Nat :=
  let w := e.word
  let op := wOp w
  let dd : Desc := e.d0.val
  let da : Desc := e.d1.val
  if wCls w = 3 then
    if 0x40 ≤ op then da.rows * ceilDiv da.cols 512 else ceilDiv (dd.rows * dd.cols) (vectorWidth e)
  else if op = 4 then ceilDiv da.rows 8
  else
    let passes := if op = 0 ∨ op = 3 then 1 else if op = 5 then 3 else 2
    passes * da.rows * ceilDiv da.cols 512

/-- The retry's extra cycles (R211): one for element-wise work, a row again for a reduction, a pass of one row again. -/
def retryCycles (e : Entry) : Nat :=
  if wCls e.word = 3 ∧ wOp e.word < 0x40 then 1 else ceilDiv (Desc.cols e.d1.val) 512

/-- The unit that checks a class (R192, R217). -/
def unitOfClass (cls : Nat) : Nat := if cls = 1 then 8 else if cls = 3 then 5 else 6

/-- Some operand of a move, vector or row instruction is empty: the whole instruction is (R71). -/
def entryEmpty (e : Entry) : Bool :=
  let w := e.word
  match wCls w with
  | 1 => Desc.empty e.d0.val || (wOp w != 2 && Desc.empty e.d1.val)
  | 3 => Desc.empty e.d0.val || (sourceDescs e).any (fun d => d.empty)
  | 4 => (sourceDescs e).any (fun d => d.empty)
  | _ => false

/-- The core's counters after an instruction leaves its engine: its cycles, those of its retries, and those by which reads shared or through the mesh
stretched it (R161, R191, R211). -/
def countCycles (c : Core) (e : Entry) (retries stretch : Nat) : Core :=
  let k := if entryEmpty e then 0 else engineCycles e + retries * retryCycles e + stretch
  match wCls e.word with
  | 3 => { c with veccyc := c.veccyc + BitVec.ofNat 64 k }
  | 4 => { c with rowcyc := c.rowcyc + BitVec.ofNat 64 k }
  | _ => c

/-- Put back bytes that an instruction wrote (R216). -/
def State.undoBytes (s : State) (l : List Host.Cell) : State :=
  { s with mem := l.foldl (fun m p => sparseSet memDefault m p.1 p.2) s.mem }

/-- The bytes that one failing comparison of an instruction keeps from being written (R172, R213, R216): the elements that group g of an element-wise
instruction processes in one cycle, and that of a reduction along the rows; of any other reduction or a row instruction row g of every output and its record; of
a move all of them. -/
def failedBytes (n : Fin 32) (e : Entry) (g : Nat) : List (Nat × Nat) :=
  let rowOf (d : Desc) : List (Nat × Nat) := if d.rows ≤ g then [] else (List.range d.cols).map (fun c => d.elemBytes g c)
  match wCls e.word with
  | 3 =>
    if 0x40 ≤ wOp e.word ∧ !e.word.bit 15 then rowOf e.d0.val
    else
      let w := if 0x40 ≤ wOp e.word then 512 else vectorWidth e
      (destDescs e).flatMap (fun d => (((positions d.rows d.cols).drop (g * w)).take w).map (fun p => d.elemBytes p.1 p.2))
  | 4 => (destDescs e).flatMap rowOf ++ (if writesRecords e ∧ g < Desc.rows e.d1.val then [(recAddr n (rowRec e.word + g), 8)] else [])
  | _ => entryWrites n e

/-- The arrays when no issue holds them any more (R154): WARM unless an issue is eligible, or RAMP when KW = 0. -/
def Core.arraysAfterIssue (c : Core) (now : Nat) : Core :=
  if c.arrays = .active ∧ !c.arraysBusy ∧ !c.issueEligible then
    if c.mmcfg.field 7 0 = 0 then c.arraysTo .ramp now else c.arraysTo .warm now
  else c

/-- The drain in flight with a dispatch number. -/
def Core.drainOf (c : Core) (seq : Nat) : Option DrainRec := c.drains.find? (fun d => d.entry.seq == seq)

/-- A drain leaves the list of drains in flight. -/
def Core.dropDrain (c : Core) (d : DrainRec) : Core :=
  { c with drains := c.drains.filter (fun x => x.entry.seq != d.entry.seq) }

/-- A complete drain whose verdict is clean: the checked semaphore receives its increment, after the signal of the drain's own completion (R115, R202). -/
def State.checkedClean (s : State) (n : Fin 32) (d : DrainRec) : State :=
  let s := s.modCore n (fun c => c.dropDrain d)
  let w := d.entry.word
  if w.bit 26 then s.signal n (w.field 25 21) 1 (.own 2 d.entry.pc) else s

/-- The completion of a drain whose verdict is already clean gives its checked signal (R202). -/
def State.checkedAtEnd (s : State) (n : Fin 32) (e : Entry) : State :=
  match (s.cores[n]).drainOf e.seq with
  | some d => if d.phase = .clean then s.checkedClean n d else s
  | none => s

/-- An instruction leaves its queue: flags into NUMST, its signal, the checked signal of a clean drain, and the NUMERIC trap (R38, R61, R202). -/
def finishEntry (s : State) (n : Fin 32) (q : QueueId) (e : Entry) : State :=
  let s := s.modCore n (fun c =>
    let c := { c.retire q e.seq with numst := numstRaise c.numst e.flags }
    if wCls e.word = 2 ∧ wOp e.word = 0 then c.arraysAfterIssue s.now else c)
  let s := if wSe e.word then s.signal n (wSsem e.word) 1 (.own (wCls e.word) e.pc) else s
  let s := if wCls e.word = 2 then s.checkedAtEnd n e else s
  let s := s.trap n (numericConditions (s.cores[n]).numst e.flags) (wCls e.word) e.pc
  s.settle n

/-- The record of one failing comparison of an engine instruction (R217, R218). -/
def unitEvent (s : State) (n : Fin 32) (e : Entry) (f : CheckFail) (drill : Bool) : CheckEvent :=
  let cls := wCls e.word
  { loc := locSimple (unitOfClass cls) n.val (if cls = 1 then Desc.base e.d0.val else f.detail.toNat), ft := s.ft
    outcome := if f.lasting then 1 else 0, drill := drill, cls := cls, pc := e.pc, retryUs := 0, job := (s.cores[n]).job, core := some n.val }

/-- INSTRUCTION_COMPLETE: the oldest instruction of a queue whose work is done reaches its completion point (R61). The failing comparisons are those of the
unit's own check: of groups of elements or of rows in the vector and row engines (R172, R211), of the CRC-64 of a move (R193, R213). A group whose retry fails
too is not written, and the core traps (R216); the others are. Matrix products are checked at their drain (R202). Comm instructions complete through
their responses and records (R275, R299). `stretch` are the cycles for which shared or remote reads held the engine longer (R161). -/
def execInstructionComplete (n : Fin 32) (q : QueueId) (fails : List CheckFail) (stretch : Nat) (s : State) :
    Host.Outcome State Fault Refusal :=
  let c := s.cores[n]
  match (if q = .comm then none else (c.queue q).find? (fun e => e.started && e.executed)) with
  | none => .next s
  | some e =>
    let cls := wCls e.word
    let checked := decide (cls = 1 ∨ cls = 3 ∨ cls = 4) && !entryEmpty e
    let fails := if checked then fails else []
    let (k, dr, s) := if checked then s.inject (drillKind (unitOfClass cls)) n.val (if fails.isEmpty then .ok else .transient)
      else (.ok, false, s)
    let fails : List CheckFail := if dr then [{ group := 0, detail := 0, lasting := false }] else if k = .ok then [] else fails
    let s := fails.foldl (fun (t : State) f => t.recordCheck (unitEvent t n e f dr)) s
    let s := s.modCore n (fun c => countCycles c e fails.length stretch)
    match fails.filter (fun f => f.lasting) with
    | [] => .next (finishEntry s n q e)
    | bad =>
      let lost := bad.flatMap (fun f => failedBytes n e f.group)
      let s := s.undoBytes (e.undo.filter (fun p => inRanges lost p.1))
      let s := s.modCore n (fun c => c.retire q e.seq)
      .next ((s.trap n (bad.map (fun f => (.checkLasting, (unitEvent s n e f dr).loc))) cls e.pc).settle n)

/-! ### Deadlock and wait timeout (R81, R82, R152) -/

/-- Bank order alone holds a matrix head whose wait is met: an earlier instruction of its bank has not started (R117, R152). -/
def Core.heldByOrder (c : Core) (e : Entry) : Bool :=
  c.waitMet e && c.matrixEntries.any (fun x => decide (x.seq < e.seq) && !x.started && matrixBank x.word == matrixBank e.word)

/-- The wait on which a head counts for R81: its own, or that of the oldest unstarted matrix instruction when bank order
alone holds it (R152). -/
def Core.blockingEntry (c : Core) (q : QueueId) (e : Entry) : Entry :=
  match q with
  | .ctx0 | .ctx1 =>
    if c.heldByOrder e then
      (c.matrixEntries.filter (fun x => !x.started)).foldl (fun a x => if x.seq < a.seq then x else a) e
    else e
  | _ => e

/-- A queue is empty or its head waits on a local semaphore (R81). -/
def Core.deadQueue (c : Core) (q : QueueId) : Bool :=
  match c.head q with
  | none => (c.queue q).isEmpty
  | some e => let b := c.blockingEntry q e; !c.waitMet b && decide (wselSem b.wsel < 32)

/-- The sequencer is stalled on a full queue, or waits on a local semaphore or in sync.idle (R81, R108). -/
def Core.deadSequencer (c : Core) : Bool :=
  match c.wait with
  | .full _ => true
  | .sem code count _ _ _ => decide (code < 32) && decide (c.sem code < count)
  | .idle mask _ => !(QueueId.all.all (fun q => !mask.getLsbD (QueueId.index q) || (c.queue q).isEmpty))
  | _ => false

/-- The queues that wait (R125). -/
def Core.waitingQueues (c : Core) : Nat :=
  QueueId.all.foldl (fun a q => if (c.queue q).isEmpty then a else a + 2 ^ QueueId.index q) 0

/-- DEADLOCK_DETECT: every engine and the sequencer wait on local semaphores with nothing in flight (R81). -/
def execDeadlockDetect (n : Fin 32) (s : State) : Host.Outcome State Fault Refusal :=
  let c := s.cores[n]
  if c.run = .running ∧ c.stopping.isNone ∧ !c.inFlight ∧ QueueId.all.all c.deadQueue ∧ c.deadSequencer then
    .next (s.trap n [(.deadlock, Word.place c.waitingQueues 6 0 ||| Word.placeBit true 6)] 0 c.pc)
  else .next s

/-- A blocked wait: since when, the CORE_TRAPINFO it gives, and the class and address of the waiting instruction (R82, R125). -/
structure BlockedWait where
  since : Nat
  info : Word
  cls : Nat
  pc : BitVec 48
  deriving DecidableEq, Repr

/-- The detail of WAIT_TIMEOUT (R125). -/
def waitInfo (code count : Nat) : Word := Word.place code 6 16 ||| Word.place count 16 0

/-- The blocked waits of a core in the order of R64; `full` says that the comm head waits for room in its group's queue (R298). -/
def Core.blockedWaits (c : Core) (full : Entry → Bool) : List BlockedWait :=
  let heads := QueueId.all.flatMap (fun q =>
    match c.head q with
    | some e =>
      if c.waitMet e then
        (if q = .comm ∧ full e then [{ since := e.since, info := waitInfo 63 0, cls := 5, pc := e.pc : BlockedWait }] else [])
      else
        [{ since := e.since, info := waitInfo (wselSem e.wsel) (wselCount e.wsel), cls := wCls e.word, pc := e.pc : BlockedWait }]
    | none => [])
  let own := match c.wait with
    | .sem code count since _ cls => [{ since := since, info := waitInfo code count, cls := cls, pc := c.pc : BlockedWait }]
    | .idle _ since => [{ since := since, info := waitInfo 63 0, cls := 6, pc := c.pc }]
    | .until _ since => [{ since := since, info := waitInfo 63 0, cls := 6, pc := c.pc }]
    | _ => []
  heads ++ own

/-- WAIT_TIMEOUT_EXPIRY: waits have been blocked for longer than CORE_RUNCFG.WAIT_TO milliseconds: the first of R64's order is recorded, any other is
counted as suppressed (R82, R84); 0 disables it. -/
def execWaitTimeoutExpiry (n : Fin 32) (s : State) : Host.Outcome State Fault Refusal :=
  let c := s.cores[n]
  let limit := c.runcfg.field 63 48 * 1000000
  if c.run = .running ∧ c.stopping.isNone ∧ limit ≠ 0 then
    match (c.blockedWaits (groupFull s n)).filter (fun b => decide (limit < s.now - b.since)) with
    | b :: more => .next (s.trap n ((b :: more).map (fun x => (.waitTimeout, x.info))) b.cls b.pc)
    | [] => .next s
  else .next s

end Sys2Proof.Machine
end

