-- ==== Sys2Proof/Machine/Move.lean ====
section
/-! DEFINITION. The move engine and the memory-side units (spec/04 R112 to R114, 08 R215, R232, R237 to R240, 06 R189). -/

namespace Sys2Proof.Machine

/-! ### Carrying out the instruction at the head of a queue -/

/-- The instruction of a queue that its engine works on now: the oldest whose effect is not yet taken, once started (R56, R114). -/
def Core.working (c : Core) (q : QueueId) (cls op : Nat) : Option Entry :=
  match (c.queue q).find? (fun e => !e.executed) with
  | some e => if e.started && !e.failed && wCls e.word == cls && wOp e.word == op then some e else none
  | none => none

/-- The CRC-64 of a move over the bytes that it has written, in ascending destination address order, and its destination descriptor (R193). -/
def State.moveCrc (s : State) (e : Entry) : Word :=
  if wCls e.word ≠ 1 ∨ entryEmpty e then 0
  else
    let places := (rangesOf (destDescs e)).flatMap (fun r => (List.range r.2).map (fun i => r.1 + i))
    transferCrc ((places.foldl (fun l a => insertRising a l) []).map (fun a => s.readByte a)) e.d0.val

/-- The effect of an instruction has taken place: its flags, and the bytes it replaced. -/
def State.markExecuted (s : State) (n : Fin 32) (q : QueueId) (e : Entry) (flags : BitVec 3) (undo : List Host.Cell) : State :=
  s.modCore n (fun c => (c.setQueue q (replaceEntry (c.queue q)
    { e with executed := true, flags := e.flags ||| flags, undo := undo, crc := s.moveCrc e })).meshServed (some e.seq))

/-- The bytes of ranges as they are. -/
def State.cellsOf (s : State) (rs : List (Nat × Nat)) : List Host.Cell :=
  rs.flatMap (fun r => (List.range r.2).map (fun i => (r.1 + i, s.readByte (r.1 + i))))

/-! ### Accesses that nothing orders (R66, R76, R190, R238) -/

/-- The engine of a queue: both contexts feed the matrix engine. -/
def engineOf : QueueId → Nat
  | .ctx1 => 1
  | q => QueueId.index q

/-- Instructions of other engines and other cores that have started and not completed: no signal has ordered one that works now against them (R66, R76). -/
def State.rivals (s : State) (n : Fin 32) (q : QueueId) : List (Fin 32 × Entry) :=
  (List.finRange 32).flatMap (fun m =>
    (QueueId.all.filter (fun r => !(m == n && engineOf r == engineOf q))).flatMap (fun r =>
      (((s.cores[m]).queue r).filter (fun e => e.started)).map (fun e => (m, e))))

/-- The bytes that instructions read, and those that they write. -/
def readsOf (l : List (Fin 32 × Entry)) : List (Nat × Nat) := l.flatMap (fun p => entryReads p.1 p.2)
def writesOf (l : List (Fin 32 × Entry)) : List (Nat × Nat) := l.flatMap (fun p => entryWrites p.1 p.2)

/-- Before an instruction works: the bytes of its operands and destinations that a rival writes are undefined (R76, R190; log 12). -/
def State.raceBefore (s : State) (n : Fin 32) (q : QueueId) (e : Entry) : State :=
  let l := s.rivals n q
  if l.isEmpty then s else s.freeOverlap (entryReads n e ++ entryWrites n e) (writesOf l)

/-- After it has worked: the bytes it has written that a rival reads or writes are undefined (R76). -/
def State.raceAfter (s : State) (n : Fin 32) (q : QueueId) (e : Entry) : State :=
  let l := s.rivals n q
  if l.isEmpty then s else s.freeOverlap (entryWrites n e) (readsOf l ++ writesOf l)

/-- Carry out the head of a queue: an empty instruction only finishes (R71); otherwise its effect is taken, on bytes that a race leaves undefined free
ones (R76), and the bytes of its destinations as they were are kept for R216. -/
def runEngine (s : State) (n : Fin 32) (q : QueueId) (cls op : Nat) (effect : State → Entry → State × NumFlags) :
    Host.Outcome State Fault Refusal :=
  match (s.cores[n]).working q cls op with
  | none => .next s
  | some e =>
    if entryEmpty e then .next (s.markExecuted n q e 0 [])
    else
      let s := s.raceBefore n q e
      let undo := s.cellsOf (entryWrites n e)
      let (t, f) := effect s e
      .next ((t.raceAfter n q e).markExecuted n q e f.toBits undo)

/-! ### Elements -/

/-- One rounding of a value to the element of a destination at a position, with the word's RND and SAT and the seed (R36, R39,
R42, R97). -/
def encodeAt (rnd sat : Nat) (seed : Word) (d : Desc) (r c : Nat) (v : Val) : Nat × NumFlags :=
  let f := d.fmt
  let mode := rndOf rnd
  let x := if mode = .sr then acorn seed d.tid (r * d.cols + c) else 0
  elemEncode f mode (satOf sat f) x v

/-- Store a tensor of values and collect the flags their rounding raises. -/
def State.putValues (s : State) (d : Desc) (f : Nat → Nat → Nat × NumFlags) : State × NumFlags :=
  (s.putTensor d (fun r c => (f r c).1),
   (positions d.rows d.cols).foldl (fun a p => a.or (f p.1 p.2).2) NumFlags.none)

/-- The result of a memory-side operation on one element (R237): 0 add, 1 max, 2 min, 3 swap, 4 compare-and-swap. -/
def amoElement (f : Fmt) (op old operand expected : Nat) : Nat :=
  let b := fmtBits f
  match op with
  | 3 => operand
  | 4 => if old = expected then operand else old
  | _ =>
    match floatFmt f with
    | some _ =>
      let x := elemDecode f old
      let y := elemDecode f operand
      let v := match op with | 0 => x.add y | 1 => x.max y | _ => x.min y
      (elemEncode f .rne false 0 v).1
    | none =>
      let x := intOfBits b old
      let y := intOfBits b operand
      bitsOfInt b (match op with | 0 => x + y | 1 => max x y | _ => min x y)

/-! ### The move instructions (R112) -/

/-- A copy of element codes. -/
def copyEffect (s : State) (dd ds : Desc) : State := s.putTensor dd (fun r c => s.elem ds r c)

/-- MV_COPY: the element codes, and the scale array of an MX tensor, are copied; destination bytes that overlap any byte of the source, elements or scales,
are undefined (R112, R113). -/
def execMvCopy (n : Fin 32) (s : State) : Host.Outcome State Fault Refusal :=
  runEngine s n .move 1 0 (fun s e =>
    let t := copyEffect s e.d0.val e.d1.val
    let t := if Desc.mxs e.d0.val then t.putTensor e.d0.next (fun r c => s.elem e.d1.next r c) else t
    (t.freeOverlap (rangesOf (destDescs e)) (rangesOf (sourceDescs e)), NumFlags.none))

/-- MV_CVT: conversion element by element (R35 to R37, R499). -/
def execMvCvt (n : Fin 32) (s : State) : Host.Outcome State Fault Refusal :=
  runEngine s n .move 1 1 (fun s e =>
    let dd : Desc := e.d0.val
    let ds : Desc := e.d1.val
    let (t, f) := s.putValues dd (fun r c =>
      encodeAt (e.word.field 28 27) (e.word.field 26 25) e.ra dd r c (elemDecode ds.fmt (s.elem ds r c)))
    (t.freeOverlap dd.ranges ds.ranges, f))

/-- MV_FILL: every element is the low bits of the scalar (R112). -/
def execMvFill (n : Fin 32) (s : State) : Host.Outcome State Fault Refusal :=
  runEngine s n .move 1 2 (fun s e =>
    (s.putTensor e.d0.val (fun _ _ => e.ra.toNat), NumFlags.none))

/-- MV_BCAST: the same offset in every named core's scratchpad (R112, R247). Of an MX tensor the elements are copied and not the scale array, which R112 states
for mv.copy alone (DESIGN CHOICE, log 69). -/
def execMvBcast (n : Fin 32) (s : State) : Host.Outcome State Fault Refusal :=
  runEngine s n .move 1 4 (fun s e =>
    let ds : Desc := e.d1.val
    ((bcastDests e).foldl (fun t d => (t.putTensor d (fun r c => s.elem ds r c)).freeOverlap d.ranges ds.ranges) s,
     NumFlags.none))

/-! ### Memory-side units (R215, R237 to R240) -/

/-- The halt of a job whose atomic operation a fenced adder pair refuses (R240). -/
def State.refuseAtomic (s : State) (job : Word) (k c : Nat) : State :=
  (s.raiseJob 0x27 job [BitVec.ofNat 64 (k * 32 + c)]).askHalt
    { job := job, cause := 4, detail := 0, loc := 0, ft := s.ft, fenced := true }

/-- The location word of a memory-side adder (R217). -/
def adderLoc (core k c : Nat) : Word := locSimple 10 core (k * 256 + c)

/-- The record of an adder mismatch (R215, R219). -/
def adderEvent (s : State) (core : Option Nat) (named k c outcome cls : Nat) (pc : BitVec 48) (job : Word) (drill : Bool) : CheckEvent :=
  { loc := adderLoc named k c, ft := s.ft, outcome := outcome, drill := drill, cls := cls, pc := pc, retryUs := 0
    job := job, core := core }

/-- A lasting adder fault: the pair is fenced and its channel marked (R215, R233). -/
def State.fenceAdder (s : State) (k c : Nat) : State := (s.setBit (Csr.hbmAmo k) c true).markChannel k c

/-- What one memory-side operation comes to: applied, with the old value of its first element; refused by a fenced pair; failed twice in the adders; or no
old value delivered. -/
inductive AtomicResult where
  | applied (s : State) (old : Nat)
  | refused (s : State)
  | lasting (s : State) (loc : Word)
  | unread (s : State) (addr : Nat) (stack : Nat)

/-- One operation of a memory-side unit on elements of format f of one 64 B line of HBM, each an address and an operand: refused by a fenced pair; carried
out again after a first mismatch; after a second the pair is fenced and nothing is written; nothing either where the old value cannot be read (R215, R235,
R237, R239, R240). `core` is the core of this chip for which a fault counts, `named` the one that the location word names (R217). -/
def atomicAt (s : State) (core : Option Nat) (job : Word) (cls : Nat) (pc : BitVec 48) (f : Fmt) (op : Nat) (l : List (Nat × Nat)) (expected : Nat)
    (k : CheckOutcome) (err : MemErr) (named : Nat) : AtomicResult :=
  let bytes := fmtBits f / 8
  let addr := (l.head?.getD (0, 0)).1
  match s.hbmPlace addr with
  | none => .refused s
  | some (st, ch, _) =>
    if (s.reg (Csr.hbmAmo st)).bit ch then .refused (s.refuseAtomic job st ch)
    else
      match s.readCheck err (l.map (fun p => (p.1, bytes))) with
      | (s, some bad) => .unread s bad st
      | (s, none) =>
        let (k, dr, s) := match core with
          | some n => s.inject 6 n k
          | none => (k, false, s)
        match k with
        | .lasting =>
          .lasting ((s.recordCheck (adderEvent s core named st ch 1 cls pc job dr)).fenceAdder st ch) (adderLoc named st ch)
        | _ =>
          let s := if k = .transient then s.recordCheck (adderEvent s core named st ch 0 cls pc job dr) else s
          .applied (l.foldl (fun (t : State) p => t.writeNat p.1 bytes (amoElement f op (t.readNat p.1 bytes) p.2 expected)) s) (s.readNat addr bytes)

/-- The 64 B lines of a tensor, in the order in which its elements in row-major order come to them (R238, R239). -/
def redLines (d : Desc) : List Nat := ((positions d.rows d.cols).map (fun p => (d.elemBytes p.1 p.2).1 / 64)).eraseDups

/-- The elements of a mv.red in one line, in row-major order: their addresses and operands. -/
def redElements (s : State) (e : Entry) (line : Nat) : List (Nat × Nat) :=
  let d : Desc := e.d0.val
  let ds : Desc := e.d1.val
  ((positions d.rows d.cols).filter (fun p => (d.elemBytes p.1 p.2).1 / 64 == line)).map (fun p => ((d.elemBytes p.1 p.2).1, s.elem ds p.1 p.2))

/-- The operation of a mv.red on one line: the elements of one mv.red on the same line are applied as one operation (R239). The bytes as they were are kept for
R216, the oldest last. -/
def redLine (s : State) (n : Fin 32) (e : Entry) (line : Nat) (k : CheckOutcome) (err : MemErr) : AtomicResult × Entry :=
  let l := redElements s e line
  (atomicAt s (some n.val) (s.cores[n]).job 1 e.pc (Desc.fmt e.d0.val) (e.word.field 24 22) l 0 k err n.val,
   { e with progress := e.progress + 1, undo := s.cellsOf (l.map (fun p => (p.1, Desc.bits e.d0.val / 8))) ++ e.undo })

/-- The move queue with an entry replaced. -/
def State.putMove (s : State) (n : Fin 32) (e : Entry) : State := s.modCore n (fun c => c.setQueue .move (replaceEntry (c.queue .move) e))

/-- The halt for an atomic operation whose old value could not be read (R235). -/
def State.atomicUnread (s : State) (n : Fin 32) (addr stack : Nat) : State := s.askHalt (memoryHalt (s.cores[n]).job s.ft addr (some stack))

/-- Apply the lines of a mv.red until one is not applied. -/
def redApply (n : Fin 32) : State → Entry → List Nat → State × Entry × Bool
  | s, e, [] => (s, e, true)
  | s, e, line :: t =>
    match redLine s n e line .ok .none with
    | (.applied s' _, e') => redApply n s' e' t
    | (.refused s', _) => (s', e, false)
    | (.lasting s' _, _) => (s', e, false)
    | (.unread s' a st, _) => (s'.atomicUnread n a st, e, false)

/-- MV_RED: the memory-side units apply every line not yet applied, its elements in row-major order (R112, R237 to R239); a fenced adder
pair refuses the rest and the job halts (R240). Destination bytes that overlap the source are undefined (R113). -/
def execMvRed (n : Fin 32) (s : State) : Host.Outcome State Fault Refusal :=
  match (s.cores[n]).working .move 1 3 with
  | none => .next s
  | some e =>
    if entryEmpty e then .next (s.markExecuted n .move e 0 [])
    else
      match redApply n s e ((redLines e.d0.val).drop e.progress) with
      | (t, e, true) => .next ((t.freeOverlap (Desc.ranges e.d0.val) (Desc.ranges e.d1.val)).markExecuted n .move e 0 e.undo)
      | (t, e, false) => .next (t.putMove n { e with failed := true })

/-- ATOMIC_OPERATION: a memory-side unit applies the next operation of a core's sequencer (an s.amo that holds it) or of its
move queue (the next line of a started mv.red); the outcome is that of the duplicated adders, the error what the read of the old value meets (R215, R235,
R237 to R239). -/
def execAtomicOperation (src : AtomicSource) (k : CheckOutcome) (err : MemErr) (s : State) : Host.Outcome State Fault Refusal :=
  match src with
  | .sequencer n =>
    let c := s.cores[n]
    match c.wait with
    | .access (.amo op) addr reg value expected desc none =>
      match atomicAt s (some n.val) c.job 0 c.pc .int64 op [(addr.toNat, value.toNat)] expected.toNat k err n.val with
      | .applied s' old =>
        .next (s'.modCore n (fun c => { c with wait := .access (.amo op) addr reg value expected desc (some (BitVec.ofNat 64 old)) }))
      | .refused s' => .next s'
      | .lasting s' loc => .next (s'.trap n [(.checkLasting, loc)] 0 c.pc)
      | .unread s' a st => .next (s'.atomicUnread n a st)
    | _ => .next s
  | .moveQueue n =>
    let c := s.cores[n]
    match c.working .move 1 3 with
    | none => .next s
    | some e =>
      match (if entryEmpty e then [] else (redLines e.d0.val).drop e.progress) with
      | [] => .next s
      | line :: _ =>
        match redLine s n e line k err with
        | (.applied s' _, e') => .next (s'.putMove n e')
        | (.refused s', _) => .next (s'.putMove n { e with failed := true })
        | (.unread s' a st, _) => .next ((s'.putMove n { e with failed := true }).atomicUnread n a st)
        | (.lasting s' loc, _) =>
          .next (((s'.modCore n (fun c => c.retire .move e.seq)).trap n [(.checkLasting, loc)] 1 e.pc).settle n)

end Sys2Proof.Machine
end

