-- ==== Sys2Proof/Machine/Messages.lean ====
section
/-! DEFINITION. Messages: the comm instructions, streams at the source, the executor at the target, responses, resends, failures and
timeouts (spec/09 R270, R272 to R282, 04 R122, R124, 07 R214). -/

namespace Sys2Proof.Machine

/-! ### Element data on the wire -/

/-- Element codes of width b packed in row-major order. -/
def packCodes (b : Nat) (l : List Nat) : List Byte :=
  bytesOfNat (ceilDiv (l.length * b) 8) ((l.zipIdx).foldl (fun t p => t + p.1 * 2 ^ (p.2 * b)) 0)

/-- Element i of packed data. -/
def unpackCode (b : Nat) (data : List Byte) (i : Nat) : Nat := natOfBytes data / 2 ^ (i * b) % 2 ^ b

/-- The elements of a tensor as packed data. -/
def State.tensorData (s : State) (d : Desc) : List Byte :=
  packCodes d.bits ((positions d.rows d.cols).map (fun p => s.elem d p.1 p.2))

/-- A tensor filled from packed data. -/
def State.putData (s : State) (d : Desc) (data : List Byte) : State :=
  let v := natOfBytes data
  s.putTensor d (fun r c => v / 2 ^ ((r * d.cols + c) * d.bits) % 2 ^ d.bits)

/-! ### Failures (R280) -/

/-- The source's record of a final failure for a core: FAB_MSGERR, event 0x39, and the halt of the job. The instruction stays
incomplete. A service's request records the code (R368). -/
def State.messageFails (s : State) (m : OutMsg) (status : Nat) : State :=
  let s := if m.key.svc then s else
    let o := Csr.fabMsgErr m.key.core
    let s := if s.fld o 63 60 = 0 then
        s.setReg o (Word.place status 4 60 ||| Word.place (s.fld o 55 48) 8 48 ||| Word.place m.key.peer 16 32 |||
          Word.place m.addr.toNat 32 0)
      else s
    s.bump o 55 48 1
  let s := s.raiseJob 0x39 m.job [BitVec.ofNat 64 status]
  let s := { s with outMsgs := s.outMsgs.filter (fun x => !(x.key == m.key && x.seq == m.seq)) }
  if m.key.svc then
    { s with jobs := s.jobs.map (fun (j : Job) => if j.id ≠ m.job then j else
        { j with services := j.services.map (fun (v : Service) => match v.req with
          | some r => if r.xfer = m.seq ∧ r.failed = 0 then { v with req := some { r with failed := status } } else v
          | none => v) }) }
  else
    let s := match s.cores[m.key.core]? with
      | some c =>
        let c := { c with qComm := c.qComm.map (fun (e : Entry) => if e.seq = m.seq then { e with failed := true } else e) }
        { s with cores := s.cores.setIfInBounds m.key.core c }
      | none => s
    s.askHalt { job := m.job, cause := 6, detail := BitVec.ofNat 32 status, loc := 0, ft := s.ft, fenced := false }

/-! ### Messages on the wire (R193, R273, R274) -/

/-- The 64 bytes of a message header (R273). -/
def messageHeader (mop flags aop ring : Nat) (msgid : BitVec 32) (job : Word) (len arg : Nat) (cack : BitVec 32) (desc : BitVec 256) : List Byte :=
  bytesOfNat 1 mop ++ bytesOfNat 1 flags ++ bytesOfNat 1 aop ++ bytesOfNat 1 ring ++ bytesOfNat 4 msgid.toNat ++ bytesOfNat 8 job.toNat ++
  bytesOfNat 8 len ++ bytesOfNat 4 arg ++ bytesOfNat 4 cack.toNat ++ bytesOfNat 32 desc.toNat

/-- The payload bytes of a message: header, data, and the CRC-64 over the data and the target descriptor in the last 8 (R193, R273). -/
def messageWire (head data : List Byte) (desc : BitVec 256) : List Byte := head ++ data ++ bytesOfNat 8 (transferCrc data desc).toNat

/-- CACK: the lowest MSGID of the stream whose response the source still awaits (R273); outstanding messages of a stream stand in MSGID order. -/
def State.cack (s : State) (m : OutMsg) : BitVec 32 := ((s.outMsgs.find? (fun x => x.key == m.key)).getD m).msgid

/-- The payload bytes of an outgoing message (R273): ARG is the increment of a SIGNAL. -/
def State.wire (s : State) (m : OutMsg) : List Byte :=
  messageWire (messageHeader m.mop ((if m.isNew then 1 else 0) + (if m.mc then 2 else 0)) m.aop m.ring m.msgid m.job m.data.length
    (if m.mop = 5 then m.arg else 0) (s.cack m) m.desc) m.data m.desc

/-- MOP of a response (R274). -/
def Reply.mop : Reply → Nat
  | .ack => 0x81 | .getData _ => 0x82 | .amoOld _ => 0x83 | .resend _ _ => 0x8E | .fail _ => 0x8F

/-- ARG of a response (R273). -/
def Reply.arg : Reply → Nat
  | .resend e _ => e.toNat | .fail st => st | _ => 0

/-- The data of a response. -/
def Reply.data : Reply → List Byte
  | .getData d => d | .amoOld v => bytesOfNat 8 v.toNat | _ => []

/-- The CRC-64 of a response: its data, with the zero descriptor that its header holds (log 76). -/
def Reply.crc (r : Reply) : Word := transferCrc r.data 0

/-- The payload bytes of the response to a message (R273, R274). -/
def replyWire (h : Msg) (r : Reply) : List Byte :=
  messageWire (messageHeader r.mop 0 0 0 h.msgid h.job r.data.length r.arg 0 0) r.data 0

/-! ### Sending (R248, R258, R272, R273) -/

/-- The half of the sender: cores 16 to 31 and service cores 4 to 7 are in H1 (R16, R255, R475). -/
def StreamKey.half (k : StreamKey) : Bool := if k.svc then decide (4 ≤ k.core) else decide (16 ≤ k.core)

/-- Room that the sender of a message reserves for the data of its response (R248). -/
def OutMsg.room (m : OutMsg) : Nat :=
  if m.mop = 2 then ceilDiv (Desc.rows m.desc * Desc.cols m.desc * Desc.bits m.desc) 8 else if m.mop = 3 then Desc.bits m.desc / 8 else 0

/-- A core's message crosses the mesh to the ports of a half in the class of its operation, with room reserved for its response (R248). -/
def State.crossMesh (s : State) (m : OutMsg) (path : Nat) : State :=
  if m.key.svc then s
  else if hn : m.key.core < 32 then
    s.modCore ⟨m.key.core, hn⟩ (fun c => c.meshSend
      { seq := some m.seq, cls := meshClass m.mop m.key.tc, far := .ports (portHalf (path / 8)), room := m.room })
  else s

/-- What the outside sees of a message: a record or a chunk of a collective, or the message itself. -/
def OutMsg.shown (m : OutMsg) : Output :=
  match m.coll with
  | some (.record grp rank r) => .descRec grp m.key.peer rank r
  | some (.chunk grp rank seq kind elems) => .chunk grp m.key.peer rank kind seq elems
  | none => .message m

/-- The wire copy of a message leaves on a path: its flits enter the link layer (R261, R273). -/
def State.transmit (s : State) (m : OutMsg) (path : Nat) : State :=
  ((s.crossMesh m path).emit m.shown).enqueue path
    (messageFlits s.chip m.key.peer m.key.core m.key.svc m.key.tc m.key.rc m.route (s.wire m))

/-- The message with its current route: none when no route exists (R258, R259). -/
def State.routed (s : State) (m : OutMsg) : OutMsg :=
  match s.routeTo m.key.peer m.key.rc with
  | none => { m with route := [], hops := [], path := none }
  | some r =>
    { m with route := r, hops := s.hopOffsets (s.chip :: r) m.key.half m.key.core, path := s.choosePath (r.headD 0) m.key.half m.key.core }

/-- Put a message, with its present route, among those outstanding. -/
def State.putOut (s : State) (m : OutMsg) : State :=
  { s with outMsgs := s.outMsgs.map (fun x => if x.key = m.key ∧ x.msgid = m.msgid then m else x) }

/-- Send, or hold at the source: with event 0x3B when the stream has no route yet (R259); without, when its path takes no new flits before a planned
change, for routes change only once it has drained (R271). -/
def State.launch (s : State) (m : OutMsg) : State :=
  let held := s.outMsgs.any (fun x => x.key == m.key && x.route.isEmpty && x.msgid != m.msgid)
  let m := s.routed m
  match m.path with
  | some i => if s.pathTakes i then (s.putOut m).transmit m i else s.putOut { m with route := [], hops := [], path := none }
  | none => if held then s.putOut m else (s.putOut m).raise 0x3B [BitVec.ofNat 64 m.key.peer]

/-- The next MSGID of a stream: an arbitrary value where the stream begins (R272). -/
def State.takeMsgid (s : State) (key : StreamKey) : BitVec 32 × State :=
  match s.outStreams.find? (fun x => x.key == key) with
  | some x =>
    (x.next, { s with outStreams := s.outStreams.map (fun y => if y.key = key then { y with next := y.next + 1 } else y) })
  | none =>
    let v : BitVec 32 := s.free.truncate 32
    (v, { s.drew with outStreams := s.outStreams ++ [{ key := key, next := v + 1 }] })

/-- A new message of a stream: its MSGID, NEW and its place among the outstanding ones. -/
def State.newMessage (s : State) (m : OutMsg) : OutMsg × State :=
  let isNew := !s.outMsgs.any (fun x => x.key == m.key)
  let (id, s) := s.takeMsgid m.key
  let m := { m with msgid := id, isNew := isNew, since := s.now }
  (m, { s with outMsgs := s.outMsgs ++ [m] })

/-! ### The executor (R273, R276, R277) -/

/-- The stream of an arriving message, at its receiver. -/
def streamOf (h : Msg) : StreamKey :=
  { core := h.core.toNat, svc := h.svc, peer := h.src.toNat, tc := h.tc, rc := h.rc }

/-- Whom a response to an arriving message goes to. -/
def respTo (s : State) (h : Msg) : RespTo :=
  { peer := BitVec.ofNat 16 s.chip, core := h.core, svc := h.svc, tc := h.tc, rc := h.rc, msgid := h.msgid }

/-- A response leaves on its route, which prefers the half of the executor and takes entry c of the stream's sender (R255, R274); without a route or while
its path drains it waits here. -/
def State.sendReply (s : State) (h : Msg) (r : Reply) : State :=
  match s.routeTo h.src.toNat h.rc with
  | none => { s with heldReplies := s.heldReplies ++ [(h, r)] }
  | some route =>
    match s.choosePath (route.headD 0) h.half h.core.toNat with
    | some i =>
      if s.pathTakes i then s.enqueue i (messageFlits s.chip h.src.toNat h.core.toNat h.svc h.tc h.rc route (replyWire h r))
      else { s with heldReplies := s.heldReplies ++ [(h, r)] }
    | none => { s with heldReplies := s.heldReplies ++ [(h, r)] }

/-- Answer a message: the executor of its half forms the response and sends it. -/
def State.answer (s : State) (h : Msg) (r : Reply) : State := (s.emit (.reply (respTo s h) r)).sendReply h r

/-- Responses that waited for a route are sent. -/
def State.sendHeldReplies (s : State) : State :=
  s.heldReplies.foldl (fun t p => t.sendReply p.1 p.2) { s with heldReplies := [] }

/-- a is below e in serial-number arithmetic (R277). -/
def msgBelow (a e : BitVec 32) : Bool := decide (1 ≤ (e - a).toNat) && decide ((e - a).toNat ≤ 2 ^ 31)

/-- Streams that a half holds (R277). -/
def State.halfStreams (s : State) (half : Bool) : Nat := (s.inStreams.filter (fun x => x.half == half)).length

/-- The receiver's stream replaced or added. -/
def State.putStream (s : State) (x : InStream) : State :=
  { s with inStreams := x :: s.inStreams.filter (fun y => !(y.key == x.key && y.half == x.half)) }

/-- What carrying out a message comes to: its effect and reply; a failure without effect; a lasting fault of a memory-side adder, with its location; a wait
for the clearing of R228. -/
inductive Executed where
  | done (s : State) (r : Reply)
  | failed (s : State) (status : Nat)
  | lasting (s : State) (loc : Word)
  | wait

/-- A descriptor at a target without MXS: a message moves the elements of an MX tensor, not its scales (DESIGN CHOICE, log 78). -/
def plainDesc (d : Desc) : Desc := Desc.withFld d 57 1 0

/-- Some byte of a tensor lies in the scratchpad of an absent core (R276): its address does, or a malformed one's is all that counts. -/
def touchesAbsent (s : State) (d : Desc) : Bool :=
  let gone (a : Nat) : Bool := match scratchOwner a with | some k => !s.corePresent k | none => false
  gone d.base || ((Desc.fault (plainDesc d) 0 0).isNone && !d.empty && d.ranges.any (fun r => gone r.1 || gone (r.1 + r.2 - 1)))

/-- The status of a target range of the job (R276): 0 when it may be accessed. UNIT_ABSENT is tested before NO_WINDOW. -/
def targetStatus (s : State) (job : Word) (d : Desc) : Nat :=
  if touchesAbsent s d then 4
  else if (Desc.fault (plainDesc d) 0 0).isSome then 3
  else if d.empty then 0
  else
    match scratchOwner d.base with
    | some k =>
      match s.cores[k]? with
      | some c => if c.job == job && staysInRegion s job d then 0 else 3
      | none => 3
    | none => if hbmBase ≤ d.base ∧ staysInRegion s job d then 0 else 3

/-- The scratchpad that a descriptor names is being cleared (R228, R286). -/
def targetClearing (s : State) (d : Desc) : Bool :=
  match scratchOwner d.base with
  | some k => match s.cores[k]? with | some c => c.clearing | none => false
  | none => false

/-- The message is early, a duplicate, or its turn has come (R277). -/
inductive Turn where
  | early | duplicate | now
  deriving DecidableEq, Repr

/-- A message with NEW is a copy of one that the stream has executed, not a new beginning (R277, R278): its MSGID is below the expected one by no more
than a source keeps outstanding, and not below the beginning that the stream has seen (DESIGN CHOICE, log 79: R277 lets NEW set the expected MSGID, R278 lets no
copy take effect twice). -/
def newIsCopy (y : InStream) (h : Msg) : Bool :=
  msgBelow h.msgid y.expected && decide ((y.expected - h.msgid).toNat ≤ 64) && !msgBelow h.msgid y.begun

/-- The turn of a message in its stream; a stream that the receiver does not hold begins with NEW. -/
def turnOf (x : Option InStream) (h : Msg) : Turn :=
  match x with
  | none => if h.isNew then .now else .early
  | some y =>
    if h.isNew then (if newIsCopy y h then .duplicate else .now)
    else if h.msgid = y.expected then .now else if msgBelow h.msgid y.expected then .duplicate else .early

/-- The stream after a message of it has been executed: the next MSGID is expected, and of the AMO_OLD responses those at or above CACK are kept (R277). -/
def streamAfter (x : Option InStream) (h : Msg) (r : Reply) (now : Nat) : InStream :=
  let olds := (match x with | some y => y.olds | none => []).filter (fun o => !msgBelow o.1 h.cack)
  { key := streamOf h, half := h.half, expected := h.msgid + 1, resendDrawn := false, drawnAt := 0, last := now
    begun := match x with | some y => if h.isNew then h.msgid else y.begun | none => h.msgid
    olds := match r with | .amoOld v => (h.msgid, v) :: olds | _ => olds }

/-- The handling of every arriving message whose data and descriptor have the CRC-64 `crc` (R214, R273, R276, R277): `again` answers a duplicate, `effect`
carries the message out when its turn has come, `hold` keeps one that must wait for a clearing (R286). -/
def receiveMessage (s : State) (h : Msg) (crc : Word) (again : State → InStream → State) (effect : State → Executed) (hold : State → State) :
    State :=
  if h.crc ≠ crc then s.answer h (.resend h.msgid true)
  else
    let x := s.inStreams.find? (fun y => y.key == (streamOf h) && y.half == h.half)
    match turnOf x h, x with
    | .duplicate, some y => again (s.putStream { y with last := s.now }) y
    | .duplicate, none => s
    | .early, some y =>
      if y.resendDrawn then s
      else (s.putStream { y with resendDrawn := true, drawnAt := s.now, last := s.now }).answer h (.resend y.expected false)
    | .early, none => s
    | .now, x =>
      if (s.job? h.job).isNone then s.answer h (.fail 2)
      else
        match effect s with
        | .wait => hold s
        | .failed t st => t.answer h (.fail st)
        | .lasting t _ => t.answer h (.fail 6)
        | .done t r =>
          if x.isNone && decide (16384 ≤ s.halfStreams h.half) then s.answer h (.fail 10)
          else (t.putStream (streamAfter x h r s.now)).answer h r

/-- A duplicate whose answer is an ACK. -/
def againAck (h : Msg) (s : State) (_ : InStream) : State := s.answer h .ack

/-- What a PUT does at its target (R275, R276, R286). -/
def putEffect (h : Msg) (d : Desc) (data : List Byte) (s : State) : Executed :=
  match targetStatus s h.job d with
  | 0 => if targetClearing s d then .wait else .done (if d.empty then s else (s.touchStaging h.job d.ranges).putData d data) .ack
  | st => .failed s st

/-- The halt of a job for a message's read that delivers nothing (R235). -/
def State.messageHalt (s : State) (job : Word) (a : Nat) : State :=
  s.askHalt (memoryHalt job s.ft a (match sramOwner a, s.hbmPlace a with | none, some (k, _, _) => some k | _, _ => none))

/-- What a GET does at its target (R275, R276, R280): a read that meets a memory error fails with MEMORY, and the job that holds the
bytes halts (R235). -/
def getEffect (h : Msg) (d : Desc) (err : MemErr) (s : State) : Executed :=
  match targetStatus s h.job d with
  | 0 =>
    match (s.touchStaging h.job (if d.empty then [] else d.ranges)).readCheck err (if d.empty then [] else d.ranges) with
    | (t, none) => .done t (.getData (if d.empty then [] else t.tensorData d))
    | (t, some a) => .failed (t.messageHalt h.job a) 5
  | st => .failed s st

/-- What an AMO does at its target (R215, R237, R238, R276): one naturally aligned element in a window. A lasting fault of the adders names the core that the
header gives; it counts for that core when it is one of this chip (R217). -/
def amoEffect (h : Msg) (d : Desc) (op operand expected : Nat) (k : CheckOutcome) (err : MemErr) (s : State) : Executed :=
  let n := fmtBits d.fmt / 8
  let named := if h.svc then 0 else h.core.toNat
  match scratchOwner d.base with
  | some c => .failed s (if s.corePresent c then 3 else 4)
  | none =>
    if !(decide (hbmBase ≤ d.base) && s.hbmHeld h.job d.base n && d.base % n == 0) then .failed s 3
    else
      match atomicAt s (if !h.svc && h.src.toNat == s.chip then some named else none) h.job 5 0 d.fmt op [(d.base, operand)] expected k err named with
      | .applied t old => .done t (.amoOld (BitVec.ofNat 64 old))
      | .refused t => .failed t 6
      | .lasting t loc => .lasting t loc
      | .unread t a _ => .failed (t.messageHalt h.job a) 5

/-- The receive ring of a job (R279). -/
def Job.ring? (j : Job) (r : Nat) : Option RecvRing := j.rings.find? (fun x => x.ring == r)

/-- What a SEND does at its target (R279, R280): slot, producer index, notify xsem, in that order. The read of the ring's indices may meet a memory error
(R235). -/
def sendEffect (h : Msg) (ring : Nat) (data : List Byte) (err : MemErr) (s : State) : Executed :=
  match (s.job? h.job).bind (fun j => j.ring? ring) with
  | none => .failed s 7
  | some r =>
    match s.readCheck err [(r.base, 16)] with
    | (t, some a) => .failed (t.messageHalt h.job a) 5
    | (s, none) =>
      let prod := s.readNat r.base 8
      let cons := s.readNat (r.base + 8) 8
      if prod - cons = 2 ^ r.clog ∧ cons ≤ prod then .failed s 8
      else if 2 ^ r.slog - 32 < data.length then .failed s 9
      else
        let slot := r.base + 4096 + (prod % 2 ^ r.clog) * 2 ^ r.slog
        let head := bytesOfNat 2 h.src.toNat ++ [BitVec.ofNat 8 (h.core.toNat + (if h.svc then 32 else 0))] ++ bytesOfNat 5 0 ++
          bytesOfNat 8 data.length ++ bytesOfNat 4 h.msgid.toNat ++ bytesOfNat 12 0
        let t := (s.writeBytes slot (head ++ data)).writeNat r.base 8 (prod + 1)
        match (s.jobCores h.job)[r.coreRank]? with
        | some n => .done (if hn : n < 32 then t.signalCross ⟨n, hn⟩ r.xsem 1 .outside else t) .ack
        | none => .done t .ack

/-- What a SIGNAL does at its target (R65, R275, R276): address bits [12:8] name the core, [3:0] the xsem. -/
def signalEffect (h : Msg) (addr : BitVec 48) (inc : Nat) (s : State) : Executed :=
  let n := addr.toNat / 256 % 32
  if !s.corePresent n then .failed s 4
  else
    match s.cores[n]? with
    | none => .failed s 4
    | some c =>
      if c.job ≠ h.job then .failed s 2
      else if hn : n < 32 then .done (s.signalCross ⟨n, hn⟩ (addr.toNat % 16) inc .outside) .ack
      else .failed s 4

/-- A PUT whose scratchpad is being cleared is kept, once (R286). -/
def State.holdPut (s : State) (h : Msg) (desc : BitVec 256) (data : List Byte) : State :=
  if s.heldPuts.any (fun p => streamOf p.1 == streamOf h && p.1.half == h.half && p.1.msgid == h.msgid) then s
  else { s with heldPuts := s.heldPuts ++ [(h, desc, data)] }

/-- A PUT arrives, or its clearing is over. -/
def State.receivePut (s : State) (h : Msg) (desc : BitVec 256) (data : List Byte) : State :=
  receiveMessage s h (transferCrc data desc) (againAck h) (putEffect h desc data) (fun t => t.holdPut h desc data)

/-- PUTs that waited for a clearing are carried out; those whose scratchpad is still being cleared wait on (R228, R286). -/
def State.releasePuts (s : State) : State :=
  s.heldPuts.foldl (fun t p => t.receivePut p.1 p.2.1 p.2.2) { s with heldPuts := [] }

/-- PUT: the executor writes a PUT's data at the target and answers ACK (R275, R276). -/
def execPut (h : Msg) (desc : BitVec 256) (data : List Byte) (s : State) : Host.Outcome State Fault Refusal :=
  .next (s.receivePut h desc data)

/-- GET: the executor reads the target descriptor and returns GET_DATA; a duplicate reads again (R275 to R278). -/
def execGet (h : Msg) (desc : BitVec 256) (err : MemErr) (s : State) : Host.Outcome State Fault Refusal :=
  .next (receiveMessage s h (transferCrc [] desc) (fun t _ =>
    match getEffect h desc err t with
    | .done t r => t.answer h r
    | .failed t st => t.answer h (.fail st)
    | .lasting t _ => t
    | .wait => t) (getEffect h desc err) id)

/-- The operand bytes of an AMO: one element, or for compare-and-swap the expected value and the new one (R122). -/
def amoBytes (desc : BitVec 256) (aop operand expected : Nat) : List Byte :=
  packCodes (Desc.bits desc) (if aop = 4 then [expected, operand] else [operand])

/-- AMO: the executor performs one atomic operation and returns AMO_OLD; a duplicate is sent the kept one (R237, R275 to R277). -/
def execAmo (h : Msg) (desc : BitVec 256) (aop : BitVec 3) (operand expected : Word) (k : CheckOutcome) (err : MemErr) (s : State) :
    Host.Outcome State Fault Refusal :=
  .next (receiveMessage s h (transferCrc (amoBytes desc aop.toNat operand.toNat expected.toNat) desc) (fun t x =>
    match x.olds.find? (fun o => o.1 == h.msgid) with
    | some o => t.answer h (.amoOld o.2)
    | none => t) (amoEffect h desc aop.toNat operand.toNat expected.toNat k err) id)

/-- SEND: the executor writes a ring slot, advances the producer index and signals the notify semaphore (R279). -/
def execSend (h : Msg) (ring : BitVec 4) (data : List Byte) (err : MemErr) (s : State) : Host.Outcome State Fault Refusal :=
  .next (receiveMessage s h (transferCrc data 0) (againAck h) (sendEffect h ring.toNat data err) id)

/-- SIGNAL: the executor adds ARG to a cross-core semaphore of a core of the job (R275, R276). -/
def execSignal (h : Msg) (addr : BitVec 48) (inc : BitVec 32) (s : State) : Host.Outcome State Fault Refusal :=
  .next (receiveMessage s h (transferCrc [] (addr.zeroExtend 256)) (againAck h) (signalEffect h addr inc.toNat) id)

/-! ### Completion at the source (R61, R275) -/

/-- The stream that a response or a command of the receiver names. -/
def respStream (key : RespTo) : StreamKey := { core := key.core.toNat, svc := key.svc, peer := key.peer.toNat, tc := key.tc, rc := key.rc }

/-- The outstanding message that a response answers. -/
def State.outFor (s : State) (r : RespTo) : Option OutMsg :=
  s.outMsgs.find? (fun m => m.key == respStream r && m.msgid == r.msgid)

/-- A message of which a copy, or the response, failed its CRC has checked clean: the event was transient (R205, R214), a drill's is marked (R453). -/
def State.noteCrcRetry (s : State) (m : OutMsg) (pc : BitVec 48) : State :=
  if m.crcFailed then
    s.recordCheck { loc := locSimple 9 (if m.key.svc then 0 else m.key.core) m.key.peer, ft := s.ft, outcome := 0, drill := m.drill, cls := 5,
                    pc := pc, retryUs := 0, job := m.job, core := if m.key.svc then none else some m.key.core }
  else s

/-- A message is done: when it was the last of its instruction, the instruction completes (R61, R282). -/
def State.messageDone (s : State) (m : OutMsg) : State :=
  let s := { s with outMsgs := s.outMsgs.filter (fun x => !(x.key == m.key && x.msgid == m.msgid)) }
  if m.key.svc then s.noteCrcRetry m 0
  else if hn : m.key.core < 32 then
    let n : Fin 32 := ⟨m.key.core, hn⟩
    match (s.cores[n]).qComm.find? (fun e => e.seq == m.seq) with
    | none => s.noteCrcRetry m 0
    | some e =>
      let s := s.noteCrcRetry m e.pc
      if e.failed || s.outMsgs.any (fun x => !x.key.svc && x.key.core == m.key.core && x.seq == m.seq) then s
      else finishEntry s n .comm e
  else s

/-! ### The comm instructions (R122, R275, R282) -/

/-- The message instruction that the comm engine works on: the oldest entry not yet handed on, once started (R275, R298). -/
def Core.commWorking (c : Core) (op : Nat) : Option Entry :=
  match c.qComm.find? (fun e => e.progress == 0) with
  | some e => if e.started && !e.failed && wOp e.word == op then some e else none
  | none => none

/-- The chips that a global address names: the whole row or column for 0xFF in one coordinate (R249, R282). -/
def State.targets (s : State) (a : Word) : List Nat :=
  let x := a.field 55 48
  let y := a.field 63 56
  if x = 255 then (List.range s.gridX).map (fun i => chipAt i y)
  else if y = 255 then (List.range s.gridY).map (fun j => chipAt x j)
  else [chipAt x y]

/-- The target descriptor of a message instruction: dL with BASE the local address of ra (R273). -/
def targetDesc (e : Entry) : Desc := Desc.withFld e.d0.val 0 48 (e.ra.field 47 0)

/-- The wire header of a message, as its receiver sees it. -/
def OutMsg.head (m : OutMsg) (src : Nat) (half : Bool) (cack : BitVec 32) : Msg :=
  { src := BitVec.ofNat 16 src, core := BitVec.ofNat 5 m.key.core, svc := m.key.svc, tc := m.key.tc, rc := m.key.rc, half := half
    isNew := m.isNew, mc := m.mc, msgid := m.msgid, job := m.job, cack := cack, crc := transferCrc m.data m.desc }

/-- The address of the instruction that a message belongs to. -/
def State.messagePc (s : State) (m : OutMsg) : BitVec 48 :=
  match s.cores[m.key.core]? with
  | some c => match c.qComm.find? (fun e => e.seq == m.seq) with | some e => e.pc | none => 0
  | none => 0

/-- A core's message has ended in a lasting fault: its instruction leaves the comm queue and the core traps with CHECK_LASTING (R214 to R216). -/
def State.messageTraps (s : State) (m : OutMsg) (loc : Word) (pc : BitVec 48) : State :=
  if m.key.svc then s
  else if hn : m.key.core < 32 then
    let n : Fin 32 := ⟨m.key.core, hn⟩
    ((s.modCore n (fun c => c.retire .comm m.seq)).trap n [(.checkLasting, loc)] 5 pc).settle n
  else s

/-- An own-chip message waits: it is tried again 2 µs after it was put back (R277, R286). -/
def State.waitOut (s : State) (m : OutMsg) : State := s.putOut { m with retry := true, retryAt := s.now }

/-- A message to the own chip, carried out locally with the same semantics (R74, R276): after every earlier message of its stream (R272). The outcome of the
adders and what a read meets are the command's. -/
def State.loopback (s : State) (m : OutMsg) (k : CheckOutcome) (err : MemErr) : State :=
  let h := m.head s.chip m.key.half m.msgid
  if s.outMsgs.any (fun x => x.key == m.key && msgBelow x.msgid m.msgid) then s.waitOut m
  else
    let e : Executed := if (s.job? h.job).isNone then .failed s 2 else
      match m.mop with
      | 1 => putEffect h m.desc m.data s
      | 2 => getEffect h m.desc err s
      | 3 => amoEffect h m.desc m.aop (unpackCode (Desc.bits m.desc) m.data (if m.aop = 4 then 1 else 0)) (unpackCode (Desc.bits m.desc) m.data 0) k err s
      | 4 => sendEffect h m.ring m.data err s
      | _ => signalEffect h (m.addr.truncate 48) m.arg s
    match e with
    | .wait => s.waitOut m
    | .failed t st => if st = 8 then t.waitOut m else t.messageFails m st
    | .lasting t loc =>
      { t with outMsgs := t.outMsgs.filter (fun x => !(x.key == m.key && x.msgid == m.msgid)) }.messageTraps m loc (t.messagePc m)
    | .done t (.getData data) =>
      (if Desc.empty m.desc || m.key.svc then t else t.putData (Desc.withFld m.desc 0 48 m.arg) data).messageDone m
    | .done t (.amoOld old) => (t.putElem (Desc.withFld m.desc 0 48 m.arg) 0 0 old.toNat).messageDone m
    | .done t _ => t.messageDone m

/-- A message that has its place in its stream starts: carried out locally, failed at once when the chip is not on the grid, sent or held otherwise (R74,
R259). -/
def State.startMessage (s : State) (k : CheckOutcome) (err : MemErr) (m : OutMsg) : State :=
  if m.key.peer = s.chip then s.loopback m k err
  else if (s.reg Csr.fabId).bit 63 && !s.onGrid m.key.peer then s.messageFails m 1
  else if !(s.reg Csr.fabId).bit 63 then s.messageFails m 1
  else s.launch m

/-- New messages, each with its place in its stream, before any of them starts: an instruction completes when all of its messages are done (R282). -/
def State.newMessages (s : State) : List OutMsg → State × List OutMsg
  | [] => (s, [])
  | m :: t =>
    let (m, s) := s.newMessage m
    let (s, l) := s.newMessages t
    (s, m :: l)

/-- The target descriptor in a message's header: of a SEND none, of a SIGNAL the address alone (R273). -/
def headerDesc (op : Nat) (e : Entry) : Desc :=
  if op = 3 then 0 else if op = 4 then BitVec.ofNat 256 (e.ra.field 47 0) else targetDesc e

/-- Carry out a message instruction: one message to each chip that ra names. A receive ring number above 15 in rb counts modulo 16 (DESIGN CHOICE, log 80:
R122 gives rings 0 to 15). -/
def runMessage (n : Fin 32) (op mop : Nat) (s : State) (k : CheckOutcome) (err : MemErr) (data : State → Entry → List Byte) (arg : Entry → Nat) :
    Host.Outcome State Fault Refusal :=
  match (s.cores[n]).commWorking op with
  | none => .next s
  | some e =>
    let w := e.word
    let s' := s.modCore n (fun c => c.setQueue .comm (replaceEntry c.qComm { e with progress := 1 }))
    let chips := s.targets e.ra
    let bytes := data s e
    let make (chip : Nat) : OutMsg :=
      { key := { core := n.val, svc := false, peer := chip, tc := if w.bit 27 then 0 else 1, rc := w.bit 26 }
        msgid := 0, mop := mop, isNew := false, mc := decide (1 < chips.length), seq := e.seq, job := (s.cores[n]).job, addr := e.ra
        desc := headerDesc op e, aop := w.field 25 23, ring := e.rb.toNat % 16, arg := arg e, data := bytes
        since := s.now, route := [], hops := [], path := none, retry := false, retryAt := 0, crcFailed := false, drill := false, coll := none }
    let (s', l) := s'.newMessages (chips.map make)
    .next (l.foldl (fun t m => t.startMessage k err m) s')

/-- The local tensor's elements, none for an empty one (R71). -/
def localData (s : State) (e : Entry) : List Byte := if Desc.empty e.d0.val then [] else s.tensorData e.d0.val

/-- CM_PUT: writes dL to the global address (R275). -/
def execCmPut (n : Fin 32) (s : State) : Host.Outcome State Fault Refusal := runMessage n 0 1 s .ok .none localData (fun _ => 0)

/-- CM_GET: reads from the global address into dL (R275); the message remembers dL's BASE. What a read at the own chip meets is an operand (R235). -/
def execCmGet (n : Fin 32) (err : MemErr) (s : State) : Host.Outcome State Fault Refusal :=
  runMessage n 1 2 s .ok err (fun _ _ => []) (fun e => Desc.base e.d0.val)

/-- The operand elements of a remote atomic: one, or expected and new for compare-and-swap (R122). -/
def amoData (s : State) (e : Entry) : List Byte :=
  let d : Desc := e.d0.val
  packCodes d.bits (((positions d.rows d.cols).take (if e.word.field 25 23 = 4 then 2 else 1)).map (fun p => s.elem d p.1 p.2))

/-- CM_AMO: a remote atomic that returns the old value to element 0 of dL (R122, R275). At the own chip the outcome of the adders and what the read of
the old value meets are operands (R215, R235). -/
def execCmAmo (n : Fin 32) (k : CheckOutcome) (err : MemErr) (s : State) : Host.Outcome State Fault Refusal :=
  runMessage n 2 3 s k err amoData (fun e => Desc.base e.d0.val)

/-- CM_SEND: sends dL, packed in row-major order, into a receive ring of the chip (R275, R279). -/
def execCmSend (n : Fin 32) (err : MemErr) (s : State) : Host.Outcome State Fault Refusal := runMessage n 3 4 s .ok err localData (fun _ => 0)

/-- CM_SIGNAL: adds rb to an xsem of a core of the chip (R275). -/
def execCmSignal (n : Fin 32) (s : State) : Host.Outcome State Fault Refusal :=
  runMessage n 4 5 s .ok .none (fun _ _ => []) (fun e => e.rb.toNat)

/-! ### Resends, failures and timers -/

/-- Send again, on its current route (R270, R277). -/
def State.sendAgain (s : State) (m : OutMsg) : State :=
  let m := { m with retry := false }
  if m.key.peer = s.chip then (s.putOut m).loopback m .ok .none else s.launch m

/-- Outstanding messages of a stream from a MSGID on; they stand in MSGID order. -/
def State.fromMsgid (s : State) (key : StreamKey) (id : BitVec 32) : List OutMsg :=
  s.outMsgs.filter (fun m => m.key == key && !msgBelow m.msgid id)

/-- The second CRC failure of a message (R214, R216, R281): the sending core traps with UNIT 9, the path is reported. -/
def State.crcLasting (s : State) (m : OutMsg) : State :=
  let loc := locSimple 9 (if m.key.svc then 0 else m.key.core) m.key.peer
  let pc := s.messagePc m
  let s := s.recordCheck { loc := loc, ft := s.ft, outcome := 1, drill := false, cls := 5, pc := pc, retryUs := 0, job := m.job
                           core := if m.key.svc then none else some m.key.core }
  let s := match m.path with
    | some i => { s with crcTimes := (i, s.now) :: s.crcTimes }
    | none => s
  (s.messageFails m 15).messageTraps m loc pc

/-- A CRC of a message, or of its response, has failed: sent once more, on the same stream; a second failure is lasting (R214). -/
def State.crcFails (s : State) (m : OutMsg) (drill : Bool) : State :=
  if m.crcFailed then s.crcLasting m
  else
    let m := { m with crcFailed := true, drill := drill }
    (s.putOut m).sendAgain m

/-- Take in a response whose content has the CRC-64 of `r` and which arrived with `crc` (R214): a bad one, or one that a drill makes the comm engine find bad
(R453), is discarded and its message sent again; a good one has its effect. -/
def State.takeResponse (s : State) (dest : RespTo) (r : Reply) (crc : Word) (effect : OutMsg → State) : State :=
  match s.outFor dest with
  | none => s
  | some m =>
    if crc ≠ r.crc then s.crcFails m false
    else if !m.key.svc && !m.crcFailed && s.drillArmed 5 m.key.core false then ((s.drillDrop 5 m.key.core).drillFired 5).crcFails m true
    else effect m

/-- GET_DATA: the data is written into the local tensor and the get completes (R275); a service core's get serves its restore, which writes the bytes once
they are checked (R368). -/
def execGetData (r : RespTo) (data : List Byte) (crc : Word) (s : State) : Host.Outcome State Fault Refusal :=
  .next (s.takeResponse r (.getData data) crc (fun m =>
    if m.mop = 2 then
      (if Desc.empty m.desc || m.key.svc then s else s.putData (Desc.withFld m.desc 0 48 m.arg) data).messageDone m
    else s))

/-- AMO_OLD: the old value is written into element 0 of the local tensor and the atomic completes (R275). -/
def execAmoOld (r : RespTo) (old : Word) (crc : Word) (s : State) : Host.Outcome State Fault Refusal :=
  .next (s.takeResponse r (.amoOld old) crc (fun m =>
    if m.mop = 3 then (s.putElem (Desc.withFld m.desc 0 48 m.arg) 0 0 old.toNat).messageDone m else s))

/-- RESEND: the source sends again every message of the stream from the named MSGID that is not acknowledged; a message whose CRC failed is sent once more,
and a second failure is lasting (R214, R277). -/
def execResend (r : RespTo) (expected : BitVec 32) (failed : Bool) (crc : Word) (s : State) : Host.Outcome State Fault Refusal :=
  .next (s.takeResponse r (.resend expected failed) crc (fun m =>
    if failed then s.crcFails m false else (s.fromMsgid m.key expected).foldl (fun t x => t.sendAgain x) s))

/-- FAIL: RING_FULL and BUSY are tried again, every other status is final (R280). -/
def execFail (r : RespTo) (status : BitVec 4) (crc : Word) (s : State) : Host.Outcome State Fault Refusal :=
  .next (s.takeResponse r (.fail status.toNat) crc (fun m =>
    if status = 8 ∨ status = 10 then s.waitOut m else s.messageFails m status.toNat))

/-- RESEND_HOLDOFF_EXPIRY: 100 µs after a RESEND the next early message of a stream may draw a new one (R277). -/
def execResendHoldoffExpiry (key : RespTo) (half : Bool) (s : State) : Host.Outcome State Fault Refusal :=
  .next { s with inStreams := s.inStreams.map (fun x =>
    if x.key = respStream key ∧ x.half = half ∧ x.drawnAt + 100000 ≤ s.now then { x with resendDrawn := false } else x) }

/-- MESSAGE_RETRY_TIMER: a message answered RING_FULL or BUSY is sent again after 2 µs (R277, R279). -/
def execMessageRetryTimer (r : RespTo) (s : State) : Host.Outcome State Fault Refusal :=
  match s.outFor r with
  | some m => if m.retry ∧ m.retryAt + 2000 ≤ s.now then .next (s.sendAgain m) else .next s
  | none => .next s

/-- STREAM_RELEASE: a receiver's stream with nothing outstanding for 2 s leaves the table (R277). -/
def execStreamRelease (key : RespTo) (half : Bool) (s : State) : Host.Outcome State Fault Refusal :=
  .next { s with inStreams := s.inStreams.filter (fun x =>
    !(x.key == respStream key && x.half == half && decide (x.last + 2000000000 ≤ s.now) &&
      !s.heldPuts.any (fun p => streamOf p.1 == x.key && p.1.half == x.half))) }

/-- MESSAGE_TIMEOUT: a message not completed within MSGTO fails with TIMEOUT, or with UNREACHABLE when it has no route (R259, R281). Records and chunks have the
timeout of their collective instead (R304). -/
def execMessageTimeout (r : RespTo) (s : State) : Host.Outcome State Fault Refusal :=
  match s.outFor r with
  | none => .next s
  | some m =>
    if m.coll.isNone ∧ max 1 (s.fld Csr.fabCtl 47 32) * 1000000 ≤ s.now - m.since then
      .next (s.messageFails m (if m.route.isEmpty && m.key.peer != s.chip then 1 else 14))
    else .next s

/-- The route of a message has lost its use: a path that one of its hops takes is usable no more (R258, R270). -/
def State.routeLost (s : State) (m : OutMsg) : Bool := !m.route.isEmpty && !s.hopsHold (s.chip :: m.route) m.hops

/-- Messages of the streams of some messages, in MSGID order within each, sent again. -/
def State.resendStreams (s : State) (keys : List StreamKey) : State :=
  keys.eraseDups.foldl (fun t k =>
    match t.outMsgs.find? (fun m => m.key == k) with
    | some m => (t.fromMsgid k m.msgid).foldl (fun u x => u.sendAgain x) t
    | none => t) s

/-- ROUTE_CHANGE_RESEND: each source whose route crossed a failed path sends every unacknowledged message of the affected streams again
on its new route (R270). -/
def execRouteChangeResend (s : State) : Host.Outcome State Fault Refusal :=
  let keys := (s.outMsgs.filter (fun m => s.routeLost m)).map (fun m => m.key)
  if keys.isEmpty then .next s else .next ((s.raise 0x32 []).resendStreams keys)

/-- Path states have changed: responses and streams that wait for a route are sent where they have one, and buffered flits go on (R255, R259). -/
def State.routesChanged (s : State) : State :=
  let held := (s.outMsgs.filter (fun m => m.route.isEmpty && m.key.peer != s.chip && (s.routeTo m.key.peer m.key.rc).isSome)).map (fun m => m.key)
  (s.sendHeldReplies.resendStreams held).forwardAll

end Sys2Proof.Machine
end

