-- ==== Sys2Proof/Machine/Links.lean ====
section
/-! DEFINITION. The commands of the link layer: flits, resends, planned changes and their drains, path states and keys (spec/09 R260 to R271, R281, R286,
11 R329, R333). -/

namespace Sys2Proof.Machine

/-! ### Planned changes (R271, R281) -/

/-- Messages that leave on a path which has drained for a planned change take their new routes, with event 0x32; nothing of them is resent (R271). -/
def State.rerouteFrom (s : State) (i : Nat) : State :=
  let ms := s.outMsgs.filter (fun m => m.path == some i)
  if ms.isEmpty then s else (ms.foldl (fun t m => t.putOut (t.routed m)) s).raise 0x32 []

/-- A path of a route that ended in CRC_LASTING has drained: its lane relocks; after two such failures within 1 h it is held DOWN until the next boot
(R281). -/
def State.retrainPath (s : State) (i : Nat) : State :=
  let recent := s.crcTimes.filter (fun p => p.1 == i && decide (s.now < p.2 + 3600000000000))
  if 2 ≤ recent.length then { s with heldDown := insertRising i s.heldDown }.pathGoesDown i
  else
    let s := (s.setFld (Csr.fabPath i) 63 60 pathTraining).modLink i (fun l => { l with draining := false, change := none })
    (s.beginLock i).syncHull

/-- A path has drained for its planned change (R271): routes change, and so does its state; a path that a swap, or a peer's, has drained stays out of use
until that ends. -/
def State.settleDrain (s : State) (i : Nat) : State :=
  let s := match (s.links[i]?).bind (fun l => l.change) with
    | none => s
    | some .retrain => s.retrainPath i
    | some (.settle w) => (s.setReg (Csr.fabPath i) w).modLink i (fun l => { l with draining := false, change := none })
  (s.rerouteFrom i).broadcastStates

/-- Path i is UP and has drained for a planned change. -/
def State.drainedOut (s : State) (i : Nat) : Bool := s.pathState i == pathUp && !s.pathInUse i

/-- Paths that a command has brought to the end of their drain, or that began it with nothing to drain. -/
def State.settleDrains (before s : State) : State :=
  let l := (List.range 128).filter (fun i => s.drainedOut i && !before.drainedOut i)
  if l.isEmpty then s else (l.foldl State.settleDrain s).routesChanged

/-- PATH_RETRAIN: a path of a route that ended in CRC_LASTING stops taking flits and drains, before it relocks and repeats discovery (R271, R281). -/
def execPathRetrain (i : Fin 128) (s : State) : Host.Outcome State Fault Refusal :=
  let recent := s.crcTimes.filter (fun p => p.1 == i.val && decide (s.now < p.2 + 3600000000000))
  if recent.isEmpty ∨ !s.pathTakes i.val then .next s
  else .next (s.settleDrains (s.beginDrain i.val (some .retrain)))

/-! ### Flits (R255, R263 to R268) -/

/-- FLIT_RECEIVE: a flit arrives on path i's receiver, sealed under the flit counter `count` of its sender: a bad CRC-32C or tag is answered with NAK, an
in-order flit for which there is room is acknowledged, its control fields are taken in, and a flit for another chip is forwarded (R255, R263 to R268). A path
that carries no traffic takes none (R283). A drill makes one good CRC count as bad (R453). What the flits say to this chip arrives as the message's own
command. -/
def execFlitReceive (i : Fin 128) (f : FlitRef) (count : BitVec 64) (s : State) : Host.Outcome State Fault Refusal :=
  if !s.pathReceives i.val then .next s
  else if !flitCrcGood f then .next (s.flitRejected i.val)
  else if s.drillArmed 9 i.val false then .next ((s.drillInject 9 i.val).flitRejected i.val)
  else
    let t := if s.drillArmed 9 i.val true then (s.drillDrop 9 i.val).drillPass 9 else s
    let l := t.links[i]
    let epoch := l.epochOf f.hdr
    if !flitTagGood f l.rxSecret epoch count then .next (t.flitTagFails i.val)
    else
      let t := (t.modLink i.val (fun l => l.countEpoch epoch)).flitTaken i.val (flitOpened f l.rxSecret epoch count)
      .next (s.settleDrains t.forwardAll)

/-- ACK_TIMEOUT: the ACK of a path has not advanced for 8 µs: resend from the oldest unacknowledged flit (R256, R265). -/
def execAckTimeout (i : Fin 128) (s : State) : Host.Outcome State Fault Refusal :=
  if s.pathUsable i.val then .next (s.goBack i.val) else .next s

/-- PATH_DOWN: an UP or training path is taken DOWN for a cause of R265 (R270); four tag failures raise 0x3A too. -/
def execPathDown (i : Fin 128) (cause : PathCause) (s : State) : Host.Outcome State Fault Refusal :=
  if s.pathState i.val = pathUp ∨ s.pathState i.val = pathTraining then
    let s := if cause = .tagFailures then s.raise 0x3A [BitVec.ofNat 64 i.val] else s
    .next (s.pathGoesDown i.val)
  else .next s

/-- Bits of the slot number of R261: a flit starts every 10.24 ns. -/
def flitSlot (now : Nat) : Nat := now * 100 / 1024

/-- Every UP path sends an idle flit in a slot that has no data (R261, R266): with its control for the receivers that it serves, in turn. -/
def State.idleFlits (s : State) : State :=
  (List.range 128).foldl (fun (t : State) i =>
    if t.pathState i = pathUp then t.sendIdle i (t.controlOn i (flitSlot t.now)) else t) s

/-! ### Path states (R259, R260, R270, R329, R333) -/

/-- PATH_STATE_BROADCAST: every 1 ms the path states go to the row and the column (R260). -/
def execPathStateBroadcast (s : State) : Host.Outcome State Fault Refusal := .next s.broadcastStates

/-- Bit of a path in a mask of effective offsets. -/
def offsetBit (y : Bool) (o : Nat) : Nat := (if y then 64 else 0) + o - 1

/-- Path i of this chip is one that a planned change at another chip takes out of use (R329): its light arrives there at an offset of the mask, or its companion
leaves there at one. -/
def State.leavesWith (s : State) (chip : Nat) (leaving : BitVec 128) (i : Nat) : Bool :=
  let y := decide (64 ≤ i)
  let n := s.dimSize y
  let o := s.fld (Csr.fabPath i) 7 0
  s.pathState i == pathUp && s.peerAt y o == chip &&
  (leaving.getLsbD (offsetBit y o) || match companionOf n (o % n) o with | some r => leaving.getLsbD (offsetBit y r) | none => false)

/-- A swap of this chip holds path i. -/
def State.heldBySwap (s : State) (i : Nat) : Bool :=
  s.hull.swaps.toList.any (fun w => match w with | some x => x.paths.contains i | none => false)

/-- A planned-change notice of a chip: this chip drains its side of the paths concerned, and takes them again when the notice has ended (R271, R333). -/
def State.takeNotice (s : State) (chip : Nat) (leaving : BitVec 128) : State :=
  (List.range 128).foldl (fun (t : State) i =>
    match t.links[i]? with
    | none => t
    | some l =>
      let mine := l.change.isSome || t.heldBySwap i
      if mine || t.pathState i != pathUp || t.peerAt (decide (64 ≤ i)) (t.fld (Csr.fabPath i) 7 0) != chip then t
      else t.modLink i (fun l => { l with draining := t.leavesWith chip leaving i })) s

/-- Forward paths whose companion has failed are no longer usable: their flits are dropped (R256, R270). -/
def State.dropUnusable (before s : State) : State :=
  ((List.range 128).filter (fun i => before.pathUsable i && !s.pathUsable i)).foldl State.dropFlits s

/-- PATH_STATE_RECEIVE: a chip of the row or column reports its paths, and those that a planned change of its takes out of use: routes are derived again, and
held streams are sent (R259, R260, R270, R271, R333). -/
def execPathStateReceive (chip : BitVec 16) (usable leaving : BitVec 128) (s : State) : Host.Outcome State Fault Refusal :=
  let t := { s with known := (chip.toNat, usable) :: s.known.filter (fun p => p.1 != chip.toNat) }
  .next (s.settleDrains ((s.dropUnusable t).takeNotice chip.toNat leaving).routesChanged)

/-! ### Keys (R264) -/

/-- KEY_EPOCH_CHANGE: after 2^32 flits the sender of a path moves to the next epoch and flips EP (R264). -/
def execKeyEpochChange (i : Fin 128) (s : State) : Host.Outcome State Fault Refusal :=
  if s.pathState i.val = pathUp ∧ 2 ^ 32 ≤ (s.links[i]).epochSent then
    .next (s.modLink i.val (fun l => { l with epoch := l.epoch + 1, epochSent := 0 }))
  else .next s

/-- PREVIOUS_KEY_DISCARD: 2^16 flits after the flip the receiver drops the previous key (R264). -/
def execPreviousKeyDiscard (i : Fin 128) (s : State) : Host.Outcome State Fault Refusal :=
  if (s.links[i]).rxPrevKey ∧ 2 ^ 16 ≤ (s.links[i]).rxSince then
    .next (s.modLink i.val (fun l => { l with rxPrevKey := false, rxSince := 0 }))
  else .next s

end Sys2Proof.Machine
end

