-- ==== Sys2Proof/Machine/Discovery.lean ====
section
/-! DEFINITION. Discovery against the wiring plan (spec/09 R250, R251, R254, R259, R264, R271, R283 to R285). -/

namespace Sys2Proof.Machine

/-! ### What the plan expects (R250, R252) -/

/-- The chip that plane π at wavelength k brings to this chip's receiver, and the one its transmitter reaches (R252). -/
def State.planeHears (s : State) (y : Bool) (plane k : Nat) : Nat :=
  let n := s.dimSize y
  let o := 8 * plane + k + 1
  if y then chipAt (chipX s.chip) ((chipY s.chip + 64 * n - o) % n) else chipAt ((chipX s.chip + 64 * n - o) % n) (chipY s.chip)

def State.planeReaches (s : State) (y : Bool) (plane k : Nat) : Nat := s.peerAt y (8 * plane + k + 1)

/-- What is heard at wavelength k is what a plane brings. -/
def State.hearsAs (s : State) (y : Bool) (plane k : Nat) (f : PathFinding) : Bool := f.heard == some (BitVec.ofNat 16 (s.planeHears y plane k))

/-- Whom the transmitter of wavelength k reaches is whom a plane leads to. -/
def State.reachesAs (s : State) (y : Bool) (plane k : Nat) (f : PathFinding) : Bool := f.reached == some (BitVec.ofNat 16 (s.planeReaches y plane k))

/-- One wavelength fits a plane: what is heard, and what the transmitter reaches. -/
def State.fitsAt (s : State) (y : Bool) (plane k : Nat) (f : PathFinding) : Bool := s.hearsAs y plane k f && s.reachesAs y plane k f

/-- All eight wavelengths of a port fit a plane, transmit and receive (R284). -/
def State.fitsPlane (s : State) (y : Bool) (plane : Nat) (fs : List PathFinding) : Bool :=
  (fs.zipIdx).all (fun p => s.fitsAt y plane p.2 p.1)

/-- The plane that port p of a dimension serves, by its findings: its own when they fit it. -/
def State.portPlane (s : State) (y : Bool) (p : Nat) (fs : List PathFinding) : Option Nat :=
  if s.fitsPlane y p fs then some p else (List.range 8).find? (fun plane => s.fitsPlane y plane fs)

/-- Something is heard on a port. -/
def portHears (fs : List PathFinding) : Bool := fs.any (fun f => f.heard.isSome)

/-- A whole-port permutation of a dimension (R284): every port that hears anything fits one plane with all eight wavelengths, and no two the same. -/
def State.permutation (s : State) (y : Bool) : Bool :=
  let planes := (List.range 8).filterMap (fun p =>
    match (s.portFinds[(if y then 8 else 0) + p]?).join with
    | some fs => if portHears fs.toList then some (s.portPlane y p fs.toList) else none
    | none => none)
  planes.all (fun x => x.isSome) && decide planes.Nodup

/-- The identity of a planned peer matches its entry (R250, R283). -/
def State.identityFits (s : State) (chip : Nat) (f : PathFinding) : Bool :=
  f.genuine &&
  match s.plan with
  | some p => p.entries.all (fun e => e.1 != chip || e.2 == 0 || e.2 == f.idHash)
  | none => true

/-! ### Outcomes of one path (R283) -/

/-- FAB_PATH of a path after discovery (R288). -/
def pathWord (st fpl : Nat) (f : PathFinding) (o : Nat) : Word :=
  Word.place st 4 60 ||| Word.place fpl 8 52 ||| Word.place ((f.reached.getD 0).toNat) 16 32 ||| Word.place ((f.heard.getD 0).toNat) 16 16 |||
    Word.place o 8 0

/-- The path register after discovery. -/
def State.setPath (s : State) (i st fpl : Nat) (f : PathFinding) (o : Nat) : State := s.setReg (Csr.fabPath i) (pathWord st fpl f o)

/-- A quarantine or a hold for level mismatch: a path that is UP drains first (R271). -/
def State.settlePath (s : State) (i : Nat) (w : Word) : State :=
  if s.pathState i = pathUp then s.beginDrain i (some (.settle w)) else s.setReg (Csr.fabPath i) w

/-- A secret of key agreement (R264): two chips have it and nothing else does. -/
def freeSecret (k : Nat) : BitVec 256 := Config.freeWord k ++ Config.freeWord (k + 1) ++ Config.freeWord (k + 2) ++ Config.freeWord (k + 3)

/-- A link after key agreement: it starts again in epoch 0 with fresh keys; what its receiver holds for other chips stays. -/
def Link.renewed (l : Link) (secret rxSecret : BitVec 256) : Link :=
  { Link.idle with rxBuffer := l.rxBuffer, rxEscape := l.rxEscape, rxXoff := l.rxXoff, secret := secret, rxSecret := rxSecret }

/-- Key agreement on a path (R264). -/
def State.freshKeys (s : State) (i : Nat) : State :=
  { s.modLink i (fun l => l.renewed (freeSecret s.fresh) (freeSecret (s.fresh + 4))) with fresh := s.fresh + 8 }

/-- A path comes UP with fresh key agreement (R264, R283). -/
def State.pathComesUp (s : State) (i fpl : Nat) (f : PathFinding) (o : Nat) : State :=
  let s := (s.setPath i pathUp fpl f o).freshKeys i
  let own := s.fld Csr.fabLvl 7 0
  let s := if f.fpl < own then s.raise 0x37 [BitVec.ofNat 64 i] else s
  s.raise 0x30 [BitVec.ofNat 64 i]

/-- Nothing is heard, or nobody reports this transmitter's light: the planned peer is absent, or has no such port (R254, R283); event 0x33 as the path
becomes MISSING. -/
def State.pathMisses (s : State) (i : Nat) (f : PathFinding) (o : Nat) : State :=
  let was := s.pathState i
  let s := if was = pathUp then s.pathGoesDown i else s
  let s := s.setPath i pathMissing 0 f o
  if was = pathMissing then s else s.raise 0x33 [BitVec.ofNat 64 i]

/-- The outcome of one path whose port serves a plane (the table of R283); a path that is UP and fits stays as it is. -/
def State.discoverPath (s : State) (i plane k : Nat) (f : PathFinding) : State :=
  let y := decide (64 ≤ i)
  let o := 8 * plane + k + 1
  let own := s.fld Csr.fabLvl 7 0
  let diff := (own - f.fpl) + (f.fpl - own)
  if s.laneState i = laneDark then s.setPath i pathDark 0 f o
  else if o % s.dimSize y = 0 then s.setPath i pathSelf own f o
  else if s.heldDown.contains i then s.setPath i pathDownSt 0 f o
  else if f.heard.isNone ∨ f.reached.isNone then s.pathMisses i f o
  else if !(s.fitsAt y plane k f && s.identityFits (s.planeReaches y plane k) f) then
    (s.settlePath i (pathWord pathQuarantined 0 f o)).raise 0x34 [BitVec.ofNat 64 i]
  else if 2 < diff then (s.settlePath i (pathWord pathIncompatible 0 f o)).raise 0x38 [BitVec.ofNat 64 i]
  else if s.pathState i = pathUp then s
  else s.pathComesUp i (min own f.fpl) f o

/-! ### Outcomes of a port (R283, R284) -/

/-- Every path of a port gets a state, without traffic. -/
def State.portState (s : State) (port st : Nat) (fs : List PathFinding) : State :=
  (fs.zipIdx).foldl (fun t p => t.settlePath (8 * port + p.2) (pathWord st 0 p.1 (8 * (port % 8) + p.2 + 1))) s

/-- FAB_PORTMAP field of a port. -/
def State.setPortMap (s : State) (port v : Nat) : State := s.setFld Csr.fabPortMap (4 * port + 3) (4 * port) v

/-- A port is quarantined, with an event (R283). -/
def State.quarantinePort (s : State) (port code : Nat) (fs : List PathFinding) : State :=
  ((s.portState port pathQuarantined fs).setPortMap port 0xF).raise code [BitVec.ofNat 64 port]

/-- A chip lies in the other dimension's line of this chip: a port of dimension y that meets it is wired to a plane of the wrong dimension. -/
def State.otherLine (s : State) (y : Bool) (c : Option (BitVec 16)) : Bool :=
  match c with
  | some h =>
    if y then chipY h.toNat == chipY s.chip && h.toNat != s.chip && s.gridX != 1
    else chipX h.toNat == chipX s.chip && h.toNat != s.chip && s.gridY != 1
  | none => false

/-- Some wavelength of a port fits another plane than the port's own, in what it hears or in whom it reaches (R283). -/
def State.mixedPort (s : State) (y : Bool) (p : Nat) (fs : List PathFinding) : Bool :=
  (fs.zipIdx).any (fun x => (List.range 8).any (fun plane => plane != p &&
    ((s.hearsAs y plane x.2 x.1 && !s.hearsAs y p x.2 x.1) || (s.reachesAs y plane x.2 x.1 && !s.reachesAs y p x.2 x.1))))

/-- Discovery of one port from the findings of its eight wavelengths (R283, R284). -/
def State.discoverPort (s : State) (port : Nat) (fs : List PathFinding) : State :=
  let y := decide (8 ≤ port)
  let p := port % 8
  let run (s : State) (plane : Nat) : State :=
    (fs.zipIdx).foldl (fun t x => t.discoverPath (8 * port + x.2) plane x.2 x.1) (s.setPortMap port plane)
  if !portPresent s.part.variant port then (s.portState port pathAbsent fs).setPortMap port 0xF
  else if !(s.reg Csr.fabId).bit 63 then s.quarantinePort port 0x3C fs
  else if !portHears fs || s.fitsPlane y p fs then run s p
  else
    match s.portPlane y p fs with
    | some plane =>
      if (s.reg Csr.fabLvl).bit 16 && s.permutation y then (run s plane).raise 0x35 [BitVec.ofNat 64 port]
      else s.quarantinePort port 0x36 fs
    | none =>
      if fs.any (fun f => s.otherLine y f.heard || s.otherLine y f.reached) || s.mixedPort y p fs then s.quarantinePort port 0x36 fs
      else run s p

/-! ### Commands -/

/-- DISCOVERY: a port that the hull reports locked runs discovery and key agreement, and its paths are compared with the plan (R283
to R285); the change of states is sent, and routes are derived again (R259, R260). -/
def execDiscovery (port : Fin 16) (fs : Vector PathFinding 8) (s : State) : Host.Outcome State Fault Refusal :=
  if s.portLocked port.val then
    let t : State := { s with portFinds := s.portFinds.set port (some fs) }
    .next (s.settleDrains (t.discoverPort port.val fs.toList).broadcastStates).routesChanged
  else .next s

/-- MISSING_PEER_RECHECK: a MISSING path is compared with the plan again (R283). -/
def execMissingPeerRecheck (i : Fin 128) (f : PathFinding) (s : State) : Host.Outcome State Fault Refusal :=
  if s.pathState i.val = pathMissing ∧ f.heard.isSome ∧ f.reached.isSome then
    let o := s.fld (Csr.fabPath i.val) 7 0
    .next ((s.discoverPath i.val ((o - 1) / 8) (i.val % 8) f).broadcastStates).routesChanged
  else .next s

end Sys2Proof.Machine
end

