-- ==== Sys2Proof/Machine/Groups.lean ====
section
/-! DEFINITION. Groups: definitions, local checks, JOIN records, creation and its failures, the registers of a slot, release (spec/10
R289 to R293, R309). -/

namespace Sys2Proof.Machine

/-! ### Geometry (R289) -/

/-- Columns and rows of a BLOCK. -/
def blockNx (g : GroupDef) : Nat := (g.x1 - g.x0) / g.sx + 1
def blockNy (g : GroupDef) : Nat := (g.y1 - g.y0) / g.sy + 1

/-- The group spans both dimensions. -/
def twoDim (g : GroupDef) : Bool := g.kind == 2 && decide (1 < blockNx g) && decide (1 < blockNy g)

/-- Set bits of CMASK. -/
def maskRanks (g : GroupDef) : List Nat := (List.range 32).filter (fun k => g.cmask.getLsbD k)

/-- P, the number of members. -/
def State.groupP (s : State) (g : GroupDef) : Nat :=
  match g.kind with
  | 0 => s.gridX
  | 1 => s.gridY
  | 2 => blockNx g * blockNy g
  | _ => (maskRanks g).length

/-- The chip of rank r of a chip group. -/
def State.rankChip (s : State) (g : GroupDef) (r : Nat) : Nat :=
  match g.kind with
  | 0 => chipAt r (chipY s.chip)
  | 1 => chipAt (chipX s.chip) r
  | _ => chipAt (g.x0 + r % blockNx g * g.sx) (g.y0 + r / blockNx g * g.sy)

/-- This chip's rank in a chip group, none when it is no member. -/
def State.chipRank (s : State) (g : GroupDef) : Option Nat :=
  (List.range (s.groupP g)).find? (fun r => s.rankChip g r == s.chip)

/-! ### Local checks (R291, R292) -/

/-- Every field of the definition is in range and its members lie on the grid and in the job (reason BAD_DEF of R292). -/
def State.defLegal (s : State) (job : Word) (g : GroupDef) : Bool :=
  let cores := (s.jobCores job).length
  let block := decide (1 ≤ g.sx) && decide (g.sx ≤ 64) && decide (1 ≤ g.sy) && decide (g.sy ≤ 64) && decide (g.x0 ≤ g.x1) &&
    decide (g.y0 ≤ g.y1) && decide (g.x1 < s.gridX) && decide (g.y1 < s.gridY)
  !g.reserved && decide (g.kind ≤ 3) && decide (g.grp < 64) &&
  (if g.kind = 3 then decide (g.core = 0) && !(maskRanks g).isEmpty && (maskRanks g).all (fun k => decide (k < cores))
   else (s.reg Csr.fabId).bit 63 && decide (g.core < cores) && (g.kind != 2 || block) && (s.chipRank g).isSome)

/-- A staging area lies in the scratchpad of one of these cores or in a window of the job, and is large enough (R291). -/
def State.stageLegal (s : State) (job : Word) (g : GroupDef) : Bool :=
  let p := s.groupP g
  let p' := if twoDim g then max (blockNx g) (blockNy g) else p
  let need := if g.kind = 3 then p * 2 * (p + 2) * 0x4000 else 2 * (p' + 2) * 0x4000
  let size := g.stgsz * 0x1_0000
  let owners := (if g.kind = 3 then maskRanks g else [g.core]).filterMap (fun r => (s.jobCores job)[r]?)
  decide (need ≤ size) &&
  (owners.any (fun n => decide (scratchBase n ≤ g.stage) && decide (g.stage + size ≤ scratchBase n + scratchSize)) ||
   match s.job? job with
   | some j => j.inWindow g.stage size
   | none => false)

/-- The lowest absent port of a dimension that the group spans, when this part has none of that dimension. -/
def State.portMissing (s : State) (g : GroupDef) : Option Nat :=
  let none' (y : Bool) : Bool := (List.range 8).all (fun p => !portPresent s.part.variant ((if y then 8 else 0) + p))
  let needX := g.kind != 3 && (g.kind == 0 || (g.kind == 2 && decide (1 < blockNx g)) || s.part.variant == .n)
  let needY := g.kind == 1 || (g.kind == 2 && decide (1 < blockNy g))
  if needX && none' false then some 0 else if needY && none' true then some 8 else none

/-- A job's descriptor defines a slot twice. -/
def State.definedTwice (s : State) (job : Word) (grp : Nat) : Bool :=
  match s.job? job with
  | some j => decide (2 ≤ (j.groups.filter (fun d => d.grp == grp)).length)
  | none => false

/-- The first reason of R292 that the local checks find, with what its report lists; 0 for none. -/
def State.localReason (s : State) (job : Word) (g : GroupDef) : Nat × List Nat :=
  match s.portMissing g with
  | some p => (1, [p])
  | none =>
    if !s.defLegal job g then (2, [])
    else if !s.stageLegal job g then (3, [])
    else if (s.groups.toList.getD g.grp none).isSome || s.definedTwice job g.grp then (4, [])
    else (0, [])

/-- Definition bytes 0 to 23 (R290). -/
def defBytes (g : GroupDef) : List Byte :=
  [BitVec.ofNat 8 g.grp, BitVec.ofNat 8 g.kind, BitVec.ofNat 8 g.core, 0, BitVec.ofNat 8 g.x0, BitVec.ofNat 8 g.x1, BitVec.ofNat 8 g.sx,
   BitVec.ofNat 8 g.y0, BitVec.ofNat 8 g.y1, BitVec.ofNat 8 g.sy, 0, 0] ++ bytesOfNat 4 g.timeout ++ bytesOfNat 4 g.cmask.toNat ++
  bytesOfNat 4 0

/-! ### The registers of a slot (R309) -/

/-- The registers of a slot clear when a group is created in it. -/
def State.clearSlot (s : State) (i : Nat) : State :=
  [0, 8, 0x10, 0x18, 0x20, 0x28].foldl (fun (t : State) o => t.setReg (Csr.clGrp i o) 0) s

/-- The group of a slot. -/
def State.group? (s : State) (i : Nat) : Option Group := (s.groups[i]?).join

/-- The staging area of a group that could run collectives holds undefined bytes once the group has stopped or is gone (R291, R305). -/
def State.loseStaging (s : State) (g : Group) : State :=
  if g.phase = .ready then s.freeOverlap [stagingOf g.gdef] [stagingOf g.gdef] else s

/-- A slot becomes free: STATE returns to FREE and the other registers keep their values (R292, R309). -/
def State.releaseSlot (s : State) (i : Nat) : State :=
  { s with groups := s.groups.setIfInBounds i none }.setFld (Csr.clGrp i 0) 63 61 0

/-- The groups of a job are released when it ends on this member (R292). -/
def State.releaseGroups (s : State) (job : Word) : State :=
  (List.range 64).foldl (fun (t : State) i =>
    match t.group? i with
    | some g => if g.job = job then (t.loseStaging g).releaseSlot i else t
    | none => t) s

/-- The creation of a group has failed: the slot is free, the job's report is kept and event 0x81 is raised (R292). -/
def State.failGroup (s : State) (job : Word) (i reason : Nat) (ranks : List Nat) (held : Bool) : State :=
  let s := if held then s.releaseSlot i else s
  let s := { s with groupFails := s.groupFails ++ [(job, i, reason, ranks)] }
  s.raiseJob 0x81 job [BitVec.ofNat 64 i, BitVec.ofNat 64 reason]

/-! ### Creation (R292) -/

/-- The members of a group on this device, by rank. -/
def State.membersHere (s : State) (job : Word) (g : GroupDef) (rank : Nat) : List Member :=
  let fresh (core r : Nat) : Member := { core := core, rank := r, queue := [], run := none, nextSeq := 0, done := 0, last := none }
  if g.kind = 3 then
    ((maskRanks g).filterMap (fun k => (s.jobCores job)[k]?)).zipIdx.map (fun p => fresh p.1 p.2)
  else
    match (s.jobCores job)[g.core]? with
    | some n => [fresh n rank]
    | none => []

/-- Ranks whose record differs from rank 0's. -/
def outliers {α : Type} [DecidableEq α] (l : List JoinRec) (f : JoinRec → α) : List Nat :=
  match l.find? (fun j => j.rank == 0) with
  | none => []
  | some z => (l.filter (fun j => f j ≠ f z)).map (fun j => j.rank)

/-- The verdict on P records, the same on every member: READY, or the first reason with the ranks concerned. -/
def joinVerdict (l : List JoinRec) : Nat × List Nat :=
  match ([1, 2, 3, 4] : List Nat).find? (fun r => l.any (fun j => j.failed == r)) with
  | some r => (r, (l.filter (fun j => j.failed == r)).map (fun j => j.rank))
  | none =>
    if !(outliers l (fun j => j.hash)).isEmpty then (5, outliers l (fun j => j.hash))
    else if !(outliers l (fun j => j.cpl)).isEmpty then (6, outliers l (fun j => j.cpl))
    else (0, [])

/-- Ranks in ascending order. -/
def ascending (l : List Nat) : List Nat := l.foldl (fun acc r => insertRising r acc) []

/-- What a creation's report lists: the ranks concerned, or for an absent port of this device that port (R292). -/
def State.failureList (s : State) (g : Group) (reason : Nat) (ranks : List Nat) : List Nat :=
  match (if reason = 1 then s.portMissing g.gdef else none) with
  | some p => [p]
  | none => ascending ranks

/-- Decide a creation that holds the records of all members (R292): `held` when it holds its slot. -/
def State.decideGroup (s : State) (g : Group) (held : Bool) : State :=
  if g.joins.length < g.p then s
  else
    match joinVerdict g.joins with
    | (0, _) => (s.putGroup g.gdef.grp { g with phase := .ready }).raiseJob 0x80 g.job [BitVec.ofNat 64 g.gdef.grp]
    | (r, ranks) => s.failGroup g.job g.gdef.grp r (s.failureList g r ranks) held

/-- Creation under way of a job's group in a slot, and whether it holds the slot. -/
def State.creating? (s : State) (job : Word) (i : Nat) : Option (Group × Bool) :=
  match (s.group? i).filter (fun g => g.job == job && g.phase == .creating) with
  | some g => some (g, true)
  | none => (s.forming.find? (fun g => g.job == job && g.gdef.grp == i)).map (fun g => (g, false))

/-- A creation under way, as it now stands; one that is decided keeps no place among those that hold no slot. -/
def State.keepCreating (s : State) (g : Group) (held : Bool) : State :=
  if held then s.putGroup g.gdef.grp g
  else { s with forming := s.forming.filter (fun x => !(x.job == g.job && x.gdef.grp == g.gdef.grp)) ++ (if g.joins.length < g.p then [g] else []) }

/-- A record joins the group of a slot when it is of the same job and its rank has none yet. -/
def Group.takeJoin (g : Group) (r : JoinRec) : Group :=
  if r.job = g.job ∧ r.rank < g.p ∧ !(g.joins.any (fun j => j.rank == r.rank)) then { g with joins := g.joins ++ [r] } else g

/-- An admitted job's descriptor holds a definition, whose creation has not begun. -/
def State.definesGroup (s : State) (job : Word) (g : GroupDef) : Bool :=
  match s.job? job with
  | some j =>
    j.phase == .admitted && j.groups.contains g && !s.groupFails.any (fun f => f.1 == job && f.2.1 == g.grp) &&
    (s.creating? job g.grp).isNone && !(match (s.groups[g.grp]?).join with | some x => x.job == job | none => false)
  | none => false

/-- GROUP_CREATE: the runtime checks a definition of a job locally, and sends its JOIN record, with what the checks found, to every other member; the verdict
is that of the records of all members (R292). A CORES group is decided at once; a device that is no member fails without a JOIN. -/
def execGroupCreate (job : Word) (g : GroupDef) (s : State) : Host.Outcome State Fault Refusal :=
  if !s.definesGroup job g then .next s
  else
  let (reason, ports) := s.localReason job g
  let cpl := s.fld Csr.clLvl 7 0
  let p := s.groupP g
  let make (phase : GroupPhase) (rank : Nat) (joins : List JoinRec) : Group :=
    { job := job, gdef := g, phase := phase, p := p, rank := rank, cpl := cpl, joins := joins, since := s.now
      members := s.membersHere job g rank, early := [], earlyPieces := [], breached := false }
  if g.kind = 3 then
    if reason = 0 then
      .next (((s.clearSlot g.grp).putGroup g.grp (make .ready 0 [])).raiseJob 0x80 job [BitVec.ofNat 64 g.grp])
    else .next (s.failGroup job g.grp reason ports false)
  else
    match (if (s.reg Csr.fabId).bit 63 && decide (g.kind ≤ 2) then s.chipRank g else none) with
    | none => .next (s.failGroup job g.grp (if reason = 0 then 2 else reason) ports false)
    | some rank =>
      let own : JoinRec := { rank := rank, job := job, hash := sm3 (defBytes g), cpl := cpl, failed := reason }
      let s := ((List.range p).filter (fun r => r != rank)).foldl (fun (t : State) r => t.emit (.join (s.rankChip g r) g.grp own)) s
      let early := (s.earlyJoins.filter (fun e => e.1 == g.grp && e.2.job == job)).map (fun e => e.2)
      let grp := early.foldl (fun (x : Group) r => x.takeJoin r) (make .creating rank [own])
      let s := { s with earlyJoins := s.earlyJoins.filter (fun e => !(e.1 == g.grp && e.2.job == job)) }
      let held := decide (reason = 0)
      .next (((if held then s.clearSlot g.grp else s).keepCreating grp held).decideGroup grp held)

/-- JOIN: a member's record arrives; with the records of all P members the creation is decided (R292). -/
def execJoin (grp : Fin 64) (rank : Nat) (job : Word) (hash : BitVec 256) (cpl failed : Nat) (s : State) :
    Host.Outcome State Fault Refusal :=
  let r : JoinRec := { rank := rank, job := job, hash := hash, cpl := cpl, failed := failed }
  match s.creating? job grp.val with
  | some (g, held) => let g := g.takeJoin r; .next ((s.keepCreating g held).decideGroup g held)
  | none => .next { s with earlyJoins := s.earlyJoins ++ [(grp.val, r)] }

/-- The first reason of R292's table that the records held at the end of the wait give; NO_JOIN with the missing ranks when they give none. -/
def Group.verdictWithout (g : Group) : Nat × List Nat :=
  match joinVerdict g.joins with
  | (0, _) => (7, (List.range g.p).filter (fun r => !(g.joins.any (fun j => j.rank == r))))
  | v => v

/-- NO_JOIN: members of a job's group have sent no JOIN within 10 s: creation fails (R292). -/
def execNoJoin (job : Word) (grp : Fin 64) (s : State) : Host.Outcome State Fault Refusal :=
  match s.creating? job grp.val with
  | some (g, held) =>
    if g.since + 10000000000 ≤ s.now then
      let v := g.verdictWithout
      let s := { s with forming := s.forming.filter (fun x => !(x.job == job && x.gdef.grp == grp.val)) }
      .next (s.failGroup job grp.val v.1 (s.failureList g v.1 v.2) held)
    else .next s
  | none => .next s

end Sys2Proof.Machine
end

