-- ==== Sys2Proof/Machine/Functions.lean ====
section
/-! DEFINITION. The special functions at NL 1: the FP32 value nearest the exact one (spec/06 R165, R169). The exact value is enclosed
in an interval of 512-bit fixed point; where both ends round to one FP32 value that is the result. -/

namespace Sys2Proof.Machine

/-! ### Intervals of fixed point -/

/-- An interval whose ends are integers in units of 2^-512. -/
structure Ivl where
  lo : Int
  hi : Int
  deriving DecidableEq, Repr

namespace Ivl

/-- The unit 1. -/
def scale : Int := 2 ^ 512

/-- Division towards plus infinity by a positive integer. -/
def ceilDivInt (a b : Int) : Int := -((-a) / b)

def ofInt (i : Int) : Ivl := ⟨i * scale, i * scale⟩
def one : Ivl := ofInt 1

/-- The interval of a finite value. -/
def ofFrac (neg : Bool) (q : Frac) : Ivl :=
  let n : Int := if neg then -(q.num : Int) else q.num
  ⟨n * scale / q.den, ceilDivInt (n * scale) q.den⟩

def add (a b : Ivl) : Ivl := ⟨a.lo + b.lo, a.hi + b.hi⟩
def neg (a : Ivl) : Ivl := ⟨-a.hi, -a.lo⟩
def sub (a b : Ivl) : Ivl := a.add b.neg
/-- Widened by a bound of a series' remainder. -/
def widen (a : Ivl) (k : Int) : Ivl := ⟨a.lo - k, a.hi + k⟩

def mul (a b : Ivl) : Ivl :=
  let p := a.lo * b.lo
  let q := a.lo * b.hi
  let r := a.hi * b.lo
  let t := a.hi * b.hi
  ⟨min (min p q) (min r t) / scale, ceilDivInt (max (max p q) (max r t)) scale⟩

/-- Quotient by a positive interval. -/
def div (a b : Ivl) : Ivl :=
  ⟨a.lo * scale / (if 0 ≤ a.lo then b.hi else b.lo), ceilDivInt (a.hi * scale) (if 0 ≤ a.hi then b.lo else b.hi)⟩

/-- Quotient by a positive integer. -/
def divNat (a : Ivl) (k : Nat) : Ivl := ⟨a.lo / k, ceilDivInt a.hi k⟩

/-- Integer square root, bit by bit from 2^i down. -/
def isqrtFrom (n : Nat) : Nat → Nat → Nat
  | 0, r => if (r + 1) * (r + 1) ≤ n then r + 1 else r
  | i + 1, r => isqrtFrom n i (if (r + 2 ^ (i + 1)) * (r + 2 ^ (i + 1)) ≤ n then r + 2 ^ (i + 1) else r)

def isqrt (n : Nat) : Nat := isqrtFrom n (Nat.log2 n / 2 + 1) 0

/-- Square root of a non-negative interval. -/
def sqrt (a : Ivl) : Ivl := ⟨isqrt (a.lo * scale).toNat, (isqrt (a.hi * scale).toNat : Int) + 1⟩

/-- Terms of the exponential series: fuel, number of the term, argument, term, sum. -/
def expTerms : Nat → Nat → Ivl → Ivl → Ivl → Ivl
  | 0, _, _, _, acc => acc
  | f + 1, i, x, t, acc => let t := (t.mul x).divNat (i + 1); expTerms f (i + 1) x t (acc.add t)

def squares : Nat → Ivl → Ivl
  | 0, a => a
  | n + 1, a => squares n (a.mul a)

/-- e^x for |x| at most 256: the series at x / 2^16, squared 16 times. -/
def exp (x : Ivl) : Ivl := squares 16 ((expTerms 64 0 (x.divNat 65536) one one).widen 16)

/-- Terms of the series of atanh (`alt` false) and atan (`alt` true). -/
def oddTerms (alt : Bool) : Nat → Nat → Ivl → Ivl → Ivl → Ivl
  | 0, _, _, _, acc => acc
  | f + 1, i, z2, t, acc =>
    let t := t.mul z2
    let term := t.divNat (2 * i + 3)
    oddTerms alt f (i + 1) z2 t (if alt && i % 2 == 0 then acc.sub term else acc.add term)

/-- atanh z for |z| at most 1/3. -/
def atanh (z : Ivl) : Ivl := (oddTerms false 180 0 (z.mul z) z z).widen 16

/-- atan of 1/k for k at least 5. -/
def atanInv (k : Nat) : Ivl := let z := one.divNat k; (oddTerms true 130 0 (z.mul z) z z).widen 16

def times (a : Ivl) (k : Int) : Ivl := a.mul (ofInt k)

/-- π by Machin's formula. -/
def pi : Ivl := ((atanInv 5).times 16).sub ((atanInv 239).times 4)

/-- ln 2. -/
def ln2 : Ivl := (atanh (one.divNat 3)).times 2

/-- ln y for y in [1, 2]. -/
def lnNear (y : Ivl) : Ivl := (atanh ((y.sub one).div (y.add one))).times 2

/-- Terms of the series of erf that has no alternation. -/
def erfTerms : Nat → Nat → Ivl → Ivl → Ivl → Ivl
  | 0, _, _, _, acc => acc
  | f + 1, i, zz, t, acc => let t := (t.mul zz).divNat (2 * i + 3); erfTerms f (i + 1) zz t (acc.add t)

/-- 2 ÷ √π. -/
def twoOverRootPi : Ivl := (ofInt 2).div pi.sqrt

/-- erf z for |z| at most 11.5: (2 ÷ √π) e^(−z²) Σ 2^n z^(2n+1) ÷ (2n+1)!!. -/
def erf (z : Ivl) : Ivl :=
  let z2 := z.mul z
  (twoOverRootPi.mul (exp z2.neg)).mul ((erfTerms 720 0 (z2.times 2) z z).widen 16)

/-- An end as a value. -/
def endVal (i : Int) : Val := .fin (decide (i < 0)) ⟨i.natAbs, 2 ^ 512⟩

end Ivl

/-- The FP32 bits that both ends round to; where the ends differ, the value that Config leaves open (number of the function and its
arguments). -/
def decided (i : Ivl) (fn : Nat) (arg : BitVec 64) : BitVec 32 :=
  let a := bitsFp32 (Ivl.endVal i.lo)
  if a = bitsFp32 (Ivl.endVal i.hi) then a else Config.undecidedFp32 fn arg

/-! ### The functions (table of R165) -/

/-- The functions of R165 and the derivative values that R169 states by a bound. -/
inductive Fn where
  | exp2 | log2 | rcp | rsqrt | sqrt | exp | sigmoid | tanh | softplus | elu | gelu | silu | erf
  | dsoftplus | dgelu | dsilu | derf
  deriving DecidableEq, Repr

/-- Number of a function for Config.undecidedFp32. -/
def Fn.num : Fn → Nat
  | .exp2 => 0 | .log2 => 1 | .rcp => 2 | .rsqrt => 3 | .sqrt => 4 | .exp => 5 | .sigmoid => 6 | .tanh => 7 | .softplus => 8
  | .elu => 9 | .gelu => 10 | .silu => 11 | .erf => 12 | .dsoftplus => 13 | .dgelu => 14 | .dsilu => 15 | .derf => 16

/-- A magnitude above 256, where every bounded function has reached its limit in FP32. -/
def huge (q : Frac) : Bool := (⟨256, 1⟩ : Frac).lt q

/-- An interval from 0 up to 2^-280, which rounds to +0. -/
def Ivl.tiny : Ivl := ⟨0, 2 ^ 232⟩

/-- σ(x) for |x| at most 256. -/
def Ivl.sigma (x : Ivl) : Ivl := one.div (one.add (exp x.neg))

/-- Φ(x) for |x| at most 16. -/
def Ivl.normal (x : Ivl) : Ivl := (one.add (erf (x.div (ofInt 2).sqrt))).divNat 2

/-- φ(x). -/
def Ivl.density (x : Ivl) : Ivl := (exp ((x.mul x).divNat 2).neg).div (pi.times 2).sqrt

/-- |x| exceeds 16, beyond which Φ and φ have reached their limits in FP32. -/
def beyond16 (q : Frac) : Bool := (⟨16, 1⟩ : Frac).lt q

/-- The enclosing interval of a function at a non-zero finite argument for which it is neither exact nor special; α of vec.elu is
the last argument. -/
def Fn.enclose (f : Fn) (neg : Bool) (q : Frac) (alpha : Frac) : Ivl :=
  let x := Ivl.ofFrac neg q
  let e := floorLog2 q
  match f with
  | .exp2 => if huge q then (if neg then Ivl.tiny else Ivl.ofInt (2 ^ 200)) else Ivl.exp (x.mul Ivl.ln2)
  | .log2 => (Ivl.ofInt e).add ((Ivl.lnNear (Ivl.ofFrac false (q.mul (Frac.scaled 1 (-e))))).div Ivl.ln2)
  | .rcp => Ivl.one
  | .rsqrt => Ivl.one.div x.sqrt
  | .sqrt => x.sqrt
  | .exp => if huge q then (if neg then Ivl.tiny else Ivl.ofInt (2 ^ 200)) else Ivl.exp x
  | .sigmoid => if huge q then (if neg then Ivl.tiny else Ivl.one.sub Ivl.tiny) else x.sigma
  | .tanh =>
    let y := if huge q then Ivl.one.sub Ivl.tiny
      else let u := Ivl.exp (Ivl.ofFrac true ⟨2 * q.num, q.den⟩); (Ivl.one.sub u).div (Ivl.one.add u)
    if neg then y.neg else y
  | .softplus =>
    if huge q then (if neg then Ivl.tiny else x.add Ivl.tiny)
    else
      let tail := Ivl.lnNear (Ivl.one.add (Ivl.exp (Ivl.ofFrac true q)))
      if neg then tail else x.add tail
  | .elu => (Ivl.ofFrac false alpha).mul ((if huge q then Ivl.tiny else Ivl.exp x).sub Ivl.one)
  | .gelu =>
    if beyond16 q then
      if neg then ⟨-(2 ^ 340), -1⟩ else ⟨x.lo - x.lo / 2 ^ 170 - 1, x.hi⟩
    else x.mul x.normal
  | .silu => if huge q then (if neg then ⟨-(2 ^ 340), -1⟩ else ⟨x.lo - x.lo / 2 ^ 170 - 1, x.hi⟩) else x.mul x.sigma
  | .erf =>
    let y : Ivl := if (⟨11, 1⟩ : Frac).lt q then ⟨Ivl.scale - 2 ^ 340, Ivl.scale⟩ else Ivl.erf (Ivl.ofFrac false q)
    if neg then y.neg else y
  | .dsoftplus =>
    if huge q then (if neg then Ivl.ofInt (-(2 ^ 200)) else Ivl.one.sub Ivl.tiny) else Ivl.one.sub (Ivl.exp x.neg)
  | .dgelu =>
    if beyond16 q then (if neg then ⟨-(2 ^ 340), -1⟩ else ⟨Ivl.scale, Ivl.scale + 2 ^ 340⟩)
    else x.normal.add (x.mul x.density)
  | .dsilu =>
    if huge q then (if neg then ⟨-(2 ^ 340), -1⟩ else ⟨Ivl.scale, Ivl.scale + 2 ^ 340⟩)
    else x.sigma.mul (Ivl.one.add (x.mul (Ivl.one.sub x.sigma)))
  | .derf => if beyond16 q then Ivl.tiny else Ivl.twoOverRootPi.mul (Ivl.exp (x.mul x).neg)

/-- Special inputs of the table of R165 and the limits of R169; none where the value is to be enclosed. -/
def Fn.special (f : Fn) (alpha : Frac) : Val → Option Val
  | .nan => some .nan
  | .inf neg =>
    some (match f with
      | .exp2 | .exp | .softplus => if neg then Val.zero else .inf false
      | .log2 | .sqrt => if neg then .nan else .inf false
      | .rcp => .fin neg ⟨0, 1⟩
      | .rsqrt => if neg then .nan else Val.zero
      | .sigmoid => if neg then Val.zero else Val.one
      | .tanh | .erf => .fin neg ⟨1, 1⟩
      | .elu => if neg then .fin true alpha else .inf false
      | .gelu | .silu => if neg then Val.negZero else .inf false
      | .dsoftplus => if neg then .inf true else Val.one
      | .dgelu | .dsilu => if neg then Val.zero else Val.one
      | .derf => Val.zero)
  | .fin neg q =>
    if q.isZero then
      match f with
      | .exp2 | .exp => some Val.one
      | .log2 => some (.inf true)
      | .rcp | .rsqrt => some (.inf neg)
      | .sqrt | .tanh | .elu | .gelu | .silu | .erf => some (.fin neg ⟨0, 1⟩)
      | .sigmoid | .dgelu | .dsilu => some (.fin false ⟨1, 2⟩)
      | .dsoftplus => some Val.zero
      | .softplus | .derf => none
    else
      match f with
      | .log2 =>
        if neg then some .nan
        else let e := floorLog2 q; if (Frac.scaled 1 e).eq q then some (Val.ofInt e) else none
      | .sqrt | .rsqrt => if neg then some .nan else none
      | .exp2 =>
        if q.den = 1 ∧ !huge q then some (.fin false (Frac.scaled 1 (if neg then -(q.num : Int) else q.num))) else none
      | .rcp => some (Val.one.div (.fin neg q))
      | .elu => if neg then none else some (.fin neg q)
      | _ => none

/-- The FP32 bits of a function at an FP32 argument (R165). -/
def Fn.apply (f : Fn) (alpha : BitVec 32) (x : BitVec 32) : BitVec 32 :=
  let a : Frac := match valFp32 alpha with | .fin _ q => q | _ => ⟨0, 1⟩
  match f.special a (valFp32 x) with
  | some v => bitsFp32 v
  | none =>
    match valFp32 x with
    | .fin neg q => decided (f.enclose neg q a) f.num (alpha.zeroExtend 64 <<< 32 ||| x.zeroExtend 64)
    | _ => 0

/-- The exponential on values rounded to FP32 (R178, R180). -/
def expFp32 (v : Val) : Val := valFp32 (Fn.exp.apply 0 (bitsFp32 v))

/-- The reciprocal square root on values rounded to FP32 (R186). -/
def rsqrtFp32 (v : Val) : Val := valFp32 (Fn.rsqrt.apply 0 (bitsFp32 v))

end Sys2Proof.Machine
end

