-- ==== Sys2Proof/Machine/VectorEngine.lean ====
section
/-! DEFINITION. The vector engine (spec/04 R118, R119, spec/06 R159 to R172). -/

namespace Sys2Proof.Machine

/-- The value of element (r, c) of a tensor. -/
def State.val (s : State) (d : Desc) (r c : Nat) : Val := elemDecode d.fmt (s.elem d r c)

/-- The FP32 operand in the low half of a scalar register (R164). -/
def scalarFp32 (w : Word) : Val := valFp32 (w.truncate 32)

/-- The result element of a vector or row instruction: one rounding under its RND and SAT (R36, R42, R164). -/
def roundOut (e : Entry) (r c : Nat) (v : Val) : Nat × NumFlags :=
  encodeAt (e.word.field 20 19) (e.word.field 18 17) e.ra e.d0.val r c v

/-- After a vector or row instruction has written `dst`: bytes that overlap an operand with which it is not identical are undefined
(R162). -/
def State.overlapFree (s : State) (dst : Desc) (others : List Desc) : State :=
  s.freeOverlap dst.ranges (rangesOf (others.filter (fun d => !Desc.identical dst d)))

/-- An element-wise vector instruction: the exact value of each destination element, rounded once (R161, R162, R164). -/
def runElementwise (s : State) (n : Fin 32) (op : Nat) (f : State → Entry → Nat → Nat → Val) :
    Host.Outcome State Fault Refusal :=
  runEngine s n .vector 3 op (fun s e =>
    let (t, fl) := s.putValues e.d0.val (fun r c => roundOut e r c (f s e r c))
    (t.overlapFree e.d0.val (sourceDescs e), fl))

/-- First, second and third source of an element-wise instruction. -/
def srcA (s : State) (e : Entry) (r c : Nat) : Val := s.val e.d1.val r c
def srcB (s : State) (e : Entry) (r c : Nat) : Val := s.val e.d2.val r c
def srcS (s : State) (e : Entry) (r c : Nat) : Val := s.val e.d3.val r c

/-- The FP32 value of a function at a value that FP32 holds (R165). -/
def fnVal (f : Fn) (alpha : Word) (x : Val) : Val := valFp32 (f.apply (alpha.truncate 32) (bitsFp32 x))

/-- max(x, 0) as the table of R165 has it. -/
def reluVal (x : Val) : Val := if x.isNan then .nan else if x.isPos then x else Val.zero

/-- An activation: the FP32 value of its function, and with SAVE = 1 the saved tensor, which is that value or the input, rounded to
nearest even in its own format (R169, R170). A saved tensor that shares bytes with dA, identical to it or not, has free values there: R162 lets a destination be
identical to a source and says nothing of a saved tensor that is (DESIGN CHOICE, log 70). -/
def runActivation (s : State) (n : Fin 32) (op : Nat) (savesInput : Bool) (f : Entry → Val → Val) :
    Host.Outcome State Fault Refusal :=
  runEngine s n .vector 3 op (fun s e =>
    let y (r c : Nat) : Val := f e (srcA s e r c)
    let (t, fl) := s.putValues e.d0.val (fun r c => roundOut e r c (y r c))
    let t := t.overlapFree e.d0.val (sourceDescs e)
    if e.word.bit 16 then
      let d : Desc := e.d3.val
      let (t, fl') := t.putValues d (fun r c =>
        elemEncode d.fmt .rne (satDefault d.fmt) 0 (if savesInput then srcA s e r c else y r c))
      let src := rangesOf (sourceDescs e)
      let t := t.freeOverlap d.ranges (src ++ Desc.ranges e.d0.val)
      (t, fl.or fl')
    else (t, fl))

/-- A derivative dA × f′ with f′ formed from the saved value in FP32 (R169). -/
def derivative (f : Entry → Val → Val) (s : State) (e : Entry) (r c : Nat) : Val :=
  (srcA s e r c).mul (f e (srcS s e r c))

/-! ### Reductions (R166 to R168) -/

/-- Adjacent pairs combined; an odd one out passes unchanged. -/
def pairUp {α : Type} (f : α → α → α) : List α → List α
  | a :: b :: t => f a b :: pairUp f t
  | l => l

/-- The tree over the lanes: nine levels for 512 lanes. -/
def laneTree {α : Type} (f : α → α → α) : Nat → List α → List α
  | 0, l => l
  | k + 1, l => laneTree f k (pairUp f l)

/-- A line folded from its first element on. -/
def foldLine (first : Val → Val) (step : Val → Val → Val) : List Val → Option Val
  | [] => none
  | x :: t => some (t.foldl step (first x))

/-- The lanes of a line of `len` elements: those of lane l in ascending pass order (R166). -/
def laneElements (len l : Nat) : List Nat := (List.range len).filter (fun c => c % 512 = l)

/-- The value of a line of elements under the lanes and the tree of R166. -/
def treeReduce (first : Val → Val) (step comb : Val → Val → Val) (len : Nat) (x : Nat → Val) : Val :=
  let lanes := (List.range (min len 512)).filterMap (fun l => foldLine first step ((laneElements len l).map x))
  ((laneTree comb 9 lanes).head?).getD Val.zero

/-- A FP32 sum rounded once. -/
def add32 (a b : Val) : Val := roundFp32 (a.add b)

/-- The fold step of vec.rsumsq: the exact square added and rounded once. -/
def addSq32 (a x : Val) : Val := roundFp32 (a.add (x.mul x))

/-- A reduction along RAX (R166, R167). -/
def runReduction (s : State) (n : Fin 32) (op : Nat) (first : Val → Val) (step comb : Val → Val → Val) :
    Host.Outcome State Fault Refusal :=
  runEngine s n .vector 3 op (fun s e =>
    let da : Desc := e.d1.val
    let line (r c : Nat) : Val :=
      if e.word.bit 15 then ((foldLine first step ((List.range da.rows).map (fun i => s.val da i c))).getD Val.zero)
      else treeReduce first step comb da.cols (fun i => s.val da r i)
    let (t, fl) := s.putValues e.d0.val (fun r c => roundOut e r c (line r c))
    (t.freeOverlap (Desc.ranges e.d0.val) da.ranges, fl))

/-! ### The vector instructions -/

/-- VEC_ADD: dA + dB (R164). -/
def execVecAdd (n : Fin 32) (s : State) : Host.Outcome State Fault Refusal :=
  runElementwise s n 0x0 (fun s e r c => (srcA s e r c).add (srcB s e r c))

/-- VEC_SUB: dA - dB (R164). -/
def execVecSub (n : Fin 32) (s : State) : Host.Outcome State Fault Refusal :=
  runElementwise s n 0x1 (fun s e r c => (srcA s e r c).sub (srcB s e r c))

/-- VEC_MUL: dA × dB (R164). -/
def execVecMul (n : Fin 32) (s : State) : Host.Outcome State Fault Refusal :=
  runElementwise s n 0x2 (fun s e r c => (srcA s e r c).mul (srcB s e r c))

/-- VEC_MAX: the larger operand; a NaN gives NaN (R164). -/
def execVecMax (n : Fin 32) (s : State) : Host.Outcome State Fault Refusal :=
  runElementwise s n 0x3 (fun s e r c => (srcA s e r c).max (srcB s e r c))

/-- VEC_MIN: the smaller operand; a NaN gives NaN (R164). -/
def execVecMin (n : Fin 32) (s : State) : Host.Outcome State Fault Refusal :=
  runElementwise s n 0x4 (fun s e r c => (srcA s e r c).min (srcB s e r c))

/-- VEC_FMA: dA × dB + dS, rounded once (R164). -/
def execVecFma (n : Fin 32) (s : State) : Host.Outcome State Fault Refusal :=
  runElementwise s n 0x5 (fun s e r c => ((srcA s e r c).mul (srcB s e r c)).add (srcS s e r c))

/-- VEC_ADDS: dA + sR (R164). -/
def execVecAdds (n : Fin 32) (s : State) : Host.Outcome State Fault Refusal :=
  runElementwise s n 0x6 (fun s e r c => (srcA s e r c).add (scalarFp32 e.ra))

/-- VEC_MULS: dA × sR (R164). -/
def execVecMuls (n : Fin 32) (s : State) : Host.Outcome State Fault Refusal :=
  runElementwise s n 0x7 (fun s e r c => (srcA s e r c).mul (scalarFp32 e.ra))

/-- VEC_BCADD: the row dB added to every row (R118, R164). -/
def execVecBcadd (n : Fin 32) (s : State) : Host.Outcome State Fault Refusal :=
  runElementwise s n 0x8 (fun s e r c => (srcA s e r c).add (srcB s e 0 c))

/-- VEC_BCMUL: every row multiplied by the row dB (R118, R164). -/
def execVecBcmul (n : Fin 32) (s : State) : Host.Outcome State Fault Refusal :=
  runElementwise s n 0x9 (fun s e r c => (srcA s e r c).mul (srcB s e 0 c))

/-- VEC_CVT: conversion (R35 to R37, R164). -/
def execVecCvt (n : Fin 32) (s : State) : Host.Outcome State Fault Refusal :=
  runElementwise s n 0xa srcA

/-- VEC_EXP2: the function, correctly rounded to FP32, then rounded to dD (R165). -/
def execVecExp2 (n : Fin 32) (s : State) : Host.Outcome State Fault Refusal :=
  runElementwise s n 0x10 (fun s e r c => fnVal .exp2 0 (srcA s e r c))

/-- VEC_LOG2: the function, correctly rounded to FP32, then rounded to dD (R165). -/
def execVecLog2 (n : Fin 32) (s : State) : Host.Outcome State Fault Refusal :=
  runElementwise s n 0x11 (fun s e r c => fnVal .log2 0 (srcA s e r c))

/-- VEC_RCP: the function, correctly rounded to FP32, then rounded to dD (R165). -/
def execVecRcp (n : Fin 32) (s : State) : Host.Outcome State Fault Refusal :=
  runElementwise s n 0x12 (fun s e r c => fnVal .rcp 0 (srcA s e r c))

/-- VEC_RSQRT: the function, correctly rounded to FP32, then rounded to dD (R165). -/
def execVecRsqrt (n : Fin 32) (s : State) : Host.Outcome State Fault Refusal :=
  runElementwise s n 0x13 (fun s e r c => fnVal .rsqrt 0 (srcA s e r c))

/-- VEC_SQRT: the function, correctly rounded to FP32, then rounded to dD (R165). -/
def execVecSqrt (n : Fin 32) (s : State) : Host.Outcome State Fault Refusal :=
  runElementwise s n 0x14 (fun s e r c => fnVal .sqrt 0 (srcA s e r c))

/-- VEC_ABS: the sign cleared (R164). -/
def execVecAbs (n : Fin 32) (s : State) : Host.Outcome State Fault Refusal :=
  runElementwise s n 0x15 (fun s e r c => (srcA s e r c).abs)

/-- VEC_NEG: the sign inverted (R164). -/
def execVecNeg (n : Fin 32) (s : State) : Host.Outcome State Fault Refusal :=
  runElementwise s n 0x16 (fun s e r c => (srcA s e r c).neg)

/-- VEC_RELU: max(x, 0); saves y (R165, R169). -/
def execVecRelu (n : Fin 32) (s : State) : Host.Outcome State Fault Refusal :=
  runActivation s n 0x20 false (fun _ x => reluVal x)

/-- VEC_SIGMOID: saves y (R165, R169). -/
def execVecSigmoid (n : Fin 32) (s : State) : Host.Outcome State Fault Refusal :=
  runActivation s n 0x21 false (fun _ x => fnVal .sigmoid 0 x)

/-- VEC_TANH: saves y (R165, R169). -/
def execVecTanh (n : Fin 32) (s : State) : Host.Outcome State Fault Refusal :=
  runActivation s n 0x22 false (fun _ x => fnVal .tanh 0 x)

/-- VEC_EXP: saves y (R165, R169). -/
def execVecExp (n : Fin 32) (s : State) : Host.Outcome State Fault Refusal :=
  runActivation s n 0x23 false (fun _ x => fnVal .exp 0 x)

/-- VEC_SOFTPLUS: saves y (R165, R169). -/
def execVecSoftplus (n : Fin 32) (s : State) : Host.Outcome State Fault Refusal :=
  runActivation s n 0x24 false (fun _ x => fnVal .softplus 0 x)

/-- VEC_ELU: x above 0, else α(e^x − 1) with α in sR; saves y (R165, R169, R171). -/
def execVecElu (n : Fin 32) (s : State) : Host.Outcome State Fault Refusal :=
  runActivation s n 0x25 false (fun e x => fnVal .elu e.ra x)

/-- VEC_GELU: saves x (R165, R169). -/
def execVecGelu (n : Fin 32) (s : State) : Host.Outcome State Fault Refusal :=
  runActivation s n 0x26 true (fun _ x => fnVal .gelu 0 x)

/-- VEC_SILU: saves x (R165, R169). -/
def execVecSilu (n : Fin 32) (s : State) : Host.Outcome State Fault Refusal :=
  runActivation s n 0x27 true (fun _ x => fnVal .silu 0 x)

/-- VEC_ERF: saves x (R165, R169). -/
def execVecErf (n : Fin 32) (s : State) : Host.Outcome State Fault Refusal :=
  runActivation s n 0x28 true (fun _ x => fnVal .erf 0 x)

/-- VEC_DRELU: dA where y is above 0, else +0 (R169). -/
def execVecDrelu (n : Fin 32) (s : State) : Host.Outcome State Fault Refusal :=
  runElementwise s n 0x30 (fun s e r c =>
    let g := srcA s e r c
    let y := srcS s e r c
    if y.isNan || g.isNan then .nan else if y.isPos then g else Val.zero)

/-- VEC_DSIGMOID: dA × y(1 − y) (R169). -/
def execVecDsigmoid (n : Fin 32) (s : State) : Host.Outcome State Fault Refusal :=
  runElementwise s n 0x31 (derivative (fun _ y => roundFp32 (y.mul (roundFp32 (Val.one.sub y)))))

/-- VEC_DTANH: dA × (1 − y²) (R169). -/
def execVecDtanh (n : Fin 32) (s : State) : Host.Outcome State Fault Refusal :=
  runElementwise s n 0x32 (derivative (fun _ y => roundFp32 (Val.one.sub (y.mul y))))

/-- VEC_DEXP: dA × y (R169). -/
def execVecDexp (n : Fin 32) (s : State) : Host.Outcome State Fault Refusal :=
  runElementwise s n 0x33 (derivative (fun _ y => y))

/-- VEC_DSOFTPLUS: dA × (1 − e^−y) (R169). -/
def execVecDsoftplus (n : Fin 32) (s : State) : Host.Outcome State Fault Refusal :=
  runElementwise s n 0x34 (derivative (fun _ y => fnVal .dsoftplus 0 y))

/-- VEC_DELU: dA where y is above 0, else dA × (y + α) (R169, R171). -/
def execVecDelu (n : Fin 32) (s : State) : Host.Outcome State Fault Refusal :=
  runElementwise s n 0x35 (fun s e r c =>
    let g := srcA s e r c
    let y := srcS s e r c
    if y.isNan then .nan else if y.isPos then g else g.mul (roundFp32 (y.add (scalarFp32 e.ra))))

/-- VEC_DGELU: dA × Φ(x) + x·φ(x) (R169). -/
def execVecDgelu (n : Fin 32) (s : State) : Host.Outcome State Fault Refusal :=
  runElementwise s n 0x36 (derivative (fun _ x => fnVal .dgelu 0 x))

/-- VEC_DSILU: dA × σ(x)(1 + x(1 − σ(x))) (R169). -/
def execVecDsilu (n : Fin 32) (s : State) : Host.Outcome State Fault Refusal :=
  runElementwise s n 0x37 (derivative (fun _ x => fnVal .dsilu 0 x))

/-- VEC_DERF: dA × (2 ÷ √π)·e^−x² (R169). -/
def execVecDerf (n : Fin 32) (s : State) : Host.Outcome State Fault Refusal :=
  runElementwise s n 0x38 (derivative (fun _ x => fnVal .derf 0 x))

/-- VEC_RSUM: the sum along RAX (R166 to R168). -/
def execVecRsum (n : Fin 32) (s : State) : Host.Outcome State Fault Refusal :=
  runReduction s n 0x40 (fun x => x) add32 add32

/-- VEC_RMAX: the maximum along RAX (R166, R167). -/
def execVecRmax (n : Fin 32) (s : State) : Host.Outcome State Fault Refusal :=
  runReduction s n 0x41 (fun x => x) Val.max Val.max

/-- VEC_RMIN: the minimum along RAX (R166, R167). -/
def execVecRmin (n : Fin 32) (s : State) : Host.Outcome State Fault Refusal :=
  runReduction s n 0x42 (fun x => x) Val.min Val.min

/-- VEC_RSUMSQ: the sum of squares along RAX (R166 to R168). -/
def execVecRsumsq (n : Fin 32) (s : State) : Host.Outcome State Fault Refusal :=
  runReduction s n 0x43 (fun x => roundFp32 (x.mul x)) addSq32 add32

end Sys2Proof.Machine
end

