-- ==== Sys2Proof/Machine/Collectives.lean ====
section
/-! DEFINITION. Collectives: the group queue, descriptor records, the flows of data between members, the order of combination,
completion and lateness, timeout and abort (spec/10 R294 to R307). -/

namespace Sys2Proof.Machine

/-! ### The instruction (R123) -/

def collOp (e : Entry) : Nat := wOp e.word
def collRop (e : Entry) : Nat := e.word.field 27 26
def collFast (e : Entry) : Bool := e.word.bit 25
def collGrp (e : Entry) : Nat := e.word.field 33 28

/-- The operations with a reduction. -/
def collReduces (op : Nat) : Bool := op == 0x10 || op == 0x11 || op == 0x14

/-- Elements of a descriptor. -/
def descCount (d : Desc) : Nat := Desc.rows d * Desc.cols d

/-- The member reads DS, and writes DD (R300). -/
def usesDs (op rank root : Nat) : Bool := op != 0x16 && (op != 0x13 || rank == root)
def usesDd (op rank root : Nat) : Bool := op != 0x16 && (op != 0x14 || rank == root)

/-- COUNT of the descriptor record (R301). -/
def collCount (e : Entry) : Nat :=
  match collOp e with
  | 0x16 => 0
  | 0x13 => descCount e.d0.val
  | _ => descCount e.d1.val

/-- The record of a collective at its start (R301). -/
def recordOf (e : Entry) (seq : BitVec 32) (ft : Word) : DescRec :=
  let op := collOp e
  { op := op, rop := if collReduces op then collRop e else 0, fast := collReduces op && collFast e
    fmt := if op = 0x16 then 0 else if op = 0x13 then Desc.fmtCode e.d0.val else Desc.fmtCode e.d1.val
    root := if op = 0x13 ∨ op = 0x14 then e.ra.toNat else 0, count := collCount e, seq := seq, arr := ft }

/-- Record bytes 0 to 23, which H covers (R301). -/
def recordBytes (r : DescRec) : List Byte :=
  [BitVec.ofNat 8 r.op, BitVec.ofNat 8 (r.rop + (if r.fast then 4 else 0)), BitVec.ofNat 8 r.fmt, 0] ++ bytesOfNat 4 r.root ++
  bytesOfNat 8 r.count ++ bytesOfNat 8 r.seq.toNat

/-- H: bytes 0 to 7 of the digest, little-endian (R301). -/
def recordHash (r : DescRec) : List Byte := (bytesOfNat 32 (sm3 (recordBytes r)).toNat).reverse.take 8

/-- The field code of the first field in which two records differ (R301, R302). -/
def firstDifference (a b : DescRec) : Nat :=
  if a.op ≠ b.op then 1 else if a.rop ≠ b.rop then 2 else if a.fast ≠ b.fast then 3 else if a.fmt ≠ b.fmt then 4
  else if a.root ≠ b.root then 5 else if a.count ≠ b.count then 6 else if a.seq ≠ b.seq then 7 else 0

/-! ### Flows (R294, R299) -/

/-- What one collective is, as far as its data movement goes: operation, P, columns of a two-dimensional group (none for one
dimension), the elements E that are sharded or of one block, root. -/
structure Shape where
  op : Nat
  p : Nat
  nx : Option Nat
  e : Nat
  root : Nat
  deriving DecidableEq, Repr

/-- One flow: a kind of data, first element and count. -/
abbrev Flow := ChunkKind × Nat × Nat

/-- Shard k. -/
def Shape.shard (h : Shape) (k : Nat) : Nat × Nat := shardOf h.e h.p k

/-- The ranks of column i of a two-dimensional group. -/
def Shape.columnRanks (h : Shape) (nx i : Nat) : List Nat := (List.range h.p).filter (fun r => r % nx == i)

/-- The ranks of row j. -/
def Shape.rowRanks (h : Shape) (nx j : Nat) : List Nat := (List.range h.p).filter (fun r => r / nx == j)

/-- A shard flow of a kind. -/
def Shape.shardFlow (h : Shape) (k : ChunkKind) (s : Nat) : Flow := (k, (h.shard s).1, (h.shard s).2)

/-- All that rank a sends to rank b in a one-dimensional group (the table of R299). -/
def Shape.flow1 (h : Shape) (a b : Nat) : List Flow :=
  match h.op with
  | 0x10 => [h.shardFlow .contribution b, h.shardFlow .result a]
  | 0x11 => [h.shardFlow .contribution b]
  | 0x12 => [(.block, a * h.e, h.e)]
  | 0x13 => (if a = h.root then [h.shardFlow (.toRank a b) b] else []) ++ [h.shardFlow .result a]
  | 0x14 => [h.shardFlow .contribution b] ++ (if b = h.root then [h.shardFlow .result a] else [])
  | 0x15 => [(.toRank a b, a * h.e, h.e)]
  | _ => []

/-- The scattering flows of a two-dimensional reduction: shards of b's column along the row, then row partials along the column. -/
def Shape.scatter2 (h : Shape) (nx a b : Nat) : List Flow :=
  if a / nx = b / nx then (h.columnRanks nx (b % nx)).map (fun s => h.shardFlow .contribution s)
  else if a % nx = b % nx then [h.shardFlow .rowPartial b]
  else []

/-- The gathering flows of shards: the own one along the column, then those of the own column along the row. -/
def Shape.gather2 (h : Shape) (nx a b : Nat) : List Flow :=
  if a % nx = b % nx then [h.shardFlow .result a]
  else if a / nx = b / nx then (h.columnRanks nx (a % nx)).map (fun s => h.shardFlow .result s)
  else []

/-- All that rank a sends to rank b in a two-dimensional group: scattering along rows first and then along columns, gathering in the
reverse order (R299). -/
def Shape.flow2 (h : Shape) (nx a b : Nat) : List Flow :=
  let sameRow := decide (a / nx = b / nx)
  let sameCol := decide (a % nx = b % nx)
  match h.op with
  | 0x10 => h.scatter2 nx a b ++ h.gather2 nx a b
  | 0x11 => h.scatter2 nx a b
  | 0x12 =>
    if sameCol then [(.block, a * h.e, h.e)]
    else if sameRow then (h.columnRanks nx (a % nx)).map (fun o => (.block, o * h.e, h.e))
    else []
  | 0x13 =>
    (if a = h.root ∧ sameRow then (h.columnRanks nx (b % nx)).map (fun s => h.shardFlow (.toRank a s) s)
     else if a / nx = h.root / nx ∧ sameCol then [h.shardFlow (.toRank h.root b) b]
     else []) ++ h.gather2 nx a b
  | 0x14 =>
    h.scatter2 nx a b ++
    (if sameCol ∧ b / nx = h.root / nx then [h.shardFlow .result a]
     else if b = h.root ∧ sameRow then (h.columnRanks nx (a % nx)).map (fun s => h.shardFlow .result s)
     else [])
  | 0x15 =>
    if sameRow then (h.columnRanks nx (b % nx)).map (fun d => (.toRank a d, a * h.e, h.e))
    else if sameCol then (h.rowRanks nx (a / nx)).map (fun o => (.toRank o b, o * h.e, h.e))
    else []
  | _ => []

/-- All that rank a sends to another rank b. -/
def Shape.flow (h : Shape) (a b : Nat) : List Flow :=
  if a = b then []
  else
    match h.nx with
    | none => h.flow1 a b
    | some nx => h.flow2 nx a b

/-- The shape of a member's collective. -/
def shapeOf (g : Group) (e : Entry) : Shape :=
  let op := collOp e
  { op := op, p := g.p, nx := if twoDim g.gdef then some (blockNx g.gdef) else none
    e := match op with
      | 0x13 => descCount e.d0.val
      | 0x15 => descCount e.d1.val / g.p
      | 0x16 => 0
      | _ => descCount e.d1.val
    root := if op = 0x13 ∨ op = 0x14 then e.ra.toNat else 0 }

/-! ### Pieces held -/

/-- The code that a member holds of an element of a kind, from a given sender or from anyone. -/
def held (l : List Piece) (k : ChunkKind) (src : Option Nat) (elem : Nat) : Option Nat :=
  (l.find? (fun p => p.kind == k && p.elem == elem && (match src with | some r => p.src == r | none => true))).map (fun p => p.code)

/-- The sender from whom a flow's data must be held before it can leave: the own rank for what is formed here, anyone for what is
forwarded. -/
def flowSource (k : ChunkKind) (me : Nat) : Option Nat :=
  match k with
  | .contribution | .rowPartial => some me
  | _ => none

/-- Every element of a flow is held. -/
def flowHeld (l : List Piece) (src : Option Nat) (f : Flow) : Bool :=
  (List.range f.2.2).all (fun i => (held l f.1 src (f.2.1 + i)).isSome)

/-- The elements of a flow, as a chunk carries them. -/
def flowElems (l : List Piece) (src : Option Nat) (f : Flow) : List (Nat × Nat) :=
  (List.range f.2.2).map (fun i => (f.2.1 + i, (held l f.1 src (f.2.1 + i)).getD 0))

/-- Pieces of a range of elements. -/
def makePieces (k : ChunkKind) (src first n : Nat) (f : Nat → Nat) : List Piece :=
  (List.range n).map (fun i => { kind := k, src := src, elem := first + i, code := f (first + i) })

/-- What a member holds of its own at the start, from DS in row-major order (R294, R299). -/
def ownPieces (s : State) (h : Shape) (me : Nat) (e : Entry) : List Piece :=
  let d : Desc := e.d1.val
  let elem (i : Nat) : Nat := s.elem d (i / d.cols) (i % d.cols)
  if collReduces h.op then makePieces .contribution me 0 h.e elem
  else
    match h.op with
    | 0x12 => makePieces .block me (me * h.e) h.e (fun i => elem (i - me * h.e))
    | 0x13 =>
      if me = h.root then
        (List.range h.p).flatMap (fun k => makePieces (.toRank me k) me (h.shard k).1 (h.shard k).2 elem)
      else []
    | 0x15 => (List.range h.p).flatMap (fun k => makePieces (.toRank me k) me (me * h.e) h.e (fun i => elem (k * h.e + (i - me * h.e))))
    | _ => []

/-! ### Combination (R295, R296) -/

/-- A term as the accumulation holds it: the exact value of a floating-point code, or an integer. -/
def combineFloat (rop : Nat) (first : Val) (rest : List Val) : Val :=
  match rop with
  | 1 => rest.foldl Val.max first
  | 2 => rest.foldl Val.min first
  | _ => rest.foldl add32 first

/-- Integers: a sum modulo the width, a signed maximum or minimum. -/
def combineInt (rop bits : Nat) (first : Nat) (rest : List Nat) : Nat :=
  match rop with
  | 1 => rest.foldl (fun a b => if intOfBits bits a < intOfBits bits b then b else a) first
  | 2 => rest.foldl (fun a b => if intOfBits bits b < intOfBits bits a then b else a) first
  | _ => rest.foldl (fun a b => (a + b) % 2 ^ bits) first

/-- The partial of a list of codes of FMT: FP32 bits for floating point, the code for integers. -/
def partialOf (rop : Nat) (f : Fmt) (l : List Nat) : Nat :=
  match l with
  | [] => 0
  | c :: t =>
    if fmtIsInt f then combineInt rop (fmtBits f) c t
    else (bitsFp32 (combineFloat rop (elemDecode f c) (t.map (fun x => elemDecode f x)))).toNat

/-- The accumulation of row partials. -/
def mergePartials (rop : Nat) (f : Fmt) (l : List Nat) : Nat :=
  match l with
  | [] => 0
  | c :: t =>
    if fmtIsInt f then combineInt rop (fmtBits f) c t
    else (bitsFp32 (combineFloat rop (valFp32 (BitVec.ofNat 32 c)) (t.map (fun x => valFp32 (BitVec.ofNat 32 x))))).toNat

/-- The final value: avg divides by P exactly, and one rounding to FMT follows. -/
def finishValue (rop : Nat) (f : Fmt) (p acc : Nat) : Nat × NumFlags :=
  if fmtIsInt f then (acc, NumFlags.none)
  else
    let v := valFp32 (BitVec.ofNat 32 acc)
    elemEncode f .rne (satDefault f) 0 (if rop = 3 then v.div (.fin false ⟨p, 1⟩) else v)

/-- The order in which terms of one element combine: ascending rank, or in fast mode the own first and the rest as they arrived. -/
def termOrder (l : List Piece) (k : ChunkKind) (elem me : Nat) (ranks : List Nat) (fast : Bool) : List Nat :=
  if fast then
    let all := l.filter (fun p => p.kind == k && p.elem == elem && ranks.contains p.src)
    (all.filter (fun p => p.src == me) ++ all.filter (fun p => p.src != me)).map (fun p => p.code)
  else ranks.filterMap (fun r => held l k (some r) elem)

/-- The row set of a member: the shards of its column (two dimensions), with the ranks of its row. -/
def Shape.rowShards (h : Shape) (me : Nat) : List Nat :=
  match h.nx with
  | none => []
  | some nx => h.columnRanks nx (me % nx)

/-- The ranks whose contributions a member combines. -/
def Shape.contributors (h : Shape) (me : Nat) : List Nat :=
  match h.nx with
  | none => List.range h.p
  | some nx => h.rowRanks nx (me / nx)

/-- The elements of a list of shards. -/
def Shape.elemsOf (h : Shape) (l : List Nat) : List Nat :=
  l.flatMap (fun k => (List.range (h.shard k).2).map (fun i => (h.shard k).1 + i))

/-- Terms of every element of a list are all held from the ranks. -/
def termsHeld (l : List Piece) (k : ChunkKind) (elems ranks : List Nat) : Bool :=
  elems.all (fun i => ranks.all (fun r => (held l k (some r) i).isSome))

/-- Form the row partials of a two-dimensional reduction (R295), with the engine cycles of R295's note: none unless every
contribution is held. -/
def formPartials (h : Shape) (me rop : Nat) (f : Fmt) (fast : Bool) (r : Running) : Running × Nat :=
  let elems := h.elemsOf (h.rowShards me)
  let ranks := h.contributors me
  if h.nx.isNone || !collReduces h.op || r.rowSent || !termsHeld r.pieces .contribution elems ranks then (r, 0)
  else
    let made := elems.map (fun i =>
      ({ kind := .rowPartial, src := me, elem := i, code := partialOf rop f (termOrder r.pieces .contribution i me ranks fast) } : Piece))
    ({ r with rowSent := true, pieces := r.pieces ++ made }, ranks.length * ceilDiv elems.length 512)

/-- Form the result of the own shard (R295). -/
def formResult (h : Shape) (me rop : Nat) (f : Fmt) (fast : Bool) (r : Running) : Running × Nat :=
  let elems := h.elemsOf [me]
  if !collReduces h.op || r.spread then (r, 0)
  else
    match h.nx with
    | none =>
      if !termsHeld r.pieces .contribution elems (List.range h.p) then (r, 0)
      else
        let made := elems.map (fun i =>
          let v := finishValue rop f h.p (partialOf rop f (termOrder r.pieces .contribution i me (List.range h.p) fast))
          (({ kind := .result, src := me, elem := i, code := v.1 } : Piece), v.2))
        ({ r with spread := true, pieces := r.pieces ++ made.map (fun p => p.1)
                  flags := r.flags ||| (made.foldl (fun a p => a.or p.2) NumFlags.none).toBits },
         h.p * ceilDiv elems.length 512)
    | some nx =>
      let ranks := h.columnRanks nx (me % nx)
      if !termsHeld r.pieces .rowPartial elems ranks then (r, 0)
      else
        let made := elems.map (fun i =>
          let v := finishValue rop f h.p (mergePartials rop f (termOrder r.pieces .rowPartial i me ranks fast))
          (({ kind := .result, src := me, elem := i, code := v.1 } : Piece), v.2))
        ({ r with spread := true, pieces := r.pieces ++ made.map (fun p => p.1)
                  flags := r.flags ||| (made.foldl (fun a p => a.or p.2) NumFlags.none).toBits },
         ranks.length * ceilDiv elems.length 512)

/-- A broadcast shard that has reached its member becomes what that member spreads (R299). -/
def formBroadcast (h : Shape) (me : Nat) (r : Running) : Running :=
  let elems := h.elemsOf [me]
  if h.op ≠ 0x13 ∨ r.spread ∨ !elems.all (fun i => (held r.pieces (.toRank h.root me) none i).isSome) then r
  else
    { r with
      spread := true
      pieces := r.pieces ++ elems.map (fun i =>
        ({ kind := .result, src := me, elem := i, code := (held r.pieces (.toRank h.root me) none i).getD 0 } : Piece)) }

/-- The records of all P members are held and agree with rank 0's (R302). -/
def Running.agreed (r : Running) (p : Nat) : Bool :=
  (List.range p).all (fun k => r.records.any (fun x => x.1 == k)) &&
  match r.records.find? (fun x => x.1 == 0) with
  | some z => r.records.all (fun x => recordHash x.2 == recordHash z.2)
  | none => false

/-! ### Writing DD (R294, R299, R302) -/

/-- The element of DD at which a piece lands, if it is one that this member writes. -/
def landing (h : Shape) (me : Nat) (p : Piece) : Option Nat :=
  match h.op, p.kind with
  | 0x10, .result => some p.elem
  | 0x11, .result => if p.src = me then some (p.elem - (h.shard me).1) else none
  | 0x12, .block => some p.elem
  | 0x13, .result => some p.elem
  | 0x14, .result => if me = h.root then some p.elem else none
  | 0x15, .toRank _ d => if d = me then some p.elem else none
  | _, _ => none

/-- Elements of DD that the member must have written to be done. -/
def landingCount (h : Shape) (me : Nat) : Nat :=
  match h.op with
  | 0x10 | 0x13 => h.e
  | 0x11 => (h.shard me).2
  | 0x12 | 0x15 => h.p * h.e
  | 0x14 => if me = h.root then h.e else 0
  | _ => 0

/-- Write every piece that has a place in DD and is not yet written. -/
def writeLanded (s : State) (h : Shape) (me : Nat) (e : Entry) (r : Running) : State × Running :=
  let d : Desc := e.d0.val
  r.pieces.foldl (fun (t : State × Running) p =>
    match landing h me p with
    | none => t
    | some i =>
      if t.2.results.any (fun x => x.1 == i) then t
      else
        let u := t.1.putElem d (i / d.cols) (i % d.cols) p.code
        ((if u.poison.isEmpty then u else u.cleanPoison [d.elemBytes (i / d.cols) (i % d.cols)]),
         { t.2 with results := t.2.results ++ [(i, p.code)] })) (s, r)

/-! ### One member's progress -/

/-- A member of a slot by rank. -/
def Group.member? (g : Group) (rank : Nat) : Option Member := g.members.find? (fun m => m.rank == rank)

/-- A member replaced. -/
def Group.putMember (g : Group) (m : Member) : Group := { g with members := g.members.map (fun (x : Member) => if x.rank = m.rank then m else x) }

/-- Another member's address: its chip, or this chip for a CORES group. -/
def State.memberChip (s : State) (g : Group) (r : Nat) : Nat := if g.gdef.kind = 3 then s.chip else s.rankChip g.gdef r

/-! ### Sending (R247, R272, R299, R301) -/

/-- The pieces of at most 16 KiB in which a flow of elements of a width leaves (R299). -/
def flowChunks (bits : Nat) (f : Flow) : List Flow :=
  let per := 0x2_0000 / bits
  (List.range (ceilDiv f.2.2 per)).map (fun i => (f.1, f.2.1 + i * per, min per (f.2.2 - i * per)))

/-- Bits of an element of a kind on its way: row partials of floating-point data are FP32 (R295). -/
def chunkBits (k : ChunkKind) (f : Fmt) : Nat := if k = .rowPartial ∧ !fmtIsInt f then 32 else fmtBits f

/-- All chunks that rank a has for rank b, in order. -/
def Shape.chunks (h : Shape) (f : Fmt) (a b : Nat) : List Flow := (h.flow a b).flatMap (fun x => flowChunks (chunkBits x.1 f) x)

/-- The bytes of what a stream carries for a collective: the 32 bytes of a record; of a chunk 8 bytes an element (the form is the model's own, log 81). -/
def CollItem.bytes : CollItem → List Byte
  | .record _ _ r => recordBytes r ++ bytesOfNat 8 r.arr.toNat
  | .chunk _ _ _ _ elems => elems.flatMap (fun x => bytesOfNat 8 x.2)

/-- A record or a chunk leaves for another member: along the mesh in a CORES group, otherwise on the stream of the member core to that chip on TC0 and
routing class XY, where it is kept until it is acknowledged (R247, R272, R277). `mc` marks a copy of a row or column multicast (R299). -/
def State.sendItem (s : State) (g : Group) (m : Member) (entry b : Nat) (mc : Bool) (x : CollItem) : State :=
  let msg : OutMsg :=
    { key := { core := m.core, svc := false, peer := s.memberChip g b, tc := 0, rc := false }
      msgid := 0, mop := 0, isNew := false, mc := mc, seq := entry, job := g.job, addr := 0, desc := 0, aop := 0, ring := 0, arg := 0
      data := x.bytes, since := s.now, route := [], hops := [], path := none, retry := false, retryAt := 0, crcFailed := false, drill := false
      coll := some x }
  if g.gdef.kind = 3 then
    let far := ((g.member? b).map (fun (x : Member) => x.core)).getD m.core
    (s.modCore (Fin.ofNat 32 m.core) (fun c => c.meshSend { seq := some entry, cls := .request, far := .core far, room := 0 })).emit msg.shown
  else
    let (msg, s) := s.newMessage msg
    s.launch msg

/-- A flow that R299 calls spread goes out as a multicast where the group has one: results and blocks of a ROW, COL or CORES group. -/
def spreads (g : Group) (op : Nat) (k : ChunkKind) : Bool :=
  g.gdef.kind != 2 && op != 0x14 && (match k with | .result | .block => true | _ => false)

/-- Send one chunk when all of its elements are held, it has not left yet, and fewer than two chunks to its peer wait to be consumed (R299). -/
def sendChunk (i : Nat) (g : Group) (m : Member) (op b : Nat) (t : State × Running) (x : Flow) : State × Running :=
  let r := t.2
  let src := flowSource x.1 m.rank
  if r.sent.contains (b, x) || !flowHeld r.pieces src x || decide (2 ≤ (r.unconsumed.filter (fun y => y.1 == b)).length) then t
  else
    (t.1.sendItem g m r.entry b (spreads g op x.1) (.chunk i b r.own.seq x.1 (flowElems r.pieces src x)),
     { r with sent := r.sent ++ [(b, x)], unconsumed := r.unconsumed ++ [(b, x)] })

/-- Send what can leave now (R299). -/
def sendChunks (s : State) (i : Nat) (g : Group) (m : Member) (h : Shape) (f : Fmt) (r : Running) : State × Running :=
  ((List.range g.p).filter (fun b => b != m.rank)).foldl (fun t b => (h.chunks f m.rank b).foldl (sendChunk i g m h.op b) t) (s, r)

/-- The queue entry of a member's running collective. -/
def State.collEntry (s : State) (m : Member) (seq : Nat) : Option Entry :=
  match s.cores[m.core]? with
  | some c => c.qComm.find? (fun e => e.seq == seq)
  | none => none

/-- Remove queue entries of a core by their numbers, and what their messages left on the mesh: the instructions end without a signal. -/
def State.dropEntries (s : State) (core : Nat) (seqs : List Nat) : State :=
  match s.cores[core]? with
  | some c => { s with cores := s.cores.setIfInBounds core (seqs.foldl (fun c q => c.retire .comm q) c) }
  | none => s

/-- Settle a core by number. -/
def State.settleAt (s : State) (core : Nat) : State := if h : core < 32 then s.settle ⟨core, h⟩ else s

/-- The check event of a combination on a core (R172, R295). -/
def combineEvent (s : State) (core : Nat) (job : Word) (pc : BitVec 48) (outcome : Nat) (drill : Bool) : CheckEvent :=
  { loc := locSimple 5 core 0, ft := s.ft, outcome := outcome, drill := drill, cls := 5, pc := pc, retryUs := 0, job := job, core := some core }

/-- The bytes of a tensor become undefined. -/
def State.loseTensor (s : State) (d : Desc) : State := if d.empty then s else s.freeOverlap d.ranges d.ranges

/-- What a member of a group whose staging area the program has touched forms now is undefined (R291): codes that nothing determines in place of those formed,
the pieces after the first `old`. -/
def State.disturbed (s : State) (g : Group) (f : Fmt) (old : Nat) (r : Running) : State × Running :=
  if !g.breached then (s, r)
  else
    (r.pieces.drop old).foldl (fun (t : State × Running) p =>
      (t.1.drew, { t.2 with pieces := t.2.pieces ++ [{ p with code := t.1.free.toNat % 2 ^ chunkBits p.kind f }] }))
      (s, { r with pieces := r.pieces.take old })

/-- What a member combines from what it holds, once the records agree (R295, R302), and the engine cycles that takes. -/
def combine (g : Group) (m : Member) (e : Entry) (r : Running) : Running × Nat :=
  let h := shapeOf g e
  let f : Fmt := Desc.fmt e.d1.val
  if r.agreed g.p then
    let (r1, c1) := formPartials h m.rank (collRop e) f (collFast e) r
    let (r2, c2) := formResult h m.rank (collRop e) f (collFast e) r1
    (r2, c1 + c2)
  else (r, 0)

/-- The shadow lanes compare a combination (R172, R295): a mismatch is recorded and the combination takes its cycles again (R211). -/
def State.checkCombination (s : State) (n : Fin 32) (job : Word) (pc : BitVec 48) (cycles : Nat) (k : CheckOutcome) (drill : Bool) : State :=
  let s := if k = .ok then s else s.recordCheck (combineEvent s n.val job pc (if k = .lasting then 1 else 0) drill)
  s.modCore n (fun c => { c with veccyc := c.veccyc + BitVec.ofNat 64 (if k = .ok then cycles else 2 * cycles) })

/-- A lasting fault in a combination: DD is lost, the collectives of the member end and the core traps (R216, R295, R306). -/
def combinationLost (s : State) (i : Nat) (g : Group) (m : Member) (r : Running) (n : Fin 32) (e : Entry) : State :=
  let h := shapeOf g e
  let s := if usesDd h.op m.rank h.root then s.loseTensor e.d0.val else s
  let s := (s.putGroup i (g.putMember { m with run := none, queue := [] })).dropEntries m.core (r.entry :: m.queue)
  (s.trap n [(.checkLasting, locSimple 5 m.core 0)] 5 e.pc).settle n

/-- What a member does with what it has combined: spread, forward, write DD (R299). Pieces after the first `old` are new. -/
def combinationDone (s : State) (i : Nat) (g : Group) (m : Member) (e : Entry) (old : Nat) (r : Running) : State :=
  let h := shapeOf g e
  let f : Fmt := Desc.fmt e.d1.val
  let (s, r) := s.disturbed g f old r
  let (s, r) := sendChunks s i g m h (if h.op = 0x13 then Desc.fmt e.d0.val else f) (formBroadcast h m.rank r)
  let (s, r) := if r.agreed g.p then writeLanded s h m.rank e r else (s, r)
  s.putGroup i (g.putMember { m with run := some r })

/-- Carry a member's running collective as far as what it holds allows: combine once the records agree, spread, forward, write DD. `k` is
what the shadow lanes find of a combination made now; a waiting drill of the vector engine is one (R453). -/
def progress (s : State) (i : Nat) (g : Group) (m : Member) (r : Running) (k : CheckOutcome) : State :=
  match s.collEntry m r.entry with
  | none => s
  | some e =>
    let (r', cycles) := combine g m e r
    if hc : m.core < 32 then
      let (k, drill, t) := if cycles ≠ 0 then s.inject (drillKind 5) m.core k else (CheckOutcome.ok, false, s)
      let t := t.checkCombination ⟨m.core, hc⟩ g.job e.pc cycles k drill
      if k = .lasting then combinationLost t i g m r ⟨m.core, hc⟩ e else combinationDone t i g m e r.pieces.length r'
    else s

/-- A peer has consumed a chunk of a member's running collective: the next one may leave (R299). -/
def chunkConsumed (s : State) (i : Nat) (core : Nat) (seq : BitVec 32) (b : Nat) (x : Flow) : State :=
  match s.group? i with
  | none => s
  | some g =>
    match g.members.find? (fun m => m.core == core) with
    | none => s
    | some m =>
      match m.run with
      | none => s
      | some r => if r.own.seq = seq then progress s i g m { r with unconsumed := r.unconsumed.erase (b, x) } .ok else s

/-! ### Abort (R304, R305, R307) -/

/-- CL_GRP[g]_ABORT of a report (R309). -/
def abortWord (a : AbortReport) : Word :=
  Word.place a.reason 4 60 ||| Word.place a.field 4 56 ||| Word.place a.rank 13 43 ||| Word.place (min a.nrank 2047) 11 32 ||| Word.place a.seq.toNat 32 0

/-- DD of the collective with a sequence number holds undefined bytes on a member: of the one that runs, of one still queued, or of the one that completed last
(R305). No member is further on, for each starts with the records of all. -/
def State.loseDd (s : State) (m : Member) (seq : BitVec 32) : State :=
  let entry := match m.run with
    | some r => if r.own.seq = seq then some r.entry else m.queue[(seq - m.nextSeq + 1).toNat]?
    | none => m.queue[(seq - m.nextSeq).toNat]?
  match entry.bind (s.collEntry m) with
  | some e => if usesDd (collOp e) m.rank e.ra.toNat then s.loseTensor e.d0.val else s
  | none =>
    match m.last with
    | some (q, d) => if q = seq then s.loseTensor d else s
    | none => s

/-- Every collective of a group ends without completing: queues emptied, instructions gone, the staging area undefined, and DD of the collective that `lost`
names for a member (R305, R306). -/
def State.stopGroup (s : State) (i : Nat) (g : Group) (phase : GroupPhase) (lost : Member → Option (BitVec 32)) : State :=
  let s := g.members.foldl (fun (t : State) m =>
    (match lost m with | some q => t.loseDd m q | none => t).dropEntries m.core (m.queue ++ (m.run.map (fun (r : Running) => r.entry)).toList)) s
  let s := (s.loseStaging g).putGroup i { g with
    phase := phase, early := [], earlyPieces := [], members := g.members.map (fun (m : Member) => { m with queue := [], run := none }) }
  g.members.foldl (fun (t : State) m => t.settleAt m.core) s

/-- The group aborts with a report: ABORTED, the report register, event 0x82 or 0x83, and the halt of the job (R305, R445). -/
def State.abortGroup (s : State) (i : Nat) (g : Group) (a : AbortReport) : State :=
  let s := s.stopGroup i g .aborted (fun _ => if a.reason = 2 then some a.seq else none)
  let s := s.setReg (Csr.clGrp i 0x28) (abortWord a)
  let s := s.raiseJob (if a.reason = 1 then 0x82 else 0x83) g.job [abortWord a]
  s.askHalt { job := g.job, cause := 5, detail := BitVec.ofNat 32 (i + a.reason * 256), loc := Word.place a.seq.toNat 32 0, ft := s.ft, fenced := false }

/-- A job halt reaches the member: each of the job's groups that is not ABORTED enters HALTED, with event 0x84 (R306); its report names the
interrupted collective, if one was running (R309). -/
def State.haltGroups (s : State) (job : Word) : State :=
  (List.range 64).foldl (fun (t : State) i =>
    match t.group? i with
    | some g =>
      if g.job = job ∧ g.phase ≠ .aborted ∧ g.phase ≠ .halted then
        let seq := match g.members.findSome? (fun m => m.run) with | some r => r.own.seq.toNat | none => 0
        (((t.stopGroup i g .halted (fun m => m.run.map (fun r => r.own.seq))).setReg (Csr.clGrp i 0x28) (Word.place 3 4 60 ||| Word.place seq 32 0))).raiseJob 0x84 job [BitVec.ofNat 64 i]
      else t
    | none => t) s

/-- The mismatch that P records show: the lowest rank that differs from rank 0, their number, the first differing field (R302). -/
def mismatch (r : Running) (p : Nat) : Option AbortReport :=
  match r.records.find? (fun x => x.1 == 0) with
  | none => none
  | some z =>
    if !(List.range p).all (fun k => r.records.any (fun x => x.1 == k)) then none
    else
      let bad := (List.range p).filter (fun k => r.records.any (fun x => x.1 == k && recordHash x.2 != recordHash z.2))
      match bad with
      | [] => none
      | b :: _ =>
        let field := match r.records.find? (fun x => x.1 == b) with | some x => firstDifference x.2 z.2 | none => 0
        some { reason := 1, field := field, rank := b, nrank := bad.length, seq := r.own.seq }

/-- Progress after a record or at a start: an abort for MISMATCH as soon as P records disagree, else onward. -/
def judge (s : State) (i : Nat) (g : Group) (m : Member) (r : Running) (k : CheckOutcome) : State :=
  match mismatch r g.p with
  | some a => s.abortGroup i (g.putMember { m with run := some r }) a
  | none => progress s i g m r k

/-! ### Commands -/

/-- A collective instruction moves from the comm queue into the queue of its group (R298). -/
def queueCollective (n : Fin 32) (op : Nat) (s : State) : Host.Outcome State Fault Refusal :=
  match (s.cores[n]).commWorking op with
  | none => .next s
  | some e =>
    match s.group? (collGrp e) with
    | none => .next s
    | some g =>
      match g.members.find? (fun m => m.core == n.val) with
      | none => .next s
      | some m =>
        if 64 ≤ m.queue.length then .next s
        else
          let s := s.modCore n (fun c => c.setQueue .comm (replaceEntry c.qComm { e with progress := 1 }))
          .next (s.putGroup (collGrp e) (g.putMember { m with queue := m.queue ++ [e.seq] }))

/-- CM_ALLREDUCE: an all-reduce enters the queue of its group (R123, R298, R299). -/
def execCmAllreduce (n : Fin 32) (s : State) : Host.Outcome State Fault Refusal := queueCollective n 0x10 s
/-- CM_REDSCAT: a reduce-scatter enters the queue of its group (R123, R298, R299). -/
def execCmRedscat (n : Fin 32) (s : State) : Host.Outcome State Fault Refusal := queueCollective n 0x11 s
/-- CM_ALLGATHER: an all-gather enters the queue of its group (R123, R298, R299). -/
def execCmAllgather (n : Fin 32) (s : State) : Host.Outcome State Fault Refusal := queueCollective n 0x12 s
/-- CM_BCAST: a broadcast enters the queue of its group (R123, R298, R299). -/
def execCmBcast (n : Fin 32) (s : State) : Host.Outcome State Fault Refusal := queueCollective n 0x13 s
/-- CM_REDUCE: a reduction to a root enters the queue of its group (R123, R298, R299). -/
def execCmReduce (n : Fin 32) (s : State) : Host.Outcome State Fault Refusal := queueCollective n 0x14 s
/-- CM_ALLTOALL: an all-to-all enters the queue of its group (R123, R298, R299). -/
def execCmAlltoall (n : Fin 32) (s : State) : Host.Outcome State Fault Refusal := queueCollective n 0x15 s
/-- CM_BARRIER: a barrier enters the queue of its group (R123, R298, R299). -/
def execCmBarrier (n : Fin 32) (s : State) : Host.Outcome State Fault Refusal := queueCollective n 0x16 s

/-- The first record that waits from each rank for a member, and the others. -/
def takeEarly (g : Group) (rank : Nat) : List (Nat × DescRec) × Group :=
  let mine := (List.range g.p).filterMap (fun r =>
    (g.early.find? (fun x => x.1 == rank && x.2.1 == r)).map (fun x => (r, x.2.2)))
  let rest := (List.range g.p).foldl (fun (l : List (Nat × Nat × DescRec)) r => l.eraseP (fun x => x.1 == rank && x.2.1 == r)) g.early
  (mine, { g with early := rest })

/-- COLLECTIVE_START: the head of a group's queue starts: it takes SEQ, sends its record ahead of its data and reads DS (R298 to R302).
A memory error on DS halts the job and the collective moves nothing (R235). -/
def execCollectiveStart (grp : Fin 64) (rank : Nat) (err : MemErr) (k : CheckOutcome) (s : State) : Host.Outcome State Fault Refusal :=
  match s.groups[grp] with
  | none => .next s
  | some g =>
    match g.member? rank with
    | none => .next s
    | some m =>
      match m.queue, m.run with
      | q :: _, none =>
        match s.collEntry m q with
        | none => .next s
        | some e =>
          if g.phase ≠ .ready ∨ e.failed then .next s
          else
            let h := shapeOf g e
            let ds : Desc := e.d1.val
            let reads := usesDs h.op rank h.root && !ds.empty
            let setEntry (t : State) (x : Entry) : State :=
              match t.cores[m.core]? with
              | some c => { t with cores := t.cores.setIfInBounds m.core (c.setQueue .comm (replaceEntry c.qComm x)) }
              | none => t
            match s.readCheck (if reads then err else .none) (if reads ∧ !s.poison.isEmpty then ds.ranges else []) with
            | (t, some a) =>
              .next ((setEntry t { e with failed := true }).askHalt
                (memoryHalt g.job t.ft a (match t.hbmPlace a with | some (x, _, _) => some x | none => none)))
            | (t, none) =>
              let t := setEntry t { e with executed := true }
              let own := recordOf e m.nextSeq t.ft
              let (recs, g) := takeEarly g rank
              let mine := (g.earlyPieces.filter (fun x => x.1 == rank && x.2.1 == own.seq)).map (fun x => x.2.2)
              let g := { g with earlyPieces := g.earlyPieces.filter (fun x => !(x.1 == rank && x.2.1 == own.seq)) }
              let t := ((List.range g.p).filter (fun b => b != rank)).foldl (fun (u : State) b => u.sendItem g m q b false (.record grp.val b own)) t
              let t := if reads then t.freeOverlap ds.ranges [stagingOf g.gdef] else t
              let pieces := (if reads then ownPieces t h rank e else []) ++ mine
              let r : Running :=
                { entry := q, own := own, records := (rank, own) :: recs, pieces := pieces, results := [], rowSent := false, spread := false
                  sent := [], unconsumed := [], flags := 0 }
              .next (judge t grp.val g { m with nextSeq := m.nextSeq + 1 } r k)
      | _, _ => .next s

/-- A record reaches a member: the k-th from a peer belongs to its k-th collective. With P records the hashes are compared (R302). One that is ahead of this
member, or of its group's creation, waits. -/
def State.takeRecord (s : State) (i : Nat) (dst src : Nat) (rec : DescRec) (k : CheckOutcome) : State :=
  match s.group? i with
  | none => s
  | some g =>
    if (g.phase ≠ .ready ∧ g.phase ≠ .creating) ∨ g.p ≤ src ∨ src = dst then s
    else
      let keep := s.putGroup i { g with early := g.early ++ [(dst, src, rec)] }
      match g.member? dst with
      | none => s
      | some m =>
        match m.run with
        | some r => if r.records.any (fun x => x.1 == src) then keep else judge s i g m { r with records := r.records ++ [(src, rec)] } k
        | none => keep

/-- A chunk reaches a member: it is staged, forwarded, combined or written (R295, R299, R302); a sender on the same device sees it consumed. -/
def State.takeChunk (s : State) (i : Nat) (dst src : Nat) (seq : BitVec 32) (kind : ChunkKind) (elems : List (Nat × Nat)) (k : CheckOutcome) : State :=
  match s.group? i with
  | none => s
  | some g =>
    if (g.phase ≠ .ready ∧ g.phase ≠ .creating) ∨ g.p ≤ src ∨ src = dst then s
    else
      let new := elems.map (fun x => ({ kind := kind, src := src, elem := x.1, code := x.2 } : Piece))
      let keep := s.putGroup i { g with earlyPieces := g.earlyPieces ++ new.map (fun p => (dst, seq, p)) }
      match g.member? dst with
      | none => s
      | some m =>
        let s := match m.run with
          | some r => if r.own.seq = seq then progress s i g m { r with pieces := r.pieces ++ new } k else keep
          | none => keep
        match (if g.gdef.kind = 3 then g.member? src else none) with
        | some from_ => chunkConsumed s i from_.core seq dst (kind, (elems.head?.map (fun x => x.1)).getD 0, elems.length)
        | none => s

/-- Something of a collective arrives: by the mesh in a CORES group, otherwise as a message of its stream, which is carried out once and in order and
acknowledged (R272, R277). -/
def arrive (s : State) (grp : Fin 64) (x : CollItem) (h : Option Msg) (effect : State → State) : State :=
  match h with
  | none => if (s.group? grp.val).any (fun g => g.gdef.kind == 3) then effect s else s
  | some hd =>
    if (s.group? grp.val).any (fun g => g.gdef.kind == 3) then s
    else receiveMessage s hd (transferCrc x.bytes 0) (againAck hd) (fun t => .done (effect t) .ack) id

/-- DESCRIPTOR_RECORD: a record arrives (R301, R302). -/
def execDescriptorRecord (grp : Fin 64) (dst src : Nat) (rec : DescRec) (k : CheckOutcome) (h : Option Msg) (s : State) :
    Host.Outcome State Fault Refusal :=
  .next (arrive s grp (.record grp.val dst rec) h (fun t => t.takeRecord grp.val dst src rec k))

/-- COLLECTIVE_CHUNK: data of a collective arrives (R295, R299, R302). -/
def execCollectiveChunk (grp : Fin 64) (dst src : Nat) (seq : BitVec 32) (kind : ChunkKind) (elems : List (Nat × Nat)) (k : CheckOutcome)
    (h : Option Msg) (s : State) : Host.Outcome State Fault Refusal :=
  .next (arrive s grp (.chunk grp.val dst seq kind elems) h (fun t => t.takeChunk grp.val dst src seq kind elems k))

/-- A record or chunk has been acknowledged: it is kept no longer, and a chunk's peer has consumed it (R277, R299). -/
def State.itemAcked (s : State) (m : OutMsg) (x : CollItem) : State :=
  let s := { s with outMsgs := s.outMsgs.filter (fun y => !(y.key == m.key && y.msgid == m.msgid)) }.noteCrcRetry m (s.messagePc m)
  match x with
  | .record _ _ _ => s
  | .chunk i b seq kind elems => chunkConsumed s i m.key.core seq b (kind, (elems.head?.map (fun e => e.1)).getD 0, elems.length)

/-- ACK: completes a put, a send or a signal (R275); or a record or chunk of a collective has been carried out at its member (R299). -/
def execAck (r : RespTo) (crc : Word) (s : State) : Host.Outcome State Fault Refusal :=
  .next (s.takeResponse r .ack crc (fun m =>
    match m.coll with
    | some x => s.itemAcked m x
    | none => if m.mop = 1 ∨ m.mop = 4 ∨ m.mop = 5 then s.messageDone m else s))

/-- Chunks whose acknowledgement belongs to a member's part (R299): at the root of a broadcast the shards that it sent, elsewhere in a reduction to a root
its result shard. -/
def awaitsAck (h : Shape) (me : Nat) (x : Nat × Flow) : Bool :=
  match h.op, x.2.1 with
  | 0x13, .toRank _ _ => me == h.root
  | 0x14, .result => me != h.root
  | _, _ => false

/-- A member's part is done: the last column of R299's table. It starts the next collective only when all that it sends or forwards has left (DESIGN CHOICE,
log 81). -/
def partDone (h : Shape) (f : Fmt) (me p : Nat) (r : Running) : Bool :=
  r.agreed p && decide (landingCount h me ≤ r.results.length) && (!(h.op == 0x14) || r.spread) &&
  (List.range p).all (fun b => (h.chunks f me b).all (fun x => r.sent.contains (b, x))) && !r.unconsumed.any (awaitsAck h me)

/-- LAST and LATE of P records (R303). -/
def lateness (l : List (Nat × DescRec)) (p : Nat) : Nat × Nat :=
  let arrs := (List.range p).filterMap (fun k => (l.find? (fun x => x.1 == k)).map (fun x => (k, x.2.arr.toNat)))
  let largest := arrs.foldl (fun a x => max a x.2) 0
  let smallest := arrs.foldl (fun a x => min a x.2) largest
  (((arrs.find? (fun x => x.2 == largest)).map (fun x => x.1)).getD 0, largest - smallest)

/-- Update the lateness registers and raise event 0x85 (R303, R309). -/
def State.noteLateness (s : State) (i : Nat) (g : Group) (m : Member) (r : Running) : State :=
  let (last, late) := lateness r.records g.p
  let s := s.setReg (Csr.clGrp i 0x10) (Word.place last 13 51 ||| Word.place (min late (2 ^ 48 - 1)) 48 0)
  let lmax := max (s.fld (Csr.clGrp i 0x18) 47 0) (min late (2 ^ 48 - 1))
  let s := s.setFld (Csr.clGrp i 0x18) 47 0 lmax
  let s := if last = m.rank then s.bump (Csr.clGrp i 0x18) 63 48 1 else s
  let s := s.bump (Csr.clGrp i 0x20) 63 0 late
  let s := if g.gdef.kind = 3 then s else { s with health := { s.health with late := (s.now, decide (last = m.rank)) :: s.health.late } }
  let limit := s.fld Csr.clCtl 47 32
  if limit ≠ 0 ∧ limit * 1000 < late then
    if s.lateRaised < 16 then { (s.raiseJob 0x85 g.job [Word.place i 6 0 ||| Word.place last 13 8, BitVec.ofNat 64 late]) with lateRaised := s.lateRaised + 1 }
    else s.withhold 0x85
  else s

/-- COLLECTIVE_COMPLETE: a member's part is done: the completion record, lateness, and the instruction's completion with its signal
(R61, R299, R303). -/
def execCollectiveComplete (grp : Fin 64) (rank : Nat) (s : State) : Host.Outcome State Fault Refusal :=
  match s.groups[grp] with
  | none => .next s
  | some g =>
    match g.member? rank with
    | none => .next s
    | some m =>
      match m.run with
      | none => .next s
      | some r =>
        match s.collEntry m r.entry with
        | none => .next s
        | some e =>
          let h := shapeOf g e
          if !partDone h (if h.op = 0x13 then Desc.fmt e.d0.val else Desc.fmt e.d1.val) rank g.p r then .next s
          else
            let dd : Desc := e.d0.val
            let ds : Desc := e.d1.val
            let writes := usesDd h.op rank h.root && !dd.empty
            let same := dd.identical ds && (h.op == 0x10 || h.op == 0x13)
            let others := (if usesDs h.op rank h.root && !ds.empty && !same then ds.ranges else []) ++ [stagingOf g.gdef]
            let s := if writes then s.freeOverlap dd.ranges (if g.breached then dd.ranges else others) else s
            let s := if g.members.head? = some m then s.noteLateness grp.val g m r else s
            let m' := { m with run := none, queue := m.queue.drop 1, done := m.done + 1,
                               last := some (r.own.seq, if writes then dd else 0) }
            let s := s.putGroup grp.val (g.putMember m')
            if hc : m.core < 32 then .next (finishEntry s ⟨m.core, hc⟩ .comm { e with flags := e.flags ||| r.flags })
            else .next s

/-- Ranks from which a member still awaits a record or data (R304). -/
def awaited (h : Shape) (me p : Nat) (r : Running) : List Nat :=
  (List.range p).filter (fun a =>
    a != me && (!r.records.any (fun x => x.1 == a) || (h.flow a me).any (fun f => !flowHeld r.pieces (some a) f)))

/-- COLLECTIVE_TIMEOUT: a collective not completed within its timeout aborts and reports the ranks it awaits; an ABORT record goes to
every other member (R304). -/
def execCollectiveTimeout (grp : Fin 64) (rank : Nat) (s : State) : Host.Outcome State Fault Refusal :=
  match s.groups[grp] with
  | none => .next s
  | some g =>
    match g.member? rank with
    | none => .next s
    | some m =>
      match m.run with
      | none => .next s
      | some r =>
        match s.collEntry m r.entry with
        | none => .next s
        | some e =>
          let limit := if g.gdef.timeout = 0 then max 1 (s.fld Csr.clCtl 31 0) else g.gdef.timeout
          if (s.ft - r.own.arr).toNat < limit * 1000000 then .next s
          else
            let l := awaited (shapeOf g e) rank g.p r
            let a : AbortReport := { reason := 2, field := 0, rank := l.headD 0, nrank := l.length, seq := r.own.seq }
            let s := ((List.range g.p).filter (fun b => b != rank)).foldl (fun (t : State) b => t.emit (.abort grp.val (s.memberChip g b) a)) s
            .next (s.abortGroup grp.val g a)

/-- ABORT: a member takes the received report as its own and aborts, also when it has not started the collective (R304, R307). -/
def execAbort (grp : Fin 64) (a : AbortReport) (s : State) : Host.Outcome State Fault Refusal :=
  match s.groups[grp] with
  | none => .next s
  | some g => if g.phase = .ready then .next (s.abortGroup grp.val g a) else .next s

end Sys2Proof.Machine
end

