-- ==== Sys2Proof/Machine/Matrix.lean ====
section
/-! DEFINITION. The matrix engine: what an issue accumulates in its bank and its check cells, what a drain writes, the banks and the
state of the arrays (spec/05 R131 to R158, 02 R43 to R49, 04 R115 to R117, 07 R194, R196 to R198, R206). -/

namespace Sys2Proof.Machine

/-! ### Operands -/

/-- Element (m, k) of A after TA, an MX element with its block's scale (R33, R115). -/
def issueA (s : State) (e : Entry) (m k : Nat) : Val :=
  let d : Desc := e.d0.val
  let ta := issueTA e.word
  let (r, c) := if ta then (k, m) else (m, k)
  if d.mxs then mxValue d.fmt (s.elem d r c) (s.mxScale d e.d0.next (!ta) r c) else elemDecode d.fmt (s.elem d r c)

/-- Element (k, n) of B after TB (R33, R115). -/
def issueB (s : State) (e : Entry) (k n : Nat) : Val :=
  let d : Desc := e.d1.val
  let tb := issueTB e.word
  let (r, c) := if tb then (n, k) else (k, n)
  if d.mxs then mxValue d.fmt (s.elem d r c) (s.mxScale d e.d1.next tb r c) else elemDecode d.fmt (s.elem d r c)

/-- The operand bytes of an issue in the model's read order: A, B, C, each in row-major order, scales after their tensor; the
CRC-64 that the product log keeps (R206). -/
def issueCrc (s : State) (e : Entry) : Word :=
  crc64 ((rangesOf (sourceDescs e)).flatMap (fun r => s.readBytes r.1 r.2))

/-- Cell depth d (R132): products per cycle of a data cell. -/
def cellDepth (a b : Fmt) : Nat :=
  let narrow (f : Fmt) : Bool := f == .fp4 || f == .e2m3 || f == .e3m2
  if (narrow a && narrow b) || (a == .int4 && b == .int4) then 4
  else if a == .bf16 || a == .fp16 || a == .fp32 then 1
  else 2

/-- A finite value in units of 2^-e; anything else enters fixed-point sums as 0 (R196, R197). -/
def toUnits (e : Nat) : Val → Int
  | .fin neg q => let x : Int := (q.num * 2 ^ e / q.den : Nat); if neg then -x else x
  | _ => 0

/-- The flags N, P, M of one product (R46): bits 0, 1, 2. -/
def classFlags : Val → BitVec 3
  | .nan => 1 | .inf false => 2 | .inf true => 4 | .fin _ _ => 0

/-- A list cut into pieces of d. -/
def chunksOf {α : Type} (d : Nat) : Nat → List α → List (List α)
  | 0, _ => []
  | _, [] => []
  | fuel + 1, l => l.take d :: chunksOf d fuel (l.drop d)

/-- The local reduction indices (block pairs for MX) that an issue gives to group g (R47, R49, R136). -/
def groupIndices (kacc k f g : Nat) : List Nat := (List.range k).filter (fun i => (kacc + i) % f = g)

/-! ### FP32 emulation (R48) -/

/-- The high part of an FP32 operand. -/
def highPart (v : Val) : Val := if v.isFinite then roundBf16Clamp v else v

/-- The low part of an FP32 operand. -/
def lowPart (v : Val) : Val := if v.isFinite then roundBf16Clamp (v.sub (highPart v)) else Val.zero

/-- The three passes in order: which part of a and which of b. -/
def fp32Passes : List ((Val → Val) × (Val → Val)) := [(lowPart, highPart), (highPart, lowPart), (highPart, highPart)]

/-- The passes of a mode; all but FP32 emulation run one over the operands themselves. -/
def passesOf (m : AccMode) : List ((Val → Val) × (Val → Val)) := if m = .fp32 then fp32Passes else [(id, id)]

/-- The contribution of a pair of elements in a pass (R48): a non-finite pair contributes +0 to the first two. -/
def passTerm (m : AccMode) (p : Nat) (f : (Val → Val) × (Val → Val)) (a b : Val) : Val :=
  if m = .fp32 ∧ p < 2 ∧ !(a.isFinite && b.isFinite) then Val.zero else (f.1 a).mul (f.2 b)

/-! ### Data cells -/

/-- The terms that one data cell adds to its partial in ordered mode (R47 to R49), in order. For MX the 32 products of a block
pair are one exact term, whose sum is −0 only when every product is −0. -/
def orderedTerms (m : AccMode) (idx : List Nat) (a b : Nat → Val) : List Val :=
  if m = .mx then
    idx.map (fun blk => (List.range 32).foldl (fun v i => v.add ((a (32 * blk + i)).mul (b (32 * blk + i)))) Val.negZero)
  else
    (passesOf m).zipIdx.flatMap (fun pf => idx.map (fun k => passTerm m pf.2 pf.1 (a k) (b k)))

/-- The element products of a cell: those whose class its flags record. -/
def cellProducts (m : AccMode) (idx : List Nat) (a b : Nat → Val) : List Val :=
  if m = .mx then idx.flatMap (fun blk => (List.range 32).map (fun i => (a (32 * blk + i)).mul (b (32 * blk + i))))
  else idx.map (fun k => (a k).mul (b k))

/-- The range of an exact-mode sum in units of 2^-32 (R45). -/
def accInRange (x : Int) : Bool := decide (-(2 ^ 87 : Int) ≤ x) && decide (x < (2 ^ 87 : Int))

/-- An exact-mode cell adds the products of one cycle (R44, R45). -/
def exactStep (c : DataCell) (terms : List Val) : DataCell :=
  let sum := c.acc.toInt + terms.foldl (fun t v => t + toUnits 32 v) 0
  { c with acc := BitVec.ofInt 88 sum, ovf := c.ovf || !accInRange sum }

/-- A binary64 value of bits. -/
def val64 (b : BitVec 64) : Val := floatDecode fp64Fmt b.toNat

/-- The bits of one rounding to binary64. -/
def bits64 (v : Val) : BitVec 64 := BitVec.ofNat 64 (floatEncode fp64Fmt .rne false 0 v).1

/-- A data cell after its share of an issue; in ordered mode with its own check term, which R200 asks for (log 24). -/
def cellAfter (m : AccMode) (d : Nat) (idx : List Nat) (a b : Nat → Val) (c : DataCell) : DataCell :=
  let fl := (cellProducts m idx a b).foldl (fun f v => f ||| classFlags v) 0
  let c := { c with flags := c.flags ||| fl, copy := c.copy ||| fl }
  if m = .exactFloat ∨ m = .exactInt then
    (chunksOf d idx.length idx).foldl (fun c ks => exactStep c (ks.map (fun k => (a k).mul (b k)))) c
  else
    { c with
      part := bitsFp32 ((orderedTerms m idx a b).foldl (fun acc t => roundFp32 (acc.add t)) (valFp32 c.part))
      term := bits64 ((cellProducts m idx a b).foldl (fun acc t => roundFp64 (acc.add (roundFp64 t))) (val64 c.term)) }

/-- A data cell at the start of a product (R46, R47): in ordered mode group 0 starts from C. The flags of a loaded C are kept with
those of the products, which R200 predicts classes from. -/
def cellStart (m : AccMode) (g : Nat) (c : Option Val) : DataCell :=
  let zero : DataCell := { acc := 0, part := 0, ovf := false, flags := 0, copy := 0, term := 0 }
  match m, g, c with
  | .exactFloat, _, _ => zero
  | .exactInt, _, _ => zero
  | _, 0, some v => { zero with part := bitsFp32 v, flags := classFlags v, copy := classFlags v, term := bits64 v }
  | _, _, _ => zero

/-! ### Check cells (R194, R196, R198) -/

/-- A check cell that has seen nothing. -/
def CheckCell.zero : CheckCell := { acc := 0, sum := 0, mass := 0 }

/-- 2^127 as a fraction. -/
def two127 : Frac := ⟨2 ^ 127, 1⟩

/-- The magnitude of a value is at least 2^127, or it is not finite. -/
def reaches127 : Val → Bool
  | .fin _ q => two127.le q
  | _ => true

/-- A check cell with binary64 sum and mass increased by one term. -/
def CheckCell.addTerm (c : CheckCell) (v mass : Val) : CheckCell :=
  let s := (val64 c.sum).add v
  let u := (val64 c.mass).add mass
  { c with sum := bits64 s, mass := bits64 u }

/-- A binary64 product. -/
def mul64 (a b : Val) : Val := roundFp64 (a.mul b)

/-- The binary64 sum of values, in ascending order. -/
def sum64 (l : List Val) : Val := l.foldl (fun a v => roundFp64 (a.add v)) Val.zero

/-- The exact sum, in units of 2^-16, of elements (R196, R197). -/
def sumUnits (l : List Val) : Int := l.foldl (fun a v => a + toUnits 16 v) 0

/-- A check cell of exact mode with Σ x·y added, modulo 2^104 (R196). -/
def CheckCell.addExact (c : CheckCell) (terms : List (Int × Int)) : CheckCell :=
  { c with acc := c.acc + BitVec.ofInt 104 (terms.foldl (fun a p => a + p.1 * p.2) 0) }

/-- A check cell of ordered mode with Σ x·y and Σ |x|·|y| added, in binary64 (R198). Each pair gives its values and magnitudes. -/
def CheckCell.addOrdered (c : CheckCell) (terms : List ((Val × Val) × (Val × Val))) : CheckCell :=
  terms.foldl (fun c t => c.addTerm (mul64 t.1.1 t.2.1) (mul64 t.1.2 t.2.2)) c

/-- The element indices behind local group indices: the 32 elements of each block pair for MX. -/
def elementIndices (m : AccMode) (idx : List Nat) : List Nat :=
  if m = .mx then idx.flatMap (fun b => (List.range 32).map (fun i => 32 * b + i)) else idx

/-- The output columns of array a (R131). -/
def arrayCols (n a : Nat) : List Nat := (List.range n).filter (fun j => j / 128 = a)

/-- Arrays that compute an output. -/
def arraysOf (n : Nat) : List Nat := List.range (ceilDiv n 128)

/-- A value and a magnitude summed over elements, in binary64. -/
def sumAndMass (l : List Val) : Val × Val := (sum64 l, sum64 (l.map Val.abs))

/-- Σ_k x_k × y_k added to a check cell, over element indices; x and y each give the list of elements that the value sums. -/
def CheckCell.addDot (c : CheckCell) (m : AccMode) (ks : List Nat) (x y : Nat → List Val) : CheckCell :=
  if m = .exactFloat ∨ m = .exactInt then c.addExact (ks.map (fun k => (sumUnits (x k), sumUnits (y k))))
  else
    (passesOf m).foldl (fun c p =>
      c.addOrdered (ks.map (fun k => (sumAndMass ((x k).map p.1), sumAndMass ((y k).map p.2))))) c

/-- A check cell that also receives values of C in ordered mode (R194). -/
def CheckCell.addC (c : CheckCell) (m : AccMode) (vs : List Val) : CheckCell :=
  if m = .exactFloat ∨ m = .exactInt then c else vs.foldl (fun c v => c.addTerm v v.abs) c

/-! ### The bank after an issue -/

/-- A loaded initial value at an output (R46). -/
def Bank.cAt (b : Bank) (m n : Nat) : Option Val :=
  match b.cInit with
  | some (f, l) => some (elemDecode f ((l[m * b.n + n]?).getD 0))
  | none => none

/-- The order of data cells: group, output row, output column. -/
def Bank.places (b : Bank) : List (Nat × Nat × Nat) :=
  (List.range b.fold).flatMap (fun g => (positions b.m b.n).map (fun p => (g, p.1, p.2)))

/-- The bank with its product's start values: C loaded, cells and check cells at their start (R46, R47, R194). -/
def Bank.load (b : Bank) (c : Option (Fmt × List Nat)) : Bank :=
  let b := { b with cInit := c }
  let cs (ps : List (Nat × Nat)) : List Val := ps.filterMap (fun p => b.cAt p.1 p.2)
  { b with
    cells := b.places.map (fun p => cellStart b.mode p.1 (b.cAt p.2.1 p.2.2))
    checkCols := (arraysOf b.n).flatMap (fun a => (List.range b.fold).flatMap (fun g => (List.range b.m).map (fun m =>
      if g = 0 then CheckCell.zero.addC b.mode (cs ((arrayCols b.n a).map (fun j => (m, j)))) else CheckCell.zero)))
    checkRows := (List.range b.n).map (fun j => CheckCell.zero.addC b.mode (cs ((List.range b.m).map (fun m => (m, j)))))
    corners := (arraysOf b.n).map (fun a =>
      CheckCell.zero.addC b.mode (cs ((List.range b.m).flatMap (fun m => (arrayCols b.n a).map (fun j => (m, j)))))) }

/-- The bank after k reduction indices (block pairs for MX) of operands A and B (R136, R194). -/
def Bank.accumulate (b : Bank) (k : Nat) (av bv : Nat → Nat → Val) : Bank :=
  let d := cellDepth b.fmtA b.fmtB
  let idx (g : Nat) := groupIndices b.kacc k b.fold g
  let ks (g : Nat) := elementIndices b.mode (idx g)
  let all := elementIndices b.mode (List.range k)
  let w (a kk : Nat) : List Val := (arrayCols b.n a).map (fun j => bv kk j)
  let col (kk : Nat) : List Val := (List.range b.m).map (fun m => av m kk)
  { b with
    cells := (b.cells.zip b.places).map (fun cp =>
      cellAfter b.mode d (idx cp.2.1) (fun kk => av cp.2.2.1 kk) (fun kk => bv kk cp.2.2.2) cp.1)
    checkCols := (b.checkCols.zip ((arraysOf b.n).flatMap (fun a => (positions b.fold b.m).map (fun p => (a, p))))).map
      (fun cp => cp.1.addDot b.mode (ks cp.2.2.1) (fun kk => [av cp.2.2.2 kk]) (w cp.2.1))
    checkRows := (b.checkRows.zip (List.range b.n)).map (fun cp =>
      cp.1.addDot b.mode all col (fun kk => [bv kk cp.2]))
    corners := (b.corners.zip (arraysOf b.n)).map (fun cp => cp.1.addDot b.mode all col (w cp.2))
    kacc := b.kacc + k }

/-- The bank after an issue has run into it, without the product log. -/
def Bank.runIssue (b : Bank) (s : State) (e : Entry) : Bank :=
  let c : Desc := e.d2.val
  let b :=
    if issueInit e.word = 1 then b
    else b.load (if issueInit e.word = 2 then some (c.fmt, (positions b.m b.n).map (fun p => s.elem c p.1 p.2)) else none)
  b.accumulate (issueIndices e) (issueA s e) (issueB s e)

/-! ### Occupancy (R138, R139, R141, R158) -/

/-- An operand streams at half rate (R138). -/
def halfRate (e : Entry) : Bool :=
  let a : Desc := e.d0.val
  let b : Desc := e.d1.val
  let halfA := if issueTA e.word then a.layout == 0 else a.layout == 1
  let halfB := if issueTB e.word then b.layout == 1 else b.layout == 0
  halfA || halfB

/-- Cycles that group g computes for (R139): t of the group. -/
def groupCycles (b : Bank) (k g : Nat) : Nat :=
  let c := (groupIndices b.kacc k b.fold g).length
  let d := cellDepth b.fmtA b.fmtB
  match b.mode with
  | .mx => c * 32 / d
  | .fp32 => 3 * c
  | _ => ceilDiv c d

/-- Bytes per cycle that the operand streams of an issue demand at h = 1 (R140): A, then B, MX scales included. -/
def streamBytes (b : Bank) (e : Entry) : Nat × Nat :=
  let d := cellDepth b.fmtA b.fmtB
  let mx := decide (b.mode = .mx)
  (128 * d * Desc.bits e.d0.val / 8 + (if mx then 4 * d else 0),
   512 * b.fold * d * Desc.bits e.d1.val / 8 + (if mx then 16 * d * b.fold else 0))

/-- What core n demands per cycle of its own read port and of the mesh: an operand in another core's scratchpad arrives at the mesh rate (R141, R226). -/
def streamDemand (n : Fin 32) (b : Bank) (e : Entry) : Nat × Nat :=
  let (x, y) := streamBytes b e
  let away (d : Desc) : Bool := match scratchOwner d.base with | some k => k != n.val | none => false
  ((if away e.d0.val then 0 else x) + (if away e.d1.val then 0 else y), (if away e.d0.val then x else 0) + (if away e.d1.val then y else 0))

/-- Cycles at a demand, stretched in proportion when a port supplies less (R141). -/
def stretched (cycles demand supply : Nat) : Nat := if demand ≤ supply then cycles else ceilDiv (cycles * demand) supply

/-- The occupancy T_e of an issue of core n into a bank as it was before (R139, R143): stretched by the demand on the core's 32 KiB read port and
on the 2 KiB mesh port (R141, R226). What other engines and other mesh traffic take of the ports is not the issue's own: it comes on top, in
the operand of MM_ISSUE. -/
def occupancy (n : Fin 32) (b : Bank) (e : Entry) : Nat :=
  if issueEmpty e then 0
  else
    let k := issueIndices e
    let c : Desc := e.d2.val
    let lc := if issueInit e.word = 2 then ceilDiv (ceilDiv (c.rows * c.cols * c.bits) 8) 16384 else 0
    if k = 0 then 1 + lc
    else
      let t := (List.range b.fold).foldl (fun m g => max m (groupCycles b k g)) 0
      let ht := (if halfRate e then 2 else 1) * t
      let (own, mesh) := streamDemand n b e
      lc + max (stretched ht own 32768) (stretched ht mesh 2048)

/-- Data cells that consumed a real operand pair, summed over the issue's cycles (R158). -/
def cellCycles (b : Bank) (e : Entry) : Nat :=
  if issueEmpty e then 0
  else b.m * b.n * (List.range b.fold).foldl (fun t g => t + groupCycles b (issueIndices e) g) 0

/-- The counters of core n after an issue or a retry's issue has held the arrays, `extra` cycles longer than by its own demand (R141, R158). -/
def Core.countIssue (c : Core) (n : Fin 32) (b : Bank) (e : Entry) (extra : Nat) : Core :=
  { c with
    mmcyc := c.mmcyc + BitVec.ofNat 64 (occupancy n b e + if issueEmpty e then 0 else extra)
    mmcell := c.mmcell + BitVec.ofNat 64 (cellCycles b e) }

/-! ### The commands of issues -/

/-- The instruction of a context that works next: its oldest whose effect is not yet taken, once it has started (R114). -/
def Core.contextWorking (c : Core) (q : QueueId) : Option Entry :=
  match (c.queue q).find? (fun e => !e.executed && !e.failed) with
  | some e => if e.started then some e else none
  | none => none

/-- The started matrix instruction of a kind that its engine works on: of those whose context's earlier instructions have taken their effect (R114), the
oldest. -/
def Core.matrixWorking (c : Core) (op : Nat) : Option (QueueId × Entry) :=
  let pick (q : QueueId) : Option Entry := (c.contextWorking q).filter (fun e => wOp e.word == op)
  match pick .ctx0, pick .ctx1 with
  | some a, some b => if a.seq < b.seq then some (.ctx0, a) else some (.ctx1, b)
  | some a, none => some (.ctx0, a)
  | none, some b => some (.ctx1, b)
  | none, none => none

/-- A bank after an issue has run into it: an empty product reads nothing and only counts its indices (R136, R143). -/
def Bank.afterIssue (b : Bank) (s : State) (e : Entry) : Bank :=
  if issueEmpty e then { b with phase := .held, kacc := b.kacc + issueIndices e } else b.runIssue s e

/-- The CRC-64 of the operand bytes of an issue, for the product log (R206). -/
def issueLogCrc (s : State) (e : Entry) : Word := if issueEmpty e then crc64 [] else issueCrc s e

/-- MM_ISSUE: the started issue of core n reads its operands and accumulates in its bank and its check cells; the product log
takes its entry (R115, R136, R144, R194, R206). `stretch` are the cycles for which other reads of the ports held it longer (R141). -/
def execMmIssue (n : Fin 32) (stretch : Nat) (s : State) : Host.Outcome State Fault Refusal :=
  let c := s.cores[n]
  match c.matrixWorking 0 with
  | none => .next s
  | some (q, e) =>
    let s := s.raceBefore n q e
    let k := issueBank e.word
    let b := c.bank k
    let entry : ProductIssue := { entry := e, crc := issueLogCrc s e }
    let s := s.modCore n (fun c => (c.countIssue n b e stretch).setBank k { b.afterIssue s e with log := b.log ++ [entry] })
    .next (s.markExecuted n q e 0 [])

/-- The array row of an output row of a group, and back (R135). -/
def arrayRow (b : Bank) (g m : Nat) : Nat := m + g * (128 / b.fold)

/-- The place of the data cell at an array, row and column among the bank's cells; none when it computes no output (R137). -/
def Bank.cellPlace (b : Bank) (array row col : Nat) : Option Nat :=
  let per := 128 / b.fold
  let g := row / per
  let m := row % per
  let j := array * 128 + col
  if row < 128 ∧ col < 128 ∧ m < b.m ∧ j < b.n then some ((g * b.m + m) * b.n + j) else none

/-- The list with its i-th member changed. -/
def modAt {α : Type} (l : List α) (i : Nat) (f : α → α) : List α := l.zipIdx.map (fun p => if p.2 = i then f p.1 else p.1)

/-- A check cell with one bit flipped: of the 104-bit sum in exact mode, of the binary64 sum otherwise (R196, R198). -/
def CheckCell.flip (c : CheckCell) (m : AccMode) (bit : Nat) : CheckCell :=
  if m = .exactFloat ∨ m = .exactInt then { c with acc := c.acc ^^^ BitVec.ofNat 104 (2 ^ (bit % 104)) }
  else { c with sum := c.sum ^^^ BitVec.ofNat 64 (2 ^ (bit % 64)) }

/-- What a fault does to a bank (R192, R201). -/
def Bank.upset (b : Bank) (u : Upset) : Bank :=
  match u with
  | .cell a r c bit =>
    match b.cellPlace a r c with
    | some i => { b with cells := modAt b.cells i (fun x =>
        if b.mode = .exactFloat ∨ b.mode = .exactInt then { x with acc := x.acc ^^^ BitVec.ofNat 88 (2 ^ (bit % 88)) }
        else { x with part := x.part ^^^ BitVec.ofNat 32 (2 ^ (bit % 32)) }) }
    | none => b
  | .checkCol a r bit =>
    match b.cellPlace a r 0 with
    | some _ =>
      let per := 128 / b.fold
      { b with checkCols := modAt b.checkCols ((a * b.fold + r / per) * b.m + r % per) (fun x => x.flip b.mode bit) }
    | none => b
  | .checkRow a c bit => if a * 128 + c < b.n ∧ c < 128 then
      { b with checkRows := modAt b.checkRows (a * 128 + c) (fun x => x.flip b.mode bit) } else b
  | .corner a bit => { b with corners := modAt b.corners a (fun x => x.flip b.mode bit) }
  | .flag a r c bit =>
    match b.cellPlace a r c with
    | some i => { b with cells := modAt b.cells i (fun x => { x with copy := x.copy ^^^ BitVec.ofNat 3 (2 ^ (bit % 3)) }) }
    | none => b
  | .mismatch a r c => if b.mismatch.isSome then b else { b with mismatch := some (a, r, c) }

/-- ISSUE_ACCUMULATED: the last product of the last issue into a bank has been accumulated and the bank holds its product
(R144, R145); the upsets are the faults that have struck it. -/
def execIssueAccumulated (n : Fin 32) (bank : Bool) (upsets : List Upset) (s : State) : Host.Outcome State Fault Refusal :=
  let c := s.cores[n]
  let b := c.bank bank
  if b.phase = .accum ∧ c.matrixEntries.all (fun e => !(e.started && wOp e.word == 0 && issueBank e.word == bank)) then
    .next (s.setCore n (c.setBank bank (upsets.foldl Bank.upset { b with phase := .held })))
  else .next s

/-! ### Drain (R45 to R47, R146, R147) -/

/-- FP32 partials combined by the balanced tree of R47. -/
def treeSum : Nat → List Val → Val
  | 0, l => l.headD Val.zero
  | fuel + 1, l =>
    match l with
    | [] => Val.zero
    | [v] => v
    | _ => treeSum fuel ((chunksOf 2 l.length l).map (fun p =>
        match p with
        | [a, b] => roundFp32 (a.add b)
        | _ => p.headD Val.zero))

/-- The cells of the F groups that hold partials of output (m, n). -/
def Bank.partials (b : Bank) (m n : Nat) : List DataCell :=
  (List.range b.fold).filterMap (fun g => b.cells[(g * b.m + m) * b.n + n]?)

/-- The per-tensor scale as a value: 1.0 when none is given (R46). -/
def scaleVal : Option (BitVec 32) → Val
  | some x => valFp32 x
  | none => Val.one

/-- The exact value that a drain rounds for output (m, n), and whether the output overflowed (R45, R46). -/
def Bank.outputValue (b : Bank) (m n : Nat) : Val × Bool :=
  let cells := b.partials m n
  match b.mode with
  | .exactFloat | .exactInt =>
    let total := cells.foldl (fun t c => t + c.acc.toInt) 0
    let fl := cells.foldl (fun f c => f ||| c.flags) 0
    let v : Val :=
      if fl.getLsbD 0 || (fl.getLsbD 1 && fl.getLsbD 2) then .nan
      else if fl.getLsbD 1 then .inf false
      else if fl.getLsbD 2 then .inf true
      else .fin (decide (total < 0)) (Frac.norm ⟨total.natAbs, 2 ^ 32⟩)
    let c := (b.cAt m n).getD Val.zero
    let r := (((scaleVal b.scaleA).mul (scaleVal b.scaleB)).mul v).add c
    let negZeroC : Bool := match c with | .fin true q => q.isZero | _ => false
    let r := if r.isZero then (if negZeroC && v.isZero then Val.negZero else Val.zero) else r
    (r, cells.any (·.ovf) || !accInRange total)
  | _ => (treeSum b.fold (cells.map (fun c => valFp32 c.part)), false)

/-- The element that a drain writes: an overflowed output becomes the canonical NaN, or the most negative value (R45). -/
def drainElement (b : Bank) (e : Entry) (m n : Nat) : Nat × NumFlags :=
  let d : Desc := e.d0.val
  match b.outputValue m n with
  | (_, true) =>
    let code := match floatFmt d.fmt with
      | some f => f.nanCode
      | none => 2 ^ (d.bits - 1)
    (code, { NumFlags.none with acc := true })
  | (v, false) => encodeAt (e.word.field 31 30) (e.word.field 29 28) e.ra d m n v

/-- The state after a drain of a bank's image has written its destination, with the flags it raises. -/
def drainEffect (s : State) (b : Bank) (e : Entry) : State × NumFlags :=
  s.putValues e.d0.val (drainElement b e)

/-- MM_DRAIN: the started drain of core n reads its bank, rounds and writes its destination (R46, R47, R146, R147). -/
def execMmDrain (n : Fin 32) (s : State) : Host.Outcome State Fault Refusal :=
  let c := s.cores[n]
  match c.matrixWorking 1 with
  | none => .next s
  | some (q, e) =>
    match c.drainOf e.seq with
    | none => .next s
    | some d =>
      let (t, f) := if d.image.m = 0 ∨ d.image.n = 0 then (s, NumFlags.none) else drainEffect (s.raceBefore n q e) d.image e
      .next ((t.raceAfter n q e).markExecuted n q e f.toBits [])

/-- DRAIN_BANK_READ: the oldest drain that still reads its bank has read it: the bank becomes EMPTY and the drain path takes the
next drain (R145, R146). -/
def execDrainBankRead (n : Fin 32) (s : State) : Host.Outcome State Fault Refusal :=
  let c := s.cores[n]
  match c.drains.find? (fun d => !d.read) with
  | none => .next s
  | some d =>
    let c := { c with drains := c.drains.map (fun (x : DrainRec) => if x.entry.seq = d.entry.seq then { x with read := true } else x) }
    .next (s.setCore n (c.setBank d.bank Bank.vacant))

/-! ### Keep-warm and ramping (R154, R155) -/

/-- ARRAYS_GATE: the duty has fallen to 0 in RAMP (R154). -/
def execArraysGate (n : Fin 32) (s : State) : Host.Outcome State Fault Refusal :=
  let c := s.cores[n]
  if c.arrays = .ramp ∧ c.dutyNow s.now = 0 then .next (s.setCore n { c with arrays := .gated, duty := 0, arraysSince := s.now }) else .next s

/-- ARRAYS_RISE_END: the duty has reached 100% in RISE: ACTIVE if an issue holds the arrays, otherwise WARM (R154). -/
def execArraysRiseEnd (n : Fin 32) (s : State) : Host.Outcome State Fault Refusal :=
  let c := s.cores[n]
  if c.arrays = .rise ∧ c.dutyNow s.now = 100 then
    .next (s.setCore n { c with arrays := if c.arraysBusy then .active else .warm, duty := 100, arraysSince := s.now })
  else .next s

/-- KEEP_WARM_EXPIRY: the window KW has elapsed in WARM: RAMP. Values above 200 act as 200 (R158). -/
def execKeepWarmExpiry (n : Fin 32) (s : State) : Host.Outcome State Fault Refusal :=
  let c := s.cores[n]
  if c.arrays = .warm ∧ min (c.mmcfg.field 7 0) 200 * 100 ≤ s.now - c.arraysSince then .next (s.setCore n (c.arraysTo .ramp s.now))
  else .next s

end Sys2Proof.Machine
end

