-- ==== Sys2Proof/Machine/MatrixCheck.lean ====
section
/-! DEFINITION. The check of a drained product: comparisons, localisation, verdict, checked semaphore, and the retry of the whole
product (spec/07 R194 to R210, R216 to R218). -/

namespace Sys2Proof.Machine

/-! ### Comparisons (R195, R196, R198, R200) -/

/-- Terms that group g has added to each of its partials (R198). -/
def Bank.rowTerms (b : Bank) (g : Nat) : Nat :=
  (if b.mode = .fp32 then 3 else 1) * ((b.kacc + b.fold - 1 - g) / b.fold) + (if g = 0 ∧ b.cInit.isSome then 1 else 0)

/-- Terms of the longest group of a column (R198). -/
def Bank.colTerms (b : Bank) : Nat := productTerms b.mode b.kacc b.fold b.cInit.isSome

/-- f(c) of R198. -/
def tauFactor (c : Nat) : Frac := if c ≤ 2 ^ 22 then ⟨c + 2, 2 ^ 23⟩ else ⟨2, 1⟩

/-- The tolerance τ of R198 for c terms and mass u. -/
def tolerance (c : Nat) (u : Val) : Val :=
  ((Val.fin false (tauFactor c)).mul u).add (.fin false ⟨c + 1, 2 ^ 133⟩)

/-- The class that the duplicated flags N, P, M of a cell predict is the class of its output; an output that overflowed to an infinity passes where
its own check term has a magnitude of at least 2^127 (R200). -/
def DataCell.classAgrees (x : DataCell) : Bool :=
  let nan := x.flags.getLsbD 0 || (x.flags.getLsbD 1 && x.flags.getLsbD 2)
  match valFp32 x.part with
  | .nan => nan
  | .inf neg => !nan && (x.flags.getLsbD (if neg then 2 else 1) || (x.flags == 0 && reaches127 (val64 x.term)))
  | .fin _ _ => x.flags == 0

/-- The comparison of ordered mode of the cells of a row or column with its check cell fails (R198, R200). -/
def orderedFails (cells : List DataCell) (k : CheckCell) (c : Nat) : Bool :=
  let data := sum64 (cells.map (fun x => valFp32 x.part))
  let check := val64 k.sum
  let u := val64 k.mass
  if data.isFinite && check.isFinite && u.isFinite then (tolerance c u).ltNum ((data.sub check).abs)
  else cells.any (fun x => !x.classAgrees)

/-- The comparison of exact mode fails: modulo 2^88 (R196). -/
def exactFails (cells : List DataCell) (k : CheckCell) : Bool :=
  cells.foldl (fun t x => t + x.acc) 0 != k.acc.truncate 88

/-- A row or column comparison fails. -/
def lineFails (m : AccMode) (cells : List DataCell) (k : CheckCell) (c : Nat) : Bool :=
  if m = .exactFloat ∨ m = .exactInt then exactFails cells k else orderedFails cells k c

/-- The data cell of a group at output row and column. -/
def Bank.cell? (b : Bank) (g m j : Nat) : Option DataCell := b.cells[(g * b.m + m) * b.n + j]?

/-- Array rows of array a whose comparison fails. -/
def Bank.failedRows (b : Bank) (a : Nat) : List Nat :=
  ((positions b.fold b.m).filter (fun p =>
    lineFails b.mode ((arrayCols b.n a).filterMap (fun j => b.cell? p.1 p.2 j))
      ((b.checkCols[(a * b.fold + p.1) * b.m + p.2]?).getD CheckCell.zero) (b.rowTerms p.1))).map
    (fun p => arrayRow b p.1 p.2)

/-- Array columns of array a whose comparison fails. -/
def Bank.failedCols (b : Bank) (a : Nat) : List Nat :=
  ((arrayCols b.n a).filter (fun j =>
    lineFails b.mode ((positions b.fold b.m).filterMap (fun p => b.cell? p.1 p.2 j))
      ((b.checkRows[j]?).getD CheckCell.zero) b.colTerms)).map (fun j => j % 128)

/-- The corner of array a disagrees with the sum of its check columns or of its check rows (R196, R198). A corner with a non-finite
sum is not compared: rows and columns then go by class (R200). -/
def Bank.cornerFails (b : Bank) (a : Nat) : Bool :=
  let k := (b.corners[a]?).getD CheckCell.zero
  let cols := (List.range (b.fold * b.m)).filterMap (fun i => b.checkCols[a * b.fold * b.m + i]?)
  let rows := (arrayCols b.n a).filterMap (fun j => b.checkRows[j]?)
  if b.mode = .exactFloat ∨ b.mode = .exactInt then
    cols.foldl (fun t x => t + x.acc) 0 != k.acc || rows.foldl (fun t x => t + x.acc) 0 != k.acc
  else
    let v := val64 k.sum
    let lim := (val64 k.mass).scale (-40)
    let off (l : List CheckCell) : Bool :=
      let t := sum64 (l.map (fun x => val64 x.sum))
      t.isFinite && v.isFinite && lim.isFinite && lim.ltNum ((t.sub v).abs)
    off cols || off rows

/-- The first duplicate or parity mismatch in array a: one recorded on the way, or a cell whose two flag copies differ (R192, R197). -/
def Bank.mismatchIn (b : Bank) (a : Nat) : Option (Nat × Nat) :=
  match b.mismatch with
  | some (a', r, c) => if a' = a then some (r, c) else none
  | none =>
    ((positions b.fold b.m).flatMap (fun p => (arrayCols b.n a).map (fun j => (p, j)))).findSome? (fun x =>
      match b.cell? x.1.1 x.1.2 x.2 with
      | some c => if c.flags = c.copy then none else some (arrayRow b x.1.1 x.1.2, x.2 % 128)
      | none => none)

/-! ### Localisation (R201, R217) -/

/-- UNIT, ROW and COL of a failure pattern of one array; none when nothing failed. A check cell's own fault may fail its row or
column and the corner at once: it is located at the check cell. One row and one column with a disagreeing corner is no row of R201's table: it is
UNIT 3 with both places (log 74). -/
def locate (rows cols : List Nat) (corner : Bool) (mismatch : Option (Nat × Nat)) : Option (Nat × Nat × Nat) :=
  match mismatch, rows, cols with
  | some (r, c), _, _ => some (4, r, c)
  | none, [], [] => if corner then some (2, 128, 128) else none
  | none, [i], [] => some (2, i, 128)
  | none, [], [j] => some (2, 128, j)
  | none, [i], [j] => if corner then some (3, i, j) else some (1, i, j)
  | none, r, c => some (3, r.headD 0xFF, c.headD 0xFF)

/-- The location word of the first array whose check fails; none when the verdict is clean (R201, R202, R217). -/
def Bank.verdict (b : Bank) (core : Nat) (bank : Bool) : Option Word :=
  if b.m = 0 ∨ b.n = 0 then none
  else
    (arraysOf b.n).findSome? (fun a =>
      let rows := b.failedRows a
      let cols := b.failedCols a
      match locate rows cols (b.cornerFails a) (b.mismatchIn a) with
      | some (u, r, c) => some (locWord u core a bank r c rows.length cols.length 0)
      | none => none)

/-! ### Verdict (R202 to R205) -/

/-- Retries in progress (CHK_STAT.PEND). -/
def State.pendAdd (s : State) (up : Bool) : State :=
  let v := s.fld Csr.chkStat 47 40
  s.setFld Csr.chkStat 47 40 (if up then min 255 (v + 1) else v - 1)

/-- A drain record replaced. -/
def Core.putDrain (c : Core) (d : DrainRec) : Core :=
  { c with drains := c.drains.map (fun x => if x.entry.seq = d.entry.seq then d else x) }

/-- The drain has written its results (it is past its effect). -/
def Core.drainDone (c : Core) (d : DrainRec) : Bool :=
  c.matrixEntries.all (fun e => e.seq != d.entry.seq || e.executed)

/-- The drain has completed: its instruction has left its queue. -/
def Core.drainLeft (c : Core) (d : DrainRec) : Bool := c.matrixEntries.all (fun e => e.seq != d.entry.seq)

/-- DRAIN_VERDICT: the comparisons of the oldest drain that has read its bank and has an open verdict are complete: clean, and the checked semaphore is
signalled once the drain has completed; or the retry is requested (R202). A drill moves one check-column value of a clean product (R453). -/
def execDrainVerdict (n : Fin 32) (s : State) : Host.Outcome State Fault Refusal :=
  let c := s.cores[n]
  match c.drains.find? (fun d => d.phase == .open && d.read && c.drainDone d) with
  | none => .next s
  | some d =>
    match d.image.verdict n.val d.bank with
    | none =>
      if s.drillArmed 0 n.val false ∧ d.image.m ≠ 0 ∧ d.image.n ≠ 0 then
        let loc := locWord 2 n.val 0 d.bank (s.free.toNat % d.image.m) 128 1 1 0
        let s := (s.drew.drillDrop 0 n.val).drillFired 0
        .next ((s.modCore n (fun c => c.putDrain
          { d with phase := .retryWaiting, loc := loc, failFt := s.ft, failNow := s.now, drill := true })).pendAdd true)
      else if c.drainLeft d then .next ((s.checkedClean n d).settle n)
      else .next (s.modCore n (fun c => c.putDrain { d with phase := .clean }))
    | some loc =>
      .next ((s.modCore n (fun c => c.putDrain
        { d with phase := .retryWaiting, loc := loc, failFt := s.ft, failNow := s.now })).pendAdd true)

/-! ### The retry (R206 to R210, R216) -/

/-- The event of a retry's outcome (R216, R218, R219). -/
def retryEvent (s : State) (n : Fin 32) (d : DrainRec) (outcome : Nat) (loc : Word) : CheckEvent :=
  { loc := loc, ft := d.failFt, outcome := outcome, drill := d.drill, cls := 2, pc := d.entry.pc
    retryUs := (s.now - d.failNow) / 1000, job := (s.cores[n]).job, core := some n.val }

/-- The bank that the failed product occupied takes back the product saved before the retry (R207). -/
def Core.restoreSaved (c : Core) (d : DrainRec) : Core :=
  { c.setBank d.bank (c.saved.getD Bank.vacant) with saved := none }

/-- The log run again in order: the bank it leaves, or the index of the issue whose operand bytes have changed (R207, R210). -/
def rerun (s : State) : Nat → Bank → List ProductIssue → Except Nat Bank
  | _, b, [] => .ok b
  | i, b, p :: t => if issueLogCrc s p.entry ≠ p.crc then .error i else rerun s (i + 1) ((bankAtIssue b p.entry).afterIssue s p.entry) t

/-- The counters after the issues of a log have held the arrays again (R158, R207). -/
def countRerun (n : Fin 32) (c : Core) : Bank → List ProductIssue → Core
  | _, [] => c
  | b, p :: t =>
    let b := bankAtIssue b p.entry
    countRerun n (c.countIssue n b p.entry 0) { b with kacc := b.kacc + issueIndices p.entry } t

/-- MATRIX_RETRY: the oldest failed product runs again from its log into its bank, a product that has started there being saved
first, and the retry drain reads it (R205 to R207). Changed operands end the retry at their issue and make it void (R210); a memory error in the operand
reads halts the job (R235). The upsets are faults that strike the retry. -/
def execMatrixRetry (n : Fin 32) (upsets : List Upset) (err : MemErr) (s : State) : Host.Outcome State Fault Refusal :=
  let c := s.cores[n]
  match c.drains.find? (fun d => d.phase == .retryWaiting) with
  | none => .next s
  | some d =>
    if c.arraysBusy || c.drains.any (fun x => x.phase == .retryDrained || !x.read) || !c.drainDone d then .next s
    else
      let again := rerun s 0 Bank.vacant d.image.log
      let ran := match again with
        | .ok _ => d.image.log
        | .error i => d.image.log.take (i + 1)
      let srcs := ran.flatMap (fun p => if issueEmpty p.entry then [] else sourceDescs p.entry)
      match s.readCheck err (if s.poison.isEmpty then [] else rangesOf (srcs.filter (fun x => !Desc.empty x))) with
      | (s, some a) => .next (s.askHalt (memoryHalt c.job s.ft a none))
      | (s, none) =>
        let old := c.bank d.bank
        let c := { c with saved := if old.phase = .empty then none else some old }
        let c := countRerun n c Bank.vacant ran
        match again with
        | .ok b =>
          let b := upsets.foldl Bank.upset { b with phase := .draining, log := d.image.log }
          .next (s.setCore n ((c.setBank d.bank b).putDrain { d with phase := .retryDrained, image := b }))
        | .error i =>
          let loc := locWord 11 n.val 0 d.bank 0xFF 0xFF 0 0 i
          let s := (s.recordCheck (retryEvent s n d 2 loc)).pendAdd false
          let s := s.setCore n ((c.restoreSaved d).dropDrain d)
          .next ((s.trap n [(.checkLasting, loc)] 2 d.entry.pc).settle n)

/-- RETRY_VERDICT: the retry drain's comparisons: clean, the destination is rewritten, the event was transient, the checked
semaphore is signalled, and a flag that the rewritten results raise traps (R38); failed again, the fault is lasting and the destination keeps the first
drain's values (R205, R207, R216). -/
def execRetryVerdict (n : Fin 32) (s : State) : Host.Outcome State Fault Refusal :=
  let c := s.cores[n]
  match c.drains.find? (fun d => d.phase == .retryDrained) with
  | none => .next s
  | some d =>
    let s := (s.setCore n (c.restoreSaved d)).pendAdd false
    match d.image.verdict n.val d.bank with
    | none =>
      let (s, f) := drainEffect s d.image d.entry
      let s := s.modCore n (fun c => { c with numst := numstRaise c.numst f.toBits })
      let s := (s.recordCheck (retryEvent s n d 0 d.loc)).checkedClean n d
      .next ((s.trap n (numericConditions (s.cores[n]).numst f.toBits) 2 d.entry.pc).settle n)
    | some _ =>
      let s := (s.recordCheck (retryEvent s n d 1 d.loc)).modCore n (fun c => c.dropDrain d)
      .next ((s.trap n [(.checkLasting, d.loc)] 2 d.entry.pc).settle n)

end Sys2Proof.Machine
end

