-- ==== Sys2Proof/Machine/Module.lean ====
section
/-! DEFINITION. Operations that concern the module or a whole job: module states, completion records, cores that enter and leave a job, the halt of
a job on this device (spec/13 R377; 12 R357, R360, R361; 03 R60, R86, R228; 15 R443 to R447). -/

namespace Sys2Proof.Machine

/-! ### Module states (R377) -/

def mOff : Nat := 0
def mStandby : Nat := 1
def mBoot : Nat := 2
def mReady : Nat := 3
def mHeld : Nat := 4
def mTripped : Nat := 5

/-- POW_STAT.MSTATE. -/
def State.mstate (s : State) : Nat := s.fld Csr.powStat 63 60

/-- Enter a module state; a change is told on the supervisory ring (R339). -/
def State.setMstate (s : State) (m : Nat) : State :=
  if s.mstate = m then s else (s.setFld Csr.powStat 63 60 m).ringSend 2 [0, BitVec.ofNat 8 m]

/-- The runtime and the fabric serve: READY or HELD. -/
def State.serving (s : State) : Bool := s.mstate == mReady || s.mstate == mHeld

/-- Main power is on. -/
def State.mainOn (s : State) : Bool := s.mstate == mBoot || s.serving

/-- The module is "degraded": a dark wavelength, cartridge or host port, a disabled die-to-die group, or an escaped drill (R20, R314, R332,
R378, R455). -/
def State.degraded (s : State) : Bool :=
  (s.reg Csr.hullStat).bit 63 || s.health.escaped ||
  (List.range 2).any (fun d => (List.range 20).any (fun g => (s.reg (Csr.d2dLane d g)).bit 63))

/-! ### Completion records (R360, R361) -/

/-- A record joins the ring of its job; beyond 256 unwritten ones the newest is dropped, and a final record takes the place of the newest
pending one (R360). -/
def State.addRecord (s : State) (job : Word) (kind reason : Nat) (arg : Word) (detail : List Byte) (final : Bool) : State :=
  match s.rings.find? (fun r => r.job == job && !r.final) with
  | none => s
  | some r =>
    let x : JobRecord := { job := job, seq := r.nextSeq, kind := kind, reason := reason, ft := s.ft, arg := arg, detail := detail }
    let full := decide (256 ≤ r.waiting.length)
    let w := if !full then r.waiting ++ [x] else if final then r.waiting.dropLast ++ [x] else r.waiting
    let s := { s with
      rings := s.rings.map (fun (y : ComplRing) => if y.job = job ∧ !y.final then { r with waiting := w, nextSeq := r.nextSeq + 1, final := final } else y)
      lastRecords := x :: s.lastRecords.filter (fun y => y.job != job) }
    if full then s.raiseJob 0x9B job [] else s

/-! ### Cores and jobs (R60, R86, R228) -/

/-- The physical cores of a mask. -/
def maskCores (m : BitVec 32) : List (Fin 32) := (List.finRange 32).filter (fun n => m.getLsbD n.val)

/-- The state of R60: the runtime writes it when a core starts a job; held signals are added to the cross-core semaphores (R86), the
instruction buffer is empty and the first line is fetched. -/
def State.startCore (s : State) (n : Fin 32) (j : Job) : State :=
  let c := s.cores[n]
  let pc := BitVec.ofNat 48 (scratchBase n.val + j.pload + j.entryOff)
  let all := s.jobCores j.id
  let sregs : Vector Word 32 := Vector.ofFn (fun i =>
    if i.val = 1 then BitVec.ofNat 64 (all.idxOf n.val) else if i.val = 2 then BitVec.ofNat 64 all.length
    else if i.val = 3 then BitVec.ofNat 64 j.argAddr else if i.val = 4 then BitVec.ofNat 64 n.val else 0)
  let sems : Vector (BitVec 16) 48 := Vector.ofFn (fun i =>
    if i.val < 32 then 0 else BitVec.ofNat 16 (min 65535 ((c.heldSignals[i.val - 32]?).getD 0)))
  s.setCore n { c with
    run := .idle, startHeld := false, sregs := sregs, preds := Vector.replicate 8 false, dregs := Vector.replicate 16 0
    wsel := Vector.replicate 16 0, pc := pc, sems := sems, qMove := [], qCtx0 := [], qCtx1 := [], qVector := [], qRow := [], qComm := []
    dispatched := 0, lines := [], mesh := [], fills := [{ block := pc.toNat / 4096, since := s.now }], wait := .free, current := 0
    stopping := none, unitFailed := false, mmcfg := j.mmcfg, runcfg := j.runcfg }

/-- A core leaves its job: IDLE, or FENCED when its own unit failed, or still on its way there when it had not started; its configuration registers
return to reset and its scratchpad, which may hold the job's image, is to be cleared before the next job (R85, R90, R158, R216, R228, R444). -/
def State.leaveJob (s : State) (n : Fin 32) : State :=
  s.modCore n (fun c =>
    let fenced := c.run == .fenced || c.unitFailed
    let live := c.run == .idle || c.run == .running || c.run == .trapped
    { c.arraysLeave s.now with
      run := if fenced then .fenced else if live then .idle else c.run
      job := 0, clearing := true, startHeld := false, qMove := [], qCtx0 := [], qCtx1 := [], qVector := [], qRow := [], qComm := []
      fills := [], lines := [], mesh := [], wait := .free, current := 0, stopping := none, unitFailed := false, runcfg := runcfgReset, mmcfg := mmcfgReset
      bank0 := Bank.vacant, bank1 := Bank.vacant, saved := none, drains := [], heldSignals := Vector.replicate 16 0, idleSince := s.now })

/-- The device lets go of a job: cores, windows, groups, rings, services, messages, and what waits for it (R292, R357, R444). The completion ring
stays until its records are written. -/
def State.releaseJob (s : State) (j : Job) : State :=
  let s := (maskCores j.cores).foldl (fun (t : State) n => if (t.cores[n]).job = j.id then t.leaveJob n else t) s
  let s := s.releaseGroups j.id
  let mine (x : Xfer) : Bool := match x.purpose with
    | .program k => k == j.id | .checkpoint k _ => k == j.id | .ingest k _ => k == j.id | _ => false
  let gone := (s.xfers.filter mine).map (fun x => x.id)
  { s with
    jobs := s.jobs.filter (fun x => x.id != j.id), outMsgs := s.outMsgs.filter (fun m => m.job != j.id)
    earlyJoins := s.earlyJoins.filter (fun e => e.2.job != j.id), forming := s.forming.filter (fun g => g.job != j.id)
    groupFails := s.groupFails.filter (fun f => f.1 != j.id)
    halts := s.halts.filter (fun h => h.job != j.id)
    xfers := s.xfers.filter (fun x => !mine x)
    conns := s.conns.map (fun (c : Conn) => { c with pieces := c.pieces.filter (fun p => !gone.contains p.1) }) }

/-! ### Halt (R442 to R447) -/

/-- The halt set of a job: the member chips of its chip groups, and this chip (R442). -/
def State.haltSet (s : State) (job : Word) : List Nat :=
  ((List.range 64).flatMap (fun i =>
    match s.group? i with
    | some g => if g.job = job ∧ g.gdef.kind ≠ 3 then (List.range g.p).map (fun r => s.rankChip g.gdef r) else []
    | none => [])).eraseDups

/-- A message whose resend after a bad CRC was still open as its job stopped: the event was abandoned (R205, R218). -/
def State.abandonMessage (s : State) (m : OutMsg) : State :=
  s.recordCheck { loc := locSimple 9 m.key.core m.key.peer, ft := s.ft, outcome := 3, drill := m.drill, cls := 5, pc := s.messagePc m, retryUs := 0
                  job := m.job, core := some m.key.core }

/-- Destinations of a core's abandoned instructions outside the scratchpads, which are cleared, hold undefined bytes (R444); its open retries are abandoned
(R218). -/
def State.abandonWork (s : State) (n : Fin 32) : State :=
  let c := s.cores[n]
  let started := (QueueId.all.flatMap (fun q => c.queue q)).filter (fun e => e.started)
  let rs := ((started.flatMap destDescs).filter (fun d => decide (hbmBase ≤ Desc.base d) && !Desc.empty d)).flatMap Desc.ranges
  let s := s.freeOverlap rs rs
  let s := (s.outMsgs.filter (fun m => !m.key.svc && m.key.core == n.val && m.crcFailed)).foldl State.abandonMessage s
  c.drains.foldl (fun (t : State) d =>
    if d.phase = .open ∨ d.phase = .clean then t else (t.recordCheck (retryEvent t n d 3 d.loc)).pendAdd false) s

/-- The windows that a halted job leaves retained (R447). -/
def State.retainWindows (s : State) (j : Job) : State :=
  if s.fld Csr.hltCtl 7 0 = 0 then s
  else { s with retained := s.retained ++ (j.windows.filter (fun w => w.buddy)).map (fun w => { job := j.id, base := w.base, size := w.size, since := s.now }) }

/-- The 64 bytes of a halt record as eight words (R445). -/
def haltWords (m : HaltMsg) (ft1 : Word) (cores : BitVec 32) : List Word :=
  [m.job, Word.place m.cause 8 0 ||| Word.place m.flags 8 8 ||| Word.place m.origin.toNat 16 16 ||| Word.place m.detail.toNat 32 32,
   m.ft0, m.loc, ft1, Word.place cores.toNat 32 0, 0, 0]

/-- The job stops on this device: its groups halt, started work is abandoned, the cores leave, the records are made (R306, R443 to R447). -/
def State.haltJob (s : State) (j : Job) (m : HaltMsg) : State :=
  let words := haltWords m s.ft j.cores
  let s := s.haltGroups j.id
  let s := (maskCores j.cores).foldl (fun (t : State) n => t.abandonWork n) s
  let s := s.retainWindows j
  let s := s.addRecord j.id (if j.cancelled then 5 else 4) 0 0
    (if j.cancelled then [] else (words.take 4).flatMap (fun w => bytesOfNat 8 w.toNat)) true
  let s := s.releaseJob j
  ((({ s with halted := j.id :: s.halted.filter (fun k => k != j.id) }).raiseJob 0x9E j.id [Word.place m.cause 8 0]).journalAdd 1 words)

/-- Send a HALT to every other chip of the own row and column (R443). -/
def State.sendHalt (s : State) (m : HaltMsg) (row : Bool) : State :=
  let chips := (if row then (List.range s.gridX).map (fun x => chipAt x (chipY s.chip)) else []) ++
    (List.range s.gridY).map (fun y => chipAt (chipX s.chip) y)
  if (s.reg Csr.fabId).bit 63 then (chips.filter (fun c => c != s.chip)).eraseDups.foldl (fun (t : State) c => t.emit (.halt c m)) s else s

/-- A cause on this device halts a job: the cores stop and a HALT goes to the halt set, unless the policy keeps the halt local (R443,
R446). -/
def State.originHalt (s : State) (h : HaltRequest) : State :=
  match s.job? h.job with
  | none => s
  | some j =>
    let m : HaltMsg := { job := h.job, cause := h.cause, flags := 1 + (if h.fenced then 2 else 0), origin := BitVec.ofNat 16 s.chip
                         detail := h.detail, ft0 := h.ft, loc := h.loc }
    let far := decide (s.haltSet h.job ≠ []) && !(h.cause == 1 && j.trapPol == 1)
    let s := if far then s.sendHalt m true else s
    s.haltJob j m

/-- Halt every job of the device for a cause. -/
def State.haltAll (s : State) (cause : Nat) : State :=
  s.jobs.foldl (fun (t : State) j => t.originHalt { job := j.id, cause := cause, detail := 0, loc := 0, ft := t.ft, fenced := false }) s

end Sys2Proof.Machine
end

