-- ==== Sys2Proof/Machine/Restart.lean ====
section
/-! DEFINITION. A boot from its cause: what it clears and keeps, the germ loader's checks, the registers set at boot (spec/14 R414 to R420, R423 to
R427; 16 R473, R475, R478; 01 R20; 08 R231, R233; 09 R250, R251). -/

namespace Sys2Proof.Machine

/-! ### Images (R416, R417) -/

/-- The current owner's hash (R419). -/
def Flash.owner (f : Flash) : Option (BitVec 256) := f.owners.getLast?

/-- The reason for which an image is not good: 0 when it passes every check of R416, in order. -/
def imageReason (i : Image) (f : Flash) : Nat :=
  if !i.formatOk then 1 else if !i.rootOk then 2 else if !i.vendorOk then 3
  else if f.owner.isSome && f.owner != some i.okey then 4
  else if f.owner.isSome && !i.ownerSigOk then 5
  else if !i.digestOk then 6 else if i.svn < f.svn then 7 else 0

/-- The slot's reason: 1 when it holds no readable image, 8 after three expiries of the watchdog (R416, R426). -/
def slotReason (f : Flash) : Nat :=
  if 3 ≤ f.wdf then 8 else match f.slot with | none => 1 | some i => imageReason i f

/-! ### Registers that flash or fuses keep across a boot -/

/-- Registers that are "kept in flash" or carry a level across a boot (R20, R233, R245, R293, R402, R459, R463, R478): channel and pin maps, lane
records, trips, drills since manufacture, the current levels, the journal's counters, boots. -/
def keptRegs : List Nat :=
  ((List.range 8).flatMap (fun k => [Csr.hbmChanMap k, Csr.hbmPinMap k])) ++
  ((List.range 2).flatMap (fun d => (List.range 20).map (fun g => Csr.d2dLane d g))) ++
  [Csr.thmTrip, Csr.drlStat, Csr.clLvl, Csr.capNl, Csr.jrnStat, Csr.pipUptime]

/-- SEC_STAT of the keys and fuses (R439). -/
def State.secWord (s : State) (pufOk : Bool) : Word :=
  let f := s.flash
  Word.placeBit (!f.owners.isEmpty) 63 ||| Word.place (f.owners.length - 1) 2 61 ||| Word.placeBit pufOk 55 |||
  Word.placeBit f.cfgOk 54 ||| Word.placeBit f.ringKey 53 ||| Word.place f.keys.length 8 40 |||
  Word.place ((List.range 9).filter (fun k => f.ckeys.getLsbD k)).length 4 36 ||| Word.place f.svn 8 0

/-- SEC_STAT rewritten after a change of keys, with its debug and identity fields kept. -/
def State.syncSec (s : State) : State :=
  let old := s.reg Csr.secStat
  s.setReg Csr.secStat (s.secWord (old.bit 55) ||| Word.place (old.field 60 56) 5 56 ||| Word.place (old.field 35 32) 4 32)

/-! ### The start of a boot (R423, R424) -/

/-- What is written but not yet in force takes effect: configuration items and the wiring plan; the write of either has made a whole valid copy of the
configuration (R414, R428, R430). -/
def applyWritten (f : Flash) (plan : Option Plan) : Flash × Option Plan :=
  let f1 := match f.newSettings with
    | none => f
    | some c => { f with cfgOk := true, ports := c.addrs, vlans := c.vlans, recovery := c.recovery, ilv := c.ilv.getD f.ilv }
  let plan := match f.newPlan with
    | none => plan
    | some p => some { ver := p.ver, nx := p.nx, ny := p.ny, perm := p.perm, entries := p.entries }
  ({ f1 with cfgOk := f1.cfgOk || f.newPlan.isSome, newSettings := none, newPlan := none }, plan)

/-- Main power comes up: PWR_GOOD is released and the main boot begins (R424, R487). -/
def State.mainUp (s : State) : State :=
  let s := { s with pins := { s.pins with pwrGood := true }, boot := { s.boot with stage := 0, since := s.now } }
  s.setMstate mBoot

/-- Main power may start: MAIN_EN high, the input in range, no overvoltage hold, RESET_N high (R485 to R489). -/
def State.mainAllowed (s : State) : Bool :=
  s.pins.aux && s.pins.mainIn && s.pins.mainEn && !s.pins.needEdge && !s.pins.resetLow

/-! ### Sites (R398) and the hold after a thermal shutdown (R403) -/

/-- The temperature of a site in units of 1/16 °C. -/
def State.siteTemp (s : State) (i : Nat) : Int := (BitVec.ofNat 16 (s.fld (Csr.thmSens i) 15 0)).toInt

/-- A site has a valid sensor. -/
def State.siteValid (s : State) (i : Nat) : Bool := s.fld (Csr.thmSens i) 63 62 != 2

/-- Pip may re-enable main power after a thermal shutdown: 10 s have passed and site 54 reads below 60 °C (R403). -/
def State.coolEnough (s : State) : Bool :=
  (match s.health.tripAt with | some t => decide (t + 10000000000 ≤ s.now) | none => true) && s.siteValid 54 && decide (s.siteTemp 54 < 960)

/-- The main domain stops: every core stopped and gated, lasers and host optics off, HBM lost with its key; nothing halts in order and no completion
record is written; an image being written is left invalid (R402, R437, R488, R489). -/
def State.mainOff (s : State) : State :=
  let s := { s with
    jobs := [], admissions := [], rings := [], halts := [], xfers := [], conns := []
    retained := [], acquittal := none, drills := [], outMsgs := [], outStreams := [], inStreams := [], groups := Vector.replicate 64 none
    earlyJoins := [], forming := [], groupFails := [], heldPuts := [], heldReplies := []
    portFinds := Vector.replicate 16 none, sessions := Vector.replicate 64 none, links := Vector.replicate 128 Link.idle, known := [], mem := [], poison := []
    cores := s.cores.map (fun c => if c.run = .absent then c else Core.atReset)
    ports := s.ports.map (fun p => { p with up := false })
    hull := { s.hull with swaps := Vector.replicate 2 none, queued := [], sweepPort := Vector.replicate 2 none }
    power := Power.atReset s.flash.powCal, pool := Pool.off, time := TimeSync.free
    flash := { s.flash with savedFt := s.ft, slot := match s.update with | some u => if u.target = 0 then none else s.flash.slot | none => s.flash.slot }
    update := none, resetWaits := false, resetAfterJobs := false }
  let s := (List.range 128).foldl (fun (t : State) i =>
    let t := if t.fld (Csr.optLane i) 63 60 = 8 then t else t.setReg (Csr.optLane i) 0
    if t.fld (Csr.fabPath i) 63 60 = 8 then t else t.setReg (Csr.fabPath i) 0) s
  let s := (List.range 24).foldl (fun (t : State) i => t.setFld (Csr.lasStat i) 63 60 0) s
  let s := (List.range 8).foldl (fun (t : State) j => (t.setFld (Csr.hoptStat j) 63 60 0).setFld (Csr.ethPortStat j) 63 60 0) s
  let s := if s.fld Csr.drlStat 63 62 = 1 then s.setFld Csr.drlStat 63 62 0 else s
  s.setFld Csr.hullStat 31 16 0

/-- Main regulators go off: PWR_GOOD low, the module enters a state without main power; Pip's firmware runs on (R402, R488). -/
def State.mainDown (s : State) (m : Nat) : State :=
  let s := s.mainOff.setFld Csr.pipStat 63 32 0
  State.setMstate { s with pins := { s.pins with pwrGood := false } } m

/-- Main power may serve recovery: allowed, and after a thermal shutdown only once cool enough (R403, R432). -/
def State.mayRecover (s : State) : Bool := s.mainAllowed && (!s.pins.thermTrip || s.coolEnough)

/-- Recovery is decided: events 0x71 and 0x72, MSTATE BOOT, the first port (R432). -/
def State.enterRecovery (s : State) (reason : Nat) : State :=
  let s := { s with flash := { s.flash with badr := reason }, running := none
                    boot := { s.boot with recovering := true, port := 0, waitSec := 0, waiting := false }
                    pins := { s.pins with pwrGood := s.pins.pwrGood || s.mayRecover } }
  let s := ((s.setFld Csr.fwStat 59 56 reason).setBit Csr.fwStat 49 true).setMstate mBoot
  (s.raise 0x71 [BitVec.ofNat 64 reason]).raise 0x72 []

/-- Core n exists on this part and its half is present (R2, R20). -/
def State.corePart (s : State) (n : Nat) : Bool := !s.part.absentCores.getLsbD n && !(s.h1Lost && decide (16 ≤ n))

/-- The state with which a boot starts: everything but flash, fuses, pins and what they keep is as at reset (R423, R473). -/
def State.bootBase (s : State) (f : Flash) (plan : Option Plan) (cause : Nat) : State :=
  { State.reset with
    pending := s.pending, now := s.now, fresh := s.fresh, out := s.out, ft := s.ft, part := s.part, plan := plan, pins := s.pins, flash := f
    h1Lost := s.h1Lost, second := s.second, ring := s.ring
    health := { t := f.jrnT, added := 0, transients := [], lasting := f.jrnLasting, late := [], tripAt := s.health.tripAt, escaped := false, drilled := [] }
    power := Power.atReset f.powCal, halted := []
    cores := Vector.ofFn (fun n => { Core.atReset with
      run := if s.corePart n.val then (if (s.cores[n]).run = .fenced then .fenced else .gated) else .absent })
    boot := { stage := 0, cause := cause, since := s.now, watchdog := false, recovering := false, port := 0, waitSec := 0, waiting := false, waitFrom := 0 } }

/-- A boot starts: the germ loader checks the image and hands over, or recovery starts; in TRIPPED a release of RESET_N leaves main power off (R423,
R424, R432, R473, R489). -/
def State.startBoot (s : State) (cause : Nat) : State :=
  let (f, plan) := applyWritten s.flash s.plan
  let f := { f with
    slot := match s.update with | some u => if u.target = 0 then none else f.slot | none => f.slot
    bootCnt := f.bootCnt + 1 }
  let b := s.bootBase f plan cause
  let b := keptRegs.foldl (fun (t : State) o => t.setReg o (s.reg o)) b
  let b := b.setFld Csr.drlStat 63 58 0
  let b := (b.setFld Csr.fwStat 63 60 cause).setFld Csr.fwStat 31 0 f.bootCnt
  let b := (b.setFld Csr.fwStat 55 54 (min 3 f.wdf)).setFld Csr.fwStat 59 56 f.badr
  let b := if cause = 5 then b.setBit Csr.fwStat 49 true else b
  let hold := s.mstate == mTripped && cause == 1
  let b := b.setFld Csr.powStat 63 60 (if s.pins.pwrGood then mBoot else if hold then mTripped else mStandby)
  match slotReason f with
  | 0 =>
    let b := { b with boot := { b.boot with watchdog := true }, running := f.slot }
    if b.pins.pwrGood then b.setMstate mBoot
    else if hold then b.setMstate mTripped
    else if b.mainAllowed then b.mainUp
    else b.setMstate mStandby
  | r => b.enterRecovery r

/-- A reset that waits for the last job takes place when no job runs (R430). -/
def State.afterJob (s : State) : State :=
  if s.resetAfterJobs ∧ s.jobs.isEmpty ∧ s.admissions.isEmpty then
    if s.update.isSome then { s with resetAfterJobs := false, resetWaits := true } else s.startBoot 2
  else s

/-- A job ends on this device: the ENDED record, event 0x99, and everything it held is released (R357). -/
def State.endJob (s : State) (j : Job) : State :=
  (((s.addRecord j.id 3 0 0 [] true).raiseJob 0x99 j.id []).releaseJob j).afterJob

/-! ### Die-to-die lanes (R19, R20, R478) -/

/-- Failed positions of a lane group. -/
def State.laneFailed (s : State) (d g : Nat) : Nat :=
  ((List.range 34).filter (fun l => (s.reg (Csr.d2dLane d g)).bit l)).length

/-- A group's DIS and SPUSED follow from its failed positions: more than two failed leave fewer than 32 lanes. -/
def State.syncGroup (s : State) (d g : Nat) : State :=
  let o := Csr.d2dLane d g
  let bad := ((List.range 32).filter (fun l => (s.reg o).bit l)).length
  (s.setBit o 63 (decide (2 < s.laneFailed d g))).setFld o 41 40 (min 2 bad)

/-- Working groups of a direction. -/
def State.groupsUp (s : State) (d : Nat) : Nat := ((List.range 20).filter (fun g => !(s.reg (Csr.d2dLane d g)).bit 63)).length

/-- D2D_STAT: working groups and the lower bandwidth in units of 0.01 TB/s (R478). -/
def State.syncLink (s : State) : State :=
  let a := s.groupsUp 0
  let b := s.groupsUp 1
  ((s.setFld Csr.d2dStat 37 32 a).setFld Csr.d2dStat 45 40 b).setFld Csr.d2dStat 31 16 (min a b * 256 / 10)

/-! ### HBM capacity (R230, R231, R233) -/

/-- Good channels of a range of stacks. -/
def State.goodChannels (s : State) (lo hi : Nat) : Nat := (s.channelTable lo hi).length

/-- MEM_MAP, CAP_HBM_BYTES and HBM_STAT.GOOD after the tables are built. -/
def State.buildTables (s : State) : State :=
  let n0 := s.goodChannels 0 4
  let n1 := s.goodChannels 4 8
  let s := s.setReg Csr.memMap (Word.place s.flash.ilv 2 62 ||| Word.place n1 8 48 ||| Word.place n0 8 40 ||| Word.place (n0 * channelBytes) 40 0)
  let s := s.setReg Csr.capHbmBytes (Word.place ((n0 + n1) * channelBytes) 40 0)
  (List.range 8).foldl (fun (t : State) k =>
    t.setFld (Csr.hbmStat k) 5 0 ((List.range 32).filter (fun c => t.channelGood k c)).length) s

/-- The map-out decision of one channel at a boot: failed training or pin test, two failed pins, marked without a cancelled mark, or mapped out before
and not both retested and passing (R233). -/
def mapOut (map pins retest : Word) (failed : Bool) (c : Nat) : Bool :=
  let out := map.bit c
  let marked := map.bit (32 + c)
  let again := retest.bit c
  failed || pins.bit (32 + c) || (marked && !again) || (out && !again)

/-- The boot's channel test: the new OUT maps with no mark left, and event 0x26 when channels are mapped out. The stacks of a lost half are not tested: what
flash holds of them, RETEST requests included, waits for a boot that finds them (R20, R233). -/
def State.testChannels (s : State) (fails : List (Nat × Nat)) : State :=
  let s' := (List.range 8).foldl (fun (t : State) k =>
    let map := s.reg (Csr.hbmChanMap k)
    let pins := s.reg (Csr.hbmPinMap k)
    let retest : Word := (s.flash.retest.toList.getD k 0).zeroExtend 64
    let out := (List.range 32).foldl (fun (w : Word) c =>
      if mapOut map pins retest (fails.contains (k, c)) c then w ||| Word.placeBit true c else w) 0
    if s.stackPresent k then t.setReg (Csr.hbmChanMap k) out else t) s
  let s' := { s' with flash := { s'.flash with
    retest := Vector.ofFn (fun (k : Fin 8) => if s.stackPresent k.val then 0 else s.flash.retest[k]) } }
  let s' := s'.buildTables
  if (List.range 8).any (fun k => s.stackPresent k && s'.fld (Csr.hbmChanMap k) 31 0 != 0) then s'.raise 0x26 [s'.reg Csr.capHbmBytes] else s'

end Sys2Proof.Machine
end

