-- ==== Sys2Proof/Machine/Hull.lean ====
section
/-! DEFINITION. Lock of lanes, laser health, swaps and the supervisory ring (spec/11 R320 to R333, R337 to R340). -/

namespace Sys2Proof.Machine

/-! ### Lock (R320 to R326) -/

/-- A path that has a state to lose goes DOWN at once: its lane lost lock (R320, R325). -/
def State.takeDown (s : State) (i : Nat) : State :=
  let st := s.pathState i
  if st = pathDownSt ∨ st = pathDark ∨ st = pathAbsent then s else s.pathGoesDown i

/-- A lane is DARK, and so is its transmit path (R321). -/
def State.laneGoesDark (s : State) (i : Nat) : State :=
  let s := s.laneTo i laneDark
  if s.pathState i = pathAbsent then s else s.setFld (Csr.fabPath i) 63 60 pathDark

/-- A laser may be lit: it is in its cartridge and has not failed or been retired. -/
def State.lightable (s : State) (i : Nat) : Bool := s.flash.outOfUse.toList.getD i 0 == 0

/-- LASER_LIGHT: every laser that feeds a wavelength is lit and locked, and the lanes of its wavelength begin to lock (R322). -/
def execLaserLight (s : State) : Host.Outcome State Fault Refusal :=
  if !s.pins.pwrGood || s.pins.resetLow then .next s
  else
    let s := ((List.range 2).filter (fun c => s.cartGood c)).foldl (fun (t : State) c =>
      ((List.range 8).filter (fun k => t.feed c k != 15 && t.lightable (12 * c + t.feed c k))).foldl (fun (t : State) k =>
        let i := 12 * c + t.feed c k
        let t := if t.lasState i = lasOff then (t.setFld (Csr.lasStat i) 63 60 lasActive).setFld (Csr.lasStat i) 55 52 k else t
        ((t.waveLanes c k).filter (fun l => t.laneState l == laneOff)).foldl (fun (t : State) l => t.beginLock l) t) t) s
    .next s.syncHull

/-- LANE_SWEEP_DONE: the points of a lane are found and it enters ACQUIRE; a half sweeps one port at a time (R321, R322). -/
def execLaneSweepDone (i : Fin 128) (s : State) : Host.Outcome State Fault Refusal :=
  let port := i.val / 8
  if s.laneState i.val = laneSweep ∧ s.hull.sweepPort.toList.contains (some port) then
    .next ((s.laneTo i.val laneAcquire).setBit (Csr.optLane i.val) 57 true).syncHull
  else .next s

/-- LANE_RESTORE_DONE: stored points fine-lock and the lane enters ACQUIRE (R321, R322). -/
def execLaneRestoreDone (i : Fin 128) (s : State) : Host.Outcome State Fault Refusal :=
  if s.laneState i.val = laneRestore then .next ((s.laneTo i.val laneAcquire).setBit (Csr.optLane i.val) 57 false)
  else .next s

/-- LANE_RESTORE_TIMEOUT: no lock within 10 ms in RESTORE: the stored point has failed and the lane sweeps (R321). -/
def execLaneRestoreTimeout (i : Fin 128) (s : State) : Host.Outcome State Fault Refusal :=
  if s.laneState i.val = laneRestore then .next (s.laneTo i.val laneSweep).syncHull else .next s

/-- LANE_ACQUIRED: carrier recovery acquires and the lane enters VERIFY; its offset in MHz and received power are shown (R321, R341). -/
def execLaneAcquired (i : Fin 128) (loofs rxp : BitVec 16) (s : State) : Host.Outcome State Fault Refusal :=
  if s.laneState i.val = laneAcquire then
    .next (((s.laneTo i.val laneVerify).setFld (Csr.optLane i.val) 31 16 loofs.toNat).setFld (Csr.optLane i.val) 15 0 rxp.toNat)
  else .next s

/-- A lane enters RELOCK, or goes on in it: the next attempt begins, with event 0x41; the third is a cold sweep (R325, R326). -/
def State.relock (s : State) (i : Nat) : State :=
  let att := min 3 (s.fld (Csr.optLane i) 59 58 + 1)
  (((s.laneTo i laneRelock).setFld (Csr.optLane i) 59 58 att).setBit (Csr.optLane i) 57 (decide (att = 3))).raise 0x41
    [Word.place att 8 8 ||| Word.place i 8 0]

/-- A wrong lock: the next relock attempt begins, or after a third failure the lane is DARK, with event 0x42 (R326). -/
def State.wrongLock (s : State) (i : Nat) : State :=
  if s.fld (Csr.optLane i) 59 58 < 3 then s.relock i
  else ((s.laneGoesDark i).raise 0x42 [BitVec.ofNat 64 i]).syncHull.broadcastStates

/-- The temperature site of the rings of a port (R398): two ports of a dimension and half share one. -/
def hullSite (port : Nat) : Nat := 40 + (if portHalf port then 4 else 0) + (if 8 ≤ port then 2 else 0) + port % 4 / 2

/-- Flash with the lock points of lane i as found now, at the present temperature of its rings (R323). -/
def State.storePoint (s : State) (i : Nat) : Flash :=
  { s.flash with points := s.flash.points ||| BitVec.ofNat 128 (2 ^ i), pointTemp := s.flash.pointTemp.setIfInBounds i (s.siteTemp (hullSite (i / 8))) }

/-- The lock points that a verified lane leaves in flash (R323): after a cold sweep always; after a warm lock when a stored point has moved by more than 2 GHz,
at most once per hour per port. `moved` is in MHz. -/
def State.keepPoint (s : State) (i moved : Nat) : State :=
  let recent := match s.flash.pointAt.toList.getD (i / 8) none with | some t => decide (s.now < t + 3600000000000) | none => false
  if (s.reg (Csr.optLane i)).bit 57 then { s with flash := s.storePoint i }
  else if s.flash.points.getLsbD i && decide (2000 < moved) && !recent then
    { s with flash := { (s.storePoint i) with pointAt := s.flash.pointAt.setIfInBounds (i / 8) (some s.now) } }
  else s

/-- LANE_VERIFY: the pilot tone and training index heard for 2 ms: both the lane's own, and it is LOCKED; otherwise a wrong lock (R321, R323, R325). -/
def execLaneVerify (i : Fin 128) (pilot index : BitVec 8) (moved : Nat) (s : State) : Host.Outcome State Fault Refusal :=
  if s.laneState i.val ≠ laneVerify then .next s
  else
    let s := s.setFld (Csr.optLane i.val) 55 48 pilot.toNat
    let k := i.val % 8
    if pilot.toNat = k ∧ index.toNat = k then
      let took := (s.now - s.hull.laneSince.toList.getD i.val 0) / 10000000
      .next (((s.lockFrom i.val laneLocked).setFld (Csr.optLane i.val) 47 40 (min 255 took)).keepPoint i.val moved).syncHull
    else .next (s.wrongLock i.val)

/-- LOSS_OF_LOCK: a loop of a LOCKED lane reports loss of lock: its path goes DOWN, event 0x47, and it relocks warm; a drill on the lane is thereby
detected and recovered, and marked in the event (R320, R333, R453). -/
def execLossOfLock (i : Fin 128) (s : State) : Host.Outcome State Fault Refusal :=
  if s.laneState i.val ≠ laneLocked then .next s
  else
    let drill := s.drillArmed 11 i.val false
    let s := ((s.beginLock i.val).raise 0x47 [Word.placeBit drill 8 ||| Word.place i.val 8 0]).takeDown i.val
    let s := if drill then (s.drillDrop 11 i.val).drillPass 11 else s
    .next s.syncHull

/-- OPT_FEC with what a lane's FEC reports: the BER over the last second, and the codewords since the last report (R317, R341). -/
def State.noteFec (s : State) (i : Nat) (preber corr uncorr : BitVec 16) : State :=
  ((s.setFld (Csr.optFec i) 63 48 preber.toNat).bump (Csr.optFec i) 47 32 uncorr.toNat).bump (Csr.optFec i) 31 0 corr.toNat

/-- BER_LIMIT_EXCEEDED: a pre-FEC BER above 1e-3 for 10 ms or 100 uncorrectable codewords in 1 ms take the lane DOWN to relock; the codewords
are counted (R320, R341). -/
def execBerLimitExceeded (i : Fin 128) (preber corr uncorr : BitVec 16) (s : State) : Host.Outcome State Fault Refusal :=
  if s.laneState i.val ≠ laneLocked then .next s
  else .next (((s.noteFec i.val preber corr uncorr).beginLock i.val).takeDown i.val).syncHull

/-- BER_WARNING: the FEC of a LOCKED lane reports; a pre-FEC BER above 1e-4, of 10,000 in units of 1e-8, raises event 0x48, at most once per minute per lane
(R317, R320). -/
def execBerWarning (i : Fin 128) (preber corr uncorr : BitVec 16) (s : State) : Host.Outcome State Fault Refusal :=
  if s.laneState i.val ≠ laneLocked then .next s
  else
    let s := s.noteFec i.val preber corr uncorr
    if preber.toNat ≤ 10000 ∨ s.hull.berWarned.any (fun w => w.1 == i.val && decide (s.now < w.2 + 60000000000)) then .next s
    else
      let s := { s with hull := { s.hull with berWarned := (i.val, s.now) :: s.hull.berWarned.filter (fun w => w.1 != i.val) } }
      .next (s.raise 0x48 [BitVec.ofNat 64 i.val])

/-- WRONG_INDEX_IN_SERVICE: the pilot tone or the training index of a LOCKED lane names another wavelength for 100 µs: its path goes DOWN at once and it
enters RELOCK (R325). -/
def execWrongIndexInService (i : Fin 128) (pilot index : BitVec 8) (s : State) : Host.Outcome State Fault Refusal :=
  if s.laneState i.val = laneLocked ∧ (pilot.toNat ≠ i.val % 8 ∨ index.toNat ≠ i.val % 8) then
    let s := (s.setFld (Csr.optLane i.val) 55 48 pilot.toNat).takeDown i.val
    let s := { s with hull := { s.hull with laneSince := s.hull.laneSince.set i.val s.now } }
    .next (s.relock i.val).syncHull
  else .next s

/-- RELOCK_ATTEMPT: the present attempt ends in VERIFY; one that finds nothing has no pilot tone to show there (R326). -/
def execRelockAttempt (i : Fin 128) (found : Bool) (s : State) : Host.Outcome State Fault Refusal :=
  if s.laneState i.val ≠ laneRelock then .next s
  else .next ((if found then s else s.setFld (Csr.optLane i.val) 55 48 0xFF).laneTo i.val laneVerify)

/-- ATTEMPT_COUNT_RESET: a lane has stayed LOCKED for 1 h (R326). -/
def execAttemptCountReset (i : Fin 128) (s : State) : Host.Outcome State Fault Refusal :=
  if s.laneState i.val = laneLocked ∧ s.hull.laneSince.toList.getD i.val 0 + 3600000000000 ≤ s.now then
    .next (s.setFld (Csr.optLane i.val) 59 58 0)
  else .next s

/-- A write of RETRY: a DARK lane restarts at RESTORE with the attempt count at 0 (R326); a lane whose wavelength is dark on its half stays DARK until
the cartridge is replaced (R332; DEDUCED, log 33). -/
def State.laneRetry (s : State) (i : Nat) : State :=
  if s.laneState i = laneDark ∧ !s.waveDark (laneCart i) (i % 8) then
    let s := (s.lockFrom i laneRestore).setFld (Csr.optLane i) 59 58 0
    (if s.pathState i = pathDark then s.setFld (Csr.fabPath i) 63 60 pathDownSt else s).syncHull
  else s

/-- A write of HULL_CTL.COLD: every stored lock point is discarded (R323). -/
def State.hullCold (s : State) : State := { s with flash := { s.flash with points := 0 } }

/-! ### Laser health (R327, R328) -/

/-- The bias ratio of laser i is at least p percent, on the average of its last 60 samples, which are in units of half those of its BOL bias. -/
def State.ratioAtLeast (s : State) (i p : Nat) : Bool :=
  let l := s.hull.samples.toList.getD i []
  let bol := s.hull.bol.toList.getD i 0
  decide (2 * p * bol * l.length ≤ 100 * l.sum)

/-- A usable spare is warmed to a wavelength (R328). -/
def State.warmSpare (s : State) (i k : Nat) : State := (s.setFld (Csr.lasStat i) 63 60 lasWarming).setFld (Csr.lasStat i) 55 52 k

/-- Wavelengths of a cartridge whose laser is at the warning and that have no spare, the one of the highest ratio first. -/
def State.wantSpare (s : State) (c : Nat) : List Nat :=
  (List.range 8).filter (fun k =>
    let i := 12 * c + s.feed c k
    s.feed c k != 15 && (s.lasState i == lasWarn || s.lasState i == lasWorn) && s.assignedSpare c k == none)

/-- The wavelength of the highest ratio among some. -/
def State.worst (s : State) (c : Nat) : List Nat → Option Nat
  | [] => none
  | k :: t =>
    match s.worst c t with
    | none => some k
    | some j => if s.fld (Csr.lasBias (12 * c + s.feed c k)) 31 16 < s.fld (Csr.lasBias (12 * c + s.feed c j)) 31 16 then some j else some k

/-- Free spares, in ascending number, are assigned to lasers that need one, the highest ratio first (R328). -/
def State.assignSpares (s : State) (c : Nat) : State :=
  (s.freeSpares c).foldl (fun (t : State) i =>
    match t.worst c (t.wantSpare c) with
    | some k => t.warmSpare i k
    | none => t) s

/-- A swap or an end of service of laser i is decided and waits for its turn, with the paths that its failure has taken DOWN (R329, R330, R331). -/
def State.queueSwap (s : State) (i : Nat) (paths : List Nat) : State :=
  if s.hull.queued.any (fun q => q.1 == i) ∨ s.hull.swaps.toList.any (fun w => match w with | some x => x.laser == i | none => false) then s
  else { s with hull := { s.hull with queued := s.hull.queued ++ [(i, paths)] } }

/-- The thresholds of R327 for laser i that feeds λk of cartridge c. -/
def State.biasState (s : State) (c k i : Nat) (low : Bool) : State :=
  let st := s.lasState i
  let auto := (s.reg Csr.hullCtl).bit 8
  if st = lasEol then s
  else if s.ratioAtLeast i 150 || low then ((s.setFld (Csr.lasStat i) 63 60 lasEol).raise 0x45 [BitVec.ofNat 64 i]).queueSwap i []
  else
    let s :=
      if s.ratioAtLeast i 120 then
        if st = lasActive then (s.setFld (Csr.lasStat i) 63 60 lasWarn).raise 0x43 [BitVec.ofNat 64 i]
        else if st = lasWorn && !s.ratioAtLeast i 135 then s.setFld (Csr.lasStat i) 63 60 lasWarn else s
      else s.setFld (Csr.lasStat i) 63 60 lasActive
    let s := match s.assignedSpare c k with
      | some j => if s.ratioAtLeast i 115 then s else s.setFld (Csr.lasStat j) 63 60 lasOff
      | none => s
    let s := s.assignSpares c
    if !s.ratioAtLeast i 135 then s
    else
      match s.assignedSpare c k with
      | some j => if auto && s.lasState j == lasStandby then s.queueSwap i [] else s
      | none => if s.lasState i = lasWorn then s else (s.setFld (Csr.lasStat i) 63 60 lasWorn).raise 0x4D [BitVec.ofNat 64 i]

/-- LAS_BIAS of laser i: its BOL bias, the average of its samples, their ratio, and the output (R327, R341). -/
def biasWord (bol : Nat) (l : List Nat) (power : BitVec 16) : Word :=
  Word.place bol 16 48 ||| Word.place (l.sum / (2 * l.length)) 16 32 |||
    Word.place (if bol = 0 then 0 else l.sum * 1024 / (2 * bol * l.length)) 16 16 ||| Word.place power.toNat 16 0

/-- BIAS_SAMPLE: each second the bias (0.1 mA, capped at 1.50 × BOL) and output (0.01 dB from target) of a lit laser are sampled, averaged over
60 s and compared with the thresholds (R327). -/
def execBiasSample (i : Fin 24) (bias : BitVec 16) (power offset : BitVec 16) (temp : BitVec 8) (s : State) : Host.Outcome State Fault Refusal :=
  let c := i.val / 12
  if !s.pins.pwrGood ∨ !s.cartGood c ∨ s.lasState i.val = lasOff ∨ s.lasState i.val = lasRetired ∨ s.lasState i.val = lasFailed then .next s
  else
    let bol := s.hull.bol.toList.getD i.val 0
    let l := ((min (2 * bias.toNat) (3 * bol)) :: s.hull.samples.toList.getD i.val []).take 60
    let s := { s with hull := { s.hull with samples := s.hull.samples.set i.val l } }
    let s := s.setReg (Csr.lasBias i.val) (biasWord bol l power)
    let s := (s.setFld (Csr.lasStat i.val) 31 16 offset.toNat).setFld (Csr.lasStat i.val) 15 8 temp.toNat
    match s.waveOf c (i.val - 12 * c) with
    | some k => .next (s.biasState c k i.val (decide (power.toInt < -150))).syncHull
    | none => .next s.syncHull

/-- SPARE_WARM_DONE: a spare has warmed to its grid point and is a warm spare (R328). -/
def execSpareWarmDone (i : Fin 24) (s : State) : Host.Outcome State Fault Refusal :=
  if s.lasState i.val = lasWarming then .next (s.setFld (Csr.lasStat i.val) 63 60 lasStandby) else .next s

/-! ### Swaps (R329 to R333) -/

/-- The swap of a cartridge. -/
def State.swap? (s : State) (c : Nat) : Option Swap := (s.hull.swaps[c]?).join

/-- Set the swap of a cartridge. -/
def State.setSwap (s : State) (c : Nat) (w : Option Swap) : State := { s with hull := { s.hull with swaps := s.hull.swaps.setIfInBounds c w } }

/-- A laser is out of use for good: RETIRED or FAILED. -/
def State.endLaser (s : State) (i st : Nat) : State :=
  let s := (s.setFld (Csr.lasStat i) 63 60 st).setFld (Csr.lasStat i) 55 52 15
  { s with flash := { s.flash with outOfUse := s.flash.outOfUse.setIfInBounds i st } }

/-- The forward paths of this chip that a wavelength of a half carries or controls: its lanes' transmit paths, and those whose companion the lanes
receive (R329). -/
def State.wavePaths (s : State) (c k : Nat) : List Nat :=
  let lanes := s.waveLanes c k
  ((lanes ++ lanes.flatMap (fun i => s.controlled i)).eraseDups).filter (fun i => s.pathState i == pathUp)

/-- A wavelength goes dark on its half: its lanes and their paths are DARK, event 0x46 (R332). -/
def State.goDark (s : State) (c k : Nat) : State :=
  let s := s.setFeed c k 15
  let s := (s.waveLanes c k).foldl (fun (t : State) i => (t.takeDown i).laneGoesDark i) s
  (s.raise 0x46 [Word.place k 3 8 ||| Word.place c 1 0]).syncHull.broadcastStates

/-- The lanes of a wavelength lose lock and light: paths DOWN unplanned, event 0x47 (R320, R331). -/
def State.waveLost (s : State) (c k : Nat) : State :=
  (s.waveLanes c k).foldl (fun (t : State) i =>
    let was := t.laneState i
    if was = laneDark ∨ was = laneOff then t
    else
      let t := t.laneTo i laneOff
      let t := if was = laneLocked then t.raise 0x47 [Word.place i 8 0] else t
      t.takeDown i) s

/-- The feed is moved to a spare; the lanes enter RESTORE (the 8 ms step of R329). -/
def State.transfer (s : State) (c k m : Nat) : State :=
  let s := s.setFeed c k m
  let s := (s.setFld (Csr.lasStat (12 * c + m)) 63 60 lasActive).setFld (Csr.lasStat (12 * c + m)) 55 52 k
  (s.waveLanes c k).foldl (fun (t : State) i => if t.laneState i = laneDark then t else t.beginLock i) s

/-- The effective offsets of a wavelength's lanes, as a planned-change notice names them: with its offset each lane's transmit path and the path that it
receives (R329). -/
def State.leavingMask (s : State) (c k : Nat) : BitVec 128 :=
  (s.waveLanes c k).foldl (fun m i => m ||| BitVec.ofNat 128 (2 ^ offsetBit (decide (64 ≤ i)) (s.fld (Csr.fabPath i) 7 0))) 0

/-- The notice of a planned change goes to the row and the column; one that names nothing ends it (R260, R329). -/
def State.sendNotice (s : State) (leaving : BitVec 128) : State :=
  if (s.reg Csr.fabId).bit 63 then s.neighbours.foldl (fun (t : State) n => t.emit (.notice n leaving)) s else s

/-- Paths that a planned change held take flits again. -/
def State.release (s : State) (paths : List Nat) : State :=
  paths.foldl (fun (t : State) p => t.modLink p (fun l => { l with draining := false })) s

/-- The swap that waits for laser i is decided no longer. -/
def State.unqueue (s : State) (i : Nat) : State := { s with hull := { s.hull with queued := s.hull.queued.filter (fun q => q.1 != i) } }

/-- A swap begins for laser i with a warm spare, or none: planned with notice and drain, or without a drain (R329 to R332). `lost` are paths that the laser's
failure took DOWN before. -/
def State.startSwap (s : State) (c k i : Nat) (spare : Option Nat) (planned : Bool) (lost : List Nat) : State :=
  let paths := (s.wavePaths c k ++ lost).eraseDups
  let s := s.unqueue i
  let w : Swap := { laser := i, spare := spare, wave := k, stage := if planned then 0 else 1, planned := planned, paths := paths, uncorr := [] }
  let t := s.setSwap c (some w)
  if planned then
    let t := paths.foldl (fun (t : State) p => t.modLink p (fun l => { l with draining := true })) t
    s.settleDrains (t.sendNotice (t.leavingMask c k))
  else t.waveLost c k

/-- LASER_SWAP: the next decided swap of a cartridge that runs none begins: planned with a warm spare; at end of life with AUTOSWAP = 0, or of a
failed laser, without a drain; with no spare the wavelength will go dark. With AUTOSWAP = 0 a swap decided at the swap threshold is off (R329 to R332). -/
def execLaserSwap (c : Fin 2) (s : State) : Host.Outcome State Fault Refusal :=
  match s.swap? c.val, s.hull.queued.find? (fun q => q.1 / 12 == c.val) with
  | none, some (i, lost) =>
    if !s.pins.pwrGood then .next s
    else
      match s.waveOf c.val (i - 12 * c.val) with
      | none => .next (s.unqueue i)
      | some k =>
        let auto := (s.reg Csr.hullCtl).bit 8
        let ended := s.lasState i == lasEol || s.lasState i == lasFailed
        let spareless := (s.freeSpares c.val).isEmpty && s.assignedSpare c.val k == none
        let planned := s.lasState i != lasFailed && (auto || spareless)
        if !ended && !auto then .next (s.unqueue i)
        else
          match s.assignedSpare c.val k with
          | some j => if s.lasState j = lasStandby then .next (s.startSwap c.val k i (some j) planned lost) else .next s
          | none =>
            if !ended then .next (s.unqueue i)
            else
              match s.freeSpares c.val with
              | j :: _ => .next (s.warmSpare j k)
              | [] => .next (s.startSwap c.val k i none planned lost)
  | _, _ => .next s

/-- Uncorrectable codewords of a wavelength's lanes so far. -/
def State.uncorrOf (s : State) (c k : Nat) : List (Nat × Nat) := (s.waveLanes c k).map (fun i => (i, s.fld (Csr.optFec i) 47 32))

/-- A swap ends with its wavelength dark (R332): the paths that it held only because of their companions take flits again. -/
def State.swapDark (s : State) (c : Nat) (w : Swap) : State := ((((s.release w.paths).setSwap c none).goDark c w.wave).sendNotice 0).routesChanged

/-- The lanes of a swap have retrained, or none has: then the spare has FAILED, and the worn laser is restored below end of life and the retrain repeated, or
the wavelength goes dark (R329, R333). -/
def State.retrained (s : State) (c : Nat) (w : Swap) : State :=
  if (s.waveLanes c w.wave).any (fun i => s.laneState i == laneLocked) then
    s.setSwap c (some { w with stage := 3, uncorr := s.uncorrOf c w.wave })
  else
    match w.spare with
    | none => s.swapDark c w
    | some j =>
      let s := (s.endLaser j lasFailed).raise 0x45 [BitVec.ofNat 64 j]
      if s.lasState w.laser = lasRetired ∧ !s.ratioAtLeast w.laser 150 ∧ -150 ≤ (BitVec.ofNat 16 (s.fld (Csr.lasBias w.laser) 15 0)).toInt then
        let s := { s with flash := { s.flash with outOfUse := s.flash.outOfUse.setIfInBounds w.laser 0 } }
        (s.setSwap c (some { w with spare := none })).transfer c w.wave (w.laser - 12 * c)
      else s.swapDark c w

/-- A lane has passed the soak: LOCKED, a pre-FEC BER below 1e-5, and no uncorrectable codeword since it began (R329). -/
def State.soaked (s : State) (w : Swap) (i : Nat) : Bool :=
  s.laneState i == laneLocked && decide (s.fld (Csr.optFec i) 63 48 < 1000) && w.uncorr.contains (i, s.fld (Csr.optFec i) 47 32)

/-- The end of a swap for one of its paths: UP again with its key where the swap was planned, with fresh keys where it had gone DOWN (R329 to R331). A lane
that has failed the soak relocks, and its path is DOWN until discovery (DESIGN CHOICE, log 84); one that is not LOCKED goes its own way. -/
def State.swapPathDone (s : State) (w : Swap) (lanes : List Nat) (i : Nat) : State :=
  let s := s.modLink i (fun l => { l with draining := false })
  if !lanes.contains i then s
  else if s.soaked w i then
    let s := if w.planned then s else s.freshKeys i
    if s.pathState i = pathUp then s else (s.setFld (Csr.fabPath i) 63 60 pathUp).raise 0x30 [BitVec.ofNat 64 i]
  else
    let s := if s.laneState i = laneLocked then s.beginLock i else s
    if s.pathState i = pathTraining then s.setFld (Csr.fabPath i) 63 60 pathDownSt else s

/-- A swap ends: its paths return, and the states are sent (R329). -/
def State.swapDone (s : State) (c : Nat) (w : Swap) : State :=
  let s := w.paths.foldl (fun (t : State) i => t.swapPathDone w (s.waveLanes c w.wave) i) s
  (((s.setSwap c none).sendNotice 0).syncHull.broadcastStates).routesChanged

/-- A swap is given up before its transfer, for no spare is left and its laser still serves: the paths return as they were (R327, R333). -/
def State.swapOff (s : State) (c : Nat) (w : Swap) : State :=
  let s := w.paths.foldl (fun (t : State) i =>
    let t := if t.pathState i = pathTraining then t.setFld (Csr.fabPath i) 63 60 pathUp else t
    t.modLink i (fun l => { l with draining := false })) s
  (((s.setSwap c none).sendNotice 0).broadcastStates).routesChanged

/-- The paths of a planned swap have drained: their retry buffers are acknowledged (R271, R329). -/
def State.swapDrained (s : State) (w : Swap) : Bool :=
  w.paths.all (fun i => match s.links[i]? with | some l => l.drained || s.pathState i != pathUp | none => true)

/-- SWAP_STAGE_DONE: a timed stage of a cartridge's swap completes: the paths are drained, which it waits for; the feed has moved, or the wavelength goes dark;
the lanes have retrained; the soak is over (R329, R331 to R333). -/
def execSwapStageDone (c : Fin 2) (s : State) : Host.Outcome State Fault Refusal :=
  match s.swap? c.val with
  | none => .next s
  | some w =>
    match w.stage with
    | 0 =>
      if !s.swapDrained w then .next s
      else
        let lanes := s.waveLanes c.val w.wave
        let s := (w.paths.filter (fun i => lanes.contains i && s.pathState i == pathUp)).foldl (fun (t : State) i =>
          t.setFld (Csr.fabPath i) 63 60 pathTraining) s
        .next (s.setSwap c.val (some { w with stage := 1 })).broadcastStates
    | 1 =>
      match w.spare with
      | none => .next (s.swapDark c.val w)
      | some j =>
        if s.lasState j ≠ lasStandby then .next s
        else
          let s := if s.lasState w.laser = lasFailed then s else s.endLaser w.laser lasRetired
          let s := (s.transfer c.val w.wave (j - 12 * c.val)).raise 0x44 [Word.place j 8 8 ||| Word.place w.laser 8 0]
          .next (s.setSwap c.val (some { w with stage := 2 })).syncHull
    | 2 => .next (s.retrained c.val w).syncHull
    | _ => .next (s.swapDone c.val w)

/-- The spare of a swap fails before the transfer (R327, R332): another is warmed; with none left the wavelength goes dark where its laser has ended, or the
laser serves on. -/
def State.spareLost (s : State) (c : Nat) (w : Swap) : State :=
  match s.freeSpares c with
  | j :: _ => (s.warmSpare j w.wave).setSwap c (some { w with spare := some j })
  | [] =>
    if s.lasState w.laser = lasEol ∨ s.lasState w.laser = lasFailed then s.setSwap c (some { w with spare := none })
    else s.swapOff c w

/-- SUDDEN_LASER_FAILURE: a laser's output falls by more than 3 dB within 1 ms or its frequency loop loses lock: it is FAILED, event 0x45; its lanes
lose lock, and its feed moves to a free spare, or its wavelength goes dark (R331, R332). -/
def execSuddenLaserFailure (i : Fin 24) (s : State) : Host.Outcome State Fault Refusal :=
  let c := i.val / 12
  if !s.pins.pwrGood ∨ s.lasState i.val = lasOff ∨ s.lasState i.val = lasRetired ∨ s.lasState i.val = lasFailed then .next s
  else
    let wave := s.waveOf c (i.val - 12 * c)
    let s := (s.endLaser i.val lasFailed).raise 0x45 [BitVec.ofNat 64 i.val]
    match wave with
    | none =>
      match s.swap? c with
      | some w => if w.spare = some i.val ∧ w.stage ≤ 1 then .next (s.spareLost c w).syncHull else .next (s.assignSpares c).syncHull
      | none => .next (s.assignSpares c).syncHull
    | some k =>
      let lost := s.wavePaths c k
      match s.swap? c with
      | some w =>
        if w.wave ≠ k then .next ((s.waveLost c k).queueSwap i.val lost).syncHull
        else if w.spare = some i.val then .next ((s.waveLost c k).retrained c w).syncHull
        else .next ((s.waveLost c k).setSwap c (some { w with stage := max 1 w.stage, planned := false })).syncHull
      | none =>
        match s.assignedSpare c k, s.freeSpares c with
        | some j, _ => .next (s.startSwap c k i.val (some j) false []).syncHull
        | none, j :: _ => .next ((s.startSwap c k i.val (some j) false []).warmSpare j k).syncHull
        | none, [] => .next ((s.waveLost c k).goDark c k)

/-- CARTRIDGE_REMOVED: with main power on the interlock turns its lasers off; the lanes of its half go DOWN as in R331 and are DARK (R314, R333). -/
def execCartridgeRemoved (c : Fin 2) (s : State) : Host.Outcome State Fault Refusal :=
  if !s.hasCarts ∨ !(s.reg (Csr.cartInfo c.val)).bit 63 then .next s
  else
    let s := match s.swap? c.val with | some w => s.release w.paths | none => s
    let s := (List.range 12).foldl (fun (t : State) m => t.setFld (Csr.lasStat (12 * c.val + m)) 63 60 lasOff) s
    let s := (List.range 8).foldl (fun (t : State) k => t.waveLost c.val k) s
    let s := ((s.setReg (Csr.cartInfo c.val) 0).setReg (Csr.cartWmap c.val) 0).setSwap c.val none
    let s := { s with hull := { s.hull with queued := s.hull.queued.filter (fun q => q.1 / 12 != c.val) } }
    let s := ((List.range 128).filter (fun i => laneCart i == c.val && s.laneState i != laneAbsent)).foldl (fun (t : State) i => t.laneGoesDark i) s
    .next ((s.raise 0x49 [BitVec.ofNat 64 c.val]).raise 0x46 [Word.place 0xFF 8 8 ||| Word.place c.val 1 0]).syncHull.broadcastStates

/-! ### Supervisory ring (R336 to R339) -/

/-- BYPASS_CLOSE: the by-pass closes within 5 ms of loss of auxiliary supply, RESET_N low or a reset of Pip; counted and entered in the journal
(R337, R460). -/
def execBypassClose (s : State) : Host.Outcome State Fault Refusal :=
  if !s.ring.closed ∧ (!s.pins.aux ∨ s.pins.resetLow ∨ s.now < s.boot.since + 5000000) then
    let s := (s.bump Csr.supStat 31 16 1).journalAdd 4 []
    .next { s with ring := { s.ring with closed := true } }
  else .next s

/-- BYPASS_OPEN: it opens when Pip is running and SUP-IN has delivered valid code for 10 ms (R337). -/
def execBypassOpen (s : State) : Host.Outcome State Fault Refusal :=
  if s.ring.closed ∧ s.pins.aux ∧ !s.pins.resetLow then
    let s := if s.fld Csr.supStat 63 62 = 0 then s.setFld Csr.supStat 63 62 1 else s
    .next { s with ring := { s.ring with closed := false, heardAt := s.now, missing := false } }
  else .next s

/-- SUP_FRAME: a frame arrives at SUP-IN: sources and failed MACs are counted; the module's own is removed, one at TTL 0 is dropped, any other goes on,
unverified, with TTL decremented (R338, R341). -/
def execSupFrame (f : SupFrame) (s : State) : Host.Outcome State Fault Refusal :=
  if s.ring.closed ∨ !s.pins.aux then .next s
  else
    let s := s.setFld Csr.supStat 63 62 2
    let s := if f.macOk then s else s.bump Csr.supStat 15 0 1
    let heard := (f.serial, s.now) :: s.ring.heard.filter (fun h => h.1 != f.serial && decide (s.now < h.2 + 1000000000))
    let near := f.type == 1 && f.ttl == 255
    let s := { s with ring := { s.ring with heard := heard, heardAt := if near then s.now else s.ring.heardAt, missing := s.ring.missing && !near } }
    let s := s.setFld Csr.supStat 47 40 (min 255 heard.length)
    if f.serial = serialOf s.flash.identity ∨ f.ttl ≤ 1 then .next s
    else .next (s.emit (.supFrame { f with ttl := f.ttl - 1 }))

/-- HEARTBEAT: every 100 ms Pip sends its module state and health score (R339). -/
def execHeartbeat (s : State) : Host.Outcome State Fault Refusal :=
  if s.pins.aux then .next (s.ringSend 1 (BitVec.ofNat 8 s.mstate :: bytesOfNat 2 (s.fld Csr.hltScore 9 0))) else .next s

/-- HEARTBEAT_MISSING: no heartbeat from the nearest upstream module for 300 ms, or no signal at SUP-IN: event 0x4B (R339). -/
def execHeartbeatMissing (signalLost : Bool) (s : State) : Host.Outcome State Fault Refusal :=
  if s.ring.closed ∨ !s.pins.aux ∨ s.ring.missing ∨ !(signalLost || decide (s.ring.heardAt + 300000000 ≤ s.now)) then .next s
  else
    let s := if signalLost then s.setFld Csr.supStat 63 62 0 else s
    .next ({ s with ring := { s.ring with missing := true } }.raise 0x4B [])

end Sys2Proof.Machine
end

