-- ==== Sys2Proof/Machine/HostNet.lean ====
section
/-! DEFINITION. Host ports, RC connections and transfers in pieces (spec/11 R334, R335; 12 R342 to R345, R373). -/

namespace Sys2Proof.Machine

/-! ### Ports (R342, R343, R373) -/

/-- The network of a port: A for 0 to 3, B for 4 to 7. -/
def portNet (j : Nat) : Bool := decide (4 ≤ j)

/-- A host port's half is present (R17, R20). -/
def State.hostPresent (s : State) (j : Nat) : Bool := decide (j < 8) && !(s.h1Lost && decide (2 ≤ j % 4))

/-- The host port j. -/
def State.port (s : State) (j : Nat) : HostPort := (s.ports[j]?).getD HostPort.off

/-- Change a host port. -/
def State.modPort (s : State) (j : Nat) (f : HostPort → HostPort) : State := { s with ports := s.ports.setIfInBounds j (f (s.port j)) }

/-- Ports of a network that are UP. -/
def State.upPorts (s : State) (net : Bool) : List Nat := (List.range 8).filter (fun j => portNet j == net && (s.port j).up)

/-- ETH_PORT_STAT.RCONN of every port (R373). -/
def State.syncConns (s : State) : State :=
  (List.range 8).foldl (fun (t : State) j =>
    t.setFld (Csr.ethPortStat j) 47 40 (min 255 (s.conns.filter (fun c => c.port == j && c.up)).length)) s

/-- The port by which an answer leaves: where the request came in, else another UP port of its network, else one of the other network if the peer
stated an address there (R345). -/
def State.outPort (s : State) (j : Nat) (nets : Bool × Bool) : Option Nat :=
  if (s.port j).up then some j
  else
    match s.upPorts (portNet j) with
    | k :: _ => some k
    | [] =>
      let other := !portNet j
      if (if other then nets.2 else nets.1) then (s.upPorts other).head? else none

/-! ### Servers, connections and pieces (R344, R345) -/

/-- A server entry has an address on a network: bytes 0 to 15 for A, 16 to 31 for B. -/
def serverOn (server : BitVec 256) (net : Bool) : Bool :=
  if net then server.toNat / 2 ^ 128 != 0 else server.toNat % 2 ^ 128 != 0

/-- Some UP port reaches a server. -/
def State.reaches (s : State) (server : BitVec 256) : Bool :=
  (List.range 8).any (fun j => (s.port j).up && serverOn server (portNet j))

/-- The path MTU that connection management asks for (R343). -/
def State.pathMtu (s : State) : Nat := if s.fld Csr.ethCtl 17 16 = 0 then 1024 else 4096

/-- One RC connection from each UP port of each network on which the server has an address, at most 1,024 in all (R343, R344). -/
def State.openConns (s : State) (server : BitVec 256) : State :=
  let wanted := (List.range 8).filter (fun j => (s.port j).up && serverOn server (portNet j) &&
    !s.conns.any (fun c => c.server == server && c.port == j))
  let ports := wanted.take (1024 - s.conns.length)
  let fresh : List Conn := ports.map (fun j =>
    { server := server, port := j, up := true, rate := 100, halved := 0, cutAt := 0, riseAt := 0, pieces := [] })
  let s := ports.foldl (fun (t : State) j => t.emit (.connect j server t.pathMtu)) s
  State.syncConns { s with conns := s.conns ++ fresh }

/-- The connection that takes the next piece of a server, on one network where that is asked: up, with fewer than four outstanding, the first in rotation. -/
def State.freeConn (s : State) (server : BitVec 256) (net : Option Bool) : Option Conn :=
  s.conns.find? (fun c => c.server == server && c.up && decide (c.pieces.length < 4) &&
    match net with | some b => portNet c.port == b | none => true)

/-- The network on which a piece must be issued again: that of its failed connection while the server has a connection there (R345). -/
def State.boundNet (s : State) (x : Xfer) (p : Nat) : Option Bool :=
  match x.bound.find? (fun b => b.1 == p) with
  | some (_, b) => if s.conns.any (fun c => c.server == x.server && c.up && portNet c.port == b) then some b else none
  | none => none

/-- A piece of a transfer is placed on a connection, whose next turn then comes last. -/
def State.placeOn (s : State) (c : Conn) (x : Xfer) (p : Nat) : State :=
  let here (k : Conn) : Bool := k.server == c.server && k.port == c.port
  { s with
    conns := s.conns.filter (fun k => !here k) ++ (s.conns.filter here).map (fun (k : Conn) => { k with pieces := k.pieces ++ [(x.id, p)] })
    xfers := s.xfers.map (fun (y : Xfer) => if y.id = x.id then
      { y with waiting := y.waiting.filter (fun w => w.1 != p), bound := y.bound.filter (fun b => b.1 != p), flying := y.flying ++ [p] } else y) }

/-- The first waiting piece that a connection can take: its transfer, its number, the connection. -/
def State.nextPlace (s : State) : Option (Xfer × Nat × Conn) :=
  (s.xfers.filter (fun x => x.outcome.isNone)).findSome? (fun x =>
    x.waiting.findSome? (fun w => (s.freeConn x.server (s.boundNet x w.1)).map (fun c => (x, w.1, c))))

/-- Place waiting pieces while connections take them. -/
def State.placePieces : Nat → State → State
  | 0, s => s
  | fuel + 1, s =>
    match s.nextPlace with
    | none => s
    | some (x, p, c) => State.placePieces fuel (s.placeOn c x p)

/-- Pieces that a server's connections can hold at once bound the placement. -/
def State.place (s : State) : State := s.placePieces (4 * s.conns.length)

/-- A transfer of `len` bytes in pieces of 1 MiB begins (R344). -/
def State.startXfer (s : State) (purpose : XferUse) (server : BitVec 256) (len : Nat) : State :=
  let x : Xfer := { id := s.nextXfer, purpose := purpose, server := server, waiting := (List.range (ceilDiv len (2 ^ 20))).map (fun p => (p, s.now))
                    bound := [], flying := [], outcome := if len = 0 then some true else none }
  ({ s with xfers := s.xfers ++ [x], nextXfer := s.nextXfer + 1 }.openConns server).place

/-- The transfer of a purpose. -/
def State.xferOf (s : State) (u : XferUse) : Option Xfer := s.xfers.find? (fun x => x.purpose == u)

/-- A transfer is forgotten. -/
def State.dropXfer (s : State) (id : Nat) : State :=
  ({ s with
    xfers := s.xfers.filter (fun x => x.id != id)
    conns := s.conns.map (fun (c : Conn) => { c with pieces := c.pieces.filter (fun p => p.1 != id) }) }).place

/-- The pieces outstanding on failed connections wait again, whole, bound to the network that they were on; a piece whose server has no connection left
seeks one from now on (R345). -/
def State.reissue (s : State) (lost : Conn → Bool) : State :=
  let ps : List (Nat × Nat × Bool) := (s.conns.filter lost).flatMap (fun c => c.pieces.map (fun p => (p.1, p.2, portNet c.port)))
  let orphan (x : Xfer) : Bool := s.conns.any (fun c => c.server == x.server && c.up) && !s.conns.any (fun c => c.server == x.server && c.up && !lost c)
  let s := { s with
    conns := s.conns.map (fun (c : Conn) => if lost c then { c with up := false, pieces := [] } else c)
    xfers := s.xfers.map (fun (x : Xfer) =>
      let mine : List (Nat × Bool) := (ps.filter (fun (p : Nat × Nat × Bool) => p.1 == x.id)).map (fun (p : Nat × Nat × Bool) => p.2)
      let back (p : Nat) : Bool := mine.any (fun (m : Nat × Bool) => m.1 == p)
      { x with
        flying := x.flying.filter (fun p => !back p)
        bound := mine ++ x.bound.filter (fun (b : Nat × Bool) => !back b.1)
        waiting := mine.map (fun (m : Nat × Bool) => (m.1, s.now)) ++ (if orphan x then x.waiting.map (fun (w : Nat × Nat) => (w.1, s.now)) else x.waiting) }) }
  s.syncConns.place

/-- A host port leaves UP, to DOWN (2, counted) or to DARK (3): event 0x92; event 0x94 with the last port of its network; its connections fail over (R345, R373). -/
def State.portDown (s : State) (j st hst : Nat) : State :=
  if !(s.port j).up then (s.setFld (Csr.ethPortStat j) 63 60 st).setFld (Csr.hoptStat j) 63 60 hst
  else
    let net := portNet j
    let s := s.modPort j (fun p => { p with up := false })
    let s := (s.setFld (Csr.ethPortStat j) 63 60 st).setFld (Csr.hoptStat j) 63 60 hst
    let s := if st = 2 then s.bump (Csr.ethPortCnt j) 63 48 1 else s
    let s := (s.raise 0x92 [BitVec.ofNat 64 j]).reissue (fun c => c.port == j)
    if (s.upPorts net).isEmpty then
      { (s.raise 0x94 [if net then 1 else 0]) with netLost := s.netLost ||| (if net then 2 else 1) }
    else s

/-- HOST_LINK_LOSS: a host port loses link, or one RC connection from it exhausts its retries; outstanding pieces are reissued (R345). -/
def execHostLinkLoss (j : Fin 8) (conn : Option (BitVec 256)) (s : State) : Host.Outcome State Fault Refusal :=
  match conn with
  | none => .next (if (s.port j.val).up then s.portDown j.val 2 2 else s)
  | some server => .next (s.reissue (fun c => c.port == j.val && c.server == server && c.up))

/-- HOST_PORT_UP: a host port gains link with its static address or a lease, goes UP, event 0x93 (R342, R345, R373). -/
def execHostPortUp (j : Fin 8) (lease gateway : BitVec 128) (s : State) : Host.Outcome State Fault Refusal :=
  if !s.mainOn ∨ s.boot.stage < 5 ∨ !s.hostPresent j.val ∨ (s.port j.val).up ∨ s.fld (Csr.hoptStat j.val) 63 60 = 4 then .next s
  else
    let item := s.flash.ports.find? (fun a => a.port == j.val && s.flash.cfgOk)
    let vid := (s.flash.vlans.find? (fun v => v.1 == j.val && s.flash.cfgOk)).map (fun v => v.2.toNat)
    let (fixed, addr, gw) := match item with
      | some a => if a.fixed then (true, a.addr, a.gateway) else (false, lease, gateway)
      | none => (false, lease, gateway)
    let s := s.modPort j.val (fun p => { p with up := true, fixed := fixed, addr := addr, gateway := gw, vlan := vid.getD 0 })
    let v4 := if addr.toNat / 2 ^ 32 = 0xFFFF then addr.toNat % 2 ^ 32 else 0
    let s := ((s.setFld (Csr.ethPortStat j.val) 63 60 1).setFld (Csr.ethPortStat j.val) 31 0 v4).setFld (Csr.hoptStat j.val) 63 60 1
    .next (s.raise 0x93 [BitVec.ofNat 64 j.val])

/-- HOST_RECONNECT: every 1 s the device reconnects on ports that are UP again; a restored network raises event 0x95 and pieces rotate over it (R345). -/
def execHostReconnect (s : State) : Host.Outcome State Fault Refusal :=
  let s := (s.conns.filter (fun c => !c.up && (s.port c.port).up)).foldl (fun (t : State) c => t.emit (.connect c.port c.server t.pathMtu)) s
  let s := { s with conns := s.conns.map (fun (c : Conn) => if (s.port c.port).up then { c with up := true } else c) }
  let s := ((s.xfers.filter (fun x => x.outcome.isNone)).foldl (fun (t : State) x => t.openConns x.server) s).syncConns
  let back (net : Bool) (bit : Nat) (s : State) : State :=
    if s.netLost.getLsbD bit && !(s.upPorts net).isEmpty then
      { (s.raise 0x95 [BitVec.ofNat 64 bit]) with netLost := s.netLost &&& ~~~ (1#2 <<< bit) }
    else s
  .next (back true 1 (back false 0 s)).place

/-- A connection after a CNP: its rate is halved, at most once per 50 µs; the time without a CNP starts again (R343). -/
def Conn.cnp (c : Conn) (now : Nat) : Conn :=
  if c.halved = 0 ∧ c.rate = 100 ∨ c.cutAt + 50000 ≤ now then { c with halved := c.halved + 1, cutAt := now, riseAt := now } else { c with riseAt := now }

/-- A connection after 100 µs without a CNP: its rate rises by 5 Gb/s, to the port's 100 Gb/s (R343). -/
def Conn.recover (c : Conn) (now : Nat) : Conn :=
  let r := c.rate + 5 * 2 ^ c.halved
  if 100 * 2 ^ c.halved ≤ r then { c with rate := 100, halved := 0, riseAt := now } else { c with rate := r, riseAt := now }

/-- CNP: a received CNP halves the rate of a connection, at most once per 50 µs, when ETH_CTL.ECN is 1; it is counted (R343, R373). -/
def execCnp (j : Fin 8) (server : BitVec 256) (s : State) : Host.Outcome State Fault Refusal :=
  if !(s.port j.val).up then .next s
  else
    let s := s.bump (Csr.ethPortCnt j.val) 47 32 1
    if !(s.reg Csr.ethCtl).bit 0 then .next s
    else .next { s with conns := s.conns.map (fun (c : Conn) => if c.server = server ∧ c.port = j.val then c.cnp s.now else c) }

/-- CNP_RATE_RECOVERY: 100 µs without a CNP raise the rate by 5 Gb/s, to the port's 100 Gb/s (R343). -/
def execCnpRateRecovery (j : Fin 8) (server : BitVec 256) (s : State) : Host.Outcome State Fault Refusal :=
  .next { s with conns := s.conns.map (fun (c : Conn) =>
    if c.server = server ∧ c.port = j.val ∧ c.riseAt + 100000 ≤ s.now then c.recover s.now else c) }

/-! ### LLDP and echo (R343) -/

/-- LLDP_TRANSMIT: each host port transmits LLDP every 30 s. -/
def execLldpTransmit (j : Fin 8) (s : State) : Host.Outcome State Fault Refusal := .next (if (s.port j.val).up then s.emit (.lldp j.val) else s)

/-- LLDP_RECEIVE: the neighbour of a port is recorded, one per port. -/
def execLldpReceive (j : Fin 8) (neighbour : List Byte) (s : State) : Host.Outcome State Fault Refusal :=
  .next (if (s.port j.val).up then s.modPort j.val (fun p => { p with neighbour := some neighbour }) else s)

/-- ICMP_ECHO_REQUEST: answered, up to 1,000 replies per second per port; further ones are dropped and counted (R343, R373). -/
def execIcmpEchoRequest (j : Fin 8) (v6 : Bool) (s : State) : Host.Outcome State Fault Refusal :=
  let p := s.port j.val
  if !p.up then .next s
  else
    let sec := s.now / 1000000000
    let sent := if p.echoSecond = sec then p.echoes else 0
    if sent < 1000 then .next ((s.modPort j.val (fun p => { p with echoes := sent + 1, echoSecond := sec })).emit (.echo j.val v6))
    else .next (s.bump (Csr.ethPortCnt j.val) 31 0 1)

/-! ### Host lasers (R334, R335) -/

/-- The shared spare of a host port's half: 1 HS0, 2 HS1. -/
def hostSpare (j : Nat) : Nat := if 2 ≤ j % 4 then 2 else 1

/-- The laser of a host port from now on, which flash keeps (R335). -/
def State.setHostUse (s : State) (j u : Nat) : State := { s with flash := { s.flash with hostUse := s.flash.hostUse.setIfInBounds j u } }

/-- The bias ratio of a host laser, in units of 1/1,024, is at least p percent (R327, R335). -/
def hostRatioAtLeast (ratio : BitVec 16) (p : Nat) : Bool := decide (p * 1024 ≤ 100 * ratio.toNat)

/-- HOST_LASER_SWAP: the laser in use at a host port reports its bias ratio, or has failed suddenly. At the swap threshold, or on failure, the port's light
moves to the half's spare, event 0x4A, and the port restarts; when that spare is in use already, the port goes dark at end of life or on failure (R327, R335). -/
def execHostLaserSwap (j : Fin 8) (ratio : BitVec 16) (failed : Bool) (s : State) : Host.Outcome State Fault Refusal :=
  let o := Csr.hoptStat j.val
  if !s.mainOn ∨ !s.hostPresent j.val ∨ s.fld o 63 60 = 4 then .next s
  else
    let s := s.setFld o 47 32 ratio.toNat
    let spare := hostSpare j.val
    if s.flash.hostUse.toList.any (fun u => u == spare || u == spare + 3) then
      if failed || hostRatioAtLeast ratio 150 then
        let s := ((s.portDown j.val 3 4).modPort j.val (fun p => { p with dark := true })).setHostUse j.val (s.flash.hostUse[j] + 3)
        .next (s.syncHull.raise 0x4A [BitVec.ofNat 64 j.val])
      else .next s
    else if failed || hostRatioAtLeast ratio 135 then
      .next ((((s.portDown j.val 2 3).setFld o 59 56 spare).setHostUse j.val spare).raise 0x4A [BitVec.ofNat 64 j.val])
    else .next s

end Sys2Proof.Machine
end

