-- ==== Sys2Proof/Machine/Sessions.lean ====
section
/-! DEFINITION. Ningonus sessions and client sessions of a serving endpoint: handshake, datagrams, requests in REQID order, responses; event sinks
(spec/12 R346 to R351, R362, R369; 14 R419). -/

namespace Sys2Proof.Machine

/-! ### Status codes (R351) -/

def stOk : Nat := 0
def stMalformed : Nat := 1
def stDenied : Nat := 2
def stBadSig : Nat := 3
def stUnitAbsent : Nat := 4
def stLocked : Nat := 5
def stReadOnly : Nat := 6
def stNlMismatch : Nat := 7
def stBusy : Nat := 8
def stHeld : Nat := 9
def stJobExists : Nat := 10
def stNotFound : Nat := 11
def stTooLarge : Nat := 12
def stNetwork : Nat := 13
def stDigest : Nat := 14
def stFormat : Nat := 15

/-- A response with no body. -/
def plain (status : Nat) : Response := { status := status, body := [] }

/-! ### Message types and roles (R350, R369, R419) -/

def mtPing : Nat := 0x1
def mtCsrRead : Nat := 0x2
def mtCsrWrite : Nat := 0x3
def mtSubmit : Nat := 0x10
def mtCancel : Nat := 0x11
def mtJobQuery : Nat := 0x12
def mtWorklist : Nat := 0x13
def mtSinkSet : Nat := 0x20
def mtEvent : Nat := 0x21
def mtLevelSet : Nat := 0x30
def mtResume : Nat := 0x31
def mtReset : Nat := 0x32
def mtUpdate : Nat := 0x40
def mtAttest : Nat := 0x41
def mtEnroll : Nat := 0x42
def mtAcquit : Nat := 0x50
def mtDrillSet : Nat := 0x51
def mtGenerate : Nat := 0x100
def mtAppend : Nat := 0x101
def mtStop : Nat := 0x102

/-- Messages that a controller sends. -/
def ningonusTypes : List Nat :=
  [mtPing, mtCsrRead, mtCsrWrite, mtSubmit, mtCancel, mtJobQuery, mtWorklist, mtSinkSet, mtLevelSet, mtResume, mtReset, mtUpdate, mtAttest, mtEnroll,
   mtAcquit, mtDrillSet]

/-- Messages that a client sends. -/
def clientTypes : List Nat := [mtGenerate, mtAppend, mtStop]

/-- The roles that may send a message (R350); the claimant only PING, ATTEST and the first-owner ENROLL (R419). -/
def roleAllows (role mtype : Nat) : Bool :=
  match role with
  | 0 => ningonusTypes.contains mtype
  | 1 => [mtPing, mtCsrRead, mtSubmit, mtCancel, mtJobQuery, mtWorklist, mtSinkSet, mtResume, mtAttest, mtAcquit].contains mtype
  | 2 => [mtPing, mtCsrRead, mtJobQuery, mtAttest].contains mtype
  | _ => [mtPing, mtAttest, mtEnroll].contains mtype

/-- The role of an identity key: owner, enrolled operator or observer, or claimant on an unowned device (R348, R419). -/
def State.keyRole (s : State) (key : BitVec 256) : Option Nat :=
  if s.flash.owner = some key then some 0
  else
    match s.flash.keys.find? (fun k => k.hash == key) with
    | some k => if s.flash.cfgOk then some k.role else none
    | none => if s.flash.owner.isNone then some 3 else none

/-! ### Channels -/

/-- A service of a job by its index. -/
def State.service? (s : State) (job : Word) (k : Nat) : Option (Job × Service) :=
  match s.job? job with
  | none => none
  | some j => (j.services[k]?).map (fun v => (j, v))

/-- A service of a job replaced. -/
def State.setService (s : State) (job : Word) (k : Nat) (v : Service) : State :=
  match s.job? job with
  | none => s
  | some j => s.putJob { j with services := j.services.set k v }

/-- The open session that a command names. -/
def State.chan? (s : State) : SessionRef → Option Channel
  | .ningonus k => (s.sessions[k]).map (fun x => x.ch)
  | .client job v key =>
    match s.service? job v with
    | some (_, x) => x.clients.find? (fun c => c.key == key)
    | none => none

/-- An open session's channel replaced. -/
def State.setChan (s : State) (r : SessionRef) (c : Channel) : State :=
  match r with
  | .ningonus k => { s with sessions := s.sessions.set k ((s.sessions[k]).map (fun x => { x with ch := c })) }
  | .client job v key =>
    match s.service? job v with
    | some (_, x) => s.setService job v { x with clients := x.clients.map (fun d => if d.key = key then c else d) }
    | none => s

/-- A session closes; a client's requests are stopped at the next step (R347, R370). -/
def State.closeChan (s : State) (r : SessionRef) : State :=
  match r with
  | .ningonus k => { s with sessions := s.sessions.set k none }
  | .client job v key =>
    match s.service? job v with
    | some (_, x) => s.setService job v { x with
        clients := x.clients.filter (fun d => d.key != key)
        requests := x.requests.map (fun (q : GenReq) => if q.client = key then { q with stopped := true } else q) }
    | none => s

/-- The role check of a message; a client session carries its own messages only. -/
def State.mayServe (s : State) (r : SessionRef) (mtype : Nat) : Bool :=
  match r with
  | .ningonus k => match s.sessions[k] with | some x => roleAllows x.role mtype | none => false
  | .client _ _ _ => clientTypes.contains mtype

/-- A datagram of the device leaves on a session, by the port at which the peer was last heard or as R345 says, or is dropped there; it takes the next CTR
(R345, R346). A session whose counter reaches 2^32 closes (R347). -/
def State.sendOn (s : State) (r : SessionRef) (datagram : Nat → Word → Output) : State :=
  match s.chan? r with
  | none => s
  | some c =>
    let s := s.setChan r { c with tx := c.tx + 1 }
    let s := match s.outPort c.port c.nets with
      | some p => s.emit (datagram p c.sid)
      | none => s
    if 2 ^ 32 ≤ c.tx + 1 then s.closeChan r else s

/-- An answer leaves on the session and is kept for its REQID (R349). -/
def State.respond (s : State) (r : SessionRef) (reqid : BitVec 32) (x : Response) (keep : Bool) : State :=
  match s.chan? r with
  | none => s
  | some c =>
    let kept := if keep then ((reqid, x) :: c.kept).take 1024 else c.kept
    (s.setChan r { c with kept := kept }).sendOn r (fun p sid => .response p sid reqid x)

/-- `a` precedes `b` in serial-number arithmetic (R349). -/
def reqBefore (a b : BitVec 32) : Bool := decide (1 ≤ (b - a).toNat) && decide ((b - a).toNat < 2 ^ 31)

/-- The REQID that the next request in order follows. -/
def Channel.last (c : Channel) : Option (BitVec 32) :=
  match c.ready.getLast? with
  | some x => some x.1
  | none => c.highest

/-- Held requests that have become next in order join the ready ones. -/
def Channel.settle : Nat → Channel → Channel
  | 0, c => c
  | fuel + 1, c =>
    match c.last with
    | none => c
    | some h =>
      match c.waiting.find? (fun w => w.1 == h + 1) with
      | none => c
      | some (id, mt, _) => Channel.settle fuel { c with ready := c.ready ++ [(id, mt)], waiting := c.waiting.filter (fun w => w.1 != id) }

/-- The message types that a session can carry. -/
def sessionTypes : SessionRef → List Nat
  | .ningonus _ => ningonusTypes
  | .client _ _ _ => clientTypes

/-- A request of an unknown type is answered MALFORMED in its turn. -/
def State.refuseUnknown : Nat → State → SessionRef → State
  | 0, s, _ => s
  | fuel + 1, s, r =>
    match s.chan? r with
    | none => s
    | some c =>
      match c.ready with
      | (id, mt) :: rest =>
        if (sessionTypes r).contains mt then s
        else State.refuseUnknown fuel ((s.setChan r { c with ready := rest, highest := some id }).respond r id (plain stMalformed) true) r
      | [] => s

/-- One request of a session is executed: the oldest whose turn has come, when it is a message of this type; a role that may not send it gets DENIED and no
effect (R349, R350). -/
def State.serve (s : State) (r : SessionRef) (mtype : Nat) (effect : State → State × Response) : State :=
  match s.chan? r with
  | none => s
  | some c =>
    match c.ready with
    | [] => s
    | (id, mt) :: rest =>
      if mt ≠ mtype then s
      else
        let s := s.setChan r { c with ready := rest, highest := some id }
        let (s, x) := if s.mayServe r mtype then effect s else (s, plain stDenied)
        (s.respond r id x true).refuseUnknown (rest.length) r

/-! ### Handshake (R347, R369, R419) -/

/-- A dropped datagram or a refused handshake is counted (R346, R373). -/
def State.authFail (s : State) : State := s.bump Csr.ngsStat 31 16 1

/-- A fresh channel. -/
def newChannel (s : State) (key : BitVec 256) (port : Nat) (nets : Bool × Bool) : Channel :=
  { key := key, sid := s.free, port := port, nets := nets, lastAuth := s.now, rxTop := none, rxSeen := [], tx := 0, highest := none, kept := []
    ready := [], waiting := [] }

/-- A number in the specific bytes 16 to 63 of a service entry. -/
def Service.fld (v : Service) (lo n : Nat) : Nat := natOfBytes ((v.spec.drop (lo - 16)).take n)

/-- The base of a window of a job. -/
def Job.winBase (j : Job) (w : Nat) : Nat := match j.windows[w]? with | some x => x.base | none => 0

/-- The client table of a serving endpoint holds a key (R369). -/
def State.clientListed (s : State) (j : Job) (v : Service) (key : BitVec 256) : Bool :=
  (List.range (v.fld 40 4)).any (fun i =>
    digestOfBytes (s.readBytes (j.winBase (v.fld 26 1) + v.fld 32 8 + 32 * i) 32) == key)

/-- HELLO: the key is looked up and its signature checked; a HELLO_ACK opens a session, or answers BUSY when 64 are open; an unknown key or a bad
signature receives no answer and raises event 0x96 (R347, R369, R419). `serving` names the endpoint whose port it came to. -/
def execHello (port : Fin 8) (serving : Option (Word × Nat)) (key : BitVec 256) (sigOk : Bool) (nets : Bool × Bool) (s : State) :
    Host.Outcome State Fault Refusal :=
  let refused := s.authFail.raise 0x96 []
  if !s.serving ∨ !(s.port port.val).up ∨ !(s.reg Csr.secStat).bit 55 then .next s
  else
    match serving with
    | some (job, k) =>
      match s.service? job k with
      | none => .next s
      | some (j, v) =>
        if v.kind ≠ 3 ∨ !v.running then .next s
        else if !sigOk ∨ !s.clientListed j v key then .next refused
        else
          let c := newChannel s key port.val nets
          let s := s.drew.setService job k { v with clients := v.clients.filter (fun d => d.key != key) ++ [c] }
          .next (s.emit (.helloAck port.val stOk c.sid))
    | none =>
      match s.keyRole key, sigOk with
      | some role, true =>
        match (List.finRange 64).find? (fun i => (s.sessions[i]).isNone) with
        | none => .next (s.emit (.helloAck port.val stBusy 0))
        | some i =>
          let c := newChannel s key port.val nets
          let x : Session := { ch := c, role := role, evNext := 0, evOut := [] }
          .next (State.emit { s.drew with sessions := s.sessions.set i (some x) } (.helloAck port.val stOk c.sid))
      | _, _ => .next refused

/-! ### Datagrams (R346, R347, R349) -/

/-- A datagram's tag and counter are accepted (R346). -/
def Channel.accepts (c : Channel) (ctr : Nat) (tagOk : Bool) : Bool :=
  tagOk && match c.rxTop with | none => true | some t => decide (t < ctr + 1024) && !c.rxSeen.contains ctr

/-- The channel after an accepted datagram. -/
def Channel.heard (c : Channel) (now ctr port : Nat) : Channel :=
  let top := match c.rxTop with | none => ctr | some t => max t ctr
  { c with rxTop := some top, rxSeen := (ctr :: c.rxSeen).filter (fun x => decide (top < x + 1024)), lastAuth := now, port := port }

/-- The device's own EVENT request is acknowledged: the event leaves its sink (R349, R362). -/
def State.ackEvent (s : State) (k : Fin 64) (reqid : BitVec 32) : State :=
  match s.sessions[k] with
  | none => s
  | some x =>
    match x.evOut.find? (fun e => e.reqid == reqid) with
    | none => s
    | some e =>
      { s with
        sessions := s.sessions.set k (some { x with evOut := x.evOut.filter (fun f => f.reqid != reqid) })
        sinks := s.sinks.setIfInBounds e.sink (((s.sinks[e.sink]?).join).map (fun q => { q with queue := q.queue.filter (fun m => m.1 != e.seq) })) }

/-- A request that has arrived: next in order, held, answered from the kept responses, MALFORMED, or dropped (R349). -/
def State.takeRequest (s : State) (r : SessionRef) (c : Channel) (reqid : BitVec 32) (mtype : Nat) : State :=
  match c.kept.find? (fun k => k.1 == reqid) with
  | some k => (s.setChan r c).respond r reqid k.2 false
  | none =>
    if c.ready.any (fun q => q.1 == reqid) || c.waiting.any (fun q => q.1 == reqid) then s.setChan r c
    else
      match c.last with
      | none => (s.setChan r (Channel.settle c.waiting.length { c with ready := [(reqid, mtype)] })).refuseUnknown 64 r
      | some h =>
        if reqid = h + 1 then
          let c := Channel.settle c.waiting.length { c with ready := c.ready ++ [(reqid, mtype)] }
          (s.setChan r c).refuseUnknown (c.ready.length) r
        else if reqBefore h reqid then s.setChan r { c with waiting := c.waiting ++ [(reqid, mtype, s.now)] }
        else if (h - reqid).toNat ≤ 1023 then (s.setChan r c).respond r reqid (plain stMalformed) false
        else s.setChan r c

/-- DATA: a datagram is authenticated and its message takes its place in REQID order (R346, R349); an EVENT from the controller acknowledges the
device's own. The message itself is executed by the command of its type. -/
def execData (r : SessionRef) (port : Fin 8) (ctr : Nat) (tagOk : Bool) (reqid : BitVec 32) (mtype : BitVec 16) (s : State) :
    Host.Outcome State Fault Refusal :=
  match s.chan? r with
  | none => .next s
  | some c =>
    if !(s.port port.val).up then .next s
    else if !c.accepts ctr tagOk then .next s.authFail
    else if 2 ^ 32 ≤ ctr then .next (s.closeChan r)
    else
      let c := c.heard s.now ctr port.val
      match r with
      | .ningonus k =>
        if mtype.toNat = mtEvent then .next ((s.setChan r c).ackEvent k reqid) else .next (s.takeRequest r c reqid mtype.toNat)
      | .client _ _ _ => .next (s.takeRequest r c reqid mtype.toNat)

/-- CLOSE: an authenticated CLOSE ends the session (R347). -/
def execClose (r : SessionRef) (ctr : Nat) (tagOk : Bool) (s : State) : Host.Outcome State Fault Refusal :=
  match s.chan? r with
  | none => .next s
  | some c => if c.accepts ctr tagOk then .next (s.closeChan r) else .next s.authFail

/-- SESSION_IDLE_TIMEOUT: 60 s without an authenticated datagram (R347). -/
def execSessionIdleTimeout (r : SessionRef) (s : State) : Host.Outcome State Fault Refusal :=
  match s.chan? r with
  | none => .next s
  | some c => if c.lastAuth + 60000000000 ≤ s.now then .next (s.closeChan r) else .next s

/-- Held requests up to one of them, in ascending order. -/
def Channel.release : Nat → Channel → BitVec 32 → Channel
  | 0, c, _ => c
  | fuel + 1, c, upto =>
    let due := c.waiting.filter (fun w => w.1 == upto || reqBefore w.1 upto)
    match due.foldl (fun best w => match best with | none => some w | some b => if reqBefore w.1 b.1 then some w else best) none with
    | none => c
    | some (id, mt, _) => Channel.release fuel { c with ready := c.ready ++ [(id, mt)], waiting := c.waiting.filter (fun w => w.1 != id) } upto

/-- REQID_HOLD_EXPIRY: a request held for 640 ms takes its turn, after every held one that precedes it; the missing REQIDs are treated as never sent
(R349). -/
def execReqidHoldExpiry (r : SessionRef) (s : State) : Host.Outcome State Fault Refusal :=
  match s.chan? r with
  | none => .next s
  | some c =>
    match c.waiting.find? (fun w => decide (w.2.2 + 640000000 ≤ s.now)) with
    | none => .next s
    | some (id, _, _) =>
      let c := Channel.release c.waiting.length c id
      let c := Channel.settle c.waiting.length c
      .next ((s.setChan r c).refuseUnknown c.ready.length r)

/-- PING: an empty response (R350). -/
def execPing (k : Fin 64) (s : State) : Host.Outcome State Fault Refusal :=
  .next (s.serve (.ningonus k) mtPing (fun s => (s, plain stOk)))

/-! ### Event sinks (R362) -/

/-- SINK_SET: one of four sinks is bound to the session's key with a mask of event ranges; the same key's queue and numbering go on (R362). -/
def execSinkSet (k : Fin 64) (sink : BitVec 8) (mask : BitVec 16) (s : State) : Host.Outcome State Fault Refusal :=
  .next (s.serve (.ningonus k) mtSinkSet (fun s =>
    match s.sessions[k] with
    | none => (s, plain stDenied)
    | some x =>
      if 4 ≤ sink.toNat then (s, plain stMalformed)
      else
        let fresh : Sink := { key := x.ch.key, mask := mask, seq := 0, queue := [], dropped := 0 }
        let q := match (s.sinks[sink.toNat]?).join with
          | some old => if old.key = x.ch.key then { old with mask := mask } else fresh
          | none => fresh
        ({ s with sinks := s.sinks.setIfInBounds sink.toNat (some q) }, plain stOk)))

/-- EVENT: the oldest event of a sink that is not under way goes out on an open session of its key (R362). -/
def execEvent (sink : Fin 4) (s : State) : Host.Outcome State Fault Refusal :=
  match s.sinks[sink] with
  | none => .next s
  | some q =>
    match (List.finRange 64).find? (fun i => match s.sessions[i] with | some x => x.ch.key == q.key | none => false) with
    | none => .next s
    | some i =>
      match s.sessions[i] with
      | none => .next s
      | some x =>
        match q.queue.find? (fun m => !x.evOut.any (fun e => e.sink == sink.val && e.seq == m.1)) with
        | none => .next s
        | some (seq, e) =>
          let r : EventReq := { reqid := x.evNext, sink := sink.val, seq := seq, begun := s.now, sent := s.now, interval := 20000000 }
          let s := { s with sessions := s.sessions.set i (some { x with evNext := x.evNext + 1, evOut := x.evOut ++ [r] }) }
          .next (s.sendOn (.ningonus i) (fun p sid => .eventMsg p sid x.evNext seq e))

/-- REQUEST_RETRANSMIT: an unanswered EVENT is sent again after its interval, which doubles up to 640 ms; after 5 s the device stops (R349, R362). -/
def execRequestRetransmit (k : Fin 64) (s : State) : Host.Outcome State Fault Refusal :=
  match s.sessions[k] with
  | none => .next s
  | some x =>
    let live := x.evOut.filter (fun e => decide (s.now < e.begun + 5000000000))
    let due := live.filter (fun e => decide (e.sent + e.interval ≤ s.now))
    let out := live.map (fun (e : EventReq) => if e.sent + e.interval ≤ s.now then { e with sent := s.now, interval := min 640000000 (2 * e.interval) } else e)
    let s := { s with sessions := s.sessions.set k (some { x with evOut := out }) }
    .next (due.foldl (fun (t : State) e =>
      match (t.sinks[e.sink]?).join with
      | some q => match q.queue.find? (fun m => m.1 == e.seq) with
        | some (seq, ev) => t.sendOn (.ningonus k) (fun p sid => .eventMsg p sid e.reqid seq ev)
        | none => t
      | none => t) s)

end Sys2Proof.Machine
end

