-- ==== Sys2Proof/Machine/Csr.lean ====
section
/-! DEFINITION. Reading the CSR window: registers of the file and registers that are views of other state (spec/16 R464 to
R471, spec/03 R85, 05 R158, 06 R191). -/

namespace Sys2Proof.Machine

/-- Bank states as CORE_MMSTAT encodes them (R145). -/
def BankPhase.code : BankPhase → Nat
  | .empty => 0 | .accum => 1 | .held => 2 | .draining => 3

/-- Array states as CORE_MMSTAT encodes them (R154). -/
def ArrayState.code : ArrayState → Nat
  | .gated => 0 | .rise => 1 | .active => 2 | .warm => 3 | .ramp => 4

/-- CORE_STATE (R85): the run state and the occupancy of the six queues. -/
def Core.stateWord (c : Core) : Word :=
  Word.place c.run.code 3 0 ||| Word.place c.qMove.length 6 8 ||| Word.place c.qCtx0.length 6 16 |||
  Word.place c.qCtx1.length 6 24 ||| Word.place c.qVector.length 6 32 ||| Word.place c.qRow.length 6 40 |||
  Word.place (c.occupied .comm) 6 48

/-- CORE_MMSTAT (R145, R154); drains in flight are those started and not complete. -/
def Core.mmstatWord (c : Core) (now : Nat) : Word :=
  let drn := ((c.qCtx0 ++ c.qCtx1).filter (fun e => e.started && wOp e.word == 1)).length
  Word.place c.bank0.phase.code 2 0 ||| Word.place c.bank1.phase.code 2 2 ||| Word.place (min drn 2) 2 8 |||
  Word.place c.arrays.code 3 12 ||| Word.place (c.dutyNow now) 7 16

/-- A register of core n's block (R466). -/
def Core.csr (c : Core) (now o : Nat) : Word :=
  if c.run = .absent then 0
  else if o = 0x00 then c.stateWord
  else if o = 0x10 then c.runcfg
  else if o = 0x20 then c.trap
  else if o = 0x28 then c.trapInfo
  else if o = 0x30 then c.numst
  else if o = 0x40 then c.mmcfg
  else if o = 0x48 then c.mmstatWord now
  else if o = 0x50 then c.mmcyc
  else if o = 0x58 then c.mmkwc
  else if o = 0x60 then c.mmcell
  else if o = 0x80 then c.veccyc
  else if o = 0x88 then c.rowcyc
  else 0

/-- CAP_CORE_MASK: present cores, and fenced ones (R475). -/
def State.coreMaskWord (s : State) : Word :=
  (List.range 32).foldl (fun w n =>
    match s.cores[n]? with
    | some c => w ||| Word.placeBit (c.run != .absent) n ||| Word.placeBit (c.run == .fenced) (32 + n)
    | none => w) 0

/-- CORE_STATE and the other core registers of window offset o. -/
def State.coreCsr (s : State) (o : Nat) : Word :=
  match s.cores[(o - 0x20_0000) / 0x1_0000]? with
  | some c => c.csr s.now ((o - 0x20_0000) % 0x1_0000)
  | none => 0

/-- NGS_STAT: open sessions by role, refused handshakes and dropped datagrams, and the fullest sink (R373). -/
def State.ngsWord (s : State) : Word :=
  let open_ := s.sessions.toList.filterMap id
  let n (r : Nat) : Nat := (open_.filter (fun x => x.role == r)).length
  Word.place open_.length 8 56 ||| Word.place (n 0) 8 48 ||| Word.place (n 1) 8 40 ||| Word.place (n 2) 8 32 |||
  Word.place (s.fld Csr.ngsStat 31 16) 16 16 |||
  Word.place ((s.sinks.toList.filterMap id).foldl (fun m k => max m k.queue.length) 0) 16 0

/-- The value a read of a window offset returns (R465, R471). -/
def State.csr (s : State) (o : Nat) : Word :=
  if o % 8 ≠ 0 then 0
  else if 0x20_0000 ≤ o ∧ o < 0x40_0000 then s.coreCsr o
  else if o = Csr.capCoreMask then s.coreMaskWord
  else if o = Csr.ftNow then s.ft
  else if o = Csr.ngsStat then s.ngsWord
  else if 0x50_8000 ≤ o ∧ o < 0x51_0000 ∧ !s.stackPresent ((o - 0x50_8000) / 0x1000) then 0
  else s.reg o

end Sys2Proof.Machine
end

