-- ==== Sys2Proof/Machine/System.lean ====
section
/-! DEFINITION. The system class (spec/04 R109 to R111; 03 R79; 16 R465, R467, R471, R476). -/

namespace Sys2Proof.Machine

/-- The slot of a CL_GRP register, if the offset lies in the slot area (R464). -/
def slotOf (o : Nat) : Option Nat :=
  if 0x90_1000 ≤ o ∧ o < 0x90_1000 + 64 * 0x40 then some ((o - 0x90_1000) / 0x40) else none

/-- The job of core n holds a group slot. -/
def State.slotHeld (s : State) (n : Fin 32) (g : Nat) : Bool :=
  match (s.groups[g]?).join with
  | some x => x.job == (s.cores[n]).job
  | none => false

/-- A job program may read a window offset (R110). -/
def State.mayRead (s : State) (n : Fin 32) (o : Nat) : Bool :=
  decide (o ≤ 0xFFFF) || (decide (0x12_0000 ≤ o) && decide (o ≤ 0x1F_FFFF)) ||
  decide ((o - 0x20_0000) / 0x1_0000 = n.val ∧ 0x20_0000 ≤ o) ||
  match slotOf o with
  | some g => s.slotHeld n g
  | none => false

/-- A job program may write a window offset: CORE_NUMST of its own block (R110). -/
def mayWrite (n : Fin 32) (o : Nat) : Bool := o == Csr.core n.val 0x30

/-- The conditions of a CSR access at ra + OFF (R110). -/
def csrConditions (o : Word) (allowed : Bool) : List Condition :=
  if o.toNat % 8 ≠ 0 ∨ 2 ^ 32 ≤ o.toNat ∨ !allowed then [(.address, o)] else []

/-- sys.csrr: the value returns later (CSR_VALUE_RETURN); the access rules are those of R110. -/
def execSysCsrr (n : Fin 32) (ws : BitVec 4) (rd ra : BitVec 5) (off : BitVec 32) (k : CheckOutcome) (s : State) :
    Host.Outcome State Fault Refusal :=
  seqExec s n ws k (felnuWord 7 0 ws (rd.toNat * 2 ^ 43 + ra.toNat * 2 ^ 38 + off.toNat)) true (fun s =>
    let c := s.cores[n]
    let o := c.s ra + off.zeroExtend 64
    match csrConditions o (s.mayRead n o.toNat) with
    | [] => s.setCore n { c with wait := .csr o.toNat rd }
    | l => s.trap n l 7 c.pc)

/-- CSR_VALUE_RETURN: the value of a sys.csrr returns and releases the sequencer (R104, R471). -/
def execCsrValueReturn (n : Fin 32) (s : State) : Host.Outcome State Fault Refusal :=
  match (s.cores[n]).wait with
  | .csr o rd => .next ((s.modCore n (fun c => c.setS rd (s.csr o))).advance n)
  | _ => .next s

/-- sys.csrw: a posted write of all 64 bits; only the core's own NUMST may be written (R104, R110, R476). -/
def execSysCsrw (n : Fin 32) (ws : BitVec 4) (rd ra : BitVec 5) (off : BitVec 32) (k : CheckOutcome) (s : State) :
    Host.Outcome State Fault Refusal :=
  seqExec s n ws k (felnuWord 7 1 ws (rd.toNat * 2 ^ 43 + ra.toNat * 2 ^ 38 + off.toNat)) true (fun s =>
    let c := s.cores[n]
    let o := c.s ra + off.zeroExtend 64
    match csrConditions o (mayWrite n o.toNat) with
    | [] => (s.setCore n { c with numst := numstWrite c.numst (-1) (c.s rd) }).advance n
    | l => s.trap n l 7 c.pc)

/-- sys.ifence: every line of the instruction buffer is invalid, and so is what was being filled (R79). -/
def execSysIfence (n : Fin 32) (ws : BitVec 4) (k : CheckOutcome) (s : State) : Host.Outcome State Fault Refusal :=
  seqWrite s n ws k (felnuWord 7 2 ws 0) true (fun c => { c with lines := [], fills := [] })

/-- sys.ft: fabric time in ns (R109). -/
def execSysFt (n : Fin 32) (ws : BitVec 4) (rd : BitVec 5) (k : CheckOutcome) (s : State) : Host.Outcome State Fault Refusal :=
  seqWrite s n ws k (felnuWord 7 3 ws (rd.toNat * 2 ^ 43)) true (fun c => c.setS rd s.ft)

/-- sys.cyc: core cycles since the core entered RUNNING (R109). -/
def execSysCyc (n : Fin 32) (ws : BitVec 4) (rd : BitVec 5) (k : CheckOutcome) (s : State) : Host.Outcome State Fault Refusal :=
  seqWrite s n ws k (felnuWord 7 4 ws (rd.toNat * 2 ^ 43)) true (fun c => c.setS rd c.cycles)

/-- sys.end: the sequencer stops fetching (R111); CORE_END follows when everything of the core is finished. -/
def execSysEnd (n : Fin 32) (ws : BitVec 4) (k : CheckOutcome) (s : State) : Host.Outcome State Fault Refusal :=
  seqExec s n ws k (felnuWord 7 5 ws 0) true (fun s =>
    s.modCore n (fun c => { c with wait := .ended, fills := [] }))

/-- sys.event: event 0x91 with CODE and the instruction's address (R109). -/
def execSysEvent (n : Fin 32) (ws : BitVec 4) (code : BitVec 16) (k : CheckOutcome) (s : State) : Host.Outcome State Fault Refusal :=
  seqExec s n ws k (felnuWord 7 6 ws code.toNat) true (fun s =>
    let c := s.cores[n]
    (s.advance n).raiseJob 0x91 c.job [code.zeroExtend 64, c.pc.zeroExtend 64])

end Sys2Proof.Machine
end

