-- ==== Sys2Proof/Machine/CsrAccess.lean ====
section
/-! DEFINITION. Which window offsets are registers, how their fields take a write, and the commands that read and write registers over Ningonus (spec/00 R4,
R11 to R14; 16 R464 to R474, R479; 08 R233, R245; 11 R323, R326, R341; 13 R389, R392, R400; 15 R447, R463). -/

namespace Sys2Proof.Machine

/-! ### The register index (R466) -/

/-- `o` is one of `n` registers from a base at a stride. -/
def inTable (o base stride n : Nat) : Bool := decide (base ≤ o) && (o - base) % stride == 0 && decide ((o - base) / stride < n)

/-- Offsets of the registers of a core's block. -/
def coreOffsets : List Nat := [0x00, 0x10, 0x20, 0x28, 0x30, 0x40, 0x48, 0x50, 0x58, 0x60, 0x80, 0x88]

/-- A register is defined at a window offset (R465, R466). -/
def csrAssigned (o : Nat) : Bool :=
  if o < 0x1_0000 then [Csr.devId, Csr.serial 0, Csr.serial 1, Csr.capCoreMask, Csr.capHbmBytes, Csr.capFabricMask, Csr.capNl, Csr.capUnit].contains o
  else if o < 0x10_0000 then
    [Csr.pipStat, Csr.evtLast, Csr.mbxStat, Csr.mbxCmd, Csr.pipUptime].contains o || inTable o (Csr.mbxData 0) 8 15 || inTable o (Csr.evtCnt 0) 8 16
  else if o < 0x11_0000 then
    [Csr.powCtl, Csr.powStat, Csr.powCnt, Csr.poolCtl, Csr.poolStat].contains o || inTable o (Csr.powCore 0) 8 32
  else if o < 0x12_0000 then [Csr.thmCtl, Csr.thmTrip].contains o || inTable o (Csr.thmSens 0) 8 57
  else if o < 0x20_0000 then [Csr.ftNow, Csr.ftCtl, Csr.ftStat].contains o
  else if o < 0x40_0000 then coreOffsets.contains ((o - 0x20_0000) % 0x1_0000)
  else if o < 0x50_0000 then
    [Csr.chkCtl, Csr.chkStat, Csr.hltScore, Csr.hltComp, Csr.hltCtl].contains o || inTable o (Csr.chkCnt 0) 8 16 ||
    inTable o (Csr.chkCoreCnt 0) 8 32 || inTable o (Csr.chkLog 0 0) 8 1024
  else if o < 0x60_0000 then
    [Csr.memCtl, Csr.memMap].contains o || inTable o (Csr.spdEcc 0) 8 32 || inTable o (Csr.spdUeAddr 0) 8 32 ||
    (decide (0x50_8000 ≤ o ∧ o < 0x51_0000) && inTable ((o - 0x50_8000) % 0x1000) 0 8 7)
  else if o < 0x70_0000 then
    [Csr.fabId, Csr.fabCtl, Csr.fabLvl, Csr.fabPortMap].contains o || inTable o (Csr.fabPath 0) 8 128 || inTable o (Csr.fabLcnt 0) 8 128 ||
    inTable o (Csr.fabMsgErr 0) 8 32
  else if o < 0x80_0000 then
    [Csr.hullCtl, Csr.hullStat, Csr.supStat].contains o || inTable o (Csr.cartInfo 0) 8 4 || inTable o (Csr.lasStat 0) 8 24 ||
    inTable o (Csr.lasBias 0) 8 24 || inTable o (Csr.optLane 0) 8 128 || inTable o (Csr.optFec 0) 8 128 || inTable o (Csr.hoptStat 0) 8 8
  else if o < 0x90_0000 then
    [Csr.ethCtl, Csr.ngsStat].contains o || inTable o (Csr.ethPortStat 0) 8 8 || inTable o (Csr.ethPortCnt 0) 8 8
  else if o < 0xA0_0000 then
    [Csr.clCtl, Csr.clLvl].contains o || (decide (0x90_1000 ≤ o ∧ o < 0x90_2000) && inTable ((o - 0x90_1000) % 0x40) 0 8 6)
  else if o < 0xB0_0000 then Csr.secStat == o || inTable o (Csr.secIdHash 0) 8 4 || Csr.secDbgNonce == o
  else if o < 0xC0_0000 then [Csr.fwVer, Csr.fwStat, Csr.jrnStat].contains o
  else if o < 0xD0_0000 then Csr.d2dStat == o || inTable o (Csr.d2dLane 0 0) 8 40 || inTable o (Csr.d2dCnt 0) 8 2
  else if o < 0xE0_0000 then [Csr.drlCtl, Csr.drlStat].contains o || inTable o (Csr.drlCnt 0) 8 12
  else false

/-- Laser cartridge c is absent: HJ-LD9200-N has none, and cartridge 1 is lost with its half (R20, R341). -/
def State.cartAbsent (s : State) (c : Nat) : Bool := !s.hasCarts || (decide (1 ≤ c) && s.h1Lost)

/-- The register belongs to an absent unit (R4, R341): a core, a stack, a laser cartridge, an absent lane, an absent host port. The spec gives no list of
the registers outside a unit's own block that are an absent unit's: the choice made here is log 33's. -/
def State.csrAbsent (s : State) (o : Nat) : Bool :=
  if 0x20_0000 ≤ o ∧ o < 0x40_0000 then !s.corePresent ((o - 0x20_0000) / 0x1_0000)
  else if inTable o (Csr.powCore 0) 8 32 then !s.corePresent ((o - Csr.powCore 0) / 8)
  else if inTable o (Csr.chkCoreCnt 0) 8 32 then !s.corePresent ((o - Csr.chkCoreCnt 0) / 8)
  else if inTable o (Csr.spdEcc 0) 8 32 then !s.corePresent ((o - Csr.spdEcc 0) / 8)
  else if inTable o (Csr.spdUeAddr 0) 8 32 then !s.corePresent ((o - Csr.spdUeAddr 0) / 8)
  else if inTable o (Csr.fabMsgErr 0) 8 32 then !s.corePresent ((o - Csr.fabMsgErr 0) / 8)
  else if 0x50_8000 ≤ o ∧ o < 0x51_0000 then !s.stackPresent ((o - 0x50_8000) / 0x1000)
  else if inTable o (Csr.cartInfo 0) 8 4 then s.cartAbsent ((o - Csr.cartInfo 0) / 16)
  else if inTable o (Csr.lasStat 0) 8 24 then s.cartAbsent ((o - Csr.lasStat 0) / 96)
  else if inTable o (Csr.lasBias 0) 8 24 then s.cartAbsent ((o - Csr.lasBias 0) / 96)
  else if inTable o (Csr.optLane 0) 8 128 then s.laneState ((o - Csr.optLane 0) / 8) == laneAbsent
  else if inTable o (Csr.optFec 0) 8 128 then s.laneState ((o - Csr.optFec 0) / 8) == laneAbsent
  else if inTable o (Csr.hoptStat 0) 8 8 then !s.hostPresent ((o - Csr.hoptStat 0) / 8)
  else if inTable o (Csr.ethPortStat 0) 8 8 then !s.hostPresent ((o - Csr.ethPortStat 0) / 8)
  else if inTable o (Csr.ethPortCnt 0) 8 8 then !s.hostPresent ((o - Csr.ethPortCnt 0) / 8)
  else false

/-- What a read of a register returns: the value it holds, 0 in an absent unit's block (R4, R471). -/
def State.csrRead (s : State) (o : Nat) : Word := if s.csrAbsent o then 0 else s.csr o

/-! ### Fields (R11, R474) -/

/-- The writable fields of a register, as masks. -/
structure Access where
  rw : Word
  rwl : Word
  w1c : Word
  wo : Word
  deriving DecidableEq, Repr

/-- LOCK in bit 63. -/
def lockBit : Word := Word.mask 63 63

/-- A register with LOCK and RWL fields. -/
def locked (rwl : Word) : Access := { rw := lockBit, rwl := rwl, w1c := 0, wo := 0 }

/-- The writable fields of the registers of R474; every other field is RO. -/
def csrAccess (o : Nat) : Access :=
  let none : Access := { rw := 0, rwl := 0, w1c := 0, wo := 0 }
  if 0x20_0000 ≤ o ∧ o < 0x40_0000 then
    let k := (o - 0x20_0000) % 0x1_0000
    if k = 0x10 then { none with rw := Word.mask 63 48 ||| Word.mask 35 0 }
    else if k = 0x30 then { none with rw := Word.mask 34 32, w1c := Word.mask 2 0 }
    else if k = 0x40 then { none with rw := Word.mask 39 32 ||| Word.mask 9 0 }
    else none
  else if o = Csr.powCtl then locked (Word.mask 47 44 ||| Word.mask 40 40 ||| Word.mask 32 32 ||| Word.mask 15 0)
  else if o = Csr.poolCtl then locked (Word.mask 62 62 ||| Word.mask 55 0)
  else if o = Csr.thmCtl then locked (Word.mask 23 0)
  else if o = Csr.ftCtl then locked (Word.mask 19 16 ||| Word.mask 0 0)
  else if o = Csr.chkCtl then locked (Word.mask 23 16 ||| Word.mask 0 0)
  else if o = Csr.hltCtl then { locked (Word.mask 7 0) with wo := Word.mask 16 16 }
  else if o = Csr.chkStat then { none with w1c := Word.mask 33 32 }
  else if o = Csr.memCtl then locked (Word.mask 23 16 ||| Word.mask 1 0)
  else if inTable o (Csr.spdUeAddr 0) 8 32 then { none with w1c := Word.mask 63 63 }
  else if 0x50_8000 ≤ o ∧ o < 0x51_0000 ∧ (o - 0x50_8000) % 0x1000 = 0x10 then { none with wo := Word.mask 31 0 }
  else if 0x50_8000 ≤ o ∧ o < 0x51_0000 ∧ (o - 0x50_8000) % 0x1000 = 0x28 then { none with w1c := Word.mask 63 63 }
  else if o = Csr.fabCtl then locked (Word.mask 47 32 ||| Word.mask 7 4)
  else if o = Csr.hullCtl then { locked (Word.mask 8 8) with wo := Word.mask 16 16 }
  else if inTable o (Csr.optLane 0) 8 128 then { none with wo := Word.mask 56 56 }
  else if o = Csr.ethCtl then locked (Word.mask 17 16 ||| Word.mask 10 8 ||| Word.mask 0 0)
  else if o = Csr.clCtl then locked (Word.mask 47 0)
  else if o = Csr.drlCtl then locked (Word.mask 55 32 ||| Word.mask 11 0)
  else none

/-- A register of the debug token mailbox (R470). -/
def isMailbox (o : Nat) : Bool := o == Csr.mbxStat || o == Csr.mbxCmd || inTable o (Csr.mbxData 0) 8 15

/-- The value that a write would give a register's RW and RWL fields is one that its description rejects (R469): CAP (R389), the setpoints (R400), MTU,
ILV_NEXT. -/
def csrRejects (o : Nat) (mask new : Word) : Bool :=
  let touched (hi lo : Nat) : Bool := mask &&& Word.mask hi lo != 0
  let out (hi lo a b : Nat) : Bool := touched hi lo && (decide (new.field hi lo < a) || decide (b < new.field hi lo))
  if o = Csr.powCtl then out 15 0 900 3200
  else if o = Csr.thmCtl then out 23 16 70 90 || out 15 8 85 105 || out 7 0 70 100
  else if o = Csr.ethCtl then out 17 16 0 2
  else if o = Csr.memCtl then out 1 0 0 1
  else false

/-! ### Effects of a write -/

/-- A retention ends unused: event 0x9F; the window's bytes are free again and zeroed at the next grant (R447). -/
def State.endRetention (s : State) (r : Retained) : State :=
  { s with retained := s.retained.filter (fun x => !(x.job == r.job && x.base == r.base)) }.raiseJob 0x9F r.job [BitVec.ofNat 64 r.base]

/-- A write of RETEST bits of a stack: a marked channel's mark is cancelled; a mapped-out one is retested at the next boot; others are unaffected; the
requests are kept in flash (R233). -/
def State.retest (s : State) (k : Nat) (bits : Word) : State :=
  let map := s.reg (Csr.hbmChanMap k)
  let out : Word := bits &&& map &&& Word.mask 31 0
  let marked : Word := bits &&& (map >>> 32) &&& ~~~ map &&& Word.mask 31 0
  let s := s.setReg (Csr.hbmChanMap k) (map &&& ~~~ (marked <<< 32))
  { s with flash := { s.flash with retest := s.flash.retest.setIfInBounds k (((s.flash.retest.toList.getD k 0) ||| out.truncate 32)) } }

/-- ILV_NEXT is stored in the configuration, which the change writes whole to a valid copy (R414, R428). -/
def State.storeIlv (s : State) (v : Nat) : State := { s with flash := { s.flash with ilv := v, cfgOk := true } }.setBit Csr.secStat 54 true

/-- What WO fields and changed settings set off. -/
def State.csrActs (s : State) (o : Nat) (act old new : Word) : State :=
  if o = Csr.powCtl then
    let s := if s.power.budget.isNone then s.setFld Csr.powStat 35 24 (new.field 15 0) else s
    if old.field 15 0 ≠ new.field 15 0 then s.raise 0x50 [BitVec.ofNat 64 (new.field 15 0)] else s
  else if o = Csr.poolCtl then if old ≠ new ∧ s.fld Csr.poolStat 63 61 = 3 then s.setFld Csr.poolStat 63 61 0 else s
  else if o = Csr.ftCtl then
    if new.bit 0 then s else State.setBit { s with time := { s.time with ptpLocked := false } } Csr.ftStat 60 false
  else if o = Csr.memCtl then if old.field 1 0 = new.field 1 0 then s else s.storeIlv (new.field 1 0)
  else if o = Csr.hltCtl then if act.bit 16 then s.retained.foldl (fun (t : State) r => t.endRetention r) s else s
  else if o = Csr.hullCtl then if act.bit 16 then s.hullCold else s
  else if inTable o (Csr.optLane 0) 8 128 then if act.bit 56 then s.laneRetry ((o - Csr.optLane 0) / 8) else s
  else if 0x50_8000 ≤ o ∧ o < 0x51_0000 ∧ (o - 0x50_8000) % 0x1000 = 0x10 then s.retest ((o - 0x50_8000) / 0x1000) act
  else s

/-- Core n's register at offset k of its block takes a new value. -/
def State.setCoreCsr (s : State) (n k : Nat) (new : Word) : State :=
  match s.cores[n]? with
  | none => s
  | some c =>
    let c := if k = 0x10 then { c with runcfg := new } else if k = 0x30 then { c with numst := new } else if k = 0x40 then { c with mmcfg := new } else c
    { s with cores := s.cores.setIfInBounds n c }

/-- The register's home takes a new value. -/
def State.csrStore (s : State) (o : Nat) (new : Word) : State :=
  if 0x20_0000 ≤ o ∧ o < 0x40_0000 then s.setCoreCsr ((o - 0x20_0000) / 0x1_0000) ((o - 0x20_0000) % 0x1_0000) new
  else s.setReg o new

/-- One write of VALUE under MASK to a register with owner rights: the state after it and its status (R11, R12, R469, R472). -/
def State.csrWrite (s : State) (o : Nat) (mask value : Word) : State × Nat :=
  let a := csrAccess o
  let old := if 0x20_0000 ≤ o ∧ o < 0x40_0000 then s.csr o else s.reg o
  let put := (old &&& ~~~ mask) ||| (value &&& mask)
  if o % 8 ≠ 0 then (s, stMalformed)
  else if !csrAssigned o then (s, stNotFound)
  else if s.csrAbsent o then (s, stUnitAbsent)
  else if csrRejects o mask put then (if o = Csr.powCtl then s.raise 0x52 [BitVec.ofNat 64 (put.field 15 0)] else s, stMalformed)
  else
    let isLocked := a.rwl ≠ 0 ∧ old.bit 63
    let rwl : Word := if isLocked then 0 else a.rwl
    let held : Word := if a.rwl ≠ 0 then old &&& lockBit else 0
    let take := a.rw ||| rwl
    let new := (((old &&& ~~~ take) ||| (put &&& take)) ||| held) &&& ~~~ (a.w1c &&& mask &&& value)
    let act := a.wo &&& mask &&& value
    let s' := if new = old then s else s.csrStore o new
    let status :=
      if isLocked ∧ (mask &&& a.rwl ≠ 0 ∨ (mask.bit 63 ∧ !value.bit 63)) then stLocked
      else if mask &&& ~~~ (a.rw ||| a.rwl ||| a.w1c ||| a.wo) ≠ 0 then stReadOnly
      else stOk
    (s'.csrActs o act old new, status)

/-- A write over Ningonus: the mailbox is out of reach (R470). -/
def State.csrWriteNgs (s : State) (o : Nat) (mask value : Word) : State × Nat :=
  if isMailbox o then (s, stReadOnly) else s.csrWrite o mask value

/-! ### Messages (R468, R469) -/

/-- Bytes [lo, lo+n) of a body as a number. -/
def bodyNat (b : List Byte) (lo n : Nat) : Nat := natOfBytes ((b.drop lo).take n)

/-- One entry of CSR_READ: status and value (R468). -/
def State.readEntry (s : State) (e : List Byte) : List Byte :=
  let o := bodyNat e 0 4
  let (st, v) : Nat × Word :=
    if o % 8 ≠ 0 ∨ bodyNat e 4 4 ≠ 0 then (stMalformed, 0)
    else if !csrAssigned o then (stNotFound, 0)
    else if s.csrAbsent o then (stUnitAbsent, 0)
    else if isMailbox o then (stOk, 0)
    else (stOk, s.csrRead o)
  bytesOfNat 2 st ++ bytesOfNat 6 0 ++ bytesOfNat 8 v.toNat

/-- The response to a CSR_READ body. -/
def State.readBody (s : State) (body : List Byte) : Response :=
  let count := bodyNat body 0 2
  if count = 0 ∨ 64 < count ∨ body.length ≠ 8 + 8 * count then plain stMalformed
  else
    { status := stOk
      body := bytesOfNat 2 count ++ bytesOfNat 6 0 ++ (List.range count).flatMap (fun i => s.readEntry ((body.drop (8 + 8 * i)).take 8)) }

/-- One entry of CSR_WRITE (R469). -/
def State.writeEntry (s : State) (e : List Byte) : State × Nat :=
  if bodyNat e 4 4 ≠ 0 then (s, stMalformed)
  else s.csrWriteNgs (bodyNat e 0 4) (BitVec.ofNat 64 (bodyNat e 8 8)) (BitVec.ofNat 64 (bodyNat e 16 8))

/-- The entries of CSR_WRITE in order, with the bytes of their statuses. -/
def State.writeEntries : Nat → State → List Byte → State × List Byte
  | 0, s, _ => (s, [])
  | n + 1, s, b =>
    let (s, st) := s.writeEntry (b.take 24)
    let (s, rest) := State.writeEntries n s (b.drop 24)
    (s, bytesOfNat 2 st ++ bytesOfNat 6 0 ++ rest)

/-- The effect of a CSR_WRITE body. -/
def State.writeBody (s : State) (body : List Byte) : State × Response :=
  let count := bodyNat body 0 2
  if count = 0 ∨ 56 < count ∨ body.length ≠ 8 + 24 * count then (s, plain stMalformed)
  else
    let (s, r) := s.writeEntries count (body.drop 8)
    (s, { status := stOk, body := bytesOfNat 2 count ++ bytesOfNat 6 0 ++ r })

/-- CSR_READ: up to 64 registers with a status each (R468). -/
def execCsrRead (k : Fin 64) (body : List Byte) (s : State) : Host.Outcome State Fault Refusal :=
  .next (s.serve (.ningonus k) mtCsrRead (fun s => (s, s.readBody body)))

/-- CSR_WRITE: up to 56 entries under MASK with a status each; the owner alone (R469). -/
def execCsrWrite (k : Fin 64) (body : List Byte) (s : State) : Host.Outcome State Fault Refusal :=
  .next (s.serve (.ningonus k) mtCsrWrite (fun s => s.writeBody body))

/-- A CSR_WRITE of one entry on a session. -/
def writeOne (k : Fin 64) (o : Nat) (mask value : Word) (s : State) : Host.Outcome State Fault Refusal :=
  .next (s.serve (.ningonus k) mtCsrWrite (fun s =>
    s.writeBody (bytesOfNat 2 1 ++ bytesOfNat 6 0 ++ bytesOfNat 4 o ++ bytesOfNat 4 0 ++ bytesOfNat 8 mask.toNat ++ bytesOfNat 8 value.toNat)))

/-- LOCK_WRITE: 1 is written to a register's LOCK bit (R12, R472). -/
def execLockWrite (k : Fin 64) (o : BitVec 32) (s : State) : Host.Outcome State Fault Refusal := writeOne k o.toNat lockBit lockBit s

/-- OPT_LANE_RETRY: 1 is written to a lane's RETRY (R326). -/
def execOptLaneRetry (k : Fin 64) (i : Fin 128) (s : State) : Host.Outcome State Fault Refusal :=
  writeOne k (Csr.optLane i.val) (Word.mask 56 56) (Word.mask 56 56) s

/-- HULL_COLD: 1 is written to HULL_CTL.COLD (R323). -/
def execHullCold (k : Fin 64) (s : State) : Host.Outcome State Fault Refusal := writeOne k Csr.hullCtl (Word.mask 16 16) (Word.mask 16 16) s

/-- POW_CAP_WRITE: a write of POW_CTL.CAP (R389). -/
def execPowCapWrite (k : Fin 64) (cap : BitVec 16) (s : State) : Host.Outcome State Fault Refusal :=
  writeOne k Csr.powCtl (Word.mask 15 0) (cap.zeroExtend 64) s

/-- POW_MODE_WRITE: a write of MODE, EQ and ALIGN, in force from the next control interval (R392). -/
def execPowModeWrite (k : Fin 64) (mode eq : Bool) (align : BitVec 4) (s : State) : Host.Outcome State Fault Refusal :=
  writeOne k Csr.powCtl (Word.mask 47 44 ||| Word.mask 40 40 ||| Word.mask 32 32)
    (Word.place align.toNat 4 44 ||| Word.placeBit eq 40 ||| Word.placeBit mode 32) s

/-- HBM_CHAN_CLR: RETEST bits of a stack's channels are written (R233). -/
def execHbmChanClr (k : Fin 64) (stack : Fin 8) (bits : BitVec 32) (s : State) : Host.Outcome State Fault Refusal :=
  writeOne k (Csr.hbmChanClr stack.val) (Word.mask 31 0) (bits.zeroExtend 64) s

/-- HLT_RELEASE: 1 is written to HLT_CTL.RELEASE: every retention ends at once (R447). -/
def execHltRelease (k : Fin 64) (s : State) : Host.Outcome State Fault Refusal := writeOne k Csr.hltCtl (Word.mask 16 16) (Word.mask 16 16) s

/-- DRILL_SET: the 8-byte image of DRL_CTL is written (R463). -/
def execDrillSet (k : Fin 64) (body : List Byte) (s : State) : Host.Outcome State Fault Refusal :=
  .next (s.serve (.ningonus k) mtDrillSet (fun s =>
    if body.length ≠ 8 then (s, plain stMalformed)
    else
      let v : Word := BitVec.ofNat 64 (natOfBytes body)
      let (s, st) := s.csrWrite Csr.drlCtl (-1) v
      (s, plain (if st = stReadOnly then stOk else st))))

end Sys2Proof.Machine
end

