-- ==== Sys2Proof/Machine/Jobs.lean ====
section
/-! DEFINITION. Submitting work: SUBMIT, the job descriptor and its checks, admission, start, CANCEL, work lists, completion records (spec/12 R352 to R361;
08 R229; 15 R446, R447). -/

namespace Sys2Proof.Machine

/-! ### Remote references and server entries (R344, R352) -/

/-- A remote reference at a place of a body. -/
def refOf (b : List Byte) (lo : Nat) : RemoteRef :=
  { srv := bodyNat b lo 2, rkey := bodyNat b (lo + 4) 4, va := bodyNat b (lo + 8) 8, len := bodyNat b (lo + 16) 8 }

/-- The reserved bytes of a remote reference are 0. -/
def refClean (b : List Byte) (lo : Nat) : Bool := bodyNat b (lo + 2) 2 == 0 && bodyNat b (lo + 24) 8 == 0

/-- A server entry at a place of a body: bytes 0 to 15 the network A address, 16 to 31 the network B address. -/
def serverAt (b : List Byte) (lo : Nat) : BitVec 256 := BitVec.ofNat 256 (bodyNat b lo 32)

/-! ### SUBMIT (R353) -/

/-- The key of a hash is enrolled as owner or operator. -/
def State.maySign (s : State) (key : BitVec 256) : Bool :=
  match s.keyRole key with
  | some 0 => true
  | some 1 => true
  | _ => false

/-- A descriptor digest is that of a job that the device holds, from its OK to its final record. -/
def State.digestHeld (s : State) (d : BitVec 256) : Bool := s.jobs.any (fun j => j.digest == d) || s.admissions.any (fun a => a.digest == d)

/-- The checks of a SUBMIT body in their order, and what its acceptance starts (R353, R357); DENIED while the debug port is unlocked (R435). -/
def State.submit (s : State) (body : List Byte) (sigOk : Bool) : State × Nat :=
  let digest := digestOfBytes ((body.drop 64).take 32)
  let key := digestOfBytes ((body.drop 128).take 32)
  if (s.reg Csr.secStat).bit 60 then (s, stDenied)
  else if body.length ≠ 224 ∨ !refClean body 32 ∨ bodyNat body 98 30 ≠ 0 then (s, stMalformed)
  else if !s.maySign key ∨ !sigOk then (s, stBadSig)
  else if s.resetAfterJobs ∨ s.acquittal.isSome then (s, stBusy)
  else if s.mstate = mHeld then (s, stHeld)
  else if bodyNat body 96 2 ≠ s.fld Csr.capNl 23 16 then (s, stNlMismatch)
  else if s.digestHeld digest then (s, stOk)
  else
    let a : Admission := { digest := digest, key := key, nl := bodyNat body 96 2, ref := refOf body 32, server := serverAt body 0 }
    (State.startXfer { s with admissions := s.admissions ++ [a] } (.descriptor digest) a.server a.ref.len, stOk)

/-- SUBMIT: checks a signed submission and starts fetching the descriptor; `sigOk` says that the signature verifies (R353). -/
def execSubmit (k : Fin 64) (body : List Byte) (sigOk : Bool) (s : State) : Host.Outcome State Fault Refusal :=
  .next (s.serve (.ningonus k) mtSubmit (fun s => let (s, st) := s.submit body sigOk; (s, plain st)))

/-! ### The descriptor (R354, R355) -/

/-- Counts of the tables. -/
def dNsrv (d : List Byte) : Nat := bodyNat d 232 2
def dNwin (d : List Byte) : Nat := bodyNat d 234 2
def dNgrp (d : List Byte) : Nat := bodyNat d 236 2
def dNring (d : List Byte) : Nat := bodyNat d 238 2
def dNsvc (d : List Byte) : Nat := bodyNat d 240 2

/-- Where the tables start: servers, windows, groups, receive rings, services. -/
def dWinOff (d : List Byte) : Nat := 256 + 32 * dNsrv d
def dGrpOff (d : List Byte) : Nat := dWinOff d + 16 * dNwin d
def dRingOff (d : List Byte) : Nat := dGrpOff d + 32 * dNgrp d
def dSvcOff (d : List Byte) : Nat := dRingOff d + 32 * dNring d
def dEnd (d : List Byte) : Nat := dSvcOff d + 64 * dNsvc d

/-- The entries of a table. -/
def tableOf (d : List Byte) (off size n : Nat) : List (List Byte) := (List.range n).map (fun i => (d.drop (off + size * i)).take size)

def dJob (d : List Byte) : Word := BitVec.ofNat 64 (bodyNat d 8 8)
def dCores (d : List Byte) : Nat := bodyNat d 16 4
def dProgram (d : List Byte) : RemoteRef := refOf d 32
def dArgs (d : List Byte) : RemoteRef := refOf d 64
def dCompl (d : List Byte) : RemoteRef := refOf d 96
def dEntry (d : List Byte) : Nat := bodyNat d 192 8
def dPload (d : List Byte) : Nat := bodyNat d 216 4
def dArgwin (d : List Byte) : Nat := bodyNat d 220 1
def dArgoff (d : List Byte) : Nat := bodyNat d 224 8
def dServers (d : List Byte) : List (BitVec 256) := (List.range (dNsrv d)).map (fun i => serverAt d (256 + 32 * i))

/-- A remote reference of the descriptor is well formed and names a server of its table. -/
def dRefOk (d : List Byte) (lo : Nat) : Bool := refClean d lo && decide ((refOf d lo).srv < dNsrv d)

/-- The descriptor gives a completion ring: its JOB, its server table and COMPL satisfy R354 and R355 (R357, R360). -/
def dRingKnown (d : List Byte) : Bool :=
  dJob d != 0 && decide (1 ≤ dNsrv d) && decide (dNsrv d ≤ 16) && decide (256 + 32 * dNsrv d ≤ d.length) && dRefOk d 96 &&
  decide (64 + 16 * 64 ≤ (dCompl d).len)

/-- Two mebibytes, the unit of a window (R229). -/
def windowUnit : Nat := 0x20_0000

/-- A window entry (R355). -/
def winEntryOk (e : List Byte) : Bool :=
  bodyNat e 0 8 % windowUnit == 0 && decide (bodyNat e 14 1 % 4 ≠ 3) && decide (bodyNat e 14 1 < 8) && bodyNat e 15 1 == 0

/-- A group definition (R290). -/
def groupOf (e : List Byte) : GroupDef :=
  { grp := bodyNat e 0 1, kind := bodyNat e 1 1, core := bodyNat e 2 1, x0 := bodyNat e 4 1, x1 := bodyNat e 5 1, sx := bodyNat e 6 1
    y0 := bodyNat e 7 1, y1 := bodyNat e 8 1, sy := bodyNat e 9 1, timeout := bodyNat e 12 4, cmask := BitVec.ofNat 32 (bodyNat e 16 4)
    reserved := bodyNat e 3 1 != 0 || bodyNat e 10 2 != 0 || bodyNat e 20 4 != 0, stage := bodyNat e 24 6, stgsz := bodyNat e 30 2 }

/-- The size of window w of a descriptor. -/
def dWinSize (d : List Byte) (w : Nat) : Nat := bodyNat d (dWinOff d + 16 * w) 8

/-- A receive ring entry lies in a window of the job and notifies one of its cores (R279, R355). -/
def ringEntryOk (d e : List Byte) : Bool :=
  decide (bodyNat e 0 1 ≤ 15) && decide (bodyNat e 1 1 < dNwin d) && decide (8 ≤ bodyNat e 2 1) && decide (bodyNat e 2 1 ≤ 16) &&
  decide (bodyNat e 3 1 ≤ 16) && decide (bodyNat e 4 1 < dCores d) && decide (bodyNat e 5 1 ≤ 15) && bodyNat e 6 2 == 0 && bodyNat e 16 16 == 0 &&
  decide (bodyNat e 8 8 + 4096 + 2 ^ (bodyNat e 2 1 + bodyNat e 3 1) ≤ dWinSize d (bodyNat e 1 1))

/-- A service entry (R363, R364, R366, R369). -/
def svcEntryOk (d e : List Byte) : Bool :=
  decide (1 ≤ bodyNat e 0 1) && decide (bodyNat e 0 1 ≤ 3) && decide (bodyNat e 1 1 < dCores d) && decide (bodyNat e 2 1 ≤ 15) &&
  decide (bodyNat e 3 1 < dNwin d) && bodyNat e 5 3 == 0 &&
  (match bodyNat e 0 1 with
   | 1 => decide (bodyNat e 4 1 ≤ 10) && decide (16 ≤ bodyNat e 48 1) && decide (bodyNat e 48 1 ≤ 26) && dRefOk (d.take 256 ++ e) (256 + 16) &&
      decide (bodyNat e 8 8 + 4096 + 2 ^ (bodyNat e 4 1 + bodyNat e 48 1) ≤ dWinSize d (bodyNat e 3 1))
   | 2 => decide (bodyNat e 16 1 ≤ 8) && decide (bodyNat e 8 8 + 4096 + 64 * 2 ^ bodyNat e 4 1 ≤ dWinSize d (bodyNat e 3 1))
   | _ => decide (1 ≤ bodyNat e 18 2) && decide (bodyNat e 18 2 ≤ 256) && decide (bodyNat e 24 2 ≤ 4096) && decide (bodyNat e 26 1 < dNwin d) &&
      decide (bodyNat e 8 8 + 4096 + 64 * 2 ^ bodyNat e 4 1 ≤ dWinSize d (bodyNat e 3 1)))

/-- The descriptor satisfies R354, R355 and the conditions of BAD_DESC (R357, R446). -/
def descOk (d : List Byte) (nl : Nat) : Bool :=
  decide (d.length ≤ 0x1_0000) && decide (256 ≤ d.length) && decide (dEnd d ≤ d.length) &&
  bodyNat d 0 4 == 0x4E47_4A44 && bodyNat d 4 2 == 1 && bodyNat d 6 2 == nl && dJob d != 0 &&
  decide (1 ≤ dCores d) && decide (dCores d ≤ 32) && decide (bodyNat d 24 1 ≤ 1) && bodyNat d 25 7 == 0 &&
  dRefOk d 32 && dRefOk d 64 && dRingKnown d &&
  decide (dEntry d % 8 = 0) && decide (dEntry d < (dProgram d).len) && decide (dPload d % 4096 = 0) && decide (dPload d + (dProgram d).len ≤ scratchSize) &&
  decide (dArgwin d < dNwin d) && bodyNat d 221 3 == 0 && decide (256 ≤ dArgoff d) && decide (dArgoff d % 64 = 0) &&
  decide (dArgoff d + (dArgs d).len ≤ dWinSize d (dArgwin d)) &&
  decide (1 ≤ dNwin d) && decide (dNwin d ≤ 16) && decide (dNgrp d ≤ 64) && decide (dNring d ≤ 16) && decide (dNsvc d ≤ 8) && bodyNat d 242 14 == 0 &&
  (tableOf d (dWinOff d) 16 (dNwin d)).all winEntryOk && (tableOf d (dRingOff d) 32 (dNring d)).all (ringEntryOk d) &&
  (tableOf d (dSvcOff d) 64 (dNsvc d)).all (svcEntryOk d)

/-! ### Failure of an admission (R357) -/

/-- A list cut into 64-bit words. -/
def wordsOf : Nat → List Byte → List Word
  | 0, _ => []
  | n + 1, l => BitVec.ofNat 64 (natOfBytes (l.take 8)) :: wordsOf n (l.drop 8)

/-- Event 0x98: the reason in byte 0 and the descriptor digest in bytes 8 to 39. -/
def State.startFailedEvent (s : State) (job : Word) (digest : BitVec 256) (reason : Nat) : State :=
  s.raiseJob 0x98 job (BitVec.ofNat 64 reason :: wordsOf 4 (digestBytes digest))

/-- The admission of a digest is forgotten with its transfer. -/
def State.dropAdmission (s : State) (digest : BitVec 256) : State :=
  let s := match s.xferOf (.descriptor digest) with | some x => s.dropXfer x.id | none => s
  { s with admissions := s.admissions.filter (fun a => a.digest != digest) }

/-- An admission fails before its job exists: START_FAILED goes to the ring that the descriptor names when it is known (R357). -/
def State.refuseDesc (s : State) (a : Admission) (d : Option (List Byte)) (reason : Nat) : State :=
  let s := s.dropAdmission a.digest
  match d with
  | some d =>
    if dRingKnown d then
      let job := dJob d
      let x : JobRecord := { job := job, seq := 0, kind := 2, reason := reason, ft := s.ft, arg := 0, detail := [] }
      let r : ComplRing := { job := job, server := (dServers d).getD (dCompl d).srv 0, ref := dCompl d, prod := 0, cons := 0, waiting := [x]
                             nextSeq := 1, final := true }
      let s := { s with
        rings := s.rings ++ [r]
        lastRecords := if (s.job? job).isSome then s.lastRecords else x :: s.lastRecords.filter (fun y => y.job != job) }
      (s.startFailedEvent job a.digest reason).afterJob
    else (s.startFailedEvent (dJob d) a.digest reason).afterJob
  | none => (s.startFailedEvent 0 a.digest reason).afterJob

/-- An admitted or starting job fails: its record, event 0x98, and everything it held is released (R357, R358). -/
def State.failStart (s : State) (j : Job) (reason : Nat) (detail : List Byte) : State :=
  (((s.addRecord j.id 2 reason 0 detail true).startFailedEvent j.id j.digest reason).releaseJob j).afterJob

/-! ### Cores and windows (R87, R229, R357, R447) -/

/-- The cores that the runtime may choose: present, in CMASK, held by no job, not FENCED. -/
def State.eligible (s : State) (cmask : BitVec 32) : List (Fin 32) :=
  (List.finRange 32).filter (fun n =>
    let c := s.cores[n]
    (cmask == 0 || cmask.getLsbD n.val) && c.job == 0 && c.run != .absent && c.run != .fenced)

/-- Ranges of HBM that no new window may take: those of jobs and those retained. -/
def State.heldRanges (s : State) : List (Nat × Nat) :=
  s.jobs.flatMap (fun j => j.windows.map (fun w => (w.base, w.size))) ++ s.retained.map (fun r => (r.base, r.size))

/-- Two ranges share a byte. -/
def overlaps (a b : Nat × Nat) : Bool := decide (a.1 < b.1 + b.2) && decide (b.1 < a.1 + a.2)

/-- The HBM region that a window may lie in: its half under half-local interleave, else all of it (R231, R355). -/
def State.windowRegion (s : State) (half : Nat) : Nat × Nat :=
  let cap := hbmBase + s.hbmCapacity
  let cut := hbmBase + s.fld Csr.memMap 39 0
  if half = 0 ∨ s.fld Csr.memMap 63 62 = 1 then (hbmBase, cap) else if half = 1 then (hbmBase, cut) else (cut, cap)

/-- A window may stand at a base. -/
def State.placeFree (s : State) (held : List (Nat × Nat)) (half base size : Nat) : Bool :=
  let (lo, hi) := s.windowRegion half
  base % windowUnit == 0 && decide (lo ≤ base) && decide (base + size ≤ hi) && !held.any (overlaps (base, size))

/-- The lowest place for a window. -/
def State.firstPlace (s : State) (held : List (Nat × Nat)) (half size : Nat) : Option Nat :=
  let (lo, _) := s.windowRegion half
  ((lo :: held.map (fun r => r.1 + r.2)).filter (fun b => s.placeFree held half b size)).foldl
    (fun best b => match best with | none => some b | some c => some (min b c)) none

/-- Grant the windows of a descriptor in order: a retained BUDDY window of the same job and size, the requested BASE, the place that the runtime chose,
or the lowest place that fits (R229, R355, R447). -/
def State.grant (s : State) (job : Word) : List (List Byte) → List Nat → List Window → Option (List Window)
  | [], _, acc => some acc
  | e :: rest, places, acc =>
    let size := bodyNat e 0 8
    let base := bodyNat e 8 6
    let half := bodyNat e 14 1 % 4
    let buddy := decide (4 ≤ bodyNat e 14 1)
    let mine := acc.map (fun w => (w.base, w.size))
    let fixed := (rest.filter (fun x => bodyNat x 8 6 != 0)).map (fun x => (bodyNat x 8 6, bodyNat x 0 8))
    let w (b : Nat) (z : Bool) : Window := { base := b, size := size, half := half, buddy := buddy, zeroed := z }
    match s.retained.find? (fun r => buddy && r.job == job && r.size == size && (base == 0 || r.base == base) && !mine.any (overlaps (r.base, r.size))) with
    | some r => s.grant job rest (places.drop 1) (acc ++ [w r.base true])
    | none =>
      let held := s.heldRanges ++ mine
      if base ≠ 0 then if s.placeFree held half base size then s.grant job rest (places.drop 1) (acc ++ [w base false]) else none
      else
        let held := held ++ fixed
        let pick := match places.head? with
          | some p => if s.placeFree held half p size then some p else s.firstPlace held half size
          | none => s.firstPlace held half size
        match pick with
        | some p => s.grant job rest (places.drop 1) (acc ++ [w p false])
        | none => none

/-! ### Admission (R356, R357) -/

/-- The writable bits of a core register take a value of the descriptor (R90, R158). -/
def configWord (o : Nat) (reset value : Word) : Word :=
  let m := (csrAccess (Csr.core 0 o)).rw
  (reset &&& ~~~ m) ||| (value &&& m)

/-- The receive rings of a descriptor. -/
def ringsOf (d : List Byte) (ws : List Window) : List RecvRing :=
  (tableOf d (dRingOff d) 32 (dNring d)).map (fun e =>
    { ring := bodyNat e 0 1, base := (match ws[bodyNat e 1 1]? with | some w => w.base | none => 0) + bodyNat e 8 8, slog := bodyNat e 2 1
      clog := bodyNat e 3 1, coreRank := bodyNat e 4 1, xsem := bodyNat e 5 1 })

/-- The services of a descriptor, not yet started. -/
def servicesOf (d : List Byte) : List Service :=
  (tableOf d (dSvcOff d) 64 (dNsvc d)).map (fun e =>
    { kind := bodyNat e 0 1, nrank := bodyNat e 1 1, nsem := bodyNat e 2 1, qwin := bodyNat e 3 1, qlog := bodyNat e 4 1, qoff := bodyNat e 8 8
      spec := e.drop 16, running := false, index := 0, epoch := 0, offset := 0, clients := [], requests := [], step := 0, req := none })

/-- The job that a descriptor asks for. -/
def jobOf (d : List Byte) (a : Admission) (cores : BitVec 32) (ws : List Window) : Job :=
  { id := dJob d, trapPol := bodyNat d 24 1, windows := ws, groups := (tableOf d (dGrpOff d) 32 (dNgrp d)).map groupOf, rings := ringsOf d ws
    phase := .admitted, digest := a.digest, key := a.key, cores := cores, ended := 0, entryOff := dEntry d, pload := dPload d
    mmcfg := configWord 0x40 mmcfgReset (BitVec.ofNat 64 (bodyNat d 200 8)), runcfg := configWord 0x10 runcfgReset (BitVec.ofNat 64 (bodyNat d 208 8))
    argAddr := (match ws[dArgwin d]? with | some w => w.base | none => 0) + dArgoff d, servers := dServers d, services := servicesOf d
    cancelled := false }

/-- The first part of an admission: the fetched descriptor is checked, cores and windows are granted, the ring is opened and the program and the arguments
are fetched. A chosen core whose scratchpad is still being cleared is not assigned yet: the admission waits (R87, R228). -/
def State.admitJob (s : State) (a : Admission) (d : List Byte) (places : List Nat) : State :=
  if d.length ≠ a.ref.len ∨ sm3 d ≠ a.digest then s.refuseDesc a none 2
  else if !descOk d a.nl then s.refuseDesc a (some d) 3
  else if (s.job? (dJob d)).isSome then s.refuseDesc a (some d) 4
  else
    let free := s.eligible (BitVec.ofNat 32 (bodyNat d 20 4))
    if free.length < dCores d then s.refuseDesc a (some d) 5
    else if (free.take (dCores d)).any (fun n => (s.cores[n]).clearing) then s
    else
      match s.grant (dJob d) (tableOf d (dWinOff d) 16 (dNwin d)) places [] with
      | none => s.refuseDesc a (some d) 6
      | some ws =>
        let chosen := free.take (dCores d)
        let mask := chosen.foldl (fun (m : BitVec 32) n => m ||| (1#32 <<< n.val)) 0
        let j := jobOf d a mask ws
        let s := chosen.foldl (fun (t : State) n => t.modCore n (fun c => { c with job := j.id })) (s.dropAdmission a.digest)
        let r : ComplRing := { job := j.id, server := j.servers.getD (dCompl d).srv 0, ref := dCompl d, prod := 0, cons := 0, waiting := [], nextSeq := 0
                               final := false }
        let s := { s with
          jobs := s.jobs ++ [j]
          halted := s.halted.filter (fun x => x != j.id)
          retained := s.retained.filter (fun r => !(r.job == j.id && ws.any (fun w => w.base == r.base && w.zeroed)))
          rings := s.rings ++ [r] }
        let s := s.startXfer (.program j.id) (j.servers.getD (dProgram d).srv 0) (dProgram d).len
        s.startXfer (.program j.id) (j.servers.getD (dArgs d).srv 0) (dArgs d).len

/-- The job information block (R356). -/
def jobInfo (j : Job) : List Byte :=
  (List.range 16).flatMap (fun w => match j.windows[w]? with
    | some x => bytesOfNat 8 x.base ++ bytesOfNat 8 x.size
    | none => bytesOfNat 16 0)

/-- The report of a failed group as a record's detail: group, reason, the count of ranks, up to eight ranks (R292). -/
def groupReport (f : Word × Nat × Nat × List Nat) : List Byte :=
  bytesOfNat 1 f.2.1 ++ bytesOfNat 1 f.2.2.1 ++ bytesOfNat 2 f.2.2.2.length ++ (f.2.2.2.take 8).flatMap (fun r => bytesOfNat 2 r)

/-- The failed group of lowest number of a job. -/
def State.groupFailed (s : State) (job : Word) : Option (Word × Nat × Nat × List Nat) :=
  (s.groupFails.filter (fun f => f.1 == job)).foldl (fun best f => match best with
    | none => some f
    | some b => if f.2.1 < b.2.1 then some f else best) none

/-- Every group of a job is READY. -/
def State.groupsReady (s : State) (j : Job) : Bool :=
  j.groups.all (fun d => match s.group? d.grp with | some g => g.job == j.id && g.phase == .ready | none => false)

/-- The second part of an admission: with windows zeroed, groups created and everything fetched, the image, the arguments and the job information block
are written, the services start and the cores may start. -/
def State.begin (s : State) (j : Job) (d prog args : List Byte) : State :=
  let xs := s.xfers.filter (fun x => x.purpose == .program j.id)
  match s.groupFailed j.id with
  | some f => s.failStart j 7 (groupReport f)
  | none =>
    if xs.any (fun x => x.outcome == some false) then s.failStart j 1 []
    else if sm3 d ≠ j.digest ∨ xs.any (fun x => x.outcome != some true) ∨ !s.groupsReady j ∨ j.windows.any (fun w => !w.zeroed) ∨
        (maskCores j.cores).any (fun n => (s.cores[n]).clearing) then s
    else if prog.length ≠ (dProgram d).len ∨ sm3 prog ≠ digestOfBytes ((d.drop 128).take 32) ∨ args.length ≠ (dArgs d).len ∨
        sm3 args ≠ digestOfBytes ((d.drop 160).take 32) then s.failStart j 2 []
    else
      let s := xs.foldl (fun (t : State) x => t.dropXfer x.id) s
      let s := (maskCores j.cores).foldl (fun (t : State) n => t.writeBytes (scratchBase n.val + j.pload) prog) s
      let s := (s.writeBytes (j.argAddr - 256) (jobInfo j)).writeBytes j.argAddr args
      s.putJob { j with phase := .starting, services := j.services.map (fun (v : Service) => { v with running := true }) }

/-- JOB_ADMISSION: the runtime goes on with the admission of a descriptor digest as far as what has been fetched allows; `desc`, `prog` and `args` are the
bytes that the transfers read, `places` where the runtime puts the windows whose BASE is 0 (R357). -/
def execJobAdmission (digest : BitVec 256) (desc prog args : List Byte) (places : List Nat) (s : State) : Host.Outcome State Fault Refusal :=
  match s.admissions.find? (fun a => a.digest == digest) with
  | some a =>
    match s.xferOf (.descriptor digest) with
    | none => .next s
    | some x =>
      match x.outcome with
      | none => .next s
      | some false => .next (s.refuseDesc a none 1)
      | some true => .next (s.admitJob a desc places)
  | none =>
    match s.jobs.find? (fun j => j.digest == digest && j.phase == .admitted) with
    | some j => .next (s.begin j desc prog args)
    | none => .next s

/-- JOB_STARTED: every core is RUNNING (or has already ended): STARTED record, event 0x97; a job all of whose cores have ended ends (R357). -/
def execJobStarted (job : Word) (s : State) : Host.Outcome State Fault Refusal :=
  match s.job? job with
  | none => .next s
  | some j =>
    if j.phase ≠ .starting ∨ !(maskCores j.cores).all (fun n => (s.cores[n]).run == .running || (s.cores[n]).run == .trapped ||
        (s.cores[n]).run == .fenced || j.ended.getLsbD n.val) then .next s
    else
      let j := { j with phase := .running }
      let s := (((s.putJob j).addRecord job 1 0 (j.cores.zeroExtend 64) [] false).raiseJob 0x97 job [j.cores.zeroExtend 64])
      .next (if j.cores &&& ~~~ j.ended = 0 then s.endJob j else s)

/-! ### CANCEL and JOB_QUERY (R350, R358) -/

/-- CANCEL: a job that has not started fails with CANCELLED, a running one halts with cause CANCEL; an operator cancels its own jobs (R350, R358). -/
def execCancel (k : Fin 64) (job : Word) (s : State) : Host.Outcome State Fault Refusal :=
  .next (s.serve (.ningonus k) mtCancel (fun s =>
    match s.job? job, s.sessions[k] with
    | some j, some x =>
      if x.role ≠ 0 ∧ j.key ≠ x.ch.key then (s, plain stDenied)
      else if j.phase ≠ .running then (s.failStart j 8 [], plain stOk)
      else
        ((s.putJob { j with cancelled := true }).askHalt { job := job, cause := 8, detail := 0, loc := 0, ft := s.ft, fenced := false }, plain stOk)
    | _, _ => (s, plain stNotFound)))

/-- The 64 bytes of a completion record (R361). -/
def complBytes (r : JobRecord) : List Byte :=
  bytesOfNat 8 r.job.toNat ++ bytesOfNat 4 r.seq ++ bytesOfNat 1 r.kind ++ bytesOfNat 1 r.reason ++ bytesOfNat 2 0 ++ bytesOfNat 8 r.ft.toNat ++
  bytesOfNat 8 r.arg.toNat ++ ((r.detail ++ List.replicate 32 0).take 32)

/-- JOB_QUERY: the job's last completion record (R350). -/
def execJobQuery (k : Fin 64) (job : Word) (s : State) : Host.Outcome State Fault Refusal :=
  .next (s.serve (.ningonus k) mtJobQuery (fun s =>
    (s, match s.lastRecords.find? (fun r => r.job == job) with
      | some r => { status := stOk, body := complBytes r }
      | none => plain stNotFound)))

/-! ### Work lists (R359) -/

/-- WORKLIST: one of four work lists is configured; an interval of 0 disables it (R359). -/
def execWorklist (k : Fin 64) (list : Nat) (server : BitVec 256) (rkey va len interval : Nat) (s : State) : Host.Outcome State Fault Refusal :=
  .next (s.serve (.ningonus k) mtWorklist (fun s =>
    if 4 ≤ list ∨ (interval ≠ 0 ∧ (interval < 10 ∨ 60000 < interval)) then (s, plain stMalformed)
    else
      let w : WorkList := { server := server, ref := { srv := 0, rkey := rkey, va := va, len := len }, interval := interval, cons := 0, polled := none }
      ({ s with worklists := s.worklists.setIfInBounds list (if interval = 0 then none else some w) }, plain stOk)))

/-- Entries of a work list. -/
def WorkList.count (w : WorkList) : Nat := (w.ref.len - 64) / 256

/-- The new entries of a list are read and submitted in order; a rejected one raises event 0x9C with the list, its index and the status. -/
def State.submitEntries (list : Nat) (w : WorkList) : Nat → List (List Byte × Bool) → State → State
  | _, [], s => s
  | i, (body, sigOk) :: rest, s =>
    let s := s.emit (.rdmaRead w.server w.ref.rkey (w.ref.va + 64 + 256 * (i % w.count)) 256)
    let (s, st) := s.submit (body.take 224) sigOk
    let s := if st = stOk then s else s.raise 0x9C [BitVec.ofNat 64 list, BitVec.ofNat 64 i, BitVec.ofNat 64 st]
    State.submitEntries list w (i + 1) rest s

/-- WORKLIST_POLL: at its interval the device reads the header and the new entries, at most as many as the list has (none when the list cannot be read), submits
them and writes the new consumer index (R359). -/
def execWorklistPoll (list : Fin 4) (read : Option (Nat × List (List Byte × Bool))) (s : State) : Host.Outcome State Fault Refusal :=
  match s.worklists[list] with
  | none => .next s
  | some w =>
    let early : Bool := match w.polled with | some t => decide (s.now < t + w.interval * 1000000) | none => false
    if !s.serving || early then .next s
    else
      let w : WorkList := { w with polled := some s.now }
      let s : State := { s with worklists := s.worklists.set list (some w) }
      match if s.reaches w.server then read else none with
      | none => .next (s.raise 0x9C [BitVec.ofNat 64 list.val])
      | some (cons, entries) =>
        let entries := entries.take w.count
        let s := (s.openConns w.server).emit (.rdmaRead w.server w.ref.rkey w.ref.va 64)
        let s := State.submitEntries list.val w cons entries s
        let cons := cons + entries.length
        let s := { s with worklists := s.worklists.set list (some { w with cons := cons }) }
        .next (if entries.isEmpty then s else s.emit (.rdmaWrite w.server w.ref.rkey (w.ref.va + 8) (bytesOfNat 8 cons) false))

/-! ### Completion rings (R360) -/

/-- Records of a ring. -/
def ComplRing.count (r : ComplRing) : Nat := (r.ref.len - 64) / 64

/-- The first ring of a job that holds an unwritten record. -/
def State.duringRing (s : State) (job : Word) : Option ComplRing := s.rings.find? (fun r => r.job == job && !r.waiting.isEmpty)

/-- The ring replaced; a ring whose final record has been written is forgotten. -/
def State.setRing (s : State) (old new : ComplRing) : State :=
  { s with rings := (s.rings.map (fun r => if r = old then new else r)).filter (fun r => !(r.final && r.waiting.isEmpty)) }

/-- COMPLETION_RECORD_WRITE: the oldest unwritten record is written to its slot, then the producer index; while the cached consumer index shows the
ring full, nothing is written (R360). -/
def execCompletionRecordWrite (job : Word) (s : State) : Host.Outcome State Fault Refusal :=
  match s.duringRing job with
  | none => .next s
  | some r =>
    match r.waiting with
    | [] => .next s
    | x :: rest =>
      if r.cons + r.count ≤ r.prod ∨ !s.reaches r.server then .next s
      else
        let s := (s.openConns r.server).emit (.rdmaWrite r.server r.ref.rkey (r.ref.va + 64 + 64 * (r.prod % r.count)) (complBytes x) false)
        let s := s.emit (.rdmaWrite r.server r.ref.rkey r.ref.va (bytesOfNat 8 (r.prod + 1)) false)
        .next (s.setRing r { r with prod := r.prod + 1, waiting := rest })

/-- COMPLETION_RING_RECHECK: while the ring is full the consumer index is read again, every 1 ms (R360). -/
def execCompletionRingRecheck (job : Word) (cons : Nat) (s : State) : Host.Outcome State Fault Refusal :=
  match s.duringRing job with
  | none => .next s
  | some r =>
    if r.prod < r.cons + r.count ∨ !s.reaches r.server then .next s
    else .next ((s.emit (.rdmaRead r.server r.ref.rkey (r.ref.va + 8) 8)).setRing r { r with cons := max r.cons (min cons r.prod) })

end Sys2Proof.Machine
end

