-- ==== Sys2Proof/Machine/Services.lean ====
section
/-! DEFINITION. On-device services: transfers in pieces, data ingest, checkpoint, serving endpoint (spec/12 R344, R345, R363 to R370). -/

namespace Sys2Proof.Machine

/-! ### Pieces (R344, R345) -/

/-- RDMA_PIECE_COMPLETE: an outstanding piece completes and the next waiting one takes its place; the last one ends its transfer (R344). -/
def execRdmaPieceComplete (xfer piece : Nat) (s : State) : Host.Outcome State Fault Refusal :=
  match s.xfers.find? (fun x => x.id == xfer) with
  | none => .next s
  | some x =>
    if !x.flying.contains piece ∨ x.outcome.isSome then .next s
    else
      let left := x.flying.filter (fun p => p != piece)
      let s := { s with
        conns := s.conns.map (fun (c : Conn) => { c with pieces := c.pieces.filter (fun p => p != (xfer, piece)) })
        xfers := s.xfers.map (fun (y : Xfer) => if y.id = xfer then
          { y with flying := left, outcome := if left.isEmpty && y.waiting.isEmpty then some true else none } else y) }
      .next s.place

/-- PIECE_NO_CONNECTION: a piece has found no connection for 30 s: its transfer fails with NETWORK (R345). -/
def execPieceNoConnection (xfer : Nat) (s : State) : Host.Outcome State Fault Refusal :=
  match s.xfers.find? (fun x => x.id == xfer) with
  | none => .next s
  | some x =>
    if x.outcome.isSome ∨ s.conns.any (fun c => c.server == x.server && c.up) ∨
        !x.waiting.any (fun w => decide (w.2 + 30000000000 ≤ s.now)) then .next s
    else
      let s := { s with
        conns := s.conns.map (fun (c : Conn) => { c with pieces := c.pieces.filter (fun p => p.1 != xfer) })
        xfers := s.xfers.map (fun (y : Xfer) => if y.id = xfer then { y with waiting := [], flying := [], outcome := some false } else y) }
      .next s.place

/-! ### Service queues (R363) -/

/-- The control area of a service's queue or ring. -/
def Service.control (j : Job) (v : Service) : Nat := j.winBase v.qwin + v.qoff

/-- The service signals NSEM of core NRANK by 1. -/
def State.svcSignal (s : State) (j : Job) (v : Service) : State :=
  match (s.jobCores j.id)[v.nrank]? with
  | some n => if h : n < 32 then s.signalCross ⟨n, h⟩ v.nsem 1 .outside else s
  | none => s

/-- A queue entry is finished: its status, the consumer index, the signal; a non-zero status also gives a SERVICE record. -/
def State.finishEntryOf (s : State) (j : Job) (k : Nat) (v : Service) (index status : Nat) : State :=
  let ctl := v.control j
  let slot := ctl + 4096 + 64 * (index % 2 ^ v.qlog)
  let s := ((s.writeNat (slot + 56) 8 status).writeNat (ctl + 8) 8 (index + 1)).setService j.id k { v with req := none }
  let s := s.svcSignal j v
  if status = 0 then s else s.addRecord j.id 6 (status % 256) (Word.place k 8 0 ||| Word.place index 32 8) [] false

/-! ### Checkpoint (R366 to R368) -/

/-- Bytes of a checkpoint chunk. -/
def chunkBytes : Nat := 0x40_0000

/-- Chunks of a length. -/
def chunkCount (len : Nat) : Nat := ceilDiv len chunkBytes

/-- Bytes that stand for a ciphertext or a tag: free values (log 41). -/
def State.cipherBytes (s : State) (n : Nat) : List Byte × State :=
  ((List.range n).map (fun i => (Config.freeWord (s.fresh + i)).truncate 8), { s with fresh := s.fresh + n })

/-- An entry that the service can parse: a save or restore of whole pages inside one window, to a server of the job's table or a chip, encrypted only
with an enrolled key slot. -/
def ckptEntryOk (f : Flash) (j : Job) (v : Service) (e : List Byte) : Bool :=
  let op := bodyNat e 0 1
  let fl := bodyNat e 1 1
  let slot := v.fld 16 1
  (op == 1 || op == 2) && decide (fl < 4) && bodyNat e 8 8 % 4096 == 0 && j.inWindow (bodyNat e 2 6) (bodyNat e 8 8) && bodyNat e 40 8 == 0 &&
  bodyNat e 48 8 == 0 && (decide (2 ≤ fl) || decide (bodyNat e 24 2 < j.servers.length)) &&
  (fl % 2 == 0 || (decide (1 ≤ slot) && decide (slot ≤ 8) && f.ckeys.getLsbD slot))

/-- The digest table of a save: digest and tag of each chunk. -/
def ckptTable (chunks : List (List Byte)) (tags : List (List Byte)) : List Byte :=
  (chunks.zip tags).flatMap (fun p => digestBytes (sm3 p.1) ++ p.2)

/-- The trailer of a save (R367). -/
def ckptTrailer (e table : List Byte) : List Byte :=
  (e.drop 16).take 8 ++ (e.drop 8).take 8 ++ bytesOfNat 4 (chunkCount (bodyNat e 8 8)) ++ (e.drop 1).take 1 ++ bytesOfNat 11 0 ++ digestBytes (sm3 table)

/-- The chunks of the source data. -/
def State.ckptChunks (s : State) (e : List Byte) : List (List Byte) :=
  let src := bodyNat e 2 6
  let len := bodyNat e 8 8
  (List.range (chunkCount len)).map (fun i => s.readBytes (src + chunkBytes * i) (min chunkBytes (len - chunkBytes * i)))

/-- A descriptor of n bytes at an address: one row of INT8 elements. -/
def byteDesc (a n : Nat) : BitVec 256 :=
  BitVec.ofNat 256 (a % 2 ^ 48 + 1 * 2 ^ 48 + 1 * 2 ^ 64 + n % 2 ^ 32 * 2 ^ 96 + n % 2 ^ 48 * 2 ^ 128)

/-- A message of a service core for a request (R273, R368). -/
def State.svcMessage (s : State) (job : Word) (k chip mop req addr : Nat) (desc : BitVec 256) (data : List Byte) : State :=
  let m : OutMsg :=
    { key := { core := k, svc := true, peer := chip, tc := 0, rc := false }, msgid := 0, mop := mop, isNew := false, mc := false, seq := req
      job := job, addr := Word.place chip 16 48 ||| Word.place addr 48 0, desc := desc, aop := 0, ring := 0, arg := 0, data := data
      since := s.now, route := [], hops := [], path := none, retry := false, retryAt := 0, crcFailed := false, drill := false, coll := none }
  let (m, s) := s.newMessage m
  s.startMessage .ok .none m

/-- The service takes an entry: a save sends its chunks and its table, a restore asks for trailer, table and chunks; to a server in pieces, to a buddy chip
in messages whose target stands at DEST of its BUDDY window, based at `buddyBase`. -/
def State.ckptStart (s : State) (j : Job) (k : Nat) (v : Service) (index : Nat) (e : List Byte) (buddyBase : Nat) : State :=
  let len := bodyNat e 8 8
  let dest := bodyNat e 32 8
  let n := chunkCount len
  let enc := bodyNat e 1 1 % 2 == 1
  let save := bodyNat e 0 1 == 1
  let buddy := decide (2 ≤ bodyNat e 1 1)
  let id := s.nextXfer
  let chunks := s.ckptChunks e
  let (tags, s) := if save ∧ enc then s.cipherBytes (16 * n) else (List.replicate (16 * n) 0, s)
  let table := if save then ckptTable chunks ((List.range n).map (fun i => (tags.drop (16 * i)).take 16)) else []
  let s := s.setService j.id k { v with req := some { index := index, xfer := id, entry := e ++ table, stage := 0, failed := 0 } }
  if buddy then
    let s := { s with nextXfer := id + 1 }
    let chip := bodyNat e 24 2
    let at' := buddyBase + dest
    let s := (List.range n).foldl (fun (t : State) i =>
      let size := min chunkBytes (len - chunkBytes * i)
      let a := at' + chunkBytes * i
      if save then
        let (bytes, t) := if enc then t.cipherBytes size else (chunks.getD i [], t)
        t.svcMessage j.id k chip 1 id a (byteDesc a size) bytes
      else t.svcMessage j.id k chip 2 id a (byteDesc a size) []) s
    if save then if n = 0 then s else s.svcMessage j.id k chip 1 id (at' + len) (byteDesc (at' + len) (48 * n)) table
    else s.svcMessage j.id k chip 2 id (at' + len) (byteDesc (at' + len) (48 * n + 64)) []
  else
    let server := j.servers.getD (bodyNat e 24 2) 0
    let rkey := bodyNat e 26 4
    if save then
      let s := (List.range n).foldl (fun (t : State) i => t.emit (.rdmaWrite server rkey (dest + chunkBytes * i) (chunks.getD i []) enc)) s
      (s.emit (.rdmaWrite server rkey (dest + len) table false)).startXfer (.checkpoint j.id k) server (len + 48 * n)
    else (s.emit (.rdmaRead server rkey dest (len + 48 * n + 64))).startXfer (.checkpoint j.id k) server (len + 48 * n + 64)

/-- What a restore does with the bytes that it has read: the trailer's digest, each tag and each chunk digest are checked, and the chunks are written into
SRC; on the first mismatch SRC is undefined and the status is DIGEST (R367). -/
def State.ckptRestore (s : State) (e : List Byte) (c : StoredCheckpoint) : State × Nat :=
  let src := bodyNat e 2 6
  let len := bodyNat e 8 8
  let n := chunkCount len
  let enc := bodyNat c.trailer 20 1 % 2 == 1
  let sound := c.trailer.length == 64 && bodyNat c.trailer 8 8 == len && c.table.length == 48 * n && c.chunks.length == n &&
    digestOfBytes (c.trailer.drop 32) == sm3 c.table &&
    (List.range n).all (fun i => match c.chunks[i]? with
      | some (b, tagOk) => b.length == min chunkBytes (len - chunkBytes * i) && (tagOk || !enc) &&
          sm3 b == digestOfBytes ((c.table.drop (48 * i)).take 32)
      | none => false)
  if sound then (s.writeBytes src (c.chunks.flatMap (fun p => p.1)), 0)
  else (s.freeOverlap [(src, len)] [(src, len)], 14)

/-- The request that a checkpoint service is carrying out goes on when its transfer or its messages are done. -/
def State.ckptAdvance (s : State) (j : Job) (k : Nat) (v : Service) (r : SvcRequest) (stored : StoredCheckpoint) (buddyBase : Nat) : State :=
  let e := r.entry.take 64
  let table := r.entry.drop 64
  let save := bodyNat e 0 1 == 1
  let len := bodyNat e 8 8
  let dest := bodyNat e 32 8 + len + 48 * chunkCount len
  let trailer := ckptTrailer e table
  let finish (s : State) : State :=
    if save then s.finishEntryOf j k v r.index 0
    else
      let (s, st) := s.ckptRestore e stored
      s.finishEntryOf j k v r.index st
  if 2 ≤ bodyNat e 1 1 then
    if r.failed ≠ 0 then
      ({ s with outMsgs := s.outMsgs.filter (fun m => !(m.key.svc && m.seq == r.xfer)) }).finishEntryOf j k v r.index (13 + 256 * r.failed)
    else if s.outMsgs.any (fun m => m.key.svc && m.seq == r.xfer) then s
    else if save ∧ r.stage = 0 then
      let s := s.setService j.id k { v with req := some { r with stage := 1 } }
      s.svcMessage j.id k (bodyNat e 24 2) 1 r.xfer (buddyBase + dest) (byteDesc (buddyBase + dest) 64) trailer
    else finish s
  else
    match s.xfers.find? (fun x => x.id == r.xfer) with
    | none => s
    | some x =>
      match x.outcome with
      | none => s
      | some false => (s.dropXfer x.id).finishEntryOf j k v r.index 13
      | some true =>
        let s := s.dropXfer x.id
        if save ∧ r.stage = 0 then
          let server := j.servers.getD (bodyNat e 24 2) 0
          let s := s.setService j.id k { v with req := some { r with stage := 1, xfer := s.nextXfer } }
          (s.emit (.rdmaWrite server (bodyNat e 26 4) dest trailer false)).startXfer (.checkpoint j.id k) server 64
        else finish s

/-- SERVICE_QUEUE_POLL: the checkpoint service reads its producer index and takes the next entry, or goes on with the one that it is carrying out;
`stored` is what a restore has read, `buddyBase` the base of the buddy's BUDDY window (R363, R366 to R368). -/
def execServiceQueuePoll (job : Word) (svc : Nat) (stored : StoredCheckpoint) (buddyBase : Nat) (s : State) : Host.Outcome State Fault Refusal :=
  match s.service? job svc with
  | none => .next s
  | some (j, v) =>
    if v.kind ≠ 2 ∨ !v.running then .next s
    else
      match v.req with
      | some r => .next (s.ckptAdvance j svc v r stored buddyBase)
      | none =>
        let ctl := v.control j
        let prod := s.readNat ctl 8
        let cons := s.readNat (ctl + 8) 8
        if prod = cons then .next s
        else
          let e := s.readBytes (ctl + 4096 + 64 * (cons % 2 ^ v.qlog)) 64
          if !ckptEntryOk s.flash j v e then .next (s.finishEntryOf j svc v cons 1)
          else if bodyNat e 0 1 = 1 then
            match s.readCheck .none [(bodyNat e 2 6, bodyNat e 8 8)] with
            | (t, none) => .next (t.ckptStart j svc v cons e buddyBase)
            | (t, some a) => .next (t.askHalt (memoryHalt job t.ft a (match t.hbmPlace a with | some (q, _, _) => some q | none => none)))
          else .next (s.ckptStart j svc v cons e buddyBase)

/-! ### Data ingest (R364, R365) -/

/-- A shard fails: event 0x9A and the job's halt. -/
def State.ingestFails (s : State) (j : Job) (k : Nat) (v : Service) (status : Nat) : State :=
  let s := s.setService j.id k { v with running := false }
  (s.raiseJob 0x9A j.id [BitVec.ofNat 64 k, BitVec.ofNat 64 status]).askHalt
    { job := j.id, cause := 7, detail := 0, loc := 0, ft := s.ft, fenced := false }

/-- How a delivered shard fails its entry's description: its length or its digest. -/
def shardStatus (entry data : List Byte) : Nat :=
  if data.length ≠ bodyNat entry 24 8 then 15
  else if bodyNat entry 32 32 ≠ 0 ∧ sm3 data ≠ digestOfBytes ((entry.drop 32).take 32) then 14
  else 0

/-- The next slot of a shard is written, made visible and signalled. -/
def State.ingestSlot (s : State) (j : Job) (k : Nat) (v : Service) (x : Xfer) (data : List Byte) : State :=
  let ctl := v.control j
  let slog := v.fld 48 1
  let prod := s.readNat ctl 8
  let room := 2 ^ slog - 64
  let part := (data.drop v.offset).take room
  let last := decide (data.length ≤ v.offset + part.length)
  let head := bytesOfNat 8 v.index ++ bytesOfNat 4 v.epoch ++ bytesOfNat 4 0 ++ bytesOfNat 8 v.offset ++ bytesOfNat 8 part.length ++
    bytesOfNat 1 (if last then 1 else 0) ++ bytesOfNat 31 0
  let s := (s.writeBytes (ctl + 4096 + (prod % 2 ^ v.qlog) * 2 ^ slog) (head ++ part)).writeNat ctl 8 (prod + 1)
  let count := v.fld 32 8 / 64
  let next := v.index + 1
  let v' : Service :=
    if !last then { v with offset := v.offset + part.length }
    else if next < count then { v with index := next, offset := 0 }
    else { v with index := 0, epoch := v.epoch + 1, offset := 0, running := v.fld 52 4 == 0 || decide (v.epoch + 1 < v.fld 52 4) }
  let s := if last then s.dropXfer x.id else s
  (s.setService j.id k v').svcSignal j v

/-- INGEST_SLOT_WRITE: the ingest service fetches the shard of its next list entry, then places it slot by slot while the ring has room (R364, R365). -/
def execIngestSlotWrite (job : Word) (svc : Nat) (entry : List Byte) (read : ShardRead) (s : State) : Host.Outcome State Fault Refusal :=
  match s.service? job svc with
  | none => .next s
  | some (j, v) =>
    if v.kind ≠ 1 ∨ !v.running then .next s
    else if v.fld 32 8 / 64 = 0 then .next (s.setService job svc { v with running := false })
    else
      match s.xferOf (.ingest job svc) with
      | none =>
        let server := j.servers.getD (bodyNat entry 0 2) 0
        .next ((s.emit (.rdmaRead server (bodyNat entry 4 4) (bodyNat entry 8 8) (bodyNat entry 16 8))).startXfer (.ingest job svc) server (bodyNat entry 16 8))
      | some x =>
        match x.outcome with
        | none => .next s
        | some false => .next ((s.dropXfer x.id).ingestFails j svc v 13)
        | some true =>
          match read with
          | .failed st => .next ((s.dropXfer x.id).ingestFails j svc v st)
          | .bytes data =>
            let ctl := v.control j
            let st := shardStatus entry data
            if st ≠ 0 then .next ((s.dropXfer x.id).ingestFails j svc v st)
            else if s.readNat (ctl + 8) 8 + 2 ^ v.qlog ≤ s.readNat ctl 8 then .next s
            else .next (s.ingestSlot j svc v x data)

/-! ### Serving endpoint (R369, R370) -/

/-- MAXB, MAXCTX and QMAX of an endpoint. -/
def Service.maxB (v : Service) : Nat := v.fld 18 2
def Service.maxCtx (v : Service) : Nat := v.fld 20 4
def Service.qMax (v : Service) : Nat := v.fld 24 2

/-- Requests that wait for a slot. -/
def Service.queued (v : Service) : List GenReq := v.requests.filter (fun q => q.complete && q.slot.isNone)

/-- A request takes its prompt: TOO_LARGE from MAXCTX tokens on; when complete it is queued, or answered BUSY with event 0x9D when QMAX wait. -/
def State.takePrompt (s : State) (j : Job) (k : Nat) (v : Service) (q : GenReq) : State × Response :=
  let others := v.requests.filter (fun r => !(r.client == q.client && r.num == q.num))
  if v.maxCtx ≤ q.tokens.length then (s.setService j.id k { v with requests := others }, plain stTooLarge)
  else if q.complete ∧ v.qMax ≤ v.queued.length then ((s.setService j.id k { v with requests := others }).raiseJob 0x9D j.id [BitVec.ofNat 64 k], plain stBusy)
  else (s.setService j.id k { v with requests := others ++ [q] }, plain stOk)

/-- The endpoint that a session belongs to. -/
def State.endpoint (s : State) : SessionRef → Option (Job × Service × Nat × BitVec 256)
  | .ningonus _ => none
  | .client job k key => (s.service? job k).map (fun p => (p.1, p.2, k, key))

/-- GENERATE: a client starts a request with a parameter block and prompt tokens (R369). -/
def execGenerate (r : SessionRef) (num : Nat) (params : List Byte) (last : Bool) (tokens : List (BitVec 32)) (s : State) :
    Host.Outcome State Fault Refusal :=
  .next (s.serve r mtGenerate (fun s =>
    match s.endpoint r with
    | none => (s, plain stDenied)
    | some (j, v, k, key) =>
      if params.length ≠ 32 ∨ 320 < tokens.length ∨ v.requests.any (fun q => q.client == key && q.num == num) then (s, plain stMalformed)
      else
        s.takePrompt j k v { client := key, num := num, params := params, tokens := tokens, complete := last, stopped := false, slot := none }))

/-- APPEND: a client appends prompt tokens (R369). -/
def execAppend (r : SessionRef) (num : Nat) (last : Bool) (tokens : List (BitVec 32)) (s : State) : Host.Outcome State Fault Refusal :=
  .next (s.serve r mtAppend (fun s =>
    match s.endpoint r with
    | none => (s, plain stDenied)
    | some (j, v, k, key) =>
      match v.requests.find? (fun q => q.client == key && q.num == num) with
      | none => (s, plain stNotFound)
      | some q =>
        if 336 < tokens.length ∨ q.complete then (s, plain stMalformed)
        else s.takePrompt j k v { q with tokens := q.tokens ++ tokens, complete := last }))

/-- STOP: a client stops a request; it leaves at the next step (R369, R370). -/
def execStop (r : SessionRef) (num : Nat) (s : State) : Host.Outcome State Fault Refusal :=
  .next (s.serve r mtStop (fun s =>
    match s.endpoint r with
    | none => (s, plain stDenied)
    | some (j, v, k, key) =>
      if v.requests.any (fun q => q.client == key && q.num == num) then
        (s.setService j.id k { v with requests := v.requests.map (fun (q : GenReq) => if q.client = key ∧ q.num = num then { q with stopped := true } else q) },
          plain stOk)
      else (s, plain stNotFound)))

/-- Address of slot i of an endpoint. -/
def Service.slotAddr (j : Job) (v : Service) (i : Nat) : Nat := j.winBase v.qwin + v.fld 44 8 + i * (64 + 4 * v.maxCtx)

/-- One active request takes its token of a step's record: the token joins its slot, TOKENS goes to its client, and the slot becomes free at END, at MAXCTX
or when stopped. -/
def State.takeToken (j : Job) (k : Nat) (record : Nat) (s : State) (q : GenReq) : State :=
  match s.service? j.id k, q.slot with
  | some (_, v), some i =>
    let tok := s.readNat (record + 64 + 8 * i) 4
    let stop := s.readNat (record + 68 + 8 * i) 1 % 2 == 1
    let a := v.slotAddr j i
    let cur := s.readNat (a + 36) 4
    let s := (s.writeNat (a + 64 + 4 * cur) 4 tok).writeNat (a + 36) 4 (cur + 1)
    let done := stop || decide (v.maxCtx ≤ cur + 1) || q.stopped
    let same (x : GenReq) : Bool := x.client == q.client && x.num == q.num
    let v := { v with requests := if done then v.requests.filter (fun x => !same x) else v.requests }
    let s := s.setService j.id k v
    s.sendOn (.client j.id k q.client) (fun port sid => .tokens port sid q.client q.num stOk done [BitVec.ofNat 32 tok])
  | _, _ => s

/-- A waiting request enters a free slot. -/
def State.admitRequest (j : Job) (k : Nat) (s : State) (q : GenReq) : State :=
  match s.service? j.id k with
  | none => s
  | some (_, v) =>
    match (List.range v.maxB).find? (fun i => !v.requests.any (fun r => r.slot == some i)) with
    | none => s
    | some i =>
      let n := q.tokens.length
      let s := s.writeBytes (v.slotAddr j i) (q.params ++ bytesOfNat 4 n ++ bytesOfNat 4 n ++ bytesOfNat 24 0 ++ q.tokens.flatMap (fun t => bytesOfNat 4 t.toNat))
      s.setService j.id k { v with requests := v.requests.map (fun (r : GenReq) => if r.client = q.client ∧ r.num = q.num then { r with slot := some i } else r) }

/-- Steps 1 and 2: stopped requests that hold no slot leave, waiting ones are admitted, and the next step entry is written and signalled when some slot is
active. -/
def State.nextStep (s : State) (j : Job) (k : Nat) : State :=
  match s.service? j.id k with
  | none => s
  | some (_, v) =>
    let v := { v with requests := v.requests.filter (fun q => !(q.stopped && q.slot.isNone)) }
    let s := v.queued.foldl (State.admitRequest j k) (s.setService j.id k v)
    match s.service? j.id k with
    | none => s
    | some (_, v) =>
      let map := v.requests.foldl (fun (m : Nat) q => match q.slot with | some i => m ||| 2 ^ i | none => m) 0
      if map = 0 then s
      else
        let ctl := v.control j
        let entry := bytesOfNat 8 v.step ++ bytesOfNat 8 0 ++ bytesOfNat 32 map ++ bytesOfNat 16 0
        let s := (s.writeBytes (ctl + 4096 + 64 * (v.step % 2 ^ v.qlog)) entry).writeNat ctl 8 (v.step + 1)
        (s.setService j.id k { v with step := v.step + 1 }).svcSignal j v

/-- TOKEN_RING_POLL: with a token record for the step that is under way, its tokens are taken and the next step begins; with no step under way, the next
step begins when a request can be active (R370). -/
def execTokenRingPoll (job : Word) (svc : Nat) (s : State) : Host.Outcome State Fault Refusal :=
  match s.service? job svc with
  | none => .next s
  | some (j, v) =>
    if v.kind ≠ 3 ∨ !v.running then .next s
    else if v.step ≤ v.index then .next (s.nextStep j svc)
    else
      let ring := j.winBase v.qwin + v.fld 52 8
      if s.readNat ring 8 ≤ v.index then .next s
      else
        let record := ring + 4096 + 4096 * (v.index % 2 ^ v.qlog)
        let s := (v.requests.filter (fun q => q.slot.isSome)).foldl (State.takeToken j svc record) s
        let s := s.writeNat (ring + 8) 8 (v.index + 1)
        match s.service? job svc with
        | none => .next s
        | some (_, v') => .next ((s.setService job svc { v' with index := v.index + 1 }).nextStep j svc)

end Sys2Proof.Machine
end

