-- ==== Sys2Proof/Machine/Power.lean ====
section
/-! DEFINITION. The power manager: measures, cap, ceilings, pauses, fast loop, droop, pools (spec/13 R379 to R397). -/

namespace Sys2Proof.Machine

/-! ### P-states and ceilings (R379 to R381, R391) -/

/-- The clock of a P-state in MHz. -/
def pstateMhz (p : Nat) : Nat := 1800 - 100 * p

/-- The highest P-state that the mode in force allows: PS3 in fixed-frequency mode, PS0 in dynamic mode. -/
def State.topState (s : State) : Nat := if s.power.mode then 0 else 3

/-- The ceilings of core n: power, thermal, droop. -/
def State.ceilings (s : State) (n : Nat) : Nat × Nat × Nat :=
  (s.fld Csr.powStat 59 56, s.fld (Csr.powCore n) 59 56, s.fld (Csr.powCore n) 55 52)

/-- The P-state that the three ceilings ask of core n: the lowest frequency of them (R381). -/
def State.wantedState (s : State) (n : Nat) : Nat :=
  let (p, t, d) := s.ceilings n
  max (max p t) (max d s.topState)

/-- Cores that are RUNNING. -/
def State.runningCores (s : State) : List (Fin 32) := (List.finRange 32).filter (fun n => (s.cores[n]).run == .running)

/-- POW_STAT.FIXOK follows the P-states of the RUNNING cores; event 0x5D when fixed-frequency mode comes to run a core below PS3 (R391). -/
def State.syncFix (s : State) : State :=
  let ok := s.runningCores.all (fun n => s.fld (Csr.powCore n.val) 63 60 == 3)
  let was := (s.reg Csr.powStat).bit 46
  let t := s.setBit Csr.powStat 46 ok
  if was ∧ !ok ∧ !s.power.mode then t.raise 0x5D [] else t

/-- PSTATE_STEP_DONE: a core moves one P-state towards the one that its ceilings ask for (R380, R381). -/
def execPstateStepDone (n : Fin 32) (s : State) : Host.Outcome State Fault Refusal :=
  let ps := s.fld (Csr.powCore n.val) 63 60
  let want := s.wantedState n.val
  if !s.mainOn ∨ !s.corePresent n.val ∨ ps = want then .next s
  else .next (s.setFld (Csr.powCore n.val) 63 60 (if ps < want then ps + 1 else ps - 1)).syncFix

/-! ### Cap, budget and target (R385, R389, R394) -/

/-- The budget in force: a pool's, else the cap. -/
def State.budgetNow (s : State) : Nat := s.power.budget.getD (s.fld Csr.powCtl 15 0)

/-- POW_STAT.BUDGET shows the budget in force; a change raises event 0x50 (R385, R389). -/
def State.setBudget (s : State) (b : Option Nat) : State :=
  let old := s.budgetNow
  let s := { s with power := { s.power with budget := b } }
  let s := s.setFld Csr.powStat 35 24 s.budgetNow
  if s.budgetNow = old then s else s.raise 0x50 [BitVec.ofNat 64 s.budgetNow]

/-- The guard band in percent: the largest that applies (R385). -/
def State.guardBand (s : State) : Nat := if !s.power.calibrated then 10 else if (s.reg Csr.powStat).bit 47 then 5 else 2

/-- The target in units of 1/100 W. -/
def State.target (s : State) : Nat := s.budgetNow * (100 - s.guardBand)

/-! ### Fast loop and pause slots (R387, R388) -/

/-- ESTIMATE_UPDATE: every 1 µs: above 3,300 W every core stops for the next slot, until the estimate falls below that level (R382, R388). -/
def execEstimateUpdate (estimate : Nat) (s : State) : Host.Outcome State Fault Refusal :=
  if !s.mainOn then .next s
  else
    let stop := decide (3300 < estimate) || (s.power.peakStop && decide (3300 ≤ estimate))
    .next { s with power := { s.power with peakStop := stop } }

/-- Run slots per period of core n: the pause duty, or fewer for heat (R387, R399). -/
def State.runSlots (s : State) (n : Nat) : Nat :=
  min (max 1 (s.fld Csr.powStat 55 49)) (64 - (s.power.extraPause.toList.getD n 0))

/-- Core n is stopped in a slot: its stopped slots start at slot 2n mod 64 of each period (R387). -/
def State.stoppedIn (s : State) (n slot : Nat) : Bool := decide ((slot + 64 - 2 * n % 64) % 64 < 64 - s.runSlots n)

/-- PAUSE_SLOT: a new 1 µs slot: the RUNNING cores whose clock is stopped in it (R387, R388). -/
def execPauseSlot (s : State) : Host.Outcome State Fault Refusal :=
  if !s.mainOn then .next s
  else
    let slot := s.now / 1000 % 64
    let stopped : BitVec 32 := s.runningCores.foldl (fun (m : BitVec 32) n =>
      if s.power.peakStop || s.stoppedIn n.val slot then m ||| (1#32 <<< n.val) else m) 0
    .next { s with power := { s.power with stopped := stopped } }

/-! ### Measurement and the control interval (R382 to R387, R392, R393) -/

/-- The absolute difference. -/
def absDiff (a b : Nat) : Nat := (a - b) + (b - a)

/-- POWER_MEASUREMENT: every 100 µs: a measurement and the estimate averaged over the same window, with the input voltage and current and the auxiliary
voltage that PIP_STAT shows; 50 ms of disagreement above 12% enter measured mode (R382, R384, R477). -/
def execPowerMeasurement (measured estimate : Nat) (mainv maina auxv : BitVec 16) (s : State) : Host.Outcome State Fault Refusal :=
  if !s.mainOn then .next s
  else
    let s := s.setReg Csr.pipStat (Word.place mainv.toNat 16 48 ||| Word.place maina.toNat 16 32 ||| Word.place auxv.toNat 16 16)
    let s := (s.setFld Csr.powStat 23 12 (min 4095 measured)).setFld Csr.powStat 11 0 (min 4095 estimate)
    let off := absDiff estimate measured * 100
    let p : Power := { s.power with
      disagree := if 12 * measured < off then s.power.disagree + 1 else 0
      agreeSince := if 6 * measured < off then s.now else s.power.agreeSince }
    let s := { s with power := p }
    if 500 ≤ p.disagree ∧ !(s.reg Csr.powStat).bit 47 then
      .next (((s.setBit Csr.powStat 47 true).bump Csr.powCnt 47 32 1).raise 0x53 [1])
    else .next s

/-- MEASURED_MODE_EXIT: 10 s of disagreement at or below 6% end measured mode (R384). -/
def execMeasuredModeExit (s : State) : Host.Outcome State Fault Refusal :=
  if (s.reg Csr.powStat).bit 47 ∧ s.power.agreeSince + 10000000000 ≤ s.now then
    .next (State.raise { (s.setBit Csr.powStat 47 false) with power := { s.power with disagree := 0 } } 0x53 [0])
  else .next s

/-- CALIBRATION_COMPLETE: after a cumulative 10 s of main power with a core RUNNING the coefficients are stored and the guard band is normal (R383). -/
def execCalibrationComplete (s : State) : Host.Outcome State Fault Refusal :=
  if s.mainOn ∧ !s.power.calibrated ∧ 10000000000 ≤ s.power.runNs then
    let s := { s with power := { s.power with calibrated := true }, flash := { s.flash with powCal := true } }
    .next ((s.setBit Csr.powStat 48 false).raise 0x54 [])
  else .next s

/-- The highest P-state from `top` whose predicted power is at or below the target; PS12 when none is. -/
def State.bestState (s : State) (pred : Vector Nat 13) (top : Nat) : Nat :=
  match (List.range 13).find? (fun p => decide (top ≤ p) && decide (pred.toList.getD p 0 * 100 ≤ s.target)) with
  | some p => p
  | none => 12

/-- The largest k from 1 to 64 whose predicted power is at or below the target; 1 when none is. -/
def State.bestDuty (s : State) (pred : Vector Nat 64) : Nat :=
  match ((List.range 64).reverse).find? (fun i => decide (pred.toList.getD i 0 * 100 ≤ s.target)) with
  | some i => i + 1
  | none => 1

/-- HBM[s]_STAT.PAUSE of every stack: the thermal pause, or the 80% of a power pause (R387, R400). -/
def State.syncHbmPause (s : State) : State :=
  (List.range 8).foldl (fun (t : State) k =>
    if t.stackPresent k then t.setFld (Csr.hbmStat k) 47 40 (max (t.power.pauses.toList.getD k 0) (if t.power.pausing then 204 else 0)) else t) s

/-- POWER_CONTROL_INTERVAL: MODE, EQ and ALIGN take effect; the ceiling becomes the highest P-state whose prediction meets the target, rising by at most
one and falling by at least one while the measurement is above the target; below PS12 the cores pause, and at k = 1 the memory is withheld too (R386, R387,
R392, R393). `pred` predicts the power by P-state, `duty` by k at PS12, `eq` is the bound of R393. -/
def execPowerControlInterval (pred : Vector Nat 13) (duty : Vector Nat 64) (eq : Fin 13) (s : State) : Host.Outcome State Fault Refusal :=
  if !s.serving then .next s
  else
    let ctl := s.reg Csr.powCtl
    let s := { s with power := { s.power with mode := ctl.bit 32, eq := ctl.bit 40, align := min 10 (ctl.field 47 44) } }
    let top := if !s.power.mode then 3 else if s.power.eq then eq.val else 0
    let cur := s.fld Csr.powStat 59 56
    let best := s.bestState pred top
    let next := if best < cur then max top (cur - 1) else best
    let excess := decide (s.target < s.fld Csr.powStat 23 12 * 100)
    let next := if excess then min 12 (max next (cur + 1)) else next
    let short := decide (s.target < pred.toList.getD 12 0 * 100)
    let k := if short then s.bestDuty duty else 64
    let hold := short && decide (s.target < duty.toList.getD 0 0 * 100)
    let was := s.fld Csr.powStat 55 49
    let s := (s.setFld Csr.powStat 59 56 next).setFld Csr.powStat 55 49 k
    let s := State.syncHbmPause { s with power := { s.power with pausing := hold } }
    .next (if k < 64 ∧ (was = 64 ∨ was = 0) then s.raise 0x51 [BitVec.ofNat 64 k] else s)

/-! ### Droop (R390) -/

/-- DROOP_DETECT: a core's clock has been stretched for some cycles; when more than 1/128 of a window's cycles were, its droop ceiling falls one P-state below
the current one; event 0x5B at most once per second per core (R390). -/
def execDroopDetect (n : Fin 32) (cycles : Nat) (excess : Bool) (s : State) : Host.Outcome State Fault Refusal :=
  let o := Csr.powCore n.val
  if !s.mainOn ∨ !s.corePresent n.val then .next s
  else
    let s := s.bump o 31 0 cycles
    if !excess then .next s
    else
      let s := (s.setFld o 55 52 (min 12 (s.fld o 63 60 + 1))).bump Csr.powCnt 63 48 1
      let s : State := { s with power := { s.power with droopAt := s.power.droopAt.set n s.now } }
      let recent := (s.power.droopEventAt[n]).any (fun t => decide (s.now < t + 1000000000))
      if recent then .next (s.withhold 0x5B)
      else
        let s := { s with power := { s.power with droopEventAt := s.power.droopEventAt.set n (some s.now) } }
        .next (s.raise 0x5B [BitVec.ofNat 64 n.val])

/-- DROOP_CEILING_RISE: 10 ms without a droop window raise the droop ceiling one P-state, never above the mode's top (R390, R391). -/
def execDroopCeilingRise (n : Fin 32) (s : State) : Host.Outcome State Fault Refusal :=
  let o := Csr.powCore n.val
  let d := s.fld o 55 52
  if s.mainOn ∧ s.corePresent n.val ∧ s.topState < d ∧ s.power.droopAt[n] + 10000000 ≤ s.now then
    .next { (s.setFld o 55 52 (d - 1)) with power := { s.power with droopAt := s.power.droopAt.set n s.now } }
  else .next s

/-! ### Pools (R394 to R397) -/

/-- POOL_CTL fields of the block. -/
def State.inBlock (s : State) (chip : Nat) : Bool :=
  decide (s.fld Csr.poolCtl 31 24 ≤ chipX chip) && decide (chipX chip ≤ s.fld Csr.poolCtl 39 32) &&
  decide (s.fld Csr.poolCtl 47 40 ≤ chipY chip) && decide (chipY chip ≤ s.fld Csr.poolCtl 55 48)

/-- This chip takes part in a pool: enabled, placed in the block, not HELD (R394, R410). -/
def State.inPool (s : State) : Bool :=
  (s.reg Csr.poolCtl).bit 62 && (s.reg Csr.fabId).bit 63 && s.inBlock s.chip && s.mstate == mReady

/-- The hash of the pool's fields that a report carries: the first four bytes of the SM3 digest of POOL_CTL without LOCK and EN (log 44). -/
def State.poolHash (s : State) : BitVec 32 :=
  BitVec.ofNat 32 ((sm3 (bytesOfNat 8 (s.reg Csr.poolCtl &&& Word.mask 55 0).toNat)).toNat / 2 ^ 224)

/-- The wait fraction of the last 10 ms in units of 1/1,024; 1,024 when no core ran (R395). -/
def Pool.wait (p : Pool) : Nat := if p.runCycles = 0 then 1024 else min 1024 (p.waitCycles * 1024 / p.runCycles)

/-- Chips of this chip's row, or column, that lie in the block. -/
def State.blockLine (s : State) (row : Bool) : List Nat :=
  (s.neighbours.filter (fun c => (if row then chipY c == chipY s.chip else chipX c == chipX s.chip) && s.inBlock c))

/-- A report takes its place in the pool. -/
def Pool.take (p : Pool) (m : PoolMsg) : Pool :=
  let x : PoolMember := { chip := m.chip.toNat, w := m.w, b := m.b, base := m.base, hash := m.hash, missed := 0, arrived := true }
  { p with members := (p.members.filter (fun y => y.chip != x.chip)) ++ [x] }

/-- The pool is left: no budget, nothing heard. -/
def State.leavePool (s : State) (st : Nat) : State :=
  ({ s with pool := { s.pool with members := [], excluded := [] } }.setBudget none).setFld Csr.poolStat 63 61 st

/-- POOL_EPOCH: at a multiple of 10 ms of fabric time the new budget takes force and the chip sends its report along its row, and along its column as it does
the reports of its row (R395 to R397). -/
def execPoolEpoch (s : State) : Host.Outcome State Fault Refusal :=
  let cap := s.fld Csr.powCtl 15 0
  if !s.mainOn then .next s
  else if !s.inPool then .next (if s.fld Csr.poolStat 63 61 = 0 then s else s.leavePool 0)
  else if s.fld Csr.poolStat 63 61 = 3 then .next s
  else
    let p := s.pool
    let mine := p.members.find? (fun m => m.chip == s.chip)
    let changed := decide (p.base ≠ cap) && mine.isSome
    let others := p.members.filter (fun m => m.chip != s.chip)
    let aged := others.map (fun (m : PoolMember) => { m with missed := if m.arrived then 0 else m.missed + 1, arrived := false })
    let gone := aged.filter (fun m => decide (10 ≤ m.missed))
    let left := aged.filter (fun m => decide (m.missed < 10))
    let silent := !others.isEmpty && left.isEmpty
    let reset := changed || !p.excluded.isEmpty || silent
    let budget := if reset || mine.isNone then cap else p.budget
    let w := p.wait
    let s := { s with pool := { p with
      members := left.map (fun (m : PoolMember) => if reset then { m with b := m.base } else m)
      budget := budget, base := cap, excluded := gone.map (fun (m : PoolMember) => m.chip), runCycles := 0, waitCycles := 0 } }
    let s := if !gone.isEmpty || changed || silent then s.raise 0x59 [BitVec.ofNat 64 gone.length] else s
    let s := s.setBudget (some budget)
    let m : PoolMsg := { chip := BitVec.ofNat 16 s.chip, w := w, b := budget, base := cap, hash := s.poolHash }
    let s : State := { s with pool := s.pool.take m }
    let s : State := s.setFld Csr.poolStat 42 32 w
    let s : State := if s.fld Csr.poolStat 63 61 = 2 then s else s.setFld Csr.poolStat 63 61 1
    .next ((s.blockLine true ++ s.blockLine false).foldl (fun (t : State) c => t.emit (.poolReport c m)) s)

/-- POOL_REPORT: a member's report arrives; one of the own row goes on along the own column (R395). A member whose base cap differs from its last report is
excluded: every remaining member returns to its base cap at the next epoch (R397). -/
def execPoolReport (m : PoolMsg) (s : State) : Host.Outcome State Fault Refusal :=
  let chip := m.chip.toNat
  if !s.inPool ∨ !s.inBlock chip then .next s
  else
    let changed := s.pool.members.any (fun x => x.chip == chip && x.base != m.base)
    let s := if changed then
        State.raise { s with pool := { s.pool with members := s.pool.members.filter (fun x => x.chip != chip), excluded := chip :: s.pool.excluded } } 0x59
          [BitVec.ofNat 64 chip]
      else { s with pool := s.pool.take m }
    if chipY chip = chipY s.chip then .next ((s.blockLine false).foldl (fun (t : State) c => t.emit (.poolReport c m)) s)
    else .next s

/-- What a donor gives: up to 20 W, and less than nothing when its budget lies below MINW (R396, on integers). -/
def poolGive (minw : Nat) (m : PoolMember) : PoolMember × Int :=
  let g : Int := min 20 ((m.b : Int) - minw)
  ({ m with b := ((m.b : Int) - g).toNat }, g)

/-- One round over the receivers in order: 1 W to each below MAXW while there is something to give. -/
def poolRound (maxw : Nat) : List PoolMember → Nat → List PoolMember × Nat
  | [], give => ([], give)
  | m :: t, give =>
    if give = 0 then (m :: t, 0)
    else
      let (m', give) := if m.b < maxw then ({ m with b := m.b + 1 }, give - 1) else (m, give)
      let (t', give) := poolRound maxw t give
      (m' :: t', give)

/-- Rounds until nothing is left to give or nobody can take. -/
def poolRounds (maxw : Nat) : Nat → List PoolMember → Nat → List PoolMember × Nat
  | 0, l, give => (l, give)
  | fuel + 1, l, give =>
    if give = 0 ∨ !l.any (fun m => decide (m.b < maxw)) then (l, give)
    else
      let (l, give) := poolRound maxw l give
      poolRounds maxw fuel l give

/-- What is left goes back to the donors in order while there is any, to each at most what it gave. -/
def poolReturn : List (PoolMember × Int) → Int → List PoolMember
  | [], _ => []
  | (m, g) :: t, give =>
    if give ≤ 0 then m :: poolReturn t give
    else { m with b := ((m.b : Int) + min g give).toNat } :: poolReturn t (give - min g give)

/-- Insert a member into a list that rises in a key. -/
def poolInsert (key : PoolMember → Nat × Nat) (m : PoolMember) : List PoolMember → List PoolMember
  | [] => [m]
  | x :: t => if (key m).1 < (key x).1 ∨ ((key m).1 = (key x).1 ∧ (key m).2 < (key x).2) then m :: x :: t else x :: poolInsert key m t

/-- The new budgets from the reports of an epoch (R396). -/
def poolBudgets (minw maxw : Nat) (members : List PoolMember) : List PoolMember :=
  let m := members.filter (fun x => x.arrived)
  let wbar := (m.map (fun x => x.w)).sum / m.length
  let donors := (m.filter (fun x => decide (wbar + 32 < x.w))).foldr (poolInsert (fun x => (x.chip, 0))) []
  let recv := (m.filter (fun x => decide (x.w + 32 < wbar))).foldr (poolInsert (fun x => (x.w, x.chip))) []
  let given := donors.map (poolGive minw)
  let give : Int := (given.map (fun p => p.2)).sum
  let (recv, left) := poolRounds maxw give.toNat recv give.toNat
  let give : Int := if give ≤ 0 then give else left
  let donors := poolReturn given give
  members.map (fun x =>
    match (donors ++ recv).find? (fun y => y.chip == x.chip) with
    | some y => y
    | none => x)

/-- POOL_BUDGET_COMPUTE: at e + 5 ms every member computes the new budgets from the reports of epoch e, for the next epoch; a hash that differs from the lowest
chip's disables the pool (R395, R396). -/
def execPoolBudgetCompute (s : State) : Host.Outcome State Fault Refusal :=
  let here := s.pool.members.filter (fun m => m.arrived)
  if !s.inPool ∨ here.isEmpty then .next s
  else
    let low := here.foldl (fun (b : PoolMember) m => if m.chip < b.chip then m else b) (here.headD { chip := 0, w := 0, b := 0, base := 0, hash := 0, missed := 0, arrived := false })
    let s := (s.setFld Csr.poolStat 60 48 here.length).bump Csr.poolStat 31 0 1
    if here.any (fun m => m.hash != low.hash) then .next ((s.leavePool 3).raise 0x59 [BitVec.ofNat 64 low.chip])
    else
      let members := poolBudgets (s.fld Csr.poolCtl 11 0) (s.fld Csr.poolCtl 23 12) s.pool.members
      let mine := match members.find? (fun m => m.chip == s.chip) with | some m => m.b | none => s.pool.budget
      let was := s.fld Csr.poolStat 63 61
      let s := ({ s with pool := { s.pool with members := members, budget := mine } }).setFld Csr.poolStat 63 61 2
      .next (if was = 2 then s else s.raise 0x59 [0])

end Sys2Proof.Machine
end

