-- ==== Sys2Proof/Machine/Thermal.lean ====
section
/-! DEFINITION. Temperature sites, throttles and pauses, thermal shutdown, HELD and RESUME (spec/13 R398 to R404; 01 R16; 08 R242; 15 R459). -/

namespace Sys2Proof.Machine

/-! ### Sites (R398) -/

/-- A reading as 16 signed bits. -/
def tempCode (v : Int) : Nat := (BitVec.ofInt 16 (max (-32768) (min 32767 v))).toNat

/-- The stack adjacent to a core (R16). -/
def adjacentStack (n : Nat) : Nat :=
  let h := n / 16
  let c := n % 16 / 4
  let r := n % 4
  4 * h + 2 * (r / 2) + (if c < 2 then 0 else 1)

/-! ### Thermal shutdown (R402, R403) -/

/-- The running jobs' identifiers, as many as a journal body of 112 bytes takes after five words. -/
def State.jobWords (s : State) : List Word := (s.jobs.map (fun j => j.id)).take 9

/-- THERMAL shutdown: THERM_TRIP_N low, main power off, TRIPPED; the journal record, pinned until resumed; the trip counter; event 0x57 (R402). -/
def State.thermalShutdown (s : State) (site : Nat) (first second : Int) : State :=
  let words := [BitVec.ofNat 64 site, Word.place (tempCode first) 16 0, Word.place (tempCode second) 16 0, s.ft, BitVec.ofNat 64 s.mstate] ++ s.jobWords
  let ft := s.ft
  let s := (State.mainDown { s with pins := { s.pins with thermTrip := true } } mTripped).journalAdd 3 words
  let trips := min 255 (s.flash.trips + 1)
  let s := { s with
    flash := { s.flash with trips := trips, held := true }
    health := { s.health with tripAt := some s.now } }
  let s := s.setReg Csr.thmTrip (Word.place trips 8 56 ||| Word.place site 8 48 ||| Word.place ft.toNat 48 0)
  (s.bump Csr.jrnStat 63 48 1).raise 0x57 [BitVec.ofNat 64 site]

/-- TEMPERATURE_SAMPLE: one site is sampled; it reads the higher of its valid sensors; 110 °C in two successive samples shuts the module down
(R398, R402). -/
def execTemperatureSample (site : Fin 57) (a b : Option Int) (s : State) : Host.Outcome State Fault Refusal :=
  let o := Csr.thmSens site.val
  if !s.pins.aux then .next s
  else
    match (match a, b with | some x, some y => some (max x y) | some x, none => some x | none, y => y) with
    | none =>
      let was := s.siteValid site.val
      let s := State.setFld { s with power := { s.power with hot := s.power.hot.filter (fun i => i != site.val) } } o 63 62 2
      .next (if was then s.raise 0x5A [BitVec.ofNat 64 site.val] else s)
    | some t =>
      let val := if a.isSome && b.isSome then 0 else 1
      let last := s.siteTemp site.val
      let peak := max (BitVec.ofNat 16 (s.fld o 39 24)).toInt t
      let s := ((s.setFld o 63 62 val).setFld o 15 0 (tempCode t)).setFld o 39 24 (tempCode peak)
      let s := if 32 ≤ site.val ∧ site.val < 40 ∧ s.stackPresent (site.val - 32) then
          s.setFld (Csr.hbmStat (site.val - 32)) 63 56 (max 0 (min 255 (t / 16))).toNat
        else s
      let outside := site.val == 55 && (decide (t < 240) || decide (640 < t))
      let left := outside && !s.power.inletOut
      let s := if site.val = 55 then { s with power := { s.power with inletOut := outside } } else s
      let s := if left then s.raise 0x5E [BitVec.ofNat 64 (tempCode t)] else s
      let hot := decide (1760 ≤ t)
      let twice := hot && s.power.hot.contains site.val
      let s := { s with power := { s.power with hot := (s.power.hot.filter (fun i => i != site.val)) ++ (if hot then [site.val] else []) } }
      if twice ∧ s.mainOn then .next (s.thermalShutdown site.val last t) else .next s

/-- TRIP_HOLD_END: in TRIPPED, once cool enough, Pip re-enables main power when MAIN_EN is high: a boot with CAUSE 4 (R403, R423). -/
def execTripHoldEnd (s : State) : Host.Outcome State Fault Refusal :=
  if s.mstate = mTripped ∧ s.coolEnough ∧ s.mainAllowed then .next (s.startBoot 4) else .next s

/-! ### Throttles and pauses (R399 to R401) -/

/-- The frequency that a temperature allows, in MHz × 16: t and setpoint in 1/16 °C. -/
def thermalMhz16 (top : Nat) (t set : Int) : Int := 16 * (pstateMhz top : Int) - 40 * (t - set)

/-- The highest P-state from `top` at or below a frequency in MHz × 16; PS12 at the least. -/
def thermalState (top : Nat) (f : Int) : Nat :=
  match (List.range 13).find? (fun p => decide (top ≤ p) && decide (16 * (pstateMhz p : Int) ≤ f)) with
  | some p => p
  | none => 12

/-- Run slots lost below 0.60 GHz: 8 for each further 100 MHz, at most 56. -/
def slotsLost (f : Int) : Nat := min 56 (8 * ((9600 - f) / 1600).toNat)

/-- The temperature that core n takes, none when its own site has no valid sensor (R398, R399). -/
def State.coreTemp (s : State) (n : Nat) : Option Int :=
  if !s.siteValid n then none
  else
    let k := 32 + adjacentStack n
    some (if s.siteValid k ∧ s.stackPresent (adjacentStack n) then max (s.siteTemp n) (s.siteTemp k) else s.siteTemp n)

/-- The thermal ceiling of core n and the run slots that it loses, from its present ceiling (R398, R399). -/
def State.thermalCore (s : State) (n : Nat) : Nat × Nat :=
  let top := s.topState
  let set : Int := 16 * (s.fld Csr.thmCtl 7 0 : Int)
  match s.coreTemp n with
  | none => (12, 56)
  | some t =>
    let f := thermalMhz16 top t set
    let now := thermalState top f
    let cur := max top (s.fld (Csr.powCore n) 59 56)
    let next := if now < cur then min cur (thermalState top (thermalMhz16 top (t + 16) set)) else now
    (next, slotsLost f)

/-- The pause of a temperature above a setpoint: 10% per °C in units of 1/256, at most 80% (R400). -/
def pauseOf (t set : Int) : Nat := min 204 ((max 0 (t - set)) * 8 / 5).toNat

/-- The pauses of the stacks (0 to 7) and of the hull sites (8 to 15); 80% without a valid sensor. -/
def State.sitePause (s : State) (i : Nat) : Nat :=
  let site := 32 + i
  let set : Int := 16 * (if i < 8 then s.fld Csr.thmCtl 15 8 else s.fld Csr.thmCtl 23 16 : Int)
  if i < 8 ∧ !s.stackPresent i then 0
  else if 12 ≤ i ∧ s.h1Lost then 0
  else if !s.siteValid site then 204
  else pauseOf (s.siteTemp site) set

/-- THERMAL_CONTROL: every 100 µs the thermal ceilings and the pauses are evaluated; event 0x55 when a core begins or ends throttling, at most once per second;
event 0x56 when a pause begins or ends (R399, R400). -/
def execThermalControl (s : State) : Host.Outcome State Fault Refusal :=
  if !s.mainOn then .next s
  else
    let top := s.topState
    let res := (List.range 32).map (fun n => if s.corePresent n then s.thermalCore n else (top, 0))
    let t := (List.range 32).foldl (fun (u : State) n =>
      if u.corePresent n then u.setFld (Csr.powCore n) 59 56 (res.getD n (top, 0)).1 else u) s
    let hot : BitVec 32 := (List.range 32).foldl (fun (m : BitVec 32) n =>
      let r := res.getD n (top, 0)
      if top < r.1 ∨ 0 < r.2 then m ||| (1#32 <<< n) else m) 0
    let pauses : Vector Nat 16 := Vector.ofFn (fun i => s.sitePause i.val)
    let moved := (List.range 16).any (fun i => (s.power.pauses.toList.getD i 0 == 0) != (pauses.toList.getD i 0 == 0))
    let throttle := decide (hot ≠ s.power.throttled)
    let recent : Bool := match s.power.throttleAt with | some w => decide (s.now < w + 1000000000) | none => false
    let t : State := { t with power := { t.power with
      throttled := hot, pauses := pauses, extraPause := Vector.ofFn (fun i => (res.getD i.val (top, 0)).2)
      throttleAt := if throttle && !recent then some s.now else s.power.throttleAt } }
    let t := t.syncHbmPause
    let t := if throttle then (if recent then t.withhold 0x55 else t.raise 0x55 [hot.zeroExtend 64]) else t
    .next (if moved then t.raise 0x56 [] else t)

/-! ### HELD and RESUME (R377, R404) -/

/-- A site reads below its setpoint, or below 95 °C when it has none. -/
def State.siteCool (s : State) (i : Nat) : Bool :=
  let set := if i < 32 then s.fld Csr.thmCtl 7 0 else if i < 40 then s.fld Csr.thmCtl 15 8 else if i < 48 then s.fld Csr.thmCtl 23 16 else 95
  s.siteValid i && decide (s.siteTemp i < 16 * (set : Int))

/-- Sites of units that this part has. -/
def State.sitePresent (s : State) (i : Nat) : Bool :=
  if i < 32 then s.corePresent i else if i < 40 then s.stackPresent (i - 32) else if 44 ≤ i ∧ i < 48 ∨ i = 49 then !s.h1Lost else true

/-- RESUME: in HELD, with every site cool, back to READY: the journal record is marked resumed, event 0x58; BUSY while a site is hot; outside HELD OK
without effect (R404). -/
def execResume (k : Fin 64) (s : State) : Host.Outcome State Fault Refusal :=
  .next (s.serve (.ningonus k) mtResume (fun s =>
    if s.mstate ≠ mHeld then (s, plain stOk)
    else if !(s.reg Csr.secStat).bit 55 ∨ !(List.range 57).all (fun i => !s.sitePresent i || s.siteCool i) then (s, plain stBusy)
    else
      let s := { s with flash := { s.flash with
        held := false
        journal := s.flash.journal.map (fun (r : JournalRec) => if r.type = 3 then { r with resumed := true } else r) } }
      let s := s.setFld Csr.jrnStat 63 48 0
      ((s.setMstate mReady).raise 0x58 [0], plain stOk)))

/-- LEVEL_SET: the current CPL or NL changes for work created afterwards; a value outside the firmware's range is MALFORMED (R51, R293, R459). -/
def execLevelSet (k : Fin 64) (body : List Byte) (s : State) : Host.Outcome State Fault Refusal :=
  .next (s.serve (.ningonus k) mtLevelSet (fun s =>
    let level := bodyNat body 0 1
    let v := bodyNat body 1 1
    let o := if level = 1 then Csr.clLvl else Csr.capNl
    let (lo, hi, cur) := if level = 1 then (s.fld o 15 8, s.fld o 23 16, s.fld o 7 0) else (s.fld o 7 0, s.fld o 15 8, s.fld o 23 16)
    if body.length ≠ 2 ∨ (level ≠ 1 ∧ level ≠ 2) ∨ v < lo ∨ hi < v then (s, plain stMalformed)
    else
      let t := if level = 1 then s.setFld o 7 0 v else s.setFld o 23 16 v
      ((if v = cur then t else t.journalAdd 8 [BitVec.ofNat 64 level, BitVec.ofNat 64 v]), plain stOk)))

end Sys2Proof.Machine
end

