-- ==== Sys2Proof/Machine/FabricTime.lean ====
section
/-! DEFINITION. Fabric time: root, parent, exchanges, holdover, PTP (spec/13 R405 to R409). -/

namespace Sys2Proof.Machine

/-- States of FT_STAT. -/
def ftFree : Nat := 0
def ftAcquire : Nat := 1
def ftLocked : Nat := 2
def ftHoldover : Nat := 3
def ftRoot : Nat := 4

/-- FT_STAT.STATE. -/
def State.ftState (s : State) : Nat := s.fld Csr.ftStat 63 61

/-- A candidate pair is better than another: lower priority number, then lower chip ID (R406). -/
def better (a b : Nat × Nat) : Bool := decide (a.1 < b.1) || (a.1 == b.1 && decide (a.2 < b.2))

/-- This chip's own candidate. -/
def State.ownCandidate (s : State) : Nat × Nat := (s.fld Csr.ftCtl 19 16, s.chip)

/-- This chip is its own root whatever it hears: it has no chip ID, or the part is an HJ-LD9200-N (R406). -/
def State.ownRoot (s : State) : Bool := !(s.reg Csr.fabId).bit 63 || s.part.variant == .n

/-- The best candidate known: the own one and what has been announced within the last 4 ms. -/
def State.bestRoot (s : State) : Nat × Nat :=
  if s.ownRoot then s.ownCandidate
  else (s.time.heard.filter (fun h => decide (s.now ≤ h.2.2 + 4000000))).foldl (fun b h => if better h.2.1 b then h.2.1 else b) s.ownCandidate

/-- The direct path to a chip of the row or column is usable (R256). -/
def State.directTo (s : State) (chip : Nat) : Bool := !(s.hopPaths s.chip chip).isEmpty

/-- The parent under a root: the root in its row, else the chip of the own column in the root's row; without a usable direct path, the nearest chip of the
own row that announces, in ascending column offset (R406). -/
def State.parentFor (s : State) (root : Nat) : Option Nat :=
  if s.ownRoot || root == s.chip then none
  else
    let first := if chipY root = chipY s.chip then root else chipAt (chipX s.chip) (chipY root)
    if s.directTo first then some first
    else
      let row := s.neighbours.filter (fun c => chipY c == chipY s.chip && s.directTo c && s.time.heard.any (fun h => h.1 == c))
      let dist (c : Nat) : Nat := absDiff (chipX c) (chipX s.chip)
      row.foldl (fun b c => match b with | none => some c | some d => if dist c < dist d then some c else some d) none

/-- Root and parent follow the best candidate known; the chip enters or leaves ROOT; event 0x5C at a root change (R406, R407). -/
def State.chooseRoot (s : State) : State :=
  let best := s.bestRoot
  let parent := s.parentFor best.2
  let old := s.time.best
  let st := s.ftState
  let isRoot := s.ownRoot || best.2 == s.chip
  let s := { s with time := { s.time with best := best, parent := parent } }
  let s := s.setFld Csr.ftStat 55 40 best.2
  let s :=
    if isRoot then
      if st = ftRoot then s else ((s.setFld Csr.ftStat 63 61 ftRoot).setFld Csr.ftStat 59 56 0)
    else
      let hops := match parent with
        | none => 0
        | some p => if p = best.2 then 1 else if chipY p = chipY best.2 then 2 else 3
      let s := s.setFld Csr.ftStat 59 56 hops
      if st = ftRoot then State.setFld { s with time := { s.time with good := 0, stepped := false, ptpLocked := false } } Csr.ftStat 63 60 (2 * ftAcquire) else s
  if old.2 = best.2 ∧ st ≠ ftFree then s
  else if old.2 = best.2 ∧ !isRoot then s
  else s.raise 0x5C [BitVec.ofNat 64 best.2]

/-- FT_ANNOUNCE: every 1 ms the chip announces the best candidate it knows to its row and its column (R406). -/
def execFtAnnounce (s : State) : Host.Outcome State Fault Refusal :=
  if !s.mainOn ∨ s.boot.stage < 8 then .next s
  else
    let s := s.chooseRoot
    .next (if s.ownRoot then s else s.neighbours.foldl (fun (t : State) c => t.emit (.announce c s.time.best)) s)

/-- ROOT_ANNOUNCEMENT: a neighbour's announcement is recorded; root and parent follow (R406). -/
def execRootAnnouncement (chip : BitVec 16) (prio : BitVec 4) (root : BitVec 16) (s : State) : Host.Outcome State Fault Refusal :=
  if !s.mainOn ∨ s.boot.stage < 8 then .next s
  else
    let h : Nat × (Nat × Nat) × Nat := (chip.toNat, (prio.toNat, root.toNat), s.now)
    .next (State.chooseRoot { s with time := { s.time with heard := h :: s.time.heard.filter (fun x => x.1 != chip.toNat) } })

/-- Twice the offset of an exchange in units of 0.25 ns (R407). -/
def exchangeTwice (t1 t2 t3 t4 : Int) : Int := (t2 - t1) - (t4 - t3)

/-- The offset of an exchange in units of 0.25 ns, as FT_STAT shows it (R407, R412). -/
def exchangeOffset (t1 t2 t3 t4 : Int) : Int := exchangeTwice t1 t2 t3 t4 / 2

/-- FT_EXCHANGE: timestamps, in units of 0.25 ns, and the frequency correction that the loop derives; the state moves as R407 states and FT slews, or steps
forward once in ACQUIRE. -/
def execFtExchange (t1 t2 t3 t4 : Int) (freq : BitVec 16) (s : State) : Host.Outcome State Fault Refusal :=
  match s.time.parent with
  | none => .next s
  | some _ =>
    if !s.mainOn then .next s
    else
      let off := exchangeOffset t1 t2 t3 t4
      let st := s.ftState
      let twice := exchangeTwice t1 t2 t3 t4
      let far := decide (8000 < twice.natAbs)
      let near := decide (twice.natAbs < 16)
      let enter := st == ftFree || ((st == ftLocked || st == ftHoldover) && far)
      let st1 := if enter then ftAcquire else st
      let stepped := if enter then false else s.time.stepped
      let good := if enter then (if near then 1 else 0) else if near then s.time.good + 1 else 0
      let step := st1 == ftAcquire && !stepped && decide (8000 < twice)
      let lock := (st1 == ftAcquire || st1 == ftHoldover) && decide (16 ≤ good)
      let st2 := if lock then ftLocked else st1
      let t : State := { s with
        ft := if step then s.ft + BitVec.ofInt 64 (off / 4) else s.ft
        time := { s.time with good := good, stepped := stepped || step, lastExchange := s.now, slew := if step then 0 else off / 4, slewAt := s.now } }
      let t := ((t.setFld Csr.ftStat 63 61 st2).setFld Csr.ftStat 31 16 (tempCode off)).setFld Csr.ftStat 15 0 freq.toNat
      .next (if lock then t.raise 0x5C [BitVec.ofNat 64 s.time.best.2] else t)

/-- FT_HOLDOVER: no exchange for 5 ms sends LOCKED into HOLDOVER, which seeks another parent; event 0x5C (R407). -/
def execFtHoldover (s : State) : Host.Outcome State Fault Refusal :=
  if s.mainOn ∧ s.ftState = ftLocked ∧ s.time.lastExchange + 5000000 ≤ s.now then
    let s := { s with time := { s.time with good := 0, slew := 0 } }
    let s := (s.setFld Csr.ftStat 63 61 ftHoldover).raise 0x5C [BitVec.ofNat 64 s.time.best.2]
    .next s.chooseRoot
  else .next s

/-- PTP_MESSAGE: PTP time on a host port of the root disciplines FT: at the first lock it steps forward when it is behind by more than 1 ms, otherwise it
slews (R409). -/
def execPtpMessage (j : Fin 8) (ptp : Word) (s : State) : Host.Outcome State Fault Refusal :=
  if s.ftState ≠ ftRoot ∨ !(s.reg Csr.ftCtl).bit 0 ∨ !(s.port j.val).up then .next s
  else
    let d : Int := (ptp.toNat : Int) - s.ft.toNat
    let step := !s.time.ptpLocked && decide (1000000 < d)
    let t : State := { s with
      ft := if step then ptp else s.ft
      time := { s.time with ptpLocked := true, slew := if step then 0 else d, slewAt := s.now } }
    .next (t.setBit Csr.ftStat 60 true)

end Sys2Proof.Machine
end

