-- ==== Sys2Proof/Machine/Health.lean ====
section
/-! DEFINITION. The health score and its journal (spec/15 R449 to R452, R458, R460, R463). -/

namespace Sys2Proof.Machine

/-- Pip's firmware runs (R374, R424, R489). -/
def State.pipRuns (s : State) : Bool := s.pins.aux && !s.pins.resetLow && s.running.isSome

/-- The greatest value of T, with 16 fractional bits (R449, R450). -/
def tMax : Nat := 700 * 2 ^ 16

/-- One minute's decay of T: 2^(-60/86400) as a fixed-point factor with 16 fractional bits, rounded to nearest (R450). -/
def tDecay (t : Nat) : Nat := t * 65504 / 65536

/-- The L component: 400 for each lasting fault of the last 30 days, saturating (R449, R450). -/
def State.healthL (s : State) : Nat :=
  min 16383 (400 * (s.health.lasting.filter (fun t => decide (s.now < t + thirtyDays))).length)

/-- Set bits among the low 32 of a register. -/
def lowBits (w : Word) : Nat := ((List.range 32).filter (fun c => w.bit c)).length

/-- The E component of the present state, saturating (R449, R450). -/
def State.healthE (s : State) : Nat :=
  let fenced := ((List.finRange 32).filter (fun n => (s.cores[n]).run == .fenced)).length
  let groups := ((List.range 40).filter (fun i => (s.reg (Csr.d2dLane (i / 20) (i % 20))).bit 63)).length
  let dark := ((List.range 16).filter (fun i => s.waveDark (i / 8) (i % 8))).length
  let hosts := ((List.range 8).filter (fun j => s.fld (Csr.hoptStat j) 63 60 == 4)).length
  let present := (List.range 8).filter (fun k => s.stackPresent k)
  let out := (present.map (fun k => lowBits (s.reg (Csr.hbmChanMap k)))).sum
  let pins := (present.map (fun k => lowBits (s.reg (Csr.hbmPinMap k)))).sum
  let carts := ((List.range 2).filter (fun c => s.hasCarts && !s.cartGood c)).length
  let trip : Bool := match s.health.tripAt with | some t => decide (s.now < t + 7 * 86400 * 1000000000) | none => false
  min 16383 (100 * fenced + 50 * groups + 100 * dark + 25 * hosts + min 200 (10 * out) + 5 * pins + 300 * carts +
    (if (s.reg Csr.secStat).bit 54 then 0 else 300) + (if trip then 200 else 0))

/-- score = max(0, 1000 - t - l - e) (R449). -/
def healthScore (t l e : Nat) : Nat := 1000 - t - l - e

/-- The recommended band of a score (R451, R463). -/
def healthBand (score : Nat) : Nat := if 800 ≤ score then 0 else if 500 ≤ score then 1 else 2

/-- Completions of the last 24 h (R452). -/
def State.lateDay (s : State) : List (Nat × Bool) := s.health.late.filter (fun x => decide (s.now < x.1 + 86400 * 1000000000))

/-- HLT_SCORE and HLT_COMP from the health state; the count of duplicate HALTs is kept (R449, R452, R463). -/
def State.showHealth (s : State) : State :=
  let t := s.health.t / 2 ^ 16
  let l := s.healthL
  let e := s.healthE
  let score := healthScore t l e
  let day := s.lateDay
  let base := decide (1000 ≤ day.length)
  let lateq := if base then min 1023 ((day.filter (fun x => x.2)).length * 1024 / day.length) else 0
  let rate := (s.health.transients.filter (fun x => decide (s.now < x + 3600 * 1000000000))).length
  let s := s.setReg Csr.hltScore (Word.placeBit s.flash.unproven 63 ||| Word.placeBit (!base) 62 ||| Word.place (healthBand score) 2 56 |||
    Word.place lateq 10 32 ||| Word.place score 10 0)
  let dup := s.fld Csr.hltComp 47 40
  s.setReg Csr.hltComp (Word.place (min 65535 rate) 16 48 ||| Word.place dup 8 40 ||| Word.place t 10 30 ||| Word.place l 14 16 ||| Word.place e 14 2)

/-- HEALTH_EVALUATION: every 60 s T decays and takes the new contributions, L and E are computed, the score follows; event 0x1A at a change of band
(R449 to R452). -/
def execHealthEvaluation (s : State) : Host.Outcome State Fault Refusal :=
  if !s.pipRuns then .next s
  else
    let band := s.fld Csr.hltScore 57 56
    let s : State := { s with health := { s.health with
      t := min tMax (tDecay s.health.t + s.health.added * 2 ^ 16), added := 0
      transients := s.health.transients.filter (fun x => decide (s.now < x + 3600 * 1000000000))
      lasting := s.health.lasting.filter (fun t => decide (s.now < t + thirtyDays))
      late := s.lateDay } }
    let s := s.showHealth
    .next (if s.fld Csr.hltScore 57 56 = band then s else s.raise 0x1A [s.reg Csr.hltScore])

/-- HEALTH_JOURNAL: every hour T, L and the list of lasting faults go to the journal, from which a boot restores them (R450, R460). -/
def execHealthJournal (s : State) : Host.Outcome State Fault Refusal :=
  if !s.pipRuns then .next s
  else
    let h := s.health
    let body : List Word := [BitVec.ofNat 64 h.t, BitVec.ofNat 64 s.healthL] ++ (h.lasting.map (fun t => BitVec.ofNat 64 t)).take 12
    .next (State.journalAdd { s with flash := { s.flash with jrnT := h.t, jrnLasting := h.lasting } } 7 body)

end Sys2Proof.Machine
end

