-- ==== Sys2Proof/Machine/MemorySystem.lean ====
section
/-! DEFINITION. The die-to-die link, patrol scrub, channels that stop answering, refresh, zeroing of windows (spec/01 R19, R20; 08 R229, R233, R235,
R236, R241, R243, R244; 16 R478). -/

namespace Sys2Proof.Machine

/-- An event that the spec requires and gives no code: its code is a free value (log 31). -/
def State.raiseUncoded (s : State) (record : List Word) : State := s.drew.raise (s.free.toNat % 256) record

/-! ### Die-to-die link (R19, R20) -/

/-- D2D_CRC_REPLAY: a transfer of direction d fails its CRC and is replayed; a drill on that half has been detected and recovered by it (R19,
R453). -/
def execD2dCrcReplay (d : Fin 2) (s : State) : Host.Outcome State Fault Refusal :=
  if !s.mainOn then .next s
  else
    let s := s.bump (Csr.d2dCnt d.val) 31 0 1
    .next (if s.drillArmed 10 d.val false then (s.drillDrop 10 d.val).drillPass 10 else s)

/-- Lane position l of a group carries traffic: an active lane, or a spare that stands in for a failed one; spares come into service in ascending
order. -/
def laneInService (w : Word) (l : Nat) : Bool :=
  let used := ((List.range 32).filter (fun k => w.bit k)).length
  !w.bit l && (decide (l < 32) || decide (used = 2) || (decide (used = 1) && (l == 32 || w.bit 32)))

/-- Every lane group of one direction is disabled: every job halts with a lasting fault (R20). R442's table of causes has no row for it: cause 2, no location, no
detail (log 38). -/
def State.linkLost (s : State) : State := (s.setBit Csr.d2dStat 63 true).haltAll 2

/-- D2D_LANE_FAIL: a lane fails in service. With a spare left it is substituted; otherwise the group is disabled and traffic goes over the others
(R20, R449, R478). -/
def execD2dLaneFail (d : Fin 2) (g : Fin 20) (l : Fin 34) (s : State) : Host.Outcome State Fault Refusal :=
  let o := Csr.d2dLane d.val g.val
  let w := s.reg o
  if !s.mainOn ∨ w.bit l.val then .next s
  else
    let info : List Word := [Word.place d.val 1 16 ||| Word.place g.val 5 8 ||| Word.place l.val 6 0]
    let was := w.bit 63
    let s := (s.setBit o l.val true).syncGroup d.val g.val
    let down := (s.reg o).bit 63
    let s :=
      if down && !was then (s.bump (Csr.d2dCnt d.val) 47 32 1).raiseUncoded info
      else if !down && laneInService w l.val then ((s.bump (Csr.d2dCnt d.val) 63 48 1).healthAdd 10).raiseUncoded info
      else s
    let s := s.syncLink
    .next (if down && !was && s.groupsUp d.val == 0 then s.linkLost else s)

/-! ### Scrub and channels (R233, R236) -/

/-- The address at which a scrub read finds an error. -/
def errAddr : MemErr → Option Nat
  | .none => Option.none
  | .corrected a => some a
  | .reread a => some a
  | .persistent a => some a
  | .pinFail a => some a

/-- The half whose memory holds an address: cores 0 to 15 and stacks 0 to 3 are H0. -/
def State.memoryHalf (s : State) (a : Nat) : Nat :=
  match sramOwner a, s.hbmPlace a with
  | some n, _ => n / 16
  | none, some (k, _, _) => k / 4
  | none, none => 0

/-- PATROL_SCRUB: the scrub reads the word or granule at an address: a corrected word is written back, an uncorrectable one poisons and marks and
halts nothing; a drill waiting in that half is found as a corrected error (R235, R236, R453). SCRUB = 0 disables the HBM patrol. -/
def execPatrolScrub (addr : Nat) (err : MemErr) (s : State) : Host.Outcome State Fault Refusal :=
  let inHbm := decide (hbmBase ≤ addr)
  let kind := if inHbm then 8 else 7
  let half := s.memoryHalf addr
  let there := if inHbm then (s.hbmPlace addr).isSome && s.fld Csr.memCtl 23 16 != 0
    else match sramOwner addr with | some n => s.corePresent n | none => false
  if !s.mainOn ∨ !there then .next s
  else
    match errAddr err with
    | none =>
      if s.drillArmed kind half false then .next ((((s.drillDrop kind half).drillFired kind).memError (.corrected addr)).drillPass kind)
      else .next s
    | some a => if a / 4096 = addr / 4096 then .next (s.memError err) else .next s

/-- CHANNEL_NOT_ANSWERING: 16 accesses in a row had no response within 10 µs: each job whose access it was halts with event 0x23, and the channel is
marked (R233). The address is that of the last access. -/
def execChannelNotAnswering (addr : Nat) (jobs : List Word) (s : State) : Host.Outcome State Fault Refusal :=
  match s.hbmPlace addr with
  | none => .next s
  | some (k, c, _) =>
    if !s.mainOn then .next s
    else
      let s := (jobs.filter (fun j => (s.job? j).isSome)).foldl (fun (t : State) j =>
        (t.raiseJob 0x23 j [BitVec.ofNat 64 addr]).askHalt (memoryHalt j t.ft addr (some k))) s
      .next (s.markChannel k c)

/-! ### Refresh (R241) -/

/-- The refresh code of a temperature in 1/16 °C against thresholds in °C: ×1 up to the first, ×2 up to the second, ×4 above. -/
def refreshCode (t : Int) (first second : Int) : Nat := if t ≤ 16 * first then 0 else if t ≤ 16 * second then 1 else 2

/-- The refresh code that a temperature in 1/16 °C calls for when it rises (R241, R398). -/
def refreshUp (t : Int) : Nat := refreshCode t 85 95

/-- The refresh code allowed once the temperature has stayed 2 °C below a threshold. -/
def refreshDown (t : Int) : Nat := refreshCode t 83 93

/-- Stack k takes a refresh rate, with its event (R241). -/
def State.setRefresh (s : State) (k r : Nat) : State :=
  (s.setFld (Csr.hbmStat k) 55 54 r).raise 0x28 [Word.place k 3 8 ||| Word.place r 2 0]

/-- REFRESH_RATE_RAISE: the sensor of stack k has crossed a threshold upward (R241). -/
def execRefreshRateRaise (k : Fin 8) (s : State) : Host.Outcome State Fault Refusal :=
  let r := refreshUp (s.siteTemp (32 + k.val))
  if s.mainOn ∧ s.stackPresent k.val ∧ s.fld (Csr.hbmStat k.val) 55 54 < r then .next (s.setRefresh k.val r) else .next s

/-- REFRESH_RATE_LOWER: the sensor of stack k has stayed 2 °C below a threshold for 100 ms (R241). -/
def execRefreshRateLower (k : Fin 8) (s : State) : Host.Outcome State Fault Refusal :=
  let r := refreshDown (s.siteTemp (32 + k.val))
  if s.mainOn ∧ s.stackPresent k.val ∧ r < s.fld (Csr.hbmStat k.val) 55 54 then .next (s.setRefresh k.val r) else .next s

/-! ### Windows (R229) -/

/-- WINDOW_ZEROING_DONE: the zeroing of one granted window of a job completes: every byte of it reads zero. -/
def execWindowZeroingDone (job : Word) (w : Fin 16) (s : State) : Host.Outcome State Fault Refusal :=
  match s.job? job with
  | none => .next s
  | some j =>
    match j.windows[w.val]? with
    | none => .next s
    | some x =>
      if x.zeroed then .next s
      else
        let j := { j with windows := j.windows.set w.val { x with zeroed := true } }
        .next ((s.clearRange x.base x.size).putJob j)

end Sys2Proof.Machine
end

