-- ==== Sys2Proof/Machine/Boot.lean ====
section
/-! DEFINITION. The module's edges and its boot: auxiliary and main power, RESET_N, the main boot's stages, READY or HELD, the watchdog, recovery
(spec/17 R483 to R489, R496, R498; 14 R417, R423 to R427, R431, R432; 13 R377, R403; 01 R19, R20; 09 R250, R251; 16 R475, R478). -/

namespace Sys2Proof.Machine

/-! ### Power and RESET_N (R484 to R489, R498) -/

/-- Main power starts when nothing holds it off: in STANDBY with the firmware running the main boot begins; recovery goes on; in TRIPPED once cool enough
a boot with CAUSE 4 begins (R403, R424, R427, R432, R487, R498). -/
def State.tryMain (s : State) : State :=
  if !s.mainAllowed ∨ s.pins.pwrGood then s
  else if s.boot.recovering then
    if s.mayRecover then State.setMstate { s with pins := { s.pins with pwrGood := true } } mBoot else s
  else if s.mstate = mTripped then (if s.coolEnough then s.startBoot 4 else s)
  else if s.mstate = mStandby ∧ s.running.isSome then s.mainUp
  else s

/-- Main power goes off under R488 when it is on. -/
def State.losePower (s : State) : State := if s.pins.pwrGood then s.mainDown mStandby else s

/-- AUX_POWER_APPLIED: Pip runs: the slot strap is sampled, fabric time goes on from flash, the germ loader checks the image: CAUSE 0 (R409, R423, R483,
R487). `elapsed` is the always-on domain's count of ns since the last shutdown. With RESET_N low the boot waits for its release. -/
def execAuxPowerApplied (slot : BitVec 6) (elapsed : Nat) (s : State) : Host.Outcome State Fault Refusal :=
  if s.pins.aux then .next s
  else
    let s : State := { s with
      pins := { s.pins with aux := true, slotId := slot, pwrGood := false, thermTrip := s.flash.held }
      ft := if s.flash.calOk then s.flash.savedFt + BitVec.ofNat 64 elapsed else 0
      ring := { s.ring with heardAt := s.now } }
    let s := s.setReg Csr.pipUptime 0
    .next (if s.pins.resetLow then s.setMstate mStandby else s.startBoot 0)

/-- AUX_POWER_LOST: main rails off, OFF (R427, R498). The by-pass closes with BYPASS_CLOSE. -/
def execAuxPowerLost (s : State) : Host.Outcome State Fault Refusal :=
  if !s.pins.aux then .next s
  else
    let s := s.mainOff.setReg Csr.pipStat 0
    .next ({ s with
      pins := { s.pins with aux := false, pwrGood := false, thermTrip := false }, running := none
      boot := { s.boot with recovering := false, watchdog := false, waiting := false } }.setFld Csr.powStat 63 60 mOff)

/-- MAIN_EN_HIGH: a rising edge ends the hold after an overvoltage when the input is in range; main power starts where nothing holds it off (R485, R487,
R498). -/
def execMainEnHigh (s : State) : Host.Outcome State Fault Refusal :=
  if s.pins.mainEn then .next s
  else .next (State.tryMain { s with pins := { s.pins with mainEn := true, needEdge := s.pins.needEdge && !s.pins.mainIn } })

/-- MAIN_EN_LOW (R427, R488). -/
def execMainEnLow (s : State) : Host.Outcome State Fault Refusal :=
  .next (State.losePower { s with pins := { s.pins with mainEn := false } })

/-- MAIN_INPUT_IN_RANGE: the 48 V input enters its range (R485, R487). -/
def execMainInputInRange (s : State) : Host.Outcome State Fault Refusal := .next (State.tryMain { s with pins := { s.pins with mainIn := true } })

/-- INPUT_UNDERVOLTAGE: below 38 V for 1 ms: as MAIN_EN low (R485). -/
def execInputUndervoltage (s : State) : Host.Outcome State Fault Refusal := .next (State.losePower { s with pins := { s.pins with mainIn := false } })

/-- INPUT_OVERVOLTAGE: above 62 V for 100 µs: as MAIN_EN low, and main power stays off until MAIN_EN is next driven high with the input below 60 V (R485). -/
def execInputOvervoltage (s : State) : Host.Outcome State Fault Refusal :=
  .next (State.losePower { s with pins := { s.pins with mainIn := false, needEdge := true } })

/-- RESET_N_LOW: Pip and the main domain are held in reset: lasers off, nothing runs, PWR_GOOD keeps its level; with main power on the module is in BOOT; no
supervisory frame is sent (R423, R489). -/
def execResetNLow (s : State) : Host.Outcome State Fault Refusal :=
  if s.pins.resetLow then .next s
  else
    let s : State := { s with pins := { s.pins with resetLow := true } }
    if !s.pins.aux then .next s
    else
      let m := if s.pins.pwrGood then mBoot else if s.mstate = mTripped then mTripped else mStandby
      let s := s.mainOff
      .next ({ s with running := none, boot := { s.boot with recovering := false, watchdog := false, waiting := false } }.setFld Csr.powStat 63 60 m)

/-- RESET_N_RELEASE: a boot with CAUSE 1 (R423, R489). -/
def execResetNRelease (s : State) : Host.Outcome State Fault Refusal :=
  if !s.pins.resetLow then .next s
  else
    let s : State := { s with pins := { s.pins with resetLow := false } }
    .next (if s.pins.aux then s.startBoot 1 else s)

/-! ### The main boot (R424, R425, R427) -/

/-- Stage 1, configuration, calibration and identity: what is lost is cleared and reported; a first boot is one without valid calibration (R409, R425, R427,
R458). -/
def State.bootFlash (s : State) (f : BootFindings) : State :=
  let cfg := f.configOk && s.flash.cfgOk
  let cal := f.calOk && s.flash.calOk
  let fl := s.flash
  let fl : Flash := if cfg then fl else { fl with cfgOk := false, keys := [], ckeys := 0, ringKey := false, recovery := none, ilv := 0, ports := [], vlans := [] }
  let fl : Flash := if cal then fl else { fl with calOk := false, powCal := false, points := 0, jrnT := 0, jrnLasting := [], unproven := true }
  let s : State := { s with flash := fl, plan := if cfg then s.plan else none }
  let s : State := if cal then s else { s with
    ft := 0, power := Power.atReset false
    health := { s.health with t := 0, added := 0, transients := [], lasting := [], late := [] } }
  let s := s.setReg Csr.secStat (s.secWord f.pufOk)
  let s := s.drew.setReg Csr.secDbgNonce s.free
  let s := s.setBit Csr.fwStat 50 (!cal)
  let s := if cal then s else s.setFld Csr.drlStat 11 0 0
  let s := if cfg then s else s.raise 0x65 []
  let s := if f.pufOk then s else s.raise 0x64 []
  if cal then s else s.raise 0x78 []

/-- A level that stays in force when the firmware supports it, else the nearest it supports (R51, R293). -/
def keepLevel (cur lo hi : Nat) : Nat := max lo (min hi cur)

/-- The chip ID that the plan gives this device: its own identity among the entries, the lowest position first; none without one, but 0 on an HJ-LD9200-N (R250,
R251). -/
def State.ownChip (s : State) : Option Nat :=
  if !(s.reg Csr.secStat).bit 55 then none
  else
    match s.plan with
    | none => none
    | some p => ((p.entries.filter (fun e => e.2 != 0 && e.2 == s.flash.identity)).map (fun e => e.1)).min?

/-- The registers of identity, versions and levels (R51, R250, R251, R293, R439, R475). -/
def State.bootIdentity (s : State) (i : Image) : State :=
  let s := s.setReg Csr.devId (Word.place 0x484A 16 48 ||| Word.place 0x9200 16 32 |||
    Word.place (match s.part.variant with | .f => 0 | .h => 1 | .n => 2) 8 24 ||| Word.place s.part.stepping.toNat 8 16)
  let s := (List.range 2).foldl (fun (t : State) k => t.setReg (Csr.serial k) (BitVec.ofNat 64 (s.part.serial.toNat / 2 ^ (64 * k)))) s
  let id := digestBytes s.flash.identity
  let s := (List.range 4).foldl (fun (t : State) k => t.setReg (Csr.secIdHash k) (BitVec.ofNat 64 (natOfBytes ((id.drop (8 * k)).take 8)))) s
  let s := s.setReg Csr.fwVer (Word.place i.major 16 48 ||| Word.place i.minor 16 32 ||| Word.place i.patch 16 16 ||| Word.place i.svn 16 0)
  let (nx, ny, ver, perm) := match s.plan with | some p => (p.nx, p.ny, p.ver.toNat, p.perm) | none => (0, 0, 0, false)
  let chip := s.ownChip
  let s := s.setReg Csr.fabId (Word.placeBit chip.isSome 63 ||| Word.place ny 7 48 ||| Word.place nx 7 40 ||| Word.place ver 16 16 ||| Word.place (chip.getD 0) 16 0)
  let s := s.setReg Csr.fabLvl (Word.placeBit perm 16 ||| Word.place i.fplmin 8 8 ||| Word.place i.fpl 8 0)
  let s := s.setReg Csr.clLvl (Word.place i.cplmax 8 16 ||| Word.place i.cplmin 8 8 ||| Word.place (keepLevel (s.fld Csr.clLvl 7 0) i.cplmin i.cplmax) 8 0)
  s.setReg Csr.capNl (Word.place (keepLevel (s.fld Csr.capNl 23 16) i.nlmin i.nlmax) 8 16 ||| Word.place i.nlmax 8 8 ||| Word.place i.nlmin 8 0)

/-- A wavelength whose laser failed and was not swapped before the reset: a spare feeds it from now on, or with none left it is dark, with event 0x46 (R331,
R332). -/
def State.refeed (s : State) (c k : Nat) : State :=
  let m := s.feed c k
  if m = 15 || s.flash.outOfUse.toList.getD (12 * c + m) 0 == 0 then s
  else
    match s.freeSpares c with
    | j :: _ => s.setFeed c k (j - 12 * c)
    | [] => (s.setFeed c k 15).raise 0x46 [Word.place k 3 8 ||| Word.place c 1 0]

/-- The lasers of the host ports, and ports that are dark for good, as flash keeps them (R335). -/
def State.bootHosts (s : State) : State :=
  (List.range 8).foldl (fun (t : State) j =>
    let u := s.flash.hostUse.toList.getD j 0
    let t := t.setFld (Csr.hoptStat j) 59 56 (u % 3)
    if 3 ≤ u then t.setFld (Csr.hoptStat j) 63 60 4 else t) s

/-- One cartridge's memory is read: a new serial number restores its feeds and spares; an absent or invalid one leaves its half dark, event 0x49 (R313, R314,
R496). -/
def State.bootCart (s : State) (c : Nat) (present valid : Bool) (serial : BitVec 32) (hours : BitVec 16) (bol : List Nat)
    (power : List (BitVec 16)) : State :=
  if !s.hasCarts ∨ (c = 1 ∧ s.h1Lost) then s
  else
    let s := s.setReg (Csr.cartInfo c) (Word.placeBit present 63 ||| Word.placeBit (present && valid) 62 |||
      (if present then Word.place serial.toNat 32 16 ||| Word.place hours.toNat 16 0 else 0))
    if !(present && valid) then s.raise 0x49 [BitVec.ofNat 64 c]
    else
      let f := s.flash
      let new := decide (f.cartSerial.toList.getD c 0 ≠ serial)
      let f : Flash := if new then { f with
          cartSerial := f.cartSerial.setIfInBounds c serial, wmap := f.wmap.setIfInBounds c 0x7654_3210
          outOfUse := Vector.ofFn (fun i => if i.val / 12 = c then 0 else f.outOfUse[i]) }
        else f
      let s : State := { s with flash := f, hull := { s.hull with
          bol := Vector.ofFn (fun i => if i.val / 12 = c then bol.getD i.val 0 else s.hull.bol[i])
          bolPower := Vector.ofFn (fun i => if i.val / 12 = c then power.getD i.val 0 else s.hull.bolPower[i]) } }
      let s := s.setReg (Csr.cartWmap c) ((f.wmap.toList.getD c 0).zeroExtend 64)
      let s := (List.range 12).foldl (fun (t : State) m =>
        let i := 12 * c + m
        let t := t.setFld (Csr.lasStat i) 63 60 (f.outOfUse.toList.getD i 0)
        t.setFld (Csr.lasBias i) 63 48 (bol.getD i 0)) s
      (List.range 8).foldl (fun (t : State) k => t.refeed c k) s

/-- A port's half is present and the port exists on the variant (R20, R254). -/
def State.portHere (s : State) (p : Nat) : Bool := portPresent s.part.variant p && !(s.h1Lost && portHalf p)

/-- Lanes and paths of the ports `ps` at the start of a main boot: ABSENT, DARK, or off and DOWN (R20, R251, R254, R314, R332). -/
def State.bootLanes (s : State) (ps : List Nat) : State :=
  (ps.flatMap (fun p => (List.range 8).map (fun k => 8 * p + k))).foldl (fun (t : State) i =>
    if !t.portHere (i / 8) then (t.setReg (Csr.optLane i) (Word.place laneAbsent 4 60)).setReg (Csr.fabPath i) (Word.place pathAbsent 4 60)
    else if t.waveDark (laneCart i) (i % 8) then (t.setReg (Csr.optLane i) (Word.place laneDark 4 60)).setReg (Csr.fabPath i) (Word.place pathDark 4 60)
    else (t.setReg (Csr.optLane i) 0).setReg (Csr.fabPath i) 0) s

/-- CAP_FABRIC_MASK and CAP_UNIT (R475). -/
def State.bootCaps (s : State) : State :=
  let bits (l : List Nat) : Nat := l.foldl (fun w k => w + 2 ^ k) 0
  let fab := bits ((List.range 16).filter (fun p => s.portHere p))
  let svc := if s.h1Lost then 0x0F else 0xFF
  let carts := bits ((List.range 2).filter (fun c => s.hasCarts && s.cartGood c))
  let hosts := bits ((List.range 8).filter (fun j => s.hostPresent j))
  let stackBits := bits ((List.range 8).filter (fun k => (List.range 32).any (fun c => s.channelGood k c)))
  (s.setReg Csr.capFabricMask (Word.place fab 16 0)).setReg Csr.capUnit
    (Word.place svc 8 24 ||| Word.place carts 2 16 ||| Word.place hosts 8 8 ||| Word.place stackBits 8 0)

/-- Stage 1: the die resets are released: flash, identity, cartridges and lanes (R314, R424, R425, R427). -/
def State.bootStart (s : State) (f : BootFindings) (i : Image) : State :=
  let s := (s.bootFlash f).bootIdentity i
  let s := s.setFld Csr.memCtl 1 0 s.flash.ilv
  let bol := f.bol.toList
  let pow := f.bolPower.toList
  let s := s.bootCart 0 f.cartPresent.1 f.cartValid.1 f.cartSerial.1 f.cartHours.1 bol pow
  let s := s.bootCart 1 f.cartPresent.2 f.cartValid.2 f.cartSerial.2 f.cartHours.2 bol pow
  (s.bootHosts.bootLanes (List.range 16)).syncHull

/-- Stage 2: the lane test: a failed lane is recorded, one that passes is good again; without a group of 32 passing lanes in each direction H1 is absent,
else present (R20, R478). An event tells of lanes that failed training (log 31). -/
def State.bootLink (s : State) (f : BootFindings) : State :=
  let fresh := f.laneFails.filter (fun x => !(s.reg (Csr.d2dLane x.1 x.2.1)).bit x.2.2)
  let inRange (x : Nat × Nat × Nat) : Bool := decide (x.1 < 2) && decide (x.2.1 < 20) && decide (x.2.2 < 34)
  let s := (f.lanePasses.filter inRange).foldl (fun (t : State) x => t.setBit (Csr.d2dLane x.1 x.2.1) x.2.2 false) s
  let s := (f.laneFails.filter inRange).foldl (fun (t : State) x => t.setBit (Csr.d2dLane x.1 x.2.1) x.2.2 true) s
  let s := ((List.range 40).foldl (fun (t : State) i => t.syncGroup (i / 20) (i % 20)) s).syncLink
  let s := s.setBit Csr.d2dStat 63 false
  let lost := decide (s.groupsUp 0 = 0) || decide (s.groupsUp 1 = 0)
  let was := s.h1Lost
  let s : State := { s with h1Lost := lost }
  let s : State := { s with cores := Vector.ofFn (fun n =>
    let c := s.cores[n]
    if !s.corePart n.val then { Core.atReset with run := .absent } else if c.run = .absent then Core.atReset else c) }
  let half := (List.range 16).filter portHalf
  let s :=
    if lost = was then s
    else if lost then (((s.setReg (Csr.cartInfo 1) 0).setReg (Csr.cartWmap 1) 0).bootLanes half).syncHull
    else ((s.bootCart 1 f.cartPresent.2 f.cartValid.2 f.cartSerial.2 f.cartHours.2 f.bol.toList f.bolPower.toList).bootLanes half).syncHull
  fresh.foldl (fun (t : State) x => t.raiseUncoded [Word.place x.1 1 16 ||| Word.place x.2.1 5 8 ||| Word.place x.2.2 6 0]) s

/-- Stage 4: the self-test of every present core: pass is GATED, fail is FENCED (R85, R424). -/
def State.bootCores (s : State) (f : BootFindings) : State :=
  { s with cores := Vector.ofFn (fun n =>
      let c := s.cores[n]
      if c.run = .absent then c else { c with run := if f.coreFails.getLsbD n.val then .fenced else .gated }) }

/-- BOOT_STAGE_DONE: the next row of the boot table completes, with what its tests find (R424). Rows 3, 6, 7 and 8 (HBM training starts, lasers locked, ports
locked, discovery complete) add no more than their place: lasers, lanes and discovery have commands of their own. -/
def execBootStageDone (f : BootFindings) (s : State) : Host.Outcome State Fault Refusal :=
  match s.running with
  | none => .next s
  | some i =>
    if s.mstate ≠ mBoot ∨ !s.pins.pwrGood ∨ s.pins.resetLow ∨ s.boot.recovering ∨ 8 ≤ s.boot.stage then .next s
    else
      let k := s.boot.stage + 1
      let s : State := { s with boot := { s.boot with stage := k } }
      .next (if k = 1 then s.bootStart f i
        else if k = 2 then s.bootLink f
        else if k = 4 then s.bootCores f
        else if k = 5 then (s.testChannels f.chanFails).bootCaps
        else s)

/-! ### READY or HELD (R377, R417, R424, R426) -/

/-- Every present lane has made its first lock attempt. -/
def State.lanesTried (s : State) : Bool :=
  (List.range 128).all (fun i =>
    [laneAbsent, laneDark, laneLocked, laneRelock].contains (s.laneState i))

/-- The power manager's registers when operation begins: ceilings at PS3, no pause, the cap as the budget (R385, R387, R391). -/
def State.powerStart (s : State) : State :=
  let s := s.setReg Csr.powStat (Word.place s.mstate 4 60 ||| Word.place 3 4 56 ||| Word.place 64 7 49 ||| Word.placeBit (!s.power.calibrated) 48 |||
    Word.placeBit true 46 ||| Word.place (s.fld Csr.powCtl 15 0) 12 24)
  (List.range 32).foldl (fun (t : State) n =>
    if t.corePresent n then t.setReg (Csr.powCore n) (Word.place 3 4 60 ||| Word.place 3 4 56 ||| Word.place 3 4 52) else t) s

/-- BOOT_COMPLETE: the runtime accepts messages: READY, or HELD after an unresumed thermal shutdown or without an identity; the watchdog stops; the fused
security version rises when the image asks for it; calibration is valid; events 0x70, 0x58, 0x66 (R377, R403, R404, R417, R424, R426, R483). -/
def execBootComplete (s : State) : Host.Outcome State Fault Refusal :=
  match s.running with
  | none => .next s
  | some i =>
    if s.mstate ≠ mBoot ∨ !s.pins.pwrGood ∨ s.pins.resetLow ∨ s.boot.stage ≠ 8 ∨ !s.lanesTried then .next s
    else
      let held := s.flash.held || !(s.reg Csr.secStat).bit 55
      let ms := min 65535 ((s.now - s.boot.since) / 1000000)
      let raise := i.raiseSvn && decide (s.flash.svn < i.svn)
      let s : State := { s with
        boot := { s.boot with watchdog := false }
        pins := { s.pins with thermTrip := false }
        flash := { s.flash with wdf := 0, calOk := true, svn := if raise then i.svn else s.flash.svn } }
      let s := s.powerStart.setMstate (if held then mHeld else mReady)
      let s := ((s.setFld Csr.fwStat 47 32 ms).setFld Csr.fwStat 55 54 0).syncSec.showHealth
      let s := s.raise 0x70 [s.pins.slotId.zeroExtend 64]
      let s := if held then s.raise 0x58 [1] else s
      .next (if raise then s.raise 0x66 [BitVec.ofNat 64 i.svn] else s)

/-- BOOT_WATCHDOG: 60 s after handoff without READY or HELD the module resets with CAUSE 3 and the expiry is counted (R426). -/
def execBootWatchdog (s : State) : Host.Outcome State Fault Refusal :=
  if s.boot.watchdog ∧ s.mstate = mBoot ∧ !s.pins.resetLow ∧ s.boot.since + 60000000000 ≤ s.now then
    let s : State := { s with flash := { s.flash with wdf := s.flash.wdf + 1 } }
    .next ((s.raise 0x77 []).startBoot 3)
  else .next s

/-! ### Recovery (R431, R432) -/

/-- A fetch or its check has failed: the next of A0, B0, A2, B2; after a round a wait of 1 s, doubled up to 60 s (R432). -/
def State.nextPort (s : State) : State :=
  let b := s.boot
  if b.port < 3 then { s with boot := { b with port := b.port + 1 } }
  else { s with boot := { b with port := 0, waiting := true, waitFrom := s.now, waitSec := if b.waitSec = 0 then 1 else min 60 (2 * b.waitSec) } }

/-- The host port of an attempt of recovery: A0, B0, A2, B2 (R432). -/
def recoveryPort (k : Nat) : Nat := if k = 0 then 0 else if k = 1 then 4 else if k = 2 then 2 else 6

/-- The recovery server of a valid configuration; without one DHCP names the server (R431). -/
def Flash.recoveryServer (f : Flash) : Option (List Byte) := if f.cfgOk then f.recovery else none

/-- RECOVERY_FETCH: an attempt on the present port ends with an image or without one; a good image is written; a failed check raises event 0x71 with its reason
(R416, R431, R432). -/
def execRecoveryFetch (image : Option Image) (s : State) : Host.Outcome State Fault Refusal :=
  if !s.boot.recovering ∨ s.boot.waiting ∨ !s.pins.pwrGood ∨ s.update.isSome then .next s
  else
    let s := s.emit (.fetchImage (recoveryPort s.boot.port) s.flash.recoveryServer)
    match image with
    | none => .next s.nextPort
    | some i =>
      match imageReason i s.flash with
      | 0 => .next (State.setFld { s with update := some { target := 0, body := .image i, repeated := false } } Csr.fwStat 53 52 3)
      | r =>
        let s : State := { s with flash := { s.flash with badr := r } }
        .next ((s.setFld Csr.fwStat 59 56 r).raise 0x71 [BitVec.ofNat 64 r]).nextPort

/-- RECOVERY_ROUND_WAIT: the wait after a full round of failures ends (R432). -/
def execRecoveryRoundWait (s : State) : Host.Outcome State Fault Refusal :=
  if s.boot.recovering ∧ s.boot.waiting ∧ s.boot.waitFrom + s.boot.waitSec * 1000000000 ≤ s.now then
    .next { s with boot := { s.boot with waiting := false } }
  else .next s

/-- RECOVERY_IMAGE_WRITTEN: written and read back: event 0x73 and a reset with CAUSE 5; a read-back mismatch repeats the write once, a second one fails the
attempt (R430, R432). -/
def execRecoveryImageWritten (ok : Bool) (s : State) : Host.Outcome State Fault Refusal :=
  match s.boot.recovering, s.update with
  | true, some u =>
    match u.body with
    | .image i =>
      if ok then
        let s : State := { s with update := none, flash := { s.flash with slot := some i, wdf := 0 } }
        .next ((s.raise 0x73 []).startBoot 5)
      else if u.repeated then
        .next (State.setFld { s with update := none, flash := { s.flash with slot := none } } Csr.fwStat 53 52 0).nextPort
      else .next { s with update := some { u with repeated := true } }
    | _ => .next s
  | _, _ => .next s

end Sys2Proof.Machine
end

