-- ==== Sys2Proof/Machine/Reliability.lean ====
section
/-! DEFINITION. Halts between chips, retention, drills, the acquittal test (spec/15 R442 to R447, R453 to R457, R460, R461; 07 R219). -/

namespace Sys2Proof.Machine

/-! ### Halts (R442, R443) -/

/-- JOB_HALT: the oldest halt cause on this device stops its job here and goes to the halt set (R443, R446). A cause of a job that no longer is here has no
further effect (R461). -/
def execJobHalt (s : State) : Host.Outcome State Fault Refusal :=
  match s.halts with
  | [] => .next s
  | h :: rest => .next (State.originHalt { s with halts := rest } h).afterJob

/-- HALT: a HALT record arrives: the first for a job stops it here, relayed along the own column by a chip of the origin's row; later ones are counted in
DUPH; one for a job that was never here is ignored (R443, R461). -/
def execHalt (m : HaltMsg) (s : State) : Host.Outcome State Fault Refusal :=
  if !s.serving then .next s
  else
    match s.job? m.job with
    | none => .next (if s.halted.contains m.job then s.bump Csr.hltComp 47 40 1 else s)
    | some j =>
      let relay := chipY m.origin.toNat == chipY s.chip && m.origin.toNat != s.chip
      let s := if relay then s.sendHalt m false else s
      .next (s.haltJob j { m with flags := m.flags / 2 * 2 }).afterJob

/-- PEER_LOST: every path to and from a chip of the job's halt set has been DOWN for 50 ms (R442). The duration and the paths between other chips are the
command's evidence; that no direct path of this chip to it is usable is checked. -/
def execPeerLost (job : Word) (chip : BitVec 16) (s : State) : Host.Outcome State Fault Refusal :=
  if s.serving ∧ (s.job? job).isSome ∧ (s.haltSet job).contains chip.toNat ∧ chip.toNat ≠ s.chip ∧ (s.hopPaths s.chip chip.toNat).isEmpty then
    .next (s.originHalt { job := job, cause := 10, detail := 0, loc := 0, ft := s.ft, fenced := false }).afterJob
  else .next s

/-- RETENTION_END: HLT_CTL.RETAIN minutes after the halt the retention of a window ends unused (R447). -/
def execRetentionEnd (job : Word) (base : Nat) (s : State) : Host.Outcome State Fault Refusal :=
  match s.retained.find? (fun r => r.job == job && r.base == base) with
  | some r => if r.since + s.fld Csr.hltCtl 7 0 * 60 * 1000000000 ≤ s.now then .next (s.endRetention r) else .next s
  | none => .next s

/-- EVENT_RATE_SECOND: at the end of a second the rate limits start again; withheld check events are reported by one event 0x18 (R219, R244, R303). -/
def execEventRateSecond (s : State) : Host.Outcome State Fault Refusal :=
  let n := s.checkWithheld
  let s : State := { s with checkRaised := 0, checkWithheld := 0, eccRaised := 0, lateRaised := 0, second := s.now / 1000000000 }
  .next (if n = 0 then s else s.raise 0x18 [BitVec.ofNat 64 n])

/-! ### Drills (R453 to R455) -/

/-- A unit is eligible for a kind: a core that is present and not FENCED, a present half, a present lane, a LOCKED lane (R454). -/
def State.drillUnit (s : State) (kind unit : Nat) : Bool :=
  if kind ≤ 6 then match s.cores[unit]? with | some c => c.run != .absent && c.run != .fenced | none => false
  else if kind = 9 then decide (unit < 128) && s.laneState unit != laneAbsent
  else if kind = 11 then decide (unit < 128) && s.laneState unit == laneLocked
  else decide (unit < 2) && !(unit == 1 && s.h1Lost)

/-- One PERIOD has passed since the last drill of a kind fell due at a unit; values below 60 s act as 60 (R454, R463). -/
def State.drillDue (s : State) (kind unit : Nat) : Bool :=
  !s.health.drilled.any (fun d => d.1 == kind && d.2.1 == unit && decide (s.now < d.2.2 + max 60 (s.fld Csr.drlCtl 55 32) * 1000000000))

/-- DRILL_FIRE: a drill of an enabled kind falls due at a unit, once per PERIOD: it waits for the unit's next work, or, of kinds 10 and 11, is injected at once
(R453, R454). -/
def execDrillFire (kind : Fin 12) (unit : Nat) (s : State) : Host.Outcome State Fault Refusal :=
  let k := kind.val
  if !s.serving ∨ s.fld Csr.drlCtl 11 0 / 2 ^ k % 2 = 0 ∨ !s.drillUnit k unit ∨ !s.drillDue k unit ∨
      s.drills.any (fun d => d.kind == k && d.unit == unit) then .next s
  else
    let s : State := { s with
      drills := s.drills ++ [{ kind := k, unit := unit, since := s.now, injected := false }]
      health := { s.health with drilled := (k, unit, s.now) :: s.health.drilled.filter (fun d => !(d.1 == k && d.2.1 == unit)) } }
    .next (if k = 10 ∨ k = 11 then s.drillFired k else s)

/-- The drill's fault may have gone undetected by now: 1 ms since the injection of kinds 5, 9, 10 and 11; for the others the injection lies in the work that
has just passed (R455). -/
def State.drillOver (s : State) (d : Drill) : Bool :=
  if d.kind = 5 ∨ d.kind = 9 then d.injected && decide (d.since + 1000000 ≤ s.now)
  else if d.kind = 10 ∨ d.kind = 11 then decide (d.since + 1000000 ≤ s.now)
  else true

/-- DRILL_ESCAPE: the expected outcome has not occurred: the unit is fenced as for a lasting fault, its job halts with cause DRILL_ESCAPE, L receives 400, event
0x19 and DRL_STAT.ESC; kinds 7 to 11 fence nothing and leave the module degraded (R455). `pair` names the adder pair that a drill of kind 6 has met. -/
def execDrillEscape (kind : Fin 12) (unit : Nat) (pair : Option (Fin 8 × Fin 32)) (s : State) : Host.Outcome State Fault Refusal :=
  match s.drills.find? (fun d => d.kind == kind.val && d.unit == unit) with
  | none => .next s
  | some d =>
    if !s.drillOver d then .next s
    else
      let k := kind.val
      let counted := d.injected || k == 10 || k == 11
      let s := if counted then s else s.drillFired k
      let s := ((s.drillDrop k unit).lastingAdd).bump Csr.drlStat 47 32 1
      let s :=
        if 7 ≤ k then { s with health := { s.health with escaped := true } }
        else
          match (List.finRange 32).find? (fun n => n.val == unit) with
          | none => s
          | some n =>
            let job := (s.cores[n]).job
            let fences := k != 5 && k != 6
            let s := if fences then s.modCore n (fun c => { c.arraysLeave s.now with run := .fenced }) else s
            let s := match k == 6, pair with | true, some (st, ch) => s.fenceAdder st.val ch.val | _, _ => s
            if job = 0 then s
            else s.askHalt { job := job, cause := 11, detail := 0, loc := 0, ft := s.ft, fenced := fences || (k == 6 && pair.isSome) }
      .next ((s.raise 0x19 [BitVec.ofNat 64 k, BitVec.ofNat 64 unit]).journalAdd 5 [BitVec.ofNat 64 k, BitVec.ofNat 64 unit])

/-! ### Acquittal test (R456, R457) -/

/-- ACQUIT: the test starts in READY with no job held; HELD in HELD, otherwise BUSY (R456). -/
def execAcquit (k : Fin 64) (s : State) : Host.Outcome State Fault Refusal :=
  .next (s.serve (.ningonus k) mtAcquit (fun s =>
    if s.mstate = mHeld then (s, plain stHeld)
    else if s.mstate ≠ mReady ∨ !s.jobs.isEmpty ∨ !s.admissions.isEmpty ∨ s.acquittal.isSome then (s, plain stBusy)
    else
      let s : State := { s with acquittal := some 0 }
      (s.setFld Csr.drlStat 63 58 16, plain stOk)))

/-- Units of a drill kind on this module. -/
def State.drillUnits (s : State) (kind : Nat) : Nat :=
  if kind ≤ 6 then ((List.range 32).filter (fun n => s.corePresent n)).length
  else if kind = 9 then ((List.range 128).filter (fun i => s.laneState i != laneAbsent)).length
  else if s.h1Lost then 1 else 2

/-- Every core that is GATED has been started; a FENCED one is started too and stays refused to jobs until the verdict. -/
def Core.acquitStart (now : Nat) (c : Core) : Core := if c.run = .gated then { c with run := .idle, idleSince := now } else c

/-- ACQUITTAL_STAGE_DONE: one of the first five rows of R456 finishes: the first starts every present core; the fifth has drilled every kind but 11 on every
eligible unit. -/
def execAcquittalStageDone (s : State) : Host.Outcome State Fault Refusal :=
  match s.acquittal with
  | none => .next s
  | some k =>
    if s.mstate ≠ mReady ∨ 5 ≤ k then .next s
    else
      let s : State := { s with acquittal := some (k + 1) }
      .next (
        if k = 0 then { s with cores := s.cores.map (fun c => c.acquitStart s.now) }
        else if k = 4 then (List.range 11).foldl (fun (t : State) d =>
          let n := t.drillUnits d
          ((t.bump (Csr.drlCnt d) 63 32 n).bump (Csr.drlCnt d) 31 0 n).setBit Csr.drlStat d true) s
        else s)

/-- A unit that fails the test is handled as a lasting fault in it (R216, R233, R240, R457). -/
def State.acquitFail (s : State) : FailedUnit → State
  | .core n => s.modCore n (fun c => if c.run = .absent then c else { c with run := .fenced })
  | .channel k c => s.markChannel k.val c.val
  | .adder k c => s.fenceAdder k.val c.val
  | .other => s

/-- ACQUITTAL_VERDICT: after the last row PASS: T is 0, the module is proven and no longer degraded by an escape, FENCED cores return to GATED; or FAIL in the row that
runs, L receives 400; event 0x1B, DRL_STAT, journal (R455, R457, R460). -/
def execAcquittalVerdict (fail : Option FailedUnit) (s : State) : Host.Outcome State Fault Refusal :=
  match s.acquittal with
  | none => .next s
  | some k =>
    if s.mstate ≠ mReady ∨ (fail.isNone ∧ k ≠ 5) then .next s
    else
      let s : State := { s with acquittal := none }
      match fail with
      | none =>
        let s : State := { s with
          health := { s.health with t := 0, added := 0, escaped := false }
          flash := { s.flash with unproven := false, jrnT := 0 }
          cores := s.cores.map (fun c => if c.run = .fenced then { c with run := .gated } else c) }
        let s := ((s.setBit Csr.hltScore 63 false).setFld Csr.hltComp 39 30 0).setFld Csr.drlStat 63 58 32
        .next ((s.raise 0x1B [2]).journalAdd 6 [2, 0])
      | some u =>
        let s := (s.acquitFail u).lastingAdd.setFld Csr.drlStat 63 58 (48 + (k + 1))
        .next ((s.raise 0x1B [3, BitVec.ofNat 64 (k + 1)]).journalAdd 6 [3, BitVec.ofNat 64 (k + 1)])

end Sys2Proof.Machine
end

