-- ==== Sys2Proof/Machine/Security.lean ====
section
/-! DEFINITION. RESET, UPDATE, ATTEST, ENROLL, the debug port and its token mailbox (spec/14 R416, R418 to R422, R428 to R430, R433 to R435, R437, R439;
16 R470, R477). -/

namespace Sys2Proof.Machine

/-! ### RESET (R430) -/

/-- A reset that waits takes place once no write is under way, or no job runs (R430). -/
def State.settleReset (s : State) : State := if s.resetWaits ∧ s.update.isNone then s.startBoot 2 else s.afterJob

/-- RESET: MODE 0 at once, MODE 1 when no job runs; one that arrives during a write waits for its end (R430). -/
def execReset (k : Fin 64) (mode : Byte) (s : State) : Host.Outcome State Fault Refusal :=
  .next (s.serve (.ningonus k) mtReset (fun s =>
    if mode = 0 then ({ s with resetWaits := true }, plain stOk)
    else if mode = 1 then ({ s with resetAfterJobs := true }, plain stOk)
    else (s, plain stMalformed))).settleReset

/-! ### UPDATE (R428 to R430) -/

/-- The reason for which UPDATE rejects an image: that of R416, but for a handover image, whose OSIG verifies by its own OKEY while an owner slot is free (R416,
R420). -/
def updateReason (i : Image) (f : Flash) : Nat :=
  let r := imageReason i f
  if r = 4 ∧ !i.okeyZero ∧ i.ownerSigOk ∧ f.owners.length < 4 then imageReason { i with okey := f.owner.getD 0 } f else r

/-- The body of UPDATE is well formed: TARGET, its reserved bytes and a clean reference. -/
def updateFormOk (b : List Byte) : Bool :=
  b.length == 128 && decide (bodyNat b 0 1 ≤ 2) && bodyNat b 1 31 == 0 && refClean b 64

/-- The largest object of a target (R428). -/
def updateLimit (target : Nat) : Nat := if target = 0 then 2 ^ 25 else 2 ^ 22

/-- The checks of a fetched object in the order of R429: DIGEST, FORMAT, BAD_SIG, DENIED, NL_MISMATCH; OK. -/
def State.updateStatus (s : State) (target : Nat) (o : FetchedObject) : Nat :=
  match target, o.body with
  | 0, .image i =>
    let r := updateReason i s.flash
    let nl := s.fld Csr.capNl 23 16
    let cpl := s.fld Csr.clLvl 7 0
    if !o.digestOk ∨ !i.digestOk then stDigest
    else if !o.formatOk ∨ !i.formatOk then stFormat
    else if 2 ≤ r ∧ r ≤ 5 then stBadSig
    else if i.svn < s.flash.svn then stDenied
    else if nl < i.nlmin ∨ i.nlmax < nl ∨ cpl < i.cplmin ∨ i.cplmax < cpl then stNlMismatch
    else stOk
  | 1, .settings _ => if !o.digestOk then stDigest else if !o.formatOk then stFormat else if !o.sigOk then stBadSig else stOk
  | 2, .plan _ => if !o.digestOk then stDigest else if !o.formatOk then stFormat else if !o.sigOk then stBadSig else stOk
  | _, _ => if !o.digestOk then stDigest else stFormat

/-- What an UPDATE answers, before the state that follows: malformed bodies, BUSY, NETWORK, then the object's checks (R428, R429). -/
def State.updateAnswer (s : State) (body : List Byte) (fetch : Option FetchedObject) : Nat :=
  let target := bodyNat body 0 1
  if !updateFormOk body then stMalformed
  else if updateLimit target < (refOf body 64).len then stTooLarge
  else if s.update.isSome ∨ s.resetAfterJobs then stBusy
  else
    match (if s.reaches (serverAt body 32) then fetch else none) with
    | none => stNetwork
    | some o => s.updateStatus target o

/-- UPDATE: the object is fetched and checked; on OK its write begins with event 0x74; any other status raises event 0x76; a rejected image leaves its reason in
FW_STAT.BADR (R416, R428 to R430). -/
def execUpdate (k : Fin 64) (body : List Byte) (fetch : Option FetchedObject) (s : State) : Host.Outcome State Fault Refusal :=
  .next (s.serve (.ningonus k) mtUpdate (fun s =>
    let st := s.updateAnswer body fetch
    let r := refOf body 64
    let s := if st = stMalformed ∨ st = stTooLarge ∨ st = stBusy then s
      else (s.openConns (serverAt body 32)).emit (.rdmaRead (serverAt body 32) r.rkey r.va r.len)
    match st, fetch with
    | 0, some o =>
      let s : State := { s with update := some { target := bodyNat body 0 1, body := o.body, repeated := false } }
      ((s.setFld Csr.fwStat 53 52 3).raise 0x74 [], plain stOk)
    | _, f =>
      let bad := match f with
        | some o => match o.body with
          | .image i => if st = stDigest ∨ st = stFormat ∨ st = stBadSig ∨ st = stDenied then updateReason i s.flash else 0
          | _ => 0
        | none => 0
      let s : State := if bad = 0 then s else State.setFld { s with flash := { s.flash with badr := bad } } Csr.fwStat 59 56 bad
      (s.raise 0x76 [BitVec.ofNat 64 st], plain st)))

/-- UPDATE_WRITE_DONE: the write ends and is read back: the object waits for the next reset; a mismatch repeats the write once, and a second one leaves the
target invalid; a RESET that waited takes place (R414, R430). -/
def execUpdateWriteDone (ok : Bool) (s : State) : Host.Outcome State Fault Refusal :=
  match s.update, s.boot.recovering with
  | some u, false =>
    if !ok ∧ !u.repeated then .next { s with update := some { u with repeated := true } }
    else
      let s : State := State.setFld { s with update := none } Csr.fwStat 53 52 0
      let s : State := match u.body with
        | .image i => State.setBit { s with flash := { s.flash with slot := if ok then some i else none } } Csr.fwStat 51 ok
        | .settings c => if ok then { s with flash := { s.flash with newSettings := some c } } else s
        | .plan p => if ok then { s with flash := { s.flash with newPlan := some p } } else s
      .next (s.raise (if ok then 0x75 else 0x76) [BitVec.ofNat 64 u.target]).settleReset
  | _, _ => .next s

/-! ### ATTEST (R418, R433) -/

/-- `n` bytes of a quantity whose bytes the spec does not give. -/
def freeField (which use n : Nat) : List Byte := (List.range n).map (fun i => (Config.freeBytes which use).getD i 0)

/-- The device certificate (R418): serial number, identity hash; the part number's bytes, keys and signatures are open. -/
def State.certificate (s : State) : List Byte :=
  bytesOfNat 16 s.part.serial.toNat ++ freeField 10 0 8 ++ digestBytes s.flash.identity ++ freeField 11 0 64 ++ freeField 12 0 64 ++ freeField 13 0 64 ++
    bytesOfNat 8 0

/-- The body of a wiring plan: version, size, PERM, then the entries in row-major order of (Y, X), zero where the plan names no device (R250, R428). -/
def Plan.body (p : Plan) : List Byte :=
  bytesOfNat 2 p.ver.toNat ++ bytesOfNat 1 p.nx ++ bytesOfNat 1 p.ny ++ bytesOfNat 1 (if p.perm then 1 else 0) ++ bytesOfNat 3 0 ++
  (positions p.ny p.nx).flatMap (fun q => digestBytes (((p.entries.find? (fun e => e.1 == chipAt q.2 q.1)).map (fun e => e.2)).getD 0))

/-- FLAGS of the report (R433). -/
def State.attestFlags (s : State) : Nat :=
  let b (x : Bool) (k : Nat) : Nat := if x then 2 ^ k else 0
  b (!s.flash.owners.isEmpty) 0 + b ((s.reg Csr.secStat).bit 60) 1 + b ((s.reg Csr.fwStat).bit 50) 2 + b (s.mstate == mHeld) 3 + b s.degraded 4 +
    b ((s.reg Csr.secStat).bit 54) 5

/-- Bytes 0 to 351 of the report (R433): the wiring plan's digest is that of its body (R428; log 75). Keys and the digests of objects that the model holds
without their bytes are open. -/
def State.report (s : State) (i : Image) (nonce : List Byte) : List Byte :=
  bytesOfNat 2 1 ++ bytesOfNat 1 (match s.part.variant with | .f => 0 | .h => 1 | .n => 2) ++ bytesOfNat 1 s.attestFlags ++
  bytesOfNat 4 s.flash.bootCnt ++ bytesOfNat 8 s.ft.toNat ++ nonce ++ freeField 1 0 64 ++ freeField 2 0 32 ++ digestBytes i.digest ++
  freeField 3 s.fresh 32 ++ (match s.plan with | some p => digestBytes (sm3 p.body) | none => bytesOfNat 32 0) ++
  (match s.flash.owner with | some o => digestBytes o | none => bytesOfNat 32 0) ++ freeField 5 s.fresh 32 ++
  bytesOfNat 2 i.major ++ bytesOfNat 2 i.minor ++ bytesOfNat 2 i.patch ++ bytesOfNat 2 i.svn ++ bytesOfNat 2 s.flash.svn ++
  bytesOfNat 1 i.fpl ++ bytesOfNat 1 i.fplmin ++ bytesOfNat 1 (s.fld Csr.clLvl 7 0) ++ bytesOfNat 1 i.cplmin ++ bytesOfNat 1 i.cplmax ++
  bytesOfNat 1 (s.fld Csr.capNl 23 16) ++ bytesOfNat 1 i.nlmin ++ bytesOfNat 1 i.nlmax ++
  bytesOfNat 2 (s.fld Csr.fabId 31 16) ++ bytesOfNat 4 (s.coreMaskWord.field 31 0) ++ bytesOfNat 2 (s.fld Csr.capFabricMask 15 0) ++
  bytesOfNat 1 s.flash.trips ++ bytesOfNat 5 0 ++ bytesOfNat 8 (s.reg Csr.capHbmBytes).toNat ++ bytesOfNat 8 0

/-- ATTEST: the report for a nonce of 32 bytes, signed by the identity key, with the device certificate (R433). -/
def execAttest (k : Fin 64) (nonce : List Byte) (s : State) : Host.Outcome State Fault Refusal :=
  .next (s.serve (.ningonus k) mtAttest (fun s =>
    match s.running with
    | none => (s, plain stBusy)
    | some i =>
      if nonce.length ≠ 32 then (s, plain stMalformed)
      else (s.drew, { status := stOk, body := s.report i nonce ++ freeField 6 s.fresh 64 ++ s.certificate })))

/-! ### ENROLL (R419, R420) -/

/-- Sessions whose key no longer has the role they were opened under end, each with event 0x96, and event sinks of keys that hold no role go with them (R348,
R362, R371, R420). -/
def State.endRevoked (s : State) : State :=
  let stays (x : Session) : Bool := s.keyRole x.ch.key == some x.role
  let gone := s.sessions.toList.filterMap (fun o => o.bind (fun x => if stays x then none else some x.ch.sid))
  let s := { s with
    sessions := s.sessions.map (fun o => o.filter stays)
    sinks := s.sinks.map (fun o => match o with | some q => if (s.keyRole q.key).isSome then some q else none | none => none) }
  gone.foldl (fun (t : State) sid => t.raise 0x96 [sid]) s

/-- An owner is enrolled: the next slot is programmed, every role key, checkpoint key and the ring key is cleared; event 0x62 (R420). -/
def State.newOwner (s : State) (key : BitVec 256) : State :=
  let f := { s.flash with owners := s.flash.owners ++ [key], keys := [], ckeys := 0, ringKey := false, cfgOk := true }
  ((State.syncSec { s with flash := f }).setBit Csr.secStat 54 true).raise 0x62 [BitVec.ofNat 64 (f.owners.length - 1)] |>.journalAdd 8
    [0, BitVec.ofNat 64 (f.owners.length - 1)]

/-- A key has changed in the configuration: event 0x63 (R420). -/
def State.keysChanged (s : State) (f : Flash) : State :=
  ((State.syncSec { s with flash := { f with cfgOk := true } }).setBit Csr.secStat 54 true).raise 0x63 []

/-- An image whose OKEY is a key runs, or has been written and awaits the next reset (R420). -/
def State.handoverReady (s : State) (key : BitVec 256) : Bool :=
  (match s.running with | some i => i.okey == key && !i.okeyZero | none => false) ||
  ((s.reg Csr.fwStat).bit 51 && match s.flash.slot with | some i => i.okey == key && !i.okeyZero | none => false)

/-- An owner ENROLL (R420): removal and a fifth owner are MALFORMED; the first needs CLAIM, a later one a handover image and no CLAIM. -/
def State.enrollOwner (s : State) (op : Nat) (key : BitVec 256) (claimZero claimOk : Bool) : State × Nat :=
  if op = 2 ∨ 4 ≤ s.flash.owners.length then (s, stMalformed)
  else if s.flash.owners.isEmpty then (if claimOk then (s.newOwner key, stOk) else (s, stDenied))
  else if !claimZero then (s, stMalformed)
  else if s.handoverReady key then (s.newOwner key, stOk)
  else (s, stDenied)

/-- An operator or observer key is added or removed (R348, R419). -/
def State.enrollRole (s : State) (op role : Nat) (key : BitVec 256) : State × Nat :=
  let f := s.flash
  let rest := f.keys.filter (fun x => x.hash != key)
  if op = 1 then
    if 32 ≤ rest.length then (s, stMalformed)
    else (s.keysChanged { f with keys := rest ++ [{ hash := key, role := role }] }, stOk)
  else if f.keys.any (fun x => x.hash == key && x.role == role) then (s.keysChanged { f with keys := rest }, stOk)
  else (s, stNotFound)

/-- The effect of an ENROLL body (R419, R420). The claimant may send nothing but the first-owner ENROLL. -/
def State.enroll (s : State) (claimant : Bool) (body : List Byte) (claimOk : Bool) : State × Nat :=
  let op := bodyNat body 0 1
  let kind := bodyNat body 1 1
  let slot := bodyNat body 2 1
  let key := sm3 ((body.drop 8).take 64)
  let claimZero := bodyNat body 72 64 == 0
  let slotOk := if kind = 3 then decide (1 ≤ slot ∧ slot ≤ 8) else slot == 0
  let f := s.flash
  if body.length ≠ 136 ∨ (op ≠ 1 ∧ op ≠ 2) ∨ 4 < kind ∨ !slotOk ∨ bodyNat body 3 5 ≠ 0 then (s, stMalformed)
  else if claimant ∧ kind ≠ 0 then (s, stDenied)
  else if kind = 0 then s.enrollOwner op key claimZero claimOk
  else if !claimZero then (s, stMalformed)
  else if kind ≤ 2 then s.enrollRole op kind key
  else if kind = 3 then
    if op = 1 then (s.keysChanged { f with ckeys := f.ckeys ||| (1#9 <<< slot) }, stOk)
    else if f.ckeys.getLsbD slot then (s.keysChanged { f with ckeys := f.ckeys &&& ~~~ (1#9 <<< slot) }, stOk)
    else (s, stNotFound)
  else if op = 1 then (s.keysChanged { f with ringKey := true }, stOk)
  else if f.ringKey then (s.keysChanged { f with ringKey := false }, stOk)
  else (s, stNotFound)

/-- ENROLL: a key is added or removed; sessions of revoked keys end once the answer has left (R348, R419, R420). `claimOk` is what the root key finds of CLAIM. -/
def execEnroll (k : Fin 64) (body : List Byte) (claimOk : Bool) (s : State) : Host.Outcome State Fault Refusal :=
  .next (s.serve (.ningonus k) mtEnroll (fun s =>
    let claimant : Bool := match s.sessions[k] with | some x => x.role == 3 | none => true
    let (t, st) := s.enroll claimant body claimOk
    (t, plain st))).endRevoked

/-! ### Debug port (R434, R435, R470, R477) -/

/-- The token in the mailbox as 120 bytes. -/
def State.token (s : State) : List Byte := s.mailbox.toList.flatMap (fun w => bytesOfNat 8 w.toNat)

/-- A token's checks (R434): version, scope, reserved bytes, identity, nonce, NOTAFTER; `sigOk` is what the owner's key, or the root key on an unowned device,
finds. -/
def State.tokenOk (s : State) (sigOk : Bool) : Bool :=
  let t := s.token
  bodyNat t 0 2 == 1 && decide (bodyNat t 2 2 < 16) && bodyNat t 4 4 == 0 && digestOfBytes ((t.drop 8).take 32) == s.flash.identity &&
  bodyNat t 40 8 == (s.reg Csr.secDbgNonce).toNat && decide (s.ft.toNat ≤ bodyNat t 48 8) && sigOk

/-- The session keys and the HBM keys are gone: every session closes and the bytes of HBM are lost (R435). -/
def State.loseKeys (s : State) : State :=
  { s with
    sessions := Vector.replicate 64 none
    mem := s.mem.filter (fun c => decide (c.1 < hbmBase)), poison := s.poison.filter (fun a => decide (a < hbmBase)) }

/-- The unlock (R435): DEBUG and SCOPE, event 0x60; HBM, path and session keys are gone: every job halts, every session closes, every path goes DOWN, retained
windows end, HBM bytes are lost. -/
def State.unlock (s : State) (scope : Nat) : State :=
  let s := (s.setBit Csr.secStat 60 true).setFld Csr.secStat 59 56 (s.fld Csr.secStat 59 56 ||| scope)
  let s := (s.raise 0x60 [BitVec.ofNat 64 scope]).haltAll 9
  let s := s.retained.foldl (fun (t : State) r => t.endRetention r) s
  let s := s.admissions.foldl (fun (t : State) a => t.dropAdmission a.digest) s
  (List.range 128).foldl (fun (t : State) i => t.takeDown i) s.loseKeys

/-- MBX_SUBMIT: the token in the mailbox is presented: accepted and the port unlocks, or refused with event 0x61; the nonce changes and the data reads as 0; after 16
refusals the mailbox is blocked until reset (R434, R477). -/
def execMbxSubmit (sigOk : Bool) (s : State) : Host.Outcome State Fault Refusal :=
  if !s.pipRuns ∨ 16 ≤ s.refusals then .next s
  else
    let ok := s.tokenOk sigOk
    let scope := bodyNat s.token 2 2
    let s : State := { s with mailbox := Vector.replicate 15 0 }
    let s := s.drew.setReg Csr.secDbgNonce s.free
    if ok then .next ((s.setFld Csr.mbxStat 62 60 1).unlock scope).afterJob
    else
      let n := s.refusals + 1
      let s : State := { s with refusals := n }
      let s := ((s.setFld Csr.mbxStat 62 60 (if 16 ≤ n then 3 else 2)).setBit Csr.mbxStat 63 (decide (n < 16))).bump Csr.secStat 35 32 1
      .next (s.raise 0x61 [])

/-- DEBUG_PORT_WRITE: mailbox data at any time; after an unlock with SCOPE bit 0 any register as the owner would, under the same locks and without a status (R434,
R469, R470). -/
def execDebugPortWrite (o : BitVec 32) (mask value : Word) (s : State) : Host.Outcome State Fault Refusal :=
  let n := o.toNat
  if !s.pipRuns then .next s
  else if inTable n (Csr.mbxData 0) 8 15 then
    let k := (n - Csr.mbxData 0) / 8
    let old := s.mailbox.toList.getD k 0
    .next { s with mailbox := s.mailbox.setIfInBounds k ((old &&& ~~~ mask) ||| (value &&& mask)) }
  else if isMailbox n then .next s
  else if (s.reg Csr.secStat).bit 60 ∧ (s.reg Csr.secStat).bit 56 then .next (s.csrWrite n mask value).1
  else .next s

end Sys2Proof.Machine
end

