-- ==== Sys2Proof/Machine/Clock.lean ====
section
/-! DEFINITION. What 10 ns do when no command waits (log 1): module time, fabric time, cycle counters, the power manager's clocks (spec/03 R109; 05 R154 to R156; 13
R383, R388, R395, R405, R407; 16 R477). -/

namespace Sys2Proof.Machine

/-- One tick in ns. -/
def tickNs : Nat := 10

/-- Core cycles of core n in one tick: 18 at PS0 down by 1 for each P-state; none in a stopped slot (R379, R387). -/
def State.tickCycles (s : State) (n : Nat) : Nat := if s.power.stopped.getLsbD n then 0 else 18 - s.fld (Csr.powCore n) 63 60

/-- Hundredths of a dummy operation in k cycles: arrays that no issue holds carry them at the duty of their state, also in the RAMP of a core that has
left RUNNING (R154 to R156). -/
def Core.dummyShare (c : Core) (now k : Nat) : Nat :=
  if c.arraysBusy then 0
  else match c.arrays with
    | .warm | .rise | .ramp => k * c.dutyNow now
    | .gated | .active => 0

/-- The clock counters of a core: cycles while it is RUNNING, and keep-warm cycles; keep-warm time stands still in a stopped slot, and arrays that are
ACTIVE with no issue held or eligible leave it (R109, R154, R155, R388). -/
def Core.tick (c : Core) (now k : Nat) : Core :=
  let c := c.arraysAfterIssue now
  let due := c.kwRest + c.dummyShare now k
  { c with
    cycles := if c.run = .running then c.cycles + BitVec.ofNat 64 k else c.cycles
    mmkwc := c.mmkwc + BitVec.ofNat 64 (due / 100), kwRest := due % 100
    arraysSince := if k = 0 ∧ c.arrays = .warm then c.arraysSince + tickNs else c.arraysSince }

/-- A RUNNING core's sequencer or comm queue head waits on a cross-core semaphore, a group queue or a collective (R395). -/
def Core.waitsCross (c : Core) : Bool :=
  (match c.wait with | .sem code _ _ _ _ => decide (32 ≤ code) | _ => false) ||
  (match c.qComm with
    | [] => false
    | e :: _ => (decide (0x10 ≤ wOp e.word) && !e.executed) || (!e.started && wselCount e.wsel != 0 && decide (32 ≤ wselSem e.wsel)))

/-- Fabric time after one tick: the local reference, slewing by at most 1 ns in 20 µs, that is 50 ppm (R405, R407). -/
def State.tickFt (s : State) : State :=
  if !s.pins.aux then s
  else
    let due := decide (s.time.slew ≠ 0) && decide (s.time.slewAt + 20000 ≤ s.now)
    if !due then { s with ft := s.ft + BitVec.ofNat 64 tickNs }
    else
      let up := decide (0 < s.time.slew)
      { s with
        ft := s.ft + BitVec.ofNat 64 (if up then tickNs + 1 else tickNs - 1)
        time := { s.time with slew := if up then s.time.slew - 1 else s.time.slew + 1, slewAt := s.now } }

/-- The cores' counters, the pool's and the power manager's running totals after one tick (R109, R383, R395). -/
def State.tickCores (s : State) : State :=
  if !s.mainOn then s
  else
    let running := (List.finRange 32).filter (fun n => (s.cores[n]).run == .running)
    let cyc := (running.map (fun n => s.tickCycles n.val)).sum
    let waits := ((running.filter (fun n => (s.cores[n]).waitsCross)).map (fun n => s.tickCycles n.val)).sum
    { s with
      cores := Vector.ofFn (fun n => (s.cores[n]).tick s.now (s.tickCycles n.val))
      power := { s.power with runNs := s.power.runNs + if running.isEmpty then 0 else tickNs }
      pool := { s.pool with runCycles := s.pool.runCycles + cyc, waitCycles := s.pool.waitCycles + waits } }

/-- Counters of whole seconds and milliseconds: PIP_UPTIME and POW_CNT.PAUSEMS (R477, and POW_CNT's own description). -/
def State.tickCounters (s : State) (was : Nat) : State :=
  let s := if s.pins.aux ∧ s.now / 1000000000 ≠ was / 1000000000 then s.setReg Csr.pipUptime (s.reg Csr.pipUptime + 1) else s
  let k := s.fld Csr.powStat 55 49
  if s.serving ∧ 1 ≤ k ∧ k < 64 ∧ s.now / 1000000 ≠ was / 1000000 then s.bump Csr.powCnt 31 0 1 else s

/-- A flit slot of R261 has begun: paths that have no flit to send send an idle one. -/
def State.tickFlits (s : State) (was : Nat) : State := if flitSlot s.now = flitSlot was then s else s.idleFlits

/-- One tick: 10 ns pass. -/
def State.tick (s : State) : State :=
  let was := s.now
  let s : State := { s with now := s.now + tickNs }
  (s.tickFt.tickCores.tickCounters was).tickFlits was

end Sys2Proof.Machine
end

