-- ==== Sys2Proof/Machine/Branch.lean ====
section
/-! DEFINITION. Branches of class 0 (spec/04 R98, R99, R102; 03 R77). -/

namespace Sys2Proof.Machine

/-- Format B (R98). -/
def fmtB (ra rb : BitVec 5) (off : BitVec 38) : Nat := ra.toNat * 2 ^ 43 + rb.toNat * 2 ^ 38 + off.toNat

/-- The target: the address of the branch plus 8 × off (R102). -/
def branchTarget (c : Core) (off : BitVec 38) : Word := c.pc.zeroExtend 64 + (off.signExtend 64) * 8

/-- A conditional branch of format B (R102). -/
def branchB (op : Nat) (legal : Bool) (taken : Word → Word → Bool) (n : Fin 32) (ws : BitVec 4) (ra rb : BitVec 5)
    (off : BitVec 38) (k : CheckOutcome) (s : State) : Host.Outcome State Fault Refusal :=
  seqExec s n ws k (felnuWord 0 op ws (fmtB ra rb off)) legal (fun s =>
    let c := s.cores[n]
    if taken (c.s ra) (c.s rb) then s.jump n 0 (branchTarget c off) else s.advance n)

/-- b.z; rb must be s0. -/
def execBZ (n : Fin 32) (ws : BitVec 4) (ra rb : BitVec 5) (off : BitVec 38) (k : CheckOutcome) (s : State) :
    Host.Outcome State Fault Refusal := branchB 0x30 (rb == 0) (fun a _ => a == 0) n ws ra rb off k s

/-- b.nz; rb must be s0. -/
def execBNz (n : Fin 32) (ws : BitVec 4) (ra rb : BitVec 5) (off : BitVec 38) (k : CheckOutcome) (s : State) :
    Host.Outcome State Fault Refusal := branchB 0x31 (rb == 0) (fun a _ => a != 0) n ws ra rb off k s

/-- b.eq. -/
def execBEq (n : Fin 32) (ws : BitVec 4) (ra rb : BitVec 5) (off : BitVec 38) (k : CheckOutcome) (s : State) :
    Host.Outcome State Fault Refusal := branchB 0x32 true (fun a b => a == b) n ws ra rb off k s

/-- b.ne. -/
def execBNe (n : Fin 32) (ws : BitVec 4) (ra rb : BitVec 5) (off : BitVec 38) (k : CheckOutcome) (s : State) :
    Host.Outcome State Fault Refusal := branchB 0x33 true (fun a b => a != b) n ws ra rb off k s

/-- b.lt, signed. -/
def execBLt (n : Fin 32) (ws : BitVec 4) (ra rb : BitVec 5) (off : BitVec 38) (k : CheckOutcome) (s : State) :
    Host.Outcome State Fault Refusal := branchB 0x34 true (fun a b => a.slt b) n ws ra rb off k s

/-- b.ltu. -/
def execBLtu (n : Fin 32) (ws : BitVec 4) (ra rb : BitVec 5) (off : BitVec 38) (k : CheckOutcome) (s : State) :
    Host.Outcome State Fault Refusal := branchB 0x35 true (fun a b => a.ult b) n ws ra rb off k s

/-- b.ge, signed. -/
def execBGe (n : Fin 32) (ws : BitVec 4) (ra rb : BitVec 5) (off : BitVec 38) (k : CheckOutcome) (s : State) :
    Host.Outcome State Fault Refusal := branchB 0x36 true (fun a b => !a.slt b) n ws ra rb off k s

/-- b.geu. -/
def execBGeu (n : Fin 32) (ws : BitVec 4) (ra rb : BitVec 5) (off : BitVec 38) (k : CheckOutcome) (s : State) :
    Host.Outcome State Fault Refusal := branchB 0x37 true (fun a b => !a.ult b) n ws ra rb off k s

/-- b.p: branch if pn, or if not pn when NEG = 1 (format BP). -/
def execBP (n : Fin 32) (ws : BitVec 4) (pn : BitVec 3) (neg : Bool) (off : BitVec 38) (k : CheckOutcome) (s : State) :
    Host.Outcome State Fault Refusal :=
  seqExec s n ws k (felnuWord 0 0x38 ws (pn.toNat * 2 ^ 45 + (if neg then 2 ^ 44 else 0) + off.toNat)) true (fun s =>
    let c := s.cores[n]
    if c.p pn != neg then s.jump n 0 (branchTarget c off) else s.advance n)

/-- b.j; ra and rb must be s0. -/
def execBJ (n : Fin 32) (ws : BitVec 4) (ra rb : BitVec 5) (off : BitVec 38) (k : CheckOutcome) (s : State) :
    Host.Outcome State Fault Refusal := branchB 0x39 (ra == 0 && rb == 0) (fun _ _ => true) n ws ra rb off k s

/-- b.call: ra receives the address after the call, then the branch; rb must be s0. A call whose target traps writes nothing. -/
def execBCall (n : Fin 32) (ws : BitVec 4) (ra rb : BitVec 5) (off : BitVec 38) (k : CheckOutcome) (s : State) :
    Host.Outcome State Fault Refusal :=
  seqExec s n ws k (felnuWord 0 0x3A ws (fmtB ra rb off)) (rb == 0) (fun s =>
    let c := s.cores[n]
    let target := branchTarget c off
    if fetchable n target.toNat then
      (s.modCore n (fun c => c.setS ra (c.pc.zeroExtend 64 + 8))).jump n 0 target
    else s.jump n 0 target)

/-- b.jr: jump to the address in ra; rb and off must be 0. -/
def execBJr (n : Fin 32) (ws : BitVec 4) (ra rb : BitVec 5) (off : BitVec 38) (k : CheckOutcome) (s : State) :
    Host.Outcome State Fault Refusal :=
  seqExec s n ws k (felnuWord 0 0x3B ws (fmtB ra rb off)) (rb == 0 && off == 0) (fun s =>
    s.jump n 0 ((s.cores[n]).s ra))

end Sys2Proof.Machine
end

