-- ==== Sys2Proof/Machine/CorePower.lean ====
section
/-! DEFINITION. Core power and start-up, the end of a core's part of a job, clearing (spec/01 R25; 03 R60, R85 to R87; 04 R111; 08 R228; 12 R357;
13 R388). -/

namespace Sys2Proof.Machine

/-- The runtime writes the state of R60 of a core that its job holds, once its PLL is locked and its scratchpad is clear; a job start is an
aligned load step (R86, R87, R388). -/
def State.beginCore (s : State) (n : Fin 32) (j : Job) : State :=
  if (s.cores[n]).clearing then s.modCore n (fun c => { c with startHeld := true })
  else if s.ownSlot then s.startCore n j
  else s.awaitSlot n.val

/-- CORE_START_REQUEST: Pip starts a core that the runtime has assigned to a job that is starting: GATED to STARTING, or at once when the PLL is
already locked. An ABSENT or FENCED core refuses (R86, R87). -/
def execCoreStartRequest (n : Fin 32) (s : State) : Host.Outcome State Fault Refusal :=
  let c := s.cores[n]
  match s.job? c.job with
  | none => .next s
  | some j =>
    if c.job = 0 ∨ j.phase ≠ .starting then .next s
    else
      match c.run with
      | .gated => .next (s.setCore n { c with run := .starting })
      | .idle => .next (if c.fills.isEmpty && c.wait != .ended then s.beginCore n j else s)
      | _ => .next s

/-- CORE_PLL_LOCK: STARTING to IDLE; the runtime writes the start state, held signals are added and the first line is fetched (R86). -/
def execCorePllLock (n : Fin 32) (s : State) : Host.Outcome State Fault Refusal :=
  let c := s.cores[n]
  if c.run ≠ .starting then .next s
  else
    let s := s.setCore n { c with run := .idle, idleSince := s.now }
    match s.job? c.job with
    | some j => .next (if c.job = 0 then s else s.beginCore n j)
    | none => .next s

/-- CORE_IDLE_GATE: a core held by no job for 100 µs in IDLE is power-gated (R85); not while its scratchpad is being cleared. -/
def execCoreIdleGate (n : Fin 32) (s : State) : Host.Outcome State Fault Refusal :=
  let c := s.cores[n]
  if c.run = .idle ∧ c.job = 0 ∧ !c.clearing ∧ c.idleSince + 100000 ≤ s.now then
    .next (s.setCore n { c with run := .gated, wait := .free, arrays := .gated, duty := 0 })
  else .next s

/-- Every queue of the core is empty and every drain's verdict is clean (R111, R203). -/
def Core.drained (c : Core) : Bool := QueueId.all.all (fun q => (c.queue q).isEmpty) && c.drains.isEmpty

/-- CORE_END: sys.end has drained: the core reports its end and enters IDLE, held by the job; the last one ends the job on this device (R111,
R155, R357). -/
def execCoreEnd (n : Fin 32) (s : State) : Host.Outcome State Fault Refusal :=
  let c := s.cores[n]
  if c.run = .running ∧ c.stopping.isNone ∧ c.wait = .ended ∧ c.drained then
    let s := s.setCore n { c.arraysLeave s.now with run := .idle, idleSince := s.now }
    match s.job? c.job with
    | none => .next s
    | some j =>
      let j := { j with ended := j.ended ||| (1#32 <<< n.val) }
      let s := s.putJob j
      .next (if j.phase = .running ∧ j.cores &&& ~~~ j.ended = 0 then s.endJob j else s)
  else .next s

/-- SCRATCHPAD_CLEAR_DONE: the scratchpad of a core that left a job reads zero and the core may be assigned again; a start that waited for it
takes place, and PUTs that waited for it are carried out (R87, R228, R286). -/
def execScratchpadClearDone (n : Fin 32) (s : State) : Host.Outcome State Fault Refusal :=
  let c := s.cores[n]
  if !c.clearing then .next s
  else
    let s := (s.clearRange (scratchBase n.val) scratchSize).setCore n { c with clearing := false, startHeld := false, idleSince := s.now }
    match c.startHeld, s.job? c.job with
    | true, some j => .next (if c.job = 0 then s else s.beginCore n j).releasePuts
    | _, _ => .next s.releasePuts

/-- ALIGNED_STEP_RELEASE: in the chip's slot of fabric time, or with ALIGN = 0, the waiting load steps are released (R388, R392). -/
def execAlignedStepRelease (s : State) : Host.Outcome State Fault Refusal :=
  if !s.ownSlot then .next s
  else
    let waiting := s.power.aligned
    let s := { s with power := { s.power with aligned := [] } }
    .next (((List.finRange 32).filter (fun n => waiting.contains n.val)).foldl (fun (t : State) n =>
      let c := t.cores[n]
      if c.run = .running ∧ (c.arrays = .gated ∨ c.arrays = .ramp) then
        (t.setCore n (c.arraysTo .rise t.now)).noteRise true
      else
        match t.job? c.job with
        | some j => if c.run = .idle ∧ c.job ≠ 0 ∧ c.fills.isEmpty ∧ c.wait ≠ .ended then t.startCore n j else t
        | none => t) s)

end Sys2Proof.Machine
end

