-- ==== Sys2Proof/Machine/Descriptor.lean ====
section
/-! DEFINITION. Descriptor instructions of class 0 (spec/04 R98, R99, R101, R103; 03 R67). -/

namespace Sys2Proof.Machine

/-- Format DI (R98). -/
def fmtDI (dd : BitVec 4) (ra : BitVec 5) (imm : BitVec 39) : Nat := dd.toNat * 2 ^ 44 + ra.toNat * 2 ^ 39 + imm.toNat

/-- d.ld: 32 bytes into dd (R101). -/
def execDLd (n : Fin 32) (ws dd : BitVec 4) (ra : BitVec 5) (imm : BitVec 39) (k : CheckOutcome) (err : MemErr) (s : State) :
    Host.Outcome State Fault Refusal :=
  seqAccess s n ws k (felnuWord 0 0x50 ws (fmtDI dd ra imm)) .loadDesc (fun c => c.s ra + imm.signExtend 64)
    (dd.zeroExtend 5) (fun _ => 0) (fun _ => 0) (fun _ => 0) err

/-- d.st: dd as 32 bytes (R101). -/
def execDSt (n : Fin 32) (ws dd : BitVec 4) (ra : BitVec 5) (imm : BitVec 39) (k : CheckOutcome) (s : State) :
    Host.Outcome State Fault Refusal :=
  seqAccess s n ws k (felnuWord 0 0x51 ws (fmtDI dd ra imm)) .storeDesc (fun c => c.s ra + imm.signExtend 64)
    (dd.zeroExtend 5) (fun _ => 0) (fun _ => 0) (fun c => c.d dd) .none

/-- d.mov: dd = ds; ra must be s0 (R99). -/
def execDMov (n : Fin 32) (ws dd : BitVec 4) (ra : BitVec 5) (ds : BitVec 4) (k : CheckOutcome) (s : State) :
    Host.Outcome State Fault Refusal :=
  seqWrite s n ws k (felnuWord 0 0x52 ws (fmtD dd ra ds)) (ra == 0) (fun c => c.setD dd (c.d ds))

/-- A descriptor instruction that writes `w` bits from `lo` from ra, when ra fits (R103). -/
def descSet (op lo w : Nat) (cause : Word → Condition) (n : Fin 32) (ws dd : BitVec 4) (ra : BitVec 5) (k : CheckOutcome) (s : State) :
    Host.Outcome State Fault Refusal :=
  seqChecked s n ws k (felnuWord 0 op ws (fmtD dd ra 0)) true
    (fun c => if (c.s ra).toNat < 2 ^ w then [] else [cause (c.s ra)])
    (fun c => c.setD dd (Desc.withFld (c.d dd) lo w (c.s ra).toNat))

/-- d.setbase: traps with ADDRESS when ra[63:48] is not 0 (R103). -/
def execDSetbase (n : Fin 32) (ws dd : BitVec 4) (ra : BitVec 5) (k : CheckOutcome) (s : State) : Host.Outcome State Fault Refusal :=
  descSet 0x53 0 48 (fun v => (.address, v)) n ws dd ra k s

/-- d.addbase: BASE + ra modulo 2^48 (R99). -/
def execDAddbase (n : Fin 32) (ws dd : BitVec 4) (ra : BitVec 5) (k : CheckOutcome) (s : State) : Host.Outcome State Fault Refusal :=
  seqWrite s n ws k (felnuWord 0 0x54 ws (fmtD dd ra 0)) true
    (fun c => c.setD dd (Desc.withFld (c.d dd) 0 48 (Desc.base (c.d dd) + (c.s ra).toNat)))

/-- d.setrows (R103). -/
def execDSetrows (n : Fin 32) (ws dd : BitVec 4) (ra : BitVec 5) (k : CheckOutcome) (s : State) : Host.Outcome State Fault Refusal :=
  descSet 0x55 64 32 (fun _ => (.descriptor, Word.place dd.toNat 4 0 ||| Word.place 64 8 8)) n ws dd ra k s

/-- d.setcols (R103). -/
def execDSetcols (n : Fin 32) (ws dd : BitVec 4) (ra : BitVec 5) (k : CheckOutcome) (s : State) : Host.Outcome State Fault Refusal :=
  descSet 0x56 96 32 (fun _ => (.descriptor, Word.place dd.toNat 4 0 ||| Word.place 96 8 8)) n ws dd ra k s

/-- d.setstride (R103). -/
def execDSetstride (n : Fin 32) (ws dd : BitVec 4) (ra : BitVec 5) (k : CheckOutcome) (s : State) : Host.Outcome State Fault Refusal :=
  descSet 0x57 128 48 (fun _ => (.descriptor, Word.place dd.toNat 4 0 ||| Word.place 128 8 8)) n ws dd ra k s

/-- d.settid (R103). -/
def execDSettid (n : Fin 32) (ws dd : BitVec 4) (ra : BitVec 5) (k : CheckOutcome) (s : State) : Host.Outcome State Fault Refusal :=
  descSet 0x58 192 32 (fun _ => (.descriptor, Word.place dd.toNat 4 0 ||| Word.place 192 8 8)) n ws dd ra k s

/-- d.setscale (R103). -/
def execDSetscale (n : Fin 32) (ws dd : BitVec 4) (ra : BitVec 5) (k : CheckOutcome) (s : State) : Host.Outcome State Fault Refusal :=
  descSet 0x59 224 32 (fun _ => (.descriptor, Word.place dd.toNat 4 0 ||| Word.place 224 8 8)) n ws dd ra k s

/-- d.setfmt: FMT, LAYOUT, SCALED and MXS from imm10, MXBLK = 0 (R99). -/
def execDSetfmt (n : Fin 32) (ws dd : BitVec 4) (imm : BitVec 10) (k : CheckOutcome) (s : State) : Host.Outcome State Fault Refusal :=
  seqWrite s n ws k (felnuWord 0 0x5A ws (dd.toNat * 2 ^ 44 + imm.toNat * 2 ^ 34)) true
    (fun c => c.setD dd (Desc.withFld (c.d dd) 48 12 imm.toNat))

/-- d.zero (R99). -/
def execDZero (n : Fin 32) (ws dd : BitVec 4) (k : CheckOutcome) (s : State) : Host.Outcome State Fault Refusal :=
  seqWrite s n ws k (felnuWord 0 0x5B ws (fmtD dd 0 0)) true (fun c => c.setD dd 0)

/-- d.get: rd = word W of ds (R99). -/
def execDGet (n : Fin 32) (ws : BitVec 4) (rd : BitVec 5) (ds : BitVec 4) (w : BitVec 2) (k : CheckOutcome) (s : State) :
    Host.Outcome State Fault Refusal :=
  seqWrite s n ws k (felnuWord 0 0x5C ws (rd.toNat * 2 ^ 43 + ds.toNat * 2 ^ 39 + w.toNat * 2 ^ 37)) true
    (fun c => c.setS rd (BitVec.ofNat 64 (Desc.fld (c.d ds) (64 * w.toNat) 64)))

end Sys2Proof.Machine
end

