-- ==== Sys2Proof/Machine/Predicate.lean ====
section
/-! DEFINITION. Predicate instructions of class 0 (spec/04 R98 to R100). -/

namespace Sys2Proof.Machine

/-- A comparison of two scalar registers into a predicate (format P). -/
def predP (op : Nat) (f : Word → Word → Bool) (n : Fin 32) (ws : BitVec 4) (pd : BitVec 3) (ra rb : BitVec 5) (k : CheckOutcome) (s : State) :
    Host.Outcome State Fault Refusal :=
  seqWrite s n ws k (felnuWord 0 op ws (pd.toNat * 2 ^ 45 + ra.toNat * 2 ^ 40 + rb.toNat * 2 ^ 35)) true
    (fun c => c.setP pd (f (c.s ra) (c.s rb)))

/-- A comparison with the sign-extended imm40 (format PI). -/
def predPI (op : Nat) (f : Word → Word → Bool) (n : Fin 32) (ws : BitVec 4) (pd : BitVec 3) (ra : BitVec 5)
    (imm : BitVec 40) (k : CheckOutcome) (s : State) : Host.Outcome State Fault Refusal :=
  seqWrite s n ws k (felnuWord 0 op ws (pd.toNat * 2 ^ 45 + ra.toNat * 2 ^ 40 + imm.toNat)) true
    (fun c => c.setP pd (f (c.s ra) (imm.signExtend 64)))

/-- Predicate logic (format PL). -/
def predPL (op : Nat) (f : Bool → Bool → Bool) (n : Fin 32) (ws : BitVec 4) (pd pa pb : BitVec 3) (k : CheckOutcome) (s : State) :
    Host.Outcome State Fault Refusal :=
  seqWrite s n ws k (felnuWord 0 op ws (fmtPL pd pa pb)) true (fun c => c.setP pd (f (c.p pa) (c.p pb)))

/-- p.eq. -/
def execPEq (n : Fin 32) (ws : BitVec 4) (pd : BitVec 3) (ra rb : BitVec 5) (k : CheckOutcome) (s : State) :
    Host.Outcome State Fault Refusal := predP 0x40 (fun a b => a == b) n ws pd ra rb k s

/-- p.ne. -/
def execPNe (n : Fin 32) (ws : BitVec 4) (pd : BitVec 3) (ra rb : BitVec 5) (k : CheckOutcome) (s : State) :
    Host.Outcome State Fault Refusal := predP 0x41 (fun a b => a != b) n ws pd ra rb k s

/-- p.lt, signed. -/
def execPLt (n : Fin 32) (ws : BitVec 4) (pd : BitVec 3) (ra rb : BitVec 5) (k : CheckOutcome) (s : State) :
    Host.Outcome State Fault Refusal := predP 0x42 (fun a b => a.slt b) n ws pd ra rb k s

/-- p.ltu. -/
def execPLtu (n : Fin 32) (ws : BitVec 4) (pd : BitVec 3) (ra rb : BitVec 5) (k : CheckOutcome) (s : State) :
    Host.Outcome State Fault Refusal := predP 0x43 (fun a b => a.ult b) n ws pd ra rb k s

/-- p.eqi. -/
def execPEqi (n : Fin 32) (ws : BitVec 4) (pd : BitVec 3) (ra : BitVec 5) (imm : BitVec 40) (k : CheckOutcome) (s : State) :
    Host.Outcome State Fault Refusal := predPI 0x44 (fun a b => a == b) n ws pd ra imm k s

/-- p.lti, signed. -/
def execPLti (n : Fin 32) (ws : BitVec 4) (pd : BitVec 3) (ra : BitVec 5) (imm : BitVec 40) (k : CheckOutcome) (s : State) :
    Host.Outcome State Fault Refusal := predPI 0x45 (fun a b => a.slt b) n ws pd ra imm k s

/-- p.and. -/
def execPAnd (n : Fin 32) (ws : BitVec 4) (pd pa pb : BitVec 3) (k : CheckOutcome) (s : State) : Host.Outcome State Fault Refusal :=
  predPL 0x46 (fun a b => a && b) n ws pd pa pb k s

/-- p.or. -/
def execPOr (n : Fin 32) (ws : BitVec 4) (pd pa pb : BitVec 3) (k : CheckOutcome) (s : State) : Host.Outcome State Fault Refusal :=
  predPL 0x47 (fun a b => a || b) n ws pd pa pb k s

/-- p.xor. -/
def execPXor (n : Fin 32) (ws : BitVec 4) (pd pa pb : BitVec 3) (k : CheckOutcome) (s : State) : Host.Outcome State Fault Refusal :=
  predPL 0x48 (fun a b => a != b) n ws pd pa pb k s

/-- p.not; pb must be p0. -/
def execPNot (n : Fin 32) (ws : BitVec 4) (pd pa pb : BitVec 3) (k : CheckOutcome) (s : State) : Host.Outcome State Fault Refusal :=
  seqWrite s n ws k (felnuWord 0 0x49 ws (fmtPL pd pa pb)) (pb == 0) (fun c => c.setP pd (!c.p pa))

end Sys2Proof.Machine
end

