-- ==== Sys2Proof/Machine/RowEngine.lean ====
section
/-! DEFINITION. The row engine: statistics records, the merge operator, softmax and normalisation, forward and backward (spec/04
R120, R121, spec/06 R173 to R189). -/

namespace Sys2Proof.Machine

/-! ### Records (R173 to R175) -/

/-- Classes of a softmax record (R174). -/
inductive RecClass where
  | nan | empty | inf | normal
  deriving DecidableEq, Repr

/-- MAX or MEAN of a record, and SUM or RSTD (R174, R175). -/
def recMax (w : Word) : Val := valFp32 (w.truncate 32)
def recSum (w : Word) : Val := valFp32 ((w >>> 32).truncate 32)

/-- The class of any 64-bit pattern, in the order of R174. -/
def recClass (w : Word) : RecClass :=
  if (recMax w).isNan || (recSum w).isNan then .nan
  else if (recMax w).isNegInf then .empty
  else if (recMax w).isPosInf then .inf
  else .normal

/-- The EMPTY record (R173). -/
def recEmpty : Word := 0x0000_0000_FF80_0000
/-- The NAN record as the row engine writes it (R174). -/
def recNan : Word := 0x7FC0_0000_7FC0_0000

/-- A record of two FP32 values. -/
def recOf (max sum : Val) : Word := (bitsFp32 sum).zeroExtend 64 <<< 32 ||| (bitsFp32 max).zeroExtend 64

/-- A record in the form in which the row engine writes it (R174). -/
def recCanon (w : Word) : Word :=
  match recClass w with
  | .nan => recNan
  | .empty => recEmpty
  | _ => w

/-- An FP32 product and difference rounded once. An overflow or invalid operation of such an internal step raises no flag: R38 and R185 speak of the results
(DESIGN CHOICE, log 71). -/
def mul32 (a b : Val) : Val := roundFp32 (a.mul b)
def sub32 (a b : Val) : Val := roundFp32 (a.sub b)

/-- The merge operator (R178): the record and the factors fa and fb. -/
def recMerge (a b : Word) : Word × Val × Val :=
  match recClass a, recClass b with
  | .nan, _ => (recNan, .nan, .nan)
  | _, .nan => (recNan, .nan, .nan)
  | .empty, .empty => (recEmpty, Val.zero, Val.zero)
  | .empty, _ => (b, Val.zero, Val.one)
  | _, .empty => (a, Val.one, Val.zero)
  | .inf, .inf => (recCanon (recOf (.inf false) (add32 (recSum a) (recSum b))), Val.one, Val.one)
  | .inf, .normal => (a, Val.one, Val.zero)
  | .normal, .inf => (b, Val.zero, Val.one)
  | .normal, .normal =>
    let m := (recMax a).max (recMax b)
    let fa := expFp32 (sub32 (recMax a) m)
    let fb := expFp32 (sub32 (recMax b) m)
    (recCanon (recOf m (add32 (mul32 (recSum a) fa) (mul32 (recSum b) fb))), fa, fb)

/-- A record read. -/
def State.record (s : State) (n : Fin 32) (i : Nat) : Word := BitVec.ofNat 64 (s.readNat (recAddr n i) 8)

/-- A record written. -/
def State.putRecord (s : State) (n : Fin 32) (i : Nat) (w : Word) : State := s.writeNat (recAddr n i) 8 w.toNat

/-! ### Scores and row statistics (R177, R179) -/

/-- The score of position (r, c) of a tensor (R177). -/
def score (s : State) (e : Entry) (d : Desc) (r c : Nat) : Val := mul32 (scalarFp32 e.ra) (s.val d r c)

/-- The mask lets a position count (R177). -/
def unmasked (s : State) (e : Entry) (r c : Nat) : Bool := e.word.field 29 26 == 0 || s.elem e.d3.val r c != 0

/-- A position is counted (R177). -/
def counted (s : State) (e : Entry) (d : Desc) (r c : Nat) : Bool :=
  unmasked s e r c && !(score s e d r c).isNegInf

/-- The record of one counted score (R179). -/
def scoreRecord (v : Val) : Word := if v.isNan then recNan else recOf v Val.one

/-- The statistics of row r of a score tensor, lanes and tree (R179). -/
def rowRecord (s : State) (e : Entry) (d : Desc) (r : Nat) : Word :=
  let lanes := (List.range (min d.cols 512)).map (fun l =>
    ((laneElements d.cols l).filter (fun c => counted s e d r c)).foldl
      (fun a c => (recMerge a (scoreRecord (score s e d r c))).1) recEmpty)
  ((laneTree (fun a b => (recMerge a b).1) 9 lanes).head?).getD recEmpty

/-- The existing record that an instruction combines with: EMPTY when FIRST is 1 (R179, R180, R181). -/
def oldRecord (s : State) (n : Fin 32) (e : Entry) (r : Nat) : Word :=
  if rowFirst e.word then recEmpty else s.record n (rowRec e.word + r)

/-- The record of row r and the factor of the old one (R179): FIRST = 1 replaces it. -/
def newRecord (s : State) (n : Fin 32) (e : Entry) (r : Nat) : Word × Val :=
  let block := rowRecord s e e.d1.val r
  let m := recMerge (oldRecord s n e r) block
  (if rowFirst e.word then block else m.1, m.2.1)

/-- The exponential of a score against a record's MAX (R180). -/
def scoreExp (w : Word) (v : Val) : Val := expFp32 (sub32 v (recMax w))

/-- The exact output of a position for the record its row ends with (R180): normalised or not. -/
def softmaxValue (w : Word) (isCounted : Bool) (v : Val) (normalised : Bool) : Val :=
  match recClass w with
  | .nan => .nan
  | .empty => Val.zero
  | .inf =>
    if isCounted && v.isPosInf then (if normalised then Val.one.div (recSum w) else Val.one) else Val.zero
  | .normal =>
    if isCounted then (if normalised then (scoreExp w v).div (recSum w) else scoreExp w v) else Val.zero

/-! ### Carrying out a row instruction -/

/-- Write the records of the instruction's rows (R173, R176). -/
def State.putRecords (s : State) (n : Fin 32) (e : Entry) (f : Nat → Word) : State :=
  (List.range (Desc.rows e.d1.val)).foldl (fun t r => t.putRecord n (rowRec e.word + r) (f r)) s

/-- The output tensor of a row instruction, each element rounded once; `inPlace` when dD may be identical to dA (R162). -/
def putOutput (t : State) (e : Entry) (inPlace : Bool) (f : Nat → Nat → Val) : State × NumFlags :=
  let (t, fl) := t.putValues e.d0.val (fun r c => roundOut e r c (f r c))
  let dd : Desc := e.d0.val
  let da : Desc := e.d1.val
  let others := if inPlace && Desc.identical dd da then (sourceDescs e).drop 1 else sourceDescs e
  (t.freeOverlap dd.ranges (rangesOf others), fl)

/-- Run a row instruction whose destinations are dD and its records. -/
def runRow (s : State) (n : Fin 32) (op : Nat) (effect : State → Entry → State × NumFlags) :
    Host.Outcome State Fault Refusal := runEngine s n .row 4 op effect

/-- ROW_STAT: the softmax statistics of the rows go into the records (R176, R179, R180). -/
def execRowStat (n : Fin 32) (s : State) : Host.Outcome State Fault Refusal :=
  runRow s n 0 (fun s e =>
    (s.putRecords n e (fun r => (newRecord s n e r).1), NumFlags.none))

/-- ROW_SOFTMAX: statistics, then probabilities; the records are replaced (R176, R180). -/
def execRowSoftmax (n : Fin 32) (s : State) : Host.Outcome State Fault Refusal :=
  runRow s n 1 (fun s e =>
    let da : Desc := e.d1.val
    putOutput (s.putRecords n e (fun r => rowRecord s e da r)) e true (fun r c =>
      softmaxValue (rowRecord s e da r) (counted s e da r c) (score s e da r c) true))

/-- ROW_OSMX: the records take in the block, dB receives the factors of the old statistics, dD the unnormalised probabilities
(R176, R180). -/
def execRowOsmx (n : Fin 32) (s : State) : Host.Outcome State Fault Refusal :=
  runRow s n 2 (fun s e =>
    let da : Desc := e.d1.val
    let db : Desc := e.d2.val
    let t := s.putRecords n e (fun r => (newRecord s n e r).1)
    let (t, fl) := putOutput t e false (fun r c =>
      softmaxValue (newRecord s n e r).1 (counted s e da r c) (score s e da r c) false)
    let t := t.putTensor db (fun r _ => (bitsFp32 (newRecord s n e r).2).toNat)
    (t.freeOverlap db.ranges (rangesOf (sourceDescs e) ++ Desc.ranges e.d0.val), fl))

/-- ROW_FINISH: each row divided by its record's sum (R182). -/
def execRowFinish (n : Fin 32) (s : State) : Host.Outcome State Fault Refusal :=
  runRow s n 3 (fun s e =>
    putOutput s e true (fun r c =>
      let w := s.record n (rowRec e.word + r)
      match recClass w with
      | .nan => .nan
      | .empty => Val.zero
      | _ => (srcA s e r c).div (recSum w)))

/-- The merge of row r of a row.merge (R181). -/
def mergeRow (s : State) (n : Fin 32) (e : Entry) (r : Nat) : Word × Val × Val :=
  recMerge (oldRecord s n e r) (BitVec.ofNat 64 (s.elem e.d1.val r 0))

/-- The form of row.merge that writes its factors (R181). -/
def mergeWritesFactors (e : Entry) : Bool := e.word.field 41 38 != 0 && e.word.field 33 30 != 0

/-- ROW_MERGE: received records are merged into the records; the factors go to dD and dB when they are named (R181). -/
def execRowMerge (n : Fin 32) (s : State) : Host.Outcome State Fault Refusal :=
  runRow s n 4 (fun s e =>
    let t := s.putRecords n e (fun r => recCanon (mergeRow s n e r).1)
    if mergeWritesFactors e then
      let dd : Desc := e.d0.val
      let db : Desc := e.d2.val
      let t := t.putTensor dd (fun r _ => (bitsFp32 (mergeRow s n e r).2.1).toNat)
      let t := t.putTensor db (fun r _ => (bitsFp32 (mergeRow s n e r).2.2).toNat)
      let src := Desc.ranges e.d1.val
      ((t.freeOverlap dd.ranges src).freeOverlap db.ranges (src ++ dd.ranges), NumFlags.none)
    else (t, NumFlags.none))

/-! ### Normalisation (R186 to R188) -/

/-- COLS in FP32. -/
def lengthFp32 (d : Desc) : Val := roundFp32 (.fin false ⟨d.cols, 1⟩)

/-- The gain of column c: 1 where none is given. -/
def gainAt (s : State) (e : Entry) (c : Nat) : Val := if e.word.field 29 26 = 0 then Val.one else s.val e.d3.val 0 c

/-- An FP32 quotient rounded once. -/
def div32 (a b : Val) : Val := roundFp32 (a.div b)

/-- The mean of row r of dA (R186). -/
def rowMean (s : State) (e : Entry) (r : Nat) : Val :=
  let d : Desc := e.d1.val
  div32 (treeReduce (fun x => x) add32 add32 d.cols (fun c => s.val d r c)) (lengthFp32 d)

/-- The reciprocal standard deviation of a row from its deviations (R186). -/
def rowRstd (e : Entry) (dev : Nat → Val) : Val :=
  let d : Desc := e.d1.val
  let sum2 := treeReduce (fun x => roundFp32 (x.mul x)) addSq32 add32 d.cols dev
  rsqrtFp32 (add32 (div32 sum2 (lengthFp32 d)) (scalarFp32 e.ra))

/-- Some operand value of a row is NaN or infinite (R188). -/
def rowNonFinite (cols : Nat) (fs : List (Nat → Val)) : Bool :=
  fs.any (fun f => (List.range cols).any (fun c => !(f c).isFinite))

/-- The forward normalisation of row r: its record and its outputs (R186, R188). -/
def normRow (s : State) (e : Entry) (centred : Bool) (r : Nat) : Word × (Nat → Val) :=
  let x (c : Nat) : Val := srcA s e r c
  let mu := if centred then rowMean s e r else Val.zero
  let dev (c : Nat) : Val := if centred then sub32 (x c) mu else x c
  let rstd := rowRstd e dev
  let bad := rowNonFinite (Desc.cols e.d1.val) [x, gainAt s e]
  (recOf mu rstd, fun c => if bad then .nan else (mul32 (dev c) rstd).mul (gainAt s e c))

/-- ROW_NORM: normalisation forward with mean and reciprocal standard deviation (R186, R188). -/
def execRowNorm (n : Fin 32) (s : State) : Host.Outcome State Fault Refusal :=
  runRow s n 5 (fun s e =>
    putOutput (s.putRecords n e (fun r => (normRow s e true r).1)) e true (fun r c => (normRow s e true r).2 c))

/-- ROW_RMS: as ROW_NORM with the mean taken as +0 (R186, R188). -/
def execRowRms (n : Fin 32) (s : State) : Host.Outcome State Fault Refusal :=
  runRow s n 6 (fun s e =>
    putOutput (s.putRecords n e (fun r => (normRow s e false r).1)) e true (fun r c => (normRow s e false r).2 c))

/-! ### Backward forms (R183, R187, R188) -/

/-- The FP32 probability of position (r, c) recomputed from the forward scores in dB and the record (R183). -/
def probability (s : State) (n : Fin 32) (e : Entry) (r c : Nat) : Val :=
  let db : Desc := e.d2.val
  roundFp32 (softmaxValue (s.record n (rowRec e.word + r)) (counted s e db r c) (score s e db r c) true)

/-- A node of the tree: an absent input passes the other one unchanged (R166). -/
def passAbsent (f : Val → Val → Val) : Option Val → Option Val → Option Val
  | some a, some b => some (f a b)
  | some a, none => some a
  | none, b => b

/-- D = Σ g × p over the counted positions of row r (R183). -/
def dotGrad (s : State) (n : Fin 32) (e : Entry) (r : Nat) : Val :=
  let db : Desc := e.d2.val
  let term (c : Nat) : Val := (srcA s e r c).mul (probability s n e r c)
  let lanes := (List.range (min db.cols 512)).map (fun l =>
    foldLine roundFp32 (fun a t => add32 a t) (((laneElements db.cols l).filter (fun c => counted s e db r c)).map term))
  (((laneTree (passAbsent add32) 9 lanes).head?).bind id).getD Val.zero

/-- ROW_DSOFTMAX: the gradient through softmax (R183). -/
def execRowDsoftmax (n : Fin 32) (s : State) : Host.Outcome State Fault Refusal :=
  runRow s n 8 (fun s e =>
    putOutput s e true (fun r c =>
      match recClass (s.record n (rowRec e.word + r)) with
      | .nan => .nan
      | .empty => Val.zero
      | _ =>
        if counted s e e.d2.val r c then
          (mul32 (probability s n e r c) (sub32 (srcA s e r c) (dotGrad s n e r))).mul (scalarFp32 e.ra)
        else Val.zero))

/-- The backward normalisation of row r (R187, R188). -/
def dnormRow (s : State) (n : Fin 32) (e : Entry) (centred : Bool) (r : Nat) : Nat → Val :=
  let d : Desc := e.d1.val
  let w := s.record n (rowRec e.word + r)
  let rstd := recSum w
  let x (c : Nat) : Val := srcB s e r c
  let g (c : Nat) : Val := srcA s e r c
  let xhat (c : Nat) : Val := mul32 (if centred then sub32 (x c) (recMax w) else x c) rstd
  let h (c : Nat) : Val := mul32 (g c) (gainAt s e c)
  let l := lengthFp32 d
  let a := if centred then div32 (treeReduce (fun v => v) add32 add32 d.cols h) l else Val.zero
  let b := div32 (((laneTree add32 9 ((List.range (min d.cols 512)).filterMap (fun k =>
    foldLine (fun c => roundFp32 c) (fun acc t => add32 acc t) ((laneElements d.cols k).map (fun c => (h c).mul (xhat c)))))).head?).getD
      Val.zero) l
  let bad := rowNonFinite d.cols [x, g, gainAt s e]
  fun c => if bad then .nan else (sub32 (sub32 (h c) a) (mul32 (xhat c) b)).mul rstd

/-- ROW_DNORM: backward of row.norm (R187, R188). -/
def execRowDnorm (n : Fin 32) (s : State) : Host.Outcome State Fault Refusal :=
  runRow s n 9 (fun s e => putOutput s e true (fun r c => dnormRow s n e true r c))

/-- ROW_DRMS: backward of row.rms (R187, R188). -/
def execRowDrms (n : Fin 32) (s : State) : Host.Outcome State Fault Refusal :=
  runRow s n 0xA (fun s e => putOutput s e true (fun r c => dnormRow s n e false r c))

end Sys2Proof.Machine
end

