-- ==== Sys2Proof/Machine/Scalar.lean ====
section
/-! DEFINITION. Scalar arithmetic of class 0 (spec/04 R98 to R100): one meaning per opcode over the shared forms. -/

namespace Sys2Proof.Machine

/-- Signed minimum and maximum (R99). -/
def sMinVal (a b : Word) : Word := if a.slt b then a else b
def sMaxVal (a b : Word) : Word := if a.slt b then b else a

/-- Unsigned quotient and remainder with the corner rb = 0 (R99). -/
def sDivVal (a b : Word) : Word := if b = 0 then -1 else a / b
def sRemVal (a b : Word) : Word := if b = 0 then a else a % b

/-- High 64 bits of the unsigned product (R99). -/
def sMulhuVal (a b : Word) : Word := BitVec.ofNat 64 (a.toNat * b.toNat / 2 ^ 64)

/-- The shift amount rb[5:0] (R100). -/
def shAmt (b : Word) : Nat := b.toNat % 64

/-- A register-form instruction: rd receives a function of ra and rb (format R). -/
def scalarR (op : Nat) (f : Word → Word → Word) (n : Fin 32) (ws : BitVec 4) (rd ra rb : BitVec 5) (k : CheckOutcome) (s : State) :
    Host.Outcome State Fault Refusal :=
  seqWrite s n ws k (felnuWord 0 op ws (fmtR rd ra rb)) true (fun c => c.setS rd (f (c.s ra) (c.s rb)))

/-- An immediate-form instruction: rd receives a function of ra and the sign-extended imm38 (format I). -/
def scalarI (op : Nat) (f : Word → Word → Word) (n : Fin 32) (ws : BitVec 4) (rd ra : BitVec 5) (imm : BitVec 38)
    (k : CheckOutcome) (s : State) : Host.Outcome State Fault Refusal :=
  seqWrite s n ws k (felnuWord 0 op ws (fmtI rd ra imm)) true (fun c => c.setS rd (f (c.s ra) (imm.signExtend 64)))

/-- An immediate shift: imm38[37:6] must be 0 (R99). -/
def scalarSh (op : Nat) (f : Word → Word → Word) (n : Fin 32) (ws : BitVec 4) (rd ra : BitVec 5) (imm : BitVec 38)
    (k : CheckOutcome) (s : State) : Host.Outcome State Fault Refusal :=
  seqWrite s n ws k (felnuWord 0 op ws (fmtI rd ra imm)) (decide (imm.toNat < 64))
    (fun c => c.setS rd (f (c.s ra) (imm.zeroExtend 64)))

/-- nop has no effect but to go on (R99). -/
def execNop (n : Fin 32) (ws : BitVec 4) (k : CheckOutcome) (s : State) : Host.Outcome State Fault Refusal :=
  seqWrite s n ws k (felnuWord 0 0 ws 0) true id

/-- s.add (R99). -/
def execSAdd (n : Fin 32) (ws : BitVec 4) (rd ra rb : BitVec 5) (k : CheckOutcome) (s : State) : Host.Outcome State Fault Refusal :=
  scalarR 0x1 (· + ·) n ws rd ra rb k s

/-- s.sub (R99). -/
def execSSub (n : Fin 32) (ws : BitVec 4) (rd ra rb : BitVec 5) (k : CheckOutcome) (s : State) : Host.Outcome State Fault Refusal :=
  scalarR 0x2 (· - ·) n ws rd ra rb k s

/-- s.mul (R99). -/
def execSMul (n : Fin 32) (ws : BitVec 4) (rd ra rb : BitVec 5) (k : CheckOutcome) (s : State) : Host.Outcome State Fault Refusal :=
  scalarR 0x3 (· * ·) n ws rd ra rb k s

/-- s.mulhu (R99). -/
def execSMulhu (n : Fin 32) (ws : BitVec 4) (rd ra rb : BitVec 5) (k : CheckOutcome) (s : State) : Host.Outcome State Fault Refusal :=
  scalarR 0x4 sMulhuVal n ws rd ra rb k s

/-- s.divu (R99). -/
def execSDivu (n : Fin 32) (ws : BitVec 4) (rd ra rb : BitVec 5) (k : CheckOutcome) (s : State) : Host.Outcome State Fault Refusal :=
  scalarR 0x5 sDivVal n ws rd ra rb k s

/-- s.remu (R99). -/
def execSRemu (n : Fin 32) (ws : BitVec 4) (rd ra rb : BitVec 5) (k : CheckOutcome) (s : State) : Host.Outcome State Fault Refusal :=
  scalarR 0x6 sRemVal n ws rd ra rb k s

/-- s.and (R99). -/
def execSAnd (n : Fin 32) (ws : BitVec 4) (rd ra rb : BitVec 5) (k : CheckOutcome) (s : State) : Host.Outcome State Fault Refusal :=
  scalarR 0x7 (· &&& ·) n ws rd ra rb k s

/-- s.or (R99). -/
def execSOr (n : Fin 32) (ws : BitVec 4) (rd ra rb : BitVec 5) (k : CheckOutcome) (s : State) : Host.Outcome State Fault Refusal :=
  scalarR 0x8 (· ||| ·) n ws rd ra rb k s

/-- s.xor (R99). -/
def execSXor (n : Fin 32) (ws : BitVec 4) (rd ra rb : BitVec 5) (k : CheckOutcome) (s : State) : Host.Outcome State Fault Refusal :=
  scalarR 0x9 (· ^^^ ·) n ws rd ra rb k s

/-- s.shl (R99). -/
def execSShl (n : Fin 32) (ws : BitVec 4) (rd ra rb : BitVec 5) (k : CheckOutcome) (s : State) : Host.Outcome State Fault Refusal :=
  scalarR 0xa (fun a b => a <<< shAmt b) n ws rd ra rb k s

/-- s.shr (R99). -/
def execSShr (n : Fin 32) (ws : BitVec 4) (rd ra rb : BitVec 5) (k : CheckOutcome) (s : State) : Host.Outcome State Fault Refusal :=
  scalarR 0xb (fun a b => a >>> shAmt b) n ws rd ra rb k s

/-- s.sra (R99). -/
def execSSra (n : Fin 32) (ws : BitVec 4) (rd ra rb : BitVec 5) (k : CheckOutcome) (s : State) : Host.Outcome State Fault Refusal :=
  scalarR 0xc (fun a b => a.sshiftRight (shAmt b)) n ws rd ra rb k s

/-- s.min (R99). -/
def execSMin (n : Fin 32) (ws : BitVec 4) (rd ra rb : BitVec 5) (k : CheckOutcome) (s : State) : Host.Outcome State Fault Refusal :=
  scalarR 0xd sMinVal n ws rd ra rb k s

/-- s.max (R99). -/
def execSMax (n : Fin 32) (ws : BitVec 4) (rd ra rb : BitVec 5) (k : CheckOutcome) (s : State) : Host.Outcome State Fault Refusal :=
  scalarR 0xe sMaxVal n ws rd ra rb k s

/-- s.addi (R99). -/
def execSAddi (n : Fin 32) (ws : BitVec 4) (rd ra : BitVec 5) (imm : BitVec 38) (k : CheckOutcome) (s : State) :
    Host.Outcome State Fault Refusal :=
  scalarI 0x10 (· + ·) n ws rd ra imm k s

/-- s.subi (R99). -/
def execSSubi (n : Fin 32) (ws : BitVec 4) (rd ra : BitVec 5) (imm : BitVec 38) (k : CheckOutcome) (s : State) :
    Host.Outcome State Fault Refusal :=
  scalarI 0x11 (· - ·) n ws rd ra imm k s

/-- s.muli (R99). -/
def execSMuli (n : Fin 32) (ws : BitVec 4) (rd ra : BitVec 5) (imm : BitVec 38) (k : CheckOutcome) (s : State) :
    Host.Outcome State Fault Refusal :=
  scalarI 0x12 (· * ·) n ws rd ra imm k s

/-- s.andi (R99). -/
def execSAndi (n : Fin 32) (ws : BitVec 4) (rd ra : BitVec 5) (imm : BitVec 38) (k : CheckOutcome) (s : State) :
    Host.Outcome State Fault Refusal :=
  scalarI 0x13 (· &&& ·) n ws rd ra imm k s

/-- s.ori (R99). -/
def execSOri (n : Fin 32) (ws : BitVec 4) (rd ra : BitVec 5) (imm : BitVec 38) (k : CheckOutcome) (s : State) :
    Host.Outcome State Fault Refusal :=
  scalarI 0x14 (· ||| ·) n ws rd ra imm k s

/-- s.xori (R99). -/
def execSXori (n : Fin 32) (ws : BitVec 4) (rd ra : BitVec 5) (imm : BitVec 38) (k : CheckOutcome) (s : State) :
    Host.Outcome State Fault Refusal :=
  scalarI 0x15 (· ^^^ ·) n ws rd ra imm k s

/-- s.shli (R99). -/
def execSShli (n : Fin 32) (ws : BitVec 4) (rd ra : BitVec 5) (imm : BitVec 38) (k : CheckOutcome) (s : State) :
    Host.Outcome State Fault Refusal :=
  scalarSh 0x16 (fun a b => a <<< shAmt b) n ws rd ra imm k s

/-- s.shri (R99). -/
def execSShri (n : Fin 32) (ws : BitVec 4) (rd ra : BitVec 5) (imm : BitVec 38) (k : CheckOutcome) (s : State) :
    Host.Outcome State Fault Refusal :=
  scalarSh 0x17 (fun a b => a >>> shAmt b) n ws rd ra imm k s

/-- s.srai (R99). -/
def execSSrai (n : Fin 32) (ws : BitVec 4) (rd ra : BitVec 5) (imm : BitVec 38) (k : CheckOutcome) (s : State) :
    Host.Outcome State Fault Refusal :=
  scalarSh 0x18 (fun a b => a.sshiftRight (shAmt b)) n ws rd ra imm k s

/-- s.li: rd receives the sign-extended imm43 (R99). -/
def execSLi (n : Fin 32) (ws : BitVec 4) (rd : BitVec 5) (imm : BitVec 43) (k : CheckOutcome) (s : State) :
    Host.Outcome State Fault Refusal :=
  seqWrite s n ws k (felnuWord 0 0x1A ws (fmtU rd imm)) true (fun c => c.setS rd (imm.signExtend 64))

/-- s.lih: rd[63:32] receives imm43[31:0], rd[31:0] is kept; imm43[42:32] must be 0 (R99). -/
def execSLih (n : Fin 32) (ws : BitVec 4) (rd : BitVec 5) (imm : BitVec 43) (k : CheckOutcome) (s : State) :
    Host.Outcome State Fault Refusal :=
  seqWrite s n ws k (felnuWord 0 0x1B ws (fmtU rd imm)) (decide (imm.toNat < 2 ^ 32))
    (fun c => c.setS rd (((imm.truncate 32 : BitVec 32) ++ ((c.s rd).truncate 32 : BitVec 32) : BitVec 64)))

end Sys2Proof.Machine
end

