-- ==== Sys2Proof/Machine/Sync.lean ====
section
/-! DEFINITION. The sync class (spec/04 R105 to R108; 03 R61 to R65, R80; 01 R25). -/

namespace Sys2Proof.Machine

/-- sync.wait: wait until the semaphore is at least COUNT, then subtract it; COUNT = 0 has no effect (R105, R64, R80). -/
def execSyncWait (n : Fin 32) (ws : BitVec 4) (sem : BitVec 6) (count : BitVec 16) (k : CheckOutcome) (s : State) :
    Host.Outcome State Fault Refusal :=
  seqExec s n ws k (felnuWord 6 0 ws (sem.toNat * 2 ^ 42 + count.toNat * 2 ^ 26)) (decide (sem.toNat < 48)) (fun s =>
    let c := s.cores[n]
    if s.semLeft n QueueId.all sem.toNat < count.toNat then
      s.setCore n { c with wait := .sem sem.toNat count.toNat (c.blockedSince s.now) true 6 }
    else (s.setCore n (c.setSem sem.toNat (c.sem sem.toNat - count.toNat))).advance n)

/-- sync.wsel: load a wait-select entry; W = 0 and SEM 48 to 63 are refused (R105, R62). -/
def execSyncWsel (n : Fin 32) (ws w : BitVec 4) (sem : BitVec 6) (count : BitVec 16) (pred : BitVec 3) (neg : Bool)
    (k : CheckOutcome) (s : State) : Host.Outcome State Fault Refusal :=
  seqWrite s n ws k
    (felnuWord 6 1 ws (w.toNat * 2 ^ 44 + sem.toNat * 2 ^ 38 + count.toNat * 2 ^ 22 + pred.toNat * 2 ^ 19 +
      (if neg then 2 ^ 18 else 0)))
    (w != 0 && decide (sem.toNat < 48))
    (fun c => { c with wsel := c.wsel.set w.toFin (wselMake sem count pred neg) })

/-- sync.sig: add VAL to a local semaphore; SEM must be 0 to 31 and VAL at least 1 (R105, R65). -/
def execSyncSig (n : Fin 32) (ws : BitVec 4) (sem : BitVec 6) (val : BitVec 16) (k : CheckOutcome) (s : State) :
    Host.Outcome State Fault Refusal :=
  seqExec s n ws k (felnuWord 6 2 ws (sem.toNat * 2 ^ 42 + val.toNat * 2 ^ 26)) (decide (sem.toNat < 32) && val != 0)
    (fun s =>
      let pc := (s.cores[n]).pc
      (s.advance n).signal n sem.toNat val.toNat (.own 6 pc))

/-- sync.set: set any of the core's own semaphores (R105, R106). -/
def execSyncSet (n : Fin 32) (ws : BitVec 4) (sem : BitVec 6) (val : BitVec 16) (k : CheckOutcome) (s : State) :
    Host.Outcome State Fault Refusal :=
  seqWrite s n ws k (felnuWord 6 3 ws (sem.toNat * 2 ^ 42 + val.toNat * 2 ^ 26)) (decide (sem.toNat < 48))
    (fun c => c.setSem sem.toNat val.toNat)

/-- Which core a sync.xsig names (R107): an absent one, one outside the job, or one of the job. -/
inductive XsigTarget where
  | absent
  | outside
  | member (k : Fin 32)
  deriving DecidableEq, Repr

/-- The target of a sync.xsig (R107, R89). -/
def xsigTarget (s : State) (n : Fin 32) (v : Nat) (rank : Bool) : XsigTarget :=
  let job := (s.cores[n]).job
  if rank then
    match (s.jobCores job)[v]? with
    | some k => if h : k < 32 then .member ⟨k, h⟩ else .outside
    | none => .outside
  else if h : v < 32 then
    if !s.corePresent v then .absent
    else if (s.cores[(⟨v, h⟩ : Fin 32)]).job == job then .member ⟨v, h⟩ else .outside
  else .outside

/-- sync.xsig: signal a cross-core semaphore of a core of the job; an absent physical core traps, any other core outside the
job discards the signal and raises 0x90 (R65, R107). -/
def execSyncXsig (n : Fin 32) (ws : BitVec 4) (ra : BitVec 5) (xs : BitVec 4) (inc : BitVec 16) (rank : Bool) (k : CheckOutcome) (s : State) :
    Host.Outcome State Fault Refusal :=
  seqExec s n ws k
    (felnuWord 6 4 ws (ra.toNat * 2 ^ 43 + xs.toNat * 2 ^ 39 + inc.toNat * 2 ^ 23 + (if rank then 2 ^ 22 else 0)))
    (inc != 0) (fun s =>
    let c := s.cores[n]
    let v := c.s ra
    match xsigTarget s n v.toNat rank with
    | .absent => s.trap n [(.unitAbsent, v)] 6 c.pc
    | .outside => (s.advance n).raiseJob 0x90 c.job [v]
    | .member m =>
      (s.advance n).signalCross m xs.toNat inc.toNat (if m = n then .own 6 c.pc else .outside))

/-- sync.read: the current value, without subtraction (R105). -/
def execSyncRead (n : Fin 32) (ws : BitVec 4) (rd : BitVec 5) (sem : BitVec 6) (k : CheckOutcome) (s : State) :
    Host.Outcome State Fault Refusal :=
  seqWrite s n ws k (felnuWord 6 5 ws (rd.toNat * 2 ^ 43 + sem.toNat * 2 ^ 37)) (decide (sem.toNat < 48))
    (fun c => c.setS rd (BitVec.ofNat 64 (c.sem sem.toNat)))

/-- A queue of the core is empty, with nothing of it in flight; a drain counts until its verdict is clean (R105, R203). -/
def Core.queueIdle (c : Core) (q : QueueId) : Bool :=
  (c.queue q).isEmpty &&
  match q with
  | .ctx0 => c.drains.all (fun d => d.entry.word.bit 41)
  | .ctx1 => c.drains.all (fun d => !d.entry.word.bit 41)
  | _ => true

/-- sync.idle: wait until each named queue is idle; MASK = 0 is refused (R105, R108, R203). -/
def execSyncIdle (n : Fin 32) (ws : BitVec 4) (mask : BitVec 6) (k : CheckOutcome) (s : State) : Host.Outcome State Fault Refusal :=
  seqExec s n ws k (felnuWord 6 6 ws (mask.toNat * 2 ^ 42)) (mask != 0) (fun s =>
    let c := s.cores[n]
    if QueueId.all.all (fun q => !mask.getLsbD (QueueId.index q) || c.queueIdle q) then s.advance n
    else s.setCore n { c with wait := .idle mask (c.blockedSince s.now) })

/-- sync.until: go on when fabric time is at least ra, otherwise wait for FABRIC_TIME_REACHED (R105, R108). -/
def execSyncUntil (n : Fin 32) (ws : BitVec 4) (ra : BitVec 5) (k : CheckOutcome) (s : State) : Host.Outcome State Fault Refusal :=
  seqExec s n ws k (felnuWord 6 7 ws (ra.toNat * 2 ^ 43)) true (fun s =>
    let c := s.cores[n]
    if c.s ra ≤ s.ft then s.advance n
    else s.setCore n { c with wait := .until (c.s ra) s.now })

/-- FABRIC_TIME_REACHED: a waiting sync.until whose time has come resumes (R108). -/
def execFabricTimeReached (n : Fin 32) (s : State) : Host.Outcome State Fault Refusal :=
  match (s.cores[n]).wait with
  | .until t _ => if t ≤ s.ft then .next (s.advance n) else .next s
  | _ => .next s

end Sys2Proof.Machine
end

