-- ==== Sys2Proof/Machine/Dispatch.lean ====
section
/-! DEFINITION. One arm per command: the direct call of its meaning. -/

namespace Sys2Proof.Machine

/-- The effect of a command on everything but the queue. -/
def exec (i : Instr) (s : State) : Host.Outcome State Fault Refusal :=
  match i with
  | .nop n ws k => Sys2Proof.Machine.execNop n ws k s
  | .sAdd n ws rd ra rb k => Sys2Proof.Machine.execSAdd n ws rd ra rb k s
  | .sSub n ws rd ra rb k => Sys2Proof.Machine.execSSub n ws rd ra rb k s
  | .sMul n ws rd ra rb k => Sys2Proof.Machine.execSMul n ws rd ra rb k s
  | .sMulhu n ws rd ra rb k => Sys2Proof.Machine.execSMulhu n ws rd ra rb k s
  | .sDivu n ws rd ra rb k => Sys2Proof.Machine.execSDivu n ws rd ra rb k s
  | .sRemu n ws rd ra rb k => Sys2Proof.Machine.execSRemu n ws rd ra rb k s
  | .sAnd n ws rd ra rb k => Sys2Proof.Machine.execSAnd n ws rd ra rb k s
  | .sOr n ws rd ra rb k => Sys2Proof.Machine.execSOr n ws rd ra rb k s
  | .sXor n ws rd ra rb k => Sys2Proof.Machine.execSXor n ws rd ra rb k s
  | .sShl n ws rd ra rb k => Sys2Proof.Machine.execSShl n ws rd ra rb k s
  | .sShr n ws rd ra rb k => Sys2Proof.Machine.execSShr n ws rd ra rb k s
  | .sSra n ws rd ra rb k => Sys2Proof.Machine.execSSra n ws rd ra rb k s
  | .sMin n ws rd ra rb k => Sys2Proof.Machine.execSMin n ws rd ra rb k s
  | .sMax n ws rd ra rb k => Sys2Proof.Machine.execSMax n ws rd ra rb k s
  | .sAddi n ws rd ra imm k => Sys2Proof.Machine.execSAddi n ws rd ra imm k s
  | .sSubi n ws rd ra imm k => Sys2Proof.Machine.execSSubi n ws rd ra imm k s
  | .sMuli n ws rd ra imm k => Sys2Proof.Machine.execSMuli n ws rd ra imm k s
  | .sAndi n ws rd ra imm k => Sys2Proof.Machine.execSAndi n ws rd ra imm k s
  | .sOri n ws rd ra imm k => Sys2Proof.Machine.execSOri n ws rd ra imm k s
  | .sXori n ws rd ra imm k => Sys2Proof.Machine.execSXori n ws rd ra imm k s
  | .sShli n ws rd ra imm k => Sys2Proof.Machine.execSShli n ws rd ra imm k s
  | .sShri n ws rd ra imm k => Sys2Proof.Machine.execSShri n ws rd ra imm k s
  | .sSrai n ws rd ra imm k => Sys2Proof.Machine.execSSrai n ws rd ra imm k s
  | .sLi n ws rd imm k => Sys2Proof.Machine.execSLi n ws rd imm k s
  | .sLih n ws rd imm k => Sys2Proof.Machine.execSLih n ws rd imm k s
  | .sLd n ws rd ra imm k err => Sys2Proof.Machine.execSLd n ws rd ra imm k err s
  | .sLd32 n ws rd ra imm k err => Sys2Proof.Machine.execSLd32 n ws rd ra imm k err s
  | .sSt n ws rd ra imm k => Sys2Proof.Machine.execSSt n ws rd ra imm k s
  | .sSt32 n ws rd ra imm k => Sys2Proof.Machine.execSSt32 n ws rd ra imm k s
  | .sAmoadd n ws rd ra rb k => Sys2Proof.Machine.execSAmoadd n ws rd ra rb k s
  | .sAmomax n ws rd ra rb k => Sys2Proof.Machine.execSAmomax n ws rd ra rb k s
  | .sAmomin n ws rd ra rb k => Sys2Proof.Machine.execSAmomin n ws rd ra rb k s
  | .sAmoswap n ws rd ra rb k => Sys2Proof.Machine.execSAmoswap n ws rd ra rb k s
  | .sAmocas n ws rd ra rb k => Sys2Proof.Machine.execSAmocas n ws rd ra rb k s
  | .scalarAccessComplete n e => Sys2Proof.Machine.execScalarAccessComplete n e s
  | .bZ n ws ra rb off k => Sys2Proof.Machine.execBZ n ws ra rb off k s
  | .bNz n ws ra rb off k => Sys2Proof.Machine.execBNz n ws ra rb off k s
  | .bEq n ws ra rb off k => Sys2Proof.Machine.execBEq n ws ra rb off k s
  | .bNe n ws ra rb off k => Sys2Proof.Machine.execBNe n ws ra rb off k s
  | .bLt n ws ra rb off k => Sys2Proof.Machine.execBLt n ws ra rb off k s
  | .bLtu n ws ra rb off k => Sys2Proof.Machine.execBLtu n ws ra rb off k s
  | .bGe n ws ra rb off k => Sys2Proof.Machine.execBGe n ws ra rb off k s
  | .bGeu n ws ra rb off k => Sys2Proof.Machine.execBGeu n ws ra rb off k s
  | .bP n ws pn neg off k => Sys2Proof.Machine.execBP n ws pn neg off k s
  | .bJ n ws ra rb off k => Sys2Proof.Machine.execBJ n ws ra rb off k s
  | .bCall n ws ra rb off k => Sys2Proof.Machine.execBCall n ws ra rb off k s
  | .bJr n ws ra rb off k => Sys2Proof.Machine.execBJr n ws ra rb off k s
  | .pEq n ws pd ra rb k => Sys2Proof.Machine.execPEq n ws pd ra rb k s
  | .pNe n ws pd ra rb k => Sys2Proof.Machine.execPNe n ws pd ra rb k s
  | .pLt n ws pd ra rb k => Sys2Proof.Machine.execPLt n ws pd ra rb k s
  | .pLtu n ws pd ra rb k => Sys2Proof.Machine.execPLtu n ws pd ra rb k s
  | .pEqi n ws pd ra imm k => Sys2Proof.Machine.execPEqi n ws pd ra imm k s
  | .pLti n ws pd ra imm k => Sys2Proof.Machine.execPLti n ws pd ra imm k s
  | .pAnd n ws pd pa pb k => Sys2Proof.Machine.execPAnd n ws pd pa pb k s
  | .pOr n ws pd pa pb k => Sys2Proof.Machine.execPOr n ws pd pa pb k s
  | .pXor n ws pd pa pb k => Sys2Proof.Machine.execPXor n ws pd pa pb k s
  | .pNot n ws pd pa pb k => Sys2Proof.Machine.execPNot n ws pd pa pb k s
  | .dLd n ws dd ra imm k err => Sys2Proof.Machine.execDLd n ws dd ra imm k err s
  | .dSt n ws dd ra imm k => Sys2Proof.Machine.execDSt n ws dd ra imm k s
  | .dMov n ws dd ra ds k => Sys2Proof.Machine.execDMov n ws dd ra ds k s
  | .dSetbase n ws dd ra k => Sys2Proof.Machine.execDSetbase n ws dd ra k s
  | .dAddbase n ws dd ra k => Sys2Proof.Machine.execDAddbase n ws dd ra k s
  | .dSetrows n ws dd ra k => Sys2Proof.Machine.execDSetrows n ws dd ra k s
  | .dSetcols n ws dd ra k => Sys2Proof.Machine.execDSetcols n ws dd ra k s
  | .dSetstride n ws dd ra k => Sys2Proof.Machine.execDSetstride n ws dd ra k s
  | .dSettid n ws dd ra k => Sys2Proof.Machine.execDSettid n ws dd ra k s
  | .dSetscale n ws dd ra k => Sys2Proof.Machine.execDSetscale n ws dd ra k s
  | .dSetfmt n ws dd imm k => Sys2Proof.Machine.execDSetfmt n ws dd imm k s
  | .dZero n ws dd k => Sys2Proof.Machine.execDZero n ws dd k s
  | .dGet n ws rd ds w k => Sys2Proof.Machine.execDGet n ws rd ds w k s
  | .syncWait n ws sem count k => Sys2Proof.Machine.execSyncWait n ws sem count k s
  | .syncWsel n ws w sem count pred neg k => Sys2Proof.Machine.execSyncWsel n ws w sem count pred neg k s
  | .syncSig n ws sem val k => Sys2Proof.Machine.execSyncSig n ws sem val k s
  | .syncSet n ws sem val k => Sys2Proof.Machine.execSyncSet n ws sem val k s
  | .syncXsig n ws ra xs inc rank k => Sys2Proof.Machine.execSyncXsig n ws ra xs inc rank k s
  | .syncRead n ws rd sem k => Sys2Proof.Machine.execSyncRead n ws rd sem k s
  | .syncIdle n ws mask k => Sys2Proof.Machine.execSyncIdle n ws mask k s
  | .syncUntil n ws ra k => Sys2Proof.Machine.execSyncUntil n ws ra k s
  | .sysCsrr n ws rd ra off k => Sys2Proof.Machine.execSysCsrr n ws rd ra off k s
  | .sysCsrw n ws rd ra off k => Sys2Proof.Machine.execSysCsrw n ws rd ra off k s
  | .sysIfence n ws k => Sys2Proof.Machine.execSysIfence n ws k s
  | .sysFt n ws rd k => Sys2Proof.Machine.execSysFt n ws rd k s
  | .sysCyc n ws rd k => Sys2Proof.Machine.execSysCyc n ws rd k s
  | .sysEnd n ws k => Sys2Proof.Machine.execSysEnd n ws k s
  | .sysEvent n ws code k => Sys2Proof.Machine.execSysEvent n ws code k s
  | .coreEnd n => Sys2Proof.Machine.execCoreEnd n s
  | .instructionFetchFill n err => Sys2Proof.Machine.execInstructionFetchFill n err s
  | .dispatch n w k => Sys2Proof.Machine.execDispatch n w k s
  | .instructionStart n q err => Sys2Proof.Machine.execInstructionStart n q err s
  | .instructionComplete n q fails stretch => Sys2Proof.Machine.execInstructionComplete n q fails stretch s
  | .deadlockDetect n => Sys2Proof.Machine.execDeadlockDetect n s
  | .waitTimeoutExpiry n => Sys2Proof.Machine.execWaitTimeoutExpiry n s
  | .mvCopy n => Sys2Proof.Machine.execMvCopy n s
  | .mvCvt n => Sys2Proof.Machine.execMvCvt n s
  | .mvFill n => Sys2Proof.Machine.execMvFill n s
  | .mvRed n => Sys2Proof.Machine.execMvRed n s
  | .mvBcast n => Sys2Proof.Machine.execMvBcast n s
  | .mmIssue n stretch => Sys2Proof.Machine.execMmIssue n stretch s
  | .mmDrain n => Sys2Proof.Machine.execMmDrain n s
  | .issueAccumulated n bank upsets => Sys2Proof.Machine.execIssueAccumulated n bank upsets s
  | .drainVerdict n => Sys2Proof.Machine.execDrainVerdict n s
  | .matrixRetry n upsets err => Sys2Proof.Machine.execMatrixRetry n upsets err s
  | .retryVerdict n => Sys2Proof.Machine.execRetryVerdict n s
  | .arraysGate n => Sys2Proof.Machine.execArraysGate n s
  | .arraysRiseEnd n => Sys2Proof.Machine.execArraysRiseEnd n s
  | .keepWarmExpiry n => Sys2Proof.Machine.execKeepWarmExpiry n s
  | .vecAdd n => Sys2Proof.Machine.execVecAdd n s
  | .vecSub n => Sys2Proof.Machine.execVecSub n s
  | .vecMul n => Sys2Proof.Machine.execVecMul n s
  | .vecMax n => Sys2Proof.Machine.execVecMax n s
  | .vecMin n => Sys2Proof.Machine.execVecMin n s
  | .vecFma n => Sys2Proof.Machine.execVecFma n s
  | .vecAdds n => Sys2Proof.Machine.execVecAdds n s
  | .vecMuls n => Sys2Proof.Machine.execVecMuls n s
  | .vecBcadd n => Sys2Proof.Machine.execVecBcadd n s
  | .vecBcmul n => Sys2Proof.Machine.execVecBcmul n s
  | .vecCvt n => Sys2Proof.Machine.execVecCvt n s
  | .vecExp2 n => Sys2Proof.Machine.execVecExp2 n s
  | .vecLog2 n => Sys2Proof.Machine.execVecLog2 n s
  | .vecRcp n => Sys2Proof.Machine.execVecRcp n s
  | .vecRsqrt n => Sys2Proof.Machine.execVecRsqrt n s
  | .vecSqrt n => Sys2Proof.Machine.execVecSqrt n s
  | .vecAbs n => Sys2Proof.Machine.execVecAbs n s
  | .vecNeg n => Sys2Proof.Machine.execVecNeg n s
  | .vecRelu n => Sys2Proof.Machine.execVecRelu n s
  | .vecSigmoid n => Sys2Proof.Machine.execVecSigmoid n s
  | .vecTanh n => Sys2Proof.Machine.execVecTanh n s
  | .vecExp n => Sys2Proof.Machine.execVecExp n s
  | .vecSoftplus n => Sys2Proof.Machine.execVecSoftplus n s
  | .vecElu n => Sys2Proof.Machine.execVecElu n s
  | .vecGelu n => Sys2Proof.Machine.execVecGelu n s
  | .vecSilu n => Sys2Proof.Machine.execVecSilu n s
  | .vecErf n => Sys2Proof.Machine.execVecErf n s
  | .vecDrelu n => Sys2Proof.Machine.execVecDrelu n s
  | .vecDsigmoid n => Sys2Proof.Machine.execVecDsigmoid n s
  | .vecDtanh n => Sys2Proof.Machine.execVecDtanh n s
  | .vecDexp n => Sys2Proof.Machine.execVecDexp n s
  | .vecDsoftplus n => Sys2Proof.Machine.execVecDsoftplus n s
  | .vecDelu n => Sys2Proof.Machine.execVecDelu n s
  | .vecDgelu n => Sys2Proof.Machine.execVecDgelu n s
  | .vecDsilu n => Sys2Proof.Machine.execVecDsilu n s
  | .vecDerf n => Sys2Proof.Machine.execVecDerf n s
  | .vecRsum n => Sys2Proof.Machine.execVecRsum n s
  | .vecRmax n => Sys2Proof.Machine.execVecRmax n s
  | .vecRmin n => Sys2Proof.Machine.execVecRmin n s
  | .vecRsumsq n => Sys2Proof.Machine.execVecRsumsq n s
  | .rowStat n => Sys2Proof.Machine.execRowStat n s
  | .rowSoftmax n => Sys2Proof.Machine.execRowSoftmax n s
  | .rowOsmx n => Sys2Proof.Machine.execRowOsmx n s
  | .rowFinish n => Sys2Proof.Machine.execRowFinish n s
  | .rowMerge n => Sys2Proof.Machine.execRowMerge n s
  | .rowNorm n => Sys2Proof.Machine.execRowNorm n s
  | .rowRms n => Sys2Proof.Machine.execRowRms n s
  | .rowDsoftmax n => Sys2Proof.Machine.execRowDsoftmax n s
  | .rowDnorm n => Sys2Proof.Machine.execRowDnorm n s
  | .rowDrms n => Sys2Proof.Machine.execRowDrms n s
  | .cmPut n => Sys2Proof.Machine.execCmPut n s
  | .cmGet n err => Sys2Proof.Machine.execCmGet n err s
  | .cmAmo n k err => Sys2Proof.Machine.execCmAmo n k err s
  | .cmSend n err => Sys2Proof.Machine.execCmSend n err s
  | .cmSignal n => Sys2Proof.Machine.execCmSignal n s
  | .cmAllreduce n => Sys2Proof.Machine.execCmAllreduce n s
  | .cmRedscat n => Sys2Proof.Machine.execCmRedscat n s
  | .cmAllgather n => Sys2Proof.Machine.execCmAllgather n s
  | .cmBcast n => Sys2Proof.Machine.execCmBcast n s
  | .cmReduce n => Sys2Proof.Machine.execCmReduce n s
  | .cmAlltoall n => Sys2Proof.Machine.execCmAlltoall n s
  | .cmBarrier n => Sys2Proof.Machine.execCmBarrier n s
  | .coreStartRequest n => Sys2Proof.Machine.execCoreStartRequest n s
  | .corePllLock n => Sys2Proof.Machine.execCorePllLock n s
  | .coreIdleGate n => Sys2Proof.Machine.execCoreIdleGate n s
  | .scratchpadClearDone n => Sys2Proof.Machine.execScratchpadClearDone n s
  | .d2dCrcReplay d => Sys2Proof.Machine.execD2dCrcReplay d s
  | .d2dLaneFail d g l => Sys2Proof.Machine.execD2dLaneFail d g l s
  | .patrolScrub addr err => Sys2Proof.Machine.execPatrolScrub addr err s
  | .channelNotAnswering addr jobs => Sys2Proof.Machine.execChannelNotAnswering addr jobs s
  | .atomicOperation src k err => Sys2Proof.Machine.execAtomicOperation src k err s
  | .refreshRateRaise k => Sys2Proof.Machine.execRefreshRateRaise k s
  | .refreshRateLower k => Sys2Proof.Machine.execRefreshRateLower k s
  | .windowZeroingDone job w => Sys2Proof.Machine.execWindowZeroingDone job w s
  | .flitReceive idx f count => Sys2Proof.Machine.execFlitReceive idx f count s
  | .ackTimeout idx => Sys2Proof.Machine.execAckTimeout idx s
  | .pathDown idx cause => Sys2Proof.Machine.execPathDown idx cause s
  | .routeChangeResend => Sys2Proof.Machine.execRouteChangeResend s
  | .pathStateBroadcast => Sys2Proof.Machine.execPathStateBroadcast s
  | .pathStateReceive chip usable leaving => Sys2Proof.Machine.execPathStateReceive chip usable leaving s
  | .keyEpochChange idx => Sys2Proof.Machine.execKeyEpochChange idx s
  | .previousKeyDiscard idx => Sys2Proof.Machine.execPreviousKeyDiscard idx s
  | .put h desc data => Sys2Proof.Machine.execPut h desc data s
  | .get h desc err => Sys2Proof.Machine.execGet h desc err s
  | .amo h desc aop operand expected k err => Sys2Proof.Machine.execAmo h desc aop operand expected k err s
  | .send h ring data err => Sys2Proof.Machine.execSend h ring data err s
  | .signal h addr inc => Sys2Proof.Machine.execSignal h addr inc s
  | .ack r crc => Sys2Proof.Machine.execAck r crc s
  | .getData r data crc => Sys2Proof.Machine.execGetData r data crc s
  | .amoOld r old crc => Sys2Proof.Machine.execAmoOld r old crc s
  | .resend r expected failed crc => Sys2Proof.Machine.execResend r expected failed crc s
  | .fail r status crc => Sys2Proof.Machine.execFail r status crc s
  | .resendHoldoffExpiry key half => Sys2Proof.Machine.execResendHoldoffExpiry key half s
  | .messageRetryTimer r => Sys2Proof.Machine.execMessageRetryTimer r s
  | .streamRelease key half => Sys2Proof.Machine.execStreamRelease key half s
  | .messageTimeout r => Sys2Proof.Machine.execMessageTimeout r s
  | .pathRetrain idx => Sys2Proof.Machine.execPathRetrain idx s
  | .discovery port fs => Sys2Proof.Machine.execDiscovery port fs s
  | .missingPeerRecheck idx f => Sys2Proof.Machine.execMissingPeerRecheck idx f s
  | .groupCreate job g => Sys2Proof.Machine.execGroupCreate job g s
  | .join grp rank job hash cpl failed => Sys2Proof.Machine.execJoin grp rank job hash cpl failed s
  | .noJoin job grp => Sys2Proof.Machine.execNoJoin job grp s
  | .collectiveStart grp rank err k => Sys2Proof.Machine.execCollectiveStart grp rank err k s
  | .descriptorRecord grp dst src rec k h => Sys2Proof.Machine.execDescriptorRecord grp dst src rec k h s
  | .collectiveChunk grp dst src seq kind elems k h => Sys2Proof.Machine.execCollectiveChunk grp dst src seq kind elems k h s
  | .collectiveComplete grp rank => Sys2Proof.Machine.execCollectiveComplete grp rank s
  | .collectiveTimeout grp rank => Sys2Proof.Machine.execCollectiveTimeout grp rank s
  | .abort grp a => Sys2Proof.Machine.execAbort grp a s
  | .laserLight => Sys2Proof.Machine.execLaserLight s
  | .laneSweepDone idx => Sys2Proof.Machine.execLaneSweepDone idx s
  | .laneRestoreDone idx => Sys2Proof.Machine.execLaneRestoreDone idx s
  | .laneRestoreTimeout idx => Sys2Proof.Machine.execLaneRestoreTimeout idx s
  | .laneAcquired idx loofs rxp => Sys2Proof.Machine.execLaneAcquired idx loofs rxp s
  | .laneVerify idx pilot index moved => Sys2Proof.Machine.execLaneVerify idx pilot index moved s
  | .lossOfLock idx => Sys2Proof.Machine.execLossOfLock idx s
  | .berLimitExceeded idx preber corr uncorr => Sys2Proof.Machine.execBerLimitExceeded idx preber corr uncorr s
  | .berWarning idx preber corr uncorr => Sys2Proof.Machine.execBerWarning idx preber corr uncorr s
  | .wrongIndexInService idx pilot index => Sys2Proof.Machine.execWrongIndexInService idx pilot index s
  | .relockAttempt idx found => Sys2Proof.Machine.execRelockAttempt idx found s
  | .attemptCountReset idx => Sys2Proof.Machine.execAttemptCountReset idx s
  | .optLaneRetry k idx => Sys2Proof.Machine.execOptLaneRetry k idx s
  | .hullCold k => Sys2Proof.Machine.execHullCold k s
  | .biasSample idx bias power offset temp => Sys2Proof.Machine.execBiasSample idx bias power offset temp s
  | .spareWarmDone idx => Sys2Proof.Machine.execSpareWarmDone idx s
  | .laserSwap c => Sys2Proof.Machine.execLaserSwap c s
  | .swapStageDone c => Sys2Proof.Machine.execSwapStageDone c s
  | .suddenLaserFailure idx => Sys2Proof.Machine.execSuddenLaserFailure idx s
  | .cartridgeRemoved c => Sys2Proof.Machine.execCartridgeRemoved c s
  | .hostLaserSwap j ratio failed => Sys2Proof.Machine.execHostLaserSwap j ratio failed s
  | .bypassClose => Sys2Proof.Machine.execBypassClose s
  | .bypassOpen => Sys2Proof.Machine.execBypassOpen s
  | .supFrame f => Sys2Proof.Machine.execSupFrame f s
  | .heartbeat => Sys2Proof.Machine.execHeartbeat s
  | .heartbeatMissing signalLost => Sys2Proof.Machine.execHeartbeatMissing signalLost s
  | .hostLinkLoss j conn => Sys2Proof.Machine.execHostLinkLoss j conn s
  | .hostReconnect => Sys2Proof.Machine.execHostReconnect s
  | .pieceNoConnection xfer => Sys2Proof.Machine.execPieceNoConnection xfer s
  | .rdmaPieceComplete xfer piece => Sys2Proof.Machine.execRdmaPieceComplete xfer piece s
  | .cnp j server => Sys2Proof.Machine.execCnp j server s
  | .cnpRateRecovery j server => Sys2Proof.Machine.execCnpRateRecovery j server s
  | .lldpTransmit j => Sys2Proof.Machine.execLldpTransmit j s
  | .ptpMessage j ptp => Sys2Proof.Machine.execPtpMessage j ptp s
  | .hello port serving key sigOk nets => Sys2Proof.Machine.execHello port serving key sigOk nets s
  | .data r port ctr tagOk reqid mtype => Sys2Proof.Machine.execData r port ctr tagOk reqid mtype s
  | .close r ctr tagOk => Sys2Proof.Machine.execClose r ctr tagOk s
  | .sessionIdleTimeout r => Sys2Proof.Machine.execSessionIdleTimeout r s
  | .reqidHoldExpiry r => Sys2Proof.Machine.execReqidHoldExpiry r s
  | .requestRetransmit k => Sys2Proof.Machine.execRequestRetransmit k s
  | .ping k => Sys2Proof.Machine.execPing k s
  | .csrRead k body => Sys2Proof.Machine.execCsrRead k body s
  | .csrWrite k body => Sys2Proof.Machine.execCsrWrite k body s
  | .lockWrite k o => Sys2Proof.Machine.execLockWrite k o s
  | .submit k body sigOk => Sys2Proof.Machine.execSubmit k body sigOk s
  | .jobAdmission digest desc prog args places => Sys2Proof.Machine.execJobAdmission digest desc prog args places s
  | .jobStarted job => Sys2Proof.Machine.execJobStarted job s
  | .cancel k job => Sys2Proof.Machine.execCancel k job s
  | .jobQuery k job => Sys2Proof.Machine.execJobQuery k job s
  | .worklist k list server rkey va len interval => Sys2Proof.Machine.execWorklist k list server rkey va len interval s
  | .worklistPoll list read => Sys2Proof.Machine.execWorklistPoll list read s
  | .completionRecordWrite job => Sys2Proof.Machine.execCompletionRecordWrite job s
  | .completionRingRecheck job cons => Sys2Proof.Machine.execCompletionRingRecheck job cons s
  | .sinkSet k sink mask => Sys2Proof.Machine.execSinkSet k sink mask s
  | .event sink => Sys2Proof.Machine.execEvent sink s
  | .levelSet k body => Sys2Proof.Machine.execLevelSet k body s
  | .resume k => Sys2Proof.Machine.execResume k s
  | .reset k mode => Sys2Proof.Machine.execReset k mode s
  | .update k body fetch => Sys2Proof.Machine.execUpdate k body fetch s
  | .updateWriteDone ok => Sys2Proof.Machine.execUpdateWriteDone ok s
  | .attest k nonce => Sys2Proof.Machine.execAttest k nonce s
  | .enroll k body claimOk => Sys2Proof.Machine.execEnroll k body claimOk s
  | .acquit k => Sys2Proof.Machine.execAcquit k s
  | .acquittalStageDone => Sys2Proof.Machine.execAcquittalStageDone s
  | .acquittalVerdict fail => Sys2Proof.Machine.execAcquittalVerdict fail s
  | .drillSet k body => Sys2Proof.Machine.execDrillSet k body s
  | .serviceQueuePoll job svc stored buddyBase => Sys2Proof.Machine.execServiceQueuePoll job svc stored buddyBase s
  | .ingestSlotWrite job svc entry read => Sys2Proof.Machine.execIngestSlotWrite job svc entry read s
  | .generate r num params last tokens => Sys2Proof.Machine.execGenerate r num params last tokens s
  | .append r num last tokens => Sys2Proof.Machine.execAppend r num last tokens s
  | .stop r num => Sys2Proof.Machine.execStop r num s
  | .tokenRingPoll job svc => Sys2Proof.Machine.execTokenRingPoll job svc s
  | .estimateUpdate estimate => Sys2Proof.Machine.execEstimateUpdate estimate s
  | .alignedStepRelease => Sys2Proof.Machine.execAlignedStepRelease s
  | .powerMeasurement measured estimate mainv maina auxv => Sys2Proof.Machine.execPowerMeasurement measured estimate mainv maina auxv s
  | .powerControlInterval pred duty eq => Sys2Proof.Machine.execPowerControlInterval pred duty eq s
  | .pstateStepDone n => Sys2Proof.Machine.execPstateStepDone n s
  | .pauseSlot => Sys2Proof.Machine.execPauseSlot s
  | .calibrationComplete => Sys2Proof.Machine.execCalibrationComplete s
  | .measuredModeExit => Sys2Proof.Machine.execMeasuredModeExit s
  | .powCapWrite k cap => Sys2Proof.Machine.execPowCapWrite k cap s
  | .powModeWrite k mode eq align => Sys2Proof.Machine.execPowModeWrite k mode eq align s
  | .droopDetect n cycles excess => Sys2Proof.Machine.execDroopDetect n cycles excess s
  | .droopCeilingRise n => Sys2Proof.Machine.execDroopCeilingRise n s
  | .poolEpoch => Sys2Proof.Machine.execPoolEpoch s
  | .poolReport m => Sys2Proof.Machine.execPoolReport m s
  | .poolBudgetCompute => Sys2Proof.Machine.execPoolBudgetCompute s
  | .temperatureSample site a b => Sys2Proof.Machine.execTemperatureSample site a b s
  | .thermalControl => Sys2Proof.Machine.execThermalControl s
  | .tripHoldEnd => Sys2Proof.Machine.execTripHoldEnd s
  | .ftAnnounce => Sys2Proof.Machine.execFtAnnounce s
  | .ftExchange t1 t2 t3 t4 freq => Sys2Proof.Machine.execFtExchange t1 t2 t3 t4 freq s
  | .ftHoldover => Sys2Proof.Machine.execFtHoldover s
  | .auxPowerApplied slot elapsed => Sys2Proof.Machine.execAuxPowerApplied slot elapsed s
  | .auxPowerLost => Sys2Proof.Machine.execAuxPowerLost s
  | .mainEnHigh => Sys2Proof.Machine.execMainEnHigh s
  | .mainEnLow => Sys2Proof.Machine.execMainEnLow s
  | .inputUndervoltage => Sys2Proof.Machine.execInputUndervoltage s
  | .inputOvervoltage => Sys2Proof.Machine.execInputOvervoltage s
  | .resetNLow => Sys2Proof.Machine.execResetNLow s
  | .resetNRelease => Sys2Proof.Machine.execResetNRelease s
  | .bootStageDone f => Sys2Proof.Machine.execBootStageDone f s
  | .bootComplete => Sys2Proof.Machine.execBootComplete s
  | .bootWatchdog => Sys2Proof.Machine.execBootWatchdog s
  | .recoveryFetch image => Sys2Proof.Machine.execRecoveryFetch image s
  | .recoveryRoundWait => Sys2Proof.Machine.execRecoveryRoundWait s
  | .mbxSubmit sigOk => Sys2Proof.Machine.execMbxSubmit sigOk s
  | .hbmChanClr k stack bits => Sys2Proof.Machine.execHbmChanClr k stack bits s
  | .jobHalt => Sys2Proof.Machine.execJobHalt s
  | .halt m => Sys2Proof.Machine.execHalt m s
  | .peerLost job chip => Sys2Proof.Machine.execPeerLost job chip s
  | .retentionEnd job base => Sys2Proof.Machine.execRetentionEnd job base s
  | .hltRelease k => Sys2Proof.Machine.execHltRelease k s
  | .healthEvaluation => Sys2Proof.Machine.execHealthEvaluation s
  | .healthJournal => Sys2Proof.Machine.execHealthJournal s
  | .drillFire kind unit => Sys2Proof.Machine.execDrillFire kind unit s
  | .drillEscape kind unit pair => Sys2Proof.Machine.execDrillEscape kind unit pair s
  | .eventRateSecond => Sys2Proof.Machine.execEventRateSecond s
  | .fabricTimeReached n => Sys2Proof.Machine.execFabricTimeReached n s
  | .drainBankRead n => Sys2Proof.Machine.execDrainBankRead n s
  | .csrValueReturn n => Sys2Proof.Machine.execCsrValueReturn n s
  | .rootAnnouncement chip prio root => Sys2Proof.Machine.execRootAnnouncement chip prio root s
  | .hostPortUp j lease gateway => Sys2Proof.Machine.execHostPortUp j lease gateway s
  | .mainInputInRange => Sys2Proof.Machine.execMainInputInRange s
  | .recoveryImageWritten ok => Sys2Proof.Machine.execRecoveryImageWritten ok s
  | .debugPortWrite o mask value => Sys2Proof.Machine.execDebugPortWrite o mask value s
  | .icmpEchoRequest j v6 => Sys2Proof.Machine.execIcmpEchoRequest j v6 s
  | .lldpReceive j neighbour => Sys2Proof.Machine.execLldpReceive j neighbour s

end Sys2Proof.Machine
end

