-- ==== Sys2Proof/Machine/Words.lean ====
section
/-! DEFINITION. The word of each instruction of the sequencer (spec/04 R91, R98, R105, R109): the word that the sequencer must find at pc for the instruction's
command to execute. -/

namespace Sys2Proof.Machine

/-- Format P: a predicate from two scalar registers (R98). -/
def fmtP (pd : BitVec 3) (ra rb : BitVec 5) : Nat := pd.toNat * 2 ^ 45 + ra.toNat * 2 ^ 40 + rb.toNat * 2 ^ 35

/-- Format PI: a predicate from a scalar register and an immediate (R98). -/
def fmtPI (pd : BitVec 3) (ra : BitVec 5) (imm : BitVec 40) : Nat := pd.toNat * 2 ^ 45 + ra.toNat * 2 ^ 40 + imm.toNat

/-- The instruction word that a command of the sequencer executes; none for every other command. -/
def instrWord (i : Instr) : Option Word :=
  match i with
  | .nop _ ws _ => some (felnuWord 0 0 ws 0)
  | .sAdd _ ws rd ra rb _ => some (felnuWord 0 0x01 ws (fmtR rd ra rb))
  | .sSub _ ws rd ra rb _ => some (felnuWord 0 0x02 ws (fmtR rd ra rb))
  | .sMul _ ws rd ra rb _ => some (felnuWord 0 0x03 ws (fmtR rd ra rb))
  | .sMulhu _ ws rd ra rb _ => some (felnuWord 0 0x04 ws (fmtR rd ra rb))
  | .sDivu _ ws rd ra rb _ => some (felnuWord 0 0x05 ws (fmtR rd ra rb))
  | .sRemu _ ws rd ra rb _ => some (felnuWord 0 0x06 ws (fmtR rd ra rb))
  | .sAnd _ ws rd ra rb _ => some (felnuWord 0 0x07 ws (fmtR rd ra rb))
  | .sOr _ ws rd ra rb _ => some (felnuWord 0 0x08 ws (fmtR rd ra rb))
  | .sXor _ ws rd ra rb _ => some (felnuWord 0 0x09 ws (fmtR rd ra rb))
  | .sShl _ ws rd ra rb _ => some (felnuWord 0 0x0A ws (fmtR rd ra rb))
  | .sShr _ ws rd ra rb _ => some (felnuWord 0 0x0B ws (fmtR rd ra rb))
  | .sSra _ ws rd ra rb _ => some (felnuWord 0 0x0C ws (fmtR rd ra rb))
  | .sMin _ ws rd ra rb _ => some (felnuWord 0 0x0D ws (fmtR rd ra rb))
  | .sMax _ ws rd ra rb _ => some (felnuWord 0 0x0E ws (fmtR rd ra rb))
  | .sAddi _ ws rd ra imm _ => some (felnuWord 0 0x10 ws (fmtI rd ra imm))
  | .sSubi _ ws rd ra imm _ => some (felnuWord 0 0x11 ws (fmtI rd ra imm))
  | .sMuli _ ws rd ra imm _ => some (felnuWord 0 0x12 ws (fmtI rd ra imm))
  | .sAndi _ ws rd ra imm _ => some (felnuWord 0 0x13 ws (fmtI rd ra imm))
  | .sOri _ ws rd ra imm _ => some (felnuWord 0 0x14 ws (fmtI rd ra imm))
  | .sXori _ ws rd ra imm _ => some (felnuWord 0 0x15 ws (fmtI rd ra imm))
  | .sShli _ ws rd ra imm _ => some (felnuWord 0 0x16 ws (fmtI rd ra imm))
  | .sShri _ ws rd ra imm _ => some (felnuWord 0 0x17 ws (fmtI rd ra imm))
  | .sSrai _ ws rd ra imm _ => some (felnuWord 0 0x18 ws (fmtI rd ra imm))
  | .sLi _ ws rd imm _ => some (felnuWord 0 0x1A ws (fmtU rd imm))
  | .sLih _ ws rd imm _ => some (felnuWord 0 0x1B ws (fmtU rd imm))
  | .sLd _ ws rd ra imm _ _ => some (felnuWord 0 0x20 ws (fmtI rd ra imm))
  | .sLd32 _ ws rd ra imm _ _ => some (felnuWord 0 0x21 ws (fmtI rd ra imm))
  | .sSt _ ws rd ra imm _ => some (felnuWord 0 0x22 ws (fmtI rd ra imm))
  | .sSt32 _ ws rd ra imm _ => some (felnuWord 0 0x23 ws (fmtI rd ra imm))
  | .sAmoadd _ ws rd ra rb _ => some (felnuWord 0 0x24 ws (fmtR rd ra rb))
  | .sAmomax _ ws rd ra rb _ => some (felnuWord 0 0x25 ws (fmtR rd ra rb))
  | .sAmomin _ ws rd ra rb _ => some (felnuWord 0 0x26 ws (fmtR rd ra rb))
  | .sAmoswap _ ws rd ra rb _ => some (felnuWord 0 0x27 ws (fmtR rd ra rb))
  | .sAmocas _ ws rd ra rb _ => some (felnuWord 0 0x28 ws (fmtR rd ra rb))
  | .bZ _ ws ra rb off _ => some (felnuWord 0 0x30 ws (fmtB ra rb off))
  | .bNz _ ws ra rb off _ => some (felnuWord 0 0x31 ws (fmtB ra rb off))
  | .bEq _ ws ra rb off _ => some (felnuWord 0 0x32 ws (fmtB ra rb off))
  | .bNe _ ws ra rb off _ => some (felnuWord 0 0x33 ws (fmtB ra rb off))
  | .bLt _ ws ra rb off _ => some (felnuWord 0 0x34 ws (fmtB ra rb off))
  | .bLtu _ ws ra rb off _ => some (felnuWord 0 0x35 ws (fmtB ra rb off))
  | .bGe _ ws ra rb off _ => some (felnuWord 0 0x36 ws (fmtB ra rb off))
  | .bGeu _ ws ra rb off _ => some (felnuWord 0 0x37 ws (fmtB ra rb off))
  | .bP _ ws pn neg off _ => some (felnuWord 0 0x38 ws (pn.toNat * 2 ^ 45 + (if neg then 2 ^ 44 else 0) + off.toNat))
  | .bJ _ ws ra rb off _ => some (felnuWord 0 0x39 ws (fmtB ra rb off))
  | .bCall _ ws ra rb off _ => some (felnuWord 0 0x3A ws (fmtB ra rb off))
  | .bJr _ ws ra rb off _ => some (felnuWord 0 0x3B ws (fmtB ra rb off))
  | .pEq _ ws pd ra rb _ => some (felnuWord 0 0x40 ws (fmtP pd ra rb))
  | .pNe _ ws pd ra rb _ => some (felnuWord 0 0x41 ws (fmtP pd ra rb))
  | .pLt _ ws pd ra rb _ => some (felnuWord 0 0x42 ws (fmtP pd ra rb))
  | .pLtu _ ws pd ra rb _ => some (felnuWord 0 0x43 ws (fmtP pd ra rb))
  | .pEqi _ ws pd ra imm _ => some (felnuWord 0 0x44 ws (fmtPI pd ra imm))
  | .pLti _ ws pd ra imm _ => some (felnuWord 0 0x45 ws (fmtPI pd ra imm))
  | .pAnd _ ws pd pa pb _ => some (felnuWord 0 0x46 ws (fmtPL pd pa pb))
  | .pOr _ ws pd pa pb _ => some (felnuWord 0 0x47 ws (fmtPL pd pa pb))
  | .pXor _ ws pd pa pb _ => some (felnuWord 0 0x48 ws (fmtPL pd pa pb))
  | .pNot _ ws pd pa pb _ => some (felnuWord 0 0x49 ws (fmtPL pd pa pb))
  | .dLd _ ws dd ra imm _ _ => some (felnuWord 0 0x50 ws (fmtDI dd ra imm))
  | .dSt _ ws dd ra imm _ => some (felnuWord 0 0x51 ws (fmtDI dd ra imm))
  | .dMov _ ws dd ra ds _ => some (felnuWord 0 0x52 ws (fmtD dd ra ds))
  | .dSetbase _ ws dd ra _ => some (felnuWord 0 0x53 ws (fmtD dd ra 0))
  | .dAddbase _ ws dd ra _ => some (felnuWord 0 0x54 ws (fmtD dd ra 0))
  | .dSetrows _ ws dd ra _ => some (felnuWord 0 0x55 ws (fmtD dd ra 0))
  | .dSetcols _ ws dd ra _ => some (felnuWord 0 0x56 ws (fmtD dd ra 0))
  | .dSetstride _ ws dd ra _ => some (felnuWord 0 0x57 ws (fmtD dd ra 0))
  | .dSettid _ ws dd ra _ => some (felnuWord 0 0x58 ws (fmtD dd ra 0))
  | .dSetscale _ ws dd ra _ => some (felnuWord 0 0x59 ws (fmtD dd ra 0))
  | .dSetfmt _ ws dd imm _ => some (felnuWord 0 0x5A ws (dd.toNat * 2 ^ 44 + imm.toNat * 2 ^ 34))
  | .dZero _ ws dd _ => some (felnuWord 0 0x5B ws (fmtD dd 0 0))
  | .dGet _ ws rd ds w _ => some (felnuWord 0 0x5C ws (rd.toNat * 2 ^ 43 + ds.toNat * 2 ^ 39 + w.toNat * 2 ^ 37))
  | .syncWait _ ws sem count _ => some (felnuWord 6 0 ws (sem.toNat * 2 ^ 42 + count.toNat * 2 ^ 26))
  | .syncWsel _ ws w sem count pred neg _ =>
    some (felnuWord 6 1 ws (w.toNat * 2 ^ 44 + sem.toNat * 2 ^ 38 + count.toNat * 2 ^ 22 + pred.toNat * 2 ^ 19 + (if neg then 2 ^ 18 else 0)))
  | .syncSig _ ws sem val _ => some (felnuWord 6 2 ws (sem.toNat * 2 ^ 42 + val.toNat * 2 ^ 26))
  | .syncSet _ ws sem val _ => some (felnuWord 6 3 ws (sem.toNat * 2 ^ 42 + val.toNat * 2 ^ 26))
  | .syncXsig _ ws ra xs inc rank _ =>
    some (felnuWord 6 4 ws (ra.toNat * 2 ^ 43 + xs.toNat * 2 ^ 39 + inc.toNat * 2 ^ 23 + (if rank then 2 ^ 22 else 0)))
  | .syncRead _ ws rd sem _ => some (felnuWord 6 5 ws (rd.toNat * 2 ^ 43 + sem.toNat * 2 ^ 37))
  | .syncIdle _ ws mask _ => some (felnuWord 6 6 ws (mask.toNat * 2 ^ 42))
  | .syncUntil _ ws ra _ => some (felnuWord 6 7 ws (ra.toNat * 2 ^ 43))
  | .sysCsrr _ ws rd ra off _ => some (felnuWord 7 0 ws (rd.toNat * 2 ^ 43 + ra.toNat * 2 ^ 38 + off.toNat))
  | .sysCsrw _ ws rd ra off _ => some (felnuWord 7 1 ws (rd.toNat * 2 ^ 43 + ra.toNat * 2 ^ 38 + off.toNat))
  | .sysIfence _ ws _ => some (felnuWord 7 2 ws 0)
  | .sysFt _ ws rd _ => some (felnuWord 7 3 ws (rd.toNat * 2 ^ 43))
  | .sysCyc _ ws rd _ => some (felnuWord 7 4 ws (rd.toNat * 2 ^ 43))
  | .sysEnd _ ws _ => some (felnuWord 7 5 ws 0)
  | .sysEvent _ ws code _ => some (felnuWord 7 6 ws code.toNat)
  | .dispatch _ w _ => some w
  | _ => none

end Sys2Proof.Machine
end

