-- ==== Sys2Proof/Safety.lean ====
section
/-! DEFINITION. What a safe run is: memory and the register file keep their canonical form (spec/16 R466; log 5), and no run ends in a
fault or a refusal. Then the terms in which the statements speak of what a command finds and of what it leaves. -/

namespace Sys2Proof.Safety

open Sys2Proof.Machine

/-- Memory lists rising addresses and no byte that an unlisted address would read as. -/
abbrev memCanonical (s : State) : Prop := Memory.wf s.mem = true

/-- The register file lists rising offsets and no register at its reset value. -/
abbrev regsCanonical (s : State) : Prop := sparseWf csrReset s.regs = true

/-- A step goes on. -/
def goesOn (s : State) : Prop := ∃ t, step s = .next t

/-! ### Instructions of the sequencer -/

/-- Core n is RUNNING, has taken no trap and waits on nothing, and no drill waits to disturb its lockstep comparison: an instruction of the
sequencer can execute (spec/03 R54, R80; 14 R453). -/
def SeqFree (s : State) (n : Fin 32) : Prop :=
  (s.cores[n]).run = .running ∧ (s.cores[n]).stopping = none ∧ (s.cores[n]).wait = .free ∧ s.drillArmed 3 n.val false = false

/-- The word of the command's instruction is the one that the sequencer of core n finds at pc, in the line that it holds (spec/03 R78, R79). -/
def Finds (s : State) (n : Fin 32) (c : Instr) : Prop := ∃ w, instrWord c = some w ∧ s.finds n w = true

/-- The instruction behind the one at pc can be fetched (spec/03 R77). -/
def NextFetchable (s : State) (n : Fin 32) : Prop := fetchable n ((s.cores[n]).pc + 8).toNat = true

/-- The wait selector ws lets the instruction execute: its predicate holds, and what the waiters served before the sequencer leave of its semaphore
has reached COUNT (spec/03 R62 to R64). -/
def SelectorPasses (s : State) (n : Fin 32) (ws : BitVec 4) : Prop :=
  predHolds (s.cores[n]) ((s.cores[n]).wsEntry ws) = true ∧
  wselCount ((s.cores[n]).wsEntry ws) ≤ s.semLeft n QueueId.all (wselSem ((s.cores[n]).wsEntry ws))

/-- The semaphores of core n once the selector ws has been consumed (spec/03 R62). -/
def semsAfter (s : State) (n : Fin 32) (ws : BitVec 4) (code : Nat) : Nat :=
  if code = wselSem ((s.cores[n]).wsEntry ws) then (s.cores[n]).sem code - wselCount ((s.cores[n]).wsEntry ws) else (s.cores[n]).sem code

/-- What the waiters served before the sequencer leave of a semaphore once the selector ws has been consumed (spec/03 R62, R64). -/
def shareAfter (s : State) (n : Fin 32) (ws : BitVec 4) (code : Nat) : Nat :=
  (s.modCore n (fun c => c.setSem (wselSem (c.wsEntry ws)) (c.sem (wselSem (c.wsEntry ws)) - wselCount (c.wsEntry ws)))).semLeft n QueueId.all code

/-- Nothing outside core n has changed, memory included. -/
def OutsideCore (s t : State) (n : Fin 32) : Prop :=
  t = { s with cores := t.cores } ∧ (∀ m : Fin 32, m ≠ n → t.cores[m] = s.cores[m]) ∧ ∀ a, t.readByte a = s.readByte a

/-- Of core n itself, everything but scalar, predicate and descriptor registers, semaphores, pc, wait, instruction buffer and the traffic of an access
on the mesh is unchanged. -/
def CoreFrame (s t : State) (n : Fin 32) : Prop :=
  t.cores[n] = { s.cores[n] with
    sregs := (t.cores[n]).sregs, preds := (t.cores[n]).preds, dregs := (t.cores[n]).dregs, sems := (t.cores[n]).sems, pc := (t.cores[n]).pc
    wait := (t.cores[n]).wait, lines := (t.cores[n]).lines, fills := (t.cores[n]).fills, current := (t.cores[n]).current
    mesh := (t.cores[n]).mesh }

/-- The registers of core n: scalar, predicate and descriptor registers, and semaphores. -/
def Registers (t : State) (n : Fin 32) (x : BitVec 5 → Word) (p : BitVec 3 → Bool) (d : BitVec 4 → BitVec 256) (sem : Nat → Nat) : Prop :=
  (∀ r, (t.cores[n]).s r = x r) ∧ (∀ r, (t.cores[n]).p r = p r) ∧ (∀ r, (t.cores[n]).d r = d r) ∧ (∀ k, (t.cores[n]).sem k = sem k)

/-- Core n's registers are those of s, with the selector ws consumed. -/
def RegistersKept (s t : State) (n : Fin 32) (ws : BitVec 4) : Prop :=
  Registers t n (s.cores[n]).s (s.cores[n]).p (s.cores[n]).d (semsAfter s n ws)

/-- The sequencer of core n has gone on to the next instruction. -/
def WentOn (s t : State) (n : Fin 32) : Prop := (t.cores[n]).pc = (s.cores[n]).pc + 8 ∧ (t.cores[n]).wait = .free

/-- A function of registers with one register changed; register 0 stays as it is. -/
def upd {w : Nat} {α : Type} (f : BitVec w → α) (r : BitVec w) (v : α) (q : BitVec w) : α := if q = r ∧ r ≠ 0 then v else f q

/-- The command c of core n, whose instruction stands at pc under selector ws, completes: the scalar register rd receives v, the selector is consumed, and
nothing else of the registers, of the core or outside the core changes (spec/04 R99). -/
def PutsScalar (s : State) (n : Fin 32) (ws : BitVec 4) (c : Instr) (rd : BitVec 5) (v : Word) : Prop :=
  Finds s n c → ∃ t, exec c s = .next t ∧ WentOn s t n ∧ CoreFrame s t n ∧ OutsideCore s t n ∧
    Registers t n (upd (s.cores[n]).s rd v) (s.cores[n]).p (s.cores[n]).d (semsAfter s n ws)

/-- The same of a predicate register. -/
def PutsPredicate (s : State) (n : Fin 32) (ws : BitVec 4) (c : Instr) (pd : BitVec 3) (v : Bool) : Prop :=
  Finds s n c → ∃ t, exec c s = .next t ∧ WentOn s t n ∧ CoreFrame s t n ∧ OutsideCore s t n ∧
    Registers t n (s.cores[n]).s (upd (s.cores[n]).p pd v) (s.cores[n]).d (semsAfter s n ws)

/-- The same of a descriptor register. -/
def PutsDescriptor (s : State) (n : Fin 32) (ws : BitVec 4) (c : Instr) (dd : BitVec 4) (v : BitVec 256) : Prop :=
  Finds s n c → ∃ t, exec c s = .next t ∧ WentOn s t n ∧ CoreFrame s t n ∧ OutsideCore s t n ∧
    Registers t n (s.cores[n]).s (s.cores[n]).p (fun r => if r = dd then v else (s.cores[n]).d r) (semsAfter s n ws)

/-- The command c of core n under selector ws completes with the pc at target: registers, core and module are otherwise unchanged. -/
def GoesTo (s : State) (n : Fin 32) (ws : BitVec 4) (c : Instr) (target : Word) : Prop :=
  Finds s n c → ∃ t, exec c s = .next t ∧ (t.cores[n]).pc.toNat = target.toNat ∧ (t.cores[n]).wait = .free ∧ CoreFrame s t n ∧ OutsideCore s t n ∧
    RegistersKept s t n ws

/-- The command c of core n under selector ws traps with the cause at its own address; but for the selector's semaphore and the instruction buffer the trap
finds the core and the module as they were (spec/03 R83; 04 R94). -/
def Traps (s : State) (n : Fin 32) (ws : BitVec 4) (c : Instr) (cause : Cause) : Prop :=
  Finds s n c → ∃ u info, exec c s = .next (u.trap n [(cause, info)] 0 (s.cores[n]).pc) ∧ RegistersKept s u n ws ∧ CoreFrame s u n ∧ OutsideCore s u n

/-- A branch: taken it goes to its target, where the core may fetch, and traps with FETCH where it may not; not taken it goes to the next instruction, where
the core may fetch. -/
def Branches (s : State) (n : Fin 32) (ws : BitVec 4) (c : Instr) (taken : Prop) (target : Word) : Prop :=
  (taken → fetchable n target.toNat = true → GoesTo s n ws c target) ∧
  (taken → fetchable n target.toNat = false → Traps s n ws c .fetch) ∧
  (¬ taken → NextFetchable s n → GoesTo s n ws c (((s.cores[n]).pc + 8).zeroExtend 64))

/-- Core n may write `size` bytes at a in its own scratchpad: aligned, and none of them in the staging area of a group of its job (spec/04 R101; 03 R73;
10 R291). -/
def OwnPlace (s : State) (n : Fin 32) (a : Word) (size : Nat) : Prop :=
  a.toNat / scratchSize = n.val ∧ a.toNat % size = 0 ∧ s.clearOfStaging (s.cores[n]).job [(a.toNat, size)] = true

/-- Core n may read them too: none is poisoned (spec/08 R235). -/
def OwnBytes (s : State) (n : Fin 32) (a : Word) (size : Nat) : Prop := OwnPlace s n a size ∧ s.poisonedIn a.toNat size = false

/-- Core n may access `size` bytes at a in an HBM window of its job, aligned, none of them in a staging area (spec/03 R73; 08 R229; 10 R291). -/
def HbmPlace (s : State) (n : Fin 32) (a : Word) (size : Nat) : Prop :=
  32 * scratchSize ≤ a.toNat ∧ a.toNat < 2 ^ 48 ∧ a.toNat % size = 0 ∧ s.hbmHeld (s.cores[n]).job a.toNat size = true ∧
  s.clearOfStaging (s.cores[n]).job [(a.toNat, size)] = true

/-- No drill waits to disturb the comparison of the kind at the unit (spec/14 R453). -/
def NoDrill (s : State) (kind unit : Nat) : Prop := s.drillArmed kind unit false = false

/-- A store of `size` bytes of v at a completes: those bytes hold v, the lowest byte first, every other byte of memory and every other
piece of state but the core's pc, wait, selector's semaphore and instruction buffer is unchanged (spec/04 R101). -/
def Stores (s : State) (n : Fin 32) (ws : BitVec 4) (c : Instr) (a size v : Nat) : Prop :=
  Finds s n c → ∃ t, exec c s = .next t ∧ WentOn s t n ∧ CoreFrame s t n ∧ RegistersKept s t n ws ∧
    (∀ i, i < size → t.readByte (a + i) = BitVec.ofNat 8 (v / 256 ^ i)) ∧
    (∀ x, ¬ (a ≤ x ∧ x < a + size) → t.readByte x = s.readByte x) ∧
    t = { s with cores := t.cores, mem := t.mem, poison := t.poison } ∧ ∀ m : Fin 32, m ≠ n → t.cores[m] = s.cores[m]

/-- The sequencer of core n is held by an access, and nothing else has changed but the selector's semaphore and the instruction buffer
(spec/04 R104). -/
def HeldBy (s : State) (n : Fin 32) (ws : BitVec 4) (c : Instr) (w : SeqWait) : Prop :=
  Finds s n c → ∃ t, exec c s = .next t ∧ (t.cores[n]).wait = w ∧ (t.cores[n]).pc = (s.cores[n]).pc ∧ CoreFrame s t n ∧ OutsideCore s t n ∧
    RegistersKept s t n ws

/-- The queue entry that a dispatch of the engine word w makes on core n (spec/03 R59). -/
def entryOf (s : State) (n : Fin 32) (w : Word) : Entry := makeEntry (s.cores[n]) w s.now

/-- The operands of the engine word w raise no condition as its dispatch checks them (spec/03 R71 to R73; 04 R113, R116, R119, R121, R124). -/
def OperandsOk (s : State) (n : Fin 32) (w : Word) : Prop :=
  dispatchConditions (s.setCore n ((s.cores[n]).decoded n w s.now)) n (entryOf s n w) = []

/-- Core n's registers, semaphores included, are those of s. -/
def RegistersSame (s t : State) (n : Fin 32) : Prop := Registers t n (s.cores[n]).s (s.cores[n]).p (s.cores[n]).d (s.cores[n]).sem

/-- The other queues of core n, its banks and drains are those of s. -/
def OtherQueues (s t : State) (n : Fin 32) (q : QueueId) : Prop := ∀ r, r ≠ q → (t.cores[n]).queue r = (s.cores[n]).queue r

/-! ### Engine instructions -/

/-- The elements of a tensor occupy different bits (a well-formed descriptor's do: spec/03 R70, R71). -/
def ElementsApart (d : Desc) : Prop :=
  ∀ r c r' c', r < d.rows → c < d.cols → r' < d.rows → c' < d.cols → (r, c) ≠ (r', c') →
    d.elemBit r c + d.bits ≤ d.elemBit r' c' ∨ d.elemBit r' c' + d.bits ≤ d.elemBit r c

/-- No byte lies in both lists of ranges. -/
def NoSharedByte (x y : List (Nat × Nat)) : Prop := ∀ a, inRanges x a = true → inRanges y a = false

/-- Every element of the tensor holds the code of its position. -/
def TensorHolds (t : State) (d : Desc) (f : Nat → Nat → Nat) : Prop :=
  ∀ r c, r < d.rows → c < d.cols → t.elem d r c = f r c % 2 ^ d.bits

/-- The entry e at the head of queue q has taken its effect with these numeric flags: it is marked executed, and outside the bytes of the
destinations nothing of memory, of the core but that queue and its mesh traffic, of the other cores or of the rest of the module has changed. -/
def TookEffect (s t : State) (n : Fin 32) (q : QueueId) (e : Entry) (flags : BitVec 3) (dst : List (Nat × Nat)) : Prop :=
  (∃ u k, { e with executed := true, flags := e.flags ||| flags, undo := u, crc := k } ∈ (t.cores[n]).queue q) ∧
  (∃ l m, t.cores[n] = { (s.cores[n]).setQueue q l with mesh := m }) ∧ (∀ m : Fin 32, m ≠ n → t.cores[m] = s.cores[m]) ∧
  t = { s with cores := t.cores, mem := t.mem, poison := t.poison, fresh := t.fresh } ∧ ∀ a, inRanges dst a = false → t.readByte a = s.readByte a

/-- No instruction that nothing orders against the entry e touches its bytes (spec/03 R76). -/
def NoRace (s : State) (n : Fin 32) (q : QueueId) (e : Entry) : Prop :=
  NoSharedByte (entryReads n e ++ entryWrites n e) (writesOf (s.rivals n q)) ∧ NoSharedByte (entryWrites n e) (readsOf (s.rivals n q) ++ writesOf (s.rivals n q))

/-- The engine of queue q works on the entry e of the given class and operation, no operand of which is empty or shared with an unordered rival. -/
def WorksOn (s : State) (n : Fin 32) (q : QueueId) (cls op : Nat) (e : Entry) : Prop :=
  (s.cores[n]).working q cls op = some e ∧ entryEmpty e = false ∧ NoRace s n q e

/-- The elements and flags of a tensor of values, each rounded once (spec/02 R36, R38, R42). -/
def ValuesStored (t : State) (d : Desc) (f : Nat → Nat → Nat × NumFlags) : Prop := TensorHolds t d (fun r c => (f r c).1)

/-- The numeric flags that the roundings of a tensor raise (spec/02 R38). -/
def flagsOf (d : Desc) (f : Nat → Nat → Nat × NumFlags) : BitVec 3 :=
  ((positions d.rows d.cols).foldl (fun a p => a.or (f p.1 p.2).2) NumFlags.none).toBits

/-- An element-wise vector instruction completes: every element of dD is its exact value rounded once, and nothing else of memory or of
the core's registers changes (spec/06 R161, R162, R164). -/
def VectorResult (s : State) (n : Fin 32) (c : Instr) (op : Nat) (f : State → Entry → Nat → Nat → Val) : Prop :=
  ∀ e : Entry, WorksOn s n .vector 3 op e → memCanonical s → ElementsApart e.d0.val →
    NoSharedByte (Desc.ranges e.d0.val) (rangesOf ((sourceDescs e).filter (fun d => !Desc.identical e.d0.val d))) →
    ∃ t, exec c s = .next t ∧ ValuesStored t e.d0.val (fun i j => roundOut e i j (f s e i j)) ∧
      TookEffect s t n .vector e (flagsOf e.d0.val (fun i j => roundOut e i j (f s e i j))) (Desc.ranges e.d0.val)

/-- An activation completes: dD as VectorResult has it, and with SAVE = 1 the saved tensor holds its value or its input, rounded to nearest
even in its own format (spec/06 R169, R170). -/
def ActivationResult (s : State) (n : Fin 32) (c : Instr) (op : Nat) (savesInput : Bool) (f : Entry → Val → Val) : Prop :=
  ∀ e : Entry, WorksOn s n .vector 3 op e → memCanonical s → ElementsApart e.d0.val →
    NoSharedByte (Desc.ranges e.d0.val) (rangesOf ((sourceDescs e).filter (fun d => !Desc.identical e.d0.val d))) →
    let save := e.word.bit 16
    (save = true → ElementsApart e.d3.val ∧ NoSharedByte (Desc.ranges e.d3.val) (rangesOf (sourceDescs e) ++ Desc.ranges e.d0.val)) →
    let saved (i j : Nat) : Nat × NumFlags := elemEncode (Desc.fmt e.d3.val) .rne (satDefault (Desc.fmt e.d3.val)) 0
      (if savesInput then srcA s e i j else f e (srcA s e i j))
    ∃ t fl, exec c s = .next t ∧ ValuesStored t e.d0.val (fun i j => roundOut e i j (f e (srcA s e i j))) ∧
      (save = true → ValuesStored t e.d3.val saved) ∧
      TookEffect s t n .vector e fl (if save then rangesOf [e.d0.val, e.d3.val] else Desc.ranges e.d0.val)

/-- A reduction completes: element (i, j) of dD is the reduced value of its line of dA, rounded once (spec/06 R166, R167). -/
def ReductionResult (s : State) (n : Fin 32) (c : Instr) (op : Nat) (first : Val → Val) (step comb : Val → Val → Val) : Prop :=
  ∀ e : Entry, WorksOn s n .vector 3 op e → memCanonical s → ElementsApart e.d0.val →
    NoSharedByte (Desc.ranges e.d0.val) (Desc.ranges e.d1.val) →
    let line (i j : Nat) : Val :=
      if e.word.bit 15 then ((foldLine first step ((List.range (Desc.rows e.d1.val)).map (fun k => s.val e.d1.val k j))).getD Val.zero)
      else treeReduce first step comb (Desc.cols e.d1.val) (fun k => s.val e.d1.val i k)
    ∃ t, exec c s = .next t ∧ ValuesStored t e.d0.val (fun i j => roundOut e i j (line i j)) ∧
      TookEffect s t n .vector e (flagsOf e.d0.val (fun i j => roundOut e i j (line i j))) (Desc.ranges e.d0.val)

/-- The bytes of the records that a row instruction names: one record of 8 bytes for each row of dA (spec/06 R173, R176). -/
def rowRecordBytes (n : Fin 32) (e : Entry) : List (Nat × Nat) := [(recAddr n (rowRec e.word), 8 * Desc.rows e.d1.val)]

/-- A row instruction completes that puts each row's record (when `rec` gives one) and each element of dD (when `out` gives a value, rounded
once), and touches no other byte (spec/06 R162, R173, R176). -/
def RowResult (s : State) (n : Fin 32) (c : Instr) (op : Nat) (record : Option (Entry → Nat → Word)) (out : Option (Entry → Nat → Nat → Val))
    (inPlace : Bool) : Prop :=
  ∀ e : Entry, WorksOn s n .row 4 op e → memCanonical s → (out.isSome = true → ElementsApart e.d0.val) →
    (out.isSome = true → NoSharedByte (Desc.ranges e.d0.val)
      (rangesOf (if inPlace && Desc.identical e.d0.val e.d1.val then (sourceDescs e).drop 1 else sourceDescs e))) →
    (out.isSome = true → NoSharedByte (Desc.ranges e.d0.val) (rowRecordBytes n e)) →
    ∃ t fl, exec c s = .next t ∧
      (∀ f, record = some f → ∀ r, r < Desc.rows e.d1.val → t.record n (rowRec e.word + r) = f e r) ∧
      (∀ f, out = some f → ValuesStored t e.d0.val (fun i j => roundOut e i j (f e i j))) ∧
      TookEffect s t n .row e fl ((if record.isSome then rowRecordBytes n e else []) ++ (if out.isSome then Desc.ranges e.d0.val else []))

/-! ### What a command of the module leaves -/

/-- The registers that count and show events (spec/16 R477): every event changes them. -/
def evtRegs : List Nat := Csr.evtLast :: (List.range 16).map Csr.evtCnt

/-- An event with this code and job has been raised (spec/12 R362; 16 R477). -/
def Raised (t : State) (code : Nat) (job : Word) : Prop := ∃ e, Output.event e ∈ t.out ∧ e.code = BitVec.ofNat 8 code ∧ e.job = job

/-- Every byte of memory reads as before. -/
def SameMemory (s t : State) : Prop := ∀ a, t.readByte a = s.readByte a

/-- Registers of the file other than those listed, and other than the event registers, read as before. -/
def SameRegisters (s t : State) (offs : List Nat) : Prop := ∀ o, o ∉ offs → o ∉ evtRegs → t.reg o = s.reg o

/-- Memory, the cores and every register but those listed (and the event registers) are as before. -/
def Frame (s t : State) (offs : List Nat) : Prop := SameMemory s t ∧ t.cores = s.cores ∧ SameRegisters s t offs

/-- R60, R86: the state that the runtime writes when a core starts a job: s1 its rank among the job's cores, s2 their number, s3 the local
address of the argument block, s4 the core, every other register and every selector 0, the cross-core semaphores at the signals held, the
pc at the program's entry whose line is being fetched, and the job's configuration. -/
def StartsJob (s t : State) (n : Fin 32) (j : Job) : Prop :=
  let c := t.cores[n]
  let ranks := s.jobCores j.id
  c.run = .idle ∧ c.s 1 = BitVec.ofNat 64 (ranks.idxOf n.val) ∧ c.s 2 = BitVec.ofNat 64 ranks.length ∧ c.s 3 = BitVec.ofNat 64 j.argAddr ∧
  c.s 4 = BitVec.ofNat 64 n.val ∧ (∀ r : BitVec 5, 4 < r.toNat → c.s r = 0) ∧ (∀ p : BitVec 3, c.p p = decide (p = 0)) ∧ (∀ d, c.d d = 0) ∧
  (∀ k, k < 32 → c.sem k = 0) ∧ (∀ x : Fin 16, c.sem (32 + x.val) = min 65535 (s.cores[n]).heldSignals[x]) ∧ (∀ w, c.wsEntry w = 0) ∧
  c.pc = BitVec.ofNat 48 (scratchBase n.val + j.pload + j.entryOff) ∧ c.lines = [] ∧ c.fills = [{ block := c.pc.toNat / 4096, since := s.now }] ∧
  (∀ q, c.queue q = []) ∧ c.wait = .free ∧ c.mmcfg = j.mmcfg ∧ c.runcfg = j.runcfg ∧ (∀ m : Fin 32, m ≠ n → t.cores[m] = s.cores[m]) ∧
  t = { s with cores := t.cores }

/-- R346, R349, R350: the request of type mt and number id is the next to be executed on the open session k of the record x, whose role may
send it; its answer can leave by the port of the session. -/
def Due (s : State) (k : Fin 64) (x : Session) (mt : Nat) (id : BitVec 32) (rest : List (BitVec 32 × Nat)) : Prop :=
  s.sessions[k] = some x ∧ x.ch.ready = (id, mt) :: rest ∧ (∀ q ∈ rest, ningonusTypes.contains q.2 = true) ∧ roleAllows x.role mt = true ∧
  x.ch.tx + 1 < 2 ^ 32 ∧ (s.port x.ch.port).up = true

/-- R349: the request has been answered with r: the answer leaves and is kept, and the next request is in turn. -/
def Answered (t : State) (k : Fin 64) (x : Session) (id : BitVec 32) (rest : List (BitVec 32 × Nat)) (r : Response) : Prop :=
  Output.response x.ch.port x.ch.sid id r ∈ t.out ∧
  t.sessions[k] = some { x with ch := { x.ch with ready := rest, highest := some id, kept := ((id, r) :: x.ch.kept).take 1024, tx := x.ch.tx + 1 } }

/-- The body of a CSR_WRITE of one entry, and the answer that gives its status (R469). -/
def oneWrite (o : Nat) (mask value : Word) : List Byte :=
  bytesOfNat 2 1 ++ bytesOfNat 6 0 ++ bytesOfNat 4 o ++ bytesOfNat 4 0 ++ bytesOfNat 8 mask.toNat ++ bytesOfNat 8 value.toNat

def oneStatus (st : Nat) : Response := { status := 0, body := bytesOfNat 2 1 ++ bytesOfNat 6 0 ++ bytesOfNat 2 st ++ bytesOfNat 6 0 }

/-- R414, R423, R424, R473: a boot with a cause has begun: it is counted and FW_STAT shows its cause; no job, no session and no byte of HBM is left; with a good
image it runs under the watchdog, in BOOT when main power is on; without one recovery has begun with events 0x71 and 0x72. -/
def BootBegun (s t : State) (cause : Nat) : Prop :=
  t.boot.cause = cause ∧ t.flash.bootCnt = s.flash.bootCnt + 1 ∧ t.fld Csr.fwStat 63 60 = cause ∧ t.boot.stage = 0 ∧ t.jobs = [] ∧ t.mem = [] ∧
  (∀ k : Fin 64, t.sessions[k] = none) ∧
  (slotReason s.flash = 0 → t.running = s.flash.slot ∧ t.boot.watchdog = true ∧ (s.pins.pwrGood = true → t.mstate = mBoot)) ∧
  (slotReason s.flash ≠ 0 → t.running = none ∧ t.boot.recovering = true ∧ Raised t 0x71 0 ∧ Raised t 0x72 0 ∧
    t.fld Csr.fwStat 59 56 = slotReason s.flash)

/-- R442 to R445, R447, R460: the job j has been stopped on this device by a halt: its cores have left it, event 0x9E is raised, the halt is in the journal and
as the final record in the job's ring, and its BUDDY windows are retained when HLT_CTL.RETAIN is not 0. -/
def JobStopped (s t : State) (j : Job) : Prop :=
  t.job? j.id = none ∧ Raised t 0x9E j.id ∧ j.id ∈ t.halted ∧ (∃ r, t.flash.journal.head? = some r ∧ r.type = 1) ∧
  (∀ n : Fin 32, j.cores.getLsbD n.val = true → (t.cores[n]).job ≠ j.id) ∧
  (∀ r, s.rings.find? (fun r => r.job == j.id && !r.final) = some r →
    ∃ y ∈ t.rings, y.job = j.id ∧ y.final = true ∧ ∃ x ∈ y.waiting, x.kind = if j.cancelled then 5 else 4) ∧
  (s.fld Csr.hltCtl 7 0 ≠ 0 → ∀ w ∈ j.windows, w.buddy = true → ∃ r ∈ t.retained, r.job = j.id ∧ r.base = w.base ∧ r.size = w.size ∧ r.since = s.now)

end Sys2Proof.Safety
end

