-- ==== Sys2Proof/Certificates/Slice0/Obligations.lean ====
section
/-! DEFINITION. The statements for the provers. -/

open Sys2Proof Sys2Proof.Machine

/-! ### The machine as a whole -/

/-- A step with a command in front of the queue is that command's effect on the state with the queue's rest (the model's queue: log 1). -/
def Obligations.StepTakesFront : Prop :=
  ∀ (c : Instr) (rest : List Instr) (s : State), s.pending = c :: rest → step s = exec c { s with pending := rest }

/-- On an empty queue 10 ns pass (the model's choice: log 1): module time goes on, fabric time while auxiliary power is on and nothing is to be slewed, and while main
power is on a RUNNING core counts its cycles, 18 less its P-state, none in a stopped slot; arrays that no issue holds add the dummy operations of their duty to MMKWC, a
rest below one operation kept; memory and everything else of the cores stay as they are, but that arrays with no issue held or eligible leave ACTIVE and the time of
arrays in WARM stands still in a stopped slot. -/
def Obligations.IdleTick : Prop :=
  ∀ (s : State), s.pending = [] →
    ∃ t, step s = .next t ∧ t.pending = [] ∧ t.now = s.now + 10 ∧ Safety.SameMemory s t ∧
      (s.pins.aux = true → s.time.slew = 0 → t.ft = s.ft + 10) ∧ (s.pins.aux = false → t.ft = s.ft) ∧
      (s.mainOn = false → t.cores = s.cores) ∧
      (s.mainOn = true → ∀ n : Fin 32,
        let c := s.cores[n]
        let k := if s.power.stopped.getLsbD n.val then 0 else 18 - s.fld (Csr.powCore n.val) 63 60
        let due := c.kwRest + (c.arraysAfterIssue (s.now + 10)).dummyShare (s.now + 10) k
        t.cores[n] = { c with
          cycles := if c.run = .running then c.cycles + BitVec.ofNat 64 k else c.cycles
          mmkwc := c.mmkwc + BitVec.ofNat 64 (due / 100)
          kwRest := due % 100
          arrays := (t.cores[n]).arrays
          arraysSince := (t.cores[n]).arraysSince
          duty := (t.cores[n]).duty } ∧
        (c.arrays ≠ .active → (t.cores[n]).arrays = c.arrays ∧ (t.cores[n]).duty = c.duty ∧
          (t.cores[n]).arraysSince = c.arraysSince + (if k = 0 ∧ c.arrays = .warm then 10 else 0)))

/-- R473, R483: the state after reset: nothing waits, memory and register file are canonical, a statistics memory reads as EMPTY records and
every other byte as 0 (the model's values: log 4), every register of the file has its reset value, no core runs, no job, session or retained
window is held, auxiliary and main power are absent (that the model starts unpowered is its choice: log 9). -/
def Obligations.ResetState : Prop :=
  Safety.memCanonical State.reset ∧ Safety.regsCanonical State.reset ∧ State.reset.pending = [] ∧
  (∀ a, State.reset.readByte a = if (statsOwner a).isSome && a % 8 == 2 then 0x80 else if (statsOwner a).isSome && a % 8 == 3 then 0xFF else 0) ∧
  (∀ o, State.reset.reg o = csrReset o) ∧ (∀ n : Fin 32, (State.reset.cores[n]).run ≠ .running ∧ (State.reset.cores[n]).job = 0) ∧ State.reset.jobs = [] ∧
  (∀ k : Fin 64, State.reset.sessions[k] = none) ∧ State.reset.retained = [] ∧ State.reset.pins.aux = false ∧ State.reset.pins.pwrGood = false ∧
  State.reset.mstate = mOff

/-- Every step, whatever command is in front, keeps memory and the register file in their canonical form, so that equal contents are equal data (the model's form:
log 5). -/
def Obligations.StepKeepsCanonical : Prop :=
  ∀ (s t : State), Safety.memCanonical s → Safety.regsCanonical s → step s = .next t → Safety.memCanonical t ∧ Safety.regsCanonical t

/-! ### Instructions of the sequencer -/

/-- R98, R99, R100: The register forms of scalar arithmetic put their function of ra and rb into rd and change nothing else. The immediate forms; a 38-bit
immediate is sign-extended, a shift amount is 0 to 63, s.li loads a sign-extended 43-bit immediate, s.lih replaces the upper half. Predicate
instructions put a comparison or a logical function into pd; p0 stays 1. -/
def Obligations.ScalarAndPredicateForms : Prop :=
  (∀ (s : State) (n : Fin 32) (ws : BitVec 4) (rd ra rb : BitVec 5), Safety.SeqFree s n → Safety.SelectorPasses s n ws → Safety.NextFetchable s n →
    let a := (s.cores[n]).s ra
    let b := (s.cores[n]).s rb
    Safety.PutsScalar s n ws (.nop n ws .ok) 0 0 ∧
    Safety.PutsScalar s n ws (.sAdd n ws rd ra rb .ok) rd (BitVec.ofNat 64 (a.toNat + b.toNat)) ∧
    Safety.PutsScalar s n ws (.sSub n ws rd ra rb .ok) rd (BitVec.ofInt 64 ((a.toNat : Int) - b.toNat)) ∧
    Safety.PutsScalar s n ws (.sMul n ws rd ra rb .ok) rd (BitVec.ofNat 64 (a.toNat * b.toNat)) ∧
    Safety.PutsScalar s n ws (.sMulhu n ws rd ra rb .ok) rd (BitVec.ofNat 64 (a.toNat * b.toNat / 2 ^ 64)) ∧
    Safety.PutsScalar s n ws (.sDivu n ws rd ra rb .ok) rd (if b.toNat = 0 then BitVec.allOnes 64 else BitVec.ofNat 64 (a.toNat / b.toNat)) ∧
    Safety.PutsScalar s n ws (.sRemu n ws rd ra rb .ok) rd (BitVec.ofNat 64 (a.toNat % b.toNat)) ∧
    Safety.PutsScalar s n ws (.sAnd n ws rd ra rb .ok) rd (a &&& b) ∧
    Safety.PutsScalar s n ws (.sOr n ws rd ra rb .ok) rd (a ||| b) ∧
    Safety.PutsScalar s n ws (.sXor n ws rd ra rb .ok) rd (a ^^^ b) ∧
    Safety.PutsScalar s n ws (.sShl n ws rd ra rb .ok) rd (BitVec.ofNat 64 (a.toNat * 2 ^ (b.toNat % 64))) ∧
    Safety.PutsScalar s n ws (.sShr n ws rd ra rb .ok) rd (BitVec.ofNat 64 (a.toNat / 2 ^ (b.toNat % 64))) ∧
    Safety.PutsScalar s n ws (.sSra n ws rd ra rb .ok) rd (BitVec.ofInt 64 (a.toInt / 2 ^ (b.toNat % 64))) ∧
    Safety.PutsScalar s n ws (.sMin n ws rd ra rb .ok) rd (BitVec.ofInt 64 (min a.toInt b.toInt)) ∧
    Safety.PutsScalar s n ws (.sMax n ws rd ra rb .ok) rd (BitVec.ofInt 64 (max a.toInt b.toInt))) ∧
  (∀ (s : State) (n : Fin 32) (ws : BitVec 4) (rd ra : BitVec 5) (imm : BitVec 38) (wide : BitVec 43), Safety.SeqFree s n →
    Safety.SelectorPasses s n ws → Safety.NextFetchable s n →
    let a := (s.cores[n]).s ra
    let b : Word := BitVec.ofInt 64 imm.toInt
    Safety.PutsScalar s n ws (.sAddi n ws rd ra imm .ok) rd (a + b) ∧
    Safety.PutsScalar s n ws (.sSubi n ws rd ra imm .ok) rd (a - b) ∧
    Safety.PutsScalar s n ws (.sMuli n ws rd ra imm .ok) rd (a * b) ∧
    Safety.PutsScalar s n ws (.sAndi n ws rd ra imm .ok) rd (a &&& b) ∧
    Safety.PutsScalar s n ws (.sOri n ws rd ra imm .ok) rd (a ||| b) ∧
    Safety.PutsScalar s n ws (.sXori n ws rd ra imm .ok) rd (a ^^^ b) ∧
    (imm.toNat < 64 → Safety.PutsScalar s n ws (.sShli n ws rd ra imm .ok) rd (BitVec.ofNat 64 (a.toNat * 2 ^ imm.toNat))) ∧
    (imm.toNat < 64 → Safety.PutsScalar s n ws (.sShri n ws rd ra imm .ok) rd (BitVec.ofNat 64 (a.toNat / 2 ^ imm.toNat))) ∧
    (imm.toNat < 64 → Safety.PutsScalar s n ws (.sSrai n ws rd ra imm .ok) rd (BitVec.ofInt 64 (a.toInt / 2 ^ imm.toNat))) ∧
    Safety.PutsScalar s n ws (.sLi n ws rd wide .ok) rd (BitVec.ofInt 64 wide.toInt) ∧
    (wide.toNat < 2 ^ 32 →
      Safety.PutsScalar s n ws (.sLih n ws rd wide .ok) rd (BitVec.ofNat 64 (wide.toNat * 2 ^ 32 + ((s.cores[n]).s rd).toNat % 2 ^ 32)))) ∧
  (∀ (s : State) (n : Fin 32) (ws : BitVec 4) (pd pa pb : BitVec 3) (ra rb : BitVec 5) (imm : BitVec 40), Safety.SeqFree s n →
    Safety.SelectorPasses s n ws → Safety.NextFetchable s n →
    let a := (s.cores[n]).s ra
    let b := (s.cores[n]).s rb
    let x := (s.cores[n]).p pa
    let y := (s.cores[n]).p pb
    Safety.PutsPredicate s n ws (.pEq n ws pd ra rb .ok) pd (decide (a.toNat = b.toNat)) ∧
    Safety.PutsPredicate s n ws (.pNe n ws pd ra rb .ok) pd (decide (a.toNat ≠ b.toNat)) ∧
    Safety.PutsPredicate s n ws (.pLt n ws pd ra rb .ok) pd (decide (a.toInt < b.toInt)) ∧
    Safety.PutsPredicate s n ws (.pLtu n ws pd ra rb .ok) pd (decide (a.toNat < b.toNat)) ∧
    Safety.PutsPredicate s n ws (.pEqi n ws pd ra imm .ok) pd (decide (a.toInt = imm.toInt)) ∧
    Safety.PutsPredicate s n ws (.pLti n ws pd ra imm .ok) pd (decide (a.toInt < imm.toInt)) ∧
    Safety.PutsPredicate s n ws (.pAnd n ws pd pa pb .ok) pd (x && y) ∧
    Safety.PutsPredicate s n ws (.pOr n ws pd pa pb .ok) pd (x || y) ∧
    Safety.PutsPredicate s n ws (.pXor n ws pd pa pb .ok) pd (x ^^ y) ∧
    Safety.PutsPredicate s n ws (.pNot n ws pd pa 0 .ok) pd (!x))

/-- R98, R99, R102: a branch goes to the address 8 × off beyond its own when its condition holds, else to the next instruction. b.call
also puts the address behind it into ra; b.jr goes to the address in ra. A taken branch whose target the core may not fetch from traps with FETCH at the branch's
address; one not taken does not trap on its target. -/
def Obligations.BranchForms : Prop :=
  ∀ (s : State) (n : Fin 32) (ws : BitVec 4) (ra rb : BitVec 5) (pn : BitVec 3) (neg : Bool) (off : BitVec 38), Safety.SeqFree s n →
    Safety.SelectorPasses s n ws →
    let a := (s.cores[n]).s ra
    let b := (s.cores[n]).s rb
    let target : Word := BitVec.ofInt 64 ((s.cores[n]).pc.toNat + 8 * off.toInt)
    Safety.Branches s n ws (.bZ n ws ra 0 off .ok) (a = 0) target ∧
    Safety.Branches s n ws (.bNz n ws ra 0 off .ok) (a ≠ 0) target ∧
    Safety.Branches s n ws (.bEq n ws ra rb off .ok) (a = b) target ∧
    Safety.Branches s n ws (.bNe n ws ra rb off .ok) (a ≠ b) target ∧
    Safety.Branches s n ws (.bLt n ws ra rb off .ok) (a.toInt < b.toInt) target ∧
    Safety.Branches s n ws (.bLtu n ws ra rb off .ok) (a.toNat < b.toNat) target ∧
    Safety.Branches s n ws (.bGe n ws ra rb off .ok) (b.toInt ≤ a.toInt) target ∧
    Safety.Branches s n ws (.bGeu n ws ra rb off .ok) (b.toNat ≤ a.toNat) target ∧
    Safety.Branches s n ws (.bP n ws pn neg off .ok) ((s.cores[n]).p pn ≠ neg) target ∧
    Safety.Branches s n ws (.bJ n ws 0 0 off .ok) True target ∧
    Safety.Branches s n ws (.bJr n ws ra 0 0 .ok) True a ∧
    (fetchable n target.toNat = true → Safety.Finds s n (.bCall n ws ra 0 off .ok) → ∃ t, exec (.bCall n ws ra 0 off .ok) s = .next t ∧ (t.cores[n]).pc.toNat = target.toNat ∧
      (t.cores[n]).wait = .free ∧ Safety.CoreFrame s t n ∧ Safety.OutsideCore s t n ∧
      Safety.Registers t n (Safety.upd (s.cores[n]).s ra ((s.cores[n]).pc.zeroExtend 64 + 8)) (s.cores[n]).p (s.cores[n]).d
        (Safety.semsAfter s n ws)) ∧
    (fetchable n target.toNat = false → Safety.Traps s n ws (.bCall n ws ra 0 off .ok) .fetch)

/-- R99, R103, R67: descriptor instructions that move, clear, read and replace fields of descriptor registers, whatever descriptor results; a value
that does not fit its field traps, with ADDRESS for the base and DESCRIPTOR for the others. -/
def Obligations.DescriptorForms : Prop :=
  ∀ (s : State) (n : Fin 32) (ws dd ds : BitVec 4) (rd ra : BitVec 5) (imm : BitVec 10) (w : BitVec 2), Safety.SeqFree s n →
    Safety.SelectorPasses s n ws → Safety.NextFetchable s n →
    let a := ((s.cores[n]).s ra).toNat
    let d := (s.cores[n]).d dd
    let put (lo k v : Nat) : BitVec 256 := BitVec.ofNat 256 (d.toNat - d.toNat / 2 ^ lo % 2 ^ k * 2 ^ lo + v * 2 ^ lo)
    Safety.PutsDescriptor s n ws (.dMov n ws dd 0 ds .ok) dd ((s.cores[n]).d ds) ∧
    Safety.PutsDescriptor s n ws (.dZero n ws dd .ok) dd 0 ∧
    (a < 2 ^ 48 → Safety.PutsDescriptor s n ws (.dSetbase n ws dd ra .ok) dd (put 0 48 a)) ∧
    Safety.PutsDescriptor s n ws (.dAddbase n ws dd ra .ok) dd (put 0 48 ((d.toNat % 2 ^ 48 + a) % 2 ^ 48)) ∧
    (a < 2 ^ 32 → Safety.PutsDescriptor s n ws (.dSetrows n ws dd ra .ok) dd (put 64 32 a)) ∧
    (a < 2 ^ 32 → Safety.PutsDescriptor s n ws (.dSetcols n ws dd ra .ok) dd (put 96 32 a)) ∧
    (a < 2 ^ 48 → Safety.PutsDescriptor s n ws (.dSetstride n ws dd ra .ok) dd (put 128 48 a)) ∧
    (a < 2 ^ 32 → Safety.PutsDescriptor s n ws (.dSettid n ws dd ra .ok) dd (put 192 32 a)) ∧
    (a < 2 ^ 32 → Safety.PutsDescriptor s n ws (.dSetscale n ws dd ra .ok) dd (put 224 32 a)) ∧
    Safety.PutsDescriptor s n ws (.dSetfmt n ws dd imm .ok) dd (put 48 12 imm.toNat) ∧
    (2 ^ 48 ≤ a → Safety.Traps s n ws (.dSetbase n ws dd ra .ok) .address) ∧
    (2 ^ 32 ≤ a → Safety.Traps s n ws (.dSetrows n ws dd ra .ok) .descriptor) ∧
    (2 ^ 32 ≤ a → Safety.Traps s n ws (.dSetcols n ws dd ra .ok) .descriptor) ∧
    (2 ^ 48 ≤ a → Safety.Traps s n ws (.dSetstride n ws dd ra .ok) .descriptor) ∧
    (2 ^ 32 ≤ a → Safety.Traps s n ws (.dSettid n ws dd ra .ok) .descriptor) ∧
    (2 ^ 32 ≤ a → Safety.Traps s n ws (.dSetscale n ws dd ra .ok) .descriptor) ∧
    Safety.PutsScalar s n ws (.dGet n ws rd ds w .ok) rd (BitVec.ofNat 64 (((s.cores[n]).d ds).toNat / 2 ^ (64 * w.toNat)))

/-- R98, R99, R101, R104: loads and stores of the own scratchpad complete at once. A load delivers the bytes at ra plus the sign-extended
immediate, the lowest byte first; s.ld32 zero-extends; a store changes its own bytes of memory and no other. -/
def Obligations.OwnScratchpadAccess : Prop :=
  ∀ (s : State) (n : Fin 32) (ws dd : BitVec 4) (rd ra : BitVec 5) (imm : BitVec 38) (wide : BitVec 39), Safety.SeqFree s n →
    Safety.SelectorPasses s n ws → Safety.NextFetchable s n → Safety.memCanonical s →
    let a : Word := (s.cores[n]).s ra + BitVec.ofInt 64 imm.toInt
    let w : Word := (s.cores[n]).s ra + BitVec.ofInt 64 wide.toInt
    let v := ((s.cores[n]).s rd).toNat
    (Safety.OwnBytes s n a 8 → Safety.PutsScalar s n ws (.sLd n ws rd ra imm .ok .none) rd (BitVec.ofNat 64 (s.readNat a.toNat 8))) ∧
    (Safety.OwnBytes s n a 4 → Safety.PutsScalar s n ws (.sLd32 n ws rd ra imm .ok .none) rd (BitVec.ofNat 64 (s.readNat a.toNat 4))) ∧
    (Safety.OwnBytes s n w 32 → Safety.PutsDescriptor s n ws (.dLd n ws dd ra wide .ok .none) dd (BitVec.ofNat 256 (s.readNat w.toNat 32))) ∧
    (Safety.OwnPlace s n a 8 → Safety.Stores s n ws (.sSt n ws rd ra imm .ok) a.toNat 8 v) ∧
    (Safety.OwnPlace s n a 4 → Safety.Stores s n ws (.sSt32 n ws rd ra imm .ok) a.toNat 4 v) ∧
    (Safety.OwnPlace s n w 32 → Safety.Stores s n ws (.dSt n ws dd ra wide .ok) w.toNat 32 ((s.cores[n]).d dd).toNat)

/-- R97, R101, R104, R237, R239: An access to HBM of a window of the core's job holds the sequencer until it completes: loads, stores and the five
atomics, which carry their operand (and, for s.amocas, the comparison value rd). What an access that holds the sequencer does when it completes. A
load delivers the bytes; a store writes them; an atomic's unit computes the new value in memory and, on completion, rd receives the old one. -/
def Obligations.MemoryAccesses : Prop :=
  (∀ (s : State) (n : Fin 32) (ws dd : BitVec 4) (rd ra rb : BitVec 5) (imm : BitVec 38) (wide : BitVec 39), Safety.SeqFree s n →
    Safety.SelectorPasses s n ws →
    let a : Word := (s.cores[n]).s ra + BitVec.ofInt 64 imm.toInt
    let w : Word := (s.cores[n]).s ra + BitVec.ofInt 64 wide.toInt
    let x := (s.cores[n]).s ra
    let b := (s.cores[n]).s rb
    let old := (s.cores[n]).s rd
    (Safety.HbmPlace s n a 8 → Safety.HeldBy s n ws (.sLd n ws rd ra imm .ok .none) (.access .load64 (a.truncate 48) rd 0 0 0 none)) ∧
    (Safety.HbmPlace s n a 4 → Safety.HeldBy s n ws (.sLd32 n ws rd ra imm .ok .none) (.access .load32 (a.truncate 48) rd 0 0 0 none)) ∧
    (Safety.HbmPlace s n a 8 → Safety.HeldBy s n ws (.sSt n ws rd ra imm .ok) (.access .store64 (a.truncate 48) rd old 0 0 none)) ∧
    (Safety.HbmPlace s n a 4 → Safety.HeldBy s n ws (.sSt32 n ws rd ra imm .ok) (.access .store32 (a.truncate 48) rd old 0 0 none)) ∧
    (Safety.HbmPlace s n w 32 → Safety.HeldBy s n ws (.dLd n ws dd ra wide .ok .none) (.access .loadDesc (w.truncate 48) (dd.zeroExtend 5) 0 0 0 none)) ∧
    (Safety.HbmPlace s n w 32 → Safety.HeldBy s n ws (.dSt n ws dd ra wide .ok)
      (.access .storeDesc (w.truncate 48) (dd.zeroExtend 5) 0 0 ((s.cores[n]).d dd) none)) ∧
    (Safety.HbmPlace s n x 8 → Safety.HeldBy s n ws (.sAmoadd n ws rd ra rb .ok) (.access (.amo 0) (x.truncate 48) rd b old 0 none)) ∧
    (Safety.HbmPlace s n x 8 → Safety.HeldBy s n ws (.sAmomax n ws rd ra rb .ok) (.access (.amo 1) (x.truncate 48) rd b old 0 none)) ∧
    (Safety.HbmPlace s n x 8 → Safety.HeldBy s n ws (.sAmomin n ws rd ra rb .ok) (.access (.amo 2) (x.truncate 48) rd b old 0 none)) ∧
    (Safety.HbmPlace s n x 8 → Safety.HeldBy s n ws (.sAmoswap n ws rd ra rb .ok) (.access (.amo 3) (x.truncate 48) rd b old 0 none)) ∧
    (Safety.HbmPlace s n x 8 → Safety.HeldBy s n ws (.sAmocas n ws rd ra rb .ok) (.access (.amo 4) (x.truncate 48) rd b old 0 none))) ∧
  (∀ (s : State) (n : Fin 32) (a : BitVec 48) (rd : BitVec 5) (v x : Word) (d : BitVec 256), Safety.NextFetchable s n → Safety.memCanonical s → s.poison = [] →
    (∀ (kind : AccessKind) (size : Nat), (kind, size) ∈ [(.load64, 8), (.load32, 4)] → (s.cores[n]).wait = .access kind a rd v x d none →
      ∃ t, exec (.scalarAccessComplete n .none) s = .next t ∧ Safety.WentOn s t n ∧ Safety.CoreFrame s t n ∧ Safety.OutsideCore s t n ∧
        Safety.Registers t n (Safety.upd (s.cores[n]).s rd (BitVec.ofNat 64 (s.readNat a.toNat size))) (s.cores[n]).p (s.cores[n]).d
          (s.cores[n]).sem) ∧
    ((s.cores[n]).wait = .access .loadDesc a rd v x d none → ∃ t, exec (.scalarAccessComplete n .none) s = .next t ∧ Safety.WentOn s t n ∧
      Safety.CoreFrame s t n ∧ Safety.OutsideCore s t n ∧
      Safety.Registers t n (s.cores[n]).s (s.cores[n]).p
        (fun r => if r = rd.truncate 4 then BitVec.ofNat 256 (s.readNat a.toNat 32) else (s.cores[n]).d r) (s.cores[n]).sem) ∧
    (∀ (kind : AccessKind) (size val : Nat), (kind, size, val) ∈ [(.store64, 8, v.toNat), (.store32, 4, v.toNat), (.storeDesc, 32, d.toNat)] →
      (s.cores[n]).wait = .access kind a rd v x d none →
      ∃ t, exec (.scalarAccessComplete n .none) s = .next t ∧ Safety.WentOn s t n ∧ Safety.CoreFrame s t n ∧
        Safety.Registers t n (s.cores[n]).s (s.cores[n]).p (s.cores[n]).d (s.cores[n]).sem ∧
        (∀ i, i < size → t.readByte (a.toNat + i) = BitVec.ofNat 8 (val / 256 ^ i)) ∧
        (∀ y, ¬ (a.toNat ≤ y ∧ y < a.toNat + size) → t.readByte y = s.readByte y)) ∧
    (∀ (op : Nat) (old : Word), (s.cores[n]).wait = .access (.amo op) a rd v x d (some old) →
      ∃ t, exec (.scalarAccessComplete n .none) s = .next t ∧ Safety.WentOn s t n ∧ Safety.CoreFrame s t n ∧ Safety.OutsideCore s t n ∧
        Safety.Registers t n (Safety.upd (s.cores[n]).s rd old) (s.cores[n]).p (s.cores[n]).d (s.cores[n]).sem) ∧
    (∀ (op st ch y : Nat), (s.cores[n]).wait = .access (.amo op) a rd v x d none → s.hbmPlace a.toNat = some (st, ch, y) →
      (s.reg (Csr.hbmAmo st)).bit ch = false → Safety.NoDrill s 6 n.val →
      ∃ t, exec (.atomicOperation (.sequencer n) .ok .none) s = .next t ∧
        (let old : Word := BitVec.ofNat 64 (s.readNat a.toNat 8)
         let new : Int := match op with
           | 0 => old.toInt + v.toInt
           | 1 => max old.toInt v.toInt
           | 2 => min old.toInt v.toInt
           | 3 => v.toInt
           | _ => if old = x then v.toInt else old.toInt
         (t.cores[n]).wait = .access (.amo op) a rd v x d (some old) ∧
         (∀ i, i < 8 → t.readByte (a.toNat + i) = BitVec.ofNat 8 ((BitVec.ofInt 64 new).toNat / 256 ^ i)) ∧
         ∀ z, ¬ (a.toNat ≤ z ∧ z < a.toNat + 8) → t.readByte z = s.readByte z)))

/-- R25, R61, R62, R64, R65, R105, R106, R107, R108: The sync instructions on the core's own semaphores and selectors. sync.wait takes COUNT from its
semaphore when what the queues before it leave reaches COUNT, and otherwise keeps the sequencer; sync.sig adds, and above 65,535 leaves 65,535 and
traps; sync.set sets; sync.read reads; sync.wsel loads a selector. Sync.xsig adds to a cross-core semaphore of a running core of the job, named by its
number or its rank; a signal to a core that has not begun is held; an absent core traps; any other core outside the job gets nothing and event 0x90 is
raised. sync.idle and sync.until go on when the named queues are idle and when the fabric time has come, and wait otherwise; FABRIC_TIME_REACHED then
lets sync.until go on. -/
def Obligations.SyncForms : Prop :=
  (∀ (s : State) (n : Fin 32) (ws w : BitVec 4) (rd : BitVec 5) (sem : BitVec 6) (count : BitVec 16) (pred : BitVec 3) (neg : Bool),
    Safety.SeqFree s n → Safety.SelectorPasses s n ws → Safety.NextFetchable s n → sem.toNat < 48 →
    let sems := Safety.semsAfter s n ws
    let regs (t : State) (f : Nat → Nat) : Prop := Safety.Registers t n (s.cores[n]).s (s.cores[n]).p (s.cores[n]).d f
    let goes (t : State) (f : Nat → Nat) : Prop := Safety.WentOn s t n ∧ Safety.CoreFrame s t n ∧ Safety.OutsideCore s t n ∧ regs t f
    (Safety.Finds s n (.syncWait n ws sem count .ok) → count.toNat ≤ Safety.shareAfter s n ws sem.toNat →
      ∃ t, exec (.syncWait n ws sem count .ok) s = .next t ∧ goes t (fun k => if k = sem.toNat then sems k - count.toNat else sems k)) ∧
    (Safety.Finds s n (.syncWait n ws sem count .ok) → Safety.shareAfter s n ws sem.toNat < count.toNat →
      ∃ t, exec (.syncWait n ws sem count .ok) s = .next t ∧ (t.cores[n]).pc = (s.cores[n]).pc ∧
        (t.cores[n]).wait = .sem sem.toNat count.toNat s.now true 6 ∧ Safety.CoreFrame s t n ∧ Safety.OutsideCore s t n ∧ regs t sems) ∧
    (Safety.Finds s n (.syncSig n ws sem count .ok) → sem.toNat < 32 → count ≠ 0 → sems sem.toNat + count.toNat ≤ 65535 →
      ∃ t, exec (.syncSig n ws sem count .ok) s = .next t ∧ goes t (fun k => if k = sem.toNat then sems k + count.toNat else sems k)) ∧
    (Safety.Finds s n (.syncSig n ws sem count .ok) → sem.toNat < 32 → count ≠ 0 → 65535 < sems sem.toNat + count.toNat →
      ∃ u, exec (.syncSig n ws sem count .ok) s = .next (u.trap n [(.semOverflow, BitVec.ofNat 64 sem.toNat)] 6 (s.cores[n]).pc) ∧
        goes u (fun k => if k = sem.toNat then 65535 else sems k)) ∧
    (Safety.Finds s n (.syncSet n ws sem count .ok) →
      ∃ t, exec (.syncSet n ws sem count .ok) s = .next t ∧ goes t (fun k => if k = sem.toNat then count.toNat else sems k)) ∧
    Safety.PutsScalar s n ws (.syncRead n ws rd sem .ok) rd (BitVec.ofNat 64 (sems sem.toNat)) ∧
    (Safety.Finds s n (.syncWsel n ws w sem count pred neg .ok) → w ≠ 0 →
      ∃ t, exec (.syncWsel n ws w sem count pred neg .ok) s = .next t ∧ Safety.WentOn s t n ∧ Safety.OutsideCore s t n ∧
        Safety.RegistersKept s t n ws ∧ Safety.CoreFrame (s.setCore n { s.cores[n] with wsel := (t.cores[n]).wsel }) t n ∧
        (∀ k, k ≠ w → (t.cores[n]).wsEntry k = (s.cores[n]).wsEntry k) ∧
        (let e := (t.cores[n]).wsEntry w
         wselSem e = sem.toNat ∧ wselCount e = count.toNat ∧ wselPred e = pred ∧ wselNeg e = neg))) ∧
  (∀ (s : State) (n k : Fin 32) (ws xs : BitVec 4) (ra : BitVec 5) (inc : BitVec 16) (rank : Bool) (mask : BitVec 6), Safety.NextFetchable s n →
    let v := ((s.cores[n]).s ra).toNat
    let c : Instr := .syncXsig n ws ra xs inc rank .ok
    let named : Prop := if rank = true then (s.jobCores (s.cores[n]).job)[v]? = some k.val else v = k.val ∧ s.corePresent v = true
    let reaches : Prop := Safety.SeqFree s n ∧ Safety.SelectorPasses s n ws ∧ Safety.Finds s n c ∧ inc ≠ 0
    (reaches → named → k ≠ n → (s.cores[k]).run = .running → (s.cores[k]).job = (s.cores[n]).job → (s.cores[k]).sem (32 + xs.toNat) + inc.toNat ≤ 65535 →
      ∃ t, exec c s = .next t ∧ Safety.WentOn s t n ∧ Safety.RegistersKept s t n ws ∧ Safety.CoreFrame s t n ∧
        (∀ m, m ≠ n → m ≠ k → t.cores[m] = s.cores[m]) ∧ (∀ a, t.readByte a = s.readByte a) ∧
        ∀ j, (t.cores[k]).sem j = if j = 32 + xs.toNat then (s.cores[k]).sem j + inc.toNat else (s.cores[k]).sem j) ∧
    (reaches → named → k ≠ n → (s.cores[k]).run = .starting ∨ (s.cores[k]).run = .gated → (s.cores[k]).job = (s.cores[n]).job →
      ∃ t, exec c s = .next t ∧ Safety.WentOn s t n ∧ Safety.RegistersKept s t n ws ∧ (∀ m, m ≠ n → m ≠ k → t.cores[m] = s.cores[m]) ∧
        t.cores[k] = { s.cores[k] with heldSignals := (s.cores[k]).heldSignals.set xs.toNat ((s.cores[k]).heldSignals[xs.toNat] + inc.toNat) }) ∧
    (reaches → rank = false → v < 32 → s.corePresent v = false →
      ∃ u, exec c s = .next (u.trap n [(.unitAbsent, (s.cores[n]).s ra)] 6 (s.cores[n]).pc) ∧ Safety.RegistersKept s u n ws ∧ Safety.OutsideCore s u n) ∧
    (reaches → (rank = true ∧ (s.jobCores (s.cores[n]).job).length ≤ v ∨ rank = false ∧ 32 ≤ v) →
      ∃ t, exec c s = .next t ∧ Safety.WentOn s t n ∧ Safety.RegistersKept s t n ws ∧ (∀ m, m ≠ n → t.cores[m] = s.cores[m]) ∧
        Safety.Raised t 0x90 (s.cores[n]).job) ∧
    (let idle : Prop := ∀ q, mask.getLsbD (QueueId.index q) = true → (s.cores[n]).queueIdle q = true
     Safety.SeqFree s n → Safety.SelectorPasses s n ws → mask ≠ 0 →
      (idle → Safety.NextFetchable s n → Safety.GoesTo s n ws (.syncIdle n ws mask .ok) (((s.cores[n]).pc + 8).zeroExtend 64)) ∧
      (¬ idle → Safety.HeldBy s n ws (.syncIdle n ws mask .ok) (.idle mask s.now))) ∧
    (Safety.SeqFree s n → Safety.SelectorPasses s n ws →
      if (s.cores[n]).s ra ≤ s.ft then Safety.GoesTo s n ws (.syncUntil n ws ra .ok) (((s.cores[n]).pc + 8).zeroExtend 64)
      else Safety.HeldBy s n ws (.syncUntil n ws ra .ok) (.until ((s.cores[n]).s ra) s.now)) ∧
    (∀ (ft : Word) (since : Nat), (s.cores[n]).wait = .until ft since → ft ≤ s.ft →
      ∃ t, exec (.fabricTimeReached n) s = .next t ∧ Safety.WentOn s t n ∧ Safety.CoreFrame s t n ∧ Safety.OutsideCore s t n ∧
        Safety.Registers t n (s.cores[n]).s (s.cores[n]).p (s.cores[n]).d (s.cores[n]).sem))

/-- R109 to R111, R104, R79, R471: the system instructions. sys.csrr holds the sequencer until the register's value returns into rd;
sys.csrw writes CORE_NUMST alone; sys.ifence empties the instruction buffer; sys.ft and sys.cyc read time; sys.end stops fetching;
sys.event raises event 0x91. -/
def Obligations.SystemForms : Prop :=
  ∀ (s : State) (n : Fin 32) (ws : BitVec 4) (rd ra : BitVec 5) (off : BitVec 32) (code : BitVec 16),
    let o : Word := (s.cores[n]).s ra + off.zeroExtend 64
    (Safety.SeqFree s n → Safety.SelectorPasses s n ws → o.toNat % 8 = 0 → o.toNat ≤ 0xFFFF →
      Safety.HeldBy s n ws (.sysCsrr n ws rd ra off .ok) (.csr o.toNat rd)) ∧
    (Safety.NextFetchable s n → (s.cores[n]).wait = .csr o.toNat rd →
      ∃ t, exec (.csrValueReturn n) s = .next t ∧ Safety.WentOn s t n ∧ Safety.CoreFrame s t n ∧ Safety.OutsideCore s t n ∧
        Safety.Registers t n (Safety.upd (s.cores[n]).s rd (s.csr o.toNat)) (s.cores[n]).p (s.cores[n]).d (s.cores[n]).sem) ∧
    (Safety.SeqFree s n → Safety.SelectorPasses s n ws → Safety.NextFetchable s n → o.toNat = Csr.core n.val 0x30 →
      Safety.Finds s n (.sysCsrw n ws rd ra off .ok) → ∃ t, exec (.sysCsrw n ws rd ra off .ok) s = .next t ∧ Safety.WentOn s t n ∧ Safety.RegistersKept s t n ws ∧ Safety.OutsideCore s t n ∧
        Safety.CoreFrame (s.setCore n { s.cores[n] with numst := (t.cores[n]).numst }) t n ∧
        (t.cores[n]).numst = numstWrite (s.cores[n]).numst (-1) ((s.cores[n]).s rd)) ∧
    (Safety.SeqFree s n → Safety.SelectorPasses s n ws → Safety.NextFetchable s n →
      Safety.PutsScalar s n ws (.sysFt n ws rd .ok) rd s.ft ∧ Safety.PutsScalar s n ws (.sysCyc n ws rd .ok) rd (s.cores[n]).cycles) ∧
    (Safety.SeqFree s n → Safety.SelectorPasses s n ws → Safety.NextFetchable s n →
      Safety.Finds s n (.sysIfence n ws .ok) → ∃ t, exec (.sysIfence n ws .ok) s = .next t ∧ Safety.WentOn s t n ∧ Safety.CoreFrame s t n ∧ Safety.RegistersKept s t n ws ∧
        Safety.OutsideCore s t n ∧ (t.cores[n]).lines = []) ∧
    (Safety.SeqFree s n → Safety.SelectorPasses s n ws → Safety.HeldBy s n ws (.sysEnd n ws .ok) .ended) ∧
    (Safety.SeqFree s n → Safety.SelectorPasses s n ws → Safety.NextFetchable s n →
      Safety.Finds s n (.sysEvent n ws code .ok) → ∃ t, exec (.sysEvent n ws code .ok) s = .next t ∧ Safety.WentOn s t n ∧ Safety.RegistersKept s t n ws ∧
        (∀ m, m ≠ n → t.cores[m] = s.cores[m]) ∧ (∀ a, t.readByte a = s.readByte a) ∧
        Output.event { code := 0x91, ft := s.ft, job := (s.cores[n]).job, record := [code.zeroExtend 64, (s.cores[n]).pc.zeroExtend 64] } ∈ t.out)

/-- R83, R84, R125, R126, R216: a trap of a RUNNING core with nothing in flight stops it: CORE_TRAP records class, cause, suppressed
conditions and address, CORE_TRAPINFO the detail, waiting instructions are discarded, and memory, registers (but for the slots of the core's groups, whose
queues empty) and the other cores are untouched. A failed own unit leaves the core FENCED, any other cause TRAPPED. -/
def Obligations.TrapStopsCore : Prop :=
  ∀ (s : State) (n : Fin 32) (conds : List Condition) (cls : Nat) (pc : BitVec 48) (cause : Cause) (info : Word), Safety.regsCanonical s →
    (s.cores[n]).run = .running → (s.cores[n]).stopping = none → (s.cores[n]).inFlight = false → firstCondition conds = some (cause, info) →
    let t := s.trap n conds cls pc
    let w := trapWord cls cause (conds.length - 1) pc
    let fenced := (s.cores[n]).unitFailed || ownUnitFailed conds
    (t.cores[n]).trap = w ∧ (t.cores[n]).trapInfo = info ∧ (t.cores[n]).run = (if fenced then .fenced else .trapped) ∧
    (∀ q, (t.cores[n]).queue q = []) ∧ (t.cores[n]).wait = .free ∧ Safety.RegistersSame s t n ∧
    (∀ m : Fin 32, m ≠ n → t.cores[m] = s.cores[m]) ∧ (∀ a, t.readByte a = s.readByte a) ∧
    (∀ o, (∀ g, o ≠ Csr.clGrp g 0 ∧ o ≠ Csr.clGrp g 8) → t.reg o = s.reg o) ∧
    (∀ c ∈ conds, cause.rank ≤ c.1.rank) ∧ (cause, info) ∈ conds ∧
    t.halts = s.halts ++ [trapHalt (s.cores[n]).job n.val w info s.ft fenced]

/-! ### Queues and engines -/

/-- R54, R55, R57, R59, R63: an engine word that stands at pc and decodes, whose predicate holds and whose queue has room below the run-ahead limit is
queued last with the operands it names copied; no semaphore is consumed and nothing else of registers or memory changes. -/
def Obligations.DispatchQueues : Prop :=
  ∀ (s : State) (n : Fin 32) (w : Word) (q : QueueId), Safety.SeqFree s n → s.finds n w = true → Safety.NextFetchable s n →
    wordLegal w = true → queueOf w = some q → predHolds (s.cores[n]) (Safety.entryOf s n w).wsel = true →
    (s.cores[n]).occupied q < runAhead (s.cores[n]).runcfg q → Safety.OperandsOk s n w →
    ∃ t, exec (.dispatch n w .ok) s = .next t ∧ Safety.WentOn s t n ∧ (t.cores[n]).queue q = (s.cores[n]).queue q ++ [Safety.entryOf s n w] ∧
      Safety.OtherQueues s t n q ∧ Safety.RegistersSame s t n ∧ Safety.OutsideCore s t n

/-- R38, R56, R61, R62, R64, R151, R191: The head of a move, vector, row or comm queue that its engine accepts starts when what the queues before it leave
of its semaphore has reached COUNT, and consumes COUNT; the queue keeps its entries and nothing else of registers or memory changes. The oldest
instruction of a move, vector or row queue whose work is done leaves its queue with a clean check; its signal adds 1, the cycles for which it held its
engine are counted; memory and the other registers are as they were. -/
def Obligations.EngineStartsAndCompletes : Prop :=
  (∀ (s : State) (n : Fin 32) (q : QueueId) (e : Entry), (s.cores[n]).run = .running → (s.cores[n]).stopping = none →
    q ∈ [QueueId.move, .vector, .row, .comm] → (s.cores[n]).head q = some e → s.canStart n q e = true →
    wselCount e.wsel ≤ s.semLeft n (QueueId.before q) (wselSem e.wsel) →
    (q = .comm ∧ 0x10 ≤ wOp e.word ∨ s.clearOfStaging (s.cores[n]).job (entryReads n e ++ entryWrites n e) = true) →
    s.poison = [] → (∀ x ∈ (s.cores[n]).queue q, x.seq = e.seq → x = e) →
    ∃ t, exec (.instructionStart n q .none) s = .next t ∧ { e with started := true, failed := false } ∈ (t.cores[n]).queue q ∧
      ((t.cores[n]).queue q).length = ((s.cores[n]).queue q).length ∧ Safety.OtherQueues s t n q ∧
      (t.cores[n]).pc = (s.cores[n]).pc ∧ (∀ a, t.readByte a = s.readByte a) ∧ (∀ m : Fin 32, m ≠ n → t.cores[m] = s.cores[m]) ∧
      Safety.Registers t n (s.cores[n]).s (s.cores[n]).p (s.cores[n]).d
        (fun k => if k = wselSem e.wsel then (s.cores[n]).sem k - wselCount e.wsel else (s.cores[n]).sem k)) ∧
  (∀ (s : State) (n : Fin 32) (q : QueueId) (e : Entry) (stretch : Nat), q ∈ [QueueId.move, .vector, .row] →
    (s.cores[n]).stopping = none → ((s.cores[n]).queue q).find? (fun x => x.started && x.executed) = some e →
    (∀ k, Safety.NoDrill s k n.val) → e.flags = 0 → (wSe e.word = true → (s.cores[n]).sem (wSsem e.word) + 1 ≤ 65535) → wCls e.word ≠ 2 →
    ∃ t, exec (.instructionComplete n q [] stretch) s = .next t ∧
      (t.cores[n]).queue q = ((s.cores[n]).queue q).filter (fun x => x.seq != e.seq) ∧ Safety.OtherQueues s t n q ∧
      (t.cores[n]).pc = (s.cores[n]).pc ∧ (∀ a, t.readByte a = s.readByte a) ∧ (∀ m : Fin 32, m ≠ n → t.cores[m] = s.cores[m]) ∧
      (t.cores[n]).veccyc = (countCycles (s.cores[n]) e 0 stretch).veccyc ∧ (t.cores[n]).rowcyc = (countCycles (s.cores[n]) e 0 stretch).rowcyc ∧
      Safety.Registers t n (s.cores[n]).s (s.cores[n]).p (s.cores[n]).d
        (fun k => if wSe e.word = true ∧ k = wSsem e.word then (s.cores[n]).sem k + 1 else (s.cores[n]).sem k))

/-- R25, R78, R81, R82, R84, R86, R125, R126, R173, R191, R288: A line fill that completes is held with the block's bytes as the most recently used of at
most 16 lines; the first line of a job's core makes the core RUNNING with its trap record, NUMST, counters and message failure clear, its records
EMPTY, and the signals held for it in its cross-core semaphores. A core whose engines and sequencer all wait on local semaphores with nothing in
flight traps with DEADLOCK; waits longer than WAIT_TO milliseconds trap with WAIT_TIMEOUT: the first in order is recorded with its semaphore and
COUNT, the others are counted. -/
def Obligations.FillsAndBlockedCores : Prop :=
  (∀ (s : State) (n : Fin 32) (f : LineFill) (rest : List LineFill), Safety.memCanonical s → Safety.regsCanonical s →
    (s.cores[n]).fills = f :: rest → s.poison = [] → heldConditions (s.cores[n]) = [] →
    let line : Line := { block := f.block, bytes := s.blockBytes f.block }
    ∃ t, exec (.instructionFetchFill n .none) s = .next t ∧
      (t.cores[n]).lines = (line :: (s.cores[n]).lines.filter (fun l => l.block != f.block)).take 16 ∧ (t.cores[n]).fills = rest ∧
      (∀ m : Fin 32, m ≠ n → t.cores[m] = s.cores[m]) ∧
      ((s.cores[n]).run = .running → (t.cores[n]).run = .running ∧ (t.cores[n]).numst = (s.cores[n]).numst ∧ Safety.RegistersSame s t n ∧
        ∀ a, t.readByte a = s.readByte a) ∧
      ((s.cores[n]).run = .idle → (s.cores[n]).job ≠ 0 → (t.cores[n]).run = .running ∧ (t.cores[n]).trap = 0 ∧ (t.cores[n]).trapInfo = 0 ∧
        (t.cores[n]).numst = 0 ∧ (t.cores[n]).cycles = 0 ∧ (t.cores[n]).mmcyc = 0 ∧ (t.cores[n]).veccyc = 0 ∧ (t.cores[n]).rowcyc = 0 ∧
        t.reg (Csr.fabMsgErr n.val) = 0 ∧
        (∀ a, t.readByte a = if statsBase n.val ≤ a ∧ a < statsBase n.val + statsSize then memDefault a else s.readByte a) ∧
        Safety.Registers t n (s.cores[n]).s (s.cores[n]).p (s.cores[n]).d
          (fun k => if h : 32 ≤ k ∧ k < 48 then min 65535 (s.cores[n]).heldSignals[k - 32] else (s.cores[n]).sem k))) ∧
  (∀ (s : State) (n : Fin 32), (s.cores[n]).run = .running → (s.cores[n]).stopping = none → (s.cores[n]).inFlight = false →
    let stopped : RunState := if (s.cores[n]).unitFailed then .fenced else .trapped
    let limit := (s.cores[n]).runcfg.field 63 48 * 1000000
    (QueueId.all.all (s.cores[n]).deadQueue = true → (s.cores[n]).deadSequencer = true →
      ∃ t, exec (.deadlockDetect n) s = .next t ∧ (t.cores[n]).run = stopped ∧ ((t.cores[n]).trap).field 59 52 = 8 ∧
        ((t.cores[n]).trapInfo).bit 6 = true ∧ (∀ a, t.readByte a = s.readByte a)) ∧
    (∀ (b : BlockedWait) (more : List BlockedWait), limit ≠ 0 →
      ((s.cores[n]).blockedWaits (groupFull s n)).filter (fun x => decide (limit < s.now - x.since)) = b :: more →
      ∃ t, exec (.waitTimeoutExpiry n) s = .next t ∧ (t.cores[n]).run = stopped ∧ (t.cores[n]).trap = trapWord b.cls .waitTimeout more.length b.pc ∧
        (t.cores[n]).trapInfo = b.info ∧ (∀ a, t.readByte a = s.readByte a)) ∧
    (∀ (code count since cls : Nat) (own : Bool), (∀ q, (s.cores[n]).queue q = []) → (s.cores[n]).wait = .sem code count since own cls →
      limit ≠ 0 → limit < s.now - since → code < 64 → count < 65536 →
      ∃ t, exec (.waitTimeoutExpiry n) s = .next t ∧ (t.cores[n]).run = stopped ∧ ((t.cores[n]).trap).field 59 52 = 9 ∧
        (t.cores[n]).trapInfo = BitVec.ofNat 64 (code * 2 ^ 16 + count) ∧ (∀ a, t.readByte a = s.readByte a)))

/-- R70 to R72: a descriptor that passes the checks of R72 gives every element bits of its own. -/
def Obligations.WellFormedDescriptorApart : Prop :=
  ∀ (d sc : Desc) (reg : BitVec 4), Desc.fault d reg sc = none → Safety.ElementsApart d

/-- R112, R35 to R37, R42, R222: the move instructions. mv.copy puts the element codes of the source, mv.cvt each value rounded once,
mv.fill the low bits of the scalar, into the destination; mv.bcast copies the source to the same offset of every core of its mask. -/
def Obligations.MoveResults : Prop :=
  ∀ (s : State) (n : Fin 32) (e : Entry), Safety.memCanonical s →
    (Safety.WorksOn s n .move 1 0 e → Desc.mxs e.d0.val = false → Safety.ElementsApart e.d0.val →
      Safety.NoSharedByte (Desc.ranges e.d0.val) (Desc.ranges e.d1.val) →
      ∃ t, exec (.mvCopy n) s = .next t ∧ Safety.TensorHolds t e.d0.val (fun i j => s.elem e.d1.val i j) ∧
        Safety.TookEffect s t n .move e 0 (Desc.ranges e.d0.val)) ∧
    (Safety.WorksOn s n .move 1 0 e → Desc.mxs e.d0.val = true → Safety.ElementsApart e.d0.val → Safety.ElementsApart e.d0.next →
      Safety.NoSharedByte (rangesOf [e.d0.val, e.d0.next]) (rangesOf [e.d1.val, e.d1.next]) →
      Safety.NoSharedByte (Desc.ranges e.d0.next) (Desc.ranges e.d0.val) →
      ∃ t, exec (.mvCopy n) s = .next t ∧ Safety.TensorHolds t e.d0.val (fun i j => s.elem e.d1.val i j) ∧
        Safety.TensorHolds t e.d0.next (fun i j => s.elem e.d1.next i j) ∧
        Safety.TookEffect s t n .move e 0 (rangesOf [e.d0.val, e.d0.next])) ∧
    (Safety.WorksOn s n .move 1 1 e → Safety.ElementsApart e.d0.val → Safety.NoSharedByte (Desc.ranges e.d0.val) (Desc.ranges e.d1.val) →
      let f (i j : Nat) : Nat × NumFlags := encodeAt (e.word.field 28 27) (e.word.field 26 25) e.ra e.d0.val i j
        (elemDecode (Desc.fmt e.d1.val) (s.elem e.d1.val i j))
      ∃ t, exec (.mvCvt n) s = .next t ∧ Safety.ValuesStored t e.d0.val f ∧
        Safety.TookEffect s t n .move e (Safety.flagsOf e.d0.val f) (Desc.ranges e.d0.val)) ∧
    (Safety.WorksOn s n .move 1 2 e → Safety.ElementsApart e.d0.val →
      ∃ t, exec (.mvFill n) s = .next t ∧ Safety.TensorHolds t e.d0.val (fun _ _ => e.ra.toNat) ∧
        Safety.TookEffect s t n .move e 0 (Desc.ranges e.d0.val)) ∧
    (Safety.WorksOn s n .move 1 4 e → (∀ d ∈ bcastDests e, Safety.ElementsApart d) →
      Safety.NoSharedByte (rangesOf (bcastDests e)) (Desc.ranges e.d1.val) →
      (bcastDests e).Pairwise (fun d d' => Safety.NoSharedByte (Desc.ranges d) (Desc.ranges d')) →
      ∃ t, exec (.mvBcast n) s = .next t ∧ (∀ d ∈ bcastDests e, Safety.TensorHolds t d (fun i j => s.elem e.d1.val i j)) ∧
        Safety.TookEffect s t n .move e 0 (rangesOf (bcastDests e)))

/-- R112, R237 to R239: mv.red applies its operation to every element of its destination in HBM: each becomes old op new and no other byte
changes, provided that no adder pair on the way is fenced. ATOMIC_OPERATION applies the next 64 B line of a started mv.red as one operation and counts it. -/
def Obligations.MoveReduction : Prop :=
  ∀ (s : State) (n : Fin 32) (e : Entry), Safety.memCanonical s → s.poison = [] → (s.cores[n]).working .move 1 3 = some e → entryEmpty e = false →
    Safety.NoDrill s 6 n.val →
    let d : Desc := e.d0.val
    let op := e.word.field 24 22
    let k := fmtBits d.fmt / 8
    let served (a : Nat) : Prop := ∃ st ch y, s.hbmPlace a = some (st, ch, y) ∧ (s.reg (Csr.hbmAmo st)).bit ch = false
    redFormats.contains d.fmt = true → Safety.ElementsApart d → (∀ i j, i < d.rows → j < d.cols → served (d.elemBytes i j).1) →
    (e.progress = 0 → Safety.NoSharedByte d.ranges (Desc.ranges e.d1.val) →
      ∃ t, exec (.mvRed n) s = .next t ∧ Safety.TensorHolds t d (fun i j => amoElement d.fmt op (s.elem d i j) (s.elem e.d1.val i j) 0) ∧
        (∃ x ∈ (t.cores[n]).qMove, x.seq = e.seq ∧ x.executed = true ∧ x.progress = (redLines d).length) ∧ Safety.RegistersSame s t n ∧
        ∀ x, inRanges d.ranges x = false → t.readByte x = s.readByte x) ∧
    (∀ (line : Nat) (more : List Nat), (redLines d).drop e.progress = line :: more →
      ∃ t, exec (.atomicOperation (.moveQueue n) .ok .none) s = .next t ∧
        (∀ i j, i < d.rows → j < d.cols → (d.elemBytes i j).1 / 64 = line →
          t.elem d i j = amoElement d.fmt op (s.elem d i j) (s.elem e.d1.val i j) 0 % 2 ^ d.bits) ∧
        (∀ x, (∀ i j, i < d.rows → j < d.cols → (d.elemBytes i j).1 / 64 = line → ¬ ((d.elemBytes i j).1 ≤ x ∧ x < (d.elemBytes i j).1 + k)) →
          t.readByte x = s.readByte x) ∧
        (∃ u, { e with progress := e.progress + 1, undo := u } ∈ (t.cores[n]).qMove) ∧ Safety.RegistersSame s t n)

/-- R118, R161, R162, R164, R165, R169: the element-wise vector instructions: arithmetic, functions and derivatives. Every element of dD is
the instruction's value of its sources, rounded once; in place or apart from its sources. -/
def Obligations.VectorElementwise : Prop :=
  ∀ (s : State) (n : Fin 32),
    let fn (f : Fn) : State → Entry → Nat → Nat → Val := fun s e i j => fnVal f 0 (srcA s e i j)
    Safety.VectorResult s n (.vecAdd n) 0x0 (fun s e i j => (srcA s e i j).add (srcB s e i j)) ∧
    Safety.VectorResult s n (.vecSub n) 0x1 (fun s e i j => (srcA s e i j).sub (srcB s e i j)) ∧
    Safety.VectorResult s n (.vecMul n) 0x2 (fun s e i j => (srcA s e i j).mul (srcB s e i j)) ∧
    Safety.VectorResult s n (.vecMax n) 0x3 (fun s e i j => (srcA s e i j).max (srcB s e i j)) ∧
    Safety.VectorResult s n (.vecMin n) 0x4 (fun s e i j => (srcA s e i j).min (srcB s e i j)) ∧
    Safety.VectorResult s n (.vecFma n) 0x5 (fun s e i j => ((srcA s e i j).mul (srcB s e i j)).add (srcS s e i j)) ∧
    Safety.VectorResult s n (.vecAdds n) 0x6 (fun s e i j => (srcA s e i j).add (scalarFp32 e.ra)) ∧
    Safety.VectorResult s n (.vecMuls n) 0x7 (fun s e i j => (srcA s e i j).mul (scalarFp32 e.ra)) ∧
    Safety.VectorResult s n (.vecBcadd n) 0x8 (fun s e i j => (srcA s e i j).add (srcB s e 0 j)) ∧
    Safety.VectorResult s n (.vecBcmul n) 0x9 (fun s e i j => (srcA s e i j).mul (srcB s e 0 j)) ∧
    Safety.VectorResult s n (.vecCvt n) 0xA srcA ∧
    Safety.VectorResult s n (.vecExp2 n) 0x10 (fn .exp2) ∧ Safety.VectorResult s n (.vecLog2 n) 0x11 (fn .log2) ∧
    Safety.VectorResult s n (.vecRcp n) 0x12 (fn .rcp) ∧ Safety.VectorResult s n (.vecRsqrt n) 0x13 (fn .rsqrt) ∧
    Safety.VectorResult s n (.vecSqrt n) 0x14 (fn .sqrt) ∧
    Safety.VectorResult s n (.vecAbs n) 0x15 (fun s e i j => (srcA s e i j).abs) ∧
    Safety.VectorResult s n (.vecNeg n) 0x16 (fun s e i j => (srcA s e i j).neg)

/-- R165, R169 to R171: the activations, which save the value or, for gelu, silu and erf, the input when SAVE is 1. -/
def Obligations.VectorActivations : Prop :=
  ∀ (s : State) (n : Fin 32),
    Safety.ActivationResult s n (.vecRelu n) 0x20 false (fun _ x => if x.isNan then .nan else if x.isPos then x else Val.zero) ∧
    Safety.ActivationResult s n (.vecSigmoid n) 0x21 false (fun _ x => fnVal .sigmoid 0 x) ∧
    Safety.ActivationResult s n (.vecTanh n) 0x22 false (fun _ x => fnVal .tanh 0 x) ∧
    Safety.ActivationResult s n (.vecExp n) 0x23 false (fun _ x => fnVal .exp 0 x) ∧
    Safety.ActivationResult s n (.vecSoftplus n) 0x24 false (fun _ x => fnVal .softplus 0 x) ∧
    Safety.ActivationResult s n (.vecElu n) 0x25 false (fun e x => fnVal .elu e.ra x) ∧
    Safety.ActivationResult s n (.vecGelu n) 0x26 true (fun _ x => fnVal .gelu 0 x) ∧
    Safety.ActivationResult s n (.vecSilu n) 0x27 true (fun _ x => fnVal .silu 0 x) ∧
    Safety.ActivationResult s n (.vecErf n) 0x28 true (fun _ x => fnVal .erf 0 x)

/-- R169, R171: the derivatives: dA times f′, with f′ formed in FP32 from the saved tensor dS. -/
def Obligations.VectorDerivatives : Prop :=
  ∀ (s : State) (n : Fin 32),
    let times (f : Entry → Val → Val) : State → Entry → Nat → Nat → Val := fun s e i j => (srcA s e i j).mul (f e (srcS s e i j))
    Safety.VectorResult s n (.vecDrelu n) 0x30 (fun s e i j =>
      if (srcS s e i j).isNan || (srcA s e i j).isNan then .nan else if (srcS s e i j).isPos then srcA s e i j else Val.zero) ∧
    Safety.VectorResult s n (.vecDsigmoid n) 0x31 (times (fun _ y => roundFp32 (y.mul (roundFp32 (Val.one.sub y))))) ∧
    Safety.VectorResult s n (.vecDtanh n) 0x32 (times (fun _ y => roundFp32 (Val.one.sub (y.mul y)))) ∧
    Safety.VectorResult s n (.vecDexp n) 0x33 (times (fun _ y => y)) ∧
    Safety.VectorResult s n (.vecDsoftplus n) 0x34 (times (fun _ y => fnVal .dsoftplus 0 y)) ∧
    Safety.VectorResult s n (.vecDelu n) 0x35 (fun s e i j =>
      if (srcS s e i j).isNan then .nan else if (srcS s e i j).isPos then srcA s e i j
      else (srcA s e i j).mul (roundFp32 ((srcS s e i j).add (scalarFp32 e.ra)))) ∧
    Safety.VectorResult s n (.vecDgelu n) 0x36 (times (fun _ x => fnVal .dgelu 0 x)) ∧
    Safety.VectorResult s n (.vecDsilu n) 0x37 (times (fun _ x => fnVal .dsilu 0 x)) ∧
    Safety.VectorResult s n (.vecDerf n) 0x38 (times (fun _ x => fnVal .derf 0 x))

/-- R166 to R168: the reductions along rows (lanes and tree) or columns (in order), each combination rounded to FP32. -/
def Obligations.VectorReductions : Prop :=
  ∀ (s : State) (n : Fin 32),
    let add (a b : Val) : Val := roundFp32 (a.add b)
    Safety.ReductionResult s n (.vecRsum n) 0x40 (fun x => x) add add ∧
    Safety.ReductionResult s n (.vecRmax n) 0x41 (fun x => x) Val.max Val.max ∧
    Safety.ReductionResult s n (.vecRmin n) 0x42 (fun x => x) Val.min Val.min ∧
    Safety.ReductionResult s n (.vecRsumsq n) 0x43 (fun x => roundFp32 (x.mul x)) (fun a x => roundFp32 (a.add (x.mul x))) add

/-- R173, R176, R179 to R183, R186 to R188: the row instructions: the records they write, and the elements of dD. -/
def Obligations.RowResults : Prop :=
  ∀ (s : State) (n : Fin 32),
    Safety.RowResult s n (.rowStat n) 0 (some (fun e r => (newRecord s n e r).1)) none true ∧
    Safety.RowResult s n (.rowSoftmax n) 1 (some (fun e r => rowRecord s e e.d1.val r))
      (some (fun e i j => softmaxValue (rowRecord s e e.d1.val i) (counted s e e.d1.val i j) (score s e e.d1.val i j) true)) true ∧
    Safety.RowResult s n (.rowFinish n) 3 none (some (fun e i j =>
      match recClass (s.record n (rowRec e.word + i)) with
      | .nan => .nan
      | .empty => Val.zero
      | _ => (srcA s e i j).div (recSum (s.record n (rowRec e.word + i))))) true ∧
    Safety.RowResult s n (.rowNorm n) 5 (some (fun e r => (normRow s e true r).1)) (some (fun e i j => (normRow s e true i).2 j)) true ∧
    Safety.RowResult s n (.rowRms n) 6 (some (fun e r => (normRow s e false r).1)) (some (fun e i j => (normRow s e false i).2 j)) true ∧
    Safety.RowResult s n (.rowDsoftmax n) 8 none (some (fun e i j =>
      match recClass (s.record n (rowRec e.word + i)) with
      | .nan => .nan
      | .empty => Val.zero
      | _ =>
        if counted s e e.d2.val i j then
          (mul32 (probability s n e i j) (sub32 (srcA s e i j) (dotGrad s n e i))).mul (scalarFp32 e.ra)
        else Val.zero)) true ∧
    Safety.RowResult s n (.rowDnorm n) 9 none (some (fun e i j => dnormRow s n e true i j)) true ∧
    Safety.RowResult s n (.rowDrms n) 0xA none (some (fun e i j => dnormRow s n e false i j)) true

/-- R180, R181: row.osmx takes a block into the running records, writes the unnormalised probabilities and the factors of the old records;
row.merge merges received records into the running ones, in its form without factors and in its form with them. -/
def Obligations.RowMerging : Prop :=
  ∀ (s : State) (n : Fin 32) (e : Entry), Safety.memCanonical s →
    (Safety.WorksOn s n .row 4 2 e → Safety.ElementsApart e.d0.val → Safety.ElementsApart e.d2.val →
      Safety.NoSharedByte (Desc.ranges e.d0.val) (rangesOf (sourceDescs e)) →
      Safety.NoSharedByte (Desc.ranges e.d2.val) (rangesOf (sourceDescs e) ++ Desc.ranges e.d0.val) →
      Safety.NoSharedByte (rangesOf [e.d0.val, e.d2.val]) (Safety.rowRecordBytes n e) →
      ∃ t fl, exec (.rowOsmx n) s = .next t ∧
        (∀ r, r < Desc.rows e.d1.val → t.record n (rowRec e.word + r) = (newRecord s n e r).1) ∧
        Safety.ValuesStored t e.d0.val (fun i j => roundOut e i j
          (softmaxValue (newRecord s n e i).1 (counted s e e.d1.val i j) (score s e e.d1.val i j) false)) ∧
        Safety.TensorHolds t e.d2.val (fun i _ => (bitsFp32 (newRecord s n e i).2).toNat) ∧
        Safety.TookEffect s t n .row e fl (rangesOf [e.d0.val, e.d2.val] ++ Safety.rowRecordBytes n e)) ∧
    (Safety.WorksOn s n .row 4 4 e → mergeWritesFactors e = false →
      ∃ t, exec (.rowMerge n) s = .next t ∧
        (∀ r, r < Desc.rows e.d1.val → t.record n (rowRec e.word + r) = recCanon (mergeRow s n e r).1) ∧
        Safety.TookEffect s t n .row e 0 (Safety.rowRecordBytes n e)) ∧
    (Safety.WorksOn s n .row 4 4 e → mergeWritesFactors e = true → Safety.ElementsApart e.d0.val → Safety.ElementsApart e.d2.val →
      Safety.NoSharedByte (Desc.ranges e.d0.val) (Desc.ranges e.d1.val) →
      Safety.NoSharedByte (Desc.ranges e.d2.val) (Desc.ranges e.d1.val ++ Desc.ranges e.d0.val) →
      Safety.NoSharedByte (rangesOf [e.d0.val, e.d2.val]) (Safety.rowRecordBytes n e) →
      ∃ t, exec (.rowMerge n) s = .next t ∧
        (∀ r, r < Desc.rows e.d1.val → t.record n (rowRec e.word + r) = recCanon (mergeRow s n e r).1) ∧
        Safety.TensorHolds t e.d0.val (fun i _ => (bitsFp32 (mergeRow s n e i).2.1).toNat) ∧
        Safety.TensorHolds t e.d2.val (fun i _ => (bitsFp32 (mergeRow s n e i).2.2).toNat) ∧
        Safety.TookEffect s t n .row e 0 (rangesOf [e.d0.val, e.d2.val] ++ Safety.rowRecordBytes n e))

/-- R56, R117, R136, R145, R148, R150: a started issue or drain of a context queue. The head that the engine accepts and whose wait is met is marked started; an
issue makes its bank accumulate, a drain takes it. -/
def Obligations.MatrixStart : Prop :=
  ∀ (s : State) (n : Fin 32) (q : QueueId) (e : Entry), q ∈ [QueueId.ctx0, .ctx1] → (s.cores[n]).run = .running →
    (s.cores[n]).stopping = none → (s.cores[n]).head q = some e → s.canStart n q e = true →
    wselCount e.wsel ≤ s.semLeft n (QueueId.before q) (wselSem e.wsel) →
    s.clearOfStaging (s.cores[n]).job (entryReads n e ++ entryWrites n e) = true → s.poison = [] →
    (∀ x ∈ (s.cores[n]).queue q, x.seq = e.seq → x = e) →
    (wOp e.word = 0 → issueStartBreach (s.cores[n]) e = false → s.riseHeld = false →
      ∃ t, exec (.instructionStart n q .none) s = .next t ∧ { e with started := true, failed := false } ∈ (t.cores[n]).queue q ∧
        ((t.cores[n]).bank (issueBank e.word)).phase = .accum ∧
        (t.cores[n]).bank (!issueBank e.word) = (s.cores[n]).bank (!issueBank e.word) ∧ ∀ a, t.readByte a = s.readByte a) ∧
    (wOp e.word ≠ 0 → drainStartBreach (s.cores[n]) e = false →
      ∃ t, exec (.instructionStart n q .none) s = .next t ∧ { e with started := true, failed := false } ∈ (t.cores[n]).queue q ∧
        ((t.cores[n]).bank (drainBank e.word)).phase = .draining ∧ (t.cores[n]).drains.length = (s.cores[n]).drains.length + 1 ∧
        (∃ d ∈ (t.cores[n]).drains, d.entry = e ∧ d.bank = drainBank e.word ∧ d.image = (s.cores[n]).bank (drainBank e.word) ∧ d.read = false) ∧
        ∀ a, t.readByte a = s.readByte a)

/-- R115, R136, R43 to R49, R194, R206: an issue accumulates in every data cell of its bank the products of its group's reduction
indices, adds its indices to K_acc and its entry to the product log, and counts the cycles for which it held the arrays; memory is unchanged. -/
def Obligations.MatrixIssue : Prop :=
  ∀ (s : State) (n : Fin 32) (q : QueueId) (e : Entry) (stretch : Nat), (s.cores[n]).matrixWorking 0 = some (q, e) → issueEmpty e = false →
    Safety.NoRace s n q e →
    let k := issueBank e.word
    let b := (s.cores[n]).bank k
    let c : Desc := e.d2.val
    let b0 := if issueInit e.word = 1 then b
      else b.load (if issueInit e.word = 2 then some (c.fmt, (positions b.m b.n).map (fun p => s.elem c p.1 p.2)) else none)
    b0.cells.length = b.fold * b.m * b.n →
    ∃ t, exec (.mmIssue n stretch) s = .next t ∧
      (let b' := (t.cores[n]).bank k
       b'.kacc = b0.kacc + issueIndices e ∧ b'.log.length = b.log.length + 1 ∧ b'.phase = b.phase ∧ b'.m = b.m ∧ b'.n = b.n ∧
       (∀ g i j, g < b.fold → i < b.m → j < b.n → b'.cell? g i j = (b0.cell? g i j).map (fun x =>
         cellAfter b.mode (cellDepth b.fmtA b.fmtB) (groupIndices b0.kacc (issueIndices e) b.fold g) (issueA s e i)
           (fun kk => issueB s e kk j) x))) ∧
      (t.cores[n]).bank (!k) = (s.cores[n]).bank (!k) ∧ (∃ u w, { e with executed := true, undo := u, crc := w } ∈ (t.cores[n]).queue q) ∧
      (t.cores[n]).mmcyc = (s.cores[n]).mmcyc + BitVec.ofNat 64 (occupancy n b e + stretch) ∧
      Safety.RegistersSame s t n ∧ (∀ m : Fin 32, m ≠ n → t.cores[m] = s.cores[m]) ∧ ∀ a, t.readByte a = s.readByte a

/-- R44, R45: in exact mode a data cell adds, in units of 2⁻³² and modulo 2⁸⁸, the sum of its products, however the cycles cut it. -/
def Obligations.ExactCellSum : Prop :=
  ∀ (m : AccMode) (d : Nat) (idx : List Nat) (a b : Nat → Val) (c : DataCell), m = .exactFloat ∨ m = .exactInt → 0 < d →
    (cellAfter m d idx a b c).acc = BitVec.ofInt 88 (c.acc.toInt + (idx.map (fun k => toUnits 32 ((a k).mul (b k)))).sum)

/-- R45 to R47, R144 to R147, R202, R203: a bank whose last product has arrived HOLDS it; a drain writes every output of its bank, rounded
once; when the bank has been read it is EMPTY; a clean verdict of a drain that has completed ends it and signals the checked semaphore, before its
completion it waits for that; a failed one asks for the retry. -/
def Obligations.MatrixDrain : Prop :=
  ∀ (s : State) (n : Fin 32),
    (∀ bank, ((s.cores[n]).bank bank).phase = .accum →
      (s.cores[n]).matrixEntries.all (fun e => !(e.started && wOp e.word == 0 && issueBank e.word == bank)) = true →
      ∃ t, exec (.issueAccumulated n bank []) s = .next t ∧ (t.cores[n]).bank bank = { (s.cores[n]).bank bank with phase := .held } ∧
        (t.cores[n]).bank (!bank) = (s.cores[n]).bank (!bank) ∧ Safety.RegistersSame s t n ∧ Safety.OutsideCore s t n) ∧
    (∀ q e d, (s.cores[n]).matrixWorking 1 = some (q, e) → (s.cores[n]).drainOf e.seq = some d → d.image.m ≠ 0 → d.image.n ≠ 0 →
      Safety.NoRace s n q e → Safety.memCanonical s → Safety.ElementsApart e.d0.val →
      ∃ t, exec (.mmDrain n) s = .next t ∧ Safety.ValuesStored t e.d0.val (drainElement d.image e) ∧
        Safety.TookEffect s t n q e (Safety.flagsOf e.d0.val (drainElement d.image e)) (Desc.ranges e.d0.val)) ∧
    (∀ d, (s.cores[n]).drains.find? (fun d => !d.read) = some d →
      ∃ t, exec (.drainBankRead n) s = .next t ∧ (t.cores[n]).bank d.bank = Bank.vacant ∧
        (t.cores[n]).bank (!d.bank) = (s.cores[n]).bank (!d.bank) ∧ { d with read := true } ∈ (t.cores[n]).drains ∧ Safety.OutsideCore s t n) ∧
    (∀ d, (s.cores[n]).drains.find? (fun d => d.phase == .open && d.read && (s.cores[n]).drainDone d) = some d → d.image.verdict n.val d.bank = none →
      Safety.NoDrill s 0 n.val → (s.cores[n]).stopping = none → (s.cores[n]).drainLeft d = true →
      (d.entry.word.bit 26 = true → (s.cores[n]).sem (d.entry.word.field 25 21) + 1 ≤ 65535) →
      ∃ t, exec (.drainVerdict n) s = .next t ∧ (t.cores[n]).drains = (s.cores[n]).drains.filter (fun x => x.entry.seq != d.entry.seq) ∧
        Safety.OutsideCore s t n ∧ Safety.Registers t n (s.cores[n]).s (s.cores[n]).p (s.cores[n]).d
          (fun k => if d.entry.word.bit 26 = true ∧ k = d.entry.word.field 25 21 then (s.cores[n]).sem k + 1 else (s.cores[n]).sem k)) ∧
    (∀ d, (s.cores[n]).drains.find? (fun d => d.phase == .open && d.read && (s.cores[n]).drainDone d) = some d → d.image.verdict n.val d.bank = none →
      Safety.NoDrill s 0 n.val → (s.cores[n]).drainLeft d = false →
      exec (.drainVerdict n) s = .next (s.setCore n ((s.cores[n]).putDrain { d with phase := .clean }))) ∧
    (∀ d loc, (s.cores[n]).drains.find? (fun d => d.phase == .open && d.read && (s.cores[n]).drainDone d) = some d →
      d.image.verdict n.val d.bank = some loc → Safety.regsCanonical s → s.fld Csr.chkStat 47 40 < 255 →
      ∃ t, exec (.drainVerdict n) s = .next t ∧
        { d with phase := .retryWaiting, loc := loc, failFt := s.ft, failNow := s.now } ∈ (t.cores[n]).drains ∧
        t.fld Csr.chkStat 47 40 = s.fld Csr.chkStat 47 40 + 1 ∧ ∀ a, t.readByte a = s.readByte a)

/-- R205 to R207, R216: the retry reruns the product log into the bank, saving a product that has started there; a clean retry verdict
rewrites the destination from the retried product, gives the bank its saved product back, and ends the drain. -/
def Obligations.MatrixRetry : Prop :=
  ∀ (s : State) (n : Fin 32) (d : DrainRec),
    let flags := Safety.flagsOf d.entry.d0.val (drainElement d.image d.entry)
    (∀ b, (s.cores[n]).drains.find? (fun d => d.phase == .retryWaiting) = some d → (s.cores[n]).arraysBusy = false →
      (s.cores[n]).drains.any (fun x => x.phase == .retryDrained || !x.read) = false → (s.cores[n]).drainDone d = true → s.poison = [] →
      rerun s 0 Bank.vacant d.image.log = .ok b →
      ∃ t, exec (.matrixRetry n [] .none) s = .next t ∧ (t.cores[n]).bank d.bank = { b with phase := .draining, log := d.image.log } ∧
        (t.cores[n]).bank (!d.bank) = (s.cores[n]).bank (!d.bank) ∧
        (t.cores[n]).saved = (if ((s.cores[n]).bank d.bank).phase = .empty then none else some ((s.cores[n]).bank d.bank)) ∧
        (∃ x ∈ (t.cores[n]).drains, x.entry = d.entry ∧ x.phase = .retryDrained ∧ x.image = { b with phase := .draining, log := d.image.log }) ∧
        Safety.RegistersSame s t n ∧ Safety.OutsideCore s t n) ∧
    ((s.cores[n]).drains.find? (fun d => d.phase == .retryDrained) = some d → d.image.verdict n.val d.bank = none → Safety.memCanonical s →
      (s.cores[n]).stopping = none → d.entry.word.bit 26 = false → Safety.ElementsApart d.entry.d0.val →
      numericConditions (numstRaise (s.cores[n]).numst flags) flags = [] →
      ∃ t, exec (.retryVerdict n) s = .next t ∧ Safety.ValuesStored t d.entry.d0.val (drainElement d.image d.entry) ∧
        (t.cores[n]).bank d.bank = (s.cores[n]).saved.getD Bank.vacant ∧ (t.cores[n]).saved = none ∧
        (t.cores[n]).drains = (s.cores[n]).drains.filter (fun x => x.entry.seq != d.entry.seq) ∧
        (∀ a, inRanges (Desc.ranges d.entry.d0.val) a = false → t.readByte a = s.readByte a) ∧ Safety.RegistersSame s t n)

/-- R154, R155, R158: the arrays' clock: RAMP at 0% ends GATED, RISE at 100% ends ACTIVE when an issue holds the arrays and WARM otherwise, and a keep-warm
window of KW × 100 ns that has passed turns WARM into RAMP; nothing else changes. -/
def Obligations.ArrayClock : Prop :=
  ∀ (s : State) (n : Fin 32),
    let c := s.cores[n]
    (c.arrays = .ramp → c.dutyNow s.now = 0 → ∃ t, exec (.arraysGate n) s = .next t ∧ t = s.setCore n { c with arrays := .gated, duty := 0, arraysSince := s.now } ∧
      (t.cores[n]).dutyNow t.now = 0) ∧
    (c.arrays = .rise → c.dutyNow s.now = 100 → ∃ t, exec (.arraysRiseEnd n) s = .next t ∧ (t.cores[n]).arrays = (if c.arraysBusy then .active else .warm) ∧
      (t.cores[n]).dutyNow t.now = 100 ∧ Safety.RegistersSame s t n ∧ Safety.OutsideCore s t n) ∧
    (c.dutyNow s.now ≠ 0 → exec (.arraysGate n) s = .next s) ∧ (c.dutyNow s.now ≠ 100 → exec (.arraysRiseEnd n) s = .next s) ∧
    (c.arrays = .warm → c.mmcfg.field 7 0 ≤ 200 → c.mmcfg.field 7 0 * 100 ≤ s.now - c.arraysSince →
      ∃ t, exec (.keepWarmExpiry n) s = .next t ∧ (t.cores[n]).arrays = .ramp ∧ (t.cores[n]).dutyNow t.now = 100 ∧
        Safety.RegistersSame s t n ∧ Safety.OutsideCore s t n)

/-! ### Fabric and collectives -/

/-- R122, R255, R258, R272, R273, R275: a message instruction that names one other chip with a usable route sends one message: it carries
the core, the stream, the instruction's number, the local data and the target, goes out on its route, and stays outstanding; the
instruction is handed on; memory and the cores' registers are as they were. -/
def Obligations.MessageStarts : Prop :=
  ∀ (s : State) (n : Fin 32) (op : Nat) (e : Entry) (chip path : Nat) (route : List Nat), (s.cores[n]).commWorking op = some e →
    s.targets e.ra = [chip] → chip ≠ s.chip → (s.reg Csr.fabId).bit 63 = true → s.onGrid chip = true →
    s.routeTo chip (e.word.bit 26) = some route → s.choosePath (route.headD 0) (decide (16 ≤ n.val)) n.val = some path → s.pathTakes path = true →
    let leaves (c : Instr) (mop : Nat) (data : List Byte) (arg : Nat) (desc : BitVec 256) : Prop :=
      ∃ t m, exec c s = .next t ∧ m ∈ t.outMsgs ∧ Output.message m ∈ t.out ∧
        m.key = { core := n.val, svc := false, peer := chip, tc := if e.word.bit 27 then 0 else 1, rc := e.word.bit 26 } ∧
        m.mop = mop ∧ m.mc = false ∧ m.aop = e.word.field 25 23 ∧ (e.rb.toNat < 16 → m.ring = e.rb.toNat) ∧ m.seq = e.seq ∧ m.job = (s.cores[n]).job ∧ m.addr = e.ra ∧ m.data = data ∧ m.arg = arg ∧ m.desc = desc ∧
        m.route = route ∧ m.path = some path ∧ m.isNew = !s.outMsgs.any (fun x => x.key == m.key) ∧
        { e with progress := 1 } ∈ (t.cores[n]).qComm ∧ Safety.RegistersSame s t n ∧ (∀ k : Fin 32, k ≠ n → t.cores[k] = s.cores[k]) ∧
        Safety.SameMemory s t
    (op = 0 → leaves (.cmPut n) 1 (localData s e) 0 (targetDesc e)) ∧
    (op = 1 → leaves (.cmGet n .none) 2 [] (Desc.base e.d0.val) (targetDesc e)) ∧
    (op = 2 → leaves (.cmAmo n .ok .none) 3 (amoData s e) (Desc.base e.d0.val) (targetDesc e)) ∧
    (op = 3 → leaves (.cmSend n .none) 4 (localData s e) 0 0) ∧
    (op = 4 → leaves (.cmSignal n) 5 [] e.rb.toNat (BitVec.ofNat 256 (e.ra.field 47 0)))

/-- R214, R237, R273 to R279: a message whose CRC-64 is wrong is answered with RESEND and has no effect. One whose CRC-64 is right, whose turn has come and whose
job runs here is carried out: a PUT fills the target tensor (one for a scratchpad that is being cleared waits), a GET reads it, an AMO computes one element, a SEND writes a ring slot and advances the producer index,
a SIGNAL adds to a cross-core semaphore. The stream goes on with the next MSGID and the answer leaves.
Readings of the order of refusals, of MX tensors and of duplicates: log 27, 78, 79. -/
def Obligations.MessagesCarriedOut : Prop :=
  ∀ (s : State) (h : Msg),
    (∀ (desc : BitVec 256) (data : List Byte), h.crc ≠ transferCrc data desc →
      exec (.put h desc data) s = .next (s.answer h (.resend h.msgid true))) ∧
    (∀ (j : Job), s.drills = [] → s.job? h.job = some j →
    turnOf (s.inStreams.find? (fun y => y.key == streamOf h && y.half == h.half)) h = .now → s.halfStreams h.half < 16384 →
    Safety.memCanonical s → s.poison = [] →
    let answered (t : State) (r : Reply) : Prop := Output.reply (respTo s h) r ∈ t.out ∧
      ∃ x ∈ t.inStreams, x.key = streamOf h ∧ x.half = h.half ∧ x.expected = h.msgid + 1 ∧ (∀ v, r = .amoOld v → (h.msgid, v) ∈ x.olds)
    (∀ (desc : BitVec 256) (data : List Byte), h.crc = transferCrc data desc → targetStatus s h.job desc = 0 → targetClearing s desc = false →
      Desc.empty desc = false → s.clearOfStaging h.job (Desc.ranges desc) = true → Safety.ElementsApart desc →
      ∃ t, exec (.put h desc data) s = .next t ∧ answered t .ack ∧
        Safety.TensorHolds t desc (fun r c => unpackCode (Desc.bits desc) data (r * Desc.cols desc + c)) ∧
        (∀ a, inRanges (Desc.ranges desc) a = false → t.readByte a = s.readByte a) ∧ t.cores = s.cores) ∧
    (∀ (desc : BitVec 256) (data : List Byte), h.crc = transferCrc data desc → targetStatus s h.job desc = 0 → targetClearing s desc = true →
      (∀ p ∈ s.heldPuts, streamOf p.1 ≠ streamOf h) → exec (.put h desc data) s = .next { s with heldPuts := s.heldPuts ++ [(h, desc, data)] }) ∧
    (∀ (desc : BitVec 256), h.crc = transferCrc [] desc → targetStatus s h.job desc = 0 → Desc.empty desc = false →
      s.clearOfStaging h.job (Desc.ranges desc) = true →
      ∃ t, exec (.get h desc .none) s = .next t ∧ answered t (.getData (s.tensorData desc)) ∧ Safety.SameMemory s t ∧ t.cores = s.cores) ∧
    (∀ (desc : BitVec 256) (aop : BitVec 3) (operand expected : Word) (st ch y : Nat),
      let a := Desc.base desc
      let k := fmtBits (Desc.fmt desc) / 8
      h.crc = transferCrc (amoBytes desc aop.toNat operand.toNat expected.toNat) desc → scratchOwner a = none →
      hbmBase ≤ a → s.hbmHeld h.job a k = true → a % k = 0 → s.hbmPlace a = some (st, ch, y) → (s.reg (Csr.hbmAmo st)).bit ch = false →
      ∃ t, exec (.amo h desc aop operand expected .ok .none) s = .next t ∧ answered t (.amoOld (BitVec.ofNat 64 (s.readNat a k))) ∧
        (∀ i, i < k → t.readByte (a + i) =
          BitVec.ofNat 8 (amoElement (Desc.fmt desc) aop.toNat (s.readNat a k) operand.toNat expected.toNat / 256 ^ i)) ∧
        (∀ x, ¬ (a ≤ x ∧ x < a + k) → t.readByte x = s.readByte x) ∧ t.cores = s.cores) ∧
    (∀ (ring : BitVec 4) (data : List Byte) (r : RecvRing), h.crc = transferCrc data 0 → j.ring? ring.toNat = some r →
      let prod := s.readNat r.base 8
      let cons := s.readNat (r.base + 8) 8
      let slot := r.base + 4096 + prod % 2 ^ r.clog * 2 ^ r.slog
      ¬ (prod - cons = 2 ^ r.clog ∧ cons ≤ prod) → data.length + 32 ≤ 2 ^ r.slog →
      ∃ t, exec (.send h ring data .none) s = .next t ∧ answered t .ack ∧ t.readNat r.base 8 = (prod + 1) % 2 ^ 64 ∧
        t.readNat slot 2 = h.src.toNat ∧ t.readNat (slot + 8) 8 = data.length % 2 ^ 64 ∧
        (∀ i, i < data.length → t.readByte (slot + 32 + i) = data[i]!) ∧
        (∀ a, ¬ (r.base ≤ a ∧ a < r.base + 8) → ¬ (slot ≤ a ∧ a < slot + 32 + data.length) → t.readByte a = s.readByte a)) ∧
    (∀ (addr : BitVec 48) (inc : BitVec 32) (n : Fin 32), h.crc = transferCrc [] (addr.zeroExtend 256) → addr.toNat / 256 % 32 = n.val →
      s.corePresent n.val = true → (s.cores[n]).run = .running →
      (s.cores[n]).job = h.job → (s.cores[n]).sem (32 + addr.toNat % 16) + inc.toNat ≤ 65535 →
      ∃ t, exec (.signal h addr inc) s = .next t ∧ answered t .ack ∧ Safety.SameMemory s t ∧
        (∀ m : Fin 32, m ≠ n → t.cores[m] = s.cores[m]) ∧ (t.cores[n]).run = .running ∧
        Safety.Registers t n (s.cores[n]).s (s.cores[n]).p (s.cores[n]).d
          (fun k => if k = 32 + addr.toNat % 16 then (s.cores[n]).sem k + inc.toNat else (s.cores[n]).sem k)))

/-- R61, R214, R275: the response, with its right CRC-64, that an outstanding message of a core waits for completes it: the message is outstanding no more, the
instruction whose last message it was leaves the comm queue and signals; GET_DATA fills the local tensor and AMO_OLD its first element. -/
def Obligations.MessageCompletes : Prop :=
  ∀ (s : State) (r : RespTo) (m : OutMsg) (n : Fin 32) (e : Entry), s.outFor r = some m → m.key.svc = false → m.key.core = n.val → m.coll = none →
    m.crcFailed = false → s.drillArmed 5 n.val false = false → (s.cores[n]).qComm.find? (fun x => x.seq == m.seq) = some e → e.failed = false →
    e.flags = 0 → (∀ x ∈ s.outMsgs, x.key.svc = false → x.key.core = n.val → x.seq = m.seq → x.key = m.key ∧ x.msgid = m.msgid) →
    (s.cores[n]).stopping = none → (wSe e.word = true → (s.cores[n]).sem (wSsem e.word) + 1 ≤ 65535) → Safety.memCanonical s → wCls e.word = 5 →
    let done (t : State) : Prop := m ∉ t.outMsgs ∧ (t.cores[n]).qComm = (s.cores[n]).qComm.filter (fun x => x.seq != e.seq) ∧
      (∀ k : Fin 32, k ≠ n → t.cores[k] = s.cores[k]) ∧ (∀ o, t.reg o = s.reg o) ∧
      Safety.Registers t n (s.cores[n]).s (s.cores[n]).p (s.cores[n]).d
        (fun k => if wSe e.word = true ∧ k = wSsem e.word then (s.cores[n]).sem k + 1 else (s.cores[n]).sem k)
    let own : Desc := Desc.withFld m.desc 0 48 m.arg
    (m.mop = 1 ∨ m.mop = 4 ∨ m.mop = 5 → ∃ t, exec (.ack r (transferCrc [] 0)) s = .next t ∧ done t ∧ Safety.SameMemory s t) ∧
    (∀ data, m.mop = 2 → Desc.empty m.desc = false → Safety.ElementsApart own →
      ∃ t, exec (.getData r data (transferCrc data 0)) s = .next t ∧ done t ∧
        Safety.TensorHolds t own (fun i j => unpackCode own.bits data (i * own.cols + j)) ∧
        ∀ a, inRanges own.ranges a = false → t.readByte a = s.readByte a) ∧
    (∀ old, m.mop = 3 → ∃ t, exec (.amoOld r old (transferCrc (bytesOfNat 8 old.toNat) 0)) s = .next t ∧ done t ∧
      t.elem own 0 0 = old.toNat % 2 ^ own.bits ∧
      ∀ a, ¬ ((own.elemBytes 0 0).1 ≤ a ∧ a < (own.elemBytes 0 0).1 + (own.elemBytes 0 0).2) → t.readByte a = s.readByte a)

/-- R214, R259, R270, R277, R280, R281: resends and failures of outstanding messages. A first failed CRC, of the message or of its response, sends the message
again; a RESEND or the retry timer sends on the current route; RING_FULL and BUSY wait for the retry timer; every other status, and a
message older than MSGTO, fails: it is recorded, event 0x39 is raised and the job is to halt with MESSAGE. -/
def Obligations.MessageRecovery : Prop :=
  ∀ (s : State) (r : RespTo) (m : OutMsg) (path : Nat) (route : List Nat), s.outFor r = some m → s.drillArmed 5 m.key.core false = false →
    let key : StreamKey := { core := r.core.toNat, svc := r.svc, peer := r.peer.toNat, tc := r.tc, rc := r.rc }
    let goes : Prop := m.key.peer ≠ s.chip ∧ s.routeTo m.key.peer m.key.rc = some route ∧
      s.choosePath (route.headD 0) m.key.half m.key.core = some path ∧ s.pathTakes path = true
    let good := transferCrc [] 0
    let sent (t : State) (crc drill : Bool) : Prop :=
      let x : OutMsg := { m with
        retry := false, crcFailed := crc, drill := drill, route := route, hops := s.hopOffsets (s.chip :: route) m.key.half m.key.core
        path := some path }
      x.shown ∈ t.out ∧ x ∈ t.outMsgs ∧ t.outMsgs.length = s.outMsgs.length ∧ Safety.SameMemory s t ∧
      ∀ k : Fin 32, t.cores[k] = { s.cores[k] with mesh := (t.cores[k]).mesh }
    let fails (t : State) (status : Nat) : Prop := m ∉ t.outMsgs ∧ Safety.Raised t 0x39 m.job ∧ Safety.SameMemory s t ∧
      { job := m.job, cause := 6, detail := BitVec.ofNat 32 status, loc := 0, ft := s.ft, fenced := false } ∈ t.halts
    (goes → m.crcFailed = false → ∃ t, exec (.resend r r.msgid true good) s = .next t ∧ sent t true false) ∧
    (∀ crc, goes → m.crcFailed = false → crc ≠ good → ∃ t, exec (.ack r crc) s = .next t ∧ sent t true false) ∧
    (goes → s.fromMsgid key r.msgid = [m] → ∃ t, exec (.resend r r.msgid false good) s = .next t ∧ sent t m.crcFailed m.drill) ∧
    (goes → m.retry = true → m.retryAt + 2000 ≤ s.now → ∃ t, exec (.messageRetryTimer r) s = .next t ∧ sent t m.crcFailed m.drill) ∧
    (∀ status : BitVec 4, status = 8 ∨ status = 10 → ∃ t, exec (.fail r status good) s = .next t ∧
      { m with retry := true, retryAt := s.now } ∈ t.outMsgs ∧ t = { s with outMsgs := t.outMsgs } ∧ t.outMsgs.length = s.outMsgs.length) ∧
    (∀ status : BitVec 4, status ≠ 8 → status ≠ 10 → m.key.svc = false →
      ∃ t, exec (.fail r status good) s = .next t ∧ fails t status.toNat) ∧
    (m.key.svc = false → m.coll = none → max 1 (s.fld Csr.fabCtl 47 32) * 1000000 ≤ s.now - m.since → ∃ t, exec (.messageTimeout r) s = .next t ∧
      fails t (if m.route.isEmpty && m.key.peer != s.chip then 1 else 14)) ∧
    (∀ half x, x ∈ s.inStreams → x.key = key → x.half = half →
      (x.drawnAt + 100000 ≤ s.now →
        ∃ t, exec (.resendHoldoffExpiry r half) s = .next t ∧ { x with resendDrawn := false } ∈ t.inStreams ∧ t = { s with inStreams := t.inStreams }) ∧
      (x.last + 2000000000 ≤ s.now → s.heldPuts = [] →
        ∃ t, exec (.streamRelease r half) s = .next t ∧ x ∉ t.inStreams ∧ t = { s with inStreams := t.inStreams } ∧
        ∀ y ∈ s.inStreams, ¬ (y.key = key ∧ y.half = half) → y ∈ t.inStreams))

/-- R261 to R268: the link layer. A sealed flit opens under its secret, epoch and counter. A flit whose CRC-32C fails is answered with NAK, one whose tag fails is
counted too; a good flit in order, with room for it, is acknowledged; an ACK that does not advance has every flit of the retry buffer sent again and counted,
after 16 resends the path goes DOWN; the epoch changes after 2^32 flits, and the previous key is dropped 2^16 flits after the flip.
Readings of the link layer and of its keys: log 28, 30, 77. -/
def Obligations.LinkLayer : Prop :=
  (∀ (secret : BitVec 256) (epoch : Nat) (count : BitVec 64) (hdr : BitVec 128) (data : List Byte),
    let f := sealFlit secret epoch count hdr data
    flitCrcGood f = true ∧ flitTagGood f secret epoch count = true ∧ (flitOpened f secret epoch count).data = data ∧ f.hdr = hdr) ∧
  ∀ (s : State) (i : Fin 128) (f : FlitRef) (count : BitVec 64), Safety.regsCanonical s → s.drills = [] →
    let l := s.links[i]
    let epoch := l.epochOf f.hdr
    let others (t : State) : Prop := t = { s with links := t.links, out := t.out } ∧
      ∀ k : Fin 128, k ≠ i → s.companionPath i.val ≠ some k.val → t.links[k] = s.links[k]
    let control (t : State) (nak ack : Nat) : Prop :=
      (s.companionPath i.val = none → t.out = s.out) ∧
      ∀ j : Fin 128, s.companionPath i.val = some j.val → s.pathState j.val = pathUp →
        ∃ g, t.out = .flit j.val g :: s.out ∧ hdrFld g.hdr 120 8 = 0 ∧ hdrFld g.hdr 112 1 = nak ∧ hdrFld g.hdr 96 16 = ack
    let taken (t : State) : Prop := (t.links[i]).rxExpected = l.rxExpected + 1 ∧ (t.links[i]).rxNak = false ∧ (t.links[i]).rxEpoch = max l.rxEpoch epoch
    let good : Prop := s.pathReceives i.val = true ∧ flitCrcGood f = true ∧ flitTagGood f l.rxSecret epoch count = true
    let next : Prop := hdrFld f.hdr 120 8 ≠ 0 ∧ BitVec.ofNat 16 (hdrFld f.hdr 80 16) = l.rxExpected
    (s.pathReceives i.val = true → flitCrcGood f = false →
      ∃ t, exec (.flitReceive i f count) s = .next t ∧ (t.links[i]).rxNak = true ∧ (t.links[i]).rxExpected = l.rxExpected ∧ others t ∧
        control t 1 (l.rxExpected - 1).toNat) ∧
    (s.pathReceives i.val = true → flitCrcGood f = true → flitTagGood f l.rxSecret epoch count = false →
      (l.tagTimes.filter (fun x => decide (s.now < x + 1000000000))).length < 3 →
      ∃ t, exec (.flitReceive i f count) s = .next t ∧ (t.links[i]).rxNak = true ∧ (t.links[i]).rxExpected = l.rxExpected ∧
        t.fld (Csr.fabLcnt i.val) 47 32 = min (s.fld (Csr.fabLcnt i.val) 47 32 + 1) (2 ^ 16 - 1) ∧ Safety.Frame s t [Csr.fabLcnt i.val]) ∧
    (good → next → hdrFld f.hdr 0 16 = s.chip ∨ l.hasRoom (flitOpened f l.rxSecret epoch count) = true →
      ∃ t, exec (.flitReceive i f count) s = .next t ∧ taken t ∧ Safety.SameMemory s t ∧ t.cores = s.cores) ∧
    (good → next → hdrFld f.hdr 0 16 = s.chip → (s.controlled i.val)[hdrFld f.hdr 79 1]? = none →
      (∀ k : Fin 128, (s.links[k]).rxBuffer = [] ∧ (s.links[k]).rxEscape = []) →
      ∃ t, exec (.flitReceive i f count) s = .next t ∧ taken t ∧ others t ∧ control t 0 l.rxExpected.toNat) ∧
    (s.pathUsable i.val = true → l.unacked ≠ [] → l.resends < 16 →
      ∃ t, exec (.ackTimeout i) s = .next t ∧ (∀ g ∈ l.unacked, Output.flit i.val g ∈ t.out) ∧
        t.links[i] = { l with resends := l.resends + 1 } ∧ (∀ k : Fin 128, k ≠ i → t.links[k] = s.links[k]) ∧
        t.fld (Csr.fabLcnt i.val) 31 0 = min (s.fld (Csr.fabLcnt i.val) 31 0 + l.unacked.length) (2 ^ 32 - 1) ∧
        Safety.Frame s t [Csr.fabLcnt i.val]) ∧
    (s.pathUsable i.val = true → l.unacked ≠ [] → 16 ≤ l.resends →
      ∃ t, exec (.ackTimeout i) s = .next t ∧ t.pathState i.val = pathDownSt ∧ (t.links[i]).unacked = [] ∧ Safety.Raised t 0x31 0) ∧
    (s.pathState i.val = pathUp → 2 ^ 32 ≤ l.epochSent → ∃ t, exec (.keyEpochChange i) s = .next t ∧
      t.links[i] = { l with epoch := l.epoch + 1, epochSent := 0 } ∧ others t ∧ t.out = s.out) ∧
    (l.rxPrevKey = true → 2 ^ 16 ≤ l.rxSince → ∃ t, exec (.previousKeyDiscard i) s = .next t ∧
      t.links[i] = { l with rxPrevKey := false, rxSince := 0 } ∧ others t ∧ t.out = s.out)

/-- R250, R256, R258, R259, R260, R264, R265, R270, R271, R281, R283, R284, R285, R288, R329: Paths and routes. A path taken DOWN drops its retry buffer
and those of the forward paths that its receiver controls, is counted and reported and raises event 0x31 (0x3A too after four tag failures). After a
lasting CRC failure a path drains; drained, it retrains, or is held DOWN after two within the hour. Path states go to every neighbour; a report is
kept, and a notice in it drains this side; messages whose route is lost go out again on the new route. Discovery. When every wavelength of a locked
port is heard, and reaches, as the plan says, with fitting identities and levels at most two apart, all its paths that were not UP come UP with fresh
keys and event 0x30; a MISSING path that is heard later comes UP in the same way. Readings of unknown companions: log 28, 30. -/
def Obligations.PathsAndDiscovery : Prop :=
  (∀ (s : State) (i : Fin 128), Safety.regsCanonical s →
    (∀ cause, s.pathState i.val = pathUp ∨ s.pathState i.val = pathTraining →
      ∃ t, exec (.pathDown i cause) s = .next t ∧ t.pathState i.val = pathDownSt ∧ (t.links[i]).unacked = [] ∧ (t.links[i]).waiting = [] ∧
        (∀ k : Fin 128, k.val ∈ s.controlled i.val → (t.links[k]).unacked = [] ∧ (t.links[k]).waiting = []) ∧
        t.fld (Csr.fabLcnt i.val) 63 48 = min (s.fld (Csr.fabLcnt i.val) 63 48 + 1) (2 ^ 16 - 1) ∧ Safety.Raised t 0x31 0 ∧
        (cause = .tagFailures → Safety.Raised t 0x3A 0) ∧ Safety.Frame s t [Csr.fabPath i.val, Csr.fabLcnt i.val]) ∧
    (let recent := s.crcTimes.filter (fun p => p.1 == i.val && decide (s.now < p.2 + 3600000000000))
     s.pathTakes i.val = true → recent ≠ [] →
      ((s.links[i]).drained = false → exec (.pathRetrain i) s =
        .next { s with links := s.links.set i { s.links[i] with draining := true, change := some .retrain } }) ∧
      ((s.links[i]).drained = true → ∃ t, exec (.pathRetrain i) s = .next t ∧ Safety.SameMemory s t ∧
        (recent.length = 1 → t.pathState i.val = pathTraining) ∧
        (2 ≤ recent.length → t.pathState i.val = pathDownSt ∧ i.val ∈ t.heldDown ∧ Safety.Raised t 0x31 0))) ∧
    ((s.reg Csr.fabId).bit 63 = true → ∃ t, exec .pathStateBroadcast s = .next t ∧ t = { s with out := t.out } ∧
      ∀ c ∈ s.neighbours, Output.pathStates c s.ownMask ∈ t.out) ∧
    (∀ (chip : BitVec 16) (usable leaving : BitVec 128),
      ∃ t, exec (.pathStateReceive chip usable leaving) s = .next t ∧ t.knownMask chip.toNat = some usable ∧ Safety.SameMemory s t ∧
        (∀ c, c ≠ chip.toNat → t.knownMask c = s.knownMask c) ∧
        (s.pathState i.val = pathUp → s.peerAt (decide (64 ≤ i.val)) (s.fld (Csr.fabPath i.val) 7 0) = chip.toNat → (s.links[i]).change = none →
          s.heldBySwap i.val = false → (t.links[i]).draining = s.leavesWith chip.toNat leaving i.val)) ∧
    (∀ (m : OutMsg) (route : List Nat) (path : Nat), s.outMsgs = [m] → s.routeLost m = true →
      let u := s.raise 0x32 []
      m.key.peer ≠ u.chip → u.routeTo m.key.peer m.key.rc = some route →
      u.choosePath (route.headD 0) m.key.half m.key.core = some path → u.pathTakes path = true →
      ∃ t, exec .routeChangeResend s = .next t ∧ Safety.Raised t 0x32 0 ∧
        (let x : OutMsg := { m with retry := false, route := route, hops := u.hopOffsets (u.chip :: route) m.key.half m.key.core, path := some path }
         x.shown ∈ t.out ∧ t.outMsgs = [x]) ∧ Safety.SameMemory s t)) ∧
  (∀ (s : State), Safety.regsCanonical s → (s.reg Csr.fabId).bit 63 = true →
    let own := s.fld Csr.fabLvl 7 0
    let comes (y : Bool) (plane k i : Nat) (f : PathFinding) : Prop := s.pathState i ≠ pathUp ∧ s.laneState i ≠ laneDark ∧
      (8 * plane + k + 1) % s.dimSize y ≠ 0 ∧ i ∉ s.heldDown ∧ f.heard.isSome = true ∧ f.reached.isSome = true ∧ s.fitsAt y plane k f = true ∧
      s.identityFits (s.planeReaches y plane k) f = true ∧ own ≤ f.fpl + 2 ∧ f.fpl ≤ own + 2
    let fresh (t : State) (i : Nat) : Prop := t.pathState i = pathUp ∧
      ∃ l, t.links[i]? = some l ∧ l.epoch = 0 ∧ l.rxEpoch = 0 ∧ l.rxPrevKey = false ∧ l.rxExpected = 0 ∧ l.draining = false
    (∀ (port : Fin 16) (fs : Vector PathFinding 8), s.portLocked port.val = true → portPresent s.part.variant port.val = true →
      (∀ k : Fin 8, comes (decide (8 ≤ port.val)) (port.val % 8) k.val (8 * port.val + k.val) fs[k]) →
      ∃ t, exec (.discovery port fs) s = .next t ∧ Safety.Raised t 0x30 0 ∧ t.fld Csr.fabPortMap (4 * port.val + 3) (4 * port.val) = port.val % 8 ∧
        Safety.SameMemory s t ∧
        ∀ k : Fin 8, fresh t (8 * port.val + k.val) ∧ t.fld (Csr.fabPath (8 * port.val + k.val)) 7 0 = 8 * (port.val % 8) + k.val + 1) ∧
    (∀ (i : Fin 128) (f : PathFinding), s.pathState i.val = pathMissing →
      let o := s.fld (Csr.fabPath i.val) 7 0
      comes (decide (64 ≤ i.val)) ((o - 1) / 8) (i.val % 8) i.val f →
      ∃ t, exec (.missingPeerRecheck i f) s = .next t ∧ Safety.Raised t 0x30 0 ∧ fresh t i.val ∧ Safety.SameMemory s t ∧
        Safety.SameRegisters s t [Csr.fabPath i.val]))

/-- R292, R309: creation of groups. A CORES group whose local check passes is READY at once, event 0x80; a chip group sends its JOIN record
to every other member and is CREATING, or sends it with the reason of its failed check and holds no slot; the record that completes an agreeing set makes it
READY, any other one is kept; after 10 s without a record the creation fails for the first reason that the records give, 7 when they give none, event 0x81, and
the slot is free. Readings of reports: log 36. -/
def Obligations.GroupCreation : Prop :=
  ∀ (s : State) (job : Word) (g : GroupDef),
    (s.definesGroup job g = true → s.localReason job g = (0, []) → g.grp < 64 → g.kind = 3 →
      ∃ t x, exec (.groupCreate job g) s = .next t ∧ t.group? g.grp = some x ∧ x.phase = .ready ∧ x.job = job ∧ x.gdef = g ∧
        x.members = s.membersHere job g 0 ∧ Safety.Raised t 0x80 job ∧ Safety.SameMemory s t ∧ t.cores = s.cores) ∧
    (∀ rank, s.definesGroup job g = true → s.localReason job g = (0, []) → g.grp < 64 → g.kind ≤ 2 → (s.reg Csr.fabId).bit 63 = true →
      s.chipRank g = some rank → 1 < s.groupP g → (∀ e ∈ s.earlyJoins, e.1 = g.grp → e.2.job ≠ job) →
      let own : JoinRec := { rank := rank, job := job, hash := sm3 (defBytes g), cpl := s.fld Csr.clLvl 7 0, failed := 0 }
      ∃ t x, exec (.groupCreate job g) s = .next t ∧ t.group? g.grp = some x ∧ x.phase = .creating ∧ x.job = job ∧ x.gdef = g ∧ x.joins = [own] ∧
        (∀ r, r < s.groupP g → r ≠ rank → Output.join (s.rankChip g r) g.grp own ∈ t.out) ∧ Safety.SameMemory s t ∧ t.cores = s.cores) ∧
    (∀ rank reason ports, s.definesGroup job g = true → s.localReason job g = (reason, ports) → reason ≠ 0 → g.kind ≤ 2 → (s.reg Csr.fabId).bit 63 = true →
      s.chipRank g = some rank → 1 < s.groupP g → (∀ e ∈ s.earlyJoins, e.1 = g.grp → e.2.job ≠ job) →
      let own : JoinRec := { rank := rank, job := job, hash := sm3 (defBytes g), cpl := s.fld Csr.clLvl 7 0, failed := reason }
      ∃ t, exec (.groupCreate job g) s = .next t ∧ t.groups = s.groups ∧
        (∀ r, r < s.groupP g → r ≠ rank → Output.join (s.rankChip g r) g.grp own ∈ t.out) ∧ Safety.SameMemory s t ∧ t.cores = s.cores) ∧
    (∀ (i : Fin 64) (x : Group) (rank cpl failed : Nat) (hash : BitVec 256), s.groups[i] = some x → x.phase = .creating → x.job = job → x.gdef.grp = i.val →
      rank < x.p → x.joins.any (fun j => j.rank == rank) = false →
      let l := x.joins ++ [{ rank := rank, job := job, hash := hash, cpl := cpl, failed := failed }]
      (l.length < x.p → ∃ t y, exec (.join i rank job hash cpl failed) s = .next t ∧ t.group? i.val = some y ∧ y.phase = .creating ∧ y.joins = l ∧
        Safety.SameMemory s t ∧ t.cores = s.cores) ∧
      (x.p ≤ l.length → joinVerdict l = (0, []) → ∃ t y, exec (.join i rank job hash cpl failed) s = .next t ∧ t.group? i.val = some y ∧
        y.phase = .ready ∧ Safety.Raised t 0x80 job ∧ Safety.SameMemory s t ∧ t.cores = s.cores)) ∧
    (∀ (i : Fin 64) (x : Group), s.groups[i] = some x → x.phase = .creating → x.job = job → x.since + 10000000000 ≤ s.now →
      ∃ t reason ranks, exec (.noJoin job i) s = .next t ∧ t.group? i.val = none ∧ Safety.Raised t 0x81 job ∧ Safety.SameMemory s t ∧ t.cores = s.cores ∧
        (job, i.val, reason, ranks) ∈ t.groupFails ∧ (reason, ranks) = (match joinVerdict x.joins with
          | (0, _) => (7, ascending ((List.range x.p).filter (fun r => !(x.joins.any (fun j => j.rank == r)))))
          | (v, l) => (v, s.failureList x v l)))

/-- R123, R298, R301: a collective instruction enters the queue of its group; at its head it starts: it takes the next SEQ and sends its
descriptor record to every other member, ahead of its data: through the mesh in a CORES group, otherwise as a message of its stream. -/
def Obligations.CollectivesQueueAndStart : Prop :=
  ∀ (s : State) (n : Fin 32) (op : Nat) (e : Entry) (g : Group) (m : Member),
    (let queued (c : Instr) : Prop := ∃ t y, exec c s = .next t ∧ t.group? (collGrp e) = some y ∧
        { m with queue := m.queue ++ [e.seq] } ∈ y.members ∧ { e with progress := 1 } ∈ (t.cores[n]).qComm ∧ Safety.RegistersSame s t n ∧
        (∀ k : Fin 32, k ≠ n → t.cores[k] = s.cores[k]) ∧ Safety.SameMemory s t
     (s.cores[n]).commWorking op = some e → s.group? (collGrp e) = some g → g.members.find? (fun x => x.core == n.val) = some m →
      m.queue.length < 64 →
      (op = 0x10 → queued (.cmAllreduce n)) ∧ (op = 0x11 → queued (.cmRedscat n)) ∧ (op = 0x12 → queued (.cmAllgather n)) ∧
      (op = 0x13 → queued (.cmBcast n)) ∧ (op = 0x14 → queued (.cmReduce n)) ∧ (op = 0x15 → queued (.cmAlltoall n)) ∧
      (op = 0x16 → queued (.cmBarrier n))) ∧
    (∀ (i : Fin 64) (rank q : Nat) (more : List Nat) (k : CheckOutcome), s.groups[i] = some g → g.member? rank = some m → m.queue = q :: more → m.run = none →
      m.core = n.val → s.collEntry m q = some e → g.phase = .ready → e.failed = false → s.poison = [] → g.early = [] → g.earlyPieces = [] →
      1 < g.p → rank < g.p → Safety.NoSharedByte (Desc.ranges e.d1.val) [stagingOf g.gdef] →
      let own := recordOf e m.nextSeq s.ft
      ∃ t y x r, exec (.collectiveStart i rank .none k) s = .next t ∧ t.group? i.val = some y ∧ x ∈ y.members ∧ x.rank = rank ∧
        x.nextSeq = m.nextSeq + 1 ∧ x.queue = m.queue ∧ x.run = some r ∧ r.own = own ∧ r.entry = q ∧ r.records = [(rank, own)] ∧
        (∀ b, b < g.p → b ≠ rank → if g.gdef.kind = 3 then Output.descRec i.val (s.memberChip g b) b own ∈ t.out
          else ∃ o ∈ t.outMsgs, o.coll = some (.record i.val b own) ∧
            o.key = { core := n.val, svc := false, peer := s.memberChip g b, tc := 0, rc := false }) ∧
        { e with executed := true } ∈ (t.cores[n]).qComm ∧ Safety.RegistersSame s t n ∧ Safety.SameMemory s t)

/-- R299, R302, R304, R305, R307, R309: a started collective takes in records and data; when its part is done the instruction completes
and signals; a timeout, or an ABORT record received, makes the group ABORTED with its report, an event and the halt of the job.
Readings of aborts, of the staging area and of chunks: log 36, 81. -/
def Obligations.CollectivesGoOn : Prop :=
  ∀ (s : State) (i : Fin 64) (g : Group) (m : Member) (r : Running) (n : Fin 32) (e : Entry) (rank : Nat), Safety.regsCanonical s → Safety.memCanonical s →
    s.groups[i] = some g → g.phase = .ready →
    let aborted (t : State) (a : AbortReport) : Prop := (∃ y, t.group? i.val = some y ∧ y.phase = .aborted ∧ ∀ x ∈ y.members, x.queue = [] ∧ x.run = none) ∧
      t.reg (Csr.clGrp i.val 0x28) = abortWord a ∧ Safety.Raised t (if a.reason = 1 then 0x82 else 0x83) g.job ∧
      { job := g.job, cause := 5, detail := BitVec.ofNat 32 (i.val + a.reason * 256), loc := Word.place a.seq.toNat 32 0, ft := s.ft, fenced := false } ∈ t.halts
    let brings (c : Option Msg → Instr) (x : CollItem) (after : State → Prop) : Prop :=
      (g.gdef.kind = 3 → ∃ t, exec (c none) s = .next t ∧ after t) ∧
      (g.gdef.kind ≠ 3 → ∀ h : Msg, h.crc = transferCrc x.bytes 0 → (s.job? h.job).isSome = true → s.halfStreams h.half < 16384 →
        turnOf (s.inStreams.find? (fun y => y.key == streamOf h && y.half == h.half)) h = .now →
        ∃ t, exec (c (some h)) s = .next t ∧ after t ∧ Output.reply (respTo s h) .ack ∈ t.out)
    (∀ a, ∃ t, exec (.abort i a) s = .next t ∧ aborted t a) ∧
    (g.member? rank = some m → m.run = some r → m.core = n.val → s.collEntry m r.entry = some e →
      (∀ src rec k, src < g.p → src ≠ rank → r.records.any (fun x => x.1 == src) = false →
        (∃ b, b < g.p ∧ b ≠ src ∧ r.records.any (fun x => x.1 == b) = false) →
        brings (.descriptorRecord i rank src rec k) (.record i.val rank rec) (fun t => ∃ y x r', t.group? i.val = some y ∧ x ∈ y.members ∧
          x.rank = rank ∧ x.run = some r' ∧ r'.records = r.records ++ [(src, rec)] ∧ Safety.SameMemory s t ∧ Safety.RegistersSame s t n)) ∧
      (∀ src kind elems k, src < g.p → src ≠ rank → r.agreed g.p = false →
        brings (.collectiveChunk i rank src r.own.seq kind elems k) (.chunk i.val rank r.own.seq kind elems) (fun t => ∃ y x r',
          t.group? i.val = some y ∧ x ∈ y.members ∧ x.rank = rank ∧ x.run = some r' ∧
          (∀ z ∈ elems, { kind := kind, src := src, elem := z.1, code := z.2 } ∈ r'.pieces) ∧
          r'.records = r.records ∧ (g.gdef.kind ≠ 3 → Safety.SameMemory s t) ∧ Safety.RegistersSame s t n)) ∧
      (partDone (shapeOf g e) (if collOp e = 0x13 then Desc.fmt e.d0.val else Desc.fmt e.d1.val) rank g.p r = true → e.flags = 0 → r.flags = 0 → (s.cores[n]).stopping = none → wCls e.word = 5 →
        (wSe e.word = true → (s.cores[n]).sem (wSsem e.word) + 1 ≤ 65535) →
        ∃ t y x, exec (.collectiveComplete i rank) s = .next t ∧ t.group? i.val = some y ∧ x ∈ y.members ∧ x.rank = rank ∧ x.run = none ∧
          x.queue = m.queue.drop 1 ∧ x.done = m.done + 1 ∧ (t.cores[n]).qComm = (s.cores[n]).qComm.filter (fun z => z.seq != e.seq) ∧
          Safety.Registers t n (s.cores[n]).s (s.cores[n]).p (s.cores[n]).d
            (fun k => if wSe e.word = true ∧ k = wSsem e.word then (s.cores[n]).sem k + 1 else (s.cores[n]).sem k) ∧
          ∀ a, inRanges (Desc.ranges e.d0.val) a = false → t.readByte a = s.readByte a) ∧
      ((if g.gdef.timeout = 0 then max 1 (s.fld Csr.clCtl 31 0) else g.gdef.timeout) * 1000000 ≤ (s.ft - r.own.arr).toNat →
        let l := awaited (shapeOf g e) rank g.p r
        let a : AbortReport := { reason := 2, field := 0, rank := l.headD 0, nrank := l.length, seq := r.own.seq }
        ∃ t, exec (.collectiveTimeout i rank) s = .next t ∧ aborted t a ∧
          ∀ b, b < g.p → b ≠ rank → Output.abort i.val (s.memberChip g b) a ∈ t.out))

/-! ### The module -/

/-- R60, R85 to R87, R111, R228, R357, R388: how a core comes into a job and leaves it. A gated core asked for by a starting job locks its
PLL and then starts; a core in no job for 100 µs is gated; a core whose sys.end has drained reports its end, and the last one ends the
job, event 0x99; a cleared scratchpad reads 0; a waiting load step is released in the slot. -/
def Obligations.CoreLifecycle : Prop :=
  ∀ (s : State) (n : Fin 32) (j : Job),
    let c := s.cores[n]
    (s.job? c.job = some j → c.job ≠ 0 → j.phase = .starting → c.run = .gated →
      ∃ t, exec (.coreStartRequest n) s = .next t ∧ t = s.setCore n { c with run := .starting }) ∧
    (s.job? c.job = some j → c.job ≠ 0 → j.phase = .starting → c.run = .idle → c.fills = [] → c.wait ≠ .ended → c.clearing = false →
      s.ownSlot = true → ∃ t, exec (.coreStartRequest n) s = .next t ∧ Safety.StartsJob s t n j) ∧
    (s.job? c.job = some j → c.job ≠ 0 → c.run = .starting → c.clearing = false → s.ownSlot = true →
      ∃ t, exec (.corePllLock n) s = .next t ∧ Safety.StartsJob s t n j) ∧
    (c.run = .idle → c.job = 0 → c.clearing = false → c.idleSince + 100000 ≤ s.now →
      ∃ t, exec (.coreIdleGate n) s = .next t ∧ (t.cores[n]).run = .gated ∧ (t.cores[n]).arrays = .gated ∧ Safety.RegistersSame s t n ∧
        Safety.OutsideCore s t n) ∧
    (s.job? c.job = some j → c.run = .running → c.stopping = none → c.wait = .ended → c.drained = true → j.phase = .running →
      let left := j.cores &&& ~~~(j.ended ||| 1#32 <<< n.val)
      (left ≠ 0 → ∃ t, exec (.coreEnd n) s = .next t ∧ (t.cores[n]).run = .idle ∧ (t.cores[n]).job = c.job ∧ Safety.RegistersSame s t n ∧
        t.job? c.job = some { j with ended := j.ended ||| 1#32 <<< n.val } ∧ Safety.SameMemory s t) ∧
      (left = 0 → s.resetAfterJobs = false → j.cores.getLsbD n.val = true →
        ∃ t, exec (.coreEnd n) s = .next t ∧ (t.cores[n]).run = .idle ∧ (t.cores[n]).job = 0 ∧ (t.cores[n]).clearing = true ∧
          t.job? c.job = none ∧ Safety.Raised t 0x99 c.job ∧
          ∀ a, (∀ (i : Fin 64) (g : Group), s.groups[i] = some g → g.job = c.job → inRanges [stagingOf g.gdef] a = false) → t.readByte a = s.readByte a)) ∧
    (c.clearing = true → c.startHeld = false → s.heldPuts = [] → Safety.memCanonical s → ∃ t, exec (.scratchpadClearDone n) s = .next t ∧
      (t.cores[n]).clearing = false ∧ (∀ a, scratchBase n.val ≤ a → a < scratchBase n.val + scratchSize → t.readByte a = 0) ∧
      (∀ a, ¬ (scratchBase n.val ≤ a ∧ a < scratchBase n.val + scratchSize) → t.readByte a = s.readByte a) ∧ Safety.RegistersSame s t n ∧
      (∀ m : Fin 32, m ≠ n → t.cores[m] = s.cores[m]) ∧ ∀ o, t.reg o = s.reg o) ∧
    (s.ownSlot = true → s.power.aligned = [n.val] → c.run = .running → c.arrays = .gated ∨ c.arrays = .ramp →
      ∃ t, exec .alignedStepRelease s = .next t ∧ (t.cores[n]).arrays = .rise ∧ t.power.aligned = [] ∧ Safety.RegistersSame s t n ∧
        (∀ m : Fin 32, m ≠ n → t.cores[m] = s.cores[m]) ∧ Safety.SameMemory s t)

/-- R19, R20, R229, R233, R235, R236, R241, R478: the die-to-die link, patrol scrub, a channel that does not answer, refresh and zeroing.
A replay is counted; a lane that fails is recorded with its spare; a corrected word is counted; a channel that does not answer is marked,
event 0x25, and the jobs halt; the refresh rate follows its stack's temperature, event 0x28; a zeroed window reads 0.
Readings of counts and locations: log 31, 37, 38. -/
def Obligations.MemorySystem : Prop :=
  ∀ (s : State), Safety.regsCanonical s → s.mainOn = true →
    (∀ d : Fin 2, s.drills = [] → ∃ t, exec (.d2dCrcReplay d) s = .next t ∧
      t.fld (Csr.d2dCnt d.val) 31 0 = min (s.fld (Csr.d2dCnt d.val) 31 0 + 1) (2 ^ 32 - 1) ∧ Safety.Frame s t [Csr.d2dCnt d.val]) ∧
    (∀ (d : Fin 2) (g : Fin 20) (l : Fin 34), (s.reg (Csr.d2dLane d.val g.val)).bit l.val = false → s.laneFailed d.val g.val < 2 →
      (s.reg (Csr.d2dLane d.val g.val)).bit 63 = false →
      ∃ t, exec (.d2dLaneFail d g l) s = .next t ∧ (t.reg (Csr.d2dLane d.val g.val)).bit l.val = true ∧
        (t.reg (Csr.d2dLane d.val g.val)).bit 63 = false ∧ Safety.SameMemory s t ∧ t.cores = s.cores ∧ t.jobs = s.jobs) ∧
    (∀ (a : Nat) (n : Fin 32), s.drills = [] → sramOwner a = some n.val → s.corePresent n.val = true →
      ∃ t, exec (.patrolScrub a (.corrected a)) s = .next t ∧
        t.fld (Csr.spdEcc n.val) 31 0 = min (s.fld (Csr.spdEcc n.val) 31 0 + 1) (2 ^ 32 - 1) ∧ Safety.Frame s t [Csr.spdEcc n.val] ∧
        (s.eccRaised < 16 → Safety.Raised t 0x20 0)) ∧
    (∀ (a k c y : Nat) (jobs : List Word), s.hbmPlace a = some (k, c, y) → k < 8 → c < 32 → (s.reg (Csr.hbmChanMap k)).bit (32 + c) = false →
      ∃ t, exec (.channelNotAnswering a jobs) s = .next t ∧ (t.reg (Csr.hbmChanMap k)).bit (32 + c) = true ∧ Safety.Raised t 0x25 0 ∧
        (∀ j ∈ jobs, (s.job? j).isSome = true → Safety.Raised t 0x23 j ∧ memoryHalt j s.ft a (some k) ∈ t.halts) ∧
        Safety.Frame s t [Csr.hbmChanMap k]) ∧
    (∀ k : Fin 8, s.stackPresent k.val = true →
      let now := s.fld (Csr.hbmStat k.val) 55 54
      let temp := s.siteTemp (32 + k.val)
      (now < refreshUp temp → ∃ t, exec (.refreshRateRaise k) s = .next t ∧ t.fld (Csr.hbmStat k.val) 55 54 = refreshUp temp ∧
        Safety.Raised t 0x28 0 ∧ Safety.Frame s t [Csr.hbmStat k.val]) ∧
      (refreshDown temp < now → ∃ t, exec (.refreshRateLower k) s = .next t ∧ t.fld (Csr.hbmStat k.val) 55 54 = refreshDown temp ∧
        Safety.Raised t 0x28 0 ∧ Safety.Frame s t [Csr.hbmStat k.val])) ∧
    (∀ (job : Word) (j : Job) (w : Fin 16) (x : Window), Safety.memCanonical s → s.job? job = some j → j.windows[w.val]? = some x →
      x.zeroed = false → hbmBase ≤ x.base → ∃ t, exec (.windowZeroingDone job w) s = .next t ∧
        (∀ a, x.base ≤ a → a < x.base + x.size → t.readByte a = 0) ∧
        (∀ a, ¬ (x.base ≤ a ∧ a < x.base + x.size) → t.readByte a = s.readByte a) ∧ t.cores = s.cores ∧ (∀ o, t.reg o = s.reg o) ∧
        ∃ k, t.job? job = some k ∧ k.windows = j.windows.set w.val { x with zeroed := true })

/-- R320 to R323, R325, R326, R341: lock of a lane. OFF lanes of a lit wavelength begin to lock; SWEEP, one port of a half at a time, and RESTORE lead to
ACQUIRE, ACQUIRE to VERIFY, VERIFY with the lane's own pilot and index to LOCKED, whose point is stored after a cold sweep; a wrong lock leads to RELOCK with
event 0x41, each attempt to VERIFY, the third failure to DARK with event 0x42; loss of lock and a high error rate send a LOCKED lane back, its path DOWN.
Readings of dark lanes: log 33. -/
def Obligations.LaneLock : Prop :=
  ∀ (s : State) (i : Fin 128), Safety.regsCanonical s →
    let st := s.laneState i.val
    let k := i.val % 8
    let att := s.fld (Csr.optLane i.val) 59 58
    let f (t : State) (hi lo : Nat) : Nat := t.fld (Csr.optLane i.val) hi lo
    let down (t : State) : Prop :=
      t.pathState i.val = if s.pathState i.val = pathDark ∨ s.pathState i.val = pathAbsent then s.pathState i.val else pathDownSt
    let relocking (t : State) : Prop := t.laneState i.val = (if s.flash.points.getLsbD i.val then laneRestore else laneSweep) ∧ down t
    let own : List Nat := [Csr.optLane i.val]
    let hull : List Nat := [Csr.optLane i.val, Csr.hullStat]
    let path : List Nat := [Csr.optLane i.val, Csr.optFec i.val, Csr.hullStat, Csr.fabPath i.val, Csr.fabLcnt i.val]
    (∀ c : Fin 2, laneCart i.val = c.val → st = laneSweep → s.hull.sweepPort[c] = some (i.val / 8) →
      ∃ t, exec (.laneSweepDone i) s = .next t ∧ t.laneState i.val = laneAcquire ∧ f t 57 57 = 1 ∧ Safety.Frame s t hull ∧
        (t.sweeping (i.val / 8) = true → t.hull.sweepPort[c] = some (i.val / 8)) ∧
        (t.sweeping (i.val / 8) = false →
          t.hull.sweepPort[c] = (List.range 16).find? (fun p => portHalf p == portHalf (i.val / 8) && t.sweeping p) ∧
          ((t.hull.sweepPort[c]).isSome = true → Safety.Raised t 0x4C 0))) ∧
    (st = laneRestore → ∃ t, exec (.laneRestoreDone i) s = .next t ∧ t.laneState i.val = laneAcquire ∧ f t 57 57 = 0 ∧ Safety.Frame s t own) ∧
    (st = laneRestore → ∃ t, exec (.laneRestoreTimeout i) s = .next t ∧ t.laneState i.val = laneSweep ∧ Safety.Frame s t hull) ∧
    (∀ loofs rxp, st = laneAcquire → ∃ t, exec (.laneAcquired i loofs rxp) s = .next t ∧ t.laneState i.val = laneVerify ∧
      f t 31 16 = loofs.toNat ∧ f t 15 0 = rxp.toNat ∧ Safety.Frame s t own) ∧
    (∀ pilot index moved, st = laneVerify → pilot.toNat = k → index.toNat = k → ∃ t, exec (.laneVerify i pilot index moved) s = .next t ∧
      t.laneState i.val = laneLocked ∧ f t 55 48 = k ∧ Safety.Frame s t hull ∧
      (f s 57 57 = 1 → t.flash.points = s.flash.points ||| BitVec.ofNat 128 (2 ^ i.val)) ∧ (f s 57 57 = 0 → t.flash.points.getLsbD i.val = s.flash.points.getLsbD i.val)) ∧
    (∀ pilot index moved, st = laneVerify → pilot.toNat ≠ k ∨ index.toNat ≠ k → att < 3 → ∃ t, exec (.laneVerify i pilot index moved) s = .next t ∧
      t.laneState i.val = laneRelock ∧ f t 59 58 = att + 1 ∧ f t 57 57 = (if att = 2 then 1 else 0) ∧ f t 55 48 = pilot.toNat ∧
      Safety.Raised t 0x41 0 ∧ t.flash = s.flash ∧ Safety.Frame s t own) ∧
    (∀ pilot index moved, st = laneVerify → pilot.toNat ≠ k ∨ index.toNat ≠ k → att = 3 → ∃ t, exec (.laneVerify i pilot index moved) s = .next t ∧
      t.laneState i.val = laneDark ∧ (s.pathState i.val ≠ pathAbsent → t.pathState i.val = pathDark) ∧ Safety.Raised t 0x42 0 ∧ t.flash = s.flash ∧
      Safety.Frame s t path) ∧
    (st = laneLocked → Safety.NoDrill s 11 i.val →
      ∃ t, exec (.lossOfLock i) s = .next t ∧ relocking t ∧ f t 59 58 = att ∧ Safety.Raised t 0x47 0 ∧ Safety.Frame s t path) ∧
    (∀ preber corr uncorr, st = laneLocked → ∃ t, exec (.berLimitExceeded i preber corr uncorr) s = .next t ∧ relocking t ∧ f t 59 58 = att ∧
      t.fld (Csr.optFec i.val) 63 48 = preber.toNat ∧
      t.fld (Csr.optFec i.val) 47 32 = min (s.fld (Csr.optFec i.val) 47 32 + uncorr.toNat) (2 ^ 16 - 1) ∧ Safety.Frame s t path) ∧
    (∀ preber corr uncorr, st = laneLocked → ∃ t, exec (.berWarning i preber corr uncorr) s = .next t ∧ t.fld (Csr.optFec i.val) 63 48 = preber.toNat ∧
      t.fld (Csr.optFec i.val) 31 0 = min (s.fld (Csr.optFec i.val) 31 0 + corr.toNat) (2 ^ 32 - 1) ∧ Safety.Frame s t [Csr.optFec i.val] ∧
      (preber.toNat ≤ 10000 → t.out = s.out) ∧
      (10000 < preber.toNat → (∀ w ∈ s.hull.berWarned, w.1 = i.val → w.2 + 60000000000 ≤ s.now) → Safety.Raised t 0x48 0)) ∧
    (∀ pilot index, st = laneLocked → pilot.toNat ≠ k ∨ index.toNat ≠ k → ∃ t, exec (.wrongIndexInService i pilot index) s = .next t ∧
      t.laneState i.val = laneRelock ∧ f t 59 58 = min 3 (att + 1) ∧ f t 55 48 = pilot.toNat ∧ Safety.Raised t 0x41 0 ∧ down t ∧
      Safety.Frame s t path) ∧
    (∀ found, st = laneRelock → ∃ t, exec (.relockAttempt i found) s = .next t ∧ t.laneState i.val = laneVerify ∧ f t 59 58 = att ∧
      f t 55 48 = (if found then f s 55 48 else 0xFF) ∧ Safety.Frame s t own) ∧
    (st = laneLocked → s.hull.laneSince[i] + 3600000000000 ≤ s.now →
      ∃ t, exec (.attemptCountReset i) s = .next t ∧ f t 59 58 = 0 ∧ t.laneState i.val = laneLocked ∧ Safety.Frame s t own) ∧
    (∀ c : Fin 2, s.pins.pwrGood = true → s.pins.resetLow = false → s.cartGood c.val = true →
      (∀ d j, d < 2 → j < 8 → s.feed d j = 15 ∨ s.feed d j < 12) → s.feed c.val k ≠ 15 → s.lightable (12 * c.val + s.feed c.val k) = true →
      i.val ∈ s.waveLanes c.val k → st = laneOff →
      ∃ t, exec .laserLight s = .next t ∧ t.laneState i.val = (if s.flash.points.getLsbD i.val then laneRestore else laneSweep) ∧
        Safety.SameMemory s t ∧ t.cores = s.cores ∧
        (s.lasState (12 * c.val + s.feed c.val k) = lasOff → t.lasState (12 * c.val + s.feed c.val k) = lasActive))

/-- R313, R314, R327 to R333, R335, R341: lasers. A bias sample is averaged, shown and compared: at 1.20 of the BOL bias the laser warns with event 0x43, at 1.50
or with an output 1.5 dB low its life has ended, with event 0x45; a warmed spare is STANDBY; a decided swap begins, drains when planned, its feed moves to
the spare with event 0x44, its lanes retrain, soak and come UP, or without a spare the wavelength goes dark with event 0x46; a sudden failure is FAILED with
event 0x45; a removed cartridge leaves its half dark with events 0x49 and 0x46; a host port's light moves to the shared spare with event 0x4A, or it goes
dark. Readings at the borders of the ratios and of a failed soak: log 34, 84. -/
def Obligations.Lasers : Prop :=
  ∀ (s : State) (c : Fin 2), Safety.regsCanonical s →
    let calm (t : State) : Prop := Safety.SameMemory s t ∧ t.cores = s.cores
    let quiet (t : State) : Prop := Safety.SameMemory s t ∧ ∀ n : Fin 32, ∃ m, t.cores[n] = { s.cores[n] with mesh := m }
    (∀ (i : Fin 24) (bias power offset : BitVec 16) (temp : BitVec 8), s.pins.pwrGood = true → s.cartGood (i.val / 12) = true →
      s.lasState i.val ≠ lasOff → s.lasState i.val ≠ lasRetired → s.lasState i.val ≠ lasFailed →
      let l := ((min (2 * bias.toNat) (3 * s.hull.bol[i])) :: s.hull.samples[i]).take 60
      let reaches (p : Nat) : Prop := 2 * p * s.hull.bol[i] * l.length ≤ 100 * l.sum
      ∃ t, exec (.biasSample i bias power offset temp) s = .next t ∧ calm t ∧ t.hull.samples[i] = l ∧
        t.fld (Csr.lasBias i.val) 15 0 = power.toNat ∧ t.fld (Csr.lasStat i.val) 31 16 = offset.toNat ∧ t.fld (Csr.lasStat i.val) 15 8 = temp.toNat ∧
        ((s.waveOf (i.val / 12) (i.val % 12)).isSome = true →
          (power.toInt < -150 ∨ reaches 150 → t.lasState i.val = lasEol ∧ (s.lasState i.val ≠ lasEol → Safety.Raised t 0x45 0)) ∧
          (-150 ≤ power.toInt → ¬ reaches 150 → reaches 120 → s.lasState i.val = lasActive →
            (t.lasState i.val = lasWarn ∨ t.lasState i.val = lasWorn) ∧ Safety.Raised t 0x43 0))) ∧
    (∀ i : Fin 24, s.lasState i.val = lasWarming → ∃ t, exec (.spareWarmDone i) s = .next t ∧ t.lasState i.val = lasStandby ∧
      Safety.Frame s t [Csr.lasStat i.val]) ∧
    (∀ i lost k, s.swap? c.val = none → s.hull.queued.find? (fun q => q.1 / 12 == c.val) = some (i, lost) → s.pins.pwrGood = true →
      s.waveOf c.val (i - 12 * c.val) = some k →
      let auto := (s.reg Csr.hullCtl).bit 8
      let ended : Prop := s.lasState i = lasEol ∨ s.lasState i = lasFailed
      (∀ j, s.assignedSpare c.val k = some j → s.lasState j = lasStandby → ended ∨ auto = true →
        ∃ t w, exec (.laserSwap c) s = .next t ∧ quiet t ∧ t.swap? c.val = some w ∧ w.laser = i ∧ w.spare = some j ∧ w.wave = k ∧
          w.planned = (s.lasState i != lasFailed && auto) ∧ w.stage = (if w.planned then 0 else 1) ∧ (∀ q ∈ t.hull.queued, q.1 ≠ i)) ∧
      (¬ ended → auto = false → ∃ t, exec (.laserSwap c) s = .next t ∧ t = { s with hull := t.hull } ∧ t.swap? c.val = none ∧
        ∀ q ∈ t.hull.queued, q.1 ≠ i) ∧
      (ended → s.assignedSpare c.val k = none → s.freeSpares c.val = [] →
        ∃ t w, exec (.laserSwap c) s = .next t ∧ quiet t ∧ t.swap? c.val = some w ∧ w.laser = i ∧ w.spare = none ∧ w.wave = k)) ∧
    (∀ w : Swap, s.swap? c.val = some w → w.wave < 8 →
      (w.stage = 0 → s.swapDrained w = false → exec (.swapStageDone c) s = .next s) ∧
      (w.stage = 0 → s.swapDrained w = true → ∃ t, exec (.swapStageDone c) s = .next t ∧ calm t ∧ t.swap? c.val = some { w with stage := 1 } ∧
        ∀ i ∈ w.paths, i ∈ s.waveLanes c.val w.wave → s.pathState i = pathUp → t.pathState i = pathTraining) ∧
      (∀ m, w.stage = 1 → w.spare = some (12 * c.val + m) → m < 12 → w.laser < 24 → s.lasState (12 * c.val + m) = lasStandby →
        ∃ t, exec (.swapStageDone c) s = .next t ∧ calm t ∧ t.swap? c.val = some { w with stage := 2 } ∧ t.feed c.val w.wave = m ∧
          t.lasState (12 * c.val + m) = lasActive ∧ Safety.Raised t 0x44 0) ∧
      (w.stage = 1 → w.spare = none → ∃ t, exec (.swapStageDone c) s = .next t ∧ quiet t ∧ t.swap? c.val = none ∧ t.feed c.val w.wave = 15 ∧
        Safety.Raised t 0x46 0 ∧ ∀ i ∈ s.waveLanes c.val w.wave, t.laneState i = laneDark) ∧
      (w.stage = 2 → (∃ i ∈ s.waveLanes c.val w.wave, s.laneState i = laneLocked) →
        ∃ t, exec (.swapStageDone c) s = .next t ∧ calm t ∧ t.swap? c.val = some { w with stage := 3, uncorr := s.uncorrOf c.val w.wave }) ∧
      (2 < w.stage → ∃ t, exec (.swapStageDone c) s = .next t ∧ quiet t ∧ t.swap? c.val = none ∧
        ∀ i ∈ w.paths, i ∈ s.waveLanes c.val w.wave → s.soaked w i = true → t.pathState i = pathUp)) ∧
    (∀ i : Fin 24, s.pins.pwrGood = true → s.lasState i.val ≠ lasOff → s.lasState i.val ≠ lasRetired → s.lasState i.val ≠ lasFailed →
      s.swap? (i.val / 12) = none → ∃ t, exec (.suddenLaserFailure i) s = .next t ∧ calm t ∧ t.lasState i.val = lasFailed ∧
        t.flash.outOfUse[i] = lasFailed ∧ Safety.Raised t 0x45 0) ∧
    (s.hasCarts = true → (s.reg (Csr.cartInfo c.val)).bit 63 = true →
      ∃ t, exec (.cartridgeRemoved c) s = .next t ∧ calm t ∧ t.reg (Csr.cartInfo c.val) = 0 ∧ t.swap? c.val = none ∧
        Safety.Raised t 0x49 0 ∧ Safety.Raised t 0x46 0 ∧ (∀ m : Fin 12, t.lasState (12 * c.val + m.val) = lasOff) ∧
        ∀ i : Fin 128, laneCart i.val = c.val → s.laneState i.val ≠ laneAbsent → t.laneState i.val = laneDark) ∧
    (∀ (j : Fin 8) (ratio : BitVec 16) (failed : Bool), s.mainOn = true → s.hostPresent j.val = true → s.fld (Csr.hoptStat j.val) 63 60 ≠ 4 →
      let f (t : State) (hi lo : Nat) : Nat := t.fld (Csr.hoptStat j.val) hi lo
      let reaches (p : Nat) : Prop := p * 1024 ≤ 100 * ratio.toNat
      let taken : Prop := ∃ u ∈ s.flash.hostUse.toList, u = hostSpare j.val ∨ u = hostSpare j.val + 3
      ∃ t, exec (.hostLaserSwap j ratio failed) s = .next t ∧ calm t ∧ f t 47 32 = ratio.toNat ∧
        (¬ taken → failed = true ∨ reaches 135 →
          f t 59 56 = hostSpare j.val ∧ f t 63 60 = 3 ∧ t.flash.hostUse[j] = hostSpare j.val ∧ (t.port j.val).up = false ∧ Safety.Raised t 0x4A 0) ∧
        (taken → failed = true ∨ reaches 150 → f t 63 60 = 4 ∧ (t.port j.val).up = false ∧ Safety.Raised t 0x4A 0) ∧
        (failed = false → ¬ reaches 135 → f t 63 60 = f s 63 60 ∧ f t 59 56 = f s 59 56 ∧ t.ports = s.ports))

/-- R336 to R339, R341, R460: the supervisory ring. The by-pass closes, is counted and journalled, and opens; a frame of another module goes
on with its TTL one lower; a heartbeat tells module state and health; a missing one raises event 0x4B.
The model's reading of the end of a frame's TTL: log 35. -/
def Obligations.SupervisoryRing : Prop :=
  ∀ (s : State), Safety.regsCanonical s →
    (s.ring.closed = false → s.pins.aux = false ∨ s.pins.resetLow = true ∨ s.now < s.boot.since + 5000000 → ∃ t, exec .bypassClose s = .next t ∧ t.ring.closed = true ∧
      t.fld Csr.supStat 31 16 = min (s.fld Csr.supStat 31 16 + 1) (2 ^ 16 - 1) ∧ (∃ r, t.flash.journal.head? = some r ∧ r.type = 4) ∧
      Safety.Frame s t [Csr.supStat, Csr.jrnStat]) ∧
    (s.ring.closed = true → s.pins.aux = true → s.pins.resetLow = false → ∃ t, exec .bypassOpen s = .next t ∧ t.ring.closed = false ∧
      t.ring.missing = false ∧ Safety.Frame s t [Csr.supStat]) ∧
    (∀ f : SupFrame, s.ring.closed = false → s.pins.aux = true → f.serial ≠ serialOf s.flash.identity → 1 < f.ttl →
      ∃ t, exec (.supFrame f) s = .next t ∧ Output.supFrame { f with ttl := f.ttl - 1 } ∈ t.out ∧ t.fld Csr.supStat 63 62 = 2 ∧
        (f.macOk = false → t.fld Csr.supStat 15 0 = min (s.fld Csr.supStat 15 0 + 1) (2 ^ 16 - 1)) ∧
        (f.serial, s.now) ∈ t.ring.heard ∧ Safety.Frame s t [Csr.supStat]) ∧
    (s.pins.aux = true → s.ring.closed = false → ∃ t f, exec .heartbeat s = .next t ∧ Output.supFrame f ∈ t.out ∧ f.type = 1 ∧ f.ttl = 255 ∧
      f.seq = s.ring.seq ∧ f.payload = BitVec.ofNat 8 s.mstate :: bytesOfNat 2 (s.fld Csr.hltScore 9 0) ∧ t.ring.seq = s.ring.seq + 1 ∧
      Safety.Frame s t []) ∧
    (∀ lost, s.ring.closed = false → s.pins.aux = true → s.ring.missing = false → lost = true ∨ s.ring.heardAt + 300000000 ≤ s.now →
      ∃ t, exec (.heartbeatMissing lost) s = .next t ∧ Safety.Raised t 0x4B 0 ∧ t.ring.missing = true ∧ Safety.Frame s t [Csr.supStat])

/-- R342 to R345, R373: host ports and connections. A lost link is counted with event 0x92, and 0x94 when its network has no port left; a
port comes up with its address and event 0x93; connections are opened again, 0x95 when a network is back; a CNP halves the rate of its
connection, at most once per 50 µs, and its absence for 100 µs raises it by 5, up to 100 (a connection runs at `rate` Gb/s halved `halved` times); echo requests are answered up to 1,000 a second, LLDP is sent and recorded.
The choice among connections is the model's reading: log 40. -/
def Obligations.HostNetwork : Prop :=
  ∀ (s : State) (j : Fin 8) (server : BitVec 256), Safety.regsCanonical s →
    ((s.port j.val).up = true → ∃ t, exec (.hostLinkLoss j none) s = .next t ∧ (t.port j.val).up = false ∧
      (∀ k : Fin 8, k ≠ j → t.port k.val = s.port k.val) ∧ t.fld (Csr.ethPortStat j.val) 63 60 = 2 ∧
      t.fld (Csr.ethPortCnt j.val) 63 48 = min (s.fld (Csr.ethPortCnt j.val) 63 48 + 1) (2 ^ 16 - 1) ∧ Safety.Raised t 0x92 0 ∧
      ((∀ k : Fin 8, k ≠ j → portNet k.val = portNet j.val → (s.port k.val).up = false) → Safety.Raised t 0x94 0) ∧
      Safety.SameMemory s t ∧ t.cores = s.cores) ∧
    (∃ t, exec (.hostLinkLoss j (some server)) s = .next t ∧ (∀ c ∈ t.conns, c.port = j.val → c.server = server → c.up = false) ∧
      t.ports = s.ports ∧ Safety.SameMemory s t ∧ t.cores = s.cores) ∧
    (∀ lease gateway, s.mainOn = true → 5 ≤ s.boot.stage → s.hostPresent j.val = true → (s.port j.val).up = false →
      s.fld (Csr.hoptStat j.val) 63 60 ≠ 4 →
      ∃ t, exec (.hostPortUp j lease gateway) s = .next t ∧ (t.port j.val).up = true ∧ t.fld (Csr.ethPortStat j.val) 63 60 = 1 ∧ Safety.Raised t 0x93 0 ∧
        (∀ k : Fin 8, k ≠ j → t.port k.val = s.port k.val) ∧ ((s.flash.ports.find? (fun a => a.port == j.val && s.flash.cfgOk)) = none →
          (t.port j.val).addr = lease ∧ (t.port j.val).gateway = gateway) ∧
        (∀ a, (s.flash.ports.find? (fun a => a.port == j.val && s.flash.cfgOk)) = some a → a.fixed = true →
          (t.port j.val).addr = a.addr ∧ (t.port j.val).gateway = a.gateway) ∧
        Safety.Frame s t [Csr.ethPortStat j.val, Csr.hoptStat j.val]) ∧
    (∃ t, exec .hostReconnect s = .next t ∧ Safety.SameMemory s t ∧ t.cores = s.cores ∧ t.ports = s.ports ∧
      (∀ c ∈ s.conns, (s.port c.port).up = true → ∃ d ∈ t.conns, d.server = c.server ∧ d.port = c.port ∧ d.up = true) ∧
      (s.netLost.getLsbD 0 = true → (s.upPorts false) ≠ [] → Safety.Raised t 0x95 0)) ∧
    (∀ c : Conn, (s.port j.val).up = true → (s.reg Csr.ethCtl).bit 0 = true → c ∈ s.conns → c.server = server → c.port = j.val →
      ∃ t, exec (.cnp j server) s = .next t ∧
        (if c.halved = 0 ∧ c.rate = 100 ∨ c.cutAt + 50000 ≤ s.now then { c with halved := c.halved + 1, cutAt := s.now, riseAt := s.now }
          else { c with riseAt := s.now }) ∈ t.conns ∧
        t.fld (Csr.ethPortCnt j.val) 47 32 = min (s.fld (Csr.ethPortCnt j.val) 47 32 + 1) (2 ^ 16 - 1) ∧
        (∀ d ∈ s.conns, ¬ (d.server = server ∧ d.port = j.val) → d ∈ t.conns) ∧ Safety.Frame s t [Csr.ethPortCnt j.val]) ∧
    (∀ c : Conn, c ∈ s.conns → c.server = server → c.port = j.val → c.riseAt + 100000 ≤ s.now →
      ∃ t, exec (.cnpRateRecovery j server) s = .next t ∧ 
        (if 100 * 2 ^ c.halved ≤ c.rate + 5 * 2 ^ c.halved then { c with rate := 100, halved := 0, riseAt := s.now }
          else { c with rate := c.rate + 5 * 2 ^ c.halved, riseAt := s.now }) ∈ t.conns ∧
        (∀ d ∈ s.conns, ¬ (d.server = server ∧ d.port = j.val) → d ∈ t.conns) ∧ t = { s with conns := t.conns }) ∧
    ((s.port j.val).up = true → ∃ t, exec (.lldpTransmit j) s = .next t ∧ t = { s with out := .lldp j.val :: s.out }) ∧
    (∀ nb, (s.port j.val).up = true → ∃ t, exec (.lldpReceive j nb) s = .next t ∧ t.port j.val = { s.port j.val with neighbour := some nb } ∧
      (∀ k : Fin 8, k ≠ j → t.port k.val = s.port k.val) ∧ t = { s with ports := t.ports }) ∧
    (∀ v6, (s.port j.val).up = true → (s.port j.val).echoSecond ≠ s.now / 1000000000 ∨ (s.port j.val).echoes < 1000 →
      ∃ t, exec (.icmpEchoRequest j v6) s = .next t ∧ t = { s with out := .echo j.val v6 :: s.out, ports := t.ports } ∧
        (∀ k : Fin 8, k ≠ j → t.port k.val = s.port k.val)) ∧
    (∀ (id p : Nat) (x : Xfer), s.xfers.find? (fun x => x.id == id) = some x → x.outcome = none → p ∈ x.flying →
      ∃ t y, exec (.rdmaPieceComplete id p) s = .next t ∧ t.xfers.find? (fun x => x.id == id) = some y ∧
        y.outcome = (if x.flying.filter (fun q => q != p) = [] ∧ x.waiting = [] then some true else none) ∧ Safety.Frame s t []) ∧
    (∀ (id p since : Nat) (x : Xfer), s.xfers.find? (fun x => x.id == id) = some x → x.outcome = none → (p, since) ∈ x.waiting →
      since + 30000000000 ≤ s.now → s.conns.any (fun c => c.server == x.server && c.up) = false →
      ∃ t y, exec (.pieceNoConnection id) s = .next t ∧ t.xfers.find? (fun x => x.id == id) = some y ∧ y.outcome = some false ∧ Safety.Frame s t [])

/-- R346 to R349, R362, R419: sessions. HELLO of a known key opens one and is answered, of an unknown key raises event 0x96; a datagram's request
takes its place in REQID order; a request held for 640 ms takes its turn; CLOSE and 60 s of silence end the session; the oldest event of
a sink goes out on a session of its key and is sent again until acknowledged. Readings of the order of requests and of events: log 39. -/
def Obligations.Sessions : Prop :=
  ∀ (s : State) (k : Fin 64) (port : Fin 8) (x : Session),
    (∀ key nets role, s.serving = true → (s.port port.val).up = true → (s.reg Csr.secStat).bit 55 = true → s.keyRole key = some role →
      s.sessions[k] = none → (∀ i : Fin 64, i < k → s.sessions[i] ≠ none) →
      ∃ t y, exec (.hello port none key true nets) s = .next t ∧ t.sessions[k] = some y ∧ y.role = role ∧ y.ch.key = key ∧ y.ch.port = port.val ∧
        y.ch.nets = nets ∧ y.ch.lastAuth = s.now ∧ y.ch.ready = [] ∧ Output.helloAck port.val 0 y.ch.sid ∈ t.out ∧
        (∀ i : Fin 64, i ≠ k → t.sessions[i] = s.sessions[i]) ∧ Safety.Frame s t []) ∧
    (∀ key nets sigOk, s.serving = true → (s.port port.val).up = true → (s.reg Csr.secStat).bit 55 = true → s.keyRole key = none ∨ sigOk = false →
      ∃ t, exec (.hello port none key sigOk nets) s = .next t ∧ Safety.Raised t 0x96 0 ∧ t.sessions = s.sessions) ∧
    (∀ (ctr : Nat) (id h : BitVec 32) (mt : BitVec 16), s.sessions[k] = some x → (s.port port.val).up = true → x.ch.accepts ctr true = true →
      ctr < 2 ^ 32 → mt.toNat ∈ ningonusTypes → x.ch.last = some h → id = h + 1 → (∀ q ∈ x.ch.kept, q.1 ≠ id) → x.ch.waiting = [] →
      (∀ q ∈ x.ch.ready, q.1 ≠ id ∧ q.2 ∈ ningonusTypes) →
      ∃ t, exec (.data (.ningonus k) port ctr true id mt) s = .next t ∧
        (∃ y, t.sessions[k] = some y ∧ y.role = x.role ∧ y.ch.ready = x.ch.ready ++ [(id, mt.toNat)] ∧ y.ch.lastAuth = s.now ∧ y.ch.port = port.val) ∧
        (∀ i : Fin 64, i ≠ k → t.sessions[i] = s.sessions[i]) ∧ t = { s with sessions := t.sessions }) ∧
    (∀ ctr, s.sessions[k] = some x → x.ch.accepts ctr true = true →
      ∃ t, exec (.close (.ningonus k) ctr true) s = .next t ∧ t = { s with sessions := s.sessions.set k none }) ∧
    (s.sessions[k] = some x → x.ch.lastAuth + 60000000000 ≤ s.now →
      ∃ t, exec (.sessionIdleTimeout (.ningonus k)) s = .next t ∧ t = { s with sessions := s.sessions.set k none }) ∧
    (∀ id mt since, s.sessions[k] = some x → x.ch.waiting = [(id, mt, since)] → x.ch.ready = [] → mt ∈ ningonusTypes → since + 640000000 ≤ s.now →
      ∃ t y, exec (.reqidHoldExpiry (.ningonus k)) s = .next t ∧ t.sessions[k] = some y ∧ y.ch.ready = [(id, mt)] ∧ y.ch.waiting = [] ∧
        t = { s with sessions := t.sessions }) ∧
    (∀ (sink : Fin 4) (q : Sink) (seq : Nat) (e : EventRec) (rest : List (Nat × EventRec)), s.sinks[sink] = some q → s.sessions[k] = some x →
      x.ch.key = q.key → (∀ i : Fin 64, i < k → ∀ y, s.sessions[i] = some y → y.ch.key ≠ q.key) → q.queue = (seq, e) :: rest →
      (∀ r ∈ x.evOut, ¬ (r.sink = sink.val ∧ r.seq = seq)) → (s.port x.ch.port).up = true → x.ch.tx + 1 < 2 ^ 32 →
      ∃ t y, exec (.event sink) s = .next t ∧ Output.eventMsg x.ch.port x.ch.sid x.evNext seq e ∈ t.out ∧ t.sessions[k] = some y ∧ y.evNext = x.evNext + 1 ∧ y.ch.tx = x.ch.tx + 1 ∧
        (∃ r ∈ y.evOut, r.reqid = x.evNext ∧ r.sink = sink.val ∧ r.seq = seq) ∧ t.sinks = s.sinks ∧ Safety.Frame s t []) ∧
    (∀ (r : EventReq) (q : Sink) (e : EventRec), s.sessions[k] = some x → x.evOut = [r] → s.now < r.begun + 5000000000 → r.sent + r.interval ≤ s.now →
      (s.sinks[r.sink]?).join = some q → q.queue.find? (fun m => m.1 == r.seq) = some (r.seq, e) → (s.port x.ch.port).up = true →
      x.ch.tx + 1 < 2 ^ 32 → ∃ t y, exec (.requestRetransmit k) s = .next t ∧ Output.eventMsg x.ch.port x.ch.sid r.reqid r.seq e ∈ t.out ∧ t.sessions[k] = some y ∧
        y.evOut = [{ r with sent := s.now, interval := min 640000000 (2 * r.interval) }] ∧ Safety.Frame s t [])

/-- R11, R12, R350, R465, R468, R469, R471, R472: reading and writing registers on a session. A read answers with the value; a write under MASK puts its
bits into the writable fields alone; a LOCK bit once set keeps them; PING does nothing else. -/
def Obligations.RegisterRequests : Prop :=
  ∀ (s : State) (k : Fin 64) (x : Session) (id : BitVec 32) (rest : List (BitVec 32 × Nat)), Safety.regsCanonical s →
    let plainRegs : List Nat := [Csr.ftCtl, Csr.chkCtl, Csr.fabCtl, Csr.clCtl, Csr.drlCtl]
    let also (o : Nat) : List Nat := if o = Csr.ftCtl then [Csr.ftStat] else []
    let lockable : List Nat := Csr.powCtl :: Csr.poolCtl :: Csr.thmCtl :: Csr.hltCtl :: Csr.memCtl :: Csr.hullCtl :: Csr.ethCtl :: plainRegs
    (Safety.Due s k x 0x1 id rest → ∃ t, exec (.ping k) s = .next t ∧ Safety.Answered t k x id rest { status := 0, body := [] } ∧
      t = { s with out := t.out, sessions := t.sessions }) ∧
    (∀ o : Nat, Safety.Due s k x 0x2 id rest → o < 2 ^ 32 → o % 8 = 0 → csrAssigned o = true → s.csrAbsent o = false → isMailbox o = false → o ≠ Csr.ngsStat →
      ∃ t, exec (.csrRead k (bytesOfNat 2 1 ++ bytesOfNat 6 0 ++ bytesOfNat 4 o ++ bytesOfNat 4 0)) s = .next t ∧
        Safety.Answered t k x id rest { status := 0, body := bytesOfNat 2 1 ++ bytesOfNat 6 0 ++ bytesOfNat 2 0 ++ bytesOfNat 6 0 ++ bytesOfNat 8 (s.csr o).toNat } ∧
        t = { s with out := t.out, sessions := t.sessions }) ∧
    (∀ (o : Nat) (mask value : Word), Safety.Due s k x 0x3 id rest → o ∈ plainRegs → (s.reg o).bit 63 = false →
      let may := (csrAccess o).rw ||| (csrAccess o).rwl
      ∃ t, exec (.csrWrite k (Safety.oneWrite o mask value)) s = .next t ∧
        Safety.Answered t k x id rest (Safety.oneStatus (if mask &&& ~~~may = 0 then 0 else 6)) ∧
        (∀ b, b < 64 → (t.reg o).bit b = if mask.bit b && may.bit b then value.bit b else (s.reg o).bit b) ∧ Safety.Frame s t (o :: also o)) ∧
    (∀ (o : Nat) (mask value : Word), Safety.Due s k x 0x3 id rest → o ∈ plainRegs → (s.reg o).bit 63 = true → mask &&& (csrAccess o).rwl ≠ 0 →
      ∃ t, exec (.csrWrite k (Safety.oneWrite o mask value)) s = .next t ∧ Safety.Answered t k x id rest (Safety.oneStatus 5) ∧
        t.reg o = s.reg o ∧ Safety.Frame s t (o :: also o)) ∧
    (∀ o : BitVec 32, Safety.Due s k x 0x3 id rest → o.toNat ∈ lockable →
      ∃ t, exec (.lockWrite k o) s = .next t ∧ Safety.Answered t k x id rest (Safety.oneStatus 0) ∧
        (∀ b, b < 64 → (t.reg o.toNat).bit b = (b == 63 || (s.reg o.toNat).bit b)) ∧ Safety.Frame s t ([o.toNat, Csr.powStat, Csr.poolStat] ++ also o.toNat))

/-- R233, R323, R326, R350, R362, R389, R392, R447, R463: requests whose write sets something off. A DARK lane restarts, stored lock points are discarded, the
power cap and mode are set, a mark of a channel is cancelled, retentions end with event 0x9F, drills are enabled, a sink is bound. -/
def Obligations.SettingRequests : Prop :=
  ∀ (s : State) (k : Fin 64) (x : Session) (id : BitVec 32) (rest : List (BitVec 32 × Nat)), Safety.regsCanonical s →
    let ok (t : State) : Prop := Safety.Answered t k x id rest (Safety.oneStatus 0) ∧ Safety.SameMemory s t ∧ t.cores = s.cores
    let done (t : State) : Prop := Safety.Answered t k x id rest { status := 0, body := [] } ∧ Safety.SameMemory s t ∧ t.cores = s.cores
    (∀ i : Fin 128, Safety.Due s k x 0x3 id rest → s.laneState i.val = laneDark → s.waveDark (laneCart i.val) (i.val % 8) = false →
      ∃ t, exec (.optLaneRetry k i) s = .next t ∧ ok t ∧ t.laneState i.val = laneRestore ∧ t.fld (Csr.optLane i.val) 59 58 = 0) ∧
    (Safety.Due s k x 0x3 id rest → ∃ t, exec (.hullCold k) s = .next t ∧ ok t ∧ t.flash.points = 0) ∧
    (∀ cap : BitVec 16, Safety.Due s k x 0x3 id rest → (s.reg Csr.powCtl).bit 63 = false → 900 ≤ cap.toNat → cap.toNat ≤ 3200 →
      ∃ t, exec (.powCapWrite k cap) s = .next t ∧ ok t ∧ t.fld Csr.powCtl 15 0 = cap.toNat ∧
        (cap.toNat ≠ s.fld Csr.powCtl 15 0 → Safety.Raised t 0x50 0) ∧ Safety.SameRegisters s t [Csr.powCtl, Csr.powStat]) ∧
    (∀ mode eq align, Safety.Due s k x 0x3 id rest → (s.reg Csr.powCtl).bit 63 = false →
      ∃ t, exec (.powModeWrite k mode eq align) s = .next t ∧ ok t ∧ (t.reg Csr.powCtl).bit 32 = mode ∧ (t.reg Csr.powCtl).bit 40 = eq ∧
        t.fld Csr.powCtl 47 44 = align.toNat ∧ t.fld Csr.powCtl 15 0 = s.fld Csr.powCtl 15 0 ∧ Safety.SameRegisters s t [Csr.powCtl, Csr.powStat]) ∧
    (∀ (st : Fin 8) (bits : BitVec 32), Safety.Due s k x 0x3 id rest → s.stackPresent st.val = true →
      let map := s.reg (Csr.hbmChanMap st.val)
      ∃ t, exec (.hbmChanClr k st bits) s = .next t ∧ ok t ∧
        (∀ c, c < 32 → (t.reg (Csr.hbmChanMap st.val)).bit (32 + c) = (map.bit (32 + c) && !(bits.getLsbD c && !map.bit c))) ∧
        (∀ c, c < 32 → (t.reg (Csr.hbmChanMap st.val)).bit c = map.bit c) ∧
        (∀ c, c < 32 → (t.flash.retest[st]).getLsbD c = ((s.flash.retest[st]).getLsbD c || (bits.getLsbD c && map.bit c)))) ∧
    (Safety.Due s k x 0x3 id rest → ∃ t, exec (.hltRelease k) s = .next t ∧ ok t ∧ t.retained = [] ∧
      ∀ r ∈ s.retained, Safety.Raised t 0x9F r.job) ∧
    (∀ v : Word, Safety.Due s k x 0x51 id rest → (s.reg Csr.drlCtl).bit 63 = false →
      ∃ t, exec (.drillSet k (bytesOfNat 8 v.toNat)) s = .next t ∧ done t ∧ t.fld Csr.drlCtl 11 0 = v.field 11 0 ∧
        t.fld Csr.drlCtl 55 32 = v.field 55 32 ∧ Safety.SameRegisters s t [Csr.drlCtl]) ∧
    (∀ (sink : Fin 4) (mask : BitVec 16), Safety.Due s k x 0x20 id rest →
      ∃ t q, exec (.sinkSet k (BitVec.ofNat 8 sink.val) mask) s = .next t ∧ done t ∧ t.sinks[sink] = some q ∧ q.key = x.ch.key ∧ q.mask = mask ∧
        (∀ i : Fin 4, i ≠ sink → t.sinks[i] = s.sinks[i]) ∧ ∀ o, t.reg o = s.reg o)

/-- R350, R353, R357 to R359, R377, R404, R459: requests on work and levels. SUBMIT of an owner's or operator's key is accepted and the descriptor is
fetched, once per digest; CANCEL ends a job that has not started with record START_FAILED, reason 8, event 0x98, and asks the halt of a running one
with cause 8; JOB_QUERY answers with the last record; WORKLIST sets or disables a list; LEVEL_SET sets a level within the firmware's range; RESUME
leads from HELD to READY, event 0x58. The order of the answers is the model's reading: log 43, 48. -/
def Obligations.JobRequests : Prop :=
  ∀ (s : State) (k : Fin 64) (x : Session) (id : BitVec 32) (rest : List (BitVec 32 × Nat)), Safety.regsCanonical s →
    let ok (t : State) : Prop := Safety.Answered t k x id rest { status := 0, body := [] }
    let portRegs := (List.range 8).map Csr.ethPortStat
    (∀ body : List Byte, Safety.Due s k x 0x10 id rest → (s.reg Csr.secStat).bit 60 = false → body.length = 224 → refClean body 32 = true →
      bodyNat body 98 30 = 0 → s.maySign (digestOfBytes ((body.drop 128).take 32)) = true → s.resetAfterJobs = false → s.acquittal = none →
      s.mstate ≠ mHeld → bodyNat body 96 2 = s.fld Csr.capNl 23 16 →
      let digest := digestOfBytes ((body.drop 64).take 32)
      ∃ t, exec (.submit k body true) s = .next t ∧ ok t ∧ t.jobs = s.jobs ∧ Safety.Frame s t portRegs ∧
        (s.digestHeld digest = true → t = { s with out := t.out, sessions := t.sessions }) ∧
        (s.digestHeld digest = false → (∃ y ∈ t.xfers, y.purpose = .descriptor digest ∧ y.server = serverAt body 0) ∧
          ∃ a : Admission, t.admissions = s.admissions ++ [a] ∧ a.digest = digest ∧ a.key = digestOfBytes ((body.drop 128).take 32) ∧ a.nl = bodyNat body 96 2 ∧
            a.ref = refOf body 32 ∧ a.server = serverAt body 0)) ∧
    (∀ (job : Word) (j : Job), Safety.Due s k x 0x11 id rest → s.job? job = some j → x.role = 0 ∨ j.key = x.ch.key →
      (j.phase ≠ .running → s.resetAfterJobs = false →
        ∃ t, exec (.cancel k job) s = .next t ∧ ok t ∧ t.job? job = none ∧ Safety.Raised t 0x98 job ∧
          ∀ r, s.rings.find? (fun r => r.job == job && !r.final) = some r → r.waiting.length < 256 →
            ∃ y ∈ t.rings, y.job = job ∧ y.final = true ∧ y.waiting = r.waiting ++
              [{ job := job, seq := r.nextSeq, kind := 2, reason := 8, ft := s.ft, arg := 0, detail := [] }]) ∧
      (j.phase = .running →
        ∃ t, exec (.cancel k job) s = .next t ∧ ok t ∧ t.job? job = some { j with cancelled := true } ∧ Safety.Frame s t [] ∧
          t.halts = s.halts ++ [{ job := job, cause := 8, detail := 0, loc := 0, ft := s.ft, fenced := false }])) ∧
    (∀ (job : Word) (r : JobRecord), Safety.Due s k x 0x12 id rest → s.lastRecords.find? (fun r => r.job == job) = some r →
      ∃ t, exec (.jobQuery k job) s = .next t ∧ Safety.Answered t k x id rest { status := 0, body := complBytes r } ∧
        t = { s with out := t.out, sessions := t.sessions }) ∧
    (∀ (list : Fin 4) (server : BitVec 256) (rkey va len interval : Nat), Safety.Due s k x 0x13 id rest → interval = 0 ∨ (10 ≤ interval ∧ interval ≤ 60000) →
      ∃ t, exec (.worklist k list.val server rkey va len interval) s = .next t ∧ ok t ∧
        t.worklists[list] = (if interval = 0 then none else
          some { server := server, ref := { srv := 0, rkey := rkey, va := va, len := len }, interval := interval, cons := 0, polled := none }) ∧
        (∀ i : Fin 4, i ≠ list → t.worklists[i] = s.worklists[i]) ∧ t = { s with out := t.out, sessions := t.sessions, worklists := t.worklists }) ∧
    (∀ v : Byte, Safety.Due s k x 0x30 id rest →
      (s.fld Csr.clLvl 15 8 ≤ v.toNat → v.toNat ≤ s.fld Csr.clLvl 23 16 →
        ∃ t, exec (.levelSet k [1, v]) s = .next t ∧ ok t ∧ t.fld Csr.clLvl 7 0 = v.toNat ∧ Safety.Frame s t [Csr.clLvl, Csr.jrnStat]) ∧
      (s.fld Csr.capNl 7 0 ≤ v.toNat → v.toNat ≤ s.fld Csr.capNl 15 8 →
        ∃ t, exec (.levelSet k [2, v]) s = .next t ∧ ok t ∧ t.fld Csr.capNl 23 16 = v.toNat ∧ Safety.Frame s t [Csr.capNl, Csr.jrnStat])) ∧
    (Safety.Due s k x 0x31 id rest → s.mstate = mHeld → (s.reg Csr.secStat).bit 55 = true →
      (∀ i, i < 57 → s.sitePresent i = true → s.siteCool i = true) →
      ∃ t, exec (.resume k) s = .next t ∧ ok t ∧ t.mstate = mReady ∧ t.flash.held = false ∧ Safety.Raised t 0x58 0 ∧
        Safety.Frame s t [Csr.powStat, Csr.jrnStat])

/-- R60, R228, R229, R354 to R357, R359 to R361: how a job comes to run and reports. A fetched descriptor in order is granted cores, windows and its ring; one that
cannot be fetched or has the wrong digest gives event 0x98, and one waits while a core that it would get is being cleared; with everything ready the program stands in each core's scratchpad and the arguments behind
the job information block; STARTED and event 0x97 follow when every core runs; a work list is read, its entries submitted, 0x9C for a rejected one; records
go to the ring in order, then the index, and a full ring's consumer index is read again. Readings of admission: log 43. -/
def Obligations.JobProgress : Prop :=
  ∀ (s : State), Safety.regsCanonical s → s.resetAfterJobs = false →
    let portRegs := (List.range 8).map Csr.ethPortStat
    (∀ (digest : BitVec 256) (a : Admission) (x : Xfer) (d prog args : List Byte) (places : List Nat),
      s.admissions.find? (fun a => a.digest == digest) = some a → s.xferOf (.descriptor digest) = some x →
      (x.outcome = some false ∨ (x.outcome = some true ∧ (d.length ≠ a.ref.len ∨ sm3 d ≠ digest)) →
        ∃ t, exec (.jobAdmission digest d prog args places) s = .next t ∧ Safety.Raised t 0x98 0 ∧ t.jobs = s.jobs ∧ Safety.Frame s t [] ∧
          ∀ b ∈ t.admissions, b.digest ≠ digest) ∧
      (∀ ws, x.outcome = some true → d.length = a.ref.len → sm3 d = digest → descOk d a.nl = true → s.job? (dJob d) = none →
        dCores d ≤ (s.eligible (BitVec.ofNat 32 (bodyNat d 20 4))).length → s.grant (dJob d) (tableOf d (dWinOff d) 16 (dNwin d)) places [] = some ws →
        let chosen := (s.eligible (BitVec.ofNat 32 (bodyNat d 20 4))).take (dCores d)
        ((∃ n ∈ chosen, (s.cores[n]).clearing = true) → exec (.jobAdmission digest d prog args places) s = .next s) ∧
        ((∀ n ∈ chosen, (s.cores[n]).clearing = false) → ∃ t j, exec (.jobAdmission digest d prog args places) s = .next t ∧ t.job? (dJob d) = some j ∧ j.phase = .admitted ∧ j.windows = ws ∧
          j.digest = digest ∧ (∀ n : Fin 32, j.cores.getLsbD n.val = decide (n ∈ chosen)) ∧
          (∀ n : Fin 32, (t.cores[n]).job = if n ∈ chosen then dJob d else (s.cores[n]).job) ∧
          (∃ r ∈ t.rings, r.job = dJob d ∧ r.ref = dCompl d ∧ r.final = false ∧ r.waiting = []) ∧ (∀ b ∈ t.admissions, b.digest ≠ digest) ∧
          Safety.SameMemory s t ∧ Safety.SameRegisters s t portRegs))) ∧
    (∀ (digest : BitVec 256) (j : Job) (d prog args : List Byte) (places : List Nat), Safety.memCanonical s →
      s.admissions.find? (fun a => a.digest == digest) = none → s.jobs.find? (fun j => j.digest == digest && j.phase == .admitted) = some j →
      s.groupFailed j.id = none → (∀ x ∈ s.xfers, x.purpose = .program j.id → x.outcome = some true) → s.groupsReady j = true →
      (∀ w ∈ j.windows, w.zeroed = true) → (∀ n : Fin 32, j.cores.getLsbD n.val = true → (s.cores[n]).clearing = false) → sm3 d = digest →
      prog.length = (dProgram d).len → sm3 prog = digestOfBytes ((d.drop 128).take 32) → args.length = (dArgs d).len →
      sm3 args = digestOfBytes ((d.drop 160).take 32) → j.pload + prog.length ≤ scratchSize → hbmBase + 256 ≤ j.argAddr →
      ∃ t, exec (.jobAdmission digest d prog args places) s = .next t ∧ (t.job? j.id).any (fun y => y.phase == .starting) = true ∧
        (∀ n : Fin 32, j.cores.getLsbD n.val = true → ∀ i, i < prog.length → t.readByte (scratchBase n.val + j.pload + i) = prog.getD i 0) ∧
        (∀ i, i < args.length → t.readByte (j.argAddr + i) = args.getD i 0) ∧
        (∀ i, i < 256 → t.readByte (j.argAddr - 256 + i) = (jobInfo j).getD i 0) ∧
        (∀ a, (∀ n : Fin 32, j.cores.getLsbD n.val = true → ¬ (scratchBase n.val + j.pload ≤ a ∧ a < scratchBase n.val + j.pload + prog.length)) →
          ¬ (j.argAddr ≤ a + 256 ∧ a < j.argAddr + args.length) → t.readByte a = s.readByte a) ∧
        t.cores = s.cores ∧ ∀ o, t.reg o = s.reg o) ∧
    (∀ (job : Word) (j : Job), s.job? job = some j → j.phase = .starting →
      (∀ n : Fin 32, j.cores.getLsbD n.val = true → (s.cores[n]).run = .running ∨ j.ended.getLsbD n.val = true) →
      (j.cores &&& ~~~j.ended ≠ 0 → ∃ t, exec (.jobStarted job) s = .next t ∧ t.job? job = some { j with phase := .running } ∧ Safety.Raised t 0x97 job ∧
        Safety.Frame s t [] ∧ ∀ r, s.rings.find? (fun r => r.job == job && !r.final) = some r → r.waiting.length < 256 →
          ∃ y ∈ t.rings, y.job = job ∧ y.waiting = r.waiting ++
            [{ job := job, seq := r.nextSeq, kind := 1, reason := 0, ft := s.ft, arg := j.cores.zeroExtend 64, detail := [] }]) ∧
      (j.cores &&& ~~~j.ended = 0 → ∃ t, exec (.jobStarted job) s = .next t ∧ t.job? job = none ∧ Safety.Raised t 0x97 job ∧ Safety.Raised t 0x99 job)) ∧
    (∀ (list : Fin 4) (w : WorkList), s.worklists[list] = some w → s.serving = true →
      (∀ before, w.polled = some before → before + w.interval * 1000000 ≤ s.now) →
      (∀ read, read = none ∨ s.reaches w.server = false → ∃ t, exec (.worklistPoll list read) s = .next t ∧ Safety.Raised t 0x9C 0 ∧ Safety.Frame s t [] ∧
        t.worklists[list] = some { w with polled := some s.now } ∧ ∀ i : Fin 4, i ≠ list → t.worklists[i] = s.worklists[i]) ∧
      (∀ cons entries, s.reaches w.server = true → entries.length ≤ w.count → ∃ t, exec (.worklistPoll list (some (cons, entries))) s = .next t ∧
        t.worklists[list] = some { w with polled := some s.now, cons := cons + entries.length } ∧ (∀ i : Fin 4, i ≠ list → t.worklists[i] = s.worklists[i]) ∧
        Output.rdmaRead w.server w.ref.rkey w.ref.va 64 ∈ t.out ∧ Safety.Frame s t portRegs ∧
        (entries ≠ [] → Output.rdmaWrite w.server w.ref.rkey (w.ref.va + 8) (bytesOfNat 8 (cons + entries.length)) false ∈ t.out) ∧
        (∀ i, i < entries.length → Output.rdmaRead w.server w.ref.rkey (w.ref.va + 64 + 256 * ((cons + i) % w.count)) 256 ∈ t.out) ∧
        ∀ body sigOk, entries = [(body, sigOk)] → t.admissions = (s.submit (body.take 224) sigOk).1.admissions ∧
          ((s.submit (body.take 224) sigOk).2 ≠ 0 → Safety.Raised t 0x9C 0))) ∧
    (∀ (job : Word) (r : ComplRing), s.duringRing job = some r → s.reaches r.server = true →
      (∀ x more, r.waiting = x :: more → r.prod < r.cons + r.count → ∃ t, exec (.completionRecordWrite job) s = .next t ∧
        Output.rdmaWrite r.server r.ref.rkey (r.ref.va + 64 + 64 * (r.prod % r.count)) (complBytes x) false ∈ t.out ∧
        Output.rdmaWrite r.server r.ref.rkey r.ref.va (bytesOfNat 8 (r.prod + 1)) false ∈ t.out ∧ r ∉ t.rings ∧
        (r.final = false ∨ more ≠ [] → { r with prod := r.prod + 1, waiting := more } ∈ t.rings) ∧ Safety.Frame s t portRegs) ∧
      (∀ cons, r.cons + r.count ≤ r.prod → ∃ t, exec (.completionRingRecheck job cons) s = .next t ∧
        Output.rdmaRead r.server r.ref.rkey (r.ref.va + 8) 8 ∈ t.out ∧ { r with cons := max r.cons (min cons r.prod) } ∈ t.rings ∧
        t = { s with out := t.out, rings := t.rings }))

/-- R363 to R370: the services of a job. A checkpoint entry that cannot be parsed ends with status MALFORMED; a save writes its chunks to the server; its last transfer
done, status OK; an ingest fetches its shard, places it slot by slot behind a header and signals, or halts the job with event 0x9A; GENERATE and APPEND take
prompts, STOP stops; a waiting request enters a slot and the step entry follows; a token goes to its client.
Ciphertext bytes are free (log 41); failure codes: log 45. -/
def Obligations.Services : Prop :=
  ∀ (s : State) (job : Word) (svc : Nat) (j : Job) (v : Service), Safety.memCanonical s → s.service? job svc = some (j, v) →
    let ctl := v.control j
    let prod := s.readNat ctl 8
    let cons := s.readNat (ctl + 8) 8
    let e := s.readBytes (ctl + 4096 + 64 * (cons % 2 ^ v.qlog)) 64
    let after (t : State) (p : Service → Prop) : Prop := ∃ j' v', t.service? job svc = some (j', v') ∧ p v'
    (v.kind = 2 → v.running = true → v.req = none → prod ≠ cons → ∀ stored base,
      (ckptEntryOk s.flash j v e = false → cons + 1 < 2 ^ 64 → ∃ t, exec (.serviceQueuePoll job svc stored base) s = .next t ∧
        t.readNat (ctl + 4096 + 64 * (cons % 2 ^ v.qlog) + 56) 8 = 1 ∧ t.readNat (ctl + 8) 8 = cons + 1 ∧ after t (fun w => w.req = none)) ∧
      (ckptEntryOk s.flash j v e = true → bodyNat e 0 1 = 1 → bodyNat e 1 1 = 0 → s.readFails .none [(bodyNat e 2 6, bodyNat e 8 8)] = none →
        ∃ t, exec (.serviceQueuePoll job svc stored base) s = .next t ∧ after t (fun w => ∃ r, w.req = some r ∧ r.index = cons ∧ r.stage = 0 ∧ r.entry.take 64 = e) ∧
          (∀ i, i < chunkCount (bodyNat e 8 8) → Output.rdmaWrite (j.servers.getD (bodyNat e 24 2) 0) (bodyNat e 26 4) (bodyNat e 32 8 + chunkBytes * i)
            (s.readBytes (bodyNat e 2 6 + chunkBytes * i) (min chunkBytes (bodyNat e 8 8 - chunkBytes * i))) false ∈ t.out) ∧
          Safety.SameMemory s t)) ∧
    (∀ r x stored base, v.kind = 2 → v.running = true → v.req = some r → bodyNat r.entry 0 1 = 1 → bodyNat r.entry 1 1 = 0 → r.stage = 1 →
      s.xfers.find? (fun x => x.id == r.xfer) = some x → x.outcome = some true → r.index + 1 < 2 ^ 64 →
      ∃ t, exec (.serviceQueuePoll job svc stored base) s = .next t ∧ t.readNat (ctl + 4096 + 64 * (r.index % 2 ^ v.qlog) + 56) 8 = 0 ∧
        t.readNat (ctl + 8) 8 = r.index + 1 ∧ after t (fun w => w.req = none)) ∧
    (∀ entry read, v.kind = 1 → v.running = true → v.fld 32 8 / 64 ≠ 0 →
      (s.xferOf (.ingest job svc) = none → ∃ t, exec (.ingestSlotWrite job svc entry read) s = .next t ∧
        Output.rdmaRead (j.servers.getD (bodyNat entry 0 2) 0) (bodyNat entry 4 4) (bodyNat entry 8 8) (bodyNat entry 16 8) ∈ t.out ∧
        (∃ x ∈ t.xfers, x.purpose = .ingest job svc) ∧ Safety.SameMemory s t) ∧
      (∀ x, s.xferOf (.ingest job svc) = some x → x.outcome = some true →
        (∀ st, read = .failed st → ∃ t, exec (.ingestSlotWrite job svc entry read) s = .next t ∧ Safety.Raised t 0x9A j.id ∧
          (∃ h ∈ t.halts, h.job = j.id ∧ h.cause = 7) ∧ after t (fun w => w.running = false)) ∧
        (∀ data, read = .bytes data → shardStatus entry data = 0 → prod < cons + 2 ^ v.qlog → prod + 1 < 2 ^ 64 → 7 ≤ v.fld 48 1 → data.length < 2 ^ 64 →
          v.offset < data.length →
          let slot := ctl + 4096 + (prod % 2 ^ v.qlog) * 2 ^ (v.fld 48 1)
          let part := (data.drop v.offset).take (2 ^ (v.fld 48 1) - 64)
          ∃ t, exec (.ingestSlotWrite job svc entry read) s = .next t ∧ t.readNat ctl 8 = prod + 1 ∧ t.readNat slot 8 = v.index % 2 ^ 64 ∧
            t.readNat (slot + 16) 8 = v.offset ∧ t.readNat (slot + 24) 8 = part.length ∧
            t.readNat (slot + 32) 1 = (if data.length ≤ v.offset + part.length then 1 else 0) ∧ t.readBytes (slot + 64) part.length = part ∧
            (∀ a, ¬ (ctl ≤ a ∧ a < ctl + 8) → ¬ (slot ≤ a ∧ a < slot + 64 + part.length) → t.readByte a = s.readByte a) ∧
            after t (fun w => w.offset = if data.length ≤ v.offset + part.length then 0 else v.offset + part.length)))) ∧
    (∀ (key : BitVec 256) (c : Channel) (id : BitVec 32) (mt : Nat) (rest : List (BitVec 32 × Nat)) (num : Nat),
      s.chan? (.client job svc key) = some c → c.ready = (id, mt) :: rest → (∀ q ∈ rest, q.2 ∈ clientTypes) → c.tx + 1 < 2 ^ 32 → (s.port c.port).up = true →
      let ok (t : State) : Prop := Output.response c.port c.sid id { status := 0, body := [] } ∈ t.out ∧ Safety.Frame s t []
      (∀ params tokens last, mt = 0x100 → params.length = 32 → tokens.length ≤ 320 → (∀ q ∈ v.requests, ¬ (q.client = key ∧ q.num = num)) →
        tokens.length < v.maxCtx → last = false ∨ v.queued.length < v.qMax →
        ∃ t, exec (.generate (.client job svc key) num params last tokens) s = .next t ∧ ok t ∧ after t (fun w => w.requests = v.requests ++
          [{ client := key, num := num, params := params, tokens := tokens, complete := last, stopped := false, slot := none }])) ∧
      (∀ q tokens last, mt = 0x101 → v.requests.find? (fun q => q.client == key && q.num == num) = some q → q.complete = false → tokens.length ≤ 336 →
        q.tokens.length + tokens.length < v.maxCtx → last = false ∨ v.queued.length < v.qMax →
        ∃ t, exec (.append (.client job svc key) num last tokens) s = .next t ∧ ok t ∧
          after t (fun w => { q with tokens := q.tokens ++ tokens, complete := last } ∈ w.requests ∧
            ∀ y ∈ v.requests, ¬ (y.client = key ∧ y.num = num) → y ∈ w.requests)) ∧
      (mt = 0x102 → (∃ q ∈ v.requests, q.client = key ∧ q.num = num) → ∃ t, exec (.stop (.client job svc key) num) s = .next t ∧ ok t ∧
        after t (fun w => (∀ q ∈ w.requests, q.client = key → q.num = num → q.stopped = true) ∧
          ∀ y ∈ v.requests, ¬ (y.client = key ∧ y.num = num) → y ∈ w.requests))) ∧
    (∀ q : GenReq, v.kind = 3 → v.running = true → v.requests = [q] →
      (v.step ≤ v.index → q.complete = true → q.slot = none → q.stopped = false → 1 ≤ v.maxB → v.step + 1 < 2 ^ 64 →
        ∃ t, exec (.tokenRingPoll job svc) s = .next t ∧ after t (fun w => w.step = v.step + 1 ∧ w.requests = [{ q with slot := some 0 }]) ∧
          t.readNat ctl 8 = v.step + 1 ∧ t.readNat (ctl + 4096 + 64 * (v.step % 2 ^ v.qlog)) 8 = v.step ∧
          t.readNat (ctl + 4096 + 64 * (v.step % 2 ^ v.qlog) + 16) 32 = 1) ∧
      (∀ i, v.index < v.step → q.slot = some i → v.index < s.readNat (j.winBase v.qwin + v.fld 52 8) 8 →
        ∀ c : Channel, s.chan? (.client job svc q.client) = some c → (s.port c.port).up = true → c.tx + 1 < 2 ^ 32 →
        let record := j.winBase v.qwin + v.fld 52 8 + 4096 + 4096 * (v.index % 2 ^ v.qlog)
        let cur := s.readNat (v.slotAddr j i + 36) 4
        let done := s.readNat (record + 68 + 8 * i) 1 % 2 == 1 || decide (v.maxCtx ≤ cur + 1) || q.stopped
        ∃ t, exec (.tokenRingPoll job svc) s = .next t ∧
          Output.tokens c.port c.sid q.client q.num 0 done [BitVec.ofNat 32 (s.readNat (record + 64 + 8 * i) 4)] ∈ t.out ∧
          after t (fun w => w.index = v.index + 1 ∧ (done = true → w.requests = []))))

/-- R219, R442 to R447, R449 to R452, R460: halts and health. A cause, a HALT record or a lost peer stops the job, and a HALT that came along the row goes on along
the column; a late duplicate is counted; a retention ends with event 0x9F; a second's withheld check events are told by one event 0x18; every minute T
decays, takes its contributions, and the score follows; every hour T and the lasting faults go to the journal.
The model's readings of duplicates and of the decay: log 53, 59. -/
def Obligations.HaltsAndHealth : Prop :=
  ∀ (s : State), Safety.regsCanonical s →
    (∀ h rest j, s.halts = h :: rest → s.job? h.job = some j → h.job ≠ 0 → s.resetAfterJobs = false →
      ∃ t, exec .jobHalt s = .next t ∧ Safety.JobStopped s t j) ∧
    (∀ m j, s.serving = true → s.job? m.job = some j → m.job ≠ 0 → s.resetAfterJobs = false → ∃ t, exec (.halt m) s = .next t ∧ Safety.JobStopped s t j ∧
      ((s.reg Csr.fabId).bit 63 = true → chipY m.origin.toNat = chipY s.chip → m.origin.toNat ≠ s.chip → ∀ y, y < s.gridY →
        chipAt (chipX s.chip) y ≠ s.chip → Output.halt (chipAt (chipX s.chip) y) m ∈ t.out)) ∧
    (∀ m, s.serving = true → s.job? m.job = none → m.job ∈ s.halted → ∃ t, exec (.halt m) s = .next t ∧
      t.fld Csr.hltComp 47 40 = min (s.fld Csr.hltComp 47 40 + 1) 255 ∧ Safety.Frame s t [Csr.hltComp]) ∧
    (∀ (job : Word) (chip : BitVec 16) (j : Job), s.serving = true → s.job? job = some j → job ≠ 0 → chip.toNat ∈ s.haltSet job → chip.toNat ≠ s.chip →
      s.hopPaths s.chip chip.toNat = [] → s.resetAfterJobs = false → ∃ t, exec (.peerLost job chip) s = .next t ∧ Safety.JobStopped s t j) ∧
    (∀ (job : Word) (base : Nat) (r : Retained), s.retained.find? (fun r => r.job == job && r.base == base) = some r →
      r.since + s.fld Csr.hltCtl 7 0 * 60 * 1000000000 ≤ s.now → ∃ t, exec (.retentionEnd job base) s = .next t ∧ Safety.Raised t 0x9F job ∧
        (∀ y, y ∈ t.retained ↔ y ∈ s.retained ∧ ¬ (y.job = job ∧ y.base = base)) ∧ Safety.Frame s t []) ∧
    (∃ t, exec .eventRateSecond s = .next t ∧ t.checkRaised = 0 ∧ t.checkWithheld = 0 ∧ t.eccRaised = 0 ∧ t.lateRaised = 0 ∧ Safety.Frame s t [] ∧
      (s.checkWithheld ≠ 0 → Safety.Raised t 0x18 0)) ∧
    (s.pipRuns = true →
      let x := min tMax (tDecay s.health.t + s.health.added * 2 ^ 16)
      let score := 1000 - x / 2 ^ 16 - s.healthL - s.healthE
      ∃ t, exec .healthEvaluation s = .next t ∧ t.health.t = x ∧ t.health.added = 0 ∧ t.fld Csr.hltScore 9 0 = score ∧
        t.fld Csr.hltScore 57 56 = (if 800 ≤ score then 0 else if 500 ≤ score then 1 else 2) ∧ Safety.Frame s t [Csr.hltScore, Csr.hltComp] ∧
        (t.fld Csr.hltScore 57 56 ≠ s.fld Csr.hltScore 57 56 → Safety.Raised t 0x1A 0)) ∧
    (s.pipRuns = true → ∃ t, exec .healthJournal s = .next t ∧ t.flash.jrnT = s.health.t ∧ t.flash.jrnLasting = s.health.lasting ∧
      (∃ r, t.flash.journal.head? = some r ∧ r.type = 7 ∧ r.body.head? = some (BitVec.ofNat 64 s.health.t)) ∧ Safety.Frame s t [Csr.jrnStat])

/-- R453 to R457, R460, R461: drills and the acquittal test. A drill of an enabled kind falls due at an eligible unit; one that goes undetected fences its unit's
core, or leaves the module degraded, counts as a lasting fault and raises event 0x19; ACQUIT starts a test, whose stages follow; PASS makes the module proven and
returns FENCED cores, FAIL fences the failed unit; event 0x1B. Readings of corners of drills: log 58. -/
def Obligations.DrillsAndAcquittal : Prop :=
  ∀ (s : State), Safety.regsCanonical s →
    (∀ (kind : Fin 12) (unit : Nat), s.serving = true → (s.reg Csr.drlCtl).bit kind.val = true → s.drillUnit kind.val unit = true →
      (∀ d ∈ s.drills, ¬ (d.kind = kind.val ∧ d.unit = unit)) → s.drillDue kind.val unit = true →
      ∃ t, exec (.drillFire kind unit) s = .next t ∧ t.drills = s.drills ++ [{ kind := kind.val, unit := unit, since := s.now, injected := false }] ∧
        t.drillDue kind.val unit = false ∧ (∀ k u, k ≠ kind.val ∨ u ≠ unit → t.drillDue k u = s.drillDue k u) ∧
        (kind.val < 10 → t = { s with drills := t.drills, health := t.health }) ∧
        (10 ≤ kind.val → t.fld (Csr.drlCnt kind.val) 31 0 = min (s.fld (Csr.drlCnt kind.val) 31 0 + 1) (2 ^ 32 - 1) ∧
          Safety.Frame s t [Csr.drlCnt kind.val])) ∧
    (∀ (kind : Fin 12) (unit : Nat) (d : Drill) (pair : Option (Fin 8 × Fin 32)), s.drills.find? (fun d => d.kind == kind.val && d.unit == unit) = some d →
      s.drillOver d = true → ∃ t, exec (.drillEscape kind unit pair) s = .next t ∧ Safety.Raised t 0x19 0 ∧ s.now ∈ t.health.lasting ∧
        (∀ d ∈ t.drills, ¬ (d.kind = kind.val ∧ d.unit = unit)) ∧ t.fld Csr.drlStat 47 32 = min (s.fld Csr.drlStat 47 32 + 1) (2 ^ 16 - 1) ∧
        (∃ r, t.flash.journal.head? = some r ∧ r.type = 5) ∧
        (7 ≤ kind.val → t.health.escaped = true ∧ t.cores = s.cores ∧ t.halts = s.halts) ∧
        (∀ n : Fin 32, kind.val < 7 → unit = n.val → (kind.val < 5 → (t.cores[n]).run = .fenced) ∧
          (∀ m : Fin 32, m ≠ n → t.cores[m] = s.cores[m]) ∧ (5 ≤ kind.val → t.cores = s.cores) ∧
          ((s.cores[n]).job ≠ 0 → ∃ h ∈ t.halts, h.job = (s.cores[n]).job ∧ h.cause = 11))) ∧
    (∀ k x id rest, Safety.Due s k x 0x50 id rest → s.mstate = mReady → s.jobs = [] → s.admissions = [] → s.acquittal = none →
      ∃ t, exec (.acquit k) s = .next t ∧ Safety.Answered t k x id rest { status := 0, body := [] } ∧ t.acquittal = some 0 ∧ t.fld Csr.drlStat 63 58 = 16 ∧
        Safety.Frame s t [Csr.drlStat]) ∧
    (∀ k, s.acquittal = some k → s.mstate = mReady → k < 5 → ∃ t, exec .acquittalStageDone s = .next t ∧ t.acquittal = some (k + 1) ∧ Safety.SameMemory s t ∧
      (k = 0 → ∀ n : Fin 32, (t.cores[n]).run = (if (s.cores[n]).run = .gated then .idle else (s.cores[n]).run)) ∧
      (k ≠ 0 → t.cores = s.cores) ∧ (k = 4 → ∀ d, d < 11 → (t.reg Csr.drlStat).bit d = true)) ∧
    (s.acquittal = some 5 → s.mstate = mReady → ∃ t, exec (.acquittalVerdict none) s = .next t ∧ t.acquittal = none ∧ Safety.Raised t 0x1B 0 ∧
      t.health.t = 0 ∧ t.health.escaped = false ∧ t.flash.unproven = false ∧ (t.reg Csr.hltScore).bit 63 = false ∧ t.fld Csr.drlStat 63 58 = 32 ∧
      (∀ n : Fin 32, (t.cores[n]).run = (if (s.cores[n]).run = .fenced then .gated else (s.cores[n]).run)) ∧ Safety.SameMemory s t ∧
      Safety.SameRegisters s t [Csr.hltScore, Csr.hltComp, Csr.drlStat, Csr.jrnStat]) ∧
    (∀ k u, s.acquittal = some k → s.mstate = mReady → k ≤ 5 → ∃ t, exec (.acquittalVerdict (some u)) s = .next t ∧ t.acquittal = none ∧ Safety.Raised t 0x1B 0 ∧
      s.now ∈ t.health.lasting ∧ t.fld Csr.drlStat 63 58 = 49 + k ∧ Safety.SameMemory s t ∧
      (∀ n, u = .core n → (s.cores[n]).run ≠ .absent → (t.cores[n]).run = .fenced) ∧
      (∀ st ch, u = .channel st ch → (t.reg (Csr.hbmChanMap st.val)).bit (32 + ch.val) = true))

/-- R379 to R393, R477: the power manager. Above 3,300 W every core stops; in a slot the cores whose stopped slots it is are stopped; a measurement is shown and
50 ms of disagreement enter measured mode, 10 s of agreement end it, event 0x53; calibration completes with event 0x54; at a control interval the ceiling, the
duty and the mode are set, event 0x51 when pausing begins; a core moves one P-state; a droop window lowers its ceiling, event 0x5B, 10 ms without one raise it.
Readings of slots and ceilings: log 46. -/
def Obligations.PowerManager : Prop :=
  ∀ (s : State), Safety.regsCanonical s →
    let hbmRegs := (List.range 8).map Csr.hbmStat
    (∀ estimate, s.mainOn = true → ∃ t, exec (.estimateUpdate estimate) s = .next t ∧ t = { s with power := { s.power with
      peakStop := decide (3300 < estimate) || (s.power.peakStop && decide (3300 ≤ estimate)) } }) ∧
    (s.mainOn = true → ∃ t, exec .pauseSlot s = .next t ∧ t = { s with power := { s.power with stopped := t.power.stopped } } ∧
      ∀ n : Fin 32, t.power.stopped.getLsbD n.val = ((s.cores[n]).run == .running &&
        (s.power.peakStop || decide ((s.now / 1000 % 64 + 64 - 2 * n.val % 64) % 64 < 64 - s.runSlots n.val)))) ∧
    (∀ measured estimate (mainv maina auxv : BitVec 16), s.mainOn = true →
      let apart := 12 * measured < (estimate - measured + (measured - estimate)) * 100
      ∃ t, exec (.powerMeasurement measured estimate mainv maina auxv) s = .next t ∧ t.fld Csr.powStat 23 12 = min 4095 measured ∧
        t.fld Csr.powStat 11 0 = min 4095 estimate ∧ t.fld Csr.pipStat 63 48 = mainv.toNat ∧ t.fld Csr.pipStat 47 32 = maina.toNat ∧
        t.fld Csr.pipStat 31 16 = auxv.toNat ∧ t.power.disagree = (if apart then s.power.disagree + 1 else 0) ∧
        Safety.Frame s t [Csr.pipStat, Csr.powStat, Csr.powCnt] ∧
        (apart → 499 ≤ s.power.disagree → (t.reg Csr.powStat).bit 47 = true) ∧
        (apart → 499 ≤ s.power.disagree → (s.reg Csr.powStat).bit 47 = false → Safety.Raised t 0x53 0)) ∧
    ((s.reg Csr.powStat).bit 47 = true → s.power.agreeSince + 10000000000 ≤ s.now → ∃ t, exec .measuredModeExit s = .next t ∧
      (t.reg Csr.powStat).bit 47 = false ∧ Safety.Raised t 0x53 0 ∧ Safety.Frame s t [Csr.powStat]) ∧
    (s.mainOn = true → s.power.calibrated = false → 10000000000 ≤ s.power.runNs → ∃ t, exec .calibrationComplete s = .next t ∧
      t.power.calibrated = true ∧ t.flash.powCal = true ∧ (t.reg Csr.powStat).bit 48 = false ∧ Safety.Raised t 0x54 0 ∧ Safety.Frame s t [Csr.powStat]) ∧
    (∀ (pred : Vector Nat 13) (duty : Vector Nat 64) (eq : Fin 13), s.serving = true →
      let mode := (s.reg Csr.powCtl).bit 32
      let top := if mode then (if (s.reg Csr.powCtl).bit 40 then eq.val else 0) else 3
      let cur := s.fld Csr.powStat 59 56
      let best := s.bestState pred top
      let next := if best < cur then max top (cur - 1) else best
      let k := if s.target < pred[12] * 100 then s.bestDuty duty else 64
      ∃ t, exec (.powerControlInterval pred duty eq) s = .next t ∧ t.power.mode = mode ∧ t.power.eq = (s.reg Csr.powCtl).bit 40 ∧
        t.power.align = min 10 (s.fld Csr.powCtl 47 44) ∧
        t.fld Csr.powStat 59 56 = (if s.target < s.fld Csr.powStat 23 12 * 100 then min 12 (max next (cur + 1)) else next) ∧
        t.fld Csr.powStat 55 49 = k ∧ (k < 64 → s.fld Csr.powStat 55 49 = 64 → Safety.Raised t 0x51 0) ∧
        t.power.pausing = (decide (s.target < pred[12] * 100) && decide (s.target < duty[0] * 100)) ∧ Safety.Frame s t (Csr.powStat :: hbmRegs)) ∧
    (∀ n : Fin 32, s.mainOn = true → s.corePresent n.val = true →
      let o := Csr.powCore n.val
      let ps := s.fld o 63 60
      (ps < s.wantedState n.val → ∃ t, exec (.pstateStepDone n) s = .next t ∧ t.fld o 63 60 = ps + 1 ∧ Safety.Frame s t [o, Csr.powStat]) ∧
      (s.wantedState n.val < ps → ∃ t, exec (.pstateStepDone n) s = .next t ∧ t.fld o 63 60 = ps - 1 ∧ Safety.Frame s t [o, Csr.powStat]) ∧
      (∀ cycles excess, ∃ t, exec (.droopDetect n cycles excess) s = .next t ∧ t.fld o 31 0 = min (s.fld o 31 0 + cycles) (2 ^ 32 - 1) ∧
        t.fld o 55 52 = (if excess then min 12 (ps + 1) else s.fld o 55 52) ∧ Safety.Frame s t [o, Csr.powCnt] ∧
        (excess = true → s.power.droopEventAt[n] = none → Safety.Raised t 0x5B 0)) ∧
      (s.topState < s.fld o 55 52 → s.power.droopAt[n] + 10000000 ≤ s.now → ∃ t, exec (.droopCeilingRise n) s = .next t ∧
        t.fld o 55 52 = s.fld o 55 52 - 1 ∧ t.power.droopAt[n] = s.now ∧ Safety.Frame s t [o]))

/-- R394 to R400, R402, R403: pools and heat. At an epoch a member's budget takes force and its report goes along its row; a report takes its place and goes on
along the column, or excludes a member whose cap has changed, event 0x59; budgets follow from an epoch's reports, another hash disables the pool; a site reads the
higher of its sensors, events 0x5A and 0x5E, and 110 °C twice shuts the module down, event 0x57; ceilings and pauses follow temperature; the hold ends.
The hash and the bookkeeping of exclusions are the model's: log 44, 47, 48. -/
def Obligations.PoolsAndHeat : Prop :=
  ∀ (s : State), Safety.regsCanonical s →
    let cap := s.fld Csr.powCtl 15 0
    (s.mainOn = true → s.inPool = true → s.fld Csr.poolStat 63 61 ≠ 3 →
      ∃ t m, exec .poolEpoch s = .next t ∧ (∀ c ∈ s.blockLine true ++ s.blockLine false, Output.poolReport c m ∈ t.out) ∧ m.chip = BitVec.ofNat 16 s.chip ∧ m.base = cap ∧
        m.w = s.pool.wait ∧ m.hash = s.poolHash ∧ t.power.budget = some m.b ∧ t.fld Csr.powStat 35 24 = m.b % 2 ^ 12 ∧ t.pool.runCycles = 0 ∧
        (s.pool.members.find? (fun y => y.chip == s.chip) = none → m.b = cap) ∧
        (∀ y, s.pool.members.find? (fun y => y.chip == s.chip) = some y → s.pool.base = cap → s.pool.excluded = [] →
          (∃ z ∈ s.pool.members, z.chip ≠ s.chip ∧ z.arrived = true) → m.b = s.pool.budget) ∧
        Safety.Frame s t [Csr.powStat, Csr.poolStat]) ∧
    (∀ m : PoolMsg, s.inPool = true → s.inBlock m.chip.toNat = true →
      ((∀ y ∈ s.pool.members, y.chip = m.chip.toNat → y.base = m.base) → ∃ t, exec (.poolReport m) s = .next t ∧
        { chip := m.chip.toNat, w := m.w, b := m.b, base := m.base, hash := m.hash, missed := 0, arrived := true } ∈ t.pool.members ∧
        (chipY m.chip.toNat = chipY s.chip → ∀ c ∈ s.blockLine false, Output.poolReport c m ∈ t.out) ∧ Safety.Frame s t []) ∧
      ((∃ y ∈ s.pool.members, y.chip = m.chip.toNat ∧ y.base ≠ m.base) → ∃ t, exec (.poolReport m) s = .next t ∧ Safety.Raised t 0x59 0 ∧
        m.chip.toNat ∈ t.pool.excluded ∧ (∀ y ∈ t.pool.members, y.chip ≠ m.chip.toNat) ∧ Safety.Frame s t [])) ∧
    (let here := s.pool.members.filter (fun y => y.arrived)
     s.inPool = true → here ≠ [] → here.length < 2 ^ 13 →
      ((∀ a ∈ here, ∀ b ∈ here, a.hash = b.hash) → ∃ t, exec .poolBudgetCompute s = .next t ∧ t.fld Csr.poolStat 63 61 = 2 ∧
        t.fld Csr.poolStat 60 48 = here.length ∧ t.pool.members = poolBudgets (s.fld Csr.poolCtl 11 0) (s.fld Csr.poolCtl 23 12) s.pool.members ∧
        (∀ y, t.pool.members.find? (fun y => y.chip == s.chip) = some y → t.pool.budget = y.b) ∧ Safety.Frame s t [Csr.poolStat]) ∧
      ((∃ a ∈ here, ∃ b ∈ here, a.hash ≠ b.hash) → ∃ t, exec .poolBudgetCompute s = .next t ∧ t.fld Csr.poolStat 63 61 = 3 ∧ t.pool.members = [] ∧
        t.power.budget = none ∧ Safety.Raised t 0x59 0 ∧ Safety.Frame s t [Csr.poolStat, Csr.powStat])) ∧
    (∀ (site : Fin 57) (a b : Option Int), s.pins.aux = true →
      let o := Csr.thmSens site.val
      let regs := o :: (if 32 ≤ site.val ∧ site.val < 40 then [Csr.hbmStat (site.val - 32)] else [])
      (a = none → b = none → ∃ t, exec (.temperatureSample site a b) s = .next t ∧ t.fld o 63 62 = 2 ∧ site.val ∉ t.power.hot ∧ Safety.Frame s t [o] ∧
        (s.fld o 63 62 ≠ 2 → Safety.Raised t 0x5A 0)) ∧
      (∀ v : Int, (a = some v ∧ b = none) ∨ (a = none ∧ b = some v) ∨ (∃ x y, a = some x ∧ b = some y ∧ v = max x y) → -32768 ≤ v → v ≤ 32767 →
        (v < 1760 ∨ site.val ∉ s.power.hot ∨ s.mainOn = false → ∃ t, exec (.temperatureSample site a b) s = .next t ∧ t.siteTemp site.val = v ∧
          t.fld o 63 62 = (if a.isSome && b.isSome then 0 else 1) ∧ (BitVec.ofNat 16 (t.fld o 39 24)).toInt = max (BitVec.ofNat 16 (s.fld o 39 24)).toInt v ∧
          (site.val ∈ t.power.hot ↔ 1760 ≤ v) ∧ Safety.Frame s t regs ∧
          (32 ≤ site.val → site.val < 40 → s.stackPresent (site.val - 32) = true →
            t.fld (Csr.hbmStat (site.val - 32)) 63 56 = (max 0 (min 255 (v / 16))).toNat) ∧
          (site.val = 55 → v < 240 ∨ 640 < v → s.power.inletOut = false → Safety.Raised t 0x5E 0)) ∧
        (1760 ≤ v → site.val ∈ s.power.hot → s.mainOn = true → ∃ t, exec (.temperatureSample site a b) s = .next t ∧ t.mstate = mTripped ∧
          t.pins.thermTrip = true ∧ t.pins.pwrGood = false ∧ t.jobs = [] ∧ t.mem = [] ∧ Safety.Raised t 0x57 0 ∧ t.flash.held = true ∧
          t.flash.trips = min 255 (s.flash.trips + 1) ∧ t.health.tripAt = some s.now ∧ (∃ r, t.flash.journal.head? = some r ∧ r.type = 3) ∧
          t.fld Csr.thmTrip 55 48 = site.val))) ∧
    (s.mainOn = true → ∃ t, exec .thermalControl s = .next t ∧
      (∀ n, n < 32 → s.corePresent n = true → t.fld (Csr.powCore n) 59 56 = (s.thermalCore n).1 ∧ (s.siteValid n = false → t.fld (Csr.powCore n) 59 56 = 12)) ∧
      (∀ n, n < 32 → s.corePresent n = true → t.power.throttled.getLsbD n = (decide (s.topState < (s.thermalCore n).1) || decide (0 < (s.thermalCore n).2))) ∧
      (∀ i : Fin 16, t.power.pauses[i] = s.sitePause i.val) ∧
      (∀ k, k < 8 → s.stackPresent k = true → t.fld (Csr.hbmStat k) 47 40 = max (s.sitePause k) (if s.power.pausing then 204 else 0)) ∧
      (t.power.throttled ≠ s.power.throttled → s.power.throttleAt = none → Safety.Raised t 0x55 0) ∧
      ((∃ i : Fin 16, (s.power.pauses[i] = 0) ≠ (s.sitePause i.val = 0)) → Safety.Raised t 0x56 0) ∧
      Safety.Frame s t ((List.range 32).map Csr.powCore ++ (List.range 8).map Csr.hbmStat)) ∧
    (s.mstate = mTripped → s.coolEnough = true → s.mainAllowed = true → s.update = none → ∃ t, exec .tripHoldEnd s = .next t ∧ Safety.BootBegun s t 4 ∧
      (slotReason s.flash = 0 → t.pins.pwrGood = true ∧ t.mstate = mBoot))

/-- R405 to R409: fabric time. A chip announces the best candidate it knows and is ROOT when that is itself; a better candidate changes the root, event 0x5C; an
exchange moves the state, slews FT, or steps it forward once in ACQUIRE; 16 good ones lock, event 0x5C; 5 ms without one lead to HOLDOVER; PTP disciplines
the root. The expiry of candidates is the model's reading: log 49. -/
def Obligations.FabricTime : Prop :=
  ∀ (s : State), Safety.regsCanonical s →
    (s.mainOn = true → 8 ≤ s.boot.stage → ∃ t, exec .ftAnnounce s = .next t ∧ t.time.best = s.bestRoot ∧ t.fld Csr.ftStat 55 40 = s.bestRoot.2 % 2 ^ 16 ∧
      Safety.Frame s t [Csr.ftStat] ∧ t.ft = s.ft ∧ (s.ownRoot = false → ∀ c ∈ s.neighbours, Output.announce c s.bestRoot ∈ t.out) ∧
      (s.ownRoot = true ∨ s.bestRoot.2 = s.chip → t.ftState = ftRoot) ∧ (s.time.best.2 ≠ s.bestRoot.2 → Safety.Raised t 0x5C 0)) ∧
    (∀ (chip : BitVec 16) (prio : BitVec 4) (root : BitVec 16), s.mainOn = true → 8 ≤ s.boot.stage →
      ∃ t, exec (.rootAnnouncement chip prio root) s = .next t ∧ (chip.toNat, (prio.toNat, root.toNat), s.now) ∈ t.time.heard ∧
        Safety.Frame s t [Csr.ftStat] ∧ t.ft = s.ft ∧
        (s.time.heard = [] → s.ownRoot = false → better (prio.toNat, root.toNat) s.ownCandidate = true →
          t.time.best = (prio.toNat, root.toNat) ∧ t.fld Csr.ftStat 55 40 = root.toNat ∧ (s.time.best.2 ≠ root.toNat → Safety.Raised t 0x5C 0))) ∧
    (∀ (t1 t2 t3 t4 : Int) (freq : BitVec 16), s.mainOn = true → s.time.parent.isSome = true →
      let twice := (t2 - t1) - (t4 - t3)
      let off := twice / 2
      let step := twice > 8000 ∧ (s.ftState = ftFree ∨ s.ftState = ftLocked ∨ s.ftState = ftHoldover ∨ (s.ftState = ftAcquire ∧ s.time.stepped = false))
      ∃ t, exec (.ftExchange t1 t2 t3 t4 freq) s = .next t ∧ t.fld Csr.ftStat 15 0 = freq.toNat ∧ t.time.lastExchange = s.now ∧ Safety.Frame s t [Csr.ftStat] ∧
        (step → t.ft = s.ft + BitVec.ofInt 64 (off / 4) ∧ t.time.slew = 0) ∧ (¬ step → t.ft = s.ft ∧ t.time.slew = off / 4) ∧
        (s.ftState = ftFree → t.ftState = ftAcquire) ∧
        (s.ftState = ftLocked → t.ftState = if twice.natAbs > 8000 then ftAcquire else ftLocked) ∧
        (s.ftState = ftHoldover → twice.natAbs > 8000 → t.ftState = ftAcquire) ∧
        (s.ftState = ftAcquire ∨ s.ftState = ftHoldover → twice.natAbs < 16 → 15 ≤ s.time.good → t.ftState = ftLocked ∧ Safety.Raised t 0x5C 0) ∧
        (s.ftState = ftAcquire → 16 ≤ twice.natAbs → t.ftState = ftAcquire ∧ t.time.good = 0)) ∧
    (s.mainOn = true → s.ftState = ftLocked → s.time.lastExchange + 5000000 ≤ s.now → ∃ t, exec .ftHoldover s = .next t ∧ Safety.Raised t 0x5C 0 ∧
      Safety.Frame s t [Csr.ftStat] ∧ t.ft = s.ft ∧ (s.ownRoot = false → s.bestRoot.2 ≠ s.chip → t.ftState = ftHoldover)) ∧
    (∀ (j : Fin 8) (ptp : Word), s.ftState = ftRoot → (s.reg Csr.ftCtl).bit 0 = true → (s.port j.val).up = true →
      ∃ t, exec (.ptpMessage j ptp) s = .next t ∧ (t.reg Csr.ftStat).bit 60 = true ∧ Safety.Frame s t [Csr.ftStat] ∧
        (s.time.ptpLocked = false → s.ft.toNat + 1000000 < ptp.toNat → t.ft = ptp ∧ t.time.slew = 0) ∧
        (s.time.ptpLocked = true ∨ ptp.toNat ≤ s.ft.toNat + 1000000 → t.ft = s.ft ∧ t.time.slew = (ptp.toNat : Int) - s.ft.toNat))

/-- R402, R409, R423, R427, R483 to R489, R498: power and reset pins. Auxiliary power starts a boot with CAUSE 0, fabric time goes on, and its loss leaves OFF; MAIN_EN and
the 48 V input start the main boot when nothing holds it off; MAIN_EN low or an input outside its range end main power, after an overvoltage until MAIN_EN is driven
high again; RESET_N holds the module in reset, and its release boots with CAUSE 1. That a run begins without power is the model's choice: log 9, 50. -/
def Obligations.PowerAndResetPins : Prop :=
  ∀ (s : State), Safety.regsCanonical s →
    let mainGone (t : State) : Prop := t.jobs = [] ∧ t.mem = [] ∧ (∀ k : Fin 64, t.sessions[k] = none) ∧
      (∀ n : Fin 32, (t.cores[n]).run = if (s.cores[n]).run = .absent then .absent else .gated)
    let mayStart : Prop := s.pins.aux = true ∧ s.pins.resetLow = false ∧ s.pins.pwrGood = false ∧ s.boot.recovering = false ∧ s.mstate = mStandby ∧
      s.running.isSome = true
    let started (t : State) : Prop := t.mstate = mBoot ∧ t.pins.pwrGood = true ∧ t.boot.stage = 0 ∧ t.boot.since = s.now ∧ t.running = s.running
    let stopped (t : State) : Prop := t.mstate = mStandby ∧ t.pins.pwrGood = false ∧ mainGone t ∧ t.flash.savedFt = s.ft
    (∀ slot elapsed, s.pins.aux = false → s.update = none →
      (s.pins.resetLow = false → ∃ t, exec (.auxPowerApplied slot elapsed) s = .next t ∧ t.pins.aux = true ∧ t.pins.slotId = slot ∧
        t.ft = (if s.flash.calOk then s.flash.savedFt + BitVec.ofNat 64 elapsed else 0) ∧
        Safety.BootBegun { s with pins := { s.pins with pwrGood := false } } t 0 ∧
        (slotReason s.flash = 0 → s.pins.mainIn = true → s.pins.mainEn = true → s.pins.needEdge = false → t.pins.pwrGood = true ∧ t.mstate = mBoot)) ∧
      (s.pins.resetLow = true → ∃ t, exec (.auxPowerApplied slot elapsed) s = .next t ∧ t.pins.aux = true ∧ t.mstate = mStandby ∧ t.running = s.running)) ∧
    (s.pins.aux = true → ∃ t, exec .auxPowerLost s = .next t ∧ t.mstate = mOff ∧ t.pins.aux = false ∧ t.pins.pwrGood = false ∧ t.running = none ∧ mainGone t ∧
      t.flash.savedFt = s.ft) ∧
    (mayStart → s.pins.mainIn = true → s.pins.mainEn = false → ∃ t, exec .mainEnHigh s = .next t ∧ started t) ∧
    (mayStart → s.pins.mainEn = true → s.pins.needEdge = false → ∃ t, exec .mainInputInRange s = .next t ∧ started t) ∧
    (s.pins.pwrGood = true → (∃ t, exec .mainEnLow s = .next t ∧ t.pins.mainEn = false ∧ stopped t) ∧
      (∃ t, exec .inputUndervoltage s = .next t ∧ t.pins.mainIn = false ∧ stopped t) ∧
      (∃ t, exec .inputOvervoltage s = .next t ∧ t.pins.mainIn = false ∧ t.pins.needEdge = true ∧ stopped t)) ∧
    (s.pins.pwrGood = false → exec .inputOvervoltage s = .next { s with pins := { s.pins with mainIn := false, needEdge := true } }) ∧
    (s.pins.aux = true → s.pins.resetLow = false → ∃ t, exec .resetNLow s = .next t ∧ t.pins.resetLow = true ∧ t.pins.pwrGood = s.pins.pwrGood ∧
      t.running = none ∧ mainGone t ∧ t.mstate = (if s.pins.pwrGood then mBoot else if s.mstate = mTripped then mTripped else mStandby)) ∧
    (s.pins.aux = true → s.pins.resetLow = true → s.update = none → ∃ t, exec .resetNRelease s = .next t ∧ t.pins.resetLow = false ∧ Safety.BootBegun s t 1)

/-- R2, R85, R377, R403, R417, R424 to R427, R439, R475, R483: the main boot. Each row of the boot table completes in turn: identity and versions are set and lost items reported,
cores that fail their test are FENCED and the others GATED, channels that fail are mapped out; then the module is READY, or HELD with event 0x58, with event 0x70,
and the fused security version rises where the image asks for it, event 0x66. Readings of corners of a boot: log 50, 51, 52. -/
def Obligations.MainBoot : Prop :=
  ∀ (s : State) (i : Image), Safety.regsCanonical s → s.running = some i → s.mstate = mBoot → s.pins.pwrGood = true → s.pins.resetLow = false →
    (∀ f : BootFindings, s.boot.recovering = false → s.boot.stage < 8 → ∃ t, exec (.bootStageDone f) s = .next t ∧ t.boot.stage = s.boot.stage + 1 ∧
      t.mstate = mBoot ∧ Safety.SameMemory s t ∧ t.running = some i ∧
      (s.boot.stage = 0 → (t.reg Csr.secStat).bit 55 = f.pufOk ∧ t.fld Csr.fwVer 63 48 = i.major % 2 ^ 16 ∧ t.fld Csr.fwVer 15 0 = i.svn % 2 ^ 16 ∧
        t.fld Csr.fabLvl 7 0 = i.fpl % 2 ^ 8 ∧ ((f.configOk = false ∨ s.flash.cfgOk = false) → Safety.Raised t 0x65 0) ∧
        (f.pufOk = false → Safety.Raised t 0x64 0) ∧ ((f.calOk = false ∨ s.flash.calOk = false) → Safety.Raised t 0x78 0 ∧ t.ft = 0)) ∧
      (s.boot.stage = 3 → ∀ n : Fin 32, (t.cores[n]).run = (if (s.cores[n]).run = .absent then .absent else if f.coreFails.getLsbD n.val then .fenced
        else .gated)) ∧
      (s.boot.stage = 4 → (∀ k c, k < 8 → c < 32 → s.stackPresent k = true → (k, c) ∈ f.chanFails → (t.reg (Csr.hbmChanMap k)).bit c = true) ∧
        t.reg Csr.capHbmBytes = Word.place ((t.goodChannels 0 4 + t.goodChannels 4 8) * channelBytes) 40 0 ∧
        ((∃ k c, k < 8 ∧ c < 32 ∧ s.stackPresent k = true ∧ (k, c) ∈ f.chanFails) → Safety.Raised t 0x26 0)) ∧
      (s.boot.stage ∈ [2, 5, 6, 7] → t = { s with boot := t.boot })) ∧
    (s.boot.stage = 8 → s.lanesTried = true →
      let held := s.flash.held = true ∨ (s.reg Csr.secStat).bit 55 = false
      let raise := i.raiseSvn = true ∧ s.flash.svn < i.svn
      ∃ t, exec .bootComplete s = .next t ∧ (held → t.mstate = mHeld ∧ Safety.Raised t 0x58 0) ∧ (¬ held → t.mstate = mReady) ∧ Safety.Raised t 0x70 0 ∧
        t.boot.watchdog = false ∧ t.flash.wdf = 0 ∧ t.flash.calOk = true ∧ (raise → t.flash.svn = i.svn ∧ Safety.Raised t 0x66 0) ∧
        (¬ raise → t.flash.svn = s.flash.svn) ∧ t.cores = s.cores ∧ Safety.SameMemory s t)

/-- R414, R416, R423, R426, R428 to R432: firmware. RESET answers and boots with CAUSE 2, at once or when no job runs; UPDATE answers the object's status, and
writes a good one with event 0x74, or raises 0x76; the written object waits for the next reset, event 0x75, and a mismatch is repeated once; the watchdog
resets with CAUSE 3; recovery tries its ports in turn, waits between rounds, writes a good image and resets with CAUSE 5.
Readings of corners of updates and of the watchdog: log 50, 54. -/
def Obligations.FirmwareUpdates : Prop :=
  ∀ (s : State) (k : Fin 64) (x : Session) (id : BitVec 32) (rest : List (BitVec 32 × Nat)), Safety.regsCanonical s →
    (Safety.Due s k x 0x32 id rest → s.update = none → ∃ t, exec (.reset k 0) s = .next t ∧
      Output.response x.ch.port x.ch.sid id { status := 0, body := [] } ∈ t.out ∧ Safety.BootBegun s t 2) ∧
    (Safety.Due s k x 0x32 id rest → s.jobs ≠ [] → s.resetWaits = false → ∃ t, exec (.reset k 1) s = .next t ∧
      Safety.Answered t k x id rest { status := 0, body := [] } ∧ t = { s with out := t.out, sessions := t.sessions, resetAfterJobs := true }) ∧
    (∀ (body : List Byte) (o : FetchedObject), Safety.Due s k x 0x40 id rest → updateFormOk body = true →
      (refOf body 64).len ≤ updateLimit (bodyNat body 0 1) → s.update = none → s.resetAfterJobs = false → s.reaches (serverAt body 32) = true →
      let st := s.updateStatus (bodyNat body 0 1) o
      ∃ t, exec (.update k body (some o)) s = .next t ∧ Safety.Answered t k x id rest { status := st, body := [] } ∧
        Safety.Frame s t (Csr.fwStat :: (List.range 8).map Csr.ethPortStat) ∧
        (st = 0 → t.update = some { target := bodyNat body 0 1, body := o.body, repeated := false } ∧ t.fld Csr.fwStat 53 52 = 3 ∧ Safety.Raised t 0x74 0) ∧
        (st ≠ 0 → t.update = none ∧ Safety.Raised t 0x76 0)) ∧
    (∀ u : Update, s.update = some u → s.boot.recovering = false → s.resetWaits = false → s.resetAfterJobs = false →
      (∃ t, exec (.updateWriteDone true) s = .next t ∧ t.update = none ∧ t.fld Csr.fwStat 53 52 = 0 ∧ Safety.Raised t 0x75 0 ∧ Safety.Frame s t [Csr.fwStat] ∧
        (∀ i, u.body = .image i → t.flash = { s.flash with slot := some i } ∧ (t.reg Csr.fwStat).bit 51 = true) ∧
        (∀ c, u.body = .settings c → t.flash = { s.flash with newSettings := some c }) ∧
        (∀ p, u.body = .plan p → t.flash = { s.flash with newPlan := some p })) ∧
      (u.repeated = false → ∃ t, exec (.updateWriteDone false) s = .next t ∧ t = { s with update := some { u with repeated := true } }) ∧
      (u.repeated = true → ∃ t, exec (.updateWriteDone false) s = .next t ∧ t.update = none ∧ Safety.Raised t 0x76 0 ∧
        (∀ i, u.body = .image i → t.flash.slot = none))) ∧
    (s.boot.watchdog = true → s.mstate = mBoot → s.pins.resetLow = false → s.boot.since + 60000000000 ≤ s.now → s.update = none →
      ∃ t, exec .bootWatchdog s = .next t ∧ t.flash.wdf = s.flash.wdf + 1 ∧ Safety.Raised t 0x77 0 ∧
        Safety.BootBegun { s with flash := { s.flash with wdf := s.flash.wdf + 1 } } t 3) ∧
    (s.boot.recovering = true → s.boot.waiting = false → s.pins.pwrGood = true → s.update = none →
      (∃ t, exec (.recoveryFetch none) s = .next t ∧
        t = { s with boot := t.boot, out := .fetchImage (recoveryPort s.boot.port) s.flash.recoveryServer :: s.out } ∧
        (s.boot.port < 3 → t.boot = { s.boot with port := s.boot.port + 1 }) ∧
        (3 ≤ s.boot.port → t.boot.waiting = true ∧ t.boot.port = 0 ∧
          t.boot.waitSec = (if s.boot.waitSec = 0 then 1 else min 60 (2 * s.boot.waitSec)))) ∧
      (∀ i, imageReason i s.flash = 0 → ∃ t, exec (.recoveryFetch (some i)) s = .next t ∧
        t.update = some { target := 0, body := .image i, repeated := false } ∧ t.fld Csr.fwStat 53 52 = 3 ∧ Safety.Frame s t [Csr.fwStat]) ∧
      (∀ i, imageReason i s.flash ≠ 0 → ∃ t, exec (.recoveryFetch (some i)) s = .next t ∧ t.update = none ∧ Safety.Raised t 0x71 0 ∧
        t.fld Csr.fwStat 59 56 = imageReason i s.flash ∧ Safety.Frame s t [Csr.fwStat])) ∧
    (s.boot.recovering = true → s.boot.waiting = true → s.boot.waitFrom + s.boot.waitSec * 1000000000 ≤ s.now →
      ∃ t, exec .recoveryRoundWait s = .next t ∧ t = { s with boot := { s.boot with waiting := false } }) ∧
    (∀ (u : Update) (i : Image), s.boot.recovering = true → s.update = some u → u.body = .image i →
      (imageReason i s.flash = 0 → ∃ t, exec (.recoveryImageWritten true) s = .next t ∧ t.flash.slot = some i ∧ t.running = some i ∧ Safety.Raised t 0x73 0 ∧
        t.boot.cause = 5 ∧ t.fld Csr.fwStat 63 60 = 5 ∧ t.flash.wdf = 0) ∧
      (u.repeated = false → ∃ t, exec (.recoveryImageWritten false) s = .next t ∧ t = { s with update := some { u with repeated := true } }) ∧
      (u.repeated = true → ∃ t, exec (.recoveryImageWritten false) s = .next t ∧ t.update = none ∧ t.flash.slot = none ∧ t.fld Csr.fwStat 53 52 = 0))

/-- R348, R418 to R420, R433 to R435, R439, R470, R477: keys, attestation and the debug port. ATTEST answers the nonce in a report with FLAGS, boots and fabric time; ENROLL
programs an owner, event 0x62, and adds or removes the keys of roles, checkpoints and the ring, event 0x63; the mailbox takes data; a good token unlocks
the port with event 0x60, ends jobs and sessions and loses HBM; another is refused with event 0x61; an unlocked port writes registers.
What the report leaves open is free (log 6, 7); the statuses of ENROLL are the model's reading (log 55, 56). -/
def Obligations.KeysAndDebug : Prop :=
  ∀ (s : State) (k : Fin 64) (x : Session) (id : BitVec 32) (rest : List (BitVec 32 × Nat)), Safety.regsCanonical s →
    let answered (t : State) : Prop := Output.response x.ch.port x.ch.sid id { status := 0, body := [] } ∈ t.out ∧ Safety.Frame s t [Csr.secStat, Csr.jrnStat]
    let plainBody (body : List Byte) (op kind slot : Nat) : Prop := body.length = 136 ∧ bodyNat body 0 1 = op ∧ bodyNat body 1 1 = kind ∧
      bodyNat body 2 1 = slot ∧ bodyNat body 3 5 = 0 ∧ bodyNat body 72 64 = 0
    (∀ (i : Image) (nonce : List Byte), Safety.Due s k x 0x41 id rest → s.running = some i → nonce.length = 32 →
      ∃ t body, exec (.attest k nonce) s = .next t ∧ Safety.Answered t k x id rest { status := 0, body := body } ∧
        bodyNat body 0 2 = 1 ∧ bodyNat body 3 1 = s.attestFlags ∧ bodyNat body 4 4 = s.flash.bootCnt % 2 ^ 32 ∧
        bodyNat body 8 8 = s.ft.toNat ∧ (body.drop 16).take 32 = nonce ∧ t = { s with out := t.out, sessions := t.sessions, fresh := t.fresh }) ∧
    (∀ (body : List Byte), Safety.Due s k x 0x42 id rest → body.length = 136 → bodyNat body 0 1 = 1 → bodyNat body 1 1 = 0 → bodyNat body 2 1 = 0 →
      bodyNat body 3 5 = 0 → s.flash.owners = [] →
      ∃ t, exec (.enroll k body true) s = .next t ∧ answered t ∧ t.flash.owners = [sm3 ((body.drop 8).take 64)] ∧ t.flash.keys = [] ∧ t.flash.ckeys = 0 ∧
        t.flash.ringKey = false ∧ Safety.Raised t 0x62 0 ∧ (t.reg Csr.secStat).bit 63 = true) ∧
    (∀ (body : List Byte) (kind : Nat), Safety.Due s k x 0x42 id rest → x.role = 0 → kind = 1 ∨ kind = 2 →
      let key := sm3 ((body.drop 8).take 64)
      (plainBody body 1 kind 0 → (s.flash.keys.filter (fun y => y.hash != key)).length < 32 →
        ∃ t, exec (.enroll k body false) s = .next t ∧ answered t ∧ { hash := key, role := kind } ∈ t.flash.keys ∧
          (∀ y ∈ t.flash.keys, y.hash = key → y.role = kind) ∧ (∀ y ∈ s.flash.keys, y.hash ≠ key → y ∈ t.flash.keys) ∧ Safety.Raised t 0x63 0) ∧
      (plainBody body 2 kind 0 → { hash := key, role := kind } ∈ s.flash.keys →
        ∃ t, exec (.enroll k body false) s = .next t ∧ answered t ∧ (∀ y, y ∈ t.flash.keys ↔ y ∈ s.flash.keys ∧ y.hash ≠ key) ∧ Safety.Raised t 0x63 0 ∧
          (s.flash.owner ≠ some key → s.flash.owners ≠ [] → ∀ i : Fin 64, ∀ y, t.sessions[i] = some y → y.ch.key ≠ key))) ∧
    (∀ (body : List Byte) (slot : Nat), Safety.Due s k x 0x42 id rest → x.role = 0 → 1 ≤ slot → slot ≤ 8 →
      (plainBody body 1 3 slot → ∃ t, exec (.enroll k body false) s = .next t ∧ answered t ∧ Safety.Raised t 0x63 0 ∧
        ∀ i, i < 9 → t.flash.ckeys.getLsbD i = (s.flash.ckeys.getLsbD i || i == slot)) ∧
      (plainBody body 2 3 slot → s.flash.ckeys.getLsbD slot = true → ∃ t, exec (.enroll k body false) s = .next t ∧ answered t ∧ Safety.Raised t 0x63 0 ∧
        ∀ i, i < 9 → t.flash.ckeys.getLsbD i = (s.flash.ckeys.getLsbD i && i != slot)) ∧
      (plainBody body 1 4 0 → ∃ t, exec (.enroll k body false) s = .next t ∧ answered t ∧ Safety.Raised t 0x63 0 ∧ t.flash.ringKey = true)) ∧
    (∀ (i : Fin 15) (mask value : Word), s.pipRuns = true → ∃ t, exec (.debugPortWrite (BitVec.ofNat 32 (Csr.mbxData i.val)) mask value) s = .next t ∧
      t = { s with mailbox := s.mailbox.set i ((s.mailbox[i] &&& ~~~mask) ||| (value &&& mask)) }) ∧
    (∀ (o : Nat) (mask value : Word), s.pipRuns = true → (s.reg Csr.secStat).bit 60 = true → (s.reg Csr.secStat).bit 56 = true →
      o ∈ [Csr.ftCtl, Csr.chkCtl, Csr.fabCtl, Csr.clCtl, Csr.drlCtl] → (s.reg o).bit 63 = false →
      ∃ t, exec (.debugPortWrite (BitVec.ofNat 32 o) mask value) s = .next t ∧
        Safety.Frame s t (o :: if o = Csr.ftCtl then [Csr.ftStat] else []) ∧
        ∀ b, b < 64 → (t.reg o).bit b = if mask.bit b && ((csrAccess o).rw ||| (csrAccess o).rwl).bit b then value.bit b else (s.reg o).bit b) ∧
    (∀ sigOk, s.pipRuns = true → s.refusals < 16 → s.tokenOk sigOk = false → ∃ t, exec (.mbxSubmit sigOk) s = .next t ∧ Safety.Raised t 0x61 0 ∧
      t.refusals = s.refusals + 1 ∧ t.mailbox = Vector.replicate 15 0 ∧ t.reg Csr.secDbgNonce = s.free ∧
      t.fld Csr.mbxStat 62 60 = (if s.refusals = 15 then 3 else 2) ∧ Safety.Frame s t [Csr.mbxStat, Csr.secStat, Csr.secDbgNonce]) ∧
    (s.pipRuns = true → s.refusals < 16 → s.tokenOk true = true → s.resetAfterJobs = false → ∃ t, exec (.mbxSubmit true) s = .next t ∧ Safety.Raised t 0x60 0 ∧
      (t.reg Csr.secStat).bit 60 = true ∧ t.jobs = [] ∧ (∀ i : Fin 64, t.sessions[i] = none) ∧ t.admissions = [] ∧ t.retained = [] ∧
      t.mailbox = Vector.replicate 15 0 ∧ ∀ c ∈ t.mem, c.1 < hbmBase)
end

