-- ==== Sys2Proof/Laws/Memory.lean ====
section
/-! SUPPORT. Sparse maps and memory: read after write, and every operation keeps the canonical form. -/

namespace Sys2Proof.Machine

variable {α : Type} [DecidableEq α]

/-- A map whose keys start higher also starts lower. -/
theorem sparseWfFrom_weaken {d : Nat → α} {lo hi : Nat} {l : List (Nat × α)} (h : lo ≤ hi) (w : sparseWfFrom d hi l = true) :
    sparseWfFrom d lo l = true := by
  cases l with
  | nil => rfl
  | cons p t => simp only [sparseWfFrom, Bool.and_eq_true, decide_eq_true_eq] at w ⊢; exact ⟨⟨by omega, w.1.2⟩, w.2⟩

/-- One entry in front of a map whose keys are above it. -/
theorem sparseCons_wf {d : Nat → α} {lo a : Nat} {v : α} {t : List (Nat × α)} (h : lo ≤ a) (w : sparseWfFrom d (a + 1) t = true) :
    sparseWfFrom d lo (sparseCons d a v t) = true := by
  unfold sparseCons
  split
  · exact sparseWfFrom_weaken (by omega) w
  · simp only [sparseWfFrom, Bool.and_eq_true, decide_eq_true_eq]; exact ⟨⟨h, by assumption⟩, w⟩

/-- A store keeps the canonical form. -/
theorem sparseSet_wfFrom {d : Nat → α} {a : Nat} {v : α} {l : List (Nat × α)} :
    ∀ {lo : Nat}, lo ≤ a → sparseWfFrom d lo l = true → sparseWfFrom d lo (sparseSet d l a v) = true := by
  induction l with
  | nil => intro lo h _; exact sparseCons_wf h rfl
  | cons p t ih =>
    intro lo h w
    obtain ⟨k, x⟩ := p
    simp only [sparseWfFrom, Bool.and_eq_true, decide_eq_true_eq] at w
    simp only [sparseSet]
    split
    · refine sparseCons_wf h ?_
      simp only [sparseWfFrom, Bool.and_eq_true, decide_eq_true_eq]; exact ⟨⟨by omega, w.1.2⟩, w.2⟩
    · split
      · subst a; exact sparseCons_wf h w.2
      · simp only [sparseWfFrom, Bool.and_eq_true, decide_eq_true_eq]; exact ⟨w.1, ih (by omega) w.2⟩

/-- A store keeps the canonical form of a whole map. -/
theorem sparseSet_wf {d : Nat → α} {a : Nat} {v : α} {l : List (Nat × α)} (w : sparseWf d l = true) :
    sparseWf d (sparseSet d l a v) = true := sparseSet_wfFrom (Nat.zero_le a) w

/-- Dropping entries keeps the canonical form. -/
theorem sparseFilter_wfFrom {d : Nat → α} {p : Nat × α → Bool} {l : List (Nat × α)} :
    ∀ {lo : Nat}, sparseWfFrom d lo l = true → sparseWfFrom d lo (l.filter p) = true := by
  induction l with
  | nil => intro _ _; rfl
  | cons x t ih =>
    intro lo w
    simp only [sparseWfFrom, Bool.and_eq_true, decide_eq_true_eq] at w
    simp only [List.filter_cons]
    split
    · simp only [sparseWfFrom, Bool.and_eq_true, decide_eq_true_eq]; exact ⟨w.1, ih w.2⟩
    · exact sparseWfFrom_weaken (by omega) (ih w.2)

/-- Dropping entries keeps the canonical form of a whole map. -/
theorem sparseFilter_wf {d : Nat → α} {p : Nat × α → Bool} {l : List (Nat × α)} (w : sparseWf d l = true) :
    sparseWf d (l.filter p) = true := sparseFilter_wfFrom w

/-- A key below every listed one reads as unlisted. -/
theorem sparseGet_below {d : Nat → α} {a lo : Nat} {l : List (Nat × α)} (w : sparseWfFrom d lo l = true) (h : a < lo) :
    sparseGet d l a = d a := by
  cases l with
  | nil => rfl
  | cons p t =>
    simp only [sparseWfFrom, Bool.and_eq_true, decide_eq_true_eq] at w
    have h1 : ¬ a = p.1 := by omega
    have h2 : a < p.1 := by omega
    simp [sparseGet, h1, h2]

omit [DecidableEq α] in
/-- The first entry of a map decides its own key; the rest decides the higher ones. -/
theorem sparseGet_cons_ne {d : Nat → α} {k b : Nat} {v : α} {t : List (Nat × α)} (h : b ≠ k) :
    sparseGet d ((k, v) :: t) b = if b < k then d b else sparseGet d t b := by
  simp [sparseGet, h]

/-- One entry in front reads as that entry, the rest as before. -/
theorem sparseGet_sparseCons {d : Nat → α} {a b : Nat} {v : α} {t : List (Nat × α)} (w : sparseWfFrom d (a + 1) t = true) :
    sparseGet d (sparseCons d a v t) b = if b = a then v else sparseGet d t b := by
  unfold sparseCons
  split
  · next h =>
    split
    · next e => subst e; rw [sparseGet_below w (by omega), h]
    · rfl
  · by_cases e : b = a
    · simp [sparseGet, e]
    · rw [sparseGet_cons_ne e]
      simp only [e, if_false]
      split
      · next l => exact (sparseGet_below w (by omega)).symm
      · rfl

/-- Read after write. -/
theorem sparseGet_sparseSet {d : Nat → α} {a b : Nat} {v : α} {l : List (Nat × α)} :
    ∀ {lo : Nat}, sparseWfFrom d lo l = true → sparseGet d (sparseSet d l a v) b = if b = a then v else sparseGet d l b := by
  induction l with
  | nil => intro lo _; exact sparseGet_sparseCons rfl
  | cons p t ih =>
    intro lo w
    obtain ⟨k, x⟩ := p
    simp only [sparseWfFrom, Bool.and_eq_true, decide_eq_true_eq] at w
    simp only [sparseSet]
    split
    · next h =>
      refine sparseGet_sparseCons ?_
      simp only [sparseWfFrom, Bool.and_eq_true, decide_eq_true_eq]; exact ⟨⟨by omega, w.1.2⟩, w.2⟩
    · split
      · next h e =>
        subst e
        rw [sparseGet_sparseCons w.2]
        split
        · rfl
        · next ne =>
          rw [sparseGet_cons_ne ne]
          split
          · exact sparseGet_below w.2 (by omega)
          · rfl
      · next h e =>
        by_cases bk : b = k
        · subst bk
          have : b ≠ a := fun c => e c.symm
          simp [sparseGet, this]
        · rw [sparseGet_cons_ne bk, sparseGet_cons_ne bk, ih w.2]
          by_cases ba : b = a
          · subst ba; simp [h]
          · simp [ba]

/-- Memory with bytes stored keeps its canonical form. -/
theorem memWrite_wf {bs : List Byte} : ∀ {m : List Host.Cell} {a : Nat}, Memory.wf m = true → Memory.wf (memWrite m a bs) = true := by
  induction bs with
  | nil => intro _ _ w; exact w
  | cons b t ih => intro m a w; exact ih (sparseSet_wf w)

/-- Memory with a range cleared keeps its canonical form. -/
theorem sparseClear_wf {m : List Host.Cell} {lo n : Nat} (w : Memory.wf m = true) : Memory.wf (sparseClear m lo n) = true :=
  sparseFilter_wf w

/-- Memory after bytes are put back keeps its canonical form. -/
theorem memRestore_wf {l : List Host.Cell} :
    ∀ {m : List Host.Cell}, Memory.wf m = true → Memory.wf (l.foldl (fun m p => sparseSet memDefault m p.1 p.2) m) = true := by
  induction l with
  | nil => intro _ w; exact w
  | cons p t ih => intro m w; exact ih (sparseSet_wf w)

/-- Reading a byte after consecutive bytes are stored: the stored byte inside, the old one outside. -/
theorem sparseGet_memWrite {bs : List Byte} : ∀ {m : List Host.Cell} {a x : Nat}, Memory.wf m = true →
    sparseGet memDefault (memWrite m a bs) x =
      if a ≤ x ∧ x < a + bs.length then (bs[x - a]?).getD 0 else sparseGet memDefault m x := by
  induction bs with
  | nil =>
    intro m a x _
    have : ¬ (a ≤ x ∧ x < a + ([] : List Byte).length) := by simp
    simp only [memWrite, this, if_false]
  | cons b t ih =>
    intro m a x w
    simp only [memWrite]
    rw [ih (sparseSet_wf w)]
    rw [sparseGet_sparseSet (lo := 0) w]
    simp only [List.length_cons]
    by_cases e : x = a
    · subst e
      have n : ¬ (x + 1 ≤ x ∧ x < x + 1 + t.length) := by omega
      rw [if_neg n]
      simp
    · by_cases i : a + 1 ≤ x ∧ x < a + 1 + t.length
      · have j : a ≤ x ∧ x < a + (t.length + 1) := by omega
        have k : x - a = (x - (a + 1)) + 1 := by omega
        simp [i, j, k]
      · have j : ¬ (a ≤ x ∧ x < a + (t.length + 1)) := by omega
        rw [if_neg i, if_neg e, if_neg j]

end Sys2Proof.Machine
end

