-- ==== Sys2Proof/Laws/State.lean ====
section
/-! SUPPORT. What each basic update of the state and of a core leaves as it was: one lemma per update and field, true by
computation, so that no proof unfolds a record update. Then the same of raising an event, and of reading back. -/

namespace Sys2Proof.Machine

section
variable (s : State)

@[simp] theorem State.setReg_pending (o : Nat) (v : Word) : (s.setReg o v).pending = s.pending := rfl
@[simp] theorem State.setReg_now (o : Nat) (v : Word) : (s.setReg o v).now = s.now := rfl
@[simp] theorem State.setReg_fresh (o : Nat) (v : Word) : (s.setReg o v).fresh = s.fresh := rfl
@[simp] theorem State.setReg_out (o : Nat) (v : Word) : (s.setReg o v).out = s.out := rfl
@[simp] theorem State.setReg_mem (o : Nat) (v : Word) : (s.setReg o v).mem = s.mem := rfl
@[simp] theorem State.setReg_poison (o : Nat) (v : Word) : (s.setReg o v).poison = s.poison := rfl
@[simp] theorem State.setReg_cores (o : Nat) (v : Word) : (s.setReg o v).cores = s.cores := rfl
@[simp] theorem State.setReg_ft (o : Nat) (v : Word) : (s.setReg o v).ft = s.ft := rfl
@[simp] theorem State.setReg_part (o : Nat) (v : Word) : (s.setReg o v).part = s.part := rfl
@[simp] theorem State.setReg_h1Lost (o : Nat) (v : Word) : (s.setReg o v).h1Lost = s.h1Lost := rfl
@[simp] theorem State.setReg_sinks (o : Nat) (v : Word) : (s.setReg o v).sinks = s.sinks := rfl
@[simp] theorem State.setReg_jobs (o : Nat) (v : Word) : (s.setReg o v).jobs = s.jobs := rfl
@[simp] theorem State.setReg_plan (o : Nat) (v : Word) : (s.setReg o v).plan = s.plan := rfl
@[simp] theorem State.setReg_links (o : Nat) (v : Word) : (s.setReg o v).links = s.links := rfl
@[simp] theorem State.setReg_outStreams (o : Nat) (v : Word) : (s.setReg o v).outStreams = s.outStreams := rfl
@[simp] theorem State.setReg_outMsgs (o : Nat) (v : Word) : (s.setReg o v).outMsgs = s.outMsgs := rfl
@[simp] theorem State.setReg_inStreams (o : Nat) (v : Word) : (s.setReg o v).inStreams = s.inStreams := rfl
@[simp] theorem State.setReg_heldPuts (o : Nat) (v : Word) : (s.setReg o v).heldPuts = s.heldPuts := rfl
@[simp] theorem State.setReg_heldReplies (o : Nat) (v : Word) : (s.setReg o v).heldReplies = s.heldReplies := rfl
@[simp] theorem State.setReg_known (o : Nat) (v : Word) : (s.setReg o v).known = s.known := rfl
@[simp] theorem State.setReg_crcTimes (o : Nat) (v : Word) : (s.setReg o v).crcTimes = s.crcTimes := rfl
@[simp] theorem State.setReg_heldDown (o : Nat) (v : Word) : (s.setReg o v).heldDown = s.heldDown := rfl
@[simp] theorem State.setReg_portFinds (o : Nat) (v : Word) : (s.setReg o v).portFinds = s.portFinds := rfl
@[simp] theorem State.setReg_groups (o : Nat) (v : Word) : (s.setReg o v).groups = s.groups := rfl
@[simp] theorem State.setReg_earlyJoins (o : Nat) (v : Word) : (s.setReg o v).earlyJoins = s.earlyJoins := rfl
@[simp] theorem State.setReg_forming (o : Nat) (v : Word) : (s.setReg o v).forming = s.forming := rfl
@[simp] theorem State.setReg_groupFails (o : Nat) (v : Word) : (s.setReg o v).groupFails = s.groupFails := rfl
@[simp] theorem State.setReg_lateRaised (o : Nat) (v : Word) : (s.setReg o v).lateRaised = s.lateRaised := rfl
@[simp] theorem State.setReg_halts (o : Nat) (v : Word) : (s.setReg o v).halts = s.halts := rfl
@[simp] theorem State.setReg_checkRaised (o : Nat) (v : Word) : (s.setReg o v).checkRaised = s.checkRaised := rfl
@[simp] theorem State.setReg_checkWithheld (o : Nat) (v : Word) : (s.setReg o v).checkWithheld = s.checkWithheld := rfl
@[simp] theorem State.setReg_eccRaised (o : Nat) (v : Word) : (s.setReg o v).eccRaised = s.eccRaised := rfl
@[simp] theorem State.setReg_health (o : Nat) (v : Word) : (s.setReg o v).health = s.health := rfl
@[simp] theorem State.setReg_drills (o : Nat) (v : Word) : (s.setReg o v).drills = s.drills := rfl
@[simp] theorem State.setReg_acquittal (o : Nat) (v : Word) : (s.setReg o v).acquittal = s.acquittal := rfl
@[simp] theorem State.setReg_halted (o : Nat) (v : Word) : (s.setReg o v).halted = s.halted := rfl
@[simp] theorem State.setReg_retained (o : Nat) (v : Word) : (s.setReg o v).retained = s.retained := rfl
@[simp] theorem State.setReg_admissions (o : Nat) (v : Word) : (s.setReg o v).admissions = s.admissions := rfl
@[simp] theorem State.setReg_rings (o : Nat) (v : Word) : (s.setReg o v).rings = s.rings := rfl
@[simp] theorem State.setReg_lastRecords (o : Nat) (v : Word) : (s.setReg o v).lastRecords = s.lastRecords := rfl
@[simp] theorem State.setReg_worklists (o : Nat) (v : Word) : (s.setReg o v).worklists = s.worklists := rfl
@[simp] theorem State.setReg_sessions (o : Nat) (v : Word) : (s.setReg o v).sessions = s.sessions := rfl
@[simp] theorem State.setReg_ports (o : Nat) (v : Word) : (s.setReg o v).ports = s.ports := rfl
@[simp] theorem State.setReg_conns (o : Nat) (v : Word) : (s.setReg o v).conns = s.conns := rfl
@[simp] theorem State.setReg_xfers (o : Nat) (v : Word) : (s.setReg o v).xfers = s.xfers := rfl
@[simp] theorem State.setReg_hull (o : Nat) (v : Word) : (s.setReg o v).hull = s.hull := rfl
@[simp] theorem State.setReg_ring (o : Nat) (v : Word) : (s.setReg o v).ring = s.ring := rfl
@[simp] theorem State.setReg_power (o : Nat) (v : Word) : (s.setReg o v).power = s.power := rfl
@[simp] theorem State.setReg_pool (o : Nat) (v : Word) : (s.setReg o v).pool = s.pool := rfl
@[simp] theorem State.setReg_time (o : Nat) (v : Word) : (s.setReg o v).time = s.time := rfl
@[simp] theorem State.setReg_pins (o : Nat) (v : Word) : (s.setReg o v).pins = s.pins := rfl
@[simp] theorem State.setReg_flash (o : Nat) (v : Word) : (s.setReg o v).flash = s.flash := rfl
@[simp] theorem State.setReg_running (o : Nat) (v : Word) : (s.setReg o v).running = s.running := rfl
@[simp] theorem State.setReg_boot (o : Nat) (v : Word) : (s.setReg o v).boot = s.boot := rfl
@[simp] theorem State.setReg_update (o : Nat) (v : Word) : (s.setReg o v).update = s.update := rfl
@[simp] theorem State.setReg_resetWaits (o : Nat) (v : Word) : (s.setReg o v).resetWaits = s.resetWaits := rfl
@[simp] theorem State.setReg_resetAfterJobs (o : Nat) (v : Word) : (s.setReg o v).resetAfterJobs = s.resetAfterJobs := rfl
@[simp] theorem State.setReg_second (o : Nat) (v : Word) : (s.setReg o v).second = s.second := rfl
@[simp] theorem State.setReg_nextXfer (o : Nat) (v : Word) : (s.setReg o v).nextXfer = s.nextXfer := rfl
@[simp] theorem State.setReg_netLost (o : Nat) (v : Word) : (s.setReg o v).netLost = s.netLost := rfl
@[simp] theorem State.setReg_mailbox (o : Nat) (v : Word) : (s.setReg o v).mailbox = s.mailbox := rfl
@[simp] theorem State.setReg_refusals (o : Nat) (v : Word) : (s.setReg o v).refusals = s.refusals := rfl
@[simp] theorem State.setFld_pending (o hi lo v : Nat) : (s.setFld o hi lo v).pending = s.pending := rfl
@[simp] theorem State.setFld_now (o hi lo v : Nat) : (s.setFld o hi lo v).now = s.now := rfl
@[simp] theorem State.setFld_fresh (o hi lo v : Nat) : (s.setFld o hi lo v).fresh = s.fresh := rfl
@[simp] theorem State.setFld_out (o hi lo v : Nat) : (s.setFld o hi lo v).out = s.out := rfl
@[simp] theorem State.setFld_mem (o hi lo v : Nat) : (s.setFld o hi lo v).mem = s.mem := rfl
@[simp] theorem State.setFld_poison (o hi lo v : Nat) : (s.setFld o hi lo v).poison = s.poison := rfl
@[simp] theorem State.setFld_cores (o hi lo v : Nat) : (s.setFld o hi lo v).cores = s.cores := rfl
@[simp] theorem State.setFld_ft (o hi lo v : Nat) : (s.setFld o hi lo v).ft = s.ft := rfl
@[simp] theorem State.setFld_part (o hi lo v : Nat) : (s.setFld o hi lo v).part = s.part := rfl
@[simp] theorem State.setFld_h1Lost (o hi lo v : Nat) : (s.setFld o hi lo v).h1Lost = s.h1Lost := rfl
@[simp] theorem State.setFld_sinks (o hi lo v : Nat) : (s.setFld o hi lo v).sinks = s.sinks := rfl
@[simp] theorem State.setFld_jobs (o hi lo v : Nat) : (s.setFld o hi lo v).jobs = s.jobs := rfl
@[simp] theorem State.setFld_plan (o hi lo v : Nat) : (s.setFld o hi lo v).plan = s.plan := rfl
@[simp] theorem State.setFld_links (o hi lo v : Nat) : (s.setFld o hi lo v).links = s.links := rfl
@[simp] theorem State.setFld_outStreams (o hi lo v : Nat) : (s.setFld o hi lo v).outStreams = s.outStreams := rfl
@[simp] theorem State.setFld_outMsgs (o hi lo v : Nat) : (s.setFld o hi lo v).outMsgs = s.outMsgs := rfl
@[simp] theorem State.setFld_inStreams (o hi lo v : Nat) : (s.setFld o hi lo v).inStreams = s.inStreams := rfl
@[simp] theorem State.setFld_heldPuts (o hi lo v : Nat) : (s.setFld o hi lo v).heldPuts = s.heldPuts := rfl
@[simp] theorem State.setFld_heldReplies (o hi lo v : Nat) : (s.setFld o hi lo v).heldReplies = s.heldReplies := rfl
@[simp] theorem State.setFld_known (o hi lo v : Nat) : (s.setFld o hi lo v).known = s.known := rfl
@[simp] theorem State.setFld_crcTimes (o hi lo v : Nat) : (s.setFld o hi lo v).crcTimes = s.crcTimes := rfl
@[simp] theorem State.setFld_heldDown (o hi lo v : Nat) : (s.setFld o hi lo v).heldDown = s.heldDown := rfl
@[simp] theorem State.setFld_portFinds (o hi lo v : Nat) : (s.setFld o hi lo v).portFinds = s.portFinds := rfl
@[simp] theorem State.setFld_groups (o hi lo v : Nat) : (s.setFld o hi lo v).groups = s.groups := rfl
@[simp] theorem State.setFld_earlyJoins (o hi lo v : Nat) : (s.setFld o hi lo v).earlyJoins = s.earlyJoins := rfl
@[simp] theorem State.setFld_forming (o hi lo v : Nat) : (s.setFld o hi lo v).forming = s.forming := rfl
@[simp] theorem State.setFld_groupFails (o hi lo v : Nat) : (s.setFld o hi lo v).groupFails = s.groupFails := rfl
@[simp] theorem State.setFld_lateRaised (o hi lo v : Nat) : (s.setFld o hi lo v).lateRaised = s.lateRaised := rfl
@[simp] theorem State.setFld_halts (o hi lo v : Nat) : (s.setFld o hi lo v).halts = s.halts := rfl
@[simp] theorem State.setFld_checkRaised (o hi lo v : Nat) : (s.setFld o hi lo v).checkRaised = s.checkRaised := rfl
@[simp] theorem State.setFld_checkWithheld (o hi lo v : Nat) : (s.setFld o hi lo v).checkWithheld = s.checkWithheld := rfl
@[simp] theorem State.setFld_eccRaised (o hi lo v : Nat) : (s.setFld o hi lo v).eccRaised = s.eccRaised := rfl
@[simp] theorem State.setFld_health (o hi lo v : Nat) : (s.setFld o hi lo v).health = s.health := rfl
@[simp] theorem State.setFld_drills (o hi lo v : Nat) : (s.setFld o hi lo v).drills = s.drills := rfl
@[simp] theorem State.setFld_acquittal (o hi lo v : Nat) : (s.setFld o hi lo v).acquittal = s.acquittal := rfl
@[simp] theorem State.setFld_halted (o hi lo v : Nat) : (s.setFld o hi lo v).halted = s.halted := rfl
@[simp] theorem State.setFld_retained (o hi lo v : Nat) : (s.setFld o hi lo v).retained = s.retained := rfl
@[simp] theorem State.setFld_admissions (o hi lo v : Nat) : (s.setFld o hi lo v).admissions = s.admissions := rfl
@[simp] theorem State.setFld_rings (o hi lo v : Nat) : (s.setFld o hi lo v).rings = s.rings := rfl
@[simp] theorem State.setFld_lastRecords (o hi lo v : Nat) : (s.setFld o hi lo v).lastRecords = s.lastRecords := rfl
@[simp] theorem State.setFld_worklists (o hi lo v : Nat) : (s.setFld o hi lo v).worklists = s.worklists := rfl
@[simp] theorem State.setFld_sessions (o hi lo v : Nat) : (s.setFld o hi lo v).sessions = s.sessions := rfl
@[simp] theorem State.setFld_ports (o hi lo v : Nat) : (s.setFld o hi lo v).ports = s.ports := rfl
@[simp] theorem State.setFld_conns (o hi lo v : Nat) : (s.setFld o hi lo v).conns = s.conns := rfl
@[simp] theorem State.setFld_xfers (o hi lo v : Nat) : (s.setFld o hi lo v).xfers = s.xfers := rfl
@[simp] theorem State.setFld_hull (o hi lo v : Nat) : (s.setFld o hi lo v).hull = s.hull := rfl
@[simp] theorem State.setFld_ring (o hi lo v : Nat) : (s.setFld o hi lo v).ring = s.ring := rfl
@[simp] theorem State.setFld_power (o hi lo v : Nat) : (s.setFld o hi lo v).power = s.power := rfl
@[simp] theorem State.setFld_pool (o hi lo v : Nat) : (s.setFld o hi lo v).pool = s.pool := rfl
@[simp] theorem State.setFld_time (o hi lo v : Nat) : (s.setFld o hi lo v).time = s.time := rfl
@[simp] theorem State.setFld_pins (o hi lo v : Nat) : (s.setFld o hi lo v).pins = s.pins := rfl
@[simp] theorem State.setFld_flash (o hi lo v : Nat) : (s.setFld o hi lo v).flash = s.flash := rfl
@[simp] theorem State.setFld_running (o hi lo v : Nat) : (s.setFld o hi lo v).running = s.running := rfl
@[simp] theorem State.setFld_boot (o hi lo v : Nat) : (s.setFld o hi lo v).boot = s.boot := rfl
@[simp] theorem State.setFld_update (o hi lo v : Nat) : (s.setFld o hi lo v).update = s.update := rfl
@[simp] theorem State.setFld_resetWaits (o hi lo v : Nat) : (s.setFld o hi lo v).resetWaits = s.resetWaits := rfl
@[simp] theorem State.setFld_resetAfterJobs (o hi lo v : Nat) : (s.setFld o hi lo v).resetAfterJobs = s.resetAfterJobs := rfl
@[simp] theorem State.setFld_second (o hi lo v : Nat) : (s.setFld o hi lo v).second = s.second := rfl
@[simp] theorem State.setFld_nextXfer (o hi lo v : Nat) : (s.setFld o hi lo v).nextXfer = s.nextXfer := rfl
@[simp] theorem State.setFld_netLost (o hi lo v : Nat) : (s.setFld o hi lo v).netLost = s.netLost := rfl
@[simp] theorem State.setFld_mailbox (o hi lo v : Nat) : (s.setFld o hi lo v).mailbox = s.mailbox := rfl
@[simp] theorem State.setFld_refusals (o hi lo v : Nat) : (s.setFld o hi lo v).refusals = s.refusals := rfl
@[simp] theorem State.bump_pending (o hi lo k : Nat) : (s.bump o hi lo k).pending = s.pending := rfl
@[simp] theorem State.bump_now (o hi lo k : Nat) : (s.bump o hi lo k).now = s.now := rfl
@[simp] theorem State.bump_fresh (o hi lo k : Nat) : (s.bump o hi lo k).fresh = s.fresh := rfl
@[simp] theorem State.bump_out (o hi lo k : Nat) : (s.bump o hi lo k).out = s.out := rfl
@[simp] theorem State.bump_mem (o hi lo k : Nat) : (s.bump o hi lo k).mem = s.mem := rfl
@[simp] theorem State.bump_poison (o hi lo k : Nat) : (s.bump o hi lo k).poison = s.poison := rfl
@[simp] theorem State.bump_cores (o hi lo k : Nat) : (s.bump o hi lo k).cores = s.cores := rfl
@[simp] theorem State.bump_ft (o hi lo k : Nat) : (s.bump o hi lo k).ft = s.ft := rfl
@[simp] theorem State.bump_part (o hi lo k : Nat) : (s.bump o hi lo k).part = s.part := rfl
@[simp] theorem State.bump_h1Lost (o hi lo k : Nat) : (s.bump o hi lo k).h1Lost = s.h1Lost := rfl
@[simp] theorem State.bump_sinks (o hi lo k : Nat) : (s.bump o hi lo k).sinks = s.sinks := rfl
@[simp] theorem State.bump_jobs (o hi lo k : Nat) : (s.bump o hi lo k).jobs = s.jobs := rfl
@[simp] theorem State.bump_plan (o hi lo k : Nat) : (s.bump o hi lo k).plan = s.plan := rfl
@[simp] theorem State.bump_links (o hi lo k : Nat) : (s.bump o hi lo k).links = s.links := rfl
@[simp] theorem State.bump_outStreams (o hi lo k : Nat) : (s.bump o hi lo k).outStreams = s.outStreams := rfl
@[simp] theorem State.bump_outMsgs (o hi lo k : Nat) : (s.bump o hi lo k).outMsgs = s.outMsgs := rfl
@[simp] theorem State.bump_inStreams (o hi lo k : Nat) : (s.bump o hi lo k).inStreams = s.inStreams := rfl
@[simp] theorem State.bump_heldPuts (o hi lo k : Nat) : (s.bump o hi lo k).heldPuts = s.heldPuts := rfl
@[simp] theorem State.bump_heldReplies (o hi lo k : Nat) : (s.bump o hi lo k).heldReplies = s.heldReplies := rfl
@[simp] theorem State.bump_known (o hi lo k : Nat) : (s.bump o hi lo k).known = s.known := rfl
@[simp] theorem State.bump_crcTimes (o hi lo k : Nat) : (s.bump o hi lo k).crcTimes = s.crcTimes := rfl
@[simp] theorem State.bump_heldDown (o hi lo k : Nat) : (s.bump o hi lo k).heldDown = s.heldDown := rfl
@[simp] theorem State.bump_portFinds (o hi lo k : Nat) : (s.bump o hi lo k).portFinds = s.portFinds := rfl
@[simp] theorem State.bump_groups (o hi lo k : Nat) : (s.bump o hi lo k).groups = s.groups := rfl
@[simp] theorem State.bump_earlyJoins (o hi lo k : Nat) : (s.bump o hi lo k).earlyJoins = s.earlyJoins := rfl
@[simp] theorem State.bump_forming (o hi lo k : Nat) : (s.bump o hi lo k).forming = s.forming := rfl
@[simp] theorem State.bump_groupFails (o hi lo k : Nat) : (s.bump o hi lo k).groupFails = s.groupFails := rfl
@[simp] theorem State.bump_lateRaised (o hi lo k : Nat) : (s.bump o hi lo k).lateRaised = s.lateRaised := rfl
@[simp] theorem State.bump_halts (o hi lo k : Nat) : (s.bump o hi lo k).halts = s.halts := rfl
@[simp] theorem State.bump_checkRaised (o hi lo k : Nat) : (s.bump o hi lo k).checkRaised = s.checkRaised := rfl
@[simp] theorem State.bump_checkWithheld (o hi lo k : Nat) : (s.bump o hi lo k).checkWithheld = s.checkWithheld := rfl
@[simp] theorem State.bump_eccRaised (o hi lo k : Nat) : (s.bump o hi lo k).eccRaised = s.eccRaised := rfl
@[simp] theorem State.bump_health (o hi lo k : Nat) : (s.bump o hi lo k).health = s.health := rfl
@[simp] theorem State.bump_drills (o hi lo k : Nat) : (s.bump o hi lo k).drills = s.drills := rfl
@[simp] theorem State.bump_acquittal (o hi lo k : Nat) : (s.bump o hi lo k).acquittal = s.acquittal := rfl
@[simp] theorem State.bump_halted (o hi lo k : Nat) : (s.bump o hi lo k).halted = s.halted := rfl
@[simp] theorem State.bump_retained (o hi lo k : Nat) : (s.bump o hi lo k).retained = s.retained := rfl
@[simp] theorem State.bump_admissions (o hi lo k : Nat) : (s.bump o hi lo k).admissions = s.admissions := rfl
@[simp] theorem State.bump_rings (o hi lo k : Nat) : (s.bump o hi lo k).rings = s.rings := rfl
@[simp] theorem State.bump_lastRecords (o hi lo k : Nat) : (s.bump o hi lo k).lastRecords = s.lastRecords := rfl
@[simp] theorem State.bump_worklists (o hi lo k : Nat) : (s.bump o hi lo k).worklists = s.worklists := rfl
@[simp] theorem State.bump_sessions (o hi lo k : Nat) : (s.bump o hi lo k).sessions = s.sessions := rfl
@[simp] theorem State.bump_ports (o hi lo k : Nat) : (s.bump o hi lo k).ports = s.ports := rfl
@[simp] theorem State.bump_conns (o hi lo k : Nat) : (s.bump o hi lo k).conns = s.conns := rfl
@[simp] theorem State.bump_xfers (o hi lo k : Nat) : (s.bump o hi lo k).xfers = s.xfers := rfl
@[simp] theorem State.bump_hull (o hi lo k : Nat) : (s.bump o hi lo k).hull = s.hull := rfl
@[simp] theorem State.bump_ring (o hi lo k : Nat) : (s.bump o hi lo k).ring = s.ring := rfl
@[simp] theorem State.bump_power (o hi lo k : Nat) : (s.bump o hi lo k).power = s.power := rfl
@[simp] theorem State.bump_pool (o hi lo k : Nat) : (s.bump o hi lo k).pool = s.pool := rfl
@[simp] theorem State.bump_time (o hi lo k : Nat) : (s.bump o hi lo k).time = s.time := rfl
@[simp] theorem State.bump_pins (o hi lo k : Nat) : (s.bump o hi lo k).pins = s.pins := rfl
@[simp] theorem State.bump_flash (o hi lo k : Nat) : (s.bump o hi lo k).flash = s.flash := rfl
@[simp] theorem State.bump_running (o hi lo k : Nat) : (s.bump o hi lo k).running = s.running := rfl
@[simp] theorem State.bump_boot (o hi lo k : Nat) : (s.bump o hi lo k).boot = s.boot := rfl
@[simp] theorem State.bump_update (o hi lo k : Nat) : (s.bump o hi lo k).update = s.update := rfl
@[simp] theorem State.bump_resetWaits (o hi lo k : Nat) : (s.bump o hi lo k).resetWaits = s.resetWaits := rfl
@[simp] theorem State.bump_resetAfterJobs (o hi lo k : Nat) : (s.bump o hi lo k).resetAfterJobs = s.resetAfterJobs := rfl
@[simp] theorem State.bump_second (o hi lo k : Nat) : (s.bump o hi lo k).second = s.second := rfl
@[simp] theorem State.bump_nextXfer (o hi lo k : Nat) : (s.bump o hi lo k).nextXfer = s.nextXfer := rfl
@[simp] theorem State.bump_netLost (o hi lo k : Nat) : (s.bump o hi lo k).netLost = s.netLost := rfl
@[simp] theorem State.bump_mailbox (o hi lo k : Nat) : (s.bump o hi lo k).mailbox = s.mailbox := rfl
@[simp] theorem State.bump_refusals (o hi lo k : Nat) : (s.bump o hi lo k).refusals = s.refusals := rfl
@[simp] theorem State.setBit_pending (o k : Nat) (b : Bool) : (s.setBit o k b).pending = s.pending := rfl
@[simp] theorem State.setBit_now (o k : Nat) (b : Bool) : (s.setBit o k b).now = s.now := rfl
@[simp] theorem State.setBit_fresh (o k : Nat) (b : Bool) : (s.setBit o k b).fresh = s.fresh := rfl
@[simp] theorem State.setBit_out (o k : Nat) (b : Bool) : (s.setBit o k b).out = s.out := rfl
@[simp] theorem State.setBit_mem (o k : Nat) (b : Bool) : (s.setBit o k b).mem = s.mem := rfl
@[simp] theorem State.setBit_poison (o k : Nat) (b : Bool) : (s.setBit o k b).poison = s.poison := rfl
@[simp] theorem State.setBit_cores (o k : Nat) (b : Bool) : (s.setBit o k b).cores = s.cores := rfl
@[simp] theorem State.setBit_ft (o k : Nat) (b : Bool) : (s.setBit o k b).ft = s.ft := rfl
@[simp] theorem State.setBit_part (o k : Nat) (b : Bool) : (s.setBit o k b).part = s.part := rfl
@[simp] theorem State.setBit_h1Lost (o k : Nat) (b : Bool) : (s.setBit o k b).h1Lost = s.h1Lost := rfl
@[simp] theorem State.setBit_sinks (o k : Nat) (b : Bool) : (s.setBit o k b).sinks = s.sinks := rfl
@[simp] theorem State.setBit_jobs (o k : Nat) (b : Bool) : (s.setBit o k b).jobs = s.jobs := rfl
@[simp] theorem State.setBit_plan (o k : Nat) (b : Bool) : (s.setBit o k b).plan = s.plan := rfl
@[simp] theorem State.setBit_links (o k : Nat) (b : Bool) : (s.setBit o k b).links = s.links := rfl
@[simp] theorem State.setBit_outStreams (o k : Nat) (b : Bool) : (s.setBit o k b).outStreams = s.outStreams := rfl
@[simp] theorem State.setBit_outMsgs (o k : Nat) (b : Bool) : (s.setBit o k b).outMsgs = s.outMsgs := rfl
@[simp] theorem State.setBit_inStreams (o k : Nat) (b : Bool) : (s.setBit o k b).inStreams = s.inStreams := rfl
@[simp] theorem State.setBit_heldPuts (o k : Nat) (b : Bool) : (s.setBit o k b).heldPuts = s.heldPuts := rfl
@[simp] theorem State.setBit_heldReplies (o k : Nat) (b : Bool) : (s.setBit o k b).heldReplies = s.heldReplies := rfl
@[simp] theorem State.setBit_known (o k : Nat) (b : Bool) : (s.setBit o k b).known = s.known := rfl
@[simp] theorem State.setBit_crcTimes (o k : Nat) (b : Bool) : (s.setBit o k b).crcTimes = s.crcTimes := rfl
@[simp] theorem State.setBit_heldDown (o k : Nat) (b : Bool) : (s.setBit o k b).heldDown = s.heldDown := rfl
@[simp] theorem State.setBit_portFinds (o k : Nat) (b : Bool) : (s.setBit o k b).portFinds = s.portFinds := rfl
@[simp] theorem State.setBit_groups (o k : Nat) (b : Bool) : (s.setBit o k b).groups = s.groups := rfl
@[simp] theorem State.setBit_earlyJoins (o k : Nat) (b : Bool) : (s.setBit o k b).earlyJoins = s.earlyJoins := rfl
@[simp] theorem State.setBit_forming (o k : Nat) (b : Bool) : (s.setBit o k b).forming = s.forming := rfl
@[simp] theorem State.setBit_groupFails (o k : Nat) (b : Bool) : (s.setBit o k b).groupFails = s.groupFails := rfl
@[simp] theorem State.setBit_lateRaised (o k : Nat) (b : Bool) : (s.setBit o k b).lateRaised = s.lateRaised := rfl
@[simp] theorem State.setBit_halts (o k : Nat) (b : Bool) : (s.setBit o k b).halts = s.halts := rfl
@[simp] theorem State.setBit_checkRaised (o k : Nat) (b : Bool) : (s.setBit o k b).checkRaised = s.checkRaised := rfl
@[simp] theorem State.setBit_checkWithheld (o k : Nat) (b : Bool) : (s.setBit o k b).checkWithheld = s.checkWithheld := rfl
@[simp] theorem State.setBit_eccRaised (o k : Nat) (b : Bool) : (s.setBit o k b).eccRaised = s.eccRaised := rfl
@[simp] theorem State.setBit_health (o k : Nat) (b : Bool) : (s.setBit o k b).health = s.health := rfl
@[simp] theorem State.setBit_drills (o k : Nat) (b : Bool) : (s.setBit o k b).drills = s.drills := rfl
@[simp] theorem State.setBit_acquittal (o k : Nat) (b : Bool) : (s.setBit o k b).acquittal = s.acquittal := rfl
@[simp] theorem State.setBit_halted (o k : Nat) (b : Bool) : (s.setBit o k b).halted = s.halted := rfl
@[simp] theorem State.setBit_retained (o k : Nat) (b : Bool) : (s.setBit o k b).retained = s.retained := rfl
@[simp] theorem State.setBit_admissions (o k : Nat) (b : Bool) : (s.setBit o k b).admissions = s.admissions := rfl
@[simp] theorem State.setBit_rings (o k : Nat) (b : Bool) : (s.setBit o k b).rings = s.rings := rfl
@[simp] theorem State.setBit_lastRecords (o k : Nat) (b : Bool) : (s.setBit o k b).lastRecords = s.lastRecords := rfl
@[simp] theorem State.setBit_worklists (o k : Nat) (b : Bool) : (s.setBit o k b).worklists = s.worklists := rfl
@[simp] theorem State.setBit_sessions (o k : Nat) (b : Bool) : (s.setBit o k b).sessions = s.sessions := rfl
@[simp] theorem State.setBit_ports (o k : Nat) (b : Bool) : (s.setBit o k b).ports = s.ports := rfl
@[simp] theorem State.setBit_conns (o k : Nat) (b : Bool) : (s.setBit o k b).conns = s.conns := rfl
@[simp] theorem State.setBit_xfers (o k : Nat) (b : Bool) : (s.setBit o k b).xfers = s.xfers := rfl
@[simp] theorem State.setBit_hull (o k : Nat) (b : Bool) : (s.setBit o k b).hull = s.hull := rfl
@[simp] theorem State.setBit_ring (o k : Nat) (b : Bool) : (s.setBit o k b).ring = s.ring := rfl
@[simp] theorem State.setBit_power (o k : Nat) (b : Bool) : (s.setBit o k b).power = s.power := rfl
@[simp] theorem State.setBit_pool (o k : Nat) (b : Bool) : (s.setBit o k b).pool = s.pool := rfl
@[simp] theorem State.setBit_time (o k : Nat) (b : Bool) : (s.setBit o k b).time = s.time := rfl
@[simp] theorem State.setBit_pins (o k : Nat) (b : Bool) : (s.setBit o k b).pins = s.pins := rfl
@[simp] theorem State.setBit_flash (o k : Nat) (b : Bool) : (s.setBit o k b).flash = s.flash := rfl
@[simp] theorem State.setBit_running (o k : Nat) (b : Bool) : (s.setBit o k b).running = s.running := rfl
@[simp] theorem State.setBit_boot (o k : Nat) (b : Bool) : (s.setBit o k b).boot = s.boot := rfl
@[simp] theorem State.setBit_update (o k : Nat) (b : Bool) : (s.setBit o k b).update = s.update := rfl
@[simp] theorem State.setBit_resetWaits (o k : Nat) (b : Bool) : (s.setBit o k b).resetWaits = s.resetWaits := rfl
@[simp] theorem State.setBit_resetAfterJobs (o k : Nat) (b : Bool) : (s.setBit o k b).resetAfterJobs = s.resetAfterJobs := rfl
@[simp] theorem State.setBit_second (o k : Nat) (b : Bool) : (s.setBit o k b).second = s.second := rfl
@[simp] theorem State.setBit_nextXfer (o k : Nat) (b : Bool) : (s.setBit o k b).nextXfer = s.nextXfer := rfl
@[simp] theorem State.setBit_netLost (o k : Nat) (b : Bool) : (s.setBit o k b).netLost = s.netLost := rfl
@[simp] theorem State.setBit_mailbox (o k : Nat) (b : Bool) : (s.setBit o k b).mailbox = s.mailbox := rfl
@[simp] theorem State.setBit_refusals (o k : Nat) (b : Bool) : (s.setBit o k b).refusals = s.refusals := rfl
@[simp] theorem State.setCore_pending (n : Fin 32) (c : Core) : (s.setCore n c).pending = s.pending := rfl
@[simp] theorem State.setCore_now (n : Fin 32) (c : Core) : (s.setCore n c).now = s.now := rfl
@[simp] theorem State.setCore_fresh (n : Fin 32) (c : Core) : (s.setCore n c).fresh = s.fresh := rfl
@[simp] theorem State.setCore_out (n : Fin 32) (c : Core) : (s.setCore n c).out = s.out := rfl
@[simp] theorem State.setCore_regs (n : Fin 32) (c : Core) : (s.setCore n c).regs = s.regs := rfl
@[simp] theorem State.setCore_mem (n : Fin 32) (c : Core) : (s.setCore n c).mem = s.mem := rfl
@[simp] theorem State.setCore_poison (n : Fin 32) (c : Core) : (s.setCore n c).poison = s.poison := rfl
@[simp] theorem State.setCore_ft (n : Fin 32) (c : Core) : (s.setCore n c).ft = s.ft := rfl
@[simp] theorem State.setCore_part (n : Fin 32) (c : Core) : (s.setCore n c).part = s.part := rfl
@[simp] theorem State.setCore_h1Lost (n : Fin 32) (c : Core) : (s.setCore n c).h1Lost = s.h1Lost := rfl
@[simp] theorem State.setCore_sinks (n : Fin 32) (c : Core) : (s.setCore n c).sinks = s.sinks := rfl
@[simp] theorem State.setCore_jobs (n : Fin 32) (c : Core) : (s.setCore n c).jobs = s.jobs := rfl
@[simp] theorem State.setCore_plan (n : Fin 32) (c : Core) : (s.setCore n c).plan = s.plan := rfl
@[simp] theorem State.setCore_links (n : Fin 32) (c : Core) : (s.setCore n c).links = s.links := rfl
@[simp] theorem State.setCore_outStreams (n : Fin 32) (c : Core) : (s.setCore n c).outStreams = s.outStreams := rfl
@[simp] theorem State.setCore_outMsgs (n : Fin 32) (c : Core) : (s.setCore n c).outMsgs = s.outMsgs := rfl
@[simp] theorem State.setCore_inStreams (n : Fin 32) (c : Core) : (s.setCore n c).inStreams = s.inStreams := rfl
@[simp] theorem State.setCore_heldPuts (n : Fin 32) (c : Core) : (s.setCore n c).heldPuts = s.heldPuts := rfl
@[simp] theorem State.setCore_heldReplies (n : Fin 32) (c : Core) : (s.setCore n c).heldReplies = s.heldReplies := rfl
@[simp] theorem State.setCore_known (n : Fin 32) (c : Core) : (s.setCore n c).known = s.known := rfl
@[simp] theorem State.setCore_crcTimes (n : Fin 32) (c : Core) : (s.setCore n c).crcTimes = s.crcTimes := rfl
@[simp] theorem State.setCore_heldDown (n : Fin 32) (c : Core) : (s.setCore n c).heldDown = s.heldDown := rfl
@[simp] theorem State.setCore_portFinds (n : Fin 32) (c : Core) : (s.setCore n c).portFinds = s.portFinds := rfl
@[simp] theorem State.setCore_groups (n : Fin 32) (c : Core) : (s.setCore n c).groups = s.groups := rfl
@[simp] theorem State.setCore_earlyJoins (n : Fin 32) (c : Core) : (s.setCore n c).earlyJoins = s.earlyJoins := rfl
@[simp] theorem State.setCore_forming (n : Fin 32) (c : Core) : (s.setCore n c).forming = s.forming := rfl
@[simp] theorem State.setCore_groupFails (n : Fin 32) (c : Core) : (s.setCore n c).groupFails = s.groupFails := rfl
@[simp] theorem State.setCore_lateRaised (n : Fin 32) (c : Core) : (s.setCore n c).lateRaised = s.lateRaised := rfl
@[simp] theorem State.setCore_halts (n : Fin 32) (c : Core) : (s.setCore n c).halts = s.halts := rfl
@[simp] theorem State.setCore_checkRaised (n : Fin 32) (c : Core) : (s.setCore n c).checkRaised = s.checkRaised := rfl
@[simp] theorem State.setCore_checkWithheld (n : Fin 32) (c : Core) : (s.setCore n c).checkWithheld = s.checkWithheld := rfl
@[simp] theorem State.setCore_eccRaised (n : Fin 32) (c : Core) : (s.setCore n c).eccRaised = s.eccRaised := rfl
@[simp] theorem State.setCore_health (n : Fin 32) (c : Core) : (s.setCore n c).health = s.health := rfl
@[simp] theorem State.setCore_drills (n : Fin 32) (c : Core) : (s.setCore n c).drills = s.drills := rfl
@[simp] theorem State.setCore_acquittal (n : Fin 32) (c : Core) : (s.setCore n c).acquittal = s.acquittal := rfl
@[simp] theorem State.setCore_halted (n : Fin 32) (c : Core) : (s.setCore n c).halted = s.halted := rfl
@[simp] theorem State.setCore_retained (n : Fin 32) (c : Core) : (s.setCore n c).retained = s.retained := rfl
@[simp] theorem State.setCore_admissions (n : Fin 32) (c : Core) : (s.setCore n c).admissions = s.admissions := rfl
@[simp] theorem State.setCore_rings (n : Fin 32) (c : Core) : (s.setCore n c).rings = s.rings := rfl
@[simp] theorem State.setCore_lastRecords (n : Fin 32) (c : Core) : (s.setCore n c).lastRecords = s.lastRecords := rfl
@[simp] theorem State.setCore_worklists (n : Fin 32) (c : Core) : (s.setCore n c).worklists = s.worklists := rfl
@[simp] theorem State.setCore_sessions (n : Fin 32) (c : Core) : (s.setCore n c).sessions = s.sessions := rfl
@[simp] theorem State.setCore_ports (n : Fin 32) (c : Core) : (s.setCore n c).ports = s.ports := rfl
@[simp] theorem State.setCore_conns (n : Fin 32) (c : Core) : (s.setCore n c).conns = s.conns := rfl
@[simp] theorem State.setCore_xfers (n : Fin 32) (c : Core) : (s.setCore n c).xfers = s.xfers := rfl
@[simp] theorem State.setCore_hull (n : Fin 32) (c : Core) : (s.setCore n c).hull = s.hull := rfl
@[simp] theorem State.setCore_ring (n : Fin 32) (c : Core) : (s.setCore n c).ring = s.ring := rfl
@[simp] theorem State.setCore_power (n : Fin 32) (c : Core) : (s.setCore n c).power = s.power := rfl
@[simp] theorem State.setCore_pool (n : Fin 32) (c : Core) : (s.setCore n c).pool = s.pool := rfl
@[simp] theorem State.setCore_time (n : Fin 32) (c : Core) : (s.setCore n c).time = s.time := rfl
@[simp] theorem State.setCore_pins (n : Fin 32) (c : Core) : (s.setCore n c).pins = s.pins := rfl
@[simp] theorem State.setCore_flash (n : Fin 32) (c : Core) : (s.setCore n c).flash = s.flash := rfl
@[simp] theorem State.setCore_running (n : Fin 32) (c : Core) : (s.setCore n c).running = s.running := rfl
@[simp] theorem State.setCore_boot (n : Fin 32) (c : Core) : (s.setCore n c).boot = s.boot := rfl
@[simp] theorem State.setCore_update (n : Fin 32) (c : Core) : (s.setCore n c).update = s.update := rfl
@[simp] theorem State.setCore_resetWaits (n : Fin 32) (c : Core) : (s.setCore n c).resetWaits = s.resetWaits := rfl
@[simp] theorem State.setCore_resetAfterJobs (n : Fin 32) (c : Core) : (s.setCore n c).resetAfterJobs = s.resetAfterJobs := rfl
@[simp] theorem State.setCore_second (n : Fin 32) (c : Core) : (s.setCore n c).second = s.second := rfl
@[simp] theorem State.setCore_nextXfer (n : Fin 32) (c : Core) : (s.setCore n c).nextXfer = s.nextXfer := rfl
@[simp] theorem State.setCore_netLost (n : Fin 32) (c : Core) : (s.setCore n c).netLost = s.netLost := rfl
@[simp] theorem State.setCore_mailbox (n : Fin 32) (c : Core) : (s.setCore n c).mailbox = s.mailbox := rfl
@[simp] theorem State.setCore_refusals (n : Fin 32) (c : Core) : (s.setCore n c).refusals = s.refusals := rfl
@[simp] theorem State.modCore_pending (n : Fin 32) (f : Core → Core) : (s.modCore n f).pending = s.pending := rfl
@[simp] theorem State.modCore_now (n : Fin 32) (f : Core → Core) : (s.modCore n f).now = s.now := rfl
@[simp] theorem State.modCore_fresh (n : Fin 32) (f : Core → Core) : (s.modCore n f).fresh = s.fresh := rfl
@[simp] theorem State.modCore_out (n : Fin 32) (f : Core → Core) : (s.modCore n f).out = s.out := rfl
@[simp] theorem State.modCore_regs (n : Fin 32) (f : Core → Core) : (s.modCore n f).regs = s.regs := rfl
@[simp] theorem State.modCore_mem (n : Fin 32) (f : Core → Core) : (s.modCore n f).mem = s.mem := rfl
@[simp] theorem State.modCore_poison (n : Fin 32) (f : Core → Core) : (s.modCore n f).poison = s.poison := rfl
@[simp] theorem State.modCore_ft (n : Fin 32) (f : Core → Core) : (s.modCore n f).ft = s.ft := rfl
@[simp] theorem State.modCore_part (n : Fin 32) (f : Core → Core) : (s.modCore n f).part = s.part := rfl
@[simp] theorem State.modCore_h1Lost (n : Fin 32) (f : Core → Core) : (s.modCore n f).h1Lost = s.h1Lost := rfl
@[simp] theorem State.modCore_sinks (n : Fin 32) (f : Core → Core) : (s.modCore n f).sinks = s.sinks := rfl
@[simp] theorem State.modCore_jobs (n : Fin 32) (f : Core → Core) : (s.modCore n f).jobs = s.jobs := rfl
@[simp] theorem State.modCore_plan (n : Fin 32) (f : Core → Core) : (s.modCore n f).plan = s.plan := rfl
@[simp] theorem State.modCore_links (n : Fin 32) (f : Core → Core) : (s.modCore n f).links = s.links := rfl
@[simp] theorem State.modCore_outStreams (n : Fin 32) (f : Core → Core) : (s.modCore n f).outStreams = s.outStreams := rfl
@[simp] theorem State.modCore_outMsgs (n : Fin 32) (f : Core → Core) : (s.modCore n f).outMsgs = s.outMsgs := rfl
@[simp] theorem State.modCore_inStreams (n : Fin 32) (f : Core → Core) : (s.modCore n f).inStreams = s.inStreams := rfl
@[simp] theorem State.modCore_heldPuts (n : Fin 32) (f : Core → Core) : (s.modCore n f).heldPuts = s.heldPuts := rfl
@[simp] theorem State.modCore_heldReplies (n : Fin 32) (f : Core → Core) : (s.modCore n f).heldReplies = s.heldReplies := rfl
@[simp] theorem State.modCore_known (n : Fin 32) (f : Core → Core) : (s.modCore n f).known = s.known := rfl
@[simp] theorem State.modCore_crcTimes (n : Fin 32) (f : Core → Core) : (s.modCore n f).crcTimes = s.crcTimes := rfl
@[simp] theorem State.modCore_heldDown (n : Fin 32) (f : Core → Core) : (s.modCore n f).heldDown = s.heldDown := rfl
@[simp] theorem State.modCore_portFinds (n : Fin 32) (f : Core → Core) : (s.modCore n f).portFinds = s.portFinds := rfl
@[simp] theorem State.modCore_groups (n : Fin 32) (f : Core → Core) : (s.modCore n f).groups = s.groups := rfl
@[simp] theorem State.modCore_earlyJoins (n : Fin 32) (f : Core → Core) : (s.modCore n f).earlyJoins = s.earlyJoins := rfl
@[simp] theorem State.modCore_forming (n : Fin 32) (f : Core → Core) : (s.modCore n f).forming = s.forming := rfl
@[simp] theorem State.modCore_groupFails (n : Fin 32) (f : Core → Core) : (s.modCore n f).groupFails = s.groupFails := rfl
@[simp] theorem State.modCore_lateRaised (n : Fin 32) (f : Core → Core) : (s.modCore n f).lateRaised = s.lateRaised := rfl
@[simp] theorem State.modCore_halts (n : Fin 32) (f : Core → Core) : (s.modCore n f).halts = s.halts := rfl
@[simp] theorem State.modCore_checkRaised (n : Fin 32) (f : Core → Core) : (s.modCore n f).checkRaised = s.checkRaised := rfl
@[simp] theorem State.modCore_checkWithheld (n : Fin 32) (f : Core → Core) : (s.modCore n f).checkWithheld = s.checkWithheld := rfl
@[simp] theorem State.modCore_eccRaised (n : Fin 32) (f : Core → Core) : (s.modCore n f).eccRaised = s.eccRaised := rfl
@[simp] theorem State.modCore_health (n : Fin 32) (f : Core → Core) : (s.modCore n f).health = s.health := rfl
@[simp] theorem State.modCore_drills (n : Fin 32) (f : Core → Core) : (s.modCore n f).drills = s.drills := rfl
@[simp] theorem State.modCore_acquittal (n : Fin 32) (f : Core → Core) : (s.modCore n f).acquittal = s.acquittal := rfl
@[simp] theorem State.modCore_halted (n : Fin 32) (f : Core → Core) : (s.modCore n f).halted = s.halted := rfl
@[simp] theorem State.modCore_retained (n : Fin 32) (f : Core → Core) : (s.modCore n f).retained = s.retained := rfl
@[simp] theorem State.modCore_admissions (n : Fin 32) (f : Core → Core) : (s.modCore n f).admissions = s.admissions := rfl
@[simp] theorem State.modCore_rings (n : Fin 32) (f : Core → Core) : (s.modCore n f).rings = s.rings := rfl
@[simp] theorem State.modCore_lastRecords (n : Fin 32) (f : Core → Core) : (s.modCore n f).lastRecords = s.lastRecords := rfl
@[simp] theorem State.modCore_worklists (n : Fin 32) (f : Core → Core) : (s.modCore n f).worklists = s.worklists := rfl
@[simp] theorem State.modCore_sessions (n : Fin 32) (f : Core → Core) : (s.modCore n f).sessions = s.sessions := rfl
@[simp] theorem State.modCore_ports (n : Fin 32) (f : Core → Core) : (s.modCore n f).ports = s.ports := rfl
@[simp] theorem State.modCore_conns (n : Fin 32) (f : Core → Core) : (s.modCore n f).conns = s.conns := rfl
@[simp] theorem State.modCore_xfers (n : Fin 32) (f : Core → Core) : (s.modCore n f).xfers = s.xfers := rfl
@[simp] theorem State.modCore_hull (n : Fin 32) (f : Core → Core) : (s.modCore n f).hull = s.hull := rfl
@[simp] theorem State.modCore_ring (n : Fin 32) (f : Core → Core) : (s.modCore n f).ring = s.ring := rfl
@[simp] theorem State.modCore_power (n : Fin 32) (f : Core → Core) : (s.modCore n f).power = s.power := rfl
@[simp] theorem State.modCore_pool (n : Fin 32) (f : Core → Core) : (s.modCore n f).pool = s.pool := rfl
@[simp] theorem State.modCore_time (n : Fin 32) (f : Core → Core) : (s.modCore n f).time = s.time := rfl
@[simp] theorem State.modCore_pins (n : Fin 32) (f : Core → Core) : (s.modCore n f).pins = s.pins := rfl
@[simp] theorem State.modCore_flash (n : Fin 32) (f : Core → Core) : (s.modCore n f).flash = s.flash := rfl
@[simp] theorem State.modCore_running (n : Fin 32) (f : Core → Core) : (s.modCore n f).running = s.running := rfl
@[simp] theorem State.modCore_boot (n : Fin 32) (f : Core → Core) : (s.modCore n f).boot = s.boot := rfl
@[simp] theorem State.modCore_update (n : Fin 32) (f : Core → Core) : (s.modCore n f).update = s.update := rfl
@[simp] theorem State.modCore_resetWaits (n : Fin 32) (f : Core → Core) : (s.modCore n f).resetWaits = s.resetWaits := rfl
@[simp] theorem State.modCore_resetAfterJobs (n : Fin 32) (f : Core → Core) : (s.modCore n f).resetAfterJobs = s.resetAfterJobs := rfl
@[simp] theorem State.modCore_second (n : Fin 32) (f : Core → Core) : (s.modCore n f).second = s.second := rfl
@[simp] theorem State.modCore_nextXfer (n : Fin 32) (f : Core → Core) : (s.modCore n f).nextXfer = s.nextXfer := rfl
@[simp] theorem State.modCore_netLost (n : Fin 32) (f : Core → Core) : (s.modCore n f).netLost = s.netLost := rfl
@[simp] theorem State.modCore_mailbox (n : Fin 32) (f : Core → Core) : (s.modCore n f).mailbox = s.mailbox := rfl
@[simp] theorem State.modCore_refusals (n : Fin 32) (f : Core → Core) : (s.modCore n f).refusals = s.refusals := rfl
@[simp] theorem State.emit_pending (x : Output) : (s.emit x).pending = s.pending := rfl
@[simp] theorem State.emit_now (x : Output) : (s.emit x).now = s.now := rfl
@[simp] theorem State.emit_fresh (x : Output) : (s.emit x).fresh = s.fresh := rfl
@[simp] theorem State.emit_regs (x : Output) : (s.emit x).regs = s.regs := rfl
@[simp] theorem State.emit_mem (x : Output) : (s.emit x).mem = s.mem := rfl
@[simp] theorem State.emit_poison (x : Output) : (s.emit x).poison = s.poison := rfl
@[simp] theorem State.emit_cores (x : Output) : (s.emit x).cores = s.cores := rfl
@[simp] theorem State.emit_ft (x : Output) : (s.emit x).ft = s.ft := rfl
@[simp] theorem State.emit_part (x : Output) : (s.emit x).part = s.part := rfl
@[simp] theorem State.emit_h1Lost (x : Output) : (s.emit x).h1Lost = s.h1Lost := rfl
@[simp] theorem State.emit_sinks (x : Output) : (s.emit x).sinks = s.sinks := rfl
@[simp] theorem State.emit_jobs (x : Output) : (s.emit x).jobs = s.jobs := rfl
@[simp] theorem State.emit_plan (x : Output) : (s.emit x).plan = s.plan := rfl
@[simp] theorem State.emit_links (x : Output) : (s.emit x).links = s.links := rfl
@[simp] theorem State.emit_outStreams (x : Output) : (s.emit x).outStreams = s.outStreams := rfl
@[simp] theorem State.emit_outMsgs (x : Output) : (s.emit x).outMsgs = s.outMsgs := rfl
@[simp] theorem State.emit_inStreams (x : Output) : (s.emit x).inStreams = s.inStreams := rfl
@[simp] theorem State.emit_heldPuts (x : Output) : (s.emit x).heldPuts = s.heldPuts := rfl
@[simp] theorem State.emit_heldReplies (x : Output) : (s.emit x).heldReplies = s.heldReplies := rfl
@[simp] theorem State.emit_known (x : Output) : (s.emit x).known = s.known := rfl
@[simp] theorem State.emit_crcTimes (x : Output) : (s.emit x).crcTimes = s.crcTimes := rfl
@[simp] theorem State.emit_heldDown (x : Output) : (s.emit x).heldDown = s.heldDown := rfl
@[simp] theorem State.emit_portFinds (x : Output) : (s.emit x).portFinds = s.portFinds := rfl
@[simp] theorem State.emit_groups (x : Output) : (s.emit x).groups = s.groups := rfl
@[simp] theorem State.emit_earlyJoins (x : Output) : (s.emit x).earlyJoins = s.earlyJoins := rfl
@[simp] theorem State.emit_forming (x : Output) : (s.emit x).forming = s.forming := rfl
@[simp] theorem State.emit_groupFails (x : Output) : (s.emit x).groupFails = s.groupFails := rfl
@[simp] theorem State.emit_lateRaised (x : Output) : (s.emit x).lateRaised = s.lateRaised := rfl
@[simp] theorem State.emit_halts (x : Output) : (s.emit x).halts = s.halts := rfl
@[simp] theorem State.emit_checkRaised (x : Output) : (s.emit x).checkRaised = s.checkRaised := rfl
@[simp] theorem State.emit_checkWithheld (x : Output) : (s.emit x).checkWithheld = s.checkWithheld := rfl
@[simp] theorem State.emit_eccRaised (x : Output) : (s.emit x).eccRaised = s.eccRaised := rfl
@[simp] theorem State.emit_health (x : Output) : (s.emit x).health = s.health := rfl
@[simp] theorem State.emit_drills (x : Output) : (s.emit x).drills = s.drills := rfl
@[simp] theorem State.emit_acquittal (x : Output) : (s.emit x).acquittal = s.acquittal := rfl
@[simp] theorem State.emit_halted (x : Output) : (s.emit x).halted = s.halted := rfl
@[simp] theorem State.emit_retained (x : Output) : (s.emit x).retained = s.retained := rfl
@[simp] theorem State.emit_admissions (x : Output) : (s.emit x).admissions = s.admissions := rfl
@[simp] theorem State.emit_rings (x : Output) : (s.emit x).rings = s.rings := rfl
@[simp] theorem State.emit_lastRecords (x : Output) : (s.emit x).lastRecords = s.lastRecords := rfl
@[simp] theorem State.emit_worklists (x : Output) : (s.emit x).worklists = s.worklists := rfl
@[simp] theorem State.emit_sessions (x : Output) : (s.emit x).sessions = s.sessions := rfl
@[simp] theorem State.emit_ports (x : Output) : (s.emit x).ports = s.ports := rfl
@[simp] theorem State.emit_conns (x : Output) : (s.emit x).conns = s.conns := rfl
@[simp] theorem State.emit_xfers (x : Output) : (s.emit x).xfers = s.xfers := rfl
@[simp] theorem State.emit_hull (x : Output) : (s.emit x).hull = s.hull := rfl
@[simp] theorem State.emit_ring (x : Output) : (s.emit x).ring = s.ring := rfl
@[simp] theorem State.emit_power (x : Output) : (s.emit x).power = s.power := rfl
@[simp] theorem State.emit_pool (x : Output) : (s.emit x).pool = s.pool := rfl
@[simp] theorem State.emit_time (x : Output) : (s.emit x).time = s.time := rfl
@[simp] theorem State.emit_pins (x : Output) : (s.emit x).pins = s.pins := rfl
@[simp] theorem State.emit_flash (x : Output) : (s.emit x).flash = s.flash := rfl
@[simp] theorem State.emit_running (x : Output) : (s.emit x).running = s.running := rfl
@[simp] theorem State.emit_boot (x : Output) : (s.emit x).boot = s.boot := rfl
@[simp] theorem State.emit_update (x : Output) : (s.emit x).update = s.update := rfl
@[simp] theorem State.emit_resetWaits (x : Output) : (s.emit x).resetWaits = s.resetWaits := rfl
@[simp] theorem State.emit_resetAfterJobs (x : Output) : (s.emit x).resetAfterJobs = s.resetAfterJobs := rfl
@[simp] theorem State.emit_second (x : Output) : (s.emit x).second = s.second := rfl
@[simp] theorem State.emit_nextXfer (x : Output) : (s.emit x).nextXfer = s.nextXfer := rfl
@[simp] theorem State.emit_netLost (x : Output) : (s.emit x).netLost = s.netLost := rfl
@[simp] theorem State.emit_mailbox (x : Output) : (s.emit x).mailbox = s.mailbox := rfl
@[simp] theorem State.emit_refusals (x : Output) : (s.emit x).refusals = s.refusals := rfl
@[simp] theorem State.drew_pending : s.drew.pending = s.pending := rfl
@[simp] theorem State.drew_now : s.drew.now = s.now := rfl
@[simp] theorem State.drew_out : s.drew.out = s.out := rfl
@[simp] theorem State.drew_regs : s.drew.regs = s.regs := rfl
@[simp] theorem State.drew_mem : s.drew.mem = s.mem := rfl
@[simp] theorem State.drew_poison : s.drew.poison = s.poison := rfl
@[simp] theorem State.drew_cores : s.drew.cores = s.cores := rfl
@[simp] theorem State.drew_ft : s.drew.ft = s.ft := rfl
@[simp] theorem State.drew_part : s.drew.part = s.part := rfl
@[simp] theorem State.drew_h1Lost : s.drew.h1Lost = s.h1Lost := rfl
@[simp] theorem State.drew_sinks : s.drew.sinks = s.sinks := rfl
@[simp] theorem State.drew_jobs : s.drew.jobs = s.jobs := rfl
@[simp] theorem State.drew_plan : s.drew.plan = s.plan := rfl
@[simp] theorem State.drew_links : s.drew.links = s.links := rfl
@[simp] theorem State.drew_outStreams : s.drew.outStreams = s.outStreams := rfl
@[simp] theorem State.drew_outMsgs : s.drew.outMsgs = s.outMsgs := rfl
@[simp] theorem State.drew_inStreams : s.drew.inStreams = s.inStreams := rfl
@[simp] theorem State.drew_heldPuts : s.drew.heldPuts = s.heldPuts := rfl
@[simp] theorem State.drew_heldReplies : s.drew.heldReplies = s.heldReplies := rfl
@[simp] theorem State.drew_known : s.drew.known = s.known := rfl
@[simp] theorem State.drew_crcTimes : s.drew.crcTimes = s.crcTimes := rfl
@[simp] theorem State.drew_heldDown : s.drew.heldDown = s.heldDown := rfl
@[simp] theorem State.drew_portFinds : s.drew.portFinds = s.portFinds := rfl
@[simp] theorem State.drew_groups : s.drew.groups = s.groups := rfl
@[simp] theorem State.drew_earlyJoins : s.drew.earlyJoins = s.earlyJoins := rfl
@[simp] theorem State.drew_forming : s.drew.forming = s.forming := rfl
@[simp] theorem State.drew_groupFails : s.drew.groupFails = s.groupFails := rfl
@[simp] theorem State.drew_lateRaised : s.drew.lateRaised = s.lateRaised := rfl
@[simp] theorem State.drew_halts : s.drew.halts = s.halts := rfl
@[simp] theorem State.drew_checkRaised : s.drew.checkRaised = s.checkRaised := rfl
@[simp] theorem State.drew_checkWithheld : s.drew.checkWithheld = s.checkWithheld := rfl
@[simp] theorem State.drew_eccRaised : s.drew.eccRaised = s.eccRaised := rfl
@[simp] theorem State.drew_health : s.drew.health = s.health := rfl
@[simp] theorem State.drew_drills : s.drew.drills = s.drills := rfl
@[simp] theorem State.drew_acquittal : s.drew.acquittal = s.acquittal := rfl
@[simp] theorem State.drew_halted : s.drew.halted = s.halted := rfl
@[simp] theorem State.drew_retained : s.drew.retained = s.retained := rfl
@[simp] theorem State.drew_admissions : s.drew.admissions = s.admissions := rfl
@[simp] theorem State.drew_rings : s.drew.rings = s.rings := rfl
@[simp] theorem State.drew_lastRecords : s.drew.lastRecords = s.lastRecords := rfl
@[simp] theorem State.drew_worklists : s.drew.worklists = s.worklists := rfl
@[simp] theorem State.drew_sessions : s.drew.sessions = s.sessions := rfl
@[simp] theorem State.drew_ports : s.drew.ports = s.ports := rfl
@[simp] theorem State.drew_conns : s.drew.conns = s.conns := rfl
@[simp] theorem State.drew_xfers : s.drew.xfers = s.xfers := rfl
@[simp] theorem State.drew_hull : s.drew.hull = s.hull := rfl
@[simp] theorem State.drew_ring : s.drew.ring = s.ring := rfl
@[simp] theorem State.drew_power : s.drew.power = s.power := rfl
@[simp] theorem State.drew_pool : s.drew.pool = s.pool := rfl
@[simp] theorem State.drew_time : s.drew.time = s.time := rfl
@[simp] theorem State.drew_pins : s.drew.pins = s.pins := rfl
@[simp] theorem State.drew_flash : s.drew.flash = s.flash := rfl
@[simp] theorem State.drew_running : s.drew.running = s.running := rfl
@[simp] theorem State.drew_boot : s.drew.boot = s.boot := rfl
@[simp] theorem State.drew_update : s.drew.update = s.update := rfl
@[simp] theorem State.drew_resetWaits : s.drew.resetWaits = s.resetWaits := rfl
@[simp] theorem State.drew_resetAfterJobs : s.drew.resetAfterJobs = s.resetAfterJobs := rfl
@[simp] theorem State.drew_second : s.drew.second = s.second := rfl
@[simp] theorem State.drew_nextXfer : s.drew.nextXfer = s.nextXfer := rfl
@[simp] theorem State.drew_netLost : s.drew.netLost = s.netLost := rfl
@[simp] theorem State.drew_mailbox : s.drew.mailbox = s.mailbox := rfl
@[simp] theorem State.drew_refusals : s.drew.refusals = s.refusals := rfl
@[simp] theorem State.writeBytes_pending (a : Nat) (l : List Byte) : (s.writeBytes a l).pending = s.pending := rfl
@[simp] theorem State.writeBytes_now (a : Nat) (l : List Byte) : (s.writeBytes a l).now = s.now := rfl
@[simp] theorem State.writeBytes_fresh (a : Nat) (l : List Byte) : (s.writeBytes a l).fresh = s.fresh := rfl
@[simp] theorem State.writeBytes_out (a : Nat) (l : List Byte) : (s.writeBytes a l).out = s.out := rfl
@[simp] theorem State.writeBytes_regs (a : Nat) (l : List Byte) : (s.writeBytes a l).regs = s.regs := rfl
@[simp] theorem State.writeBytes_cores (a : Nat) (l : List Byte) : (s.writeBytes a l).cores = s.cores := rfl
@[simp] theorem State.writeBytes_ft (a : Nat) (l : List Byte) : (s.writeBytes a l).ft = s.ft := rfl
@[simp] theorem State.writeBytes_part (a : Nat) (l : List Byte) : (s.writeBytes a l).part = s.part := rfl
@[simp] theorem State.writeBytes_h1Lost (a : Nat) (l : List Byte) : (s.writeBytes a l).h1Lost = s.h1Lost := rfl
@[simp] theorem State.writeBytes_sinks (a : Nat) (l : List Byte) : (s.writeBytes a l).sinks = s.sinks := rfl
@[simp] theorem State.writeBytes_jobs (a : Nat) (l : List Byte) : (s.writeBytes a l).jobs = s.jobs := rfl
@[simp] theorem State.writeBytes_plan (a : Nat) (l : List Byte) : (s.writeBytes a l).plan = s.plan := rfl
@[simp] theorem State.writeBytes_links (a : Nat) (l : List Byte) : (s.writeBytes a l).links = s.links := rfl
@[simp] theorem State.writeBytes_outStreams (a : Nat) (l : List Byte) : (s.writeBytes a l).outStreams = s.outStreams := rfl
@[simp] theorem State.writeBytes_outMsgs (a : Nat) (l : List Byte) : (s.writeBytes a l).outMsgs = s.outMsgs := rfl
@[simp] theorem State.writeBytes_inStreams (a : Nat) (l : List Byte) : (s.writeBytes a l).inStreams = s.inStreams := rfl
@[simp] theorem State.writeBytes_heldPuts (a : Nat) (l : List Byte) : (s.writeBytes a l).heldPuts = s.heldPuts := rfl
@[simp] theorem State.writeBytes_heldReplies (a : Nat) (l : List Byte) : (s.writeBytes a l).heldReplies = s.heldReplies := rfl
@[simp] theorem State.writeBytes_known (a : Nat) (l : List Byte) : (s.writeBytes a l).known = s.known := rfl
@[simp] theorem State.writeBytes_crcTimes (a : Nat) (l : List Byte) : (s.writeBytes a l).crcTimes = s.crcTimes := rfl
@[simp] theorem State.writeBytes_heldDown (a : Nat) (l : List Byte) : (s.writeBytes a l).heldDown = s.heldDown := rfl
@[simp] theorem State.writeBytes_portFinds (a : Nat) (l : List Byte) : (s.writeBytes a l).portFinds = s.portFinds := rfl
@[simp] theorem State.writeBytes_groups (a : Nat) (l : List Byte) : (s.writeBytes a l).groups = s.groups := rfl
@[simp] theorem State.writeBytes_earlyJoins (a : Nat) (l : List Byte) : (s.writeBytes a l).earlyJoins = s.earlyJoins := rfl
@[simp] theorem State.writeBytes_forming (a : Nat) (l : List Byte) : (s.writeBytes a l).forming = s.forming := rfl
@[simp] theorem State.writeBytes_groupFails (a : Nat) (l : List Byte) : (s.writeBytes a l).groupFails = s.groupFails := rfl
@[simp] theorem State.writeBytes_lateRaised (a : Nat) (l : List Byte) : (s.writeBytes a l).lateRaised = s.lateRaised := rfl
@[simp] theorem State.writeBytes_halts (a : Nat) (l : List Byte) : (s.writeBytes a l).halts = s.halts := rfl
@[simp] theorem State.writeBytes_checkRaised (a : Nat) (l : List Byte) : (s.writeBytes a l).checkRaised = s.checkRaised := rfl
@[simp] theorem State.writeBytes_checkWithheld (a : Nat) (l : List Byte) : (s.writeBytes a l).checkWithheld = s.checkWithheld := rfl
@[simp] theorem State.writeBytes_eccRaised (a : Nat) (l : List Byte) : (s.writeBytes a l).eccRaised = s.eccRaised := rfl
@[simp] theorem State.writeBytes_health (a : Nat) (l : List Byte) : (s.writeBytes a l).health = s.health := rfl
@[simp] theorem State.writeBytes_drills (a : Nat) (l : List Byte) : (s.writeBytes a l).drills = s.drills := rfl
@[simp] theorem State.writeBytes_acquittal (a : Nat) (l : List Byte) : (s.writeBytes a l).acquittal = s.acquittal := rfl
@[simp] theorem State.writeBytes_halted (a : Nat) (l : List Byte) : (s.writeBytes a l).halted = s.halted := rfl
@[simp] theorem State.writeBytes_retained (a : Nat) (l : List Byte) : (s.writeBytes a l).retained = s.retained := rfl
@[simp] theorem State.writeBytes_admissions (a : Nat) (l : List Byte) : (s.writeBytes a l).admissions = s.admissions := rfl
@[simp] theorem State.writeBytes_rings (a : Nat) (l : List Byte) : (s.writeBytes a l).rings = s.rings := rfl
@[simp] theorem State.writeBytes_lastRecords (a : Nat) (l : List Byte) : (s.writeBytes a l).lastRecords = s.lastRecords := rfl
@[simp] theorem State.writeBytes_worklists (a : Nat) (l : List Byte) : (s.writeBytes a l).worklists = s.worklists := rfl
@[simp] theorem State.writeBytes_sessions (a : Nat) (l : List Byte) : (s.writeBytes a l).sessions = s.sessions := rfl
@[simp] theorem State.writeBytes_ports (a : Nat) (l : List Byte) : (s.writeBytes a l).ports = s.ports := rfl
@[simp] theorem State.writeBytes_conns (a : Nat) (l : List Byte) : (s.writeBytes a l).conns = s.conns := rfl
@[simp] theorem State.writeBytes_xfers (a : Nat) (l : List Byte) : (s.writeBytes a l).xfers = s.xfers := rfl
@[simp] theorem State.writeBytes_hull (a : Nat) (l : List Byte) : (s.writeBytes a l).hull = s.hull := rfl
@[simp] theorem State.writeBytes_ring (a : Nat) (l : List Byte) : (s.writeBytes a l).ring = s.ring := rfl
@[simp] theorem State.writeBytes_power (a : Nat) (l : List Byte) : (s.writeBytes a l).power = s.power := rfl
@[simp] theorem State.writeBytes_pool (a : Nat) (l : List Byte) : (s.writeBytes a l).pool = s.pool := rfl
@[simp] theorem State.writeBytes_time (a : Nat) (l : List Byte) : (s.writeBytes a l).time = s.time := rfl
@[simp] theorem State.writeBytes_pins (a : Nat) (l : List Byte) : (s.writeBytes a l).pins = s.pins := rfl
@[simp] theorem State.writeBytes_flash (a : Nat) (l : List Byte) : (s.writeBytes a l).flash = s.flash := rfl
@[simp] theorem State.writeBytes_running (a : Nat) (l : List Byte) : (s.writeBytes a l).running = s.running := rfl
@[simp] theorem State.writeBytes_boot (a : Nat) (l : List Byte) : (s.writeBytes a l).boot = s.boot := rfl
@[simp] theorem State.writeBytes_update (a : Nat) (l : List Byte) : (s.writeBytes a l).update = s.update := rfl
@[simp] theorem State.writeBytes_resetWaits (a : Nat) (l : List Byte) : (s.writeBytes a l).resetWaits = s.resetWaits := rfl
@[simp] theorem State.writeBytes_resetAfterJobs (a : Nat) (l : List Byte) : (s.writeBytes a l).resetAfterJobs = s.resetAfterJobs := rfl
@[simp] theorem State.writeBytes_second (a : Nat) (l : List Byte) : (s.writeBytes a l).second = s.second := rfl
@[simp] theorem State.writeBytes_nextXfer (a : Nat) (l : List Byte) : (s.writeBytes a l).nextXfer = s.nextXfer := rfl
@[simp] theorem State.writeBytes_netLost (a : Nat) (l : List Byte) : (s.writeBytes a l).netLost = s.netLost := rfl
@[simp] theorem State.writeBytes_mailbox (a : Nat) (l : List Byte) : (s.writeBytes a l).mailbox = s.mailbox := rfl
@[simp] theorem State.writeBytes_refusals (a : Nat) (l : List Byte) : (s.writeBytes a l).refusals = s.refusals := rfl
@[simp] theorem State.clearRange_pending (a k : Nat) : (s.clearRange a k).pending = s.pending := rfl
@[simp] theorem State.clearRange_now (a k : Nat) : (s.clearRange a k).now = s.now := rfl
@[simp] theorem State.clearRange_fresh (a k : Nat) : (s.clearRange a k).fresh = s.fresh := rfl
@[simp] theorem State.clearRange_out (a k : Nat) : (s.clearRange a k).out = s.out := rfl
@[simp] theorem State.clearRange_regs (a k : Nat) : (s.clearRange a k).regs = s.regs := rfl
@[simp] theorem State.clearRange_cores (a k : Nat) : (s.clearRange a k).cores = s.cores := rfl
@[simp] theorem State.clearRange_ft (a k : Nat) : (s.clearRange a k).ft = s.ft := rfl
@[simp] theorem State.clearRange_part (a k : Nat) : (s.clearRange a k).part = s.part := rfl
@[simp] theorem State.clearRange_h1Lost (a k : Nat) : (s.clearRange a k).h1Lost = s.h1Lost := rfl
@[simp] theorem State.clearRange_sinks (a k : Nat) : (s.clearRange a k).sinks = s.sinks := rfl
@[simp] theorem State.clearRange_jobs (a k : Nat) : (s.clearRange a k).jobs = s.jobs := rfl
@[simp] theorem State.clearRange_plan (a k : Nat) : (s.clearRange a k).plan = s.plan := rfl
@[simp] theorem State.clearRange_links (a k : Nat) : (s.clearRange a k).links = s.links := rfl
@[simp] theorem State.clearRange_outStreams (a k : Nat) : (s.clearRange a k).outStreams = s.outStreams := rfl
@[simp] theorem State.clearRange_outMsgs (a k : Nat) : (s.clearRange a k).outMsgs = s.outMsgs := rfl
@[simp] theorem State.clearRange_inStreams (a k : Nat) : (s.clearRange a k).inStreams = s.inStreams := rfl
@[simp] theorem State.clearRange_heldPuts (a k : Nat) : (s.clearRange a k).heldPuts = s.heldPuts := rfl
@[simp] theorem State.clearRange_heldReplies (a k : Nat) : (s.clearRange a k).heldReplies = s.heldReplies := rfl
@[simp] theorem State.clearRange_known (a k : Nat) : (s.clearRange a k).known = s.known := rfl
@[simp] theorem State.clearRange_crcTimes (a k : Nat) : (s.clearRange a k).crcTimes = s.crcTimes := rfl
@[simp] theorem State.clearRange_heldDown (a k : Nat) : (s.clearRange a k).heldDown = s.heldDown := rfl
@[simp] theorem State.clearRange_portFinds (a k : Nat) : (s.clearRange a k).portFinds = s.portFinds := rfl
@[simp] theorem State.clearRange_groups (a k : Nat) : (s.clearRange a k).groups = s.groups := rfl
@[simp] theorem State.clearRange_earlyJoins (a k : Nat) : (s.clearRange a k).earlyJoins = s.earlyJoins := rfl
@[simp] theorem State.clearRange_forming (a k : Nat) : (s.clearRange a k).forming = s.forming := rfl
@[simp] theorem State.clearRange_groupFails (a k : Nat) : (s.clearRange a k).groupFails = s.groupFails := rfl
@[simp] theorem State.clearRange_lateRaised (a k : Nat) : (s.clearRange a k).lateRaised = s.lateRaised := rfl
@[simp] theorem State.clearRange_halts (a k : Nat) : (s.clearRange a k).halts = s.halts := rfl
@[simp] theorem State.clearRange_checkRaised (a k : Nat) : (s.clearRange a k).checkRaised = s.checkRaised := rfl
@[simp] theorem State.clearRange_checkWithheld (a k : Nat) : (s.clearRange a k).checkWithheld = s.checkWithheld := rfl
@[simp] theorem State.clearRange_eccRaised (a k : Nat) : (s.clearRange a k).eccRaised = s.eccRaised := rfl
@[simp] theorem State.clearRange_health (a k : Nat) : (s.clearRange a k).health = s.health := rfl
@[simp] theorem State.clearRange_drills (a k : Nat) : (s.clearRange a k).drills = s.drills := rfl
@[simp] theorem State.clearRange_acquittal (a k : Nat) : (s.clearRange a k).acquittal = s.acquittal := rfl
@[simp] theorem State.clearRange_halted (a k : Nat) : (s.clearRange a k).halted = s.halted := rfl
@[simp] theorem State.clearRange_retained (a k : Nat) : (s.clearRange a k).retained = s.retained := rfl
@[simp] theorem State.clearRange_admissions (a k : Nat) : (s.clearRange a k).admissions = s.admissions := rfl
@[simp] theorem State.clearRange_rings (a k : Nat) : (s.clearRange a k).rings = s.rings := rfl
@[simp] theorem State.clearRange_lastRecords (a k : Nat) : (s.clearRange a k).lastRecords = s.lastRecords := rfl
@[simp] theorem State.clearRange_worklists (a k : Nat) : (s.clearRange a k).worklists = s.worklists := rfl
@[simp] theorem State.clearRange_sessions (a k : Nat) : (s.clearRange a k).sessions = s.sessions := rfl
@[simp] theorem State.clearRange_ports (a k : Nat) : (s.clearRange a k).ports = s.ports := rfl
@[simp] theorem State.clearRange_conns (a k : Nat) : (s.clearRange a k).conns = s.conns := rfl
@[simp] theorem State.clearRange_xfers (a k : Nat) : (s.clearRange a k).xfers = s.xfers := rfl
@[simp] theorem State.clearRange_hull (a k : Nat) : (s.clearRange a k).hull = s.hull := rfl
@[simp] theorem State.clearRange_ring (a k : Nat) : (s.clearRange a k).ring = s.ring := rfl
@[simp] theorem State.clearRange_power (a k : Nat) : (s.clearRange a k).power = s.power := rfl
@[simp] theorem State.clearRange_pool (a k : Nat) : (s.clearRange a k).pool = s.pool := rfl
@[simp] theorem State.clearRange_time (a k : Nat) : (s.clearRange a k).time = s.time := rfl
@[simp] theorem State.clearRange_pins (a k : Nat) : (s.clearRange a k).pins = s.pins := rfl
@[simp] theorem State.clearRange_flash (a k : Nat) : (s.clearRange a k).flash = s.flash := rfl
@[simp] theorem State.clearRange_running (a k : Nat) : (s.clearRange a k).running = s.running := rfl
@[simp] theorem State.clearRange_boot (a k : Nat) : (s.clearRange a k).boot = s.boot := rfl
@[simp] theorem State.clearRange_update (a k : Nat) : (s.clearRange a k).update = s.update := rfl
@[simp] theorem State.clearRange_resetWaits (a k : Nat) : (s.clearRange a k).resetWaits = s.resetWaits := rfl
@[simp] theorem State.clearRange_resetAfterJobs (a k : Nat) : (s.clearRange a k).resetAfterJobs = s.resetAfterJobs := rfl
@[simp] theorem State.clearRange_second (a k : Nat) : (s.clearRange a k).second = s.second := rfl
@[simp] theorem State.clearRange_nextXfer (a k : Nat) : (s.clearRange a k).nextXfer = s.nextXfer := rfl
@[simp] theorem State.clearRange_netLost (a k : Nat) : (s.clearRange a k).netLost = s.netLost := rfl
@[simp] theorem State.clearRange_mailbox (a k : Nat) : (s.clearRange a k).mailbox = s.mailbox := rfl
@[simp] theorem State.clearRange_refusals (a k : Nat) : (s.clearRange a k).refusals = s.refusals := rfl
@[simp] theorem State.askHalt_pending (h : HaltRequest) : (s.askHalt h).pending = s.pending := rfl
@[simp] theorem State.askHalt_now (h : HaltRequest) : (s.askHalt h).now = s.now := rfl
@[simp] theorem State.askHalt_fresh (h : HaltRequest) : (s.askHalt h).fresh = s.fresh := rfl
@[simp] theorem State.askHalt_out (h : HaltRequest) : (s.askHalt h).out = s.out := rfl
@[simp] theorem State.askHalt_regs (h : HaltRequest) : (s.askHalt h).regs = s.regs := rfl
@[simp] theorem State.askHalt_mem (h : HaltRequest) : (s.askHalt h).mem = s.mem := rfl
@[simp] theorem State.askHalt_poison (h : HaltRequest) : (s.askHalt h).poison = s.poison := rfl
@[simp] theorem State.askHalt_cores (h : HaltRequest) : (s.askHalt h).cores = s.cores := rfl
@[simp] theorem State.askHalt_ft (h : HaltRequest) : (s.askHalt h).ft = s.ft := rfl
@[simp] theorem State.askHalt_part (h : HaltRequest) : (s.askHalt h).part = s.part := rfl
@[simp] theorem State.askHalt_h1Lost (h : HaltRequest) : (s.askHalt h).h1Lost = s.h1Lost := rfl
@[simp] theorem State.askHalt_sinks (h : HaltRequest) : (s.askHalt h).sinks = s.sinks := rfl
@[simp] theorem State.askHalt_jobs (h : HaltRequest) : (s.askHalt h).jobs = s.jobs := rfl
@[simp] theorem State.askHalt_plan (h : HaltRequest) : (s.askHalt h).plan = s.plan := rfl
@[simp] theorem State.askHalt_links (h : HaltRequest) : (s.askHalt h).links = s.links := rfl
@[simp] theorem State.askHalt_outStreams (h : HaltRequest) : (s.askHalt h).outStreams = s.outStreams := rfl
@[simp] theorem State.askHalt_outMsgs (h : HaltRequest) : (s.askHalt h).outMsgs = s.outMsgs := rfl
@[simp] theorem State.askHalt_inStreams (h : HaltRequest) : (s.askHalt h).inStreams = s.inStreams := rfl
@[simp] theorem State.askHalt_heldPuts (h : HaltRequest) : (s.askHalt h).heldPuts = s.heldPuts := rfl
@[simp] theorem State.askHalt_heldReplies (h : HaltRequest) : (s.askHalt h).heldReplies = s.heldReplies := rfl
@[simp] theorem State.askHalt_known (h : HaltRequest) : (s.askHalt h).known = s.known := rfl
@[simp] theorem State.askHalt_crcTimes (h : HaltRequest) : (s.askHalt h).crcTimes = s.crcTimes := rfl
@[simp] theorem State.askHalt_heldDown (h : HaltRequest) : (s.askHalt h).heldDown = s.heldDown := rfl
@[simp] theorem State.askHalt_portFinds (h : HaltRequest) : (s.askHalt h).portFinds = s.portFinds := rfl
@[simp] theorem State.askHalt_groups (h : HaltRequest) : (s.askHalt h).groups = s.groups := rfl
@[simp] theorem State.askHalt_earlyJoins (h : HaltRequest) : (s.askHalt h).earlyJoins = s.earlyJoins := rfl
@[simp] theorem State.askHalt_forming (h : HaltRequest) : (s.askHalt h).forming = s.forming := rfl
@[simp] theorem State.askHalt_groupFails (h : HaltRequest) : (s.askHalt h).groupFails = s.groupFails := rfl
@[simp] theorem State.askHalt_lateRaised (h : HaltRequest) : (s.askHalt h).lateRaised = s.lateRaised := rfl
@[simp] theorem State.askHalt_checkRaised (h : HaltRequest) : (s.askHalt h).checkRaised = s.checkRaised := rfl
@[simp] theorem State.askHalt_checkWithheld (h : HaltRequest) : (s.askHalt h).checkWithheld = s.checkWithheld := rfl
@[simp] theorem State.askHalt_eccRaised (h : HaltRequest) : (s.askHalt h).eccRaised = s.eccRaised := rfl
@[simp] theorem State.askHalt_health (h : HaltRequest) : (s.askHalt h).health = s.health := rfl
@[simp] theorem State.askHalt_drills (h : HaltRequest) : (s.askHalt h).drills = s.drills := rfl
@[simp] theorem State.askHalt_acquittal (h : HaltRequest) : (s.askHalt h).acquittal = s.acquittal := rfl
@[simp] theorem State.askHalt_halted (h : HaltRequest) : (s.askHalt h).halted = s.halted := rfl
@[simp] theorem State.askHalt_retained (h : HaltRequest) : (s.askHalt h).retained = s.retained := rfl
@[simp] theorem State.askHalt_admissions (h : HaltRequest) : (s.askHalt h).admissions = s.admissions := rfl
@[simp] theorem State.askHalt_rings (h : HaltRequest) : (s.askHalt h).rings = s.rings := rfl
@[simp] theorem State.askHalt_lastRecords (h : HaltRequest) : (s.askHalt h).lastRecords = s.lastRecords := rfl
@[simp] theorem State.askHalt_worklists (h : HaltRequest) : (s.askHalt h).worklists = s.worklists := rfl
@[simp] theorem State.askHalt_sessions (h : HaltRequest) : (s.askHalt h).sessions = s.sessions := rfl
@[simp] theorem State.askHalt_ports (h : HaltRequest) : (s.askHalt h).ports = s.ports := rfl
@[simp] theorem State.askHalt_conns (h : HaltRequest) : (s.askHalt h).conns = s.conns := rfl
@[simp] theorem State.askHalt_xfers (h : HaltRequest) : (s.askHalt h).xfers = s.xfers := rfl
@[simp] theorem State.askHalt_hull (h : HaltRequest) : (s.askHalt h).hull = s.hull := rfl
@[simp] theorem State.askHalt_ring (h : HaltRequest) : (s.askHalt h).ring = s.ring := rfl
@[simp] theorem State.askHalt_power (h : HaltRequest) : (s.askHalt h).power = s.power := rfl
@[simp] theorem State.askHalt_pool (h : HaltRequest) : (s.askHalt h).pool = s.pool := rfl
@[simp] theorem State.askHalt_time (h : HaltRequest) : (s.askHalt h).time = s.time := rfl
@[simp] theorem State.askHalt_pins (h : HaltRequest) : (s.askHalt h).pins = s.pins := rfl
@[simp] theorem State.askHalt_flash (h : HaltRequest) : (s.askHalt h).flash = s.flash := rfl
@[simp] theorem State.askHalt_running (h : HaltRequest) : (s.askHalt h).running = s.running := rfl
@[simp] theorem State.askHalt_boot (h : HaltRequest) : (s.askHalt h).boot = s.boot := rfl
@[simp] theorem State.askHalt_update (h : HaltRequest) : (s.askHalt h).update = s.update := rfl
@[simp] theorem State.askHalt_resetWaits (h : HaltRequest) : (s.askHalt h).resetWaits = s.resetWaits := rfl
@[simp] theorem State.askHalt_resetAfterJobs (h : HaltRequest) : (s.askHalt h).resetAfterJobs = s.resetAfterJobs := rfl
@[simp] theorem State.askHalt_second (h : HaltRequest) : (s.askHalt h).second = s.second := rfl
@[simp] theorem State.askHalt_nextXfer (h : HaltRequest) : (s.askHalt h).nextXfer = s.nextXfer := rfl
@[simp] theorem State.askHalt_netLost (h : HaltRequest) : (s.askHalt h).netLost = s.netLost := rfl
@[simp] theorem State.askHalt_mailbox (h : HaltRequest) : (s.askHalt h).mailbox = s.mailbox := rfl
@[simp] theorem State.askHalt_refusals (h : HaltRequest) : (s.askHalt h).refusals = s.refusals := rfl
@[simp] theorem State.withhold_pending (k : Nat) : (s.withhold k).pending = s.pending := rfl
@[simp] theorem State.withhold_now (k : Nat) : (s.withhold k).now = s.now := rfl
@[simp] theorem State.withhold_fresh (k : Nat) : (s.withhold k).fresh = s.fresh := rfl
@[simp] theorem State.withhold_out (k : Nat) : (s.withhold k).out = s.out := rfl
@[simp] theorem State.withhold_mem (k : Nat) : (s.withhold k).mem = s.mem := rfl
@[simp] theorem State.withhold_poison (k : Nat) : (s.withhold k).poison = s.poison := rfl
@[simp] theorem State.withhold_cores (k : Nat) : (s.withhold k).cores = s.cores := rfl
@[simp] theorem State.withhold_ft (k : Nat) : (s.withhold k).ft = s.ft := rfl
@[simp] theorem State.withhold_part (k : Nat) : (s.withhold k).part = s.part := rfl
@[simp] theorem State.withhold_h1Lost (k : Nat) : (s.withhold k).h1Lost = s.h1Lost := rfl
@[simp] theorem State.withhold_sinks (k : Nat) : (s.withhold k).sinks = s.sinks := rfl
@[simp] theorem State.withhold_jobs (k : Nat) : (s.withhold k).jobs = s.jobs := rfl
@[simp] theorem State.withhold_plan (k : Nat) : (s.withhold k).plan = s.plan := rfl
@[simp] theorem State.withhold_links (k : Nat) : (s.withhold k).links = s.links := rfl
@[simp] theorem State.withhold_outStreams (k : Nat) : (s.withhold k).outStreams = s.outStreams := rfl
@[simp] theorem State.withhold_outMsgs (k : Nat) : (s.withhold k).outMsgs = s.outMsgs := rfl
@[simp] theorem State.withhold_inStreams (k : Nat) : (s.withhold k).inStreams = s.inStreams := rfl
@[simp] theorem State.withhold_heldPuts (k : Nat) : (s.withhold k).heldPuts = s.heldPuts := rfl
@[simp] theorem State.withhold_heldReplies (k : Nat) : (s.withhold k).heldReplies = s.heldReplies := rfl
@[simp] theorem State.withhold_known (k : Nat) : (s.withhold k).known = s.known := rfl
@[simp] theorem State.withhold_crcTimes (k : Nat) : (s.withhold k).crcTimes = s.crcTimes := rfl
@[simp] theorem State.withhold_heldDown (k : Nat) : (s.withhold k).heldDown = s.heldDown := rfl
@[simp] theorem State.withhold_portFinds (k : Nat) : (s.withhold k).portFinds = s.portFinds := rfl
@[simp] theorem State.withhold_groups (k : Nat) : (s.withhold k).groups = s.groups := rfl
@[simp] theorem State.withhold_earlyJoins (k : Nat) : (s.withhold k).earlyJoins = s.earlyJoins := rfl
@[simp] theorem State.withhold_forming (k : Nat) : (s.withhold k).forming = s.forming := rfl
@[simp] theorem State.withhold_groupFails (k : Nat) : (s.withhold k).groupFails = s.groupFails := rfl
@[simp] theorem State.withhold_lateRaised (k : Nat) : (s.withhold k).lateRaised = s.lateRaised := rfl
@[simp] theorem State.withhold_halts (k : Nat) : (s.withhold k).halts = s.halts := rfl
@[simp] theorem State.withhold_checkRaised (k : Nat) : (s.withhold k).checkRaised = s.checkRaised := rfl
@[simp] theorem State.withhold_checkWithheld (k : Nat) : (s.withhold k).checkWithheld = s.checkWithheld := rfl
@[simp] theorem State.withhold_eccRaised (k : Nat) : (s.withhold k).eccRaised = s.eccRaised := rfl
@[simp] theorem State.withhold_health (k : Nat) : (s.withhold k).health = s.health := rfl
@[simp] theorem State.withhold_drills (k : Nat) : (s.withhold k).drills = s.drills := rfl
@[simp] theorem State.withhold_acquittal (k : Nat) : (s.withhold k).acquittal = s.acquittal := rfl
@[simp] theorem State.withhold_halted (k : Nat) : (s.withhold k).halted = s.halted := rfl
@[simp] theorem State.withhold_retained (k : Nat) : (s.withhold k).retained = s.retained := rfl
@[simp] theorem State.withhold_admissions (k : Nat) : (s.withhold k).admissions = s.admissions := rfl
@[simp] theorem State.withhold_rings (k : Nat) : (s.withhold k).rings = s.rings := rfl
@[simp] theorem State.withhold_lastRecords (k : Nat) : (s.withhold k).lastRecords = s.lastRecords := rfl
@[simp] theorem State.withhold_worklists (k : Nat) : (s.withhold k).worklists = s.worklists := rfl
@[simp] theorem State.withhold_sessions (k : Nat) : (s.withhold k).sessions = s.sessions := rfl
@[simp] theorem State.withhold_ports (k : Nat) : (s.withhold k).ports = s.ports := rfl
@[simp] theorem State.withhold_conns (k : Nat) : (s.withhold k).conns = s.conns := rfl
@[simp] theorem State.withhold_xfers (k : Nat) : (s.withhold k).xfers = s.xfers := rfl
@[simp] theorem State.withhold_hull (k : Nat) : (s.withhold k).hull = s.hull := rfl
@[simp] theorem State.withhold_ring (k : Nat) : (s.withhold k).ring = s.ring := rfl
@[simp] theorem State.withhold_power (k : Nat) : (s.withhold k).power = s.power := rfl
@[simp] theorem State.withhold_pool (k : Nat) : (s.withhold k).pool = s.pool := rfl
@[simp] theorem State.withhold_time (k : Nat) : (s.withhold k).time = s.time := rfl
@[simp] theorem State.withhold_pins (k : Nat) : (s.withhold k).pins = s.pins := rfl
@[simp] theorem State.withhold_flash (k : Nat) : (s.withhold k).flash = s.flash := rfl
@[simp] theorem State.withhold_running (k : Nat) : (s.withhold k).running = s.running := rfl
@[simp] theorem State.withhold_boot (k : Nat) : (s.withhold k).boot = s.boot := rfl
@[simp] theorem State.withhold_update (k : Nat) : (s.withhold k).update = s.update := rfl
@[simp] theorem State.withhold_resetWaits (k : Nat) : (s.withhold k).resetWaits = s.resetWaits := rfl
@[simp] theorem State.withhold_resetAfterJobs (k : Nat) : (s.withhold k).resetAfterJobs = s.resetAfterJobs := rfl
@[simp] theorem State.withhold_second (k : Nat) : (s.withhold k).second = s.second := rfl
@[simp] theorem State.withhold_nextXfer (k : Nat) : (s.withhold k).nextXfer = s.nextXfer := rfl
@[simp] theorem State.withhold_netLost (k : Nat) : (s.withhold k).netLost = s.netLost := rfl
@[simp] theorem State.withhold_mailbox (k : Nat) : (s.withhold k).mailbox = s.mailbox := rfl
@[simp] theorem State.withhold_refusals (k : Nat) : (s.withhold k).refusals = s.refusals := rfl
end

section
variable (c : Core)

@[simp] theorem Core.setS_run (r : BitVec 5) (v : Word) : (c.setS r v).run = c.run := by unfold Core.setS; split <;> rfl
@[simp] theorem Core.setS_job (r : BitVec 5) (v : Word) : (c.setS r v).job = c.job := by unfold Core.setS; split <;> rfl
@[simp] theorem Core.setS_clearing (r : BitVec 5) (v : Word) : (c.setS r v).clearing = c.clearing := by unfold Core.setS; split <;> rfl
@[simp] theorem Core.setS_startHeld (r : BitVec 5) (v : Word) : (c.setS r v).startHeld = c.startHeld := by unfold Core.setS; split <;> rfl
@[simp] theorem Core.setS_preds (r : BitVec 5) (v : Word) : (c.setS r v).preds = c.preds := by unfold Core.setS; split <;> rfl
@[simp] theorem Core.setS_dregs (r : BitVec 5) (v : Word) : (c.setS r v).dregs = c.dregs := by unfold Core.setS; split <;> rfl
@[simp] theorem Core.setS_wsel (r : BitVec 5) (v : Word) : (c.setS r v).wsel = c.wsel := by unfold Core.setS; split <;> rfl
@[simp] theorem Core.setS_pc (r : BitVec 5) (v : Word) : (c.setS r v).pc = c.pc := by unfold Core.setS; split <;> rfl
@[simp] theorem Core.setS_sems (r : BitVec 5) (v : Word) : (c.setS r v).sems = c.sems := by unfold Core.setS; split <;> rfl
@[simp] theorem Core.setS_heldSignals (r : BitVec 5) (v : Word) : (c.setS r v).heldSignals = c.heldSignals := by unfold Core.setS; split <;> rfl
@[simp] theorem Core.setS_qMove (r : BitVec 5) (v : Word) : (c.setS r v).qMove = c.qMove := by unfold Core.setS; split <;> rfl
@[simp] theorem Core.setS_qCtx0 (r : BitVec 5) (v : Word) : (c.setS r v).qCtx0 = c.qCtx0 := by unfold Core.setS; split <;> rfl
@[simp] theorem Core.setS_qCtx1 (r : BitVec 5) (v : Word) : (c.setS r v).qCtx1 = c.qCtx1 := by unfold Core.setS; split <;> rfl
@[simp] theorem Core.setS_qVector (r : BitVec 5) (v : Word) : (c.setS r v).qVector = c.qVector := by unfold Core.setS; split <;> rfl
@[simp] theorem Core.setS_qRow (r : BitVec 5) (v : Word) : (c.setS r v).qRow = c.qRow := by unfold Core.setS; split <;> rfl
@[simp] theorem Core.setS_qComm (r : BitVec 5) (v : Word) : (c.setS r v).qComm = c.qComm := by unfold Core.setS; split <;> rfl
@[simp] theorem Core.setS_dispatched (r : BitVec 5) (v : Word) : (c.setS r v).dispatched = c.dispatched := by unfold Core.setS; split <;> rfl
@[simp] theorem Core.setS_lines (r : BitVec 5) (v : Word) : (c.setS r v).lines = c.lines := by unfold Core.setS; split <;> rfl
@[simp] theorem Core.setS_fills (r : BitVec 5) (v : Word) : (c.setS r v).fills = c.fills := by unfold Core.setS; split <;> rfl
@[simp] theorem Core.setS_mesh (r : BitVec 5) (v : Word) : (c.setS r v).mesh = c.mesh := by unfold Core.setS; split <;> rfl
@[simp] theorem Core.setS_wait (r : BitVec 5) (v : Word) : (c.setS r v).wait = c.wait := by unfold Core.setS; split <;> rfl
@[simp] theorem Core.setS_current (r : BitVec 5) (v : Word) : (c.setS r v).current = c.current := by unfold Core.setS; split <;> rfl
@[simp] theorem Core.setS_stopping (r : BitVec 5) (v : Word) : (c.setS r v).stopping = c.stopping := by unfold Core.setS; split <;> rfl
@[simp] theorem Core.setS_unitFailed (r : BitVec 5) (v : Word) : (c.setS r v).unitFailed = c.unitFailed := by unfold Core.setS; split <;> rfl
@[simp] theorem Core.setS_trap (r : BitVec 5) (v : Word) : (c.setS r v).trap = c.trap := by unfold Core.setS; split <;> rfl
@[simp] theorem Core.setS_trapInfo (r : BitVec 5) (v : Word) : (c.setS r v).trapInfo = c.trapInfo := by unfold Core.setS; split <;> rfl
@[simp] theorem Core.setS_runcfg (r : BitVec 5) (v : Word) : (c.setS r v).runcfg = c.runcfg := by unfold Core.setS; split <;> rfl
@[simp] theorem Core.setS_numst (r : BitVec 5) (v : Word) : (c.setS r v).numst = c.numst := by unfold Core.setS; split <;> rfl
@[simp] theorem Core.setS_mmcfg (r : BitVec 5) (v : Word) : (c.setS r v).mmcfg = c.mmcfg := by unfold Core.setS; split <;> rfl
@[simp] theorem Core.setS_mmcyc (r : BitVec 5) (v : Word) : (c.setS r v).mmcyc = c.mmcyc := by unfold Core.setS; split <;> rfl
@[simp] theorem Core.setS_mmkwc (r : BitVec 5) (v : Word) : (c.setS r v).mmkwc = c.mmkwc := by unfold Core.setS; split <;> rfl
@[simp] theorem Core.setS_kwRest (r : BitVec 5) (v : Word) : (c.setS r v).kwRest = c.kwRest := by unfold Core.setS; split <;> rfl
@[simp] theorem Core.setS_mmcell (r : BitVec 5) (v : Word) : (c.setS r v).mmcell = c.mmcell := by unfold Core.setS; split <;> rfl
@[simp] theorem Core.setS_veccyc (r : BitVec 5) (v : Word) : (c.setS r v).veccyc = c.veccyc := by unfold Core.setS; split <;> rfl
@[simp] theorem Core.setS_rowcyc (r : BitVec 5) (v : Word) : (c.setS r v).rowcyc = c.rowcyc := by unfold Core.setS; split <;> rfl
@[simp] theorem Core.setS_cycles (r : BitVec 5) (v : Word) : (c.setS r v).cycles = c.cycles := by unfold Core.setS; split <;> rfl
@[simp] theorem Core.setS_bank0 (r : BitVec 5) (v : Word) : (c.setS r v).bank0 = c.bank0 := by unfold Core.setS; split <;> rfl
@[simp] theorem Core.setS_bank1 (r : BitVec 5) (v : Word) : (c.setS r v).bank1 = c.bank1 := by unfold Core.setS; split <;> rfl
@[simp] theorem Core.setS_saved (r : BitVec 5) (v : Word) : (c.setS r v).saved = c.saved := by unfold Core.setS; split <;> rfl
@[simp] theorem Core.setS_drains (r : BitVec 5) (v : Word) : (c.setS r v).drains = c.drains := by unfold Core.setS; split <;> rfl
@[simp] theorem Core.setS_arrays (r : BitVec 5) (v : Word) : (c.setS r v).arrays = c.arrays := by unfold Core.setS; split <;> rfl
@[simp] theorem Core.setS_duty (r : BitVec 5) (v : Word) : (c.setS r v).duty = c.duty := by unfold Core.setS; split <;> rfl
@[simp] theorem Core.setS_arraysSince (r : BitVec 5) (v : Word) : (c.setS r v).arraysSince = c.arraysSince := by unfold Core.setS; split <;> rfl
@[simp] theorem Core.setS_weighted (r : BitVec 5) (v : Word) : (c.setS r v).weighted = c.weighted := by unfold Core.setS; split <;> rfl
@[simp] theorem Core.setS_idleSince (r : BitVec 5) (v : Word) : (c.setS r v).idleSince = c.idleSince := by unfold Core.setS; split <;> rfl
@[simp] theorem Core.setP_run (r : BitVec 3) (v : Bool) : (c.setP r v).run = c.run := by unfold Core.setP; split <;> rfl
@[simp] theorem Core.setP_job (r : BitVec 3) (v : Bool) : (c.setP r v).job = c.job := by unfold Core.setP; split <;> rfl
@[simp] theorem Core.setP_clearing (r : BitVec 3) (v : Bool) : (c.setP r v).clearing = c.clearing := by unfold Core.setP; split <;> rfl
@[simp] theorem Core.setP_startHeld (r : BitVec 3) (v : Bool) : (c.setP r v).startHeld = c.startHeld := by unfold Core.setP; split <;> rfl
@[simp] theorem Core.setP_sregs (r : BitVec 3) (v : Bool) : (c.setP r v).sregs = c.sregs := by unfold Core.setP; split <;> rfl
@[simp] theorem Core.setP_dregs (r : BitVec 3) (v : Bool) : (c.setP r v).dregs = c.dregs := by unfold Core.setP; split <;> rfl
@[simp] theorem Core.setP_wsel (r : BitVec 3) (v : Bool) : (c.setP r v).wsel = c.wsel := by unfold Core.setP; split <;> rfl
@[simp] theorem Core.setP_pc (r : BitVec 3) (v : Bool) : (c.setP r v).pc = c.pc := by unfold Core.setP; split <;> rfl
@[simp] theorem Core.setP_sems (r : BitVec 3) (v : Bool) : (c.setP r v).sems = c.sems := by unfold Core.setP; split <;> rfl
@[simp] theorem Core.setP_heldSignals (r : BitVec 3) (v : Bool) : (c.setP r v).heldSignals = c.heldSignals := by unfold Core.setP; split <;> rfl
@[simp] theorem Core.setP_qMove (r : BitVec 3) (v : Bool) : (c.setP r v).qMove = c.qMove := by unfold Core.setP; split <;> rfl
@[simp] theorem Core.setP_qCtx0 (r : BitVec 3) (v : Bool) : (c.setP r v).qCtx0 = c.qCtx0 := by unfold Core.setP; split <;> rfl
@[simp] theorem Core.setP_qCtx1 (r : BitVec 3) (v : Bool) : (c.setP r v).qCtx1 = c.qCtx1 := by unfold Core.setP; split <;> rfl
@[simp] theorem Core.setP_qVector (r : BitVec 3) (v : Bool) : (c.setP r v).qVector = c.qVector := by unfold Core.setP; split <;> rfl
@[simp] theorem Core.setP_qRow (r : BitVec 3) (v : Bool) : (c.setP r v).qRow = c.qRow := by unfold Core.setP; split <;> rfl
@[simp] theorem Core.setP_qComm (r : BitVec 3) (v : Bool) : (c.setP r v).qComm = c.qComm := by unfold Core.setP; split <;> rfl
@[simp] theorem Core.setP_dispatched (r : BitVec 3) (v : Bool) : (c.setP r v).dispatched = c.dispatched := by unfold Core.setP; split <;> rfl
@[simp] theorem Core.setP_lines (r : BitVec 3) (v : Bool) : (c.setP r v).lines = c.lines := by unfold Core.setP; split <;> rfl
@[simp] theorem Core.setP_fills (r : BitVec 3) (v : Bool) : (c.setP r v).fills = c.fills := by unfold Core.setP; split <;> rfl
@[simp] theorem Core.setP_mesh (r : BitVec 3) (v : Bool) : (c.setP r v).mesh = c.mesh := by unfold Core.setP; split <;> rfl
@[simp] theorem Core.setP_wait (r : BitVec 3) (v : Bool) : (c.setP r v).wait = c.wait := by unfold Core.setP; split <;> rfl
@[simp] theorem Core.setP_current (r : BitVec 3) (v : Bool) : (c.setP r v).current = c.current := by unfold Core.setP; split <;> rfl
@[simp] theorem Core.setP_stopping (r : BitVec 3) (v : Bool) : (c.setP r v).stopping = c.stopping := by unfold Core.setP; split <;> rfl
@[simp] theorem Core.setP_unitFailed (r : BitVec 3) (v : Bool) : (c.setP r v).unitFailed = c.unitFailed := by unfold Core.setP; split <;> rfl
@[simp] theorem Core.setP_trap (r : BitVec 3) (v : Bool) : (c.setP r v).trap = c.trap := by unfold Core.setP; split <;> rfl
@[simp] theorem Core.setP_trapInfo (r : BitVec 3) (v : Bool) : (c.setP r v).trapInfo = c.trapInfo := by unfold Core.setP; split <;> rfl
@[simp] theorem Core.setP_runcfg (r : BitVec 3) (v : Bool) : (c.setP r v).runcfg = c.runcfg := by unfold Core.setP; split <;> rfl
@[simp] theorem Core.setP_numst (r : BitVec 3) (v : Bool) : (c.setP r v).numst = c.numst := by unfold Core.setP; split <;> rfl
@[simp] theorem Core.setP_mmcfg (r : BitVec 3) (v : Bool) : (c.setP r v).mmcfg = c.mmcfg := by unfold Core.setP; split <;> rfl
@[simp] theorem Core.setP_mmcyc (r : BitVec 3) (v : Bool) : (c.setP r v).mmcyc = c.mmcyc := by unfold Core.setP; split <;> rfl
@[simp] theorem Core.setP_mmkwc (r : BitVec 3) (v : Bool) : (c.setP r v).mmkwc = c.mmkwc := by unfold Core.setP; split <;> rfl
@[simp] theorem Core.setP_kwRest (r : BitVec 3) (v : Bool) : (c.setP r v).kwRest = c.kwRest := by unfold Core.setP; split <;> rfl
@[simp] theorem Core.setP_mmcell (r : BitVec 3) (v : Bool) : (c.setP r v).mmcell = c.mmcell := by unfold Core.setP; split <;> rfl
@[simp] theorem Core.setP_veccyc (r : BitVec 3) (v : Bool) : (c.setP r v).veccyc = c.veccyc := by unfold Core.setP; split <;> rfl
@[simp] theorem Core.setP_rowcyc (r : BitVec 3) (v : Bool) : (c.setP r v).rowcyc = c.rowcyc := by unfold Core.setP; split <;> rfl
@[simp] theorem Core.setP_cycles (r : BitVec 3) (v : Bool) : (c.setP r v).cycles = c.cycles := by unfold Core.setP; split <;> rfl
@[simp] theorem Core.setP_bank0 (r : BitVec 3) (v : Bool) : (c.setP r v).bank0 = c.bank0 := by unfold Core.setP; split <;> rfl
@[simp] theorem Core.setP_bank1 (r : BitVec 3) (v : Bool) : (c.setP r v).bank1 = c.bank1 := by unfold Core.setP; split <;> rfl
@[simp] theorem Core.setP_saved (r : BitVec 3) (v : Bool) : (c.setP r v).saved = c.saved := by unfold Core.setP; split <;> rfl
@[simp] theorem Core.setP_drains (r : BitVec 3) (v : Bool) : (c.setP r v).drains = c.drains := by unfold Core.setP; split <;> rfl
@[simp] theorem Core.setP_arrays (r : BitVec 3) (v : Bool) : (c.setP r v).arrays = c.arrays := by unfold Core.setP; split <;> rfl
@[simp] theorem Core.setP_duty (r : BitVec 3) (v : Bool) : (c.setP r v).duty = c.duty := by unfold Core.setP; split <;> rfl
@[simp] theorem Core.setP_arraysSince (r : BitVec 3) (v : Bool) : (c.setP r v).arraysSince = c.arraysSince := by unfold Core.setP; split <;> rfl
@[simp] theorem Core.setP_weighted (r : BitVec 3) (v : Bool) : (c.setP r v).weighted = c.weighted := by unfold Core.setP; split <;> rfl
@[simp] theorem Core.setP_idleSince (r : BitVec 3) (v : Bool) : (c.setP r v).idleSince = c.idleSince := by unfold Core.setP; split <;> rfl
@[simp] theorem Core.setD_run (r : BitVec 4) (v : BitVec 256) : (c.setD r v).run = c.run := rfl
@[simp] theorem Core.setD_job (r : BitVec 4) (v : BitVec 256) : (c.setD r v).job = c.job := rfl
@[simp] theorem Core.setD_clearing (r : BitVec 4) (v : BitVec 256) : (c.setD r v).clearing = c.clearing := rfl
@[simp] theorem Core.setD_startHeld (r : BitVec 4) (v : BitVec 256) : (c.setD r v).startHeld = c.startHeld := rfl
@[simp] theorem Core.setD_sregs (r : BitVec 4) (v : BitVec 256) : (c.setD r v).sregs = c.sregs := rfl
@[simp] theorem Core.setD_preds (r : BitVec 4) (v : BitVec 256) : (c.setD r v).preds = c.preds := rfl
@[simp] theorem Core.setD_wsel (r : BitVec 4) (v : BitVec 256) : (c.setD r v).wsel = c.wsel := rfl
@[simp] theorem Core.setD_pc (r : BitVec 4) (v : BitVec 256) : (c.setD r v).pc = c.pc := rfl
@[simp] theorem Core.setD_sems (r : BitVec 4) (v : BitVec 256) : (c.setD r v).sems = c.sems := rfl
@[simp] theorem Core.setD_heldSignals (r : BitVec 4) (v : BitVec 256) : (c.setD r v).heldSignals = c.heldSignals := rfl
@[simp] theorem Core.setD_qMove (r : BitVec 4) (v : BitVec 256) : (c.setD r v).qMove = c.qMove := rfl
@[simp] theorem Core.setD_qCtx0 (r : BitVec 4) (v : BitVec 256) : (c.setD r v).qCtx0 = c.qCtx0 := rfl
@[simp] theorem Core.setD_qCtx1 (r : BitVec 4) (v : BitVec 256) : (c.setD r v).qCtx1 = c.qCtx1 := rfl
@[simp] theorem Core.setD_qVector (r : BitVec 4) (v : BitVec 256) : (c.setD r v).qVector = c.qVector := rfl
@[simp] theorem Core.setD_qRow (r : BitVec 4) (v : BitVec 256) : (c.setD r v).qRow = c.qRow := rfl
@[simp] theorem Core.setD_qComm (r : BitVec 4) (v : BitVec 256) : (c.setD r v).qComm = c.qComm := rfl
@[simp] theorem Core.setD_dispatched (r : BitVec 4) (v : BitVec 256) : (c.setD r v).dispatched = c.dispatched := rfl
@[simp] theorem Core.setD_lines (r : BitVec 4) (v : BitVec 256) : (c.setD r v).lines = c.lines := rfl
@[simp] theorem Core.setD_fills (r : BitVec 4) (v : BitVec 256) : (c.setD r v).fills = c.fills := rfl
@[simp] theorem Core.setD_mesh (r : BitVec 4) (v : BitVec 256) : (c.setD r v).mesh = c.mesh := rfl
@[simp] theorem Core.setD_wait (r : BitVec 4) (v : BitVec 256) : (c.setD r v).wait = c.wait := rfl
@[simp] theorem Core.setD_current (r : BitVec 4) (v : BitVec 256) : (c.setD r v).current = c.current := rfl
@[simp] theorem Core.setD_stopping (r : BitVec 4) (v : BitVec 256) : (c.setD r v).stopping = c.stopping := rfl
@[simp] theorem Core.setD_unitFailed (r : BitVec 4) (v : BitVec 256) : (c.setD r v).unitFailed = c.unitFailed := rfl
@[simp] theorem Core.setD_trap (r : BitVec 4) (v : BitVec 256) : (c.setD r v).trap = c.trap := rfl
@[simp] theorem Core.setD_trapInfo (r : BitVec 4) (v : BitVec 256) : (c.setD r v).trapInfo = c.trapInfo := rfl
@[simp] theorem Core.setD_runcfg (r : BitVec 4) (v : BitVec 256) : (c.setD r v).runcfg = c.runcfg := rfl
@[simp] theorem Core.setD_numst (r : BitVec 4) (v : BitVec 256) : (c.setD r v).numst = c.numst := rfl
@[simp] theorem Core.setD_mmcfg (r : BitVec 4) (v : BitVec 256) : (c.setD r v).mmcfg = c.mmcfg := rfl
@[simp] theorem Core.setD_mmcyc (r : BitVec 4) (v : BitVec 256) : (c.setD r v).mmcyc = c.mmcyc := rfl
@[simp] theorem Core.setD_mmkwc (r : BitVec 4) (v : BitVec 256) : (c.setD r v).mmkwc = c.mmkwc := rfl
@[simp] theorem Core.setD_kwRest (r : BitVec 4) (v : BitVec 256) : (c.setD r v).kwRest = c.kwRest := rfl
@[simp] theorem Core.setD_mmcell (r : BitVec 4) (v : BitVec 256) : (c.setD r v).mmcell = c.mmcell := rfl
@[simp] theorem Core.setD_veccyc (r : BitVec 4) (v : BitVec 256) : (c.setD r v).veccyc = c.veccyc := rfl
@[simp] theorem Core.setD_rowcyc (r : BitVec 4) (v : BitVec 256) : (c.setD r v).rowcyc = c.rowcyc := rfl
@[simp] theorem Core.setD_cycles (r : BitVec 4) (v : BitVec 256) : (c.setD r v).cycles = c.cycles := rfl
@[simp] theorem Core.setD_bank0 (r : BitVec 4) (v : BitVec 256) : (c.setD r v).bank0 = c.bank0 := rfl
@[simp] theorem Core.setD_bank1 (r : BitVec 4) (v : BitVec 256) : (c.setD r v).bank1 = c.bank1 := rfl
@[simp] theorem Core.setD_saved (r : BitVec 4) (v : BitVec 256) : (c.setD r v).saved = c.saved := rfl
@[simp] theorem Core.setD_drains (r : BitVec 4) (v : BitVec 256) : (c.setD r v).drains = c.drains := rfl
@[simp] theorem Core.setD_arrays (r : BitVec 4) (v : BitVec 256) : (c.setD r v).arrays = c.arrays := rfl
@[simp] theorem Core.setD_duty (r : BitVec 4) (v : BitVec 256) : (c.setD r v).duty = c.duty := rfl
@[simp] theorem Core.setD_arraysSince (r : BitVec 4) (v : BitVec 256) : (c.setD r v).arraysSince = c.arraysSince := rfl
@[simp] theorem Core.setD_weighted (r : BitVec 4) (v : BitVec 256) : (c.setD r v).weighted = c.weighted := rfl
@[simp] theorem Core.setD_idleSince (r : BitVec 4) (v : BitVec 256) : (c.setD r v).idleSince = c.idleSince := rfl
@[simp] theorem Core.setSem_run (k v : Nat) : (c.setSem k v).run = c.run := rfl
@[simp] theorem Core.setSem_job (k v : Nat) : (c.setSem k v).job = c.job := rfl
@[simp] theorem Core.setSem_clearing (k v : Nat) : (c.setSem k v).clearing = c.clearing := rfl
@[simp] theorem Core.setSem_startHeld (k v : Nat) : (c.setSem k v).startHeld = c.startHeld := rfl
@[simp] theorem Core.setSem_sregs (k v : Nat) : (c.setSem k v).sregs = c.sregs := rfl
@[simp] theorem Core.setSem_preds (k v : Nat) : (c.setSem k v).preds = c.preds := rfl
@[simp] theorem Core.setSem_dregs (k v : Nat) : (c.setSem k v).dregs = c.dregs := rfl
@[simp] theorem Core.setSem_wsel (k v : Nat) : (c.setSem k v).wsel = c.wsel := rfl
@[simp] theorem Core.setSem_pc (k v : Nat) : (c.setSem k v).pc = c.pc := rfl
@[simp] theorem Core.setSem_heldSignals (k v : Nat) : (c.setSem k v).heldSignals = c.heldSignals := rfl
@[simp] theorem Core.setSem_qMove (k v : Nat) : (c.setSem k v).qMove = c.qMove := rfl
@[simp] theorem Core.setSem_qCtx0 (k v : Nat) : (c.setSem k v).qCtx0 = c.qCtx0 := rfl
@[simp] theorem Core.setSem_qCtx1 (k v : Nat) : (c.setSem k v).qCtx1 = c.qCtx1 := rfl
@[simp] theorem Core.setSem_qVector (k v : Nat) : (c.setSem k v).qVector = c.qVector := rfl
@[simp] theorem Core.setSem_qRow (k v : Nat) : (c.setSem k v).qRow = c.qRow := rfl
@[simp] theorem Core.setSem_qComm (k v : Nat) : (c.setSem k v).qComm = c.qComm := rfl
@[simp] theorem Core.setSem_dispatched (k v : Nat) : (c.setSem k v).dispatched = c.dispatched := rfl
@[simp] theorem Core.setSem_lines (k v : Nat) : (c.setSem k v).lines = c.lines := rfl
@[simp] theorem Core.setSem_fills (k v : Nat) : (c.setSem k v).fills = c.fills := rfl
@[simp] theorem Core.setSem_mesh (k v : Nat) : (c.setSem k v).mesh = c.mesh := rfl
@[simp] theorem Core.setSem_wait (k v : Nat) : (c.setSem k v).wait = c.wait := rfl
@[simp] theorem Core.setSem_current (k v : Nat) : (c.setSem k v).current = c.current := rfl
@[simp] theorem Core.setSem_stopping (k v : Nat) : (c.setSem k v).stopping = c.stopping := rfl
@[simp] theorem Core.setSem_unitFailed (k v : Nat) : (c.setSem k v).unitFailed = c.unitFailed := rfl
@[simp] theorem Core.setSem_trap (k v : Nat) : (c.setSem k v).trap = c.trap := rfl
@[simp] theorem Core.setSem_trapInfo (k v : Nat) : (c.setSem k v).trapInfo = c.trapInfo := rfl
@[simp] theorem Core.setSem_runcfg (k v : Nat) : (c.setSem k v).runcfg = c.runcfg := rfl
@[simp] theorem Core.setSem_numst (k v : Nat) : (c.setSem k v).numst = c.numst := rfl
@[simp] theorem Core.setSem_mmcfg (k v : Nat) : (c.setSem k v).mmcfg = c.mmcfg := rfl
@[simp] theorem Core.setSem_mmcyc (k v : Nat) : (c.setSem k v).mmcyc = c.mmcyc := rfl
@[simp] theorem Core.setSem_mmkwc (k v : Nat) : (c.setSem k v).mmkwc = c.mmkwc := rfl
@[simp] theorem Core.setSem_kwRest (k v : Nat) : (c.setSem k v).kwRest = c.kwRest := rfl
@[simp] theorem Core.setSem_mmcell (k v : Nat) : (c.setSem k v).mmcell = c.mmcell := rfl
@[simp] theorem Core.setSem_veccyc (k v : Nat) : (c.setSem k v).veccyc = c.veccyc := rfl
@[simp] theorem Core.setSem_rowcyc (k v : Nat) : (c.setSem k v).rowcyc = c.rowcyc := rfl
@[simp] theorem Core.setSem_cycles (k v : Nat) : (c.setSem k v).cycles = c.cycles := rfl
@[simp] theorem Core.setSem_bank0 (k v : Nat) : (c.setSem k v).bank0 = c.bank0 := rfl
@[simp] theorem Core.setSem_bank1 (k v : Nat) : (c.setSem k v).bank1 = c.bank1 := rfl
@[simp] theorem Core.setSem_saved (k v : Nat) : (c.setSem k v).saved = c.saved := rfl
@[simp] theorem Core.setSem_drains (k v : Nat) : (c.setSem k v).drains = c.drains := rfl
@[simp] theorem Core.setSem_arrays (k v : Nat) : (c.setSem k v).arrays = c.arrays := rfl
@[simp] theorem Core.setSem_duty (k v : Nat) : (c.setSem k v).duty = c.duty := rfl
@[simp] theorem Core.setSem_arraysSince (k v : Nat) : (c.setSem k v).arraysSince = c.arraysSince := rfl
@[simp] theorem Core.setSem_weighted (k v : Nat) : (c.setSem k v).weighted = c.weighted := rfl
@[simp] theorem Core.setSem_idleSince (k v : Nat) : (c.setSem k v).idleSince = c.idleSince := rfl
@[simp] theorem Core.setQueue_run (q : QueueId) (l : List Entry) : (c.setQueue q l).run = c.run := by cases q <;> rfl
@[simp] theorem Core.setQueue_job (q : QueueId) (l : List Entry) : (c.setQueue q l).job = c.job := by cases q <;> rfl
@[simp] theorem Core.setQueue_clearing (q : QueueId) (l : List Entry) : (c.setQueue q l).clearing = c.clearing := by cases q <;> rfl
@[simp] theorem Core.setQueue_startHeld (q : QueueId) (l : List Entry) : (c.setQueue q l).startHeld = c.startHeld := by cases q <;> rfl
@[simp] theorem Core.setQueue_sregs (q : QueueId) (l : List Entry) : (c.setQueue q l).sregs = c.sregs := by cases q <;> rfl
@[simp] theorem Core.setQueue_preds (q : QueueId) (l : List Entry) : (c.setQueue q l).preds = c.preds := by cases q <;> rfl
@[simp] theorem Core.setQueue_dregs (q : QueueId) (l : List Entry) : (c.setQueue q l).dregs = c.dregs := by cases q <;> rfl
@[simp] theorem Core.setQueue_wsel (q : QueueId) (l : List Entry) : (c.setQueue q l).wsel = c.wsel := by cases q <;> rfl
@[simp] theorem Core.setQueue_pc (q : QueueId) (l : List Entry) : (c.setQueue q l).pc = c.pc := by cases q <;> rfl
@[simp] theorem Core.setQueue_sems (q : QueueId) (l : List Entry) : (c.setQueue q l).sems = c.sems := by cases q <;> rfl
@[simp] theorem Core.setQueue_heldSignals (q : QueueId) (l : List Entry) : (c.setQueue q l).heldSignals = c.heldSignals := by cases q <;> rfl
@[simp] theorem Core.setQueue_dispatched (q : QueueId) (l : List Entry) : (c.setQueue q l).dispatched = c.dispatched := by cases q <;> rfl
@[simp] theorem Core.setQueue_lines (q : QueueId) (l : List Entry) : (c.setQueue q l).lines = c.lines := by cases q <;> rfl
@[simp] theorem Core.setQueue_fills (q : QueueId) (l : List Entry) : (c.setQueue q l).fills = c.fills := by cases q <;> rfl
@[simp] theorem Core.setQueue_mesh (q : QueueId) (l : List Entry) : (c.setQueue q l).mesh = c.mesh := by cases q <;> rfl
@[simp] theorem Core.setQueue_wait (q : QueueId) (l : List Entry) : (c.setQueue q l).wait = c.wait := by cases q <;> rfl
@[simp] theorem Core.setQueue_current (q : QueueId) (l : List Entry) : (c.setQueue q l).current = c.current := by cases q <;> rfl
@[simp] theorem Core.setQueue_stopping (q : QueueId) (l : List Entry) : (c.setQueue q l).stopping = c.stopping := by cases q <;> rfl
@[simp] theorem Core.setQueue_unitFailed (q : QueueId) (l : List Entry) : (c.setQueue q l).unitFailed = c.unitFailed := by cases q <;> rfl
@[simp] theorem Core.setQueue_trap (q : QueueId) (l : List Entry) : (c.setQueue q l).trap = c.trap := by cases q <;> rfl
@[simp] theorem Core.setQueue_trapInfo (q : QueueId) (l : List Entry) : (c.setQueue q l).trapInfo = c.trapInfo := by cases q <;> rfl
@[simp] theorem Core.setQueue_runcfg (q : QueueId) (l : List Entry) : (c.setQueue q l).runcfg = c.runcfg := by cases q <;> rfl
@[simp] theorem Core.setQueue_numst (q : QueueId) (l : List Entry) : (c.setQueue q l).numst = c.numst := by cases q <;> rfl
@[simp] theorem Core.setQueue_mmcfg (q : QueueId) (l : List Entry) : (c.setQueue q l).mmcfg = c.mmcfg := by cases q <;> rfl
@[simp] theorem Core.setQueue_mmcyc (q : QueueId) (l : List Entry) : (c.setQueue q l).mmcyc = c.mmcyc := by cases q <;> rfl
@[simp] theorem Core.setQueue_mmkwc (q : QueueId) (l : List Entry) : (c.setQueue q l).mmkwc = c.mmkwc := by cases q <;> rfl
@[simp] theorem Core.setQueue_kwRest (q : QueueId) (l : List Entry) : (c.setQueue q l).kwRest = c.kwRest := by cases q <;> rfl
@[simp] theorem Core.setQueue_mmcell (q : QueueId) (l : List Entry) : (c.setQueue q l).mmcell = c.mmcell := by cases q <;> rfl
@[simp] theorem Core.setQueue_veccyc (q : QueueId) (l : List Entry) : (c.setQueue q l).veccyc = c.veccyc := by cases q <;> rfl
@[simp] theorem Core.setQueue_rowcyc (q : QueueId) (l : List Entry) : (c.setQueue q l).rowcyc = c.rowcyc := by cases q <;> rfl
@[simp] theorem Core.setQueue_cycles (q : QueueId) (l : List Entry) : (c.setQueue q l).cycles = c.cycles := by cases q <;> rfl
@[simp] theorem Core.setQueue_bank0 (q : QueueId) (l : List Entry) : (c.setQueue q l).bank0 = c.bank0 := by cases q <;> rfl
@[simp] theorem Core.setQueue_bank1 (q : QueueId) (l : List Entry) : (c.setQueue q l).bank1 = c.bank1 := by cases q <;> rfl
@[simp] theorem Core.setQueue_saved (q : QueueId) (l : List Entry) : (c.setQueue q l).saved = c.saved := by cases q <;> rfl
@[simp] theorem Core.setQueue_drains (q : QueueId) (l : List Entry) : (c.setQueue q l).drains = c.drains := by cases q <;> rfl
@[simp] theorem Core.setQueue_arrays (q : QueueId) (l : List Entry) : (c.setQueue q l).arrays = c.arrays := by cases q <;> rfl
@[simp] theorem Core.setQueue_duty (q : QueueId) (l : List Entry) : (c.setQueue q l).duty = c.duty := by cases q <;> rfl
@[simp] theorem Core.setQueue_arraysSince (q : QueueId) (l : List Entry) : (c.setQueue q l).arraysSince = c.arraysSince := by cases q <;> rfl
@[simp] theorem Core.setQueue_weighted (q : QueueId) (l : List Entry) : (c.setQueue q l).weighted = c.weighted := by cases q <;> rfl
@[simp] theorem Core.setQueue_idleSince (q : QueueId) (l : List Entry) : (c.setQueue q l).idleSince = c.idleSince := by cases q <;> rfl
end

section
variable (s : State)

@[simp] theorem State.ringSend_pending (k : Nat) (l : List Byte) : (s.ringSend k l).pending = s.pending := by unfold State.ringSend; split <;> rfl
@[simp] theorem State.ringSend_now (k : Nat) (l : List Byte) : (s.ringSend k l).now = s.now := by unfold State.ringSend; split <;> rfl
@[simp] theorem State.ringSend_fresh (k : Nat) (l : List Byte) : (s.ringSend k l).fresh = s.fresh := by unfold State.ringSend; split <;> rfl
@[simp] theorem State.ringSend_mem (k : Nat) (l : List Byte) : (s.ringSend k l).mem = s.mem := by unfold State.ringSend; split <;> rfl
@[simp] theorem State.ringSend_poison (k : Nat) (l : List Byte) : (s.ringSend k l).poison = s.poison := by unfold State.ringSend; split <;> rfl
@[simp] theorem State.ringSend_cores (k : Nat) (l : List Byte) : (s.ringSend k l).cores = s.cores := by unfold State.ringSend; split <;> rfl
@[simp] theorem State.ringSend_ft (k : Nat) (l : List Byte) : (s.ringSend k l).ft = s.ft := by unfold State.ringSend; split <;> rfl
@[simp] theorem State.ringSend_part (k : Nat) (l : List Byte) : (s.ringSend k l).part = s.part := by unfold State.ringSend; split <;> rfl
@[simp] theorem State.ringSend_h1Lost (k : Nat) (l : List Byte) : (s.ringSend k l).h1Lost = s.h1Lost := by unfold State.ringSend; split <;> rfl
@[simp] theorem State.ringSend_jobs (k : Nat) (l : List Byte) : (s.ringSend k l).jobs = s.jobs := by unfold State.ringSend; split <;> rfl
@[simp] theorem State.ringSend_plan (k : Nat) (l : List Byte) : (s.ringSend k l).plan = s.plan := by unfold State.ringSend; split <;> rfl
@[simp] theorem State.ringSend_links (k : Nat) (l : List Byte) : (s.ringSend k l).links = s.links := by unfold State.ringSend; split <;> rfl
@[simp] theorem State.ringSend_outStreams (k : Nat) (l : List Byte) : (s.ringSend k l).outStreams = s.outStreams := by unfold State.ringSend; split <;> rfl
@[simp] theorem State.ringSend_outMsgs (k : Nat) (l : List Byte) : (s.ringSend k l).outMsgs = s.outMsgs := by unfold State.ringSend; split <;> rfl
@[simp] theorem State.ringSend_inStreams (k : Nat) (l : List Byte) : (s.ringSend k l).inStreams = s.inStreams := by unfold State.ringSend; split <;> rfl
@[simp] theorem State.ringSend_heldPuts (k : Nat) (l : List Byte) : (s.ringSend k l).heldPuts = s.heldPuts := by unfold State.ringSend; split <;> rfl
@[simp] theorem State.ringSend_heldReplies (k : Nat) (l : List Byte) : (s.ringSend k l).heldReplies = s.heldReplies := by unfold State.ringSend; split <;> rfl
@[simp] theorem State.ringSend_known (k : Nat) (l : List Byte) : (s.ringSend k l).known = s.known := by unfold State.ringSend; split <;> rfl
@[simp] theorem State.ringSend_crcTimes (k : Nat) (l : List Byte) : (s.ringSend k l).crcTimes = s.crcTimes := by unfold State.ringSend; split <;> rfl
@[simp] theorem State.ringSend_heldDown (k : Nat) (l : List Byte) : (s.ringSend k l).heldDown = s.heldDown := by unfold State.ringSend; split <;> rfl
@[simp] theorem State.ringSend_portFinds (k : Nat) (l : List Byte) : (s.ringSend k l).portFinds = s.portFinds := by unfold State.ringSend; split <;> rfl
@[simp] theorem State.ringSend_groups (k : Nat) (l : List Byte) : (s.ringSend k l).groups = s.groups := by unfold State.ringSend; split <;> rfl
@[simp] theorem State.ringSend_earlyJoins (k : Nat) (l : List Byte) : (s.ringSend k l).earlyJoins = s.earlyJoins := by unfold State.ringSend; split <;> rfl
@[simp] theorem State.ringSend_forming (k : Nat) (l : List Byte) : (s.ringSend k l).forming = s.forming := by unfold State.ringSend; split <;> rfl
@[simp] theorem State.ringSend_groupFails (k : Nat) (l : List Byte) : (s.ringSend k l).groupFails = s.groupFails := by unfold State.ringSend; split <;> rfl
@[simp] theorem State.ringSend_lateRaised (k : Nat) (l : List Byte) : (s.ringSend k l).lateRaised = s.lateRaised := by unfold State.ringSend; split <;> rfl
@[simp] theorem State.ringSend_halts (k : Nat) (l : List Byte) : (s.ringSend k l).halts = s.halts := by unfold State.ringSend; split <;> rfl
@[simp] theorem State.ringSend_checkRaised (k : Nat) (l : List Byte) : (s.ringSend k l).checkRaised = s.checkRaised := by unfold State.ringSend; split <;> rfl
@[simp] theorem State.ringSend_checkWithheld (k : Nat) (l : List Byte) : (s.ringSend k l).checkWithheld = s.checkWithheld := by unfold State.ringSend; split <;> rfl
@[simp] theorem State.ringSend_eccRaised (k : Nat) (l : List Byte) : (s.ringSend k l).eccRaised = s.eccRaised := by unfold State.ringSend; split <;> rfl
@[simp] theorem State.ringSend_health (k : Nat) (l : List Byte) : (s.ringSend k l).health = s.health := by unfold State.ringSend; split <;> rfl
@[simp] theorem State.ringSend_drills (k : Nat) (l : List Byte) : (s.ringSend k l).drills = s.drills := by unfold State.ringSend; split <;> rfl
@[simp] theorem State.ringSend_acquittal (k : Nat) (l : List Byte) : (s.ringSend k l).acquittal = s.acquittal := by unfold State.ringSend; split <;> rfl
@[simp] theorem State.ringSend_halted (k : Nat) (l : List Byte) : (s.ringSend k l).halted = s.halted := by unfold State.ringSend; split <;> rfl
@[simp] theorem State.ringSend_retained (k : Nat) (l : List Byte) : (s.ringSend k l).retained = s.retained := by unfold State.ringSend; split <;> rfl
@[simp] theorem State.ringSend_admissions (k : Nat) (l : List Byte) : (s.ringSend k l).admissions = s.admissions := by unfold State.ringSend; split <;> rfl
@[simp] theorem State.ringSend_rings (k : Nat) (l : List Byte) : (s.ringSend k l).rings = s.rings := by unfold State.ringSend; split <;> rfl
@[simp] theorem State.ringSend_lastRecords (k : Nat) (l : List Byte) : (s.ringSend k l).lastRecords = s.lastRecords := by unfold State.ringSend; split <;> rfl
@[simp] theorem State.ringSend_worklists (k : Nat) (l : List Byte) : (s.ringSend k l).worklists = s.worklists := by unfold State.ringSend; split <;> rfl
@[simp] theorem State.ringSend_sessions (k : Nat) (l : List Byte) : (s.ringSend k l).sessions = s.sessions := by unfold State.ringSend; split <;> rfl
@[simp] theorem State.ringSend_ports (k : Nat) (l : List Byte) : (s.ringSend k l).ports = s.ports := by unfold State.ringSend; split <;> rfl
@[simp] theorem State.ringSend_conns (k : Nat) (l : List Byte) : (s.ringSend k l).conns = s.conns := by unfold State.ringSend; split <;> rfl
@[simp] theorem State.ringSend_xfers (k : Nat) (l : List Byte) : (s.ringSend k l).xfers = s.xfers := by unfold State.ringSend; split <;> rfl
@[simp] theorem State.ringSend_hull (k : Nat) (l : List Byte) : (s.ringSend k l).hull = s.hull := by unfold State.ringSend; split <;> rfl
@[simp] theorem State.ringSend_power (k : Nat) (l : List Byte) : (s.ringSend k l).power = s.power := by unfold State.ringSend; split <;> rfl
@[simp] theorem State.ringSend_pool (k : Nat) (l : List Byte) : (s.ringSend k l).pool = s.pool := by unfold State.ringSend; split <;> rfl
@[simp] theorem State.ringSend_time (k : Nat) (l : List Byte) : (s.ringSend k l).time = s.time := by unfold State.ringSend; split <;> rfl
@[simp] theorem State.ringSend_pins (k : Nat) (l : List Byte) : (s.ringSend k l).pins = s.pins := by unfold State.ringSend; split <;> rfl
@[simp] theorem State.ringSend_flash (k : Nat) (l : List Byte) : (s.ringSend k l).flash = s.flash := by unfold State.ringSend; split <;> rfl
@[simp] theorem State.ringSend_running (k : Nat) (l : List Byte) : (s.ringSend k l).running = s.running := by unfold State.ringSend; split <;> rfl
@[simp] theorem State.ringSend_boot (k : Nat) (l : List Byte) : (s.ringSend k l).boot = s.boot := by unfold State.ringSend; split <;> rfl
@[simp] theorem State.ringSend_update (k : Nat) (l : List Byte) : (s.ringSend k l).update = s.update := by unfold State.ringSend; split <;> rfl
@[simp] theorem State.ringSend_resetWaits (k : Nat) (l : List Byte) : (s.ringSend k l).resetWaits = s.resetWaits := by unfold State.ringSend; split <;> rfl
@[simp] theorem State.ringSend_resetAfterJobs (k : Nat) (l : List Byte) : (s.ringSend k l).resetAfterJobs = s.resetAfterJobs := by unfold State.ringSend; split <;> rfl
@[simp] theorem State.ringSend_second (k : Nat) (l : List Byte) : (s.ringSend k l).second = s.second := by unfold State.ringSend; split <;> rfl
@[simp] theorem State.ringSend_nextXfer (k : Nat) (l : List Byte) : (s.ringSend k l).nextXfer = s.nextXfer := by unfold State.ringSend; split <;> rfl
@[simp] theorem State.ringSend_netLost (k : Nat) (l : List Byte) : (s.ringSend k l).netLost = s.netLost := by unfold State.ringSend; split <;> rfl
@[simp] theorem State.ringSend_mailbox (k : Nat) (l : List Byte) : (s.ringSend k l).mailbox = s.mailbox := by unfold State.ringSend; split <;> rfl
@[simp] theorem State.ringSend_refusals (k : Nat) (l : List Byte) : (s.ringSend k l).refusals = s.refusals := by unfold State.ringSend; split <;> rfl
@[simp] theorem State.raiseJob_pending (k : Nat) (j : Word) (l : List Word) : (s.raiseJob k j l).pending = s.pending := by
  simp only [State.raiseJob, State.raiseOnce, State.deliver]; repeat' (first | rfl | split) <;> simp
@[simp] theorem State.raise_pending (k : Nat) (l : List Word) : (s.raise k l).pending = s.pending := State.raiseJob_pending s k 0 l
@[simp] theorem State.raiseJob_now (k : Nat) (j : Word) (l : List Word) : (s.raiseJob k j l).now = s.now := by
  simp only [State.raiseJob, State.raiseOnce, State.deliver]; repeat' (first | rfl | split) <;> simp
@[simp] theorem State.raise_now (k : Nat) (l : List Word) : (s.raise k l).now = s.now := State.raiseJob_now s k 0 l
@[simp] theorem State.raiseJob_fresh (k : Nat) (j : Word) (l : List Word) : (s.raiseJob k j l).fresh = s.fresh := by
  simp only [State.raiseJob, State.raiseOnce, State.deliver]; repeat' (first | rfl | split) <;> simp
@[simp] theorem State.raise_fresh (k : Nat) (l : List Word) : (s.raise k l).fresh = s.fresh := State.raiseJob_fresh s k 0 l
@[simp] theorem State.raiseJob_mem (k : Nat) (j : Word) (l : List Word) : (s.raiseJob k j l).mem = s.mem := by
  simp only [State.raiseJob, State.raiseOnce, State.deliver]; repeat' (first | rfl | split) <;> simp
@[simp] theorem State.raise_mem (k : Nat) (l : List Word) : (s.raise k l).mem = s.mem := State.raiseJob_mem s k 0 l
@[simp] theorem State.raiseJob_poison (k : Nat) (j : Word) (l : List Word) : (s.raiseJob k j l).poison = s.poison := by
  simp only [State.raiseJob, State.raiseOnce, State.deliver]; repeat' (first | rfl | split) <;> simp
@[simp] theorem State.raise_poison (k : Nat) (l : List Word) : (s.raise k l).poison = s.poison := State.raiseJob_poison s k 0 l
@[simp] theorem State.raiseJob_cores (k : Nat) (j : Word) (l : List Word) : (s.raiseJob k j l).cores = s.cores := by
  simp only [State.raiseJob, State.raiseOnce, State.deliver]; repeat' (first | rfl | split) <;> simp
@[simp] theorem State.raise_cores (k : Nat) (l : List Word) : (s.raise k l).cores = s.cores := State.raiseJob_cores s k 0 l
@[simp] theorem State.raiseJob_ft (k : Nat) (j : Word) (l : List Word) : (s.raiseJob k j l).ft = s.ft := by
  simp only [State.raiseJob, State.raiseOnce, State.deliver]; repeat' (first | rfl | split) <;> simp
@[simp] theorem State.raise_ft (k : Nat) (l : List Word) : (s.raise k l).ft = s.ft := State.raiseJob_ft s k 0 l
@[simp] theorem State.raiseJob_part (k : Nat) (j : Word) (l : List Word) : (s.raiseJob k j l).part = s.part := by
  simp only [State.raiseJob, State.raiseOnce, State.deliver]; repeat' (first | rfl | split) <;> simp
@[simp] theorem State.raise_part (k : Nat) (l : List Word) : (s.raise k l).part = s.part := State.raiseJob_part s k 0 l
@[simp] theorem State.raiseJob_h1Lost (k : Nat) (j : Word) (l : List Word) : (s.raiseJob k j l).h1Lost = s.h1Lost := by
  simp only [State.raiseJob, State.raiseOnce, State.deliver]; repeat' (first | rfl | split) <;> simp
@[simp] theorem State.raise_h1Lost (k : Nat) (l : List Word) : (s.raise k l).h1Lost = s.h1Lost := State.raiseJob_h1Lost s k 0 l
@[simp] theorem State.raiseJob_jobs (k : Nat) (j : Word) (l : List Word) : (s.raiseJob k j l).jobs = s.jobs := by
  simp only [State.raiseJob, State.raiseOnce, State.deliver]; repeat' (first | rfl | split) <;> simp
@[simp] theorem State.raise_jobs (k : Nat) (l : List Word) : (s.raise k l).jobs = s.jobs := State.raiseJob_jobs s k 0 l
@[simp] theorem State.raiseJob_plan (k : Nat) (j : Word) (l : List Word) : (s.raiseJob k j l).plan = s.plan := by
  simp only [State.raiseJob, State.raiseOnce, State.deliver]; repeat' (first | rfl | split) <;> simp
@[simp] theorem State.raise_plan (k : Nat) (l : List Word) : (s.raise k l).plan = s.plan := State.raiseJob_plan s k 0 l
@[simp] theorem State.raiseJob_links (k : Nat) (j : Word) (l : List Word) : (s.raiseJob k j l).links = s.links := by
  simp only [State.raiseJob, State.raiseOnce, State.deliver]; repeat' (first | rfl | split) <;> simp
@[simp] theorem State.raise_links (k : Nat) (l : List Word) : (s.raise k l).links = s.links := State.raiseJob_links s k 0 l
@[simp] theorem State.raiseJob_outStreams (k : Nat) (j : Word) (l : List Word) : (s.raiseJob k j l).outStreams = s.outStreams := by
  simp only [State.raiseJob, State.raiseOnce, State.deliver]; repeat' (first | rfl | split) <;> simp
@[simp] theorem State.raise_outStreams (k : Nat) (l : List Word) : (s.raise k l).outStreams = s.outStreams := State.raiseJob_outStreams s k 0 l
@[simp] theorem State.raiseJob_outMsgs (k : Nat) (j : Word) (l : List Word) : (s.raiseJob k j l).outMsgs = s.outMsgs := by
  simp only [State.raiseJob, State.raiseOnce, State.deliver]; repeat' (first | rfl | split) <;> simp
@[simp] theorem State.raise_outMsgs (k : Nat) (l : List Word) : (s.raise k l).outMsgs = s.outMsgs := State.raiseJob_outMsgs s k 0 l
@[simp] theorem State.raiseJob_inStreams (k : Nat) (j : Word) (l : List Word) : (s.raiseJob k j l).inStreams = s.inStreams := by
  simp only [State.raiseJob, State.raiseOnce, State.deliver]; repeat' (first | rfl | split) <;> simp
@[simp] theorem State.raise_inStreams (k : Nat) (l : List Word) : (s.raise k l).inStreams = s.inStreams := State.raiseJob_inStreams s k 0 l
@[simp] theorem State.raiseJob_heldPuts (k : Nat) (j : Word) (l : List Word) : (s.raiseJob k j l).heldPuts = s.heldPuts := by
  simp only [State.raiseJob, State.raiseOnce, State.deliver]; repeat' (first | rfl | split) <;> simp
@[simp] theorem State.raise_heldPuts (k : Nat) (l : List Word) : (s.raise k l).heldPuts = s.heldPuts := State.raiseJob_heldPuts s k 0 l
@[simp] theorem State.raiseJob_heldReplies (k : Nat) (j : Word) (l : List Word) : (s.raiseJob k j l).heldReplies = s.heldReplies := by
  simp only [State.raiseJob, State.raiseOnce, State.deliver]; repeat' (first | rfl | split) <;> simp
@[simp] theorem State.raise_heldReplies (k : Nat) (l : List Word) : (s.raise k l).heldReplies = s.heldReplies := State.raiseJob_heldReplies s k 0 l
@[simp] theorem State.raiseJob_known (k : Nat) (j : Word) (l : List Word) : (s.raiseJob k j l).known = s.known := by
  simp only [State.raiseJob, State.raiseOnce, State.deliver]; repeat' (first | rfl | split) <;> simp
@[simp] theorem State.raise_known (k : Nat) (l : List Word) : (s.raise k l).known = s.known := State.raiseJob_known s k 0 l
@[simp] theorem State.raiseJob_crcTimes (k : Nat) (j : Word) (l : List Word) : (s.raiseJob k j l).crcTimes = s.crcTimes := by
  simp only [State.raiseJob, State.raiseOnce, State.deliver]; repeat' (first | rfl | split) <;> simp
@[simp] theorem State.raise_crcTimes (k : Nat) (l : List Word) : (s.raise k l).crcTimes = s.crcTimes := State.raiseJob_crcTimes s k 0 l
@[simp] theorem State.raiseJob_heldDown (k : Nat) (j : Word) (l : List Word) : (s.raiseJob k j l).heldDown = s.heldDown := by
  simp only [State.raiseJob, State.raiseOnce, State.deliver]; repeat' (first | rfl | split) <;> simp
@[simp] theorem State.raise_heldDown (k : Nat) (l : List Word) : (s.raise k l).heldDown = s.heldDown := State.raiseJob_heldDown s k 0 l
@[simp] theorem State.raiseJob_portFinds (k : Nat) (j : Word) (l : List Word) : (s.raiseJob k j l).portFinds = s.portFinds := by
  simp only [State.raiseJob, State.raiseOnce, State.deliver]; repeat' (first | rfl | split) <;> simp
@[simp] theorem State.raise_portFinds (k : Nat) (l : List Word) : (s.raise k l).portFinds = s.portFinds := State.raiseJob_portFinds s k 0 l
@[simp] theorem State.raiseJob_groups (k : Nat) (j : Word) (l : List Word) : (s.raiseJob k j l).groups = s.groups := by
  simp only [State.raiseJob, State.raiseOnce, State.deliver]; repeat' (first | rfl | split) <;> simp
@[simp] theorem State.raise_groups (k : Nat) (l : List Word) : (s.raise k l).groups = s.groups := State.raiseJob_groups s k 0 l
@[simp] theorem State.raiseJob_earlyJoins (k : Nat) (j : Word) (l : List Word) : (s.raiseJob k j l).earlyJoins = s.earlyJoins := by
  simp only [State.raiseJob, State.raiseOnce, State.deliver]; repeat' (first | rfl | split) <;> simp
@[simp] theorem State.raise_earlyJoins (k : Nat) (l : List Word) : (s.raise k l).earlyJoins = s.earlyJoins := State.raiseJob_earlyJoins s k 0 l
@[simp] theorem State.raiseJob_forming (k : Nat) (j : Word) (l : List Word) : (s.raiseJob k j l).forming = s.forming := by
  simp only [State.raiseJob, State.raiseOnce, State.deliver]; repeat' (first | rfl | split) <;> simp
@[simp] theorem State.raise_forming (k : Nat) (l : List Word) : (s.raise k l).forming = s.forming := State.raiseJob_forming s k 0 l
@[simp] theorem State.raiseJob_groupFails (k : Nat) (j : Word) (l : List Word) : (s.raiseJob k j l).groupFails = s.groupFails := by
  simp only [State.raiseJob, State.raiseOnce, State.deliver]; repeat' (first | rfl | split) <;> simp
@[simp] theorem State.raise_groupFails (k : Nat) (l : List Word) : (s.raise k l).groupFails = s.groupFails := State.raiseJob_groupFails s k 0 l
@[simp] theorem State.raiseJob_lateRaised (k : Nat) (j : Word) (l : List Word) : (s.raiseJob k j l).lateRaised = s.lateRaised := by
  simp only [State.raiseJob, State.raiseOnce, State.deliver]; repeat' (first | rfl | split) <;> simp
@[simp] theorem State.raise_lateRaised (k : Nat) (l : List Word) : (s.raise k l).lateRaised = s.lateRaised := State.raiseJob_lateRaised s k 0 l
@[simp] theorem State.raiseJob_halts (k : Nat) (j : Word) (l : List Word) : (s.raiseJob k j l).halts = s.halts := by
  simp only [State.raiseJob, State.raiseOnce, State.deliver]; repeat' (first | rfl | split) <;> simp
@[simp] theorem State.raise_halts (k : Nat) (l : List Word) : (s.raise k l).halts = s.halts := State.raiseJob_halts s k 0 l
@[simp] theorem State.raiseJob_checkRaised (k : Nat) (j : Word) (l : List Word) : (s.raiseJob k j l).checkRaised = s.checkRaised := by
  simp only [State.raiseJob, State.raiseOnce, State.deliver]; repeat' (first | rfl | split) <;> simp
@[simp] theorem State.raise_checkRaised (k : Nat) (l : List Word) : (s.raise k l).checkRaised = s.checkRaised := State.raiseJob_checkRaised s k 0 l
@[simp] theorem State.raiseJob_checkWithheld (k : Nat) (j : Word) (l : List Word) : (s.raiseJob k j l).checkWithheld = s.checkWithheld := by
  simp only [State.raiseJob, State.raiseOnce, State.deliver]; repeat' (first | rfl | split) <;> simp
@[simp] theorem State.raise_checkWithheld (k : Nat) (l : List Word) : (s.raise k l).checkWithheld = s.checkWithheld := State.raiseJob_checkWithheld s k 0 l
@[simp] theorem State.raiseJob_eccRaised (k : Nat) (j : Word) (l : List Word) : (s.raiseJob k j l).eccRaised = s.eccRaised := by
  simp only [State.raiseJob, State.raiseOnce, State.deliver]; repeat' (first | rfl | split) <;> simp
@[simp] theorem State.raise_eccRaised (k : Nat) (l : List Word) : (s.raise k l).eccRaised = s.eccRaised := State.raiseJob_eccRaised s k 0 l
@[simp] theorem State.raiseJob_health (k : Nat) (j : Word) (l : List Word) : (s.raiseJob k j l).health = s.health := by
  simp only [State.raiseJob, State.raiseOnce, State.deliver]; repeat' (first | rfl | split) <;> simp
@[simp] theorem State.raise_health (k : Nat) (l : List Word) : (s.raise k l).health = s.health := State.raiseJob_health s k 0 l
@[simp] theorem State.raiseJob_drills (k : Nat) (j : Word) (l : List Word) : (s.raiseJob k j l).drills = s.drills := by
  simp only [State.raiseJob, State.raiseOnce, State.deliver]; repeat' (first | rfl | split) <;> simp
@[simp] theorem State.raise_drills (k : Nat) (l : List Word) : (s.raise k l).drills = s.drills := State.raiseJob_drills s k 0 l
@[simp] theorem State.raiseJob_acquittal (k : Nat) (j : Word) (l : List Word) : (s.raiseJob k j l).acquittal = s.acquittal := by
  simp only [State.raiseJob, State.raiseOnce, State.deliver]; repeat' (first | rfl | split) <;> simp
@[simp] theorem State.raise_acquittal (k : Nat) (l : List Word) : (s.raise k l).acquittal = s.acquittal := State.raiseJob_acquittal s k 0 l
@[simp] theorem State.raiseJob_halted (k : Nat) (j : Word) (l : List Word) : (s.raiseJob k j l).halted = s.halted := by
  simp only [State.raiseJob, State.raiseOnce, State.deliver]; repeat' (first | rfl | split) <;> simp
@[simp] theorem State.raise_halted (k : Nat) (l : List Word) : (s.raise k l).halted = s.halted := State.raiseJob_halted s k 0 l
@[simp] theorem State.raiseJob_retained (k : Nat) (j : Word) (l : List Word) : (s.raiseJob k j l).retained = s.retained := by
  simp only [State.raiseJob, State.raiseOnce, State.deliver]; repeat' (first | rfl | split) <;> simp
@[simp] theorem State.raise_retained (k : Nat) (l : List Word) : (s.raise k l).retained = s.retained := State.raiseJob_retained s k 0 l
@[simp] theorem State.raiseJob_admissions (k : Nat) (j : Word) (l : List Word) : (s.raiseJob k j l).admissions = s.admissions := by
  simp only [State.raiseJob, State.raiseOnce, State.deliver]; repeat' (first | rfl | split) <;> simp
@[simp] theorem State.raise_admissions (k : Nat) (l : List Word) : (s.raise k l).admissions = s.admissions := State.raiseJob_admissions s k 0 l
@[simp] theorem State.raiseJob_rings (k : Nat) (j : Word) (l : List Word) : (s.raiseJob k j l).rings = s.rings := by
  simp only [State.raiseJob, State.raiseOnce, State.deliver]; repeat' (first | rfl | split) <;> simp
@[simp] theorem State.raise_rings (k : Nat) (l : List Word) : (s.raise k l).rings = s.rings := State.raiseJob_rings s k 0 l
@[simp] theorem State.raiseJob_lastRecords (k : Nat) (j : Word) (l : List Word) : (s.raiseJob k j l).lastRecords = s.lastRecords := by
  simp only [State.raiseJob, State.raiseOnce, State.deliver]; repeat' (first | rfl | split) <;> simp
@[simp] theorem State.raise_lastRecords (k : Nat) (l : List Word) : (s.raise k l).lastRecords = s.lastRecords := State.raiseJob_lastRecords s k 0 l
@[simp] theorem State.raiseJob_worklists (k : Nat) (j : Word) (l : List Word) : (s.raiseJob k j l).worklists = s.worklists := by
  simp only [State.raiseJob, State.raiseOnce, State.deliver]; repeat' (first | rfl | split) <;> simp
@[simp] theorem State.raise_worklists (k : Nat) (l : List Word) : (s.raise k l).worklists = s.worklists := State.raiseJob_worklists s k 0 l
@[simp] theorem State.raiseJob_sessions (k : Nat) (j : Word) (l : List Word) : (s.raiseJob k j l).sessions = s.sessions := by
  simp only [State.raiseJob, State.raiseOnce, State.deliver]; repeat' (first | rfl | split) <;> simp
@[simp] theorem State.raise_sessions (k : Nat) (l : List Word) : (s.raise k l).sessions = s.sessions := State.raiseJob_sessions s k 0 l
@[simp] theorem State.raiseJob_ports (k : Nat) (j : Word) (l : List Word) : (s.raiseJob k j l).ports = s.ports := by
  simp only [State.raiseJob, State.raiseOnce, State.deliver]; repeat' (first | rfl | split) <;> simp
@[simp] theorem State.raise_ports (k : Nat) (l : List Word) : (s.raise k l).ports = s.ports := State.raiseJob_ports s k 0 l
@[simp] theorem State.raiseJob_conns (k : Nat) (j : Word) (l : List Word) : (s.raiseJob k j l).conns = s.conns := by
  simp only [State.raiseJob, State.raiseOnce, State.deliver]; repeat' (first | rfl | split) <;> simp
@[simp] theorem State.raise_conns (k : Nat) (l : List Word) : (s.raise k l).conns = s.conns := State.raiseJob_conns s k 0 l
@[simp] theorem State.raiseJob_xfers (k : Nat) (j : Word) (l : List Word) : (s.raiseJob k j l).xfers = s.xfers := by
  simp only [State.raiseJob, State.raiseOnce, State.deliver]; repeat' (first | rfl | split) <;> simp
@[simp] theorem State.raise_xfers (k : Nat) (l : List Word) : (s.raise k l).xfers = s.xfers := State.raiseJob_xfers s k 0 l
@[simp] theorem State.raiseJob_hull (k : Nat) (j : Word) (l : List Word) : (s.raiseJob k j l).hull = s.hull := by
  simp only [State.raiseJob, State.raiseOnce, State.deliver]; repeat' (first | rfl | split) <;> simp
@[simp] theorem State.raise_hull (k : Nat) (l : List Word) : (s.raise k l).hull = s.hull := State.raiseJob_hull s k 0 l
@[simp] theorem State.raiseJob_power (k : Nat) (j : Word) (l : List Word) : (s.raiseJob k j l).power = s.power := by
  simp only [State.raiseJob, State.raiseOnce, State.deliver]; repeat' (first | rfl | split) <;> simp
@[simp] theorem State.raise_power (k : Nat) (l : List Word) : (s.raise k l).power = s.power := State.raiseJob_power s k 0 l
@[simp] theorem State.raiseJob_pool (k : Nat) (j : Word) (l : List Word) : (s.raiseJob k j l).pool = s.pool := by
  simp only [State.raiseJob, State.raiseOnce, State.deliver]; repeat' (first | rfl | split) <;> simp
@[simp] theorem State.raise_pool (k : Nat) (l : List Word) : (s.raise k l).pool = s.pool := State.raiseJob_pool s k 0 l
@[simp] theorem State.raiseJob_time (k : Nat) (j : Word) (l : List Word) : (s.raiseJob k j l).time = s.time := by
  simp only [State.raiseJob, State.raiseOnce, State.deliver]; repeat' (first | rfl | split) <;> simp
@[simp] theorem State.raise_time (k : Nat) (l : List Word) : (s.raise k l).time = s.time := State.raiseJob_time s k 0 l
@[simp] theorem State.raiseJob_pins (k : Nat) (j : Word) (l : List Word) : (s.raiseJob k j l).pins = s.pins := by
  simp only [State.raiseJob, State.raiseOnce, State.deliver]; repeat' (first | rfl | split) <;> simp
@[simp] theorem State.raise_pins (k : Nat) (l : List Word) : (s.raise k l).pins = s.pins := State.raiseJob_pins s k 0 l
@[simp] theorem State.raiseJob_flash (k : Nat) (j : Word) (l : List Word) : (s.raiseJob k j l).flash = s.flash := by
  simp only [State.raiseJob, State.raiseOnce, State.deliver]; repeat' (first | rfl | split) <;> simp
@[simp] theorem State.raise_flash (k : Nat) (l : List Word) : (s.raise k l).flash = s.flash := State.raiseJob_flash s k 0 l
@[simp] theorem State.raiseJob_running (k : Nat) (j : Word) (l : List Word) : (s.raiseJob k j l).running = s.running := by
  simp only [State.raiseJob, State.raiseOnce, State.deliver]; repeat' (first | rfl | split) <;> simp
@[simp] theorem State.raise_running (k : Nat) (l : List Word) : (s.raise k l).running = s.running := State.raiseJob_running s k 0 l
@[simp] theorem State.raiseJob_boot (k : Nat) (j : Word) (l : List Word) : (s.raiseJob k j l).boot = s.boot := by
  simp only [State.raiseJob, State.raiseOnce, State.deliver]; repeat' (first | rfl | split) <;> simp
@[simp] theorem State.raise_boot (k : Nat) (l : List Word) : (s.raise k l).boot = s.boot := State.raiseJob_boot s k 0 l
@[simp] theorem State.raiseJob_update (k : Nat) (j : Word) (l : List Word) : (s.raiseJob k j l).update = s.update := by
  simp only [State.raiseJob, State.raiseOnce, State.deliver]; repeat' (first | rfl | split) <;> simp
@[simp] theorem State.raise_update (k : Nat) (l : List Word) : (s.raise k l).update = s.update := State.raiseJob_update s k 0 l
@[simp] theorem State.raiseJob_resetWaits (k : Nat) (j : Word) (l : List Word) : (s.raiseJob k j l).resetWaits = s.resetWaits := by
  simp only [State.raiseJob, State.raiseOnce, State.deliver]; repeat' (first | rfl | split) <;> simp
@[simp] theorem State.raise_resetWaits (k : Nat) (l : List Word) : (s.raise k l).resetWaits = s.resetWaits := State.raiseJob_resetWaits s k 0 l
@[simp] theorem State.raiseJob_resetAfterJobs (k : Nat) (j : Word) (l : List Word) : (s.raiseJob k j l).resetAfterJobs = s.resetAfterJobs := by
  simp only [State.raiseJob, State.raiseOnce, State.deliver]; repeat' (first | rfl | split) <;> simp
@[simp] theorem State.raise_resetAfterJobs (k : Nat) (l : List Word) : (s.raise k l).resetAfterJobs = s.resetAfterJobs := State.raiseJob_resetAfterJobs s k 0 l
@[simp] theorem State.raiseJob_second (k : Nat) (j : Word) (l : List Word) : (s.raiseJob k j l).second = s.second := by
  simp only [State.raiseJob, State.raiseOnce, State.deliver]; repeat' (first | rfl | split) <;> simp
@[simp] theorem State.raise_second (k : Nat) (l : List Word) : (s.raise k l).second = s.second := State.raiseJob_second s k 0 l
@[simp] theorem State.raiseJob_nextXfer (k : Nat) (j : Word) (l : List Word) : (s.raiseJob k j l).nextXfer = s.nextXfer := by
  simp only [State.raiseJob, State.raiseOnce, State.deliver]; repeat' (first | rfl | split) <;> simp
@[simp] theorem State.raise_nextXfer (k : Nat) (l : List Word) : (s.raise k l).nextXfer = s.nextXfer := State.raiseJob_nextXfer s k 0 l
@[simp] theorem State.raiseJob_netLost (k : Nat) (j : Word) (l : List Word) : (s.raiseJob k j l).netLost = s.netLost := by
  simp only [State.raiseJob, State.raiseOnce, State.deliver]; repeat' (first | rfl | split) <;> simp
@[simp] theorem State.raise_netLost (k : Nat) (l : List Word) : (s.raise k l).netLost = s.netLost := State.raiseJob_netLost s k 0 l
@[simp] theorem State.raiseJob_mailbox (k : Nat) (j : Word) (l : List Word) : (s.raiseJob k j l).mailbox = s.mailbox := by
  simp only [State.raiseJob, State.raiseOnce, State.deliver]; repeat' (first | rfl | split) <;> simp
@[simp] theorem State.raise_mailbox (k : Nat) (l : List Word) : (s.raise k l).mailbox = s.mailbox := State.raiseJob_mailbox s k 0 l
@[simp] theorem State.raiseJob_refusals (k : Nat) (j : Word) (l : List Word) : (s.raiseJob k j l).refusals = s.refusals := by
  simp only [State.raiseJob, State.raiseOnce, State.deliver]; repeat' (first | rfl | split) <;> simp
@[simp] theorem State.raise_refusals (k : Nat) (l : List Word) : (s.raise k l).refusals = s.refusals := State.raiseJob_refusals s k 0 l
end

section
variable (s : State)

/-- Core n of a state with core n replaced. -/
@[simp] theorem State.core_setCore (n : Fin 32) (c : Core) : (s.setCore n c).cores[n.val] = c := by simp [State.setCore]

/-- Core n of a state with core n changed. -/
@[simp] theorem State.core_modCore (n : Fin 32) (f : Core → Core) : (s.modCore n f).cores[n.val] = f s.cores[n.val] := by
  simp [State.modCore]

/-- Another core is as it was. -/
theorem State.core_setCore_ne (n m : Fin 32) (c : Core) (h : m ≠ n) : (s.setCore n c).cores[m.val] = s.cores[m.val] := by
  have : n.val ≠ m.val := fun e => h (Fin.ext e.symm)
  simp [State.setCore, this]

/-- The later replacement of one core stands. -/
@[simp] theorem State.setCore_setCore (n : Fin 32) (c d : Core) : (s.setCore n c).setCore n d = s.setCore n d := by
  simp [State.setCore]

/-- A change after a replacement is a replacement. -/
@[simp] theorem State.modCore_setCore (n : Fin 32) (c : Core) (f : Core → Core) : (s.setCore n c).modCore n f = s.setCore n (f c) := by
  simp [State.modCore]

/-- A replacement after a change stands. -/
@[simp] theorem State.setCore_modCore (n : Fin 32) (c : Core) (f : Core → Core) : (s.modCore n f).setCore n c = s.setCore n c := by
  simp [State.modCore]

/-- Memory reads the same after a replacement of a core. -/
@[simp] theorem State.readByte_setCore (n : Fin 32) (c : Core) (a : Nat) : (s.setCore n c).readByte a = s.readByte a := rfl

/-- A register reads the same after a replacement of a core. -/
@[simp] theorem State.reg_setCore (n : Fin 32) (c : Core) (o : Nat) : (s.setCore n c).reg o = s.reg o := rfl

end

section
variable (c : Core)

/-- A scalar register after a write: s0 stays 0 (R58). -/
theorem Core.s_setS (r q : BitVec 5) (v : Word) : (c.setS r v).s q = if q = r ∧ r ≠ 0 then v else c.s q := by
  unfold Core.setS Core.s
  split
  · simp_all
  · split
    · simp_all
    · by_cases h : q = r
      · simp_all
      · have : r.toFin ≠ q.toFin := fun e => h (BitVec.toFin_inj.mp e).symm
        have : r.toFin.val ≠ q.toFin.val := fun e => this (Fin.ext e)
        simp_all

/-- A predicate after a write: p0 stays 1 (R58). -/
theorem Core.p_setP (r q : BitVec 3) (v : Bool) : (c.setP r v).p q = if q = r ∧ r ≠ 0 then v else c.p q := by
  unfold Core.setP Core.p
  split
  · by_cases h : q = r <;> simp_all
  · split
    · simp_all
    · by_cases h : q = r
      · simp_all
      · have : r.toFin ≠ q.toFin := fun e => h (BitVec.toFin_inj.mp e).symm
        have : r.toFin.val ≠ q.toFin.val := fun e => this (Fin.ext e)
        simp_all

/-- A descriptor register after a write. -/
theorem Core.d_setD (r q : BitVec 4) (v : BitVec 256) : (c.setD r v).d q = if q = r then v else c.d q := by
  unfold Core.setD Core.d
  by_cases h : q = r
  · simp_all
  · have : r.toFin ≠ q.toFin := fun e => h (BitVec.toFin_inj.mp e).symm
    have : r.toFin.val ≠ q.toFin.val := fun e => this (Fin.ext e)
    simp_all

/-- A semaphore after a write of one that exists. -/
theorem Core.sem_setSem (k j v : Nat) (hk : k < 48) : (c.setSem k v).sem j = if j = k then v % 65536 else c.sem j := by
  unfold Core.setSem Core.sem
  by_cases h : j = k
  · subst h; simp [hk]
  · have : k ≠ j := fun e => h e.symm
    simp [h, this]

/-- A semaphore's value fits 16 bits. -/
theorem Core.sem_lt (k : Nat) : c.sem k < 65536 := by
  unfold Core.sem
  split
  · exact BitVec.isLt _
  · omega

/-- The reads of a core that another register's write leaves alone. -/
@[simp] theorem Core.p_setS (r : BitVec 5) (v : Word) (q : BitVec 3) : (c.setS r v).p q = c.p q := by simp [Core.p]
@[simp] theorem Core.d_setS (r : BitVec 5) (v : Word) (q : BitVec 4) : (c.setS r v).d q = c.d q := by simp [Core.d]
@[simp] theorem Core.sem_setS (r : BitVec 5) (v : Word) (k : Nat) : (c.setS r v).sem k = c.sem k := by simp [Core.sem]
@[simp] theorem Core.queue_setS (r : BitVec 5) (v : Word) (q : QueueId) : (c.setS r v).queue q = c.queue q := by cases q <;> simp [Core.queue]
@[simp] theorem Core.s_setP (r : BitVec 3) (v : Bool) (q : BitVec 5) : (c.setP r v).s q = c.s q := by simp [Core.s]
@[simp] theorem Core.d_setP (r : BitVec 3) (v : Bool) (q : BitVec 4) : (c.setP r v).d q = c.d q := by simp [Core.d]
@[simp] theorem Core.sem_setP (r : BitVec 3) (v : Bool) (k : Nat) : (c.setP r v).sem k = c.sem k := by simp [Core.sem]
@[simp] theorem Core.queue_setP (r : BitVec 3) (v : Bool) (q : QueueId) : (c.setP r v).queue q = c.queue q := by cases q <;> simp [Core.queue]
@[simp] theorem Core.s_setD (r : BitVec 4) (v : BitVec 256) (q : BitVec 5) : (c.setD r v).s q = c.s q := by simp [Core.s]
@[simp] theorem Core.p_setD (r : BitVec 4) (v : BitVec 256) (q : BitVec 3) : (c.setD r v).p q = c.p q := by simp [Core.p]
@[simp] theorem Core.sem_setD (r : BitVec 4) (v : BitVec 256) (k : Nat) : (c.setD r v).sem k = c.sem k := by simp [Core.sem]
@[simp] theorem Core.queue_setD (r : BitVec 4) (v : BitVec 256) (q : QueueId) : (c.setD r v).queue q = c.queue q := by cases q <;> simp [Core.queue]
@[simp] theorem Core.s_setSem (k v : Nat) (q : BitVec 5) : (c.setSem k v).s q = c.s q := by simp [Core.s]
@[simp] theorem Core.p_setSem (k v : Nat) (q : BitVec 3) : (c.setSem k v).p q = c.p q := by simp [Core.p]
@[simp] theorem Core.d_setSem (k v : Nat) (q : BitVec 4) : (c.setSem k v).d q = c.d q := by simp [Core.d]
@[simp] theorem Core.queue_setSem (k v : Nat) (q : QueueId) : (c.setSem k v).queue q = c.queue q := by cases q <;> simp [Core.queue]
@[simp] theorem Core.queue_setQueue (q r : QueueId) (l : List Entry) : (c.setQueue q l).queue r = if r = q then l else c.queue r := by
  cases q <;> cases r <;> simp [Core.setQueue, Core.queue]
@[simp] theorem Core.s_setQueue (q : QueueId) (l : List Entry) (r : BitVec 5) : (c.setQueue q l).s r = c.s r := by simp [Core.s]
@[simp] theorem Core.p_setQueue (q : QueueId) (l : List Entry) (r : BitVec 3) : (c.setQueue q l).p r = c.p r := by simp [Core.p]
@[simp] theorem Core.d_setQueue (q : QueueId) (l : List Entry) (r : BitVec 4) : (c.setQueue q l).d r = c.d r := by simp [Core.d]
@[simp] theorem Core.sem_setQueue (q : QueueId) (l : List Entry) (k : Nat) : (c.setQueue q l).sem k = c.sem k := by simp [Core.sem]

end

end Sys2Proof.Machine
end

