-- ==== Sys2Proof/Laws/Registers.lean ====
section
/-! SUPPORT. Reading back a register of the file and the fields of a word after a write; the register file must have its canonical form. -/

namespace Sys2Proof

/-- A bit of a field of a word. -/
theorem Word.testBit_field (w : Word) (hi lo i : Nat) : (w.field hi lo).testBit i = (decide (i < hi + 1 - lo) && w.getLsbD (lo + i)) := by
  unfold Word.field
  rw [Nat.testBit_mod_two_pow, Nat.testBit_div_two_pow]
  rw [Nat.add_comm i lo]
  rfl

/-- A bit of a number placed in a word. -/
theorem Word.getLsbD_place (v width lo i : Nat) :
    (Word.place v width lo).getLsbD i = (decide (i < 64) && decide (lo ≤ i) && decide (i - lo < width) && v.testBit (i - lo)) := by
  unfold Word.place
  rw [BitVec.getLsbD_ofNat, Nat.testBit_mul_two_pow, Nat.testBit_mod_two_pow]
  simp [Bool.and_assoc]

/-- A bit of the mask of a field. -/
theorem Word.getLsbD_mask (hi lo i : Nat) : (Word.mask hi lo).getLsbD i = (decide (i < 64) && decide (lo ≤ i) && decide (i - lo < hi + 1 - lo)) := by
  unfold Word.mask
  rw [BitVec.getLsbD_ofNat, Nat.testBit_mul_two_pow, Nat.testBit_two_pow_sub_one]
  simp [Bool.and_assoc]

/-- A bit of a word with one field replaced. -/
theorem Machine.Word.getLsbD_withField (w : Word) (hi lo v i : Nat) (hh : hi < 64) :
    (Machine.Word.withField w hi lo v).getLsbD i =
      if lo ≤ i ∧ i ≤ hi then v.testBit (i - lo) else w.getLsbD i := by
  unfold Machine.Word.withField
  rw [BitVec.getLsbD_or, BitVec.getLsbD_and, BitVec.getLsbD_not, Word.getLsbD_place, Word.getLsbD_mask]
  by_cases h64 : i < 64
  · by_cases h1 : lo ≤ i
    · by_cases h2 : i ≤ hi
      · have h3 : i - lo < hi + 1 - lo := by omega
        simp [h64, h1, h2, h3]
      · have h3 : ¬ i - lo < hi + 1 - lo := by omega
        simp [h64, h1, h2, h3]
    · simp [h64, h1]
  · have h2 : ¬ i ≤ hi := by omega
    have hw : w.getLsbD i = false := BitVec.getLsbD_of_ge w i (by omega)
    simp [h64, h2, hw]

/-- A field read back after it is replaced. -/
theorem Word.field_withField (w : Word) (hi lo v : Nat) (hh : hi < 64) :
    (Machine.Word.withField w hi lo v).field hi lo = v % 2 ^ (hi + 1 - lo) := by
  apply Nat.eq_of_testBit_eq
  intro i
  rw [Word.testBit_field, Nat.testBit_mod_two_pow, Machine.Word.getLsbD_withField _ _ _ _ _ hh]
  by_cases h : i < hi + 1 - lo
  · have : lo ≤ lo + i ∧ lo + i ≤ hi := by omega
    simp only [h, decide_true, Bool.true_and, this, and_self, if_true, Nat.add_sub_cancel_left]
  · simp [h]

/-- A field that another field's replacement leaves alone. -/
theorem Word.field_withField_ne (w : Word) (hi lo v hi' lo' : Nat) (hh : hi < 64) (h : hi' < lo ∨ hi < lo') :
    (Machine.Word.withField w hi lo v).field hi' lo' = w.field hi' lo' := by
  apply Nat.eq_of_testBit_eq
  intro i
  rw [Word.testBit_field, Word.testBit_field, Machine.Word.getLsbD_withField _ _ _ _ _ hh]
  by_cases g : i < hi' + 1 - lo'
  · have : ¬ (lo ≤ lo' + i ∧ lo' + i ≤ hi) := by omega
    simp only [g, decide_true, Bool.true_and, this, if_false]
  · simp [g]

/-- A bit of a word with a field replaced. -/
theorem Word.bit_withField (w : Word) (hi lo v k : Nat) (hh : hi < 64) :
    (Machine.Word.withField w hi lo v).bit k = if lo ≤ k ∧ k ≤ hi then v.testBit (k - lo) else w.bit k :=
  Machine.Word.getLsbD_withField w hi lo v k hh

end Sys2Proof

namespace Sys2Proof.Machine

/-- A register after a write of one. -/
theorem State.reg_setReg (s : State) (o q : Nat) (v : Word) (w : sparseWf csrReset s.regs = true) :
    (s.setReg o v).reg q = if q = o then v else s.reg q := by
  unfold State.setReg State.reg
  exact sparseGet_sparseSet (lo := 0) w

/-- The register file keeps its canonical form. -/
theorem State.setReg_wf (s : State) (o : Nat) (v : Word) (w : sparseWf csrReset s.regs = true) : sparseWf csrReset (s.setReg o v).regs = true :=
  sparseSet_wf w

/-- The register file keeps its canonical form. -/
theorem State.setFld_wf (s : State) (o hi lo v : Nat) (w : sparseWf csrReset s.regs = true) : sparseWf csrReset (s.setFld o hi lo v).regs = true :=
  sparseSet_wf w

/-- A register after a write of a field of one. -/
theorem State.reg_setFld (s : State) (o hi lo v q : Nat) (w : sparseWf csrReset s.regs = true) :
    (s.setFld o hi lo v).reg q = if q = o then Word.withField (s.reg o) hi lo v else s.reg q := by
  unfold State.setFld
  exact s.reg_setReg o q _ w

/-- A field read back. -/
theorem State.fld_setFld (s : State) (o hi lo v : Nat) (w : sparseWf csrReset s.regs = true) (hh : hi < 64) :
    (s.setFld o hi lo v).fld o hi lo = v % 2 ^ (hi + 1 - lo) := by
  unfold State.fld
  rw [s.reg_setFld o hi lo v o w, if_pos rfl, Word.field_withField _ _ _ _ hh]

/-- Another field of the same or another register is as it was. -/
theorem State.fld_setFld_ne (s : State) (o hi lo v q hi' lo' : Nat) (w : sparseWf csrReset s.regs = true) (hh : hi < 64)
    (h : q ≠ o ∨ hi' < lo ∨ hi < lo') : (s.setFld o hi lo v).fld q hi' lo' = s.fld q hi' lo' := by
  unfold State.fld
  rw [s.reg_setFld o hi lo v q w]
  by_cases e : q = o
  · subst e
    rw [if_pos rfl, Word.field_withField_ne _ _ _ _ _ _ hh (h.resolve_left (fun e => e rfl))]
  · rw [if_neg e]

/-- A counting field after a count: it saturates. -/
theorem State.fld_bump (s : State) (o hi lo k : Nat) (w : sparseWf csrReset s.regs = true) (hh : hi < 64) :
    (s.bump o hi lo k).fld o hi lo = min (s.fld o hi lo + k) (2 ^ (hi + 1 - lo) - 1) := by
  unfold State.bump
  rw [s.fld_setFld o hi lo _ w hh]
  unfold satAdd
  exact Nat.mod_eq_of_lt (by have := Nat.two_pow_pos (hi + 1 - lo); omega)

end Sys2Proof.Machine
end

