-- ==== Sys2Proof/Laws/Sequencer.lean ====
section
/-! SUPPORT. What the shared forms of the sequencer do when the instruction can execute: fetch, advance, jump, the selector, and the forms
that write registers. -/

namespace Sys2Proof.Machine

open Sys2Proof.Safety

/-- Beginning to fill a block changes the line fills alone. -/
theorem Core.beginFill_eq (c : Core) (b now : Nat) : ∃ l, c.beginFill b now = { c with fills := l } := by
  unfold Core.beginFill
  split
  · exact ⟨c.fills, rfl⟩
  · exact ⟨_, rfl⟩

/-- Decoding changes the instruction buffer alone. -/
theorem Core.decoded_eq (c : Core) (n : Fin 32) (w : Word) (now : Nat) :
    ∃ l f, c.decoded n w now = { c with lines := l, fills := f, current := w } := by
  unfold Core.decoded
  dsimp only
  split
  · obtain ⟨l, h⟩ := Core.beginFill_eq { c with lines := c.touchLine, current := w } (blockOf c.pc.toNat + 1) now
    exact ⟨_, l, h⟩
  · exact ⟨_, c.fills, rfl⟩

/-- What the queues leave of a semaphore does not depend on the instruction buffer. -/
theorem State.semLeft_buffer (s : State) (n : Fin 32) (l : List Line) (f : List LineFill) (w : Word) (qs : List QueueId) (code : Nat) :
    (s.setCore n { s.cores[n] with lines := l, fills := f, current := w }).semLeft n qs code = s.semLeft n qs code := by
  simp only [State.semLeft, State.canStart, Fin.getElem_fin, State.core_setCore]
  rfl

/-- The comparison of an undisturbed step finds no mismatch (R212). -/
theorem lockstep_ok (s : State) (n : Fin 32) (cls : Nat) (effect : State → State) (h : s.drillArmed 3 n.val false = false) :
    lockstep s n .ok cls effect = effect s := by
  unfold lockstep State.inject
  simp [h]

/-- A fetch from an address the core may fetch from changes its line fills alone. -/
theorem State.fetchAt_ok (s : State) (n : Fin 32) (h : fetchable n (s.cores[n]).pc.toNat = true) :
    ∃ f, s.fetchAt n = s.setCore n { s.cores[n] with fills := f } := by
  obtain ⟨l, e⟩ := Core.beginFill_eq (s.cores[n]) (blockOf (s.cores[n]).pc.toNat) s.now
  refine ⟨l, ?_⟩
  unfold State.fetchAt
  simp only [h, Bool.not_true, Bool.false_eq_true, if_false, e]

/-- Going on to a next instruction that can be fetched. -/
theorem State.advance_ok (s : State) (n : Fin 32) (h : fetchable n ((s.cores[n]).pc + 8).toNat = true) :
    ∃ f, s.advance n = s.setCore n { s.cores[n] with pc := (s.cores[n]).pc + 8, wait := .free, fills := f } := by
  unfold State.advance
  obtain ⟨f, e⟩ := State.fetchAt_ok (s.modCore n (fun c => { c with pc := c.pc + 8, wait := .free })) n (by simpa using h)
  refine ⟨f, ?_⟩
  rw [e]
  simp

/-- A jump to an address from which the core may fetch. -/
theorem State.jump_ok (s : State) (n : Fin 32) (cls : Nat) (target : Word) (h : fetchable n target.toNat = true) (h48 : target.toNat < 2 ^ 48) :
    ∃ f, s.jump n cls target = s.setCore n { s.cores[n] with pc := target.truncate 48, wait := .free, fills := f } := by
  unfold State.jump
  simp only [h, Bool.not_true, Bool.false_eq_true, if_false]
  obtain ⟨f, e⟩ := State.fetchAt_ok (s.setCore n { s.cores[n] with pc := target.truncate 48, wait := .free }) n (by
    have e : (target.truncate 48).toNat = target.toNat := by
      rw [BitVec.truncate_eq_setWidth, BitVec.toNat_setWidth]
      exact Nat.mod_eq_of_lt h48
    have g : fetchable n (target.truncate 48).toNat = true := by rw [e]; exact h
    simpa only [State.setCore, Fin.getElem_fin, Vector.getElem_set_self] using g)
  refine ⟨f, ?_⟩
  rw [e]
  simp

/-- The core as an instruction's own effect finds it. -/
theorem seqExec_ok (s : State) (n : Fin 32) (ws : BitVec 4) (word : Word) (body : State → State) (hf : SeqFree s n) (hw : SelectorPasses s n ws)
    (hi : s.finds n word = true) :
    ∃ c, seqExec s n ws .ok word true body = .next (body (s.setCore n c)) ∧
      ∃ l f w, c = { (s.cores[n]).setSem (wselSem ((s.cores[n]).wsEntry ws))
        ((s.cores[n]).sem (wselSem ((s.cores[n]).wsEntry ws)) - wselCount ((s.cores[n]).wsEntry ws)) with
        wait := .free, lines := l, fills := f, current := w } := by
  obtain ⟨h1, h2, h3, h4⟩ := hf
  obtain ⟨p1, p2⟩ := hw
  obtain ⟨l, f, e⟩ := Core.decoded_eq (s.cores[n]) n word s.now
  have hr : s.seqReady n word = true := by simp only [State.seqReady, State.atWord, h1, h2, h3, hi]; rfl
  have hp : (s.cores[n]).pastSelector = false := by simp only [Core.pastSelector, h3]
  have hs : ¬ s.semLeft n QueueId.all (wselSem ((s.cores[n]).wsEntry ws)) < wselCount ((s.cores[n]).wsEntry ws) := by omega
  refine ⟨_, ?_, l, f, word, rfl⟩
  unfold seqExec
  simp only [hr, hp, p1, if_false, Bool.not_true, Bool.false_eq_true, e, State.semLeft_buffer, hs]
  rw [lockstep_ok (s.setCore n _) n _ _ h4, State.modCore_setCore]
  rfl

/-- The semaphores after the selector has been consumed. -/
theorem semsAfter_eq (s : State) (n : Fin 32) (ws : BitVec 4) (hw : SelectorPasses s n ws) (k : Nat) :
    ((s.cores[n]).setSem (wselSem ((s.cores[n]).wsEntry ws))
      ((s.cores[n]).sem (wselSem ((s.cores[n]).wsEntry ws)) - wselCount ((s.cores[n]).wsEntry ws))).sem k = semsAfter s n ws k := by
  obtain ⟨-, h⟩ := hw
  have hl := (s.cores[n]).sem_lt (wselSem ((s.cores[n]).wsEntry ws))
  unfold semsAfter
  by_cases hc : wselSem ((s.cores[n]).wsEntry ws) < 48
  · rw [Core.sem_setSem _ _ _ _ hc]
    split
    · next e => rw [e, Nat.mod_eq_of_lt (by omega)]
    · rfl
  · have hz : (s.cores[n]).sem (wselSem ((s.cores[n]).wsEntry ws)) = 0 := by
      unfold Core.sem
      rw [Vector.getElem?_eq_none (by omega)]
    have hs : ((s.cores[n]).setSem (wselSem ((s.cores[n]).wsEntry ws))
        ((s.cores[n]).sem (wselSem ((s.cores[n]).wsEntry ws)) - wselCount ((s.cores[n]).wsEntry ws))).sem k = (s.cores[n]).sem k := by
      unfold Core.setSem Core.sem
      rw [Vector.setIfInBounds_eq_of_size_le (by omega)]
    rw [hs]
    split
    · next e => rw [e, hz, Nat.zero_sub]
    · rfl

/-- An instruction that writes registers of its core and goes on, when it can execute. -/
theorem seqWrite_ok (s : State) (n : Fin 32) (ws : BitVec 4) (word : Word) (f : Core → Core) (hf : SeqFree s n) (hw : SelectorPasses s n ws)
    (hi : s.finds n word = true) (hn : NextFetchable s n) (hpc : ∀ c, (f c).pc = c.pc) :
    ∃ c t, seqWrite s n ws .ok word true f = .next t ∧
      (∃ l g w, c = { (s.cores[n]).setSem (wselSem ((s.cores[n]).wsEntry ws))
        ((s.cores[n]).sem (wselSem ((s.cores[n]).wsEntry ws)) - wselCount ((s.cores[n]).wsEntry ws)) with
        wait := .free, lines := l, fills := g, current := w }) ∧
      ∃ g, t = s.setCore n { f c with pc := (s.cores[n]).pc + 8, wait := .free, fills := g } := by
  obtain ⟨c, e, l, g, w, hc⟩ := seqExec_ok s n ws word (fun s => (s.modCore n f).advance n) hf hw hi
  obtain ⟨g', e'⟩ := State.advance_ok ((s.setCore n c).modCore n f) n (by
    have := hn
    unfold NextFetchable at this
    simp only [State.modCore_setCore, Fin.getElem_fin, State.core_setCore, hpc, hc, Core.setSem_pc]
    exact this)
  refine ⟨c, _, e, ⟨l, g, w, hc⟩, g', ?_⟩
  rw [e']
  simp only [State.modCore_setCore, Fin.getElem_fin, State.core_setCore, State.setCore_setCore, hpc, hc, Core.setSem_pc]

/-- Replacing core n changes nothing outside it. -/
theorem outsideCore_setCore (s : State) (n : Fin 32) (c : Core) : OutsideCore s (s.setCore n c) n :=
  ⟨rfl, fun m h => State.core_setCore_ne s n m c h, fun _ => rfl⟩

/-- A new core n that differs in what the frame leaves open. -/
theorem coreFrame_setCore (s : State) (n : Fin 32) (c : Core)
    (h : c = { s.cores[n] with
      sregs := c.sregs, preds := c.preds, dregs := c.dregs, sems := c.sems, pc := c.pc, wait := c.wait, lines := c.lines, fills := c.fills
      current := c.current, mesh := c.mesh }) : CoreFrame s (s.setCore n c) n := by
  unfold CoreFrame
  simp only [Fin.getElem_fin, State.core_setCore]
  exact h

/-- A command that is a register write of the sequencer: what the core is after it. -/
theorem seqWrite_frame (s : State) (n : Fin 32) (ws : BitVec 4) (word : Word) (f : Core → Core) (hf : SeqFree s n) (hw : SelectorPasses s n ws)
    (hi : s.finds n word = true) (hn : NextFetchable s n)
    (keep : ∀ c, f c = { c with sregs := (f c).sregs, preds := (f c).preds, dregs := (f c).dregs, sems := (f c).sems }) :
    ∃ t c, seqWrite s n ws .ok word true f = .next t ∧ WentOn s t n ∧ CoreFrame s t n ∧ OutsideCore s t n ∧
      c.sregs = (s.cores[n]).sregs ∧ c.preds = (s.cores[n]).preds ∧ c.dregs = (s.cores[n]).dregs ∧ (∀ k, c.sem k = semsAfter s n ws k) ∧
      (t.cores[n]).sregs = (f c).sregs ∧ (t.cores[n]).preds = (f c).preds ∧ (t.cores[n]).dregs = (f c).dregs ∧
      (t.cores[n]).sems = (f c).sems := by
  obtain ⟨c, t, e, ⟨l, g1, w, hc⟩, g2, ht⟩ := seqWrite_ok s n ws word f hf hw hi hn (fun c => by rw [keep c])
  have k := keep c
  refine ⟨t, c, e, ?_, ?_, ?_, ?_, ?_, ?_, ?_, ?_, ?_, ?_, ?_⟩
  · subst ht; simp [WentOn]
  · subst ht
    apply coreFrame_setCore
    dsimp only
    rw [k, hc]
    rfl
  · subst ht; exact outsideCore_setCore s n _
  · rw [hc]; simp
  · rw [hc]; simp
  · rw [hc]; simp
  · intro k; rw [← semsAfter_eq s n ws hw k, hc]; rfl
  all_goals subst ht; simp

/-- An instruction that only writes a scalar register from a value that depends on the registers alone. -/
theorem putsScalar_of (s : State) (n : Fin 32) (ws : BitVec 4) (i : Instr) (rd : BitVec 5) (v : Word) (word : Word) (g : Core → Word)
    (hf : SeqFree s n) (hw : SelectorPasses s n ws) (hn : NextFetchable s n) (hi : instrWord i = some word)
    (he : exec i s = seqWrite s n ws .ok word true (fun c => c.setS rd (g c)))
    (hv : ∀ c : Core, (∀ r, c.s r = (s.cores[n]).s r) → (∀ r, c.d r = (s.cores[n]).d r) → (∀ k, c.sem k = semsAfter s n ws k) → g c = v) :
    PutsScalar s n ws i rd v := by
  rintro ⟨w', h1, h2⟩
  obtain rfl : word = w' := Option.some.inj (hi.symm.trans h1)
  obtain ⟨t, c, e, w, f, o, c1, c2, c3, c4, t1, t2, t3, t4⟩ := seqWrite_frame s n ws word (fun c => c.setS rd (g c)) hf hw h2 hn (by
    intro c; unfold Core.setS; split <;> rfl)
  refine ⟨t, he.trans e, w, f, o, ?_, ?_, ?_, ?_⟩
  · intro r
    have hs : ∀ r, c.s r = (s.cores[n]).s r := fun r => by unfold Core.s; rw [c1]
    have e2 := Core.s_setS c rd r (g c)
    rw [hv c hs (fun r => by unfold Core.d; rw [c3]) c4] at e2 t1
    have : (t.cores[n]).s r = (c.setS rd v).s r := by unfold Core.s; rw [t1]
    rw [this, e2]
    unfold upd
    split <;> simp_all
  · intro r; unfold Core.p; rw [t2]; simp [c2]
  · intro r; unfold Core.d; rw [t3]; simp [c3]
  · intro k; rw [← c4 k]; unfold Core.sem; rw [t4]; simp

/-- An instruction that only writes a predicate register. -/
theorem putsPredicate_of (s : State) (n : Fin 32) (ws : BitVec 4) (i : Instr) (pd : BitVec 3) (v : Bool) (word : Word) (g : Core → Bool)
    (hf : SeqFree s n) (hw : SelectorPasses s n ws) (hn : NextFetchable s n) (hi : instrWord i = some word)
    (he : exec i s = seqWrite s n ws .ok word true (fun c => c.setP pd (g c)))
    (hv : ∀ c : Core, (∀ r, c.s r = (s.cores[n]).s r) → (∀ r, c.p r = (s.cores[n]).p r) → g c = v) : PutsPredicate s n ws i pd v := by
  rintro ⟨w', h1, h2⟩
  obtain rfl : word = w' := Option.some.inj (hi.symm.trans h1)
  obtain ⟨t, c, e, w, f, o, c1, c2, c3, c4, t1, t2, t3, t4⟩ := seqWrite_frame s n ws word (fun c => c.setP pd (g c)) hf hw h2 hn (by
    intro c; unfold Core.setP; split <;> rfl)
  refine ⟨t, he.trans e, w, f, o, ?_, ?_, ?_, ?_⟩
  · intro r; unfold Core.s; rw [t1]; simp [c1]
  · intro r
    have hs : ∀ r, c.p r = (s.cores[n]).p r := fun r => by unfold Core.p; rw [c2]
    have e2 := Core.p_setP c pd r (g c)
    rw [hv c (fun r => by unfold Core.s; rw [c1]) hs] at e2 t2
    have : (t.cores[n]).p r = (c.setP pd v).p r := by unfold Core.p; rw [t2]
    rw [this, e2]
    unfold upd
    split <;> simp_all
  · intro r; unfold Core.d; rw [t3]; simp [c3]
  · intro k; rw [← c4 k]; unfold Core.sem; rw [t4]; simp

/-- An instruction that only writes a descriptor register. -/
theorem putsDescriptor_of (s : State) (n : Fin 32) (ws : BitVec 4) (i : Instr) (dd : BitVec 4) (v : BitVec 256) (word : Word)
    (g : Core → BitVec 256) (hf : SeqFree s n) (hw : SelectorPasses s n ws) (hn : NextFetchable s n) (hi : instrWord i = some word)
    (he : exec i s = seqWrite s n ws .ok word true (fun c => c.setD dd (g c)))
    (hv : ∀ c : Core, (∀ r, c.s r = (s.cores[n]).s r) → (∀ r, c.d r = (s.cores[n]).d r) → g c = v) : PutsDescriptor s n ws i dd v := by
  rintro ⟨w', h1, h2⟩
  obtain rfl : word = w' := Option.some.inj (hi.symm.trans h1)
  obtain ⟨t, c, e, w, f, o, c1, c2, c3, c4, t1, t2, t3, t4⟩ := seqWrite_frame s n ws word (fun c => c.setD dd (g c)) hf hw h2 hn (fun _ => rfl)
  refine ⟨t, he.trans e, w, f, o, ?_, ?_, ?_, ?_⟩
  · intro r; unfold Core.s; rw [t1]; simp [c1]
  · intro r; unfold Core.p; rw [t2]; simp [c2]
  · intro r
    have hd : ∀ r, c.d r = (s.cores[n]).d r := fun r => by unfold Core.d; rw [c3]
    have e2 := Core.d_setD c dd r (g c)
    rw [hv c (fun r => by unfold Core.s; rw [c1]) hd] at e2 t3
    have : (t.cores[n]).d r = (c.setD dd v).d r := by unfold Core.d; rw [t3]
    rw [this, e2, hd]
  · intro k; rw [← c4 k]; unfold Core.sem; rw [t4]; simp

end Sys2Proof.Machine
end

