-- ==== Sys2Proof/Laws/Access.lean ====
section
/-! SUPPORT. Accesses of the sequencer: the checks met in the own scratchpad and in HBM, the lockstep comparison with no drill waiting,
and the two ways an access goes: at once, or held. Then reading back what was stored. -/

namespace Sys2Proof.Machine

open Sys2Proof.Safety

/-- With no drill waiting the check finds what it finds. -/
theorem State.inject_noDrill (s : State) (k u : Nat) (c : CheckOutcome) (h : NoDrill s k u) : s.inject k u c = (c, false, s) := by
  unfold State.inject
  unfold NoDrill at h
  simp [h]

/-- An aligned access of the own scratchpad raises no condition. -/
theorem accessConditions_own (s : State) (n : Fin 32) (c : Core) (a : Word) (k : Nat) (h : a.toNat / scratchSize = n.val)
    (hm : a.toNat % k = 0) : (s.setCore n c).accessConditions n a k false = [] := by
  have hn : n.val < 32 := n.isLt
  have h1 : a.toNat < 32 * scratchSize := by unfold scratchSize at *; omega
  have h2 : ¬ 2 ^ 48 ≤ a.toNat := by unfold scratchSize at *; omega
  unfold State.accessConditions
  simp only [h2, h1, hm, State.scratchCondition, h, if_true, if_false, ne_eq, not_true_eq_false, List.append_nil, Bool.false_eq_true]

/-- An aligned access of HBM that the job holds raises no condition. -/
theorem accessConditions_hbm (s : State) (n : Fin 32) (c : Core) (a : Word) (k : Nat) (b : Bool) (hj : c.job = (s.cores[n]).job)
    (h1 : 32 * scratchSize ≤ a.toNat) (h2 : a.toNat < 2 ^ 48) (hm : a.toNat % k = 0) (hh : s.hbmHeld (s.cores[n]).job a.toNat k = true) :
    (s.setCore n c).accessConditions n a k b = [] := by
  have e : (s.setCore n c).hbmHeld (((s.setCore n c).cores[n])).job a.toNat k = true := by
    simp only [Fin.getElem_fin, State.core_setCore, hj]
    exact hh
  unfold State.accessConditions
  rw [if_neg (by omega), if_neg (by omega), if_pos e]
  simp only [hm, ne_eq, not_true_eq_false, if_false]

/-- Traffic entering the mesh changes the core's record of its traffic alone. -/
theorem Core.meshSend_eq (c : Core) (f : MeshFlight) : ∃ m, c.meshSend f = { c with mesh := m } := by
  unfold Core.meshSend
  split
  · exact ⟨c.mesh, rfl⟩
  · exact ⟨_, rfl⟩

/-- An access that no staging area concerns leaves memory alone. -/
theorem State.touchStaging_clear (s : State) (job : Word) (l : List (Nat × Nat)) (h : s.clearOfStaging job l = true) : s.touchStaging job l = s := by
  unfold State.touchStaging
  rw [if_pos h]

/-- A read that meets no error and no poisoned byte changes nothing (R235). -/
theorem State.readCheck_clean (s : State) (a k : Nat) (h : s.poisonedIn a k = false) : s.readCheck .none [(a, k)] = (s, none) := by
  unfold State.readCheck State.memError State.readFails
  simp [h]

/-- An access of the own scratchpad happens at once. -/
theorem seqAccess_own (s : State) (n : Fin 32) (ws : BitVec 4) (word : Word) (kind : AccessKind) (addr : Core → Word) (reg : BitVec 5)
    (value expected : Core → Word) (desc : Core → BitVec 256) (hf : SeqFree s n) (hw : SelectorPasses s n ws) (hi : s.finds n word = true)
    (hk : ∀ op, kind ≠ .amo op) (a : Word) (ha : ∀ c : Core, (∀ r, c.s r = (s.cores[n]).s r) → addr c = a) (ho : OwnPlace s n a kind.size)
    (hp : kind.reads = true → s.poisonedIn a.toNat kind.size = false) :
    ∃ c, seqAccess s n ws .ok word kind addr reg value expected desc .none =
        .next ((accessEffect (s.setCore n c) n kind a.toNat reg (value c) (desc c) 0).advance n) ∧
      ∃ l f w, c = { (s.cores[n]).setSem (wselSem ((s.cores[n]).wsEntry ws))
        ((s.cores[n]).sem (wselSem ((s.cores[n]).wsEntry ws)) - wselCount ((s.cores[n]).wsEntry ws)) with
        wait := .free, lines := l, fills := f, current := w } := by
  obtain ⟨ho, hm, hg⟩ := ho
  unfold seqAccess
  obtain ⟨c, e, l, f, w, hc⟩ := seqExec_ok s n ws word _ hf hw hi
  refine ⟨c, e.trans ?_, l, f, w, hc⟩
  have hs : addr c = a := ha c (fun r => by rw [hc]; rfl)
  have hj : c.job = (s.cores[n]).job := by rw [hc]; rfl
  have hb : kind.hbmOnly = false := by
    cases kind <;> first | rfl | exact absurd rfl (hk _)
  simp only [Fin.getElem_fin, State.core_setCore, hs, hb, accessConditions_own s n c a _ ho hm]
  unfold startAccess
  have hg' : (s.setCore n c).clearOfStaging c.job [(a.toNat, kind.size)] = true := by rw [hj]; exact hg
  simp only [Fin.getElem_fin, State.core_setCore, State.touchStaging_clear _ _ _ hg', ho, if_true]
  have hread : (if kind.reads = true then (s.setCore n c).readCheck .none [(a.toNat, kind.size)] else (s.setCore n c, none)) = (s.setCore n c, none) := by
    split
    · next h => exact State.readCheck_clean (s.setCore n c) a.toNat kind.size (hp h)
    · rfl
  rw [hread]

/-- An access of HBM that the job holds keeps the sequencer; a read reserves the room of its response on the mesh (R248). -/
theorem seqAccess_hbm (s : State) (n : Fin 32) (ws : BitVec 4) (word : Word) (kind : AccessKind) (addr : Core → Word) (reg : BitVec 5)
    (value expected : Core → Word) (desc : Core → BitVec 256) (hf : SeqFree s n) (hw : SelectorPasses s n ws) (hi : s.finds n word = true)
    (a : Word) (ha : ∀ c : Core, (∀ r, c.s r = (s.cores[n]).s r) → addr c = a)
    (ho : HbmPlace s n a kind.size) :
    ∃ c m, seqAccess s n ws .ok word kind addr reg value expected desc .none =
        .next (s.setCore n { c with mesh := m, wait := .access kind (a.truncate 48) reg (value c) (expected c) (desc c) none }) ∧
      ∃ l f w, c = { (s.cores[n]).setSem (wselSem ((s.cores[n]).wsEntry ws))
        ((s.cores[n]).sem (wselSem ((s.cores[n]).wsEntry ws)) - wselCount ((s.cores[n]).wsEntry ws)) with
        wait := .free, lines := l, fills := f, current := w } := by
  obtain ⟨h1, h2, hm, hh, hg⟩ := ho
  unfold seqAccess
  obtain ⟨c, e, l, f, w, hc⟩ := seqExec_ok s n ws word _ hf hw hi
  have hs : addr c = a := ha c (fun r => by rw [hc]; rfl)
  have hj : c.job = (s.cores[n]).job := by rw [hc]; rfl
  have hg' : (s.setCore n c).clearOfStaging c.job [(a.toNat, kind.size)] = true := by rw [hj]; exact hg
  have hne : ¬ a.toNat / scratchSize = n.val := by
    have := n.isLt
    unfold scratchSize at *
    omega
  obtain ⟨m, hmesh⟩ : ∃ m, (meshFar n.val a.toNat).toList.foldl (fun c far => c.meshSend
      { seq := none, cls := .request, far := far, room := if kind.reads then kind.size else 0 }) c = { c with mesh := m } := by
    cases meshFar n.val a.toNat with
    | none => exact ⟨c.mesh, rfl⟩
    | some far => exact Core.meshSend_eq c _
  refine ⟨c, m, e.trans ?_, l, f, w, hc⟩
  simp only [Fin.getElem_fin, State.core_setCore, hs, accessConditions_hbm s n c a _ _ hj h1 h2 hm hh]
  unfold startAccess
  simp only [Fin.getElem_fin, State.core_setCore, State.touchStaging_clear _ _ _ hg', hne, if_false, State.modCore_setCore, hmesh]

/-- The bytes of a number. -/
theorem bytesOfNat_length (k v : Nat) : (bytesOfNat k v).length = k := by
  induction k generalizing v with
  | zero => rfl
  | succ k ih => simp [bytesOfNat, ih]

/-- One byte of a number. -/
theorem bytesOfNat_get (k v i : Nat) (h : i < k) : (bytesOfNat k v)[i]? = some (BitVec.ofNat 8 (v / 256 ^ i)) := by
  induction k generalizing v i with
  | zero => omega
  | succ k ih =>
    cases i with
    | zero => simp [bytesOfNat]
    | succ i =>
      simp only [bytesOfNat, List.getElem?_cons_succ]
      rw [ih _ _ (by omega), Nat.div_div_eq_div_mul, Nat.pow_succ, Nat.mul_comm]

/-- A byte after a number is stored. -/
theorem State.readByte_writeNat (s : State) (a k v x : Nat) (w : memCanonical s) :
    (s.writeNat a k v).readByte x = if a ≤ x ∧ x < a + k then BitVec.ofNat 8 (v / 256 ^ (x - a)) else s.readByte x := by
  unfold State.writeNat State.writeBytes State.readByte
  dsimp only
  rw [sparseGet_memWrite w, bytesOfNat_length]
  split
  · rw [bytesOfNat_get _ _ _ (by omega)]
    rfl
  · rfl

end Sys2Proof.Machine
end

