-- ==== Sys2Proof/Laws/Events.lean ====
section
/-! SUPPORT. Events: raising one puts it among the outputs, takes none away, and changes no register but those that show events. -/

namespace Sys2Proof.Machine

open Sys2Proof.Safety

/-- What has been sent so far stays sent. -/
def Sent (s t : State) : Prop := ∀ x, x ∈ s.out → x ∈ t.out

theorem Sent.refl (s : State) : Sent s s := fun _ h => h

theorem Sent.trans {s t u : State} (h : Sent s t) (k : Sent t u) : Sent s u := fun x hx => k x (h x hx)

theorem Sent.of_eq {s t : State} (h : t.out = s.out) : Sent s t := fun _ hx => h ▸ hx

theorem Raised.sent {s t : State} {k : Nat} {j : Word} (h : Raised s k j) (hs : Sent s t) : Raised t k j := by
  obtain ⟨e, h1, h2⟩ := h
  exact ⟨e, hs _ h1, h2⟩

theorem ringSend_sent (s : State) (k : Nat) (l : List Byte) : Sent s (s.ringSend k l) := by
  unfold State.ringSend
  split
  · exact Sent.refl s
  · intro _ hx
    exact List.mem_cons_of_mem _ hx

theorem raiseOnce_sent (s : State) (k : Nat) (j : Word) (l : List Word) : Sent s (s.raiseOnce k j l) := by
  intro x hx
  unfold State.raiseOnce State.deliver
  refine List.mem_cons_of_mem _ ?_
  simp only [State.bump_out, State.setReg_out]
  split
  · exact ringSend_sent s _ _ x hx
  · exact hx

theorem raiseJob_sent (s : State) (k : Nat) (j : Word) (l : List Word) : Sent s (s.raiseJob k j l) := by
  unfold State.raiseJob
  simp only
  split
  · exact (raiseOnce_sent s k j l).trans (raiseOnce_sent _ _ _ _)
  · exact raiseOnce_sent s k j l

theorem ringSend_regs (s : State) (k : Nat) (l : List Byte) : (s.ringSend k l).regs = s.regs := by
  unfold State.ringSend
  split <;> rfl

theorem raise_sent (s : State) (k : Nat) (l : List Word) : Sent s (s.raise k l) := raiseJob_sent s k 0 l

/-- The event as it stands among the outputs. -/
theorem raiseJob_event (s : State) (k : Nat) (j : Word) (l : List Word) :
    Output.event { code := BitVec.ofNat 8 k, ft := s.ft, job := j, record := l } ∈ (s.raiseJob k j l).out := by
  have h : Output.event { code := BitVec.ofNat 8 k, ft := s.ft, job := j, record := l } ∈ (s.raiseOnce k j l).out := by
    unfold State.raiseOnce State.deliver
    refine List.mem_cons.mpr (Or.inl ?_)
    congr 2
  unfold State.raiseJob
  simp only
  split
  · exact raiseOnce_sent _ _ _ _ _ h
  · exact h

theorem raised_raiseJob (s : State) (k : Nat) (j : Word) (l : List Word) : Raised (s.raiseJob k j l) k j :=
  ⟨_, raiseJob_event s k j l, rfl, rfl⟩

theorem raised_raise (s : State) (k : Nat) (l : List Word) : Raised (s.raise k l) k 0 := raised_raiseJob s k 0 l

theorem raised_raiseJob_of (s : State) (k k' : Nat) (j j' : Word) (l : List Word) (h : Raised s k j) : Raised (s.raiseJob k' j' l) k j :=
  Raised.sent h (raiseJob_sent s k' j' l)

/-- Registers after one is set and one is counted, from a file of the same contents. -/
theorem reg_setReg_bump (s u : State) (a b hi lo k o : Nat) (v : Word) (w : sparseWf csrReset s.regs = true) (e : u.regs = s.regs)
    (ha : o ≠ a) (hb : o ≠ b) : ((u.setReg a v).bump b hi lo k).reg o = s.reg o := by
  have wu : sparseWf csrReset u.regs = true := e ▸ w
  unfold State.bump
  rw [State.reg_setFld _ _ _ _ _ _ (State.setReg_wf _ _ _ wu), if_neg hb, State.reg_setReg _ _ _ _ wu, if_neg ha]
  unfold State.reg
  rw [e]

theorem setReg_bump_wf (s u : State) (a b hi lo k : Nat) (v : Word) (w : sparseWf csrReset s.regs = true) (e : u.regs = s.regs) :
    sparseWf csrReset ((u.setReg a v).bump b hi lo k).regs = true := by
  unfold State.bump
  exact State.setFld_wf _ _ _ _ _ (State.setReg_wf _ _ _ (e ▸ w))

theorem deliver_regs (s : State) (e : EventRec) : (s.deliver e).regs = s.regs := rfl

theorem raiseOnce_regs (s : State) (k : Nat) (j : Word) (l : List Word) : ∃ u : State, u.regs = s.regs ∧
    (s.raiseOnce k j l).regs = ((u.setReg Csr.evtLast (Word.place k 8 56 ||| Word.place u.ft.toNat 48 0)).bump (Csr.evtCnt (k / 16 % 16)) 31 0 1).regs := by
  unfold State.raiseOnce
  dsimp only
  rw [deliver_regs]
  split
  · exact ⟨_, ringSend_regs _ _ _, rfl⟩
  · exact ⟨_, rfl, rfl⟩

theorem raiseOnce_wf (s : State) (k : Nat) (j : Word) (l : List Word) (w : sparseWf csrReset s.regs = true) :
    sparseWf csrReset (s.raiseOnce k j l).regs = true := by
  obtain ⟨u, e, h⟩ := raiseOnce_regs s k j l
  rw [h]
  exact setReg_bump_wf s u _ _ _ _ _ _ w e

theorem raiseOnce_reg (s : State) (k : Nat) (j : Word) (l : List Word) (w : sparseWf csrReset s.regs = true) (o : Nat) (h : o ∉ evtRegs) :
    (s.raiseOnce k j l).reg o = s.reg o := by
  have h1 : o ≠ Csr.evtLast := fun e => h (by rw [e]; exact List.mem_cons_self)
  have h2 : o ≠ Csr.evtCnt (k / 16 % 16) := by
    intro e
    exact h (List.mem_cons_of_mem _ (List.mem_map.mpr ⟨k / 16 % 16, List.mem_range.mpr (Nat.mod_lt _ (by decide)), e.symm⟩))
  obtain ⟨u, e, x⟩ := raiseOnce_regs s k j l
  have := reg_setReg_bump s u Csr.evtLast (Csr.evtCnt (k / 16 % 16)) 31 0 1 o (Word.place k 8 56 ||| Word.place u.ft.toNat 48 0) w e h1 h2
  unfold State.reg at *
  rw [x]
  exact this

/-- The register file keeps its canonical form. -/
theorem raiseJob_wf (s : State) (k : Nat) (j : Word) (l : List Word) (w : sparseWf csrReset s.regs = true) :
    sparseWf csrReset (s.raiseJob k j l).regs = true := by
  unfold State.raiseJob
  dsimp only
  split
  · exact raiseOnce_wf _ _ _ _ (raiseOnce_wf _ _ _ _ w)
  · exact raiseOnce_wf _ _ _ _ w

/-- An event changes only the registers that show events. -/
theorem raiseJob_reg (s : State) (k : Nat) (j : Word) (l : List Word) (w : sparseWf csrReset s.regs = true) (o : Nat) (h : o ∉ evtRegs) :
    (s.raiseJob k j l).reg o = s.reg o := by
  unfold State.raiseJob
  dsimp only
  split
  · rw [raiseOnce_reg _ _ _ _ (raiseOnce_wf _ _ _ _ w) o h, raiseOnce_reg _ _ _ _ w o h]
  · exact raiseOnce_reg _ _ _ _ w o h

theorem raise_reg (s : State) (k : Nat) (l : List Word) (w : sparseWf csrReset s.regs = true) (o : Nat) (h : o ∉ evtRegs) :
    (s.raise k l).reg o = s.reg o := raiseJob_reg s k 0 l w o h

theorem raise_wf (s : State) (k : Nat) (l : List Word) (w : sparseWf csrReset s.regs = true) : sparseWf csrReset (s.raise k l).regs = true :=
  raiseJob_wf s k 0 l w

/-- A field that no event shows is as it was. -/
theorem raiseJob_fld (s : State) (k : Nat) (j : Word) (l : List Word) (w : sparseWf csrReset s.regs = true) (o hi lo : Nat) (h : o ∉ evtRegs) :
    (s.raiseJob k j l).fld o hi lo = s.fld o hi lo := by
  unfold State.fld
  rw [raiseJob_reg s k j l w o h]

theorem raise_fld (s : State) (k : Nat) (l : List Word) (w : sparseWf csrReset s.regs = true) (o hi lo : Nat) (h : o ∉ evtRegs) :
    (s.raise k l).fld o hi lo = s.fld o hi lo := raiseJob_fld s k 0 l w o hi lo h

end Sys2Proof.Machine
end

