-- ==== Sys2Proof/Laws/Kept.lean ====
section
/-! SUPPORT. What no command changes for the worse: memory and the register file keep their canonical form and the queue of waiting
commands is left alone. The lemmas of this family say it once for every operation and every meaning. -/

namespace Sys2Proof.Machine

/-- The waiting commands are qq, and memory and the register file have their canonical form. -/
def Kept (qq : List Instr) (s : State) : Prop := s.pending = qq ∧ Memory.wf s.mem = true ∧ sparseWf csrReset s.regs = true

/-- The same of a queue, a memory and a register file by themselves. -/
def KeptParts (qq : List Instr) (m : List Host.Cell) (p : List Instr) (r : List (Nat × Word)) : Prop :=
  p = qq ∧ Memory.wf m = true ∧ sparseWf csrReset r = true

/-- An outcome's next state has the property. -/
def KeptOut (qq : List Instr) (o : Host.Outcome State Fault Refusal) : Prop := ∀ t, o = .next t → Kept qq t

theorem Kept.parts {qq : List Instr} {s : State} (h : Kept qq s) : KeptParts qq s.mem s.pending s.regs := h

theorem KeptParts.write {qq p : List Instr} {m : List Host.Cell} {r : List (Nat × Word)} {a : Nat} {bs : List Byte} (h : KeptParts qq m p r) :
    KeptParts qq (memWrite m a bs) p r := ⟨h.1, memWrite_wf h.2.1, h.2.2⟩

theorem KeptParts.filter {qq p : List Instr} {m : List Host.Cell} {r : List (Nat × Word)} {f : Host.Cell → Bool} (h : KeptParts qq m p r) :
    KeptParts qq (m.filter f) p r := ⟨h.1, sparseFilter_wf h.2.1, h.2.2⟩

theorem KeptParts.restore {qq p : List Instr} {m : List Host.Cell} {r : List (Nat × Word)} {l : List Host.Cell} (h : KeptParts qq m p r) :
    KeptParts qq (l.foldl (fun m p => sparseSet memDefault m p.1 p.2) m) p r := ⟨h.1, memRestore_wf h.2.1, h.2.2⟩

theorem KeptParts.empty {qq p : List Instr} {m : List Host.Cell} {r : List (Nat × Word)} (h : KeptParts qq m p r) : KeptParts qq [] p r := ⟨h.1, rfl, h.2.2⟩

theorem Kept.lit {qq : List Instr} {s : State} (h : KeptParts qq s.mem s.pending s.regs) : Kept qq s := h

theorem KeptOut.next {qq : List Instr} {s : State} (h : Kept qq s) : KeptOut qq (.next s) := fun _ e => Host.Outcome.next.inj e ▸ h

theorem KeptOut.fault {qq : List Instr} {f : Fault} : KeptOut qq (.fault f) := by intro t e; cases e

theorem KeptOut.refused {qq : List Instr} {r : Refusal} : KeptOut qq (.refused r) := by intro t e; cases e

/-- Either branch of a choice. -/
theorem Kept.ite {qq : List Instr} {c : Prop} [Decidable c] {a b : State} (ha : Kept qq a) (hb : Kept qq b) : Kept qq (if c then a else b) :=
  if h : c then (if_pos h).symm ▸ ha else (if_neg h).symm ▸ hb

theorem KeptOut.ite {qq : List Instr} {c : Prop} [Decidable c] {a b : Host.Outcome State Fault Refusal} (ha : KeptOut qq a)
    (hb : KeptOut qq b) : KeptOut qq (if c then a else b) :=
  if h : c then (if_pos h).symm ▸ ha else (if_neg h).symm ▸ hb

/-- A fold over pairs of a state and something else, each step of which keeps it. -/
theorem Kept.foldlFst {α β : Type} {qq : List Instr} {f : State × β → α → State × β} {l : List α} {s : State × β}
    (hf : ∀ s a, Kept qq s.1 → Kept qq (f s a).1) (h : Kept qq s.1) : Kept qq (l.foldl f s).1 :=
  List.foldlRecOn (motive := fun p => Kept qq p.1) l f h (fun p hp a _ => hf p a hp)

/-- A fold of an operation that keeps it. -/
theorem Kept.foldl {α : Type} {qq : List Instr} {f : State → α → State} {l : List α} {s : State}
    (hf : ∀ s a, Kept qq s → Kept qq (f s a)) (h : Kept qq s) : Kept qq (l.foldl f s) :=
  List.foldlRecOn l f h (fun t ht a _ => hf t a ht)

/-- The state of a pair that a function answers. -/
theorem Kept.fst {β : Type} {qq : List Instr} {p : State × β} {s : State} {b : β} (e : p = (s, b)) : Kept qq p.1 → Kept qq s := by simp [e]

/-- The state in second place of a pair. -/
theorem Kept.snd {β : Type} {qq : List Instr} {p : β × State} {s : State} {b : β} (e : p = (b, s)) : Kept qq p.2 → Kept qq s := by simp [e]

/-- The state in third place. -/
theorem Kept.trd {β γ : Type} {qq : List Instr} {p : β × γ × State} {s : State} {b : β} {c : γ} (e : p = (b, c, s)) :
    Kept qq p.2.2 → Kept qq s := by simp [e]

end Sys2Proof.Machine
end

