-- ==== Sys2Proof/Laws/KeptOps.lean ====
section
/-! SUPPORT. Operations and meanings of Machine/Ops keep the canonical form of memory and leave the waiting commands alone. -/

namespace Sys2Proof.Machine

theorem State.writeBytes_kept {qq : List Instr} {s : State} {a : Nat} {bs : List Byte} (hk : Kept qq s) : Kept qq (s.writeBytes a bs) :=
  ⟨hk.1, memWrite_wf hk.2.1, hk.2.2⟩

theorem State.writeNat_kept {qq : List Instr} {s : State} {a} {n} {v} (hk : Kept qq s) :
    Kept qq (State.writeNat s a n v) := by
  unfold State.writeNat
  try dsimp only
  repeat' (first
    | with_reducible assumption
    | with_reducible apply State.writeBytes_kept)

theorem State.clearRange_kept {qq : List Instr} {s : State} {a n : Nat} (hk : Kept qq s) : Kept qq (s.clearRange a n) :=
  ⟨hk.1, sparseClear_wf hk.2.1, hk.2.2⟩

theorem State.setReg_kept {qq : List Instr} {s : State} {o : Nat} {v : Word} (hk : Kept qq s) : Kept qq (State.setReg s o v) :=
  ⟨hk.1, hk.2.1, sparseSet_wf hk.2.2⟩

theorem State.setFld_kept {qq : List Instr} {s : State} {o} {hi} {lo} {v} (hk : Kept qq s) :
    Kept qq (State.setFld s o hi lo v) := by
  unfold State.setFld
  try dsimp only
  repeat' (first
    | with_reducible assumption
    | with_reducible apply State.setReg_kept)

theorem State.bump_kept {qq : List Instr} {s : State} {o} {hi} {lo} {k} (hk : Kept qq s) :
    Kept qq (State.bump s o hi lo k) := by
  unfold State.bump
  try dsimp only
  repeat' (first
    | with_reducible assumption
    | with_reducible apply State.setFld_kept)

theorem State.setBit_kept {qq : List Instr} {s : State} {o} {n} {b} (hk : Kept qq s) :
    Kept qq (State.setBit s o n b) := by
  unfold State.setBit
  try dsimp only
  repeat' (first
    | with_reducible assumption
    | with_reducible apply State.setFld_kept
    | with_reducible refine Kept.ite ?_ ?_
    | split)

theorem State.emit_kept {qq : List Instr} {s : State} {x} (hk : Kept qq s) :
    Kept qq (State.emit s x) := by
  unfold State.emit
  try dsimp only
  repeat' (first
    | with_reducible assumption
    | with_reducible refine Kept.parts ?_
    | (with_reducible refine Kept.lit ?_; dsimp only; with_reducible refine Kept.parts ?_))

theorem State.drew_kept {qq : List Instr} {s : State} (hk : Kept qq s) :
    Kept qq (State.drew s) := by
  unfold State.drew
  try dsimp only
  repeat' (first
    | with_reducible assumption
    | with_reducible refine Kept.parts ?_
    | (with_reducible refine Kept.lit ?_; dsimp only; with_reducible refine Kept.parts ?_))

theorem State.deliver_kept {qq : List Instr} {s : State} {e} (hk : Kept qq s) :
    Kept qq (State.deliver s e) := by
  unfold State.deliver
  try dsimp only
  repeat' (first
    | with_reducible assumption
    | with_reducible refine Kept.parts ?_
    | (with_reducible refine Kept.lit ?_; dsimp only; with_reducible refine Kept.parts ?_)
    | (intro _; try dsimp only))

theorem State.ringSend_kept {qq : List Instr} {s : State} {type} {payload} (hk : Kept qq s) :
    Kept qq (State.ringSend s type payload) := by
  unfold State.ringSend
  try dsimp only
  repeat' (first
    | with_reducible assumption
    | with_reducible apply State.emit_kept
    | with_reducible refine Kept.ite ?_ ?_
    | split
    | with_reducible refine Kept.parts ?_
    | (with_reducible refine Kept.lit ?_; dsimp only; first | with_reducible refine Kept.parts ?_ | with_reducible refine KeptParts.empty (Kept.parts ?_))
    | (intro _; try dsimp only))

theorem State.raiseOnce_kept {qq : List Instr} {s : State} {code} {job} {record} (hk : Kept qq s) :
    Kept qq (State.raiseOnce s code job record) := by
  unfold State.raiseOnce
  try dsimp only
  repeat' (first
    | with_reducible assumption
    | with_reducible apply State.ringSend_kept
    | with_reducible apply State.setReg_kept
    | with_reducible apply State.bump_kept
    | with_reducible apply State.deliver_kept
    | with_reducible refine Kept.ite ?_ ?_
    | split
    | (intro _; try dsimp only))

theorem State.raiseJob_kept {qq : List Instr} {s : State} {code} {job} {record} (hk : Kept qq s) :
    Kept qq (State.raiseJob s code job record) := by
  unfold State.raiseJob
  try dsimp only
  repeat' (first
    | with_reducible assumption
    | with_reducible apply State.raiseOnce_kept
    | with_reducible refine Kept.ite ?_ ?_
    | split)

theorem State.raise_kept {qq : List Instr} {s : State} {code} {record} (hk : Kept qq s) :
    Kept qq (State.raise s code record) := by
  unfold State.raise
  try dsimp only
  repeat' (first
    | with_reducible assumption
    | with_reducible apply State.raiseJob_kept)

theorem State.withhold_kept {qq : List Instr} {s : State} {code} (hk : Kept qq s) :
    Kept qq (State.withhold s code) := by
  unfold State.withhold
  try dsimp only
  repeat' (first
    | with_reducible assumption
    | with_reducible apply State.bump_kept)

theorem State.setCore_kept {qq : List Instr} {s : State} {n} {c} (hk : Kept qq s) :
    Kept qq (State.setCore s n c) := by
  unfold State.setCore
  try dsimp only
  repeat' (first
    | with_reducible assumption
    | with_reducible refine Kept.parts ?_
    | (with_reducible refine Kept.lit ?_; dsimp only; with_reducible refine Kept.parts ?_))

theorem State.modCore_kept {qq : List Instr} {s : State} {n} {f} (hk : Kept qq s) :
    Kept qq (State.modCore s n f) := by
  unfold State.modCore
  try dsimp only
  repeat' (first
    | with_reducible assumption
    | with_reducible apply State.setCore_kept)

theorem State.putGroup_kept {qq : List Instr} {s : State} {i} {g} (hk : Kept qq s) :
    Kept qq (State.putGroup s i g) := by
  unfold State.putGroup
  try dsimp only
  repeat' (first
    | with_reducible assumption
    | with_reducible apply State.setReg_kept
    | split
    | with_reducible refine Kept.parts ?_
    | (with_reducible refine Kept.lit ?_; dsimp only; with_reducible refine Kept.parts ?_))

theorem State.discardCollectives_kept {qq : List Instr} {s : State} {n} (hk : Kept qq s) :
    Kept qq (State.discardCollectives s n) := by
  unfold State.discardCollectives
  try dsimp only
  repeat' (first
    | with_reducible assumption
    | with_reducible apply State.putGroup_kept
    | with_reducible refine Kept.foldl ?_ ?_
    | with_reducible refine Kept.foldlFst ?_ ?_
    | with_reducible refine Kept.ite ?_ ?_
    | split
    | with_reducible refine Kept.fst (by assumption) ?_
    | with_reducible refine Kept.trd (by assumption) ?_
    | with_reducible refine Kept.snd (by assumption) ?_
    | with_reducible refine Kept.parts ?_
    | (with_reducible refine Kept.lit ?_; dsimp only; first | with_reducible refine Kept.parts ?_ | with_reducible refine KeptParts.empty (Kept.parts ?_))
    | (intro _; try dsimp only))

theorem State.settle_kept {qq : List Instr} {s : State} {n} (hk : Kept qq s) :
    Kept qq (State.settle s n) := by
  unfold State.settle
  try dsimp only
  repeat' (first
    | with_reducible assumption
    | with_reducible apply State.setCore_kept
    | with_reducible refine Kept.ite ?_ ?_
    | split
    | with_reducible refine Kept.fst (by assumption) ?_
    | with_reducible refine Kept.trd (by assumption) ?_
    | with_reducible refine Kept.snd (by assumption) ?_
    | with_reducible refine Kept.parts ?_
    | (with_reducible refine Kept.lit ?_; dsimp only; first | with_reducible refine Kept.parts ?_ | with_reducible refine KeptParts.empty (Kept.parts ?_))
    | (intro _; try dsimp only))

theorem State.trap_kept {qq : List Instr} {s : State} {n} {conds} {cls} {pc} (hk : Kept qq s) :
    Kept qq (State.trap s n conds cls pc) := by
  unfold State.trap
  try dsimp only
  repeat' (first
    | with_reducible assumption
    | with_reducible apply State.setCore_kept
    | with_reducible apply State.discardCollectives_kept
    | with_reducible apply State.settle_kept
    | with_reducible refine Kept.ite ?_ ?_
    | split
    | with_reducible refine Kept.fst (by assumption) ?_
    | with_reducible refine Kept.trd (by assumption) ?_
    | with_reducible refine Kept.snd (by assumption) ?_
    | with_reducible refine Kept.parts ?_
    | (with_reducible refine Kept.lit ?_; dsimp only; first | with_reducible refine Kept.parts ?_ | with_reducible refine KeptParts.empty (Kept.parts ?_))
    | (intro _; try dsimp only))

theorem State.signal_kept {qq : List Instr} {s : State} {n} {code} {inc} {who} (hk : Kept qq s) :
    Kept qq (State.signal s n code inc who) := by
  unfold State.signal
  try dsimp only
  repeat' (first
    | with_reducible assumption
    | with_reducible apply State.setCore_kept
    | with_reducible apply State.trap_kept
    | with_reducible refine Kept.ite ?_ ?_
    | split
    | with_reducible refine Kept.fst (by assumption) ?_
    | with_reducible refine Kept.trd (by assumption) ?_
    | with_reducible refine Kept.snd (by assumption) ?_
    | with_reducible refine Kept.parts ?_
    | (with_reducible refine Kept.lit ?_; dsimp only; with_reducible refine Kept.parts ?_)
    | (intro _; try dsimp only))

theorem State.signalCross_kept {qq : List Instr} {s : State} {n} {x} {inc} {who} (hk : Kept qq s) :
    Kept qq (State.signalCross s n x inc who) := by
  unfold State.signalCross
  try dsimp only
  repeat' (first
    | with_reducible assumption
    | with_reducible apply State.setCore_kept
    | with_reducible apply State.signal_kept
    | with_reducible refine Kept.ite ?_ ?_
    | split
    | with_reducible refine Kept.parts ?_
    | (with_reducible refine Kept.lit ?_; dsimp only; first | with_reducible refine Kept.parts ?_ | with_reducible refine KeptParts.empty (Kept.parts ?_))
    | (intro _; try dsimp only))

theorem State.putJob_kept {qq : List Instr} {s : State} {j} (hk : Kept qq s) :
    Kept qq (State.putJob s j) := by
  unfold State.putJob
  try dsimp only
  repeat' (first
    | with_reducible assumption
    | with_reducible refine Kept.ite ?_ ?_
    | split
    | with_reducible refine Kept.parts ?_
    | (with_reducible refine Kept.lit ?_; dsimp only; with_reducible refine Kept.parts ?_)
    | (intro _; try dsimp only))

theorem State.raiseEcc_kept {qq : List Instr} {s : State} {record} (hk : Kept qq s) :
    Kept qq (State.raiseEcc s record) := by
  unfold State.raiseEcc
  try dsimp only
  repeat' (first
    | with_reducible assumption
    | with_reducible apply State.raise_kept
    | with_reducible apply State.withhold_kept
    | with_reducible refine Kept.ite ?_ ?_
    | split
    | with_reducible refine Kept.parts ?_
    | (with_reducible refine Kept.lit ?_; dsimp only; with_reducible refine Kept.parts ?_))

theorem State.healthAdd_kept {qq : List Instr} {s : State} {k} (hk : Kept qq s) :
    Kept qq (State.healthAdd s k) := by
  unfold State.healthAdd
  try dsimp only
  repeat' (first
    | with_reducible assumption
    | with_reducible refine Kept.parts ?_
    | (with_reducible refine Kept.lit ?_; dsimp only; with_reducible refine Kept.parts ?_))

theorem State.markChannel_kept {qq : List Instr} {s : State} {k} {c} (hk : Kept qq s) :
    Kept qq (State.markChannel s k c) := by
  unfold State.markChannel
  try dsimp only
  repeat' (first
    | with_reducible assumption
    | with_reducible apply State.raise_kept
    | with_reducible apply State.setBit_kept
    | with_reducible refine Kept.ite ?_ ?_
    | split)

theorem State.askHalt_kept {qq : List Instr} {s : State} {h} (hk : Kept qq s) :
    Kept qq (State.askHalt s h) := by
  unfold State.askHalt
  try dsimp only
  repeat' (first
    | with_reducible assumption
    | with_reducible refine Kept.parts ?_
    | (with_reducible refine Kept.lit ?_; dsimp only; with_reducible refine Kept.parts ?_))

theorem State.poisonAt_kept {qq : List Instr} {s : State} {a} (hk : Kept qq s) :
    Kept qq (State.poisonAt s a) := by
  unfold State.poisonAt
  try dsimp only
  repeat' (first
    | with_reducible assumption
    | with_reducible refine Kept.parts ?_
    | (with_reducible refine Kept.lit ?_; dsimp only; with_reducible refine Kept.parts ?_))

theorem State.memError_kept {qq : List Instr} {s : State} {e} (hk : Kept qq s) :
    Kept qq (State.memError s e) := by
  unfold State.memError
  try dsimp only
  repeat' (first
    | with_reducible assumption
    | with_reducible apply State.raiseEcc_kept
    | with_reducible apply State.bump_kept
    | with_reducible apply State.healthAdd_kept
    | with_reducible apply State.raise_kept
    | with_reducible apply State.setReg_kept
    | with_reducible apply State.poisonAt_kept
    | with_reducible apply State.markChannel_kept
    | with_reducible apply State.setBit_kept
    | with_reducible refine Kept.ite ?_ ?_
    | split
    | with_reducible refine Kept.fst (by assumption) ?_
    | with_reducible refine Kept.trd (by assumption) ?_
    | with_reducible refine Kept.snd (by assumption) ?_
    | with_reducible refine Kept.parts ?_
    | (with_reducible refine Kept.lit ?_; dsimp only; with_reducible refine Kept.parts ?_)
    | (intro _; try dsimp only))

theorem State.readCheck_kept {qq : List Instr} {s : State} {e} {ranges} (hk : Kept qq s) :
    Kept qq (State.readCheck s e ranges).1 := by
  unfold State.readCheck
  try dsimp only
  repeat' (first
    | with_reducible assumption
    | with_reducible apply State.memError_kept
    | split
    | with_reducible refine Kept.fst (by assumption) ?_
    | with_reducible refine Kept.trd (by assumption) ?_
    | with_reducible refine Kept.snd (by assumption) ?_
    | with_reducible refine Kept.parts ?_
    | (with_reducible refine Kept.lit ?_; dsimp only; with_reducible refine Kept.parts ?_)
    | (intro _; try dsimp only))

theorem State.lastingAdd_kept {qq : List Instr} {s : State} (hk : Kept qq s) :
    Kept qq (State.lastingAdd s) := by
  unfold State.lastingAdd
  try dsimp only
  repeat' (first
    | with_reducible assumption
    | with_reducible refine Kept.parts ?_
    | (with_reducible refine Kept.lit ?_; dsimp only; with_reducible refine Kept.parts ?_))

theorem State.journalAdd_kept {qq : List Instr} {s : State} {type} {body} (hk : Kept qq s) :
    Kept qq (State.journalAdd s type body) := by
  unfold State.journalAdd
  try dsimp only
  repeat' (first
    | with_reducible assumption
    | with_reducible apply State.setFld_kept
    | with_reducible apply State.bump_kept
    | with_reducible refine Kept.ite ?_ ?_
    | split
    | with_reducible refine Kept.parts ?_
    | (with_reducible refine Kept.lit ?_; dsimp only; first | with_reducible refine Kept.parts ?_ | with_reducible refine KeptParts.empty (Kept.parts ?_))
    | (intro _; try dsimp only))

theorem State.drillPass_kept {qq : List Instr} {s : State} {kind} (hk : Kept qq s) :
    Kept qq (State.drillPass s kind) := by
  unfold State.drillPass
  try dsimp only
  repeat' (first
    | with_reducible assumption
    | with_reducible apply State.setBit_kept
    | with_reducible apply State.bump_kept
    | with_reducible refine Kept.ite ?_ ?_
    | split
    | with_reducible refine Kept.parts ?_
    | (with_reducible refine Kept.lit ?_; dsimp only; with_reducible refine Kept.parts ?_)
    | (intro _; try dsimp only))

theorem State.drillDrop_kept {qq : List Instr} {s : State} {kind} {unit} (hk : Kept qq s) :
    Kept qq (State.drillDrop s kind unit) := by
  unfold State.drillDrop
  try dsimp only
  repeat' (first
    | with_reducible assumption
    | with_reducible refine Kept.parts ?_
    | (with_reducible refine Kept.lit ?_; dsimp only; first | with_reducible refine Kept.parts ?_ | with_reducible refine KeptParts.filter (Kept.parts ?_))
    | (intro _; try dsimp only))

theorem State.drillFired_kept {qq : List Instr} {s : State} {kind} (hk : Kept qq s) :
    Kept qq (State.drillFired s kind) := by
  unfold State.drillFired
  try dsimp only
  repeat' (first
    | with_reducible assumption
    | with_reducible apply State.bump_kept)

theorem State.drillInject_kept {qq : List Instr} {s : State} {kind} {unit} (hk : Kept qq s) :
    Kept qq (State.drillInject s kind unit) := by
  unfold State.drillInject
  try dsimp only
  repeat' (first
    | with_reducible assumption
    | with_reducible apply State.drillFired_kept
    | with_reducible refine Kept.ite ?_ ?_
    | split
    | with_reducible refine Kept.parts ?_
    | (with_reducible refine Kept.lit ?_; dsimp only; with_reducible refine Kept.parts ?_)
    | (intro _; try dsimp only))

theorem State.inject_kept {qq : List Instr} {s : State} {kind} {unit} {k} (hk : Kept qq s) :
    Kept qq (State.inject s kind unit k).2.2 := by
  unfold State.inject
  try dsimp only
  repeat' (first
    | with_reducible assumption
    | with_reducible apply State.drillFired_kept
    | with_reducible apply State.drillDrop_kept
    | with_reducible refine Kept.ite ?_ ?_
    | split)

theorem State.logEntry_kept {qq : List Instr} {s : State} {e} (hk : Kept qq s) :
    Kept qq (State.logEntry s e) := by
  unfold State.logEntry
  try dsimp only
  repeat' (first
    | with_reducible assumption
    | with_reducible apply State.raise_kept
    | with_reducible apply State.setBit_kept
    | with_reducible apply State.setReg_kept
    | with_reducible apply State.setFld_kept
    | with_reducible refine Kept.ite ?_ ?_
    | split)

theorem State.countCheck_kept {qq : List Instr} {s : State} {e} {hi} {lo} (hk : Kept qq s) :
    Kept qq (State.countCheck s e hi lo) := by
  unfold State.countCheck
  try dsimp only
  repeat' (first
    | with_reducible assumption
    | with_reducible apply State.bump_kept
    | split
    | with_reducible refine Kept.fst (by assumption) ?_
    | with_reducible refine Kept.trd (by assumption) ?_
    | with_reducible refine Kept.snd (by assumption) ?_
    | with_reducible refine Kept.parts ?_
    | (with_reducible refine Kept.lit ?_; dsimp only; with_reducible refine Kept.parts ?_)
    | (intro _; try dsimp only))

theorem State.recordCheck_kept {qq : List Instr} {s : State} {e} (hk : Kept qq s) :
    Kept qq (State.recordCheck s e) := by
  unfold State.recordCheck
  try dsimp only
  repeat' (first
    | with_reducible assumption
    | with_reducible apply State.logEntry_kept
    | with_reducible apply State.drillPass_kept
    | with_reducible apply State.healthAdd_kept
    | with_reducible apply State.countCheck_kept
    | with_reducible apply State.raiseJob_kept
    | with_reducible apply State.withhold_kept
    | with_reducible apply State.journalAdd_kept
    | with_reducible apply State.lastingAdd_kept
    | with_reducible apply State.setBit_kept
    | with_reducible refine Kept.ite ?_ ?_
    | split
    | with_reducible refine Kept.fst (by assumption) ?_
    | with_reducible refine Kept.trd (by assumption) ?_
    | with_reducible refine Kept.snd (by assumption) ?_
    | with_reducible refine Kept.parts ?_
    | (with_reducible refine Kept.lit ?_; dsimp only; with_reducible refine Kept.parts ?_)
    | (intro _; try dsimp only))

end Sys2Proof.Machine
end

