-- ==== Sys2Proof/Laws/KeptOperands.lean ====
section
/-! SUPPORT. Operations and meanings of Machine/Operands keep the canonical form of memory and leave the waiting commands alone. -/

namespace Sys2Proof.Machine

theorem State.putElem_kept {qq : List Instr} {s : State} {d} {r} {c} {v} (hk : Kept qq s) :
    Kept qq (State.putElem s d r c v) := by
  unfold State.putElem
  try dsimp only
  repeat' (first
    | with_reducible assumption
    | split
    | with_reducible refine Kept.fst (by assumption) ?_
    | with_reducible refine Kept.trd (by assumption) ?_
    | with_reducible refine Kept.snd (by assumption) ?_
    | with_reducible refine Kept.parts ?_
    | (with_reducible refine Kept.lit ?_; dsimp only; first | with_reducible refine Kept.parts ?_ | with_reducible refine KeptParts.write (Kept.parts ?_)))

theorem State.cleanPoison_kept {qq : List Instr} {s : State} {rs} (hk : Kept qq s) :
    Kept qq (State.cleanPoison s rs) := by
  unfold State.cleanPoison
  try dsimp only
  repeat' (first
    | with_reducible assumption
    | with_reducible refine Kept.parts ?_
    | (with_reducible refine Kept.lit ?_; dsimp only; first | with_reducible refine Kept.parts ?_ | with_reducible refine KeptParts.filter (Kept.parts ?_))
    | (intro _; try dsimp only))

theorem State.putTensor_kept {qq : List Instr} {s : State} {d} {f} (hk : Kept qq s) :
    Kept qq (State.putTensor s d f) := by
  unfold State.putTensor
  try dsimp only
  repeat' (first
    | with_reducible assumption
    | with_reducible apply State.putElem_kept
    | with_reducible apply State.cleanPoison_kept
    | with_reducible refine Kept.foldl (fun _ _ _ => ?_) ?_
    | with_reducible refine Kept.ite ?_ ?_
    | split
    | (intro _; try dsimp only))

theorem State.freeOverlap_kept {qq : List Instr} {s : State} {dst src : List (Nat × Nat)} (hk : Kept qq s) :
    Kept qq (s.freeOverlap dst src) := by
  unfold State.freeOverlap
  refine Kept.foldl (fun s a h => Kept.foldl (fun s a h => ?_) h) hk
  split
  · exact ⟨h.1, memWrite_wf h.2.1, h.2.2⟩
  · exact h

theorem State.touchStaging_kept {qq : List Instr} {s : State} {job} {l} (hk : Kept qq s) :
    Kept qq (State.touchStaging s job l) := by
  unfold State.touchStaging
  try dsimp only
  repeat' (first
    | with_reducible assumption
    | with_reducible apply State.freeOverlap_kept
    | with_reducible refine Kept.foldl ?_ ?_
    | with_reducible refine Kept.foldlFst ?_ ?_
    | with_reducible refine Kept.ite ?_ ?_
    | split
    | with_reducible refine Kept.parts ?_
    | (with_reducible refine Kept.lit ?_; dsimp only; first | with_reducible refine Kept.parts ?_ | with_reducible refine KeptParts.empty (Kept.parts ?_))
    | (intro _; try dsimp only))

end Sys2Proof.Machine
end

