-- ==== Sys2Proof/Laws/KeptSequencer.lean ====
section
/-! SUPPORT. Operations and meanings of Machine/Sequencer keep the canonical form of memory and leave the waiting commands alone. -/

namespace Sys2Proof.Machine

theorem State.fetchAt_kept {qq : List Instr} {s : State} {n} (hk : Kept qq s) :
    Kept qq (State.fetchAt s n) := by
  unfold State.fetchAt
  try dsimp only
  repeat' (first
    | with_reducible assumption
    | with_reducible apply State.trap_kept
    | with_reducible apply State.setCore_kept
    | with_reducible refine Kept.ite ?_ ?_
    | split)

theorem State.advance_kept {qq : List Instr} {s : State} {n} (hk : Kept qq s) :
    Kept qq (State.advance s n) := by
  unfold State.advance
  try dsimp only
  repeat' (first
    | with_reducible assumption
    | with_reducible apply State.fetchAt_kept
    | with_reducible apply State.modCore_kept
    | with_reducible refine Kept.parts ?_
    | (with_reducible refine Kept.lit ?_; dsimp only; with_reducible refine Kept.parts ?_)
    | (intro _; try dsimp only))

theorem State.jump_kept {qq : List Instr} {s : State} {n} {cls} {target} (hk : Kept qq s) :
    Kept qq (State.jump s n cls target) := by
  unfold State.jump
  try dsimp only
  repeat' (first
    | with_reducible assumption
    | with_reducible apply State.trap_kept
    | with_reducible apply State.fetchAt_kept
    | with_reducible apply State.setCore_kept
    | with_reducible refine Kept.ite ?_ ?_
    | split
    | with_reducible refine Kept.parts ?_
    | (with_reducible refine Kept.lit ?_; dsimp only; with_reducible refine Kept.parts ?_))

theorem lockstep_kept {qq : List Instr} {s : State} {n : Fin 32} {k : CheckOutcome} {cls : Nat} {effect : State → State}
    (hk : Kept qq s) (hb : ∀ s, Kept qq s → Kept qq (effect s)) : Kept qq (lockstep s n k cls effect) := by
  unfold lockstep
  have hi : Kept qq (s.inject 3 n.val k).2.2 := State.inject_kept hk
  revert hi
  generalize s.inject 3 n.val k = p
  obtain ⟨k, dr, t⟩ := p
  intro hi
  cases k with
  | ok => exact hb _ hi
  | transient => exact hb _ (State.recordCheck_kept hi)
  | lasting => exact State.trap_kept (State.recordCheck_kept hi)

theorem seqExec_kept {qq : List Instr} {s : State} {n : Fin 32} {ws : BitVec 4} {k : CheckOutcome} {word : Word} {legal : Bool}
    {body : State → State} (hk : Kept qq s) (hb : ∀ s, Kept qq s → Kept qq (body s)) : KeptOut qq (seqExec s n ws k word legal body) := by
  unfold seqExec
  dsimp only
  repeat' (first
    | with_reducible assumption
    | with_reducible refine KeptOut.next ?_
    | with_reducible apply State.trap_kept
    | with_reducible apply State.setCore_kept
    | with_reducible apply State.modCore_kept
    | with_reducible apply State.advance_kept
    | with_reducible refine lockstep_kept ?_ ?_
    | with_reducible apply hb
    | split
    | intro _ _)

theorem seqWrite_kept {qq : List Instr} {s : State} {n} {ws} {k} {word} {legal} {f} (hk : Kept qq s) :
    KeptOut qq (seqWrite s n ws k word legal f) := by
  unfold seqWrite
  try dsimp only
  repeat' (first
    | with_reducible assumption
    | with_reducible refine KeptOut.next ?_
    | with_reducible apply State.modCore_kept
    | with_reducible apply State.advance_kept
    | with_reducible apply seqExec_kept
    | (intro _; try dsimp only))

theorem seqChecked_kept {qq : List Instr} {s : State} {n} {ws} {k} {word} {legal} {conds} {f} (hk : Kept qq s) :
    KeptOut qq (seqChecked s n ws k word legal conds f) := by
  unfold seqChecked
  try dsimp only
  repeat' (first
    | with_reducible assumption
    | with_reducible refine KeptOut.next ?_
    | with_reducible apply State.modCore_kept
    | with_reducible apply State.trap_kept
    | with_reducible apply State.advance_kept
    | with_reducible apply seqExec_kept
    | split
    | with_reducible refine Kept.fst (by assumption) ?_
    | with_reducible refine Kept.trd (by assumption) ?_
    | with_reducible refine Kept.snd (by assumption) ?_
    | (intro _; try dsimp only))

end Sys2Proof.Machine
end

