-- ==== Sys2Proof/Laws/KeptAccess.lean ====
section
/-! SUPPORT. Operations and meanings of Machine/Access keep the canonical form of memory and leave the waiting commands alone. -/

namespace Sys2Proof.Machine

theorem accessEffect_kept {qq : List Instr} {s : State} {n} {kind} {addr} {reg} {value} {desc} {old} (hk : Kept qq s) :
    Kept qq (accessEffect s n kind addr reg value desc old) := by
  unfold accessEffect
  try dsimp only
  repeat' (first
    | with_reducible assumption
    | with_reducible apply State.modCore_kept
    | with_reducible apply State.writeNat_kept
    | split
    | with_reducible refine Kept.fst (by assumption) ?_
    | with_reducible refine Kept.trd (by assumption) ?_
    | with_reducible refine Kept.snd (by assumption) ?_
    | with_reducible refine Kept.parts ?_
    | (with_reducible refine Kept.lit ?_; dsimp only; with_reducible refine Kept.parts ?_)
    | (intro _; try dsimp only))

theorem State.readHalt_kept {qq : List Instr} {s : State} {n} {addr} (hk : Kept qq s) :
    Kept qq (State.readHalt s n addr) := by
  unfold State.readHalt
  try dsimp only
  repeat' (first
    | with_reducible assumption
    | with_reducible apply State.askHalt_kept
    | split
    | with_reducible refine Kept.fst (by assumption) ?_
    | with_reducible refine Kept.trd (by assumption) ?_
    | with_reducible refine Kept.snd (by assumption) ?_
    | with_reducible refine Kept.parts ?_
    | (with_reducible refine Kept.lit ?_; dsimp only; with_reducible refine Kept.parts ?_)
    | (intro _; try dsimp only))

theorem startAccess_kept {qq : List Instr} {s : State} {n} {kind} {a} {reg} {value} {expected} {desc} {err} (hk : Kept qq s) :
    Kept qq (startAccess s n kind a reg value expected desc err) := by
  unfold startAccess
  try dsimp only
  repeat' (first
    | with_reducible assumption
    | with_reducible apply State.modCore_kept
    | with_reducible apply State.readCheck_kept
    | with_reducible apply State.touchStaging_kept
    | with_reducible apply State.advance_kept
    | with_reducible apply accessEffect_kept
    | with_reducible apply State.readHalt_kept
    | with_reducible refine Kept.foldl ?_ ?_
    | with_reducible refine Kept.foldlFst ?_ ?_
    | with_reducible refine Kept.ite ?_ ?_
    | split
    | with_reducible refine Kept.fst (by assumption) ?_
    | with_reducible refine Kept.trd (by assumption) ?_
    | with_reducible refine Kept.snd (by assumption) ?_
    | with_reducible refine Kept.parts ?_
    | (with_reducible refine Kept.lit ?_; dsimp only; first | with_reducible refine Kept.parts ?_ | with_reducible refine KeptParts.empty (Kept.parts ?_))
    | (intro _; try dsimp only))

theorem seqAccess_kept {qq : List Instr} {s : State} {n} {ws} {k} {word} {kind} {addr} {reg} {value} {expected} {desc} {err} (hk : Kept qq s) :
    KeptOut qq (seqAccess s n ws k word kind addr reg value expected desc err) := by
  unfold seqAccess
  try dsimp only
  repeat' (first
    | with_reducible assumption
    | with_reducible refine KeptOut.next ?_
    | with_reducible apply State.trap_kept
    | with_reducible apply seqExec_kept
    | with_reducible apply startAccess_kept
    | split
    | with_reducible refine Kept.fst (by assumption) ?_
    | with_reducible refine Kept.trd (by assumption) ?_
    | with_reducible refine Kept.snd (by assumption) ?_
    | (intro _; try dsimp only))

theorem execSLd_kept {qq : List Instr} {s : State} {n} {ws} {rd} {ra} {imm} {k} {err} (hk : Kept qq s) :
    KeptOut qq (execSLd n ws rd ra imm k err s) := by
  unfold execSLd
  try dsimp only
  repeat' (first
    | with_reducible assumption
    | with_reducible refine KeptOut.next ?_
    | with_reducible apply seqAccess_kept
    | (intro _; try dsimp only))

theorem execSLd32_kept {qq : List Instr} {s : State} {n} {ws} {rd} {ra} {imm} {k} {err} (hk : Kept qq s) :
    KeptOut qq (execSLd32 n ws rd ra imm k err s) := by
  unfold execSLd32
  try dsimp only
  repeat' (first
    | with_reducible assumption
    | with_reducible refine KeptOut.next ?_
    | with_reducible apply seqAccess_kept
    | (intro _; try dsimp only))

theorem execSSt_kept {qq : List Instr} {s : State} {n} {ws} {rd} {ra} {imm} {k} (hk : Kept qq s) :
    KeptOut qq (execSSt n ws rd ra imm k s) := by
  unfold execSSt
  try dsimp only
  repeat' (first
    | with_reducible assumption
    | with_reducible refine KeptOut.next ?_
    | with_reducible apply seqAccess_kept
    | (intro _; try dsimp only))

theorem execSSt32_kept {qq : List Instr} {s : State} {n} {ws} {rd} {ra} {imm} {k} (hk : Kept qq s) :
    KeptOut qq (execSSt32 n ws rd ra imm k s) := by
  unfold execSSt32
  try dsimp only
  repeat' (first
    | with_reducible assumption
    | with_reducible refine KeptOut.next ?_
    | with_reducible apply seqAccess_kept
    | (intro _; try dsimp only))

theorem seqAmo_kept {qq : List Instr} {s : State} {op} {code} {n} {ws} {rd} {ra} {rb} {k} (hk : Kept qq s) :
    KeptOut qq (seqAmo op code n ws rd ra rb k s) := by
  unfold seqAmo
  try dsimp only
  repeat' (first
    | with_reducible assumption
    | with_reducible refine KeptOut.next ?_
    | with_reducible apply seqAccess_kept
    | (intro _; try dsimp only))

theorem execSAmoadd_kept {qq : List Instr} {s : State} {n} {ws} {rd} {ra} {rb} {k} (hk : Kept qq s) :
    KeptOut qq (execSAmoadd n ws rd ra rb k s) := by
  unfold execSAmoadd
  try dsimp only
  repeat' (first
    | with_reducible assumption
    | with_reducible refine KeptOut.next ?_
    | with_reducible apply seqAmo_kept
    | (intro _; try dsimp only))

theorem execSAmomax_kept {qq : List Instr} {s : State} {n} {ws} {rd} {ra} {rb} {k} (hk : Kept qq s) :
    KeptOut qq (execSAmomax n ws rd ra rb k s) := by
  unfold execSAmomax
  try dsimp only
  repeat' (first
    | with_reducible assumption
    | with_reducible refine KeptOut.next ?_
    | with_reducible apply seqAmo_kept
    | (intro _; try dsimp only))

theorem execSAmomin_kept {qq : List Instr} {s : State} {n} {ws} {rd} {ra} {rb} {k} (hk : Kept qq s) :
    KeptOut qq (execSAmomin n ws rd ra rb k s) := by
  unfold execSAmomin
  try dsimp only
  repeat' (first
    | with_reducible assumption
    | with_reducible refine KeptOut.next ?_
    | with_reducible apply seqAmo_kept
    | (intro _; try dsimp only))

theorem execSAmoswap_kept {qq : List Instr} {s : State} {n} {ws} {rd} {ra} {rb} {k} (hk : Kept qq s) :
    KeptOut qq (execSAmoswap n ws rd ra rb k s) := by
  unfold execSAmoswap
  try dsimp only
  repeat' (first
    | with_reducible assumption
    | with_reducible refine KeptOut.next ?_
    | with_reducible apply seqAmo_kept
    | (intro _; try dsimp only))

theorem execSAmocas_kept {qq : List Instr} {s : State} {n} {ws} {rd} {ra} {rb} {k} (hk : Kept qq s) :
    KeptOut qq (execSAmocas n ws rd ra rb k s) := by
  unfold execSAmocas
  try dsimp only
  repeat' (first
    | with_reducible assumption
    | with_reducible refine KeptOut.next ?_
    | with_reducible apply seqAmo_kept
    | (intro _; try dsimp only))

theorem execScalarAccessComplete_kept {qq : List Instr} {s : State} {n} {e} (hk : Kept qq s) :
    KeptOut qq (execScalarAccessComplete n e s) := by
  unfold execScalarAccessComplete
  try dsimp only
  repeat' (first
    | with_reducible assumption
    | with_reducible refine KeptOut.next ?_
    | with_reducible apply State.modCore_kept
    | with_reducible apply State.readCheck_kept
    | with_reducible apply State.advance_kept
    | with_reducible apply accessEffect_kept
    | with_reducible apply State.readHalt_kept
    | with_reducible refine KeptOut.ite ?_ ?_
    | with_reducible refine Kept.ite ?_ ?_
    | split
    | with_reducible refine Kept.fst (by assumption) ?_
    | with_reducible refine Kept.trd (by assumption) ?_
    | with_reducible refine Kept.snd (by assumption) ?_
    | (intro _; try dsimp only))

end Sys2Proof.Machine
end

