-- ==== Sys2Proof/Laws/KeptLanes.lean ====
section
/-! SUPPORT. Operations and meanings of Machine/Lanes keep the canonical form of memory and leave the waiting commands alone. -/

namespace Sys2Proof.Machine

theorem State.laneTo_kept {qq : List Instr} {s : State} {i} {st} (hk : Kept qq s) :
    Kept qq (State.laneTo s i st) := by
  unfold State.laneTo
  try dsimp only
  repeat' (first
    | with_reducible assumption
    | with_reducible apply State.setFld_kept)

theorem State.lockFrom_kept {qq : List Instr} {s : State} {i} {st} (hk : Kept qq s) :
    Kept qq (State.lockFrom s i st) := by
  unfold State.lockFrom
  try dsimp only
  repeat' (first
    | with_reducible assumption
    | with_reducible apply State.laneTo_kept
    | split
    | with_reducible refine Kept.parts ?_
    | (with_reducible refine Kept.lit ?_; dsimp only; with_reducible refine Kept.parts ?_))

theorem State.beginLock_kept {qq : List Instr} {s : State} {i} (hk : Kept qq s) :
    Kept qq (State.beginLock s i) := by
  unfold State.beginLock
  try dsimp only
  repeat' (first
    | with_reducible assumption
    | with_reducible apply State.lockFrom_kept
    | with_reducible refine Kept.ite ?_ ?_
    | split
    | (intro _; try dsimp only))

theorem State.setFeed_kept {qq : List Instr} {s : State} {c} {k} {m} (hk : Kept qq s) :
    Kept qq (State.setFeed s c k m) := by
  unfold State.setFeed
  try dsimp only
  repeat' (first
    | with_reducible assumption
    | with_reducible apply State.setFld_kept
    | split
    | with_reducible refine Kept.parts ?_
    | (with_reducible refine Kept.lit ?_; dsimp only; with_reducible refine Kept.parts ?_))

theorem State.syncSweep_kept {qq : List Instr} {s : State} {c} (hk : Kept qq s) :
    Kept qq (State.syncSweep s c) := by
  unfold State.syncSweep
  try dsimp only
  repeat' (first
    | with_reducible assumption
    | with_reducible apply State.raise_kept
    | with_reducible refine Kept.ite ?_ ?_
    | split
    | with_reducible refine Kept.fst (by assumption) ?_
    | with_reducible refine Kept.trd (by assumption) ?_
    | with_reducible refine Kept.snd (by assumption) ?_
    | with_reducible refine Kept.parts ?_
    | (with_reducible refine Kept.lit ?_; dsimp only; first | with_reducible refine Kept.parts ?_ | with_reducible refine KeptParts.empty (Kept.parts ?_))
    | (intro _; try dsimp only))

theorem State.syncHull_kept {qq : List Instr} {s : State}  (hk : Kept qq s) :
    Kept qq (State.syncHull s) := by
  unfold State.syncHull
  try dsimp only
  repeat' (first
    | with_reducible assumption
    | with_reducible apply State.setReg_kept
    | with_reducible apply State.raise_kept
    | with_reducible apply State.syncSweep_kept
    | with_reducible refine Kept.foldl ?_ ?_
    | with_reducible refine Kept.foldlFst ?_ ?_
    | with_reducible refine Kept.ite ?_ ?_
    | split
    | (intro _; try dsimp only))

end Sys2Proof.Machine
end

