-- ==== Sys2Proof/Laws/KeptFabric.lean ====
section
/-! SUPPORT. Operations and meanings of Machine/Fabric keep the canonical form of memory and leave the waiting commands alone. -/

namespace Sys2Proof.Machine

theorem State.modLink_kept {qq : List Instr} {s : State} {i} {f} (hk : Kept qq s) :
    Kept qq (State.modLink s i f) := by
  unfold State.modLink
  try dsimp only
  repeat' (first
    | with_reducible assumption
    | split
    | with_reducible refine Kept.fst (by assumption) ?_
    | with_reducible refine Kept.trd (by assumption) ?_
    | with_reducible refine Kept.snd (by assumption) ?_
    | with_reducible refine Kept.parts ?_
    | (with_reducible refine Kept.lit ?_; dsimp only; with_reducible refine Kept.parts ?_)
    | (intro _; try dsimp only))

theorem State.pump_kept {qq : List Instr} {x0} : ∀ {x1 : State} {x2}, Kept qq x1 → Kept qq (State.pump x0 x1 x2) := by
  induction x0 with
  | zero => intro x1 x2 hk; exact hk
  | succ k ih =>
    intro x1 x2 hk
    unfold State.pump
    try dsimp only
    repeat' (first
      | with_reducible assumption
      | with_reducible apply ih
      | with_reducible apply State.emit_kept
      | with_reducible refine Kept.ite ?_ ?_
      | split
      | with_reducible refine Kept.fst (by assumption) ?_
      | with_reducible refine Kept.trd (by assumption) ?_
      | with_reducible refine Kept.snd (by assumption) ?_
      | with_reducible refine Kept.parts ?_
      | (with_reducible refine Kept.lit ?_; dsimp only; first | with_reducible refine Kept.parts ?_ | with_reducible refine KeptParts.empty (Kept.parts ?_))
      | (intro _; try dsimp only))

theorem State.sendIdle_kept {qq : List Instr} {s : State} {i} {ctl} (hk : Kept qq s) :
    Kept qq (State.sendIdle s i ctl) := by
  unfold State.sendIdle
  try dsimp only
  repeat' (first
    | with_reducible assumption
    | with_reducible apply State.emit_kept
    | split
    | with_reducible refine Kept.fst (by assumption) ?_
    | with_reducible refine Kept.trd (by assumption) ?_
    | with_reducible refine Kept.snd (by assumption) ?_
    | with_reducible refine Kept.parts ?_
    | (with_reducible refine Kept.lit ?_; dsimp only; first | with_reducible refine Kept.parts ?_ | with_reducible refine KeptParts.empty (Kept.parts ?_))
    | (intro _; try dsimp only))

theorem State.enqueue_kept {qq : List Instr} {s : State} {i} {fs} (hk : Kept qq s) :
    Kept qq (State.enqueue s i fs) := by
  unfold State.enqueue
  try dsimp only
  repeat' (first
    | with_reducible assumption
    | with_reducible apply State.modLink_kept
    | with_reducible apply State.pump_kept
    | split
    | with_reducible refine Kept.fst (by assumption) ?_
    | with_reducible refine Kept.trd (by assumption) ?_
    | with_reducible refine Kept.snd (by assumption) ?_
    | with_reducible refine Kept.parts ?_
    | (with_reducible refine Kept.lit ?_; dsimp only; with_reducible refine Kept.parts ?_)
    | (intro _; try dsimp only))

theorem State.broadcastStates_kept {qq : List Instr} {s : State} (hk : Kept qq s) :
    Kept qq (State.broadcastStates s) := by
  unfold State.broadcastStates
  try dsimp only
  repeat' (first
    | with_reducible assumption
    | with_reducible apply State.emit_kept
    | with_reducible refine Kept.foldl (fun _ _ _ => ?_) ?_
    | with_reducible refine Kept.ite ?_ ?_
    | split
    | (intro _; try dsimp only))

theorem State.dropFlits_kept {qq : List Instr} {s : State} {i} (hk : Kept qq s) :
    Kept qq (State.dropFlits s i) := by
  unfold State.dropFlits
  try dsimp only
  repeat' (first
    | with_reducible assumption
    | with_reducible apply State.modLink_kept
    | with_reducible refine Kept.parts ?_
    | (with_reducible refine Kept.lit ?_; dsimp only; first | with_reducible refine Kept.parts ?_ | with_reducible refine KeptParts.empty (Kept.parts ?_))
    | (intro _; try dsimp only))

theorem State.pathGoesDown_kept {qq : List Instr} {s : State} {i} (hk : Kept qq s) :
    Kept qq (State.pathGoesDown s i) := by
  unfold State.pathGoesDown
  try dsimp only
  repeat' (first
    | with_reducible assumption
    | with_reducible apply State.setFld_kept
    | with_reducible apply State.bump_kept
    | with_reducible apply State.raise_kept
    | with_reducible apply State.modLink_kept
    | with_reducible apply State.broadcastStates_kept
    | with_reducible apply State.dropFlits_kept
    | with_reducible refine Kept.foldl ?_ ?_
    | with_reducible refine Kept.foldlFst ?_ ?_
    | with_reducible refine Kept.parts ?_
    | (with_reducible refine Kept.lit ?_; dsimp only; first | with_reducible refine Kept.parts ?_ | with_reducible refine KeptParts.empty (Kept.parts ?_))
    | (intro _; try dsimp only))

theorem State.goBack_kept {qq : List Instr} {s : State} {i} (hk : Kept qq s) :
    Kept qq (State.goBack s i) := by
  unfold State.goBack
  try dsimp only
  repeat' (first
    | with_reducible assumption
    | with_reducible apply State.bump_kept
    | with_reducible apply State.emit_kept
    | with_reducible apply State.modLink_kept
    | with_reducible apply State.pathGoesDown_kept
    | with_reducible refine Kept.foldl ?_ ?_
    | with_reducible refine Kept.foldlFst ?_ ?_
    | with_reducible refine Kept.ite ?_ ?_
    | split
    | with_reducible refine Kept.fst (by assumption) ?_
    | with_reducible refine Kept.trd (by assumption) ?_
    | with_reducible refine Kept.snd (by assumption) ?_
    | with_reducible refine Kept.parts ?_
    | (with_reducible refine Kept.lit ?_; dsimp only; first | with_reducible refine Kept.parts ?_ | with_reducible refine KeptParts.empty (Kept.parts ?_))
    | (intro _; try dsimp only))

theorem State.takeControl_kept {qq : List Instr} {s : State} {i} {h} (hk : Kept qq s) :
    Kept qq (State.takeControl s i h) := by
  unfold State.takeControl
  try dsimp only
  repeat' (first
    | with_reducible assumption
    | with_reducible apply State.modLink_kept
    | with_reducible apply State.pump_kept
    | with_reducible apply State.goBack_kept
    | with_reducible refine Kept.ite ?_ ?_
    | split
    | with_reducible refine Kept.fst (by assumption) ?_
    | with_reducible refine Kept.trd (by assumption) ?_
    | with_reducible refine Kept.snd (by assumption) ?_
    | (intro _; try dsimp only))

theorem State.forwardFlit_kept {qq : List Instr} {s : State} {i} {f} (hk : Kept qq s) :
    Kept qq (State.forwardFlit s i f) := by
  unfold State.forwardFlit
  try dsimp only
  repeat' (first
    | with_reducible assumption
    | with_reducible apply State.modLink_kept
    | with_reducible apply State.enqueue_kept
    | with_reducible refine Kept.ite ?_ ?_
    | split
    | with_reducible refine Kept.fst (by assumption) ?_
    | with_reducible refine Kept.trd (by assumption) ?_
    | with_reducible refine Kept.snd (by assumption) ?_
    | with_reducible refine Kept.parts ?_
    | (with_reducible refine Kept.lit ?_; dsimp only; first | with_reducible refine Kept.parts ?_ | with_reducible refine KeptParts.empty (Kept.parts ?_))
    | (intro _; try dsimp only))

theorem State.forward_kept {qq : List Instr} {s : State} {i} (hk : Kept qq s) :
    Kept qq (State.forward s i) := by
  unfold State.forward
  try dsimp only
  repeat' (first
    | with_reducible assumption
    | with_reducible apply State.modLink_kept
    | with_reducible apply State.forwardFlit_kept
    | with_reducible refine Kept.foldl ?_ ?_
    | with_reducible refine Kept.foldlFst ?_ ?_
    | with_reducible refine Kept.ite ?_ ?_
    | split
    | with_reducible refine Kept.fst (by assumption) ?_
    | with_reducible refine Kept.trd (by assumption) ?_
    | with_reducible refine Kept.snd (by assumption) ?_
    | with_reducible refine Kept.parts ?_
    | (with_reducible refine Kept.lit ?_; dsimp only; first | with_reducible refine Kept.parts ?_ | with_reducible refine KeptParts.empty (Kept.parts ?_))
    | (intro _; try dsimp only))

theorem State.forwardAll_kept {qq : List Instr} {s : State}  (hk : Kept qq s) :
    Kept qq (State.forwardAll s) := by
  unfold State.forwardAll
  try dsimp only
  repeat' (first
    | with_reducible assumption
    | with_reducible apply State.forward_kept
    | with_reducible refine Kept.foldl ?_ ?_
    | with_reducible refine Kept.foldlFst ?_ ?_
    | (intro _; try dsimp only))

theorem State.answerFlit_kept {qq : List Instr} {s : State} {i} (hk : Kept qq s) :
    Kept qq (State.answerFlit s i) := by
  unfold State.answerFlit
  try dsimp only
  repeat' (first
    | with_reducible assumption
    | with_reducible apply State.sendIdle_kept
    | with_reducible refine Kept.ite ?_ ?_
    | split
    | with_reducible refine Kept.fst (by assumption) ?_
    | with_reducible refine Kept.trd (by assumption) ?_
    | with_reducible refine Kept.snd (by assumption) ?_
    | (intro _; try dsimp only))

theorem State.flitRejected_kept {qq : List Instr} {s : State} {i} (hk : Kept qq s) :
    Kept qq (State.flitRejected s i) := by
  unfold State.flitRejected
  try dsimp only
  repeat' (first
    | with_reducible assumption
    | with_reducible apply State.modLink_kept
    | with_reducible apply State.answerFlit_kept
    | with_reducible refine Kept.parts ?_
    | (with_reducible refine Kept.lit ?_; dsimp only; first | with_reducible refine Kept.parts ?_ | with_reducible refine KeptParts.empty (Kept.parts ?_))
    | (intro _; try dsimp only))

theorem State.flitTagFails_kept {qq : List Instr} {s : State} {i} (hk : Kept qq s) :
    Kept qq (State.flitTagFails s i) := by
  unfold State.flitTagFails
  try dsimp only
  repeat' (first
    | with_reducible assumption
    | with_reducible apply State.bump_kept
    | with_reducible apply State.raise_kept
    | with_reducible apply State.modLink_kept
    | with_reducible apply State.pathGoesDown_kept
    | with_reducible apply State.flitRejected_kept
    | with_reducible refine Kept.ite ?_ ?_
    | split
    | with_reducible refine Kept.fst (by assumption) ?_
    | with_reducible refine Kept.trd (by assumption) ?_
    | with_reducible refine Kept.snd (by assumption) ?_
    | with_reducible refine Kept.parts ?_
    | (with_reducible refine Kept.lit ?_; dsimp only; first | with_reducible refine Kept.parts ?_ | with_reducible refine KeptParts.empty (Kept.parts ?_))
    | (intro _; try dsimp only))

theorem State.flitTaken_kept {qq : List Instr} {s : State} {i} {f} (hk : Kept qq s) :
    Kept qq (State.flitTaken s i f) := by
  unfold State.flitTaken
  try dsimp only
  repeat' (first
    | with_reducible assumption
    | with_reducible apply State.modLink_kept
    | with_reducible apply State.takeControl_kept
    | with_reducible apply State.forward_kept
    | with_reducible apply State.answerFlit_kept
    | with_reducible apply State.flitRejected_kept
    | with_reducible refine Kept.ite ?_ ?_
    | split
    | with_reducible refine Kept.fst (by assumption) ?_
    | with_reducible refine Kept.trd (by assumption) ?_
    | with_reducible refine Kept.snd (by assumption) ?_
    | with_reducible refine Kept.parts ?_
    | (with_reducible refine Kept.lit ?_; dsimp only; first | with_reducible refine Kept.parts ?_ | with_reducible refine KeptParts.empty (Kept.parts ?_))
    | (intro _; try dsimp only))

theorem State.beginDrain_kept {qq : List Instr} {s : State} {i} {change} (hk : Kept qq s) :
    Kept qq (State.beginDrain s i change) := by
  unfold State.beginDrain
  try dsimp only
  repeat' (first
    | with_reducible assumption
    | with_reducible apply State.modLink_kept
    | with_reducible refine Kept.parts ?_
    | (with_reducible refine Kept.lit ?_; dsimp only; first | with_reducible refine Kept.parts ?_ | with_reducible refine KeptParts.empty (Kept.parts ?_))
    | (intro _; try dsimp only))

end Sys2Proof.Machine
end

