-- ==== Sys2Proof/Laws/KeptIssue.lean ====
section
/-! SUPPORT. Operations and meanings of Machine/Issue keep the canonical form of memory and leave the waiting commands alone. -/

namespace Sys2Proof.Machine

theorem State.enterRunning_kept {qq : List Instr} {s : State} {n} (hk : Kept qq s) :
    Kept qq (State.enterRunning s n) := by
  unfold State.enterRunning
  try dsimp only
  repeat' (first
    | with_reducible assumption
    | with_reducible apply State.clearRange_kept
    | with_reducible apply State.setReg_kept
    | with_reducible apply State.setCore_kept
    | with_reducible apply State.trap_kept
    | with_reducible refine Kept.parts ?_
    | (with_reducible refine Kept.lit ?_; dsimp only; first | with_reducible refine Kept.parts ?_ | with_reducible refine KeptParts.empty (Kept.parts ?_))
    | (intro _; try dsimp only))

theorem execInstructionFetchFill_kept {qq : List Instr} {s : State} {n} {err} (hk : Kept qq s) :
    KeptOut qq (execInstructionFetchFill n err s) := by
  unfold execInstructionFetchFill
  try dsimp only
  repeat' (first
    | with_reducible assumption
    | with_reducible refine KeptOut.next ?_
    | with_reducible apply State.setCore_kept
    | with_reducible apply State.askHalt_kept
    | with_reducible apply State.readCheck_kept
    | with_reducible apply State.enterRunning_kept
    | with_reducible refine KeptOut.ite ?_ ?_
    | with_reducible refine Kept.ite ?_ ?_
    | split
    | with_reducible refine Kept.fst (by assumption) ?_
    | with_reducible refine Kept.trd (by assumption) ?_
    | with_reducible refine Kept.snd (by assumption) ?_
    | with_reducible refine Kept.parts ?_
    | (with_reducible refine Kept.lit ?_; dsimp only; first | with_reducible refine Kept.parts ?_ | with_reducible refine KeptParts.empty (Kept.parts ?_))
    | (intro _; try dsimp only))

theorem execDispatch_kept {qq : List Instr} {s : State} {n} {w} {k} (hk : Kept qq s) :
    KeptOut qq (execDispatch n w k s) := by
  unfold execDispatch
  try dsimp only
  repeat' (first
    | with_reducible assumption
    | with_reducible refine KeptOut.next ?_
    | with_reducible apply State.setCore_kept
    | with_reducible apply State.modCore_kept
    | with_reducible apply State.trap_kept
    | with_reducible apply State.advance_kept
    | with_reducible apply lockstep_kept
    | with_reducible refine KeptOut.ite ?_ ?_
    | with_reducible refine Kept.ite ?_ ?_
    | split
    | with_reducible refine Kept.fst (by assumption) ?_
    | with_reducible refine Kept.trd (by assumption) ?_
    | with_reducible refine Kept.snd (by assumption) ?_
    | with_reducible refine Kept.parts ?_
    | (with_reducible refine Kept.lit ?_; dsimp only; first | with_reducible refine Kept.parts ?_ | with_reducible refine KeptParts.empty (Kept.parts ?_))
    | (intro _; try dsimp only))

theorem State.awaitSlot_kept {qq : List Instr} {s : State} {n} (hk : Kept qq s) :
    Kept qq (State.awaitSlot s n) := by
  unfold State.awaitSlot
  try dsimp only
  repeat' (first
    | with_reducible assumption
    | with_reducible refine Kept.ite ?_ ?_
    | split
    | with_reducible refine Kept.parts ?_
    | (with_reducible refine Kept.lit ?_; dsimp only; with_reducible refine Kept.parts ?_))

theorem State.noteRise_kept {qq : List Instr} {s : State} {entered} (hk : Kept qq s) :
    Kept qq (State.noteRise s entered) := by
  unfold State.noteRise
  try dsimp only
  repeat' (first
    | with_reducible assumption
    | with_reducible refine Kept.ite ?_ ?_
    | split
    | with_reducible refine Kept.parts ?_
    | (with_reducible refine Kept.lit ?_; dsimp only; first | with_reducible refine Kept.parts ?_ | with_reducible refine KeptParts.filter (Kept.parts ?_))
    | (intro _; try dsimp only))

theorem execInstructionStart_kept {qq : List Instr} {s : State} {n} {q} {err} (hk : Kept qq s) :
    KeptOut qq (execInstructionStart n q err s) := by
  unfold execInstructionStart
  try dsimp only
  repeat' (first
    | with_reducible assumption
    | with_reducible refine KeptOut.next ?_
    | with_reducible apply State.setCore_kept
    | with_reducible apply State.trap_kept
    | with_reducible apply State.askHalt_kept
    | with_reducible apply State.readCheck_kept
    | with_reducible apply State.touchStaging_kept
    | with_reducible apply State.awaitSlot_kept
    | with_reducible apply State.noteRise_kept
    | with_reducible refine Kept.foldl ?_ ?_
    | with_reducible refine Kept.foldlFst ?_ ?_
    | with_reducible refine KeptOut.ite ?_ ?_
    | with_reducible refine Kept.ite ?_ ?_
    | split
    | with_reducible refine Kept.fst (by assumption) ?_
    | with_reducible refine Kept.trd (by assumption) ?_
    | with_reducible refine Kept.snd (by assumption) ?_
    | with_reducible refine Kept.parts ?_
    | (with_reducible refine Kept.lit ?_; dsimp only; first | with_reducible refine Kept.parts ?_ | with_reducible refine KeptParts.empty (Kept.parts ?_))
    | (intro _; try dsimp only))

theorem State.undoBytes_kept {qq : List Instr} {s : State} {l} (hk : Kept qq s) :
    Kept qq (State.undoBytes s l) := by
  unfold State.undoBytes
  try dsimp only
  repeat' (first
    | with_reducible assumption
    | with_reducible refine Kept.foldl (fun _ _ _ => ?_) ?_
    | with_reducible refine Kept.parts ?_
    | (with_reducible refine Kept.lit ?_; dsimp only; first | with_reducible refine Kept.parts ?_ | with_reducible refine KeptParts.restore (Kept.parts ?_))
    | (intro _; try dsimp only))

theorem State.checkedClean_kept {qq : List Instr} {s : State} {n} {d} (hk : Kept qq s) :
    Kept qq (State.checkedClean s n d) := by
  unfold State.checkedClean
  try dsimp only
  repeat' (first
    | with_reducible assumption
    | with_reducible apply State.modCore_kept
    | with_reducible apply State.signal_kept
    | with_reducible refine Kept.ite ?_ ?_
    | split
    | (intro _; try dsimp only))

theorem State.checkedAtEnd_kept {qq : List Instr} {s : State} {n} {e} (hk : Kept qq s) :
    Kept qq (State.checkedAtEnd s n e) := by
  unfold State.checkedAtEnd
  try dsimp only
  repeat' (first
    | with_reducible assumption
    | with_reducible apply State.checkedClean_kept
    | with_reducible refine Kept.ite ?_ ?_
    | split
    | with_reducible refine Kept.fst (by assumption) ?_
    | with_reducible refine Kept.trd (by assumption) ?_
    | with_reducible refine Kept.snd (by assumption) ?_
    | (intro _; try dsimp only))

theorem finishEntry_kept {qq : List Instr} {s : State} {n} {q} {e} (hk : Kept qq s) :
    Kept qq (finishEntry s n q e) := by
  unfold finishEntry
  try dsimp only
  repeat' (first
    | with_reducible assumption
    | with_reducible apply State.modCore_kept
    | with_reducible apply State.settle_kept
    | with_reducible apply State.trap_kept
    | with_reducible apply State.signal_kept
    | with_reducible apply State.checkedAtEnd_kept
    | with_reducible refine Kept.ite ?_ ?_
    | split
    | with_reducible refine Kept.parts ?_
    | (with_reducible refine Kept.lit ?_; dsimp only; first | with_reducible refine Kept.parts ?_ | with_reducible refine KeptParts.empty (Kept.parts ?_))
    | (intro _; try dsimp only))

theorem execInstructionComplete_kept {qq : List Instr} {s : State} {n} {q} {fails} {stretch} (hk : Kept qq s) :
    KeptOut qq (execInstructionComplete n q fails stretch s) := by
  unfold execInstructionComplete
  try dsimp only
  repeat' (first
    | with_reducible assumption
    | with_reducible refine KeptOut.next ?_
    | with_reducible apply State.modCore_kept
    | with_reducible apply State.settle_kept
    | with_reducible apply State.trap_kept
    | with_reducible apply State.inject_kept
    | with_reducible apply State.recordCheck_kept
    | with_reducible apply State.undoBytes_kept
    | with_reducible apply finishEntry_kept
    | with_reducible refine Kept.foldl ?_ ?_
    | with_reducible refine Kept.foldlFst ?_ ?_
    | with_reducible refine KeptOut.ite ?_ ?_
    | with_reducible refine Kept.ite ?_ ?_
    | split
    | with_reducible refine Kept.fst (by assumption) ?_
    | with_reducible refine Kept.trd (by assumption) ?_
    | with_reducible refine Kept.snd (by assumption) ?_
    | with_reducible refine Kept.parts ?_
    | (with_reducible refine Kept.lit ?_; dsimp only; first | with_reducible refine Kept.parts ?_ | with_reducible refine KeptParts.empty (Kept.parts ?_))
    | (intro _; try dsimp only))

theorem execDeadlockDetect_kept {qq : List Instr} {n} {s : State} (hk : Kept qq s) :
    KeptOut qq (execDeadlockDetect n s) := by
  unfold execDeadlockDetect
  try dsimp only
  repeat' (first
    | with_reducible assumption
    | with_reducible refine KeptOut.next ?_
    | with_reducible apply State.trap_kept
    | with_reducible refine KeptOut.ite ?_ ?_
    | split)

theorem execWaitTimeoutExpiry_kept {qq : List Instr} {s : State} {n} (hk : Kept qq s) :
    KeptOut qq (execWaitTimeoutExpiry n s) := by
  unfold execWaitTimeoutExpiry
  try dsimp only
  repeat' (first
    | with_reducible assumption
    | with_reducible refine KeptOut.next ?_
    | with_reducible apply State.trap_kept
    | with_reducible refine KeptOut.ite ?_ ?_
    | with_reducible refine Kept.ite ?_ ?_
    | split
    | with_reducible refine Kept.fst (by assumption) ?_
    | with_reducible refine Kept.trd (by assumption) ?_
    | with_reducible refine Kept.snd (by assumption) ?_
    | (intro _; try dsimp only))

end Sys2Proof.Machine
end

