-- ==== Sys2Proof/Laws/KeptMove.lean ====
section
/-! SUPPORT. Operations and meanings of Machine/Move keep the canonical form of memory and leave the waiting commands alone. -/

namespace Sys2Proof.Machine

/-- The state in a result of a memory-side unit keeps it. -/
def AtomicKept (qq : List Instr) : AtomicResult → Prop
  | .applied s _ => Kept qq s
  | .refused s => Kept qq s
  | .lasting s _ => Kept qq s
  | .unread s _ _ => Kept qq s

theorem AtomicKept.applied {qq : List Instr} {r : AtomicResult} {s : State} {v : Nat} (e : r = .applied s v) : AtomicKept qq r → Kept qq s := by
  simp [e, AtomicKept]

theorem AtomicKept.refused {qq : List Instr} {r : AtomicResult} {s : State} (e : r = .refused s) : AtomicKept qq r → Kept qq s := by
  simp [e, AtomicKept]

theorem AtomicKept.lasting {qq : List Instr} {r : AtomicResult} {s : State} {w : Word} (e : r = .lasting s w) : AtomicKept qq r → Kept qq s := by
  simp [e, AtomicKept]

theorem AtomicKept.unread {qq : List Instr} {r : AtomicResult} {s : State} {a k : Nat} (e : r = .unread s a k) : AtomicKept qq r → Kept qq s := by
  simp [e, AtomicKept]

theorem AtomicKept.appliedFst {β : Type} {qq : List Instr} {p : AtomicResult × β} {s : State} {v : Nat} {b : β} (e : p = (.applied s v, b)) :
    AtomicKept qq p.1 → Kept qq s := by
  simp [e, AtomicKept]

theorem AtomicKept.refusedFst {β : Type} {qq : List Instr} {p : AtomicResult × β} {s : State} {b : β} (e : p = (.refused s, b)) :
    AtomicKept qq p.1 → Kept qq s := by
  simp [e, AtomicKept]

theorem AtomicKept.lastingFst {β : Type} {qq : List Instr} {p : AtomicResult × β} {s : State} {w : Word} {b : β} (e : p = (.lasting s w, b)) :
    AtomicKept qq p.1 → Kept qq s := by
  simp [e, AtomicKept]

theorem AtomicKept.unreadFst {β : Type} {qq : List Instr} {p : AtomicResult × β} {s : State} {a k : Nat} {b : β} (e : p = (.unread s a k, b)) :
    AtomicKept qq p.1 → Kept qq s := by
  simp [e, AtomicKept]

theorem State.markExecuted_kept {qq : List Instr} {s : State} {n} {q} {e} {flags} {undo} (hk : Kept qq s) :
    Kept qq (State.markExecuted s n q e flags undo) := by
  unfold State.markExecuted
  try dsimp only
  repeat' (first
    | with_reducible assumption
    | with_reducible apply State.modCore_kept
    | with_reducible refine Kept.parts ?_
    | (with_reducible refine Kept.lit ?_; dsimp only; first | with_reducible refine Kept.parts ?_ | with_reducible refine KeptParts.empty (Kept.parts ?_))
    | (intro _; try dsimp only))

theorem State.raceBefore_kept {qq : List Instr} {s : State} {n} {q} {e} (hk : Kept qq s) :
    Kept qq (State.raceBefore s n q e) := by
  unfold State.raceBefore
  try dsimp only
  repeat' (first
    | with_reducible assumption
    | with_reducible apply State.freeOverlap_kept
    | with_reducible refine Kept.ite ?_ ?_
    | split
    | (intro _; try dsimp only))

theorem State.raceAfter_kept {qq : List Instr} {s : State} {n} {q} {e} (hk : Kept qq s) :
    Kept qq (State.raceAfter s n q e) := by
  unfold State.raceAfter
  try dsimp only
  repeat' (first
    | with_reducible assumption
    | with_reducible apply State.freeOverlap_kept
    | with_reducible refine Kept.ite ?_ ?_
    | split
    | (intro _; try dsimp only))

theorem runEngine_kept {qq : List Instr} {s : State} {n : Fin 32} {qu : QueueId} {cls op : Nat} {effect : State → Entry → State × NumFlags}
    (hk : Kept qq s) (hb : ∀ s e, Kept qq s → Kept qq (effect s e).1) : KeptOut qq (runEngine s n qu cls op effect) := by
  unfold runEngine
  split
  · exact KeptOut.next hk
  · split
    · exact KeptOut.next (State.markExecuted_kept hk)
    · exact KeptOut.next (State.markExecuted_kept (State.raceAfter_kept (hb _ _ (State.raceBefore_kept hk))))

theorem State.putValues_kept {qq : List Instr} {s : State} {d} {f} (hk : Kept qq s) :
    Kept qq (State.putValues s d f).1 := by
  unfold State.putValues
  try dsimp only
  repeat' (first
    | with_reducible assumption
    | with_reducible apply State.putTensor_kept
    | with_reducible refine Kept.foldl (fun _ _ _ => ?_) ?_
    | (intro _; try dsimp only))

theorem copyEffect_kept {qq : List Instr} {s : State} {dd} {ds} (hk : Kept qq s) :
    Kept qq (copyEffect s dd ds) := by
  unfold copyEffect
  try dsimp only
  repeat' (first
    | with_reducible assumption
    | with_reducible apply State.putTensor_kept
    | (intro _; try dsimp only))

theorem execMvCopy_kept {qq : List Instr} {s : State} {n} (hk : Kept qq s) :
    KeptOut qq (execMvCopy n s) := by
  unfold execMvCopy
  try dsimp only
  repeat' (first
    | with_reducible assumption
    | with_reducible refine KeptOut.next ?_
    | with_reducible apply State.putTensor_kept
    | with_reducible apply State.freeOverlap_kept
    | with_reducible apply runEngine_kept
    | with_reducible apply copyEffect_kept
    | with_reducible refine KeptOut.ite ?_ ?_
    | with_reducible refine Kept.ite ?_ ?_
    | split
    | (intro _; try dsimp only))

theorem execMvCvt_kept {qq : List Instr} {s : State} {n} (hk : Kept qq s) :
    KeptOut qq (execMvCvt n s) := by
  unfold execMvCvt
  try dsimp only
  repeat' (first
    | with_reducible assumption
    | with_reducible refine KeptOut.next ?_
    | with_reducible apply State.freeOverlap_kept
    | with_reducible apply runEngine_kept
    | with_reducible apply State.putValues_kept
    | with_reducible refine Kept.fst (by assumption) ?_
    | with_reducible refine Kept.trd (by assumption) ?_
    | with_reducible refine Kept.snd (by assumption) ?_
    | (intro _; try dsimp only))

theorem execMvFill_kept {qq : List Instr} {s : State} {n} (hk : Kept qq s) :
    KeptOut qq (execMvFill n s) := by
  unfold execMvFill
  try dsimp only
  repeat' (first
    | with_reducible assumption
    | with_reducible refine KeptOut.next ?_
    | with_reducible apply State.putTensor_kept
    | with_reducible apply runEngine_kept
    | (intro _; try dsimp only))

theorem execMvBcast_kept {qq : List Instr} {s : State} {n} (hk : Kept qq s) :
    KeptOut qq (execMvBcast n s) := by
  unfold execMvBcast
  try dsimp only
  repeat' (first
    | with_reducible assumption
    | with_reducible refine KeptOut.next ?_
    | with_reducible apply State.putTensor_kept
    | with_reducible apply State.freeOverlap_kept
    | with_reducible apply runEngine_kept
    | with_reducible refine Kept.foldl ?_ ?_
    | with_reducible refine Kept.foldlFst ?_ ?_
    | (intro _; try dsimp only))

theorem State.refuseAtomic_kept {qq : List Instr} {s : State} {job} {k} {c} (hk : Kept qq s) :
    Kept qq (State.refuseAtomic s job k c) := by
  unfold State.refuseAtomic
  try dsimp only
  repeat' (first
    | with_reducible assumption
    | with_reducible apply State.askHalt_kept
    | with_reducible apply State.raiseJob_kept)

theorem State.fenceAdder_kept {qq : List Instr} {s : State} {k} {c} (hk : Kept qq s) :
    Kept qq (State.fenceAdder s k c) := by
  unfold State.fenceAdder
  try dsimp only
  repeat' (first
    | with_reducible assumption
    | with_reducible apply State.markChannel_kept
    | with_reducible apply State.setBit_kept)

theorem atomicAt_kept {qq : List Instr} {s : State} {core : Option Nat} {job : Word} {cls : Nat} {pc : BitVec 48} {f : Fmt} {op : Nat}
    {l : List (Nat × Nat)} {expected : Nat} {k : CheckOutcome} {err : MemErr} {named : Nat} (hk : Kept qq s) :
    AtomicKept qq (atomicAt s core job cls pc f op l expected k err named) := by
  have write : ∀ t : State, Kept qq t → Kept qq (l.foldl (fun (t : State) p =>
      t.writeNat p.1 (fmtBits f / 8) (amoElement f op (t.readNat p.1 (fmtBits f / 8)) p.2 expected)) t) :=
    fun t h => Kept.foldl (fun t p h => State.writeNat_kept h) h
  have main : ∀ (k : CheckOutcome) (dr : Bool) (t : State) (st ch : Nat), Kept qq t → AtomicKept qq (match k with
      | .lasting => .lasting ((t.recordCheck (adderEvent t core named st ch 1 cls pc job dr)).fenceAdder st ch) (adderLoc named st ch)
      | _ =>
        let u := if k = .transient then t.recordCheck (adderEvent t core named st ch 0 cls pc job dr) else t
        .applied (l.foldl (fun (t : State) p =>
          t.writeNat p.1 (fmtBits f / 8) (amoElement f op (t.readNat p.1 (fmtBits f / 8)) p.2 expected)) u)
          (u.readNat (l.head?.getD (0, 0)).1 (fmtBits f / 8))) := by
    intro k dr t st ch ht
    cases k with
    | ok => exact write t ht
    | transient => exact write _ (Kept.ite (State.recordCheck_kept ht) ht)
    | lasting => exact State.fenceAdder_kept (State.recordCheck_kept ht)
  unfold atomicAt
  dsimp only
  split
  · exact hk
  · split
    · exact State.refuseAtomic_kept hk
    · have hr : Kept qq (s.readCheck err (l.map (fun p => (p.1, fmtBits f / 8)))).1 := State.readCheck_kept hk
      split
      · exact Kept.fst (by assumption) hr
      · have hs := Kept.fst (by assumption) hr
        cases core with
        | none => exact main k false _ _ _ hs
        | some n => exact main _ _ _ _ _ (State.inject_kept hs)

theorem redLine_kept {qq : List Instr} {s : State} {n : Fin 32} {e : Entry} {line : Nat} {k : CheckOutcome} {err : MemErr} (hk : Kept qq s) :
    AtomicKept qq (redLine s n e line k err).1 := by
  unfold redLine
  dsimp only
  exact atomicAt_kept hk

theorem State.putMove_kept {qq : List Instr} {s : State} {n} {e} (hk : Kept qq s) :
    Kept qq (State.putMove s n e) := by
  unfold State.putMove
  try dsimp only
  repeat' (first
    | with_reducible assumption
    | with_reducible apply State.modCore_kept
    | (intro _; try dsimp only))

theorem State.atomicUnread_kept {qq : List Instr} {s : State} {n} {addr} {stack} (hk : Kept qq s) :
    Kept qq (State.atomicUnread s n addr stack) := by
  unfold State.atomicUnread
  try dsimp only
  repeat' (first
    | with_reducible assumption
    | with_reducible apply State.askHalt_kept
    | (intro _; try dsimp only))

theorem redApply_kept {qq : List Instr} {n : Fin 32} {l : List Nat} :
    ∀ {s : State} {e : Entry}, Kept qq s → Kept qq (redApply n s e l).1 := by
  induction l with
  | nil => intro s e hk; exact hk
  | cons line t ih =>
    intro s e hk
    have ha : AtomicKept qq (redLine s n e line .ok .none).1 := redLine_kept hk
    unfold redApply
    revert ha
    generalize redLine s n e line .ok .none = p
    obtain ⟨r, e'⟩ := p
    intro ha
    cases r with
    | applied s' v => exact ih ha
    | refused s' => exact ha
    | lasting s' w => exact ha
    | unread s' a k => exact State.atomicUnread_kept ha

theorem execMvRed_kept {qq : List Instr} {s : State} {n} (hk : Kept qq s) :
    KeptOut qq (execMvRed n s) := by
  unfold execMvRed
  try dsimp only
  repeat' (first
    | with_reducible assumption
    | with_reducible refine KeptOut.next ?_
    | with_reducible apply State.freeOverlap_kept
    | with_reducible apply State.markExecuted_kept
    | with_reducible apply State.putMove_kept
    | with_reducible apply redApply_kept
    | with_reducible refine AtomicKept.applied (by assumption) ?_
    | with_reducible refine AtomicKept.appliedFst (by assumption) ?_
    | with_reducible refine AtomicKept.refused (by assumption) ?_
    | with_reducible refine AtomicKept.refusedFst (by assumption) ?_
    | with_reducible refine AtomicKept.lasting (by assumption) ?_
    | with_reducible refine AtomicKept.lastingFst (by assumption) ?_
    | with_reducible refine AtomicKept.unread (by assumption) ?_
    | with_reducible refine AtomicKept.unreadFst (by assumption) ?_
    | with_reducible refine KeptOut.ite ?_ ?_
    | with_reducible refine Kept.ite ?_ ?_
    | split
    | with_reducible refine Kept.fst (by assumption) ?_
    | with_reducible refine Kept.trd (by assumption) ?_
    | with_reducible refine Kept.snd (by assumption) ?_
    | with_reducible refine Kept.parts ?_
    | (with_reducible refine Kept.lit ?_; dsimp only; first | with_reducible refine Kept.parts ?_ | with_reducible refine KeptParts.empty (Kept.parts ?_))
    | (intro _; try dsimp only))

theorem execAtomicOperation_kept {qq : List Instr} {s : State} {src} {k} {err} (hk : Kept qq s) :
    KeptOut qq (execAtomicOperation src k err s) := by
  unfold execAtomicOperation
  try dsimp only
  repeat' (first
    | with_reducible assumption
    | with_reducible refine KeptOut.next ?_
    | with_reducible exact KeptOut.refused
    | with_reducible apply State.modCore_kept
    | with_reducible apply State.settle_kept
    | with_reducible apply State.trap_kept
    | with_reducible apply atomicAt_kept
    | with_reducible apply redLine_kept
    | with_reducible apply State.putMove_kept
    | with_reducible apply State.atomicUnread_kept
    | with_reducible refine AtomicKept.applied (by assumption) ?_
    | with_reducible refine AtomicKept.appliedFst (by assumption) ?_
    | with_reducible refine AtomicKept.refused (by assumption) ?_
    | with_reducible refine AtomicKept.refusedFst (by assumption) ?_
    | with_reducible refine AtomicKept.lasting (by assumption) ?_
    | with_reducible refine AtomicKept.lastingFst (by assumption) ?_
    | with_reducible refine AtomicKept.unread (by assumption) ?_
    | with_reducible refine AtomicKept.unreadFst (by assumption) ?_
    | with_reducible refine KeptOut.ite ?_ ?_
    | with_reducible refine Kept.ite ?_ ?_
    | split
    | with_reducible refine Kept.fst (by assumption) ?_
    | with_reducible refine Kept.trd (by assumption) ?_
    | with_reducible refine Kept.snd (by assumption) ?_
    | with_reducible refine Kept.parts ?_
    | (with_reducible refine Kept.lit ?_; dsimp only; first | with_reducible refine Kept.parts ?_ | with_reducible refine KeptParts.empty (Kept.parts ?_))
    | (intro _; try dsimp only))

end Sys2Proof.Machine
end

