-- ==== Sys2Proof/Laws/KeptMessages.lean ====
section
/-! SUPPORT. Operations and meanings of Machine/Messages keep the canonical form of memory and leave the waiting commands alone. -/

namespace Sys2Proof.Machine

/-- The state in what carrying out a message comes to keeps it. -/
def ExecutedKept (qq : List Instr) : Executed → Prop
  | .done s _ => Kept qq s
  | .failed s _ => Kept qq s
  | .lasting s _ => Kept qq s
  | .wait => True

theorem ExecutedKept.done {qq : List Instr} {e : Executed} {s : State} {r : Reply} (x : e = .done s r) : ExecutedKept qq e → Kept qq s := by
  simp [x, ExecutedKept]

theorem ExecutedKept.failed {qq : List Instr} {e : Executed} {s : State} {r : Nat} (x : e = .failed s r) : ExecutedKept qq e → Kept qq s := by
  simp [x, ExecutedKept]

theorem ExecutedKept.lasting {qq : List Instr} {e : Executed} {s : State} {r : Word} (x : e = .lasting s r) : ExecutedKept qq e → Kept qq s := by
  simp [x, ExecutedKept]

theorem ExecutedKept.ofDone {qq : List Instr} {s : State} {r : Reply} (h : Kept qq s) : ExecutedKept qq (.done s r) := h

theorem ExecutedKept.ofFailed {qq : List Instr} {s : State} {r : Nat} (h : Kept qq s) : ExecutedKept qq (.failed s r) := h

theorem ExecutedKept.ofLasting {qq : List Instr} {s : State} {r : Word} (h : Kept qq s) : ExecutedKept qq (.lasting s r) := h

theorem ExecutedKept.ofWait {qq : List Instr} : ExecutedKept qq .wait := trivial

theorem ExecutedKept.ite {qq : List Instr} {c : Prop} [Decidable c] {a b : Executed} (ha : ExecutedKept qq a) (hb : ExecutedKept qq b) :
    ExecutedKept qq (if c then a else b) := if h : c then (if_pos h).symm ▸ ha else (if_neg h).symm ▸ hb

theorem State.putData_kept {qq : List Instr} {s : State} {d} {data} (hk : Kept qq s) :
    Kept qq (State.putData s d data) := by
  unfold State.putData
  try dsimp only
  repeat' (first
    | with_reducible assumption
    | with_reducible apply State.putTensor_kept
    | split
    | (intro _; try dsimp only))

theorem State.messageFails_kept {qq : List Instr} {s : State} {m} {status} (hk : Kept qq s) :
    Kept qq (State.messageFails s m status) := by
  unfold State.messageFails
  try dsimp only
  repeat' (first
    | with_reducible assumption
    | with_reducible apply State.setReg_kept
    | with_reducible apply State.bump_kept
    | with_reducible apply State.raiseJob_kept
    | with_reducible apply State.askHalt_kept
    | with_reducible refine Kept.ite ?_ ?_
    | split
    | with_reducible refine Kept.fst (by assumption) ?_
    | with_reducible refine Kept.trd (by assumption) ?_
    | with_reducible refine Kept.snd (by assumption) ?_
    | with_reducible refine Kept.parts ?_
    | (with_reducible refine Kept.lit ?_; dsimp only; first | with_reducible refine Kept.parts ?_ | with_reducible refine KeptParts.filter (Kept.parts ?_))
    | (intro _; try dsimp only))

theorem State.crossMesh_kept {qq : List Instr} {s : State} {m} {path} (hk : Kept qq s) :
    Kept qq (State.crossMesh s m path) := by
  unfold State.crossMesh
  try dsimp only
  repeat' (first
    | with_reducible assumption
    | with_reducible apply State.modCore_kept
    | with_reducible refine Kept.ite ?_ ?_
    | split
    | with_reducible refine Kept.parts ?_
    | (with_reducible refine Kept.lit ?_; dsimp only; first | with_reducible refine Kept.parts ?_ | with_reducible refine KeptParts.empty (Kept.parts ?_))
    | (intro _; try dsimp only))

theorem State.transmit_kept {qq : List Instr} {s : State} {m} {path} (hk : Kept qq s) :
    Kept qq (State.transmit s m path) := by
  unfold State.transmit
  try dsimp only
  repeat' (first
    | with_reducible assumption
    | with_reducible apply State.emit_kept
    | with_reducible apply State.enqueue_kept
    | with_reducible apply State.crossMesh_kept
    | (intro _; try dsimp only))

theorem State.putOut_kept {qq : List Instr} {s : State} {m} (hk : Kept qq s) :
    Kept qq (State.putOut s m) := by
  unfold State.putOut
  try dsimp only
  repeat' (first
    | with_reducible assumption
    | with_reducible refine Kept.ite ?_ ?_
    | split
    | with_reducible refine Kept.parts ?_
    | (with_reducible refine Kept.lit ?_; dsimp only; with_reducible refine Kept.parts ?_)
    | (intro _; try dsimp only))

theorem State.launch_kept {qq : List Instr} {s : State} {m} (hk : Kept qq s) :
    Kept qq (State.launch s m) := by
  unfold State.launch
  try dsimp only
  repeat' (first
    | with_reducible assumption
    | with_reducible apply State.raise_kept
    | with_reducible apply State.transmit_kept
    | with_reducible apply State.putOut_kept
    | with_reducible refine Kept.ite ?_ ?_
    | split
    | with_reducible refine Kept.fst (by assumption) ?_
    | with_reducible refine Kept.trd (by assumption) ?_
    | with_reducible refine Kept.snd (by assumption) ?_
    | with_reducible refine Kept.parts ?_
    | (with_reducible refine Kept.lit ?_; dsimp only; first | with_reducible refine Kept.parts ?_ | with_reducible refine KeptParts.empty (Kept.parts ?_))
    | (intro _; try dsimp only))

theorem State.takeMsgid_kept {qq : List Instr} {s : State} {key} (hk : Kept qq s) :
    Kept qq (State.takeMsgid s key).2 := by
  unfold State.takeMsgid
  try dsimp only
  repeat' (first
    | with_reducible assumption
    | with_reducible apply State.drew_kept
    | with_reducible refine Kept.ite ?_ ?_
    | split
    | with_reducible refine Kept.fst (by assumption) ?_
    | with_reducible refine Kept.trd (by assumption) ?_
    | with_reducible refine Kept.snd (by assumption) ?_
    | with_reducible refine Kept.parts ?_
    | (with_reducible refine Kept.lit ?_; dsimp only; with_reducible refine Kept.parts ?_)
    | (intro _; try dsimp only))

theorem State.newMessage_kept {qq : List Instr} {s : State} {m} (hk : Kept qq s) :
    Kept qq (State.newMessage s m).2 := by
  unfold State.newMessage
  try dsimp only
  repeat' (first
    | with_reducible assumption
    | with_reducible apply State.takeMsgid_kept
    | split
    | with_reducible refine Kept.fst (by assumption) ?_
    | with_reducible refine Kept.trd (by assumption) ?_
    | with_reducible refine Kept.snd (by assumption) ?_
    | with_reducible refine Kept.parts ?_
    | (with_reducible refine Kept.lit ?_; dsimp only; with_reducible refine Kept.parts ?_)
    | (intro _; try dsimp only))

theorem State.sendReply_kept {qq : List Instr} {s : State} {h} {r} (hk : Kept qq s) :
    Kept qq (State.sendReply s h r) := by
  unfold State.sendReply
  try dsimp only
  repeat' (first
    | with_reducible assumption
    | with_reducible apply State.enqueue_kept
    | with_reducible refine Kept.ite ?_ ?_
    | split
    | with_reducible refine Kept.fst (by assumption) ?_
    | with_reducible refine Kept.trd (by assumption) ?_
    | with_reducible refine Kept.snd (by assumption) ?_
    | with_reducible refine Kept.parts ?_
    | (with_reducible refine Kept.lit ?_; dsimp only; first | with_reducible refine Kept.parts ?_ | with_reducible refine KeptParts.empty (Kept.parts ?_))
    | (intro _; try dsimp only))

theorem State.answer_kept {qq : List Instr} {s : State} {h} {r} (hk : Kept qq s) :
    Kept qq (State.answer s h r) := by
  unfold State.answer
  try dsimp only
  repeat' (first
    | with_reducible assumption
    | with_reducible apply State.emit_kept
    | with_reducible apply State.sendReply_kept
    | (intro _; try dsimp only))

theorem State.sendHeldReplies_kept {qq : List Instr} {s : State}  (hk : Kept qq s) :
    Kept qq (State.sendHeldReplies s) := by
  unfold State.sendHeldReplies
  try dsimp only
  repeat' (first
    | with_reducible assumption
    | with_reducible apply State.sendReply_kept
    | with_reducible refine Kept.foldl ?_ ?_
    | with_reducible refine Kept.foldlFst ?_ ?_
    | with_reducible refine Kept.parts ?_
    | (with_reducible refine Kept.lit ?_; dsimp only; first | with_reducible refine Kept.parts ?_ | with_reducible refine KeptParts.empty (Kept.parts ?_))
    | (intro _; try dsimp only))

theorem State.putStream_kept {qq : List Instr} {s : State} {x} (hk : Kept qq s) :
    Kept qq (State.putStream s x) := by
  unfold State.putStream
  try dsimp only
  repeat' (first
    | with_reducible assumption
    | with_reducible refine Kept.parts ?_
    | (with_reducible refine Kept.lit ?_; dsimp only; first | with_reducible refine Kept.parts ?_ | with_reducible refine KeptParts.filter (Kept.parts ?_))
    | (intro _; try dsimp only))

theorem receiveMessage_kept {qq : List Instr} {s : State} {h : Msg} {crc : Word} {again : State → InStream → State} {effect : State → Executed}
    {hold : State → State} (hk : Kept qq s) (ha : ∀ s x, Kept qq s → Kept qq (again s x)) (he : ∀ s, Kept qq s → ExecutedKept qq (effect s))
    (hh : ∀ s, Kept qq s → Kept qq (hold s)) : Kept qq (receiveMessage s h crc again effect hold) := by
  have hs : ∀ x : InStream, Kept qq (s.putStream x) := fun x => State.putStream_kept hk
  have hx := he s hk
  unfold receiveMessage
  dsimp only
  repeat' (first
    | with_reducible assumption
    | with_reducible exact hs _
    | with_reducible exact hh _ hk
    | with_reducible exact State.answer_kept (ExecutedKept.done (by assumption) hx)
    | with_reducible exact State.answer_kept (ExecutedKept.failed (by assumption) hx)
    | with_reducible exact State.answer_kept (ExecutedKept.lasting (by assumption) hx)
    | with_reducible exact State.answer_kept (State.putStream_kept (ExecutedKept.done (by assumption) hx))
    | with_reducible exact ha _ _ (hs _)
    | with_reducible apply State.answer_kept
    | split)

theorem againAck_kept {qq : List Instr} {h : Msg} {s : State} {x : InStream} (hk : Kept qq s) : Kept qq (againAck h s x) := State.answer_kept hk

theorem putEffect_kept {qq : List Instr} {s : State} {h} {d} {data} (hk : Kept qq s) :
    ExecutedKept qq (putEffect h d data s) := by
  unfold putEffect
  try dsimp only
  repeat' (first
    | with_reducible assumption
    | with_reducible apply State.touchStaging_kept
    | with_reducible apply State.putData_kept
    | with_reducible apply ExecutedKept.ofDone
    | with_reducible apply ExecutedKept.ofFailed
    | with_reducible apply ExecutedKept.ofLasting
    | with_reducible exact ExecutedKept.ofWait
    | with_reducible refine ExecutedKept.ite ?_ ?_
    | with_reducible refine Kept.ite ?_ ?_
    | split
    | with_reducible refine Kept.fst (by assumption) ?_
    | with_reducible refine Kept.trd (by assumption) ?_
    | with_reducible refine Kept.snd (by assumption) ?_
    | (intro _; try dsimp only))

theorem State.messageHalt_kept {qq : List Instr} {s : State} {job : Word} {a : Nat} (hk : Kept qq s) : Kept qq (s.messageHalt job a) :=
  State.askHalt_kept hk

theorem getEffect_kept {qq : List Instr} {s : State} {h} {d} {err} (hk : Kept qq s) :
    ExecutedKept qq (getEffect h d err s) := by
  unfold getEffect
  try dsimp only
  repeat' (first
    | with_reducible assumption
    | with_reducible apply State.readCheck_kept
    | with_reducible apply State.touchStaging_kept
    | with_reducible apply State.messageHalt_kept
    | with_reducible apply ExecutedKept.ofDone
    | with_reducible apply ExecutedKept.ofFailed
    | with_reducible apply ExecutedKept.ofLasting
    | with_reducible exact ExecutedKept.ofWait
    | with_reducible refine ExecutedKept.ite ?_ ?_
    | with_reducible refine Kept.ite ?_ ?_
    | split
    | with_reducible refine Kept.fst (by assumption) ?_
    | with_reducible refine Kept.trd (by assumption) ?_
    | with_reducible refine Kept.snd (by assumption) ?_
    | (intro _; try dsimp only))

theorem amoEffect_kept {qq : List Instr} {s : State} {h} {d} {op} {operand} {expected} {k} {err} (hk : Kept qq s) :
    ExecutedKept qq (amoEffect h d op operand expected k err s) := by
  unfold amoEffect
  try dsimp only
  repeat' (first
    | with_reducible assumption
    | with_reducible apply atomicAt_kept
    | with_reducible apply State.messageHalt_kept
    | with_reducible refine AtomicKept.applied (by assumption) ?_
    | with_reducible refine AtomicKept.appliedFst (by assumption) ?_
    | with_reducible refine AtomicKept.refused (by assumption) ?_
    | with_reducible refine AtomicKept.refusedFst (by assumption) ?_
    | with_reducible refine AtomicKept.lasting (by assumption) ?_
    | with_reducible refine AtomicKept.lastingFst (by assumption) ?_
    | with_reducible refine AtomicKept.unread (by assumption) ?_
    | with_reducible refine AtomicKept.unreadFst (by assumption) ?_
    | with_reducible apply ExecutedKept.ofDone
    | with_reducible apply ExecutedKept.ofFailed
    | with_reducible apply ExecutedKept.ofLasting
    | with_reducible exact ExecutedKept.ofWait
    | with_reducible refine ExecutedKept.ite ?_ ?_
    | with_reducible refine Kept.ite ?_ ?_
    | split
    | with_reducible refine Kept.fst (by assumption) ?_
    | with_reducible refine Kept.trd (by assumption) ?_
    | with_reducible refine Kept.snd (by assumption) ?_
    | (intro _; try dsimp only))

theorem sendEffect_kept {qq : List Instr} {h : Msg} {ring : Nat} {data : List Byte} {err : MemErr} {s : State} (hk : Kept qq s) :
    ExecutedKept qq (sendEffect h ring data err s) := by
  unfold sendEffect
  split
  · exact ExecutedKept.ofFailed hk
  · next r _ =>
    have hr : Kept qq (s.readCheck err [(r.base, 16)]).1 := State.readCheck_kept hk
    split
    · exact ExecutedKept.ofFailed (State.messageHalt_kept (Kept.fst (by assumption) hr))
    · have hs := Kept.fst (by assumption) hr
      dsimp only
      with_reducible refine ExecutedKept.ite (ExecutedKept.ofFailed hs) ?_
      with_reducible refine ExecutedKept.ite (ExecutedKept.ofFailed hs) ?_
      generalize hx : State.writeNat _ _ 8 _ = t
      have ht : Kept qq t := hx ▸ State.writeNat_kept (State.writeBytes_kept hs)
      clear hx
      split
      · refine ExecutedKept.ofDone ?_
        split
        · exact State.signalCross_kept ht
        · exact ht
      · exact ExecutedKept.ofDone ht

theorem signalEffect_kept {qq : List Instr} {h} {addr} {inc} {s : State} (hk : Kept qq s) :
    ExecutedKept qq (signalEffect h addr inc s) := by
  unfold signalEffect
  try dsimp only
  repeat' (first
    | with_reducible assumption
    | with_reducible apply State.signalCross_kept
    | with_reducible refine ExecutedKept.ofDone ?_
    | with_reducible refine ExecutedKept.ofFailed ?_
    | with_reducible exact ExecutedKept.ofWait
    | with_reducible refine ExecutedKept.ite ?_ ?_
    | split
    | with_reducible refine Kept.fst (by assumption) ?_
    | with_reducible refine Kept.trd (by assumption) ?_
    | with_reducible refine Kept.snd (by assumption) ?_
    | with_reducible refine Kept.parts ?_
    | (with_reducible refine Kept.lit ?_; dsimp only; with_reducible refine Kept.parts ?_)
    | (intro _; try dsimp only))

theorem State.holdPut_kept {qq : List Instr} {s : State} {h} {desc} {data} (hk : Kept qq s) :
    Kept qq (State.holdPut s h desc data) := by
  unfold State.holdPut
  try dsimp only
  repeat' (first
    | with_reducible assumption
    | with_reducible refine Kept.ite ?_ ?_
    | split
    | with_reducible refine Kept.parts ?_
    | (with_reducible refine Kept.lit ?_; dsimp only; first | with_reducible refine Kept.parts ?_ | with_reducible refine KeptParts.empty (Kept.parts ?_))
    | (intro _; try dsimp only))

theorem State.receivePut_kept {qq : List Instr} {s : State} {h : Msg} {desc : BitVec 256} {data : List Byte} (hk : Kept qq s) :
    Kept qq (State.receivePut s h desc data) :=
  receiveMessage_kept hk (fun _ _ h => againAck_kept h) (fun _ h => putEffect_kept h) (fun _ h => State.holdPut_kept h)

theorem State.releasePuts_kept {qq : List Instr} {s : State}  (hk : Kept qq s) :
    Kept qq (State.releasePuts s) := by
  unfold State.releasePuts
  try dsimp only
  repeat' (first
    | with_reducible assumption
    | with_reducible apply State.receivePut_kept
    | with_reducible refine Kept.foldl ?_ ?_
    | with_reducible refine Kept.foldlFst ?_ ?_
    | with_reducible refine Kept.parts ?_
    | (with_reducible refine Kept.lit ?_; dsimp only; first | with_reducible refine Kept.parts ?_ | with_reducible refine KeptParts.empty (Kept.parts ?_))
    | (intro _; try dsimp only))

theorem execPut_kept {qq : List Instr} {h : Msg} {desc : BitVec 256} {data : List Byte} {s : State} (hk : Kept qq s) :
    KeptOut qq (execPut h desc data s) := KeptOut.next (State.receivePut_kept hk)

theorem execGet_kept {qq : List Instr} {h : Msg} {desc : BitVec 256} {err : MemErr} {s : State} (hk : Kept qq s) :
    KeptOut qq (execGet h desc err s) := by
  refine KeptOut.next (receiveMessage_kept hk (fun t _ ht => ?_) (fun _ ht => getEffect_kept ht) (fun _ ht => ht))
  have hx : ExecutedKept qq (getEffect h desc err t) := getEffect_kept ht
  revert hx
  cases getEffect h desc err t with
  | done u r => exact State.answer_kept
  | failed u r => exact State.answer_kept
  | lasting u r => exact id
  | wait => exact fun _ => ht

theorem execAmo_kept {qq : List Instr} {h : Msg} {desc : BitVec 256} {aop : BitVec 3} {operand expected : Word} {k : CheckOutcome} {err : MemErr}
    {s : State} (hk : Kept qq s) : KeptOut qq (execAmo h desc aop operand expected k err s) := by
  refine KeptOut.next (receiveMessage_kept hk (fun t x ht => ?_) (fun _ ht => amoEffect_kept ht) (fun _ ht => ht))
  split
  · exact State.answer_kept ht
  · exact ht

theorem execSend_kept {qq : List Instr} {h : Msg} {ring : BitVec 4} {data : List Byte} {err : MemErr} {s : State} (hk : Kept qq s) :
    KeptOut qq (execSend h ring data err s) :=
  KeptOut.next (receiveMessage_kept hk (fun _ _ h => againAck_kept h) (fun _ h => sendEffect_kept h) (fun _ h => h))

theorem execSignal_kept {qq : List Instr} {h : Msg} {addr : BitVec 48} {inc : BitVec 32} {s : State} (hk : Kept qq s) :
    KeptOut qq (execSignal h addr inc s) :=
  KeptOut.next (receiveMessage_kept hk (fun _ _ h => againAck_kept h) (fun _ h => signalEffect_kept h) (fun _ h => h))

theorem State.noteCrcRetry_kept {qq : List Instr} {s : State} {m} {pc} (hk : Kept qq s) :
    Kept qq (State.noteCrcRetry s m pc) := by
  unfold State.noteCrcRetry
  try dsimp only
  repeat' (first
    | with_reducible assumption
    | with_reducible apply State.recordCheck_kept
    | with_reducible refine Kept.ite ?_ ?_
    | split
    | with_reducible refine Kept.parts ?_
    | (with_reducible refine Kept.lit ?_; dsimp only; first | with_reducible refine Kept.parts ?_ | with_reducible refine KeptParts.empty (Kept.parts ?_))
    | (intro _; try dsimp only))

theorem State.messageDone_kept {qq : List Instr} {s : State} {m} (hk : Kept qq s) :
    Kept qq (State.messageDone s m) := by
  unfold State.messageDone
  try dsimp only
  repeat' (first
    | with_reducible assumption
    | with_reducible apply State.noteCrcRetry_kept
    | with_reducible apply finishEntry_kept
    | with_reducible refine Kept.ite ?_ ?_
    | split
    | with_reducible refine Kept.fst (by assumption) ?_
    | with_reducible refine Kept.trd (by assumption) ?_
    | with_reducible refine Kept.snd (by assumption) ?_
    | with_reducible refine Kept.parts ?_
    | (with_reducible refine Kept.lit ?_; dsimp only; first | with_reducible refine Kept.parts ?_ | with_reducible refine KeptParts.filter (Kept.parts ?_))
    | (intro _; try dsimp only))

theorem State.messageTraps_kept {qq : List Instr} {s : State} {m} {loc} {pc} (hk : Kept qq s) :
    Kept qq (State.messageTraps s m loc pc) := by
  unfold State.messageTraps
  try dsimp only
  repeat' (first
    | with_reducible assumption
    | with_reducible apply State.modCore_kept
    | with_reducible apply State.settle_kept
    | with_reducible apply State.trap_kept
    | with_reducible refine Kept.ite ?_ ?_
    | split
    | (intro _; try dsimp only))

theorem State.waitOut_kept {qq : List Instr} {s : State} {m} (hk : Kept qq s) :
    Kept qq (State.waitOut s m) := by
  unfold State.waitOut
  try dsimp only
  repeat' (first
    | with_reducible assumption
    | with_reducible apply State.putOut_kept
    | with_reducible refine Kept.parts ?_
    | (with_reducible refine Kept.lit ?_; dsimp only; first | with_reducible refine Kept.parts ?_ | with_reducible refine KeptParts.empty (Kept.parts ?_))
    | (intro _; try dsimp only))

theorem State.loopback_kept {qq : List Instr} {s : State} {m} {k} {err} (hk : Kept qq s) :
    Kept qq (State.loopback s m k err) := by
  unfold State.loopback
  try dsimp only
  repeat' (first
    | with_reducible assumption
    | with_reducible apply State.putElem_kept
    | with_reducible apply State.putData_kept
    | with_reducible apply State.messageFails_kept
    | with_reducible apply putEffect_kept
    | with_reducible apply getEffect_kept
    | with_reducible apply amoEffect_kept
    | with_reducible apply sendEffect_kept
    | with_reducible apply signalEffect_kept
    | with_reducible apply State.messageDone_kept
    | with_reducible apply State.messageTraps_kept
    | with_reducible apply State.waitOut_kept
    | with_reducible refine ExecutedKept.done (by assumption) ?_
    | with_reducible refine ExecutedKept.failed (by assumption) ?_
    | with_reducible refine ExecutedKept.lasting (by assumption) ?_
    | with_reducible exact ExecutedKept.ofFailed (by assumption)
    | with_reducible refine ExecutedKept.ite ?_ ?_
    | with_reducible refine Kept.ite ?_ ?_
    | split
    | with_reducible refine Kept.fst (by assumption) ?_
    | with_reducible refine Kept.trd (by assumption) ?_
    | with_reducible refine Kept.snd (by assumption) ?_
    | with_reducible refine Kept.parts ?_
    | (with_reducible refine Kept.lit ?_; dsimp only; first | with_reducible refine Kept.parts ?_ | with_reducible refine KeptParts.empty (Kept.parts ?_))
    | (intro _; try dsimp only))

theorem State.startMessage_kept {qq : List Instr} {s : State} {k} {err} {m} (hk : Kept qq s) :
    Kept qq (State.startMessage s k err m) := by
  unfold State.startMessage
  try dsimp only
  repeat' (first
    | with_reducible assumption
    | with_reducible apply State.messageFails_kept
    | with_reducible apply State.launch_kept
    | with_reducible apply State.loopback_kept
    | with_reducible refine Kept.ite ?_ ?_
    | split
    | (intro _; try dsimp only))

theorem State.newMessages_kept {qq : List Instr} {l : List OutMsg} : ∀ {s : State}, Kept qq s → Kept qq (s.newMessages l).1 := by
  induction l with
  | nil => exact id
  | cons m t ih => exact fun hk => ih (State.newMessage_kept hk)

theorem runMessage_kept {qq : List Instr} {s : State} {n} {op} {mop} {k} {err} {data} {arg} (hk : Kept qq s) :
    KeptOut qq (runMessage n op mop s k err data arg) := by
  unfold runMessage
  try dsimp only
  repeat' (first
    | with_reducible assumption
    | with_reducible refine KeptOut.next ?_
    | with_reducible apply State.modCore_kept
    | with_reducible apply State.startMessage_kept
    | with_reducible apply State.newMessages_kept
    | with_reducible refine Kept.foldl ?_ ?_
    | with_reducible refine Kept.foldlFst ?_ ?_
    | with_reducible refine KeptOut.ite ?_ ?_
    | with_reducible refine Kept.ite ?_ ?_
    | split
    | with_reducible refine Kept.fst (by assumption) ?_
    | with_reducible refine Kept.trd (by assumption) ?_
    | with_reducible refine Kept.snd (by assumption) ?_
    | with_reducible refine Kept.parts ?_
    | (with_reducible refine Kept.lit ?_; dsimp only; first | with_reducible refine Kept.parts ?_ | with_reducible refine KeptParts.empty (Kept.parts ?_))
    | (intro _; try dsimp only))

theorem execCmPut_kept {qq : List Instr} {s : State} {n} (hk : Kept qq s) :
    KeptOut qq (execCmPut n s) := by
  unfold execCmPut
  try dsimp only
  repeat' (first
    | with_reducible assumption
    | with_reducible refine KeptOut.next ?_
    | with_reducible apply runMessage_kept
    | (intro _; try dsimp only))

theorem execCmGet_kept {qq : List Instr} {s : State} {n} {err} (hk : Kept qq s) :
    KeptOut qq (execCmGet n err s) := by
  unfold execCmGet
  try dsimp only
  repeat' (first
    | with_reducible assumption
    | with_reducible refine KeptOut.next ?_
    | with_reducible apply runMessage_kept
    | (intro _; try dsimp only))

theorem execCmAmo_kept {qq : List Instr} {s : State} {n} {k} {err} (hk : Kept qq s) :
    KeptOut qq (execCmAmo n k err s) := by
  unfold execCmAmo
  try dsimp only
  repeat' (first
    | with_reducible assumption
    | with_reducible refine KeptOut.next ?_
    | with_reducible apply runMessage_kept
    | (intro _; try dsimp only))

theorem execCmSend_kept {qq : List Instr} {s : State} {n} {err} (hk : Kept qq s) :
    KeptOut qq (execCmSend n err s) := by
  unfold execCmSend
  try dsimp only
  repeat' (first
    | with_reducible assumption
    | with_reducible refine KeptOut.next ?_
    | with_reducible apply runMessage_kept
    | (intro _; try dsimp only))

theorem execCmSignal_kept {qq : List Instr} {s : State} {n} (hk : Kept qq s) :
    KeptOut qq (execCmSignal n s) := by
  unfold execCmSignal
  try dsimp only
  repeat' (first
    | with_reducible assumption
    | with_reducible refine KeptOut.next ?_
    | with_reducible apply runMessage_kept
    | (intro _; try dsimp only))

theorem State.sendAgain_kept {qq : List Instr} {s : State} {m} (hk : Kept qq s) :
    Kept qq (State.sendAgain s m) := by
  unfold State.sendAgain
  try dsimp only
  repeat' (first
    | with_reducible assumption
    | with_reducible apply State.putOut_kept
    | with_reducible apply State.launch_kept
    | with_reducible apply State.loopback_kept
    | with_reducible refine Kept.ite ?_ ?_
    | split
    | with_reducible refine Kept.parts ?_
    | (with_reducible refine Kept.lit ?_; dsimp only; first | with_reducible refine Kept.parts ?_ | with_reducible refine KeptParts.empty (Kept.parts ?_))
    | (intro _; try dsimp only))

theorem State.crcLasting_kept {qq : List Instr} {s : State} {m} (hk : Kept qq s) :
    Kept qq (State.crcLasting s m) := by
  unfold State.crcLasting
  try dsimp only
  repeat' (first
    | with_reducible assumption
    | with_reducible apply State.recordCheck_kept
    | with_reducible apply State.messageFails_kept
    | with_reducible apply State.messageTraps_kept
    | with_reducible refine Kept.ite ?_ ?_
    | split
    | with_reducible refine Kept.fst (by assumption) ?_
    | with_reducible refine Kept.trd (by assumption) ?_
    | with_reducible refine Kept.snd (by assumption) ?_
    | with_reducible refine Kept.parts ?_
    | (with_reducible refine Kept.lit ?_; dsimp only; first | with_reducible refine Kept.parts ?_ | with_reducible refine KeptParts.empty (Kept.parts ?_))
    | (intro _; try dsimp only))

theorem State.crcFails_kept {qq : List Instr} {s : State} {m} {drill} (hk : Kept qq s) :
    Kept qq (State.crcFails s m drill) := by
  unfold State.crcFails
  try dsimp only
  repeat' (first
    | with_reducible assumption
    | with_reducible apply State.putOut_kept
    | with_reducible apply State.sendAgain_kept
    | with_reducible apply State.crcLasting_kept
    | with_reducible refine Kept.ite ?_ ?_
    | split
    | with_reducible refine Kept.parts ?_
    | (with_reducible refine Kept.lit ?_; dsimp only; first | with_reducible refine Kept.parts ?_ | with_reducible refine KeptParts.empty (Kept.parts ?_))
    | (intro _; try dsimp only))

theorem State.takeResponse_kept {qq : List Instr} {s : State} {dest : RespTo} {r : Reply} {crc : Word} {effect : OutMsg → State} (hk : Kept qq s)
    (hb : ∀ m, Kept qq (effect m)) : Kept qq (s.takeResponse dest r crc effect) := by
  unfold State.takeResponse
  split
  · exact hk
  · with_reducible refine Kept.ite (State.crcFails_kept hk) ?_
    with_reducible refine Kept.ite (State.crcFails_kept (State.drillFired_kept (State.drillDrop_kept hk))) (hb _)

theorem execGetData_kept {qq : List Instr} {s : State} {r} {data} {crc} (hk : Kept qq s) :
    KeptOut qq (execGetData r data crc s) := by
  unfold execGetData
  try dsimp only
  repeat' (first
    | with_reducible assumption
    | with_reducible refine KeptOut.next ?_
    | with_reducible apply State.putData_kept
    | with_reducible apply State.messageDone_kept
    | with_reducible apply State.takeResponse_kept
    | with_reducible refine KeptOut.ite ?_ ?_
    | with_reducible refine Kept.ite ?_ ?_
    | split
    | (intro _; try dsimp only))

theorem execAmoOld_kept {qq : List Instr} {s : State} {r} {old} {crc} (hk : Kept qq s) :
    KeptOut qq (execAmoOld r old crc s) := by
  unfold execAmoOld
  try dsimp only
  repeat' (first
    | with_reducible assumption
    | with_reducible refine KeptOut.next ?_
    | with_reducible apply State.putElem_kept
    | with_reducible apply State.messageDone_kept
    | with_reducible apply State.takeResponse_kept
    | with_reducible refine KeptOut.ite ?_ ?_
    | with_reducible refine Kept.ite ?_ ?_
    | split
    | (intro _; try dsimp only))

theorem execResend_kept {qq : List Instr} {s : State} {r} {expected} {failed} {crc} (hk : Kept qq s) :
    KeptOut qq (execResend r expected failed crc s) := by
  unfold execResend
  try dsimp only
  repeat' (first
    | with_reducible assumption
    | with_reducible refine KeptOut.next ?_
    | with_reducible apply State.sendAgain_kept
    | with_reducible apply State.crcFails_kept
    | with_reducible apply State.takeResponse_kept
    | with_reducible refine Kept.foldl ?_ ?_
    | with_reducible refine Kept.foldlFst ?_ ?_
    | with_reducible refine KeptOut.ite ?_ ?_
    | with_reducible refine Kept.ite ?_ ?_
    | split
    | (intro _; try dsimp only))

theorem execFail_kept {qq : List Instr} {s : State} {r} {status} {crc} (hk : Kept qq s) :
    KeptOut qq (execFail r status crc s) := by
  unfold execFail
  try dsimp only
  repeat' (first
    | with_reducible assumption
    | with_reducible refine KeptOut.next ?_
    | with_reducible apply State.messageFails_kept
    | with_reducible apply State.waitOut_kept
    | with_reducible apply State.takeResponse_kept
    | with_reducible refine KeptOut.ite ?_ ?_
    | with_reducible refine Kept.ite ?_ ?_
    | split
    | (intro _; try dsimp only))

theorem execResendHoldoffExpiry_kept {qq : List Instr} {s : State} {key} {half} (hk : Kept qq s) :
    KeptOut qq (execResendHoldoffExpiry key half s) := by
  unfold execResendHoldoffExpiry
  try dsimp only
  repeat' (first
    | with_reducible assumption
    | with_reducible refine KeptOut.next ?_
    | with_reducible refine KeptOut.ite ?_ ?_
    | with_reducible refine Kept.ite ?_ ?_
    | split
    | with_reducible refine Kept.parts ?_
    | (with_reducible refine Kept.lit ?_; dsimp only; first | with_reducible refine Kept.parts ?_ | with_reducible refine KeptParts.empty (Kept.parts ?_))
    | (intro _; try dsimp only))

theorem execMessageRetryTimer_kept {qq : List Instr} {s : State} {r} (hk : Kept qq s) :
    KeptOut qq (execMessageRetryTimer r s) := by
  unfold execMessageRetryTimer
  try dsimp only
  repeat' (first
    | with_reducible assumption
    | with_reducible refine KeptOut.next ?_
    | with_reducible apply State.sendAgain_kept
    | with_reducible refine KeptOut.ite ?_ ?_
    | with_reducible refine Kept.ite ?_ ?_
    | split
    | with_reducible refine Kept.fst (by assumption) ?_
    | with_reducible refine Kept.trd (by assumption) ?_
    | with_reducible refine Kept.snd (by assumption) ?_
    | (intro _; try dsimp only))

theorem execStreamRelease_kept {qq : List Instr} {s : State} {key} {half} (hk : Kept qq s) :
    KeptOut qq (execStreamRelease key half s) := by
  unfold execStreamRelease
  try dsimp only
  repeat' (first
    | with_reducible assumption
    | with_reducible refine KeptOut.next ?_
    | with_reducible refine Kept.parts ?_
    | (with_reducible refine Kept.lit ?_; dsimp only; first | with_reducible refine Kept.parts ?_ | with_reducible refine KeptParts.empty (Kept.parts ?_))
    | (intro _; try dsimp only))

theorem execMessageTimeout_kept {qq : List Instr} {s : State} {r} (hk : Kept qq s) :
    KeptOut qq (execMessageTimeout r s) := by
  unfold execMessageTimeout
  try dsimp only
  repeat' (first
    | with_reducible assumption
    | with_reducible refine KeptOut.next ?_
    | with_reducible apply State.messageFails_kept
    | with_reducible refine KeptOut.ite ?_ ?_
    | with_reducible refine Kept.ite ?_ ?_
    | split
    | with_reducible refine Kept.fst (by assumption) ?_
    | with_reducible refine Kept.trd (by assumption) ?_
    | with_reducible refine Kept.snd (by assumption) ?_
    | (intro _; try dsimp only))

theorem State.resendStreams_kept {qq : List Instr} {s : State} {keys} (hk : Kept qq s) :
    Kept qq (State.resendStreams s keys) := by
  unfold State.resendStreams
  try dsimp only
  repeat' (first
    | with_reducible assumption
    | with_reducible apply State.sendAgain_kept
    | with_reducible refine Kept.foldl (fun _ _ _ => ?_) ?_
    | split
    | with_reducible refine Kept.fst (by assumption) ?_
    | with_reducible refine Kept.trd (by assumption) ?_
    | with_reducible refine Kept.snd (by assumption) ?_
    | with_reducible refine Kept.parts ?_
    | (with_reducible refine Kept.lit ?_; dsimp only; with_reducible refine Kept.parts ?_)
    | (intro _; try dsimp only))

theorem execRouteChangeResend_kept {qq : List Instr} {s : State} (hk : Kept qq s) :
    KeptOut qq (execRouteChangeResend s) := by
  unfold execRouteChangeResend
  try dsimp only
  repeat' (first
    | with_reducible assumption
    | with_reducible refine KeptOut.next ?_
    | with_reducible apply State.resendStreams_kept
    | with_reducible apply State.raise_kept
    | with_reducible refine KeptOut.ite ?_ ?_
    | split
    | (intro _; try dsimp only))

theorem State.routesChanged_kept {qq : List Instr} {s : State}  (hk : Kept qq s) :
    Kept qq (State.routesChanged s) := by
  unfold State.routesChanged
  try dsimp only
  repeat' (first
    | with_reducible assumption
    | with_reducible apply State.forwardAll_kept
    | with_reducible apply State.sendHeldReplies_kept
    | with_reducible apply State.resendStreams_kept
    | (intro _; try dsimp only))

end Sys2Proof.Machine
end

