-- ==== Sys2Proof/Laws/KeptGroups.lean ====
section
/-! SUPPORT. Operations and meanings of Machine/Groups keep the canonical form of memory and leave the waiting commands alone. -/

namespace Sys2Proof.Machine

theorem State.clearSlot_kept {qq : List Instr} {s : State} {i} (hk : Kept qq s) :
    Kept qq (State.clearSlot s i) := by
  unfold State.clearSlot
  try dsimp only
  repeat' (first
    | with_reducible assumption
    | with_reducible apply State.setReg_kept
    | with_reducible refine Kept.foldl (fun _ _ _ => ?_) ?_
    | (intro _; try dsimp only))

theorem State.loseStaging_kept {qq : List Instr} {s : State} {g} (hk : Kept qq s) : Kept qq (State.loseStaging s g) := by
  unfold State.loseStaging
  split
  · exact State.freeOverlap_kept hk
  · exact hk

theorem State.releaseSlot_kept {qq : List Instr} {s : State} {i} (hk : Kept qq s) :
    Kept qq (State.releaseSlot s i) := by
  unfold State.releaseSlot
  try dsimp only
  repeat' (first
    | with_reducible assumption
    | with_reducible apply State.setFld_kept
    | with_reducible refine Kept.parts ?_
    | (with_reducible refine Kept.lit ?_; dsimp only; with_reducible refine Kept.parts ?_))

theorem State.releaseGroups_kept {qq : List Instr} {s : State} {job} (hk : Kept qq s) :
    Kept qq (State.releaseGroups s job) := by
  unfold State.releaseGroups
  try dsimp only
  repeat' (first
    | with_reducible assumption
    | with_reducible apply State.loseStaging_kept
    | with_reducible apply State.releaseSlot_kept
    | with_reducible refine Kept.foldl ?_ ?_
    | with_reducible refine Kept.foldlFst ?_ ?_
    | with_reducible refine Kept.ite ?_ ?_
    | split
    | with_reducible refine Kept.fst (by assumption) ?_
    | with_reducible refine Kept.trd (by assumption) ?_
    | with_reducible refine Kept.snd (by assumption) ?_
    | (intro _; try dsimp only))

theorem State.failGroup_kept {qq : List Instr} {s : State} {job} {i} {reason} {ranks} {held} (hk : Kept qq s) :
    Kept qq (State.failGroup s job i reason ranks held) := by
  unfold State.failGroup
  try dsimp only
  repeat' (first
    | with_reducible assumption
    | with_reducible apply State.releaseSlot_kept
    | with_reducible apply State.raiseJob_kept
    | with_reducible refine Kept.ite ?_ ?_
    | split
    | with_reducible refine Kept.parts ?_
    | (with_reducible refine Kept.lit ?_; dsimp only; with_reducible refine Kept.parts ?_))

theorem State.decideGroup_kept {qq : List Instr} {s : State} {g} {held} (hk : Kept qq s) :
    Kept qq (State.decideGroup s g held) := by
  unfold State.decideGroup
  try dsimp only
  repeat' (first
    | with_reducible assumption
    | with_reducible apply State.raiseJob_kept
    | with_reducible apply State.putGroup_kept
    | with_reducible apply State.failGroup_kept
    | with_reducible refine Kept.ite ?_ ?_
    | split
    | with_reducible refine Kept.fst (by assumption) ?_
    | with_reducible refine Kept.trd (by assumption) ?_
    | with_reducible refine Kept.snd (by assumption) ?_
    | with_reducible refine Kept.parts ?_
    | (with_reducible refine Kept.lit ?_; dsimp only; first | with_reducible refine Kept.parts ?_ | with_reducible refine KeptParts.empty (Kept.parts ?_))
    | (intro _; try dsimp only))

theorem State.keepCreating_kept {qq : List Instr} {s : State} {g} {held} (hk : Kept qq s) :
    Kept qq (State.keepCreating s g held) := by
  unfold State.keepCreating
  try dsimp only
  repeat' (first
    | with_reducible assumption
    | with_reducible apply State.putGroup_kept
    | with_reducible refine Kept.ite ?_ ?_
    | split
    | with_reducible refine Kept.parts ?_
    | (with_reducible refine Kept.lit ?_; dsimp only; first | with_reducible refine Kept.parts ?_ | with_reducible refine KeptParts.empty (Kept.parts ?_))
    | (intro _; try dsimp only))

theorem execGroupCreate_kept {qq : List Instr} {s : State} {job} {g} (hk : Kept qq s) :
    KeptOut qq (execGroupCreate job g s) := by
  unfold execGroupCreate
  try dsimp only
  repeat' (first
    | with_reducible assumption
    | with_reducible refine KeptOut.next ?_
    | with_reducible apply State.emit_kept
    | with_reducible apply State.raiseJob_kept
    | with_reducible apply State.putGroup_kept
    | with_reducible apply State.clearSlot_kept
    | with_reducible apply State.failGroup_kept
    | with_reducible apply State.decideGroup_kept
    | with_reducible apply State.keepCreating_kept
    | with_reducible refine Kept.foldl ?_ ?_
    | with_reducible refine Kept.foldlFst ?_ ?_
    | with_reducible refine KeptOut.ite ?_ ?_
    | with_reducible refine Kept.ite ?_ ?_
    | split
    | with_reducible refine Kept.fst (by assumption) ?_
    | with_reducible refine Kept.trd (by assumption) ?_
    | with_reducible refine Kept.snd (by assumption) ?_
    | with_reducible refine Kept.parts ?_
    | (with_reducible refine Kept.lit ?_; dsimp only; first | with_reducible refine Kept.parts ?_ | with_reducible refine KeptParts.empty (Kept.parts ?_))
    | (intro _; try dsimp only))

theorem execJoin_kept {qq : List Instr} {s : State} {grp} {rank} {job} {hash} {cpl} {failed} (hk : Kept qq s) :
    KeptOut qq (execJoin grp rank job hash cpl failed s) := by
  unfold execJoin
  try dsimp only
  repeat' (first
    | with_reducible assumption
    | with_reducible refine KeptOut.next ?_
    | with_reducible apply State.decideGroup_kept
    | with_reducible apply State.keepCreating_kept
    | split
    | with_reducible refine Kept.fst (by assumption) ?_
    | with_reducible refine Kept.trd (by assumption) ?_
    | with_reducible refine Kept.snd (by assumption) ?_
    | with_reducible refine Kept.parts ?_
    | (with_reducible refine Kept.lit ?_; dsimp only; first | with_reducible refine Kept.parts ?_ | with_reducible refine KeptParts.empty (Kept.parts ?_))
    | (intro _; try dsimp only))

theorem execNoJoin_kept {qq : List Instr} {s : State} {job} {grp} (hk : Kept qq s) :
    KeptOut qq (execNoJoin job grp s) := by
  unfold execNoJoin
  try dsimp only
  repeat' (first
    | with_reducible assumption
    | with_reducible refine KeptOut.next ?_
    | with_reducible apply State.failGroup_kept
    | with_reducible refine KeptOut.ite ?_ ?_
    | with_reducible refine Kept.ite ?_ ?_
    | split
    | with_reducible refine Kept.fst (by assumption) ?_
    | with_reducible refine Kept.trd (by assumption) ?_
    | with_reducible refine Kept.snd (by assumption) ?_
    | with_reducible refine Kept.parts ?_
    | (with_reducible refine Kept.lit ?_; dsimp only; first | with_reducible refine Kept.parts ?_ | with_reducible refine KeptParts.empty (Kept.parts ?_))
    | (intro _; try dsimp only))

end Sys2Proof.Machine
end

