-- ==== Sys2Proof/Laws/KeptVectorEngine.lean ====
section
/-! SUPPORT. Operations and meanings of Machine/VectorEngine keep the canonical form of memory and leave the waiting commands alone. -/

namespace Sys2Proof.Machine

theorem State.overlapFree_kept {qq : List Instr} {s : State} {dst} {others} (hk : Kept qq s) :
    Kept qq (State.overlapFree s dst others) := by
  unfold State.overlapFree
  try dsimp only
  repeat' (first
    | with_reducible assumption
    | with_reducible apply State.freeOverlap_kept
    | (intro _; try dsimp only))

theorem runElementwise_kept {qq : List Instr} {s : State} {n} {op} {f} (hk : Kept qq s) :
    KeptOut qq (runElementwise s n op f) := by
  unfold runElementwise
  try dsimp only
  repeat' (first
    | with_reducible assumption
    | with_reducible refine KeptOut.next ?_
    | with_reducible apply runEngine_kept
    | with_reducible apply State.putValues_kept
    | with_reducible apply State.overlapFree_kept
    | with_reducible refine Kept.fst (by assumption) ?_
    | with_reducible refine Kept.trd (by assumption) ?_
    | with_reducible refine Kept.snd (by assumption) ?_
    | (intro _; try dsimp only))

theorem runActivation_kept {qq : List Instr} {s : State} {n} {op} {savesInput} {f} (hk : Kept qq s) :
    KeptOut qq (runActivation s n op savesInput f) := by
  unfold runActivation
  try dsimp only
  repeat' (first
    | with_reducible assumption
    | with_reducible refine KeptOut.next ?_
    | with_reducible apply State.freeOverlap_kept
    | with_reducible apply runEngine_kept
    | with_reducible apply State.putValues_kept
    | with_reducible apply State.overlapFree_kept
    | with_reducible refine KeptOut.ite ?_ ?_
    | with_reducible refine Kept.ite ?_ ?_
    | split
    | with_reducible refine Kept.fst (by assumption) ?_
    | with_reducible refine Kept.trd (by assumption) ?_
    | with_reducible refine Kept.snd (by assumption) ?_
    | (intro _; try dsimp only))

theorem runReduction_kept {qq : List Instr} {s : State} {n} {op} {first} {step} {comb} (hk : Kept qq s) :
    KeptOut qq (runReduction s n op first step comb) := by
  unfold runReduction
  try dsimp only
  repeat' (first
    | with_reducible assumption
    | with_reducible refine KeptOut.next ?_
    | with_reducible apply State.freeOverlap_kept
    | with_reducible apply runEngine_kept
    | with_reducible apply State.putValues_kept
    | with_reducible refine KeptOut.ite ?_ ?_
    | with_reducible refine Kept.ite ?_ ?_
    | split
    | with_reducible refine Kept.fst (by assumption) ?_
    | with_reducible refine Kept.trd (by assumption) ?_
    | with_reducible refine Kept.snd (by assumption) ?_
    | (intro _; try dsimp only))

theorem execVecAdd_kept {qq : List Instr} {n} {s : State} (hk : Kept qq s) :
    KeptOut qq (execVecAdd n s) := by
  unfold execVecAdd
  try dsimp only
  repeat' (first
    | with_reducible assumption
    | with_reducible refine KeptOut.next ?_
    | with_reducible apply runElementwise_kept
    | (intro _; try dsimp only))

theorem execVecSub_kept {qq : List Instr} {n} {s : State} (hk : Kept qq s) :
    KeptOut qq (execVecSub n s) := by
  unfold execVecSub
  try dsimp only
  repeat' (first
    | with_reducible assumption
    | with_reducible refine KeptOut.next ?_
    | with_reducible apply runElementwise_kept
    | (intro _; try dsimp only))

theorem execVecMul_kept {qq : List Instr} {n} {s : State} (hk : Kept qq s) :
    KeptOut qq (execVecMul n s) := by
  unfold execVecMul
  try dsimp only
  repeat' (first
    | with_reducible assumption
    | with_reducible refine KeptOut.next ?_
    | with_reducible apply runElementwise_kept
    | (intro _; try dsimp only))

theorem execVecMax_kept {qq : List Instr} {n} {s : State} (hk : Kept qq s) :
    KeptOut qq (execVecMax n s) := by
  unfold execVecMax
  try dsimp only
  repeat' (first
    | with_reducible assumption
    | with_reducible refine KeptOut.next ?_
    | with_reducible apply runElementwise_kept
    | (intro _; try dsimp only))

theorem execVecMin_kept {qq : List Instr} {n} {s : State} (hk : Kept qq s) :
    KeptOut qq (execVecMin n s) := by
  unfold execVecMin
  try dsimp only
  repeat' (first
    | with_reducible assumption
    | with_reducible refine KeptOut.next ?_
    | with_reducible apply runElementwise_kept
    | (intro _; try dsimp only))

theorem execVecFma_kept {qq : List Instr} {n} {s : State} (hk : Kept qq s) :
    KeptOut qq (execVecFma n s) := by
  unfold execVecFma
  try dsimp only
  repeat' (first
    | with_reducible assumption
    | with_reducible refine KeptOut.next ?_
    | with_reducible apply runElementwise_kept
    | (intro _; try dsimp only))

theorem execVecAdds_kept {qq : List Instr} {n} {s : State} (hk : Kept qq s) :
    KeptOut qq (execVecAdds n s) := by
  unfold execVecAdds
  try dsimp only
  repeat' (first
    | with_reducible assumption
    | with_reducible refine KeptOut.next ?_
    | with_reducible apply runElementwise_kept
    | (intro _; try dsimp only))

theorem execVecMuls_kept {qq : List Instr} {n} {s : State} (hk : Kept qq s) :
    KeptOut qq (execVecMuls n s) := by
  unfold execVecMuls
  try dsimp only
  repeat' (first
    | with_reducible assumption
    | with_reducible refine KeptOut.next ?_
    | with_reducible apply runElementwise_kept
    | (intro _; try dsimp only))

theorem execVecBcadd_kept {qq : List Instr} {n} {s : State} (hk : Kept qq s) :
    KeptOut qq (execVecBcadd n s) := by
  unfold execVecBcadd
  try dsimp only
  repeat' (first
    | with_reducible assumption
    | with_reducible refine KeptOut.next ?_
    | with_reducible apply runElementwise_kept
    | (intro _; try dsimp only))

theorem execVecBcmul_kept {qq : List Instr} {n} {s : State} (hk : Kept qq s) :
    KeptOut qq (execVecBcmul n s) := by
  unfold execVecBcmul
  try dsimp only
  repeat' (first
    | with_reducible assumption
    | with_reducible refine KeptOut.next ?_
    | with_reducible apply runElementwise_kept
    | (intro _; try dsimp only))

theorem execVecCvt_kept {qq : List Instr} {n} {s : State} (hk : Kept qq s) :
    KeptOut qq (execVecCvt n s) := by
  unfold execVecCvt
  try dsimp only
  repeat' (first
    | with_reducible assumption
    | with_reducible refine KeptOut.next ?_
    | with_reducible apply runElementwise_kept)

theorem execVecExp2_kept {qq : List Instr} {n} {s : State} (hk : Kept qq s) :
    KeptOut qq (execVecExp2 n s) := by
  unfold execVecExp2
  try dsimp only
  repeat' (first
    | with_reducible assumption
    | with_reducible refine KeptOut.next ?_
    | with_reducible apply runElementwise_kept
    | (intro _; try dsimp only))

theorem execVecLog2_kept {qq : List Instr} {n} {s : State} (hk : Kept qq s) :
    KeptOut qq (execVecLog2 n s) := by
  unfold execVecLog2
  try dsimp only
  repeat' (first
    | with_reducible assumption
    | with_reducible refine KeptOut.next ?_
    | with_reducible apply runElementwise_kept
    | (intro _; try dsimp only))

theorem execVecRcp_kept {qq : List Instr} {n} {s : State} (hk : Kept qq s) :
    KeptOut qq (execVecRcp n s) := by
  unfold execVecRcp
  try dsimp only
  repeat' (first
    | with_reducible assumption
    | with_reducible refine KeptOut.next ?_
    | with_reducible apply runElementwise_kept
    | (intro _; try dsimp only))

theorem execVecRsqrt_kept {qq : List Instr} {n} {s : State} (hk : Kept qq s) :
    KeptOut qq (execVecRsqrt n s) := by
  unfold execVecRsqrt
  try dsimp only
  repeat' (first
    | with_reducible assumption
    | with_reducible refine KeptOut.next ?_
    | with_reducible apply runElementwise_kept
    | (intro _; try dsimp only))

theorem execVecSqrt_kept {qq : List Instr} {n} {s : State} (hk : Kept qq s) :
    KeptOut qq (execVecSqrt n s) := by
  unfold execVecSqrt
  try dsimp only
  repeat' (first
    | with_reducible assumption
    | with_reducible refine KeptOut.next ?_
    | with_reducible apply runElementwise_kept
    | (intro _; try dsimp only))

theorem execVecAbs_kept {qq : List Instr} {n} {s : State} (hk : Kept qq s) :
    KeptOut qq (execVecAbs n s) := by
  unfold execVecAbs
  try dsimp only
  repeat' (first
    | with_reducible assumption
    | with_reducible refine KeptOut.next ?_
    | with_reducible apply runElementwise_kept
    | (intro _; try dsimp only))

theorem execVecNeg_kept {qq : List Instr} {n} {s : State} (hk : Kept qq s) :
    KeptOut qq (execVecNeg n s) := by
  unfold execVecNeg
  try dsimp only
  repeat' (first
    | with_reducible assumption
    | with_reducible refine KeptOut.next ?_
    | with_reducible apply runElementwise_kept
    | (intro _; try dsimp only))

theorem execVecRelu_kept {qq : List Instr} {n} {s : State} (hk : Kept qq s) :
    KeptOut qq (execVecRelu n s) := by
  unfold execVecRelu
  try dsimp only
  repeat' (first
    | with_reducible assumption
    | with_reducible refine KeptOut.next ?_
    | with_reducible apply runActivation_kept
    | (intro _; try dsimp only))

theorem execVecSigmoid_kept {qq : List Instr} {n} {s : State} (hk : Kept qq s) :
    KeptOut qq (execVecSigmoid n s) := by
  unfold execVecSigmoid
  try dsimp only
  repeat' (first
    | with_reducible assumption
    | with_reducible refine KeptOut.next ?_
    | with_reducible apply runActivation_kept
    | (intro _; try dsimp only))

theorem execVecTanh_kept {qq : List Instr} {n} {s : State} (hk : Kept qq s) :
    KeptOut qq (execVecTanh n s) := by
  unfold execVecTanh
  try dsimp only
  repeat' (first
    | with_reducible assumption
    | with_reducible refine KeptOut.next ?_
    | with_reducible apply runActivation_kept
    | (intro _; try dsimp only))

theorem execVecExp_kept {qq : List Instr} {n} {s : State} (hk : Kept qq s) :
    KeptOut qq (execVecExp n s) := by
  unfold execVecExp
  try dsimp only
  repeat' (first
    | with_reducible assumption
    | with_reducible refine KeptOut.next ?_
    | with_reducible apply runActivation_kept
    | (intro _; try dsimp only))

theorem execVecSoftplus_kept {qq : List Instr} {n} {s : State} (hk : Kept qq s) :
    KeptOut qq (execVecSoftplus n s) := by
  unfold execVecSoftplus
  try dsimp only
  repeat' (first
    | with_reducible assumption
    | with_reducible refine KeptOut.next ?_
    | with_reducible apply runActivation_kept
    | (intro _; try dsimp only))

theorem execVecElu_kept {qq : List Instr} {n} {s : State} (hk : Kept qq s) :
    KeptOut qq (execVecElu n s) := by
  unfold execVecElu
  try dsimp only
  repeat' (first
    | with_reducible assumption
    | with_reducible refine KeptOut.next ?_
    | with_reducible apply runActivation_kept
    | (intro _; try dsimp only))

theorem execVecGelu_kept {qq : List Instr} {n} {s : State} (hk : Kept qq s) :
    KeptOut qq (execVecGelu n s) := by
  unfold execVecGelu
  try dsimp only
  repeat' (first
    | with_reducible assumption
    | with_reducible refine KeptOut.next ?_
    | with_reducible apply runActivation_kept
    | (intro _; try dsimp only))

theorem execVecSilu_kept {qq : List Instr} {n} {s : State} (hk : Kept qq s) :
    KeptOut qq (execVecSilu n s) := by
  unfold execVecSilu
  try dsimp only
  repeat' (first
    | with_reducible assumption
    | with_reducible refine KeptOut.next ?_
    | with_reducible apply runActivation_kept
    | (intro _; try dsimp only))

theorem execVecErf_kept {qq : List Instr} {n} {s : State} (hk : Kept qq s) :
    KeptOut qq (execVecErf n s) := by
  unfold execVecErf
  try dsimp only
  repeat' (first
    | with_reducible assumption
    | with_reducible refine KeptOut.next ?_
    | with_reducible apply runActivation_kept
    | (intro _; try dsimp only))

theorem execVecDrelu_kept {qq : List Instr} {n} {s : State} (hk : Kept qq s) :
    KeptOut qq (execVecDrelu n s) := by
  unfold execVecDrelu
  try dsimp only
  repeat' (first
    | with_reducible assumption
    | with_reducible refine KeptOut.next ?_
    | with_reducible apply runElementwise_kept
    | with_reducible refine KeptOut.ite ?_ ?_
    | split
    | (intro _; try dsimp only))

theorem execVecDsigmoid_kept {qq : List Instr} {n} {s : State} (hk : Kept qq s) :
    KeptOut qq (execVecDsigmoid n s) := by
  unfold execVecDsigmoid
  try dsimp only
  repeat' (first
    | with_reducible assumption
    | with_reducible refine KeptOut.next ?_
    | with_reducible apply runElementwise_kept
    | (intro _; try dsimp only))

theorem execVecDtanh_kept {qq : List Instr} {n} {s : State} (hk : Kept qq s) :
    KeptOut qq (execVecDtanh n s) := by
  unfold execVecDtanh
  try dsimp only
  repeat' (first
    | with_reducible assumption
    | with_reducible refine KeptOut.next ?_
    | with_reducible apply runElementwise_kept
    | (intro _; try dsimp only))

theorem execVecDexp_kept {qq : List Instr} {n} {s : State} (hk : Kept qq s) :
    KeptOut qq (execVecDexp n s) := by
  unfold execVecDexp
  try dsimp only
  repeat' (first
    | with_reducible assumption
    | with_reducible refine KeptOut.next ?_
    | with_reducible apply runElementwise_kept
    | (intro _; try dsimp only))

theorem execVecDsoftplus_kept {qq : List Instr} {n} {s : State} (hk : Kept qq s) :
    KeptOut qq (execVecDsoftplus n s) := by
  unfold execVecDsoftplus
  try dsimp only
  repeat' (first
    | with_reducible assumption
    | with_reducible refine KeptOut.next ?_
    | with_reducible apply runElementwise_kept
    | (intro _; try dsimp only))

theorem execVecDelu_kept {qq : List Instr} {n} {s : State} (hk : Kept qq s) :
    KeptOut qq (execVecDelu n s) := by
  unfold execVecDelu
  try dsimp only
  repeat' (first
    | with_reducible assumption
    | with_reducible refine KeptOut.next ?_
    | with_reducible apply runElementwise_kept
    | with_reducible refine KeptOut.ite ?_ ?_
    | split
    | (intro _; try dsimp only))

theorem execVecDgelu_kept {qq : List Instr} {n} {s : State} (hk : Kept qq s) :
    KeptOut qq (execVecDgelu n s) := by
  unfold execVecDgelu
  try dsimp only
  repeat' (first
    | with_reducible assumption
    | with_reducible refine KeptOut.next ?_
    | with_reducible apply runElementwise_kept
    | (intro _; try dsimp only))

theorem execVecDsilu_kept {qq : List Instr} {n} {s : State} (hk : Kept qq s) :
    KeptOut qq (execVecDsilu n s) := by
  unfold execVecDsilu
  try dsimp only
  repeat' (first
    | with_reducible assumption
    | with_reducible refine KeptOut.next ?_
    | with_reducible apply runElementwise_kept
    | (intro _; try dsimp only))

theorem execVecDerf_kept {qq : List Instr} {n} {s : State} (hk : Kept qq s) :
    KeptOut qq (execVecDerf n s) := by
  unfold execVecDerf
  try dsimp only
  repeat' (first
    | with_reducible assumption
    | with_reducible refine KeptOut.next ?_
    | with_reducible apply runElementwise_kept
    | (intro _; try dsimp only))

theorem execVecRsum_kept {qq : List Instr} {n} {s : State} (hk : Kept qq s) :
    KeptOut qq (execVecRsum n s) := by
  unfold execVecRsum
  try dsimp only
  repeat' (first
    | with_reducible assumption
    | with_reducible refine KeptOut.next ?_
    | with_reducible apply runReduction_kept
    | (intro _; try dsimp only))

theorem execVecRmax_kept {qq : List Instr} {n} {s : State} (hk : Kept qq s) :
    KeptOut qq (execVecRmax n s) := by
  unfold execVecRmax
  try dsimp only
  repeat' (first
    | with_reducible assumption
    | with_reducible refine KeptOut.next ?_
    | with_reducible apply runReduction_kept
    | (intro _; try dsimp only))

theorem execVecRmin_kept {qq : List Instr} {n} {s : State} (hk : Kept qq s) :
    KeptOut qq (execVecRmin n s) := by
  unfold execVecRmin
  try dsimp only
  repeat' (first
    | with_reducible assumption
    | with_reducible refine KeptOut.next ?_
    | with_reducible apply runReduction_kept
    | (intro _; try dsimp only))

theorem execVecRsumsq_kept {qq : List Instr} {n} {s : State} (hk : Kept qq s) :
    KeptOut qq (execVecRsumsq n s) := by
  unfold execVecRsumsq
  try dsimp only
  repeat' (first
    | with_reducible assumption
    | with_reducible refine KeptOut.next ?_
    | with_reducible apply runReduction_kept
    | (intro _; try dsimp only))

end Sys2Proof.Machine
end

