-- ==== Sys2Proof/Laws/KeptCollectives.lean ====
section
/-! SUPPORT. Operations and meanings of Machine/Collectives keep the canonical form of memory and leave the waiting commands alone. -/

namespace Sys2Proof.Machine

theorem writeLanded_kept {qq : List Instr} {s : State} {h} {me} {e} {r} (hk : Kept qq s) :
    Kept qq (writeLanded s h me e r).1 := by
  unfold writeLanded
  try dsimp only
  repeat' (first
    | with_reducible assumption
    | with_reducible apply State.putElem_kept
    | with_reducible apply State.cleanPoison_kept
    | with_reducible refine Kept.foldl (fun _ _ _ => ?_) ?_
    | with_reducible refine Kept.foldlFst (fun _ _ _ => ?_) ?_
    | with_reducible refine Kept.ite ?_ ?_
    | split
    | with_reducible refine Kept.fst (by assumption) ?_
    | with_reducible refine Kept.trd (by assumption) ?_
    | with_reducible refine Kept.snd (by assumption) ?_
    | with_reducible refine Kept.parts ?_
    | (with_reducible refine Kept.lit ?_; dsimp only; with_reducible refine Kept.parts ?_)
    | (intro _; try dsimp only))

theorem State.sendItem_kept {qq : List Instr} {s : State} {g} {m} {entry} {b} {mc} {x} (hk : Kept qq s) :
    Kept qq (State.sendItem s g m entry b mc x) := by
  unfold State.sendItem
  try dsimp only
  repeat' (first
    | with_reducible assumption
    | with_reducible apply State.emit_kept
    | with_reducible apply State.modCore_kept
    | with_reducible apply State.launch_kept
    | with_reducible apply State.newMessage_kept
    | with_reducible refine Kept.ite ?_ ?_
    | split
    | with_reducible refine Kept.fst (by assumption) ?_
    | with_reducible refine Kept.trd (by assumption) ?_
    | with_reducible refine Kept.snd (by assumption) ?_
    | with_reducible refine Kept.parts ?_
    | (with_reducible refine Kept.lit ?_; dsimp only; first | with_reducible refine Kept.parts ?_ | with_reducible refine KeptParts.empty (Kept.parts ?_))
    | (intro _; try dsimp only))

theorem sendChunk_kept {qq : List Instr} {i : Nat} {g : Group} {m : Member} {op b : Nat} {t : State × Running} {x : Flow} (hk : Kept qq t.1) :
    Kept qq (sendChunk i g m op b t x).1 := by
  unfold sendChunk
  dsimp only
  split
  · exact hk
  · exact State.sendItem_kept hk

theorem sendChunks_kept {qq : List Instr} {s : State} {i : Nat} {g : Group} {m : Member} {h : Shape} {f : Fmt} {r : Running} (hk : Kept qq s) :
    Kept qq (sendChunks s i g m h f r).1 :=
  Kept.foldlFst (fun _ _ ht => Kept.foldlFst (fun _ _ hu => sendChunk_kept hu) ht) hk

theorem State.dropEntries_kept {qq : List Instr} {s : State} {core} {seqs} (hk : Kept qq s) :
    Kept qq (State.dropEntries s core seqs) := by
  unfold State.dropEntries
  try dsimp only
  repeat' (first
    | with_reducible assumption
    | with_reducible refine Kept.foldl ?_ ?_
    | with_reducible refine Kept.foldlFst ?_ ?_
    | split
    | with_reducible refine Kept.fst (by assumption) ?_
    | with_reducible refine Kept.trd (by assumption) ?_
    | with_reducible refine Kept.snd (by assumption) ?_
    | with_reducible refine Kept.parts ?_
    | (with_reducible refine Kept.lit ?_; dsimp only; first | with_reducible refine Kept.parts ?_ | with_reducible refine KeptParts.empty (Kept.parts ?_))
    | (intro _; try dsimp only))

theorem State.settleAt_kept {qq : List Instr} {s : State} {core} (hk : Kept qq s) :
    Kept qq (State.settleAt s core) := by
  unfold State.settleAt
  try dsimp only
  repeat' (first
    | with_reducible assumption
    | with_reducible apply State.settle_kept
    | with_reducible refine Kept.ite ?_ ?_
    | split)

theorem State.loseTensor_kept {qq : List Instr} {s : State} {d} (hk : Kept qq s) :
    Kept qq (State.loseTensor s d) := by
  unfold State.loseTensor
  try dsimp only
  repeat' (first
    | with_reducible assumption
    | with_reducible apply State.freeOverlap_kept
    | with_reducible refine Kept.ite ?_ ?_
    | split
    | (intro _; try dsimp only))

theorem State.disturbed_kept {qq : List Instr} {s : State} {g} {f} {old} {r} (hk : Kept qq s) :
    Kept qq (State.disturbed s g f old r).1 := by
  unfold State.disturbed
  try dsimp only
  repeat' (first
    | with_reducible assumption
    | with_reducible apply State.drew_kept
    | with_reducible refine Kept.foldl ?_ ?_
    | with_reducible refine Kept.foldlFst ?_ ?_
    | with_reducible refine Kept.ite ?_ ?_
    | split
    | with_reducible refine Kept.parts ?_
    | (with_reducible refine Kept.lit ?_; dsimp only; first | with_reducible refine Kept.parts ?_ | with_reducible refine KeptParts.empty (Kept.parts ?_))
    | (intro _; try dsimp only))

theorem State.checkCombination_kept {qq : List Instr} {s : State} {n} {job} {pc} {cycles} {k} {drill} (hk : Kept qq s) :
    Kept qq (State.checkCombination s n job pc cycles k drill) := by
  unfold State.checkCombination
  try dsimp only
  repeat' (first
    | with_reducible assumption
    | with_reducible apply State.modCore_kept
    | with_reducible apply State.recordCheck_kept
    | with_reducible refine Kept.ite ?_ ?_
    | split
    | with_reducible refine Kept.parts ?_
    | (with_reducible refine Kept.lit ?_; dsimp only; first | with_reducible refine Kept.parts ?_ | with_reducible refine KeptParts.empty (Kept.parts ?_))
    | (intro _; try dsimp only))

theorem combinationLost_kept {qq : List Instr} {s : State} {i} {g} {m} {r} {n} {e} (hk : Kept qq s) :
    Kept qq (combinationLost s i g m r n e) := by
  unfold combinationLost
  try dsimp only
  repeat' (first
    | with_reducible assumption
    | with_reducible apply State.putGroup_kept
    | with_reducible apply State.settle_kept
    | with_reducible apply State.trap_kept
    | with_reducible apply State.dropEntries_kept
    | with_reducible apply State.loseTensor_kept
    | with_reducible refine Kept.ite ?_ ?_
    | split
    | with_reducible refine Kept.parts ?_
    | (with_reducible refine Kept.lit ?_; dsimp only; first | with_reducible refine Kept.parts ?_ | with_reducible refine KeptParts.empty (Kept.parts ?_))
    | (intro _; try dsimp only))

theorem combinationDone_kept {qq : List Instr} {s : State} {i} {g} {m} {e} {old} {r} (hk : Kept qq s) :
    Kept qq (combinationDone s i g m e old r) := by
  unfold combinationDone
  try dsimp only
  repeat' (first
    | with_reducible assumption
    | with_reducible apply State.putGroup_kept
    | with_reducible apply writeLanded_kept
    | with_reducible apply sendChunks_kept
    | with_reducible apply State.disturbed_kept
    | with_reducible refine Kept.ite ?_ ?_
    | split
    | with_reducible refine Kept.fst (by assumption) ?_
    | with_reducible refine Kept.trd (by assumption) ?_
    | with_reducible refine Kept.snd (by assumption) ?_
    | with_reducible refine Kept.parts ?_
    | (with_reducible refine Kept.lit ?_; dsimp only; first | with_reducible refine Kept.parts ?_ | with_reducible refine KeptParts.empty (Kept.parts ?_))
    | (intro _; try dsimp only))

theorem progress_kept {qq : List Instr} {s : State} {i : Nat} {g : Group} {m : Member} {r : Running} {k : CheckOutcome} (hk : Kept qq s) :
    Kept qq (progress s i g m r k) := by
  unfold progress
  split
  · exact hk
  · next e _ =>
    generalize combine g m e r = p
    obtain ⟨r', cycles⟩ := p
    dsimp only
    split
    · next hc =>
      have hi : Kept qq (if cycles ≠ 0 then s.inject (drillKind 5) m.core k else (CheckOutcome.ok, false, s)).2.2 := by
        split
        · exact State.inject_kept hk
        · exact hk
      revert hi
      generalize (if cycles ≠ 0 then s.inject (drillKind 5) m.core k else (CheckOutcome.ok, false, s)) = p
      obtain ⟨k, drill, t⟩ := p
      exact fun ht => Kept.ite (combinationLost_kept (State.checkCombination_kept ht)) (combinationDone_kept (State.checkCombination_kept ht))
    · exact hk

theorem chunkConsumed_kept {qq : List Instr} {s : State} {i} {core} {seq} {b} {x} (hk : Kept qq s) :
    Kept qq (chunkConsumed s i core seq b x) := by
  unfold chunkConsumed
  try dsimp only
  repeat' (first
    | with_reducible assumption
    | with_reducible apply progress_kept
    | with_reducible refine Kept.ite ?_ ?_
    | split
    | with_reducible refine Kept.fst (by assumption) ?_
    | with_reducible refine Kept.trd (by assumption) ?_
    | with_reducible refine Kept.snd (by assumption) ?_
    | with_reducible refine Kept.parts ?_
    | (with_reducible refine Kept.lit ?_; dsimp only; first | with_reducible refine Kept.parts ?_ | with_reducible refine KeptParts.empty (Kept.parts ?_))
    | (intro _; try dsimp only))

theorem State.loseDd_kept {qq : List Instr} {s : State} {m} {seq} (hk : Kept qq s) :
    Kept qq (State.loseDd s m seq) := by
  unfold State.loseDd
  try dsimp only
  repeat' (first
    | with_reducible assumption
    | with_reducible apply State.loseTensor_kept
    | with_reducible refine Kept.ite ?_ ?_
    | split
    | with_reducible refine Kept.fst (by assumption) ?_
    | with_reducible refine Kept.trd (by assumption) ?_
    | with_reducible refine Kept.snd (by assumption) ?_
    | (intro _; try dsimp only))

theorem State.stopGroup_kept {qq : List Instr} {s : State} {i} {g} {phase} {lost} (hk : Kept qq s) :
    Kept qq (State.stopGroup s i g phase lost) := by
  unfold State.stopGroup
  try dsimp only
  repeat' (first
    | with_reducible assumption
    | with_reducible apply State.putGroup_kept
    | with_reducible apply State.loseStaging_kept
    | with_reducible apply State.dropEntries_kept
    | with_reducible apply State.settleAt_kept
    | with_reducible apply State.loseDd_kept
    | with_reducible refine Kept.foldl ?_ ?_
    | with_reducible refine Kept.foldlFst ?_ ?_
    | split
    | with_reducible refine Kept.fst (by assumption) ?_
    | with_reducible refine Kept.trd (by assumption) ?_
    | with_reducible refine Kept.snd (by assumption) ?_
    | with_reducible refine Kept.parts ?_
    | (with_reducible refine Kept.lit ?_; dsimp only; first | with_reducible refine Kept.parts ?_ | with_reducible refine KeptParts.empty (Kept.parts ?_))
    | (intro _; try dsimp only))

theorem State.abortGroup_kept {qq : List Instr} {s : State} {i} {g} {a} (hk : Kept qq s) :
    Kept qq (State.abortGroup s i g a) := by
  unfold State.abortGroup
  try dsimp only
  repeat' (first
    | with_reducible assumption
    | with_reducible apply State.setReg_kept
    | with_reducible apply State.raiseJob_kept
    | with_reducible apply State.askHalt_kept
    | with_reducible apply State.stopGroup_kept
    | with_reducible refine Kept.ite ?_ ?_
    | split
    | with_reducible refine Kept.parts ?_
    | (with_reducible refine Kept.lit ?_; dsimp only; first | with_reducible refine Kept.parts ?_ | with_reducible refine KeptParts.empty (Kept.parts ?_))
    | (intro _; try dsimp only))

theorem State.haltGroups_kept {qq : List Instr} {s : State} {job} (hk : Kept qq s) :
    Kept qq (State.haltGroups s job) := by
  unfold State.haltGroups
  try dsimp only
  repeat' (first
    | with_reducible assumption
    | with_reducible apply State.setReg_kept
    | with_reducible apply State.raiseJob_kept
    | with_reducible apply State.stopGroup_kept
    | with_reducible refine Kept.foldl ?_ ?_
    | with_reducible refine Kept.foldlFst ?_ ?_
    | with_reducible refine Kept.ite ?_ ?_
    | split
    | with_reducible refine Kept.fst (by assumption) ?_
    | with_reducible refine Kept.trd (by assumption) ?_
    | with_reducible refine Kept.snd (by assumption) ?_
    | (intro _; try dsimp only))

theorem judge_kept {qq : List Instr} {s : State} {i} {g} {m} {r} {k} (hk : Kept qq s) :
    Kept qq (judge s i g m r k) := by
  unfold judge
  try dsimp only
  repeat' (first
    | with_reducible assumption
    | with_reducible apply progress_kept
    | with_reducible apply State.abortGroup_kept
    | split
    | with_reducible refine Kept.fst (by assumption) ?_
    | with_reducible refine Kept.trd (by assumption) ?_
    | with_reducible refine Kept.snd (by assumption) ?_
    | with_reducible refine Kept.parts ?_
    | (with_reducible refine Kept.lit ?_; dsimp only; first | with_reducible refine Kept.parts ?_ | with_reducible refine KeptParts.empty (Kept.parts ?_))
    | (intro _; try dsimp only))

theorem queueCollective_kept {qq : List Instr} {n} {op} {s : State} (hk : Kept qq s) :
    KeptOut qq (queueCollective n op s) := by
  unfold queueCollective
  try dsimp only
  repeat' (first
    | with_reducible assumption
    | with_reducible refine KeptOut.next ?_
    | with_reducible apply State.modCore_kept
    | with_reducible apply State.putGroup_kept
    | with_reducible refine KeptOut.ite ?_ ?_
    | split
    | with_reducible refine Kept.fst (by assumption) ?_
    | with_reducible refine Kept.trd (by assumption) ?_
    | with_reducible refine Kept.snd (by assumption) ?_
    | with_reducible refine Kept.parts ?_
    | (with_reducible refine Kept.lit ?_; dsimp only; with_reducible refine Kept.parts ?_)
    | (intro _; try dsimp only))

theorem execCmAllreduce_kept {qq : List Instr} {n} {s : State} (hk : Kept qq s) :
    KeptOut qq (execCmAllreduce n s) := by
  unfold execCmAllreduce
  try dsimp only
  repeat' (first
    | with_reducible assumption
    | with_reducible refine KeptOut.next ?_
    | with_reducible apply queueCollective_kept)

theorem execCmRedscat_kept {qq : List Instr} {n} {s : State} (hk : Kept qq s) :
    KeptOut qq (execCmRedscat n s) := by
  unfold execCmRedscat
  try dsimp only
  repeat' (first
    | with_reducible assumption
    | with_reducible refine KeptOut.next ?_
    | with_reducible apply queueCollective_kept)

theorem execCmAllgather_kept {qq : List Instr} {n} {s : State} (hk : Kept qq s) :
    KeptOut qq (execCmAllgather n s) := by
  unfold execCmAllgather
  try dsimp only
  repeat' (first
    | with_reducible assumption
    | with_reducible refine KeptOut.next ?_
    | with_reducible apply queueCollective_kept)

theorem execCmBcast_kept {qq : List Instr} {n} {s : State} (hk : Kept qq s) :
    KeptOut qq (execCmBcast n s) := by
  unfold execCmBcast
  try dsimp only
  repeat' (first
    | with_reducible assumption
    | with_reducible refine KeptOut.next ?_
    | with_reducible apply queueCollective_kept)

theorem execCmReduce_kept {qq : List Instr} {n} {s : State} (hk : Kept qq s) :
    KeptOut qq (execCmReduce n s) := by
  unfold execCmReduce
  try dsimp only
  repeat' (first
    | with_reducible assumption
    | with_reducible refine KeptOut.next ?_
    | with_reducible apply queueCollective_kept)

theorem execCmAlltoall_kept {qq : List Instr} {n} {s : State} (hk : Kept qq s) :
    KeptOut qq (execCmAlltoall n s) := by
  unfold execCmAlltoall
  try dsimp only
  repeat' (first
    | with_reducible assumption
    | with_reducible refine KeptOut.next ?_
    | with_reducible apply queueCollective_kept)

theorem execCmBarrier_kept {qq : List Instr} {n} {s : State} (hk : Kept qq s) :
    KeptOut qq (execCmBarrier n s) := by
  unfold execCmBarrier
  try dsimp only
  repeat' (first
    | with_reducible assumption
    | with_reducible refine KeptOut.next ?_
    | with_reducible apply queueCollective_kept)

theorem execCollectiveStart_kept {qq : List Instr} {s : State} {grp} {rank} {err} {k} (hk : Kept qq s) :
    KeptOut qq (execCollectiveStart grp rank err k s) := by
  unfold execCollectiveStart
  try dsimp only
  repeat' (first
    | with_reducible assumption
    | with_reducible refine KeptOut.next ?_
    | with_reducible apply State.askHalt_kept
    | with_reducible apply State.readCheck_kept
    | with_reducible apply State.freeOverlap_kept
    | with_reducible apply State.sendItem_kept
    | with_reducible apply judge_kept
    | with_reducible refine Kept.foldl ?_ ?_
    | with_reducible refine Kept.foldlFst ?_ ?_
    | with_reducible refine ExecutedKept.done (by assumption) ?_
    | with_reducible refine ExecutedKept.failed (by assumption) ?_
    | with_reducible refine ExecutedKept.lasting (by assumption) ?_
    | with_reducible exact ExecutedKept.ofFailed (by assumption)
    | with_reducible refine ExecutedKept.ite ?_ ?_
    | with_reducible refine KeptOut.ite ?_ ?_
    | with_reducible refine Kept.ite ?_ ?_
    | split
    | with_reducible refine Kept.fst (by assumption) ?_
    | with_reducible refine Kept.trd (by assumption) ?_
    | with_reducible refine Kept.snd (by assumption) ?_
    | with_reducible refine Kept.parts ?_
    | (with_reducible refine Kept.lit ?_; dsimp only; first | with_reducible refine Kept.parts ?_ | with_reducible refine KeptParts.empty (Kept.parts ?_))
    | (intro _; try dsimp only))

theorem State.takeRecord_kept {qq : List Instr} {s : State} {i} {dst} {src} {rec} {k} (hk : Kept qq s) :
    Kept qq (State.takeRecord s i dst src rec k) := by
  unfold State.takeRecord
  try dsimp only
  repeat' (first
    | with_reducible assumption
    | with_reducible apply State.putGroup_kept
    | with_reducible apply judge_kept
    | with_reducible refine Kept.ite ?_ ?_
    | split
    | with_reducible refine Kept.fst (by assumption) ?_
    | with_reducible refine Kept.trd (by assumption) ?_
    | with_reducible refine Kept.snd (by assumption) ?_
    | with_reducible refine Kept.parts ?_
    | (with_reducible refine Kept.lit ?_; dsimp only; first | with_reducible refine Kept.parts ?_ | with_reducible refine KeptParts.empty (Kept.parts ?_))
    | (intro _; try dsimp only))

theorem State.takeChunk_kept {qq : List Instr} {s : State} {i} {dst} {src} {seq} {kind} {elems} {k} (hk : Kept qq s) :
    Kept qq (State.takeChunk s i dst src seq kind elems k) := by
  unfold State.takeChunk
  try dsimp only
  repeat' (first
    | with_reducible assumption
    | with_reducible apply State.putGroup_kept
    | with_reducible apply progress_kept
    | with_reducible apply chunkConsumed_kept
    | with_reducible refine Kept.ite ?_ ?_
    | split
    | with_reducible refine Kept.fst (by assumption) ?_
    | with_reducible refine Kept.trd (by assumption) ?_
    | with_reducible refine Kept.snd (by assumption) ?_
    | with_reducible refine Kept.parts ?_
    | (with_reducible refine Kept.lit ?_; dsimp only; first | with_reducible refine Kept.parts ?_ | with_reducible refine KeptParts.empty (Kept.parts ?_))
    | (intro _; try dsimp only))

theorem arrive_kept {qq : List Instr} {s : State} {grp : Fin 64} {x : CollItem} {h : Option Msg} {effect : State → State} (hk : Kept qq s)
    (hb : ∀ s, Kept qq s → Kept qq (effect s)) : Kept qq (arrive s grp x h effect) := by
  unfold arrive
  split
  · exact Kept.ite (hb s hk) hk
  · exact Kept.ite hk (receiveMessage_kept hk (fun _ _ h => againAck_kept h) (fun t h => ExecutedKept.ofDone (hb t h)) (fun _ h => h))

theorem execDescriptorRecord_kept {qq : List Instr} {s : State} {grp} {dst} {src} {rec} {k} {h} (hk : Kept qq s) :
    KeptOut qq (execDescriptorRecord grp dst src rec k h s) := by
  unfold execDescriptorRecord
  try dsimp only
  repeat' (first
    | with_reducible assumption
    | with_reducible refine KeptOut.next ?_
    | with_reducible apply State.takeRecord_kept
    | with_reducible apply arrive_kept
    | (intro _; try dsimp only))

theorem execCollectiveChunk_kept {qq : List Instr} {s : State} {grp} {dst} {src} {seq} {kind} {elems} {k} {h} (hk : Kept qq s) :
    KeptOut qq (execCollectiveChunk grp dst src seq kind elems k h s) := by
  unfold execCollectiveChunk
  try dsimp only
  repeat' (first
    | with_reducible assumption
    | with_reducible refine KeptOut.next ?_
    | with_reducible apply State.takeChunk_kept
    | with_reducible apply arrive_kept
    | (intro _; try dsimp only))

theorem State.itemAcked_kept {qq : List Instr} {s : State} {m} {x} (hk : Kept qq s) :
    Kept qq (State.itemAcked s m x) := by
  unfold State.itemAcked
  try dsimp only
  repeat' (first
    | with_reducible assumption
    | with_reducible apply State.noteCrcRetry_kept
    | with_reducible apply chunkConsumed_kept
    | split
    | with_reducible refine Kept.fst (by assumption) ?_
    | with_reducible refine Kept.trd (by assumption) ?_
    | with_reducible refine Kept.snd (by assumption) ?_
    | with_reducible refine Kept.parts ?_
    | (with_reducible refine Kept.lit ?_; dsimp only; first | with_reducible refine Kept.parts ?_ | with_reducible refine KeptParts.empty (Kept.parts ?_))
    | (intro _; try dsimp only))

theorem execAck_kept {qq : List Instr} {s : State} {r} {crc} (hk : Kept qq s) :
    KeptOut qq (execAck r crc s) := by
  unfold execAck
  try dsimp only
  repeat' (first
    | with_reducible assumption
    | with_reducible refine KeptOut.next ?_
    | with_reducible apply State.messageDone_kept
    | with_reducible apply State.takeResponse_kept
    | with_reducible apply State.itemAcked_kept
    | with_reducible refine KeptOut.ite ?_ ?_
    | with_reducible refine Kept.ite ?_ ?_
    | split
    | with_reducible refine Kept.fst (by assumption) ?_
    | with_reducible refine Kept.trd (by assumption) ?_
    | with_reducible refine Kept.snd (by assumption) ?_
    | (intro _; try dsimp only))

theorem State.noteLateness_kept {qq : List Instr} {s : State} {i} {g} {m} {r} (hk : Kept qq s) :
    Kept qq (State.noteLateness s i g m r) := by
  unfold State.noteLateness
  try dsimp only
  repeat' (first
    | with_reducible assumption
    | with_reducible apply State.setReg_kept
    | with_reducible apply State.setFld_kept
    | with_reducible apply State.bump_kept
    | with_reducible apply State.raiseJob_kept
    | with_reducible apply State.withhold_kept
    | with_reducible refine Kept.ite ?_ ?_
    | split
    | with_reducible refine Kept.fst (by assumption) ?_
    | with_reducible refine Kept.trd (by assumption) ?_
    | with_reducible refine Kept.snd (by assumption) ?_
    | with_reducible refine Kept.parts ?_
    | (with_reducible refine Kept.lit ?_; dsimp only; with_reducible refine Kept.parts ?_))

theorem execCollectiveComplete_kept {qq : List Instr} {s : State} {grp} {rank} (hk : Kept qq s) :
    KeptOut qq (execCollectiveComplete grp rank s) := by
  unfold execCollectiveComplete
  try dsimp only
  repeat' (first
    | with_reducible assumption
    | with_reducible refine KeptOut.next ?_
    | with_reducible apply State.putGroup_kept
    | with_reducible apply State.freeOverlap_kept
    | with_reducible apply finishEntry_kept
    | with_reducible apply State.noteLateness_kept
    | with_reducible refine KeptOut.ite ?_ ?_
    | with_reducible refine Kept.ite ?_ ?_
    | split
    | with_reducible refine Kept.fst (by assumption) ?_
    | with_reducible refine Kept.trd (by assumption) ?_
    | with_reducible refine Kept.snd (by assumption) ?_
    | with_reducible refine Kept.parts ?_
    | (with_reducible refine Kept.lit ?_; dsimp only; first | with_reducible refine Kept.parts ?_ | with_reducible refine KeptParts.empty (Kept.parts ?_))
    | (intro _; try dsimp only))

theorem execCollectiveTimeout_kept {qq : List Instr} {grp} {rank} {s : State} (hk : Kept qq s) :
    KeptOut qq (execCollectiveTimeout grp rank s) := by
  unfold execCollectiveTimeout
  try dsimp only
  repeat' (first
    | with_reducible assumption
    | with_reducible refine KeptOut.next ?_
    | with_reducible apply State.emit_kept
    | with_reducible apply State.abortGroup_kept
    | with_reducible refine Kept.foldl (fun _ _ _ => ?_) ?_
    | with_reducible refine KeptOut.ite ?_ ?_
    | split
    | with_reducible refine Kept.fst (by assumption) ?_
    | with_reducible refine Kept.trd (by assumption) ?_
    | with_reducible refine Kept.snd (by assumption) ?_
    | with_reducible refine Kept.parts ?_
    | (with_reducible refine Kept.lit ?_; dsimp only; first | with_reducible refine Kept.parts ?_ | with_reducible refine KeptParts.filter (Kept.parts ?_))
    | (intro _; try dsimp only))

theorem execAbort_kept {qq : List Instr} {grp} {a} {s : State} (hk : Kept qq s) :
    KeptOut qq (execAbort grp a s) := by
  unfold execAbort
  try dsimp only
  repeat' (first
    | with_reducible assumption
    | with_reducible refine KeptOut.next ?_
    | with_reducible apply State.abortGroup_kept
    | with_reducible refine KeptOut.ite ?_ ?_
    | split
    | with_reducible refine Kept.fst (by assumption) ?_
    | with_reducible refine Kept.trd (by assumption) ?_
    | with_reducible refine Kept.snd (by assumption) ?_
    | with_reducible refine Kept.parts ?_
    | (with_reducible refine Kept.lit ?_; dsimp only; with_reducible refine Kept.parts ?_)
    | (intro _; try dsimp only))

end Sys2Proof.Machine
end

