-- ==== Sys2Proof/Laws/KeptLinks.lean ====
section
/-! SUPPORT. Operations and meanings of Machine/Links keep the canonical form of memory and leave the waiting commands alone. -/

namespace Sys2Proof.Machine

theorem State.rerouteFrom_kept {qq : List Instr} {s : State} {i} (hk : Kept qq s) :
    Kept qq (State.rerouteFrom s i) := by
  unfold State.rerouteFrom
  try dsimp only
  repeat' (first
    | with_reducible assumption
    | with_reducible apply State.raise_kept
    | with_reducible apply State.putOut_kept
    | with_reducible refine Kept.foldl ?_ ?_
    | with_reducible refine Kept.foldlFst ?_ ?_
    | with_reducible refine Kept.ite ?_ ?_
    | split
    | (intro _; try dsimp only))

theorem State.retrainPath_kept {qq : List Instr} {s : State} {i} (hk : Kept qq s) :
    Kept qq (State.retrainPath s i) := by
  unfold State.retrainPath
  try dsimp only
  repeat' (first
    | with_reducible assumption
    | with_reducible apply State.setFld_kept
    | with_reducible apply State.beginLock_kept
    | with_reducible apply State.syncHull_kept
    | with_reducible apply State.modLink_kept
    | with_reducible apply State.pathGoesDown_kept
    | with_reducible refine Kept.ite ?_ ?_
    | split
    | with_reducible refine Kept.parts ?_
    | (with_reducible refine Kept.lit ?_; dsimp only; first | with_reducible refine Kept.parts ?_ | with_reducible refine KeptParts.empty (Kept.parts ?_))
    | (intro _; try dsimp only))

theorem State.settleDrain_kept {qq : List Instr} {s : State} {i} (hk : Kept qq s) :
    Kept qq (State.settleDrain s i) := by
  unfold State.settleDrain
  try dsimp only
  repeat' (first
    | with_reducible assumption
    | with_reducible apply State.setReg_kept
    | with_reducible apply State.settle_kept
    | with_reducible apply State.modLink_kept
    | with_reducible apply State.broadcastStates_kept
    | with_reducible apply State.rerouteFrom_kept
    | with_reducible apply State.retrainPath_kept
    | split
    | with_reducible refine Kept.fst (by assumption) ?_
    | with_reducible refine Kept.trd (by assumption) ?_
    | with_reducible refine Kept.snd (by assumption) ?_
    | with_reducible refine Kept.parts ?_
    | (with_reducible refine Kept.lit ?_; dsimp only; first | with_reducible refine Kept.parts ?_ | with_reducible refine KeptParts.empty (Kept.parts ?_))
    | (intro _; try dsimp only))

theorem State.settleDrains_kept {qq : List Instr} {s : State} {before} (hk : Kept qq s) :
    Kept qq (State.settleDrains before s) := by
  unfold State.settleDrains
  try dsimp only
  repeat' (first
    | with_reducible assumption
    | with_reducible apply State.routesChanged_kept
    | with_reducible apply State.settleDrain_kept
    | with_reducible refine Kept.foldl ?_ ?_
    | with_reducible refine Kept.foldlFst ?_ ?_
    | with_reducible refine Kept.ite ?_ ?_
    | split
    | (intro _; try dsimp only))

theorem execPathRetrain_kept {qq : List Instr} {s : State} {i} (hk : Kept qq s) :
    KeptOut qq (execPathRetrain i s) := by
  unfold execPathRetrain
  try dsimp only
  repeat' (first
    | with_reducible assumption
    | with_reducible refine KeptOut.next ?_
    | with_reducible apply State.beginDrain_kept
    | with_reducible apply State.settleDrains_kept
    | with_reducible refine KeptOut.ite ?_ ?_
    | with_reducible refine Kept.ite ?_ ?_
    | split
    | (intro _; try dsimp only))

theorem execFlitReceive_kept {qq : List Instr} {s : State} {i} {f} {count} (hk : Kept qq s) :
    KeptOut qq (execFlitReceive i f count s) := by
  unfold execFlitReceive
  try dsimp only
  repeat' (first
    | with_reducible assumption
    | with_reducible refine KeptOut.next ?_
    | with_reducible apply State.drillPass_kept
    | with_reducible apply State.drillDrop_kept
    | with_reducible apply State.drillInject_kept
    | with_reducible apply State.modLink_kept
    | with_reducible apply State.forwardAll_kept
    | with_reducible apply State.flitRejected_kept
    | with_reducible apply State.flitTagFails_kept
    | with_reducible apply State.flitTaken_kept
    | with_reducible apply State.settleDrains_kept
    | with_reducible refine KeptOut.ite ?_ ?_
    | with_reducible refine Kept.ite ?_ ?_
    | split
    | (intro _; try dsimp only))

theorem execAckTimeout_kept {qq : List Instr} {s : State} {i} (hk : Kept qq s) :
    KeptOut qq (execAckTimeout i s) := by
  unfold execAckTimeout
  try dsimp only
  repeat' (first
    | with_reducible assumption
    | with_reducible refine KeptOut.next ?_
    | with_reducible apply State.goBack_kept
    | with_reducible refine KeptOut.ite ?_ ?_
    | with_reducible refine Kept.ite ?_ ?_
    | split
    | (intro _; try dsimp only))

theorem execPathDown_kept {qq : List Instr} {i} {cause} {s : State} (hk : Kept qq s) :
    KeptOut qq (execPathDown i cause s) := by
  unfold execPathDown
  try dsimp only
  repeat' (first
    | with_reducible assumption
    | with_reducible refine KeptOut.next ?_
    | with_reducible apply State.raise_kept
    | with_reducible apply State.pathGoesDown_kept
    | with_reducible refine KeptOut.ite ?_ ?_
    | split)

theorem State.idleFlits_kept {qq : List Instr} {s : State}  (hk : Kept qq s) :
    Kept qq (State.idleFlits s) := by
  unfold State.idleFlits
  try dsimp only
  repeat' (first
    | with_reducible assumption
    | with_reducible apply State.sendIdle_kept
    | with_reducible refine Kept.foldl ?_ ?_
    | with_reducible refine Kept.foldlFst ?_ ?_
    | with_reducible refine Kept.ite ?_ ?_
    | split
    | (intro _; try dsimp only))

theorem execPathStateBroadcast_kept {qq : List Instr} {s : State} (hk : Kept qq s) :
    KeptOut qq (execPathStateBroadcast s) := by
  unfold execPathStateBroadcast
  try dsimp only
  repeat' (first
    | with_reducible assumption
    | with_reducible refine KeptOut.next ?_
    | with_reducible apply State.broadcastStates_kept)

theorem State.takeNotice_kept {qq : List Instr} {s : State} {chip} {leaving} (hk : Kept qq s) :
    Kept qq (State.takeNotice s chip leaving) := by
  unfold State.takeNotice
  try dsimp only
  repeat' (first
    | with_reducible assumption
    | with_reducible apply State.modLink_kept
    | with_reducible refine Kept.foldl ?_ ?_
    | with_reducible refine Kept.foldlFst ?_ ?_
    | with_reducible refine Kept.ite ?_ ?_
    | split
    | with_reducible refine Kept.fst (by assumption) ?_
    | with_reducible refine Kept.trd (by assumption) ?_
    | with_reducible refine Kept.snd (by assumption) ?_
    | with_reducible refine Kept.parts ?_
    | (with_reducible refine Kept.lit ?_; dsimp only; first | with_reducible refine Kept.parts ?_ | with_reducible refine KeptParts.empty (Kept.parts ?_))
    | (intro _; try dsimp only))

theorem State.dropUnusable_kept {qq : List Instr} {s : State} {before} (hk : Kept qq s) :
    Kept qq (State.dropUnusable before s) := by
  unfold State.dropUnusable
  try dsimp only
  repeat' (first
    | with_reducible assumption
    | with_reducible apply State.dropFlits_kept
    | with_reducible refine Kept.foldl ?_ ?_
    | with_reducible refine Kept.foldlFst ?_ ?_
    | (intro _; try dsimp only))

theorem execPathStateReceive_kept {qq : List Instr} {s : State} {chip} {usable} {leaving} (hk : Kept qq s) :
    KeptOut qq (execPathStateReceive chip usable leaving s) := by
  unfold execPathStateReceive
  try dsimp only
  repeat' (first
    | with_reducible assumption
    | with_reducible refine KeptOut.next ?_
    | with_reducible apply State.routesChanged_kept
    | with_reducible apply State.settleDrains_kept
    | with_reducible apply State.takeNotice_kept
    | with_reducible apply State.dropUnusable_kept
    | with_reducible refine Kept.parts ?_
    | (with_reducible refine Kept.lit ?_; dsimp only; first | with_reducible refine Kept.parts ?_ | with_reducible refine KeptParts.empty (Kept.parts ?_))
    | (intro _; try dsimp only))

theorem execKeyEpochChange_kept {qq : List Instr} {s : State} {i} (hk : Kept qq s) :
    KeptOut qq (execKeyEpochChange i s) := by
  unfold execKeyEpochChange
  try dsimp only
  repeat' (first
    | with_reducible assumption
    | with_reducible refine KeptOut.next ?_
    | with_reducible apply State.modLink_kept
    | with_reducible refine KeptOut.ite ?_ ?_
    | with_reducible refine Kept.ite ?_ ?_
    | split
    | with_reducible refine Kept.parts ?_
    | (with_reducible refine Kept.lit ?_; dsimp only; first | with_reducible refine Kept.parts ?_ | with_reducible refine KeptParts.empty (Kept.parts ?_))
    | (intro _; try dsimp only))

theorem execPreviousKeyDiscard_kept {qq : List Instr} {s : State} {i} (hk : Kept qq s) :
    KeptOut qq (execPreviousKeyDiscard i s) := by
  unfold execPreviousKeyDiscard
  try dsimp only
  repeat' (first
    | with_reducible assumption
    | with_reducible refine KeptOut.next ?_
    | with_reducible apply State.modLink_kept
    | with_reducible refine KeptOut.ite ?_ ?_
    | with_reducible refine Kept.ite ?_ ?_
    | split
    | with_reducible refine Kept.parts ?_
    | (with_reducible refine Kept.lit ?_; dsimp only; first | with_reducible refine Kept.parts ?_ | with_reducible refine KeptParts.empty (Kept.parts ?_))
    | (intro _; try dsimp only))

end Sys2Proof.Machine
end

