-- ==== Sys2Proof/Laws/KeptDiscovery.lean ====
section
/-! SUPPORT. Operations and meanings of Machine/Discovery keep the canonical form of memory and leave the waiting commands alone. -/

namespace Sys2Proof.Machine

theorem State.setPath_kept {qq : List Instr} {s : State} {i} {st} {fpl} {f} {o} (hk : Kept qq s) :
    Kept qq (State.setPath s i st fpl f o) := by
  unfold State.setPath
  try dsimp only
  repeat' (first
    | with_reducible assumption
    | with_reducible apply State.setReg_kept
    | (intro _; try dsimp only))

theorem State.settlePath_kept {qq : List Instr} {s : State} {i} {w} (hk : Kept qq s) :
    Kept qq (State.settlePath s i w) := by
  unfold State.settlePath
  try dsimp only
  repeat' (first
    | with_reducible assumption
    | with_reducible apply State.setReg_kept
    | with_reducible apply State.settle_kept
    | with_reducible apply State.beginDrain_kept
    | with_reducible refine Kept.ite ?_ ?_
    | split
    | (intro _; try dsimp only))

theorem State.freshKeys_kept {qq : List Instr} {s : State} {i} (hk : Kept qq s) :
    Kept qq (State.freshKeys s i) := by
  unfold State.freshKeys
  try dsimp only
  repeat' (first
    | with_reducible assumption
    | with_reducible apply State.modLink_kept
    | with_reducible refine Kept.parts ?_
    | (with_reducible refine Kept.lit ?_; dsimp only; first | with_reducible refine Kept.parts ?_ | with_reducible refine KeptParts.empty (Kept.parts ?_))
    | (intro _; try dsimp only))

theorem State.pathComesUp_kept {qq : List Instr} {s : State} {i} {fpl} {f} {o} (hk : Kept qq s) :
    Kept qq (State.pathComesUp s i fpl f o) := by
  unfold State.pathComesUp
  try dsimp only
  repeat' (first
    | with_reducible assumption
    | with_reducible apply State.raise_kept
    | with_reducible apply State.setPath_kept
    | with_reducible apply State.freshKeys_kept
    | with_reducible refine Kept.ite ?_ ?_
    | split
    | (intro _; try dsimp only))

theorem State.pathMisses_kept {qq : List Instr} {s : State} {i} {f} {o} (hk : Kept qq s) :
    Kept qq (State.pathMisses s i f o) := by
  unfold State.pathMisses
  try dsimp only
  repeat' (first
    | with_reducible assumption
    | with_reducible apply State.raise_kept
    | with_reducible apply State.pathGoesDown_kept
    | with_reducible apply State.setPath_kept
    | with_reducible refine Kept.ite ?_ ?_
    | split
    | (intro _; try dsimp only))

theorem State.discoverPath_kept {qq : List Instr} {s : State} {i} {plane} {k} {f} (hk : Kept qq s) :
    Kept qq (State.discoverPath s i plane k f) := by
  unfold State.discoverPath
  try dsimp only
  repeat' (first
    | with_reducible assumption
    | with_reducible apply State.raise_kept
    | with_reducible apply State.setPath_kept
    | with_reducible apply State.settlePath_kept
    | with_reducible apply State.pathComesUp_kept
    | with_reducible apply State.pathMisses_kept
    | with_reducible refine Kept.ite ?_ ?_
    | split
    | (intro _; try dsimp only))

theorem State.portState_kept {qq : List Instr} {s : State} {port} {st} {fs} (hk : Kept qq s) :
    Kept qq (State.portState s port st fs) := by
  unfold State.portState
  try dsimp only
  repeat' (first
    | with_reducible assumption
    | with_reducible apply State.settlePath_kept
    | with_reducible refine Kept.foldl ?_ ?_
    | with_reducible refine Kept.foldlFst ?_ ?_
    | (intro _; try dsimp only))

theorem State.setPortMap_kept {qq : List Instr} {s : State} {port} {v} (hk : Kept qq s) :
    Kept qq (State.setPortMap s port v) := by
  unfold State.setPortMap
  try dsimp only
  repeat' (first
    | with_reducible assumption
    | with_reducible apply State.setFld_kept)

theorem State.quarantinePort_kept {qq : List Instr} {s : State} {port} {code} {fs} (hk : Kept qq s) :
    Kept qq (State.quarantinePort s port code fs) := by
  unfold State.quarantinePort
  try dsimp only
  repeat' (first
    | with_reducible assumption
    | with_reducible apply State.raise_kept
    | with_reducible apply State.portState_kept
    | with_reducible apply State.setPortMap_kept
    | (intro _; try dsimp only))

theorem State.discoverPort_kept {qq : List Instr} {s : State} {port} {fs} (hk : Kept qq s) :
    Kept qq (State.discoverPort s port fs) := by
  unfold State.discoverPort
  try dsimp only
  repeat' (first
    | with_reducible assumption
    | with_reducible apply State.raise_kept
    | with_reducible apply State.discoverPath_kept
    | with_reducible apply State.portState_kept
    | with_reducible apply State.setPortMap_kept
    | with_reducible apply State.quarantinePort_kept
    | with_reducible refine Kept.foldl ?_ ?_
    | with_reducible refine Kept.foldlFst ?_ ?_
    | with_reducible refine Kept.ite ?_ ?_
    | split
    | with_reducible refine Kept.fst (by assumption) ?_
    | with_reducible refine Kept.trd (by assumption) ?_
    | with_reducible refine Kept.snd (by assumption) ?_
    | (intro _; try dsimp only))

theorem execDiscovery_kept {qq : List Instr} {s : State} {port} {fs} (hk : Kept qq s) :
    KeptOut qq (execDiscovery port fs s) := by
  unfold execDiscovery
  try dsimp only
  repeat' (first
    | with_reducible assumption
    | with_reducible refine KeptOut.next ?_
    | with_reducible apply State.broadcastStates_kept
    | with_reducible apply State.routesChanged_kept
    | with_reducible apply State.settleDrains_kept
    | with_reducible apply State.discoverPort_kept
    | with_reducible refine KeptOut.ite ?_ ?_
    | with_reducible refine Kept.ite ?_ ?_
    | split
    | with_reducible refine Kept.parts ?_
    | (with_reducible refine Kept.lit ?_; dsimp only; first | with_reducible refine Kept.parts ?_ | with_reducible refine KeptParts.empty (Kept.parts ?_))
    | (intro _; try dsimp only))

theorem execMissingPeerRecheck_kept {qq : List Instr} {s : State} {i} {f} (hk : Kept qq s) :
    KeptOut qq (execMissingPeerRecheck i f s) := by
  unfold execMissingPeerRecheck
  try dsimp only
  repeat' (first
    | with_reducible assumption
    | with_reducible refine KeptOut.next ?_
    | with_reducible apply State.broadcastStates_kept
    | with_reducible apply State.routesChanged_kept
    | with_reducible apply State.discoverPath_kept
    | with_reducible refine KeptOut.ite ?_ ?_
    | with_reducible refine Kept.ite ?_ ?_
    | split
    | (intro _; try dsimp only))

end Sys2Proof.Machine
end

