-- ==== Sys2Proof/Laws/KeptMatrix.lean ====
section
/-! SUPPORT. Operations and meanings of Machine/Matrix keep the canonical form of memory and leave the waiting commands alone. -/

namespace Sys2Proof.Machine

theorem execMmIssue_kept {qq : List Instr} {s : State} {n} {stretch} (hk : Kept qq s) :
    KeptOut qq (execMmIssue n stretch s) := by
  unfold execMmIssue
  try dsimp only
  repeat' (first
    | with_reducible assumption
    | with_reducible refine KeptOut.next ?_
    | with_reducible apply State.modCore_kept
    | with_reducible apply State.markExecuted_kept
    | with_reducible apply State.raceBefore_kept
    | split
    | with_reducible refine Kept.fst (by assumption) ?_
    | with_reducible refine Kept.trd (by assumption) ?_
    | with_reducible refine Kept.snd (by assumption) ?_
    | with_reducible refine Kept.parts ?_
    | (with_reducible refine Kept.lit ?_; dsimp only; first | with_reducible refine Kept.parts ?_ | with_reducible refine KeptParts.empty (Kept.parts ?_))
    | (intro _; try dsimp only))

theorem execIssueAccumulated_kept {qq : List Instr} {n} {bank} {upsets} {s : State} (hk : Kept qq s) :
    KeptOut qq (execIssueAccumulated n bank upsets s) := by
  unfold execIssueAccumulated
  try dsimp only
  repeat' (first
    | with_reducible assumption
    | with_reducible refine KeptOut.next ?_
    | with_reducible apply State.setCore_kept
    | with_reducible refine Kept.foldl (fun _ _ _ => ?_) ?_
    | with_reducible refine KeptOut.ite ?_ ?_
    | split
    | with_reducible refine Kept.parts ?_
    | (with_reducible refine Kept.lit ?_; dsimp only; with_reducible refine Kept.parts ?_)
    | (intro _; try dsimp only))

theorem drainEffect_kept {qq : List Instr} {s : State} {b} {e} (hk : Kept qq s) :
    Kept qq (drainEffect s b e).1 := by
  unfold drainEffect
  try dsimp only
  repeat' (first
    | with_reducible assumption
    | with_reducible apply State.putValues_kept)

theorem execMmDrain_kept {qq : List Instr} {s : State} {n} (hk : Kept qq s) :
    KeptOut qq (execMmDrain n s) := by
  unfold execMmDrain
  try dsimp only
  repeat' (first
    | with_reducible assumption
    | with_reducible refine KeptOut.next ?_
    | with_reducible apply State.markExecuted_kept
    | with_reducible apply State.raceBefore_kept
    | with_reducible apply State.raceAfter_kept
    | with_reducible apply drainEffect_kept
    | with_reducible refine ExecutedKept.done (by assumption) ?_
    | with_reducible refine ExecutedKept.failed (by assumption) ?_
    | with_reducible refine ExecutedKept.lasting (by assumption) ?_
    | with_reducible exact ExecutedKept.ofFailed (by assumption)
    | with_reducible refine ExecutedKept.ite ?_ ?_
    | with_reducible refine KeptOut.ite ?_ ?_
    | with_reducible refine Kept.ite ?_ ?_
    | split
    | with_reducible refine Kept.fst (by assumption) ?_
    | with_reducible refine Kept.trd (by assumption) ?_
    | with_reducible refine Kept.snd (by assumption) ?_
    | (intro _; try dsimp only))

theorem execDrainBankRead_kept {qq : List Instr} {n} {s : State} (hk : Kept qq s) :
    KeptOut qq (execDrainBankRead n s) := by
  unfold execDrainBankRead
  try dsimp only
  repeat' (first
    | with_reducible assumption
    | with_reducible refine KeptOut.next ?_
    | with_reducible apply State.setCore_kept
    | with_reducible refine KeptOut.ite ?_ ?_
    | split
    | with_reducible refine Kept.fst (by assumption) ?_
    | with_reducible refine Kept.trd (by assumption) ?_
    | with_reducible refine Kept.snd (by assumption) ?_
    | with_reducible refine Kept.parts ?_
    | (with_reducible refine Kept.lit ?_; dsimp only; with_reducible refine Kept.parts ?_)
    | (intro _; try dsimp only))

theorem execArraysGate_kept {qq : List Instr} {s : State} {n} (hk : Kept qq s) :
    KeptOut qq (execArraysGate n s) := by
  unfold execArraysGate
  try dsimp only
  repeat' (first
    | with_reducible assumption
    | with_reducible refine KeptOut.next ?_
    | with_reducible apply State.setCore_kept
    | with_reducible refine KeptOut.ite ?_ ?_
    | with_reducible refine Kept.ite ?_ ?_
    | split
    | with_reducible refine Kept.parts ?_
    | (with_reducible refine Kept.lit ?_; dsimp only; first | with_reducible refine Kept.parts ?_ | with_reducible refine KeptParts.empty (Kept.parts ?_))
    | (intro _; try dsimp only))

theorem execArraysRiseEnd_kept {qq : List Instr} {s : State} {n} (hk : Kept qq s) :
    KeptOut qq (execArraysRiseEnd n s) := by
  unfold execArraysRiseEnd
  try dsimp only
  repeat' (first
    | with_reducible assumption
    | with_reducible refine KeptOut.next ?_
    | with_reducible apply State.setCore_kept
    | with_reducible refine KeptOut.ite ?_ ?_
    | with_reducible refine Kept.ite ?_ ?_
    | split
    | with_reducible refine Kept.parts ?_
    | (with_reducible refine Kept.lit ?_; dsimp only; first | with_reducible refine Kept.parts ?_ | with_reducible refine KeptParts.empty (Kept.parts ?_))
    | (intro _; try dsimp only))

theorem execKeepWarmExpiry_kept {qq : List Instr} {n} {s : State} (hk : Kept qq s) :
    KeptOut qq (execKeepWarmExpiry n s) := by
  unfold execKeepWarmExpiry
  try dsimp only
  repeat' (first
    | with_reducible assumption
    | with_reducible refine KeptOut.next ?_
    | with_reducible apply State.setCore_kept
    | with_reducible refine KeptOut.ite ?_ ?_
    | split)

end Sys2Proof.Machine
end

