-- ==== Sys2Proof/Laws/KeptMatrixCheck.lean ====
section
/-! SUPPORT. Operations and meanings of Machine/MatrixCheck keep the canonical form of memory and leave the waiting commands alone. -/

namespace Sys2Proof.Machine

theorem State.pendAdd_kept {qq : List Instr} {s : State} {up} (hk : Kept qq s) :
    Kept qq (State.pendAdd s up) := by
  unfold State.pendAdd
  try dsimp only
  repeat' (first
    | with_reducible assumption
    | with_reducible apply State.setFld_kept
    | with_reducible refine Kept.ite ?_ ?_
    | split)

theorem execDrainVerdict_kept {qq : List Instr} {s : State} {n} (hk : Kept qq s) :
    KeptOut qq (execDrainVerdict n s) := by
  unfold execDrainVerdict
  try dsimp only
  repeat' (first
    | with_reducible assumption
    | with_reducible refine KeptOut.next ?_
    | with_reducible apply State.drew_kept
    | with_reducible apply State.modCore_kept
    | with_reducible apply State.settle_kept
    | with_reducible apply State.drillDrop_kept
    | with_reducible apply State.drillFired_kept
    | with_reducible apply State.checkedClean_kept
    | with_reducible apply State.pendAdd_kept
    | with_reducible refine KeptOut.ite ?_ ?_
    | with_reducible refine Kept.ite ?_ ?_
    | split
    | with_reducible refine Kept.fst (by assumption) ?_
    | with_reducible refine Kept.trd (by assumption) ?_
    | with_reducible refine Kept.snd (by assumption) ?_
    | with_reducible refine Kept.parts ?_
    | (with_reducible refine Kept.lit ?_; dsimp only; first | with_reducible refine Kept.parts ?_ | with_reducible refine KeptParts.empty (Kept.parts ?_))
    | (intro _; try dsimp only))

theorem execMatrixRetry_kept {qq : List Instr} {s : State} {n} {upsets} {err} (hk : Kept qq s) :
    KeptOut qq (execMatrixRetry n upsets err s) := by
  unfold execMatrixRetry
  try dsimp only
  repeat' (first
    | with_reducible assumption
    | with_reducible refine KeptOut.next ?_
    | with_reducible apply State.setCore_kept
    | with_reducible apply State.settle_kept
    | with_reducible apply State.trap_kept
    | with_reducible apply State.askHalt_kept
    | with_reducible apply State.readCheck_kept
    | with_reducible apply State.recordCheck_kept
    | with_reducible apply State.pendAdd_kept
    | with_reducible refine Kept.foldl ?_ ?_
    | with_reducible refine Kept.foldlFst ?_ ?_
    | with_reducible refine KeptOut.ite ?_ ?_
    | with_reducible refine Kept.ite ?_ ?_
    | split
    | with_reducible refine Kept.fst (by assumption) ?_
    | with_reducible refine Kept.trd (by assumption) ?_
    | with_reducible refine Kept.snd (by assumption) ?_
    | with_reducible refine Kept.parts ?_
    | (with_reducible refine Kept.lit ?_; dsimp only; first | with_reducible refine Kept.parts ?_ | with_reducible refine KeptParts.empty (Kept.parts ?_))
    | (intro _; try dsimp only))

theorem execRetryVerdict_kept {qq : List Instr} {s : State} {n} (hk : Kept qq s) :
    KeptOut qq (execRetryVerdict n s) := by
  unfold execRetryVerdict
  try dsimp only
  repeat' (first
    | with_reducible assumption
    | with_reducible refine KeptOut.next ?_
    | with_reducible apply State.setCore_kept
    | with_reducible apply State.modCore_kept
    | with_reducible apply State.settle_kept
    | with_reducible apply State.trap_kept
    | with_reducible apply State.recordCheck_kept
    | with_reducible apply State.checkedClean_kept
    | with_reducible apply drainEffect_kept
    | with_reducible apply State.pendAdd_kept
    | with_reducible refine ExecutedKept.done (by assumption) ?_
    | with_reducible refine ExecutedKept.failed (by assumption) ?_
    | with_reducible refine ExecutedKept.lasting (by assumption) ?_
    | with_reducible exact ExecutedKept.ofFailed (by assumption)
    | with_reducible refine ExecutedKept.ite ?_ ?_
    | split
    | with_reducible refine Kept.fst (by assumption) ?_
    | with_reducible refine Kept.trd (by assumption) ?_
    | with_reducible refine Kept.snd (by assumption) ?_
    | with_reducible refine Kept.parts ?_
    | (with_reducible refine Kept.lit ?_; dsimp only; first | with_reducible refine Kept.parts ?_ | with_reducible refine KeptParts.empty (Kept.parts ?_))
    | (intro _; try dsimp only))

end Sys2Proof.Machine
end

