-- ==== Sys2Proof/Laws/KeptModule.lean ====
section
/-! SUPPORT. Operations and meanings of Machine/Module keep the canonical form of memory and leave the waiting commands alone. -/

namespace Sys2Proof.Machine

theorem State.setMstate_kept {qq : List Instr} {s : State} {m} (hk : Kept qq s) :
    Kept qq (State.setMstate s m) := by
  unfold State.setMstate
  try dsimp only
  repeat' (first
    | with_reducible assumption
    | with_reducible apply State.ringSend_kept
    | with_reducible apply State.setFld_kept
    | with_reducible refine Kept.ite ?_ ?_
    | split)

theorem State.addRecord_kept {qq : List Instr} {s : State} {job} {kind} {reason} {arg} {detail} {final} (hk : Kept qq s) :
    Kept qq (State.addRecord s job kind reason arg detail final) := by
  unfold State.addRecord
  try dsimp only
  repeat' (first
    | with_reducible assumption
    | with_reducible apply State.raiseJob_kept
    | with_reducible refine Kept.ite ?_ ?_
    | split
    | with_reducible refine Kept.fst (by assumption) ?_
    | with_reducible refine Kept.trd (by assumption) ?_
    | with_reducible refine Kept.snd (by assumption) ?_
    | with_reducible refine Kept.parts ?_
    | (with_reducible refine Kept.lit ?_; dsimp only; first | with_reducible refine Kept.parts ?_ | with_reducible refine KeptParts.filter (Kept.parts ?_) | with_reducible refine KeptParts.empty (Kept.parts ?_))
    | (intro _; try dsimp only))

theorem State.startCore_kept {qq : List Instr} {s : State} {n} {j} (hk : Kept qq s) :
    Kept qq (State.startCore s n j) := by
  unfold State.startCore
  try dsimp only
  repeat' (first
    | with_reducible assumption
    | with_reducible apply State.setCore_kept
    | with_reducible refine Kept.ite ?_ ?_
    | split
    | with_reducible refine Kept.parts ?_
    | (with_reducible refine Kept.lit ?_; dsimp only; first | with_reducible refine Kept.parts ?_ | with_reducible refine KeptParts.empty (Kept.parts ?_))
    | (intro _; try dsimp only))

theorem State.leaveJob_kept {qq : List Instr} {s : State} {n} (hk : Kept qq s) :
    Kept qq (State.leaveJob s n) := by
  unfold State.leaveJob
  try dsimp only
  repeat' (first
    | with_reducible assumption
    | with_reducible apply State.modCore_kept
    | with_reducible refine Kept.ite ?_ ?_
    | split
    | with_reducible refine Kept.parts ?_
    | (with_reducible refine Kept.lit ?_; dsimp only; first | with_reducible refine Kept.parts ?_ | with_reducible refine KeptParts.empty (Kept.parts ?_))
    | (intro _; try dsimp only))

theorem State.releaseJob_kept {qq : List Instr} {s : State} {j} (hk : Kept qq s) :
    Kept qq (State.releaseJob s j) := by
  unfold State.releaseJob
  try dsimp only
  repeat' (first
    | with_reducible assumption
    | with_reducible apply State.releaseGroups_kept
    | with_reducible apply State.leaveJob_kept
    | with_reducible refine Kept.foldl ?_ ?_
    | with_reducible refine Kept.foldlFst ?_ ?_
    | with_reducible refine Kept.ite ?_ ?_
    | split
    | with_reducible refine Kept.fst (by assumption) ?_
    | with_reducible refine Kept.trd (by assumption) ?_
    | with_reducible refine Kept.snd (by assumption) ?_
    | with_reducible refine Kept.parts ?_
    | (with_reducible refine Kept.lit ?_; dsimp only; first | with_reducible refine Kept.parts ?_ | with_reducible refine KeptParts.empty (Kept.parts ?_))
    | (intro _; try dsimp only))

theorem State.abandonMessage_kept {qq : List Instr} {s : State} {m} (hk : Kept qq s) :
    Kept qq (State.abandonMessage s m) := by
  unfold State.abandonMessage
  try dsimp only
  repeat' (first
    | with_reducible assumption
    | with_reducible apply State.recordCheck_kept
    | with_reducible refine Kept.parts ?_
    | (with_reducible refine Kept.lit ?_; dsimp only; first | with_reducible refine Kept.parts ?_ | with_reducible refine KeptParts.empty (Kept.parts ?_))
    | (intro _; try dsimp only))

theorem State.abandonWork_kept {qq : List Instr} {s : State} {n} (hk : Kept qq s) :
    Kept qq (State.abandonWork s n) := by
  unfold State.abandonWork
  try dsimp only
  repeat' (first
    | with_reducible assumption
    | with_reducible apply State.recordCheck_kept
    | with_reducible apply State.freeOverlap_kept
    | with_reducible apply State.pendAdd_kept
    | with_reducible apply State.abandonMessage_kept
    | with_reducible refine Kept.foldl ?_ ?_
    | with_reducible refine Kept.foldlFst ?_ ?_
    | with_reducible refine Kept.ite ?_ ?_
    | split
    | (intro _; try dsimp only))

theorem State.retainWindows_kept {qq : List Instr} {s : State} {j} (hk : Kept qq s) :
    Kept qq (State.retainWindows s j) := by
  unfold State.retainWindows
  try dsimp only
  repeat' (first
    | with_reducible assumption
    | with_reducible refine Kept.ite ?_ ?_
    | split
    | with_reducible refine Kept.parts ?_
    | (with_reducible refine Kept.lit ?_; dsimp only; first | with_reducible refine Kept.parts ?_ | with_reducible refine KeptParts.filter (Kept.parts ?_))
    | (intro _; try dsimp only))

theorem State.haltJob_kept {qq : List Instr} {s : State} {j} {m} (hk : Kept qq s) :
    Kept qq (State.haltJob s j m) := by
  unfold State.haltJob
  try dsimp only
  repeat' (first
    | with_reducible assumption
    | with_reducible apply State.haltGroups_kept
    | with_reducible apply State.abandonWork_kept
    | with_reducible apply State.retainWindows_kept
    | with_reducible apply State.addRecord_kept
    | with_reducible apply State.releaseJob_kept
    | with_reducible apply State.journalAdd_kept
    | with_reducible apply State.raiseJob_kept
    | with_reducible refine Kept.foldl (fun _ _ _ => ?_) ?_
    | with_reducible refine Kept.ite ?_ ?_
    | split
    | with_reducible refine Kept.parts ?_
    | (with_reducible refine Kept.lit ?_; dsimp only; first | with_reducible refine Kept.parts ?_ | with_reducible refine KeptParts.filter (Kept.parts ?_) | with_reducible refine KeptParts.empty (Kept.parts ?_))
    | (intro _; try dsimp only))

theorem State.sendHalt_kept {qq : List Instr} {s : State} {m} {row} (hk : Kept qq s) :
    Kept qq (State.sendHalt s m row) := by
  unfold State.sendHalt
  try dsimp only
  repeat' (first
    | with_reducible assumption
    | with_reducible apply State.emit_kept
    | with_reducible refine Kept.foldl (fun _ _ _ => ?_) ?_
    | with_reducible refine Kept.ite ?_ ?_
    | split
    | (intro _; try dsimp only))

theorem State.originHalt_kept {qq : List Instr} {s : State} {h} (hk : Kept qq s) :
    Kept qq (State.originHalt s h) := by
  unfold State.originHalt
  try dsimp only
  repeat' (first
    | with_reducible assumption
    | with_reducible apply State.sendHalt_kept
    | with_reducible apply State.haltJob_kept
    | with_reducible refine Kept.ite ?_ ?_
    | split
    | with_reducible refine Kept.fst (by assumption) ?_
    | with_reducible refine Kept.trd (by assumption) ?_
    | with_reducible refine Kept.snd (by assumption) ?_
    | with_reducible refine Kept.parts ?_
    | (with_reducible refine Kept.lit ?_; dsimp only; first | with_reducible refine Kept.parts ?_ | with_reducible refine KeptParts.empty (Kept.parts ?_))
    | (intro _; try dsimp only))

theorem State.haltAll_kept {qq : List Instr} {s : State} {cause} (hk : Kept qq s) :
    Kept qq (State.haltAll s cause) := by
  unfold State.haltAll
  try dsimp only
  repeat' (first
    | with_reducible assumption
    | with_reducible apply State.originHalt_kept
    | with_reducible refine Kept.foldl (fun _ _ _ => ?_) ?_
    | (intro _; try dsimp only))

end Sys2Proof.Machine
end

