-- ==== Sys2Proof/Laws/KeptRestart.lean ====
section
/-! SUPPORT. Operations and meanings of Machine/Restart keep the canonical form of memory and leave the waiting commands alone. -/

namespace Sys2Proof.Machine

theorem State.syncSec_kept {qq : List Instr} {s : State} (hk : Kept qq s) :
    Kept qq (State.syncSec s) := by
  unfold State.syncSec
  try dsimp only
  repeat' (first
    | with_reducible assumption
    | with_reducible apply State.setReg_kept
    | split)

theorem State.mainUp_kept {qq : List Instr} {s : State} (hk : Kept qq s) :
    Kept qq (State.mainUp s) := by
  unfold State.mainUp
  try dsimp only
  repeat' (first
    | with_reducible assumption
    | with_reducible apply State.setMstate_kept
    | split
    | with_reducible refine Kept.parts ?_
    | (with_reducible refine Kept.lit ?_; dsimp only; with_reducible refine Kept.parts ?_))

theorem State.mainOff_kept {qq : List Instr} {s : State}  (hk : Kept qq s) :
    Kept qq (State.mainOff s) := by
  unfold State.mainOff
  try dsimp only
  repeat' (first
    | with_reducible assumption
    | with_reducible apply State.setReg_kept
    | with_reducible apply State.setFld_kept
    | with_reducible refine Kept.foldl ?_ ?_
    | with_reducible refine Kept.foldlFst ?_ ?_
    | with_reducible refine Kept.ite ?_ ?_
    | split
    | with_reducible refine Kept.fst (by assumption) ?_
    | with_reducible refine Kept.trd (by assumption) ?_
    | with_reducible refine Kept.snd (by assumption) ?_
    | with_reducible refine Kept.parts ?_
    | (with_reducible refine Kept.lit ?_; dsimp only; first | with_reducible refine Kept.parts ?_ | with_reducible refine KeptParts.empty (Kept.parts ?_))
    | (intro _; try dsimp only))

theorem State.mainDown_kept {qq : List Instr} {s : State} {m} (hk : Kept qq s) :
    Kept qq (State.mainDown s m) := by
  unfold State.mainDown
  try dsimp only
  repeat' (first
    | with_reducible assumption
    | with_reducible apply State.setFld_kept
    | with_reducible apply State.mainOff_kept
    | with_reducible apply State.setMstate_kept
    | split
    | with_reducible refine Kept.parts ?_
    | (with_reducible refine Kept.lit ?_; dsimp only; with_reducible refine Kept.parts ?_))

theorem State.enterRecovery_kept {qq : List Instr} {s : State} {reason} (hk : Kept qq s) :
    Kept qq (State.enterRecovery s reason) := by
  unfold State.enterRecovery
  try dsimp only
  repeat' (first
    | with_reducible assumption
    | with_reducible apply State.setMstate_kept
    | with_reducible apply State.setBit_kept
    | with_reducible apply State.setFld_kept
    | with_reducible apply State.raise_kept
    | split
    | with_reducible refine Kept.parts ?_
    | (with_reducible refine Kept.lit ?_; dsimp only; first | with_reducible refine Kept.parts ?_ | with_reducible refine KeptParts.empty (Kept.parts ?_)))

theorem State.bootBase_kept {qq : List Instr} {s : State} {f : Flash} {plan : Option Plan} {cause : Nat} (hk : Kept qq s) :
    Kept qq (s.bootBase f plan cause) := ⟨hk.1, rfl, rfl⟩

theorem State.startBoot_kept {qq : List Instr} {s : State} {cause} (hk : Kept qq s) :
    Kept qq (State.startBoot s cause) := by
  unfold State.startBoot
  try dsimp only
  repeat' (first
    | with_reducible assumption
    | with_reducible apply State.bootBase_kept
    | with_reducible apply State.setReg_kept
    | with_reducible apply State.setFld_kept
    | with_reducible apply State.setBit_kept
    | with_reducible apply State.setMstate_kept
    | with_reducible apply State.mainUp_kept
    | with_reducible apply State.enterRecovery_kept
    | with_reducible refine Kept.foldl (fun _ _ _ => ?_) ?_
    | with_reducible refine Kept.ite ?_ ?_
    | split
    | with_reducible refine Kept.fst (by assumption) ?_
    | with_reducible refine Kept.trd (by assumption) ?_
    | with_reducible refine Kept.snd (by assumption) ?_
    | with_reducible refine Kept.parts ?_
    | (with_reducible refine Kept.lit ?_; dsimp only; with_reducible refine Kept.parts ?_)
    | (intro _; try dsimp only))

theorem State.afterJob_kept {qq : List Instr} {s : State} (hk : Kept qq s) :
    Kept qq (State.afterJob s) := by
  unfold State.afterJob
  try dsimp only
  repeat' (first
    | with_reducible assumption
    | with_reducible apply State.startBoot_kept
    | with_reducible refine Kept.ite ?_ ?_
    | split
    | with_reducible refine Kept.parts ?_
    | (with_reducible refine Kept.lit ?_; dsimp only; with_reducible refine Kept.parts ?_))

theorem State.endJob_kept {qq : List Instr} {s : State} {j} (hk : Kept qq s) :
    Kept qq (State.endJob s j) := by
  unfold State.endJob
  try dsimp only
  repeat' (first
    | with_reducible assumption
    | with_reducible apply State.afterJob_kept
    | with_reducible apply State.releaseJob_kept
    | with_reducible apply State.raiseJob_kept
    | with_reducible apply State.addRecord_kept)

theorem State.syncGroup_kept {qq : List Instr} {s : State} {d} {g} (hk : Kept qq s) :
    Kept qq (State.syncGroup s d g) := by
  unfold State.syncGroup
  try dsimp only
  repeat' (first
    | with_reducible assumption
    | with_reducible apply State.setFld_kept
    | with_reducible apply State.setBit_kept
    | split
    | (intro _; try dsimp only))

theorem State.syncLink_kept {qq : List Instr} {s : State} (hk : Kept qq s) :
    Kept qq (State.syncLink s) := by
  unfold State.syncLink
  try dsimp only
  repeat' (first
    | with_reducible assumption
    | with_reducible apply State.setFld_kept
    | split)

theorem State.buildTables_kept {qq : List Instr} {s : State} (hk : Kept qq s) :
    Kept qq (State.buildTables s) := by
  unfold State.buildTables
  try dsimp only
  repeat' (first
    | with_reducible assumption
    | with_reducible apply State.setReg_kept
    | with_reducible apply State.setFld_kept
    | with_reducible refine Kept.foldl (fun _ _ _ => ?_) ?_
    | split
    | with_reducible refine Kept.parts ?_
    | (with_reducible refine Kept.lit ?_; dsimp only; first | with_reducible refine Kept.parts ?_ | with_reducible refine KeptParts.filter (Kept.parts ?_))
    | (intro _; try dsimp only))

theorem State.testChannels_kept {qq : List Instr} {s : State} {fails} (hk : Kept qq s) :
    Kept qq (State.testChannels s fails) := by
  unfold State.testChannels
  try dsimp only
  repeat' (first
    | with_reducible assumption
    | with_reducible apply State.setReg_kept
    | with_reducible apply State.raise_kept
    | with_reducible apply State.buildTables_kept
    | with_reducible refine Kept.foldl ?_ ?_
    | with_reducible refine Kept.foldlFst ?_ ?_
    | with_reducible refine Kept.ite ?_ ?_
    | split
    | with_reducible refine Kept.parts ?_
    | (with_reducible refine Kept.lit ?_; dsimp only; first | with_reducible refine Kept.parts ?_ | with_reducible refine KeptParts.empty (Kept.parts ?_))
    | (intro _; try dsimp only))

end Sys2Proof.Machine
end

