-- ==== Sys2Proof/Laws/KeptHull.lean ====
section
/-! SUPPORT. Operations and meanings of Machine/Hull keep the canonical form of memory and leave the waiting commands alone. -/

namespace Sys2Proof.Machine

theorem State.takeDown_kept {qq : List Instr} {s : State} {i} (hk : Kept qq s) :
    Kept qq (State.takeDown s i) := by
  unfold State.takeDown
  try dsimp only
  repeat' (first
    | with_reducible assumption
    | with_reducible apply State.pathGoesDown_kept
    | with_reducible refine Kept.ite ?_ ?_
    | split
    | (intro _; try dsimp only))

theorem State.laneGoesDark_kept {qq : List Instr} {s : State} {i} (hk : Kept qq s) :
    Kept qq (State.laneGoesDark s i) := by
  unfold State.laneGoesDark
  try dsimp only
  repeat' (first
    | with_reducible assumption
    | with_reducible apply State.setFld_kept
    | with_reducible apply State.laneTo_kept
    | with_reducible refine Kept.ite ?_ ?_
    | split
    | (intro _; try dsimp only))

theorem execLaserLight_kept {qq : List Instr} {s : State}  (hk : Kept qq s) :
    KeptOut qq (execLaserLight s) := by
  unfold execLaserLight
  try dsimp only
  repeat' (first
    | with_reducible assumption
    | with_reducible refine KeptOut.next ?_
    | with_reducible apply State.setFld_kept
    | with_reducible apply State.beginLock_kept
    | with_reducible apply State.syncHull_kept
    | with_reducible refine Kept.foldl ?_ ?_
    | with_reducible refine Kept.foldlFst ?_ ?_
    | with_reducible refine KeptOut.ite ?_ ?_
    | with_reducible refine Kept.ite ?_ ?_
    | split
    | (intro _; try dsimp only))

theorem execLaneSweepDone_kept {qq : List Instr} {s : State} {i} (hk : Kept qq s) :
    KeptOut qq (execLaneSweepDone i s) := by
  unfold execLaneSweepDone
  try dsimp only
  repeat' (first
    | with_reducible assumption
    | with_reducible refine KeptOut.next ?_
    | with_reducible apply State.setBit_kept
    | with_reducible apply State.laneTo_kept
    | with_reducible apply State.syncHull_kept
    | with_reducible refine KeptOut.ite ?_ ?_
    | with_reducible refine Kept.ite ?_ ?_
    | split
    | (intro _; try dsimp only))

theorem execLaneRestoreDone_kept {qq : List Instr} {i} {s : State} (hk : Kept qq s) :
    KeptOut qq (execLaneRestoreDone i s) := by
  unfold execLaneRestoreDone
  try dsimp only
  repeat' (first
    | with_reducible assumption
    | with_reducible refine KeptOut.next ?_
    | with_reducible apply State.setBit_kept
    | with_reducible apply State.laneTo_kept
    | with_reducible refine KeptOut.ite ?_ ?_
    | split)

theorem execLaneRestoreTimeout_kept {qq : List Instr} {s : State} {i} (hk : Kept qq s) :
    KeptOut qq (execLaneRestoreTimeout i s) := by
  unfold execLaneRestoreTimeout
  try dsimp only
  repeat' (first
    | with_reducible assumption
    | with_reducible refine KeptOut.next ?_
    | with_reducible apply State.laneTo_kept
    | with_reducible apply State.syncHull_kept
    | with_reducible refine KeptOut.ite ?_ ?_
    | with_reducible refine Kept.ite ?_ ?_
    | split
    | (intro _; try dsimp only))

theorem execLaneAcquired_kept {qq : List Instr} {i} {loofs} {rxp} {s : State} (hk : Kept qq s) :
    KeptOut qq (execLaneAcquired i loofs rxp s) := by
  unfold execLaneAcquired
  try dsimp only
  repeat' (first
    | with_reducible assumption
    | with_reducible refine KeptOut.next ?_
    | with_reducible apply State.setFld_kept
    | with_reducible apply State.laneTo_kept
    | with_reducible refine KeptOut.ite ?_ ?_
    | split)

theorem State.relock_kept {qq : List Instr} {s : State} {i} (hk : Kept qq s) :
    Kept qq (State.relock s i) := by
  unfold State.relock
  try dsimp only
  repeat' (first
    | with_reducible assumption
    | with_reducible apply State.setFld_kept
    | with_reducible apply State.setBit_kept
    | with_reducible apply State.raise_kept
    | with_reducible apply State.laneTo_kept
    | (intro _; try dsimp only))

theorem State.wrongLock_kept {qq : List Instr} {s : State} {i} (hk : Kept qq s) :
    Kept qq (State.wrongLock s i) := by
  unfold State.wrongLock
  try dsimp only
  repeat' (first
    | with_reducible assumption
    | with_reducible apply State.raise_kept
    | with_reducible apply State.syncHull_kept
    | with_reducible apply State.broadcastStates_kept
    | with_reducible apply State.laneGoesDark_kept
    | with_reducible apply State.relock_kept
    | with_reducible refine Kept.ite ?_ ?_
    | split
    | (intro _; try dsimp only))

theorem State.keepPoint_kept {qq : List Instr} {s : State} {i} {moved} (hk : Kept qq s) :
    Kept qq (State.keepPoint s i moved) := by
  unfold State.keepPoint
  try dsimp only
  repeat' (first
    | with_reducible assumption
    | with_reducible refine Kept.ite ?_ ?_
    | split
    | with_reducible refine Kept.fst (by assumption) ?_
    | with_reducible refine Kept.trd (by assumption) ?_
    | with_reducible refine Kept.snd (by assumption) ?_
    | with_reducible refine Kept.parts ?_
    | (with_reducible refine Kept.lit ?_; dsimp only; first | with_reducible refine Kept.parts ?_ | with_reducible refine KeptParts.empty (Kept.parts ?_))
    | (intro _; try dsimp only))

theorem execLaneVerify_kept {qq : List Instr} {s : State} {i} {pilot} {index} {moved} (hk : Kept qq s) :
    KeptOut qq (execLaneVerify i pilot index moved s) := by
  unfold execLaneVerify
  try dsimp only
  repeat' (first
    | with_reducible assumption
    | with_reducible refine KeptOut.next ?_
    | with_reducible apply State.setFld_kept
    | with_reducible apply State.lockFrom_kept
    | with_reducible apply State.syncHull_kept
    | with_reducible apply State.wrongLock_kept
    | with_reducible apply State.keepPoint_kept
    | with_reducible refine KeptOut.ite ?_ ?_
    | with_reducible refine Kept.ite ?_ ?_
    | split
    | (intro _; try dsimp only))

theorem execLossOfLock_kept {qq : List Instr} {s : State} {i} (hk : Kept qq s) :
    KeptOut qq (execLossOfLock i s) := by
  unfold execLossOfLock
  try dsimp only
  repeat' (first
    | with_reducible assumption
    | with_reducible refine KeptOut.next ?_
    | with_reducible apply State.raise_kept
    | with_reducible apply State.drillPass_kept
    | with_reducible apply State.drillDrop_kept
    | with_reducible apply State.beginLock_kept
    | with_reducible apply State.syncHull_kept
    | with_reducible apply State.takeDown_kept
    | with_reducible refine KeptOut.ite ?_ ?_
    | with_reducible refine Kept.ite ?_ ?_
    | split
    | (intro _; try dsimp only))

theorem State.noteFec_kept {qq : List Instr} {s : State} {i} {preber} {corr} {uncorr} (hk : Kept qq s) :
    Kept qq (State.noteFec s i preber corr uncorr) := by
  unfold State.noteFec
  try dsimp only
  repeat' (first
    | with_reducible assumption
    | with_reducible apply State.setFld_kept
    | with_reducible apply State.bump_kept
    | (intro _; try dsimp only))

theorem execBerLimitExceeded_kept {qq : List Instr} {s : State} {i} {preber} {corr} {uncorr} (hk : Kept qq s) :
    KeptOut qq (execBerLimitExceeded i preber corr uncorr s) := by
  unfold execBerLimitExceeded
  try dsimp only
  repeat' (first
    | with_reducible assumption
    | with_reducible refine KeptOut.next ?_
    | with_reducible apply State.beginLock_kept
    | with_reducible apply State.syncHull_kept
    | with_reducible apply State.takeDown_kept
    | with_reducible apply State.noteFec_kept
    | with_reducible refine KeptOut.ite ?_ ?_
    | with_reducible refine Kept.ite ?_ ?_
    | split
    | (intro _; try dsimp only))

theorem execBerWarning_kept {qq : List Instr} {s : State} {i} {preber} {corr} {uncorr} (hk : Kept qq s) :
    KeptOut qq (execBerWarning i preber corr uncorr s) := by
  unfold execBerWarning
  try dsimp only
  repeat' (first
    | with_reducible assumption
    | with_reducible refine KeptOut.next ?_
    | with_reducible apply State.raise_kept
    | with_reducible apply State.noteFec_kept
    | with_reducible refine KeptOut.ite ?_ ?_
    | with_reducible refine Kept.ite ?_ ?_
    | split
    | with_reducible refine Kept.parts ?_
    | (with_reducible refine Kept.lit ?_; dsimp only; first | with_reducible refine Kept.parts ?_ | with_reducible refine KeptParts.empty (Kept.parts ?_))
    | (intro _; try dsimp only))

theorem execWrongIndexInService_kept {qq : List Instr} {s : State} {i} {pilot} {index} (hk : Kept qq s) :
    KeptOut qq (execWrongIndexInService i pilot index s) := by
  unfold execWrongIndexInService
  try dsimp only
  repeat' (first
    | with_reducible assumption
    | with_reducible refine KeptOut.next ?_
    | with_reducible apply State.setFld_kept
    | with_reducible apply State.syncHull_kept
    | with_reducible apply State.takeDown_kept
    | with_reducible apply State.relock_kept
    | with_reducible refine KeptOut.ite ?_ ?_
    | with_reducible refine Kept.ite ?_ ?_
    | split
    | with_reducible refine Kept.parts ?_
    | (with_reducible refine Kept.lit ?_; dsimp only; first | with_reducible refine Kept.parts ?_ | with_reducible refine KeptParts.empty (Kept.parts ?_))
    | (intro _; try dsimp only))

theorem execRelockAttempt_kept {qq : List Instr} {s : State} {i} {found} (hk : Kept qq s) :
    KeptOut qq (execRelockAttempt i found s) := by
  unfold execRelockAttempt
  try dsimp only
  repeat' (first
    | with_reducible assumption
    | with_reducible refine KeptOut.next ?_
    | with_reducible apply State.setFld_kept
    | with_reducible apply State.laneTo_kept
    | with_reducible refine KeptOut.ite ?_ ?_
    | with_reducible refine Kept.ite ?_ ?_
    | split
    | (intro _; try dsimp only))

theorem execAttemptCountReset_kept {qq : List Instr} {i} {s : State} (hk : Kept qq s) :
    KeptOut qq (execAttemptCountReset i s) := by
  unfold execAttemptCountReset
  try dsimp only
  repeat' (first
    | with_reducible assumption
    | with_reducible refine KeptOut.next ?_
    | with_reducible apply State.setFld_kept
    | with_reducible refine KeptOut.ite ?_ ?_
    | split)

theorem State.laneRetry_kept {qq : List Instr} {s : State} {i} (hk : Kept qq s) :
    Kept qq (State.laneRetry s i) := by
  unfold State.laneRetry
  try dsimp only
  repeat' (first
    | with_reducible assumption
    | with_reducible apply State.setFld_kept
    | with_reducible apply State.lockFrom_kept
    | with_reducible apply State.syncHull_kept
    | with_reducible refine Kept.ite ?_ ?_
    | split)

theorem State.hullCold_kept {qq : List Instr} {s : State} (hk : Kept qq s) :
    Kept qq (State.hullCold s) := by
  unfold State.hullCold
  try dsimp only
  repeat' (first
    | with_reducible assumption
    | with_reducible refine Kept.parts ?_
    | (with_reducible refine Kept.lit ?_; dsimp only; with_reducible refine Kept.parts ?_))

theorem State.warmSpare_kept {qq : List Instr} {s : State} {i} {k} (hk : Kept qq s) :
    Kept qq (State.warmSpare s i k) := by
  unfold State.warmSpare
  try dsimp only
  repeat' (first
    | with_reducible assumption
    | with_reducible apply State.setFld_kept)

theorem State.assignSpares_kept {qq : List Instr} {s : State} {c} (hk : Kept qq s) :
    Kept qq (State.assignSpares s c) := by
  unfold State.assignSpares
  try dsimp only
  repeat' (first
    | with_reducible assumption
    | with_reducible apply State.warmSpare_kept
    | with_reducible refine Kept.foldl (fun _ _ _ => ?_) ?_
    | split
    | with_reducible refine Kept.fst (by assumption) ?_
    | with_reducible refine Kept.trd (by assumption) ?_
    | with_reducible refine Kept.snd (by assumption) ?_
    | with_reducible refine Kept.parts ?_
    | (with_reducible refine Kept.lit ?_; dsimp only; with_reducible refine Kept.parts ?_)
    | (intro _; try dsimp only))

theorem State.queueSwap_kept {qq : List Instr} {s : State} {i} {paths} (hk : Kept qq s) :
    Kept qq (State.queueSwap s i paths) := by
  unfold State.queueSwap
  try dsimp only
  repeat' (first
    | with_reducible assumption
    | with_reducible refine Kept.ite ?_ ?_
    | split
    | with_reducible refine Kept.fst (by assumption) ?_
    | with_reducible refine Kept.trd (by assumption) ?_
    | with_reducible refine Kept.snd (by assumption) ?_
    | with_reducible refine Kept.parts ?_
    | (with_reducible refine Kept.lit ?_; dsimp only; first | with_reducible refine Kept.parts ?_ | with_reducible refine KeptParts.empty (Kept.parts ?_))
    | (intro _; try dsimp only))

theorem State.biasState_kept {qq : List Instr} {s : State} {c} {k} {i} {low} (hk : Kept qq s) :
    Kept qq (State.biasState s c k i low) := by
  unfold State.biasState
  try dsimp only
  repeat' (first
    | with_reducible assumption
    | with_reducible apply State.setFld_kept
    | with_reducible apply State.raise_kept
    | with_reducible apply State.assignSpares_kept
    | with_reducible apply State.queueSwap_kept
    | with_reducible refine Kept.ite ?_ ?_
    | split
    | with_reducible refine Kept.fst (by assumption) ?_
    | with_reducible refine Kept.trd (by assumption) ?_
    | with_reducible refine Kept.snd (by assumption) ?_
    | (intro _; try dsimp only))

theorem execBiasSample_kept {qq : List Instr} {s : State} {i} {bias} {power} {offset} {temp} (hk : Kept qq s) :
    KeptOut qq (execBiasSample i bias power offset temp s) := by
  unfold execBiasSample
  try dsimp only
  repeat' (first
    | with_reducible assumption
    | with_reducible refine KeptOut.next ?_
    | with_reducible apply State.setReg_kept
    | with_reducible apply State.setFld_kept
    | with_reducible apply State.syncHull_kept
    | with_reducible apply State.biasState_kept
    | with_reducible refine KeptOut.ite ?_ ?_
    | with_reducible refine Kept.ite ?_ ?_
    | split
    | with_reducible refine Kept.fst (by assumption) ?_
    | with_reducible refine Kept.trd (by assumption) ?_
    | with_reducible refine Kept.snd (by assumption) ?_
    | with_reducible refine Kept.parts ?_
    | (with_reducible refine Kept.lit ?_; dsimp only; first | with_reducible refine Kept.parts ?_ | with_reducible refine KeptParts.empty (Kept.parts ?_))
    | (intro _; try dsimp only))

theorem execSpareWarmDone_kept {qq : List Instr} {i} {s : State} (hk : Kept qq s) :
    KeptOut qq (execSpareWarmDone i s) := by
  unfold execSpareWarmDone
  try dsimp only
  repeat' (first
    | with_reducible assumption
    | with_reducible refine KeptOut.next ?_
    | with_reducible apply State.setFld_kept
    | with_reducible refine KeptOut.ite ?_ ?_
    | split)

theorem State.setSwap_kept {qq : List Instr} {s : State} {c} {w} (hk : Kept qq s) :
    Kept qq (State.setSwap s c w) := by
  unfold State.setSwap
  try dsimp only
  repeat' (first
    | with_reducible assumption
    | with_reducible refine Kept.parts ?_
    | (with_reducible refine Kept.lit ?_; dsimp only; with_reducible refine Kept.parts ?_))

theorem State.endLaser_kept {qq : List Instr} {s : State} {i} {st} (hk : Kept qq s) :
    Kept qq (State.endLaser s i st) := by
  unfold State.endLaser
  try dsimp only
  repeat' (first
    | with_reducible assumption
    | with_reducible apply State.setFld_kept
    | split
    | with_reducible refine Kept.parts ?_
    | (with_reducible refine Kept.lit ?_; dsimp only; with_reducible refine Kept.parts ?_))

theorem State.goDark_kept {qq : List Instr} {s : State} {c} {k} (hk : Kept qq s) :
    Kept qq (State.goDark s c k) := by
  unfold State.goDark
  try dsimp only
  repeat' (first
    | with_reducible assumption
    | with_reducible apply State.raise_kept
    | with_reducible apply State.setFeed_kept
    | with_reducible apply State.syncHull_kept
    | with_reducible apply State.broadcastStates_kept
    | with_reducible apply State.takeDown_kept
    | with_reducible apply State.laneGoesDark_kept
    | with_reducible refine Kept.foldl ?_ ?_
    | with_reducible refine Kept.foldlFst ?_ ?_
    | (intro _; try dsimp only))

theorem State.waveLost_kept {qq : List Instr} {s : State} {c} {k} (hk : Kept qq s) :
    Kept qq (State.waveLost s c k) := by
  unfold State.waveLost
  try dsimp only
  repeat' (first
    | with_reducible assumption
    | with_reducible apply State.raise_kept
    | with_reducible apply State.laneTo_kept
    | with_reducible apply State.takeDown_kept
    | with_reducible refine Kept.foldl ?_ ?_
    | with_reducible refine Kept.foldlFst ?_ ?_
    | with_reducible refine Kept.ite ?_ ?_
    | split
    | (intro _; try dsimp only))

theorem State.transfer_kept {qq : List Instr} {s : State} {c} {k} {m} (hk : Kept qq s) :
    Kept qq (State.transfer s c k m) := by
  unfold State.transfer
  try dsimp only
  repeat' (first
    | with_reducible assumption
    | with_reducible apply State.setFeed_kept
    | with_reducible apply State.setFld_kept
    | with_reducible apply State.beginLock_kept
    | with_reducible refine Kept.foldl (fun _ _ _ => ?_) ?_
    | with_reducible refine Kept.ite ?_ ?_
    | split
    | (intro _; try dsimp only))

theorem State.sendNotice_kept {qq : List Instr} {s : State} {leaving} (hk : Kept qq s) :
    Kept qq (State.sendNotice s leaving) := by
  unfold State.sendNotice
  try dsimp only
  repeat' (first
    | with_reducible assumption
    | with_reducible apply State.emit_kept
    | with_reducible refine Kept.foldl ?_ ?_
    | with_reducible refine Kept.foldlFst ?_ ?_
    | with_reducible refine Kept.ite ?_ ?_
    | split
    | (intro _; try dsimp only))

theorem State.release_kept {qq : List Instr} {s : State} {paths} (hk : Kept qq s) :
    Kept qq (State.release s paths) := by
  unfold State.release
  try dsimp only
  repeat' (first
    | with_reducible assumption
    | with_reducible apply State.modLink_kept
    | with_reducible refine Kept.foldl ?_ ?_
    | with_reducible refine Kept.foldlFst ?_ ?_
    | with_reducible refine Kept.parts ?_
    | (with_reducible refine Kept.lit ?_; dsimp only; first | with_reducible refine Kept.parts ?_ | with_reducible refine KeptParts.empty (Kept.parts ?_))
    | (intro _; try dsimp only))

theorem State.unqueue_kept {qq : List Instr} {s : State} {i} (hk : Kept qq s) :
    Kept qq (State.unqueue s i) := by
  unfold State.unqueue
  try dsimp only
  repeat' (first
    | with_reducible assumption
    | with_reducible refine Kept.parts ?_
    | (with_reducible refine Kept.lit ?_; dsimp only; first | with_reducible refine Kept.parts ?_ | with_reducible refine KeptParts.empty (Kept.parts ?_))
    | (intro _; try dsimp only))

theorem State.startSwap_kept {qq : List Instr} {s : State} {c} {k} {i} {spare} {planned} {lost} (hk : Kept qq s) :
    Kept qq (State.startSwap s c k i spare planned lost) := by
  unfold State.startSwap
  try dsimp only
  repeat' (first
    | with_reducible assumption
    | with_reducible apply State.modLink_kept
    | with_reducible apply State.settleDrains_kept
    | with_reducible apply State.setSwap_kept
    | with_reducible apply State.waveLost_kept
    | with_reducible apply State.sendNotice_kept
    | with_reducible apply State.unqueue_kept
    | with_reducible refine Kept.foldl ?_ ?_
    | with_reducible refine Kept.foldlFst ?_ ?_
    | with_reducible refine Kept.ite ?_ ?_
    | split
    | with_reducible refine Kept.parts ?_
    | (with_reducible refine Kept.lit ?_; dsimp only; first | with_reducible refine Kept.parts ?_ | with_reducible refine KeptParts.empty (Kept.parts ?_))
    | (intro _; try dsimp only))

theorem execLaserSwap_kept {qq : List Instr} {s : State} {c} (hk : Kept qq s) :
    KeptOut qq (execLaserSwap c s) := by
  unfold execLaserSwap
  try dsimp only
  repeat' (first
    | with_reducible assumption
    | with_reducible refine KeptOut.next ?_
    | with_reducible apply State.warmSpare_kept
    | with_reducible apply State.unqueue_kept
    | with_reducible apply State.startSwap_kept
    | with_reducible refine KeptOut.ite ?_ ?_
    | with_reducible refine Kept.ite ?_ ?_
    | split
    | with_reducible refine Kept.fst (by assumption) ?_
    | with_reducible refine Kept.trd (by assumption) ?_
    | with_reducible refine Kept.snd (by assumption) ?_
    | (intro _; try dsimp only))

theorem State.swapDark_kept {qq : List Instr} {s : State} {c} {w} (hk : Kept qq s) :
    Kept qq (State.swapDark s c w) := by
  unfold State.swapDark
  try dsimp only
  repeat' (first
    | with_reducible assumption
    | with_reducible apply State.routesChanged_kept
    | with_reducible apply State.setSwap_kept
    | with_reducible apply State.goDark_kept
    | with_reducible apply State.sendNotice_kept
    | with_reducible apply State.release_kept
    | (intro _; try dsimp only))

theorem State.retrained_kept {qq : List Instr} {s : State} {c} {w} (hk : Kept qq s) :
    Kept qq (State.retrained s c w) := by
  unfold State.retrained
  try dsimp only
  repeat' (first
    | with_reducible assumption
    | with_reducible apply State.raise_kept
    | with_reducible apply State.setSwap_kept
    | with_reducible apply State.endLaser_kept
    | with_reducible apply State.transfer_kept
    | with_reducible apply State.swapDark_kept
    | with_reducible refine Kept.ite ?_ ?_
    | split
    | with_reducible refine Kept.fst (by assumption) ?_
    | with_reducible refine Kept.trd (by assumption) ?_
    | with_reducible refine Kept.snd (by assumption) ?_
    | with_reducible refine Kept.parts ?_
    | (with_reducible refine Kept.lit ?_; dsimp only; first | with_reducible refine Kept.parts ?_ | with_reducible refine KeptParts.empty (Kept.parts ?_))
    | (intro _; try dsimp only))

theorem State.swapPathDone_kept {qq : List Instr} {s : State} {w} {lanes} {i} (hk : Kept qq s) :
    Kept qq (State.swapPathDone s w lanes i) := by
  unfold State.swapPathDone
  try dsimp only
  repeat' (first
    | with_reducible assumption
    | with_reducible apply State.setFld_kept
    | with_reducible apply State.raise_kept
    | with_reducible apply State.beginLock_kept
    | with_reducible apply State.modLink_kept
    | with_reducible apply State.freshKeys_kept
    | with_reducible refine Kept.ite ?_ ?_
    | split
    | with_reducible refine Kept.parts ?_
    | (with_reducible refine Kept.lit ?_; dsimp only; first | with_reducible refine Kept.parts ?_ | with_reducible refine KeptParts.empty (Kept.parts ?_))
    | (intro _; try dsimp only))

theorem State.swapDone_kept {qq : List Instr} {s : State} {c} {w} (hk : Kept qq s) :
    Kept qq (State.swapDone s c w) := by
  unfold State.swapDone
  try dsimp only
  repeat' (first
    | with_reducible assumption
    | with_reducible apply State.syncHull_kept
    | with_reducible apply State.broadcastStates_kept
    | with_reducible apply State.routesChanged_kept
    | with_reducible apply State.setSwap_kept
    | with_reducible apply State.sendNotice_kept
    | with_reducible apply State.swapPathDone_kept
    | with_reducible refine Kept.foldl ?_ ?_
    | with_reducible refine Kept.foldlFst ?_ ?_
    | (intro _; try dsimp only))

theorem State.swapOff_kept {qq : List Instr} {s : State} {c} {w} (hk : Kept qq s) :
    Kept qq (State.swapOff s c w) := by
  unfold State.swapOff
  try dsimp only
  repeat' (first
    | with_reducible assumption
    | with_reducible apply State.setFld_kept
    | with_reducible apply State.modLink_kept
    | with_reducible apply State.broadcastStates_kept
    | with_reducible apply State.routesChanged_kept
    | with_reducible apply State.setSwap_kept
    | with_reducible apply State.sendNotice_kept
    | with_reducible refine Kept.foldl ?_ ?_
    | with_reducible refine Kept.foldlFst ?_ ?_
    | with_reducible refine Kept.ite ?_ ?_
    | split
    | with_reducible refine Kept.parts ?_
    | (with_reducible refine Kept.lit ?_; dsimp only; first | with_reducible refine Kept.parts ?_ | with_reducible refine KeptParts.empty (Kept.parts ?_))
    | (intro _; try dsimp only))

theorem execSwapStageDone_kept {qq : List Instr} {s : State} {c} (hk : Kept qq s) :
    KeptOut qq (execSwapStageDone c s) := by
  unfold execSwapStageDone
  try dsimp only
  repeat' (first
    | with_reducible assumption
    | with_reducible refine KeptOut.next ?_
    | with_reducible apply State.setFld_kept
    | with_reducible apply State.raise_kept
    | with_reducible apply State.syncHull_kept
    | with_reducible apply State.broadcastStates_kept
    | with_reducible apply State.setSwap_kept
    | with_reducible apply State.endLaser_kept
    | with_reducible apply State.transfer_kept
    | with_reducible apply State.swapDark_kept
    | with_reducible apply State.retrained_kept
    | with_reducible apply State.swapDone_kept
    | with_reducible refine Kept.foldl ?_ ?_
    | with_reducible refine Kept.foldlFst ?_ ?_
    | with_reducible refine KeptOut.ite ?_ ?_
    | with_reducible refine Kept.ite ?_ ?_
    | split
    | with_reducible refine Kept.fst (by assumption) ?_
    | with_reducible refine Kept.trd (by assumption) ?_
    | with_reducible refine Kept.snd (by assumption) ?_
    | with_reducible refine Kept.parts ?_
    | (with_reducible refine Kept.lit ?_; dsimp only; first | with_reducible refine Kept.parts ?_ | with_reducible refine KeptParts.empty (Kept.parts ?_))
    | (intro _; try dsimp only))

theorem State.spareLost_kept {qq : List Instr} {s : State} {c} {w} (hk : Kept qq s) :
    Kept qq (State.spareLost s c w) := by
  unfold State.spareLost
  try dsimp only
  repeat' (first
    | with_reducible assumption
    | with_reducible apply State.warmSpare_kept
    | with_reducible apply State.setSwap_kept
    | with_reducible apply State.swapOff_kept
    | with_reducible refine Kept.ite ?_ ?_
    | split
    | with_reducible refine Kept.fst (by assumption) ?_
    | with_reducible refine Kept.trd (by assumption) ?_
    | with_reducible refine Kept.snd (by assumption) ?_
    | with_reducible refine Kept.parts ?_
    | (with_reducible refine Kept.lit ?_; dsimp only; first | with_reducible refine Kept.parts ?_ | with_reducible refine KeptParts.empty (Kept.parts ?_))
    | (intro _; try dsimp only))

theorem execSuddenLaserFailure_kept {qq : List Instr} {s : State} {i} (hk : Kept qq s) :
    KeptOut qq (execSuddenLaserFailure i s) := by
  unfold execSuddenLaserFailure
  try dsimp only
  repeat' (first
    | with_reducible assumption
    | with_reducible refine KeptOut.next ?_
    | with_reducible apply State.raise_kept
    | with_reducible apply State.syncHull_kept
    | with_reducible apply State.warmSpare_kept
    | with_reducible apply State.assignSpares_kept
    | with_reducible apply State.queueSwap_kept
    | with_reducible apply State.setSwap_kept
    | with_reducible apply State.endLaser_kept
    | with_reducible apply State.goDark_kept
    | with_reducible apply State.waveLost_kept
    | with_reducible apply State.startSwap_kept
    | with_reducible apply State.retrained_kept
    | with_reducible apply State.spareLost_kept
    | with_reducible refine KeptOut.ite ?_ ?_
    | with_reducible refine Kept.ite ?_ ?_
    | split
    | with_reducible refine Kept.fst (by assumption) ?_
    | with_reducible refine Kept.trd (by assumption) ?_
    | with_reducible refine Kept.snd (by assumption) ?_
    | with_reducible refine Kept.parts ?_
    | (with_reducible refine Kept.lit ?_; dsimp only; first | with_reducible refine Kept.parts ?_ | with_reducible refine KeptParts.empty (Kept.parts ?_))
    | (intro _; try dsimp only))

theorem execCartridgeRemoved_kept {qq : List Instr} {s : State} {c} (hk : Kept qq s) :
    KeptOut qq (execCartridgeRemoved c s) := by
  unfold execCartridgeRemoved
  try dsimp only
  repeat' (first
    | with_reducible assumption
    | with_reducible refine KeptOut.next ?_
    | with_reducible apply State.setReg_kept
    | with_reducible apply State.setFld_kept
    | with_reducible apply State.raise_kept
    | with_reducible apply State.syncHull_kept
    | with_reducible apply State.broadcastStates_kept
    | with_reducible apply State.laneGoesDark_kept
    | with_reducible apply State.setSwap_kept
    | with_reducible apply State.waveLost_kept
    | with_reducible apply State.release_kept
    | with_reducible refine Kept.foldl ?_ ?_
    | with_reducible refine Kept.foldlFst ?_ ?_
    | with_reducible refine KeptOut.ite ?_ ?_
    | with_reducible refine Kept.ite ?_ ?_
    | split
    | with_reducible refine Kept.fst (by assumption) ?_
    | with_reducible refine Kept.trd (by assumption) ?_
    | with_reducible refine Kept.snd (by assumption) ?_
    | with_reducible refine Kept.parts ?_
    | (with_reducible refine Kept.lit ?_; dsimp only; first | with_reducible refine Kept.parts ?_ | with_reducible refine KeptParts.empty (Kept.parts ?_))
    | (intro _; try dsimp only))

theorem execBypassClose_kept {qq : List Instr} {s : State} (hk : Kept qq s) :
    KeptOut qq (execBypassClose s) := by
  unfold execBypassClose
  try dsimp only
  repeat' (first
    | with_reducible assumption
    | with_reducible refine KeptOut.next ?_
    | with_reducible apply State.journalAdd_kept
    | with_reducible apply State.bump_kept
    | with_reducible refine KeptOut.ite ?_ ?_
    | split
    | with_reducible refine Kept.parts ?_
    | (with_reducible refine Kept.lit ?_; dsimp only; first | with_reducible refine Kept.parts ?_ | with_reducible refine KeptParts.empty (Kept.parts ?_)))

theorem execBypassOpen_kept {qq : List Instr} {s : State} (hk : Kept qq s) :
    KeptOut qq (execBypassOpen s) := by
  unfold execBypassOpen
  try dsimp only
  repeat' (first
    | with_reducible assumption
    | with_reducible refine KeptOut.next ?_
    | with_reducible apply State.setFld_kept
    | with_reducible refine KeptOut.ite ?_ ?_
    | split
    | with_reducible refine Kept.parts ?_
    | (with_reducible refine Kept.lit ?_; dsimp only; with_reducible refine Kept.parts ?_))

theorem execSupFrame_kept {qq : List Instr} {s : State} {f} (hk : Kept qq s) :
    KeptOut qq (execSupFrame f s) := by
  unfold execSupFrame
  try dsimp only
  repeat' (first
    | with_reducible assumption
    | with_reducible refine KeptOut.next ?_
    | with_reducible apply State.setFld_kept
    | with_reducible apply State.bump_kept
    | with_reducible apply State.emit_kept
    | with_reducible refine KeptOut.ite ?_ ?_
    | with_reducible refine Kept.ite ?_ ?_
    | split
    | with_reducible refine Kept.parts ?_
    | (with_reducible refine Kept.lit ?_; dsimp only; first | with_reducible refine Kept.parts ?_ | with_reducible refine KeptParts.empty (Kept.parts ?_))
    | (intro _; try dsimp only))

theorem execHeartbeat_kept {qq : List Instr} {s : State} (hk : Kept qq s) :
    KeptOut qq (execHeartbeat s) := by
  unfold execHeartbeat
  try dsimp only
  repeat' (first
    | with_reducible assumption
    | with_reducible refine KeptOut.next ?_
    | with_reducible apply State.ringSend_kept
    | with_reducible refine KeptOut.ite ?_ ?_
    | split)

theorem execHeartbeatMissing_kept {qq : List Instr} {signalLost} {s : State} (hk : Kept qq s) :
    KeptOut qq (execHeartbeatMissing signalLost s) := by
  unfold execHeartbeatMissing
  try dsimp only
  repeat' (first
    | with_reducible assumption
    | with_reducible refine KeptOut.next ?_
    | with_reducible apply State.setFld_kept
    | with_reducible apply State.raise_kept
    | with_reducible refine KeptOut.ite ?_ ?_
    | split
    | with_reducible refine Kept.parts ?_
    | (with_reducible refine Kept.lit ?_; dsimp only; first | with_reducible refine Kept.parts ?_ | with_reducible refine KeptParts.empty (Kept.parts ?_)))

end Sys2Proof.Machine
end

