-- ==== Sys2Proof/Laws/KeptHostNet.lean ====
section
/-! SUPPORT. Operations and meanings of Machine/HostNet keep the canonical form of memory and leave the waiting commands alone. -/

namespace Sys2Proof.Machine

theorem State.modPort_kept {qq : List Instr} {s : State} {j} {f} (hk : Kept qq s) :
    Kept qq (State.modPort s j f) := by
  unfold State.modPort
  try dsimp only
  repeat' (first
    | with_reducible assumption
    | with_reducible refine Kept.parts ?_
    | (with_reducible refine Kept.lit ?_; dsimp only; with_reducible refine Kept.parts ?_))

theorem State.syncConns_kept {qq : List Instr} {s : State} (hk : Kept qq s) :
    Kept qq (State.syncConns s) := by
  unfold State.syncConns
  try dsimp only
  repeat' (first
    | with_reducible assumption
    | with_reducible apply State.setFld_kept
    | with_reducible refine Kept.foldl (fun _ _ _ => ?_) ?_
    | (intro _; try dsimp only))

theorem State.openConns_kept {qq : List Instr} {s : State} {server} (hk : Kept qq s) :
    Kept qq (State.openConns s server) := by
  unfold State.openConns
  try dsimp only
  repeat' (first
    | with_reducible assumption
    | with_reducible apply State.emit_kept
    | with_reducible apply State.syncConns_kept
    | with_reducible refine Kept.foldl ?_ ?_
    | with_reducible refine Kept.foldlFst ?_ ?_
    | with_reducible refine Kept.parts ?_
    | (with_reducible refine Kept.lit ?_; dsimp only; first | with_reducible refine Kept.parts ?_ | with_reducible refine KeptParts.empty (Kept.parts ?_))
    | (intro _; try dsimp only))

theorem State.placeOn_kept {qq : List Instr} {s : State} {c} {x} {p} (hk : Kept qq s) :
    Kept qq (State.placeOn s c x p) := by
  unfold State.placeOn
  try dsimp only
  repeat' (first
    | with_reducible assumption
    | with_reducible refine Kept.ite ?_ ?_
    | split
    | with_reducible refine Kept.parts ?_
    | (with_reducible refine Kept.lit ?_; dsimp only; first | with_reducible refine Kept.parts ?_ | with_reducible refine KeptParts.empty (Kept.parts ?_))
    | (intro _; try dsimp only))

theorem State.placePieces_kept {qq : List Instr} {x0} : ∀ {x1 : State} , Kept qq x1 → Kept qq (State.placePieces x0 x1) := by
  induction x0 with
  | zero => intro x1 hk; exact hk
  | succ k ih =>
    intro x1 hk
    unfold State.placePieces
    try dsimp only
    repeat' (first
      | with_reducible assumption
      | with_reducible apply ih
      | with_reducible apply State.placeOn_kept
      | split
      | with_reducible refine Kept.fst (by assumption) ?_
      | with_reducible refine Kept.trd (by assumption) ?_
      | with_reducible refine Kept.snd (by assumption) ?_
      | (intro _; try dsimp only))

theorem State.place_kept {qq : List Instr} {s : State}  (hk : Kept qq s) :
    Kept qq (State.place s) := by
  unfold State.place
  try dsimp only
  repeat' (first
    | with_reducible assumption
    | with_reducible apply State.placePieces_kept
    | (intro _; try dsimp only))

theorem State.startXfer_kept {qq : List Instr} {s : State} {purpose} {server} {len} (hk : Kept qq s) :
    Kept qq (State.startXfer s purpose server len) := by
  unfold State.startXfer
  try dsimp only
  repeat' (first
    | with_reducible assumption
    | with_reducible apply State.openConns_kept
    | with_reducible apply State.place_kept
    | with_reducible refine Kept.ite ?_ ?_
    | split
    | with_reducible refine Kept.parts ?_
    | (with_reducible refine Kept.lit ?_; dsimp only; first | with_reducible refine Kept.parts ?_ | with_reducible refine KeptParts.empty (Kept.parts ?_))
    | (intro _; try dsimp only))

theorem State.dropXfer_kept {qq : List Instr} {s : State} {id} (hk : Kept qq s) :
    Kept qq (State.dropXfer s id) := by
  unfold State.dropXfer
  try dsimp only
  repeat' (first
    | with_reducible assumption
    | with_reducible apply State.place_kept
    | with_reducible refine Kept.parts ?_
    | (with_reducible refine Kept.lit ?_; dsimp only; first | with_reducible refine Kept.parts ?_ | with_reducible refine KeptParts.empty (Kept.parts ?_))
    | (intro _; try dsimp only))

theorem State.reissue_kept {qq : List Instr} {s : State} {lost} (hk : Kept qq s) :
    Kept qq (State.reissue s lost) := by
  unfold State.reissue
  try dsimp only
  repeat' (first
    | with_reducible assumption
    | with_reducible apply State.syncConns_kept
    | with_reducible apply State.place_kept
    | with_reducible refine Kept.ite ?_ ?_
    | split
    | with_reducible refine Kept.parts ?_
    | (with_reducible refine Kept.lit ?_; dsimp only; first | with_reducible refine Kept.parts ?_ | with_reducible refine KeptParts.empty (Kept.parts ?_))
    | (intro _; try dsimp only))

theorem State.portDown_kept {qq : List Instr} {s : State} {j} {st} {hst} (hk : Kept qq s) :
    Kept qq (State.portDown s j st hst) := by
  unfold State.portDown
  try dsimp only
  repeat' (first
    | with_reducible assumption
    | with_reducible apply State.setFld_kept
    | with_reducible apply State.bump_kept
    | with_reducible apply State.raise_kept
    | with_reducible apply State.modPort_kept
    | with_reducible apply State.reissue_kept
    | with_reducible refine Kept.ite ?_ ?_
    | split
    | with_reducible refine Kept.parts ?_
    | (with_reducible refine Kept.lit ?_; dsimp only; first | with_reducible refine Kept.parts ?_ | with_reducible refine KeptParts.empty (Kept.parts ?_))
    | (intro _; try dsimp only))

theorem execHostLinkLoss_kept {qq : List Instr} {j} {conn} {s : State} (hk : Kept qq s) :
    KeptOut qq (execHostLinkLoss j conn s) := by
  unfold execHostLinkLoss
  try dsimp only
  repeat' (first
    | with_reducible assumption
    | with_reducible refine KeptOut.next ?_
    | with_reducible apply State.portDown_kept
    | with_reducible apply State.reissue_kept
    | with_reducible refine KeptOut.ite ?_ ?_
    | split
    | with_reducible refine Kept.fst (by assumption) ?_
    | with_reducible refine Kept.trd (by assumption) ?_
    | with_reducible refine Kept.snd (by assumption) ?_
    | with_reducible refine Kept.parts ?_
    | (with_reducible refine Kept.lit ?_; dsimp only; with_reducible refine Kept.parts ?_)
    | (intro _; try dsimp only))

theorem execHostPortUp_kept {qq : List Instr} {j} {lease} {gateway} {s : State} (hk : Kept qq s) :
    KeptOut qq (execHostPortUp j lease gateway s) := by
  unfold execHostPortUp
  try dsimp only
  repeat' (first
    | with_reducible assumption
    | with_reducible refine KeptOut.next ?_
    | with_reducible apply State.modPort_kept
    | with_reducible apply State.setFld_kept
    | with_reducible apply State.raise_kept
    | with_reducible refine KeptOut.ite ?_ ?_
    | split
    | with_reducible refine Kept.fst (by assumption) ?_
    | with_reducible refine Kept.trd (by assumption) ?_
    | with_reducible refine Kept.snd (by assumption) ?_
    | with_reducible refine Kept.parts ?_
    | (with_reducible refine Kept.lit ?_; dsimp only; with_reducible refine Kept.parts ?_)
    | (intro _; try dsimp only))

theorem execHostReconnect_kept {qq : List Instr} {s : State}  (hk : Kept qq s) :
    KeptOut qq (execHostReconnect s) := by
  unfold execHostReconnect
  try dsimp only
  repeat' (first
    | with_reducible assumption
    | with_reducible refine KeptOut.next ?_
    | with_reducible apply State.emit_kept
    | with_reducible apply State.raise_kept
    | with_reducible apply State.syncConns_kept
    | with_reducible apply State.openConns_kept
    | with_reducible apply State.place_kept
    | with_reducible refine Kept.foldl ?_ ?_
    | with_reducible refine Kept.foldlFst ?_ ?_
    | with_reducible refine KeptOut.ite ?_ ?_
    | with_reducible refine Kept.ite ?_ ?_
    | split
    | with_reducible refine Kept.parts ?_
    | (with_reducible refine Kept.lit ?_; dsimp only; first | with_reducible refine Kept.parts ?_ | with_reducible refine KeptParts.empty (Kept.parts ?_))
    | (intro _; try dsimp only))

theorem execCnp_kept {qq : List Instr} {s : State} {j} {server} (hk : Kept qq s) :
    KeptOut qq (execCnp j server s) := by
  unfold execCnp
  try dsimp only
  repeat' (first
    | with_reducible assumption
    | with_reducible refine KeptOut.next ?_
    | with_reducible apply State.bump_kept
    | with_reducible refine KeptOut.ite ?_ ?_
    | with_reducible refine Kept.ite ?_ ?_
    | split
    | with_reducible refine Kept.parts ?_
    | (with_reducible refine Kept.lit ?_; dsimp only; first | with_reducible refine Kept.parts ?_ | with_reducible refine KeptParts.empty (Kept.parts ?_))
    | (intro _; try dsimp only))

theorem execCnpRateRecovery_kept {qq : List Instr} {s : State} {j} {server} (hk : Kept qq s) :
    KeptOut qq (execCnpRateRecovery j server s) := by
  unfold execCnpRateRecovery
  try dsimp only
  repeat' (first
    | with_reducible assumption
    | with_reducible refine KeptOut.next ?_
    | with_reducible refine KeptOut.ite ?_ ?_
    | with_reducible refine Kept.ite ?_ ?_
    | split
    | with_reducible refine Kept.parts ?_
    | (with_reducible refine Kept.lit ?_; dsimp only; first | with_reducible refine Kept.parts ?_ | with_reducible refine KeptParts.empty (Kept.parts ?_))
    | (intro _; try dsimp only))

theorem execLldpTransmit_kept {qq : List Instr} {j} {s : State} (hk : Kept qq s) :
    KeptOut qq (execLldpTransmit j s) := by
  unfold execLldpTransmit
  try dsimp only
  repeat' (first
    | with_reducible assumption
    | with_reducible refine KeptOut.next ?_
    | with_reducible apply State.emit_kept
    | with_reducible refine KeptOut.ite ?_ ?_
    | split)

theorem execLldpReceive_kept {qq : List Instr} {j} {neighbour} {s : State} (hk : Kept qq s) :
    KeptOut qq (execLldpReceive j neighbour s) := by
  unfold execLldpReceive
  try dsimp only
  repeat' (first
    | with_reducible assumption
    | with_reducible refine KeptOut.next ?_
    | with_reducible apply State.modPort_kept
    | with_reducible refine KeptOut.ite ?_ ?_
    | split
    | with_reducible refine Kept.parts ?_
    | (with_reducible refine Kept.lit ?_; dsimp only; with_reducible refine Kept.parts ?_)
    | (intro _; try dsimp only))

theorem execIcmpEchoRequest_kept {qq : List Instr} {j} {v6} {s : State} (hk : Kept qq s) :
    KeptOut qq (execIcmpEchoRequest j v6 s) := by
  unfold execIcmpEchoRequest
  try dsimp only
  repeat' (first
    | with_reducible assumption
    | with_reducible refine KeptOut.next ?_
    | with_reducible apply State.emit_kept
    | with_reducible apply State.modPort_kept
    | with_reducible apply State.bump_kept
    | with_reducible refine KeptOut.ite ?_ ?_
    | split
    | with_reducible refine Kept.parts ?_
    | (with_reducible refine Kept.lit ?_; dsimp only; with_reducible refine Kept.parts ?_)
    | (intro _; try dsimp only))

theorem State.setHostUse_kept {qq : List Instr} {s : State} {j} {u} (hk : Kept qq s) :
    Kept qq (State.setHostUse s j u) := by
  unfold State.setHostUse
  try dsimp only
  repeat' (first
    | with_reducible assumption
    | with_reducible refine Kept.parts ?_
    | (with_reducible refine Kept.lit ?_; dsimp only; first | with_reducible refine Kept.parts ?_ | with_reducible refine KeptParts.empty (Kept.parts ?_))
    | (intro _; try dsimp only))

theorem execHostLaserSwap_kept {qq : List Instr} {s : State} {j} {ratio} {failed} (hk : Kept qq s) :
    KeptOut qq (execHostLaserSwap j ratio failed s) := by
  unfold execHostLaserSwap
  try dsimp only
  repeat' (first
    | with_reducible assumption
    | with_reducible refine KeptOut.next ?_
    | with_reducible apply State.setFld_kept
    | with_reducible apply State.raise_kept
    | with_reducible apply State.syncHull_kept
    | with_reducible apply State.modPort_kept
    | with_reducible apply State.portDown_kept
    | with_reducible apply State.setHostUse_kept
    | with_reducible refine KeptOut.ite ?_ ?_
    | with_reducible refine Kept.ite ?_ ?_
    | split
    | with_reducible refine Kept.parts ?_
    | (with_reducible refine Kept.lit ?_; dsimp only; first | with_reducible refine Kept.parts ?_ | with_reducible refine KeptParts.empty (Kept.parts ?_))
    | (intro _; try dsimp only))

end Sys2Proof.Machine
end

