-- ==== Sys2Proof/Laws/KeptSessions.lean ====
section
/-! SUPPORT. Operations and meanings of Machine/Sessions keep the canonical form of memory and leave the waiting commands alone. -/

namespace Sys2Proof.Machine

theorem State.setService_kept {qq : List Instr} {s : State} {job} {k} {v} (hk : Kept qq s) :
    Kept qq (State.setService s job k v) := by
  unfold State.setService
  try dsimp only
  repeat' (first
    | with_reducible assumption
    | with_reducible apply State.putJob_kept
    | split
    | with_reducible refine Kept.fst (by assumption) ?_
    | with_reducible refine Kept.trd (by assumption) ?_
    | with_reducible refine Kept.snd (by assumption) ?_
    | with_reducible refine Kept.parts ?_
    | (with_reducible refine Kept.lit ?_; dsimp only; with_reducible refine Kept.parts ?_)
    | (intro _; try dsimp only))

theorem State.setChan_kept {qq : List Instr} {s : State} {r} {c} (hk : Kept qq s) :
    Kept qq (State.setChan s r c) := by
  unfold State.setChan
  try dsimp only
  repeat' (first
    | with_reducible assumption
    | with_reducible apply State.setService_kept
    | with_reducible refine Kept.ite ?_ ?_
    | split
    | with_reducible refine Kept.fst (by assumption) ?_
    | with_reducible refine Kept.trd (by assumption) ?_
    | with_reducible refine Kept.snd (by assumption) ?_
    | with_reducible refine Kept.parts ?_
    | (with_reducible refine Kept.lit ?_; dsimp only; with_reducible refine Kept.parts ?_)
    | (intro _; try dsimp only))

theorem State.closeChan_kept {qq : List Instr} {s : State} {r} (hk : Kept qq s) :
    Kept qq (State.closeChan s r) := by
  unfold State.closeChan
  try dsimp only
  repeat' (first
    | with_reducible assumption
    | with_reducible apply State.setService_kept
    | with_reducible refine Kept.ite ?_ ?_
    | split
    | with_reducible refine Kept.fst (by assumption) ?_
    | with_reducible refine Kept.trd (by assumption) ?_
    | with_reducible refine Kept.snd (by assumption) ?_
    | with_reducible refine Kept.parts ?_
    | (with_reducible refine Kept.lit ?_; dsimp only; first | with_reducible refine Kept.parts ?_ | with_reducible refine KeptParts.filter (Kept.parts ?_))
    | (intro _; try dsimp only))

theorem State.sendOn_kept {qq : List Instr} {s : State} {r} {datagram} (hk : Kept qq s) :
    Kept qq (State.sendOn s r datagram) := by
  unfold State.sendOn
  try dsimp only
  repeat' (first
    | with_reducible assumption
    | with_reducible apply State.emit_kept
    | with_reducible apply State.setChan_kept
    | with_reducible apply State.closeChan_kept
    | with_reducible refine Kept.ite ?_ ?_
    | split
    | with_reducible refine Kept.fst (by assumption) ?_
    | with_reducible refine Kept.trd (by assumption) ?_
    | with_reducible refine Kept.snd (by assumption) ?_
    | with_reducible refine Kept.parts ?_
    | (with_reducible refine Kept.lit ?_; dsimp only; first | with_reducible refine Kept.parts ?_ | with_reducible refine KeptParts.empty (Kept.parts ?_))
    | (intro _; try dsimp only))

theorem State.respond_kept {qq : List Instr} {s : State} {r} {reqid} {x} {keep} (hk : Kept qq s) :
    Kept qq (State.respond s r reqid x keep) := by
  unfold State.respond
  try dsimp only
  repeat' (first
    | with_reducible assumption
    | with_reducible apply State.setChan_kept
    | with_reducible apply State.sendOn_kept
    | with_reducible refine Kept.ite ?_ ?_
    | split
    | with_reducible refine Kept.fst (by assumption) ?_
    | with_reducible refine Kept.trd (by assumption) ?_
    | with_reducible refine Kept.snd (by assumption) ?_
    | with_reducible refine Kept.parts ?_
    | (with_reducible refine Kept.lit ?_; dsimp only; first | with_reducible refine Kept.parts ?_ | with_reducible refine KeptParts.empty (Kept.parts ?_))
    | (intro _; try dsimp only))

theorem State.refuseUnknown_kept {qq : List Instr} {x0} : ∀ {x1 : State} {x2}, Kept qq x1 →
    Kept qq (State.refuseUnknown x0 x1 x2) := by
  induction x0 with
  | zero => intro x1 x2 hk; exact hk
  | succ k ih =>
    intro x1 x2 hk
    unfold State.refuseUnknown
    try dsimp only
    repeat' (first
      | with_reducible assumption
      | with_reducible apply ih
      | with_reducible apply State.setChan_kept
      | with_reducible apply State.respond_kept
      | with_reducible refine Kept.ite ?_ ?_
      | split
      | with_reducible refine Kept.fst (by assumption) ?_
      | with_reducible refine Kept.trd (by assumption) ?_
      | with_reducible refine Kept.snd (by assumption) ?_
      | with_reducible refine Kept.parts ?_
      | (with_reducible refine Kept.lit ?_; dsimp only; first | with_reducible refine Kept.parts ?_ | with_reducible refine KeptParts.empty (Kept.parts ?_))
      | (intro _; try dsimp only))

theorem State.serve_kept {qq : List Instr} {s : State} {r : SessionRef} {mtype : Nat} {effect : State → State × Response}
    (hk : Kept qq s) (hb : ∀ s, Kept qq s → Kept qq (effect s).1) : Kept qq (s.serve r mtype effect) := by
  unfold State.serve
  dsimp only
  repeat' (first
    | with_reducible assumption
    | split
    | with_reducible apply State.refuseUnknown_kept
    | with_reducible apply State.respond_kept
    | with_reducible apply State.setChan_kept
    | with_reducible apply hb
    | with_reducible refine Kept.fst (by assumption) ?_)

theorem State.authFail_kept {qq : List Instr} {s : State} (hk : Kept qq s) :
    Kept qq (State.authFail s) := by
  unfold State.authFail
  try dsimp only
  repeat' (first
    | with_reducible assumption
    | with_reducible apply State.bump_kept)

theorem execHello_kept {qq : List Instr} {port} {serving} {key} {sigOk} {nets} {s : State} (hk : Kept qq s) :
    KeptOut qq (execHello port serving key sigOk nets s) := by
  unfold execHello
  try dsimp only
  repeat' (first
    | with_reducible assumption
    | with_reducible refine KeptOut.next ?_
    | with_reducible apply State.raise_kept
    | with_reducible apply State.authFail_kept
    | with_reducible apply State.setService_kept
    | with_reducible apply State.drew_kept
    | with_reducible apply State.emit_kept
    | with_reducible refine KeptOut.ite ?_ ?_
    | split
    | with_reducible refine Kept.fst (by assumption) ?_
    | with_reducible refine Kept.trd (by assumption) ?_
    | with_reducible refine Kept.snd (by assumption) ?_
    | with_reducible refine Kept.parts ?_
    | (with_reducible refine Kept.lit ?_; dsimp only; first | with_reducible refine Kept.parts ?_ | with_reducible refine KeptParts.filter (Kept.parts ?_) | with_reducible refine KeptParts.empty (Kept.parts ?_))
    | (intro _; try dsimp only))

theorem State.ackEvent_kept {qq : List Instr} {s : State} {k} {reqid} (hk : Kept qq s) :
    Kept qq (State.ackEvent s k reqid) := by
  unfold State.ackEvent
  try dsimp only
  repeat' (first
    | with_reducible assumption
    | split
    | with_reducible refine Kept.fst (by assumption) ?_
    | with_reducible refine Kept.trd (by assumption) ?_
    | with_reducible refine Kept.snd (by assumption) ?_
    | with_reducible refine Kept.parts ?_
    | (with_reducible refine Kept.lit ?_; dsimp only; first | with_reducible refine Kept.parts ?_ | with_reducible refine KeptParts.filter (Kept.parts ?_))
    | (intro _; try dsimp only))

theorem State.takeRequest_kept {qq : List Instr} {s : State} {r} {c} {reqid} {mtype} (hk : Kept qq s) :
    Kept qq (State.takeRequest s r c reqid mtype) := by
  unfold State.takeRequest
  try dsimp only
  repeat' (first
    | with_reducible assumption
    | with_reducible apply State.respond_kept
    | with_reducible apply State.setChan_kept
    | with_reducible apply State.refuseUnknown_kept
    | with_reducible refine Kept.ite ?_ ?_
    | split
    | with_reducible refine Kept.fst (by assumption) ?_
    | with_reducible refine Kept.trd (by assumption) ?_
    | with_reducible refine Kept.snd (by assumption) ?_
    | with_reducible refine Kept.parts ?_
    | (with_reducible refine Kept.lit ?_; dsimp only; with_reducible refine Kept.parts ?_)
    | (intro _; try dsimp only))

theorem execData_kept {qq : List Instr} {r} {port} {ctr} {tagOk} {reqid} {mtype} {s : State} (hk : Kept qq s) :
    KeptOut qq (execData r port ctr tagOk reqid mtype s) := by
  unfold execData
  try dsimp only
  repeat' (first
    | with_reducible assumption
    | with_reducible refine KeptOut.next ?_
    | with_reducible apply State.authFail_kept
    | with_reducible apply State.closeChan_kept
    | with_reducible apply State.ackEvent_kept
    | with_reducible apply State.setChan_kept
    | with_reducible apply State.takeRequest_kept
    | with_reducible refine KeptOut.ite ?_ ?_
    | split
    | with_reducible refine Kept.fst (by assumption) ?_
    | with_reducible refine Kept.trd (by assumption) ?_
    | with_reducible refine Kept.snd (by assumption) ?_
    | with_reducible refine Kept.parts ?_
    | (with_reducible refine Kept.lit ?_; dsimp only; with_reducible refine Kept.parts ?_)
    | (intro _; try dsimp only))

theorem execClose_kept {qq : List Instr} {r} {ctr} {tagOk} {s : State} (hk : Kept qq s) :
    KeptOut qq (execClose r ctr tagOk s) := by
  unfold execClose
  try dsimp only
  repeat' (first
    | with_reducible assumption
    | with_reducible refine KeptOut.next ?_
    | with_reducible apply State.closeChan_kept
    | with_reducible apply State.authFail_kept
    | with_reducible refine KeptOut.ite ?_ ?_
    | split
    | with_reducible refine Kept.fst (by assumption) ?_
    | with_reducible refine Kept.trd (by assumption) ?_
    | with_reducible refine Kept.snd (by assumption) ?_
    | with_reducible refine Kept.parts ?_
    | (with_reducible refine Kept.lit ?_; dsimp only; with_reducible refine Kept.parts ?_)
    | (intro _; try dsimp only))

theorem execSessionIdleTimeout_kept {qq : List Instr} {r} {s : State} (hk : Kept qq s) :
    KeptOut qq (execSessionIdleTimeout r s) := by
  unfold execSessionIdleTimeout
  try dsimp only
  repeat' (first
    | with_reducible assumption
    | with_reducible refine KeptOut.next ?_
    | with_reducible apply State.closeChan_kept
    | with_reducible refine KeptOut.ite ?_ ?_
    | split
    | with_reducible refine Kept.fst (by assumption) ?_
    | with_reducible refine Kept.trd (by assumption) ?_
    | with_reducible refine Kept.snd (by assumption) ?_
    | with_reducible refine Kept.parts ?_
    | (with_reducible refine Kept.lit ?_; dsimp only; with_reducible refine Kept.parts ?_)
    | (intro _; try dsimp only))

theorem execReqidHoldExpiry_kept {qq : List Instr} {r} {s : State} (hk : Kept qq s) :
    KeptOut qq (execReqidHoldExpiry r s) := by
  unfold execReqidHoldExpiry
  try dsimp only
  repeat' (first
    | with_reducible assumption
    | with_reducible refine KeptOut.next ?_
    | with_reducible apply State.refuseUnknown_kept
    | with_reducible apply State.setChan_kept
    | split
    | with_reducible refine Kept.fst (by assumption) ?_
    | with_reducible refine Kept.trd (by assumption) ?_
    | with_reducible refine Kept.snd (by assumption) ?_
    | with_reducible refine Kept.parts ?_
    | (with_reducible refine Kept.lit ?_; dsimp only; with_reducible refine Kept.parts ?_)
    | (intro _; try dsimp only))

theorem execPing_kept {qq : List Instr} {k} {s : State} (hk : Kept qq s) :
    KeptOut qq (execPing k s) := by
  unfold execPing
  try dsimp only
  repeat' (first
    | with_reducible assumption
    | with_reducible refine KeptOut.next ?_
    | with_reducible apply State.serve_kept
    | (intro _; try dsimp only))

theorem execSinkSet_kept {qq : List Instr} {k} {sink} {mask} {s : State} (hk : Kept qq s) :
    KeptOut qq (execSinkSet k sink mask s) := by
  unfold execSinkSet
  try dsimp only
  repeat' (first
    | with_reducible assumption
    | with_reducible refine KeptOut.next ?_
    | with_reducible apply State.serve_kept
    | with_reducible refine KeptOut.ite ?_ ?_
    | split
    | with_reducible refine Kept.fst (by assumption) ?_
    | with_reducible refine Kept.trd (by assumption) ?_
    | with_reducible refine Kept.snd (by assumption) ?_
    | with_reducible refine Kept.parts ?_
    | (with_reducible refine Kept.lit ?_; dsimp only; first | with_reducible refine Kept.parts ?_ | with_reducible refine KeptParts.empty (Kept.parts ?_))
    | (intro _; try dsimp only))

theorem execEvent_kept {qq : List Instr} {s : State} {sink} (hk : Kept qq s) :
    KeptOut qq (execEvent sink s) := by
  unfold execEvent
  try dsimp only
  repeat' (first
    | with_reducible assumption
    | with_reducible refine KeptOut.next ?_
    | with_reducible apply State.sendOn_kept
    | split
    | with_reducible refine Kept.fst (by assumption) ?_
    | with_reducible refine Kept.trd (by assumption) ?_
    | with_reducible refine Kept.snd (by assumption) ?_
    | with_reducible refine Kept.parts ?_
    | (with_reducible refine Kept.lit ?_; dsimp only; first | with_reducible refine Kept.parts ?_ | with_reducible refine KeptParts.empty (Kept.parts ?_))
    | (intro _; try dsimp only))

theorem execRequestRetransmit_kept {qq : List Instr} {s : State} {k} (hk : Kept qq s) :
    KeptOut qq (execRequestRetransmit k s) := by
  unfold execRequestRetransmit
  try dsimp only
  repeat' (first
    | with_reducible assumption
    | with_reducible refine KeptOut.next ?_
    | with_reducible apply State.sendOn_kept
    | with_reducible refine Kept.foldl ?_ ?_
    | with_reducible refine Kept.foldlFst ?_ ?_
    | with_reducible refine KeptOut.ite ?_ ?_
    | with_reducible refine Kept.ite ?_ ?_
    | split
    | with_reducible refine Kept.fst (by assumption) ?_
    | with_reducible refine Kept.trd (by assumption) ?_
    | with_reducible refine Kept.snd (by assumption) ?_
    | with_reducible refine Kept.parts ?_
    | (with_reducible refine Kept.lit ?_; dsimp only; first | with_reducible refine Kept.parts ?_ | with_reducible refine KeptParts.empty (Kept.parts ?_))
    | (intro _; try dsimp only))

end Sys2Proof.Machine
end

