-- ==== Sys2Proof/Laws/KeptSystem.lean ====
section
/-! SUPPORT. Operations and meanings of Machine/System keep the canonical form of memory and leave the waiting commands alone. -/

namespace Sys2Proof.Machine

theorem execSysCsrr_kept {qq : List Instr} {s : State} {n} {ws} {rd} {ra} {off} {k} (hk : Kept qq s) :
    KeptOut qq (execSysCsrr n ws rd ra off k s) := by
  unfold execSysCsrr
  try dsimp only
  repeat' (first
    | with_reducible assumption
    | with_reducible refine KeptOut.next ?_
    | with_reducible apply State.setCore_kept
    | with_reducible apply State.trap_kept
    | with_reducible apply seqExec_kept
    | split
    | with_reducible refine Kept.fst (by assumption) ?_
    | with_reducible refine Kept.trd (by assumption) ?_
    | with_reducible refine Kept.snd (by assumption) ?_
    | with_reducible refine Kept.parts ?_
    | (with_reducible refine Kept.lit ?_; dsimp only; first | with_reducible refine Kept.parts ?_ | with_reducible refine KeptParts.empty (Kept.parts ?_))
    | (intro _; try dsimp only))

theorem execCsrValueReturn_kept {qq : List Instr} {n} {s : State} (hk : Kept qq s) :
    KeptOut qq (execCsrValueReturn n s) := by
  unfold execCsrValueReturn
  try dsimp only
  repeat' (first
    | with_reducible assumption
    | with_reducible refine KeptOut.next ?_
    | with_reducible apply State.advance_kept
    | with_reducible apply State.modCore_kept
    | split
    | with_reducible refine Kept.fst (by assumption) ?_
    | with_reducible refine Kept.trd (by assumption) ?_
    | with_reducible refine Kept.snd (by assumption) ?_
    | with_reducible refine Kept.parts ?_
    | (with_reducible refine Kept.lit ?_; dsimp only; with_reducible refine Kept.parts ?_)
    | (intro _; try dsimp only))

theorem execSysCsrw_kept {qq : List Instr} {s : State} {n} {ws} {rd} {ra} {off} {k} (hk : Kept qq s) :
    KeptOut qq (execSysCsrw n ws rd ra off k s) := by
  unfold execSysCsrw
  try dsimp only
  repeat' (first
    | with_reducible assumption
    | with_reducible refine KeptOut.next ?_
    | with_reducible apply State.setCore_kept
    | with_reducible apply State.trap_kept
    | with_reducible apply State.advance_kept
    | with_reducible apply seqExec_kept
    | split
    | with_reducible refine Kept.fst (by assumption) ?_
    | with_reducible refine Kept.trd (by assumption) ?_
    | with_reducible refine Kept.snd (by assumption) ?_
    | with_reducible refine Kept.parts ?_
    | (with_reducible refine Kept.lit ?_; dsimp only; first | with_reducible refine Kept.parts ?_ | with_reducible refine KeptParts.empty (Kept.parts ?_))
    | (intro _; try dsimp only))

theorem execSysIfence_kept {qq : List Instr} {s : State} {n} {ws} {k} (hk : Kept qq s) :
    KeptOut qq (execSysIfence n ws k s) := by
  unfold execSysIfence
  try dsimp only
  repeat' (first
    | with_reducible assumption
    | with_reducible refine KeptOut.next ?_
    | with_reducible apply seqWrite_kept
    | with_reducible refine Kept.parts ?_
    | (with_reducible refine Kept.lit ?_; dsimp only; first | with_reducible refine Kept.parts ?_ | with_reducible refine KeptParts.empty (Kept.parts ?_))
    | (intro _; try dsimp only))

theorem execSysFt_kept {qq : List Instr} {s : State} {n} {ws} {rd} {k} (hk : Kept qq s) :
    KeptOut qq (execSysFt n ws rd k s) := by
  unfold execSysFt
  try dsimp only
  repeat' (first
    | with_reducible assumption
    | with_reducible refine KeptOut.next ?_
    | with_reducible apply seqWrite_kept
    | (intro _; try dsimp only))

theorem execSysCyc_kept {qq : List Instr} {s : State} {n} {ws} {rd} {k} (hk : Kept qq s) :
    KeptOut qq (execSysCyc n ws rd k s) := by
  unfold execSysCyc
  try dsimp only
  repeat' (first
    | with_reducible assumption
    | with_reducible refine KeptOut.next ?_
    | with_reducible apply seqWrite_kept
    | (intro _; try dsimp only))

theorem execSysEnd_kept {qq : List Instr} {s : State} {n} {ws} {k} (hk : Kept qq s) :
    KeptOut qq (execSysEnd n ws k s) := by
  unfold execSysEnd
  try dsimp only
  repeat' (first
    | with_reducible assumption
    | with_reducible refine KeptOut.next ?_
    | with_reducible apply State.modCore_kept
    | with_reducible apply seqExec_kept
    | with_reducible refine Kept.parts ?_
    | (with_reducible refine Kept.lit ?_; dsimp only; first | with_reducible refine Kept.parts ?_ | with_reducible refine KeptParts.empty (Kept.parts ?_))
    | (intro _; try dsimp only))

theorem execSysEvent_kept {qq : List Instr} {s : State} {n} {ws} {code} {k} (hk : Kept qq s) :
    KeptOut qq (execSysEvent n ws code k s) := by
  unfold execSysEvent
  try dsimp only
  repeat' (first
    | with_reducible assumption
    | with_reducible refine KeptOut.next ?_
    | with_reducible apply State.raiseJob_kept
    | with_reducible apply State.advance_kept
    | with_reducible apply seqExec_kept
    | (intro _; try dsimp only))

end Sys2Proof.Machine
end

