-- ==== Sys2Proof/Laws/KeptCsrAccess.lean ====
section
/-! SUPPORT. Operations and meanings of Machine/CsrAccess keep the canonical form of memory and leave the waiting commands alone. -/

namespace Sys2Proof.Machine

theorem State.endRetention_kept {qq : List Instr} {s : State} {r} (hk : Kept qq s) :
    Kept qq (State.endRetention s r) := by
  unfold State.endRetention
  try dsimp only
  repeat' (first
    | with_reducible assumption
    | with_reducible apply State.raiseJob_kept
    | with_reducible refine Kept.parts ?_
    | (with_reducible refine Kept.lit ?_; dsimp only; first | with_reducible refine Kept.parts ?_ | with_reducible refine KeptParts.filter (Kept.parts ?_))
    | (intro _; try dsimp only))

theorem State.retest_kept {qq : List Instr} {s : State} {k} {bits} (hk : Kept qq s) :
    Kept qq (State.retest s k bits) := by
  unfold State.retest
  try dsimp only
  repeat' (first
    | with_reducible assumption
    | with_reducible apply State.setReg_kept
    | split
    | with_reducible refine Kept.parts ?_
    | (with_reducible refine Kept.lit ?_; dsimp only; with_reducible refine Kept.parts ?_))

theorem State.storeIlv_kept {qq : List Instr} {s : State} {v} (hk : Kept qq s) :
    Kept qq (State.storeIlv s v) := by
  unfold State.storeIlv
  try dsimp only
  repeat' (first
    | with_reducible assumption
    | with_reducible apply State.setBit_kept
    | with_reducible refine Kept.parts ?_
    | (with_reducible refine Kept.lit ?_; dsimp only; first | with_reducible refine Kept.parts ?_ | with_reducible refine KeptParts.empty (Kept.parts ?_))
    | (intro _; try dsimp only))

theorem State.csrActs_kept {qq : List Instr} {s : State} {o} {act} {old} {new} (hk : Kept qq s) :
    Kept qq (State.csrActs s o act old new) := by
  unfold State.csrActs
  try dsimp only
  repeat' (first
    | with_reducible assumption
    | with_reducible apply State.setFld_kept
    | with_reducible apply State.setBit_kept
    | with_reducible apply State.raise_kept
    | with_reducible apply State.laneRetry_kept
    | with_reducible apply State.hullCold_kept
    | with_reducible apply State.endRetention_kept
    | with_reducible apply State.retest_kept
    | with_reducible apply State.storeIlv_kept
    | with_reducible refine Kept.foldl ?_ ?_
    | with_reducible refine Kept.foldlFst ?_ ?_
    | with_reducible refine Kept.ite ?_ ?_
    | split
    | with_reducible refine Kept.parts ?_
    | (with_reducible refine Kept.lit ?_; dsimp only; first | with_reducible refine Kept.parts ?_ | with_reducible refine KeptParts.empty (Kept.parts ?_))
    | (intro _; try dsimp only))

theorem State.setCoreCsr_kept {qq : List Instr} {s : State} {n} {k} {new} (hk : Kept qq s) :
    Kept qq (State.setCoreCsr s n k new) := by
  unfold State.setCoreCsr
  try dsimp only
  repeat' (first
    | with_reducible assumption
    | with_reducible refine Kept.ite ?_ ?_
    | split
    | with_reducible refine Kept.fst (by assumption) ?_
    | with_reducible refine Kept.trd (by assumption) ?_
    | with_reducible refine Kept.snd (by assumption) ?_
    | with_reducible refine Kept.parts ?_
    | (with_reducible refine Kept.lit ?_; dsimp only; with_reducible refine Kept.parts ?_)
    | (intro _; try dsimp only))

theorem State.csrStore_kept {qq : List Instr} {s : State} {o} {new} (hk : Kept qq s) :
    Kept qq (State.csrStore s o new) := by
  unfold State.csrStore
  try dsimp only
  repeat' (first
    | with_reducible assumption
    | with_reducible apply State.setCoreCsr_kept
    | with_reducible apply State.setReg_kept
    | with_reducible refine Kept.ite ?_ ?_
    | split)

theorem State.csrWrite_kept {qq : List Instr} {s : State} {o} {mask} {value} (hk : Kept qq s) :
    Kept qq (State.csrWrite s o mask value).1 := by
  unfold State.csrWrite
  try dsimp only
  repeat' (first
    | with_reducible assumption
    | with_reducible apply State.raise_kept
    | with_reducible apply State.csrStore_kept
    | with_reducible apply State.csrActs_kept
    | with_reducible refine Kept.ite ?_ ?_
    | split)

theorem State.csrWriteNgs_kept {qq : List Instr} {s : State} {o} {mask} {value} (hk : Kept qq s) :
    Kept qq (State.csrWriteNgs s o mask value).1 := by
  unfold State.csrWriteNgs
  try dsimp only
  repeat' (first
    | with_reducible assumption
    | with_reducible apply State.csrWrite_kept
    | with_reducible refine Kept.ite ?_ ?_
    | split)

theorem State.writeEntry_kept {qq : List Instr} {s : State} {e} (hk : Kept qq s) :
    Kept qq (State.writeEntry s e).1 := by
  unfold State.writeEntry
  try dsimp only
  repeat' (first
    | with_reducible assumption
    | with_reducible apply State.csrWriteNgs_kept
    | with_reducible refine Kept.ite ?_ ?_
    | split)

theorem State.writeEntries_kept {qq : List Instr} {x0} : ∀ {x1 : State} {x2}, Kept qq x1 →
    Kept qq (State.writeEntries x0 x1 x2).1 := by
  induction x0 with
  | zero => intro x1 x2 hk; exact hk
  | succ k ih =>
    intro x1 x2 hk
    unfold State.writeEntries
    try dsimp only
    repeat' (first
      | with_reducible assumption
      | with_reducible apply ih
      | with_reducible apply State.writeEntry_kept
      | split
      | with_reducible refine Kept.fst (by assumption) ?_
      | with_reducible refine Kept.trd (by assumption) ?_
      | with_reducible refine Kept.snd (by assumption) ?_)

theorem State.writeBody_kept {qq : List Instr} {s : State} {body} (hk : Kept qq s) :
    Kept qq (State.writeBody s body).1 := by
  unfold State.writeBody
  try dsimp only
  repeat' (first
    | with_reducible assumption
    | with_reducible apply State.writeEntries_kept
    | with_reducible refine Kept.ite ?_ ?_
    | split
    | with_reducible refine Kept.fst (by assumption) ?_
    | with_reducible refine Kept.trd (by assumption) ?_
    | with_reducible refine Kept.snd (by assumption) ?_)

theorem execCsrRead_kept {qq : List Instr} {k} {body} {s : State} (hk : Kept qq s) :
    KeptOut qq (execCsrRead k body s) := by
  unfold execCsrRead
  try dsimp only
  repeat' (first
    | with_reducible assumption
    | with_reducible refine KeptOut.next ?_
    | with_reducible apply State.serve_kept
    | (intro _; try dsimp only))

theorem execCsrWrite_kept {qq : List Instr} {k} {body} {s : State} (hk : Kept qq s) :
    KeptOut qq (execCsrWrite k body s) := by
  unfold execCsrWrite
  try dsimp only
  repeat' (first
    | with_reducible assumption
    | with_reducible refine KeptOut.next ?_
    | with_reducible apply State.serve_kept
    | with_reducible apply State.writeBody_kept
    | (intro _; try dsimp only))

theorem writeOne_kept {qq : List Instr} {k} {o} {mask} {value} {s : State} (hk : Kept qq s) :
    KeptOut qq (writeOne k o mask value s) := by
  unfold writeOne
  try dsimp only
  repeat' (first
    | with_reducible assumption
    | with_reducible refine KeptOut.next ?_
    | with_reducible apply State.serve_kept
    | with_reducible apply State.writeBody_kept
    | (intro _; try dsimp only))

theorem execLockWrite_kept {qq : List Instr} {k} {o} {s : State} (hk : Kept qq s) :
    KeptOut qq (execLockWrite k o s) := by
  unfold execLockWrite
  try dsimp only
  repeat' (first
    | with_reducible assumption
    | with_reducible refine KeptOut.next ?_
    | with_reducible apply writeOne_kept)

theorem execOptLaneRetry_kept {qq : List Instr} {k} {i} {s : State} (hk : Kept qq s) :
    KeptOut qq (execOptLaneRetry k i s) := by
  unfold execOptLaneRetry
  try dsimp only
  repeat' (first
    | with_reducible assumption
    | with_reducible refine KeptOut.next ?_
    | with_reducible apply writeOne_kept)

theorem execHullCold_kept {qq : List Instr} {k} {s : State} (hk : Kept qq s) :
    KeptOut qq (execHullCold k s) := by
  unfold execHullCold
  try dsimp only
  repeat' (first
    | with_reducible assumption
    | with_reducible refine KeptOut.next ?_
    | with_reducible apply writeOne_kept)

theorem execPowCapWrite_kept {qq : List Instr} {k} {cap} {s : State} (hk : Kept qq s) :
    KeptOut qq (execPowCapWrite k cap s) := by
  unfold execPowCapWrite
  try dsimp only
  repeat' (first
    | with_reducible assumption
    | with_reducible refine KeptOut.next ?_
    | with_reducible apply writeOne_kept)

theorem execPowModeWrite_kept {qq : List Instr} {k} {mode} {eq} {align} {s : State} (hk : Kept qq s) :
    KeptOut qq (execPowModeWrite k mode eq align s) := by
  unfold execPowModeWrite
  try dsimp only
  repeat' (first
    | with_reducible assumption
    | with_reducible refine KeptOut.next ?_
    | with_reducible apply writeOne_kept)

theorem execHbmChanClr_kept {qq : List Instr} {k} {stack} {bits} {s : State} (hk : Kept qq s) :
    KeptOut qq (execHbmChanClr k stack bits s) := by
  unfold execHbmChanClr
  try dsimp only
  repeat' (first
    | with_reducible assumption
    | with_reducible refine KeptOut.next ?_
    | with_reducible apply writeOne_kept)

theorem execHltRelease_kept {qq : List Instr} {k} {s : State} (hk : Kept qq s) :
    KeptOut qq (execHltRelease k s) := by
  unfold execHltRelease
  try dsimp only
  repeat' (first
    | with_reducible assumption
    | with_reducible refine KeptOut.next ?_
    | with_reducible apply writeOne_kept)

theorem execDrillSet_kept {qq : List Instr} {k} {body} {s : State} (hk : Kept qq s) :
    KeptOut qq (execDrillSet k body s) := by
  unfold execDrillSet
  try dsimp only
  repeat' (first
    | with_reducible assumption
    | with_reducible refine KeptOut.next ?_
    | with_reducible apply State.serve_kept
    | with_reducible apply State.csrWrite_kept
    | with_reducible refine KeptOut.ite ?_ ?_
    | split
    | with_reducible refine Kept.fst (by assumption) ?_
    | with_reducible refine Kept.trd (by assumption) ?_
    | with_reducible refine Kept.snd (by assumption) ?_
    | (intro _; try dsimp only))

end Sys2Proof.Machine
end

