-- ==== Sys2Proof/Laws/KeptJobs.lean ====
section
/-! SUPPORT. Operations and meanings of Machine/Jobs keep the canonical form of memory and leave the waiting commands alone. -/

namespace Sys2Proof.Machine

theorem State.submit_kept {qq : List Instr} {s : State} {body} {sigOk} (hk : Kept qq s) :
    Kept qq (State.submit s body sigOk).1 := by
  unfold State.submit
  try dsimp only
  repeat' (first
    | with_reducible assumption
    | with_reducible apply State.startXfer_kept
    | with_reducible refine Kept.ite ?_ ?_
    | split
    | with_reducible refine Kept.parts ?_
    | (with_reducible refine Kept.lit ?_; dsimp only; with_reducible refine Kept.parts ?_)
    | (intro _; try dsimp only))

theorem execSubmit_kept {qq : List Instr} {k} {body} {sigOk} {s : State} (hk : Kept qq s) :
    KeptOut qq (execSubmit k body sigOk s) := by
  unfold execSubmit
  try dsimp only
  repeat' (first
    | with_reducible assumption
    | with_reducible refine KeptOut.next ?_
    | with_reducible apply State.serve_kept
    | with_reducible apply State.submit_kept
    | split
    | with_reducible refine Kept.fst (by assumption) ?_
    | with_reducible refine Kept.trd (by assumption) ?_
    | with_reducible refine Kept.snd (by assumption) ?_
    | (intro _; try dsimp only))

theorem State.startFailedEvent_kept {qq : List Instr} {s : State} {job} {digest} {reason} (hk : Kept qq s) :
    Kept qq (State.startFailedEvent s job digest reason) := by
  unfold State.startFailedEvent
  try dsimp only
  repeat' (first
    | with_reducible assumption
    | with_reducible apply State.raiseJob_kept)

theorem State.dropAdmission_kept {qq : List Instr} {s : State} {digest} (hk : Kept qq s) :
    Kept qq (State.dropAdmission s digest) := by
  unfold State.dropAdmission
  try dsimp only
  repeat' (first
    | with_reducible assumption
    | with_reducible apply State.dropXfer_kept
    | split
    | with_reducible refine Kept.fst (by assumption) ?_
    | with_reducible refine Kept.trd (by assumption) ?_
    | with_reducible refine Kept.snd (by assumption) ?_
    | with_reducible refine Kept.parts ?_
    | (with_reducible refine Kept.lit ?_; dsimp only; first | with_reducible refine Kept.parts ?_ | with_reducible refine KeptParts.filter (Kept.parts ?_))
    | (intro _; try dsimp only))

theorem State.refuseDesc_kept {qq : List Instr} {s : State} {a} {d} {reason} (hk : Kept qq s) :
    Kept qq (State.refuseDesc s a d reason) := by
  unfold State.refuseDesc
  try dsimp only
  repeat' (first
    | with_reducible assumption
    | with_reducible apply State.dropAdmission_kept
    | with_reducible apply State.afterJob_kept
    | with_reducible apply State.startFailedEvent_kept
    | with_reducible refine Kept.ite ?_ ?_
    | split
    | with_reducible refine Kept.fst (by assumption) ?_
    | with_reducible refine Kept.trd (by assumption) ?_
    | with_reducible refine Kept.snd (by assumption) ?_
    | with_reducible refine Kept.parts ?_
    | (with_reducible refine Kept.lit ?_; dsimp only; first | with_reducible refine Kept.parts ?_ | with_reducible refine KeptParts.filter (Kept.parts ?_) | with_reducible refine KeptParts.empty (Kept.parts ?_))
    | (intro _; try dsimp only))

theorem State.failStart_kept {qq : List Instr} {s : State} {j} {reason} {detail} (hk : Kept qq s) :
    Kept qq (State.failStart s j reason detail) := by
  unfold State.failStart
  try dsimp only
  repeat' (first
    | with_reducible assumption
    | with_reducible apply State.afterJob_kept
    | with_reducible apply State.releaseJob_kept
    | with_reducible apply State.startFailedEvent_kept
    | with_reducible apply State.addRecord_kept)

theorem State.admitJob_kept {qq : List Instr} {s : State} {a} {d} {places} (hk : Kept qq s) :
    Kept qq (State.admitJob s a d places) := by
  unfold State.admitJob
  try dsimp only
  repeat' (first
    | with_reducible assumption
    | with_reducible apply State.modCore_kept
    | with_reducible apply State.startXfer_kept
    | with_reducible apply State.dropAdmission_kept
    | with_reducible apply State.refuseDesc_kept
    | with_reducible refine Kept.foldl ?_ ?_
    | with_reducible refine Kept.foldlFst ?_ ?_
    | with_reducible refine Kept.ite ?_ ?_
    | split
    | with_reducible refine Kept.fst (by assumption) ?_
    | with_reducible refine Kept.trd (by assumption) ?_
    | with_reducible refine Kept.snd (by assumption) ?_
    | with_reducible refine Kept.parts ?_
    | (with_reducible refine Kept.lit ?_; dsimp only; first | with_reducible refine Kept.parts ?_ | with_reducible refine KeptParts.empty (Kept.parts ?_))
    | (intro _; try dsimp only))

theorem State.begin_kept {qq : List Instr} {s : State} {j} {d} {prog} {args} (hk : Kept qq s) :
    Kept qq (State.begin s j d prog args) := by
  unfold State.begin
  try dsimp only
  repeat' (first
    | with_reducible assumption
    | with_reducible apply State.failStart_kept
    | with_reducible apply State.dropXfer_kept
    | with_reducible apply State.writeBytes_kept
    | with_reducible apply State.putJob_kept
    | with_reducible refine Kept.foldl (fun _ _ _ => ?_) ?_
    | with_reducible refine Kept.ite ?_ ?_
    | split
    | with_reducible refine Kept.fst (by assumption) ?_
    | with_reducible refine Kept.trd (by assumption) ?_
    | with_reducible refine Kept.snd (by assumption) ?_
    | with_reducible refine Kept.parts ?_
    | (with_reducible refine Kept.lit ?_; dsimp only; first | with_reducible refine Kept.parts ?_ | with_reducible refine KeptParts.filter (Kept.parts ?_) | with_reducible refine KeptParts.empty (Kept.parts ?_))
    | (intro _; try dsimp only))

theorem execJobAdmission_kept {qq : List Instr} {digest} {desc} {prog} {args} {places} {s : State} (hk : Kept qq s) :
    KeptOut qq (execJobAdmission digest desc prog args places s) := by
  unfold execJobAdmission
  try dsimp only
  repeat' (first
    | with_reducible assumption
    | with_reducible refine KeptOut.next ?_
    | with_reducible apply State.refuseDesc_kept
    | with_reducible apply State.admitJob_kept
    | with_reducible apply State.begin_kept
    | split
    | with_reducible refine Kept.fst (by assumption) ?_
    | with_reducible refine Kept.trd (by assumption) ?_
    | with_reducible refine Kept.snd (by assumption) ?_
    | with_reducible refine Kept.parts ?_
    | (with_reducible refine Kept.lit ?_; dsimp only; with_reducible refine Kept.parts ?_)
    | (intro _; try dsimp only))

theorem execJobStarted_kept {qq : List Instr} {job} {s : State} (hk : Kept qq s) :
    KeptOut qq (execJobStarted job s) := by
  unfold execJobStarted
  try dsimp only
  repeat' (first
    | with_reducible assumption
    | with_reducible refine KeptOut.next ?_
    | with_reducible apply State.raiseJob_kept
    | with_reducible apply State.addRecord_kept
    | with_reducible apply State.putJob_kept
    | with_reducible apply State.endJob_kept
    | with_reducible refine KeptOut.ite ?_ ?_
    | split
    | with_reducible refine Kept.fst (by assumption) ?_
    | with_reducible refine Kept.trd (by assumption) ?_
    | with_reducible refine Kept.snd (by assumption) ?_
    | with_reducible refine Kept.parts ?_
    | (with_reducible refine Kept.lit ?_; dsimp only; first | with_reducible refine Kept.parts ?_ | with_reducible refine KeptParts.empty (Kept.parts ?_))
    | (intro _; try dsimp only))

theorem execCancel_kept {qq : List Instr} {k} {job} {s : State} (hk : Kept qq s) :
    KeptOut qq (execCancel k job s) := by
  unfold execCancel
  try dsimp only
  repeat' (first
    | with_reducible assumption
    | with_reducible refine KeptOut.next ?_
    | with_reducible apply State.serve_kept
    | with_reducible apply State.failStart_kept
    | with_reducible apply State.askHalt_kept
    | with_reducible apply State.putJob_kept
    | with_reducible refine KeptOut.ite ?_ ?_
    | split
    | with_reducible refine Kept.fst (by assumption) ?_
    | with_reducible refine Kept.trd (by assumption) ?_
    | with_reducible refine Kept.snd (by assumption) ?_
    | with_reducible refine Kept.parts ?_
    | (with_reducible refine Kept.lit ?_; dsimp only; first | with_reducible refine Kept.parts ?_ | with_reducible refine KeptParts.empty (Kept.parts ?_))
    | (intro _; try dsimp only))

theorem execJobQuery_kept {qq : List Instr} {k} {job} {s : State} (hk : Kept qq s) :
    KeptOut qq (execJobQuery k job s) := by
  unfold execJobQuery
  try dsimp only
  repeat' (first
    | with_reducible assumption
    | with_reducible refine KeptOut.next ?_
    | with_reducible apply State.serve_kept
    | split
    | with_reducible refine Kept.fst (by assumption) ?_
    | with_reducible refine Kept.trd (by assumption) ?_
    | with_reducible refine Kept.snd (by assumption) ?_
    | with_reducible refine Kept.parts ?_
    | (with_reducible refine Kept.lit ?_; dsimp only; with_reducible refine Kept.parts ?_)
    | (intro _; try dsimp only))

theorem execWorklist_kept {qq : List Instr} {s : State} {k} {list} {server} {rkey} {va} {len} {interval} (hk : Kept qq s) :
    KeptOut qq (execWorklist k list server rkey va len interval s) := by
  unfold execWorklist
  try dsimp only
  repeat' (first
    | with_reducible assumption
    | with_reducible refine KeptOut.next ?_
    | with_reducible apply State.serve_kept
    | with_reducible refine KeptOut.ite ?_ ?_
    | with_reducible refine Kept.ite ?_ ?_
    | split
    | with_reducible refine Kept.parts ?_
    | (with_reducible refine Kept.lit ?_; dsimp only; first | with_reducible refine Kept.parts ?_ | with_reducible refine KeptParts.empty (Kept.parts ?_))
    | (intro _; try dsimp only))

theorem State.submitEntries_kept {qq : List Instr} {list : Nat} {w : WorkList} {l : List (List Byte × Bool)} : ∀ {i : Nat} {s : State}, Kept qq s →
    Kept qq (State.submitEntries list w i l s) := by
  induction l with
  | nil => intro i s hk; exact hk
  | cons a t ih =>
    obtain ⟨body, sigOk⟩ := a
    intro i s hk
    unfold State.submitEntries
    dsimp only
    apply ih
    split
    · exact State.submit_kept (State.emit_kept hk)
    · exact State.raise_kept (State.submit_kept (State.emit_kept hk))

theorem execWorklistPoll_kept {qq : List Instr} {s : State} {list} {read} (hk : Kept qq s) :
    KeptOut qq (execWorklistPoll list read s) := by
  unfold execWorklistPoll
  try dsimp only
  repeat' (first
    | with_reducible assumption
    | with_reducible refine KeptOut.next ?_
    | with_reducible apply State.emit_kept
    | with_reducible apply State.raise_kept
    | with_reducible apply State.openConns_kept
    | with_reducible apply State.submitEntries_kept
    | with_reducible refine KeptOut.ite ?_ ?_
    | with_reducible refine Kept.ite ?_ ?_
    | split
    | with_reducible refine Kept.fst (by assumption) ?_
    | with_reducible refine Kept.trd (by assumption) ?_
    | with_reducible refine Kept.snd (by assumption) ?_
    | with_reducible refine Kept.parts ?_
    | (with_reducible refine Kept.lit ?_; dsimp only; first | with_reducible refine Kept.parts ?_ | with_reducible refine KeptParts.empty (Kept.parts ?_))
    | (intro _; try dsimp only))

theorem State.setRing_kept {qq : List Instr} {s : State} {old} {new} (hk : Kept qq s) :
    Kept qq (State.setRing s old new) := by
  unfold State.setRing
  try dsimp only
  repeat' (first
    | with_reducible assumption
    | with_reducible refine Kept.ite ?_ ?_
    | split
    | with_reducible refine Kept.parts ?_
    | (with_reducible refine Kept.lit ?_; dsimp only; first | with_reducible refine Kept.parts ?_ | with_reducible refine KeptParts.filter (Kept.parts ?_))
    | (intro _; try dsimp only))

theorem execCompletionRecordWrite_kept {qq : List Instr} {job} {s : State} (hk : Kept qq s) :
    KeptOut qq (execCompletionRecordWrite job s) := by
  unfold execCompletionRecordWrite
  try dsimp only
  repeat' (first
    | with_reducible assumption
    | with_reducible refine KeptOut.next ?_
    | with_reducible apply State.emit_kept
    | with_reducible apply State.openConns_kept
    | with_reducible apply State.setRing_kept
    | with_reducible refine KeptOut.ite ?_ ?_
    | split
    | with_reducible refine Kept.fst (by assumption) ?_
    | with_reducible refine Kept.trd (by assumption) ?_
    | with_reducible refine Kept.snd (by assumption) ?_
    | with_reducible refine Kept.parts ?_
    | (with_reducible refine Kept.lit ?_; dsimp only; first | with_reducible refine Kept.parts ?_ | with_reducible refine KeptParts.empty (Kept.parts ?_))
    | (intro _; try dsimp only))

theorem execCompletionRingRecheck_kept {qq : List Instr} {job} {cons} {s : State} (hk : Kept qq s) :
    KeptOut qq (execCompletionRingRecheck job cons s) := by
  unfold execCompletionRingRecheck
  try dsimp only
  repeat' (first
    | with_reducible assumption
    | with_reducible refine KeptOut.next ?_
    | with_reducible apply State.setRing_kept
    | with_reducible apply State.emit_kept
    | with_reducible refine KeptOut.ite ?_ ?_
    | split
    | with_reducible refine Kept.fst (by assumption) ?_
    | with_reducible refine Kept.trd (by assumption) ?_
    | with_reducible refine Kept.snd (by assumption) ?_
    | with_reducible refine Kept.parts ?_
    | (with_reducible refine Kept.lit ?_; dsimp only; with_reducible refine Kept.parts ?_)
    | (intro _; try dsimp only))

end Sys2Proof.Machine
end

