-- ==== Sys2Proof/Laws/KeptServices.lean ====
section
/-! SUPPORT. Operations and meanings of Machine/Services keep the canonical form of memory and leave the waiting commands alone. -/

namespace Sys2Proof.Machine

theorem execRdmaPieceComplete_kept {qq : List Instr} {s : State} {xfer} {piece} (hk : Kept qq s) :
    KeptOut qq (execRdmaPieceComplete xfer piece s) := by
  unfold execRdmaPieceComplete
  try dsimp only
  repeat' (first
    | with_reducible assumption
    | with_reducible refine KeptOut.next ?_
    | with_reducible apply State.place_kept
    | with_reducible refine KeptOut.ite ?_ ?_
    | with_reducible refine Kept.ite ?_ ?_
    | split
    | with_reducible refine Kept.fst (by assumption) ?_
    | with_reducible refine Kept.trd (by assumption) ?_
    | with_reducible refine Kept.snd (by assumption) ?_
    | with_reducible refine Kept.parts ?_
    | (with_reducible refine Kept.lit ?_; dsimp only; first | with_reducible refine Kept.parts ?_ | with_reducible refine KeptParts.empty (Kept.parts ?_))
    | (intro _; try dsimp only))

theorem execPieceNoConnection_kept {qq : List Instr} {s : State} {xfer} (hk : Kept qq s) :
    KeptOut qq (execPieceNoConnection xfer s) := by
  unfold execPieceNoConnection
  try dsimp only
  repeat' (first
    | with_reducible assumption
    | with_reducible refine KeptOut.next ?_
    | with_reducible apply State.place_kept
    | with_reducible refine KeptOut.ite ?_ ?_
    | with_reducible refine Kept.ite ?_ ?_
    | split
    | with_reducible refine Kept.fst (by assumption) ?_
    | with_reducible refine Kept.trd (by assumption) ?_
    | with_reducible refine Kept.snd (by assumption) ?_
    | with_reducible refine Kept.parts ?_
    | (with_reducible refine Kept.lit ?_; dsimp only; first | with_reducible refine Kept.parts ?_ | with_reducible refine KeptParts.empty (Kept.parts ?_))
    | (intro _; try dsimp only))

theorem State.svcSignal_kept {qq : List Instr} {s : State} {j} {v} (hk : Kept qq s) :
    Kept qq (State.svcSignal s j v) := by
  unfold State.svcSignal
  try dsimp only
  repeat' (first
    | with_reducible assumption
    | with_reducible apply State.signalCross_kept
    | with_reducible refine Kept.ite ?_ ?_
    | split
    | with_reducible refine Kept.fst (by assumption) ?_
    | with_reducible refine Kept.trd (by assumption) ?_
    | with_reducible refine Kept.snd (by assumption) ?_
    | with_reducible refine Kept.parts ?_
    | (with_reducible refine Kept.lit ?_; dsimp only; with_reducible refine Kept.parts ?_)
    | (intro _; try dsimp only))

theorem State.finishEntryOf_kept {qq : List Instr} {s : State} {j} {k} {v} {index} {status} (hk : Kept qq s) :
    Kept qq (State.finishEntryOf s j k v index status) := by
  unfold State.finishEntryOf
  try dsimp only
  repeat' (first
    | with_reducible assumption
    | with_reducible apply State.setService_kept
    | with_reducible apply State.writeNat_kept
    | with_reducible apply State.svcSignal_kept
    | with_reducible apply State.addRecord_kept
    | with_reducible refine Kept.ite ?_ ?_
    | split
    | with_reducible refine Kept.parts ?_
    | (with_reducible refine Kept.lit ?_; dsimp only; first | with_reducible refine Kept.parts ?_ | with_reducible refine KeptParts.empty (Kept.parts ?_)))

theorem State.cipherBytes_kept {qq : List Instr} {s : State} {n} (hk : Kept qq s) :
    Kept qq (State.cipherBytes s n).2 := by
  unfold State.cipherBytes
  try dsimp only
  repeat' (first
    | with_reducible assumption
    | with_reducible refine Kept.parts ?_
    | (with_reducible refine Kept.lit ?_; dsimp only; with_reducible refine Kept.parts ?_)
    | (intro _; try dsimp only))

theorem State.svcMessage_kept {qq : List Instr} {s : State} {job} {k} {chip} {mop} {req} {addr} {desc} {data} (hk : Kept qq s) :
    Kept qq (State.svcMessage s job k chip mop req addr desc data) := by
  unfold State.svcMessage
  try dsimp only
  repeat' (first
    | with_reducible assumption
    | with_reducible apply State.newMessage_kept
    | with_reducible apply State.startMessage_kept
    | with_reducible apply State.place_kept
    | with_reducible refine Kept.fst (by assumption) ?_
    | with_reducible refine Kept.trd (by assumption) ?_
    | with_reducible refine Kept.snd (by assumption) ?_
    | with_reducible refine Kept.parts ?_
    | (with_reducible refine Kept.lit ?_; dsimp only; first | with_reducible refine Kept.parts ?_ | with_reducible refine KeptParts.empty (Kept.parts ?_))
    | (intro _; try dsimp only))

theorem State.ckptStart_kept {qq : List Instr} {s : State} {j} {k} {v} {index} {e} {buddyBase} (hk : Kept qq s) :
    Kept qq (State.ckptStart s j k v index e buddyBase) := by
  unfold State.ckptStart
  try dsimp only
  repeat' (first
    | with_reducible assumption
    | with_reducible apply State.cipherBytes_kept
    | with_reducible apply State.setService_kept
    | with_reducible apply State.svcMessage_kept
    | with_reducible apply State.emit_kept
    | with_reducible apply State.startXfer_kept
    | with_reducible refine Kept.foldl (fun _ _ _ => ?_) ?_
    | with_reducible refine Kept.ite ?_ ?_
    | split
    | with_reducible refine Kept.fst (by assumption) ?_
    | with_reducible refine Kept.trd (by assumption) ?_
    | with_reducible refine Kept.snd (by assumption) ?_
    | with_reducible refine Kept.parts ?_
    | (with_reducible refine Kept.lit ?_; dsimp only; first | with_reducible refine Kept.parts ?_ | with_reducible refine KeptParts.empty (Kept.parts ?_))
    | (intro _; try dsimp only))

theorem State.ckptRestore_kept {qq : List Instr} {s : State} {e} {c} (hk : Kept qq s) :
    Kept qq (State.ckptRestore s e c).1 := by
  unfold State.ckptRestore
  try dsimp only
  repeat' (first
    | with_reducible assumption
    | with_reducible apply State.writeBytes_kept
    | with_reducible apply State.freeOverlap_kept
    | with_reducible refine Kept.ite ?_ ?_
    | split
    | with_reducible refine Kept.fst (by assumption) ?_
    | with_reducible refine Kept.trd (by assumption) ?_
    | with_reducible refine Kept.snd (by assumption) ?_
    | with_reducible refine Kept.parts ?_
    | (with_reducible refine Kept.lit ?_; dsimp only; with_reducible refine Kept.parts ?_)
    | (intro _; try dsimp only))

theorem State.ckptAdvance_kept {qq : List Instr} {s : State} {j} {k} {v} {r} {stored} {buddyBase} (hk : Kept qq s) :
    Kept qq (State.ckptAdvance s j k v r stored buddyBase) := by
  unfold State.ckptAdvance
  try dsimp only
  repeat' (first
    | with_reducible assumption
    | with_reducible apply State.finishEntryOf_kept
    | with_reducible apply State.ckptRestore_kept
    | with_reducible apply State.setService_kept
    | with_reducible apply State.svcMessage_kept
    | with_reducible apply State.dropXfer_kept
    | with_reducible apply State.startXfer_kept
    | with_reducible apply State.emit_kept
    | with_reducible refine Kept.ite ?_ ?_
    | split
    | with_reducible refine Kept.fst (by assumption) ?_
    | with_reducible refine Kept.trd (by assumption) ?_
    | with_reducible refine Kept.snd (by assumption) ?_
    | with_reducible refine Kept.parts ?_
    | (with_reducible refine Kept.lit ?_; dsimp only; first | with_reducible refine Kept.parts ?_ | with_reducible refine KeptParts.filter (Kept.parts ?_))
    | (intro _; try dsimp only))

theorem execServiceQueuePoll_kept {qq : List Instr} {job} {svc} {stored} {buddyBase} {s : State} (hk : Kept qq s) :
    KeptOut qq (execServiceQueuePoll job svc stored buddyBase s) := by
  unfold execServiceQueuePoll
  try dsimp only
  repeat' (first
    | with_reducible assumption
    | with_reducible refine KeptOut.next ?_
    | with_reducible apply State.ckptAdvance_kept
    | with_reducible apply State.finishEntryOf_kept
    | with_reducible apply State.readCheck_kept
    | with_reducible apply State.ckptStart_kept
    | with_reducible apply State.askHalt_kept
    | with_reducible refine KeptOut.ite ?_ ?_
    | split
    | with_reducible refine Kept.fst (by assumption) ?_
    | with_reducible refine Kept.trd (by assumption) ?_
    | with_reducible refine Kept.snd (by assumption) ?_
    | with_reducible refine Kept.parts ?_
    | (with_reducible refine Kept.lit ?_; dsimp only; with_reducible refine Kept.parts ?_)
    | (intro _; try dsimp only))

theorem State.ingestFails_kept {qq : List Instr} {s : State} {j} {k} {v} {status} (hk : Kept qq s) :
    Kept qq (State.ingestFails s j k v status) := by
  unfold State.ingestFails
  try dsimp only
  repeat' (first
    | with_reducible assumption
    | with_reducible apply State.setService_kept
    | with_reducible apply State.askHalt_kept
    | with_reducible apply State.raiseJob_kept
    | split
    | with_reducible refine Kept.parts ?_
    | (with_reducible refine Kept.lit ?_; dsimp only; with_reducible refine Kept.parts ?_))

theorem State.ingestSlot_kept {qq : List Instr} {s : State} {j} {k} {v} {x} {data} (hk : Kept qq s) :
    Kept qq (State.ingestSlot s j k v x data) := by
  unfold State.ingestSlot
  try dsimp only
  repeat' (first
    | with_reducible assumption
    | with_reducible apply State.writeNat_kept
    | with_reducible apply State.writeBytes_kept
    | with_reducible apply State.dropXfer_kept
    | with_reducible apply State.svcSignal_kept
    | with_reducible apply State.setService_kept
    | with_reducible refine Kept.ite ?_ ?_
    | split
    | with_reducible refine Kept.parts ?_
    | (with_reducible refine Kept.lit ?_; dsimp only; with_reducible refine Kept.parts ?_))

theorem execIngestSlotWrite_kept {qq : List Instr} {job} {svc} {entry} {read} {s : State} (hk : Kept qq s) :
    KeptOut qq (execIngestSlotWrite job svc entry read s) := by
  unfold execIngestSlotWrite
  try dsimp only
  repeat' (first
    | with_reducible assumption
    | with_reducible refine KeptOut.next ?_
    | with_reducible apply State.setService_kept
    | with_reducible apply State.startXfer_kept
    | with_reducible apply State.emit_kept
    | with_reducible apply State.ingestFails_kept
    | with_reducible apply State.dropXfer_kept
    | with_reducible apply State.ingestSlot_kept
    | with_reducible refine KeptOut.ite ?_ ?_
    | split
    | with_reducible refine Kept.fst (by assumption) ?_
    | with_reducible refine Kept.trd (by assumption) ?_
    | with_reducible refine Kept.snd (by assumption) ?_
    | with_reducible refine Kept.parts ?_
    | (with_reducible refine Kept.lit ?_; dsimp only; with_reducible refine Kept.parts ?_)
    | (intro _; try dsimp only))

theorem State.takePrompt_kept {qq : List Instr} {s : State} {j} {k} {v} {q} (hk : Kept qq s) :
    Kept qq (State.takePrompt s j k v q).1 := by
  unfold State.takePrompt
  try dsimp only
  repeat' (first
    | with_reducible assumption
    | with_reducible apply State.setService_kept
    | with_reducible apply State.raiseJob_kept
    | with_reducible refine Kept.ite ?_ ?_
    | split
    | with_reducible refine Kept.parts ?_
    | (with_reducible refine Kept.lit ?_; dsimp only; first | with_reducible refine Kept.parts ?_ | with_reducible refine KeptParts.filter (Kept.parts ?_))
    | (intro _; try dsimp only))

theorem execGenerate_kept {qq : List Instr} {r} {num} {params} {last} {tokens} {s : State} (hk : Kept qq s) :
    KeptOut qq (execGenerate r num params last tokens s) := by
  unfold execGenerate
  try dsimp only
  repeat' (first
    | with_reducible assumption
    | with_reducible refine KeptOut.next ?_
    | with_reducible apply State.serve_kept
    | with_reducible apply State.takePrompt_kept
    | with_reducible refine KeptOut.ite ?_ ?_
    | split
    | with_reducible refine Kept.fst (by assumption) ?_
    | with_reducible refine Kept.trd (by assumption) ?_
    | with_reducible refine Kept.snd (by assumption) ?_
    | with_reducible refine Kept.parts ?_
    | (with_reducible refine Kept.lit ?_; dsimp only; with_reducible refine Kept.parts ?_)
    | (intro _; try dsimp only))

theorem execAppend_kept {qq : List Instr} {r} {num} {last} {tokens} {s : State} (hk : Kept qq s) :
    KeptOut qq (execAppend r num last tokens s) := by
  unfold execAppend
  try dsimp only
  repeat' (first
    | with_reducible assumption
    | with_reducible refine KeptOut.next ?_
    | with_reducible apply State.serve_kept
    | with_reducible apply State.takePrompt_kept
    | with_reducible refine KeptOut.ite ?_ ?_
    | split
    | with_reducible refine Kept.fst (by assumption) ?_
    | with_reducible refine Kept.trd (by assumption) ?_
    | with_reducible refine Kept.snd (by assumption) ?_
    | with_reducible refine Kept.parts ?_
    | (with_reducible refine Kept.lit ?_; dsimp only; with_reducible refine Kept.parts ?_)
    | (intro _; try dsimp only))

theorem execStop_kept {qq : List Instr} {r} {num} {s : State} (hk : Kept qq s) :
    KeptOut qq (execStop r num s) := by
  unfold execStop
  try dsimp only
  repeat' (first
    | with_reducible assumption
    | with_reducible refine KeptOut.next ?_
    | with_reducible apply State.serve_kept
    | with_reducible apply State.setService_kept
    | with_reducible refine KeptOut.ite ?_ ?_
    | split
    | with_reducible refine Kept.fst (by assumption) ?_
    | with_reducible refine Kept.trd (by assumption) ?_
    | with_reducible refine Kept.snd (by assumption) ?_
    | with_reducible refine Kept.parts ?_
    | (with_reducible refine Kept.lit ?_; dsimp only; with_reducible refine Kept.parts ?_)
    | (intro _; try dsimp only))

theorem State.takeToken_kept {qq : List Instr} {s : State} {j} {k} {record} {q} (hk : Kept qq s) :
    Kept qq (State.takeToken j k record s q) := by
  unfold State.takeToken
  try dsimp only
  repeat' (first
    | with_reducible assumption
    | with_reducible apply State.writeNat_kept
    | with_reducible apply State.setService_kept
    | with_reducible apply State.sendOn_kept
    | with_reducible refine Kept.ite ?_ ?_
    | split
    | with_reducible refine Kept.fst (by assumption) ?_
    | with_reducible refine Kept.trd (by assumption) ?_
    | with_reducible refine Kept.snd (by assumption) ?_
    | with_reducible refine Kept.parts ?_
    | (with_reducible refine Kept.lit ?_; dsimp only; first | with_reducible refine Kept.parts ?_ | with_reducible refine KeptParts.empty (Kept.parts ?_))
    | (intro _; try dsimp only))

theorem State.admitRequest_kept {qq : List Instr} {j} {k} {s : State} {q} (hk : Kept qq s) :
    Kept qq (State.admitRequest j k s q) := by
  unfold State.admitRequest
  try dsimp only
  repeat' (first
    | with_reducible assumption
    | with_reducible apply State.writeBytes_kept
    | with_reducible apply State.setService_kept
    | with_reducible refine Kept.ite ?_ ?_
    | split
    | with_reducible refine Kept.fst (by assumption) ?_
    | with_reducible refine Kept.trd (by assumption) ?_
    | with_reducible refine Kept.snd (by assumption) ?_
    | with_reducible refine Kept.parts ?_
    | (with_reducible refine Kept.lit ?_; dsimp only; with_reducible refine Kept.parts ?_)
    | (intro _; try dsimp only))

theorem State.nextStep_kept {qq : List Instr} {s : State} {j} {k} (hk : Kept qq s) :
    Kept qq (State.nextStep s j k) := by
  unfold State.nextStep
  try dsimp only
  repeat' (first
    | with_reducible assumption
    | with_reducible apply State.admitRequest_kept
    | with_reducible apply State.setService_kept
    | with_reducible apply State.writeNat_kept
    | with_reducible apply State.writeBytes_kept
    | with_reducible apply State.svcSignal_kept
    | with_reducible refine Kept.foldl (fun _ _ _ => ?_) ?_
    | with_reducible refine Kept.ite ?_ ?_
    | split
    | with_reducible refine Kept.fst (by assumption) ?_
    | with_reducible refine Kept.trd (by assumption) ?_
    | with_reducible refine Kept.snd (by assumption) ?_
    | with_reducible refine Kept.parts ?_
    | (with_reducible refine Kept.lit ?_; dsimp only; first | with_reducible refine Kept.parts ?_ | with_reducible refine KeptParts.filter (Kept.parts ?_))
    | (intro _; try dsimp only))

theorem execTokenRingPoll_kept {qq : List Instr} {job} {svc} {s : State} (hk : Kept qq s) :
    KeptOut qq (execTokenRingPoll job svc s) := by
  unfold execTokenRingPoll
  try dsimp only
  repeat' (first
    | with_reducible assumption
    | with_reducible refine KeptOut.next ?_
    | with_reducible apply State.nextStep_kept
    | with_reducible apply State.takeToken_kept
    | with_reducible apply State.writeNat_kept
    | with_reducible apply State.setService_kept
    | with_reducible refine Kept.foldl (fun _ _ _ => ?_) ?_
    | with_reducible refine KeptOut.ite ?_ ?_
    | split
    | with_reducible refine Kept.fst (by assumption) ?_
    | with_reducible refine Kept.trd (by assumption) ?_
    | with_reducible refine Kept.snd (by assumption) ?_
    | with_reducible refine Kept.parts ?_
    | (with_reducible refine Kept.lit ?_; dsimp only; first | with_reducible refine Kept.parts ?_ | with_reducible refine KeptParts.filter (Kept.parts ?_))
    | (intro _; try dsimp only))

end Sys2Proof.Machine
end

