-- ==== Sys2Proof/Laws/KeptPower.lean ====
section
/-! SUPPORT. Operations and meanings of Machine/Power keep the canonical form of memory and leave the waiting commands alone. -/

namespace Sys2Proof.Machine

theorem State.syncFix_kept {qq : List Instr} {s : State} (hk : Kept qq s) :
    Kept qq (State.syncFix s) := by
  unfold State.syncFix
  try dsimp only
  repeat' (first
    | with_reducible assumption
    | with_reducible apply State.setBit_kept
    | with_reducible apply State.raise_kept
    | with_reducible refine Kept.ite ?_ ?_
    | split
    | (intro _; try dsimp only))

theorem execPstateStepDone_kept {qq : List Instr} {n} {s : State} (hk : Kept qq s) :
    KeptOut qq (execPstateStepDone n s) := by
  unfold execPstateStepDone
  try dsimp only
  repeat' (first
    | with_reducible assumption
    | with_reducible refine KeptOut.next ?_
    | with_reducible apply State.syncFix_kept
    | with_reducible apply State.setFld_kept
    | with_reducible refine KeptOut.ite ?_ ?_
    | split)

theorem State.setBudget_kept {qq : List Instr} {s : State} {b} (hk : Kept qq s) :
    Kept qq (State.setBudget s b) := by
  unfold State.setBudget
  try dsimp only
  repeat' (first
    | with_reducible assumption
    | with_reducible apply State.setFld_kept
    | with_reducible apply State.raise_kept
    | with_reducible refine Kept.ite ?_ ?_
    | split
    | with_reducible refine Kept.parts ?_
    | (with_reducible refine Kept.lit ?_; dsimp only; with_reducible refine Kept.parts ?_))

theorem execEstimateUpdate_kept {qq : List Instr} {estimate} {s : State} (hk : Kept qq s) :
    KeptOut qq (execEstimateUpdate estimate s) := by
  unfold execEstimateUpdate
  try dsimp only
  repeat' (first
    | with_reducible assumption
    | with_reducible refine KeptOut.next ?_
    | with_reducible refine KeptOut.ite ?_ ?_
    | split
    | with_reducible refine Kept.parts ?_
    | (with_reducible refine Kept.lit ?_; dsimp only; with_reducible refine Kept.parts ?_))

theorem execPauseSlot_kept {qq : List Instr} {s : State} (hk : Kept qq s) :
    KeptOut qq (execPauseSlot s) := by
  unfold execPauseSlot
  try dsimp only
  repeat' (first
    | with_reducible assumption
    | with_reducible refine KeptOut.next ?_
    | with_reducible refine Kept.foldl (fun _ _ _ => ?_) ?_
    | with_reducible refine KeptOut.ite ?_ ?_
    | split
    | with_reducible refine Kept.parts ?_
    | (with_reducible refine Kept.lit ?_; dsimp only; with_reducible refine Kept.parts ?_)
    | (intro _; try dsimp only))

theorem execPowerMeasurement_kept {qq : List Instr} {measured} {estimate} {mainv} {maina} {auxv} {s : State} (hk : Kept qq s) :
    KeptOut qq (execPowerMeasurement measured estimate mainv maina auxv s) := by
  unfold execPowerMeasurement
  try dsimp only
  repeat' (first
    | with_reducible assumption
    | with_reducible refine KeptOut.next ?_
    | with_reducible apply State.setReg_kept
    | with_reducible apply State.setFld_kept
    | with_reducible apply State.raise_kept
    | with_reducible apply State.bump_kept
    | with_reducible apply State.setBit_kept
    | with_reducible refine KeptOut.ite ?_ ?_
    | split
    | with_reducible refine Kept.parts ?_
    | (with_reducible refine Kept.lit ?_; dsimp only; with_reducible refine Kept.parts ?_))

theorem execMeasuredModeExit_kept {qq : List Instr} {s : State} (hk : Kept qq s) :
    KeptOut qq (execMeasuredModeExit s) := by
  unfold execMeasuredModeExit
  try dsimp only
  repeat' (first
    | with_reducible assumption
    | with_reducible refine KeptOut.next ?_
    | with_reducible apply State.raise_kept
    | with_reducible apply State.setBit_kept
    | with_reducible refine KeptOut.ite ?_ ?_
    | split
    | with_reducible refine Kept.parts ?_
    | (with_reducible refine Kept.lit ?_; dsimp only; with_reducible refine Kept.parts ?_))

theorem execCalibrationComplete_kept {qq : List Instr} {s : State} (hk : Kept qq s) :
    KeptOut qq (execCalibrationComplete s) := by
  unfold execCalibrationComplete
  try dsimp only
  repeat' (first
    | with_reducible assumption
    | with_reducible refine KeptOut.next ?_
    | with_reducible apply State.raise_kept
    | with_reducible apply State.setBit_kept
    | with_reducible refine KeptOut.ite ?_ ?_
    | split
    | with_reducible refine Kept.parts ?_
    | (with_reducible refine Kept.lit ?_; dsimp only; first | with_reducible refine Kept.parts ?_ | with_reducible refine KeptParts.empty (Kept.parts ?_)))

theorem State.syncHbmPause_kept {qq : List Instr} {s : State} (hk : Kept qq s) :
    Kept qq (State.syncHbmPause s) := by
  unfold State.syncHbmPause
  try dsimp only
  repeat' (first
    | with_reducible assumption
    | with_reducible apply State.setFld_kept
    | with_reducible refine Kept.foldl (fun _ _ _ => ?_) ?_
    | with_reducible refine Kept.ite ?_ ?_
    | split
    | (intro _; try dsimp only))

theorem execPowerControlInterval_kept {qq : List Instr} {pred} {duty} {eq} {s : State} (hk : Kept qq s) :
    KeptOut qq (execPowerControlInterval pred duty eq s) := by
  unfold execPowerControlInterval
  try dsimp only
  repeat' (first
    | with_reducible assumption
    | with_reducible refine KeptOut.next ?_
    | with_reducible apply State.setFld_kept
    | with_reducible apply State.syncHbmPause_kept
    | with_reducible apply State.raise_kept
    | with_reducible refine KeptOut.ite ?_ ?_
    | split
    | with_reducible refine Kept.parts ?_
    | (with_reducible refine Kept.lit ?_; dsimp only; with_reducible refine Kept.parts ?_))

theorem execDroopDetect_kept {qq : List Instr} {n} {cycles} {excess} {s : State} (hk : Kept qq s) :
    KeptOut qq (execDroopDetect n cycles excess s) := by
  unfold execDroopDetect
  try dsimp only
  repeat' (first
    | with_reducible assumption
    | with_reducible refine KeptOut.next ?_
    | with_reducible apply State.bump_kept
    | with_reducible apply State.setFld_kept
    | with_reducible apply State.withhold_kept
    | with_reducible apply State.raise_kept
    | with_reducible refine KeptOut.ite ?_ ?_
    | split
    | with_reducible refine Kept.parts ?_
    | (with_reducible refine Kept.lit ?_; dsimp only; with_reducible refine Kept.parts ?_)
    | (intro _; try dsimp only))

theorem execDroopCeilingRise_kept {qq : List Instr} {n} {s : State} (hk : Kept qq s) :
    KeptOut qq (execDroopCeilingRise n s) := by
  unfold execDroopCeilingRise
  try dsimp only
  repeat' (first
    | with_reducible assumption
    | with_reducible refine KeptOut.next ?_
    | with_reducible apply State.setFld_kept
    | with_reducible refine KeptOut.ite ?_ ?_
    | split
    | with_reducible refine Kept.parts ?_
    | (with_reducible refine Kept.lit ?_; dsimp only; with_reducible refine Kept.parts ?_))

theorem State.leavePool_kept {qq : List Instr} {s : State} {st} (hk : Kept qq s) :
    Kept qq (State.leavePool s st) := by
  unfold State.leavePool
  try dsimp only
  repeat' (first
    | with_reducible assumption
    | with_reducible apply State.setFld_kept
    | with_reducible apply State.setBudget_kept
    | with_reducible refine Kept.parts ?_
    | (with_reducible refine Kept.lit ?_; dsimp only; first | with_reducible refine Kept.parts ?_ | with_reducible refine KeptParts.empty (Kept.parts ?_)))

theorem execPoolEpoch_kept {qq : List Instr} {s : State} (hk : Kept qq s) :
    KeptOut qq (execPoolEpoch s) := by
  unfold execPoolEpoch
  try dsimp only
  repeat' (first
    | with_reducible assumption
    | with_reducible refine KeptOut.next ?_
    | with_reducible apply State.leavePool_kept
    | with_reducible apply State.raise_kept
    | with_reducible apply State.setBudget_kept
    | with_reducible apply State.setFld_kept
    | with_reducible apply State.emit_kept
    | with_reducible refine Kept.foldl (fun _ _ _ => ?_) ?_
    | with_reducible refine KeptOut.ite ?_ ?_
    | split
    | with_reducible refine Kept.parts ?_
    | (with_reducible refine Kept.lit ?_; dsimp only; first | with_reducible refine Kept.parts ?_ | with_reducible refine KeptParts.filter (Kept.parts ?_))
    | (intro _; try dsimp only))

theorem execPoolReport_kept {qq : List Instr} {m} {s : State} (hk : Kept qq s) :
    KeptOut qq (execPoolReport m s) := by
  unfold execPoolReport
  try dsimp only
  repeat' (first
    | with_reducible assumption
    | with_reducible refine KeptOut.next ?_
    | with_reducible apply State.raise_kept
    | with_reducible apply State.emit_kept
    | with_reducible refine Kept.foldl (fun _ _ _ => ?_) ?_
    | with_reducible refine KeptOut.ite ?_ ?_
    | split
    | with_reducible refine Kept.parts ?_
    | (with_reducible refine Kept.lit ?_; dsimp only; first | with_reducible refine Kept.parts ?_ | with_reducible refine KeptParts.filter (Kept.parts ?_))
    | (intro _; try dsimp only))

theorem execPoolBudgetCompute_kept {qq : List Instr} {s : State} (hk : Kept qq s) :
    KeptOut qq (execPoolBudgetCompute s) := by
  unfold execPoolBudgetCompute
  try dsimp only
  repeat' (first
    | with_reducible assumption
    | with_reducible refine KeptOut.next ?_
    | with_reducible apply State.bump_kept
    | with_reducible apply State.setFld_kept
    | with_reducible apply State.raise_kept
    | with_reducible apply State.leavePool_kept
    | with_reducible refine Kept.foldl (fun _ _ _ => ?_) ?_
    | with_reducible refine KeptOut.ite ?_ ?_
    | split
    | with_reducible refine Kept.fst (by assumption) ?_
    | with_reducible refine Kept.trd (by assumption) ?_
    | with_reducible refine Kept.snd (by assumption) ?_
    | with_reducible refine Kept.parts ?_
    | (with_reducible refine Kept.lit ?_; dsimp only; first | with_reducible refine Kept.parts ?_ | with_reducible refine KeptParts.filter (Kept.parts ?_))
    | (intro _; try dsimp only))

end Sys2Proof.Machine
end

