-- ==== Sys2Proof/Laws/KeptThermal.lean ====
section
/-! SUPPORT. Operations and meanings of Machine/Thermal keep the canonical form of memory and leave the waiting commands alone. -/

namespace Sys2Proof.Machine

theorem State.thermalShutdown_kept {qq : List Instr} {s : State} {site} {first} {second} (hk : Kept qq s) :
    Kept qq (State.thermalShutdown s site first second) := by
  unfold State.thermalShutdown
  try dsimp only
  repeat' (first
    | with_reducible assumption
    | with_reducible apply State.journalAdd_kept
    | with_reducible apply State.mainDown_kept
    | with_reducible apply State.setReg_kept
    | with_reducible apply State.raise_kept
    | with_reducible apply State.bump_kept
    | split
    | with_reducible refine Kept.parts ?_
    | (with_reducible refine Kept.lit ?_; dsimp only; with_reducible refine Kept.parts ?_))

theorem execTemperatureSample_kept {qq : List Instr} {s : State} {site} {a} {b} (hk : Kept qq s) :
    KeptOut qq (execTemperatureSample site a b s) := by
  unfold execTemperatureSample
  try dsimp only
  repeat' (first
    | with_reducible assumption
    | with_reducible refine KeptOut.next ?_
    | with_reducible apply State.setFld_kept
    | with_reducible apply State.raise_kept
    | with_reducible apply State.thermalShutdown_kept
    | with_reducible refine KeptOut.ite ?_ ?_
    | with_reducible refine Kept.ite ?_ ?_
    | split
    | with_reducible refine Kept.fst (by assumption) ?_
    | with_reducible refine Kept.trd (by assumption) ?_
    | with_reducible refine Kept.snd (by assumption) ?_
    | with_reducible refine Kept.parts ?_
    | (with_reducible refine Kept.lit ?_; dsimp only; first | with_reducible refine Kept.parts ?_ | with_reducible refine KeptParts.empty (Kept.parts ?_))
    | (intro _; try dsimp only))

theorem execTripHoldEnd_kept {qq : List Instr} {s : State} (hk : Kept qq s) :
    KeptOut qq (execTripHoldEnd s) := by
  unfold execTripHoldEnd
  try dsimp only
  repeat' (first
    | with_reducible assumption
    | with_reducible refine KeptOut.next ?_
    | with_reducible apply State.startBoot_kept
    | with_reducible refine KeptOut.ite ?_ ?_
    | split)

theorem execThermalControl_kept {qq : List Instr} {s : State} (hk : Kept qq s) :
    KeptOut qq (execThermalControl s) := by
  unfold execThermalControl
  try dsimp only
  repeat' (first
    | with_reducible assumption
    | with_reducible refine KeptOut.next ?_
    | with_reducible apply State.setFld_kept
    | with_reducible apply State.syncHbmPause_kept
    | with_reducible apply State.withhold_kept
    | with_reducible apply State.raise_kept
    | with_reducible refine Kept.foldl (fun _ _ _ => ?_) ?_
    | with_reducible refine KeptOut.ite ?_ ?_
    | split
    | with_reducible refine Kept.fst (by assumption) ?_
    | with_reducible refine Kept.trd (by assumption) ?_
    | with_reducible refine Kept.snd (by assumption) ?_
    | with_reducible refine Kept.parts ?_
    | (with_reducible refine Kept.lit ?_; dsimp only; first | with_reducible refine Kept.parts ?_ | with_reducible refine KeptParts.empty (Kept.parts ?_))
    | (intro _; try dsimp only))

theorem execResume_kept {qq : List Instr} {s : State} {k} (hk : Kept qq s) :
    KeptOut qq (execResume k s) := by
  unfold execResume
  try dsimp only
  repeat' (first
    | with_reducible assumption
    | with_reducible refine KeptOut.next ?_
    | with_reducible apply State.setFld_kept
    | with_reducible apply State.raise_kept
    | with_reducible apply State.setMstate_kept
    | with_reducible apply State.serve_kept
    | with_reducible refine KeptOut.ite ?_ ?_
    | with_reducible refine Kept.ite ?_ ?_
    | split
    | with_reducible refine Kept.parts ?_
    | (with_reducible refine Kept.lit ?_; dsimp only; first | with_reducible refine Kept.parts ?_ | with_reducible refine KeptParts.empty (Kept.parts ?_))
    | (intro _; try dsimp only))

theorem execLevelSet_kept {qq : List Instr} {k} {body} {s : State} (hk : Kept qq s) :
    KeptOut qq (execLevelSet k body s) := by
  unfold execLevelSet
  try dsimp only
  repeat' (first
    | with_reducible assumption
    | with_reducible refine KeptOut.next ?_
    | with_reducible apply State.serve_kept
    | with_reducible apply State.setFld_kept
    | with_reducible apply State.journalAdd_kept
    | with_reducible refine KeptOut.ite ?_ ?_
    | split
    | with_reducible refine Kept.fst (by assumption) ?_
    | with_reducible refine Kept.trd (by assumption) ?_
    | with_reducible refine Kept.snd (by assumption) ?_
    | (intro _; try dsimp only))

end Sys2Proof.Machine
end

