-- ==== Sys2Proof/Laws/KeptFabricTime.lean ====
section
/-! SUPPORT. Operations and meanings of Machine/FabricTime keep the canonical form of memory and leave the waiting commands alone. -/

namespace Sys2Proof.Machine

theorem State.chooseRoot_kept {qq : List Instr} {s : State} (hk : Kept qq s) :
    Kept qq (State.chooseRoot s) := by
  unfold State.chooseRoot
  try dsimp only
  repeat' (first
    | with_reducible assumption
    | with_reducible apply State.setFld_kept
    | with_reducible apply State.raise_kept
    | with_reducible refine Kept.ite ?_ ?_
    | split
    | with_reducible refine Kept.fst (by assumption) ?_
    | with_reducible refine Kept.trd (by assumption) ?_
    | with_reducible refine Kept.snd (by assumption) ?_
    | with_reducible refine Kept.parts ?_
    | (with_reducible refine Kept.lit ?_; dsimp only; with_reducible refine Kept.parts ?_)
    | (intro _; try dsimp only))

theorem execFtAnnounce_kept {qq : List Instr} {s : State} (hk : Kept qq s) :
    KeptOut qq (execFtAnnounce s) := by
  unfold execFtAnnounce
  try dsimp only
  repeat' (first
    | with_reducible assumption
    | with_reducible refine KeptOut.next ?_
    | with_reducible apply State.chooseRoot_kept
    | with_reducible apply State.emit_kept
    | with_reducible refine Kept.foldl (fun _ _ _ => ?_) ?_
    | with_reducible refine KeptOut.ite ?_ ?_
    | split
    | (intro _; try dsimp only))

theorem execRootAnnouncement_kept {qq : List Instr} {chip} {prio} {root} {s : State} (hk : Kept qq s) :
    KeptOut qq (execRootAnnouncement chip prio root s) := by
  unfold execRootAnnouncement
  try dsimp only
  repeat' (first
    | with_reducible assumption
    | with_reducible refine KeptOut.next ?_
    | with_reducible apply State.chooseRoot_kept
    | with_reducible refine KeptOut.ite ?_ ?_
    | split
    | with_reducible refine Kept.parts ?_
    | (with_reducible refine Kept.lit ?_; dsimp only; first | with_reducible refine Kept.parts ?_ | with_reducible refine KeptParts.filter (Kept.parts ?_))
    | (intro _; try dsimp only))

theorem execFtExchange_kept {qq : List Instr} {s : State} {t1} {t2} {t3} {t4} {freq} (hk : Kept qq s) :
    KeptOut qq (execFtExchange t1 t2 t3 t4 freq s) := by
  unfold execFtExchange
  try dsimp only
  repeat' (first
    | with_reducible assumption
    | with_reducible refine KeptOut.next ?_
    | with_reducible apply State.setFld_kept
    | with_reducible apply State.raise_kept
    | with_reducible refine KeptOut.ite ?_ ?_
    | with_reducible refine Kept.ite ?_ ?_
    | split
    | with_reducible refine Kept.fst (by assumption) ?_
    | with_reducible refine Kept.trd (by assumption) ?_
    | with_reducible refine Kept.snd (by assumption) ?_
    | with_reducible refine Kept.parts ?_
    | (with_reducible refine Kept.lit ?_; dsimp only; first | with_reducible refine Kept.parts ?_ | with_reducible refine KeptParts.empty (Kept.parts ?_))
    | (intro _; try dsimp only))

theorem execFtHoldover_kept {qq : List Instr} {s : State} (hk : Kept qq s) :
    KeptOut qq (execFtHoldover s) := by
  unfold execFtHoldover
  try dsimp only
  repeat' (first
    | with_reducible assumption
    | with_reducible refine KeptOut.next ?_
    | with_reducible apply State.raise_kept
    | with_reducible apply State.setFld_kept
    | with_reducible apply State.chooseRoot_kept
    | with_reducible refine KeptOut.ite ?_ ?_
    | split
    | with_reducible refine Kept.parts ?_
    | (with_reducible refine Kept.lit ?_; dsimp only; with_reducible refine Kept.parts ?_))

theorem execPtpMessage_kept {qq : List Instr} {j} {ptp} {s : State} (hk : Kept qq s) :
    KeptOut qq (execPtpMessage j ptp s) := by
  unfold execPtpMessage
  try dsimp only
  repeat' (first
    | with_reducible assumption
    | with_reducible refine KeptOut.next ?_
    | with_reducible apply State.setBit_kept
    | with_reducible refine KeptOut.ite ?_ ?_
    | split
    | with_reducible refine Kept.parts ?_
    | (with_reducible refine Kept.lit ?_; dsimp only; with_reducible refine Kept.parts ?_))

end Sys2Proof.Machine
end

