-- ==== Sys2Proof/Laws/KeptHealth.lean ====
section
/-! SUPPORT. Operations and meanings of Machine/Health keep the canonical form of memory and leave the waiting commands alone. -/

namespace Sys2Proof.Machine

theorem State.showHealth_kept {qq : List Instr} {s : State} (hk : Kept qq s) :
    Kept qq (State.showHealth s) := by
  unfold State.showHealth
  try dsimp only
  repeat' (first
    | with_reducible assumption
    | with_reducible apply State.setReg_kept
    | with_reducible refine Kept.ite ?_ ?_
    | split
    | (intro _; try dsimp only))

theorem execHealthEvaluation_kept {qq : List Instr} {s : State} (hk : Kept qq s) :
    KeptOut qq (execHealthEvaluation s) := by
  unfold execHealthEvaluation
  try dsimp only
  repeat' (first
    | with_reducible assumption
    | with_reducible refine KeptOut.next ?_
    | with_reducible apply State.showHealth_kept
    | with_reducible apply State.raise_kept
    | with_reducible refine KeptOut.ite ?_ ?_
    | split
    | with_reducible refine Kept.parts ?_
    | (with_reducible refine Kept.lit ?_; dsimp only; first | with_reducible refine Kept.parts ?_ | with_reducible refine KeptParts.filter (Kept.parts ?_))
    | (intro _; try dsimp only))

theorem execHealthJournal_kept {qq : List Instr} {s : State} (hk : Kept qq s) :
    KeptOut qq (execHealthJournal s) := by
  unfold execHealthJournal
  try dsimp only
  repeat' (first
    | with_reducible assumption
    | with_reducible refine KeptOut.next ?_
    | with_reducible apply State.journalAdd_kept
    | with_reducible refine KeptOut.ite ?_ ?_
    | split
    | with_reducible refine Kept.parts ?_
    | (with_reducible refine Kept.lit ?_; dsimp only; with_reducible refine Kept.parts ?_)
    | (intro _; try dsimp only))

end Sys2Proof.Machine
end

