-- ==== Sys2Proof/Laws/KeptMemorySystem.lean ====
section
/-! SUPPORT. Operations and meanings of Machine/MemorySystem keep the canonical form of memory and leave the waiting commands alone. -/

namespace Sys2Proof.Machine

theorem State.raiseUncoded_kept {qq : List Instr} {s : State} {record} (hk : Kept qq s) :
    Kept qq (State.raiseUncoded s record) := by
  unfold State.raiseUncoded
  try dsimp only
  repeat' (first
    | with_reducible assumption
    | with_reducible apply State.raise_kept
    | with_reducible apply State.drew_kept)

theorem execD2dCrcReplay_kept {qq : List Instr} {d} {s : State} (hk : Kept qq s) :
    KeptOut qq (execD2dCrcReplay d s) := by
  unfold execD2dCrcReplay
  try dsimp only
  repeat' (first
    | with_reducible assumption
    | with_reducible refine KeptOut.next ?_
    | with_reducible apply State.bump_kept
    | with_reducible apply State.drillPass_kept
    | with_reducible apply State.drillDrop_kept
    | with_reducible refine KeptOut.ite ?_ ?_
    | split)

theorem State.linkLost_kept {qq : List Instr} {s : State} (hk : Kept qq s) :
    Kept qq (State.linkLost s) := by
  unfold State.linkLost
  try dsimp only
  repeat' (first
    | with_reducible assumption
    | with_reducible apply State.haltAll_kept
    | with_reducible apply State.setBit_kept)

theorem execD2dLaneFail_kept {qq : List Instr} {d} {g} {l} {s : State} (hk : Kept qq s) :
    KeptOut qq (execD2dLaneFail d g l s) := by
  unfold execD2dLaneFail
  try dsimp only
  repeat' (first
    | with_reducible assumption
    | with_reducible refine KeptOut.next ?_
    | with_reducible apply State.syncGroup_kept
    | with_reducible apply State.setBit_kept
    | with_reducible apply State.raiseUncoded_kept
    | with_reducible apply State.bump_kept
    | with_reducible apply State.healthAdd_kept
    | with_reducible apply State.syncLink_kept
    | with_reducible apply State.linkLost_kept
    | with_reducible refine KeptOut.ite ?_ ?_
    | split)

theorem execPatrolScrub_kept {qq : List Instr} {addr} {err} {s : State} (hk : Kept qq s) :
    KeptOut qq (execPatrolScrub addr err s) := by
  unfold execPatrolScrub
  try dsimp only
  repeat' (first
    | with_reducible assumption
    | with_reducible refine KeptOut.next ?_
    | with_reducible apply State.drillPass_kept
    | with_reducible apply State.memError_kept
    | with_reducible apply State.drillFired_kept
    | with_reducible apply State.drillDrop_kept
    | with_reducible refine KeptOut.ite ?_ ?_
    | split
    | with_reducible refine Kept.fst (by assumption) ?_
    | with_reducible refine Kept.trd (by assumption) ?_
    | with_reducible refine Kept.snd (by assumption) ?_
    | with_reducible refine Kept.parts ?_
    | (with_reducible refine Kept.lit ?_; dsimp only; with_reducible refine Kept.parts ?_)
    | (intro _; try dsimp only))

theorem execChannelNotAnswering_kept {qq : List Instr} {addr} {jobs} {s : State} (hk : Kept qq s) :
    KeptOut qq (execChannelNotAnswering addr jobs s) := by
  unfold execChannelNotAnswering
  try dsimp only
  repeat' (first
    | with_reducible assumption
    | with_reducible refine KeptOut.next ?_
    | with_reducible apply State.askHalt_kept
    | with_reducible apply State.raiseJob_kept
    | with_reducible apply State.markChannel_kept
    | with_reducible refine Kept.foldl (fun _ _ _ => ?_) ?_
    | with_reducible refine KeptOut.ite ?_ ?_
    | split
    | with_reducible refine Kept.fst (by assumption) ?_
    | with_reducible refine Kept.trd (by assumption) ?_
    | with_reducible refine Kept.snd (by assumption) ?_
    | with_reducible refine Kept.parts ?_
    | (with_reducible refine Kept.lit ?_; dsimp only; first | with_reducible refine Kept.parts ?_ | with_reducible refine KeptParts.filter (Kept.parts ?_))
    | (intro _; try dsimp only))

theorem State.setRefresh_kept {qq : List Instr} {s : State} {k} {r} (hk : Kept qq s) :
    Kept qq (State.setRefresh s k r) := by
  unfold State.setRefresh
  try dsimp only
  repeat' (first
    | with_reducible assumption
    | with_reducible apply State.setFld_kept
    | with_reducible apply State.raise_kept
    | with_reducible apply State.place_kept
    | (intro _; try dsimp only))

theorem execRefreshRateRaise_kept {qq : List Instr} {s : State} {k} (hk : Kept qq s) :
    KeptOut qq (execRefreshRateRaise k s) := by
  unfold execRefreshRateRaise
  try dsimp only
  repeat' (first
    | with_reducible assumption
    | with_reducible refine KeptOut.next ?_
    | with_reducible apply State.setRefresh_kept
    | with_reducible refine KeptOut.ite ?_ ?_
    | with_reducible refine Kept.ite ?_ ?_
    | split
    | (intro _; try dsimp only))

theorem execRefreshRateLower_kept {qq : List Instr} {s : State} {k} (hk : Kept qq s) :
    KeptOut qq (execRefreshRateLower k s) := by
  unfold execRefreshRateLower
  try dsimp only
  repeat' (first
    | with_reducible assumption
    | with_reducible refine KeptOut.next ?_
    | with_reducible apply State.setRefresh_kept
    | with_reducible refine KeptOut.ite ?_ ?_
    | with_reducible refine Kept.ite ?_ ?_
    | split
    | (intro _; try dsimp only))

theorem execWindowZeroingDone_kept {qq : List Instr} {job} {w} {s : State} (hk : Kept qq s) :
    KeptOut qq (execWindowZeroingDone job w s) := by
  unfold execWindowZeroingDone
  try dsimp only
  repeat' (first
    | with_reducible assumption
    | with_reducible refine KeptOut.next ?_
    | with_reducible apply State.putJob_kept
    | with_reducible apply State.clearRange_kept
    | with_reducible refine KeptOut.ite ?_ ?_
    | split
    | with_reducible refine Kept.fst (by assumption) ?_
    | with_reducible refine Kept.trd (by assumption) ?_
    | with_reducible refine Kept.snd (by assumption) ?_
    | with_reducible refine Kept.parts ?_
    | (with_reducible refine Kept.lit ?_; dsimp only; with_reducible refine Kept.parts ?_)
    | (intro _; try dsimp only))

end Sys2Proof.Machine
end

