-- ==== Sys2Proof/Laws/KeptBoot.lean ====
section
/-! SUPPORT. Operations and meanings of Machine/Boot keep the canonical form of memory and leave the waiting commands alone. -/

namespace Sys2Proof.Machine

theorem State.tryMain_kept {qq : List Instr} {s : State} (hk : Kept qq s) :
    Kept qq (State.tryMain s) := by
  unfold State.tryMain
  try dsimp only
  repeat' (first
    | with_reducible assumption
    | with_reducible apply State.setMstate_kept
    | with_reducible apply State.startBoot_kept
    | with_reducible apply State.mainUp_kept
    | with_reducible refine Kept.ite ?_ ?_
    | split
    | with_reducible refine Kept.parts ?_
    | (with_reducible refine Kept.lit ?_; dsimp only; with_reducible refine Kept.parts ?_))

theorem State.losePower_kept {qq : List Instr} {s : State} (hk : Kept qq s) :
    Kept qq (State.losePower s) := by
  unfold State.losePower
  try dsimp only
  repeat' (first
    | with_reducible assumption
    | with_reducible apply State.mainDown_kept
    | with_reducible refine Kept.ite ?_ ?_
    | split)

theorem execAuxPowerApplied_kept {qq : List Instr} {slot} {elapsed} {s : State} (hk : Kept qq s) :
    KeptOut qq (execAuxPowerApplied slot elapsed s) := by
  unfold execAuxPowerApplied
  try dsimp only
  repeat' (first
    | with_reducible assumption
    | with_reducible refine KeptOut.next ?_
    | with_reducible apply State.setReg_kept
    | with_reducible apply State.setMstate_kept
    | with_reducible apply State.startBoot_kept
    | with_reducible refine KeptOut.ite ?_ ?_
    | split
    | with_reducible refine Kept.parts ?_
    | (with_reducible refine Kept.lit ?_; dsimp only; with_reducible refine Kept.parts ?_))

theorem execAuxPowerLost_kept {qq : List Instr} {s : State} (hk : Kept qq s) :
    KeptOut qq (execAuxPowerLost s) := by
  unfold execAuxPowerLost
  try dsimp only
  repeat' (first
    | with_reducible assumption
    | with_reducible refine KeptOut.next ?_
    | with_reducible apply State.setReg_kept
    | with_reducible apply State.mainOff_kept
    | with_reducible apply State.setFld_kept
    | with_reducible refine KeptOut.ite ?_ ?_
    | split
    | with_reducible refine Kept.parts ?_
    | (with_reducible refine Kept.lit ?_; dsimp only; with_reducible refine Kept.parts ?_))

theorem execMainEnHigh_kept {qq : List Instr} {s : State} (hk : Kept qq s) :
    KeptOut qq (execMainEnHigh s) := by
  unfold execMainEnHigh
  try dsimp only
  repeat' (first
    | with_reducible assumption
    | with_reducible refine KeptOut.next ?_
    | with_reducible apply State.tryMain_kept
    | with_reducible refine KeptOut.ite ?_ ?_
    | split
    | with_reducible refine Kept.parts ?_
    | (with_reducible refine Kept.lit ?_; dsimp only; with_reducible refine Kept.parts ?_))

theorem execMainEnLow_kept {qq : List Instr} {s : State} (hk : Kept qq s) :
    KeptOut qq (execMainEnLow s) := by
  unfold execMainEnLow
  try dsimp only
  repeat' (first
    | with_reducible assumption
    | with_reducible refine KeptOut.next ?_
    | with_reducible apply State.losePower_kept
    | with_reducible refine Kept.parts ?_
    | (with_reducible refine Kept.lit ?_; dsimp only; with_reducible refine Kept.parts ?_))

theorem execMainInputInRange_kept {qq : List Instr} {s : State} (hk : Kept qq s) :
    KeptOut qq (execMainInputInRange s) := by
  unfold execMainInputInRange
  try dsimp only
  repeat' (first
    | with_reducible assumption
    | with_reducible refine KeptOut.next ?_
    | with_reducible apply State.tryMain_kept
    | with_reducible refine Kept.parts ?_
    | (with_reducible refine Kept.lit ?_; dsimp only; with_reducible refine Kept.parts ?_))

theorem execInputUndervoltage_kept {qq : List Instr} {s : State} (hk : Kept qq s) :
    KeptOut qq (execInputUndervoltage s) := by
  unfold execInputUndervoltage
  try dsimp only
  repeat' (first
    | with_reducible assumption
    | with_reducible refine KeptOut.next ?_
    | with_reducible apply State.losePower_kept
    | with_reducible refine Kept.parts ?_
    | (with_reducible refine Kept.lit ?_; dsimp only; with_reducible refine Kept.parts ?_))

theorem execInputOvervoltage_kept {qq : List Instr} {s : State} (hk : Kept qq s) :
    KeptOut qq (execInputOvervoltage s) := by
  unfold execInputOvervoltage
  try dsimp only
  repeat' (first
    | with_reducible assumption
    | with_reducible refine KeptOut.next ?_
    | with_reducible apply State.losePower_kept
    | with_reducible refine Kept.parts ?_
    | (with_reducible refine Kept.lit ?_; dsimp only; with_reducible refine Kept.parts ?_))

theorem execResetNLow_kept {qq : List Instr} {s : State} (hk : Kept qq s) :
    KeptOut qq (execResetNLow s) := by
  unfold execResetNLow
  try dsimp only
  repeat' (first
    | with_reducible assumption
    | with_reducible refine KeptOut.next ?_
    | with_reducible apply State.mainOff_kept
    | with_reducible apply State.setFld_kept
    | with_reducible refine KeptOut.ite ?_ ?_
    | split
    | with_reducible refine Kept.parts ?_
    | (with_reducible refine Kept.lit ?_; dsimp only; with_reducible refine Kept.parts ?_))

theorem execResetNRelease_kept {qq : List Instr} {s : State} (hk : Kept qq s) :
    KeptOut qq (execResetNRelease s) := by
  unfold execResetNRelease
  try dsimp only
  repeat' (first
    | with_reducible assumption
    | with_reducible refine KeptOut.next ?_
    | with_reducible apply State.startBoot_kept
    | with_reducible refine KeptOut.ite ?_ ?_
    | split
    | with_reducible refine Kept.parts ?_
    | (with_reducible refine Kept.lit ?_; dsimp only; with_reducible refine Kept.parts ?_))

theorem State.bootFlash_kept {qq : List Instr} {s : State} {f} (hk : Kept qq s) :
    Kept qq (State.bootFlash s f) := by
  unfold State.bootFlash
  try dsimp only
  repeat' (first
    | with_reducible assumption
    | with_reducible apply State.setReg_kept
    | with_reducible apply State.setFld_kept
    | with_reducible apply State.setBit_kept
    | with_reducible apply State.drew_kept
    | with_reducible apply State.raise_kept
    | with_reducible refine Kept.ite ?_ ?_
    | split
    | with_reducible refine Kept.parts ?_
    | (with_reducible refine Kept.lit ?_; dsimp only; first | with_reducible refine Kept.parts ?_ | with_reducible refine KeptParts.empty (Kept.parts ?_))
    | (intro _; try dsimp only))

theorem State.bootIdentity_kept {qq : List Instr} {s : State} {i} (hk : Kept qq s) :
    Kept qq (State.bootIdentity s i) := by
  unfold State.bootIdentity
  try dsimp only
  repeat' (first
    | with_reducible assumption
    | with_reducible apply State.setReg_kept
    | with_reducible refine Kept.foldl (fun _ _ _ => ?_) ?_
    | split
    | with_reducible refine Kept.fst (by assumption) ?_
    | with_reducible refine Kept.trd (by assumption) ?_
    | with_reducible refine Kept.snd (by assumption) ?_
    | with_reducible refine Kept.parts ?_
    | (with_reducible refine Kept.lit ?_; dsimp only; with_reducible refine Kept.parts ?_)
    | (intro _; try dsimp only))

theorem State.refeed_kept {qq : List Instr} {s : State} {c} {k} (hk : Kept qq s) :
    Kept qq (State.refeed s c k) := by
  unfold State.refeed
  try dsimp only
  repeat' (first
    | with_reducible assumption
    | with_reducible apply State.raise_kept
    | with_reducible apply State.setFeed_kept
    | with_reducible apply State.place_kept
    | with_reducible refine Kept.ite ?_ ?_
    | split
    | with_reducible refine Kept.fst (by assumption) ?_
    | with_reducible refine Kept.trd (by assumption) ?_
    | with_reducible refine Kept.snd (by assumption) ?_
    | (intro _; try dsimp only))

theorem State.bootHosts_kept {qq : List Instr} {s : State}  (hk : Kept qq s) :
    Kept qq (State.bootHosts s) := by
  unfold State.bootHosts
  try dsimp only
  repeat' (first
    | with_reducible assumption
    | with_reducible apply State.setFld_kept
    | with_reducible refine Kept.foldl ?_ ?_
    | with_reducible refine Kept.foldlFst ?_ ?_
    | with_reducible refine Kept.ite ?_ ?_
    | split
    | (intro _; try dsimp only))

theorem State.bootCart_kept {qq : List Instr} {s : State} {c} {present} {valid} {serial} {hours} {bol} {power} (hk : Kept qq s) :
    Kept qq (State.bootCart s c present valid serial hours bol power) := by
  unfold State.bootCart
  try dsimp only
  repeat' (first
    | with_reducible assumption
    | with_reducible apply State.setReg_kept
    | with_reducible apply State.setFld_kept
    | with_reducible apply State.raise_kept
    | with_reducible apply State.place_kept
    | with_reducible apply State.refeed_kept
    | with_reducible refine Kept.foldl ?_ ?_
    | with_reducible refine Kept.foldlFst ?_ ?_
    | with_reducible refine Kept.ite ?_ ?_
    | split
    | with_reducible refine Kept.parts ?_
    | (with_reducible refine Kept.lit ?_; dsimp only; first | with_reducible refine Kept.parts ?_ | with_reducible refine KeptParts.empty (Kept.parts ?_))
    | (intro _; try dsimp only))

theorem State.bootLanes_kept {qq : List Instr} {s : State} {ps} (hk : Kept qq s) :
    Kept qq (State.bootLanes s ps) := by
  unfold State.bootLanes
  try dsimp only
  repeat' (first
    | with_reducible assumption
    | with_reducible apply State.setReg_kept
    | with_reducible refine Kept.foldl (fun _ _ _ => ?_) ?_
    | with_reducible refine Kept.ite ?_ ?_
    | split
    | (intro _; try dsimp only))

theorem State.bootCaps_kept {qq : List Instr} {s : State} (hk : Kept qq s) :
    Kept qq (State.bootCaps s) := by
  unfold State.bootCaps
  try dsimp only
  repeat' (first
    | with_reducible assumption
    | with_reducible apply State.setReg_kept
    | with_reducible refine Kept.foldl (fun _ _ _ => ?_) ?_
    | with_reducible refine Kept.ite ?_ ?_
    | split
    | (intro _; try dsimp only))

theorem State.bootStart_kept {qq : List Instr} {s : State} {f} {i} (hk : Kept qq s) :
    Kept qq (State.bootStart s f i) := by
  unfold State.bootStart
  try dsimp only
  repeat' (first
    | with_reducible assumption
    | with_reducible apply State.setFld_kept
    | with_reducible apply State.syncHull_kept
    | with_reducible apply State.bootFlash_kept
    | with_reducible apply State.bootIdentity_kept
    | with_reducible apply State.bootHosts_kept
    | with_reducible apply State.bootCart_kept
    | with_reducible apply State.bootLanes_kept
    | (intro _; try dsimp only))

theorem State.bootLink_kept {qq : List Instr} {s : State} {f} (hk : Kept qq s) :
    Kept qq (State.bootLink s f) := by
  unfold State.bootLink
  try dsimp only
  repeat' (first
    | with_reducible assumption
    | with_reducible apply State.setReg_kept
    | with_reducible apply State.setBit_kept
    | with_reducible apply State.syncHull_kept
    | with_reducible apply State.syncGroup_kept
    | with_reducible apply State.syncLink_kept
    | with_reducible apply State.place_kept
    | with_reducible apply State.raiseUncoded_kept
    | with_reducible apply State.bootCart_kept
    | with_reducible apply State.bootLanes_kept
    | with_reducible refine Kept.foldl ?_ ?_
    | with_reducible refine Kept.foldlFst ?_ ?_
    | with_reducible refine Kept.ite ?_ ?_
    | split
    | with_reducible refine Kept.parts ?_
    | (with_reducible refine Kept.lit ?_; dsimp only; first | with_reducible refine Kept.parts ?_ | with_reducible refine KeptParts.empty (Kept.parts ?_))
    | (intro _; try dsimp only))

theorem State.bootCores_kept {qq : List Instr} {s : State} {f} (hk : Kept qq s) :
    Kept qq (State.bootCores s f) := by
  unfold State.bootCores
  try dsimp only
  repeat' (first
    | with_reducible assumption
    | with_reducible refine Kept.ite ?_ ?_
    | split
    | with_reducible refine Kept.parts ?_
    | (with_reducible refine Kept.lit ?_; dsimp only; with_reducible refine Kept.parts ?_)
    | (intro _; try dsimp only))

theorem execBootStageDone_kept {qq : List Instr} {f} {s : State} (hk : Kept qq s) :
    KeptOut qq (execBootStageDone f s) := by
  unfold execBootStageDone
  try dsimp only
  repeat' (first
    | with_reducible assumption
    | with_reducible refine KeptOut.next ?_
    | with_reducible apply State.bootStart_kept
    | with_reducible apply State.bootLink_kept
    | with_reducible apply State.bootCores_kept
    | with_reducible apply State.bootCaps_kept
    | with_reducible apply State.testChannels_kept
    | with_reducible refine KeptOut.ite ?_ ?_
    | split
    | with_reducible refine Kept.fst (by assumption) ?_
    | with_reducible refine Kept.trd (by assumption) ?_
    | with_reducible refine Kept.snd (by assumption) ?_
    | with_reducible refine Kept.parts ?_
    | (with_reducible refine Kept.lit ?_; dsimp only; with_reducible refine Kept.parts ?_)
    | (intro _; try dsimp only))

theorem State.powerStart_kept {qq : List Instr} {s : State} (hk : Kept qq s) :
    Kept qq (State.powerStart s) := by
  unfold State.powerStart
  try dsimp only
  repeat' (first
    | with_reducible assumption
    | with_reducible apply State.setReg_kept
    | with_reducible refine Kept.foldl (fun _ _ _ => ?_) ?_
    | with_reducible refine Kept.ite ?_ ?_
    | split
    | (intro _; try dsimp only))

theorem execBootComplete_kept {qq : List Instr} {s : State} (hk : Kept qq s) :
    KeptOut qq (execBootComplete s) := by
  unfold execBootComplete
  try dsimp only
  repeat' (first
    | with_reducible assumption
    | with_reducible refine KeptOut.next ?_
    | with_reducible apply State.setMstate_kept
    | with_reducible apply State.powerStart_kept
    | with_reducible apply State.showHealth_kept
    | with_reducible apply State.syncSec_kept
    | with_reducible apply State.setFld_kept
    | with_reducible apply State.raise_kept
    | with_reducible refine KeptOut.ite ?_ ?_
    | split
    | with_reducible refine Kept.fst (by assumption) ?_
    | with_reducible refine Kept.trd (by assumption) ?_
    | with_reducible refine Kept.snd (by assumption) ?_
    | with_reducible refine Kept.parts ?_
    | (with_reducible refine Kept.lit ?_; dsimp only; with_reducible refine Kept.parts ?_)
    | (intro _; try dsimp only))

theorem execBootWatchdog_kept {qq : List Instr} {s : State} (hk : Kept qq s) :
    KeptOut qq (execBootWatchdog s) := by
  unfold execBootWatchdog
  try dsimp only
  repeat' (first
    | with_reducible assumption
    | with_reducible refine KeptOut.next ?_
    | with_reducible apply State.startBoot_kept
    | with_reducible apply State.raise_kept
    | with_reducible refine KeptOut.ite ?_ ?_
    | split
    | with_reducible refine Kept.parts ?_
    | (with_reducible refine Kept.lit ?_; dsimp only; first | with_reducible refine Kept.parts ?_ | with_reducible refine KeptParts.empty (Kept.parts ?_)))

theorem State.nextPort_kept {qq : List Instr} {s : State} (hk : Kept qq s) :
    Kept qq (State.nextPort s) := by
  unfold State.nextPort
  try dsimp only
  repeat' (first
    | with_reducible assumption
    | with_reducible refine Kept.ite ?_ ?_
    | split
    | with_reducible refine Kept.parts ?_
    | (with_reducible refine Kept.lit ?_; dsimp only; with_reducible refine Kept.parts ?_))

theorem execRecoveryFetch_kept {qq : List Instr} {s : State} {image} (hk : Kept qq s) :
    KeptOut qq (execRecoveryFetch image s) := by
  unfold execRecoveryFetch
  try dsimp only
  repeat' (first
    | with_reducible assumption
    | with_reducible refine KeptOut.next ?_
    | with_reducible apply State.setFld_kept
    | with_reducible apply State.emit_kept
    | with_reducible apply State.raise_kept
    | with_reducible apply State.nextPort_kept
    | with_reducible refine KeptOut.ite ?_ ?_
    | with_reducible refine Kept.ite ?_ ?_
    | split
    | with_reducible refine Kept.fst (by assumption) ?_
    | with_reducible refine Kept.trd (by assumption) ?_
    | with_reducible refine Kept.snd (by assumption) ?_
    | with_reducible refine Kept.parts ?_
    | (with_reducible refine Kept.lit ?_; dsimp only; first | with_reducible refine Kept.parts ?_ | with_reducible refine KeptParts.empty (Kept.parts ?_))
    | (intro _; try dsimp only))

theorem execRecoveryRoundWait_kept {qq : List Instr} {s : State} (hk : Kept qq s) :
    KeptOut qq (execRecoveryRoundWait s) := by
  unfold execRecoveryRoundWait
  try dsimp only
  repeat' (first
    | with_reducible assumption
    | with_reducible refine KeptOut.next ?_
    | with_reducible refine KeptOut.ite ?_ ?_
    | split
    | with_reducible refine Kept.parts ?_
    | (with_reducible refine Kept.lit ?_; dsimp only; with_reducible refine Kept.parts ?_))

theorem execRecoveryImageWritten_kept {qq : List Instr} {ok} {s : State} (hk : Kept qq s) :
    KeptOut qq (execRecoveryImageWritten ok s) := by
  unfold execRecoveryImageWritten
  try dsimp only
  repeat' (first
    | with_reducible assumption
    | with_reducible refine KeptOut.next ?_
    | with_reducible apply State.startBoot_kept
    | with_reducible apply State.raise_kept
    | with_reducible apply State.nextPort_kept
    | with_reducible apply State.setFld_kept
    | with_reducible refine KeptOut.ite ?_ ?_
    | split
    | with_reducible refine Kept.fst (by assumption) ?_
    | with_reducible refine Kept.trd (by assumption) ?_
    | with_reducible refine Kept.snd (by assumption) ?_
    | with_reducible refine Kept.parts ?_
    | (with_reducible refine Kept.lit ?_; dsimp only; first | with_reducible refine Kept.parts ?_ | with_reducible refine KeptParts.empty (Kept.parts ?_))
    | (intro _; try dsimp only))

end Sys2Proof.Machine
end

