-- ==== Sys2Proof/Laws/KeptBranch.lean ====
section
/-! SUPPORT. Operations and meanings of Machine/Branch keep the canonical form of memory and leave the waiting commands alone. -/

namespace Sys2Proof.Machine

theorem branchB_kept {qq : List Instr} {s : State} {op} {legal} {taken} {n} {ws} {ra} {rb} {off} {k} (hk : Kept qq s) :
    KeptOut qq (branchB op legal taken n ws ra rb off k s) := by
  unfold branchB
  try dsimp only
  repeat' (first
    | with_reducible assumption
    | with_reducible refine KeptOut.next ?_
    | with_reducible apply State.advance_kept
    | with_reducible apply State.jump_kept
    | with_reducible apply seqExec_kept
    | with_reducible refine KeptOut.ite ?_ ?_
    | with_reducible refine Kept.ite ?_ ?_
    | split
    | (intro _; try dsimp only))

theorem execBZ_kept {qq : List Instr} {s : State} {n} {ws} {ra} {rb} {off} {k} (hk : Kept qq s) :
    KeptOut qq (execBZ n ws ra rb off k s) := by
  unfold execBZ
  try dsimp only
  repeat' (first
    | with_reducible assumption
    | with_reducible refine KeptOut.next ?_
    | with_reducible apply branchB_kept
    | (intro _; try dsimp only))

theorem execBNz_kept {qq : List Instr} {s : State} {n} {ws} {ra} {rb} {off} {k} (hk : Kept qq s) :
    KeptOut qq (execBNz n ws ra rb off k s) := by
  unfold execBNz
  try dsimp only
  repeat' (first
    | with_reducible assumption
    | with_reducible refine KeptOut.next ?_
    | with_reducible apply branchB_kept
    | (intro _; try dsimp only))

theorem execBEq_kept {qq : List Instr} {s : State} {n} {ws} {ra} {rb} {off} {k} (hk : Kept qq s) :
    KeptOut qq (execBEq n ws ra rb off k s) := by
  unfold execBEq
  try dsimp only
  repeat' (first
    | with_reducible assumption
    | with_reducible refine KeptOut.next ?_
    | with_reducible apply branchB_kept
    | (intro _; try dsimp only))

theorem execBNe_kept {qq : List Instr} {s : State} {n} {ws} {ra} {rb} {off} {k} (hk : Kept qq s) :
    KeptOut qq (execBNe n ws ra rb off k s) := by
  unfold execBNe
  try dsimp only
  repeat' (first
    | with_reducible assumption
    | with_reducible refine KeptOut.next ?_
    | with_reducible apply branchB_kept
    | (intro _; try dsimp only))

theorem execBLt_kept {qq : List Instr} {s : State} {n} {ws} {ra} {rb} {off} {k} (hk : Kept qq s) :
    KeptOut qq (execBLt n ws ra rb off k s) := by
  unfold execBLt
  try dsimp only
  repeat' (first
    | with_reducible assumption
    | with_reducible refine KeptOut.next ?_
    | with_reducible apply branchB_kept
    | (intro _; try dsimp only))

theorem execBLtu_kept {qq : List Instr} {s : State} {n} {ws} {ra} {rb} {off} {k} (hk : Kept qq s) :
    KeptOut qq (execBLtu n ws ra rb off k s) := by
  unfold execBLtu
  try dsimp only
  repeat' (first
    | with_reducible assumption
    | with_reducible refine KeptOut.next ?_
    | with_reducible apply branchB_kept
    | (intro _; try dsimp only))

theorem execBGe_kept {qq : List Instr} {s : State} {n} {ws} {ra} {rb} {off} {k} (hk : Kept qq s) :
    KeptOut qq (execBGe n ws ra rb off k s) := by
  unfold execBGe
  try dsimp only
  repeat' (first
    | with_reducible assumption
    | with_reducible refine KeptOut.next ?_
    | with_reducible apply branchB_kept
    | (intro _; try dsimp only))

theorem execBGeu_kept {qq : List Instr} {s : State} {n} {ws} {ra} {rb} {off} {k} (hk : Kept qq s) :
    KeptOut qq (execBGeu n ws ra rb off k s) := by
  unfold execBGeu
  try dsimp only
  repeat' (first
    | with_reducible assumption
    | with_reducible refine KeptOut.next ?_
    | with_reducible apply branchB_kept
    | (intro _; try dsimp only))

theorem execBP_kept {qq : List Instr} {s : State} {n} {ws} {pn} {neg} {off} {k} (hk : Kept qq s) :
    KeptOut qq (execBP n ws pn neg off k s) := by
  unfold execBP
  try dsimp only
  repeat' (first
    | with_reducible assumption
    | with_reducible refine KeptOut.next ?_
    | with_reducible apply State.advance_kept
    | with_reducible apply State.jump_kept
    | with_reducible apply seqExec_kept
    | with_reducible refine KeptOut.ite ?_ ?_
    | with_reducible refine Kept.ite ?_ ?_
    | split
    | (intro _; try dsimp only))

theorem execBJ_kept {qq : List Instr} {s : State} {n} {ws} {ra} {rb} {off} {k} (hk : Kept qq s) :
    KeptOut qq (execBJ n ws ra rb off k s) := by
  unfold execBJ
  try dsimp only
  repeat' (first
    | with_reducible assumption
    | with_reducible refine KeptOut.next ?_
    | with_reducible apply branchB_kept
    | (intro _; try dsimp only))

theorem execBCall_kept {qq : List Instr} {s : State} {n} {ws} {ra} {rb} {off} {k} (hk : Kept qq s) :
    KeptOut qq (execBCall n ws ra rb off k s) := by
  unfold execBCall
  try dsimp only
  repeat' (first
    | with_reducible assumption
    | with_reducible refine KeptOut.next ?_
    | with_reducible apply State.modCore_kept
    | with_reducible apply State.jump_kept
    | with_reducible apply seqExec_kept
    | with_reducible refine KeptOut.ite ?_ ?_
    | with_reducible refine Kept.ite ?_ ?_
    | split
    | (intro _; try dsimp only))

theorem execBJr_kept {qq : List Instr} {s : State} {n} {ws} {ra} {rb} {off} {k} (hk : Kept qq s) :
    KeptOut qq (execBJr n ws ra rb off k s) := by
  unfold execBJr
  try dsimp only
  repeat' (first
    | with_reducible assumption
    | with_reducible refine KeptOut.next ?_
    | with_reducible apply State.jump_kept
    | with_reducible apply seqExec_kept
    | (intro _; try dsimp only))

end Sys2Proof.Machine
end

