-- ==== Sys2Proof/Laws/KeptReliability.lean ====
section
/-! SUPPORT. Operations and meanings of Machine/Reliability keep the canonical form of memory and leave the waiting commands alone. -/

namespace Sys2Proof.Machine

theorem execJobHalt_kept {qq : List Instr} {s : State} (hk : Kept qq s) :
    KeptOut qq (execJobHalt s) := by
  unfold execJobHalt
  try dsimp only
  repeat' (first
    | with_reducible assumption
    | with_reducible refine KeptOut.next ?_
    | with_reducible apply State.afterJob_kept
    | with_reducible apply State.originHalt_kept
    | split
    | with_reducible refine Kept.fst (by assumption) ?_
    | with_reducible refine Kept.trd (by assumption) ?_
    | with_reducible refine Kept.snd (by assumption) ?_
    | with_reducible refine Kept.parts ?_
    | (with_reducible refine Kept.lit ?_; dsimp only; first | with_reducible refine Kept.parts ?_ | with_reducible refine KeptParts.empty (Kept.parts ?_))
    | (intro _; try dsimp only))

theorem execHalt_kept {qq : List Instr} {m} {s : State} (hk : Kept qq s) :
    KeptOut qq (execHalt m s) := by
  unfold execHalt
  try dsimp only
  repeat' (first
    | with_reducible assumption
    | with_reducible refine KeptOut.next ?_
    | with_reducible apply State.afterJob_kept
    | with_reducible apply State.bump_kept
    | with_reducible apply State.sendHalt_kept
    | with_reducible apply State.haltJob_kept
    | with_reducible refine KeptOut.ite ?_ ?_
    | split
    | with_reducible refine Kept.fst (by assumption) ?_
    | with_reducible refine Kept.trd (by assumption) ?_
    | with_reducible refine Kept.snd (by assumption) ?_
    | with_reducible refine Kept.parts ?_
    | (with_reducible refine Kept.lit ?_; dsimp only; with_reducible refine Kept.parts ?_)
    | (intro _; try dsimp only))

theorem execPeerLost_kept {qq : List Instr} {job} {chip} {s : State} (hk : Kept qq s) :
    KeptOut qq (execPeerLost job chip s) := by
  unfold execPeerLost
  try dsimp only
  repeat' (first
    | with_reducible assumption
    | with_reducible refine KeptOut.next ?_
    | with_reducible apply State.afterJob_kept
    | with_reducible apply State.originHalt_kept
    | with_reducible refine KeptOut.ite ?_ ?_
    | split)

theorem execRetentionEnd_kept {qq : List Instr} {job} {base} {s : State} (hk : Kept qq s) :
    KeptOut qq (execRetentionEnd job base s) := by
  unfold execRetentionEnd
  try dsimp only
  repeat' (first
    | with_reducible assumption
    | with_reducible refine KeptOut.next ?_
    | with_reducible apply State.endRetention_kept
    | with_reducible refine KeptOut.ite ?_ ?_
    | split
    | with_reducible refine Kept.fst (by assumption) ?_
    | with_reducible refine Kept.trd (by assumption) ?_
    | with_reducible refine Kept.snd (by assumption) ?_
    | with_reducible refine Kept.parts ?_
    | (with_reducible refine Kept.lit ?_; dsimp only; with_reducible refine Kept.parts ?_)
    | (intro _; try dsimp only))

theorem execEventRateSecond_kept {qq : List Instr} {s : State} (hk : Kept qq s) :
    KeptOut qq (execEventRateSecond s) := by
  unfold execEventRateSecond
  try dsimp only
  repeat' (first
    | with_reducible assumption
    | with_reducible refine KeptOut.next ?_
    | with_reducible apply State.raise_kept
    | with_reducible refine KeptOut.ite ?_ ?_
    | split
    | with_reducible refine Kept.parts ?_
    | (with_reducible refine Kept.lit ?_; dsimp only; with_reducible refine Kept.parts ?_))

theorem execDrillFire_kept {qq : List Instr} {s : State} {kind} {unit} (hk : Kept qq s) :
    KeptOut qq (execDrillFire kind unit s) := by
  unfold execDrillFire
  try dsimp only
  repeat' (first
    | with_reducible assumption
    | with_reducible refine KeptOut.next ?_
    | with_reducible apply State.drillFired_kept
    | with_reducible refine KeptOut.ite ?_ ?_
    | with_reducible refine Kept.ite ?_ ?_
    | split
    | with_reducible refine Kept.parts ?_
    | (with_reducible refine Kept.lit ?_; dsimp only; first | with_reducible refine Kept.parts ?_ | with_reducible refine KeptParts.empty (Kept.parts ?_))
    | (intro _; try dsimp only))

theorem execDrillEscape_kept {qq : List Instr} {kind} {unit} {pair} {s : State} (hk : Kept qq s) :
    KeptOut qq (execDrillEscape kind unit pair s) := by
  unfold execDrillEscape
  try dsimp only
  repeat' (first
    | with_reducible assumption
    | with_reducible refine KeptOut.next ?_
    | with_reducible apply State.drillFired_kept
    | with_reducible apply State.bump_kept
    | with_reducible apply State.lastingAdd_kept
    | with_reducible apply State.drillDrop_kept
    | with_reducible apply State.modCore_kept
    | with_reducible apply State.fenceAdder_kept
    | with_reducible apply State.askHalt_kept
    | with_reducible apply State.journalAdd_kept
    | with_reducible apply State.raise_kept
    | with_reducible refine KeptOut.ite ?_ ?_
    | split
    | with_reducible refine Kept.fst (by assumption) ?_
    | with_reducible refine Kept.trd (by assumption) ?_
    | with_reducible refine Kept.snd (by assumption) ?_
    | with_reducible refine Kept.parts ?_
    | (with_reducible refine Kept.lit ?_; dsimp only; with_reducible refine Kept.parts ?_)
    | (intro _; try dsimp only))

theorem execAcquit_kept {qq : List Instr} {k} {s : State} (hk : Kept qq s) :
    KeptOut qq (execAcquit k s) := by
  unfold execAcquit
  try dsimp only
  repeat' (first
    | with_reducible assumption
    | with_reducible refine KeptOut.next ?_
    | with_reducible apply State.serve_kept
    | with_reducible apply State.setFld_kept
    | with_reducible refine KeptOut.ite ?_ ?_
    | split
    | with_reducible refine Kept.parts ?_
    | (with_reducible refine Kept.lit ?_; dsimp only; with_reducible refine Kept.parts ?_)
    | (intro _; try dsimp only))

theorem execAcquittalStageDone_kept {qq : List Instr} {s : State} (hk : Kept qq s) :
    KeptOut qq (execAcquittalStageDone s) := by
  unfold execAcquittalStageDone
  try dsimp only
  repeat' (first
    | with_reducible assumption
    | with_reducible refine KeptOut.next ?_
    | with_reducible apply State.setBit_kept
    | with_reducible apply State.bump_kept
    | with_reducible refine Kept.foldl (fun _ _ _ => ?_) ?_
    | with_reducible refine KeptOut.ite ?_ ?_
    | split
    | with_reducible refine Kept.fst (by assumption) ?_
    | with_reducible refine Kept.trd (by assumption) ?_
    | with_reducible refine Kept.snd (by assumption) ?_
    | with_reducible refine Kept.parts ?_
    | (with_reducible refine Kept.lit ?_; dsimp only; with_reducible refine Kept.parts ?_)
    | (intro _; try dsimp only))

theorem State.acquitFail_kept {qq : List Instr} {s : State} {x1} (hk : Kept qq s) :
    Kept qq (State.acquitFail s x1) := by
  unfold State.acquitFail
  try dsimp only
  repeat' (first
    | with_reducible assumption
    | with_reducible apply State.modCore_kept
    | with_reducible apply State.markChannel_kept
    | with_reducible apply State.fenceAdder_kept
    | with_reducible refine Kept.ite ?_ ?_
    | split
    | with_reducible refine Kept.parts ?_
    | (with_reducible refine Kept.lit ?_; dsimp only; with_reducible refine Kept.parts ?_)
    | (intro _; try dsimp only))

theorem execAcquittalVerdict_kept {qq : List Instr} {fail} {s : State} (hk : Kept qq s) :
    KeptOut qq (execAcquittalVerdict fail s) := by
  unfold execAcquittalVerdict
  try dsimp only
  repeat' (first
    | with_reducible assumption
    | with_reducible refine KeptOut.next ?_
    | with_reducible apply State.setFld_kept
    | with_reducible apply State.setBit_kept
    | with_reducible apply State.journalAdd_kept
    | with_reducible apply State.raise_kept
    | with_reducible apply State.lastingAdd_kept
    | with_reducible apply State.acquitFail_kept
    | with_reducible refine KeptOut.ite ?_ ?_
    | split
    | with_reducible refine Kept.fst (by assumption) ?_
    | with_reducible refine Kept.trd (by assumption) ?_
    | with_reducible refine Kept.snd (by assumption) ?_
    | with_reducible refine Kept.parts ?_
    | (with_reducible refine Kept.lit ?_; dsimp only; with_reducible refine Kept.parts ?_)
    | (intro _; try dsimp only))

end Sys2Proof.Machine
end

