-- ==== Sys2Proof/Laws/KeptSecurity.lean ====
section
/-! SUPPORT. Operations and meanings of Machine/Security keep the canonical form of memory and leave the waiting commands alone. -/

namespace Sys2Proof.Machine

theorem State.settleReset_kept {qq : List Instr} {s : State} (hk : Kept qq s) :
    Kept qq (State.settleReset s) := by
  unfold State.settleReset
  try dsimp only
  repeat' (first
    | with_reducible assumption
    | with_reducible apply State.startBoot_kept
    | with_reducible apply State.afterJob_kept
    | with_reducible refine Kept.ite ?_ ?_
    | split)

theorem execReset_kept {qq : List Instr} {k} {mode} {s : State} (hk : Kept qq s) :
    KeptOut qq (execReset k mode s) := by
  unfold execReset
  try dsimp only
  repeat' (first
    | with_reducible assumption
    | with_reducible refine KeptOut.next ?_
    | with_reducible apply State.settleReset_kept
    | with_reducible apply State.serve_kept
    | with_reducible refine KeptOut.ite ?_ ?_
    | split
    | with_reducible refine Kept.parts ?_
    | (with_reducible refine Kept.lit ?_; dsimp only; with_reducible refine Kept.parts ?_)
    | (intro _; try dsimp only))

theorem execUpdate_kept {qq : List Instr} {s : State} {k} {body} {fetch} (hk : Kept qq s) :
    KeptOut qq (execUpdate k body fetch s) := by
  unfold execUpdate
  try dsimp only
  repeat' (first
    | with_reducible assumption
    | with_reducible refine KeptOut.next ?_
    | with_reducible apply State.setFld_kept
    | with_reducible apply State.emit_kept
    | with_reducible apply State.raise_kept
    | with_reducible apply State.openConns_kept
    | with_reducible apply State.serve_kept
    | with_reducible refine KeptOut.ite ?_ ?_
    | with_reducible refine Kept.ite ?_ ?_
    | split
    | with_reducible refine Kept.fst (by assumption) ?_
    | with_reducible refine Kept.trd (by assumption) ?_
    | with_reducible refine Kept.snd (by assumption) ?_
    | with_reducible refine Kept.parts ?_
    | (with_reducible refine Kept.lit ?_; dsimp only; first | with_reducible refine Kept.parts ?_ | with_reducible refine KeptParts.empty (Kept.parts ?_))
    | (intro _; try dsimp only))

theorem execUpdateWriteDone_kept {qq : List Instr} {ok} {s : State} (hk : Kept qq s) :
    KeptOut qq (execUpdateWriteDone ok s) := by
  unfold execUpdateWriteDone
  try dsimp only
  repeat' (first
    | with_reducible assumption
    | with_reducible refine KeptOut.next ?_
    | with_reducible apply State.setFld_kept
    | with_reducible apply State.setBit_kept
    | with_reducible apply State.settleReset_kept
    | with_reducible apply State.raise_kept
    | with_reducible refine KeptOut.ite ?_ ?_
    | split
    | with_reducible refine Kept.fst (by assumption) ?_
    | with_reducible refine Kept.trd (by assumption) ?_
    | with_reducible refine Kept.snd (by assumption) ?_
    | with_reducible refine Kept.parts ?_
    | (with_reducible refine Kept.lit ?_; dsimp only; with_reducible refine Kept.parts ?_)
    | (intro _; try dsimp only))

theorem execAttest_kept {qq : List Instr} {k} {nonce} {s : State} (hk : Kept qq s) :
    KeptOut qq (execAttest k nonce s) := by
  unfold execAttest
  try dsimp only
  repeat' (first
    | with_reducible assumption
    | with_reducible refine KeptOut.next ?_
    | with_reducible apply State.serve_kept
    | with_reducible apply State.drew_kept
    | with_reducible refine KeptOut.ite ?_ ?_
    | split
    | with_reducible refine Kept.fst (by assumption) ?_
    | with_reducible refine Kept.trd (by assumption) ?_
    | with_reducible refine Kept.snd (by assumption) ?_
    | with_reducible refine Kept.parts ?_
    | (with_reducible refine Kept.lit ?_; dsimp only; with_reducible refine Kept.parts ?_)
    | (intro _; try dsimp only))

theorem State.endRevoked_kept {qq : List Instr} {s : State}  (hk : Kept qq s) :
    Kept qq (State.endRevoked s) := by
  unfold State.endRevoked
  try dsimp only
  repeat' (first
    | with_reducible assumption
    | with_reducible apply State.raise_kept
    | with_reducible refine Kept.foldl ?_ ?_
    | with_reducible refine Kept.foldlFst ?_ ?_
    | with_reducible refine Kept.ite ?_ ?_
    | split
    | with_reducible refine Kept.fst (by assumption) ?_
    | with_reducible refine Kept.trd (by assumption) ?_
    | with_reducible refine Kept.snd (by assumption) ?_
    | with_reducible refine Kept.parts ?_
    | (with_reducible refine Kept.lit ?_; dsimp only; first | with_reducible refine Kept.parts ?_ | with_reducible refine KeptParts.empty (Kept.parts ?_))
    | (intro _; try dsimp only))

theorem State.newOwner_kept {qq : List Instr} {s : State} {key} (hk : Kept qq s) :
    Kept qq (State.newOwner s key) := by
  unfold State.newOwner
  try dsimp only
  repeat' (first
    | with_reducible assumption
    | with_reducible apply State.journalAdd_kept
    | with_reducible apply State.raise_kept
    | with_reducible apply State.setBit_kept
    | with_reducible apply State.syncSec_kept
    | split
    | with_reducible refine Kept.parts ?_
    | (with_reducible refine Kept.lit ?_; dsimp only; first | with_reducible refine Kept.parts ?_ | with_reducible refine KeptParts.empty (Kept.parts ?_)))

theorem State.keysChanged_kept {qq : List Instr} {s : State} {f} (hk : Kept qq s) :
    Kept qq (State.keysChanged s f) := by
  unfold State.keysChanged
  try dsimp only
  repeat' (first
    | with_reducible assumption
    | with_reducible apply State.raise_kept
    | with_reducible apply State.setBit_kept
    | with_reducible apply State.syncSec_kept
    | with_reducible refine Kept.parts ?_
    | (with_reducible refine Kept.lit ?_; dsimp only; first | with_reducible refine Kept.parts ?_ | with_reducible refine KeptParts.empty (Kept.parts ?_)))

theorem State.enrollOwner_kept {qq : List Instr} {s : State} {op} {key} {claimZero} {claimOk} (hk : Kept qq s) :
    Kept qq (State.enrollOwner s op key claimZero claimOk).1 := by
  unfold State.enrollOwner
  try dsimp only
  repeat' (first
    | with_reducible assumption
    | with_reducible apply State.newOwner_kept
    | with_reducible refine Kept.ite ?_ ?_
    | split)

theorem State.enrollRole_kept {qq : List Instr} {s : State} {op} {role} {key} (hk : Kept qq s) :
    Kept qq (State.enrollRole s op role key).1 := by
  unfold State.enrollRole
  try dsimp only
  repeat' (first
    | with_reducible assumption
    | with_reducible apply State.keysChanged_kept
    | with_reducible refine Kept.ite ?_ ?_
    | split
    | with_reducible refine Kept.parts ?_
    | (with_reducible refine Kept.lit ?_; dsimp only; first | with_reducible refine Kept.parts ?_ | with_reducible refine KeptParts.filter (Kept.parts ?_))
    | (intro _; try dsimp only))

theorem State.enroll_kept {qq : List Instr} {s : State} {claimant} {body} {claimOk} (hk : Kept qq s) :
    Kept qq (State.enroll s claimant body claimOk).1 := by
  unfold State.enroll
  try dsimp only
  repeat' (first
    | with_reducible assumption
    | with_reducible apply State.enrollOwner_kept
    | with_reducible apply State.enrollRole_kept
    | with_reducible apply State.keysChanged_kept
    | with_reducible refine Kept.ite ?_ ?_
    | split
    | with_reducible refine Kept.parts ?_
    | (with_reducible refine Kept.lit ?_; dsimp only; with_reducible refine Kept.parts ?_))

theorem execEnroll_kept {qq : List Instr} {k} {body} {claimOk} {s : State} (hk : Kept qq s) :
    KeptOut qq (execEnroll k body claimOk s) := by
  unfold execEnroll
  try dsimp only
  repeat' (first
    | with_reducible assumption
    | with_reducible refine KeptOut.next ?_
    | with_reducible apply State.endRevoked_kept
    | with_reducible apply State.serve_kept
    | with_reducible apply State.enroll_kept
    | split
    | with_reducible refine Kept.fst (by assumption) ?_
    | with_reducible refine Kept.trd (by assumption) ?_
    | with_reducible refine Kept.snd (by assumption) ?_
    | with_reducible refine Kept.parts ?_
    | (with_reducible refine Kept.lit ?_; dsimp only; with_reducible refine Kept.parts ?_)
    | (intro _; try dsimp only))

theorem State.loseKeys_kept {qq : List Instr} {s : State} (hk : Kept qq s) : Kept qq (State.loseKeys s) :=
  Kept.lit (KeptParts.filter (Kept.parts hk))

theorem State.unlock_kept {qq : List Instr} {s : State} {scope} (hk : Kept qq s) :
    Kept qq (State.unlock s scope) := by
  unfold State.unlock
  try dsimp only
  repeat' (first
    | with_reducible assumption
    | with_reducible apply State.setFld_kept
    | with_reducible apply State.setBit_kept
    | with_reducible apply State.raise_kept
    | with_reducible apply State.haltAll_kept
    | with_reducible apply State.takeDown_kept
    | with_reducible apply State.endRetention_kept
    | with_reducible apply State.dropAdmission_kept
    | with_reducible apply State.loseKeys_kept
    | with_reducible refine Kept.foldl ?_ ?_
    | with_reducible refine Kept.foldlFst ?_ ?_
    | (intro _; try dsimp only))

theorem execMbxSubmit_kept {qq : List Instr} {sigOk} {s : State} (hk : Kept qq s) :
    KeptOut qq (execMbxSubmit sigOk s) := by
  unfold execMbxSubmit
  try dsimp only
  repeat' (first
    | with_reducible assumption
    | with_reducible refine KeptOut.next ?_
    | with_reducible apply State.afterJob_kept
    | with_reducible apply State.setReg_kept
    | with_reducible apply State.drew_kept
    | with_reducible apply State.unlock_kept
    | with_reducible apply State.setFld_kept
    | with_reducible apply State.bump_kept
    | with_reducible apply State.setBit_kept
    | with_reducible apply State.raise_kept
    | with_reducible refine KeptOut.ite ?_ ?_
    | split
    | with_reducible refine Kept.parts ?_
    | (with_reducible refine Kept.lit ?_; dsimp only; first | with_reducible refine Kept.parts ?_ | with_reducible refine KeptParts.empty (Kept.parts ?_)))

theorem execDebugPortWrite_kept {qq : List Instr} {o} {mask} {value} {s : State} (hk : Kept qq s) :
    KeptOut qq (execDebugPortWrite o mask value s) := by
  unfold execDebugPortWrite
  try dsimp only
  repeat' (first
    | with_reducible assumption
    | with_reducible refine KeptOut.next ?_
    | with_reducible apply State.csrWrite_kept
    | with_reducible refine KeptOut.ite ?_ ?_
    | split
    | with_reducible refine Kept.parts ?_
    | (with_reducible refine Kept.lit ?_; dsimp only; with_reducible refine Kept.parts ?_))

end Sys2Proof.Machine
end

