-- ==== Sys2Proof/Laws/KeptClock.lean ====
section
/-! SUPPORT. Operations and meanings of Machine/Clock keep the canonical form of memory and leave the waiting commands alone. -/

namespace Sys2Proof.Machine

theorem State.tickFt_kept {qq : List Instr} {s : State} (hk : Kept qq s) :
    Kept qq (State.tickFt s) := by
  unfold State.tickFt
  try dsimp only
  repeat' (first
    | with_reducible assumption
    | with_reducible refine Kept.ite ?_ ?_
    | split
    | with_reducible refine Kept.parts ?_
    | (with_reducible refine Kept.lit ?_; dsimp only; with_reducible refine Kept.parts ?_))

theorem State.tickCores_kept {qq : List Instr} {s : State} (hk : Kept qq s) :
    Kept qq (State.tickCores s) := by
  unfold State.tickCores
  try dsimp only
  repeat' (first
    | with_reducible assumption
    | with_reducible refine Kept.ite ?_ ?_
    | split
    | with_reducible refine Kept.parts ?_
    | (with_reducible refine Kept.lit ?_; dsimp only; first | with_reducible refine Kept.parts ?_ | with_reducible refine KeptParts.filter (Kept.parts ?_))
    | (intro _; try dsimp only))

theorem State.tickCounters_kept {qq : List Instr} {s : State} {was} (hk : Kept qq s) :
    Kept qq (State.tickCounters s was) := by
  unfold State.tickCounters
  try dsimp only
  repeat' (first
    | with_reducible assumption
    | with_reducible apply State.setReg_kept
    | with_reducible apply State.bump_kept
    | with_reducible refine Kept.ite ?_ ?_
    | split)

theorem State.tickFlits_kept {qq : List Instr} {s : State} {was} (hk : Kept qq s) :
    Kept qq (State.tickFlits s was) := by
  unfold State.tickFlits
  try dsimp only
  repeat' (first
    | with_reducible assumption
    | with_reducible apply State.idleFlits_kept
    | with_reducible refine Kept.ite ?_ ?_
    | split
    | (intro _; try dsimp only))

theorem State.tick_kept {qq : List Instr} {s : State}  (hk : Kept qq s) :
    Kept qq (State.tick s) := by
  unfold State.tick
  try dsimp only
  repeat' (first
    | with_reducible assumption
    | with_reducible apply State.tickFt_kept
    | with_reducible apply State.tickCores_kept
    | with_reducible apply State.tickCounters_kept
    | with_reducible apply State.tickFlits_kept
    | with_reducible refine Kept.parts ?_
    | (with_reducible refine Kept.lit ?_; dsimp only; first | with_reducible refine Kept.parts ?_ | with_reducible refine KeptParts.empty (Kept.parts ?_))
    | (intro _; try dsimp only))

end Sys2Proof.Machine
end

