-- ==== Sys2Proof/Laws/KeptCorePower.lean ====
section
/-! SUPPORT. Operations and meanings of Machine/CorePower keep the canonical form of memory and leave the waiting commands alone. -/

namespace Sys2Proof.Machine

theorem State.beginCore_kept {qq : List Instr} {s : State} {n} {j} (hk : Kept qq s) :
    Kept qq (State.beginCore s n j) := by
  unfold State.beginCore
  try dsimp only
  repeat' (first
    | with_reducible assumption
    | with_reducible apply State.modCore_kept
    | with_reducible apply State.startCore_kept
    | with_reducible apply State.awaitSlot_kept
    | with_reducible refine Kept.ite ?_ ?_
    | split
    | with_reducible refine Kept.parts ?_
    | (with_reducible refine Kept.lit ?_; dsimp only; with_reducible refine Kept.parts ?_)
    | (intro _; try dsimp only))

theorem execCoreStartRequest_kept {qq : List Instr} {n} {s : State} (hk : Kept qq s) :
    KeptOut qq (execCoreStartRequest n s) := by
  unfold execCoreStartRequest
  try dsimp only
  repeat' (first
    | with_reducible assumption
    | with_reducible refine KeptOut.next ?_
    | with_reducible apply State.setCore_kept
    | with_reducible apply State.beginCore_kept
    | with_reducible refine KeptOut.ite ?_ ?_
    | split
    | with_reducible refine Kept.fst (by assumption) ?_
    | with_reducible refine Kept.trd (by assumption) ?_
    | with_reducible refine Kept.snd (by assumption) ?_
    | with_reducible refine Kept.parts ?_
    | (with_reducible refine Kept.lit ?_; dsimp only; with_reducible refine Kept.parts ?_)
    | (intro _; try dsimp only))

theorem execCorePllLock_kept {qq : List Instr} {n} {s : State} (hk : Kept qq s) :
    KeptOut qq (execCorePllLock n s) := by
  unfold execCorePllLock
  try dsimp only
  repeat' (first
    | with_reducible assumption
    | with_reducible refine KeptOut.next ?_
    | with_reducible apply State.setCore_kept
    | with_reducible apply State.beginCore_kept
    | with_reducible refine KeptOut.ite ?_ ?_
    | split
    | with_reducible refine Kept.fst (by assumption) ?_
    | with_reducible refine Kept.trd (by assumption) ?_
    | with_reducible refine Kept.snd (by assumption) ?_
    | with_reducible refine Kept.parts ?_
    | (with_reducible refine Kept.lit ?_; dsimp only; with_reducible refine Kept.parts ?_)
    | (intro _; try dsimp only))

theorem execCoreIdleGate_kept {qq : List Instr} {n} {s : State} (hk : Kept qq s) :
    KeptOut qq (execCoreIdleGate n s) := by
  unfold execCoreIdleGate
  try dsimp only
  repeat' (first
    | with_reducible assumption
    | with_reducible refine KeptOut.next ?_
    | with_reducible apply State.setCore_kept
    | with_reducible refine KeptOut.ite ?_ ?_
    | split
    | with_reducible refine Kept.parts ?_
    | (with_reducible refine Kept.lit ?_; dsimp only; with_reducible refine Kept.parts ?_))

theorem execCoreEnd_kept {qq : List Instr} {n} {s : State} (hk : Kept qq s) :
    KeptOut qq (execCoreEnd n s) := by
  unfold execCoreEnd
  try dsimp only
  repeat' (first
    | with_reducible assumption
    | with_reducible refine KeptOut.next ?_
    | with_reducible apply State.setCore_kept
    | with_reducible apply State.putJob_kept
    | with_reducible apply State.endJob_kept
    | with_reducible refine KeptOut.ite ?_ ?_
    | split
    | with_reducible refine Kept.fst (by assumption) ?_
    | with_reducible refine Kept.trd (by assumption) ?_
    | with_reducible refine Kept.snd (by assumption) ?_
    | with_reducible refine Kept.parts ?_
    | (with_reducible refine Kept.lit ?_; dsimp only; with_reducible refine Kept.parts ?_)
    | (intro _; try dsimp only))

theorem execScratchpadClearDone_kept {qq : List Instr} {s : State} {n} (hk : Kept qq s) :
    KeptOut qq (execScratchpadClearDone n s) := by
  unfold execScratchpadClearDone
  try dsimp only
  repeat' (first
    | with_reducible assumption
    | with_reducible refine KeptOut.next ?_
    | with_reducible apply State.clearRange_kept
    | with_reducible apply State.setCore_kept
    | with_reducible apply State.releasePuts_kept
    | with_reducible apply State.beginCore_kept
    | with_reducible refine KeptOut.ite ?_ ?_
    | with_reducible refine Kept.ite ?_ ?_
    | split
    | with_reducible refine Kept.fst (by assumption) ?_
    | with_reducible refine Kept.trd (by assumption) ?_
    | with_reducible refine Kept.snd (by assumption) ?_
    | with_reducible refine Kept.parts ?_
    | (with_reducible refine Kept.lit ?_; dsimp only; first | with_reducible refine Kept.parts ?_ | with_reducible refine KeptParts.empty (Kept.parts ?_))
    | (intro _; try dsimp only))

theorem execAlignedStepRelease_kept {qq : List Instr} {s : State} (hk : Kept qq s) :
    KeptOut qq (execAlignedStepRelease s) := by
  unfold execAlignedStepRelease
  try dsimp only
  repeat' (first
    | with_reducible assumption
    | with_reducible refine KeptOut.next ?_
    | with_reducible apply State.noteRise_kept
    | with_reducible apply State.setCore_kept
    | with_reducible apply State.startCore_kept
    | with_reducible refine Kept.foldl (fun _ _ _ => ?_) ?_
    | with_reducible refine KeptOut.ite ?_ ?_
    | split
    | with_reducible refine Kept.fst (by assumption) ?_
    | with_reducible refine Kept.trd (by assumption) ?_
    | with_reducible refine Kept.snd (by assumption) ?_
    | with_reducible refine Kept.parts ?_
    | (with_reducible refine Kept.lit ?_; dsimp only; first | with_reducible refine Kept.parts ?_ | with_reducible refine KeptParts.filter (Kept.parts ?_) | with_reducible refine KeptParts.empty (Kept.parts ?_))
    | (intro _; try dsimp only))

end Sys2Proof.Machine
end

