-- ==== Sys2Proof/Laws/KeptDescriptor.lean ====
section
/-! SUPPORT. Operations and meanings of Machine/Descriptor keep the canonical form of memory and leave the waiting commands alone. -/

namespace Sys2Proof.Machine

theorem execDLd_kept {qq : List Instr} {s : State} {n} {ws} {dd} {ra} {imm} {k} {err} (hk : Kept qq s) :
    KeptOut qq (execDLd n ws dd ra imm k err s) := by
  unfold execDLd
  try dsimp only
  repeat' (first
    | with_reducible assumption
    | with_reducible refine KeptOut.next ?_
    | with_reducible apply seqAccess_kept
    | (intro _; try dsimp only))

theorem execDSt_kept {qq : List Instr} {s : State} {n} {ws} {dd} {ra} {imm} {k} (hk : Kept qq s) :
    KeptOut qq (execDSt n ws dd ra imm k s) := by
  unfold execDSt
  try dsimp only
  repeat' (first
    | with_reducible assumption
    | with_reducible refine KeptOut.next ?_
    | with_reducible apply seqAccess_kept
    | (intro _; try dsimp only))

theorem execDMov_kept {qq : List Instr} {s : State} {n} {ws} {dd} {ra} {ds} {k} (hk : Kept qq s) :
    KeptOut qq (execDMov n ws dd ra ds k s) := by
  unfold execDMov
  try dsimp only
  repeat' (first
    | with_reducible assumption
    | with_reducible refine KeptOut.next ?_
    | with_reducible apply seqWrite_kept
    | (intro _; try dsimp only))

theorem descSet_kept {qq : List Instr} {s : State} {op} {lo} {w} {cause} {n} {ws} {dd} {ra} {k} (hk : Kept qq s) :
    KeptOut qq (descSet op lo w cause n ws dd ra k s) := by
  unfold descSet
  try dsimp only
  repeat' (first
    | with_reducible assumption
    | with_reducible refine KeptOut.next ?_
    | with_reducible apply seqChecked_kept
    | with_reducible refine KeptOut.ite ?_ ?_
    | with_reducible refine Kept.ite ?_ ?_
    | split
    | (intro _; try dsimp only))

theorem execDSetbase_kept {qq : List Instr} {s : State} {n} {ws} {dd} {ra} {k} (hk : Kept qq s) :
    KeptOut qq (execDSetbase n ws dd ra k s) := by
  unfold execDSetbase
  try dsimp only
  repeat' (first
    | with_reducible assumption
    | with_reducible refine KeptOut.next ?_
    | with_reducible apply descSet_kept
    | (intro _; try dsimp only))

theorem execDAddbase_kept {qq : List Instr} {s : State} {n} {ws} {dd} {ra} {k} (hk : Kept qq s) :
    KeptOut qq (execDAddbase n ws dd ra k s) := by
  unfold execDAddbase
  try dsimp only
  repeat' (first
    | with_reducible assumption
    | with_reducible refine KeptOut.next ?_
    | with_reducible apply seqWrite_kept
    | (intro _; try dsimp only))

theorem execDSetrows_kept {qq : List Instr} {s : State} {n} {ws} {dd} {ra} {k} (hk : Kept qq s) :
    KeptOut qq (execDSetrows n ws dd ra k s) := by
  unfold execDSetrows
  try dsimp only
  repeat' (first
    | with_reducible assumption
    | with_reducible refine KeptOut.next ?_
    | with_reducible apply State.place_kept
    | with_reducible apply descSet_kept
    | (intro _; try dsimp only))

theorem execDSetcols_kept {qq : List Instr} {s : State} {n} {ws} {dd} {ra} {k} (hk : Kept qq s) :
    KeptOut qq (execDSetcols n ws dd ra k s) := by
  unfold execDSetcols
  try dsimp only
  repeat' (first
    | with_reducible assumption
    | with_reducible refine KeptOut.next ?_
    | with_reducible apply State.place_kept
    | with_reducible apply descSet_kept
    | (intro _; try dsimp only))

theorem execDSetstride_kept {qq : List Instr} {s : State} {n} {ws} {dd} {ra} {k} (hk : Kept qq s) :
    KeptOut qq (execDSetstride n ws dd ra k s) := by
  unfold execDSetstride
  try dsimp only
  repeat' (first
    | with_reducible assumption
    | with_reducible refine KeptOut.next ?_
    | with_reducible apply State.place_kept
    | with_reducible apply descSet_kept
    | (intro _; try dsimp only))

theorem execDSettid_kept {qq : List Instr} {s : State} {n} {ws} {dd} {ra} {k} (hk : Kept qq s) :
    KeptOut qq (execDSettid n ws dd ra k s) := by
  unfold execDSettid
  try dsimp only
  repeat' (first
    | with_reducible assumption
    | with_reducible refine KeptOut.next ?_
    | with_reducible apply State.place_kept
    | with_reducible apply descSet_kept
    | (intro _; try dsimp only))

theorem execDSetscale_kept {qq : List Instr} {s : State} {n} {ws} {dd} {ra} {k} (hk : Kept qq s) :
    KeptOut qq (execDSetscale n ws dd ra k s) := by
  unfold execDSetscale
  try dsimp only
  repeat' (first
    | with_reducible assumption
    | with_reducible refine KeptOut.next ?_
    | with_reducible apply State.place_kept
    | with_reducible apply descSet_kept
    | (intro _; try dsimp only))

theorem execDSetfmt_kept {qq : List Instr} {s : State} {n} {ws} {dd} {imm} {k} (hk : Kept qq s) :
    KeptOut qq (execDSetfmt n ws dd imm k s) := by
  unfold execDSetfmt
  try dsimp only
  repeat' (first
    | with_reducible assumption
    | with_reducible refine KeptOut.next ?_
    | with_reducible apply seqWrite_kept
    | (intro _; try dsimp only))

theorem execDZero_kept {qq : List Instr} {s : State} {n} {ws} {dd} {k} (hk : Kept qq s) :
    KeptOut qq (execDZero n ws dd k s) := by
  unfold execDZero
  try dsimp only
  repeat' (first
    | with_reducible assumption
    | with_reducible refine KeptOut.next ?_
    | with_reducible apply seqWrite_kept
    | (intro _; try dsimp only))

theorem execDGet_kept {qq : List Instr} {s : State} {n} {ws} {rd} {ds} {w} {k} (hk : Kept qq s) :
    KeptOut qq (execDGet n ws rd ds w k s) := by
  unfold execDGet
  try dsimp only
  repeat' (first
    | with_reducible assumption
    | with_reducible refine KeptOut.next ?_
    | with_reducible apply seqWrite_kept
    | (intro _; try dsimp only))

end Sys2Proof.Machine
end

