-- ==== Sys2Proof/Laws/KeptPredicate.lean ====
section
/-! SUPPORT. Operations and meanings of Machine/Predicate keep the canonical form of memory and leave the waiting commands alone. -/

namespace Sys2Proof.Machine

theorem predP_kept {qq : List Instr} {s : State} {op} {f} {n} {ws} {pd} {ra} {rb} {k} (hk : Kept qq s) :
    KeptOut qq (predP op f n ws pd ra rb k s) := by
  unfold predP
  try dsimp only
  repeat' (first
    | with_reducible assumption
    | with_reducible refine KeptOut.next ?_
    | with_reducible apply seqWrite_kept
    | (intro _; try dsimp only))

theorem predPI_kept {qq : List Instr} {s : State} {op} {f} {n} {ws} {pd} {ra} {imm} {k} (hk : Kept qq s) :
    KeptOut qq (predPI op f n ws pd ra imm k s) := by
  unfold predPI
  try dsimp only
  repeat' (first
    | with_reducible assumption
    | with_reducible refine KeptOut.next ?_
    | with_reducible apply seqWrite_kept
    | (intro _; try dsimp only))

theorem predPL_kept {qq : List Instr} {s : State} {op} {f} {n} {ws} {pd} {pa} {pb} {k} (hk : Kept qq s) :
    KeptOut qq (predPL op f n ws pd pa pb k s) := by
  unfold predPL
  try dsimp only
  repeat' (first
    | with_reducible assumption
    | with_reducible refine KeptOut.next ?_
    | with_reducible apply seqWrite_kept
    | (intro _; try dsimp only))

theorem execPEq_kept {qq : List Instr} {s : State} {n} {ws} {pd} {ra} {rb} {k} (hk : Kept qq s) :
    KeptOut qq (execPEq n ws pd ra rb k s) := by
  unfold execPEq
  try dsimp only
  repeat' (first
    | with_reducible assumption
    | with_reducible refine KeptOut.next ?_
    | with_reducible apply predP_kept
    | (intro _; try dsimp only))

theorem execPNe_kept {qq : List Instr} {s : State} {n} {ws} {pd} {ra} {rb} {k} (hk : Kept qq s) :
    KeptOut qq (execPNe n ws pd ra rb k s) := by
  unfold execPNe
  try dsimp only
  repeat' (first
    | with_reducible assumption
    | with_reducible refine KeptOut.next ?_
    | with_reducible apply predP_kept
    | (intro _; try dsimp only))

theorem execPLt_kept {qq : List Instr} {s : State} {n} {ws} {pd} {ra} {rb} {k} (hk : Kept qq s) :
    KeptOut qq (execPLt n ws pd ra rb k s) := by
  unfold execPLt
  try dsimp only
  repeat' (first
    | with_reducible assumption
    | with_reducible refine KeptOut.next ?_
    | with_reducible apply predP_kept
    | (intro _; try dsimp only))

theorem execPLtu_kept {qq : List Instr} {s : State} {n} {ws} {pd} {ra} {rb} {k} (hk : Kept qq s) :
    KeptOut qq (execPLtu n ws pd ra rb k s) := by
  unfold execPLtu
  try dsimp only
  repeat' (first
    | with_reducible assumption
    | with_reducible refine KeptOut.next ?_
    | with_reducible apply predP_kept
    | (intro _; try dsimp only))

theorem execPEqi_kept {qq : List Instr} {s : State} {n} {ws} {pd} {ra} {imm} {k} (hk : Kept qq s) :
    KeptOut qq (execPEqi n ws pd ra imm k s) := by
  unfold execPEqi
  try dsimp only
  repeat' (first
    | with_reducible assumption
    | with_reducible refine KeptOut.next ?_
    | with_reducible apply predPI_kept
    | (intro _; try dsimp only))

theorem execPLti_kept {qq : List Instr} {s : State} {n} {ws} {pd} {ra} {imm} {k} (hk : Kept qq s) :
    KeptOut qq (execPLti n ws pd ra imm k s) := by
  unfold execPLti
  try dsimp only
  repeat' (first
    | with_reducible assumption
    | with_reducible refine KeptOut.next ?_
    | with_reducible apply predPI_kept
    | (intro _; try dsimp only))

theorem execPAnd_kept {qq : List Instr} {s : State} {n} {ws} {pd} {pa} {pb} {k} (hk : Kept qq s) :
    KeptOut qq (execPAnd n ws pd pa pb k s) := by
  unfold execPAnd
  try dsimp only
  repeat' (first
    | with_reducible assumption
    | with_reducible refine KeptOut.next ?_
    | with_reducible apply predPL_kept
    | (intro _; try dsimp only))

theorem execPOr_kept {qq : List Instr} {s : State} {n} {ws} {pd} {pa} {pb} {k} (hk : Kept qq s) :
    KeptOut qq (execPOr n ws pd pa pb k s) := by
  unfold execPOr
  try dsimp only
  repeat' (first
    | with_reducible assumption
    | with_reducible refine KeptOut.next ?_
    | with_reducible apply predPL_kept
    | (intro _; try dsimp only))

theorem execPXor_kept {qq : List Instr} {s : State} {n} {ws} {pd} {pa} {pb} {k} (hk : Kept qq s) :
    KeptOut qq (execPXor n ws pd pa pb k s) := by
  unfold execPXor
  try dsimp only
  repeat' (first
    | with_reducible assumption
    | with_reducible refine KeptOut.next ?_
    | with_reducible apply predPL_kept
    | (intro _; try dsimp only))

theorem execPNot_kept {qq : List Instr} {s : State} {n} {ws} {pd} {pa} {pb} {k} (hk : Kept qq s) :
    KeptOut qq (execPNot n ws pd pa pb k s) := by
  unfold execPNot
  try dsimp only
  repeat' (first
    | with_reducible assumption
    | with_reducible refine KeptOut.next ?_
    | with_reducible apply seqWrite_kept
    | (intro _; try dsimp only))

end Sys2Proof.Machine
end

