-- ==== Sys2Proof/Laws/KeptRowEngine.lean ====
section
/-! SUPPORT. Operations and meanings of Machine/RowEngine keep the canonical form of memory and leave the waiting commands alone. -/

namespace Sys2Proof.Machine

theorem State.putRecord_kept {qq : List Instr} {s : State} {n} {i} {w} (hk : Kept qq s) :
    Kept qq (State.putRecord s n i w) := by
  unfold State.putRecord
  try dsimp only
  repeat' (first
    | with_reducible assumption
    | with_reducible apply State.writeNat_kept)

theorem State.putRecords_kept {qq : List Instr} {s : State} {n} {e} {f} (hk : Kept qq s) :
    Kept qq (State.putRecords s n e f) := by
  unfold State.putRecords
  try dsimp only
  repeat' (first
    | with_reducible assumption
    | with_reducible apply State.putRecord_kept
    | with_reducible refine Kept.foldl (fun _ _ _ => ?_) ?_
    | (intro _; try dsimp only))

theorem putOutput_kept {qq : List Instr} {t : State} {e} {inPlace} {f} (hk : Kept qq t) :
    Kept qq (putOutput t e inPlace f).1 := by
  unfold putOutput
  try dsimp only
  repeat' (first
    | with_reducible assumption
    | with_reducible apply State.putValues_kept
    | with_reducible apply State.freeOverlap_kept
    | with_reducible refine Kept.ite ?_ ?_
    | split
    | with_reducible refine Kept.fst (by assumption) ?_
    | with_reducible refine Kept.trd (by assumption) ?_
    | with_reducible refine Kept.snd (by assumption) ?_
    | (intro _; try dsimp only))

theorem runRow_kept {qq : List Instr} {s : State} {n : Fin 32} {op : Nat} {effect : State → Entry → State × NumFlags} (hk : Kept qq s)
    (hb : ∀ s e, Kept qq s → Kept qq (effect s e).1) : KeptOut qq (runRow s n op effect) := runEngine_kept hk hb

theorem execRowStat_kept {qq : List Instr} {s : State} {n} (hk : Kept qq s) :
    KeptOut qq (execRowStat n s) := by
  unfold execRowStat
  try dsimp only
  repeat' (first
    | with_reducible assumption
    | with_reducible refine KeptOut.next ?_
    | with_reducible apply State.putRecords_kept
    | with_reducible apply runRow_kept
    | (intro _; try dsimp only))

theorem execRowSoftmax_kept {qq : List Instr} {s : State} {n} (hk : Kept qq s) :
    KeptOut qq (execRowSoftmax n s) := by
  unfold execRowSoftmax
  try dsimp only
  repeat' (first
    | with_reducible assumption
    | with_reducible refine KeptOut.next ?_
    | with_reducible apply State.putRecords_kept
    | with_reducible apply putOutput_kept
    | with_reducible apply runRow_kept
    | (intro _; try dsimp only))

theorem execRowOsmx_kept {qq : List Instr} {s : State} {n} (hk : Kept qq s) :
    KeptOut qq (execRowOsmx n s) := by
  unfold execRowOsmx
  try dsimp only
  repeat' (first
    | with_reducible assumption
    | with_reducible refine KeptOut.next ?_
    | with_reducible apply State.putTensor_kept
    | with_reducible apply State.freeOverlap_kept
    | with_reducible apply State.putRecords_kept
    | with_reducible apply putOutput_kept
    | with_reducible apply runRow_kept
    | with_reducible refine Kept.fst (by assumption) ?_
    | with_reducible refine Kept.trd (by assumption) ?_
    | with_reducible refine Kept.snd (by assumption) ?_
    | (intro _; try dsimp only))

theorem execRowFinish_kept {qq : List Instr} {s : State} {n} (hk : Kept qq s) :
    KeptOut qq (execRowFinish n s) := by
  unfold execRowFinish
  try dsimp only
  repeat' (first
    | with_reducible assumption
    | with_reducible refine KeptOut.next ?_
    | with_reducible apply putOutput_kept
    | with_reducible apply runRow_kept
    | split
    | with_reducible refine Kept.fst (by assumption) ?_
    | with_reducible refine Kept.trd (by assumption) ?_
    | with_reducible refine Kept.snd (by assumption) ?_
    | (intro _; try dsimp only))

theorem execRowMerge_kept {qq : List Instr} {s : State} {n} (hk : Kept qq s) :
    KeptOut qq (execRowMerge n s) := by
  unfold execRowMerge
  try dsimp only
  repeat' (first
    | with_reducible assumption
    | with_reducible refine KeptOut.next ?_
    | with_reducible apply State.putTensor_kept
    | with_reducible apply State.freeOverlap_kept
    | with_reducible apply State.putRecords_kept
    | with_reducible apply runRow_kept
    | with_reducible refine KeptOut.ite ?_ ?_
    | with_reducible refine Kept.ite ?_ ?_
    | split
    | (intro _; try dsimp only))

theorem execRowNorm_kept {qq : List Instr} {s : State} {n} (hk : Kept qq s) :
    KeptOut qq (execRowNorm n s) := by
  unfold execRowNorm
  try dsimp only
  repeat' (first
    | with_reducible assumption
    | with_reducible refine KeptOut.next ?_
    | with_reducible apply State.putRecords_kept
    | with_reducible apply putOutput_kept
    | with_reducible apply runRow_kept
    | (intro _; try dsimp only))

theorem execRowRms_kept {qq : List Instr} {s : State} {n} (hk : Kept qq s) :
    KeptOut qq (execRowRms n s) := by
  unfold execRowRms
  try dsimp only
  repeat' (first
    | with_reducible assumption
    | with_reducible refine KeptOut.next ?_
    | with_reducible apply State.putRecords_kept
    | with_reducible apply putOutput_kept
    | with_reducible apply runRow_kept
    | (intro _; try dsimp only))

theorem execRowDsoftmax_kept {qq : List Instr} {s : State} {n} (hk : Kept qq s) :
    KeptOut qq (execRowDsoftmax n s) := by
  unfold execRowDsoftmax
  try dsimp only
  repeat' (first
    | with_reducible assumption
    | with_reducible refine KeptOut.next ?_
    | with_reducible apply putOutput_kept
    | with_reducible apply runRow_kept
    | with_reducible refine KeptOut.ite ?_ ?_
    | with_reducible refine Kept.ite ?_ ?_
    | split
    | with_reducible refine Kept.fst (by assumption) ?_
    | with_reducible refine Kept.trd (by assumption) ?_
    | with_reducible refine Kept.snd (by assumption) ?_
    | (intro _; try dsimp only))

theorem execRowDnorm_kept {qq : List Instr} {s : State} {n} (hk : Kept qq s) :
    KeptOut qq (execRowDnorm n s) := by
  unfold execRowDnorm
  try dsimp only
  repeat' (first
    | with_reducible assumption
    | with_reducible refine KeptOut.next ?_
    | with_reducible apply putOutput_kept
    | with_reducible apply runRow_kept
    | (intro _; try dsimp only))

theorem execRowDrms_kept {qq : List Instr} {s : State} {n} (hk : Kept qq s) :
    KeptOut qq (execRowDrms n s) := by
  unfold execRowDrms
  try dsimp only
  repeat' (first
    | with_reducible assumption
    | with_reducible refine KeptOut.next ?_
    | with_reducible apply putOutput_kept
    | with_reducible apply runRow_kept
    | (intro _; try dsimp only))

end Sys2Proof.Machine
end

