-- ==== Sys2Proof/Laws/KeptScalar.lean ====
section
/-! SUPPORT. Operations and meanings of Machine/Scalar keep the canonical form of memory and leave the waiting commands alone. -/

namespace Sys2Proof.Machine

theorem scalarR_kept {qq : List Instr} {s : State} {op} {f} {n} {ws} {rd} {ra} {rb} {k} (hk : Kept qq s) :
    KeptOut qq (scalarR op f n ws rd ra rb k s) := by
  unfold scalarR
  try dsimp only
  repeat' (first
    | with_reducible assumption
    | with_reducible refine KeptOut.next ?_
    | with_reducible apply seqWrite_kept
    | (intro _; try dsimp only))

theorem scalarI_kept {qq : List Instr} {s : State} {op} {f} {n} {ws} {rd} {ra} {imm} {k} (hk : Kept qq s) :
    KeptOut qq (scalarI op f n ws rd ra imm k s) := by
  unfold scalarI
  try dsimp only
  repeat' (first
    | with_reducible assumption
    | with_reducible refine KeptOut.next ?_
    | with_reducible apply seqWrite_kept
    | (intro _; try dsimp only))

theorem scalarSh_kept {qq : List Instr} {s : State} {op} {f} {n} {ws} {rd} {ra} {imm} {k} (hk : Kept qq s) :
    KeptOut qq (scalarSh op f n ws rd ra imm k s) := by
  unfold scalarSh
  try dsimp only
  repeat' (first
    | with_reducible assumption
    | with_reducible refine KeptOut.next ?_
    | with_reducible apply seqWrite_kept
    | (intro _; try dsimp only))

theorem execNop_kept {qq : List Instr} {s : State} {n} {ws} {k} (hk : Kept qq s) :
    KeptOut qq (execNop n ws k s) := by
  unfold execNop
  try dsimp only
  repeat' (first
    | with_reducible assumption
    | with_reducible refine KeptOut.next ?_
    | with_reducible apply seqWrite_kept
    | (intro _; try dsimp only))

theorem execSAdd_kept {qq : List Instr} {s : State} {n} {ws} {rd} {ra} {rb} {k} (hk : Kept qq s) :
    KeptOut qq (execSAdd n ws rd ra rb k s) := by
  unfold execSAdd
  try dsimp only
  repeat' (first
    | with_reducible assumption
    | with_reducible refine KeptOut.next ?_
    | with_reducible apply scalarR_kept
    | (intro _; try dsimp only))

theorem execSSub_kept {qq : List Instr} {s : State} {n} {ws} {rd} {ra} {rb} {k} (hk : Kept qq s) :
    KeptOut qq (execSSub n ws rd ra rb k s) := by
  unfold execSSub
  try dsimp only
  repeat' (first
    | with_reducible assumption
    | with_reducible refine KeptOut.next ?_
    | with_reducible apply scalarR_kept
    | (intro _; try dsimp only))

theorem execSMul_kept {qq : List Instr} {s : State} {n} {ws} {rd} {ra} {rb} {k} (hk : Kept qq s) :
    KeptOut qq (execSMul n ws rd ra rb k s) := by
  unfold execSMul
  try dsimp only
  repeat' (first
    | with_reducible assumption
    | with_reducible refine KeptOut.next ?_
    | with_reducible apply scalarR_kept
    | (intro _; try dsimp only))

theorem execSMulhu_kept {qq : List Instr} {s : State} {n} {ws} {rd} {ra} {rb} {k} (hk : Kept qq s) :
    KeptOut qq (execSMulhu n ws rd ra rb k s) := by
  unfold execSMulhu
  try dsimp only
  repeat' (first
    | with_reducible assumption
    | with_reducible refine KeptOut.next ?_
    | with_reducible apply scalarR_kept
    | (intro _; try dsimp only))

theorem execSDivu_kept {qq : List Instr} {s : State} {n} {ws} {rd} {ra} {rb} {k} (hk : Kept qq s) :
    KeptOut qq (execSDivu n ws rd ra rb k s) := by
  unfold execSDivu
  try dsimp only
  repeat' (first
    | with_reducible assumption
    | with_reducible refine KeptOut.next ?_
    | with_reducible apply scalarR_kept
    | (intro _; try dsimp only))

theorem execSRemu_kept {qq : List Instr} {s : State} {n} {ws} {rd} {ra} {rb} {k} (hk : Kept qq s) :
    KeptOut qq (execSRemu n ws rd ra rb k s) := by
  unfold execSRemu
  try dsimp only
  repeat' (first
    | with_reducible assumption
    | with_reducible refine KeptOut.next ?_
    | with_reducible apply scalarR_kept
    | (intro _; try dsimp only))

theorem execSAnd_kept {qq : List Instr} {s : State} {n} {ws} {rd} {ra} {rb} {k} (hk : Kept qq s) :
    KeptOut qq (execSAnd n ws rd ra rb k s) := by
  unfold execSAnd
  try dsimp only
  repeat' (first
    | with_reducible assumption
    | with_reducible refine KeptOut.next ?_
    | with_reducible apply scalarR_kept
    | (intro _; try dsimp only))

theorem execSOr_kept {qq : List Instr} {s : State} {n} {ws} {rd} {ra} {rb} {k} (hk : Kept qq s) :
    KeptOut qq (execSOr n ws rd ra rb k s) := by
  unfold execSOr
  try dsimp only
  repeat' (first
    | with_reducible assumption
    | with_reducible refine KeptOut.next ?_
    | with_reducible apply scalarR_kept
    | (intro _; try dsimp only))

theorem execSXor_kept {qq : List Instr} {s : State} {n} {ws} {rd} {ra} {rb} {k} (hk : Kept qq s) :
    KeptOut qq (execSXor n ws rd ra rb k s) := by
  unfold execSXor
  try dsimp only
  repeat' (first
    | with_reducible assumption
    | with_reducible refine KeptOut.next ?_
    | with_reducible apply scalarR_kept
    | (intro _; try dsimp only))

theorem execSShl_kept {qq : List Instr} {s : State} {n} {ws} {rd} {ra} {rb} {k} (hk : Kept qq s) :
    KeptOut qq (execSShl n ws rd ra rb k s) := by
  unfold execSShl
  try dsimp only
  repeat' (first
    | with_reducible assumption
    | with_reducible refine KeptOut.next ?_
    | with_reducible apply scalarR_kept
    | (intro _; try dsimp only))

theorem execSShr_kept {qq : List Instr} {s : State} {n} {ws} {rd} {ra} {rb} {k} (hk : Kept qq s) :
    KeptOut qq (execSShr n ws rd ra rb k s) := by
  unfold execSShr
  try dsimp only
  repeat' (first
    | with_reducible assumption
    | with_reducible refine KeptOut.next ?_
    | with_reducible apply scalarR_kept
    | (intro _; try dsimp only))

theorem execSSra_kept {qq : List Instr} {s : State} {n} {ws} {rd} {ra} {rb} {k} (hk : Kept qq s) :
    KeptOut qq (execSSra n ws rd ra rb k s) := by
  unfold execSSra
  try dsimp only
  repeat' (first
    | with_reducible assumption
    | with_reducible refine KeptOut.next ?_
    | with_reducible apply scalarR_kept
    | (intro _; try dsimp only))

theorem execSMin_kept {qq : List Instr} {s : State} {n} {ws} {rd} {ra} {rb} {k} (hk : Kept qq s) :
    KeptOut qq (execSMin n ws rd ra rb k s) := by
  unfold execSMin
  try dsimp only
  repeat' (first
    | with_reducible assumption
    | with_reducible refine KeptOut.next ?_
    | with_reducible apply scalarR_kept
    | (intro _; try dsimp only))

theorem execSMax_kept {qq : List Instr} {s : State} {n} {ws} {rd} {ra} {rb} {k} (hk : Kept qq s) :
    KeptOut qq (execSMax n ws rd ra rb k s) := by
  unfold execSMax
  try dsimp only
  repeat' (first
    | with_reducible assumption
    | with_reducible refine KeptOut.next ?_
    | with_reducible apply scalarR_kept
    | (intro _; try dsimp only))

theorem execSAddi_kept {qq : List Instr} {s : State} {n} {ws} {rd} {ra} {imm} {k} (hk : Kept qq s) :
    KeptOut qq (execSAddi n ws rd ra imm k s) := by
  unfold execSAddi
  try dsimp only
  repeat' (first
    | with_reducible assumption
    | with_reducible refine KeptOut.next ?_
    | with_reducible apply scalarI_kept
    | (intro _; try dsimp only))

theorem execSSubi_kept {qq : List Instr} {s : State} {n} {ws} {rd} {ra} {imm} {k} (hk : Kept qq s) :
    KeptOut qq (execSSubi n ws rd ra imm k s) := by
  unfold execSSubi
  try dsimp only
  repeat' (first
    | with_reducible assumption
    | with_reducible refine KeptOut.next ?_
    | with_reducible apply scalarI_kept
    | (intro _; try dsimp only))

theorem execSMuli_kept {qq : List Instr} {s : State} {n} {ws} {rd} {ra} {imm} {k} (hk : Kept qq s) :
    KeptOut qq (execSMuli n ws rd ra imm k s) := by
  unfold execSMuli
  try dsimp only
  repeat' (first
    | with_reducible assumption
    | with_reducible refine KeptOut.next ?_
    | with_reducible apply scalarI_kept
    | (intro _; try dsimp only))

theorem execSAndi_kept {qq : List Instr} {s : State} {n} {ws} {rd} {ra} {imm} {k} (hk : Kept qq s) :
    KeptOut qq (execSAndi n ws rd ra imm k s) := by
  unfold execSAndi
  try dsimp only
  repeat' (first
    | with_reducible assumption
    | with_reducible refine KeptOut.next ?_
    | with_reducible apply scalarI_kept
    | (intro _; try dsimp only))

theorem execSOri_kept {qq : List Instr} {s : State} {n} {ws} {rd} {ra} {imm} {k} (hk : Kept qq s) :
    KeptOut qq (execSOri n ws rd ra imm k s) := by
  unfold execSOri
  try dsimp only
  repeat' (first
    | with_reducible assumption
    | with_reducible refine KeptOut.next ?_
    | with_reducible apply scalarI_kept
    | (intro _; try dsimp only))

theorem execSXori_kept {qq : List Instr} {s : State} {n} {ws} {rd} {ra} {imm} {k} (hk : Kept qq s) :
    KeptOut qq (execSXori n ws rd ra imm k s) := by
  unfold execSXori
  try dsimp only
  repeat' (first
    | with_reducible assumption
    | with_reducible refine KeptOut.next ?_
    | with_reducible apply scalarI_kept
    | (intro _; try dsimp only))

theorem execSShli_kept {qq : List Instr} {s : State} {n} {ws} {rd} {ra} {imm} {k} (hk : Kept qq s) :
    KeptOut qq (execSShli n ws rd ra imm k s) := by
  unfold execSShli
  try dsimp only
  repeat' (first
    | with_reducible assumption
    | with_reducible refine KeptOut.next ?_
    | with_reducible apply scalarSh_kept
    | (intro _; try dsimp only))

theorem execSShri_kept {qq : List Instr} {s : State} {n} {ws} {rd} {ra} {imm} {k} (hk : Kept qq s) :
    KeptOut qq (execSShri n ws rd ra imm k s) := by
  unfold execSShri
  try dsimp only
  repeat' (first
    | with_reducible assumption
    | with_reducible refine KeptOut.next ?_
    | with_reducible apply scalarSh_kept
    | (intro _; try dsimp only))

theorem execSSrai_kept {qq : List Instr} {s : State} {n} {ws} {rd} {ra} {imm} {k} (hk : Kept qq s) :
    KeptOut qq (execSSrai n ws rd ra imm k s) := by
  unfold execSSrai
  try dsimp only
  repeat' (first
    | with_reducible assumption
    | with_reducible refine KeptOut.next ?_
    | with_reducible apply scalarSh_kept
    | (intro _; try dsimp only))

theorem execSLi_kept {qq : List Instr} {s : State} {n} {ws} {rd} {imm} {k} (hk : Kept qq s) :
    KeptOut qq (execSLi n ws rd imm k s) := by
  unfold execSLi
  try dsimp only
  repeat' (first
    | with_reducible assumption
    | with_reducible refine KeptOut.next ?_
    | with_reducible apply seqWrite_kept
    | (intro _; try dsimp only))

theorem execSLih_kept {qq : List Instr} {s : State} {n} {ws} {rd} {imm} {k} (hk : Kept qq s) :
    KeptOut qq (execSLih n ws rd imm k s) := by
  unfold execSLih
  try dsimp only
  repeat' (first
    | with_reducible assumption
    | with_reducible refine KeptOut.next ?_
    | with_reducible apply seqWrite_kept
    | (intro _; try dsimp only))

end Sys2Proof.Machine
end

