-- ==== Sys2Proof/Laws/KeptSync.lean ====
section
/-! SUPPORT. Operations and meanings of Machine/Sync keep the canonical form of memory and leave the waiting commands alone. -/

namespace Sys2Proof.Machine

theorem execSyncWait_kept {qq : List Instr} {s : State} {n} {ws} {sem} {count} {k} (hk : Kept qq s) :
    KeptOut qq (execSyncWait n ws sem count k s) := by
  unfold execSyncWait
  try dsimp only
  repeat' (first
    | with_reducible assumption
    | with_reducible refine KeptOut.next ?_
    | with_reducible apply State.setCore_kept
    | with_reducible apply State.advance_kept
    | with_reducible apply seqExec_kept
    | with_reducible refine KeptOut.ite ?_ ?_
    | with_reducible refine Kept.ite ?_ ?_
    | split
    | with_reducible refine Kept.parts ?_
    | (with_reducible refine Kept.lit ?_; dsimp only; first | with_reducible refine Kept.parts ?_ | with_reducible refine KeptParts.empty (Kept.parts ?_))
    | (intro _; try dsimp only))

theorem execSyncWsel_kept {qq : List Instr} {s : State} {n} {ws} {w} {sem} {count} {pred} {neg} {k} (hk : Kept qq s) :
    KeptOut qq (execSyncWsel n ws w sem count pred neg k s) := by
  unfold execSyncWsel
  try dsimp only
  repeat' (first
    | with_reducible assumption
    | with_reducible refine KeptOut.next ?_
    | with_reducible apply seqWrite_kept
    | with_reducible refine KeptOut.ite ?_ ?_
    | with_reducible refine Kept.ite ?_ ?_
    | split
    | with_reducible refine Kept.parts ?_
    | (with_reducible refine Kept.lit ?_; dsimp only; first | with_reducible refine Kept.parts ?_ | with_reducible refine KeptParts.empty (Kept.parts ?_))
    | (intro _; try dsimp only))

theorem execSyncSig_kept {qq : List Instr} {s : State} {n} {ws} {sem} {val} {k} (hk : Kept qq s) :
    KeptOut qq (execSyncSig n ws sem val k s) := by
  unfold execSyncSig
  try dsimp only
  repeat' (first
    | with_reducible assumption
    | with_reducible refine KeptOut.next ?_
    | with_reducible apply State.signal_kept
    | with_reducible apply State.advance_kept
    | with_reducible apply seqExec_kept
    | (intro _; try dsimp only))

theorem execSyncSet_kept {qq : List Instr} {s : State} {n} {ws} {sem} {val} {k} (hk : Kept qq s) :
    KeptOut qq (execSyncSet n ws sem val k s) := by
  unfold execSyncSet
  try dsimp only
  repeat' (first
    | with_reducible assumption
    | with_reducible refine KeptOut.next ?_
    | with_reducible apply seqWrite_kept
    | (intro _; try dsimp only))

theorem execSyncXsig_kept {qq : List Instr} {s : State} {n} {ws} {ra} {xs} {inc} {rank} {k} (hk : Kept qq s) :
    KeptOut qq (execSyncXsig n ws ra xs inc rank k s) := by
  unfold execSyncXsig
  try dsimp only
  repeat' (first
    | with_reducible assumption
    | with_reducible refine KeptOut.next ?_
    | with_reducible apply State.raiseJob_kept
    | with_reducible apply State.trap_kept
    | with_reducible apply State.signalCross_kept
    | with_reducible apply State.advance_kept
    | with_reducible apply seqExec_kept
    | with_reducible refine KeptOut.ite ?_ ?_
    | with_reducible refine Kept.ite ?_ ?_
    | split
    | with_reducible refine Kept.fst (by assumption) ?_
    | with_reducible refine Kept.trd (by assumption) ?_
    | with_reducible refine Kept.snd (by assumption) ?_
    | (intro _; try dsimp only))

theorem execSyncRead_kept {qq : List Instr} {s : State} {n} {ws} {rd} {sem} {k} (hk : Kept qq s) :
    KeptOut qq (execSyncRead n ws rd sem k s) := by
  unfold execSyncRead
  try dsimp only
  repeat' (first
    | with_reducible assumption
    | with_reducible refine KeptOut.next ?_
    | with_reducible apply seqWrite_kept
    | (intro _; try dsimp only))

theorem execSyncIdle_kept {qq : List Instr} {s : State} {n} {ws} {mask} {k} (hk : Kept qq s) :
    KeptOut qq (execSyncIdle n ws mask k s) := by
  unfold execSyncIdle
  try dsimp only
  repeat' (first
    | with_reducible assumption
    | with_reducible refine KeptOut.next ?_
    | with_reducible apply State.setCore_kept
    | with_reducible apply State.advance_kept
    | with_reducible apply seqExec_kept
    | with_reducible refine KeptOut.ite ?_ ?_
    | with_reducible refine Kept.ite ?_ ?_
    | split
    | with_reducible refine Kept.parts ?_
    | (with_reducible refine Kept.lit ?_; dsimp only; first | with_reducible refine Kept.parts ?_ | with_reducible refine KeptParts.empty (Kept.parts ?_))
    | (intro _; try dsimp only))

theorem execSyncUntil_kept {qq : List Instr} {s : State} {n} {ws} {ra} {k} (hk : Kept qq s) :
    KeptOut qq (execSyncUntil n ws ra k s) := by
  unfold execSyncUntil
  try dsimp only
  repeat' (first
    | with_reducible assumption
    | with_reducible refine KeptOut.next ?_
    | with_reducible apply State.setCore_kept
    | with_reducible apply State.advance_kept
    | with_reducible apply seqExec_kept
    | with_reducible refine KeptOut.ite ?_ ?_
    | with_reducible refine Kept.ite ?_ ?_
    | split
    | with_reducible refine Kept.parts ?_
    | (with_reducible refine Kept.lit ?_; dsimp only; first | with_reducible refine Kept.parts ?_ | with_reducible refine KeptParts.empty (Kept.parts ?_))
    | (intro _; try dsimp only))

theorem execFabricTimeReached_kept {qq : List Instr} {n} {s : State} (hk : Kept qq s) :
    KeptOut qq (execFabricTimeReached n s) := by
  unfold execFabricTimeReached
  try dsimp only
  repeat' (first
    | with_reducible assumption
    | with_reducible refine KeptOut.next ?_
    | with_reducible apply State.advance_kept
    | with_reducible refine KeptOut.ite ?_ ?_
    | split
    | with_reducible refine Kept.fst (by assumption) ?_
    | with_reducible refine Kept.trd (by assumption) ?_
    | with_reducible refine Kept.snd (by assumption) ?_
    | with_reducible refine Kept.parts ?_
    | (with_reducible refine Kept.lit ?_; dsimp only; with_reducible refine Kept.parts ?_)
    | (intro _; try dsimp only))

end Sys2Proof.Machine
end

