-- ==== Sys2Proof/Laws/Tensor.lean ====
section
/-! SUPPORT. Tensors in memory, bit by bit: what storing one element and a whole tensor leaves, and what carrying out the head of a queue
does to its core. -/

namespace Sys2Proof.Machine

open Sys2Proof.Safety

/-! ### Bits of numbers and of memory -/

/-- Bit x of memory: bit x mod 8 of byte x / 8. -/
def State.memBit (s : State) (x : Nat) : Bool := (s.readByte (x / 8)).getLsbD (x % 8)

/-- A bit of the number that bytes spell. -/
theorem testBit_natOfBytes (l : List Byte) (j : Nat) : (natOfBytes l).testBit j = match l[j / 8]? with
    | some b => b.getLsbD (j % 8)
    | none => false := by
  induction l generalizing j with
  | nil => simp [natOfBytes]
  | cons b t ih =>
    have hb : b.toNat < 2 ^ 8 := b.isLt
    rw [natOfBytes, Nat.add_comm, show (256 : Nat) = 2 ^ 8 from rfl, Nat.testBit_two_pow_mul_add _ hb]
    by_cases h : j < 8
    · rw [if_pos h]
      have h0 : j / 8 = 0 := by omega
      have h1 : j % 8 = j := by omega
      rw [h0, h1]
      rfl
    · rw [if_neg h, ih]
      have h0 : j / 8 = (j - 8) / 8 + 1 := by omega
      have h1 : (j - 8) % 8 = j % 8 := by omega
      rw [h0, h1, List.getElem?_cons_succ]

/-- A bit of a number read from memory. -/
theorem State.testBit_readNat (s : State) (a k j : Nat) : (s.readNat a k).testBit j = (decide (j < 8 * k) && s.memBit (8 * a + j)) := by
  unfold State.readNat State.readBytes State.memBit
  rw [testBit_natOfBytes]
  by_cases h : j < 8 * k
  · have hk : j / 8 < k := by omega
    have h1 : (8 * a + j) / 8 = a + j / 8 := by omega
    have h2 : (8 * a + j) % 8 = j % 8 := by omega
    simp [h, hk, h1, h2]
  · have hk : k ≤ j / 8 := by omega
    simp [h, hk]

/-- A bit of memory after a number is stored. -/
theorem State.memBit_store (s t : State) (a k v x : Nat) (hm : t.mem = memWrite s.mem a (bytesOfNat k v)) (w : memCanonical s) :
    t.memBit x = if 8 * a ≤ x ∧ x < 8 * (a + k) then v.testBit (x - 8 * a) else s.memBit x := by
  unfold State.memBit State.readByte
  rw [hm, sparseGet_memWrite w, bytesOfNat_length]
  by_cases h : 8 * a ≤ x ∧ x < 8 * (a + k)
  · have h2 : a ≤ x / 8 ∧ x / 8 < a + k := by omega
    rw [if_pos h2, if_pos h, bytesOfNat_get _ _ _ (by omega)]
    simp only [Option.getD_some]
    have h3 : x % 8 < 8 := by omega
    rw [BitVec.getLsbD_ofNat, show (256 : Nat) = 2 ^ 8 from rfl, ← Nat.pow_mul, Nat.testBit_div_two_pow]
    have h4 : x % 8 + 8 * (x / 8 - a) = x - 8 * a := by omega
    rw [h4]
    simp [h3]
  · have h2 : ¬ (a ≤ x / 8 ∧ x / 8 < a + k) := by omega
    rw [if_neg h2, if_neg h]

/-- A bit of a number with bits sh to sh+b-1 replaced. -/
theorem testBit_replace (old v sh b j : Nat) :
    (old % 2 ^ sh + v % 2 ^ b * 2 ^ sh + old / 2 ^ (sh + b) * 2 ^ (sh + b)).testBit j =
      if sh ≤ j ∧ j < sh + b then v.testBit (j - sh) else old.testBit j := by
  have e : old % 2 ^ sh + v % 2 ^ b * 2 ^ sh + old / 2 ^ (sh + b) * 2 ^ (sh + b) =
      2 ^ sh * (2 ^ b * (old / 2 ^ (sh + b)) + v % 2 ^ b) + old % 2 ^ sh := by
    rw [Nat.mul_add, ← Nat.mul_assoc, ← Nat.pow_add, Nat.mul_comm (v % 2 ^ b), Nat.mul_comm (old / 2 ^ (sh + b))]
    omega
  rw [e, Nat.testBit_two_pow_mul_add _ (Nat.mod_lt _ (Nat.two_pow_pos _))]
  by_cases h : j < sh
  · rw [if_pos h, Nat.testBit_mod_two_pow]
    have : ¬ (sh ≤ j ∧ j < sh + b) := by omega
    simp [h, this]
  · rw [if_neg h, Nat.testBit_two_pow_mul_add _ (Nat.mod_lt _ (Nat.two_pow_pos _))]
    by_cases g : j < sh + b
    · have h1 : j - sh < b := by omega
      have h2 : sh ≤ j ∧ j < sh + b := by omega
      rw [if_pos h1, if_pos h2, Nat.testBit_mod_two_pow]
      simp [h1]
    · have h1 : ¬ j - sh < b := by omega
      have h2 : ¬ (sh ≤ j ∧ j < sh + b) := by omega
      rw [if_neg h1, if_neg h2, Nat.testBit_div_two_pow]
      congr 1
      omega

/-! ### One element -/

/-- A bit of an element. -/
theorem State.testBit_elem (s : State) (d : Desc) (r c j : Nat) :
    (s.elem d r c).testBit j = (decide (j < d.bits) && s.memBit (d.elemBit r c + j)) := by
  unfold State.elem Desc.elemBytes
  dsimp only
  rw [Nat.testBit_mod_two_pow, Nat.testBit_div_two_pow, State.testBit_readNat]
  by_cases h : j < d.bits
  · have h1 : j + d.elemBit r c % 8 < 8 * ((d.elemBit r c % 8 + d.bits + 7) / 8) := by omega
    have h2 : 8 * (d.elemBit r c / 8) + (j + d.elemBit r c % 8) = d.elemBit r c + j := by omega
    simp [h, h1, h2]
  · simp [h]

/-- A bit of memory after one element is stored. -/
theorem State.memBit_putElem (s : State) (d : Desc) (r c v x : Nat) (w : memCanonical s) :
    (s.putElem d r c v).memBit x =
      if d.elemBit r c ≤ x ∧ x < d.elemBit r c + d.bits then v.testBit (x - d.elemBit r c) else s.memBit x := by
  unfold State.putElem Desc.elemBytes
  dsimp only
  rw [State.memBit_store s _ _ _ _ x rfl w, testBit_replace, State.testBit_readNat]
  by_cases h : 8 * (d.elemBit r c / 8) ≤ x ∧ x < 8 * (d.elemBit r c / 8 + (d.elemBit r c % 8 + d.bits + 7) / 8)
  · rw [if_pos h]
    by_cases g : d.elemBit r c ≤ x ∧ x < d.elemBit r c + d.bits
    · have g2 : d.elemBit r c % 8 ≤ x - 8 * (d.elemBit r c / 8) ∧
          x - 8 * (d.elemBit r c / 8) < d.elemBit r c % 8 + d.bits := by omega
      rw [if_pos g, if_pos g2]
      congr 1
      omega
    · have g2 : ¬ (d.elemBit r c % 8 ≤ x - 8 * (d.elemBit r c / 8) ∧
          x - 8 * (d.elemBit r c / 8) < d.elemBit r c % 8 + d.bits) := by omega
      rw [if_neg g, if_neg g2]
      have h1 : x - 8 * (d.elemBit r c / 8) < 8 * ((d.elemBit r c % 8 + d.bits + 7) / 8) := by omega
      have h2 : 8 * (d.elemBit r c / 8) + (x - 8 * (d.elemBit r c / 8)) = x := by omega
      simp [h1, h2]
  · have g : ¬ (d.elemBit r c ≤ x ∧ x < d.elemBit r c + d.bits) := by omega
    rw [if_neg h, if_neg g]

/-- Storing an element keeps the canonical form of memory. -/
theorem State.putElem_wf (s : State) (d : Desc) (r c v : Nat) (w : memCanonical s) : memCanonical (s.putElem d r c v) := memWrite_wf w

/-- Storing an element changes no byte outside the bytes it touches. -/
theorem State.readByte_putElem (s : State) (d : Desc) (r c v x : Nat) (w : memCanonical s)
    (h : ¬ ((d.elemBytes r c).1 ≤ x ∧ x < (d.elemBytes r c).1 + (d.elemBytes r c).2)) : (s.putElem d r c v).readByte x = s.readByte x := by
  unfold State.putElem State.readByte
  dsimp only
  rw [sparseGet_memWrite w, bytesOfNat_length, if_neg h]

/-! ### A whole tensor -/

/-- The positions of a tensor. -/
theorem mem_positions (rows cols r c : Nat) : (r, c) ∈ positions rows cols ↔ r < rows ∧ c < cols := by
  simp [positions]

/-- A bit of memory after a list of elements is stored: that of the last one stored that holds it. -/
theorem putElems_spec (d : Desc) (f : Nat → Nat → Nat) (l : List (Nat × Nat)) : ∀ s : State, memCanonical s →
    let t := l.foldl (fun t p => t.putElem d p.1 p.2 (f p.1 p.2)) s
    memCanonical t ∧ t = { s with mem := t.mem } ∧
    (∀ x, (∀ p ∈ l, ¬ ((d.elemBytes p.1 p.2).1 ≤ x ∧ x < (d.elemBytes p.1 p.2).1 + (d.elemBytes p.1 p.2).2)) → t.readByte x = s.readByte x) ∧
    (∀ r c, (r, c) ∈ l → (∀ p ∈ l, p ≠ (r, c) →
        d.elemBit r c + d.bits ≤ d.elemBit p.1 p.2 ∨ d.elemBit p.1 p.2 + d.bits ≤ d.elemBit r c) →
      ∀ j, j < d.bits → t.memBit (d.elemBit r c + j) = (f r c).testBit j) ∧
    (∀ r c, (∀ p ∈ l, d.elemBit r c + d.bits ≤ d.elemBit p.1 p.2 ∨ d.elemBit p.1 p.2 + d.bits ≤ d.elemBit r c) →
      ∀ j, j < d.bits → t.memBit (d.elemBit r c + j) = s.memBit (d.elemBit r c + j)) := by
  induction l with
  | nil => intro s w; exact ⟨w, rfl, fun _ _ => rfl, fun _ _ h => (List.not_mem_nil h).elim, fun _ _ _ _ _ => rfl⟩
  | cons q l ih =>
    intro s w
    have w' := s.putElem_wf d q.1 q.2 (f q.1 q.2) w
    obtain ⟨i1, i2, i3, i4, i5⟩ := ih _ w'
    dsimp only at i1 i2 i3 i4 i5 ⊢
    rw [List.foldl_cons]
    refine ⟨i1, ?_, ?_, ?_, ?_⟩
    · exact i2
    · intro x hx
      rw [i3 x (fun p hp => hx p (List.mem_cons_of_mem _ hp))]
      exact s.readByte_putElem d q.1 q.2 _ x w (hx q List.mem_cons_self)
    · intro r c hm ha j hj
      by_cases hl : (r, c) ∈ l
      · exact i4 r c hl (fun p hp => ha p (List.mem_cons_of_mem _ hp)) j hj
      · have hq : q = (r, c) := by
          rcases List.mem_cons.mp hm with h | h
          · exact h.symm
          · exact (hl h).elim
        have hne : ∀ p ∈ l, p ≠ (r, c) := fun p hp e => hl (e ▸ hp)
        rw [i5 r c (fun p hp => ha p (List.mem_cons_of_mem _ hp) (hne p hp)) j hj, hq, State.memBit_putElem _ _ _ _ _ _ w]
        dsimp only
        rw [if_pos ⟨by omega, by omega⟩]
        congr 1
        omega
    · intro r c ha j hj
      rw [i5 r c (fun p hp => ha p (List.mem_cons_of_mem _ hp)) j hj, State.memBit_putElem _ _ _ _ _ _ w]
      have := ha q List.mem_cons_self
      rw [if_neg (by omega)]

/-- A byte outside the ranges of a tensor is outside the bytes of each of its elements. -/
theorem not_inRanges (d : Desc) (x : Nat) (h : inRanges d.ranges x = false) (p : Nat × Nat) (hp : p ∈ positions d.rows d.cols) :
    ¬ ((d.elemBytes p.1 p.2).1 ≤ x ∧ x < (d.elemBytes p.1 p.2).1 + (d.elemBytes p.1 p.2).2) := by
  intro g
  unfold inRanges Desc.ranges at h
  rw [List.any_eq_false] at h
  have := h (d.elemBytes p.1 p.2) (List.mem_map.mpr ⟨p, hp, rfl⟩)
  simp [g.1, g.2] at this

/-- What storing a tensor does: its elements hold their codes, bytes outside it and everything but memory and poison are as before. -/
theorem State.putTensor_spec (s : State) (d : Desc) (f : Nat → Nat → Nat) (w : memCanonical s) :
    memCanonical (s.putTensor d f) ∧ (∃ m p, s.putTensor d f = { s with mem := m, poison := p }) ∧
    (∀ x, inRanges d.ranges x = false → (s.putTensor d f).readByte x = s.readByte x) ∧
    (ElementsApart d → TensorHolds (s.putTensor d f) d f) := by
  obtain ⟨i1, i2, i3, i4, -⟩ := putElems_spec d f (positions d.rows d.cols) s w
  have hm : (s.putTensor d f).mem = ((positions d.rows d.cols).foldl (fun t p => t.putElem d p.1 p.2 (f p.1 p.2)) s).mem := by
    unfold State.putTensor
    dsimp only
    split <;> rfl
  have hb : ∀ x, (s.putTensor d f).memBit x = ((positions d.rows d.cols).foldl (fun t p => t.putElem d p.1 p.2 (f p.1 p.2)) s).memBit x := by
    intro x
    unfold State.memBit State.readByte
    rw [hm]
  refine ⟨?_, ?_, ?_, ?_⟩
  · unfold memCanonical at i1 ⊢
    rw [hm]
    exact i1
  · refine ⟨(s.putTensor d f).mem, (s.putTensor d f).poison, ?_⟩
    unfold State.putTensor
    dsimp only
    split
    · rw [i2]
    · unfold State.cleanPoison
      rw [i2]
  · intro x hx
    have : (s.putTensor d f).readByte x = ((positions d.rows d.cols).foldl (fun t p => t.putElem d p.1 p.2 (f p.1 p.2)) s).readByte x := by
      unfold State.readByte
      rw [hm]
    rw [this]
    exact i3 x (fun p hp => not_inRanges d x hx p hp)
  · intro ha r c hr hc
    apply Nat.eq_of_testBit_eq
    intro j
    rw [State.testBit_elem, Nat.testBit_mod_two_pow]
    by_cases h : j < d.bits
    · rw [hb, i4 r c ((mem_positions _ _ _ _).mpr ⟨hr, hc⟩) ?_ j h]
      intro p hp hne
      obtain ⟨h1, h2⟩ := (mem_positions d.rows d.cols p.1 p.2).mp hp
      exact ha r c p.1 p.2 hr hc h1 h2 (fun e => hne e.symm)
    · simp [h]

/-- With no byte shared with a source nothing is undefined. -/
theorem State.freeOverlap_none (s : State) (dst src : List (Nat × Nat)) (h : NoSharedByte dst src) : s.freeOverlap dst src = s := by
  have key : ∀ l : List (Nat × Nat), (∀ q ∈ l, q ∈ dst) → ∀ u : State, l.foldl (fun t r =>
      (List.range r.2).foldl (fun t i =>
        if inRanges src (r.1 + i) then { t.drew with mem := memWrite t.mem (r.1 + i) [BitVec.ofNat 8 t.free.toNat] } else t) t) u = u := by
    intro l
    induction l with
    | nil => intro _ u; rfl
    | cons q l ih =>
      intro hl u
      rw [List.foldl_cons]
      have inner : ∀ m : List Nat, (∀ i ∈ m, i < q.2) → m.foldl (fun t i =>
          if inRanges src (q.1 + i) then { t.drew with mem := memWrite t.mem (q.1 + i) [BitVec.ofNat 8 t.free.toNat] } else t) u = u := by
        intro m
        induction m with
        | nil => intro _; rfl
        | cons i m im =>
          intro hi
          have hin : inRanges dst (q.1 + i) = true := by
            unfold inRanges
            rw [List.any_eq_true]
            refine ⟨q, hl q List.mem_cons_self, ?_⟩
            have := hi i List.mem_cons_self
            simp only [Bool.and_eq_true, decide_eq_true_eq]
            omega
          rw [List.foldl_cons, h _ hin]
          exact im (fun j hj => hi j (List.mem_cons_of_mem _ hj))
      rw [inner _ (fun i hi => List.mem_range.mp hi)]
      exact ih (fun p hp => hl p (List.mem_cons_of_mem _ hp)) u
  exact key dst (fun _ h => h) s

/-- Elements depend on memory alone. -/
theorem State.elem_congr (s t : State) (d : Desc) (r c : Nat) (h : t.mem = s.mem) : t.elem d r c = s.elem d r c := by
  unfold State.elem State.readNat State.readBytes State.readByte
  rw [h]

/-- A tensor holds what it holds in any state with the same memory. -/
theorem TensorHolds.congr {s t : State} {d : Desc} {f : Nat → Nat → Nat} (h : TensorHolds s d f) (e : t.mem = s.mem) : TensorHolds t d f := by
  intro r c hr hc
  rw [State.elem_congr s t d r c e]
  exact h r c hr hc

/-- What storing a tensor of values does, with the flags it raises. -/
theorem State.putValues_spec (s : State) (d : Desc) (f : Nat → Nat → Nat × NumFlags) (w : memCanonical s) :
    memCanonical (s.putValues d f).1 ∧ (∃ m p, (s.putValues d f).1 = { s with mem := m, poison := p }) ∧
    (∀ x, inRanges d.ranges x = false → (s.putValues d f).1.readByte x = s.readByte x) ∧
    (ElementsApart d → ValuesStored (s.putValues d f).1 d f) ∧ (s.putValues d f).2.toBits = flagsOf d f := by
  obtain ⟨h1, h2, h3, h4⟩ := s.putTensor_spec d (fun r c => (f r c).1) w
  exact ⟨h1, h2, h3, h4, rfl⟩

/-! ### The head of a queue -/

/-- The entry that an engine works on is in its queue. -/
theorem Core.working_mem (c : Core) (q : QueueId) (cls op : Nat) (e : Entry) (h : c.working q cls op = some e) : e ∈ c.queue q := by
  unfold Core.working at h
  split at h
  · next x hx =>
    split at h
    · cases h
      exact List.mem_of_find?_eq_some hx
    · cases h
  · cases h

/-- Storing through a queue and the mesh leaves the rest of the core. -/
theorem Core.meshServed_setQueue_queue (c : Core) (q : QueueId) (l : List Entry) (k : Option Nat) : ((c.setQueue q l).meshServed k).queue q = l := by
  cases q <;> rfl

/-- Marking an entry executed changes its queue and its mesh traffic alone. -/
theorem markExecuted_spec (s t : State) (n : Fin 32) (q : QueueId) (e : Entry) (fl : BitVec 3) (u : List Host.Cell) (dst : List (Nat × Nat))
    (he : e ∈ (s.cores[n]).queue q) (ht : t = { s with mem := t.mem, poison := t.poison, fresh := t.fresh })
    (hb : ∀ a, inRanges dst a = false → t.readByte a = s.readByte a) :
    TookEffect s (t.markExecuted n q e fl u) n q e fl dst := by
  have hc : t.cores = s.cores := by rw [ht]
  have hcn : ∀ m : Fin 32, t.cores[m] = s.cores[m] := fun m => by rw [hc]
  unfold State.markExecuted State.modCore
  rw [hcn n]
  refine ⟨⟨u, t.moveCrc e, ?_⟩, ?_, ?_, ?_, hb⟩
  · rw [Fin.getElem_fin, State.core_setCore, Core.meshServed_setQueue_queue]
    exact List.mem_map.mpr ⟨e, he, by simp⟩
  · rw [Fin.getElem_fin, State.core_setCore]
    exact ⟨_, _, rfl⟩
  · intro m hm
    rw [Fin.getElem_fin, State.core_setCore_ne _ _ _ _ hm]
    exact hcn m
  · rw [ht]
    rfl

/-- Rivals are those of the cores. -/
theorem State.rivals_congr (s t : State) (n : Fin 32) (q : QueueId) (h : t.cores = s.cores) : t.rivals n q = s.rivals n q := by
  unfold State.rivals
  rw [h]

/-- Carrying out the head of a queue that no rival meets: the effect, then the entry is marked. -/
theorem runEngine_ok (s : State) (n : Fin 32) (q : QueueId) (cls op : Nat) (effect : State → Entry → State × NumFlags) (e : Entry)
    (h : WorksOn s n q cls op e) (hc : (effect s e).1.cores = s.cores) :
    ∃ u, runEngine s n q cls op effect = .next ((effect s e).1.markExecuted n q e (effect s e).2.toBits u) := by
  obtain ⟨h1, h2, h3, h4⟩ := h
  have hb : s.raceBefore n q e = s := by
    unfold State.raceBefore
    dsimp only
    split
    · rfl
    · exact State.freeOverlap_none _ _ _ h3
  have ha : ∀ t : State, t.cores = s.cores → t.raceAfter n q e = t := by
    intro t ht
    unfold State.raceAfter
    rw [State.rivals_congr s t n q ht]
    dsimp only
    split
    · rfl
    · exact State.freeOverlap_none _ _ _ h4
  unfold runEngine
  rw [h1]
  simp only [h2, Bool.false_eq_true, if_false, hb, ha _ hc]
  exact ⟨_, rfl⟩

/-- An engine instruction whose effect stores its destinations and touches nothing else of the state but memory, poison and free values. -/
theorem runEngine_took (s : State) (n : Fin 32) (q : QueueId) (cls op : Nat) (effect : State → Entry → State × NumFlags) (e : Entry)
    (x : State × NumFlags) (dst : List (Nat × Nat)) (h : WorksOn s n q cls op e) (he : effect s e = x)
    (ht : x.1 = { s with mem := x.1.mem, poison := x.1.poison, fresh := x.1.fresh })
    (hb : ∀ a, inRanges dst a = false → x.1.readByte a = s.readByte a) :
    ∃ t, runEngine s n q cls op effect = .next t ∧ t.mem = x.1.mem ∧ TookEffect s t n q e x.2.toBits dst := by
  subst he
  obtain ⟨u, hu⟩ := runEngine_ok s n q cls op effect e h (by rw [ht])
  exact ⟨_, hu, rfl, markExecuted_spec s _ n q e _ u _ (Core.working_mem _ _ _ _ _ h.1) ht hb⟩

/-- What writing records does. -/
theorem State.putRecords_spec (s : State) (n : Fin 32) (e : Entry) (f : Nat → Word) (w : memCanonical s) :
    memCanonical (s.putRecords n e f) ∧ (∃ m p, s.putRecords n e f = { s with mem := m, poison := p }) ∧
    (∀ x, inRanges (rowRecordBytes n e) x = false → (s.putRecords n e f).readByte x = s.readByte x) ∧
    (∀ r, r < Desc.rows e.d1.val → (s.putRecords n e f).record n (rowRec e.word + r) = f r) := by
  unfold State.putRecords rowRecordBytes
  generalize Desc.rows e.d1.val = k
  induction k with
  | zero => exact ⟨w, ⟨s.mem, s.poison, rfl⟩, fun _ _ => rfl, fun r h => absurd h (by omega)⟩
  | succ k ih =>
    obtain ⟨i1, ⟨m, p, i2⟩, i3, i4⟩ := ih
    rw [List.range_succ, List.foldl_append]
    simp only [List.foldl_cons, List.foldl_nil]
    generalize hg : List.foldl (fun t r => t.putRecord n (rowRec e.word + r) (f r)) s (List.range k) = u at i1 i2 i3 i4
    have hb : ∀ x, (u.putRecord n (rowRec e.word + k) (f k)).readByte x =
        if recAddr n (rowRec e.word + k) ≤ x ∧ x < recAddr n (rowRec e.word + k) + 8 then
          BitVec.ofNat 8 ((f k).toNat / 256 ^ (x - recAddr n (rowRec e.word + k))) else u.readByte x :=
      fun x => State.readByte_writeNat u _ _ _ x i1
    refine ⟨memWrite_wf i1, ⟨_, _, by rw [i2]; rfl⟩, ?_, ?_⟩
    · intro x hx
      have hx2 : ¬ (recAddr n (rowRec e.word) ≤ x ∧ x < recAddr n (rowRec e.word) + 8 * (k + 1)) := by
        intro g
        simp [inRanges, g.1, g.2] at hx
      have e1 : recAddr n (rowRec e.word + k) = recAddr n (rowRec e.word) + 8 * k := by unfold recAddr; omega
      rw [hb, e1, if_neg (by omega)]
      apply i3
      have : ¬ (recAddr n (rowRec e.word) ≤ x ∧ x < recAddr n (rowRec e.word) + 8 * k) := by omega
      simpa [inRanges] using this
    · intro r hr
      have key : ∀ i, i < 8 → (u.putRecord n (rowRec e.word + k) (f k)).readByte (recAddr n (rowRec e.word + r) + i) =
          if r = k then BitVec.ofNat 8 ((f k).toNat / 256 ^ i) else u.readByte (recAddr n (rowRec e.word + r) + i) := by
        intro i hi
        rw [hb]
        by_cases hrk : r = k
        · subst hrk
          rw [if_pos (by omega), if_pos rfl, Nat.add_sub_cancel_left]
        · rw [if_neg hrk, if_neg (by unfold recAddr; omega)]
      by_cases hrk : r = k
      · subst hrk
        unfold State.record
        have : (u.putRecord n (rowRec e.word + r) (f r)).readNat (recAddr n (rowRec e.word + r)) 8 = (f r).toNat := by
          apply Nat.eq_of_testBit_eq
          intro j
          rw [State.testBit_readNat]
          unfold State.memBit
          by_cases hj : j < 64
          · have h1 : (8 * recAddr n (rowRec e.word + r) + j) / 8 = recAddr n (rowRec e.word + r) + j / 8 := by omega
            have h2 : (8 * recAddr n (rowRec e.word + r) + j) % 8 = j % 8 := by omega
            rw [h1, h2, key (j / 8) (by omega), if_pos rfl, BitVec.getLsbD_ofNat, show (256 : Nat) = 2 ^ 8 from rfl, ← Nat.pow_mul,
              Nat.testBit_div_two_pow]
            have h3 : j % 8 + 8 * (j / 8) = j := by omega
            rw [h3]
            have h4 : j % 8 < 8 := by omega
            simp [hj, h4]
          · have : (f r).toNat.testBit j = false := Nat.testBit_lt_two_pow (Nat.lt_of_lt_of_le (f r).isLt (Nat.pow_le_pow_right (by omega) (by omega)))
            rw [this]
            simp only [Bool.and_eq_false_iff, decide_eq_false_iff_not]
            left
            omega
        rw [this, BitVec.ofNat_toNat, BitVec.setWidth_eq]
      · have : (u.putRecord n (rowRec e.word + k) (f k)).record n (rowRec e.word + r) = u.record n (rowRec e.word + r) := by
          unfold State.record State.readNat State.readBytes
          congr 2
          apply List.map_congr_left
          intro i hi
          rw [key i (List.mem_range.mp hi), if_neg hrk]
        rw [this]
        exact i4 r (by omega)

/-- Storing a tensor apart from the records leaves them. -/
theorem State.record_congr (s t : State) (n : Fin 32) (i : Nat)
    (h : ∀ x, recAddr n i ≤ x → x < recAddr n i + 8 → t.readByte x = s.readByte x) : t.record n i = s.record n i := by
  unfold State.record State.readNat State.readBytes
  congr 2
  apply List.map_congr_left
  intro k hk
  have := List.mem_range.mp hk
  exact h _ (by omega) (by omega)

end Sys2Proof.Machine
end

