-- ==== Sys2Proof/WellFormed.lean ====
section
/-! DEFINITION. Commands whose operands lie in the ranges that the spec gives them (spec/00 R10, 07 R192, 08 R229, 09 R262, R273, 10 R289, R290, 12 R360,
14 R415, R428, 15 R445, R454). Operands of a bounded type need no check; a command that is not well formed stands for nothing outside. -/

namespace Sys2Proof

/-- One of the 128 rows or columns of one of the four arrays (R132). -/
def cellOk (array line : Nat) : Bool := decide (array < 4) && decide (line < 128)

/-- A fault strikes a place that the four arrays of 128 rows and columns have (R132, R192): 88-bit data cells, 104-bit check cells, 64-bit sums. -/
def Upset.ok (u : Upset) : Bool :=
  match u with
  | .cell a r c b => cellOk a r && cellOk a c && decide (b < 88)
  | .checkCol a r b => cellOk a r && decide (b < 104)
  | .checkRow a c b => cellOk a c && decide (b < 104)
  | .corner a b => cellOk a 0 && decide (b < 104)
  | .flag a r c b => cellOk a r && cellOk a c && decide (b < 3)
  | .mismatch a r c => cellOk a r && cellOk a c

/-- A local address has 48 bits (R9). -/
def localOk (a : Nat) : Bool := decide (a < 2 ^ 48)

/-- A memory error at a local address. -/
def MemErr.ok : MemErr → Bool
  | .none => true
  | .corrected a => localOk a
  | .reread a => localOk a
  | .persistent a => localOk a
  | .pinFail a => localOk a

/-- A message travels on traffic class 0 or 1 (R262). -/
def Msg.ok (h : Msg) : Bool := decide (h.tc ≤ 1)

/-- A response answers a message of traffic class 0 or 1. -/
def RespTo.ok (r : RespTo) : Bool := decide (r.tc ≤ 1)

/-- A flit is 256 bytes: a header of 16, a payload of 224 (R261). -/
def FlitRef.ok (f : FlitRef) : Bool := decide (f.data.length = 224)

/-- A number is one byte. -/
def byteOk (v : Nat) : Bool := decide (v < 256)

/-- The fields of a group definition fit their widths (R290). -/
def GroupDef.ok (g : GroupDef) : Bool := decide (g.grp < 64) && [g.kind, g.core, g.x0, g.x1, g.sx, g.y0, g.y1, g.sy].all byteOk

/-- The fields of a halt record fit their bytes (R445). -/
def HaltMsg.ok (m : HaltMsg) : Bool := byteOk m.cause && byteOk m.flags

/-- The fields of an image header fit their bytes; the security version is 0 to 64 (R415). -/
def Image.ok (i : Image) : Bool :=
  decide (i.svn ≤ 64) && [i.major, i.minor, i.patch].all (fun v => decide (v < 2 ^ 16)) &&
  [i.fpl, i.fplmin, i.cplmin, i.cplmax, i.nlmin, i.nlmax].all byteOk

/-- The grid of a plan has 1 to 65 columns and rows (R249). -/
def PlanItems.ok (p : PlanItems) : Bool :=
  decide (1 ≤ p.nx ∧ p.nx ≤ 65) && decide (1 ≤ p.ny ∧ p.ny ≤ 65) && p.entries.all (fun e => decide (e.1 < 65536))

/-- The items of a configuration object name host ports and an interleave mode (R428). -/
def ConfigItems.ok (c : ConfigItems) : Bool :=
  c.addrs.all (fun a => decide (a.port < 8)) && c.vlans.all (fun v => decide (v.1 < 8)) && (match c.ilv with | some v => decide (v < 2) | none => true)

/-- A fetched object. -/
def FetchedObject.ok (o : FetchedObject) : Bool :=
  match o.body with
  | .image i => i.ok
  | .settings c => c.ok
  | .plan p => p.ok

/-- Lanes and channels that a boot's tests name exist (R19, R230). -/
def BootFindings.ok (f : BootFindings) : Bool :=
  let lane (x : Nat × Nat × Nat) : Bool := decide (x.1 < 2) && decide (x.2.1 < 20) && decide (x.2.2 < 34)
  f.laneFails.all lane && f.lanePasses.all lane && f.chanFails.all (fun x => decide (x.1 < 8) && decide (x.2 < 32)) &&
  f.bol.toList.all (fun b => decide (b < 65536))

/-- A supervisory frame: TYPE and TTL are bytes; at most 256 bytes in all (R338). -/
def SupFrame.ok (f : SupFrame) : Bool := byteOk f.type && byteOk f.ttl && decide (f.payload.length ≤ 240)

/-- A pool report: W is a wait fraction up to 1,024 (R395). -/
def PoolMsg.ok (m : PoolMsg) : Bool := decide (m.w ≤ 1024) && decide (m.b < 65536) && decide (m.base < 65536)

/-- A rank of a group: at most 65 × 65 chips or 32 cores (R289). -/
def rankOk (r : Nat) : Bool := decide (r < 65 * 65)

/-- A command's operands lie in the ranges that the spec gives them. -/
def Instr.wellFormed (i : Instr) : Bool :=
  match i with
  | .sLd _ _ _ _ _ _ e => e.ok
  | .sLd32 _ _ _ _ _ _ e => e.ok
  | .dLd _ _ _ _ _ _ e => e.ok
  | .scalarAccessComplete _ e => e.ok
  | .instructionFetchFill _ e => e.ok
  | .instructionStart _ _ e => e.ok
  | .issueAccumulated _ _ us => us.all Upset.ok
  | .matrixRetry _ us e => us.all Upset.ok && e.ok
  | .patrolScrub a e => localOk a && e.ok
  | .channelNotAnswering a _ => localOk a
  | .atomicOperation _ _ e => e.ok
  | .cmGet _ e => e.ok
  | .cmAmo _ _ e => e.ok
  | .cmSend _ e => e.ok
  | .flitReceive _ f _ => f.ok
  | .put h _ _ => h.ok
  | .get h _ e => h.ok && e.ok
  | .amo h _ _ _ _ _ e => h.ok && e.ok
  | .send h _ _ e => h.ok && e.ok
  | .signal h _ _ => h.ok
  | .ack r _ => r.ok
  | .getData r _ _ => r.ok
  | .amoOld r _ _ => r.ok
  | .resend r _ _ _ => r.ok
  | .fail r _ _ => r.ok
  | .messageRetryTimer r => r.ok
  | .messageTimeout r => r.ok
  | .groupCreate _ g => g.ok
  | .join _ r _ _ cpl failed => rankOk r && byteOk cpl && byteOk failed
  | .collectiveStart _ r e _ => rankOk r && e.ok
  | .descriptorRecord _ d r _ _ h => rankOk d && rankOk r && h.all Msg.ok
  | .collectiveChunk _ d r _ _ _ _ h => rankOk d && rankOk r && h.all Msg.ok
  | .collectiveComplete _ r => rankOk r
  | .collectiveTimeout _ r => rankOk r
  | .worklist _ _ _ rkey va len _ => decide (rkey < 2 ^ 32) && decide (va < 2 ^ 64) && decide (len < 2 ^ 64)
  | .update _ _ f => match f with | some o => o.ok | none => true
  | .recoveryFetch f => match f with | some x => x.ok | none => true
  | .poolReport m => m.ok
  | .bootStageDone f => f.ok
  | .supFrame f => f.ok
  | .halt m => m.ok
  | .drillFire k u => if k.val ≤ 6 then decide (u < 32) else if k.val = 9 ∨ k.val = 11 then decide (u < 128) else decide (u < 2)
  | .drillEscape k u _ => if k.val ≤ 6 then decide (u < 32) else if k.val = 9 ∨ k.val = 11 then decide (u < 128) else decide (u < 2)
  | _ => true

end Sys2Proof
end

