-- ==== Sys2Proof/Tests/Slice0.lean ====
section
/-! SUPPORT. Tests of the model: the smoke test of WellFormed, a witness of the hypotheses of every obligation, and small tests of single
commands whose expected values come from the spec. -/

namespace Sys2Proof.Tests

open Sys2Proof.Machine

set_option Elab.async false

/-! ### Ill-formed commands are refused by WellFormed -/

/-- A message of a traffic class that does not exist (R262). -/
def badMsg : Msg :=
  { src := 0, core := 0, svc := false, tc := 2, rc := false, half := false, isNew := false, mc := false, msgid := 0, job := 0, cack := 0, crc := 0 }

/-- A group slot that does not exist (R290). -/
def badGroup : GroupDef :=
  { grp := 64, kind := 0, core := 0, x0 := 0, x1 := 0, sx := 0, y0 := 0, y1 := 0, sy := 0, timeout := 0, cmask := 0, reserved := false, stage := 0, stgsz := 0 }

/-- Findings of a boot stage with no fault. -/
def cleanFindings : BootFindings :=
  { configOk := true, pufOk := true, calOk := true, coreFails := 0, laneFails := [], lanePasses := [], chanFails := [], cartPresent := (true, true)
    cartValid := (true, true), cartSerial := (1, 2), cartHours := (0, 0), bol := Vector.replicate 24 1000
    bolPower := Vector.replicate 24 0 }

/-- A fetched object whose digests, form and signatures are good. -/
def object (b : UpdateBody) : FetchedObject := { digestOk := true, formatOk := true, sigOk := true, body := b }

theorem wf_access_address : Instr.wellFormed (.scalarAccessComplete 0 (.persistent (2 ^ 48))) = false := by decide
theorem wf_load_address : Instr.wellFormed (.sLd 0 0 0 0 0 .ok (.corrected (2 ^ 48))) = false ∧ Instr.wellFormed (.sLd32 0 0 0 0 0 .ok (.corrected (2 ^ 48))) = false ∧
    Instr.wellFormed (.dLd 0 0 0 0 0 .ok (.corrected (2 ^ 48))) = false := by decide
theorem wf_fill_address : Instr.wellFormed (.instructionFetchFill 0 (.corrected (2 ^ 48))) = false := by decide
theorem wf_comm_address : Instr.wellFormed (.cmGet 0 (.corrected (2 ^ 48))) = false ∧ Instr.wellFormed (.cmAmo 0 .ok (.corrected (2 ^ 48))) = false ∧
    Instr.wellFormed (.cmSend 0 (.corrected (2 ^ 48))) = false ∧
    Instr.wellFormed (.atomicOperation (.sequencer 0) .ok (.corrected (2 ^ 48))) = false := by decide
theorem wf_flit_length : Instr.wellFormed (.flitReceive 0 { hdr := 0, data := [], tag := 0, crc := 0 } 0) = false := by decide
theorem wf_start_address : Instr.wellFormed (.instructionStart 0 .move (.corrected (2 ^ 48))) = false := by decide
theorem wf_upset_array : Instr.wellFormed (.issueAccumulated 0 false [.cell 4 0 0 0]) = false := by decide
theorem wf_upset_check_column : Instr.wellFormed (.issueAccumulated 0 false [.checkCol 0 128 0]) = false := by decide
theorem wf_upset_check_row : Instr.wellFormed (.issueAccumulated 0 false [.checkRow 0 0 104]) = false := by decide
theorem wf_upset_corner : Instr.wellFormed (.issueAccumulated 0 false [.corner 0 104]) = false := by decide
theorem wf_upset_flag : Instr.wellFormed (.issueAccumulated 0 false [.flag 0 0 0 3]) = false := by decide
theorem wf_upset_mismatch : Instr.wellFormed (.issueAccumulated 0 false [.mismatch 0 0 128]) = false := by decide
theorem wf_retry_upset : Instr.wellFormed (.matrixRetry 0 [.cell 0 0 0 88] .none) = false := by decide
theorem wf_retry_address : Instr.wellFormed (.matrixRetry 0 [] (.reread (2 ^ 48))) = false := by decide
theorem wf_patrol_address : Instr.wellFormed (.patrolScrub (2 ^ 48) .none) = false := by decide
theorem wf_patrol_error : Instr.wellFormed (.patrolScrub 0 (.pinFail (2 ^ 48))) = false := by decide
theorem wf_channel_address : Instr.wellFormed (.channelNotAnswering (2 ^ 48) []) = false := by decide
theorem wf_put : Instr.wellFormed (.put badMsg 0 []) = false := by decide
theorem wf_get : Instr.wellFormed (.get badMsg 0 .none) = false := by decide
theorem wf_get_address : Instr.wellFormed (.get { badMsg with tc := 1 } 0 (.corrected (2 ^ 48))) = false := by decide
theorem wf_amo : Instr.wellFormed (.amo badMsg 0 0 0 0 .ok .none) = false := by decide
theorem wf_send : Instr.wellFormed (.send badMsg 0 [] .none) = false := by decide
theorem wf_signal : Instr.wellFormed (.signal badMsg 0 0) = false := by decide
theorem wf_get_data : Instr.wellFormed (.getData { peer := 0, core := 0, svc := false, tc := 2, rc := false, msgid := 0 } [] 0) = false := by decide
theorem wf_responses : (let r : RespTo := { peer := 0, core := 0, svc := false, tc := 2, rc := false, msgid := 0 }
    [Instr.ack r 0, .amoOld r 0 0, .resend r 0 false 0, .fail r 0 0, .messageRetryTimer r, .messageTimeout r].all (fun c => !Instr.wellFormed c)) = true := by decide
theorem wf_group_slot : Instr.wellFormed (.groupCreate 1 badGroup) = false := by decide
theorem wf_group_kind : Instr.wellFormed (.groupCreate 1 { badGroup with grp := 63, kind := 256 }) = false := by decide
theorem wf_group_core : Instr.wellFormed (.groupCreate 1 { badGroup with grp := 63, core := 256 }) = false := by decide
theorem wf_group_columns : Instr.wellFormed (.groupCreate 1 { badGroup with grp := 63, x0 := 256 }) = false ∧
    Instr.wellFormed (.groupCreate 1 { badGroup with grp := 63, x1 := 256 }) = false ∧
    Instr.wellFormed (.groupCreate 1 { badGroup with grp := 63, sx := 256 }) = false := by decide
theorem wf_group_rows : Instr.wellFormed (.groupCreate 1 { badGroup with grp := 63, y0 := 256 }) = false ∧
    Instr.wellFormed (.groupCreate 1 { badGroup with grp := 63, y1 := 256 }) = false ∧
    Instr.wellFormed (.groupCreate 1 { badGroup with grp := 63, sy := 256 }) = false := by decide
theorem wf_join_rank : Instr.wellFormed (.join 0 4225 0 0 0 0) = false := by decide
theorem wf_join_level : Instr.wellFormed (.join 0 0 0 0 256 0) = false := by decide
theorem wf_join_reason : Instr.wellFormed (.join 0 0 0 0 0 256) = false := by decide
theorem wf_collective_start : Instr.wellFormed (.collectiveStart 0 4225 .none .ok) = false := by decide
theorem wf_collective_start_address : Instr.wellFormed (.collectiveStart 0 0 (.corrected (2 ^ 48)) .ok) = false := by decide
theorem wf_descriptor_record : Instr.wellFormed
    (.descriptorRecord 0 0 4225 { op := 0, rop := 0, fast := false, fmt := 0, root := 0, count := 0, seq := 0, arr := 0 } .ok none) = false := by decide
theorem wf_descriptor_record_member : Instr.wellFormed
    (.descriptorRecord 0 4225 0 { op := 0, rop := 0, fast := false, fmt := 0, root := 0, count := 0, seq := 0, arr := 0 } .ok none) = false := by decide
theorem wf_chunk : Instr.wellFormed (.collectiveChunk 0 0 4225 0 .result [] .ok none) = false := by decide
theorem wf_chunk_header : Instr.wellFormed (.collectiveChunk 0 0 0 0 .result [] .ok (some badMsg)) = false := by decide
theorem wf_chunk_member : Instr.wellFormed (.collectiveChunk 0 4225 0 0 .result [] .ok none) = false := by decide
theorem wf_complete : Instr.wellFormed (.collectiveComplete 0 4225) = false := by decide
theorem wf_timeout : Instr.wellFormed (.collectiveTimeout 0 4225) = false := by decide
theorem wf_worklist_key : Instr.wellFormed (.worklist 0 0 0 (2 ^ 32) 0 0 0) = false := by decide
theorem wf_worklist_address : Instr.wellFormed (.worklist 0 0 0 0 (2 ^ 64) 0 0) = false := by decide
theorem wf_worklist_length : Instr.wellFormed (.worklist 0 0 0 0 0 (2 ^ 64) 0) = false := by decide
theorem wf_update_image : Instr.wellFormed
    (.update 0 [] (some (object (.image { Image.factory with svn := 65 })))) = false := by decide
theorem wf_update_settings : Instr.wellFormed
    (.update 0 [] (some (object (.settings { addrs := [], vlans := [(8, 0)], recovery := none, ilv := none })))) = false := by decide
theorem wf_update_plan : Instr.wellFormed
    (.update 0 [] (some (object (.plan { ver := 1, nx := 66, ny := 1, perm := false, entries := [] })))) = false := by decide
theorem wf_recovery_image : Instr.wellFormed (.recoveryFetch (some { Image.factory with fpl := 256 })) = false := by decide
theorem wf_pool_report : Instr.wellFormed (.poolReport { chip := 0, w := 1025, b := 0, base := 0, hash := 0 }) = false := by decide
theorem wf_boot_lane : Instr.wellFormed (.bootStageDone { cleanFindings with laneFails := [(2, 0, 0)] }) = false := by decide
theorem wf_boot_channel : Instr.wellFormed (.bootStageDone { cleanFindings with chanFails := [(8, 0)] }) = false := by decide
theorem wf_boot_clean : Instr.wellFormed (.bootStageDone cleanFindings) = true := by decide
theorem wf_frame : Instr.wellFormed (.supFrame { type := 256, ttl := 0, src := 0, serial := 0, seq := 0, payload := [], macOk := true }) = false := by decide
theorem wf_halt : Instr.wellFormed (.halt { job := 0, cause := 256, flags := 0, origin := 0, detail := 0, ft0 := 0, loc := 0 }) = false := by decide
theorem wf_drill_core : Instr.wellFormed (.drillFire 6 32) = false := by decide
theorem wf_drill_path : Instr.wellFormed (.drillFire 11 128) = false := by decide
theorem wf_drill_device : Instr.wellFormed (.drillEscape 7 2 none) = false := by decide

/-! ### Helpers -/

/-- A state with core 0 changed. -/
def core0 (s : State) (f : Core → Core) : State := s.setCore 0 (f (s.cores[(0 : Fin 32)]))

/-- The held line that has an instruction word at an address. -/
def lineAt (a : Nat) (w : Word) : Line :=
  { block := a / 4096
    bytes := (List.range 8).foldl (fun m i => sparseSet memDefault m (a + i) (BitVec.ofNat 8 (w.toNat / 256 ^ i))) [] }

/-- Core 0 runs job 1 at address 0, its first line held; s2 = 64, s3 = 3, s4 = 2²⁴ + 2¹⁶ and s5 all ones. -/
def running : State := core0 State.reset (fun c => { c with
  run := .running
  job := 1
  lines := [lineAt 0 0]
  sregs := ((((c.sregs.set 2 64).set 3 3).set 4 0x1010000).set 5 (BitVec.allOnes 64))
  preds := c.preds.set 2 true })

/-- s, with the instruction of a command at core 0's pc. -/
def finding (s : State) (c : Instr) : State :=
  core0 s (fun k => { k with lines := [lineAt k.pc.toNat (match instrWord c with | some w => w | none => 0)] })

theorem finds_of {s : State} {n : Fin 32} {c : Instr} (w : Word) (h : instrWord c = some w) (f : s.finds n w = true) : Safety.Finds s n c := ⟨w, h, f⟩

theorem apart_of (d : Desc) (h : ∀ p ∈ positions d.rows d.cols, ∀ q ∈ positions d.rows d.cols, p ≠ q →
    d.elemBit p.1 p.2 + d.bits ≤ d.elemBit q.1 q.2 ∨ d.elemBit q.1 q.2 + d.bits ≤ d.elemBit p.1 p.2) : Safety.ElementsApart d := by
  have m : ∀ r c, r < d.rows → c < d.cols → (r, c) ∈ positions d.rows d.cols := by
    intro r c hr hc
    unfold positions
    rw [List.mem_flatMap]
    exact ⟨r, List.mem_range.mpr hr, List.mem_map.mpr ⟨c, List.mem_range.mpr hc, rfl⟩⟩
  exact fun r c r' c' h1 h2 h3 h4 hne => h (r, c) (m r c h1 h2) (r', c') (m r' c' h3 h4) hne

theorem inRanges_false {x : List (Nat × Nat)} {a : Nat} (h : ∀ p ∈ x, ¬ (p.1 ≤ a ∧ a < p.1 + p.2)) : inRanges x a = false := by
  unfold inRanges
  simp only [List.any_eq_false]
  intro p hp
  have := h p hp
  simpa using this

theorem noShared_of {x y : List (Nat × Nat)} (h : ∀ p ∈ x, ∀ q ∈ y, p.1 + p.2 ≤ q.1 ∨ q.1 + q.2 ≤ p.1) : Safety.NoSharedByte x y := by
  intro a ha
  unfold inRanges at ha
  rw [List.any_eq_true] at ha
  obtain ⟨p, hp, hpa⟩ := ha
  apply inRanges_false
  intro q hq
  have := h p hp q hq
  simp only [Bool.and_eq_true, decide_eq_true_eq] at hpa
  omega

/-! ### Witnesses: the machine as a whole -/

theorem witness_StepTakesFront : ({ running with pending := [.nop 0 0 .ok] } : State).pending = .nop 0 0 .ok :: [] := rfl

/-- Main and auxiliary power are on and the module is READY; core 0 runs. -/
def powered : State := ({ running with pins := { running.pins with aux := true, mainIn := true, mainEn := true, pwrGood := true } } : State).setMstate mReady

theorem witness_IdleTick : powered.pending = [] ∧ powered.pins.aux = true ∧ powered.time.slew = 0 ∧ powered.mainOn = true ∧
    (powered.cores[(0 : Fin 32)]).run = .running ∧ (powered.cores[(1 : Fin 32)]).run ≠ .running ∧ State.reset.pins.aux = false := by decide +kernel

theorem witness_StepKeepsCanonical : Safety.memCanonical running ∧ Safety.regsCanonical running ∧ ∃ t, step running = .next t :=
  ⟨by decide, by decide, _, rfl⟩

/-! ### Witnesses: instructions of the sequencer -/

/-- Core 0 of s can execute the instruction of each command in turn, put at its pc: no selector, room to fetch behind it. -/
abbrev ready (s : State) (cs : List Instr) : Prop :=
  ∀ c ∈ cs, Safety.SeqFree (finding s c) 0 ∧ Safety.SelectorPasses (finding s c) 0 0 ∧ Safety.NextFetchable (finding s c) 0 ∧
    (match instrWord c with | some w => (finding s c).finds 0 w | none => false) = true

theorem witness_ScalarAndPredicateForms_registers : ready running [.nop 0 0 .ok, .sAdd 0 0 31 2 5 .ok, .sSub 0 0 0 2 5 .ok, .sMul 0 0 1 5 5 .ok,
    .sMulhu 0 0 1 5 5 .ok, .sDivu 0 0 1 2 0 .ok, .sRemu 0 0 1 2 0 .ok, .sAnd 0 0 1 2 3 .ok, .sOr 0 0 1 2 3 .ok, .sXor 0 0 1 2 3 .ok, .sShl 0 0 1 3 2 .ok,
    .sShr 0 0 1 3 5 .ok, .sSra 0 0 1 5 5 .ok, .sMin 0 0 1 2 5 .ok, .sMax 0 0 1 2 5 .ok] := by
  unfold ready Safety.SeqFree Safety.SelectorPasses Safety.NextFetchable
  decide +kernel

theorem witness_ScalarAndPredicateForms_immediates : ready running [.sAddi 0 0 31 2 0x2000000000 .ok, .sSubi 0 0 1 2 1 .ok, .sMuli 0 0 1 2 3 .ok,
    .sAndi 0 0 1 5 7 .ok, .sOri 0 0 1 2 7 .ok, .sXori 0 0 1 2 7 .ok, .sShli 0 0 1 3 63 .ok, .sShri 0 0 1 5 63 .ok, .sSrai 0 0 1 5 63 .ok,
    .sLi 0 0 1 0x40000000000 .ok, .sLih 0 0 1 0xFFFFFFFF .ok] ∧ (63#38).toNat < 64 ∧ (0xFFFFFFFF#43).toNat < 2 ^ 32 := by
  unfold ready Safety.SeqFree Safety.SelectorPasses Safety.NextFetchable
  decide +kernel

theorem witness_ScalarAndPredicateForms_predicates : ready running [.pEq 0 0 7 2 3 .ok, .pNe 0 0 0 2 3 .ok, .pLt 0 0 1 5 2 .ok, .pLtu 0 0 1 5 2 .ok,
    .pEqi 0 0 1 2 64 .ok, .pLti 0 0 1 5 0 .ok, .pAnd 0 0 1 2 3 .ok, .pOr 0 0 1 2 3 .ok, .pXor 0 0 1 2 3 .ok, .pNot 0 0 1 2 0 .ok] := by
  unfold ready Safety.SeqFree Safety.SelectorPasses Safety.NextFetchable
  decide +kernel

theorem witness_BranchForms : ready running [.bZ 0 0 1 0 1 .ok, .bNz 0 0 1 0 1 .ok, .bEq 0 0 0 1 1 .ok, .bNe 0 0 0 1 1 .ok, .bLt 0 0 0 1 1 .ok, .bLtu 0 0 0 1 1 .ok,
      .bGe 0 0 0 2 1 .ok, .bGeu 0 0 0 2 1 .ok, .bP 0 0 2 false 1 .ok, .bJ 0 0 0 0 1 .ok, .bJr 0 0 2 0 0 .ok, .bCall 0 0 1 0 0x3FFFFFFFFF .ok] ∧
    (running.cores[(0 : Fin 32)]).s 0 = 0 ∧ (running.cores[(0 : Fin 32)]).s 1 = 0 ∧ (running.cores[(0 : Fin 32)]).s 2 ≠ 0 ∧
    (running.cores[(0 : Fin 32)]).p 2 ≠ false ∧ (running.cores[(0 : Fin 32)]).p 2 ≠ (running.cores[(0 : Fin 32)]).p 1 ∧
    fetchable 0 (BitVec.ofInt 64 (((running.cores[(0 : Fin 32)]).pc.toNat : Int) + 8 * (1#38).toInt)).toNat = true ∧
    fetchable 0 (BitVec.ofInt 64 (((running.cores[(0 : Fin 32)]).pc.toNat : Int) + 8 * (BitVec.allOnes 38).toInt)).toNat = false := by
  unfold ready Safety.SeqFree Safety.SelectorPasses Safety.NextFetchable
  decide +kernel

/-- The largest value that a field of 32 or 48 bits takes and the smallest that it does not (s2 = 2³² − 1, s3 = 2³², s4 = 2⁴⁸ − 1, s5 = 2⁴⁸). -/
def bounds : State := core0 running (fun c => { c with
  sregs := ((((c.sregs.set 2 0xFFFFFFFF).set 3 0x100000000).set 4 0xFFFFFFFFFFFF).set 5 0x1000000000000) })

theorem witness_DescriptorForms : ready bounds [.dMov 0 0 15 0 1 .ok, .dZero 0 0 15 .ok, .dSetbase 0 0 1 4 .ok, .dSetbase 0 0 1 5 .ok, .dAddbase 0 0 1 5 .ok,
      .dSetrows 0 0 1 2 .ok, .dSetrows 0 0 1 3 .ok, .dSetcols 0 0 1 2 .ok, .dSetcols 0 0 1 3 .ok, .dSetstride 0 0 1 4 .ok, .dSetstride 0 0 1 5 .ok,
      .dSettid 0 0 1 2 .ok, .dSettid 0 0 1 3 .ok, .dSetscale 0 0 1 2 .ok, .dSetscale 0 0 1 3 .ok, .dSetfmt 0 0 1 0x3FF .ok, .dGet 0 0 1 2 3 .ok] ∧
    ((bounds.cores[(0 : Fin 32)]).s 2).toNat < 2 ^ 32 ∧ 2 ^ 32 ≤ ((bounds.cores[(0 : Fin 32)]).s 3).toNat ∧
    ((bounds.cores[(0 : Fin 32)]).s 4).toNat < 2 ^ 48 ∧ 2 ^ 48 ≤ ((bounds.cores[(0 : Fin 32)]).s 5).toNat := by
  unfold ready Safety.SeqFree Safety.SelectorPasses Safety.NextFetchable
  decide +kernel

/-- s6 is the last 8 bytes of core 0's scratchpad, s7 the last 32. -/
def edge : State := core0 running (fun c => { c with
  sregs := (c.sregs.set 6 (BitVec.ofNat 64 (scratchSize - 8))).set 7 (BitVec.ofNat 64 (scratchSize - 32)) })

theorem witness_OwnScratchpadAccess : ready edge [.sLd 0 0 1 6 0 .ok .none, .sLd32 0 0 1 6 4 .ok .none, .dLd 0 0 1 7 0 .ok .none, .sSt 0 0 5 6 0 .ok,
      .sSt32 0 0 5 6 4 .ok, .dSt 0 0 1 7 0 .ok] ∧ Safety.memCanonical edge ∧ Safety.OwnBytes edge 0 ((edge.cores[(0 : Fin 32)]).s 6 + BitVec.ofInt 64 (0#38).toInt) 8 ∧
    Safety.OwnBytes edge 0 ((edge.cores[(0 : Fin 32)]).s 6 + BitVec.ofInt 64 (4#38).toInt) 4 ∧
    Safety.OwnBytes edge 0 ((edge.cores[(0 : Fin 32)]).s 7 + BitVec.ofInt 64 (0#39).toInt) 32 := by
  unfold ready Safety.SeqFree Safety.SelectorPasses Safety.NextFetchable Safety.OwnBytes Safety.OwnPlace
  decide +kernel

/-- Job 1 holds the first MiB of HBM as a window; core 0, which runs it, has the window's address in s2, and its comparison value in s3. -/
def job1 : Job :=
  { id := 1, trapPol := 0, windows := [{ base := hbmBase, size := 2 ^ 20, half := 0, buddy := true, zeroed := true }], groups := [], rings := []
    phase := .running, digest := 7, key := 9, cores := 3, ended := 0, entryOff := 0, pload := 0, mmcfg := mmcfgReset, runcfg := runcfgReset
    argAddr := hbmBase + 256, servers := [5], services := [], cancelled := false }

/-- The four stacks of each half are in the memory map. -/
def windowed : State :=
  ({ core0 running (fun c => { c with sregs := c.sregs.set 2 (BitVec.ofNat 64 hbmBase) }) with jobs := [job1] } : State).setReg Csr.memMap
    (Word.place (128 * channelBytes) 40 0)

/-- Core 0 is held by an access of the kind at the window's first address. -/
def accessing (k : AccessKind) (old : Option Word) : State :=
  core0 windowed (fun c => { c with wait := .access k (BitVec.ofNat 48 hbmBase) 4 5 0 9 old })

theorem witness_MemoryAccesses_issue : ready windowed [.sLd 0 0 1 2 0 .ok .none, .sLd32 0 0 1 2 4 .ok .none, .sSt 0 0 3 2 0 .ok, .sSt32 0 0 3 2 4 .ok,
      .dLd 0 0 1 2 32 .ok .none, .dSt 0 0 1 2 32 .ok, .sAmoadd 0 0 3 2 5 .ok, .sAmomax 0 0 3 2 5 .ok, .sAmomin 0 0 3 2 5 .ok, .sAmoswap 0 0 3 2 5 .ok,
      .sAmocas 0 0 3 2 5 .ok] ∧
    (let x := (windowed.cores[(0 : Fin 32)]).s 2
     Safety.HbmPlace windowed 0 x 8 ∧ Safety.HbmPlace windowed 0 (x + 4) 4 ∧ Safety.HbmPlace windowed 0 (x + 32) 32) := by
  unfold ready Safety.SeqFree Safety.SelectorPasses Safety.NextFetchable Safety.HbmPlace
  decide +kernel

theorem witness_MemoryAccesses_complete : Safety.NextFetchable (accessing .load64 none) 0 ∧ Safety.memCanonical (accessing .load64 none) ∧
    (accessing .load64 none).poison = [] ∧
    ((accessing .load64 none).cores[(0 : Fin 32)]).wait = .access .load64 (BitVec.ofNat 48 hbmBase) 4 5 0 9 none ∧
    ((accessing .load32 none).cores[(0 : Fin 32)]).wait = .access .load32 (BitVec.ofNat 48 hbmBase) 4 5 0 9 none ∧
    ((accessing .loadDesc none).cores[(0 : Fin 32)]).wait = .access .loadDesc (BitVec.ofNat 48 hbmBase) 4 5 0 9 none ∧
    ((accessing .storeDesc none).cores[(0 : Fin 32)]).wait = .access .storeDesc (BitVec.ofNat 48 hbmBase) 4 5 0 9 none ∧
    ((accessing (.amo 4) (some 3)).cores[(0 : Fin 32)]).wait = .access (.amo 4) (BitVec.ofNat 48 hbmBase) 4 5 0 9 (some 3) := by
  unfold Safety.NextFetchable
  decide +kernel

theorem witness_MemoryAccesses_atomic : ((accessing (.amo 0) none).cores[(0 : Fin 32)]).wait = .access (.amo 0) (BitVec.ofNat 48 hbmBase) 4 5 0 9 none ∧
    (accessing (.amo 0) none).hbmPlace hbmBase = some (0, 0, 0) ∧ ((accessing (.amo 0) none).reg (Csr.hbmAmo 0)).bit 0 = false ∧
    Safety.NoDrill (accessing (.amo 0) none) 6 0 := by
  unfold Safety.NoDrill
  decide +kernel

/-- Core 1 runs job 1 beside core 0; core 0 has 1 in s1 and semaphore 5 at 65,534. -/
def pair : State :=
  let s := core0 windowed (fun c => { c with sregs := c.sregs.set 1 1, sems := c.sems.set 5 65534 })
  s.setCore 1 { Core.atReset with run := .running, job := 1, lines := [lineAt (512 * 4096) 0] }

theorem witness_SyncForms_own : ready pair [.syncWait 0 0 5 65534 .ok, .syncWait 0 0 5 65535 .ok, .syncSig 0 0 5 1 .ok, .syncSig 0 0 5 2 .ok, .syncSet 0 0 47 65535 .ok,
      .syncRead 0 0 1 47 .ok, .syncWsel 0 0 15 47 1 7 true .ok] ∧ (5#6).toNat < 32 ∧ (47#6).toNat < 48 ∧
    (65534#16).toNat ≤ Safety.shareAfter pair 0 0 5 ∧ Safety.shareAfter pair 0 0 5 < (65535#16).toNat ∧
    Safety.semsAfter pair 0 0 5 + (1#16).toNat ≤ 65535 ∧ 65535 < Safety.semsAfter pair 0 0 5 + (2#16).toNat := by
  unfold ready Safety.SeqFree Safety.SelectorPasses Safety.NextFetchable Safety.semsAfter Safety.shareAfter
  decide +kernel

theorem witness_SyncForms_others : ready pair [.syncXsig 0 0 1 15 65535 false .ok, .syncXsig 0 0 1 15 65535 true .ok, .syncXsig 0 0 5 15 1 false .ok,
      .syncXsig 0 0 5 15 1 true .ok, .syncIdle 0 0 0x3F .ok, .syncUntil 0 0 0 .ok, .syncUntil 0 0 1 .ok] ∧
    ((pair.cores[(0 : Fin 32)]).s 1).toNat = (1 : Fin 32).val ∧ pair.corePresent 1 = true ∧ (pair.jobCores 1)[1]? = some 1 ∧
    (pair.cores[(1 : Fin 32)]).run = .running ∧
    (pair.cores[(1 : Fin 32)]).job = (pair.cores[(0 : Fin 32)]).job ∧ (pair.cores[(1 : Fin 32)]).sem (32 + (15#4).toNat) + (65535#16).toNat ≤ 65535 ∧
    (QueueId.all.all (fun q => (pair.cores[(0 : Fin 32)]).queueIdle q)) = true ∧ (pair.cores[(0 : Fin 32)]).s 0 ≤ pair.ft ∧
    pair.ft < (pair.cores[(0 : Fin 32)]).s 1 ∧ (pair.jobCores 1).length ≤ ((pair.cores[(0 : Fin 32)]).s 5).toNat ∧
    ((core0 pair (fun c => { c with wait := .until 0 0 })).cores[(0 : Fin 32)]).wait = .until 0 0 := by
  unfold ready Safety.NextFetchable Safety.SeqFree Safety.SelectorPasses
  decide +kernel

/-- Core 0 reads the register at the last offset of the window, or names its own CORE_NUMST. -/
def csrReader : State := core0 running (fun c => { c with sregs := (c.sregs.set 2 0xFFF8).set 3 (BitVec.ofNat 64 (Csr.core 0 0x30)) })

theorem witness_SystemForms : ready csrReader [.sysCsrr 0 0 4 2 0 .ok, .sysCsrw 0 0 4 3 0 .ok, .sysIfence 0 0 .ok, .sysFt 0 0 4 .ok, .sysCyc 0 0 4 .ok, .sysEnd 0 0 .ok,
      .sysEvent 0 0 0xFFFF .ok] ∧
    ((csrReader.cores[(0 : Fin 32)]).s 2 + (0#32).zeroExtend 64).toNat % 8 = 0 ∧
    ((csrReader.cores[(0 : Fin 32)]).s 2 + (0#32).zeroExtend 64).toNat ≤ 0xFFFF ∧
    ((csrReader.cores[(0 : Fin 32)]).s 3 + (0#32).zeroExtend 64).toNat = Csr.core 0 0x30 ∧
    ((core0 csrReader (fun c => { c with wait := .csr 0xFFF8 4 })).cores[(0 : Fin 32)]).wait = .csr 0xFFF8 4 := by
  unfold ready Safety.SeqFree Safety.SelectorPasses Safety.NextFetchable
  decide +kernel

theorem witness_TrapStopsCore : Safety.regsCanonical running ∧ (running.cores[(0 : Fin 32)]).run = .running ∧ (running.cores[(0 : Fin 32)]).stopping = none ∧
    (running.cores[(0 : Fin 32)]).inFlight = false ∧ firstCondition [(Cause.address, 0), (Cause.fetch, 5)] = some (Cause.fetch, 5) := by decide +kernel

/-! ### Witnesses: queues and engines -/

/-- A row-major tensor descriptor with a stride of 64 bytes. -/
def tensor (base fmt rows cols : Nat) : BitVec 256 := BitVec.ofNat 256 (base + fmt * 2 ^ 48 + rows * 2 ^ 64 + cols * 2 ^ 96 + 64 * 2 ^ 128)

/-- An engine word: class, opcode and the low 48 bits. -/
def word (cls op low : Nat) : Word := BitVec.ofNat 64 (cls * 2 ^ 60 + op * 2 ^ 52 + low)

/-- A descriptor register as an entry copies it. -/
def named (reg : Nat) (v : BitVec 256) : NamedDesc := { reg := BitVec.ofNat 4 reg, val := v, next := 0 }

/-- A queue entry that waits: no semaphore, no signal. -/
def entryFor (w : Word) (d0 d1 d2 : BitVec 256) : Entry :=
  { word := w, pc := 8, seq := 7, wsel := 0, d0 := named 1 d0, d1 := named 2 d1, d2 := named 3 d2, d3 := named 0 0, ra := 3, rb := 0, started := false
    executed := false, progress := 0, flags := 0, since := 0, failed := false, undo := [], crc := 0 }

/-- Core 1 is STARTING, or absent, where core 0 signals it; core 0's vector queue is not idle. -/
def pairWith (r : RunState) : State :=
  let s := core0 pair (fun c => { c with qVector := [entryFor 0 0 0 0] })
  s.setCore 1 { s.cores[(1 : Fin 32)] with run := r }

theorem witness_SyncForms_targets : (∀ r ∈ [RunState.starting, .gated], ready (pairWith r) [.syncXsig 0 0 1 15 1 false .ok] ∧
      ((pairWith r).cores[(1 : Fin 32)]).run = r ∧ ((pairWith r).cores[(1 : Fin 32)]).job = 1) ∧
    ready (pairWith .absent) [.syncXsig 0 0 1 15 1 false .ok, .syncIdle 0 0 8 .ok] ∧ (pairWith .absent).corePresent 1 = false ∧
    (8#6).getLsbD (QueueId.index .vector) = true ∧ ((pairWith .absent).cores[(0 : Fin 32)]).queueIdle .vector = false := by
  unfold ready Safety.NextFetchable Safety.SeqFree Safety.SelectorPasses
  decide +kernel

def started (e : Entry) : Entry := { e with started := true }

/-- FP32 tensors of one row and two columns in the scratchpad of core 0: a destination and two sources. -/
def dstT : BitVec 256 := tensor 0x2000 11 1 2
def srcT : BitVec 256 := tensor 0x3000 11 1 2
def srcU : BitVec 256 := tensor 0x4000 11 1 2

/-- vec.add d1, d2, d3 with signal on semaphore 4. -/
def addWord : Word := word 3 0 (1 * 2 ^ 47 + 4 * 2 ^ 42 + 1 * 2 ^ 38 + 2 * 2 ^ 34 + 3 * 2 ^ 30)

/-- Core 0 has the three descriptors, and 31 instructions wait in its vector queue. -/
def dispatching : State := core0 running (fun c => { c with
  dregs := ((c.dregs.set 1 dstT).set 2 srcT).set 3 srcU
  lines := [lineAt 0 addWord]
  qVector := List.replicate 31 (entryFor addWord dstT srcT srcU) })

theorem witness_DispatchQueues : Safety.SeqFree dispatching 0 ∧ Safety.NextFetchable dispatching 0 ∧ dispatching.finds 0 addWord = true ∧
    wordLegal addWord = true ∧ queueOf addWord = some .vector ∧ predHolds (dispatching.cores[(0 : Fin 32)]) (Safety.entryOf dispatching 0 addWord).wsel = true ∧
    (dispatching.cores[(0 : Fin 32)]).occupied .vector < runAhead (dispatching.cores[(0 : Fin 32)]).runcfg .vector ∧
    Safety.OperandsOk dispatching 0 addWord := by
  unfold Safety.SeqFree Safety.NextFetchable Safety.OperandsOk
  decide +kernel

/-- A head that takes all 9 of semaphore 5, in the move, vector, row or comm queue. -/
def headEntry (cls : Nat) : Entry := { entryFor (word cls 0 0) dstT srcT srcU with wsel := wselMake 5 9 0 false }

def heads (q : QueueId) (cls : Nat) : State := core0 windowed (fun c => { c.setQueue q [headEntry cls] with sems := c.sems.set 5 9 })

theorem witness_EngineStartsAndCompletes_start : ∀ p ∈ [(QueueId.move, 1), (.vector, 3), (.row, 4), (.comm, 5)],
    (((heads p.1 p.2).cores[(0 : Fin 32)]).run = .running ∧ ((heads p.1 p.2).cores[(0 : Fin 32)]).stopping = none ∧
      ((heads p.1 p.2).cores[(0 : Fin 32)]).head p.1 = some (headEntry p.2) ∧ (heads p.1 p.2).canStart 0 p.1 (headEntry p.2) = true ∧
      wselCount (headEntry p.2).wsel = (heads p.1 p.2).semLeft 0 (QueueId.before p.1) (wselSem (headEntry p.2).wsel) ∧
      (heads p.1 p.2).clearOfStaging 1 (entryReads 0 (headEntry p.2) ++ entryWrites 0 (headEntry p.2)) = true ∧ (heads p.1 p.2).poison = [] ∧
      (∀ x ∈ ((heads p.1 p.2).cores[(0 : Fin 32)]).queue p.1, x.seq = (headEntry p.2).seq → x = headEntry p.2)) := by decide +kernel

/-- An executed instruction that signals semaphore 4, in each of the three queues. -/
def doneEntry (cls : Nat) : Entry := { started (entryFor (word cls 0 (1 * 2 ^ 47 + 4 * 2 ^ 42)) dstT srcT srcU) with executed := true }

def finished : State := core0 running (fun c => { c with
  sems := c.sems.set 4 65534
  qMove := [doneEntry 1]
  qVector := [doneEntry 3]
  qRow := [doneEntry 4] })

theorem witness_EngineStartsAndCompletes_complete : (finished.cores[(0 : Fin 32)]).stopping = none ∧
    ((finished.cores[(0 : Fin 32)]).queue .move).find? (fun x => x.started && x.executed) = some (doneEntry 1) ∧
    ((finished.cores[(0 : Fin 32)]).queue .vector).find? (fun x => x.started && x.executed) = some (doneEntry 3) ∧
    ((finished.cores[(0 : Fin 32)]).queue .row).find? (fun x => x.started && x.executed) = some (doneEntry 4) ∧ finished.drills = [] ∧
    wSe (doneEntry 3).word = true ∧ (finished.cores[(0 : Fin 32)]).sem (wSsem (doneEntry 3).word) + 1 ≤ 65535 ∧ (doneEntry 3).flags = 0 ∧
    wCls (doneEntry 3).word ≠ 2 := by decide +kernel

/-- No drill waits, so none is armed for any unit. -/
theorem witness_EngineStartsAndCompletes_drills : ∀ k, Safety.NoDrill finished k 0 := by
  intro k
  unfold Safety.NoDrill
  rfl

/-- Core 0 of job 1 waits for its first line; core 1 runs and fills a line. -/
def filling : State :=
  let s := core0 { windowed with jobs := [{ job1 with phase := .starting }] } (fun c => { c with run := .idle, lines := [], fills := [{ block := 0, since := 0 }] })
  s.setCore 1 { Core.atReset with run := .running, job := 1, lines := [], fills := [{ block := 512, since := 0 }] }

theorem witness_FillsAndBlockedCores_fill : Safety.memCanonical filling ∧ Safety.regsCanonical filling ∧ (filling.cores[(0 : Fin 32)]).fills = [{ block := 0, since := 0 }] ∧ filling.poison = [] ∧
    heldConditions (filling.cores[(0 : Fin 32)]) = [] ∧ (filling.cores[(0 : Fin 32)]).run = .idle ∧ (filling.cores[(0 : Fin 32)]).job ≠ 0 ∧
    (filling.cores[(1 : Fin 32)]).run = .running ∧ heldConditions (filling.cores[(1 : Fin 32)]) = [] ∧
    (filling.cores[(1 : Fin 32)]).fills = [{ block := 512, since := 0 }] := by decide +kernel

/-- Core 0 waits for COUNT 65,535 of semaphore 31; its wait timeout of 1 ms has passed by 1 ns. -/
def waiting : State :=
  { core0 running (fun c => { c with wait := .sem 31 65535 0 true 6, runcfg := BitVec.ofNat 64 (2 ^ 48 + 0x20820820) }) with now := 1000001 }

theorem witness_FillsAndBlockedCores_waits : (waiting.cores[(0 : Fin 32)]).run = .running ∧ (waiting.cores[(0 : Fin 32)]).stopping = none ∧
    (waiting.cores[(0 : Fin 32)]).inFlight = false ∧ QueueId.all.all (waiting.cores[(0 : Fin 32)]).deadQueue = true ∧
    (waiting.cores[(0 : Fin 32)]).deadSequencer = true ∧ (waiting.cores[(0 : Fin 32)]).wait = .sem 31 65535 0 true 6 ∧
    (waiting.cores[(0 : Fin 32)]).runcfg.field 63 48 ≠ 0 ∧ (waiting.cores[(0 : Fin 32)]).runcfg.field 63 48 * 1000000 < waiting.now - 0 ∧
    QueueId.all.all (fun q => (waiting.cores[(0 : Fin 32)]).queue q == []) = true ∧
    ((waiting.cores[(0 : Fin 32)]).blockedWaits (groupFull waiting 0)).filter (fun x =>
      decide ((waiting.cores[(0 : Fin 32)]).runcfg.field 63 48 * 1000000 < waiting.now - x.since)) ≠ [] := by decide +kernel

theorem witness_WellFormedDescriptorApart : Desc.fault (tensor 0x2000 4 2 2) 1 0 = none ∧ Desc.fault (tensor 0x2000 4 2 3) 1 0 = some 96 := by decide +kernel

/-! ### Witnesses: move, vector and row instructions -/

theorem worksOn_of {s : State} {n : Fin 32} {q : QueueId} {cls op : Nat} {e : Entry}
    (h : (s.cores[n]).working q cls op = some e ∧ entryEmpty e = false ∧ s.rivals n q = []) : Safety.WorksOn s n q cls op e := by
  refine ⟨h.1, h.2.1, ?_⟩
  unfold Safety.NoRace
  rw [h.2.2]
  exact ⟨fun _ _ => rfl, fun _ _ => rfl⟩

theorem apart_dstT : Safety.ElementsApart dstT := apart_of dstT (by decide +kernel)

/-- Core 0 works on an entry of the given class and opcode in a queue; its two sources hold 1, 2 and 3, 4. -/
def working (q : QueueId) (e : Entry) : State :=
  let s := ((((windowed.putElem srcT 0 0 0x3F800000).putElem srcT 0 1 0x40000000).putElem srcU 0 0 0x40400000).putElem srcU 0 1 0x40800000)
  core0 s (fun c => c.setQueue q [e])

/-- A move instruction from srcT to dstT, with cores 1 and 2 in the mask of mv.bcast. -/
def moveEntry (op : Nat) : Entry := started { entryFor (word 1 op 0) dstT srcT srcU with ra := 6 }

/-- An MX tensor of E4M3, one row of 32, its scale the next register. -/
def mxT (base : Nat) : BitVec 256 := tensor base 7 1 32 ||| BitVec.ofNat 256 (2 ^ 57)
def mxCopy : Entry :=
  { moveEntry 0 with d0 := { reg := 1, val := mxT 0x2000, next := tensor 0x2400 12 1 1 }, d1 := { reg := 3, val := mxT 0x3000, next := tensor 0x3400 12 1 1 } }

theorem witness_MoveResults : Safety.memCanonical (working .move (moveEntry 0)) ∧ Safety.WorksOn (working .move (moveEntry 0)) 0 .move 1 0 (moveEntry 0) ∧
    Safety.WorksOn (working .move (moveEntry 1)) 0 .move 1 1 (moveEntry 1) ∧ Safety.WorksOn (working .move (moveEntry 2)) 0 .move 1 2 (moveEntry 2) ∧
    Safety.WorksOn (working .move (moveEntry 4)) 0 .move 1 4 (moveEntry 4) ∧ Safety.WorksOn (working .move mxCopy) 0 .move 1 0 mxCopy ∧
    Desc.mxs dstT = false ∧ Desc.mxs mxCopy.d0.val = true ∧ bcastDests (moveEntry 4) = [bcastDest dstT 1, bcastDest dstT 2] :=
  ⟨by decide +kernel, worksOn_of (by decide +kernel), worksOn_of (by decide +kernel), worksOn_of (by decide +kernel), worksOn_of (by decide +kernel),
    worksOn_of (by decide +kernel), by decide +kernel, by decide +kernel, by decide +kernel⟩

theorem witness_MoveResults_apart : Safety.ElementsApart dstT ∧ Safety.NoSharedByte (Desc.ranges dstT) (Desc.ranges srcT) ∧
    Safety.ElementsApart mxCopy.d0.val ∧ Safety.ElementsApart mxCopy.d0.next ∧
    Safety.NoSharedByte (rangesOf [mxCopy.d0.val, mxCopy.d0.next]) (rangesOf [mxCopy.d1.val, mxCopy.d1.next]) ∧
    Safety.NoSharedByte (Desc.ranges mxCopy.d0.next) (Desc.ranges mxCopy.d0.val) ∧ Safety.ElementsApart (bcastDest dstT 1) ∧
    Safety.ElementsApart (bcastDest dstT 2) ∧ Safety.NoSharedByte (rangesOf [bcastDest dstT 1, bcastDest dstT 2]) (Desc.ranges srcT) ∧
    Safety.NoSharedByte (Desc.ranges (bcastDest dstT 1)) (Desc.ranges (bcastDest dstT 2)) :=
  ⟨apart_dstT, noShared_of (by decide +kernel), apart_of _ (by decide +kernel), apart_of _ (by decide +kernel), noShared_of (by decide +kernel),
    noShared_of (by decide +kernel), apart_of _ (by decide +kernel), apart_of _ (by decide +kernel), noShared_of (by decide +kernel),
    noShared_of (by decide +kernel)⟩

/-- mv.red into two words of each of the first two lines of the window, from a tensor of that shape, nothing applied yet, and with one line applied. -/
def redT : BitVec 256 := tensor hbmBase 11 2 2
def redEntry (k : Nat) : Entry := { started (entryFor (word 1 3 0) redT (tensor 0x3000 11 2 2) srcU) with progress := k }

theorem witness_MoveReduction : Safety.memCanonical (working .move (redEntry 0)) ∧ (working .move (redEntry 0)).poison = [] ∧
    ((working .move (redEntry 0)).cores[(0 : Fin 32)]).working .move 1 3 = some (redEntry 0) ∧ entryEmpty (redEntry 0) = false ∧
    Safety.NoDrill (working .move (redEntry 0)) 6 0 ∧ redFormats.contains (Desc.fmt redT) = true ∧
    (∀ i < Desc.rows redT, ∀ j < Desc.cols redT, 
      ((working .move (redEntry 0)).hbmPlace (Desc.elemBytes redT i j).1).any (fun p => !((working .move (redEntry 0)).reg (Csr.hbmAmo p.1)).bit p.2.1) = true) ∧
    ((working .move (redEntry 1)).cores[(0 : Fin 32)]).working .move 1 3 = some (redEntry 1) ∧
    (redLines redT).drop 0 = hbmBase / 64 :: [hbmBase / 64 + 1] ∧ (redLines redT).drop 1 = (hbmBase / 64 + 1) :: [] := by
  unfold Safety.NoDrill
  decide +kernel

theorem witness_MoveReduction_apart : Safety.ElementsApart redT ∧ Safety.NoSharedByte (Desc.ranges redT) (Desc.ranges (redEntry 0).d1.val) :=
  ⟨apart_of _ (by decide +kernel), noShared_of (by decide +kernel)⟩

/-- A vector instruction dstT, srcT, srcU, srcU. -/
def vecEntry (op : Nat) : Entry := { started (entryFor (word 3 op 0) dstT srcT srcU) with d3 := named 4 srcU }

theorem witness_VectorElementwise : (∀ op ∈ [0x0, 0x1, 0x2, 0x3, 0x4, 0x5, 0x6, 0x7, 0x8, 0x9, 0xA, 0x10, 0x11, 0x12, 0x13, 0x14, 0x15, 0x16],
    (((working .vector (vecEntry op)).cores[(0 : Fin 32)]).working .vector 3 op = some (vecEntry op) ∧ entryEmpty (vecEntry op) = false ∧
      (working .vector (vecEntry op)).rivals 0 .vector = [] ∧
      (∀ p ∈ Desc.ranges dstT, ∀ q ∈ rangesOf (sourceDescs (vecEntry op)), p.1 + p.2 ≤ q.1 ∨ q.1 + q.2 ≤ p.1))) ∧
    Safety.memCanonical (working .vector (vecEntry 0)) := by decide +kernel

/-- The same written in place: the destination is the first source. -/
theorem witness_VectorElementwise_in_place : Safety.NoSharedByte (Desc.ranges srcT)
    (rangesOf ((sourceDescs { vecEntry 0 with d0 := named 2 srcT }).filter (fun d => !Desc.identical srcT d))) := noShared_of (by decide +kernel)

/-- An activation that saves into a fourth tensor (SAVE is bit 16). -/
def saveEntry (op : Nat) : Entry := { vecEntry op with word := word 3 op (2 ^ 16), d3 := named 4 (tensor 0x5000 11 1 2) }

theorem witness_VectorActivations : ∀ op ∈ [0x20, 0x21, 0x22, 0x23, 0x24, 0x25, 0x26, 0x27, 0x28],
    (((working .vector (saveEntry op)).cores[(0 : Fin 32)]).working .vector 3 op = some (saveEntry op) ∧ entryEmpty (saveEntry op) = false ∧
      (working .vector (saveEntry op)).rivals 0 .vector = [] ∧
      (saveEntry op).word.bit 16 = true ∧
      (∀ p ∈ Desc.ranges dstT, ∀ q ∈ rangesOf (sourceDescs (saveEntry op)), p.1 + p.2 ≤ q.1 ∨ q.1 + q.2 ≤ p.1) ∧
      (∀ p ∈ Desc.ranges (saveEntry op).d3.val, ∀ q ∈ rangesOf (sourceDescs (saveEntry op)) ++ Desc.ranges dstT, p.1 + p.2 ≤ q.1 ∨ q.1 + q.2 ≤ p.1)) := by
  decide +kernel

theorem witness_VectorDerivatives : ∀ op ∈ [0x30, 0x31, 0x32, 0x33, 0x34, 0x35, 0x36, 0x37, 0x38],
    (((working .vector (vecEntry op)).cores[(0 : Fin 32)]).working .vector 3 op = some (vecEntry op) ∧ entryEmpty (vecEntry op) = false ∧
      (working .vector (vecEntry op)).rivals 0 .vector = [] ∧
      (∀ p ∈ Desc.ranges dstT, ∀ q ∈ rangesOf (sourceDescs (vecEntry op)), p.1 + p.2 ≤ q.1 ∨ q.1 + q.2 ≤ p.1)) := by decide +kernel

/-- A reduction of the row of srcT into one element, and of its columns (bit 15) into a row of two. -/
def reduceEntry (op : Nat) (columns : Bool) : Entry :=
  started (entryFor (word 3 op (if columns then 2 ^ 15 else 0)) (if columns then dstT else tensor 0x2000 11 1 1) srcT srcU)

theorem witness_VectorReductions : ∀ op ∈ [0x40, 0x41, 0x42, 0x43], ∀ columns ∈ [false, true],
    (((working .vector (reduceEntry op columns)).cores[(0 : Fin 32)]).working .vector 3 op = some (reduceEntry op columns) ∧
      entryEmpty (reduceEntry op columns) = false ∧ (working .vector (reduceEntry op columns)).rivals 0 .vector = [] ∧
      (∀ p ∈ Desc.ranges (reduceEntry op columns).d0.val, ∀ q ∈ Desc.ranges srcT, p.1 + p.2 ≤ q.1 ∨ q.1 + q.2 ≤ p.1)) := by decide +kernel

/-- A row instruction dstT, srcT, srcU on the last record of the statistics memory. -/
def rowEntry (op : Nat) : Entry := started (entryFor (word 4 op 65535) dstT srcT srcU)

theorem witness_RowResults : ∀ op ∈ [0, 1, 3, 5, 6, 8, 9, 0xA],
    (((working .row (rowEntry op)).cores[(0 : Fin 32)]).working .row 4 op = some (rowEntry op) ∧ entryEmpty (rowEntry op) = false ∧
      (working .row (rowEntry op)).rivals 0 .row = [] ∧
      (∀ p ∈ Desc.ranges dstT, ∀ q ∈ rangesOf (sourceDescs (rowEntry op)), p.1 + p.2 ≤ q.1 ∨ q.1 + q.2 ≤ p.1) ∧
      (∀ p ∈ Desc.ranges dstT, ∀ q ∈ Safety.rowRecordBytes 0 (rowEntry op), p.1 + p.2 ≤ q.1 ∨ q.1 + q.2 ≤ p.1)) := by decide +kernel

/-- row.osmx with its factor in a column of its own. -/
def osmxEntry : Entry := { rowEntry 2 with d2 := named 5 (tensor 0x6000 11 1 1) }

/-- row.merge of one received record, without factors and, naming d1 and d5, with them. -/
def mergeEntry (factors : Bool) : Entry :=
  { started (entryFor (word 4 4 (if factors then 1 * 2 ^ 38 + 5 * 2 ^ 30 else 0)) (tensor 0x2000 11 1 1) (tensor 0x3000 3 1 1) (tensor 0x6000 11 1 1)) with ra := 0 }

theorem witness_RowMerging : Safety.memCanonical (working .row osmxEntry) ∧ Safety.WorksOn (working .row osmxEntry) 0 .row 4 2 osmxEntry ∧
    Safety.WorksOn (working .row (mergeEntry false)) 0 .row 4 4 (mergeEntry false) ∧ mergeWritesFactors (mergeEntry false) = false ∧
    Safety.WorksOn (working .row (mergeEntry true)) 0 .row 4 4 (mergeEntry true) ∧ mergeWritesFactors (mergeEntry true) = true :=
  ⟨by decide +kernel, worksOn_of (by decide +kernel), worksOn_of (by decide +kernel), by decide +kernel, worksOn_of (by decide +kernel), by decide +kernel⟩

theorem witness_RowMerging_apart :
    Safety.ElementsApart osmxEntry.d0.val ∧ Safety.ElementsApart osmxEntry.d2.val ∧
    Safety.NoSharedByte (Desc.ranges osmxEntry.d0.val) (rangesOf (sourceDescs osmxEntry)) ∧
    Safety.NoSharedByte (Desc.ranges osmxEntry.d2.val) (rangesOf (sourceDescs osmxEntry) ++ Desc.ranges osmxEntry.d0.val) ∧
    Safety.NoSharedByte (rangesOf [osmxEntry.d0.val, osmxEntry.d2.val]) (Safety.rowRecordBytes 0 osmxEntry) ∧
    Safety.ElementsApart (mergeEntry true).d0.val ∧ Safety.ElementsApart (mergeEntry true).d2.val ∧
    Safety.NoSharedByte (Desc.ranges (mergeEntry true).d0.val) (Desc.ranges (mergeEntry true).d1.val) ∧
    Safety.NoSharedByte (Desc.ranges (mergeEntry true).d2.val) (Desc.ranges (mergeEntry true).d1.val ++ Desc.ranges (mergeEntry true).d0.val) ∧
    Safety.NoSharedByte (rangesOf [(mergeEntry true).d0.val, (mergeEntry true).d2.val]) (Safety.rowRecordBytes 0 (mergeEntry true)) :=
  ⟨apart_of _ (by decide +kernel), apart_of _ (by decide +kernel), noShared_of (by decide +kernel), noShared_of (by decide +kernel),
    noShared_of (by decide +kernel), apart_of _ (by decide +kernel), apart_of _ (by decide +kernel), noShared_of (by decide +kernel),
    noShared_of (by decide +kernel), noShared_of (by decide +kernel)⟩

/-! ### Witnesses: the matrix engine -/

/-- The state after the meanings of commands, as long as each goes on. -/
def after (s : State) : List (State → Host.Outcome State Fault Refusal) → State
  | [] => s
  | c :: rest => match c s with
    | .next t => after t rest
    | _ => s

/-- mm.issue of a product of one output in E4M3, two reduction indices; the drain of bank 0 to an FP32 element, signalling semaphore 4 when checked. -/
def opA : BitVec 256 := tensor 0x3000 7 1 2
def opB : BitVec 256 := tensor 0x4000 7 2 1
def out1 : BitVec 256 := tensor 0x2000 11 1 1
def issueEntry : Entry := { entryFor (word 2 0 0) opA opB 0 with seq := 7 }
def drainEntry (sig : Nat) : Entry := { entryFor (word 2 1 (sig * (2 ^ 26 + 4 * 2 ^ 21))) out1 0 0 with seq := 8 }

/-- The operands hold 1, 1 and 1, 2; the issue waits in ctx0. -/
def issuing : State :=
  let s := (((windowed.putElem opA 0 0 0x38).putElem opA 0 1 0x38).putElem opB 0 0 0x38).putElem opB 1 0 0x40
  core0 s (fun c => { c with qCtx0 := [issueEntry], sems := c.sems.set 4 65534 })

/-- The product is held; the drain waits in ctx0. `us`: faults that strike the engine. -/
def held (us : List Upset) (sig : Nat) : State :=
  core0 (after issuing [execInstructionStart 0 .ctx0 .none, execMmIssue 0 0, execInstructionComplete 0 .ctx0 [] 0, execIssueAccumulated 0 false us])
    (fun c => { c with qCtx0 := [drainEntry sig] })

/-- The drain has written its output, and its bank has been read. -/
def drained (us : List Upset) (sig : Nat) : State :=
  after (held us sig) [execInstructionStart 0 .ctx0 .none, execMmDrain 0, execDrainBankRead 0, execInstructionComplete 0 .ctx0 [] 0]

theorem witness_MatrixStart : (issuing.cores[(0 : Fin 32)]).run = .running ∧ (issuing.cores[(0 : Fin 32)]).stopping = none ∧
    (issuing.cores[(0 : Fin 32)]).head .ctx0 = some issueEntry ∧ issuing.canStart 0 .ctx0 issueEntry = true ∧
    wselCount issueEntry.wsel ≤ issuing.semLeft 0 (QueueId.before .ctx0) (wselSem issueEntry.wsel) ∧
    issuing.clearOfStaging 1 (entryReads 0 issueEntry ++ entryWrites 0 issueEntry) = true ∧ issuing.poison = [] ∧
    (∀ x ∈ (issuing.cores[(0 : Fin 32)]).queue .ctx0, x.seq = issueEntry.seq → x = issueEntry) ∧
    wOp issueEntry.word = 0 ∧ issueStartBreach (issuing.cores[(0 : Fin 32)]) issueEntry = false ∧ issuing.riseHeld = false := by decide +kernel

theorem witness_MatrixStart_drain : ((held [] 1).cores[(0 : Fin 32)]).run = .running ∧ ((held [] 1).cores[(0 : Fin 32)]).stopping = none ∧
    ((held [] 1).cores[(0 : Fin 32)]).head .ctx0 = some (drainEntry 1) ∧ (held [] 1).canStart 0 .ctx0 (drainEntry 1) = true ∧
    (held [] 1).clearOfStaging 1 (entryReads 0 (drainEntry 1) ++ entryWrites 0 (drainEntry 1)) = true ∧ (held [] 1).poison = [] ∧
    wOp (drainEntry 1).word ≠ 0 ∧ drainStartBreach ((held [] 1).cores[(0 : Fin 32)]) (drainEntry 1) = false ∧
    (∀ x ∈ ((held [] 1).cores[(0 : Fin 32)]).queue .ctx0, x.seq = (drainEntry 1).seq → x = drainEntry 1) := by decide +kernel

/-- The issue has started. -/
def issued : State := after issuing [execInstructionStart 0 .ctx0 .none]

theorem witness_MatrixIssue : ((issued.cores[(0 : Fin 32)]).matrixWorking 0).isSome = true ∧
    (∀ p, (issued.cores[(0 : Fin 32)]).matrixWorking 0 = some p → issueEmpty p.2 = false ∧ issueInit p.2.word = 0 ∧ issued.rivals 0 p.1 = [] ∧
      (((issued.cores[(0 : Fin 32)]).bank (issueBank p.2.word)).load none).cells.length = 1) := by
  refine ⟨by decide +kernel, ?_⟩
  intro p hp
  have e : (issued.cores[(0 : Fin 32)]).matrixWorking 0 = some (.ctx0, { issueEntry with started := true }) := by decide +kernel
  rw [e] at hp
  cases hp
  decide +kernel

theorem witness_ExactCellSum : AccMode.exactFloat = .exactFloat ∨ AccMode.exactFloat = .exactInt := Or.inl rfl

theorem witness_MatrixDrain_accumulated :
    (let s := after issued [execMmIssue 0 0, execInstructionComplete 0 .ctx0 [] 0]
     ((s.cores[(0 : Fin 32)]).bank false).phase = .accum ∧
     (s.cores[(0 : Fin 32)]).matrixEntries.all (fun e => !(e.started && wOp e.word == 0 && issueBank e.word == false)) = true) := by decide +kernel

theorem witness_MatrixDrain_drain :
    (let s := after (held [] 1) [execInstructionStart 0 .ctx0 .none]
     ((s.cores[(0 : Fin 32)]).matrixWorking 1).any (fun p => ((s.cores[(0 : Fin 32)]).drainOf p.2.seq).any (fun d => d.image.m != 0 && d.image.n != 0)) = true ∧
     (((s.cores[(0 : Fin 32)]).matrixWorking 1).map (fun p => s.rivals 0 p.1)) = some [] ∧
     Safety.memCanonical s ∧ (s.cores[(0 : Fin 32)]).drains.any (fun d => !d.read) = true) := by decide +kernel

theorem witness_MatrixDrain_apart : Safety.ElementsApart (drainEntry 1).d0.val := apart_of _ (by decide +kernel)

theorem witness_MatrixDrain_verdict :
    (let s := drained [] 1
     ((s.cores[(0 : Fin 32)]).drains.find? (fun d => d.phase == .open && d.read && (s.cores[(0 : Fin 32)]).drainDone d)).any (fun d =>
       d.image.verdict 0 d.bank == none && d.entry.word.bit 26 && (s.cores[(0 : Fin 32)]).drainLeft d && decide ((s.cores[(0 : Fin 32)]).sem (d.entry.word.field 25 21) + 1 ≤ 65535)) = true ∧
     (s.cores[(0 : Fin 32)]).stopping = none ∧ s.drills = []) := by decide +kernel

theorem witness_MatrixDrain_early :
    (let s := after (held [] 1) [execInstructionStart 0 .ctx0 .none, execMmDrain 0, execDrainBankRead 0]
     ((s.cores[(0 : Fin 32)]).drains.find? (fun d => d.phase == .open && d.read && (s.cores[(0 : Fin 32)]).drainDone d)).any (fun d =>
       d.image.verdict 0 d.bank == none && !(s.cores[(0 : Fin 32)]).drainLeft d) = true ∧ s.drills = []) := by decide +kernel

theorem witness_MatrixDrain_failure :
    (let s := drained [.cell 0 0 0 40] 0
     ((s.cores[(0 : Fin 32)]).drains.find? (fun d => d.phase == .open && d.read && (s.cores[(0 : Fin 32)]).drainDone d)).any (fun d =>
       (d.image.verdict 0 d.bank).isSome) = true ∧ Safety.regsCanonical s ∧ s.fld Csr.chkStat 47 40 < 255) := by decide +kernel

/-- The verdict has failed: the drain waits for its retry; then the log has run again. -/
def failed : State := after (drained [.cell 0 0 0 40] 0) [execDrainVerdict 0]
def retried : State := after failed [execMatrixRetry 0 [] .none]

theorem witness_MatrixRetry : ((failed.cores[(0 : Fin 32)]).drains.find? (fun d => d.phase == .retryWaiting)).any (fun d =>
      (failed.cores[(0 : Fin 32)]).drainDone d && (match rerun failed 0 Bank.vacant d.image.log with | .ok _ => true | .error _ => false)) = true ∧
    (failed.cores[(0 : Fin 32)]).arraysBusy = false ∧ (failed.cores[(0 : Fin 32)]).drains.any (fun x => x.phase == .retryDrained || !x.read) = false ∧
    failed.poison = [] := by decide +kernel

theorem witness_MatrixRetry_verdict : ((retried.cores[(0 : Fin 32)]).drains.find? (fun d => d.phase == .retryDrained)).any (fun d =>
      d.image.verdict 0 d.bank == none && !d.entry.word.bit 26 &&
      (let f := Safety.flagsOf d.entry.d0.val (drainElement d.image d.entry)
       numericConditions (numstRaise (retried.cores[(0 : Fin 32)]).numst f) f == [])) = true ∧ Safety.memCanonical retried ∧
    (retried.cores[(0 : Fin 32)]).stopping = none := by decide +kernel

/-- The arrays of core 0 in a state since time 0; a window of one unit (KW = 1) has just passed. -/
def arraysIn (a : ArrayState) : State := { core0 running (fun c => { c with arrays := a, mmcfg := 1 }) with now := 100 }

theorem witness_ArrayClock : ((arraysIn .ramp).cores[(0 : Fin 32)]).arrays = .ramp ∧ ((arraysIn .ramp).cores[(0 : Fin 32)]).dutyNow 100 = 0 ∧
    ((core0 (arraysIn .rise) (fun c => { c with duty := 90 })).cores[(0 : Fin 32)]).arrays = .rise ∧
    ((core0 (arraysIn .rise) (fun c => { c with duty := 90 })).cores[(0 : Fin 32)]).dutyNow 100 = 100 ∧
    ((arraysIn .rise).cores[(0 : Fin 32)]).dutyNow 100 ≠ 0 ∧ ((arraysIn .rise).cores[(0 : Fin 32)]).dutyNow 100 ≠ 100 ∧
    ((arraysIn .warm).cores[(0 : Fin 32)]).arrays = .warm ∧ ((arraysIn .warm).cores[(0 : Fin 32)]).mmcfg.field 7 0 ≤ 200 ∧
    ((arraysIn .warm).cores[(0 : Fin 32)]).mmcfg.field 7 0 * 100 ≤ (arraysIn .warm).now - ((arraysIn .warm).cores[(0 : Fin 32)]).arraysSince := by
  decide +kernel

/-! ### Witnesses: fabric -/

/-- A grid of two chips in one row; this chip is 0, and its path 0 (offset 1) to chip 1 is UP. -/
def grid : State :=
  (windowed.setReg Csr.fabId (Word.placeBit true 63 ||| Word.place 1 7 48 ||| Word.place 2 7 40)).setReg (Csr.fabPath 0) (Word.place pathUp 4 60 ||| 1)

/-- A comm instruction of core 0 on srcT with the global address 0x3000 of chip 1. -/
def commEntry (op : Nat) : Entry := { started (entryFor (word 5 op 0) srcT 0 0) with ra := BitVec.ofNat 64 (1 * 2 ^ 48 + 0x3000), rb := 5 }

def sending (op : Nat) : State := core0 grid (fun c => { c with qComm := [commEntry op] })

theorem witness_MessageStarts : ∀ op ∈ [0, 1, 2, 3, 4], ((sending op).cores[(0 : Fin 32)]).commWorking op = some (commEntry op) ∧
    (sending op).targets (commEntry op).ra = [1] ∧ (1 : Nat) ≠ (sending op).chip ∧ ((sending op).reg Csr.fabId).bit 63 = true ∧
    (sending op).onGrid 1 = true ∧ (sending op).routeTo 1 ((commEntry op).word.bit 26) = some [1] ∧
    (sending op).choosePath 1 (decide (16 ≤ (0 : Fin 32).val)) 0 = some 0 ∧ (sending op).pathTakes 0 = true := by decide +kernel

/-- A message of job 1 from core 4 of chip 1 that begins its stream, and one in turn for a stream that the receiver holds. -/
def newMsg : Msg :=
  { src := 1, core := 4, svc := false, tc := 1, rc := false, half := false, isNew := true, mc := false, msgid := 6, job := 1, cack := 0, crc := 5 }
def nextMsg : Msg := { newMsg with isNew := false }

/-- The same with the CRC-64 of its data and target. -/
def goodMsg (data : List Byte) (desc : BitVec 256) : Msg := { nextMsg with crc := transferCrc data desc }

/-- Job 1 has receive ring 3 in its window, 2 slots of 64 bytes; the stream of chip 1 expects message 6. -/
def receiving : State :=
  { windowed with
    jobs := [{ job1 with rings := [{ ring := 3, base := hbmBase, slog := 6, clog := 1, coreRank := 0, xsem := 2 }] }]
    inStreams := [{ key := streamOf newMsg, half := false, expected := 6, begun := 5, olds := [], resendDrawn := true, drawnAt := 0, last := 0 }]
    now := 2000000000 }

/-- The scratchpad that srcT lies in is being cleared. -/
def clearingTarget : State := core0 receiving (fun c => { c with clearing := true })

theorem witness_MessagesCarriedOut : newMsg.crc ≠ transferCrc [1, 2] srcT ∧ receiving.drills = [] ∧
    receiving.job? newMsg.job = some (receiving.jobs.headD job1) ∧
    (∀ m ∈ [goodMsg [1, 2] srcT, goodMsg [] srcT, goodMsg (amoBytes redT 0 1 0) redT, goodMsg [1, 2] 0, goodMsg [] ((0x00F#48).zeroExtend 256)],
      turnOf (receiving.inStreams.find? (fun y => y.key == streamOf m && y.half == m.half)) m = .now ∧ receiving.halfStreams m.half < 16384 ∧
      receiving.job? m.job = some (receiving.jobs.headD job1)) ∧
    turnOf (windowed.inStreams.find? (fun y => y.key == streamOf newMsg && y.half == newMsg.half)) newMsg = .now ∧
    Safety.memCanonical receiving ∧ receiving.poison = [] ∧
    targetStatus receiving 1 srcT = 0 ∧ targetClearing receiving srcT = false ∧ Desc.empty srcT = false ∧
    receiving.clearOfStaging 1 (Desc.ranges srcT) = true ∧ targetStatus clearingTarget 1 srcT = 0 ∧ targetClearing clearingTarget srcT = true ∧
    clearingTarget.heldPuts = [] ∧
    (let a := Desc.base redT
     let k := fmtBits (Desc.fmt redT) / 8
     scratchOwner a = none ∧ hbmBase ≤ a ∧ receiving.hbmHeld 1 a k = true ∧ a % k = 0 ∧ receiving.hbmPlace a = some (0, 0, 0) ∧
     (receiving.reg (Csr.hbmAmo 0)).bit 0 = false) ∧
    (((receiving.jobs.headD job1).ring? 3).any (fun r => !(receiving.readNat r.base 8 - receiving.readNat (r.base + 8) 8 == 2 ^ r.clog &&
      decide (receiving.readNat (r.base + 8) 8 ≤ receiving.readNat r.base 8)) && decide (32 + 32 ≤ 2 ^ r.slog))) = true ∧
    (0x00F#48).toNat / 256 % 32 = (0 : Fin 32).val ∧ receiving.corePresent 0 = true ∧ (receiving.cores[(0 : Fin 32)]).run = .running ∧
    (receiving.cores[(0 : Fin 32)]).job = newMsg.job ∧
    (receiving.cores[(0 : Fin 32)]).sem (32 + (0x00F#48).toNat % 16) + (65535#32).toNat ≤ 65535 := by decide +kernel

theorem witness_MessagesCarriedOut_apart : Safety.ElementsApart srcT := apart_of _ (by decide +kernel)

/-- A message of core 0 that is outstanding to chip 1 and has one response to come. -/
def outMsg (mop : Nat) (retry : Bool) : OutMsg :=
  { key := { core := 0, svc := false, peer := 1, tc := 1, rc := false }, msgid := 9, mop := mop, isNew := true, mc := false, seq := 7, job := 1
    addr := BitVec.ofNat 64 (1 * 2 ^ 48 + 0x3000), desc := srcT, aop := 0, ring := 3, arg := 0x5000, data := [1, 2], since := 0, route := [1]
    path := some 0, hops := [1], retry := retry, retryAt := 0, crcFailed := false, drill := false, coll := none }

def answerTo : RespTo := { peer := 1, core := 0, svc := false, tc := 1, rc := false, msgid := 9 }

/-- The message is outstanding; its instruction signals semaphore 4, which is at 65,534. One second has passed. -/
def outstanding (mop : Nat) (retry : Bool) : State :=
  { core0 grid (fun c => { c with
      sems := c.sems.set 4 65534
      qComm := [{ started (entryFor (word 5 0 (2 ^ 47 + 4 * 2 ^ 42)) srcT 0 0) with progress := 1 }] }) with outMsgs := [outMsg mop retry], now := 1000000000 }

theorem witness_MessageCompletes : ∀ mop ∈ [1, 2, 3, 4, 5], (outstanding mop false).outFor answerTo = some (outMsg mop false) ∧
    (outMsg mop false).key.svc = false ∧ (outMsg mop false).crcFailed = false ∧ (outMsg mop false).coll = none ∧
    (outstanding mop false).drillArmed 5 0 false = false ∧
    ((outstanding mop false).cores[(0 : Fin 32)]).qComm.any (fun e => e.seq == (outMsg mop false).seq && !e.failed && e.flags == 0 && wCls e.word == 5 && wSe e.word) = true ∧
    (∀ x ∈ (outstanding mop false).outMsgs, x.key.core = 0 → x.seq = 7 → x.key = (outMsg mop false).key ∧ x.msgid = (outMsg mop false).msgid) ∧
    ((outstanding mop false).cores[(0 : Fin 32)]).stopping = none ∧ ((outstanding mop false).cores[(0 : Fin 32)]).sem 4 + 1 ≤ 65535 ∧
    Safety.memCanonical (outstanding mop false) ∧ Desc.empty (outMsg mop false).desc = false := by decide +kernel

theorem witness_MessageCompletes_apart : Safety.ElementsApart (Desc.withFld (outMsg 2 false).desc 0 48 (outMsg 2 false).arg) := apart_of _ (by decide +kernel)

theorem witness_MessageRecovery : (outstanding 1 true).outFor answerTo = some (outMsg 1 true) ∧ (outMsg 1 true).key.peer ≠ (outstanding 1 true).chip ∧
    (outstanding 1 true).routeTo 1 false = some [1] ∧ (outstanding 1 true).choosePath 1 (outMsg 1 true).key.half 0 = some 0 ∧ (outMsg 1 true).crcFailed = false ∧
    (outstanding 1 true).pathTakes 0 = true ∧ (outstanding 1 true).drillArmed 5 0 false = false ∧ transferCrc [] 0 ≠ 5 ∧
    (outMsg 1 true).retryAt + 2000 ≤ (outstanding 1 true).now ∧
    (outstanding 1 true).fromMsgid (outMsg 1 true).key 9 = [outMsg 1 true] ∧ (outMsg 1 true).retry = true ∧
    max 1 ((outstanding 1 true).fld Csr.fabCtl 47 32) * 1000000 ≤ (outstanding 1 true).now - (outMsg 1 true).since := by decide +kernel

theorem witness_MessageRecovery_stream :
    (receiving.inStreams.any (fun x => x.key == { core := 4, svc := false, peer := 1, tc := 1, rc := false } && x.half == false &&
      decide (x.drawnAt + 100000 ≤ receiving.now) && decide (x.last + 2000000000 ≤ receiving.now))) = true ∧ receiving.heldPuts = [] := by decide +kernel

/-- A header with 1 payload byte, LSEQ 0 and destination chip 0 or 1, and control for a second path, which there is not. -/
def goodHdr (chip : Nat) : BitVec 128 := BitVec.ofNat 128 (2 ^ 120 + 2 ^ 79 + chip)

/-- Flits sealed under the secret of an idle link: good, with a bad CRC, and with a bad tag. -/
def goodFlit (chip : Nat) : FlitRef := sealFlit 0 0 7 (goodHdr chip) (List.replicate 224 0)
def badCrc : FlitRef := { goodFlit 0 with crc := ~~~(goodFlit 0).crc }
def badTag : FlitRef :=
  let f : FlitRef := { goodFlit 0 with tag := ~~~(goodFlit 0).tag }
  { f with crc := crc32c (flitBytes f) }

/-- Path 0 has one flit not acknowledged, resent so often without progress; the epoch has had its 2³² flits, and 2¹⁶ have come since the flip of the other. -/
def linked (resends : Nat) : State :=
  { grid with links := grid.links.set 0 { Link.idle with
      unacked := [{ hdr := goodHdr 1, data := List.replicate 224 0, tag := 0, crc := 0 }], resends := resends, epochSent := 2 ^ 32
      rxPrevKey := true, rxSince := 2 ^ 16, rxEpoch := 1 } }

theorem witness_LinkLayer_flits (chip : Nat) : flitCrcGood (goodFlit chip) = true ∧ flitTagGood (goodFlit chip) 0 0 7 = true ∧ flitCrcGood badCrc = false ∧
    flitCrcGood badTag = true ∧ flitTagGood badTag 0 0 7 = false := by
  refine ⟨by simp [flitCrcGood, goodFlit, sealFlit, flitBytes], by simp [flitTagGood, goodFlit, sealFlit],
    by simp [flitCrcGood, badCrc, goodFlit, sealFlit, flitBytes], by simp [flitCrcGood, badTag, flitBytes],
    by simp [flitTagGood, badTag, goodFlit, sealFlit]⟩

theorem witness_LinkLayer : Safety.regsCanonical grid ∧ grid.drills = [] ∧ grid.pathReceives 0 = true ∧
    (∀ chip ∈ [0, 1], hdrFld (goodHdr chip) 120 8 ≠ 0 ∧ BitVec.ofNat 16 (hdrFld (goodHdr chip) 80 16) = (grid.links[(0 : Fin 128)]).rxExpected ∧
      (grid.links[(0 : Fin 128)]).epochOf (goodHdr chip) = 0) ∧
    (grid.links[(0 : Fin 128)]).rxSecret = 0 ∧ (grid.links[(0 : Fin 128)]).tagTimes = [] ∧ hdrFld (goodHdr 0) 0 16 = grid.chip ∧
    (grid.controlled 0)[hdrFld (goodHdr 0) 79 1]? = none ∧
    (∀ k : Fin 128, (grid.links[k]).rxBuffer = [] ∧ (grid.links[k]).rxEscape = []) ∧ grid.companionPath 1 = none ∧ grid.companionPath 0 = some 0 ∧
    grid.pathState 0 = pathUp := by decide +kernel

theorem witness_LinkLayer_sender : ∀ n ∈ [15, 16], (linked n).pathUsable 0 = true ∧ ((linked n).links[(0 : Fin 128)]).unacked ≠ [] ∧
    ((linked n).links[(0 : Fin 128)]).resends = n ∧ Safety.regsCanonical (linked n) ∧ (linked n).drills = [] ∧ (linked n).pathState 0 = pathUp ∧
    2 ^ 32 ≤ ((linked n).links[(0 : Fin 128)]).epochSent ∧ ((linked n).links[(0 : Fin 128)]).rxPrevKey = true ∧
    2 ^ 16 ≤ ((linked n).links[(0 : Fin 128)]).rxSince := by decide +kernel

/-- One CRC failure of path 0 within the hour, and two; with a flit not acknowledged. -/
def crcOnce : State := { grid with crcTimes := [(0, 0)], now := 3599999999999 }
def crcTwice : State := { grid with crcTimes := [(0, 5), (0, 0)], now := 3599999999999 }
def crcBusy : State := { linked 0 with crcTimes := [(0, 0)], now := 3599999999999 }

/-- The only usable path to chip 1 has gone DOWN and path 2 (offset 3) has come UP: the outstanding message has lost its path. -/
def rerouted : State :=
  ((outstanding 1 false).setReg (Csr.fabPath 0) (Word.place pathDownSt 4 60 ||| 1)).setReg (Csr.fabPath 2) (Word.place pathUp 4 60 ||| 3)

theorem witness_PathsAndDiscovery_paths : Safety.regsCanonical grid ∧ grid.pathState 0 = pathUp ∧
    (crcOnce.crcTimes.filter (fun p => p.1 == 0 && decide (crcOnce.now < p.2 + 3600000000000))).length = 1 ∧ crcOnce.pathTakes 0 = true ∧
    (crcOnce.links[(0 : Fin 128)]).drained = true ∧ (crcBusy.links[(0 : Fin 128)]).drained = false ∧ crcBusy.pathTakes 0 = true ∧
    (crcTwice.crcTimes.filter (fun p => p.1 == 0 && decide (crcTwice.now < p.2 + 3600000000000))).length = 2 ∧ (grid.reg Csr.fabId).bit 63 = true ∧
    grid.peerAt false (grid.fld (Csr.fabPath 0) 7 0) = 1 ∧ (grid.links[(0 : Fin 128)]).change = none ∧ grid.heldBySwap 0 = false ∧
    grid.leavesWith 1 1 0 = true := by decide +kernel

theorem witness_PathsAndDiscovery_routes : Safety.regsCanonical rerouted ∧ rerouted.outMsgs = [outMsg 1 false] ∧
    rerouted.routeLost (outMsg 1 false) = true ∧
    (let u := rerouted.raise 0x32 []
     (outMsg 1 false).key.peer ≠ u.chip ∧ u.routeTo 1 false = some [1] ∧ u.choosePath 1 (outMsg 1 false).key.half 0 = some 2 ∧ u.pathTakes 2 = true) := by
  decide +kernel

/-- A row of 65 chips, this one the first; port X0 has its eight lanes locked. -/
def wide : State :=
  let s := State.reset.setReg Csr.fabId (Word.placeBit true 63 ||| Word.place 1 7 48 ||| Word.place 65 7 40)
  (List.range 8).foldl (fun t k => t.setReg (Csr.optLane k) (Word.place laneLocked 4 60)) s

/-- What port X0 hears where the wiring plan has it on plane 0: the chips 1 to 8 before it, and its own reach the 8 behind it. -/
def heardAt (k : Nat) : PathFinding :=
  { heard := some (BitVec.ofNat 16 (64 - k)), reached := some (BitVec.ofNat 16 (k + 1)), idHash := 0, genuine := true, fpl := 2 }
def heardAll : Vector PathFinding 8 := Vector.ofFn (fun k => heardAt k.val)

theorem witness_PathsAndDiscovery_discovery : Safety.regsCanonical wide ∧ (wide.reg Csr.fabId).bit 63 = true ∧ wide.portLocked 0 = true ∧
    portPresent wide.part.variant 0 = true ∧
    (∀ k : Fin 8, wide.pathState k.val ≠ pathUp ∧ wide.laneState k.val ≠ laneDark ∧ (8 * 0 + k.val + 1) % wide.dimSize false ≠ 0 ∧
      k.val ∉ wide.heldDown ∧ (heardAll[k]).heard.isSome = true ∧ (heardAll[k]).reached.isSome = true ∧ wide.fitsAt false 0 k.val heardAll[k] = true ∧
      wide.identityFits (wide.planeReaches false 0 k.val) heardAll[k] = true ∧ wide.fld Csr.fabLvl 7 0 ≤ (heardAll[k]).fpl + 2 ∧
      (heardAll[k]).fpl ≤ wide.fld Csr.fabLvl 7 0 + 2) := by decide +kernel

/-- Path 0 was MISSING at offset 1; chip 1 is now heard. -/
def missing : State := wide.setReg (Csr.fabPath 0) (Word.place pathMissing 4 60 ||| 1)

theorem witness_PathsAndDiscovery_missing : missing.pathState 0 = pathMissing ∧ Safety.regsCanonical missing ∧ missing.laneState 0 ≠ laneDark ∧ (missing.reg Csr.fabId).bit 63 = true ∧ 0 ∉ missing.heldDown ∧
    (missing.fld (Csr.fabPath 0) 7 0 - 1) / 8 = 0 ∧ missing.fitsAt false 0 0 (heardAt 0) = true ∧
    missing.identityFits (missing.planeReaches false 0 0) (heardAt 0) = true := by decide +kernel

/-! ### Witnesses: groups and collectives -/

/-- A ROW group in slot 5 whose member is the job's core 0, and a CORES group of its cores 0 and 1 in slot 63. -/
def rowGroup : GroupDef :=
  { grp := 5, kind := 0, core := 0, x0 := 0, x1 := 0, sx := 1, y0 := 0, y1 := 0, sy := 1, timeout := 0, cmask := 0, reserved := false
    stage := 0x100000, stgsz := 4 }
def coresGroup : GroupDef := { rowGroup with grp := 63, kind := 3, cmask := 3 }

/-- A row of three chips, this one the first; cores 0 and 1 hold job 1, which is admitted and defines both groups. -/
def forming : State :=
  let s := { windowed with jobs := [{ job1 with phase := .admitted, groups := [rowGroup, coresGroup] }] }
  (s.setCore 1 { Core.atReset with run := .running, job := 1, lines := [lineAt (512 * 4096) 0] }).setReg Csr.fabId
    (Word.placeBit true 63 ||| Word.place 1 7 48 ||| Word.place 3 7 40)

theorem witness_GroupCreation_create : forming.definesGroup 1 coresGroup = true ∧ forming.localReason 1 coresGroup = (0, []) ∧ coresGroup.grp < 64 ∧
    forming.definesGroup 1 rowGroup = true ∧ forming.localReason 1 rowGroup = (0, []) ∧ rowGroup.kind ≤ 2 ∧ (forming.reg Csr.fabId).bit 63 = true ∧
    forming.chipRank rowGroup = some 0 ∧ 1 < forming.groupP rowGroup ∧ (∀ e ∈ forming.earlyJoins, e.1 = rowGroup.grp → e.2.job ≠ 1) := by decide +kernel

/-- The same row group with a staging area too small for three members. -/
def smallGroup : GroupDef := { rowGroup with stgsz := 2 }
def refusing : State := { forming with jobs := [{ job1 with phase := .admitted, groups := [smallGroup] }] }

theorem witness_GroupCreation_failing : refusing.definesGroup 1 smallGroup = true ∧ (refusing.localReason 1 smallGroup).1 ≠ 0 ∧ smallGroup.kind ≤ 2 ∧
    (refusing.reg Csr.fabId).bit 63 = true ∧ refusing.chipRank smallGroup = some 0 ∧ 1 < refusing.groupP smallGroup ∧ refusing.earlyJoins = [] := by decide +kernel

/-- The row group of three with the records of its first ranks. -/
def rowOf (phase : GroupPhase) (joins : List JoinRec) (members : List Member) : Group :=
  { job := 1, gdef := rowGroup, phase := phase, p := 3, rank := 0, cpl := 1, joins := joins, since := 0, members := members, early := [], earlyPieces := []
    breached := false }

def joinOf (rank : Nat) : JoinRec := { rank := rank, job := 1, hash := 77, cpl := 1, failed := 0 }

def creating (n : Nat) : State :=
  { forming with groups := forming.groups.set 5 (some (rowOf .creating ((List.range n).map joinOf) [])) }

theorem witness_GroupCreation_join : (creating 1).groups[(5 : Fin 64)] = some (rowOf .creating [joinOf 0] []) ∧
    (rowOf .creating [joinOf 0] []).joins.any (fun j => j.rank == 1) = false ∧ [joinOf 0, joinOf 1].length < (rowOf .creating [joinOf 0] []).p ∧
    (creating 2).groups[(5 : Fin 64)] = some (rowOf .creating [joinOf 0, joinOf 1] []) ∧
    (rowOf .creating [joinOf 0, joinOf 1] []).joins.any (fun j => j.rank == 2) = false ∧
    (rowOf .creating [] []).p ≤ [joinOf 0, joinOf 1, joinOf 2].length ∧ joinVerdict [joinOf 0, joinOf 1, joinOf 2] = (0, []) ∧
    (rowOf .creating [] []).gdef.grp = (5 : Fin 64).val ∧ (rowOf .creating [] []).since + 10000000000 ≤ { creating 1 with now := 10000000000 }.now ∧
    joinVerdict [joinOf 0] = (0, []) ∧ (joinVerdict [{ joinOf 0 with failed := 3 }]).1 ≠ 0 := by decide +kernel

/-- A collective of slot 5 on srcT into dstT. -/
def collEntryFor (op : Nat) : Entry := { started (entryFor (word 5 op (5 * 2 ^ 28)) dstT srcT 0) with ra := 0 }

/-- The member of core 0 with 63 collectives queued, and one whose turn has come. -/
def busyMember : Member := { core := 0, rank := 0, queue := List.range 63, run := none, nextSeq := 0xFFFFFFFF, done := 0, last := none }
def readyMember : Member := { busyMember with queue := [7] }

def collecting (op : Nat) (m : Member) : State :=
  { core0 forming (fun c => { c with qComm := [collEntryFor op] }) with groups := forming.groups.set 5 (some (rowOf .ready [] [m])) }

theorem witness_CollectivesQueueAndStart_queue : ∀ op ∈ [0x10, 0x11, 0x12, 0x13, 0x14, 0x15, 0x16],
    ((collecting op busyMember).cores[(0 : Fin 32)]).commWorking op = some (collEntryFor op) ∧
    (collecting op busyMember).group? (collGrp (collEntryFor op)) = some (rowOf .ready [] [busyMember]) ∧
    (rowOf .ready [] [busyMember]).members.find? (fun x => x.core == 0) = some busyMember ∧ busyMember.queue.length < 64 := by decide +kernel

theorem witness_CollectivesQueueAndStart_start : ∀ op ∈ [0x10, 0x16],
    (collecting op readyMember).groups[(5 : Fin 64)] = some (rowOf .ready [] [readyMember]) ∧ (rowOf .ready [] [readyMember]).member? 0 = some readyMember ∧
    readyMember.queue = 7 :: [] ∧ readyMember.run = none ∧ readyMember.core = (0 : Fin 32).val ∧
    (collecting op readyMember).collEntry readyMember 7 = some (collEntryFor op) ∧ (collEntryFor op).failed = false ∧
    (collecting op readyMember).poison = [] ∧ (rowOf .ready [] [readyMember]).early = [] ∧
    (rowOf .ready [] [readyMember]).earlyPieces = [] ∧ 0 < (rowOf .ready [] [readyMember]).p ∧ 1 < (rowOf .ready [] [readyMember]).p := by decide +kernel

theorem witness_CollectivesQueueAndStart_apart : Safety.NoSharedByte (Desc.ranges (collEntryFor 0x10).d1.val) [stagingOf rowGroup] :=
  noShared_of (by decide +kernel)

/-- The collective of `op` runs, with the records of the first n ranks. -/
def recordFor (op : Nat) : DescRec := recordOf (collEntryFor op) 9 5
def runningMember (op n : Nat) : Member :=
  { readyMember with
    run := some { entry := 7, own := recordFor op, records := (List.range n).map (fun k => (k, recordFor op)), pieces := [], results := [], rowSent := false
                  spread := false, sent := [], unconsumed := [], flags := 0 } }

/-- The header of a collective message from chip 1 with the CRC-64 of what it carries. -/
def collMsg (x : CollItem) : Msg := { newMsg with crc := transferCrc x.bytes 0 }

/-- The collective's timeout of 30,000 ms has just passed. -/
def collRuns (op n : Nat) : State := { collecting op (runningMember op n) with ft := 30000000005 }

theorem witness_CollectivesGoOn : Safety.regsCanonical (collRuns 0x10 1) ∧ Safety.memCanonical (collRuns 0x10 1) ∧
    (collRuns 0x10 1).groups[(5 : Fin 64)] = some (rowOf .ready [] [runningMember 0x10 1]) ∧
    (rowOf .ready [] [runningMember 0x10 1]).member? 0 = some (runningMember 0x10 1) ∧
    (collRuns 0x10 1).collEntry (runningMember 0x10 1) 7 = some (collEntryFor 0x10) ∧
    (runningMember 0x10 1).run.any (fun r => r.records.any (fun x => x.1 == 1) == false && r.records.any (fun x => x.1 == 2) == false && !r.agreed 3) = true ∧
    (runningMember 0x16 3).run.any (fun r => partDone (shapeOf (rowOf .ready [] []) (collEntryFor 0x16)) (Desc.fmt (collEntryFor 0x16).d1.val) 0 3 r && r.flags == 0) = true ∧ (collEntryFor 0x16).flags = 0 ∧
    ((collRuns 0x16 3).cores[(0 : Fin 32)]).stopping = none ∧ wCls (collEntryFor 0x16).word = 5 ∧ wSe (collEntryFor 0x16).word = false ∧
    (∀ x ∈ [CollItem.record 5 0 (recordFor 0x10), CollItem.chunk 5 0 5 .contribution [(0, 7)]],
      ((collRuns 0x10 1).job? (collMsg x).job).isSome = true ∧ (collRuns 0x10 1).halfStreams (collMsg x).half < 16384 ∧
      turnOf ((collRuns 0x10 1).inStreams.find? (fun y => y.key == streamOf (collMsg x) && y.half == (collMsg x).half)) (collMsg x) = .now) ∧
    rowGroup.timeout = 0 ∧ max 1 ((collRuns 0x10 1).fld Csr.clCtl 31 0) * 1000000 ≤ ((collRuns 0x10 1).ft - (recordFor 0x10).arr).toNat := by decide +kernel

/-! ### Witnesses: the module -/

/-- Core 0 of the starting job 1 in a state of its own. -/
def coreIn (r : RunState) : State :=
  { core0 windowed (fun c => { c with run := r, lines := [] }) with jobs := [{ job1 with phase := .starting }], now := 100000 }

/-- Core 0 has ended; core 1 of the job still runs, or has ended before. -/
def ending (both : Bool) : State :=
  { core0 windowed (fun c => { c with wait := .ended }) with jobs := [{ job1 with ended := if both then 2 else 0 }] }

/-- Core 0 is in no job: idle since 100 µs ago, and with its scratchpad being cleared. -/
def idling (clearing : Bool) : State := { core0 running (fun c => { c with run := .idle, job := 0, clearing := clearing, lines := [] }) with now := 100000 }

/-- A load step of core 0 waits for the slot. -/
def aligning : State := { running with power := { running.power with aligned := [0] } }

theorem witness_CoreLifecycle_start : (coreIn .gated).job? 1 = some { job1 with phase := .starting } ∧ ((coreIn .gated).cores[(0 : Fin 32)]).job = 1 ∧
    ((coreIn .gated).cores[(0 : Fin 32)]).run = .gated ∧ ((coreIn .idle).cores[(0 : Fin 32)]).run = .idle ∧
    ((coreIn .idle).cores[(0 : Fin 32)]).fills = [] ∧ ((coreIn .idle).cores[(0 : Fin 32)]).wait ≠ .ended ∧
    ((coreIn .idle).cores[(0 : Fin 32)]).clearing = false ∧ (coreIn .idle).ownSlot = true ∧ ((coreIn .starting).cores[(0 : Fin 32)]).run = .starting ∧
    ((idling false).cores[(0 : Fin 32)]).run = .idle ∧ ((idling false).cores[(0 : Fin 32)]).job = 0 ∧
    ((idling false).cores[(0 : Fin 32)]).idleSince + 100000 ≤ (idling false).now := by decide +kernel

theorem witness_CoreLifecycle_end : (∀ both, ((ending both).cores[(0 : Fin 32)]).run = .running ∧ ((ending both).cores[(0 : Fin 32)]).stopping = none ∧
      ((ending both).cores[(0 : Fin 32)]).wait = .ended ∧ ((ending both).cores[(0 : Fin 32)]).drained = true) ∧
    job1.cores &&& ~~~(job1.ended ||| 1#32 <<< 0) ≠ 0 ∧ job1.cores &&& ~~~((2 : BitVec 32) ||| 1#32 <<< 0) = 0 ∧ (ending true).resetAfterJobs = false ∧
    job1.cores.getLsbD 0 = true ∧ job1.phase = .running ∧ (idling true).heldPuts = [] ∧ (ending true).job? 1 ≠ none ∧ ((idling true).cores[(0 : Fin 32)]).clearing = true ∧ ((idling true).cores[(0 : Fin 32)]).startHeld = false ∧
    Safety.memCanonical (idling true) ∧ aligning.ownSlot = true ∧ aligning.power.aligned = [(0 : Fin 32).val] ∧
    (aligning.cores[(0 : Fin 32)]).arrays = .gated := by decide +kernel

/-- Main power is on; stack 0 stands at 85 1/16 °C in refresh code 0, stack 1 at 82 15/16 °C in code 1; a window of job 1 waits to be zeroed. -/
def serving : State :=
  let s := { windowed with jobs := [{ job1 with windows := [{ base := hbmBase, size := 4096, half := 0, buddy := true, zeroed := false }] }] }
  (((s.setMstate mReady).setReg (Csr.thmSens 32) (Word.place 1361 16 0)).setReg (Csr.thmSens 33) (Word.place 1327 16 0)).setReg (Csr.hbmStat 1) (Word.place 1 2 54)

theorem witness_MemorySystem : Safety.regsCanonical serving ∧ serving.mainOn = true ∧ serving.drills = [] ∧
    (serving.reg (Csr.d2dLane 1 19)).bit 33 = false ∧ serving.laneFailed 1 19 < 2 ∧ (serving.reg (Csr.d2dLane 1 19)).bit 63 = false ∧
    sramOwner (32 * scratchSize - 1) = some 31 ∧ serving.corePresent 31 = true ∧ serving.eccRaised < 16 ∧
    serving.hbmPlace hbmBase = some (0, 0, 0) ∧ (serving.reg (Csr.hbmChanMap 0)).bit (32 + 0) = false ∧ (serving.job? 1).isSome = true ∧
    serving.stackPresent 0 = true ∧ serving.fld (Csr.hbmStat 0) 55 54 < refreshUp (serving.siteTemp (32 + 0)) ∧ serving.stackPresent 1 = true ∧
    refreshDown (serving.siteTemp (32 + 1)) < serving.fld (Csr.hbmStat 1) 55 54 ∧ Safety.memCanonical serving ∧
    (serving.job? 1).any (fun j => (j.windows[0]?).any (fun x => !x.zeroed && decide (hbmBase ≤ x.base))) = true := by decide +kernel

/-- Main power is on, both cartridges are good and feed wavelength k with laser k; lane 9 (port X1, wavelength 1) is in state st with n attempts. -/
def lit (st att : Nat) : State :=
  let s := ({ State.reset with pins := { State.reset.pins with aux := true, mainIn := true, mainEn := true, pwrGood := true }, now := 3600000000000 } : State)
  let s := { s with hull := { s.hull with sweepPort := s.hull.sweepPort.set 0 (some 1) } }
  let s := (s.setMstate mReady).setReg (Csr.optLane 9) (Word.place st 4 60 ||| Word.place att 2 58)
  let s := (s.setReg (Csr.cartInfo 0) (Word.place 3 2 62)).setReg (Csr.cartInfo 1) (Word.place 3 2 62)
  (s.setReg (Csr.cartWmap 0) 0x76543210).setReg (Csr.cartWmap 1) 0x76543210

theorem witness_LaneLock : (∀ st ∈ [laneOff, laneSweep, laneRestore, laneAcquire, laneVerify, laneLocked, laneRelock], (lit st 0).laneState 9 = st) ∧
    Safety.regsCanonical (lit laneSweep 0) ∧ laneCart 9 = (0 : Fin 2).val ∧ (lit laneSweep 0).hull.sweepPort[(0 : Fin 2)] = some (9 / 8) ∧
    (1#3).toNat = 9 % 8 ∧ (0#3).toNat ≠ 9 % 8 ∧ (lit laneVerify 2).fld (Csr.optLane 9) 59 58 = 2 ∧ (lit laneVerify 3).fld (Csr.optLane 9) 59 58 = 3 ∧
    (lit laneLocked 0).drills = [] ∧ (lit laneLocked 0).hull.berWarned = [] ∧ (lit laneLocked 1).hull.laneSince[(9 : Fin 128)] + 3600000000000 ≤ (lit laneLocked 1).now ∧
    (lit laneOff 0).pins.pwrGood = true ∧ (lit laneOff 0).pins.resetLow = false ∧ (lit laneOff 0).cartGood 0 = true ∧ (lit laneOff 0).feed 0 1 = 1 ∧
    (∀ d ∈ [0, 1], ∀ j ∈ [0, 1, 2, 3, 4, 5, 6, 7], (lit laneOff 0).feed d j < 12) ∧ (lit laneOff 0).lightable (12 * 0 + 1) = true ∧
    9 ∈ (lit laneOff 0).waveLanes 0 1 ∧ (lit laneOff 0).lasState (12 * 0 + 1) = lasOff := by decide +kernel

/-- Lasers 0 and 1 are ACTIVE and WORN, spare 8 is assigned to wavelength 1; laser 1 waits for its swap, or the swap stands at a stage. -/
def lasers (queued : List (Nat × List Nat)) (swap : Option Swap) (spare : Nat) : State :=
  let s := (((lit laneLocked 0).setReg (Csr.lasStat 0) (Word.place lasActive 4 60)).setReg (Csr.lasStat 1) (Word.place lasWorn 4 60)).setReg (Csr.lasStat 8)
    (Word.place spare 4 60 ||| Word.place 1 4 52)
  { s with hull := { s.hull with queued := queued, swaps := s.hull.swaps.set 0 swap } }

def swapAt (stage : Nat) : Swap := { laser := 1, spare := some 8, wave := 1, stage := stage, planned := true, paths := [9], uncorr := [(9, 0)] }

/-- Path 9 is UP, with a flit that waits for its acknowledgement. -/
def undrained : State :=
  let s := (lasers [] (some (swapAt 0)) lasStandby).setReg (Csr.fabPath 9) (Word.place pathUp 4 60)
  { s with links := s.links.set 9 { Link.idle with unacked := [{ hdr := 0, data := [], tag := 0, crc := 0 }] } }

/-- Laser 1 has reached the end of its life and no spare is left. -/
def spareless : State :=
  let s := (lasers [(1, [])] none lasFailed).setReg (Csr.lasStat 1) (Word.place lasEol 4 60)
  ((s.setReg (Csr.lasStat 9) (Word.place lasFailed 4 60)).setReg (Csr.lasStat 10) (Word.place lasFailed 4 60)).setReg (Csr.lasStat 11) (Word.place lasFailed 4 60)

theorem witness_Lasers_samples : (∀ s ∈ [lit laneLocked 0, lasers [] none lasStandby], Safety.regsCanonical s ∧ s.pins.pwrGood = true ∧ s.cartGood 0 = true) ∧
    (lasers [] none lasStandby).lasState 0 = lasActive ∧ (BitVec.ofInt 16 (-151)).toInt < -150 ∧
    ((lasers [] none lasStandby).waveOf 0 0).isSome = true ∧ (lasers [] none lasWarming).lasState 8 = lasWarming ∧
    (let below : List Nat := [2 * 119]; let at120 := [2 * 120]; let at150 := [2 * 150]
     ¬ 2 * 120 * 100 * 1 ≤ 100 * below.sum ∧ 2 * 120 * 100 * 1 ≤ 100 * at120.sum ∧ ¬ 2 * 150 * 100 * 1 ≤ 100 * at120.sum ∧
     2 * 150 * 100 * 1 ≤ 100 * at150.sum) := by decide +kernel

theorem witness_Lasers_swap : (lasers [(1, [])] none lasStandby).swap? 0 = none ∧
    (lasers [(1, [])] none lasStandby).hull.queued.find? (fun q => q.1 / 12 == (0 : Fin 2).val) = some (1, []) ∧
    (lasers [(1, [])] none lasStandby).pins.pwrGood = true ∧ (lasers [(1, [])] none lasStandby).waveOf 0 (1 - 12 * 0) = some 1 ∧
    (lasers [(1, [])] none lasStandby).assignedSpare 0 1 = some 8 ∧ (lasers [(1, [])] none lasStandby).lasState 8 = lasStandby ∧
    (lasers [(1, [])] none lasStandby).lasState 1 ≠ lasEol ∧ (lasers [(1, [])] none lasStandby).lasState 1 ≠ lasFailed ∧
    ((lasers [(1, [])] none lasStandby).reg Csr.hullCtl).bit 8 = true ∧
    ((lasers [(1, [])] none lasStandby).setReg Csr.hullCtl 0).swap? 0 = none ∧
    (((lasers [(1, [])] none lasStandby).setReg Csr.hullCtl 0).reg Csr.hullCtl).bit 8 = false ∧
    spareless.swap? 0 = none ∧ spareless.hull.queued = [(1, [])] ∧ spareless.waveOf 0 1 = some 1 ∧ spareless.lasState 1 = lasEol ∧
    spareless.assignedSpare 0 1 = none ∧ spareless.freeSpares 0 = [] := by decide +kernel

theorem witness_Lasers_stages : (∀ k ∈ [0, 1, 2, 3], (lasers [] (some (swapAt k)) lasStandby).swap? 0 = some (swapAt k)) ∧
    undrained.swap? 0 = some (swapAt 0) ∧ undrained.swapDrained (swapAt 0) = false ∧ (lasers [] (some (swapAt 0)) lasStandby).swapDrained (swapAt 0) = true ∧
    (swapAt 1).spare = some (12 * (0 : Fin 2).val + 8) ∧ (lasers [] (some (swapAt 1)) lasStandby).lasState (12 * (0 : Fin 2).val + 8) = lasStandby ∧
    (lasers [] (some { swapAt 1 with spare := none }) lasStandby).swap? 0 = some { swapAt 1 with spare := none } ∧
    9 ∈ (lasers [] (some (swapAt 2)) lasStandby).waveLanes 0 1 ∧ (lasers [] (some (swapAt 2)) lasStandby).laneState 9 = laneLocked ∧
    9 ∈ (swapAt 3).paths ∧ (lasers [] (some (swapAt 3)) lasStandby).soaked (swapAt 3) 9 = true := by decide +kernel

theorem witness_Lasers_removed : (lasers [] none 0).lasState 1 ≠ lasRetired ∧ (lasers [] none 0).lasState 1 ≠ lasFailed ∧
    (lasers [] none 0).lasState 1 ≠ lasOff ∧ (lasers [] none 0).swap? (1 / 12) = none ∧ (lasers [] none 0).pins.pwrGood = true ∧
    (lasers [] none 0).hasCarts = true ∧ ((lasers [] none 0).reg (Csr.cartInfo 0)).bit 63 = true := by decide +kernel

/-- Host port 7 carries light; the spare of its group is free, or has been taken by port 6. -/
def hosts (taken : Bool) : State :=
  let s := lasers [] none 0
  if taken then { s with flash := { s.flash with hostUse := s.flash.hostUse.set 6 (hostSpare 7) } } else s

theorem witness_Lasers_host : (∀ taken, (hosts taken).mainOn = true ∧ (hosts taken).hostPresent 7 = true ∧ (hosts taken).fld (Csr.hoptStat 7) 63 60 ≠ 4) ∧
    (∀ u ∈ (hosts false).flash.hostUse.toList, u ≠ hostSpare 7 ∧ u ≠ hostSpare 7 + 3) ∧
    (∃ u ∈ (hosts true).flash.hostUse.toList, u = hostSpare 7 ∨ u = hostSpare 7 + 3) ∧
    ¬ 135 * 1024 ≤ 100 * (1382#16).toNat ∧ 135 * 1024 ≤ 100 * (1383#16).toNat ∧ ¬ 150 * 1024 ≤ 100 * (1535#16).toNat ∧
    150 * 1024 ≤ 100 * (1536#16).toNat := by decide +kernel

/-- Auxiliary power is on and the by-pass is open; 300 ms have passed since the last heartbeat. -/
def onRing : State := { lit laneOff 0 with ring := { (lit laneOff 0).ring with closed := false }, now := 300000000 }

def passing : SupFrame := { type := 1, ttl := 2, src := 3, serial := 99, seq := 4, payload := [], macOk := false }

theorem witness_SupervisoryRing : Safety.regsCanonical onRing ∧ onRing.ring.closed = false ∧ onRing.pins.aux = true ∧
    passing.serial ≠ serialOf onRing.flash.identity ∧ 1 < passing.ttl ∧ onRing.ring.missing = false ∧ onRing.ring.heardAt + 300000000 ≤ onRing.now ∧
    ({ onRing with pins := { onRing.pins with resetLow := true } } : State).pins.resetLow = true ∧ State.reset.ring.closed = true ∧
    (lit laneOff 0).ring.closed = true ∧ (lit laneOff 0).pins.resetLow = false := by decide +kernel


/-! ### Witnesses: host networks and sessions -/

/-- An RC connection of port 3 at 100 Gb/s, last cut and raised long ago. -/
def linkTo : Conn := { server := 5, port := 3, up := true, rate := 100, halved := 0, cutAt := 0, riseAt := 0, pieces := [(4, 1)] }

/-- A transfer whose last piece is in flight, or still waits. -/
def piece (flying : Bool) : Xfer :=
  { id := 4, purpose := .update, server := 5, waiting := if flying then [] else [(1, 0)], bound := [], flying := if flying then [1] else [], outcome := none }

/-- READY; host port 3 is UP (or no port is), the connection and the transfer stand, an hour after reset. -/
def netted (up flying : Bool) : State :=
  let s := ({ windowed with pins := (lit 0 0).pins, running := some Image.factory, now := 3600000000000 } : State).setMstate mReady
  let s := (s.setReg Csr.ethCtl 1).setReg Csr.secStat (1 <<< 55)
  { s with ports := if up then s.ports.set 3 { HostPort.off with up := true } else s.ports, conns := if up then [linkTo] else [], xfers := [piece flying]
           netLost := 1, boot := { s.boot with stage := 8 } }

theorem witness_HostNetwork : Safety.regsCanonical (netted true true) ∧ ((netted true true).port 3).up = true ∧
    (∀ k : Fin 8, k ≠ 3 → portNet k.val = portNet 3 → ((netted true true).port k.val).up = false) ∧ (netted false true).mainOn = true ∧
    5 ≤ (netted false true).boot.stage ∧ (netted false true).hostPresent 3 = true ∧ ((netted false true).port 3).up = false ∧
    (netted false true).fld (Csr.hoptStat 3) 63 60 ≠ 4 ∧ linkTo ∈ (netted true true).conns ∧ (netted true true).netLost.getLsbD 0 = true ∧
    (netted true true).upPorts false ≠ [] ∧ ((netted true true).reg Csr.ethCtl).bit 0 = true ∧ linkTo.server = 5 ∧ linkTo.port = 3 ∧
    linkTo.riseAt + 100000 ≤ (netted true true).now ∧ ((netted true true).port 3).echoSecond ≠ (netted true true).now / 1000000000 ∧
    (netted true true).xfers.find? (fun x => x.id == 4) = some (piece true) ∧ (piece true).outcome = none ∧ 1 ∈ (piece true).flying ∧
    (1, 0) ∈ (piece false).waiting ∧ 0 + 30000000000 ≤ (netted false false).now ∧
    (netted false false).conns.any (fun c => c.server == (piece false).server && c.up) = false := by decide +kernel

/-- A channel to a controller by port 3: 6 was the last REQID; with requests in turn, and held. -/
def channel (ready : List (BitVec 32 × Nat)) (waiting : List (BitVec 32 × Nat × Nat)) : Channel :=
  { key := 77, sid := 12, port := 3, nets := (true, false), lastAuth := 0, rxTop := some 3, rxSeen := [3], tx := 9, highest := some 6, kept := []
    ready := ready, waiting := waiting }

def caller (ready : List (BitVec 32 × Nat)) (waiting : List (BitVec 32 × Nat × Nat)) (evs : List EventReq) : Session :=
  { ch := channel ready waiting, role := 0, evNext := 2, evOut := evs }

def evening : EventRec := { code := 0x50, ft := 4, job := 0, record := [] }

/-- The controller's session stands in slot 0 (and sink 1, bound to its key, has an event), or no session does. -/
def inSession (x : Option Session) : State :=
  { netted true true with sessions := (netted true true).sessions.set 0 x, flash := { Flash.factory with owners := [77] }
                          sinks := (netted true true).sinks.set 1 (some { key := 77, mask := 0xFFFF, seq := 3, queue := [(2, evening)], dropped := 0 }) }

def resent : EventReq := { reqid := 1, sink := 1, seq := 2, begun := 3599000000000, sent := 3599900000000, interval := 40000000 }

theorem witness_Sessions_open : (inSession none).serving = true ∧ ((inSession none).port 3).up = true ∧ ((inSession none).reg Csr.secStat).bit 55 = true ∧
    (inSession none).keyRole 77 = some 0 ∧ (inSession none).keyRole 78 = none ∧ (inSession none).sessions[(0 : Fin 64)] = none ∧
    (inSession (some (caller [] [] []))).sessions[(0 : Fin 64)] = some (caller [] [] []) ∧ (caller [] [] []).ch.accepts 4 true = true ∧
    (∀ ctr ∈ [0, 2, 2 ^ 32 - 1], (caller [] [] []).ch.accepts ctr true = true) ∧ (caller [] [] []).ch.accepts 3 true = false ∧
    (0x51#16).toNat ∈ ningonusTypes ∧ (caller [] [] []).ch.last = some 6 ∧ (7#32) = 6 + 1 ∧ (caller [] [] []).ch.kept = [] ∧
    (caller [] [] []).ch.lastAuth + 60000000000 ≤ (inSession none).now := by decide +kernel

theorem witness_Sessions_inTurn : ((inSession (some (caller [] [] []))).port (caller [] [] []).ch.port).up = true ∧ (caller [] [] []).ch.tx + 1 < 2 ^ 32 ∧
    (caller [] [(9, 0x2, 0)] []).ch.waiting = [(9, 0x2, 0)] ∧ (caller [] [(9, 0x2, 0)] []).ch.ready = [] ∧ 0x2 ∈ ningonusTypes ∧
    0 + 640000000 ≤ (inSession (some (caller [] [(9, 0x2, 0)] []))).now ∧
    ((inSession (some (caller [] [] []))).sinks[(1 : Fin 4)]).any (fun q => decide (q.key = (caller [] [] []).ch.key) && decide (q.queue = [(2, evening)])) = true ∧
    (inSession none).now < resent.begun + 5000000000 ∧ resent.sent + resent.interval ≤ (inSession none).now ∧
    (((inSession (some (caller [] [] [resent]))).sinks[resent.sink]?).join).any (fun q => decide (q.queue.find? (fun m => m.1 == resent.seq) = some (resent.seq, evening))) = true := by
  decide +kernel

/-! ### Witnesses: requests -/

/-- A request of a type is in turn on the owner's session. Lane 9 is DARK while its wavelength is fed; channel 2 of stack 0 is marked and channel 3
mapped out; job 6's window is retained; job 1 runs, or starts; POW_CTL and FT_CTL are locked or not. -/
def asked (mt : Nat) (phase : JobPhase) (locked : Bool) : State :=
  let s := { inSession (some (caller [(7, mt)] [] [])) with
    jobs := [{ job1 with phase := phase }], retained := [{ job := 6, base := hbmBase, size := 64, since := 0 }]
    lastRecords := [{ job := 3, seq := 2, kind := 3, reason := 0, ft := 9, arg := 0, detail := [] }]
    rings := [{ job := 1, server := 5, ref := { srv := 0, rkey := 2, va := 4096, len := 4160 }, prod := 0, cons := 0, waiting := [], nextSeq := 1, final := false }] }
  let s := ((s.setReg (Csr.cartInfo 0) (Word.place 3 2 62)).setReg (Csr.cartWmap 0) 0x76543210).setReg (Csr.optLane 9) (Word.place laneDark 4 60)
  let s := (s.setReg (Csr.lasStat 1) (Word.place lasActive 4 60)).setReg (Csr.hbmChanMap 0) 0xC00000008
  if locked then (s.setReg Csr.powCtl (1 <<< 63)).setReg Csr.ftCtl (1 <<< 63) else s

/-- The body of a SUBMIT signed by the owner's key. -/
def submitBody : List Byte := List.replicate 159 0 ++ [77] ++ List.replicate 64 0

/-- Every request type is due in `asked`. -/
theorem witness_requests : (∀ mt ∈ ningonusTypes, Safety.Due (asked mt .running false) 0 (caller [(7, mt)] [] []) mt 7 []) ∧
    Safety.Due (asked 0x3 .running true) 0 (caller [(7, 0x3)] [] []) 0x3 7 [] ∧ Safety.Due (asked 0x11 .starting false) 0 (caller [(7, 0x11)] [] []) 0x11 7 [] ∧
    Safety.regsCanonical (asked 0x3 .running true) ∧ Safety.regsCanonical (asked 0x3 .running false) := by
  unfold Safety.Due
  decide +kernel

theorem witness_RegisterRequests : csrAssigned (Csr.core 31 0x30) = true ∧ (asked 0x2 .running false).csrAbsent (Csr.core 31 0x30) = false ∧
    isMailbox (Csr.core 31 0x30) = false ∧ ((asked 0x3 .running false).reg Csr.ftCtl).bit 63 = false ∧ ((asked 0x3 .running true).reg Csr.ftCtl).bit 63 = true ∧
    (BitVec.allOnes 64) &&& (csrAccess Csr.ftCtl).rwl ≠ 0 ∧ (BitVec.ofNat 32 Csr.powCtl).toNat = Csr.powCtl := by decide +kernel

theorem witness_SettingRequests : (asked 0x3 .running false).laneState 9 = laneDark ∧ (asked 0x3 .running false).waveDark (laneCart 9) (9 % 8) = false ∧
    ((asked 0x3 .running false).reg Csr.powCtl).bit 63 = false ∧ (900#16).toNat = 900 ∧ (3200#16).toNat = 3200 ∧
    (asked 0x3 .running false).stackPresent 0 = true ∧ ((asked 0x51 .running false).reg Csr.drlCtl).bit 63 = false := by decide +kernel

theorem witness_JobRequests : ((asked 0x10 .running false).reg Csr.secStat).bit 60 = false ∧ submitBody.length = 224 ∧ refClean submitBody 32 = true ∧
    bodyNat submitBody 98 30 = 0 ∧ (asked 0x10 .running false).maySign (digestOfBytes ((submitBody.drop 128).take 32)) = true ∧
    (asked 0x10 .running false).resetAfterJobs = false ∧ (asked 0x10 .running false).acquittal = none ∧ (asked 0x10 .running false).mstate ≠ mHeld ∧
    bodyNat submitBody 96 2 = (asked 0x10 .running false).fld Csr.capNl 23 16 ∧
    (asked 0x10 .running false).digestHeld (digestOfBytes ((submitBody.drop 64).take 32)) = false ∧
    (∀ p ∈ [JobPhase.running, .starting], ((asked 0x11 p false).job? 1) = some { job1 with phase := p }) ∧
    ((asked 0x11 .starting false).rings.find? (fun r => r.job == 1 && !r.final)).any (fun r => decide (r.waiting.length < 256)) = true ∧
    ((asked 0x12 .running false).lastRecords.find? (fun r => r.job == 3)).isSome = true ∧
    ((asked 0x30 .running false).fld Csr.clLvl 15 8 ≤ (0#8).toNat ∧ (0#8).toNat ≤ (asked 0x30 .running false).fld Csr.clLvl 23 16) ∧
    ((asked 0x30 .running false).fld Csr.capNl 7 0 ≤ (0#8).toNat ∧ (0#8).toNat ≤ (asked 0x30 .running false).fld Csr.capNl 15 8) := by decide +kernel

/-- The module is HELD after a thermal shutdown, every site cool; RESUME is in turn. -/
def atHold : State := (asked 0x31 .running false).setMstate mHeld

theorem witness_JobRequests_resume : atHold.mstate = mHeld ∧ (atHold.reg Csr.secStat).bit 55 = true ∧
    (∀ i, i < 57 → atHold.sitePresent i = true → atHold.siteCool i = true) := by decide +kernel

/-! ### Witnesses: jobs -/

/-- The bytes of a job's program and of its arguments. -/
def progBytes : List Byte := bytesOfNat 8 0x0102030405060708
def argBytes : List Byte := bytesOfNat 4 0x0A0B0C0D

/-- A remote reference: server 0, key 2, address 4,096. -/
def refBytes (len : Nat) : List Byte := bytesOfNat 4 0 ++ bytesOfNat 4 2 ++ bytesOfNat 8 4096 ++ bytesOfNat 8 len ++ bytesOfNat 8 0

/-- The descriptor of job 9: one core, one server, one window of 2 MiB, its arguments 256 bytes into it. -/
def descBytes : List Byte :=
  bytesOfNat 4 0x4E474A44 ++ bytesOfNat 2 1 ++ bytesOfNat 2 0 ++ bytesOfNat 8 9 ++ bytesOfNat 4 1 ++ bytesOfNat 12 0 ++ refBytes 8 ++ refBytes 4 ++
  refBytes 1088 ++ digestBytes (sm3 progBytes) ++ digestBytes (sm3 argBytes) ++ bytesOfNat 32 0 ++ bytesOfNat 8 256 ++ bytesOfNat 4 0x10001 ++ bytesOfNat 20 0 ++
  bytesOfNat 32 5 ++ bytesOfNat 8 0x200000 ++ bytesOfNat 8 0

def offer : Admission := { digest := sm3 descBytes, key := 77, nl := 0, ref := { srv := 0, rkey := 2, va := 4096, len := 304 }, server := 5 }

/-- READY, the descriptor of job 9 has been fetched, or could not be. -/
def offered (good : Bool) : State :=
  let s := (netted true true).setReg Csr.capHbmBytes (Word.place (256 * channelBytes) 40 0)
  let x : Xfer := { id := 8, purpose := .descriptor offer.digest, server := 5, waiting := [], bound := [], flying := [], outcome := some good }
  { s with jobs := [], admissions := [offer], xfers := [x] }

theorem witness_JobProgress_admission : Safety.regsCanonical (offered true) ∧ (offered true).resetAfterJobs = false ∧
    (∀ good, (offered good).admissions.find? (fun a => a.digest == offer.digest) = some offer ∧
      ((offered good).xferOf (.descriptor offer.digest)).any (fun x => decide (x.outcome = some good)) = true) ∧
    descBytes.length = offer.ref.len ∧ sm3 descBytes = offer.digest ∧ descOk descBytes offer.nl = true ∧ (offered true).job? (dJob descBytes) = none ∧
    dCores descBytes ≤ ((offered true).eligible (BitVec.ofNat 32 (bodyNat descBytes 20 4))).length ∧
    (let chosen (s : State) : List (Fin 32) := (s.eligible (BitVec.ofNat 32 (bodyNat descBytes 20 4))).take (dCores descBytes)
     let busy1 := (offered true).setCore 1 { Core.atReset with clearing := true }
     (∀ n ∈ chosen (offered true), ((offered true).cores[n]).clearing = false) ∧ (∃ n ∈ chosen busy1, (busy1.cores[n]).clearing = true)) ∧
    ((offered true).grant (dJob descBytes) (tableOf descBytes (dWinOff descBytes) 16 (dNwin descBytes)) [] []).isSome = true := by decide +kernel

/-- Job 9 as it has been admitted with core 1, its window zeroed. -/
def job9 (phase : JobPhase) : Job :=
  { jobOf descBytes offer 2 [{ base := hbmBase, size := 0x200000, half := 0, buddy := false, zeroed := true }] with phase := phase }

/-- Job 9 is ready to start, is starting with core 1 RUNNING, or with core 1 ended; its ring has a record waiting, or is full; a work list is set. -/
def progressing (phase : JobPhase) (ended full : Bool) : State :=
  let s := { netted true true with
    jobs := [{ job9 phase with ended := if ended then 2 else 0 }], xfers := []
    rings := [{ job := 9, server := 5, ref := dCompl descBytes, prod := if full then 16 else 3, cons := 0
                waiting := [{ job := 9, seq := 0, kind := 1, reason := 0, ft := 0, arg := 2, detail := [] }], nextSeq := 1, final := false }]
    worklists := (Vector.replicate 4 none).set 2 (some { server := 5, ref := { srv := 0, rkey := 2, va := 8192, len := 4096 }, interval := 10, cons := 0, polled := some 0 }) }
  s.setCore 1 { Core.atReset with run := .running, job := 9 }

theorem witness_JobProgress_begin : (progressing .admitted false false).admissions = [] ∧ Safety.memCanonical (progressing .admitted false false) ∧
    (progressing .admitted false false).jobs.find? (fun j => j.digest == offer.digest && j.phase == .admitted) = some (job9 .admitted) ∧
    (progressing .admitted false false).groupFailed 9 = none ∧ (progressing .admitted false false).xfers = [] ∧
    (progressing .admitted false false).groupsReady (job9 .admitted) = true ∧ (∀ w ∈ (job9 .admitted).windows, w.zeroed = true) ∧
    (∀ n : Fin 32, (job9 .admitted).cores.getLsbD n.val = true → ((progressing .admitted false false).cores[n]).clearing = false) ∧
    progBytes.length = (dProgram descBytes).len ∧ sm3 progBytes = digestOfBytes ((descBytes.drop 128).take 32) ∧ argBytes.length = (dArgs descBytes).len ∧
    sm3 argBytes = digestOfBytes ((descBytes.drop 160).take 32) ∧ (job9 .admitted).pload + progBytes.length ≤ scratchSize ∧
    hbmBase + 256 ≤ (job9 .admitted).argAddr := by decide +kernel

theorem witness_JobProgress_run : ((progressing .starting false false).job? 9).any (fun j => j.phase == .starting && j.cores &&& ~~~j.ended != 0) = true ∧
    ((progressing .starting true false).job? 9).any (fun j => j.phase == .starting && j.cores &&& ~~~j.ended == 0) = true ∧
    (∀ n : Fin 32, (job9 .starting).cores.getLsbD n.val = true → ((progressing .starting false false).cores[n]).run = .running) ∧
    ((progressing .starting false false).worklists[(2 : Fin 4)]).any (fun w =>
      (progressing .starting false false).reaches w.server && decide (0 + w.interval * 1000000 ≤ (progressing .starting false false).now) && decide (1 ≤ w.count)) = true ∧
    (netted false true).reaches 5 = false ∧ (progressing .starting false false).serving = true ∧
    ((progressing .running false false).duringRing 9).any (fun r => (progressing .running false false).reaches r.server && decide (r.prod < r.cons + r.count)) = true ∧
    ((progressing .running false true).duringRing 9).any (fun r => decide (r.cons + r.count ≤ r.prod)) = true := by decide +kernel

/-! ### Witnesses: services -/

/-- The specific bytes 16 to 63 of a service entry. Ingest: a shard list of 64 bytes, slots of 64 KiB. Serving: MAXB, MAXCTX and QMAX 2, the slots 16 KiB
and the token ring 64 KiB into the window. -/
def specBytes (kind : Nat) : List Byte :=
  if kind = 1 then ((List.replicate 48 (0#8)).set 16 64).set 32 16
  else (((((List.replicate 48 (0#8)).set 2 2).set 4 2).set 8 2).set 29 0x40).set 38 1

/-- A service of job 1 in its window. -/
def service (kind : Nat) : Service :=
  { kind := kind, nrank := 0, nsem := 1, qwin := 0, qlog := 0, qoff := 0, spec := specBytes kind, running := true, index := 0, epoch := 0, offset := 0
    clients := [channel [] []], requests := [], step := 0, req := none }

/-- Job 1 with the service; producer index 1, with the first entry's bytes, and transfers. -/
def servicing (v : Service) (entry : List Byte) (xs : List Xfer) : State :=
  let s := { netted true true with
    jobs := [{ job1 with windows := [{ base := hbmBase, size := 2 ^ 21, half := 0, buddy := false, zeroed := true }], services := [v] }], xfers := xs }
  (s.writeNat hbmBase 8 1).writeBytes (hbmBase + 4096) entry

/-- A save of one page, 64 KiB into the window, to server 0. -/
def ckptSave : List Byte := bytesOfNat 2 1 ++ bytesOfNat 6 (hbmBase + 0x10000) ++ bytesOfNat 8 4096 ++ bytesOfNat 48 0

def doneXfer (p : XferUse) : Xfer := { id := 7, purpose := p, server := 5, waiting := [], bound := [], flying := [], outcome := some true }

def saving : Service := { service 2 with req := some { index := 0, xfer := 7, entry := ckptSave, stage := 1, failed := 0 } }

theorem witness_Services_queue : Safety.memCanonical (servicing (service 2) ckptSave []) ∧
    ((servicing (service 2) ckptSave []).service? 1 0).any (fun p => p.2.kind == 2 && p.2.running && p.2.req.isNone &&
      ckptEntryOk Flash.factory p.1 p.2 ckptSave && !ckptEntryOk Flash.factory p.1 p.2 (bytesOfNat 64 0) &&
      (servicing (service 2) ckptSave []).readBytes (p.2.control p.1 + 4096) 64 == ckptSave) = true ∧
    (servicing (service 2) ckptSave []).readNat hbmBase 8 ≠ (servicing (service 2) ckptSave []).readNat (hbmBase + 8) 8 ∧
    bodyNat ckptSave 0 1 = 1 ∧ bodyNat ckptSave 1 1 = 0 ∧
    (servicing (service 2) ckptSave []).readFails .none [(bodyNat ckptSave 2 6, bodyNat ckptSave 8 8)] = none ∧
    (servicing saving ckptSave [doneXfer (.checkpoint 1 0)]).xfers.find? (fun x => x.id == 7) = some (doneXfer (.checkpoint 1 0)) := by decide +kernel

theorem witness_Services_ingest : (service 1).fld 32 8 / 64 ≠ 0 ∧ 7 ≤ (service 1).fld 48 1 ∧ (servicing (service 1) [] []).xferOf (.ingest 1 0) = none ∧
    (servicing (service 1) [] [doneXfer (.ingest 1 0)]).xferOf (.ingest 1 0) = some (doneXfer (.ingest 1 0)) ∧
    shardStatus (bytesOfNat 24 0 ++ bytesOfNat 8 3 ++ bytesOfNat 32 0) [1, 2, 3] = 0 := by decide +kernel

/-- A client has a request in turn; its request 4 has one prompt token, complete or not, and stands in a slot or waits. -/
def prompted (complete : Bool) (slot : Option Nat) : GenReq :=
  { client := 77, num := 4, params := bytesOfNat 32 0, tokens := [6], complete := complete, stopped := false, slot := slot }

def endpoint (mt : Nat) (rs : List GenReq) (step : Nat) : Service := { service 3 with clients := [channel [(7, mt)] []], requests := rs, step := step }

/-- The token record of the first step stands in the token ring. -/
def answering (v : Service) : State :=
  ((servicing v [] []).writeNat (hbmBase + 0x10000) 8 1).writeNat (hbmBase + 0x10000 + 4096 + 64) 4 99

theorem witness_Services_clients : (∀ mt ∈ clientTypes, ((servicing (endpoint mt [prompted false none] 0) [] []).chan? (.client 1 0 77)).any (fun c =>
      decide (c.ready = [(7, mt)]) && decide (c.tx + 1 < 2 ^ 32) && ((servicing (endpoint mt [] 0) [] []).port c.port).up) = true) ∧
    (1 : Nat) < (endpoint 0x100 [] 0).maxCtx ∧ (endpoint 0x100 [] 0).queued.length < (endpoint 0x100 [] 0).qMax ∧
    (endpoint 0x101 [prompted false none] 0).requests.find? (fun q => q.client == 77 && q.num == 4) = some (prompted false none) ∧
    (prompted false none).tokens.length + 0 < (endpoint 0x101 [prompted false none] 0).maxCtx := by decide +kernel

theorem witness_Services_steps : (endpoint 0 [prompted true none] 0).step ≤ (endpoint 0 [prompted true none] 0).index ∧ 1 ≤ (endpoint 0 [] 0).maxB ∧
    (endpoint 0 [prompted true (some 0)] 1).index < (endpoint 0 [prompted true (some 0)] 1).step ∧
    (((answering (endpoint 0 [prompted true (some 0)] 1)).service? 1 0).any (fun p =>
      decide (p.2.index < (answering (endpoint 0 [prompted true (some 0)] 1)).readNat (p.1.winBase p.2.qwin + p.2.fld 52 8) 8) &&
      decide (p.2.requests = [prompted true (some 0)]))) = true ∧
    ((answering (endpoint 0 [prompted true (some 0)] 1)).chan? (.client 1 0 (prompted true none).client)).any (fun c =>
      ((answering (endpoint 0 [prompted true (some 0)] 1)).port c.port).up && decide (c.tx + 1 < 2 ^ 32)) = true := by decide +kernel

/-! ### Witnesses: halts, health, drills -/

/-- Job 1 stands on cores 0 and 1, its chip group spans this chip's row and column and the runtime's halt of it waits; windows are retained for 1 minute; its ring
has room; T is 2, and one transient fault has been added; job 6's window has been retained for an hour. -/
def halting : State :=
  let s := { netted true true with
    jobs := [job1], halts := [{ job := 1, cause := 3, detail := 0, loc := 0, ft := 0, fenced := false }], halted := [5]
    rings := [{ job := 1, server := 5, ref := { srv := 0, rkey := 2, va := 4096, len := 4160 }, prod := 0, cons := 0, waiting := [], nextSeq := 1, final := false }]
    retained := [{ job := 6, base := hbmBase, size := 64, since := 0 }], checkWithheld := 3
    health := { State.reset.health with t := 2 ^ 17, added := 300 }, pins := { (netted true true).pins with aux := true } }
  (s.setReg Csr.hltCtl 1).setReg Csr.fabId (Word.placeBit true 63 ||| Word.place 2 7 48 ||| Word.place 3 7 40)

def haltOf (job : Word) (origin : BitVec 16) : HaltMsg := { job := job, cause := 3, flags := 0, origin := origin, detail := 0, ft0 := 0, loc := 0 }

theorem witness_HaltsAndHealth : Safety.regsCanonical halting ∧ (halting.halts.head?).any (fun h => h.job == 1 && (halting.job? h.job == some job1)) = true ∧
    halting.resetAfterJobs = false ∧ halting.serving = true ∧ halting.job? 5 = none ∧ (5 : Word) ∈ halting.halted ∧ (halting.reg Csr.fabId).bit 63 = true ∧
    (halting.retained.find? (fun r => r.job == 6 && r.base == hbmBase)).any (fun r => decide (r.since + halting.fld Csr.hltCtl 7 0 * 60 * 1000000000 ≤ halting.now)) = true ∧
    halting.checkWithheld ≠ 0 ∧ halting.pipRuns = true := by decide +kernel

/-- Job 1 spans the three chips of the row, and no path of this chip is UP. -/
def bereft : State := { halting with groups := halting.groups.set 5 (some (rowOf .ready [] [])) }

theorem witness_HaltsAndHealth_peers : (2 : BitVec 16).toNat ∈ bereft.haltSet 1 ∧ (2 : BitVec 16).toNat ≠ bereft.chip ∧ bereft.hopPaths bereft.chip 2 = [] ∧
    chipY (2 : BitVec 16).toNat = chipY halting.chip ∧ 1 < halting.gridY ∧ chipAt (chipX halting.chip) 1 ≠ halting.chip := by decide +kernel

/-- READY with every drill enabled; core 0 is FENCED, core 1 runs job 1; drills are under way; ACQUIT is in turn, or a test stands at a stage. -/
def drilling (jobs : List Job) (drills : List Drill) (stage : Option Nat) : State :=
  let s := { asked 0x50 .running false with jobs := jobs, drills := drills, acquittal := stage }
  let s := (s.setCore 0 { Core.atReset with run := .fenced }).setCore 1 { Core.atReset with run := .running, job := 1 }
  (s.setReg Csr.drlCtl 0xFFF).setReg (Csr.optLane 17) (Word.place laneLocked 4 60)

def drillAt (kind unit since : Nat) : Drill := { kind := kind, unit := unit, since := since, injected := true }

theorem witness_DrillsAndAcquittal : Safety.regsCanonical (drilling [] [] none) ∧ (drilling [] [] none).serving = true ∧
    (∀ k : Fin 12, ((drilling [] [] none).reg Csr.drlCtl).bit k.val = true ∧ (drilling [] [] none).drillUnit k.val (if k.val = 11 then 17 else 1) = true ∧
      (drilling [] [] none).drillDue k.val (if k.val = 11 then 17 else 1) = true) ∧
    (∀ k : Fin 12, (drilling [job1] [drillAt k.val 1 0] none).drills.find? (fun d => d.kind == k.val && d.unit == 1) = some (drillAt k.val 1 0) ∧
      (drilling [job1] [drillAt k.val 1 0] none).drillOver (drillAt k.val 1 0) = true) ∧ ((drilling [job1] [] none).cores[(1 : Fin 32)]).job ≠ 0 ∧
    (drilling [] [] none).mstate = mReady ∧ (drilling [] [] none).jobs = [] ∧ (drilling [] [] none).admissions = [] ∧
    (drilling [] [] (some 5)).acquittal = some 5 ∧ (drilling [] [] (some 4)).acquittal = some 4 ∧
    ((drilling [] [] (some 0)).cores[(0 : Fin 32)]).run = .fenced ∧ ((drilling [] [] (some 0)).cores[(2 : Fin 32)]).run = .gated := by decide +kernel

theorem witness_DrillsAndAcquittal_due : Safety.Due (drilling [] [] none) 0 (caller [(7, 0x50)] [] []) 0x50 7 [] := by
  unfold Safety.Due
  decide +kernel

/-! ### Witnesses: power, pools, heat, fabric time -/

/-- READY in a grid of three by two, in a pool of all its chips, this chip and another reporting with the hashes named; main mode, a cap of 2,000 W, 2,400 W
measured; core 0 at PS5 with a droop ceiling of PS7, core 1 at PS1; temperatures 0 but for site 32, which was at 110 °C. -/
def managed (hash : BitVec 32) : State :=
  let s := { halting with
    power := { halting.power with disagree := 499, runNs := 10000000000, hot := [32] }
    pool := { Pool.off with base := 2000, budget := 1900, members :=
      [{ chip := 0, w := 100, b := 2000, base := 2000, hash := 4, missed := 0, arrived := true },
       { chip := 1, w := 900, b := 2000, base := 2000, hash := hash, missed := 0, arrived := true }] } }
  let s := (s.setReg Csr.poolCtl (Word.placeBit true 62 ||| Word.place 1 8 48 ||| Word.place 2 8 32 ||| Word.place 100 12 12 ||| 900)).setReg Csr.powCtl (Word.placeBit true 32 ||| 2000)
  let s := ((s.setReg Csr.powStat (Word.place 2400 12 12 ||| Word.place 64 7 49 ||| Word.place 3 4 56)).setMstate mReady).setReg (Csr.thmSens 55) (Word.place 400 16 0)
  (s.setReg (Csr.powCore 0) (Word.place 5 4 60 ||| Word.place 7 4 52)).setReg (Csr.powCore 1) (Word.place 9 4 60)

/-- The same in measured mode, its agreement 10 s old. -/
def measured : State := (managed 4).setBit Csr.powStat 47 true

theorem witness_PowerManager : Safety.regsCanonical (managed 4) ∧ (managed 4).mainOn = true ∧ 12 * 2000 < (2400 - 2000 + (2000 - 2400)) * 100 ∧
    499 ≤ (managed 4).power.disagree ∧ ((managed 4).reg Csr.powStat).bit 47 = false ∧ (measured.reg Csr.powStat).bit 47 = true ∧
    measured.power.agreeSince + 10000000000 ≤ measured.now ∧ (managed 4).power.calibrated = false ∧ 10000000000 ≤ (managed 4).power.runNs ∧
    (managed 4).serving = true ∧ (managed 4).fld Csr.powStat 55 49 = 64 ∧ (managed 4).corePresent 0 = true ∧
    (managed 4).fld (Csr.powCore 0) 63 60 < (managed 4).wantedState 0 ∧ (managed 4).wantedState 1 < (managed 4).fld (Csr.powCore 1) 63 60 ∧
    (managed 4).power.droopEventAt[(0 : Fin 32)] = none ∧ (managed 4).topState < (managed 4).fld (Csr.powCore 0) 55 52 ∧
    (managed 4).power.droopAt[(0 : Fin 32)] + 10000000 ≤ (managed 4).now := by decide +kernel

/-- TRIPPED an hour ago and cool again, MAIN_EN high. -/
def tripped : State :=
  { managed 4 with pins := { (managed 4).pins with pwrGood := false, needEdge := false }, running := some Image.factory
                   health := { (managed 4).health with tripAt := some 0 } }.setMstate mTripped

theorem witness_PoolsAndHeat : Safety.regsCanonical (managed 4) ∧ (managed 4).inPool = true ∧ (managed 4).fld Csr.poolStat 63 61 ≠ 3 ∧
    (managed 4).pool.members.find? (fun y => y.chip == (managed 4).chip) ≠ none ∧ State.reset.pool.members.find? (fun y => y.chip == (managed 4).chip) = none ∧
    (managed 4).pool.base = (managed 4).fld Csr.powCtl 15 0 ∧ (managed 4).pool.excluded = [] ∧ (managed 4).inBlock (0x0102#16).toNat = true ∧
    (managed 4).pool.members.filter (fun y => y.arrived) ≠ [] ∧ ((managed 4).pool.members.filter (fun y => y.arrived)).length < 2 ^ 13 ∧
    (∀ a ∈ (managed 4).pool.members, ∀ b ∈ (managed 4).pool.members, a.hash = b.hash) ∧
    (∃ a ∈ (managed 5).pool.members, ∃ b ∈ (managed 5).pool.members, a.hash ≠ b.hash) ∧ (managed 4).pins.aux = true ∧ 32 ∈ (managed 4).power.hot ∧
    33 ∉ (managed 4).power.hot ∧ (managed 4).stackPresent 0 = true ∧ (managed 4).power.inletOut = false ∧ (managed 4).power.throttleAt = none ∧
    tripped.mstate = mTripped ∧ tripped.coolEnough = true ∧ tripped.mainAllowed = true ∧ tripped.update = none ∧ slotReason tripped.flash = 0 := by
  decide +kernel

/-- This chip's fabric time is in a state, with 15 good exchanges, a parent, and PTP on. -/
def timed (st : Nat) : State :=
  let s := { managed 4 with time := { TimeSync.free with parent := some 1, good := 15, best := (3, 1) } }
  (s.setReg Csr.ftStat (Word.place st 3 61)).setReg Csr.ftCtl (Word.place 4 4 16 ||| 1)

theorem witness_FabricTime : Safety.regsCanonical (timed ftLocked) ∧ (timed ftLocked).mainOn = true ∧ 8 ≤ (timed ftLocked).boot.stage ∧ (timed ftLocked).ownRoot = false ∧
    State.reset.ownRoot = true ∧ (timed ftLocked).time.heard = [] ∧ better ((1#4).toNat, (2#16).toNat) (timed ftLocked).ownCandidate = true ∧
    (timed ftLocked).time.best.2 ≠ (2#16).toNat ∧ (timed ftLocked).time.parent.isSome = true ∧
    (∀ st ∈ [ftFree, ftAcquire, ftLocked, ftHoldover, ftRoot], (timed st).ftState = st) ∧ (15 : Nat) ≤ (timed ftAcquire).time.good ∧
    (timed ftLocked).time.lastExchange + 5000000 ≤ (timed ftLocked).now ∧ ((timed ftRoot).reg Csr.ftCtl).bit 0 = true ∧ ((timed ftRoot).port 3).up = true ∧
    (timed ftRoot).time.ptpLocked = false ∧ (timed ftRoot).ft.toNat + 1000000 < (2000000#64).toNat := by decide +kernel

/-! ### Witnesses: power pins, boots, firmware, security -/

/-- A module in a state, with its supplies and RESET_N. -/
def supplied (aux mainIn mainEn resetLow good : Bool) (st : Nat) : State :=
  let p : Pins := { aux := aux, mainIn := mainIn, mainEn := mainEn, resetLow := resetLow, slotId := 5, needEdge := false, pwrGood := good, thermTrip := false }
  ({ State.reset with pins := p, running := if aux then some Image.factory else none } : State).setMstate st

theorem witness_PowerAndResetPins : Safety.regsCanonical (supplied true true true false true mReady) ∧ (supplied false true true false false mOff).pins.aux = false ∧
    (supplied false true true false false mOff).update = none ∧ slotReason State.reset.flash = 0 ∧ (supplied false true true true false mOff).pins.resetLow = true ∧
    (let s := supplied true true false false false mStandby
     s.pins.aux = true ∧ s.pins.resetLow = false ∧ s.pins.pwrGood = false ∧ s.boot.recovering = false ∧ s.mstate = mStandby ∧ s.running.isSome = true ∧
     s.pins.mainIn = true ∧ s.pins.mainEn = false ∧ s.pins.needEdge = false) ∧ (supplied true false true false false mStandby).pins.mainEn = true ∧
    (supplied true true true false true mReady).pins.pwrGood = true ∧ (supplied true true true true true mBoot).pins.resetLow = true := by decide +kernel

/-- The main boot has come to a stage, every lane DARK. -/
def booting (stage : Nat) : State :=
  let s := (supplied true true true false true mBoot).setReg Csr.secStat (1 <<< 55)
  let s := { s with boot := { s.boot with stage := stage, watchdog := true } }
  (List.range 128).foldl (fun (t : State) i => t.setReg (Csr.optLane i) (Word.place laneDark 4 60)) s

theorem witness_MainBoot : (∀ k ∈ List.range 9, Safety.regsCanonical (booting k) ∧ (booting k).running = some Image.factory ∧ (booting k).mstate = mBoot ∧
      (booting k).pins.pwrGood = true ∧ (booting k).pins.resetLow = false ∧ (booting k).boot.recovering = false ∧ (booting k).boot.stage = k) ∧
    (booting 8).lanesTried = true ∧ (booting 4).stackPresent 7 = true ∧ ((booting 8).reg Csr.secStat).bit 55 = true ∧ (booting 8).flash.held = false := by
  decide +kernel

/-- UPDATE of the image slot from server 5. -/
def updateBody : List Byte := bytesOfNat 32 0 ++ bytesOfNat 32 5 ++ bytesOfNat 64 0

def written (again : Bool) : Update := { target := 0, body := .image Image.factory, repeated := again }

/-- An object is being written; the boot stands under the watchdog for an hour; recovery tries its ports or waits between two rounds, or writes its image. -/
def writing (again : Bool) : State := { asked 0x40 .running false with update := some (written again) }
def watched : State := { booting 3 with now := 3600000000000 }
def recovering (waiting : Bool) (u : Option Update) : State :=
  { booting 0 with update := u, now := 3600000000000, boot := { (booting 0).boot with recovering := true, waiting := waiting, waitSec := 60, port := 3 } }

theorem witness_FirmwareUpdates : (asked 0x32 .running false).update = none ∧ (asked 0x32 .running false).jobs ≠ [] ∧ (asked 0x32 .running false).resetWaits = false ∧
    updateFormOk updateBody = true ∧ (refOf updateBody 64).len ≤ updateLimit (bodyNat updateBody 0 1) ∧ (asked 0x40 .running false).update = none ∧
    (asked 0x40 .running false).resetAfterJobs = false ∧ (asked 0x40 .running false).reaches (serverAt updateBody 32) = true ∧
    (∀ again, (writing again).update = some (written again)) ∧ (writing true).boot.recovering = false ∧ (writing true).resetWaits = false ∧
    watched.boot.watchdog = true ∧ watched.mstate = mBoot ∧ watched.pins.resetLow = false ∧ watched.boot.since + 60000000000 ≤ watched.now ∧ watched.update = none ∧
    (recovering false none).boot.recovering = true ∧ (recovering false none).pins.pwrGood = true ∧ imageReason Image.factory (recovering false none).flash = 0 ∧
    imageReason { Image.factory with vendorOk := false } (recovering false none).flash ≠ 0 ∧
    (recovering true none).boot.waitFrom + (recovering true none).boot.waitSec * 1000000000 ≤ (recovering true none).now := by decide +kernel

/-- The body of an ENROLL. -/
def enrolBody (op kind slot : Nat) : List Byte := bytesOfNat 1 op ++ bytesOfNat 1 kind ++ bytesOfNat 1 slot ++ bytesOfNat 133 0

/-- ATTEST or ENROLL is in turn, with owner or without; a role key, checkpoint key 8 and a debug token with 15 refusals before it are there. -/
def securing (mt : Nat) (owned : Bool) (version : Word) : State :=
  let s := asked mt .running false
  { s with flash := { s.flash with owners := if owned then [77] else [], keys := [{ hash := sm3 (bytesOfNat 64 0), role := 1 }], ckeys := 0x100 }
           mailbox := s.mailbox.set 0 version, refusals := 15 }

/-- The debug port is unlocked with the scope of registers. -/
def unlocked : State := (securing 0x42 true 0).setReg Csr.secStat ((1 <<< 60) ||| (1 <<< 56))

theorem witness_KeysAndDebug : (securing 0x41 true 0).running = some Image.factory ∧ (enrolBody 1 0 0).length = 136 ∧
    (securing 0x42 false 0).flash.owners = [] ∧ (∀ op ∈ [1, 2], ∀ kind ∈ [1, 2, 3, 4], bodyNat (enrolBody op kind 8) 0 1 = op ∧ bodyNat (enrolBody op kind 8) 1 1 = kind ∧
      bodyNat (enrolBody op kind 8) 2 1 = 8 ∧ bodyNat (enrolBody op kind 8) 3 5 = 0 ∧ bodyNat (enrolBody op kind 8) 72 64 = 0) ∧
    { hash := sm3 (((enrolBody 2 1 0).drop 8).take 64), role := 1 } ∈ (securing 0x42 true 0).flash.keys ∧ (securing 0x42 true 0).flash.ckeys.getLsbD 8 = true ∧
    (securing 0x42 true 0).pipRuns = true ∧ (securing 0x42 true 0).refusals < 16 ∧ (securing 0x42 true 0).tokenOk true = false ∧
    (securing 0x42 true 1).tokenOk true = true ∧ (unlocked.reg Csr.secStat).bit 60 = true ∧ (unlocked.reg Csr.secStat).bit 56 = true ∧
    (unlocked.reg Csr.ftCtl).bit 63 = false := by decide +kernel

theorem witness_KeysAndDebug_due : Safety.Due (securing 0x41 true 0) 0 (caller [(7, 0x41)] [] []) 0x41 7 [] ∧
    Safety.Due (securing 0x42 false 0) 0 (caller [(7, 0x42)] [] []) 0x42 7 [] := by
  unfold Safety.Due
  decide +kernel

/-! ### Single commands and shared operations against the spec's tables and worked examples -/

/-- Register rd of core 0 after a command. -/
def after0 (c : Instr) (s : State) (rd : BitVec 5) : Word :=
  match exec c (finding s c) with | .next t => (t.cores[(0 : Fin 32)]).s rd | _ => 0xDEAD

/-- R99: the quotient by 0 is all ones, the remainder by 0 is ra. -/
theorem test_divide_by_zero : after0 (.sDivu 0 0 6 2 0 .ok) running 6 = BitVec.allOnes 64 ∧ after0 (.sRemu 0 0 6 2 0 .ok) running 6 = 64 := by decide +kernel

/-- R99: the high half of the unsigned product of two words of ones; the signed minimum of −1 and 3. -/
theorem test_mulhu_and_min : after0 (.sMulhu 0 0 6 5 5 .ok) running 6 = 0xFFFFFFFFFFFFFFFE ∧ after0 (.sMin 0 0 6 3 5 .ok) running 6 = BitVec.allOnes 64 := by
  decide +kernel

/-- R100: a shift by 64 shifts by rb[5:0] = 0; R99: the arithmetic shift keeps the sign. -/
theorem test_shifts : after0 (.sShl 0 0 6 3 2 .ok) running 6 = 3 ∧ after0 (.sSra 0 0 6 5 3 .ok) running 6 = BitVec.allOnes 64 := by decide +kernel

/-- R99: imm43 is sign-extended; s.lih keeps the low half. R100: a write to s0 is discarded. -/
theorem test_immediates : after0 (.sLi 0 0 6 (BitVec.allOnes 43) .ok) running 6 = BitVec.allOnes 64 ∧ after0 (.sLih 0 0 2 7 .ok) running 2 = 0x700000040 ∧
    after0 (.sLi 0 0 0 5 .ok) running 0 = 0 := by decide +kernel

/-- The example after R9: 0x0123_4567_89AB_CDEF stored at a puts 0xEF at a and 0x01 at a + 7. -/
theorem test_little_endian : (State.reset.writeNat 64 8 0x0123456789ABCDEF).readByte 64 = 0xEF ∧ (State.reset.writeNat 64 8 0x0123456789ABCDEF).readByte 71 = 1 := by
  decide +kernel

/-- The example after R130: `mm.issue ctx0, d6, d4` with ws1 and sig=sem2 is 0x2001_88C8_0000_0000. -/
theorem test_word_example : wCls 0x200188C800000000 = 2 ∧ wOp 0x200188C800000000 = 0 ∧ wWs 0x200188C800000000 = 1 ∧ wSe 0x200188C800000000 = true ∧
    wSsem 0x200188C800000000 = 2 := by decide +kernel

/-- The examples of R70 and R225: elements (257, 130) and (45, 200) of a BF16 T128 tensor of 300 × 200 with STRIDE 65,536. -/
theorem test_element_addresses :
    (let d : Desc := BitVec.ofNat 256 (10 * 2 ^ 48 + 2 * 2 ^ 54 + 300 * 2 ^ 64 + 200 * 2 ^ 96 + 65536 * 2 ^ 128)
     d.elemBit 257 130 = 8 * 163876 ∧ d.elemBit 45 200 = 8 * 44464 ∧ d.extent = 196608) := by decide +kernel

/-- The example of R36: 470 converted to E4M3 toward zero gives 448 with no flag. -/
theorem test_conversion_470 : (floatFmt .e4m3).map (fun f => (floatDecode f (floatEncode f .rz false 0 (Val.ofInt 470)).1, (floatEncode f .rz false 0 (Val.ofInt 470)).2)) =
    some (Val.ofInt 448, NumFlags.none) := by decide +kernel

/-- The example after R47: the BF16 products 2²⁴, 1, 1, −2²⁴ sum to 0 in one cell of fold 1; cells of group 0 and group 1 of fold 2 hold 2²⁴ and −16,777,215. -/
theorem test_ordered_folds :
    (let a (k : Nat) : Val := Val.ofInt ([2 ^ 24, 1, 1, -(2 ^ 24)].getD k 0)
     let cell (idx : List Nat) : Val := valFp32 (cellAfter .ordered 1 idx a (fun _ => Val.one) (cellStart .ordered 0 none)).part
     (cell [0, 1, 2, 3]).isZero = true ∧ cell [0, 2] = Val.ofInt (2 ^ 24) ∧ cell [1, 3] = Val.ofInt (-16777215)) := by decide +kernel

/-- The example after R233: with S2.13 mapped out under half-local interleave, address 0x0101_0000_0000 lies in S1.16 at 0x0204_0000. -/
theorem test_interleave : ((State.reset.setReg (Csr.hbmChanMap 2) (1 <<< 13)).setReg Csr.memMap 0x00807F4770000000).hbmPlace 0x010100000000 =
    some (1, 16, 0x02040000) := by decide +kernel

/-- SM3 of the bytes "abc" as the published standard gives it. -/
theorem test_sm3 : sm3 [0x61, 0x62, 0x63] = 0x66C7F0F462EEEDD9D1F2D46BDC10E4E24167C4875CF2F7A2297DA02B8F4BA8E0 := by decide +kernel

/-- R466: the reset memory is canonical, and the block idles on an empty queue. -/
theorem test_reset_memory_canonical : Safety.memCanonical State.reset := by decide

theorem test_idle_without_power : (match step State.reset with | .next t => decide (t.now = 10) && decide (t.regs = []) | _ => false) = true := by decide +kernel

/-- A flit whose CRC fails is answered with NAK and the last good LSEQ (R262, R263): nothing has arrived, so ACK is 0xFFFF. -/
theorem test_crc_failure_is_nakked : (match execFlitReceive 0 { hdr := goodHdr 0, data := [], tag := 0, crc := 0 } 7 grid with
    | .next t => match t.out with
      | .flit j f :: _ => (j, hdrFld f.hdr 112 1, hdrFld f.hdr 96 16, hdrFld f.hdr 120 8) == (0, 1, 0xFFFF, 0)
      | _ => false
    | _ => false) = true := by decide +kernel


/-- R343: a second CNP within 50 µs cuts nothing, one after that halves again; 5 Gb/s on 95/2 make 52.5. -/
theorem test_cnp_rate : ((linkTo.cnp 1000).cnp 2000).halved = 1 ∧ ((linkTo.cnp 1000).cnp 51000).halved = 2 ∧
    (({ linkTo with rate := 95, halved := 1 } : Conn).recover 9).rate = 105 ∧ (({ linkTo with rate := 191, halved := 1 } : Conn).recover 9).rate = 100 := by decide

/-- R414: the circle loses its oldest record that is not kept. -/
theorem test_circle : dropOldest (fun (n : Nat) => n % 2 == 0) [5, 4, 3, 2] = [5, 4, 2] ∧ dropOldest (fun (_ : Nat) => false) [3, 2, 1] = [3, 2] := by decide
end Sys2Proof.Tests
end

section
/-! SUPPORT. What a register file keeps when an operation writes some of its registers. -/

namespace Sys2Proof.Machine

open Sys2Proof.Safety

/-- From s to t the register file keeps its canonical form, and every register that `keep` holds of reads as before. -/
def RegsKept (keep : Nat → Prop) (s t : State) : Prop :=
  regsCanonical s → regsCanonical t ∧ ∀ o, keep o → t.reg o = s.reg o

namespace RegsKept

variable {keep : Nat → Prop} {s t u : State}

theorem of_regs_eq (h : t.regs = s.regs) : RegsKept keep s t := by
  intro w
  refine ⟨?_, fun o _ => ?_⟩
  · unfold regsCanonical
    rw [h]
    exact w
  · unfold State.reg
    rw [h]

theorem trans (h : RegsKept keep s t) (k : RegsKept keep t u) : RegsKept keep s u := by
  intro w
  obtain ⟨wt, ht⟩ := h w
  obtain ⟨wu, hu⟩ := k wt
  exact ⟨wu, fun o ho => (hu o ho).trans (ht o ho)⟩

theorem setReg {o : Nat} (v : Word) (ho : ¬ keep o) : RegsKept keep s (s.setReg o v) := by
  intro w
  refine ⟨State.setReg_wf s o v w, fun q hq => ?_⟩
  have hne : q ≠ o := fun e => ho (e ▸ hq)
  rw [State.reg_setReg s o q v w, if_neg hne]

theorem setFld {o : Nat} (hi lo v : Nat) (ho : ¬ keep o) : RegsKept keep s (s.setFld o hi lo v) := setReg _ ho

theorem setBit {o : Nat} (n : Nat) (b : Bool) (ho : ¬ keep o) : RegsKept keep s (s.setBit o n b) := setReg _ ho

theorem raise (k : Nat) (l : List Word) (hk : ∀ o ∈ evtRegs, ¬ keep o) : RegsKept keep s (s.raise k l) :=
  fun w => ⟨raise_wf s k l w, fun o ho => raise_reg s k l w o (fun he => hk o he ho)⟩

end RegsKept

end Sys2Proof.Machine

end

section
/-! SUPPORT. Serving a request of a session: the answer that leaves, and the state that the request's effect leaves. -/

namespace Sys2Proof.Machine

open Sys2Proof.Safety

/-- The session once the request in turn has been taken from it (R349). -/
def Session.taken (x : Session) (id : BitVec 32) (rest : List (BitVec 32 × Nat)) : Session :=
  { x with ch := { x.ch with ready := rest, highest := some id } }

/-- The module with the request in turn taken and its effect still to come (R349). -/
def State.taken (s : State) (k : Fin 64) (x : Session) (id : BitVec 32) (rest : List (BitVec 32 × Nat)) : State :=
  { s with sessions := s.sessions.set k (some (x.taken id rest)) }

/-- The session after the answer r to the request (R349). -/
def Session.replied (x : Session) (id : BitVec 32) (rest : List (BitVec 32 × Nat)) (r : Response) : Session :=
  { x with ch := { x.ch with ready := rest, highest := some id, kept := ((id, r) :: x.ch.kept).take 1024, tx := x.ch.tx + 1 } }

/-- The answer r leaves on the session (R349). -/
def State.replied (u : State) (k : Fin 64) (x : Session) (id : BitVec 32) (rest : List (BitVec 32 × Nat)) (r : Response) : State :=
  { u with out := .response x.ch.port x.ch.sid id r :: u.out, sessions := u.sessions.set k (some (x.replied id rest r)) }

variable {s u : State} {k : Fin 64} {x : Session} {id : BitVec 32} {rest : List (BitVec 32 × Nat)} {mt : Nat} {r : Response}

theorem answered_replied : Answered (u.replied k x id rest r) k x id rest r := by
  refine ⟨List.mem_cons_self, ?_⟩
  simp [State.replied, Session.replied]

theorem taken_session : (s.taken k x id rest).sessions[k] = some (x.taken id rest) := by
  simp [State.taken]

theorem outPort_of_up {j : Nat} {nets : Bool × Bool} (h : (s.port j).up = true) : s.outPort j nets = some j := by
  simp [State.outPort, h]

/-- An answer to the request taken leaves by the session's port. -/
theorem respond_eq_replied (hs : u.sessions[k] = some (x.taken id rest))
    (hp : (u.port x.ch.port).up = true) (htx : x.ch.tx + 1 < 2 ^ 32) : u.respond (.ningonus k) id r true = u.replied k x id rest r := by
  have hport : ∀ (v : Vector (Option Session) 64) (nets : Bool × Bool),
      ({ u with sessions := v } : State).outPort x.ch.port nets = some x.ch.port := fun _ _ => outPort_of_up hp
  have hopen : ¬ 4294967295 ≤ x.ch.tx := by omega
  have hs' : u.sessions[k.val] = some (x.taken id rest) := hs
  simp [State.respond, State.sendOn, State.chan?, State.setChan, hs', hport, hopen, Session.taken, State.replied, Session.replied, State.emit]

/-- Requests of known types stay in turn. -/
theorem refuseUnknown_known (fuel : Nat) (hs : ∃ y, u.sessions[k] = some y ∧ ∀ q ∈ y.ch.ready, ningonusTypes.contains q.2 = true) :
    State.refuseUnknown fuel u (.ningonus k) = u := by
  obtain ⟨y, hy, hq⟩ := hs
  have hy' : u.sessions[k.val] = some y := hy
  cases fuel with
  | zero => rfl
  | succ n =>
    cases hr : y.ch.ready with
    | nil => simp [State.refuseUnknown, State.chan?, hy', hr]
    | cons q l =>
      have hk : ningonusTypes.contains q.2 = true := hq q (by simp [hr])
      simp only [State.refuseUnknown, State.chan?, Fin.getElem_fin, hy', Option.map_some, hr, sessionTypes, hk, if_true]

/-- A request whose turn has come takes its effect and is answered, when the effect leaves the sessions alone and the port up (R349, R350). -/
theorem serve_due {effect : State → State × Response} (h : Due s k x mt id rest)
    (hs : (effect (s.taken k x id rest)).1.sessions = (s.taken k x id rest).sessions)
    (hp : (effect (s.taken k x id rest)).1.ports = s.ports) :
    s.serve (.ningonus k) mt effect = (effect (s.taken k x id rest)).1.replied k x id rest (effect (s.taken k x id rest)).2 := by
  obtain ⟨hx, hready, hknown, hrole, htx, hup⟩ := h
  have hx' : s.sessions[k.val] = some x := hx
  have htaken : s.setChan (.ningonus k) { x.ch with ready := rest, highest := some id } = s.taken k x id rest := by
    simp [State.setChan, State.taken, Session.taken, hx']
  have hmay : (s.taken k x id rest).mayServe (.ningonus k) mt = true := by
    simp [State.mayServe, State.taken, Session.taken, hrole]
  have hport : ((effect (s.taken k x id rest)).1.port x.ch.port).up = true := by
    unfold State.port at hup ⊢
    rw [hp]
    exact hup
  simp only [State.serve, State.chan?, hx, Option.map_some, hready, ne_eq, not_true_eq_false, if_false, htaken, hmay, if_true]
  rw [respond_eq_replied (by rw [hs]; exact taken_session) hport htx]
  exact refuseUnknown_known _ ⟨_, answered_replied.2, hknown⟩

end Sys2Proof.Machine

end

section
/-! SUPPORT. The bodies of CSR_READ and CSR_WRITE of one entry, read field by field (R468, R469). -/

namespace Sys2Proof.Machine

open Sys2Proof.Safety

theorem natOfBytes_bytesOfNat (n v : Nat) : natOfBytes (bytesOfNat n v) = v % 256 ^ n := by
  induction n generalizing v with
  | zero => simp [bytesOfNat, natOfBytes, Nat.mod_one]
  | succ n ih =>
    rw [bytesOfNat, natOfBytes, ih, BitVec.toNat_ofNat, show 256 ^ (n + 1) = 256 * 256 ^ n from Nat.pow_succ']
    exact Nat.mod_mul.symm

theorem bodyNat_head (n v : Nat) (b : List Byte) : bodyNat (bytesOfNat n v ++ b) 0 n = v % 256 ^ n := by
  unfold bodyNat
  rw [List.drop_zero, List.take_append_of_le_length (Nat.le_of_eq (bytesOfNat_length n v).symm), List.take_of_length_le (Nat.le_of_eq (bytesOfNat_length n v)),
    natOfBytes_bytesOfNat]

/-- Fields in front of the one read do not matter. -/
theorem bodyNat_skip (m v lo n : Nat) (b : List Byte) (h : m ≤ lo) : bodyNat (bytesOfNat m v ++ b) lo n = bodyNat b (lo - m) n := by
  unfold bodyNat
  rw [List.drop_append, bytesOfNat_length, List.drop_of_length_le (by rw [bytesOfNat_length]; exact h), List.nil_append]

/-- The first 8 bytes of a body of one entry hold its count; the entry follows. -/
theorem oneEntry_count (e : List Byte) : bodyNat (bytesOfNat 2 1 ++ (bytesOfNat 6 0 ++ e)) 0 2 = 1 := bodyNat_head 2 1 _

theorem oneEntry_drop (e : List Byte) : (bytesOfNat 2 1 ++ (bytesOfNat 6 0 ++ e)).drop 8 = e := by simp [bytesOfNat]

/-- The entry of a CSR_WRITE gives offset, mask and value. -/
theorem writeEntry_eq (s : State) (o : Nat) (mask value : Word) (ho : o < 2 ^ 32) :
    s.writeEntry (bytesOfNat 4 o ++ (bytesOfNat 4 0 ++ (bytesOfNat 8 mask.toNat ++ bytesOfNat 8 value.toNat))) = s.csrWriteNgs o mask value := by
  have hoff : o % 256 ^ 4 = o := Nat.mod_eq_of_lt ho
  have hval : bodyNat (bytesOfNat 8 value.toNat) 0 8 = value.toNat % 256 ^ 8 := by
    simpa using bodyNat_head 8 value.toNat []
  have hword : ∀ v : Word, BitVec.ofNat 64 (v.toNat % 256 ^ 8) = v := fun v => by
    rw [Nat.mod_eq_of_lt (by simpa using v.isLt), BitVec.ofNat_toNat, BitVec.setWidth_eq]
  unfold State.writeEntry
  rw [bodyNat_head, hoff, bodyNat_skip 4 o 4 4 _ (by decide), bodyNat_head, bodyNat_skip 4 o 8 8 _ (by decide), bodyNat_skip 4 0 4 8 _ (by decide),
    bodyNat_head, bodyNat_skip 4 o 16 8 _ (by decide), bodyNat_skip 4 0 12 8 _ (by decide), bodyNat_skip 8 mask.toNat 8 8 _ (by decide), hval, hword, hword]
  rfl

/-- A CSR_WRITE of one entry writes that entry and answers with its status. -/
theorem writeBody_oneWrite (s : State) (o : Nat) (mask value : Word) (ho : o < 2 ^ 32) :
    s.writeBody (oneWrite o mask value) = ((s.csrWriteNgs o mask value).1, oneStatus (s.csrWriteNgs o mask value).2) := by
  unfold State.writeBody oneWrite oneStatus
  simp only [List.append_assoc]
  have htake : (bytesOfNat 4 o ++ (bytesOfNat 4 0 ++ (bytesOfNat 8 mask.toNat ++ bytesOfNat 8 value.toNat))).take 24 =
      bytesOfNat 4 o ++ (bytesOfNat 4 0 ++ (bytesOfNat 8 mask.toNat ++ bytesOfNat 8 value.toNat)) :=
    List.take_of_length_le (by simp [bytesOfNat_length])
  rw [oneEntry_count, oneEntry_drop, if_neg (by simp [bytesOfNat_length])]
  simp only [State.writeEntries, htake, writeEntry_eq s o mask value ho, List.append_nil]
  rfl

/-- A CSR_READ of one entry is answered with that entry's status and value. -/
theorem readBody_one (s : State) (o : Nat) (ho : o < 2 ^ 32) (halign : o % 8 = 0) (hassigned : csrAssigned o = true) (hpresent : s.csrAbsent o = false)
    (hmbx : isMailbox o = false) :
    s.readBody (bytesOfNat 2 1 ++ bytesOfNat 6 0 ++ bytesOfNat 4 o ++ bytesOfNat 4 0) =
      { status := 0, body := bytesOfNat 2 1 ++ bytesOfNat 6 0 ++ bytesOfNat 2 0 ++ bytesOfNat 6 0 ++ bytesOfNat 8 (s.csr o).toNat } := by
  have hoff : o % 256 ^ 4 = o := Nat.mod_eq_of_lt ho
  have hzero : bodyNat (bytesOfNat 4 0) 0 4 = 0 := bodyNat_head 4 0 []
  have hentry : s.readEntry (bytesOfNat 4 o ++ bytesOfNat 4 0) = bytesOfNat 2 0 ++ bytesOfNat 6 0 ++ bytesOfNat 8 (s.csr o).toNat := by
    unfold State.readEntry
    rw [bodyNat_head, hoff, bodyNat_skip 4 o 4 4 _ (by decide), hzero]
    simp [halign, hassigned, hpresent, hmbx, State.csrRead, stOk]
  have htake : (bytesOfNat 4 o ++ bytesOfNat 4 0).take 8 = bytesOfNat 4 o ++ bytesOfNat 4 0 :=
    List.take_of_length_le (by simp [bytesOfNat_length])
  unfold State.readBody
  simp only [List.append_assoc]
  rw [oneEntry_count, if_neg (by simp [bytesOfNat_length])]
  simp [List.range_one, oneEntry_drop, htake, hentry, stOk]

end Sys2Proof.Machine

end

section
/-! SUPPORT. A write of one register under MASK and LOCK (R11, R12, R472, R474). -/

namespace Sys2Proof.Machine

open Sys2Proof.Safety

/-- Registers with LOCK whose fields, when written, set off at most the end of PTP lock. -/
def plainRegs : List Nat := [Csr.ftCtl, Csr.chkCtl, Csr.fabCtl, Csr.clCtl, Csr.drlCtl]

/-- The registers with LOCK (R472). -/
def lockedRegs : List Nat := Csr.powCtl :: Csr.poolCtl :: Csr.thmCtl :: Csr.hltCtl :: Csr.memCtl :: Csr.hullCtl :: Csr.ethCtl :: plainRegs

/-- The registers besides o that a write of o can change, the power manager's left out. -/
def alsoRegs (o : Nat) : List Nat := if o = Csr.ftCtl then [Csr.ftStat] else []

theorem plainRegs_subset {o : Nat} (h : o ∈ plainRegs) : o ∈ lockedRegs := by
  simp only [lockedRegs, List.mem_cons, h, or_true]

/-- Every register with LOCK is an assigned one outside the cores' blocks and the mailbox, has LOCK as its only RW field and nothing to clear. -/
theorem lockedRegs_spec : ∀ o ∈ lockedRegs, o % 8 = 0 ∧ o < 2 ^ 32 ∧ csrAssigned o = true ∧ isMailbox o = false ∧
    ¬ (0x20_0000 ≤ o ∧ o < 0x40_0000) ∧ (csrAccess o).rw = lockBit ∧ (csrAccess o).rwl ≠ 0 ∧ (csrAccess o).w1c = 0 := by
  decide

/-- No register with LOCK belongs to a unit that can be absent. -/
theorem csrAbsent_lockedRegs (s : State) {o : Nat} (h : o ∈ lockedRegs) : s.csrAbsent o = false := by
  have hout : ∀ o ∈ lockedRegs, ¬ (0x20_0000 ≤ o ∧ o < 0x40_0000) ∧ ¬ (0x50_8000 ≤ o ∧ o < 0x51_0000) ∧
      ∀ t ∈ [(Csr.powCore 0, 32), (Csr.chkCoreCnt 0, 32), (Csr.spdEcc 0, 32), (Csr.spdUeAddr 0, 32), (Csr.fabMsgErr 0, 32), (Csr.cartInfo 0, 4),
        (Csr.lasStat 0, 24), (Csr.lasBias 0, 24), (Csr.optLane 0, 128), (Csr.optFec 0, 128), (Csr.hoptStat 0, 8), (Csr.ethPortStat 0, 8),
        (Csr.ethPortCnt 0, 8)], inTable o t.1 8 t.2 = false := by
    decide
  obtain ⟨hcore, hstack, htables⟩ := hout o h
  simp only [List.forall_mem_cons, List.not_mem_nil, false_implies, implies_true, and_true] at htables
  simp [State.csrAbsent, hcore, hstack, htables]

/-- What a write of VALUE under MASK makes of a register's old value (R11, R12). -/
def csrNew (a : Access) (old mask value : Word) : Word :=
  let rwl : Word := if a.rwl ≠ 0 ∧ old.bit 63 = true then 0 else a.rwl
  let held : Word := if a.rwl ≠ 0 then old &&& lockBit else 0
  let take := a.rw ||| rwl
  let put := (old &&& ~~~ mask) ||| (value &&& mask)
  (((old &&& ~~~ take) ||| (put &&& take)) ||| held) &&& ~~~ (a.w1c &&& mask &&& value)

/-- The status of that write (R469, R472). -/
def csrStatus (a : Access) (old mask value : Word) : Nat :=
  if (a.rwl ≠ 0 ∧ old.bit 63 = true) ∧ (mask &&& a.rwl ≠ 0 ∨ (mask.bit 63 = true ∧ value.bit 63 = false)) then stLocked
  else if mask &&& ~~~ (a.rw ||| a.rwl ||| a.w1c ||| a.wo) ≠ 0 then stReadOnly
  else stOk

/-- A write over Ningonus of a register with LOCK whose new value the register takes. -/
theorem csrWriteNgs_eq (s : State) {o : Nat} {mask value : Word} (h : o ∈ lockedRegs) (hrej : ∀ new, csrRejects o mask new = false) :
    s.csrWriteNgs o mask value =
      (let new := csrNew (csrAccess o) (s.reg o) mask value
       (if new = s.reg o then s else s.setReg o new).csrActs o ((csrAccess o).wo &&& mask &&& value) (s.reg o) new,
        csrStatus (csrAccess o) (s.reg o) mask value) := by
  obtain ⟨halign, -, hassigned, hmbx, hcore, -⟩ := lockedRegs_spec o h
  simp [State.csrWriteNgs, State.csrWrite, hmbx, halign, hassigned, csrAbsent_lockedRegs s h, hrej, hcore, State.csrStore, csrNew, csrStatus]

theorem lockBit_bit (b : Nat) (hb : b < 64) : lockBit.bit b = decide (b = 63) := by
  revert b
  decide

/-- The new value bit by bit: writable bits under MASK come from VALUE, and a LOCK bit stays set. -/
theorem csrNew_bit {o : Nat} (h : o ∈ lockedRegs) (old mask value : Word) {b : Nat} (hb : b < 64) :
    (csrNew (csrAccess o) old mask value).bit b =
      ((if (decide (b = 63) || ((csrAccess o).rwl.bit b && !old.bit 63)) && mask.bit b then value.bit b else old.bit b) || (decide (b = 63) && old.bit b)) := by
  obtain ⟨-, -, -, -, -, hrw, hrwl, hw1c⟩ := lockedRegs_spec o h
  have hlock : lockBit.getLsbD b = decide (b = 63) := lockBit_bit b hb
  unfold csrNew Word.bit
  rw [hrw, hw1c]
  by_cases hl : old.getLsbD 63 = true
  · simp only [hrwl, hl, ne_eq, not_false_eq_true, and_self, if_true, BitVec.getLsbD_and, BitVec.getLsbD_or, BitVec.getLsbD_not, hlock, hb]
    by_cases h63 : b = 63 <;> cases mask.getLsbD b <;> simp [h63]
  · simp only [hrwl, hl, ne_eq, not_false_eq_true, if_true, BitVec.getLsbD_and, BitVec.getLsbD_or, BitVec.getLsbD_not, hlock, hb]
    by_cases h63 : b = 63 <;> cases mask.getLsbD b <;> cases hr : (csrAccess o).rwl.getLsbD b <;> simp [h63, hr]

end Sys2Proof.Machine

end

section
/-! SUPPORT. What a write of a register with LOCK sets off, and the request that writes one. -/

namespace Sys2Proof.Machine

open Sys2Proof.Safety

/-- From s to t nothing that a register request's frame speaks of has changed but the registers listed and those that show events. -/
structure OnlyRegs (offs : List Nat) (s t : State) : Prop where
  mem : t.mem = s.mem
  cores : t.cores = s.cores
  sessions : t.sessions = s.sessions
  ports : t.ports = s.ports
  regs : RegsKept (fun o => o ∉ offs ∧ o ∉ evtRegs) s t

namespace OnlyRegs

variable {offs : List Nat} {s t u : State} {o : Nat}

theorem refl : OnlyRegs offs s s := ⟨rfl, rfl, rfl, rfl, RegsKept.of_regs_eq rfl⟩

theorem trans (h : OnlyRegs offs s t) (k : OnlyRegs offs t u) : OnlyRegs offs s u :=
  ⟨k.mem.trans h.mem, k.cores.trans h.cores, k.sessions.trans h.sessions, k.ports.trans h.ports, h.regs.trans k.regs⟩

theorem mono {more : List Nat} (h : OnlyRegs offs s t) (hsub : ∀ o ∈ offs, o ∈ more) : OnlyRegs more s t :=
  ⟨h.mem, h.cores, h.sessions, h.ports, fun w => ⟨(h.regs w).1, fun o ho => (h.regs w).2 o ⟨fun hm => ho.1 (hsub o hm), ho.2⟩⟩⟩

theorem setReg (v : Word) (ho : o ∈ offs) : OnlyRegs offs s (s.setReg o v) :=
  ⟨rfl, rfl, rfl, rfl, RegsKept.setReg v (fun h => h.1 ho)⟩

theorem setFld (hi lo v : Nat) (ho : o ∈ offs) : OnlyRegs offs s (s.setFld o hi lo v) := setReg _ ho

theorem ite {c : Prop} [Decidable c] (ht : OnlyRegs offs s t) (hu : OnlyRegs offs s u) : OnlyRegs offs s (if c then t else u) := by
  split
  · exact ht
  · exact hu

end OnlyRegs

variable {s : State} {o : Nat} {act old new : Word}

/-- Of these registers only FT_CTL's ENABLE sets something off: PTP lock ends without it (R407). -/
theorem csrActs_plain (h : o ∈ plainRegs) : OnlyRegs (alsoRegs o) s (s.csrActs o act old new) := by
  by_cases hft : o = Csr.ftCtl
  · subst hft
    have hacts : s.csrActs Csr.ftCtl act old new =
        if new.bit 0 then s else State.setBit { s with time := { s.time with ptpLocked := false } } Csr.ftStat 60 false := rfl
    rw [hacts]
    have hunlock : OnlyRegs (alsoRegs Csr.ftCtl) s { s with time := { s.time with ptpLocked := false } } :=
      ⟨rfl, rfl, rfl, rfl, RegsKept.of_regs_eq rfl⟩
    exact .ite .refl (hunlock.trans (.setFld _ _ _ (by decide)))
  · have hacts : s.csrActs o act old new = s := by
      simp only [plainRegs, List.mem_cons, List.not_mem_nil, or_false, hft, false_or] at h
      rcases h with rfl | rfl | rfl | rfl <;> rfl
    rw [hacts]
    exact .refl

/-- A write that changes LOCK alone sets off nothing but what POW_STAT and POOL_STAT show. -/
theorem csrActs_lock (h : o ∈ lockedRegs) (hlow : new.field 15 0 = old.field 15 0) (hilv : new.field 1 0 = old.field 1 0) (hact : act.bit 16 = false) :
    OnlyRegs (Csr.powStat :: Csr.poolStat :: alsoRegs o) s (s.csrActs o act old new) := by
  have hplain : o ∈ plainRegs → OnlyRegs (Csr.powStat :: Csr.poolStat :: alsoRegs o) s (s.csrActs o act old new) := fun hp =>
    (csrActs_plain hp).mono (fun _ hq => List.mem_cons_of_mem _ (List.mem_cons_of_mem _ hq))
  simp only [lockedRegs, List.mem_cons] at h
  rcases h with rfl | rfl | rfl | rfl | rfl | rfl | rfl | h
  · show OnlyRegs _ s (if old.field 15 0 ≠ new.field 15 0 then _ else _)
    rw [if_neg (fun hne => hne hlow.symm)]
    exact .ite (.setFld _ _ _ List.mem_cons_self) .refl
  · show OnlyRegs _ s (if old ≠ new ∧ s.fld Csr.poolStat 63 61 = 3 then _ else _)
    exact .ite (.setFld _ _ _ (List.mem_cons_of_mem _ List.mem_cons_self)) .refl
  · exact .refl
  · show OnlyRegs _ s (if act.bit 16 then _ else _)
    rw [hact]
    exact .refl
  · show OnlyRegs _ s (if old.field 1 0 = new.field 1 0 then _ else _)
    rw [if_pos hilv.symm]
    exact .refl
  · show OnlyRegs _ s (if act.bit 16 then _ else _)
    rw [hact]
    exact .refl
  · exact .refl
  · exact hplain h

variable {k : Fin 64} {x : Session} {id : BitVec 32} {rest : List (BitVec 32 × Nat)} {mask value : Word} {offs : List Nat}

/-- A request that writes one register with LOCK is answered with the write's status and leaves the register at its new value; the frame is that of what
the write sets off. -/
theorem exec_csrWrite_oneWrite (hw : regsCanonical s) (ho : o ∈ lockedRegs) (hd : Due s k x 0x3 id rest)
    (hrej : ∀ new, csrRejects o mask new = false)
    (hacts : ∀ u : State, OnlyRegs offs u (u.csrActs o ((csrAccess o).wo &&& mask &&& value) (s.reg o) (csrNew (csrAccess o) (s.reg o) mask value)))
    (hoff : o ∉ offs) :
    ∃ t, exec (.csrWrite k (oneWrite o mask value)) s = .next t ∧ Answered t k x id rest (oneStatus (csrStatus (csrAccess o) (s.reg o) mask value)) ∧
      t.reg o = csrNew (csrAccess o) (s.reg o) mask value ∧ Frame s t (o :: offs) := by
  obtain ⟨-, hlt, -⟩ := lockedRegs_spec o ho
  let new := csrNew (csrAccess o) (s.reg o) mask value
  let s₁ := s.taken k x id rest
  let s₂ := if new = s.reg o then s₁ else s₁.setReg o new
  let u := s₂.csrActs o ((csrAccess o).wo &&& mask &&& value) (s.reg o) new
  have hbody : s₁.writeBody (oneWrite o mask value) = (u, oneStatus (csrStatus (csrAccess o) (s.reg o) mask value)) := by
    rw [writeBody_oneWrite _ _ _ _ hlt, csrWriteNgs_eq _ ho hrej]
    rfl
  have hstore : OnlyRegs (o :: offs) s₁ s₂ := .ite .refl (.setReg _ List.mem_cons_self)
  have hall : OnlyRegs (o :: offs) s₁ u := hstore.trans ((hacts s₂).mono (fun _ hq => List.mem_cons_of_mem _ hq))
  have hevt : o ∉ evtRegs := (show ∀ o ∈ lockedRegs, o ∉ evtRegs by decide) o ho
  have hs₂ : s₂.reg o = new := by
    by_cases he : new = s.reg o
    · simp only [s₂, if_pos he]
      exact he.symm
    · simp only [s₂, if_neg he]
      rw [State.reg_setReg s₁ _ _ _ hw, if_pos rfl]
  refine ⟨u.replied k x id rest (oneStatus (csrStatus (csrAccess o) (s.reg o) mask value)), ?_, answered_replied, ?_, ?_, ?_, ?_⟩
  · have hserve := serve_due (effect := fun s => s.writeBody (oneWrite o mask value)) hd
      (by rw [hbody]; exact hall.sessions) (by rw [hbody]; exact hall.ports)
    rw [hbody] at hserve
    exact congrArg _ hserve
  · exact (((hacts s₂).regs (hstore.regs hw).1).2 o ⟨hoff, hevt⟩).trans hs₂
  · intro a
    exact congrArg (fun m => sparseGet memDefault m a) hall.mem
  · exact hall.cores
  · exact fun q hq hqe => (hall.regs hw).2 q ⟨hq, hqe⟩

end Sys2Proof.Machine

end

section
/-! PROOFS. Reading and writing registers on a session. -/

namespace Sys2Proof.Machine

open Sys2Proof.Safety

variable {s : State} {k : Fin 64} {x : Session} {id : BitVec 32} {rest : List (BitVec 32 × Nat)} {o : Nat} {mask value : Word}

/-- A request without effect is answered, and nothing but the outputs and the sessions changes. -/
theorem serve_readOnly {mt : Nat} {answer : State → Response} (hd : Due s k x mt id rest) :
    ∃ t, s.serve (.ningonus k) mt (fun s => (s, answer s)) = t ∧ Answered t k x id rest (answer (s.taken k x id rest)) ∧
      t = { s with out := t.out, sessions := t.sessions } :=
  ⟨_, serve_due hd rfl rfl, answered_replied, rfl⟩

/-- A core's register is read off the cores and the time alone. The kernel must not reduce `o - 0x20_0000` of an unknown offset (it would count down from
the literal), so the definition is unfolded as a function, before it is applied. -/
theorem coreCsr_congr {t : State} (hcores : t.cores = s.cores) (hnow : t.now = s.now) : t.coreCsr o = s.coreCsr o := by
  suffices happlied : ∀ f, f = @State.coreCsr → f t o = f s o from happlied _ rfl
  intro f hf
  delta State.coreCsr at hf
  rw [hf]
  dsimp only
  rw [hcores, hnow]

/-- What is read depends on no session but in NGS_STAT. -/
theorem csr_taken (hngs : o ≠ Csr.ngsStat) : (s.taken k x id rest).csr o = s.csr o := by
  have hcore : (s.taken k x id rest).coreCsr o = s.coreCsr o := coreCsr_congr rfl rfl
  have hmask : (s.taken k x id rest).coreMaskWord = s.coreMaskWord := rfl
  have hft : (s.taken k x id rest).ft = s.ft := rfl
  have hstack : ∀ c, (s.taken k x id rest).stackPresent c = s.stackPresent c := fun _ => rfl
  have hreg : (s.taken k x id rest).reg o = s.reg o := rfl
  simp only [State.csr, hngs, if_false, hcore, hmask, hft, hstack, hreg]

theorem csrAbsent_taken : (s.taken k x id rest).csrAbsent o = s.csrAbsent o := by
  have hcore : ∀ n, (s.taken k x id rest).corePresent n = s.corePresent n := fun _ => rfl
  have hstack : ∀ c, (s.taken k x id rest).stackPresent c = s.stackPresent c := fun _ => rfl
  have hcart : ∀ c, (s.taken k x id rest).cartAbsent c = s.cartAbsent c := fun _ => rfl
  have hlane : ∀ i, (s.taken k x id rest).laneState i = s.laneState i := fun _ => rfl
  have hhost : ∀ j, (s.taken k x id rest).hostPresent j = s.hostPresent j := fun _ => rfl
  simp only [State.csrAbsent, hcore, hstack, hcart, hlane, hhost]

theorem csrRejects_plain (h : o ∈ plainRegs) (m new : Word) : csrRejects o m new = false := by
  simp only [plainRegs, List.mem_cons, List.not_mem_nil, or_false] at h
  rcases h with rfl | rfl | rfl | rfl | rfl <;> rfl

/-- A write of LOCK alone reaches no field with a range. -/
theorem csrRejects_lock (new : Word) : csrRejects o lockBit new = false := by
  have huntouched : ∀ f ∈ [(15, 0), (23, 16), (15, 8), (7, 0), (17, 16), (1, 0)], (lockBit &&& Word.mask f.1 f.2 != 0) = false := by decide
  simp only [List.forall_mem_cons, List.not_mem_nil, false_implies, implies_true, and_true] at huntouched
  simp only [csrRejects, huntouched, Bool.false_and, Bool.or_false, ite_self]

/-- Registers that agree below LOCK agree in every field below it. -/
theorem field_eq_of_bits {a b : Word} {hi lo : Nat} (hhi : hi < 63) (h : ∀ i, i < 63 → a.bit i = b.bit i) : a.field hi lo = b.field hi lo := by
  apply Nat.eq_of_testBit_eq
  intro i
  rw [Word.testBit_field, Word.testBit_field]
  by_cases hi' : i < hi + 1 - lo
  · have hbit : a.getLsbD (lo + i) = b.getLsbD (lo + i) := h _ (by omega)
    rw [hbit]
  · simp [hi']

/-- LOCK written as 1 is set, and every other bit stays (R12). -/
theorem csrNew_lock_bit (h : o ∈ lockedRegs) (old : Word) {b : Nat} (hb : b < 64) :
    (csrNew (csrAccess o) old lockBit lockBit).bit b = (b == 63 || old.bit b) := by
  rw [csrNew_bit h old lockBit lockBit hb, lockBit_bit b hb]
  by_cases h63 : b = 63 <;> simp [h63]

theorem csrStatus_lock (h : o ∈ lockedRegs) (old : Word) : csrStatus (csrAccess o) old lockBit lockBit = 0 := by
  have hmasks : ∀ o ∈ lockedRegs, lockBit &&& (csrAccess o).rwl = 0 ∧
      lockBit &&& ~~~ ((csrAccess o).rw ||| (csrAccess o).rwl ||| (csrAccess o).w1c ||| (csrAccess o).wo) = 0 := by decide
  obtain ⟨hrwl, hrest⟩ := hmasks o h
  simp [csrStatus, hrwl, hrest, lockBit_bit, stOk]

/-- A register whose LOCK is set stays as it is (R12). -/
theorem csrNew_locked (h : o ∈ lockedRegs) {old : Word} (hl : old.bit 63 = true) : csrNew (csrAccess o) old mask value = old := by
  apply BitVec.eq_of_getLsbD_eq
  intro b hb
  have hbit := csrNew_bit h old mask value hb
  rw [hl] at hbit
  unfold Word.bit at hbit hl
  by_cases h63 : b = 63
  · subst h63
    rw [hbit]
    simp [hl]
  · rw [hbit]
    simp [h63]

theorem csrAccess_plain_none : ∀ o ∈ plainRegs, (csrAccess o).w1c = 0 ∧ (csrAccess o).wo = 0 := by decide

theorem plainRegs_not_also : ∀ o ∈ plainRegs, o ∉ alsoRegs o := by decide

/-- An unlocked register takes VALUE's bits in its RW and RWL fields under MASK, and keeps the others (R11). -/
theorem csrNew_unlocked_bit (h : o ∈ lockedRegs) {old : Word} (hl : old.bit 63 = false) {b : Nat} (hb : b < 64) :
    (csrNew (csrAccess o) old mask value).bit b = if mask.bit b && ((csrAccess o).rw ||| (csrAccess o).rwl).bit b then value.bit b else old.bit b := by
  obtain ⟨-, -, -, -, -, hrw, -⟩ := lockedRegs_spec o h
  have hmay : ((csrAccess o).rw ||| (csrAccess o).rwl).bit b = (decide (b = 63) || (csrAccess o).rwl.bit b) := by
    rw [hrw, ← lockBit_bit b hb]
    exact BitVec.getLsbD_or
  have hheld : (decide (b = 63) && old.bit b) = false := by
    by_cases h63 : b = 63
    · subst h63
      simp [hl]
    · simp [h63]
  rw [csrNew_bit h old mask value hb, hl, hheld, hmay, Bool.and_comm]
  simp [Word.bit]

theorem csrStatus_unlocked (h : o ∈ plainRegs) {old : Word} (hl : old.bit 63 = false) :
    csrStatus (csrAccess o) old mask value = if mask &&& ~~~ ((csrAccess o).rw ||| (csrAccess o).rwl) = 0 then 0 else 6 := by
  obtain ⟨hw1c, hwo⟩ := csrAccess_plain_none o h
  simp [csrStatus, hl, hw1c, hwo, stOk, stReadOnly]

theorem csrStatus_locked (h : o ∈ lockedRegs) {old : Word} (hl : old.bit 63 = true) (hm : mask &&& (csrAccess o).rwl ≠ 0) :
    csrStatus (csrAccess o) old mask value = 5 := by
  obtain ⟨-, -, -, -, -, -, hrwl, -⟩ := lockedRegs_spec o h
  rw [csrStatus, if_pos ⟨⟨hrwl, hl⟩, .inl hm⟩]
  rfl

/-- A write of a register of the plain list, with the registers that it can change. -/
theorem exec_csrWrite_plain (hw : regsCanonical s) (ho : o ∈ plainRegs) (hd : Due s k x 0x3 id rest) :
    ∃ t, exec (.csrWrite k (oneWrite o mask value)) s = .next t ∧ Answered t k x id rest (oneStatus (csrStatus (csrAccess o) (s.reg o) mask value)) ∧
      t.reg o = csrNew (csrAccess o) (s.reg o) mask value ∧ Frame s t (o :: alsoRegs o) :=
  exec_csrWrite_oneWrite hw (plainRegs_subset ho) hd (csrRejects_plain ho mask) (fun _ => csrActs_plain ho) (plainRegs_not_also o ho)

/-- LOCK_WRITE of a register, with the registers that it can change (R12, R472). -/
theorem exec_lockWrite {o : BitVec 32} (hw : regsCanonical s) (ho : o.toNat ∈ lockedRegs) (hd : Due s k x 0x3 id rest) :
    ∃ t, exec (.lockWrite k o) s = .next t ∧ Answered t k x id rest (oneStatus 0) ∧
      (∀ b, b < 64 → (t.reg o.toNat).bit b = (b == 63 || (s.reg o.toNat).bit b)) ∧
      Frame s t (o.toNat :: Csr.powStat :: Csr.poolStat :: alsoRegs o.toNat) := by
  have hsame : ∀ i, i < 63 → (csrNew (csrAccess o.toNat) (s.reg o.toNat) lockBit lockBit).bit i = (s.reg o.toNat).bit i := fun i hi => by
    rw [csrNew_lock_bit ho _ (by omega)]
    simp [show i ≠ 63 by omega]
  have hact : ((csrAccess o.toNat).wo &&& lockBit &&& lockBit).bit 16 = false := by
    have hlock : lockBit.getLsbD 16 = false := by decide
    rw [Word.bit, BitVec.getLsbD_and, hlock, Bool.and_false]
  have hoff : ∀ q ∈ lockedRegs, q ∉ Csr.powStat :: Csr.poolStat :: alsoRegs q := by decide
  obtain ⟨t, ht, hanswer, hreg, hframe⟩ := exec_csrWrite_oneWrite (mask := lockBit) (value := lockBit) hw ho hd csrRejects_lock
    (fun _ => csrActs_lock ho (field_eq_of_bits (by decide) hsame) (field_eq_of_bits (by decide) hsame) hact) (hoff _ ho)
  rw [csrStatus_lock ho] at hanswer
  exact ⟨t, ht, hanswer, fun b hb => by rw [hreg, csrNew_lock_bit ho _ hb], hframe⟩

/-- Settles O47: each request is served as `serve_due` says, and the effect of a write is `csrNew` on the one register. -/
theorem registerRequests : Obligations.RegisterRequests := by
  intro s k x id rest hw
  refine ⟨?ping, ?read, ?write, ?locked, ?lock⟩
  case ping =>
    intro hd
    obtain ⟨t, ht, hanswer, hframe⟩ := serve_readOnly (answer := fun _ => plain stOk) hd
    exact ⟨t, congrArg _ ht, hanswer, hframe⟩
  case read =>
    intro o hd hlt halign hassigned hpresent hmbx hngs
    obtain ⟨t, ht, hanswer, hframe⟩ := serve_readOnly
      (answer := fun s => s.readBody (bytesOfNat 2 1 ++ bytesOfNat 6 0 ++ bytesOfNat 4 o ++ bytesOfNat 4 0)) hd
    rw [readBody_one _ _ hlt halign hassigned (csrAbsent_taken.trans hpresent) hmbx, csr_taken hngs] at hanswer
    exact ⟨t, congrArg _ ht, hanswer, hframe⟩
  case write =>
    intro o mask value hd ho hl
    obtain ⟨t, ht, hanswer, hreg, hframe⟩ := exec_csrWrite_plain (mask := mask) (value := value) hw ho hd
    rw [csrStatus_unlocked ho hl] at hanswer
    exact ⟨t, ht, hanswer, fun b hb => by rw [hreg, csrNew_unlocked_bit (plainRegs_subset ho) hl hb], hframe⟩
  case locked =>
    intro o mask value hd ho hl hm
    obtain ⟨t, ht, hanswer, hreg, hframe⟩ := exec_csrWrite_plain (mask := mask) (value := value) hw ho hd
    rw [csrStatus_locked (plainRegs_subset ho) hl hm] at hanswer
    exact ⟨t, ht, hanswer, hreg.trans (csrNew_locked (plainRegs_subset ho) hl), hframe⟩
  case lock =>
    intro o hd ho
    exact exec_lockWrite hw ho hd

end Sys2Proof.Machine

end

section
/-! SUPPORT. What the rows of the boot table leave as it was (R424): memory, the image that runs, the place in the table, the outputs already sent, and the
registers of state, identity and versions but in the row that sets them. -/

namespace Sys2Proof.Machine

open Sys2Proof.Safety

/-- What every row of the boot table leaves alone, with the registers `keep`. -/
structure RowKeeps (keep : List Nat) (s t : State) : Prop where
  mem : t.mem = s.mem
  running : t.running = s.running
  boot : t.boot = s.boot
  sent : Sent s t
  regs : RegsKept (· ∈ keep) s t

/-- What a part of a row leaves alone: fabric time and the units of the module as well. -/
structure BootKeeps (keep : List Nat) (s t : State) : Prop extends RowKeeps keep s t where
  ft : t.ft = s.ft
  part : t.part = s.part
  h1Lost : t.h1Lost = s.h1Lost

theorem RowKeeps.trans {keep : List Nat} {s t u : State} (h : RowKeeps keep s t) (k : RowKeeps keep t u) : RowKeeps keep s u :=
  ⟨k.mem.trans h.mem, k.running.trans h.running, k.boot.trans h.boot, h.sent.trans k.sent, h.regs.trans k.regs⟩

theorem RowKeeps.of_same {keep : List Nat} {s t : State} (hm : t.mem = s.mem) (hr : t.running = s.running) (hb : t.boot = s.boot)
    (ho : t.out = s.out) (hg : t.regs = s.regs) : RowKeeps keep s t :=
  ⟨hm, hr, hb, Sent.of_eq ho, RegsKept.of_regs_eq hg⟩

theorem RowKeeps.ite {keep : List Nat} {c : Prop} [Decidable c] {s t u : State} (ht : RowKeeps keep s t) (hu : RowKeeps keep s u) :
    RowKeeps keep s (if c then t else u) := by
  split
  · exact ht
  · exact hu

theorem RowKeeps.mono {keep less : List Nat} {s t : State} (h : RowKeeps keep s t) (hsub : less ⊆ keep) : RowKeeps less s t :=
  ⟨h.mem, h.running, h.boot, h.sent, fun w => ⟨(h.regs w).1, fun o ho => (h.regs w).2 o (hsub ho)⟩⟩

theorem RowKeeps.mstate {keep : List Nat} {s t : State} (h : RowKeeps keep s t) (hk : Csr.powStat ∈ keep) (w : regsCanonical s) : t.mstate = s.mstate := by
  unfold State.mstate State.fld
  rw [(h.regs w).2 _ hk]

namespace BootKeeps

variable {keep : List Nat} {s t u : State} {o : Nat}

theorem trans (h : BootKeeps keep s t) (k : BootKeeps keep t u) : BootKeeps keep s u :=
  ⟨h.toRowKeeps.trans k.toRowKeeps, k.ft.trans h.ft, k.part.trans h.part, k.h1Lost.trans h.h1Lost⟩

theorem refl : BootKeeps keep s s := ⟨.of_same rfl rfl rfl rfl rfl, rfl, rfl, rfl⟩

theorem mono {less : List Nat} (h : BootKeeps keep s t) (hsub : less ⊆ keep) : BootKeeps less s t :=
  ⟨h.toRowKeeps.mono hsub, h.ft, h.part, h.h1Lost⟩

/-- An update of fields that no row's frame speaks of. -/
theorem aside (h : BootKeeps keep s t) (hm : u.mem = t.mem) (hr : u.running = t.running) (hb : u.boot = t.boot) (ho : u.out = t.out)
    (hg : u.regs = t.regs) (hf : u.ft = t.ft) (hp : u.part = t.part) (hl : u.h1Lost = t.h1Lost) : BootKeeps keep s u :=
  h.trans ⟨.of_same hm hr hb ho hg, hf, hp, hl⟩

theorem setReg (h : BootKeeps keep s t) (v : Word) (ho : o ∉ keep) : BootKeeps keep s (t.setReg o v) :=
  h.trans ⟨⟨rfl, rfl, rfl, Sent.refl _, RegsKept.setReg v ho⟩, rfl, rfl, rfl⟩

theorem setFld (h : BootKeeps keep s t) (hi lo v : Nat) (ho : o ∉ keep) : BootKeeps keep s (t.setFld o hi lo v) := h.setReg _ ho

theorem setBit (h : BootKeeps keep s t) (n : Nat) (b : Bool) (ho : o ∉ keep) : BootKeeps keep s (t.setBit o n b) := h.setReg _ ho

theorem drew (h : BootKeeps keep s t) : BootKeeps keep s t.drew := h.aside rfl rfl rfl rfl rfl rfl rfl rfl

theorem raise (h : BootKeeps keep s t) (k : Nat) (l : List Word) (hk : ∀ o ∈ evtRegs, o ∉ keep) : BootKeeps keep s (t.raise k l) :=
  h.trans ⟨⟨State.raise_mem .., State.raise_running .., State.raise_boot .., raise_sent _ k l, RegsKept.raise k l hk⟩, State.raise_ft ..,
    State.raise_part .., State.raise_h1Lost ..⟩

theorem ite {c : Prop} [Decidable c] (ht : BootKeeps keep s t) (hu : BootKeeps keep s u) : BootKeeps keep s (if c then t else u) := by
  split
  · exact ht
  · exact hu

/-- A fold each step of which keeps it. -/
theorem foldl {α : Type} {f : State → α → State} {l : List α} (h : BootKeeps keep s t) (hf : ∀ u, ∀ a ∈ l, BootKeeps keep u (f u a)) :
    BootKeeps keep s (l.foldl f t) :=
  List.foldlRecOn l f h (fun v hv a ha => hv.trans (hf v a ha))

end BootKeeps

/-- The registers of state, identity, version and level that a row, once it has set them, leaves alone. -/
def shownRegs : List Nat := [Csr.powStat, Csr.secStat, Csr.fwVer, Csr.fabLvl]

/-- Registers of the fabric's paths, the Hull and the link to H1 are none of them. -/
theorem not_shown {o : Nat} (h : 0x60_0010 < o ∧ o < 0xA0_0000 ∨ 0xB0_0000 < o) : o ∉ shownRegs := by
  intro hm
  simp only [shownRegs, List.mem_cons, List.not_mem_nil, or_false, Csr.powStat, Csr.secStat, Csr.fwVer, Csr.fabLvl] at hm
  omega

theorem evtRegs_not_shown : ∀ o ∈ evtRegs, o ∉ shownRegs := by decide

variable {s t : State}

/-! ### The Hull's registers -/

theorem syncSweep_keeps (c : Fin 2) (h : BootKeeps shownRegs s t) : BootKeeps shownRegs s (t.syncSweep c) := by
  unfold State.syncSweep
  refine .ite h ?_
  dsimp only
  split
  · refine BootKeeps.raise ?_ _ _ evtRegs_not_shown
    exact h.aside rfl rfl rfl rfl rfl rfl rfl rfl
  · exact h.aside rfl rfl rfl rfl rfl rfl rfl rfl

theorem syncHull_keeps (h : BootKeeps shownRegs s t) : BootKeeps shownRegs s t.syncHull := by
  unfold State.syncHull
  exact ((syncSweep_keeps 1 (syncSweep_keeps 0 h)).setReg _ (by decide)).foldl (fun u p _ => BootKeeps.refl.raise _ _ evtRegs_not_shown)

theorem setFeed_keeps {c : Nat} (k m : Nat) (hc : c < 2) (h : BootKeeps shownRegs s t) : BootKeeps shownRegs s (t.setFeed c k m) :=
  (h.setFld _ _ _ (not_shown (by simp only [Csr.cartWmap]; omega))).aside rfl rfl rfl rfl rfl rfl rfl rfl

theorem refeed_keeps {c : Nat} (k : Nat) (hc : c < 2) (h : BootKeeps shownRegs s t) : BootKeeps shownRegs s (t.refeed c k) := by
  unfold State.refeed
  refine .ite h ?_
  split
  · exact setFeed_keeps _ _ hc h
  · exact (setFeed_keeps _ _ hc h).raise _ _ evtRegs_not_shown

theorem bootCart_keeps {c : Nat} (present valid : Bool) (serial : BitVec 32) (hours : BitVec 16) (bol : List Nat) (power : List (BitVec 16)) (hc : c < 2)
    (h : BootKeeps shownRegs s t) : BootKeeps shownRegs s (t.bootCart c present valid serial hours bol power) := by
  have hlas : ∀ m ∈ List.range 12, Csr.lasStat (12 * c + m) ∉ shownRegs ∧ Csr.lasBias (12 * c + m) ∉ shownRegs := fun m hm => by
    have hm' : m < 12 := List.mem_range.mp hm
    exact ⟨not_shown (by simp only [Csr.lasStat]; omega), not_shown (by simp only [Csr.lasBias]; omega)⟩
  have hinfo (v : Word) : BootKeeps shownRegs s (t.setReg (Csr.cartInfo c) v) := h.setReg v (not_shown (by simp only [Csr.cartInfo]; omega))
  have hwmap : Csr.cartWmap c ∉ shownRegs := not_shown (by simp only [Csr.cartWmap]; omega)
  unfold State.bootCart
  refine .ite h ?_
  extract_lets s₁ f new f₁ hull s₂ s₃ s₄
  have h₁ : BootKeeps shownRegs s s₁ := hinfo _
  have h₂ : BootKeeps shownRegs s s₂ := h₁.aside rfl rfl rfl rfl rfl rfl rfl rfl
  have h₄ : BootKeeps shownRegs s s₄ :=
    (h₂.setReg _ hwmap).foldl (fun u m hm => (BootKeeps.refl.setFld _ _ _ (hlas m hm).1).setFld _ _ _ (hlas m hm).2)
  exact .ite (h₁.raise _ _ evtRegs_not_shown) (h₄.foldl (fun u k _ => refeed_keeps k hc .refl))

theorem bootHosts_keeps (h : BootKeeps shownRegs s t) : BootKeeps shownRegs s t.bootHosts := by
  unfold State.bootHosts
  refine h.foldl (fun u j hj => ?_)
  have hhopt : Csr.hoptStat j ∉ shownRegs := not_shown (by have := List.mem_range.mp hj; simp only [Csr.hoptStat]; omega)
  exact .ite ((BootKeeps.refl.setFld _ _ _ hhopt).setFld _ _ _ hhopt) (BootKeeps.refl.setFld _ _ _ hhopt)

theorem bootLanes_keeps {ps : List Nat} (hps : ∀ p ∈ ps, p < 16) (h : BootKeeps shownRegs s t) : BootKeeps shownRegs s (t.bootLanes ps) := by
  unfold State.bootLanes
  refine h.foldl (fun u i hi => ?_)
  have hi' : i < 128 := by
    obtain ⟨p, hp, hlane⟩ := List.mem_flatMap.mp hi
    obtain ⟨k, hk, rfl⟩ := List.mem_map.mp hlane
    have := hps p hp
    have := List.mem_range.mp hk
    omega
  have hset (a b : Word) : BootKeeps shownRegs u ((u.setReg (Csr.optLane i) a).setReg (Csr.fabPath i) b) :=
    (BootKeeps.refl.setReg a (not_shown (by simp only [Csr.optLane]; omega))).setReg b (not_shown (by simp only [Csr.fabPath]; omega))
  exact .ite (hset _ _) (.ite (hset _ _) (hset _ _))

end Sys2Proof.Machine

end

section
/-! SUPPORT. Fields and bits of a word put together from placed numbers. -/

namespace Sys2Proof

theorem Word.bit_or (a b : Word) (k : Nat) : (a ||| b).bit k = (a.bit k || b.bit k) := BitVec.getLsbD_or

theorem Word.field_or (a b : Word) (hi lo : Nat) : (a ||| b).field hi lo = a.field hi lo ||| b.field hi lo := by
  apply Nat.eq_of_testBit_eq
  intro i
  rw [Nat.testBit_or, Word.testBit_field, Word.testBit_field, Word.testBit_field, BitVec.getLsbD_or, Bool.and_or_distrib_left]

/-- The field that a number was placed in. -/
theorem Word.field_place (v hi lo : Nat) (hh : hi < 64) : (Word.place v (hi + 1 - lo) lo).field hi lo = v % 2 ^ (hi + 1 - lo) := by
  apply Nat.eq_of_testBit_eq
  intro i
  rw [Word.testBit_field, Word.getLsbD_place, Nat.testBit_mod_two_pow]
  by_cases hi' : i < hi + 1 - lo
  · simp [hi', show lo + i < 64 by omega]
  · simp [hi']

/-- A number placed outside a field leaves nothing in it. -/
theorem Word.field_place_apart (v width lo' hi lo : Nat) (h : hi < lo' ∨ lo' + width ≤ lo) : (Word.place v width lo').field hi lo = 0 := by
  apply Nat.eq_of_testBit_eq
  intro i
  rw [Word.testBit_field, Word.getLsbD_place, Nat.zero_testBit]
  by_cases hi' : i < hi + 1 - lo
  · rcases h with h | h
    · simp [show ¬ lo' ≤ lo + i by omega]
    · simp [show ¬ lo + i - lo' < width by omega]
  · simp [hi']

/-- A number placed elsewhere leaves a bit clear. -/
theorem Word.bit_place_apart (v width lo k : Nat) (h : k < lo ∨ lo + width ≤ k) : (Word.place v width lo).bit k = false := by
  unfold Word.bit
  rw [Word.getLsbD_place]
  rcases h with h | h
  · simp [show ¬ lo ≤ k by omega]
  · simp [show ¬ k - lo < width by omega]

theorem Word.bit_placeBit (b : Bool) (n k : Nat) (hn : n < 64) : (Word.placeBit b n).bit k = (b && decide (k = n)) := by
  unfold Word.placeBit Word.bit
  cases b
  · simp
  · simp only [if_true, BitVec.getLsbD_ofNat, Nat.testBit_two_pow, Bool.true_and]
    by_cases hk : k = n
    · simp [hk, hn]
    · simp [hk, Ne.symm hk]

end Sys2Proof

end

section
/-! SUPPORT. The first row of the boot table: flash, identity, versions and levels (R424, R425, R427, R439, R475). -/

namespace Sys2Proof.Machine

open Sys2Proof.Safety

variable {s t : State}

theorem secWord_bit55 (pufOk : Bool) : (s.secWord pufOk).bit 55 = pufOk := by
  simp [State.secWord, Word.bit_or, Word.bit_placeBit, Word.bit_place_apart]

/-- What is not as it should be is reported with its event. -/
def State.raiseUnless (s : State) (fine : Bool) (code : Nat) : State := if fine then s else s.raise code []

theorem raiseUnless_keeps {keep : List Nat} (fine : Bool) (code : Nat) (hk : ∀ o ∈ evtRegs, o ∉ keep) (h : BootKeeps keep s t) :
    BootKeeps keep s (t.raiseUnless fine code) := .ite h (h.raise _ _ hk)

theorem raiseUnless_sent (fine : Bool) (code : Nat) : Sent s (s.raiseUnless fine code) :=
  (raiseUnless_keeps (keep := []) fine code (fun _ _ => List.not_mem_nil) .refl).sent

theorem raiseUnless_raised (code : Nat) : Raised (s.raiseUnless false code) code 0 := raised_raise s code []

/-- The reports at the end of the first row's look at flash: lost configuration, lost identity, lost calibration. -/
theorem bootFlash_reports (s : State) (f : BootFindings) : ∃ u : State,
    s.bootFlash f = ((u.raiseUnless (f.configOk && s.flash.cfgOk) 0x65).raiseUnless f.pufOk 0x64).raiseUnless (f.calOk && s.flash.calOk) 0x78 ∧
    RowKeeps [Csr.powStat] s u ∧ u.ft = (if f.calOk && s.flash.calOk then s.ft else 0) ∧
    (regsCanonical s → (u.reg Csr.secStat).bit 55 = f.pufOk) := by
  unfold State.bootFlash
  extract_lets cfg cal fl fl₁ fl₂ s₁ health s₂ s₃ s₄ s₅ s₆
  have hs₂ : RowKeeps [Csr.powStat] s s₂ := by
    cases hcal : cal
    · simp only [s₂, hcal, Bool.false_eq_true, if_false]
      exact .of_same rfl rfl rfl rfl rfl
    · simp only [s₂, hcal, if_true]
      exact .of_same rfl rfl rfl rfl rfl
  have hft : s₂.ft = if cal then s.ft else 0 := by
    cases hcal : cal <;> simp only [s₂, hcal] <;> rfl
  have hs₃ : BootKeeps [Csr.powStat] s₂ s₃ := BootKeeps.refl.setReg _ (by decide)
  have hs₆ : BootKeeps [Csr.powStat, Csr.secStat] s₃ s₆ :=
    have hnonce := (BootKeeps.refl (s := s₃)).drew.setReg s₃.free (show Csr.secDbgNonce ∉ [Csr.powStat, Csr.secStat] by decide)
    have hstat : BootKeeps [Csr.powStat, Csr.secStat] s₃ s₅ := hnonce.setBit _ _ (by decide)
    .ite hstat (hstat.setFld _ _ _ (by decide))
  have hrest : BootKeeps [Csr.powStat] s₂ s₆ := hs₃.trans (hs₆.mono (by simp))
  refine ⟨s₆, rfl, hs₂.trans hrest.toRowKeeps, hrest.ft.trans hft, fun w => ?_⟩
  have w₂ : regsCanonical s₂ := (hs₂.regs w).1
  rw [(hs₆.regs (State.setReg_wf _ _ _ w₂)).2 _ (by simp), State.reg_setReg _ _ _ _ w₂, if_pos rfl, secWord_bit55]

/-- The versions and the fabric's level as the first row sets them, between registers that show neither. -/
theorem bootIdentity_steps (s : State) (i : Image) : ∃ (u : State) (id : Word) (perm : Bool), BootKeeps [Csr.powStat, Csr.secStat] s u ∧
    BootKeeps shownRegs
      (((u.setReg Csr.fwVer (Word.place i.major 16 48 ||| Word.place i.minor 16 32 ||| Word.place i.patch 16 16 ||| Word.place i.svn 16 0)).setReg
        Csr.fabId id).setReg Csr.fabLvl (Word.placeBit perm 16 ||| Word.place i.fplmin 8 8 ||| Word.place i.fpl 8 0))
      (s.bootIdentity i) := by
  have hserial : ∀ k ∈ List.range 2, Csr.serial k ∉ [Csr.powStat, Csr.secStat] := by decide
  have hhash : ∀ k ∈ List.range 4, Csr.secIdHash k ∉ [Csr.powStat, Csr.secStat] := by decide
  unfold State.bootIdentity
  extract_lets s₁ s₂ id s₃ s₄ chip
  have hs₁ : BootKeeps [Csr.powStat, Csr.secStat] s s₁ := BootKeeps.refl.setReg _ (by decide)
  have hs₂ : BootKeeps [Csr.powStat, Csr.secStat] s s₂ := hs₁.foldl (fun _ k hk => BootKeeps.refl.setReg _ (hserial k hk))
  have hs₃ : BootKeeps [Csr.powStat, Csr.secStat] s s₃ := hs₂.foldl (fun _ k hk => BootKeeps.refl.setReg _ (hhash k hk))
  split
  next nx ny ver perm _ =>
    exact ⟨s₃, _, perm, hs₃, (BootKeeps.refl.setReg _ (by decide)).setReg _ (by decide)⟩

theorem bootIdentity_keeps (s : State) (i : Image) : BootKeeps [Csr.powStat, Csr.secStat] s (s.bootIdentity i) := by
  obtain ⟨u, id, perm, hu, hrest⟩ := bootIdentity_steps s i
  exact (((hu.setReg _ (by decide)).setReg _ (by decide)).setReg _ (by decide)).trans (hrest.mono (by simp [shownRegs]))

theorem bootIdentity_levels (w : regsCanonical s) (i : Image) :
    (s.bootIdentity i).fld Csr.fwVer 63 48 = i.major % 2 ^ 16 ∧ (s.bootIdentity i).fld Csr.fwVer 15 0 = i.svn % 2 ^ 16 ∧
    (s.bootIdentity i).fld Csr.fabLvl 7 0 = i.fpl % 2 ^ 8 := by
  obtain ⟨u, id, perm, hu, hrest⟩ := bootIdentity_steps s i
  have wu : regsCanonical u := (hu.regs w).1
  generalize hv : u.setReg Csr.fwVer (Word.place i.major 16 48 ||| Word.place i.minor 16 32 ||| Word.place i.patch 16 16 ||| Word.place i.svn 16 0) = v
    at hrest
  have wv : regsCanonical v := hv ▸ State.setReg_wf _ _ _ wu
  have wid : regsCanonical (v.setReg Csr.fabId id) := State.setReg_wf _ _ _ wv
  have hfin := (hrest.regs (State.setReg_wf _ _ _ wid)).2
  have hver : (s.bootIdentity i).reg Csr.fwVer =
      (Word.place i.major 16 48 ||| Word.place i.minor 16 32 ||| Word.place i.patch 16 16 ||| Word.place i.svn 16 0) := by
    rw [hfin _ (by simp [shownRegs]), State.reg_setReg _ _ _ _ wid, if_neg (by decide), State.reg_setReg _ _ _ _ wv, if_neg (by decide), ← hv,
      State.reg_setReg _ _ _ _ wu, if_pos rfl]
  have hlvl : (s.bootIdentity i).reg Csr.fabLvl = (Word.placeBit perm 16 ||| Word.place i.fplmin 8 8 ||| Word.place i.fpl 8 0) := by
    rw [hfin _ (by simp [shownRegs]), State.reg_setReg _ _ _ _ wid, if_pos rfl]
  have hperm : (Word.placeBit perm 16).field 7 0 = 0 := by cases perm <;> decide
  unfold State.fld
  rw [hver, hlvl]
  simp only [Word.field_or, hperm]
  refine ⟨?_, ?_, ?_⟩
  · simpa [Word.field_place_apart] using Word.field_place i.major 63 48 (by decide)
  · simpa [Word.field_place_apart] using Word.field_place i.svn 15 0 (by decide)
  · simpa [Word.field_place_apart] using Word.field_place i.fpl 7 0 (by decide)

/-- The first row. -/
theorem bootStart_steps (s : State) (f : BootFindings) (i : Image) : BootKeeps shownRegs ((s.bootFlash f).bootIdentity i) (s.bootStart f i) := by
  unfold State.bootStart
  extract_lets s₁ s₂ bol pow s₃ s₄
  have hs₂ : BootKeeps shownRegs s₁ s₂ := BootKeeps.refl.setFld _ _ _ (by decide)
  have hs₄ : BootKeeps shownRegs s₁ s₄ := bootCart_keeps _ _ _ _ _ _ (by decide) (bootCart_keeps _ _ _ _ _ _ (by decide) hs₂)
  exact syncHull_keeps (bootLanes_keeps (fun _ hp => List.mem_range.mp hp) (bootHosts_keeps hs₄))

end Sys2Proof.Machine

end

section
/-! SUPPORT. The rows of the link to H1, of the cores' self-test and of the HBM channels (R20, R85, R424, R478). -/

namespace Sys2Proof.Machine

open Sys2Proof.Safety

variable {s t : State}

/-- Cores, and the presence of H1, are none of what the rows leave alone. -/
theorem rowKeeps_units {keep : List Nat} (s : State) (lost : Bool) (cs : Vector Core 32) : RowKeeps keep s { s with h1Lost := lost, cores := cs } :=
  .of_same rfl rfl rfl rfl rfl

/-! ### The link to H1 -/

theorem d2dLane_not_shown (d g : Nat) : Csr.d2dLane d g ∉ shownRegs := not_shown (by simp only [Csr.d2dLane]; omega)

theorem syncGroup_keeps (d g : Nat) (h : BootKeeps shownRegs s t) : BootKeeps shownRegs s (t.syncGroup d g) :=
  (h.setBit _ _ (d2dLane_not_shown d g)).setFld _ _ _ (d2dLane_not_shown d g)

theorem syncLink_keeps (h : BootKeeps shownRegs s t) : BootKeeps shownRegs s t.syncLink :=
  ((h.setFld _ _ _ (by decide)).setFld _ _ _ (by decide)).setFld _ _ _ (by decide)

theorem raiseUncoded_keeps (l : List Word) (h : BootKeeps shownRegs s t) : BootKeeps shownRegs s (t.raiseUncoded l) :=
  h.drew.raise _ _ evtRegs_not_shown

theorem bootLink_keeps (s : State) (f : BootFindings) : RowKeeps shownRegs s (s.bootLink f) := by
  have hlane (b : Bool) (u : State) (x : Nat × Nat × Nat) : BootKeeps shownRegs u (u.setBit (Csr.d2dLane x.1 x.2.1) x.2.2 b) :=
    BootKeeps.refl.setBit _ _ (d2dLane_not_shown _ _)
  have hhalf : ∀ p ∈ (List.range 16).filter portHalf, p < 16 := fun p hp => List.mem_range.mp (List.mem_filter.mp hp).1
  unfold State.bootLink
  extract_lets fresh inRange s₁ s₂ s₃ s₄ lost was s₅ absent s₆ half s₇
  have hs₂ : BootKeeps shownRegs s s₂ := (BootKeeps.refl.foldl (fun u x _ => hlane false u x)).foldl (fun u x _ => hlane true u x)
  have hs₃ : BootKeeps shownRegs s s₃ := syncLink_keeps (hs₂.foldl (fun u i _ => syncGroup_keeps _ _ .refl))
  have hs₄ : BootKeeps shownRegs s s₄ := hs₃.setBit _ _ (by decide)
  clear_value s₄ lost was
  have hs₆ : RowKeeps shownRegs s₄ s₆ := rowKeeps_units s₄ lost s₆.cores
  have hs₇ : BootKeeps shownRegs s₆ s₇ := .ite .refl (.ite
    (syncHull_keeps (bootLanes_keeps hhalf ((BootKeeps.refl.setReg _ (by decide)).setReg _ (by decide))))
    (syncHull_keeps (bootLanes_keeps hhalf (bootCart_keeps _ _ _ _ _ _ (by decide) .refl))))
  exact (hs₄.toRowKeeps.trans hs₆).trans (hs₇.foldl (fun u x _ => raiseUncoded_keeps _ .refl)).toRowKeeps

/-! ### The cores' self-test -/

theorem bootCores_keeps (s : State) (f : BootFindings) : RowKeeps shownRegs s (s.bootCores f) :=
  rowKeeps_units s s.h1Lost _

theorem bootCores_run (s : State) (f : BootFindings) (n : Fin 32) : ((s.bootCores f).cores[n]).run =
    if (s.cores[n]).run = .absent then .absent else if f.coreFails.getLsbD n.val then .fenced else .gated := by
  have hcore : (s.bootCores f).cores[n] =
      if (s.cores[n]).run = .absent then s.cores[n] else { s.cores[n] with run := if f.coreFails.getLsbD n.val then .fenced else .gated } :=
    Vector.getElem_ofFn _
  rw [hcore]
  by_cases habsent : (s.cores[n]).run = .absent
  · rw [if_pos habsent, if_pos habsent, habsent]
  · rw [if_neg habsent, if_neg habsent]

/-! ### The HBM channels -/

/-- A register of a table after a fold that sets some registers of the table, each to a value of its own. -/
theorem reg_foldl_setReg {p : Nat → Bool} {g : Nat → Nat} {v : Nat → Word} (hg : ∀ a b, g a = g b → a = b) (k : Nat) :
    ∀ (l : List Nat) (s : State), regsCanonical s → (l.foldl (fun (t : State) k => if p k then t.setReg (g k) (v k) else t) s).reg (g k) =
      if k ∈ l ∧ p k = true then v k else s.reg (g k) := by
  intro l
  induction l with
  | nil => intro s _; simp
  | cons a l ih =>
    intro s w
    rw [List.foldl_cons]
    cases hp : p a
    · rw [if_neg (by simp), ih s w]
      by_cases hka : k = a
      · subst hka
        simp [hp]
      · simp [hka]
    · rw [if_pos rfl, ih _ (State.setReg_wf _ _ _ w), State.reg_setReg _ _ _ _ w]
      by_cases hka : k = a
      · subst hka
        simp [hp]
      · have hne : g k ≠ g a := fun e => hka (hg k a e)
        simp [hka, hne]

/-- The bits that a fold sets stay set. -/
theorem bit_foldl_placeBit (m : Nat → Bool) {c : Nat} (hm : m c = true) (hc : c < 64) : ∀ (l : List Nat) (w : Word), (∀ x ∈ l, x < 64) →
    c ∈ l ∨ w.bit c = true → (l.foldl (fun (w : Word) c => if m c then w ||| Word.placeBit true c else w) w).bit c = true := by
  intro l
  induction l with
  | nil => intro w _ h; simpa using h
  | cons a l ih =>
    intro w hl h
    rw [List.foldl_cons]
    refine ih _ (fun x hx => hl x (List.mem_cons_of_mem _ hx)) ?_
    by_cases hca : c = a
    · subst hca
      right
      simp [hm, Word.bit_or, Word.bit_placeBit, hc]
    · rcases h with h | h
      · exact .inl ((List.mem_cons.mp h).resolve_left hca)
      · right
        split
        · simp [Word.bit_or, h]
        · exact h

end Sys2Proof.Machine

end

section
/-! SUPPORT. The row of the HBM self-test: channels mapped out, tables built, capacity shown (R424, R475). -/

namespace Sys2Proof.Machine

open Sys2Proof.Safety

variable {s t : State}

/-- The channel maps of the eight stacks. -/
def chanMaps : List Nat := (List.range 8).map Csr.hbmChanMap

/-- The registers that tell which channels are in use. -/
def channelRegs : List Nat := Csr.powStat :: Csr.capHbmBytes :: chanMaps

theorem hbmChanMap_mem {k : Nat} (hk : k < 8) : Csr.hbmChanMap k ∈ chanMaps := List.mem_map.mpr ⟨k, List.mem_range.mpr hk, rfl⟩

theorem hbmChanMap_inj (a b : Nat) (h : Csr.hbmChanMap a = Csr.hbmChanMap b) : a = b := by
  simp only [Csr.hbmChanMap, Csr.hbm] at h
  omega

/-- The channels in use are those of the maps of the stacks present. -/
theorem goodChannels_congr (hp : t.part = s.part) (hl : t.h1Lost = s.h1Lost) (hm : ∀ o ∈ chanMaps, t.reg o = s.reg o) {lo hi : Nat} (hhi : hi ≤ 8) :
    t.goodChannels lo hi = s.goodChannels lo hi := by
  have hgood : ∀ k < 8, ∀ c, t.channelGood k c = s.channelGood k c := fun k hk c => by
    simp only [State.channelGood, State.stackPresent, hp, hl, hm _ (hbmChanMap_mem hk)]
  unfold State.goodChannels State.channelTable
  congr 2
  funext c
  congr 1
  exact List.filter_congr (fun k hk => by rw [hgood k (by have := List.mem_range.mp hk; omega)])

theorem BootKeeps.goodChannels {keep : List Nat} (h : BootKeeps keep s t) (hsub : chanMaps ⊆ keep) (w : regsCanonical s) {lo hi : Nat} (hhi : hi ≤ 8) :
    t.goodChannels lo hi = s.goodChannels lo hi :=
  goodChannels_congr h.part h.h1Lost (fun o ho => (h.regs w).2 o (hsub ho)) hhi

theorem buildTables_keeps (s : State) : BootKeeps (Csr.powStat :: chanMaps) s s.buildTables := by
  have hstat : ∀ k ∈ List.range 8, Csr.hbmStat k ∉ Csr.powStat :: chanMaps := by decide
  unfold State.buildTables
  exact ((BootKeeps.refl.setReg _ (by decide)).setReg _ (by decide)).foldl (fun _ k hk => BootKeeps.refl.setFld _ _ _ (hstat k hk))

/-- CAP_HBM_BYTES shows the channels in use. -/
theorem buildTables_capacity (w : regsCanonical s) :
    s.buildTables.reg Csr.capHbmBytes = Word.place ((s.buildTables.goodChannels 0 4 + s.buildTables.goodChannels 4 8) * channelBytes) 40 0 := by
  have hkeeps := buildTables_keeps s
  rw [hkeeps.goodChannels (List.subset_cons_self _ _) w (by decide), hkeeps.goodChannels (List.subset_cons_self _ _) w (by decide)]
  unfold State.buildTables
  extract_lets n₀ n₁ s₁ s₂
  have w₁ : regsCanonical s₁ := State.setReg_wf _ _ _ w
  have hstat : ∀ k ∈ List.range 8, Csr.hbmStat k ∉ [Csr.capHbmBytes] := by decide
  have hrest : BootKeeps [Csr.capHbmBytes] s₂
      ((List.range 8).foldl (fun (t : State) k => t.setFld (Csr.hbmStat k) 5 0 ((List.range 32).filter (fun c => t.channelGood k c)).length) s₂) :=
    BootKeeps.refl.foldl (fun _ k hk => BootKeeps.refl.setFld _ _ _ (hstat k hk))
  rw [(hrest.regs (State.setReg_wf _ _ _ w₁)).2 _ (by simp), State.reg_setReg _ _ _ _ w₁, if_pos rfl]

theorem bootCaps_keeps (s : State) : BootKeeps channelRegs s s.bootCaps := (BootKeeps.refl.setReg _ (by decide)).setReg _ (by decide)

/-- The mapped-out channels of stack k after the self-test (R233). -/
def State.mappedOut (s : State) (fails : List (Nat × Nat)) (k : Nat) : Word :=
  (List.range 32).foldl (fun (w : Word) c =>
    if mapOut (s.reg (Csr.hbmChanMap k)) (s.reg (Csr.hbmPinMap k)) ((s.flash.retest.toList.getD k 0).zeroExtend 64) (fails.contains (k, c)) c
    then w ||| Word.placeBit true c else w) 0

theorem mappedOut_bit {fails : List (Nat × Nat)} {k c : Nat} (hc : c < 32) (h : (k, c) ∈ fails) : (s.mappedOut fails k).bit c = true := by
  have hmapped : mapOut (s.reg (Csr.hbmChanMap k)) (s.reg (Csr.hbmPinMap k)) ((s.flash.retest.toList.getD k 0).zeroExtend 64)
      (fails.contains (k, c)) c = true := by
    simp [mapOut, h]
  have hrange : ∀ x ∈ List.range 32, x < 64 := by decide
  unfold State.mappedOut
  exact bit_foldl_placeBit (fun c => mapOut (s.reg (Csr.hbmChanMap k)) (s.reg (Csr.hbmPinMap k)) ((s.flash.retest.toList.getD k 0).zeroExtend 64)
    (fails.contains (k, c)) c) hmapped (by omega) (List.range 32) 0 hrange (.inl (List.mem_range.mpr hc))

/-- Every channel that fails is mapped out, event 0x26 tells of channels mapped out, and CAP_HBM_BYTES shows the rest. -/
theorem testChannels_maps (s : State) (fails : List (Nat × Nat)) : ∃ u : State, RowKeeps [Csr.powStat] s u ∧
    BootKeeps channelRegs u (s.testChannels fails) ∧ (regsCanonical s →
      (∀ k c, k < 8 → c < 32 → s.stackPresent k = true → (k, c) ∈ fails → (u.reg (Csr.hbmChanMap k)).bit c = true) ∧
      u.reg Csr.capHbmBytes = Word.place ((u.goodChannels 0 4 + u.goodChannels 4 8) * channelBytes) 40 0 ∧
      ((∃ k c, k < 8 ∧ c < 32 ∧ s.stackPresent k = true ∧ (k, c) ∈ fails) → Raised (s.testChannels fails) 0x26 0)) := by
  unfold State.testChannels
  extract_lets s₁ flash s₂ s₃
  have hmaps : s₁ = (List.range 8).foldl
      (fun (t : State) k => if s.stackPresent k then t.setReg (Csr.hbmChanMap k) (s.mappedOut fails k) else t) s := rfl
  have hs₁ : BootKeeps [Csr.powStat] s s₁ := by
    rw [hmaps]
    refine BootKeeps.refl.foldl (fun u k hk => ?_)
    have hmap : ∀ k ∈ List.range 8, Csr.hbmChanMap k ∉ [Csr.powStat] := by decide
    exact .ite (BootKeeps.refl.setReg _ (hmap k hk)) .refl
  have hs₂ (keep : List Nat) : BootKeeps keep s₁ s₂ := BootKeeps.refl.aside rfl rfl rfl rfl rfl rfl rfl rfl
  have hs₃ := buildTables_keeps s₂
  have hevt : ∀ o ∈ evtRegs, o ∉ channelRegs := by decide
  refine ⟨s₃, ((hs₁.trans (hs₂ _)).trans (hs₃.mono (by simp))).toRowKeeps, .ite (BootKeeps.refl.raise _ _ hevt) .refl, fun w => ?_⟩
  have w₂ : regsCanonical s₂ := ((hs₁.trans (hs₂ _)).regs w).1
  have hread : ∀ k, k < 8 → s.stackPresent k = true → s₂.reg (Csr.hbmChanMap k) = s.mappedOut fails k := fun k hk hpresent => by
    rw [((hs₂ chanMaps).regs (hs₁.regs w).1).2 _ (hbmChanMap_mem hk), hmaps, reg_foldl_setReg hbmChanMap_inj k _ _ w,
      if_pos ⟨List.mem_range.mpr hk, hpresent⟩]
  have hout : ∀ k c, k < 8 → c < 32 → s.stackPresent k = true → (k, c) ∈ fails → (s₃.reg (Csr.hbmChanMap k)).bit c = true := by
    intro k c hk hc hpresent hfail
    rw [(hs₃.regs w₂).2 _ (List.mem_cons_of_mem _ (hbmChanMap_mem hk)), hread k hk hpresent]
    exact mappedOut_bit hc hfail
  refine ⟨hout, buildTables_capacity w₂, ?_⟩
  rintro ⟨k, c, hk, hc, hpresent, hfail⟩
  have hany : ((List.range 8).any fun k => s.stackPresent k && s₃.fld (Csr.hbmChanMap k) 31 0 != 0) = true := by
    refine List.any_eq_true.mpr ⟨k, List.mem_range.mpr hk, ?_⟩
    have hbit : (s₃.fld (Csr.hbmChanMap k) 31 0).testBit c = true := by
      have hmapped : (s₃.reg (Csr.hbmChanMap k)).getLsbD c = true := hout k c hk hc hpresent hfail
      unfold State.fld
      rw [Word.testBit_field, Nat.zero_add, hmapped]
      simpa using hc
    have hne : s₃.fld (Csr.hbmChanMap k) 31 0 ≠ 0 := fun e => by simp [e] at hbit
    simp [hpresent, hne]
  rw [if_pos hany]
  exact raised_raise _ _ _

end Sys2Proof.Machine

end

section
/-! PROOFS. The main boot: its rows, then READY or HELD. -/

namespace Sys2Proof.Machine

open Sys2Proof.Safety

variable {s t : State} {i : Image}

/-! ### The rows (R424) -/

/-- The place in the boot table moves on. -/
def State.staged (s : State) : State := { s with boot := { s.boot with stage := s.boot.stage + 1 } }

/-- What row k of the boot table, counted from 0, does with what its tests find (R424). -/
def State.bootRow (s : State) (k : Nat) (f : BootFindings) (i : Image) : State :=
  if k = 0 then s.bootStart f i
  else if k = 1 then s.bootLink f
  else if k = 3 then s.bootCores f
  else if k = 4 then (s.testChannels f.chanFails).bootCaps
  else s

theorem exec_bootStageDone (f : BootFindings) (hrun : s.running = some i) (hm : s.mstate = mBoot) (hp : s.pins.pwrGood = true)
    (hr : s.pins.resetLow = false) (hrec : s.boot.recovering = false) (hk : s.boot.stage < 8) :
    exec (.bootStageDone f) s = .next (s.staged.bootRow s.boot.stage f i) := by
  have hgo : ¬ (s.mstate ≠ mBoot ∨ (!s.pins.pwrGood) = true ∨ s.pins.resetLow = true ∨ s.boot.recovering = true ∨ 8 ≤ s.boot.stage) := by
    simp [hm, hp, hr, hrec, hk]
  show execBootStageDone f s = _
  simp only [execBootStageDone, hrun, if_neg hgo, Nat.add_eq_right, Nat.reduceEqDiff, State.bootRow, State.staged]

theorem bootStart_keeps (s : State) (f : BootFindings) (i : Image) : RowKeeps [Csr.powStat] s (s.bootStart f i) := by
  obtain ⟨u, hu, hsu, -⟩ := bootFlash_reports s f
  have hevt : ∀ o ∈ evtRegs, o ∉ [Csr.powStat] := by decide
  have hflash : RowKeeps [Csr.powStat] s (s.bootFlash f) := by
    rw [hu]
    exact hsu.trans (raiseUnless_keeps _ _ hevt (raiseUnless_keeps _ _ hevt (raiseUnless_keeps _ _ hevt .refl))).toRowKeeps
  exact hflash.trans (((bootIdentity_keeps _ i).mono (by simp)).trans ((bootStart_steps s f i).mono (by simp [shownRegs]))).toRowKeeps

theorem bootRow_keeps (s : State) (k : Nat) (f : BootFindings) (i : Image) : RowKeeps [Csr.powStat] s (s.bootRow k f i) := by
  have hstate : [Csr.powStat] ⊆ shownRegs := by simp [shownRegs]
  have hchannels : RowKeeps [Csr.powStat] s ((s.testChannels f.chanFails).bootCaps) := by
    obtain ⟨u, hu, hrest, -⟩ := testChannels_maps s f.chanFails
    exact hu.trans ((hrest.trans (bootCaps_keeps _)).mono (by simp [channelRegs])).toRowKeeps
  exact .ite (bootStart_keeps s f i) (.ite ((bootLink_keeps s f).mono hstate) (.ite ((bootCores_keeps s f).mono hstate)
    (.ite hchannels (.of_same rfl rfl rfl rfl rfl))))

/-- The first row: identity, versions and levels are set, and what is lost is reported (R409, R425, R427, R439). -/
theorem bootStart_reports (w : regsCanonical s) (f : BootFindings) (i : Image) :
    ((s.bootStart f i).reg Csr.secStat).bit 55 = f.pufOk ∧ (s.bootStart f i).fld Csr.fwVer 63 48 = i.major % 2 ^ 16 ∧
    (s.bootStart f i).fld Csr.fwVer 15 0 = i.svn % 2 ^ 16 ∧ (s.bootStart f i).fld Csr.fabLvl 7 0 = i.fpl % 2 ^ 8 ∧
    ((f.configOk = false ∨ s.flash.cfgOk = false) → Raised (s.bootStart f i) 0x65 0) ∧
    (f.pufOk = false → Raised (s.bootStart f i) 0x64 0) ∧
    ((f.calOk = false ∨ s.flash.calOk = false) → Raised (s.bootStart f i) 0x78 0 ∧ (s.bootStart f i).ft = 0) := by
  obtain ⟨u, hu, hsu, hft, hpuf⟩ := bootFlash_reports s f
  have hevt : ∀ o ∈ evtRegs, o ∉ shownRegs := evtRegs_not_shown
  have wu : regsCanonical u := (hsu.regs w).1
  have hreports : BootKeeps shownRegs u (s.bootFlash f) := by
    rw [hu]
    exact raiseUnless_keeps _ _ hevt (raiseUnless_keeps _ _ hevt (raiseUnless_keeps _ _ hevt .refl))
  have wf := (hreports.regs wu).1
  have hid := bootIdentity_keeps (s.bootFlash f) i
  have wi := (hid.regs wf).1
  have hlast := bootStart_steps s f i
  have hreg := (hlast.regs wi).2
  have hsent : Sent (s.bootFlash f) (s.bootStart f i) := hid.sent.trans hlast.sent
  obtain ⟨hmajor, hsvn, hfpl⟩ := bootIdentity_levels wf i
  have hfld (o hi lo : Nat) (ho : o ∈ shownRegs) : (s.bootStart f i).fld o hi lo = ((s.bootFlash f).bootIdentity i).fld o hi lo := by
    unfold State.fld
    rw [hreg o ho]
  refine ⟨?_, ?_, ?_, ?_, fun hcfg => ?_, fun hlost => ?_, fun hcal => ?_⟩
  · rw [hreg _ (by simp [shownRegs]), (hid.regs wf).2 _ (by simp), (hreports.regs wu).2 _ (by simp [shownRegs])]
    exact hpuf w
  · rw [hfld _ _ _ (by simp [shownRegs]), hmajor]
  · rw [hfld _ _ _ (by simp [shownRegs]), hsvn]
  · rw [hfld _ _ _ (by simp [shownRegs]), hfpl]
  · have hbad : (f.configOk && s.flash.cfgOk) = false := by rcases hcfg with h | h <;> simp [h]
    refine Raised.sent ?_ hsent
    rw [hu, hbad]
    exact Raised.sent (raiseUnless_raised _) ((raiseUnless_sent _ _).trans (raiseUnless_sent _ _))
  · refine Raised.sent ?_ hsent
    rw [hu, hlost]
    exact Raised.sent (raiseUnless_raised _) (raiseUnless_sent _ _)
  · have hbad : (f.calOk && s.flash.calOk) = false := by rcases hcal with h | h <;> simp [h]
    constructor
    · refine Raised.sent ?_ hsent
      rw [hu, hbad]
      exact raiseUnless_raised _
    · rw [hlast.ft, hid.ft, hreports.ft, hft, hbad]
      rfl

/-- The row of the HBM self-test, with CAP_HBM_BYTES (R424, R475). -/
theorem bootChannels_maps (w : regsCanonical s) (fails : List (Nat × Nat)) :
    (∀ k c, k < 8 → c < 32 → s.stackPresent k = true → (k, c) ∈ fails → (((s.testChannels fails).bootCaps).reg (Csr.hbmChanMap k)).bit c = true) ∧
    ((s.testChannels fails).bootCaps).reg Csr.capHbmBytes =
      Word.place ((((s.testChannels fails).bootCaps).goodChannels 0 4 + ((s.testChannels fails).bootCaps).goodChannels 4 8) * channelBytes) 40 0 ∧
    ((∃ k c, k < 8 ∧ c < 32 ∧ s.stackPresent k = true ∧ (k, c) ∈ fails) → Raised ((s.testChannels fails).bootCaps) 0x26 0) := by
  obtain ⟨u, hu, htest, hmaps⟩ := testChannels_maps s fails
  obtain ⟨hout, hcap, hraised⟩ := hmaps w
  have wu : regsCanonical u := (hu.regs w).1
  have hall : BootKeeps channelRegs u ((s.testChannels fails).bootCaps) := htest.trans (bootCaps_keeps _)
  have hsub : chanMaps ⊆ channelRegs := fun o ho => List.mem_cons_of_mem _ (List.mem_cons_of_mem _ ho)
  have hreg := (hall.regs wu).2
  refine ⟨fun k c hk hc hp hf => ?_, ?_, fun h => Raised.sent (hraised h) (bootCaps_keeps _).sent⟩
  · rw [hreg _ (hsub (hbmChanMap_mem hk))]
    exact hout k c hk hc hp hf
  · rw [hreg _ (by simp [channelRegs]), hcap, hall.goodChannels hsub wu (by decide), hall.goodChannels hsub wu (by decide)]

/-! ### READY or HELD (R377, R417, R424, R426) -/

theorem setMstate_keeps {keep : List Nat} (m : Nat) (hk : Csr.powStat ∉ keep) : BootKeeps keep s (s.setMstate m) := by
  have hring (t : State) (l : List Byte) : BootKeeps keep t (t.ringSend 2 l) :=
    ⟨⟨State.ringSend_mem .., State.ringSend_running .., State.ringSend_boot .., ringSend_sent t 2 l, RegsKept.of_regs_eq (ringSend_regs ..)⟩,
      State.ringSend_ft .., State.ringSend_part .., State.ringSend_h1Lost ..⟩
  exact .ite .refl ((BootKeeps.refl.setFld _ _ _ hk).trans (hring _ _))

theorem setMstate_mstate (w : regsCanonical s) {m : Nat} (hm : m < 16) : (s.setMstate m).mstate = m := by
  unfold State.setMstate
  split
  · assumption
  · have hfld : (s.setFld Csr.powStat 63 60 m).fld Csr.powStat 63 60 = m := by
      rw [State.fld_setFld _ _ _ _ _ w (by decide)]
      exact Nat.mod_eq_of_lt hm
    unfold State.mstate State.fld State.reg at *
    rw [ringSend_regs]
    exact hfld

theorem setMstate_aside (m : Nat) : (s.setMstate m).flash = s.flash ∧ (s.setMstate m).cores = s.cores := by
  unfold State.setMstate
  split
  · exact ⟨rfl, rfl⟩
  · simp

theorem powerStart_keeps (s : State) : BootKeeps [] s s.powerStart :=
  (BootKeeps.refl.setReg _ List.not_mem_nil).foldl (fun _ _ _ => .ite (BootKeeps.refl.setReg _ List.not_mem_nil) .refl)

theorem powerStart_aside (s : State) : s.powerStart.flash = s.flash ∧ s.powerStart.cores = s.cores := by
  unfold State.powerStart
  refine List.foldlRecOn (motive := fun t : State => t.flash = s.flash ∧ t.cores = s.cores) _ _ ⟨rfl, rfl⟩ (fun t ht n _ => ?_)
  split
  · exact ht
  · exact ht

theorem syncSec_keeps (h : BootKeeps [Csr.powStat] s t) : BootKeeps [Csr.powStat] s t.syncSec := h.setReg _ (by decide)

theorem showHealth_keeps (h : BootKeeps [Csr.powStat] s t) : BootKeeps [Csr.powStat] s t.showHealth :=
  (h.setReg _ (by decide)).setReg _ (by decide)

/-- The module operates in state m: power management begins, and the registers of firmware, security and health show it (R404, R424, R439). -/
def State.operating (s : State) (m ms : Nat) : State :=
  (((s.powerStart.setMstate m).setFld Csr.fwStat 47 32 ms).setFld Csr.fwStat 55 54 0).syncSec.showHealth

theorem operating_keeps (s : State) (m ms : Nat) : BootKeeps [] s (s.operating m ms) :=
  (powerStart_keeps s).trans ((setMstate_keeps m List.not_mem_nil).trans
    ((showHealth_keeps (syncSec_keeps ((BootKeeps.refl.setFld _ _ _ (by decide)).setFld _ _ _ (by decide)))).mono (List.nil_subset _)))

theorem operating_mstate (w : regsCanonical s) {m : Nat} (ms : Nat) (hm : m < 16) : (s.operating m ms).mstate = m := by
  have wp : regsCanonical s.powerStart := ((powerStart_keeps s).regs w).1
  have wm : regsCanonical (s.powerStart.setMstate m) := ((setMstate_keeps (keep := []) m List.not_mem_nil).regs wp).1
  have hrest : BootKeeps [Csr.powStat] (s.powerStart.setMstate m) (s.operating m ms) :=
    showHealth_keeps (syncSec_keeps ((BootKeeps.refl.setFld _ _ _ (by decide)).setFld _ _ _ (by decide)))
  rw [hrest.mstate List.mem_cons_self wm, setMstate_mstate wp hm]

theorem operating_aside (s : State) (m ms : Nat) : (s.operating m ms).flash = s.flash ∧ (s.operating m ms).cores = s.cores := by
  obtain ⟨hflash, hcores⟩ := setMstate_aside (s := s.powerStart) m
  obtain ⟨hflash', hcores'⟩ := powerStart_aside s
  simp only [State.operating, State.showHealth, State.syncSec, State.setReg_flash, State.setReg_cores, State.setFld_flash, State.setFld_cores]
  exact ⟨hflash.trans hflash', hcores.trans hcores'⟩

/-- The watchdog has stopped, and flash holds a valid calibration and the fused security version (R417, R426). -/
def State.proven (s : State) (svn : Nat) : State :=
  { s with
    boot := { s.boot with watchdog := false }
    pins := { s.pins with thermTrip := false }
    flash := { s.flash with wdf := 0, calOk := true, svn := svn } }

theorem proven_aside (s : State) (svn : Nat) : (s.proven svn).flash = { s.flash with wdf := 0, calOk := true, svn := svn } ∧
    (s.proven svn).cores = s.cores ∧ (s.proven svn).mem = s.mem ∧ (s.proven svn).regs = s.regs ∧ (s.proven svn).boot.watchdog = false :=
  ⟨rfl, rfl, rfl, rfl, rfl⟩

/-- The events at the end of the boot. -/
def State.bootEvents (s : State) (held rises : Bool) (svn : Nat) : State :=
  let s := s.raise 0x70 [s.pins.slotId.zeroExtend 64]
  let s := if held then s.raise 0x58 [1] else s
  if rises then s.raise 0x66 [BitVec.ofNat 64 svn] else s

theorem bootEvents_aside (s : State) (held rises : Bool) (svn : Nat) :
    (s.bootEvents held rises svn).flash = s.flash ∧ (s.bootEvents held rises svn).cores = s.cores := by
  cases held <;> cases rises <;> simp [State.bootEvents]

theorem bootEvents_raised (s : State) (held rises : Bool) (svn : Nat) : BootKeeps [Csr.powStat] s (s.bootEvents held rises svn) ∧
    Raised (s.bootEvents held rises svn) 0x70 0 ∧ (held = true → Raised (s.bootEvents held rises svn) 0x58 0) ∧
    (rises = true → Raised (s.bootEvents held rises svn) 0x66 0) := by
  have hevt : ∀ o ∈ evtRegs, o ∉ [Csr.powStat] := by decide
  unfold State.bootEvents
  extract_lets s₁ s₂
  have h₁ : BootKeeps [Csr.powStat] s s₁ := BootKeeps.refl.raise _ _ hevt
  have h₂ : BootKeeps [Csr.powStat] s₁ s₂ := .ite (BootKeeps.refl.raise _ _ hevt) .refl
  have hready : Raised s₂ 0x70 0 := Raised.sent (raised_raise s 0x70 _) h₂.sent
  have hheld : held = true → Raised s₂ 0x58 0 := fun h => by
    simp only [s₂, h, if_true]
    exact raised_raise s₁ 0x58 [1]
  clear_value s₂
  have h₃ : BootKeeps [Csr.powStat] s₂ (if rises then s₂.raise 0x66 [BitVec.ofNat 64 svn] else s₂) := .ite (BootKeeps.refl.raise _ _ hevt) .refl
  refine ⟨(h₁.trans h₂).trans h₃, Raised.sent hready h₃.sent, fun h => Raised.sent (hheld h) h₃.sent, fun h => ?_⟩
  rw [if_pos h]
  exact raised_raise s₂ 0x66 _

/-- The boot is complete: READY or HELD is shown, the watchdog stops, calibration is valid and the fused security version rises where the image asks
for it. -/
theorem exec_bootComplete (w : regsCanonical s) (hrun : s.running = some i) (hm : s.mstate = mBoot) (hp : s.pins.pwrGood = true)
    (hr : s.pins.resetLow = false) (hk : s.boot.stage = 8) (hl : s.lanesTried = true) :
    let held := s.flash.held || !(s.reg Csr.secStat).bit 55
    let raise := i.raiseSvn && decide (s.flash.svn < i.svn)
    ∃ t, exec .bootComplete s = .next t ∧ t.mstate = (if held then mHeld else mReady) ∧ Raised t 0x70 0 ∧ (held = true → Raised t 0x58 0) ∧
      (raise = true → Raised t 0x66 0) ∧ t.boot.watchdog = false ∧
      t.flash = { s.flash with wdf := 0, calOk := true, svn := if raise then i.svn else s.flash.svn } ∧ t.cores = s.cores ∧ t.mem = s.mem := by
  intro held raise
  have hgo : ¬ (s.mstate ≠ mBoot ∨ (!s.pins.pwrGood) = true ∨ s.pins.resetLow = true ∨ s.boot.stage ≠ 8 ∨ (!s.lanesTried) = true) := by
    simp [hm, hp, hr, hk, hl]
  let svn := if raise then i.svn else s.flash.svn
  let m := if held then mHeld else mReady
  let u := (s.proven svn).operating m (min 65535 ((s.now - s.boot.since) / 1000000))
  have hexec : exec .bootComplete s = .next (u.bootEvents held raise i.svn) := by
    show execBootComplete s = _
    simp only [execBootComplete, hrun, if_neg hgo, State.bootEvents, State.operating, State.proven, held, raise, m, svn, u]
  have hm16 : m < 16 := by
    simp only [m]
    split <;> decide
  obtain ⟨hpflash, hpcores, hpmem, hpregs, hpwatch⟩ := proven_aside s svn
  have wp : regsCanonical (s.proven svn) := by
    unfold regsCanonical
    rw [hpregs]
    exact w
  have hu : BootKeeps [] (s.proven svn) u := operating_keeps _ _ _
  have hmstate : u.mstate = m := operating_mstate wp _ hm16
  obtain ⟨huflash, hucores⟩ : u.flash = (s.proven svn).flash ∧ u.cores = (s.proven svn).cores := operating_aside _ _ _
  clear_value u
  obtain ⟨hevents, hready, hheld, hsvn⟩ := bootEvents_raised u held raise i.svn
  obtain ⟨hflash, hcores⟩ := bootEvents_aside u held raise i.svn
  refine ⟨_, hexec, ?_, hready, hheld, hsvn, ?_, (hflash.trans huflash).trans hpflash, (hcores.trans hucores).trans hpcores,
    (hevents.mem.trans hu.mem).trans hpmem⟩
  · rw [hevents.mstate List.mem_cons_self (hu.regs wp).1, hmstate]
  · rw [hevents.boot, hu.boot, hpwatch]

/-- Settles O58: the rows by `bootRow_keeps` and what each row sets, then `exec_bootComplete`. -/
theorem mainBoot : Obligations.MainBoot := by
  intro s i w hrun hm hp hr
  refine ⟨?rows, ?complete⟩
  case rows =>
    intro f hrec hk
    have hrow := bootRow_keeps s.staged s.boot.stage f i
    refine ⟨_, exec_bootStageDone f hrun hm hp hr hrec hk, by rw [hrow.boot]; rfl, (hrow.mstate List.mem_cons_self w).trans hm,
      fun a => congrArg (fun m => sparseGet memDefault m a) hrow.mem, hrow.running.trans hrun, fun h => ?_, fun h n => ?_, fun h => ?_, fun h => ?_⟩
    · rw [h]
      exact bootStart_reports (s := s.staged) w f i
    · rw [h]
      exact bootCores_run s.staged f n
    · rw [h]
      exact bootChannels_maps (s := s.staged) w f.chanFails
    · have hother : ∀ j ∈ [2, 5, 6, 7], s.staged.bootRow j f i = s.staged := fun j hj => by
        simp only [List.mem_cons, List.not_mem_nil, or_false] at hj
        rcases hj with rfl | rfl | rfl | rfl <;> rfl
      rw [hother _ h]
      rfl
  case complete =>
    intro hk hl held raise
    obtain ⟨t, hexec, hstate, hready, hheld, hsvn, hwatch, hflash, hcores, hmem⟩ := exec_bootComplete w hrun hm hp hr hk hl
    have hheldB : (s.flash.held || !(s.reg Csr.secStat).bit 55) = true ↔ held := by simp [held]
    have hraiseB : (i.raiseSvn && decide (s.flash.svn < i.svn)) = true ↔ raise := by simp [raise]
    refine ⟨t, hexec, fun h => ⟨?_, hheld (hheldB.mpr h)⟩, fun h => ?_, hready, hwatch, by rw [hflash], by rw [hflash],
      fun h => ⟨?_, hsvn (hraiseB.mpr h)⟩, fun h => ?_, hcores, fun a => congrArg (fun m => sparseGet memDefault m a) hmem⟩
    · rw [hstate, if_pos (hheldB.mpr h)]
    · rw [hstate, if_neg (fun hb => h (hheldB.mp hb))]
    · rw [hflash]
      exact if_pos (hraiseB.mpr h)
    · rw [hflash]
      exact if_neg (fun hb => h (hraiseB.mp hb))

end Sys2Proof.Machine

end

section
/-! SUPPORT. Memory and registers read back: a range that has been cleared, and one bit of a register. -/

namespace Sys2Proof.Machine

open Sys2Proof.Safety

/-- A map without the entries of some keys reads there as unlisted, elsewhere as before. -/
theorem sparseGet_filter {α : Type} [DecidableEq α] {d : Nat → α} (keep : Nat → Bool) (a : Nat) {l : List (Nat × α)} :
    ∀ {lo : Nat}, sparseWfFrom d lo l = true → sparseGet d (l.filter (fun p => keep p.1)) a = if keep a then sparseGet d l a else d a := by
  induction l with
  | nil => intro lo _; exact (ite_self _).symm
  | cons p t ih =>
    intro lo w
    obtain ⟨k, v⟩ := p
    simp only [sparseWfFrom, Bool.and_eq_true, decide_eq_true_eq] at w
    obtain ⟨_, wt⟩ := w
    have hrest := ih wt
    by_cases hka : a = k
    · subst hka
      cases hk : keep a
      · rw [List.filter_cons_of_neg (by simp [hk]), hrest, hk]
        rfl
      · rw [List.filter_cons_of_pos (by exact hk)]
        simp [sparseGet]
    · rw [sparseGet_cons_ne hka, List.filter_cons]
      split
      · rw [sparseGet_cons_ne hka, hrest]
        split <;> simp
      · rw [hrest]
        by_cases hlt : a < k
        · rw [if_pos hlt, sparseGet_below wt (by omega)]
        · rw [if_neg hlt]

/-- A cleared range reads as unlisted addresses do, the rest of memory as before. -/
theorem State.readByte_clearRange (s : State) (a n x : Nat) (w : memCanonical s) :
    (s.clearRange a n).readByte x = if a ≤ x ∧ x < a + n then memDefault x else s.readByte x := by
  have hfilter := sparseGet_filter (d := memDefault) (fun y => decide (y < a) || decide (a + n ≤ y)) x (lo := 0) w
  refine Eq.trans hfilter ?_
  by_cases hx : a ≤ x ∧ x < a + n
  · rw [if_pos hx, if_neg (by simp; omega)]
  · rw [if_neg hx, if_pos (by simp; omega)]
    rfl

/-- HBM that nothing has written reads 0 (R229, R234). -/
theorem memDefault_hbm {x : Nat} (h : hbmBase ≤ x) : memDefault x = 0 := by
  have hnone : statsOwner x = none := by
    unfold statsOwner
    rw [if_neg]
    rintro ⟨-, hlt, -⟩
    have hend : statsBase 32 ≤ hbmBase := by decide
    omega
  unfold memDefault
  rw [hnone]

/-- A bit of a register after one bit of it is set. -/
theorem State.bit_setBit (s : State) (o n k : Nat) (b : Bool) (w : regsCanonical s) (hn : n < 64) :
    ((s.setBit o n b).reg o).bit k = if k = n then b else (s.reg o).bit k := by
  unfold State.setBit
  rw [State.reg_setFld _ _ _ _ _ _ w, if_pos rfl, Word.bit_withField _ _ _ _ _ hn]
  by_cases hk : k = n
  · subst hk
    cases b <;> simp
  · rw [if_neg (by omega), if_neg hk]

end Sys2Proof.Machine

end

section
/-! SUPPORT. What the operations of the memory system and of the die-to-die link leave as it was: memory, the cores, the jobs, what has been sent, and every
register but the ones they write. -/

namespace Sys2Proof.Machine

open Sys2Proof.Safety

/-- From s to t only registers of `offs`, and those that show events, have been written: memory, cores and jobs are as before, and what has been sent stays. -/
structure ModuleKept (offs : List Nat) (s t : State) : Prop where
  mem : t.mem = s.mem
  cores : t.cores = s.cores
  jobs : t.jobs = s.jobs
  sent : Sent s t
  regs : RegsKept (fun o => o ∉ offs ∧ o ∉ evtRegs) s t

namespace ModuleKept

variable {offs : List Nat} {s t u : State} {o : Nat}

theorem refl : ModuleKept offs s s := ⟨rfl, rfl, rfl, Sent.refl s, RegsKept.of_regs_eq rfl⟩

theorem trans (h : ModuleKept offs s t) (k : ModuleKept offs t u) : ModuleKept offs s u :=
  ⟨k.mem.trans h.mem, k.cores.trans h.cores, k.jobs.trans h.jobs, h.sent.trans k.sent, h.regs.trans k.regs⟩

/-- An update of other parts of the state. -/
theorem aside (h : ModuleKept offs s t) (hm : u.mem = t.mem) (hc : u.cores = t.cores) (hj : u.jobs = t.jobs) (ho : u.out = t.out)
    (hr : u.regs = t.regs) : ModuleKept offs s u :=
  h.trans ⟨hm, hc, hj, Sent.of_eq ho, RegsKept.of_regs_eq hr⟩

theorem setReg (h : ModuleKept offs s t) (v : Word) (ho : o ∈ offs) : ModuleKept offs s (t.setReg o v) :=
  h.trans ⟨rfl, rfl, rfl, Sent.refl _, RegsKept.setReg v (fun hk => hk.1 ho)⟩

theorem setFld (h : ModuleKept offs s t) (hi lo v : Nat) (ho : o ∈ offs) : ModuleKept offs s (t.setFld o hi lo v) := h.setReg _ ho

theorem setBit (h : ModuleKept offs s t) (n : Nat) (b : Bool) (ho : o ∈ offs) : ModuleKept offs s (t.setBit o n b) := h.setReg _ ho

theorem bump (h : ModuleKept offs s t) (hi lo k : Nat) (ho : o ∈ offs) : ModuleKept offs s (t.bump o hi lo k) := h.setReg _ ho

theorem raiseJob (h : ModuleKept offs s t) (k : Nat) (j : Word) (l : List Word) : ModuleKept offs s (t.raiseJob k j l) :=
  h.trans ⟨State.raiseJob_mem .., State.raiseJob_cores .., State.raiseJob_jobs .., raiseJob_sent t k j l,
    fun w => ⟨raiseJob_wf t k j l w, fun o ho => raiseJob_reg t k j l w o ho.2⟩⟩

theorem raise (h : ModuleKept offs s t) (k : Nat) (l : List Word) : ModuleKept offs s (t.raise k l) := h.raiseJob k 0 l

/-- An event that is withheld is counted where events are. -/
theorem withhold (h : ModuleKept offs s t) (k : Nat) : ModuleKept offs s (t.withhold k) := by
  have hevt : Csr.evtCnt (k / 16 % 16) ∈ evtRegs :=
    List.mem_cons_of_mem _ (List.mem_map.mpr ⟨k / 16 % 16, List.mem_range.mpr (Nat.mod_lt _ (by decide)), rfl⟩)
  exact h.trans ⟨rfl, rfl, rfl, Sent.refl _, RegsKept.setReg _ (fun hk => hk.2 hevt)⟩

theorem raiseUncoded (h : ModuleKept offs s t) (l : List Word) : ModuleKept offs s (t.raiseUncoded l) :=
  (h.aside rfl rfl rfl rfl rfl : ModuleKept offs s t.drew).raise _ l

theorem raiseEcc (h : ModuleKept offs s t) (l : List Word) : ModuleKept offs s (t.raiseEcc l) := by
  unfold State.raiseEcc
  split
  · exact (h.raise 0x20 l).aside rfl rfl rfl rfl rfl
  · exact h.withhold 0x20

theorem healthAdd (h : ModuleKept offs s t) (k : Nat) : ModuleKept offs s (t.healthAdd k) := h.aside rfl rfl rfl rfl rfl

theorem askHalt (h : ModuleKept offs s t) (r : HaltRequest) : ModuleKept offs s (t.askHalt r) := h.aside rfl rfl rfl rfl rfl

theorem canonical (h : ModuleKept offs s t) (w : regsCanonical s) : regsCanonical t := (h.regs w).1

/-- A register that is neither among those written nor one that shows events. -/
theorem reg (h : ModuleKept offs s t) (w : regsCanonical s) (ho : o ∉ offs) (he : o ∉ evtRegs) : t.reg o = s.reg o := (h.regs w).2 o ⟨ho, he⟩

theorem fld (h : ModuleKept offs s t) (w : regsCanonical s) (hi lo : Nat) (ho : o ∉ offs) (he : o ∉ evtRegs) : t.fld o hi lo = s.fld o hi lo := by
  unfold State.fld
  rw [h.reg w ho he]

theorem sameMemory (h : ModuleKept offs s t) : SameMemory s t := fun a => congrArg (fun m => sparseGet memDefault m a) h.mem

theorem frame (h : ModuleKept offs s t) (w : regsCanonical s) : Frame s t offs :=
  ⟨h.sameMemory, h.cores, fun _ ho he => h.reg w ho he⟩

end ModuleKept

/-- The registers that show events stand in Pip's block, below every other block (R466). -/
theorem not_evtReg {o : Nat} (h : 0x10_0000 ≤ o) : o ∉ evtRegs := by
  have hbelow : ∀ e ∈ evtRegs, e < 0x10_0000 := by decide
  exact fun ho => absurd (hbelow o ho) (by omega)

end Sys2Proof.Machine

end

section
/-! PROOFS. The die-to-die link: replays are counted, a lane that fails in service is recorded (R19, R20, R478). -/

namespace Sys2Proof.Machine

open Sys2Proof.Safety

variable {s : State}

theorem exec_d2dCrcReplay (d : Fin 2) (hm : s.mainOn = true) (hd : s.drills = []) :
    exec (.d2dCrcReplay d) s = .next (s.bump (Csr.d2dCnt d.val) 31 0 1) := by
  show execD2dCrcReplay d s = _
  simp [execD2dCrcReplay, hm, State.drillArmed, hd]

/-- One more failed position of a lane group is one failed position more at most. -/
theorem laneFailed_setBit (w : regsCanonical s) (d g l : Nat) (hl : l < 64) :
    (s.setBit (Csr.d2dLane d g) l true).laneFailed d g ≤ s.laneFailed d g + 1 := by
  have hsub : (List.range 34).filter (fun k => ((s.setBit (Csr.d2dLane d g) l true).reg (Csr.d2dLane d g)).bit k) ⊆
      l :: (List.range 34).filter (fun k => (s.reg (Csr.d2dLane d g)).bit k) := by
    intro k hk
    obtain ⟨hrange, hbit⟩ := List.mem_filter.mp hk
    rw [State.bit_setBit _ _ _ _ _ w hl] at hbit
    by_cases hkl : k = l
    · exact hkl ▸ List.mem_cons_self
    · rw [if_neg hkl] at hbit
      exact List.mem_cons_of_mem _ (List.mem_filter.mpr ⟨hrange, hbit⟩)
  exact List.Nodup.length_le_of_subset (List.Pairwise.filter _ List.nodup_range) hsub

/-- The bits of a lane group's register once DIS and SPUSED follow the failed positions. -/
theorem syncGroup_bit (w : regsCanonical s) (d g k : Nat) (hk : k < 40 ∨ 41 < k) :
    ((s.syncGroup d g).reg (Csr.d2dLane d g)).bit k = if k = 63 then decide (2 < s.laneFailed d g) else (s.reg (Csr.d2dLane d g)).bit k := by
  have w' : regsCanonical (s.setBit (Csr.d2dLane d g) 63 (decide (2 < s.laneFailed d g))) := State.setReg_wf _ _ _ w
  unfold State.syncGroup
  dsimp only
  rw [State.reg_setFld _ _ _ _ _ _ w', if_pos rfl, Word.bit_withField _ _ _ _ _ (by decide), if_neg (by omega), State.bit_setBit _ _ _ _ _ w (by decide)]

/-- The lane group once the position l has failed. -/
def State.withFailedLane (s : State) (d g l : Nat) : State := (s.setBit (Csr.d2dLane d g) l true).syncGroup d g

theorem withFailedLane_kept (s : State) (d g l : Nat) : ModuleKept [Csr.d2dLane d g] s (s.withFailedLane d g l) :=
  ((ModuleKept.refl.setBit _ _ List.mem_cons_self).setBit _ _ List.mem_cons_self).setFld _ _ _ List.mem_cons_self

/-- With a spare left the position is recorded and its group stays in use (R20). -/
theorem withFailedLane_bits (w : regsCanonical s) (d g : Nat) {l : Nat} (hl : l < 34) (hspare : s.laneFailed d g < 2) :
    ((s.withFailedLane d g l).reg (Csr.d2dLane d g)).bit l = true ∧ ((s.withFailedLane d g l).reg (Csr.d2dLane d g)).bit 63 = false := by
  have wl : regsCanonical (s.setBit (Csr.d2dLane d g) l true) := State.setReg_wf _ _ _ w
  have hfailed := laneFailed_setBit w d g l (by omega)
  constructor
  · rw [State.withFailedLane, syncGroup_bit wl _ _ _ (by omega), if_neg (by omega), State.bit_setBit _ _ _ _ _ w (by omega), if_pos rfl]
  · rw [State.withFailedLane, syncGroup_bit wl _ _ _ (by omega), if_pos rfl, decide_eq_false_iff_not]
    omega

/-- A spare takes over from a lane in service, which is counted and reported, and the link's state is shown; u already records the failed position of the
group whose register held w (R20, R478). -/
def State.laneReplaced (u : State) (w : Word) (d g l : Nat) : State :=
  (if laneInService w l then
    ((u.bump (Csr.d2dCnt d) 63 48 1).healthAdd 10).raiseUncoded [Word.place d 1 16 ||| Word.place g 5 8 ||| Word.place l 6 0]
  else u).syncLink

theorem laneReplaced_kept (u : State) (w : Word) (d g l : Nat) : ModuleKept [Csr.d2dCnt d, Csr.d2dStat] u (u.laneReplaced w d g l) := by
  have hlink {v : State} (h : ModuleKept [Csr.d2dCnt d, Csr.d2dStat] u v) : ModuleKept [Csr.d2dCnt d, Csr.d2dStat] u v.syncLink :=
    ((h.setFld _ _ _ (by simp)).setFld _ _ _ (by simp)).setFld _ _ _ (by simp)
  refine hlink ?_
  split
  · exact ((ModuleKept.refl.bump _ _ _ (by simp)).healthAdd 10).raiseUncoded _
  · exact ModuleKept.refl

theorem exec_d2dLaneFail (w : regsCanonical s) (hm : s.mainOn = true) (d : Fin 2) (g : Fin 20) (l : Fin 34)
    (hl : (s.reg (Csr.d2dLane d.val g.val)).bit l.val = false) (hspare : s.laneFailed d.val g.val < 2) :
    exec (.d2dLaneFail d g l) s =
      .next ((s.withFailedLane d.val g.val l.val).laneReplaced (s.reg (Csr.d2dLane d.val g.val)) d.val g.val l.val) := by
  have hup := (withFailedLane_bits w d.val g.val l.isLt hspare).2
  show execD2dLaneFail d g l s = _
  unfold State.withFailedLane State.laneReplaced at *
  simp only [execD2dLaneFail, hm, hl, hup, Bool.not_true, Bool.false_eq_true, or_self, if_false, Bool.false_and, Bool.not_false, Bool.true_and]

end Sys2Proof.Machine

end

section
/-! PROOFS. Patrol scrub and channels that do not answer (R233, R235, R236). -/

namespace Sys2Proof.Machine

open Sys2Proof.Safety

variable {s : State}

/-- Scratchpads and statistics memories lie below HBM (R71). -/
theorem sramOwner_below_hbm {a n : Nat} (h : sramOwner a = some n) : a < hbmBase := by
  have hscratch : 32 * scratchSize ≤ hbmBase := by decide
  have hstats : statsBase 32 ≤ hbmBase := by decide
  unfold sramOwner scratchOwner statsOwner at h
  refine Nat.lt_of_not_le (fun hge => ?_)
  rw [if_neg (by omega), if_neg (by omega)] at h
  exact absurd h (Option.some_ne_none n).symm

theorem memError_corrected_sram {a n : Nat} (h : sramOwner a = some n) :
    s.memError (.corrected a) = (s.bump (Csr.spdEcc n) 31 0 1).raiseEcc [BitVec.ofNat 64 a] := by
  simp only [State.memError, h]

theorem exec_patrolScrub_corrected {a n : Nat} (hm : s.mainOn = true) (ha : sramOwner a = some n) (hn : s.corePresent n = true) :
    exec (.patrolScrub a (.corrected a)) s = .next ((s.bump (Csr.spdEcc n) 31 0 1).raiseEcc [BitVec.ofNat 64 a]) := by
  have hsram : ¬ hbmBase ≤ a := by
    have := sramOwner_below_hbm ha
    omega
  show execPatrolScrub a (.corrected a) s = _
  simp [execPatrolScrub, hm, hsram, ha, hn, errAddr, memError_corrected_sram ha]

/-- The first 16 corrected words of a second raise event 0x20 each (R244). -/
theorem raiseEcc_raised (h : s.eccRaised < 16) (l : List Word) : Raised (s.raiseEcc l) 0x20 0 := by
  unfold State.raiseEcc
  rw [if_pos h]
  exact raised_raise s 0x20 l

/-- The halts of the jobs whose accesses the channel did not answer, each with its event (R233). -/
def State.haltUnanswered (s : State) (a k : Nat) (jobs : List Word) : State :=
  jobs.foldl (fun (t : State) j => (t.raiseJob 0x23 j [BitVec.ofNat 64 a]).askHalt (memoryHalt j t.ft a (some k))) s

theorem exec_channelNotAnswering {a k c y : Nat} (hm : s.mainOn = true) (hp : s.hbmPlace a = some (k, c, y)) (jobs : List Word) :
    exec (.channelNotAnswering a jobs) s = .next ((s.haltUnanswered a k (jobs.filter (fun j => (s.job? j).isSome))).markChannel k c) := by
  show execChannelNotAnswering a jobs s = _
  simp [execChannelNotAnswering, hp, hm, State.haltUnanswered]

theorem haltUnanswered_kept {offs : List Nat} (a k : Nat) (jobs : List Word) (s : State) : ModuleKept offs s (s.haltUnanswered a k jobs) :=
  List.foldlRecOn jobs _ ModuleKept.refl (fun _ ht j _ => (ht.raiseJob 0x23 j _).askHalt _)

/-- Every one of the jobs has its event and its halt. -/
theorem haltUnanswered_halts (a k : Nat) : ∀ (jobs : List Word) (s : State), s.halts ⊆ (s.haltUnanswered a k jobs).halts ∧
    ∀ j ∈ jobs, Raised (s.haltUnanswered a k jobs) 0x23 j ∧ memoryHalt j s.ft a (some k) ∈ (s.haltUnanswered a k jobs).halts
  | [], s => ⟨fun _ h => h, fun _ h => absurd h List.not_mem_nil⟩
  | i :: l, s => by
    let u := (s.raiseJob 0x23 i [BitVec.ofNat 64 a]).askHalt (memoryHalt i s.ft a (some k))
    obtain ⟨hkept, hrest⟩ := haltUnanswered_halts a k l u
    have hu : u.halts = s.halts ++ [memoryHalt i s.ft a (some k)] := by simp [u, State.askHalt]
    have hft : u.ft = s.ft := State.raiseJob_ft ..
    refine ⟨fun h hh => hkept (by rw [hu]; exact List.mem_append_left _ hh), fun j hj => ?_⟩
    rcases List.mem_cons.mp hj with rfl | hj
    · exact ⟨Raised.sent (raised_raiseJob s 0x23 j _) (haltUnanswered_kept (offs := []) a k l u).sent, hkept (by rw [hu]; simp)⟩
    · exact hft ▸ hrest j hj

/-- A channel that is not marked yet is marked, with event 0x25 (R233). -/
theorem markChannel_eq {k c : Nat} (h : (s.reg (Csr.hbmChanMap k)).bit (32 + c) = false) :
    s.markChannel k c = (s.setBit (Csr.hbmChanMap k) (32 + c) true).raise 0x25 [BitVec.ofNat 64 (k * 32 + c)] := by
  unfold State.markChannel
  rw [h]
  rfl

end Sys2Proof.Machine

end

section
/-! PROOFS. Refresh and zeroing, then the memory system as a whole (R229, R241). -/

namespace Sys2Proof.Machine

open Sys2Proof.Safety

variable {s : State}

theorem refreshCode_le (x first second : Int) : refreshCode x first second ≤ 2 := by
  unfold refreshCode
  split
  · omega
  · split <;> omega

theorem exec_refreshRateRaise (k : Fin 8) (hm : s.mainOn = true) (hp : s.stackPresent k.val = true)
    (h : s.fld (Csr.hbmStat k.val) 55 54 < refreshUp (s.siteTemp (32 + k.val))) :
    exec (.refreshRateRaise k) s = .next (s.setRefresh k.val (refreshUp (s.siteTemp (32 + k.val)))) := if_pos ⟨hm, hp, h⟩

theorem exec_refreshRateLower (k : Fin 8) (hm : s.mainOn = true) (hp : s.stackPresent k.val = true)
    (h : refreshDown (s.siteTemp (32 + k.val)) < s.fld (Csr.hbmStat k.val) 55 54) :
    exec (.refreshRateLower k) s = .next (s.setRefresh k.val (refreshDown (s.siteTemp (32 + k.val)))) := if_pos ⟨hm, hp, h⟩

/-- A new refresh rate is shown and reported, and no other register changes (R241). -/
theorem setRefresh_shows (w : regsCanonical s) (k r : Nat) (hr : r ≤ 2) :
    (s.setRefresh k r).fld (Csr.hbmStat k) 55 54 = r ∧ Raised (s.setRefresh k r) 0x28 0 ∧ Frame s (s.setRefresh k r) [Csr.hbmStat k] := by
  have hset : ModuleKept [Csr.hbmStat k] s (s.setFld (Csr.hbmStat k) 55 54 r) := ModuleKept.refl.setFld _ _ _ List.mem_cons_self
  refine ⟨?_, raised_raise _ _ _, (hset.raise _ _).frame w⟩
  have hevt : Csr.hbmStat k ∉ evtRegs := not_evtReg (by simp only [Csr.hbmStat, Csr.hbm]; omega)
  have hsmall : r < 2 ^ (55 + 1 - 54) := Nat.lt_of_le_of_lt hr (by decide)
  rw [State.setRefresh, raise_fld _ _ _ (hset.canonical w) _ _ _ hevt, State.fld_setFld _ _ _ _ _ w (by decide), Nat.mod_eq_of_lt hsmall]

theorem exec_windowZeroingDone {job : Word} {j : Job} {w : Fin 16} {x : Window} (hj : s.job? job = some j) (hx : j.windows[w.val]? = some x)
    (hz : x.zeroed = false) : exec (.windowZeroingDone job w) s =
      .next ((s.clearRange x.base x.size).putJob { j with windows := j.windows.set w.val { x with zeroed := true } }) := by
  show execWindowZeroingDone job w s = _
  simp [execWindowZeroingDone, hj, hx, hz]

/-- The record that replaces a job's is found under the job's identifier. -/
theorem job?_putJob {job : Word} {j k : Job} (hj : s.job? job = some j) (hk : k.id = j.id) : (s.putJob k).job? job = some k := by
  have hid : j.id = job := by simpa using List.find?_some hj
  unfold State.job? at hj ⊢
  unfold State.putJob
  rw [List.find?_map]
  have hsame : ((fun x : Job => x.id == job) ∘ fun x => if x.id = k.id then k else x) = fun x => x.id == job := by
    funext x
    by_cases hx : x.id = k.id
    · simp [hx]
    · simp [hx]
  rw [hsame, hj]
  simp [hk]

/-- Settles O41: each command by what it writes, and `ModuleKept` for what it leaves. -/
theorem memorySystem : Obligations.MemorySystem := by
  intro s w hm
  refine ⟨?replay, ?lane, ?scrub, ?channel, ?refresh, ?zeroing⟩
  case replay =>
    intro d hd
    exact ⟨_, exec_d2dCrcReplay d hm hd, State.fld_bump s _ _ _ _ w (by decide), (ModuleKept.refl.bump _ _ _ List.mem_cons_self).frame w⟩
  case lane =>
    intro d g l hl hspare _
    obtain ⟨hbit, hup⟩ := withFailedLane_bits w d.val g.val l.isLt hspare
    have hgroup := withFailedLane_kept s d.val g.val l.val
    have hrest := laneReplaced_kept (s.withFailedLane d.val g.val l.val) (s.reg (Csr.d2dLane d.val g.val)) d.val g.val l.val
    have hother : Csr.d2dLane d.val g.val ∉ [Csr.d2dCnt d.val, Csr.d2dStat] := by
      simp only [List.mem_cons, List.not_mem_nil, or_false, Csr.d2dLane, Csr.d2dCnt, Csr.d2dStat]
      omega
    have hreg := hrest.reg (hgroup.canonical w) hother (not_evtReg (by simp only [Csr.d2dLane]; omega))
    refine ⟨_, exec_d2dLaneFail w hm d g l hl hspare, hreg ▸ hbit, hreg ▸ hup, fun a => (hrest.sameMemory a).trans (hgroup.sameMemory a),
      hrest.cores.trans hgroup.cores, hrest.jobs.trans hgroup.jobs⟩
  case scrub =>
    intro a n _ ha hn
    have hcount : ModuleKept [Csr.spdEcc n.val] s (s.bump (Csr.spdEcc n.val) 31 0 1) := ModuleKept.refl.bump _ _ _ List.mem_cons_self
    have hevent : ModuleKept [] (s.bump (Csr.spdEcc n.val) 31 0 1) ((s.bump (Csr.spdEcc n.val) 31 0 1).raiseEcc [BitVec.ofNat 64 a]) :=
      ModuleKept.refl.raiseEcc _
    refine ⟨_, exec_patrolScrub_corrected hm ha hn, ?_, (hcount.raiseEcc _).frame w, fun h => raiseEcc_raised (s := s.bump _ _ _ _) h _⟩
    rw [hevent.fld (hcount.canonical w) _ _ List.not_mem_nil (not_evtReg (by simp only [Csr.spdEcc]; omega)), State.fld_bump s _ _ _ _ w (by decide)]
  case channel =>
    intro a k c y jobs hp _ hc hmark
    let u := s.haltUnanswered a k (jobs.filter (fun j => (s.job? j).isSome))
    have hu : ModuleKept [] s u := haltUnanswered_kept a k _ s
    obtain ⟨-, hhalts⟩ := haltUnanswered_halts a k (jobs.filter (fun j => (s.job? j).isSome)) s
    have wu : regsCanonical u := hu.canonical w
    have hevt : Csr.hbmChanMap k ∉ evtRegs := not_evtReg (by simp only [Csr.hbmChanMap, Csr.hbm]; omega)
    have hunmarked : (u.reg (Csr.hbmChanMap k)).bit (32 + c) = false := by rw [hu.reg w List.not_mem_nil hevt, hmark]
    have hset (v : State) : ModuleKept [Csr.hbmChanMap k] v (v.setBit (Csr.hbmChanMap k) (32 + c) true) :=
      ModuleKept.refl.setBit _ _ List.mem_cons_self
    have hmarked := (hset u).raise 0x25 [BitVec.ofNat 64 (k * 32 + c)]
    refine ⟨_, exec_channelNotAnswering hm hp jobs, ?_⟩
    rw [markChannel_eq hunmarked]
    refine ⟨?_, raised_raise _ _ _, fun j hj hrun => ?_, ((haltUnanswered_kept a k _ s).trans hmarked).frame w⟩
    · rw [raise_reg _ _ _ ((hset u).canonical wu) _ hevt, State.bit_setBit _ _ _ _ _ wu (by omega), if_pos rfl]
    · obtain ⟨hraised, hhalt⟩ := hhalts j (List.mem_filter.mpr ⟨hj, hrun⟩)
      refine ⟨Raised.sent hraised hmarked.sent, ?_⟩
      rw [State.raise_halts]
      exact hhalt
  case refresh =>
    intro k hp now temp
    exact ⟨fun h => ⟨_, exec_refreshRateRaise k hm hp h, setRefresh_shows w k.val _ (refreshCode_le _ _ _)⟩,
      fun h => ⟨_, exec_refreshRateLower k hm hp h, setRefresh_shows w k.val _ (refreshCode_le _ _ _)⟩⟩
  case zeroing =>
    intro job j i x wm hj hx hz hbase
    have hread (a : Nat) := State.readByte_clearRange s x.base x.size a wm
    refine ⟨_, exec_windowZeroingDone hj hx hz, fun a hlo hhi => ?_, fun a hout => ?_, rfl, fun _ => rfl, _, job?_putJob hj rfl, rfl⟩
    · exact (hread a).trans ((if_pos ⟨hlo, hhi⟩).trans (memDefault_hbm (by omega)))
    · exact (hread a).trans (if_neg hout)

end Sys2Proof.Machine

end

section
/-! SUPPORT. A trap of a RUNNING core with nothing in flight: the core's new record, and what the rest of the module keeps (R83, R84, R126, R216). -/

namespace Sys2Proof.Machine

open Sys2Proof.Safety

variable {s : State} {n : Fin 32}

/-- Discarding collectives changes the groups and their registers alone (R298, R309). -/
theorem discardCollectives_eq (s : State) (n : Nat) : ∃ g r, s.discardCollectives n = { s with groups := g, regs := r } := by
  unfold State.discardCollectives
  refine List.foldlRecOn (motive := fun t : State => ∃ g r, t = { s with groups := g, regs := r }) _ _ ⟨_, _, rfl⟩ (fun t ht p _ => ?_)
  obtain ⟨g, r, rfl⟩ := ht
  split
  · split
    · exact ⟨_, _, rfl⟩
    · exact ⟨_, _, rfl⟩
  · exact ⟨_, _, rfl⟩

/-- The core as the trap with the words w and i stops its dispatch: what waits is discarded (R83). -/
def Core.trapping (c : Core) (w i : Word) (fenced : Bool) : Core :=
  { ({ c with unitFailed := fenced } : Core).discardWaiting with stopping := some (w, i), wait := .free, fills := [] }

/-- The core once the trap that stopped it is recorded (R83, R126, R216). -/
def Core.trapped (c : Core) (now : Nat) (w i : Word) : Core :=
  { c.arraysLeave now with
    stopping := none, unitFailed := false, trap := w, trapInfo := i, wait := .free
    run := if (c.arraysLeave now).unitFailed then .fenced else .trapped }

@[simp] theorem Core.arraysLeave_job (c : Core) (now : Nat) : (c.arraysLeave now).job = c.job := by
  unfold Core.arraysLeave
  split <;> rfl

@[simp] theorem Core.arraysLeave_unitFailed (c : Core) (now : Nat) : (c.arraysLeave now).unitFailed = c.unitFailed := by
  unfold Core.arraysLeave
  split <;> rfl

theorem Core.trapped_run (c : Core) (now : Nat) (w i : Word) : (c.trapped now w i).run = if c.unitFailed then .fenced else .trapped := by
  simp only [Core.trapped, Core.arraysLeave_unitFailed]

theorem trapping_inFlight {c : Core} (h : c.inFlight = false) (w i : Word) (fenced : Bool) : (c.trapping w i fenced).inFlight = false := by
  have hmem : ∀ q, ∀ e ∈ (c.trapping w i fenced).queue q, e ∈ c.queue q := fun q e he => by
    cases q <;> exact (List.mem_filter.mp he).1
  unfold Core.inFlight at h ⊢
  rw [Bool.or_eq_false_iff, List.any_eq_false] at h ⊢
  obtain ⟨hstarted, hdrains⟩ := h
  refine ⟨fun q hq hany => ?_, hdrains⟩
  obtain ⟨e, he, hes⟩ := List.any_eq_true.mp hany
  exact hstarted q hq (List.any_eq_true.mpr ⟨e, hmem q e he, hes⟩)

/-- With nothing in flight a trap is recorded as soon as it has stopped the core, and the runtime answers with a halt (R83, R446). -/
theorem settle_setCore {c : Core} {w i : Word} (hstop : c.stopping = some (w, i)) (hidle : c.inFlight = false) :
    (s.setCore n c).settle n =
      { s.setCore n (c.trapped s.now w i) with halts := s.halts ++ [trapHalt c.job n.val w i s.ft c.unitFailed] } := by
  have hcore : (s.setCore n c).cores[n] = c := State.core_setCore s n c
  have hhalt : trapHalt (c.arraysLeave s.now).job n.val w i s.ft (c.arraysLeave s.now).unitFailed = trapHalt c.job n.val w i s.ft c.unitFailed := by
    rw [Core.arraysLeave_job, Core.arraysLeave_unitFailed]
  rw [← hhalt]
  simp only [State.settle, hcore, hstop, hidle, Bool.false_eq_true, if_false, State.setCore_setCore, State.setCore_now]
  rfl

/-- A trap that finds nothing in flight stops the core at once. Beyond the core's record and the halt asked for, only groups and their registers change. -/
theorem trap_stops {conds : List Condition} {cause : Cause} {info : Word} (cls : Nat) (pc : BitVec 48) (hrun : (s.cores[n]).run = .running)
    (hfree : (s.cores[n]).stopping = none) (hidle : (s.cores[n]).inFlight = false) (hfirst : firstCondition conds = some (cause, info)) :
    let w := trapWord cls cause (conds.length - 1) pc
    let fenced := (s.cores[n]).unitFailed || ownUnitFailed conds
    ∃ g r, s.trap n conds cls pc = { s.setCore n (((s.cores[n]).trapping w info fenced).trapped s.now w info) with
      groups := g, regs := r, halts := s.halts ++ [trapHalt (s.cores[n]).job n.val w info s.ft fenced] } := by
  intro w fenced
  obtain ⟨g, r, hdiscard⟩ := discardCollectives_eq s n.val
  have hstill := trapping_inFlight hidle w info fenced
  have htrap : s.trap n conds cls pc = ((s.discardCollectives n.val).setCore n ((s.cores[n]).trapping w info fenced)).settle n := by
    unfold State.trap
    rw [hfirst]
    dsimp only
    rw [if_neg (fun hne => hne hrun)]
    split
    next => rfl
    next hsome => exact absurd (hfree.symm.trans hsome) (Option.some_ne_none _).symm
  refine ⟨g, r, ?_⟩
  rw [htrap, settle_setCore rfl hstill, hdiscard]
  rfl

/-- What the record of the core and memory read after such a trap. -/
theorem trap_records {conds : List Condition} {cause : Cause} {info : Word} (cls : Nat) (pc : BitVec 48) (hrun : (s.cores[n]).run = .running)
    (hfree : (s.cores[n]).stopping = none) (hidle : (s.cores[n]).inFlight = false) (hfirst : firstCondition conds = some (cause, info)) :
    let t := s.trap n conds cls pc
    (t.cores[n]).trap = trapWord cls cause (conds.length - 1) pc ∧ (t.cores[n]).trapInfo = info ∧
    (t.cores[n]).run = (if (s.cores[n]).unitFailed || ownUnitFailed conds then .fenced else .trapped) ∧ ∀ a, t.readByte a = s.readByte a := by
  obtain ⟨g, r, ht⟩ := trap_stops cls pc hrun hfree hidle hfirst
  have hcore (c : Core) : (s.setCore n c).cores[n] = c := State.core_setCore s n c
  intro t
  simp only [t, ht, hcore]
  exact ⟨rfl, rfl, Core.trapped_run _ _ _ _, fun _ => rfl⟩

/-- The cause that a trap word shows (R126). -/
theorem trapWord_cause (cls : Nat) (cause : Cause) (supp : Nat) (pc : BitVec 48) : (trapWord cls cause supp pc).field 59 52 = cause.code := by
  have hcode : cause.code < 2 ^ 8 := by cases cause <;> decide
  have hplaced : (Word.place cause.code 8 52).field 59 52 = cause.code % 2 ^ 8 := Word.field_place cause.code 59 52 (by decide)
  simp only [trapWord, Word.field_or, hplaced]
  rw [Word.field_place_apart _ _ _ _ _ (by decide), Word.field_place_apart _ _ _ _ _ (by decide), Word.field_place_apart _ _ _ _ _ (by decide),
    Nat.mod_eq_of_lt hcode]
  simp

end Sys2Proof.Machine

end

section
/-! PROOFS. Line fills, and a core that enters RUNNING with its first line (R25, R78, R86, R126, R173, R191, R288). -/

namespace Sys2Proof.Machine

open Sys2Proof.Safety

variable {s : State} {n : Fin 32}

/-! ### The line -/

/-- The core once the fill f has completed with the given bytes: the line is the most recently used of 16 (R78). -/
def Core.filled (c : Core) (f : LineFill) (rest : List LineFill) (bytes : List Host.Cell) : Core :=
  { c with fills := rest, lines := (({ block := f.block, bytes := bytes } : Line) :: c.lines.filter (fun l => l.block != f.block)).take 16 }

/-- The module once the fill f of core n has completed. -/
def State.filled (s : State) (n : Fin 32) (f : LineFill) (rest : List LineFill) : State :=
  s.setCore n ((s.cores[n]).filled f rest (s.blockBytes f.block))

theorem filled_core (s : State) (n : Fin 32) (f : LineFill) (rest : List LineFill) :
    (s.filled n f rest).cores[n] = (s.cores[n]).filled f rest (s.blockBytes f.block) := State.core_setCore s n _

theorem exec_instructionFetchFill {f : LineFill} {rest : List LineFill} (hf : (s.cores[n]).fills = f :: rest) (hp : s.poison = []) :
    exec (.instructionFetchFill n .none) s =
      .next (if (s.cores[n]).run = .idle ∧ (s.cores[n]).job ≠ 0 then (s.filled n f rest).enterRunning n else s.filled n f rest) := by
  have hclean : s.poisonedIn (f.block * 4096) 4096 = false := by simp [State.poisonedIn, hp]
  show execInstructionFetchFill n .none s = _
  simp only [execInstructionFetchFill, hf, State.readCheck_clean s _ _ hclean]
  rfl

/-! ### The first line of a job's core -/

/-- The core as it enters RUNNING: records and counters clear, the signals held for it in its cross-core semaphores (R86). -/
def Core.entered (c : Core) (now : Nat) : Core :=
  { c with
    run := .running, sems := heldSems c, trap := 0, trapInfo := 0, numst := 0, mmcyc := 0, mmkwc := 0, kwRest := 0, mmcell := 0, veccyc := 0, rowcyc := 0
    cycles := 0, bank0 := Bank.vacant, bank1 := Bank.vacant, saved := none, drains := [], arrays := .gated, duty := 0
    arraysSince := now, weighted := 0, heldSignals := Vector.replicate 16 0 }

/-- A core for which no sum of held signals is above 65,535 enters RUNNING without a trap. -/
theorem enterRunning_eq (h : heldConditions (s.cores[n]) = []) :
    s.enterRunning n =
      ((s.clearRange (statsBase n.val) statsSize).setReg (Csr.fabMsgErr n.val) 0).setCore n ((s.cores[n]).entered s.now) := by
  unfold State.enterRunning
  dsimp only
  rw [h]
  rfl

/-- Its semaphores: the local ones stay, the cross-core ones hold what was signalled before (R25). -/
theorem entered_sem (c : Core) (now k : Nat) :
    (c.entered now).sem k = if h : 32 ≤ k ∧ k < 48 then min 65535 c.heldSignals[k - 32] else c.sem k := by
  show (match (heldSems c)[k]? with | some v => v.toNat | none => 0) = _
  unfold heldSems Core.sem
  by_cases hcross : 32 ≤ k ∧ k < 48
  · have hk : k < 48 := hcross.2
    have hlocal : ¬ k < 32 := by omega
    have hindex : c.heldSignals[k - 32]? = some c.heldSignals[k - 32] := Vector.getElem?_eq_getElem (by omega)
    have hsmall : min 65535 c.heldSignals[k - 32] < 65536 := by omega
    simp [hcross, hlocal, hindex, Nat.mod_eq_of_lt hsmall]
  · rw [dif_neg hcross]
    by_cases hk : k < 48
    · have hlocal : k < 32 := by omega
      simp [hk, hlocal]
    · simp [hk]

/-- Of the cores only n has changed. -/
theorem enterRunning_cores {c : Core} (hc : s.cores[n] = c) (h : heldConditions c = []) :
    (s.enterRunning n).cores[n] = c.entered s.now ∧ ∀ m : Fin 32, m ≠ n → (s.enterRunning n).cores[m] = s.cores[m] := by
  subst hc
  rw [enterRunning_eq h]
  exact ⟨State.core_setCore _ n _, fun m hm => State.core_setCore_ne _ n m _ hm⟩

/-- The registers of core n after it has entered RUNNING. -/
theorem enterRunning_registers {c : Core} (hc : s.cores[n] = c) (h : heldConditions c = []) :
    Registers (s.enterRunning n) n c.s c.p c.d
      (fun k => if h : 32 ≤ k ∧ k < 48 then min 65535 c.heldSignals[k - 32] else c.sem k) := by
  unfold Registers
  rw [(enterRunning_cores hc h).1]
  exact ⟨fun _ => rfl, fun _ => rfl, fun _ => rfl, entered_sem _ _⟩

/-- Its statistics memory holds EMPTY records, and no failed message of it is recorded (R173, R288). -/
theorem enterRunning_memory (h : heldConditions (s.cores[n]) = []) (wm : memCanonical s) (wr : regsCanonical s) :
    (s.enterRunning n).reg (Csr.fabMsgErr n.val) = 0 ∧
    ∀ a, (s.enterRunning n).readByte a = if statsBase n.val ≤ a ∧ a < statsBase n.val + statsSize then memDefault a else s.readByte a := by
  rw [enterRunning_eq h]
  refine ⟨?_, fun a => State.readByte_clearRange s _ _ a wm⟩
  have wc : regsCanonical (s.clearRange (statsBase n.val) statsSize) := wr
  rw [State.reg_setCore, State.reg_setReg _ _ _ _ wc, if_pos rfl]

end Sys2Proof.Machine

end

section
/-! PROOFS. Deadlock and wait timeout, then line fills and blocked cores together (R81, R82, R84, R125). -/

namespace Sys2Proof.Machine

open Sys2Proof.Safety

variable {s : State} {n : Fin 32}

/-! ### Deadlock -/

/-- The condition that a deadlock raises: the queues that wait, and the sequencer (R125). -/
def Core.deadlockCondition (c : Core) : Condition := (.deadlock, Word.place c.waitingQueues 6 0 ||| Word.placeBit true 6)

theorem exec_deadlockDetect (hrun : (s.cores[n]).run = .running) (hfree : (s.cores[n]).stopping = none) (hidle : (s.cores[n]).inFlight = false)
    (hqueues : QueueId.all.all (s.cores[n]).deadQueue = true) (hseq : (s.cores[n]).deadSequencer = true) :
    exec (.deadlockDetect n) s = .next (s.trap n [(s.cores[n]).deadlockCondition] 0 (s.cores[n]).pc) :=
  if_pos ⟨hrun, Option.isNone_iff_eq_none.mpr hfree, by rw [hidle]; rfl, hqueues, hseq⟩

/-- The sequencer's bit of the detail is set. -/
theorem deadlockCondition_sequencer (c : Core) : c.deadlockCondition.2.bit 6 = true := by
  simp [Core.deadlockCondition, Word.bit_or, Word.bit_placeBit]

/-! ### Wait timeout -/

/-- The condition that a wait raises when its time is over. -/
def BlockedWait.condition (b : BlockedWait) : Condition := (.waitTimeout, b.info)

theorem exec_waitTimeoutExpiry {b : BlockedWait} {more : List BlockedWait} (hrun : (s.cores[n]).run = .running) (hfree : (s.cores[n]).stopping = none)
    (hlimit : (s.cores[n]).runcfg.field 63 48 * 1000000 ≠ 0)
    (hwaits : ((s.cores[n]).blockedWaits (groupFull s n)).filter
      (fun x => decide ((s.cores[n]).runcfg.field 63 48 * 1000000 < s.now - x.since)) = b :: more) :
    exec (.waitTimeoutExpiry n) s = .next (s.trap n ((b :: more).map BlockedWait.condition) b.cls b.pc) := by
  show execWaitTimeoutExpiry n s = _
  simp only [execWaitTimeoutExpiry, hrun, hfree, hlimit, hwaits, Option.isNone_none, ne_eq, not_false_eq_true, and_self, if_true]
  rfl

/-- Among waits whose time is over none precedes another, and the first stands (R84). -/
theorem firstCondition_waits (b : BlockedWait) (more : List BlockedWait) :
    firstCondition ((b :: more).map BlockedWait.condition) = some b.condition := by
  induction more generalizing b with
  | nil => rfl
  | cons x l ih =>
    rw [List.map_cons, firstCondition, ih x]
    rfl

theorem ownUnitFailed_waits (l : List BlockedWait) : ownUnitFailed (l.map BlockedWait.condition) = false := by
  unfold ownUnitFailed
  rw [List.any_eq_false]
  intro c hc
  obtain ⟨b, -, rfl⟩ := List.mem_map.mp hc
  simp [BlockedWait.condition]

/-- With its queues empty a core that waits on a semaphore has that one blocked wait. -/
theorem blockedWaits_own {c : Core} {code count since cls : Nat} {own : Bool} (full : Entry → Bool) (hempty : ∀ q, c.queue q = [])
    (hw : c.wait = .sem code count since own cls) :
    c.blockedWaits full = [{ since := since, info := waitInfo code count, cls := cls, pc := c.pc }] := by
  have hhead : ∀ q, c.head q = none := fun q => by simp [Core.head, hempty q]
  simp [Core.blockedWaits, hhead, hw]

/-- The detail of a wait holds its semaphore and its COUNT (R125). -/
theorem waitInfo_eq {code count : Nat} (hcode : code < 64) (hcount : count < 65536) :
    waitInfo code count = BitVec.ofNat 64 (code * 2 ^ 16 + count) := by
  have hor : code * 2 ^ 16 ||| count = code * 2 ^ 16 + count := by
    rw [Nat.mul_comm, Nat.two_pow_add_eq_or_of_lt (by omega)]
  unfold waitInfo Word.place
  rw [Nat.mod_eq_of_lt (by omega), Nat.mod_eq_of_lt (by omega), ← BitVec.ofNat_or, Nat.pow_zero, Nat.mul_one, hor]

/-- Waits longer than the limit stop the core: the first is recorded, the others are counted (R82, R84). -/
theorem waitTimeout_stops {b : BlockedWait} {more : List BlockedWait} (hrun : (s.cores[n]).run = .running) (hfree : (s.cores[n]).stopping = none)
    (hidle : (s.cores[n]).inFlight = false) (hlimit : (s.cores[n]).runcfg.field 63 48 * 1000000 ≠ 0)
    (hwaits : ((s.cores[n]).blockedWaits (groupFull s n)).filter
      (fun x => decide ((s.cores[n]).runcfg.field 63 48 * 1000000 < s.now - x.since)) = b :: more) :
    ∃ t, exec (.waitTimeoutExpiry n) s = .next t ∧ (t.cores[n]).run = (if (s.cores[n]).unitFailed then .fenced else .trapped) ∧
      (t.cores[n]).trap = trapWord b.cls .waitTimeout more.length b.pc ∧ (t.cores[n]).trapInfo = b.info ∧ ∀ a, t.readByte a = s.readByte a := by
  obtain ⟨htrap, hinfo, hstopped, hmem⟩ := trap_records b.cls b.pc hrun hfree hidle (firstCondition_waits b more)
  rw [ownUnitFailed_waits, Bool.or_false] at hstopped
  rw [List.length_map, List.length_cons, Nat.add_sub_cancel] at htrap
  exact ⟨_, exec_waitTimeoutExpiry hrun hfree hlimit hwaits, hstopped, htrap, hinfo, hmem⟩

/-- Settles O15: the fill by `Core.filled` and `enterRunning_eq`, the blocked cores by `trap_records` of the conditions they raise. -/
theorem fillsAndBlockedCores : Obligations.FillsAndBlockedCores := by
  refine ⟨?fill, ?blocked⟩
  case fill =>
    intro s n f rest wm wr hf hp hheld line
    let c := (s.cores[n]).filled f rest (s.blockBytes f.block)
    let u := s.filled n f rest
    have hc : u.cores[n] = c := filled_core s n f rest
    have hother : ∀ m : Fin 32, m ≠ n → u.cores[m] = s.cores[m] := fun m hm => State.core_setCore_ne s n m _ hm
    have hexec := exec_instructionFetchFill hf hp
    by_cases hfirst : (s.cores[n]).run = .idle ∧ (s.cores[n]).job ≠ 0
    case pos =>
      obtain ⟨hcore, hstay⟩ := enterRunning_cores hc hheld
      obtain ⟨hmsg, hmem⟩ := enterRunning_memory (s := u) (n := n) (hc ▸ hheld) wm wr
      rw [if_pos hfirst] at hexec
      refine ⟨_, hexec, congrArg Core.lines hcore, congrArg Core.fills hcore, fun m hm => (hstay m hm).trans (hother m hm),
        fun hrun => absurd (hfirst.1.symm.trans hrun) (by decide), fun _ _ => ?_⟩
      refine ⟨congrArg Core.run hcore, congrArg Core.trap hcore, congrArg Core.trapInfo hcore, congrArg Core.numst hcore, congrArg Core.cycles hcore,
        congrArg Core.mmcyc hcore, congrArg Core.veccyc hcore, congrArg Core.rowcyc hcore, hmsg, hmem, enterRunning_registers (c := c) hc hheld⟩
    case neg =>
      rw [if_neg hfirst] at hexec
      refine ⟨u, hexec, congrArg Core.lines hc, congrArg Core.fills hc, hother,
        fun hrun => ⟨(congrArg Core.run hc).trans hrun, (congrArg Core.numst hc :), ?_, fun _ => rfl⟩, fun hidle hjob => absurd ⟨hidle, hjob⟩ hfirst⟩
      unfold RegistersSame Registers
      rw [hc]
      exact ⟨fun _ => rfl, fun _ => rfl, fun _ => rfl, fun _ => rfl⟩
  case blocked =>
    intro s n hrun hfree hidle stopped limit
    refine ⟨fun hqueues hseq => ?deadlock, fun b more hlimit hwaits => ?timeout, fun code count since cls own hempty hw hlimit hlate hcode hcount => ?own⟩
    case deadlock =>
      obtain ⟨htrap, hinfo, hstopped, hmem⟩ := trap_records (conds := [(s.cores[n]).deadlockCondition]) 0 (s.cores[n]).pc hrun hfree hidle rfl
      have hown : ownUnitFailed [(s.cores[n]).deadlockCondition] = false := rfl
      rw [hown, Bool.or_false] at hstopped
      refine ⟨_, exec_deadlockDetect hrun hfree hidle hqueues hseq, hstopped, ?_, ?_, hmem⟩
      · rw [htrap]
        exact trapWord_cause _ _ _ _
      · rw [hinfo]
        exact deadlockCondition_sequencer _
    case timeout => exact waitTimeout_stops hrun hfree hidle hlimit hwaits
    case own =>
      have hwaits : ((s.cores[n]).blockedWaits (groupFull s n)).filter (fun x => decide (limit < s.now - x.since)) =
          [{ since := since, info := waitInfo code count, cls := cls, pc := (s.cores[n]).pc }] := by
        rw [blockedWaits_own _ hempty hw]
        simp [hlate]
      obtain ⟨t, hexec, hstopped, htrap, hinfo, hmem⟩ := waitTimeout_stops hrun hfree hidle hlimit hwaits
      exact ⟨t, hexec, hstopped, htrap ▸ trapWord_cause _ _ _ _, hinfo.trans (waitInfo_eq hcode hcount), hmem⟩

end Sys2Proof.Machine

end

section
/-! PROOFS. The accumulator of a data cell in exact mode (R44, R45): the cycles cut the products into pieces, and a sum modulo 2⁸⁸ does not see the cuts. -/

namespace Sys2Proof.Machine

/-- One cycle adds its products to the accumulator, modulo 2⁸⁸ (R45). -/
theorem exactStep_acc (c : DataCell) (terms : List Val) :
    (exactStep c terms).acc = c.acc + BitVec.ofInt 88 (terms.map (toUnits 32)).sum := by
  rw [List.sum_eq_foldl, List.foldl_map]
  simp only [exactStep, BitVec.ofInt_add, BitVec.ofInt_toInt]

/-- The pieces of a list, put together again, are the list. -/
theorem chunksOf_flatten {α : Type} {d : Nat} (hd : 0 < d) (fuel : Nat) (l : List α) (h : l.length ≤ fuel) : (chunksOf d fuel l).flatten = l := by
  induction fuel generalizing l with
  | zero => rw [chunksOf, List.flatten_nil, List.eq_nil_of_length_eq_zero (Nat.le_zero.mp h)]
  | succ fuel ih =>
    cases l with
    | nil => rfl
    | cons x l =>
      have hrest : ((x :: l).drop d).length ≤ fuel := by
        rw [List.length_drop]
        omega
      rw [chunksOf, List.flatten_cons, ih _ hrest, List.take_append_drop]
      exact fun e => nomatch e

/-- Cycle after cycle, the accumulator has received the sum over all indices of the pieces. -/
theorem foldl_exactStep_acc (term : Nat → Val) (chunks : List (List Nat)) (c : DataCell) :
    (chunks.foldl (fun c ks => exactStep c (ks.map term)) c).acc =
      c.acc + BitVec.ofInt 88 (chunks.flatten.map (fun k => toUnits 32 (term k))).sum := by
  induction chunks generalizing c with
  | nil => simp
  | cons ks chunks ih =>
    rw [List.foldl_cons, ih, exactStep_acc, List.flatten_cons, List.map_append, List.sum_append, BitVec.ofInt_add, BitVec.add_assoc, List.map_map]
    rfl

/-- In an exact mode the accumulator of a cell goes through the pieces of the cell's indices. -/
theorem cellAfter_acc_exact {m : AccMode} (hm : m = .exactFloat ∨ m = .exactInt) (d : Nat) (idx : List Nat) (a b : Nat → Val) (c : DataCell) :
    ∃ c0 : DataCell, c0.acc = c.acc ∧
      cellAfter m d idx a b c = (chunksOf d idx.length idx).foldl (fun c ks => exactStep c (ks.map (fun k => (a k).mul (b k)))) c0 :=
  let fl := (cellProducts m idx a b).foldl (fun f v => f ||| classFlags v) 0
  ⟨{ c with flags := c.flags ||| fl, copy := c.copy ||| fl }, rfl, if_pos hm⟩

/-- Settles O27, by induction over the cycles (`foldl_exactStep_acc`), whose pieces put together are all indices (`chunksOf_flatten`). -/
theorem exactCellSum : Obligations.ExactCellSum := by
  intro m d idx a b c hm hd
  obtain ⟨c0, hacc, hcell⟩ := cellAfter_acc_exact hm d idx a b c
  rw [hcell, foldl_exactStep_acc, chunksOf_flatten hd _ _ (Nat.le_refl _), hacc, BitVec.ofInt_add, BitVec.ofInt_toInt]

end Sys2Proof.Machine

end

section
/-! SUPPORT. What a core's registers read after one semaphore has changed, signals that do not overflow, and a core that no trap stops (R61, R62, R65, R83). -/

namespace Sys2Proof.Machine

open Sys2Proof.Safety

variable {s : State} {n : Fin 32}

/-- A semaphore that a wait consumes; a code that no semaphore has reads 0 before and after (R62). -/
theorem Core.sem_consume (c : Core) (code v k : Nat) :
    (c.setSem code (c.sem code - v)).sem k = if k = code then c.sem k - v else c.sem k := by
  by_cases hcode : code < 48
  case pos =>
    have hlt : c.sem code - v < 65536 := Nat.lt_of_le_of_lt (Nat.sub_le _ _) (c.sem_lt code)
    rw [Core.sem_setSem c _ _ _ hcode, Nat.mod_eq_of_lt hlt]
    split
    next hk => rw [hk]
    next => rfl
  case neg =>
    have hnone : c.sem code = 0 := by
      unfold Core.sem
      rw [Vector.getElem?_eq_none (by omega)]
    have hsame : c.setSem code (c.sem code - v) = c := by
      unfold Core.setSem
      rw [Vector.setIfInBounds_eq_of_size_le (by omega)]
    rw [hsame]
    split
    next hk => rw [hk, hnone, Nat.zero_sub]
    next => rfl

/-- A field of a word fits its bits. -/
theorem Word.field_lt (w : Word) (hi lo : Nat) : w.field hi lo < 2 ^ (hi + 1 - lo) := Nat.mod_lt _ (Nat.two_pow_pos _)

/-- A core that signals semaphore `code` of its own when `on` (R61). -/
def Core.signalled (c : Core) (on : Bool) (code : Nat) : Core := if on then c.setSem code (c.sem code + 1) else c

/-- Its semaphores: the signal adds 1. -/
theorem Core.signalled_sem (c : Core) (on : Bool) {code : Nat} (hcode : code < 48) (hroom : on = true → c.sem code + 1 ≤ 65535) (k : Nat) :
    (c.signalled on code).sem k = if on = true ∧ k = code then c.sem k + 1 else c.sem k := by
  cases on with
  | false => simp [Core.signalled]
  | true =>
    have hlt : c.sem code + 1 < 65536 := by have := hroom rfl; omega
    rw [Core.signalled, if_pos rfl, Core.sem_setSem c _ _ _ hcode, Nat.mod_eq_of_lt hlt]
    by_cases hk : k = code
    · simp [hk]
    · simp [hk]

/-- A signal changes a core's semaphores alone. -/
theorem Core.signalled_eq (c : Core) (on : Bool) (code : Nat) : ∃ v, c.signalled on code = { c with sems := v } := by
  cases on with
  | false => exact ⟨_, rfl⟩
  | true => exact ⟨_, rfl⟩

/-- A signal that stays within 65,535 sets the semaphore and nothing else (R65). -/
theorem signal_within {code inc : Nat} (who : Signaller) (h : (s.cores[n]).sem code + inc ≤ 65535) :
    s.signal n code inc who = s.setCore n ((s.cores[n]).setSem code ((s.cores[n]).sem code + inc)) := if_pos h

/-- A core that has been replaced signals when `on`. -/
theorem signal_setCore {c : Core} {on : Bool} {code : Nat} (who : Signaller) (hroom : on = true → c.sem code + 1 ≤ 65535) :
    (if on then (s.setCore n c).signal n code 1 who else s.setCore n c) = s.setCore n (c.signalled on code) := by
  have hcore : (s.setCore n c).cores[n] = c := State.core_setCore s n c
  cases on with
  | false => rfl
  | true =>
    rw [if_pos rfl, signal_within who (by rw [hcore]; exact hroom rfl), hcore, State.setCore_setCore]
    rfl

/-- A core that no trap is stopping has nothing to record (R83). -/
theorem settle_going (h : (s.cores[n]).stopping = none) : s.settle n = s := by
  unfold State.settle
  simp only [h]

/-- Core n replaced by one with the same scalar, predicate and descriptor registers. -/
theorem registers_setCore {c : Core} {sem : Nat → Nat} (hs : c.sregs = (s.cores[n]).sregs) (hp : c.preds = (s.cores[n]).preds)
    (hd : c.dregs = (s.cores[n]).dregs) (hsem : ∀ k, c.sem k = sem k) :
    Registers (s.setCore n c) n (s.cores[n]).s (s.cores[n]).p (s.cores[n]).d sem := by
  have hcore : (s.setCore n c).cores[n] = c := State.core_setCore s n c
  unfold Registers Core.s Core.p Core.d
  rw [hcore, hs, hp, hd]
  exact ⟨fun _ => rfl, fun _ => rfl, fun _ => rfl, hsem⟩

end Sys2Proof.Machine

end

section
/-! PROOFS. The head of a move, vector, row or comm queue starts (R56, R62, R64, R235). -/

namespace Sys2Proof.Machine

open Sys2Proof.Safety

variable {s : State} {n : Fin 32} {q : QueueId} {e : Entry}

/-! ### The queue -/

theorem replaceEntry_length (l : List Entry) (e : Entry) : (replaceEntry l e).length = l.length := List.length_map _

/-- The new entry is in the queue when one with its dispatch number was. -/
theorem mem_replaceEntry {l : List Entry} {old new : Entry} (hmem : old ∈ l) (hseq : old.seq = new.seq) : new ∈ replaceEntry l new :=
  List.mem_map.mpr ⟨old, hmem, if_pos hseq⟩

/-- An entry with another dispatch number stays. -/
theorem mem_replaceEntry_of_ne {l : List Entry} {x new : Entry} (hmem : x ∈ l) (hseq : x.seq ≠ new.seq) : x ∈ replaceEntry l new :=
  List.mem_map.mpr ⟨x, hmem, if_neg hseq⟩

/-- An entry of the queue after a replacement is the new one or has another dispatch number. -/
theorem eq_or_seq_ne_of_mem_replaceEntry {l : List Entry} {x new : Entry} (hmem : x ∈ replaceEntry l new) : x = new ∨ x.seq ≠ new.seq := by
  obtain ⟨y, -, hy⟩ := List.mem_map.mp hmem
  by_cases hseq : y.seq = new.seq
  · exact .inl (hy.symm.trans (if_pos hseq))
  · exact .inr (by rwa [← hy.symm.trans (if_neg hseq)] at hseq)

/-- The next instruction that has not started comes to the head of the queue at a time (R82). -/
def nextHead (l : List Entry) (now : Nat) : List Entry :=
  match l.find? (fun x => !x.started) with
  | some h => replaceEntry l { h with since := now }
  | none => l

theorem nextHead_length (l : List Entry) (now : Nat) : (nextHead l now).length = l.length := by
  unfold nextHead
  split
  · exact replaceEntry_length _ _
  · rfl

/-- The entry as it has started, its operands read. -/
def Entry.begun (e : Entry) : Entry := { e with started := true, failed := false }

/-- The entry that has started stays in its queue: the next head is another one. -/
theorem begun_mem_nextHead {l : List Entry} (now : Nat) (he : e ∈ l) : e.begun ∈ nextHead (replaceEntry l e.begun) now := by
  have hmem : e.begun ∈ replaceEntry l e.begun := mem_replaceEntry he rfl
  unfold nextHead
  split
  next h hfind =>
    have hwaits : h.started = false := by simpa using List.find?_some hfind
    have hne : h ≠ e.begun := fun heq => Bool.false_ne_true (hwaits.symm.trans (congrArg Entry.started heq))
    have hseq := (eq_or_seq_ne_of_mem_replaceEntry (List.mem_of_find?_eq_some hfind)).resolve_left hne
    exact mem_replaceEntry_of_ne hmem hseq.symm
  next => exact hmem

/-! ### The engine -/

/-- What such an engine accepts starts without a trap, and the core is as it was. -/
theorem startEffect_plain {c : Core} (hq : q ∈ [QueueId.move, .vector, .row, .comm]) (hacc : c.accepts q e = true) (now : Nat) : startEffect c q e now = some ([], c) := by
  unfold startEffect
  rw [hacc]
  cases q with
  | move | vector | row | comm => rfl
  | ctx0 | ctx1 => exact absurd hq (by decide)

/-- No range is read: nothing is met. -/
theorem readCheck_nil (s : State) : s.readCheck .none [] = (s, none) := rfl

/-- The arrays have not entered RISE: nothing is noted (R388). -/
theorem noteRise_false (s : State) : s.noteRise false = s := rfl

/-- Traffic that enters the mesh changes the core's record of it alone. -/
theorem foldl_meshSend_eq (l : List MeshFlight) (c : Core) : ∃ m, l.foldl Core.meshSend c = { c with mesh := m } := by
  induction l generalizing c with
  | nil => exact ⟨c.mesh, rfl⟩
  | cons f l ih =>
    obtain ⟨m, hm⟩ := Core.meshSend_eq c f
    obtain ⟨m', hm'⟩ := ih { c with mesh := m }
    exact ⟨m', by rw [List.foldl_cons, hm, hm']⟩

/-- No access: no staging area is met. -/
theorem clearOfStaging_nil (s : State) (job : Word) : s.clearOfStaging job [] = true := by
  unfold State.clearOfStaging Group.meets
  refine List.all_eq_true.mpr (fun o _ => ?_)
  cases o with
  | none => rfl
  | some g => simp

/-- The core once the head e of queue q has started: its wait is consumed, its traffic is on the mesh (R62, R248). -/
def Core.begins (c : Core) (n : Fin 32) (q : QueueId) (e : Entry) (now : Nat) : Core :=
  (entryFlights n e).foldl Core.meshSend
    ((c.setSem (wselSem e.wsel) (c.sem (wselSem e.wsel) - wselCount e.wsel)).setQueue q (nextHead (replaceEntry (c.queue q) e.begun) now))

theorem Core.begins_eq (c : Core) (n : Fin 32) (q : QueueId) (e : Entry) (now : Nat) : ∃ m,
    c.begins n q e now = { (c.setSem (wselSem e.wsel) (c.sem (wselSem e.wsel) - wselCount e.wsel)).setQueue q
      (nextHead (replaceEntry (c.queue q) e.begun) now) with mesh := m } := foldl_meshSend_eq _ _

/-- The queues of the core read the same whatever is on the mesh. -/
theorem Core.queue_mesh (c : Core) (m : List MeshFlight) (q : QueueId) : ({ c with mesh := m } : Core).queue q = c.queue q := by cases q <;> rfl

/-- Its queues: one has a started head, the others are as they were. -/
theorem Core.begins_queue (c : Core) (n : Fin 32) (q : QueueId) (e : Entry) (now : Nat) (r : QueueId) :
    (c.begins n q e now).queue r = if r = q then nextHead (replaceEntry (c.queue q) e.begun) now else c.queue r := by
  obtain ⟨m, hm⟩ := c.begins_eq n q e now
  rw [hm, Core.queue_mesh, Core.queue_setQueue, Core.queue_setSem]

/-- Its registers: the wait has consumed its COUNT of one semaphore, and nothing else has changed (R62). -/
theorem begins_registers (s : State) (n : Fin 32) (q : QueueId) (e : Entry) (now : Nat) :
    Registers (s.setCore n ((s.cores[n]).begins n q e now)) n (s.cores[n]).s (s.cores[n]).p (s.cores[n]).d
      (fun k => if k = wselSem e.wsel then (s.cores[n]).sem k - wselCount e.wsel else (s.cores[n]).sem k) := by
  obtain ⟨m, hm⟩ := (s.cores[n]).begins_eq n q e now
  rw [hm]
  refine registers_setCore (Core.setQueue_sregs _ _ _) (Core.setQueue_preds _ _ _) (Core.setQueue_dregs _ _ _) (fun k => ?_)
  exact (Core.sem_setQueue _ _ _ k).trans (Core.sem_consume _ _ _ k)

/-- A head that can start, whose wait is met and whose bytes meet neither poison nor a staging area, starts; nothing outside its core changes. -/
theorem exec_instructionStart (hrun : (s.cores[n]).run = .running) (hfree : (s.cores[n]).stopping = none) (hq : q ∈ [QueueId.move, .vector, .row, .comm])
    (hhead : (s.cores[n]).head q = some e) (hcan : s.canStart n q e = true)
    (hwait : wselCount e.wsel ≤ s.semLeft n (QueueId.before q) (wselSem e.wsel))
    (hstage : q = .comm ∧ 0x10 ≤ wOp e.word ∨ s.clearOfStaging (s.cores[n]).job (entryReads n e ++ entryWrites n e) = true) (hpoison : s.poison = []) :
    exec (.instructionStart n q .none) s = .next (s.setCore n ((s.cores[n]).begins n q e s.now)) := by
  obtain ⟨hacc, hgroup⟩ := Bool.and_eq_true_iff.mp hcan
  rw [Bool.not_eq_true'] at hgroup
  have hlate : ¬ s.semLeft n (QueueId.before q) (wselSem e.wsel) < wselCount e.wsel := Nat.not_lt.mpr hwait
  have hrises : ((s.cores[n]).arrays == .rise && (s.cores[n]).arrays != .rise) = false := by cases (s.cores[n]).arrays <;> rfl
  have hclear : s.touchStaging (s.cores[n]).job (if 0x10 ≤ wOp e.word ∧ q = .comm then [] else entryReads n e ++ entryWrites n e) = s := by
    apply State.touchStaging_clear
    split
    next => exact clearOfStaging_nil _ _
    next hno => exact hstage.resolve_left (fun h => hno h.symm)
  have hranges : (if s.poison.isEmpty = true ∨ (sourceDescs e).any (fun d => d.empty) = true then [] else entryReads n e) = [] :=
    if_pos (.inl (by rw [hpoison]; rfl))
  show execInstructionStart n q .none s = _
  simp only [execInstructionStart, hrun, hfree, hhead, hlate, hgroup, startEffect_plain hq hacc, hrises, noteRise_false,
    hclear, hranges, readCheck_nil, Option.isSome_none, ne_eq, not_true_eq_false, Bool.false_eq_true, or_self, if_false, decide_false, Bool.false_and]
  rfl

end Sys2Proof.Machine

end

section
/-! PROOFS. An instruction whose check is clean leaves its queue, then starts and completions together (R38, R61, R151, R191). -/

namespace Sys2Proof.Machine

open Sys2Proof.Safety

variable {s : State} {n : Fin 32} {q : QueueId} {e : Entry}

/-- Instructions that raise no flag raise no NUMERIC condition (R38). -/
theorem numericConditions_zero (numst : Word) : numericConditions numst 0 = [] := by simp [numericConditions, numstTraps]

theorem numstRaise_zero (numst : Word) : numstRaise numst 0 = numst := by simp [numstRaise]

/-- Counting an instruction's cycles changes the two cycle counters alone (R191). -/
theorem countCycles_eq (c : Core) (e : Entry) (retries stretch : Nat) :
    countCycles c e retries stretch =
      { c with veccyc := (countCycles c e retries stretch).veccyc, rowcyc := (countCycles c e retries stretch).rowcyc } := by
  unfold countCycles
  dsimp only
  split <;> rfl

/-- An instruction without flags, not of the matrix engine, of a core that no trap stops leaves its queue and signals. -/
theorem finishEntry_clean (hfree : (s.cores[n]).stopping = none) (hflags : e.flags = 0) (hcls : wCls e.word ≠ 2)
    (hroom : wSe e.word = true → (s.cores[n]).sem (wSsem e.word) + 1 ≤ 65535) :
    finishEntry s n q e = s.setCore n (((s.cores[n]).retire q e.seq).signalled (wSe e.word) (wSsem e.word)) := by
  let c := (s.cores[n]).retire q e.seq
  have hnumst : c.numst = (s.cores[n]).numst := Core.setQueue_numst _ _ _
  have hstop (v) : ({ c with sems := v } : Core).stopping = none := (Core.setQueue_stopping _ _ _).trans hfree
  have hsem : c.sem (wSsem e.word) = (s.cores[n]).sem (wSsem e.word) := Core.sem_setQueue _ _ _ _
  have hretire : s.modCore n (fun c =>
      let c := { c.retire q e.seq with numst := numstRaise c.numst e.flags }
      if wCls e.word = 2 ∧ wOp e.word = 0 then c.arraysAfterIssue s.now else c) = s.setCore n c := by
    simp only [State.modCore, hcls, false_and, if_false, hflags, numstRaise_zero, ← hnumst]
    rfl
  have hsignal : (if wSe e.word then (s.setCore n c).signal n (wSsem e.word) 1 (.own (wCls e.word) e.pc) else s.setCore n c) =
      s.setCore n (c.signalled (wSe e.word) (wSsem e.word)) := signal_setCore _ (by rwa [hsem])
  have htrap (u : State) : u.trap n (numericConditions (u.cores[n]).numst e.flags) (wCls e.word) e.pc = u := by
    rw [hflags, numericConditions_zero]
    rfl
  unfold finishEntry
  rw [hretire]
  simp only [hsignal, hcls, if_false, htrap]
  obtain ⟨v, hv⟩ := c.signalled_eq (wSe e.word) (wSsem e.word)
  refine settle_going ?_
  rw [Fin.getElem_fin, State.core_setCore, hv]
  exact hstop v

/-- The core once the instruction e has completed with a clean check: its cycles counted, its place in the queue free, its signal given. -/
def Core.completed (c : Core) (q : QueueId) (e : Entry) (stretch : Nat) : Core :=
  ((countCycles c e 0 stretch).retire q e.seq).signalled (wSe e.word) (wSsem e.word)

/-- Completion changes the queue, the two cycle counters, the semaphores and the mesh traffic of the core. -/
theorem Core.completed_eq (c : Core) (q : QueueId) (e : Entry) (stretch : Nat) : ∃ v m, c.completed q e stretch =
    { c.setQueue q ((c.queue q).filter (fun x => x.seq != e.seq)) with
      veccyc := (countCycles c e 0 stretch).veccyc, rowcyc := (countCycles c e 0 stretch).rowcyc, sems := v, mesh := m } := by
  obtain ⟨v, hv⟩ := ((countCycles c e 0 stretch).retire q e.seq).signalled_eq (wSe e.word) (wSsem e.word)
  refine ⟨v, ((countCycles c e 0 stretch).retire q e.seq).mesh, ?_⟩
  unfold Core.completed
  rw [hv, countCycles_eq]
  cases q <;> rfl

/-- Its queues: the instruction has left its own, the others are as they were. -/
theorem Core.completed_queue (c : Core) (q : QueueId) (e : Entry) (stretch : Nat) (r : QueueId) :
    (c.completed q e stretch).queue r = if r = q then (c.queue q).filter (fun x => x.seq != e.seq) else c.queue r := by
  obtain ⟨v, m, hc⟩ := c.completed_eq q e stretch
  rw [hc, ← Core.queue_setQueue]
  cases r <;> rfl

/-- Its registers: the completion signal has added 1 to the semaphore it names, and nothing else has changed (R61). -/
theorem completed_registers (s : State) (n : Fin 32) (q : QueueId) (e : Entry) (stretch : Nat)
    (hroom : wSe e.word = true → (s.cores[n]).sem (wSsem e.word) + 1 ≤ 65535) :
    Registers (s.setCore n ((s.cores[n]).completed q e stretch)) n (s.cores[n]).s (s.cores[n]).p (s.cores[n]).d
      (fun k => if wSe e.word = true ∧ k = wSsem e.word then (s.cores[n]).sem k + 1 else (s.cores[n]).sem k) := by
  have hcode : wSsem e.word < 48 := Nat.lt_of_lt_of_le (Word.field_lt e.word 46 42) (by decide)
  have hsem (j : Nat) : ((countCycles (s.cores[n]) e 0 stretch).retire q e.seq).sem j = (s.cores[n]).sem j := by
    rw [countCycles_eq]
    exact Core.sem_setQueue _ _ _ j
  obtain ⟨v, m, hc⟩ := (s.cores[n]).completed_eq q e stretch
  refine registers_setCore ?_ ?_ ?_ (fun k => ?_)
  · rw [hc]
    exact Core.setQueue_sregs _ _ _
  · rw [hc]
    exact Core.setQueue_preds _ _ _
  · rw [hc]
    exact Core.setQueue_dregs _ _ _
  · rw [Core.completed, Core.signalled_sem _ _ hcode (by rwa [hsem]), hsem]

/-- With no drill waiting and no failing comparison, the oldest instruction whose work is done leaves its queue. -/
theorem exec_instructionComplete {stretch : Nat} (hq : q ∈ [QueueId.move, .vector, .row]) (hfree : (s.cores[n]).stopping = none)
    (hdone : ((s.cores[n]).queue q).find? (fun x => x.started && x.executed) = some e) (hdrill : ∀ k, NoDrill s k n.val) (hflags : e.flags = 0)
    (hroom : wSe e.word = true → (s.cores[n]).sem (wSsem e.word) + 1 ≤ 65535) (hcls : wCls e.word ≠ 2) :
    exec (.instructionComplete n q [] stretch) s = .next (s.setCore n ((s.cores[n]).completed q e stretch)) := by
  have hcomm : q ≠ .comm := fun h => by subst h; exact absurd hq (by decide)
  let u := s.setCore n (countCycles (s.cores[n]) e 0 stretch)
  have hu : u.cores[n] = countCycles (s.cores[n]) e 0 stretch := State.core_setCore s n _
  have hinject (k : Nat) (c : CheckOutcome) : s.inject k n.val c = (c, false, s) := State.inject_noDrill s k _ c (hdrill k)
  have hcheck (b : Bool) (k : Nat) : (if b then s.inject k n.val .ok else (CheckOutcome.ok, false, s)) = (CheckOutcome.ok, false, s) := by
    rw [hinject, ite_self]
  have hfinish : finishEntry u n q e = s.setCore n ((s.cores[n]).completed q e stretch) := by
    rw [finishEntry_clean (by rw [hu, countCycles_eq]; exact hfree) hflags hcls (by rw [hu, countCycles_eq]; exact hroom), hu, State.setCore_setCore]
    rfl
  show execInstructionComplete n q [] stretch s = _
  rw [← hfinish]
  unfold execInstructionComplete
  simp only [if_neg hcomm, hdone, ite_self, List.isEmpty_nil, if_true, hcheck]
  rfl

/-- Settles O14: `exec_instructionStart` and `exec_instructionComplete` give the core after each, the lemmas of `Core.begins` and `Core.completed` its parts. -/
theorem engineStartsAndCompletes : Obligations.EngineStartsAndCompletes := by
  refine ⟨?start, ?complete⟩
  case start =>
    intro s n q e hrun hfree hq hhead hcan hwait hstage hpoison _
    have hcore : (s.setCore n ((s.cores[n]).begins n q e s.now)).cores[n] = (s.cores[n]).begins n q e s.now := State.core_setCore s n _
    have hqueue := ((s.cores[n]).begins_queue n q e s.now q).trans (if_pos rfl)
    refine ⟨_, exec_instructionStart hrun hfree hq hhead hcan hwait hstage hpoison, ?_, ?_, fun r hr => ?_, ?_, fun _ => rfl,
      fun k hk => State.core_setCore_ne s n k _ hk, begins_registers s n q e s.now⟩
    · rw [hcore, hqueue]
      exact begun_mem_nextHead _ (List.mem_of_find?_eq_some hhead)
    · rw [hcore, hqueue, nextHead_length, replaceEntry_length]
    · rw [hcore, Core.begins_queue, if_neg hr]
    · obtain ⟨m, hm⟩ := (s.cores[n]).begins_eq n q e s.now
      rw [hcore, hm]
      exact Core.setQueue_pc _ _ _
  case complete =>
    intro s n q e stretch hq hfree hdone hdrill hflags hroom hcls
    have hcore : (s.setCore n ((s.cores[n]).completed q e stretch)).cores[n] = (s.cores[n]).completed q e stretch := State.core_setCore s n _
    obtain ⟨v, m, hc⟩ := (s.cores[n]).completed_eq q e stretch
    refine ⟨_, exec_instructionComplete hq hfree hdone hdrill hflags hroom hcls, ?_, fun r hr => ?_, ?_, fun _ => rfl,
      fun k hk => State.core_setCore_ne s n k _ hk, ?_, ?_, completed_registers s n q e stretch hroom⟩
    · rw [hcore, Core.completed_queue, if_pos rfl]
    · rw [hcore, Core.completed_queue, if_neg hr]
    · rw [hcore, hc]
      exact Core.setQueue_pc _ _ _
    · rw [hcore, hc]
    · rw [hcore, hc]

end Sys2Proof.Machine

end

section
/-! SUPPORT. Banks and drain records of a core (R145, R202, R203). -/

namespace Sys2Proof.Machine

/-- A bank that has been replaced. -/
theorem Core.bank_setBank_same (c : Core) (b : Bool) (x : Bank) : (c.setBank b x).bank b = x := by cases b <;> rfl

/-- The other bank is as it was. -/
theorem Core.bank_setBank_other (c : Core) (b : Bool) (x : Bank) : (c.setBank b x).bank (!b) = c.bank (!b) := by cases b <;> rfl

/-- Replacing a bank changes the two banks alone. -/
theorem Core.setBank_eq (c : Core) (b : Bool) (x : Bank) : ∃ y z, c.setBank b x = { c with bank0 := y, bank1 := z } := by
  cases b with
  | false => exact ⟨x, c.bank1, rfl⟩
  | true => exact ⟨c.bank0, x, rfl⟩

/-- The new record of a drain in flight is among the drains. -/
theorem Core.mem_putDrain {c : Core} {old new : DrainRec} (hmem : old ∈ c.drains) (hseq : old.entry.seq = new.entry.seq) : new ∈ (c.putDrain new).drains :=
  List.mem_map.mpr ⟨old, hmem, if_pos hseq⟩

/-- A context works on an entry of its queue. -/
theorem Core.contextWorking_mem {c : Core} {q : QueueId} {e : Entry} (h : c.contextWorking q = some e) : e ∈ c.queue q := by
  unfold Core.contextWorking at h
  split at h
  next x hfind =>
    split at h
    next => exact Option.some.inj h ▸ List.mem_of_find?_eq_some hfind
    next => exact absurd h (Option.some_ne_none e).symm
  next => exact absurd h (Option.some_ne_none e).symm

/-- The matrix engine works on an entry of the queue that it is said to be in. -/
theorem Core.matrixWorking_mem {c : Core} {op : Nat} {q : QueueId} {e : Entry} (h : c.matrixWorking op = some (q, e)) : e ∈ c.queue q := by
  have hpick {r : QueueId} {x : Entry} (hx : (c.contextWorking r).filter (fun e => wOp e.word == op) = some x) : x ∈ c.queue r :=
    Core.contextWorking_mem (Option.filter_eq_some_iff.mp hx).1
  unfold Core.matrixWorking at h
  dsimp only at h
  split at h
  next a b ha hb =>
    split at h
    next => cases h; exact hpick ha
    next => cases h; exact hpick hb
  next a ha _ => cases h; exact hpick ha
  next b _ hb => cases h; exact hpick hb
  next => cases h

end Sys2Proof.Machine

end

section
/-! PROOFS. A bank holds its product, is drained, is read empty, and its verdict is given (R45 to R47, R144 to R147, R202, R203). -/

namespace Sys2Proof.Machine

open Sys2Proof.Safety

variable {s : State} {n : Fin 32}

/-! ### The last product of a bank has arrived -/

theorem exec_issueAccumulated {bank : Bool} (hphase : ((s.cores[n]).bank bank).phase = .accum)
    (hdone : (s.cores[n]).matrixEntries.all (fun e => !(e.started && wOp e.word == 0 && issueBank e.word == bank)) = true) :
    exec (.issueAccumulated n bank []) s =
      .next (s.setCore n ((s.cores[n]).setBank bank { (s.cores[n]).bank bank with phase := .held })) := if_pos ⟨hphase, hdone⟩

/-- Replacing a bank of core n leaves its registers. -/
theorem setBank_registers (s : State) (n : Fin 32) (b : Bool) (x : Bank) : RegistersSame s (s.setCore n ((s.cores[n]).setBank b x)) n := by
  obtain ⟨y, z, hc⟩ := (s.cores[n]).setBank_eq b x
  rw [hc]
  exact registers_setCore rfl rfl rfl (fun _ => rfl)

/-! ### The drain writes -/

/-- With no rival that touches its bytes an instruction finds its operands defined (R76). -/
theorem raceBefore_noRace {q : QueueId} {e : Entry} (h : NoRace s n q e) : s.raceBefore n q e = s := by
  obtain ⟨hreads, -⟩ := h
  unfold State.raceBefore
  dsimp only
  split
  · rfl
  · exact State.freeOverlap_none _ _ _ hreads

/-- With no rival that touches its bytes an instruction leaves its results defined (R76). -/
theorem raceAfter_noRace {t : State} {q : QueueId} {e : Entry} (h : NoRace s n q e) (hcores : t.cores = s.cores) : t.raceAfter n q e = t := by
  obtain ⟨-, hwrites⟩ := h
  unfold State.raceAfter
  rw [State.rivals_congr s t n q hcores]
  dsimp only
  split
  · rfl
  · exact State.freeOverlap_none _ _ _ hwrites

/-- A drain changes memory and poison alone. -/
theorem drainEffect_eq (s : State) (b : Bank) (e : Entry) (w : memCanonical s) : ∃ m p, (drainEffect s b e).1 = { s with mem := m, poison := p } :=
  (s.putValues_spec e.d0.val (drainElement b e) w).2.1

/-- The started drain of a product that is not empty writes its outputs. -/
theorem exec_mmDrain {q : QueueId} {e : Entry} {d : DrainRec} (hworks : (s.cores[n]).matrixWorking 1 = some (q, e))
    (hdrain : (s.cores[n]).drainOf e.seq = some d) (hm : d.image.m ≠ 0) (hn : d.image.n ≠ 0) (hrace : NoRace s n q e) (w : memCanonical s) :
    exec (.mmDrain n) s = .next ((drainEffect s d.image e).1.markExecuted n q e (drainEffect s d.image e).2.toBits []) := by
  have hcores : (drainEffect s d.image e).1.cores = s.cores := by
    obtain ⟨m, p, ht⟩ := drainEffect_eq s d.image e w
    rw [ht]
  have hshape : ¬ (d.image.m = 0 ∨ d.image.n = 0) := not_or.mpr ⟨hm, hn⟩
  show execMmDrain n s = _
  simp only [execMmDrain, hworks, hdrain, hshape, if_false, raceBefore_noRace hrace, raceAfter_noRace hrace hcores]

/-! ### The bank has been read -/

/-- The core once the drain d has read its bank (R145, R146). -/
def Core.bankRead (c : Core) (d : DrainRec) : Core :=
  ({ c with drains := c.drains.map (fun (x : DrainRec) => if x.entry.seq = d.entry.seq then { x with read := true } else x) } : Core).setBank
    d.bank Bank.vacant

theorem exec_drainBankRead {d : DrainRec} (hfind : (s.cores[n]).drains.find? (fun d => !d.read) = some d) :
    exec (.drainBankRead n) s = .next (s.setCore n ((s.cores[n]).bankRead d)) := by
  show execDrainBankRead n s = _
  simp only [execDrainBankRead, hfind]
  rfl

/-- Its record says that it has read. -/
theorem Core.mem_bankRead {c : Core} {d : DrainRec} (hmem : d ∈ c.drains) : { d with read := true } ∈ (c.bankRead d).drains := by
  obtain ⟨y, z, hc⟩ := ({ c with drains := c.drains.map (fun (x : DrainRec) =>
    if x.entry.seq = d.entry.seq then { x with read := true } else x) } : Core).setBank_eq d.bank Bank.vacant
  rw [Core.bankRead, hc]
  exact List.mem_map.mpr ⟨d, hmem, if_pos rfl⟩

/-! ### The verdict -/

/-- The drain on which a verdict is due: the oldest that has read its bank and written its results, its verdict open (R202). -/
def Core.verdictDue (c : Core) (d : DrainRec) : Prop := c.drains.find? (fun d => d.phase == .open && d.read && c.drainDone d) = some d

/-- The core once a drain has ended with a clean verdict: the checked semaphore is signalled (R202). -/
def Core.drainEnded (c : Core) (d : DrainRec) : Core := (c.dropDrain d).signalled (d.entry.word.bit 26) (d.entry.word.field 25 21)

theorem Core.drainEnded_eq (c : Core) (d : DrainRec) : ∃ v, c.drainEnded d = { c.dropDrain d with sems := v } := (c.dropDrain d).signalled_eq _ _

theorem exec_drainVerdict_ends {d : DrainRec} (hdue : (s.cores[n]).verdictDue d) (hclean : d.image.verdict n.val d.bank = none)
    (hdrill : NoDrill s 0 n.val) (hfree : (s.cores[n]).stopping = none) (hleft : (s.cores[n]).drainLeft d = true)
    (hroom : d.entry.word.bit 26 = true → (s.cores[n]).sem (d.entry.word.field 25 21) + 1 ≤ 65535) :
    exec (.drainVerdict n) s = .next (s.setCore n ((s.cores[n]).drainEnded d)) := by
  have hchecked : s.checkedClean n d = s.setCore n ((s.cores[n]).drainEnded d) := signal_setCore _ hroom
  have hsettle : (s.setCore n ((s.cores[n]).drainEnded d)).settle n = s.setCore n ((s.cores[n]).drainEnded d) := by
    obtain ⟨v, hv⟩ := (s.cores[n]).drainEnded_eq d
    refine settle_going ?_
    rw [Fin.getElem_fin, State.core_setCore, hv]
    exact hfree
  unfold Core.verdictDue at hdue
  unfold NoDrill at hdrill
  show execDrainVerdict n s = _
  simp only [execDrainVerdict, hdue, hclean, hdrill, hleft, hchecked, hsettle, Bool.false_eq_true, false_and, if_false, if_true]

theorem exec_drainVerdict_waits {d : DrainRec} (hdue : (s.cores[n]).verdictDue d) (hclean : d.image.verdict n.val d.bank = none)
    (hdrill : NoDrill s 0 n.val) (hleft : (s.cores[n]).drainLeft d = false) :
    exec (.drainVerdict n) s = .next (s.setCore n ((s.cores[n]).putDrain { d with phase := .clean })) := by
  unfold Core.verdictDue at hdue
  unfold NoDrill at hdrill
  show execDrainVerdict n s = _
  simp only [execDrainVerdict, hdue, hclean, hdrill, hleft, Bool.false_eq_true, false_and, if_false]
  rfl

/-- The record of a drain whose comparison has failed and that waits for its retry (R202, R217). -/
def DrainRec.failedAt (d : DrainRec) (loc ft : Word) (now : Nat) : DrainRec := { d with phase := .retryWaiting, loc := loc, failFt := ft, failNow := now }

theorem exec_drainVerdict_fails {d : DrainRec} {loc : Word} (hdue : (s.cores[n]).verdictDue d) (hfails : d.image.verdict n.val d.bank = some loc) :
    exec (.drainVerdict n) s = .next ((s.setCore n ((s.cores[n]).putDrain (d.failedAt loc s.ft s.now))).pendAdd true) := by
  unfold Core.verdictDue at hdue
  show execDrainVerdict n s = _
  simp only [execDrainVerdict, hdue, hfails]
  rfl

/-- One more retry is pending (R218). -/
theorem fld_pendAdd (w : regsCanonical s) (hroom : s.fld Csr.chkStat 47 40 < 255) :
    (s.pendAdd true).fld Csr.chkStat 47 40 = s.fld Csr.chkStat 47 40 + 1 := by
  unfold State.pendAdd
  dsimp only
  rw [State.fld_setFld s _ _ _ _ w (by decide), if_pos rfl, Nat.min_eq_right (by omega), Nat.mod_eq_of_lt (by omega)]

/-- Settles O28: each command by the state it leaves, the drain's results by `putValues_spec` and `markExecuted_spec`. -/
theorem matrixDrain : Obligations.MatrixDrain := by
  intro s n
  have hcore (c : Core) : (s.setCore n c).cores[n] = c := State.core_setCore s n c
  refine ⟨fun bank hphase hdone => ?held, fun q e d hworks hdrain hm hn hrace w hapart => ?writes, fun d hfind => ?emptied,
    fun d hdue hclean hdrill hfree hleft hroom => ?ends, fun d hdue hclean hdrill hleft => exec_drainVerdict_waits hdue hclean hdrill hleft,
    fun d loc hdue hfails w hroom => ?fails⟩
  case held =>
    refine ⟨_, exec_issueAccumulated hphase hdone, ?_, ?_, setBank_registers s n bank _, outsideCore_setCore s n _⟩
    · rw [hcore, Core.bank_setBank_same]
    · rw [hcore, Core.bank_setBank_other]
  case writes =>
    obtain ⟨-, ⟨m, p, ht⟩, hkeeps, hstored, hflags⟩ := s.putValues_spec e.d0.val (drainElement d.image e) w
    refine ⟨_, exec_mmDrain hworks hdrain hm hn hrace w, TensorHolds.congr (hstored hapart) rfl, hflags ▸ ?_⟩
    exact markExecuted_spec s _ n q e _ [] _ (Core.matrixWorking_mem hworks) (by rw [drainEffect, ht]) hkeeps
  case emptied =>
    refine ⟨_, exec_drainBankRead hfind, ?_, ?_, ?_, outsideCore_setCore s n _⟩
    · rw [hcore, Core.bankRead, Core.bank_setBank_same]
    · rw [hcore, Core.bankRead, Core.bank_setBank_other]
      cases d.bank <;> rfl
    · rw [hcore]
      exact Core.mem_bankRead (List.mem_of_find?_eq_some hfind)
  case ends =>
    have hcode : d.entry.word.field 25 21 < 48 := Nat.lt_of_lt_of_le (Word.field_lt d.entry.word 25 21) (by decide)
    obtain ⟨v, hv⟩ := (s.cores[n]).drainEnded_eq d
    refine ⟨_, exec_drainVerdict_ends hdue hclean hdrill hfree hleft hroom, ?_, outsideCore_setCore s n _, ?_⟩
    · rw [hcore, hv]
      rfl
    · exact registers_setCore (by rw [hv]; rfl) (by rw [hv]; rfl) (by rw [hv]; rfl) (Core.signalled_sem _ _ hcode hroom)
  case fails =>
    refine ⟨_, exec_drainVerdict_fails hdue hfails, ?_, fld_pendAdd w hroom, fun _ => rfl⟩
    have hmem := Core.mem_putDrain (new := d.failedAt loc s.ft s.now) (List.mem_of_find?_eq_some hdue) rfl
    exact (congrArg Core.drains (hcore _)).symm ▸ hmem

end Sys2Proof.Machine

end

section
/-! PROOFS. The arrays of a core reach GATED, ACTIVE, WARM or RAMP as their duty and the keep-warm window say (R154, R155, R158). -/

namespace Sys2Proof.Machine

open Sys2Proof.Safety

variable {s : State} {n : Fin 32}

/-! ### The duty -/

/-- Entering RAMP the arrays have the duty that they had reached (R154). -/
theorem Core.dutyNow_arraysTo_ramp (c : Core) (now : Nat) : (c.arraysTo .ramp now).dutyNow now = c.dutyNow now := by
  show c.dutyNow now - (now - now) / 50 = c.dutyNow now
  rw [Nat.sub_self, Nat.zero_div, Nat.sub_zero]

/-- WARM arrays run at full duty (R154). -/
theorem Core.dutyNow_warm {c : Core} (h : c.arrays = .warm) (now : Nat) : c.dutyNow now = 100 := by
  unfold Core.dutyNow
  rw [h]

/-- Arrays at the end of RISE, ACTIVE or WARM, run at full duty (R154). -/
theorem Core.dutyNow_risen {c : Core} {busy : Bool} (h : c.arrays = if busy then .active else .warm) (now : Nat) : c.dutyNow now = 100 := by
  unfold Core.dutyNow
  cases busy with
  | false => rw [h, if_neg Bool.false_ne_true]
  | true => rw [h, if_pos rfl]

/-! ### RAMP ends at 0% -/

/-- The core with its arrays gated (R154). -/
def Core.gatedAt (c : Core) (now : Nat) : Core := { c with arrays := .gated, duty := 0, arraysSince := now }

theorem exec_arraysGate (hramp : (s.cores[n]).arrays = .ramp) (hduty : (s.cores[n]).dutyNow s.now = 0) :
    exec (.arraysGate n) s = .next (s.setCore n ((s.cores[n]).gatedAt s.now)) := if_pos ⟨hramp, hduty⟩

theorem exec_arraysGate_early (hduty : (s.cores[n]).dutyNow s.now ≠ 0) : exec (.arraysGate n) s = .next s := if_neg fun h => hduty h.2

/-! ### RISE ends at 100% -/

/-- The core with its arrays at full duty, held by an issue or not (R154). -/
def Core.risenAt (c : Core) (now : Nat) : Core :=
  { c with arrays := if c.arraysBusy then .active else .warm, duty := 100, arraysSince := now }

theorem exec_arraysRiseEnd (hrise : (s.cores[n]).arrays = .rise) (hduty : (s.cores[n]).dutyNow s.now = 100) :
    exec (.arraysRiseEnd n) s = .next (s.setCore n ((s.cores[n]).risenAt s.now)) := if_pos ⟨hrise, hduty⟩

theorem exec_arraysRiseEnd_early (hduty : (s.cores[n]).dutyNow s.now ≠ 100) : exec (.arraysRiseEnd n) s = .next s := if_neg fun h => hduty h.2

/-! ### The keep-warm window passes -/

/-- A window of at most 200 units is not cut short (R158). -/
theorem exec_keepWarmExpiry (hwarm : (s.cores[n]).arrays = .warm) (hkw : (s.cores[n]).mmcfg.field 7 0 ≤ 200)
    (hpast : (s.cores[n]).mmcfg.field 7 0 * 100 ≤ s.now - (s.cores[n]).arraysSince) :
    exec (.keepWarmExpiry n) s = .next (s.setCore n ((s.cores[n]).arraysTo .ramp s.now)) :=
  if_pos ⟨hwarm, (Nat.min_eq_left hkw).symm ▸ hpast⟩

/-- Settles O30: each command by the state it leaves, and the duty by the state that the arrays enter. -/
theorem arrayClock : Obligations.ArrayClock := by
  intro s n
  have hcore (c : Core) : (s.setCore n c).cores[n] = c := State.core_setCore s n c
  refine ⟨fun hramp hduty => ?gates, fun hrise hduty => ?risen, exec_arraysGate_early, exec_arraysRiseEnd_early,
    fun hwarm hkw hpast => ?expires⟩
  case gates =>
    refine ⟨_, exec_arraysGate hramp hduty, rfl, ?_⟩
    rw [hcore]
    rfl
  case risen =>
    refine ⟨_, exec_arraysRiseEnd hrise hduty, ?_, ?_, registers_setCore rfl rfl rfl fun _ => rfl, outsideCore_setCore s n _⟩
    · rw [hcore]
      rfl
    · rw [hcore]
      exact Core.dutyNow_risen rfl _
  case expires =>
    refine ⟨_, exec_keepWarmExpiry hwarm hkw hpast, ?_, ?_, registers_setCore rfl rfl rfl fun _ => rfl, outsideCore_setCore s n _⟩
    · rw [hcore]
      rfl
    · rw [hcore, State.setCore_now, Core.dutyNow_arraysTo_ramp, Core.dutyNow_warm hwarm]

end Sys2Proof.Machine

end

section
/-! SUPPORT. What the stores of one instruction leave: memory and poison change, the bytes outside those stored do not (R162, R173, R222). -/

namespace Sys2Proof.Machine

open Sys2Proof.Safety

/-! ### Ranges of bytes -/

@[simp] theorem inRanges_append (x y : List (Nat × Nat)) (a : Nat) : inRanges (x ++ y) a = (inRanges x a || inRanges y a) := List.any_append

theorem rangesOf_pair (d d' : Desc) : rangesOf [d, d'] = d.ranges ++ d'.ranges := by simp [rangesOf]

theorem noSharedByte_symm {x y : List (Nat × Nat)} (h : NoSharedByte x y) : NoSharedByte y x := fun a hy =>
  Bool.eq_false_iff.mpr fun hx => Bool.false_ne_true ((h a hx).symm.trans hy)

theorem noSharedByte_append_left {x y z : List (Nat × Nat)} : NoSharedByte (x ++ y) z ↔ NoSharedByte x z ∧ NoSharedByte y z := by
  simp only [NoSharedByte, inRanges_append, Bool.or_eq_true, or_imp, forall_and]

theorem noSharedByte_append_right {x y z : List (Nat × Nat)} : NoSharedByte x (y ++ z) ↔ NoSharedByte x y ∧ NoSharedByte x z := by
  simp only [NoSharedByte, inRanges_append, Bool.or_eq_false_iff, imp_and, forall_and]

/-! ### Stores -/

/-- Between s and t nothing but stores in the bytes dst has happened. -/
structure WritesOnly (s t : State) (dst : List (Nat × Nat)) : Prop where
  canonical : memCanonical t
  rest : t = { s with mem := t.mem, poison := t.poison }
  bytes : ∀ a, inRanges dst a = false → t.readByte a = s.readByte a

variable {s t u : State} {dst dst' : List (Nat × Nat)}

theorem WritesOnly.trans (h : WritesOnly s t dst) (k : WritesOnly t u dst') : WritesOnly s u (dst ++ dst') where
  canonical := k.canonical
  rest := by rw [k.rest, h.rest]
  bytes a ha := by
    rw [inRanges_append, Bool.or_eq_false_iff] at ha
    exact (k.bytes a ha.2).trans (h.bytes a ha.1)

/-- Ranges that hold the bytes stored can be named instead. -/
theorem WritesOnly.mono (h : WritesOnly s t dst) (hsub : ∀ a, inRanges dst' a = false → inRanges dst a = false) : WritesOnly s t dst' :=
  ⟨h.canonical, h.rest, fun a ha => h.bytes a (hsub a ha)⟩

theorem putTensor_writesOnly (w : memCanonical s) (d : Desc) (f : Nat → Nat → Nat) : WritesOnly s (s.putTensor d f) d.ranges := by
  obtain ⟨hcanonical, ⟨m, p, hrest⟩, hbytes, -⟩ := s.putTensor_spec d f w
  exact ⟨hcanonical, by rw [hrest], hbytes⟩

theorem putTensor_holds (w : memCanonical s) {d : Desc} (f : Nat → Nat → Nat) (hapart : ElementsApart d) : TensorHolds (s.putTensor d f) d f := by
  obtain ⟨-, -, -, hholds⟩ := s.putTensor_spec d f w
  exact hholds hapart

theorem putValues_writesOnly (w : memCanonical s) (d : Desc) (f : Nat → Nat → Nat × NumFlags) : WritesOnly s (s.putValues d f).1 d.ranges := by
  obtain ⟨hcanonical, ⟨m, p, hrest⟩, hbytes, -⟩ := s.putValues_spec d f w
  exact ⟨hcanonical, by rw [hrest], hbytes⟩

theorem putValues_stored (w : memCanonical s) {d : Desc} (f : Nat → Nat → Nat × NumFlags) (hapart : ElementsApart d) :
    ValuesStored (s.putValues d f).1 d f := by
  obtain ⟨-, -, -, hstored, -⟩ := s.putValues_spec d f w
  exact hstored hapart

theorem putRecords_writesOnly (w : memCanonical s) (n : Fin 32) (e : Entry) (f : Nat → Word) :
    WritesOnly s (s.putRecords n e f) (rowRecordBytes n e) := by
  obtain ⟨hcanonical, ⟨m, p, hrest⟩, hbytes, -⟩ := s.putRecords_spec n e f w
  exact ⟨hcanonical, by rw [hrest], hbytes⟩

theorem record_putRecords (w : memCanonical s) (n : Fin 32) (e : Entry) (f : Nat → Word) {r : Nat} (hr : r < Desc.rows e.d1.val) :
    (s.putRecords n e f).record n (rowRec e.word + r) = f r := by
  obtain ⟨-, -, -, hrecords⟩ := s.putRecords_spec n e f w
  exact hrecords r hr

/-- The values of an instruction's outputs stored in dD, each rounded once (R36, R42, R164). -/
def State.putRounded (s : State) (e : Entry) (f : Nat → Nat → Val) : State × NumFlags := s.putValues e.d0.val (fun i j => roundOut e i j (f i j))

theorem putRounded_writesOnly (w : memCanonical s) (e : Entry) (f : Nat → Nat → Val) : WritesOnly s (s.putRounded e f).1 (Desc.ranges e.d0.val) :=
  putValues_writesOnly w _ _

theorem putRounded_stored (w : memCanonical s) {e : Entry} (f : Nat → Nat → Val) (hapart : ElementsApart e.d0.val) :
    ValuesStored (s.putRounded e f).1 e.d0.val (fun i j => roundOut e i j (f i j)) := putValues_stored w _ hapart

/-! ### What stores elsewhere leave -/

/-- An element depends on its own bytes alone. -/
theorem elem_eq_of_bytes {d : Desc} {r c : Nat}
    (h : ∀ a, (d.elemBytes r c).1 ≤ a → a < (d.elemBytes r c).1 + (d.elemBytes r c).2 → t.readByte a = s.readByte a) : t.elem d r c = s.elem d r c := by
  have hbytes : t.readBytes (d.elemBytes r c).1 (d.elemBytes r c).2 = s.readBytes (d.elemBytes r c).1 (d.elemBytes r c).2 :=
    List.map_congr_left fun i hi => h _ (Nat.le_add_right _ _) (Nat.add_lt_add_left (List.mem_range.mp hi) _)
  simp only [State.elem, State.readNat, hbytes]

theorem inRanges_elemBytes {d : Desc} {r c a : Nat} (hr : r < d.rows) (hc : c < d.cols) (hlo : (d.elemBytes r c).1 ≤ a)
    (hhi : a < (d.elemBytes r c).1 + (d.elemBytes r c).2) : inRanges d.ranges a = true :=
  List.any_eq_true.mpr ⟨_, List.mem_map.mpr ⟨(r, c), (mem_positions _ _ r c).mpr ⟨hr, hc⟩, rfl⟩, by simp [hlo, hhi]⟩

/-- A tensor keeps what it holds while other bytes are stored. -/
theorem tensorHolds_keeps {d : Desc} {f : Nat → Nat → Nat} (h : TensorHolds s d f) (k : WritesOnly s t dst) (hapart : NoSharedByte dst d.ranges) :
    TensorHolds t d f := fun r c hr hc =>
  (elem_eq_of_bytes fun a hlo hhi => k.bytes a (noSharedByte_symm hapart a (inRanges_elemBytes hr hc hlo hhi))).trans (h r c hr hc)

/-- The records of a row instruction stay while other bytes are stored. -/
theorem WritesOnly.record_eq (k : WritesOnly s t dst) {n : Fin 32} {e : Entry} (hapart : NoSharedByte dst (rowRecordBytes n e)) {r : Nat}
    (hr : r < Desc.rows e.d1.val) : t.record n (rowRec e.word + r) = s.record n (rowRec e.word + r) := by
  refine State.record_congr s t n _ fun x hlo hhi => k.bytes x (noSharedByte_symm hapart x ?_)
  unfold recAddr at hlo hhi
  simp only [inRanges, rowRecordBytes, recAddr, List.any_cons, List.any_nil, Bool.or_false, Bool.and_eq_true, decide_eq_true_eq]
  omega

/-- Records are read from memory alone. -/
theorem record_of_mem (h : t.mem = s.mem) (n : Fin 32) (i : Nat) : t.record n i = s.record n i :=
  State.record_congr s t n i fun _ _ _ => by rw [State.readByte, State.readByte, h]

/-! ### An engine that stores -/

/-- A command that has an engine carry out an effect of stores in dst takes effect there alone. -/
theorem runEngine_stores {c : Instr} {n : Fin 32} {q : QueueId} {cls op : Nat}
    {effect : State → Entry → State × NumFlags} {e : Entry} {x : State × NumFlags} (hexec : exec c s = runEngine s n q cls op effect)
    (hworks : WorksOn s n q cls op e) (heffect : effect s e = x) (hwrites : WritesOnly s x.1 dst) :
    ∃ u, exec c s = .next u ∧ u.mem = x.1.mem ∧ TookEffect s u n q e x.2.toBits dst := by
  rw [hexec]
  exact runEngine_took s n q cls op effect e x dst hworks heffect (by rw [hwrites.rest]) hwrites.bytes

end Sys2Proof.Machine

end

section
/-! PROOFS. The vector engine: activations, derivatives and reductions (R161, R162, R164 to R171). -/

namespace Sys2Proof.Machine

open Sys2Proof.Safety

variable {s : State} {n : Fin 32} {c : Instr} {op : Nat}

/-! ### What the forms of vector instructions do -/

/-- An element-wise instruction stores its values in dD, in place or apart from its sources. -/
theorem vectorResult_of_elementwise {f : State → Entry → Nat → Nat → Val} (hexec : exec c s = runElementwise s n op f) : VectorResult s n c op f := by
  intro e hworks w hapart hsources
  obtain ⟨u, hrun, hmem, htook⟩ := runEngine_stores (x := s.putRounded e (f s e)) hexec hworks
    (Prod.ext (State.freeOverlap_none _ _ _ hsources) rfl) (putRounded_writesOnly w _ _)
  exact ⟨u, hrun, TensorHolds.congr (putRounded_stored w _ hapart) hmem, htook⟩

/-- A reduction stores the reduced value of each line in dD, apart from dA. -/
theorem reductionResult_of_reduction {first : Val → Val} {step comb : Val → Val → Val} (hexec : exec c s = runReduction s n op first step comb) :
    ReductionResult s n c op first step comb := by
  intro e hworks w hapart hsource line
  obtain ⟨u, hrun, hmem, htook⟩ := runEngine_stores (x := s.putRounded e line) hexec hworks
    (Prod.ext (State.freeOverlap_none _ _ _ hsource) rfl) (putRounded_writesOnly w _ _)
  exact ⟨u, hrun, TensorHolds.congr (putRounded_stored w _ hapart) hmem, htook⟩

/-- An activation stores its values in dD and, with SAVE = 1, its values or inputs in the saved tensor. -/
theorem activationResult_of_activation {savesInput : Bool} {f : Entry → Val → Val} (hexec : exec c s = runActivation s n op savesInput f) :
    ActivationResult s n c op savesInput f := by
  intro e hworks w hapart hsources save hsave saved
  let y (i j : Nat) : Val := f e (srcA s e i j)
  have hout := putRounded_writesOnly w e y
  have hstored := putRounded_stored w y hapart
  have hfree : (s.putRounded e y).1.overlapFree e.d0.val (sourceDescs e) = (s.putRounded e y).1 := State.freeOverlap_none _ _ _ hsources
  by_cases hs : save = true
  · obtain ⟨hapart', hshared⟩ := hsave hs
    obtain ⟨-, hother⟩ := noSharedByte_append_right.mp hshared
    have hsaved := putValues_writesOnly hout.canonical e.d3.val saved
    have hboth : (((s.putRounded e y).1.overlapFree e.d0.val (sourceDescs e)).putValues e.d3.val saved).1.freeOverlap (Desc.ranges e.d3.val)
        (rangesOf (sourceDescs e) ++ Desc.ranges e.d0.val) = ((s.putRounded e y).1.putValues e.d3.val saved).1 := by
      rw [hfree]
      exact State.freeOverlap_none _ _ _ hshared
    obtain ⟨u, hrun, hmem, htook⟩ := runEngine_stores
      (x := (_, (s.putRounded e y).2.or ((s.putRounded e y).1.putValues e.d3.val saved).2)) hexec hworks ((if_pos hs).trans (Prod.ext hboth rfl))
      (hout.trans hsaved)
    rw [if_pos hs, rangesOf_pair]
    exact ⟨u, _, hrun, TensorHolds.congr (tensorHolds_keeps hstored hsaved hother) hmem,
      fun _ => TensorHolds.congr (putValues_stored hout.canonical saved hapart') hmem, htook⟩
  · obtain ⟨u, hrun, hmem, htook⟩ := runEngine_stores (x := s.putRounded e y) hexec hworks ((if_neg hs).trans (Prod.ext hfree rfl)) hout
    rw [if_neg hs]
    exact ⟨u, _, hrun, TensorHolds.congr hstored hmem, fun h => absurd h hs, htook⟩

/-- Settles O21: every derivative is an element-wise instruction on dA and the saved tensor. -/
theorem vectorDerivatives : Obligations.VectorDerivatives := by
  intro s n times
  exact ⟨vectorResult_of_elementwise rfl, vectorResult_of_elementwise rfl, vectorResult_of_elementwise rfl, vectorResult_of_elementwise rfl,
    vectorResult_of_elementwise rfl, vectorResult_of_elementwise rfl, vectorResult_of_elementwise rfl, vectorResult_of_elementwise rfl,
    vectorResult_of_elementwise rfl⟩

/-- Settles O22: every reduction is one along RAX with its own first value, step and combination. -/
theorem vectorReductions : Obligations.VectorReductions := by
  intro s n add
  exact ⟨reductionResult_of_reduction rfl, reductionResult_of_reduction rfl, reductionResult_of_reduction rfl, reductionResult_of_reduction rfl⟩

/-- Settles O20: every activation is of the form that saves its value or its input. -/
theorem vectorActivations : Obligations.VectorActivations := by
  intro s n
  exact ⟨activationResult_of_activation rfl, activationResult_of_activation rfl, activationResult_of_activation rfl,
    activationResult_of_activation rfl, activationResult_of_activation rfl, activationResult_of_activation rfl,
    activationResult_of_activation rfl, activationResult_of_activation rfl, activationResult_of_activation rfl⟩

end Sys2Proof.Machine

end

section
/-! PROOFS. The row engine: records and outputs, row.osmx and row.merge (R162, R173, R176, R179 to R183, R186 to R188). -/

namespace Sys2Proof.Machine

open Sys2Proof.Safety

variable {s : State} {n : Fin 32} {c : Instr} {op : Nat} {e : Entry}

/-! ### Row instructions are carried out by the row engine -/

theorem exec_rowStat (s : State) (n : Fin 32) : exec (.rowStat n) s = execRowStat n s := rfl
theorem exec_rowSoftmax (s : State) (n : Fin 32) : exec (.rowSoftmax n) s = execRowSoftmax n s := rfl
theorem exec_rowOsmx (s : State) (n : Fin 32) : exec (.rowOsmx n) s = execRowOsmx n s := rfl
theorem exec_rowFinish (s : State) (n : Fin 32) : exec (.rowFinish n) s = execRowFinish n s := rfl
theorem exec_rowMerge (s : State) (n : Fin 32) : exec (.rowMerge n) s = execRowMerge n s := rfl
theorem exec_rowNorm (s : State) (n : Fin 32) : exec (.rowNorm n) s = execRowNorm n s := rfl
theorem exec_rowRms (s : State) (n : Fin 32) : exec (.rowRms n) s = execRowRms n s := rfl
theorem exec_rowDsoftmax (s : State) (n : Fin 32) : exec (.rowDsoftmax n) s = execRowDsoftmax n s := rfl
theorem exec_rowDnorm (s : State) (n : Fin 32) : exec (.rowDnorm n) s = execRowDnorm n s := rfl
theorem exec_rowDrms (s : State) (n : Fin 32) : exec (.rowDrms n) s = execRowDrms n s := rfl

/-! ### Records and tensors together -/

/-- The outputs of a row instruction are stored, and nothing becomes undefined, when dD shares no byte with operands that it may not overlap. -/
theorem putOutput_eq {inPlace : Bool} (f : Nat → Nat → Val) (hsources : NoSharedByte (Desc.ranges e.d0.val)
      (rangesOf (if inPlace && Desc.identical e.d0.val e.d1.val then (sourceDescs e).drop 1 else sourceDescs e))) :
    putOutput s e inPlace f = s.putRounded e f := Prod.ext (State.freeOverlap_none _ _ _ hsources) rfl

/-- Records, then a tensor in other bytes: both are there. -/
theorem putRecords_putTensor (w : memCanonical s) (record : Nat → Word) {d : Desc} (f : Nat → Nat → Nat) (hapart : ElementsApart d)
    (hrecords : NoSharedByte d.ranges (rowRecordBytes n e)) :
    let t := (s.putRecords n e record).putTensor d f
    WritesOnly s t (rowRecordBytes n e ++ d.ranges) ∧ (∀ r, r < Desc.rows e.d1.val → t.record n (rowRec e.word + r) = record r) ∧ TensorHolds t d f := by
  have hrec := putRecords_writesOnly w n e record
  have htensor := putTensor_writesOnly hrec.canonical d f
  exact ⟨hrec.trans htensor, fun r hr => (htensor.record_eq hrecords hr).trans (record_putRecords w n e record hr),
    putTensor_holds hrec.canonical f hapart⟩

/-- A second tensor in bytes of its own: all three are there. -/
theorem putRecords_putTensor_putTensor (w : memCanonical s) (record : Nat → Word) {d d' : Desc} (f g : Nat → Nat → Nat) (hapart : ElementsApart d)
    (hapart' : ElementsApart d') (hother : NoSharedByte d'.ranges d.ranges) (hrecords : NoSharedByte (rangesOf [d, d']) (rowRecordBytes n e)) :
    let t := ((s.putRecords n e record).putTensor d f).putTensor d' g
    WritesOnly s t (rangesOf [d, d'] ++ rowRecordBytes n e) ∧ (∀ r, r < Desc.rows e.d1.val → t.record n (rowRec e.word + r) = record r) ∧
      TensorHolds t d f ∧ TensorHolds t d' g := by
  rw [rangesOf_pair] at hrecords ⊢
  obtain ⟨hrecords, hrecords'⟩ := noSharedByte_append_left.mp hrecords
  obtain ⟨hwrites, hrecord, hholds⟩ := putRecords_putTensor w record f hapart hrecords
  have hlast := putTensor_writesOnly hwrites.canonical d' g
  refine ⟨(hwrites.trans hlast).mono fun a ha => ?_, fun r hr => (hlast.record_eq hrecords' hr).trans (hrecord r hr),
    tensorHolds_keeps hholds hlast hother, putTensor_holds hwrites.canonical g hapart'⟩
  simp only [inRanges_append, Bool.or_eq_false_iff] at ha ⊢
  obtain ⟨⟨hd, hd'⟩, hr⟩ := ha
  exact ⟨⟨hr, hd⟩, hd'⟩

/-! ### What the forms of row instructions do -/

/-- A row instruction whose effect is stores in dst takes effect there alone. -/
theorem runRow_stores {effect : State → Entry → State × NumFlags} {x : State × NumFlags} {dst : List (Nat × Nat)} (hexec : exec c s = runRow s n op effect)
    (hworks : WorksOn s n .row 4 op e) (heffect : effect s e = x) (hwrites : WritesOnly s x.1 dst) :
    ∃ u, exec c s = .next u ∧ u.mem = x.1.mem ∧ TookEffect s u n .row e x.2.toBits dst := runEngine_stores hexec hworks heffect hwrites

variable {effect : State → Entry → State × NumFlags} {record : Entry → Nat → Word} {out : Entry → Nat → Nat → Val} {inPlace : Bool}

/-- A row instruction that writes records alone. -/
theorem rowResult_of_records (hexec : exec c s = runRow s n op effect) (heffect : ∀ e, effect s e = (s.putRecords n e (record e), NumFlags.none)) :
    RowResult s n c op (some record) none inPlace := by
  intro e hworks w _ _ _
  obtain ⟨u, hrun, hmem, htook⟩ := runRow_stores hexec hworks (heffect e) (putRecords_writesOnly w n e _)
  refine ⟨u, NumFlags.none.toBits, hrun, ?_, nofun, (List.append_nil _).symm ▸ htook⟩
  rintro _ ⟨⟩ r hr
  exact (record_of_mem hmem n _).trans (record_putRecords w n e _ hr)

/-- A row instruction that writes outputs alone. -/
theorem rowResult_of_outputs (hexec : exec c s = runRow s n op effect) (heffect : ∀ e, effect s e = putOutput s e inPlace (out e)) :
    RowResult s n c op none (some out) inPlace := by
  intro e hworks w hapart hsources _
  obtain ⟨u, hrun, hmem, htook⟩ := runRow_stores hexec hworks ((heffect e).trans (putOutput_eq _ (hsources rfl))) (putRounded_writesOnly w e _)
  refine ⟨u, _, hrun, nofun, ?_, htook⟩
  rintro _ ⟨⟩
  exact TensorHolds.congr (putRounded_stored w _ (hapart rfl)) hmem

/-- A row instruction that writes records and outputs, both from the memory that it finds. -/
theorem rowResult_of_records_outputs (hexec : exec c s = runRow s n op effect)
    (heffect : ∀ e, effect s e = putOutput (s.putRecords n e (record e)) e inPlace (out e)) :
    RowResult s n c op (some record) (some out) inPlace := by
  intro e hworks w hapart hsources hrecords
  obtain ⟨hwrites, hrecord, hholds⟩ := putRecords_putTensor w (record e) (fun i j => (roundOut e i j (out e i j)).1) (hapart rfl) (hrecords rfl)
  obtain ⟨u, hrun, hmem, htook⟩ := runRow_stores hexec hworks ((heffect e).trans (putOutput_eq _ (hsources rfl))) hwrites
  refine ⟨u, _, hrun, ?_, ?_, htook⟩
  · rintro _ ⟨⟩ r hr
    exact (record_of_mem hmem n _).trans (hrecord r hr)
  · rintro _ ⟨⟩
    exact TensorHolds.congr hholds hmem

/-- Settles O23: every row instruction writes records, outputs, or records and outputs. -/
theorem rowResults : Obligations.RowResults := by
  intro s n
  refine ⟨rowResult_of_records (exec_rowStat s n) fun _ => rfl, rowResult_of_records_outputs (exec_rowSoftmax s n) fun _ => rfl,
    rowResult_of_outputs (exec_rowFinish s n) fun e => congrArg (putOutput s e true) (funext fun i => funext fun j => ?finish),
    rowResult_of_records_outputs (exec_rowNorm s n) fun _ => rfl, rowResult_of_records_outputs (exec_rowRms s n) fun _ => rfl,
    rowResult_of_outputs (exec_rowDsoftmax s n) fun e => congrArg (putOutput s e true) (funext fun i => funext fun j => ?dsoftmax),
    rowResult_of_outputs (exec_rowDnorm s n) fun _ => rfl, rowResult_of_outputs (exec_rowDrms s n) fun _ => rfl⟩
  case finish => cases hclass : recClass (s.record n (rowRec e.word + i)) <;> simp only [hclass]
  case dsoftmax => cases recClass (s.record n (rowRec e.word + i)) <;> rfl

/-! ### row.osmx and row.merge -/

/-- The state once row.osmx has written its records (R180). -/
def osmxRecorded (s : State) (n : Fin 32) (e : Entry) : State := s.putRecords n e (fun r => (newRecord s n e r).1)

/-- The exact output of row.osmx: the unnormalised probability of a position against the record that its row ends with (R180). -/
def osmxValue (s : State) (n : Fin 32) (e : Entry) (i j : Nat) : Val :=
  softmaxValue (newRecord s n e i).1 (counted s e e.d1.val i j) (score s e e.d1.val i j) false

/-- Stores of records and of two tensors, read back after the engine has taken them. -/
theorem rowMerging_stores {fl : NumFlags} (w : memCanonical s)
    (hexec : exec c s = runRow s n op effect) (hworks : WorksOn s n .row 4 op e) (hapart : ElementsApart e.d0.val) (hapart' : ElementsApart e.d2.val)
    (hother : NoSharedByte (Desc.ranges e.d2.val) (Desc.ranges e.d0.val))
    (hrecords : NoSharedByte (rangesOf [e.d0.val, e.d2.val]) (rowRecordBytes n e)) {record : Nat → Word} {f g : Nat → Nat → Nat}
    (heffect : effect s e = (((s.putRecords n e record).putTensor e.d0.val f).putTensor e.d2.val g, fl)) :
    ∃ u, exec c s = .next u ∧ (∀ r, r < Desc.rows e.d1.val → u.record n (rowRec e.word + r) = record r) ∧
      TensorHolds u e.d0.val f ∧ TensorHolds u e.d2.val g ∧
      TookEffect s u n .row e fl.toBits (rangesOf [e.d0.val, e.d2.val] ++ rowRecordBytes n e) := by
  obtain ⟨hwrites, hrecord, hholds, hholds'⟩ := putRecords_putTensor_putTensor w record f g hapart hapart' hother hrecords
  obtain ⟨u, hrun, hmem, htook⟩ := runRow_stores hexec hworks heffect hwrites
  exact ⟨u, hrun, fun r hr => (record_of_mem hmem n _).trans (hrecord r hr), TensorHolds.congr hholds hmem, TensorHolds.congr hholds' hmem, htook⟩

/-- Settles O24: row.osmx and row.merge with factors store records and two tensors, row.merge without factors records alone. -/
theorem rowMerging : Obligations.RowMerging := by
  intro s n e w
  refine ⟨fun hworks hapart hapart' hsources hsources' hrecords => ?osmx, fun hworks hform => ?plain,
    fun hworks hform hapart hapart' hsource hsource' hrecords => ?factors⟩
  case osmx =>
    obtain ⟨-, hother⟩ := noSharedByte_append_right.mp hsources'
    have hout : putOutput (osmxRecorded s n e) e false (osmxValue s n e) = _ := putOutput_eq _ hsources
    obtain ⟨u, hstored⟩ := rowMerging_stores w (exec_rowOsmx s n) hworks hapart hapart' hother hrecords
      (record := fun r => (newRecord s n e r).1) (f := fun i j => (roundOut e i j (osmxValue s n e i j)).1)
      (g := fun i _ => (bitsFp32 (newRecord s n e i).2).toNat)
      (fl := ((osmxRecorded s n e).putRounded e (osmxValue s n e)).2) (by
        show (((putOutput (osmxRecorded s n e) e false (osmxValue s n e)).1.putTensor e.d2.val _).freeOverlap _ _,
          (putOutput (osmxRecorded s n e) e false (osmxValue s n e)).2) = _
        rw [hout, State.freeOverlap_none _ _ _ hsources']
        rfl)
    exact ⟨u, _, hstored⟩
  case plain =>
    have hflags : NumFlags.none.toBits = 0 := by decide
    obtain ⟨u, hrun, hmem, htook⟩ := runRow_stores (x := (_, NumFlags.none)) (exec_rowMerge s n) hworks
      (if_neg (Bool.eq_false_iff.mp hform)) (putRecords_writesOnly w n e fun r => recCanon (mergeRow s n e r).1)
    exact ⟨u, hrun, fun r hr => (record_of_mem hmem n _).trans (record_putRecords w n e _ hr), hflags ▸ htook⟩
  case factors =>
    obtain ⟨-, hother⟩ := noSharedByte_append_right.mp hsource'
    exact rowMerging_stores w (exec_rowMerge s n) hworks hapart hapart' hother hrecords ((if_pos hform).trans (Prod.ext (by
      show (State.freeOverlap _ _ _).freeOverlap _ _ = _
      rw [State.freeOverlap_none _ _ _ hsource, State.freeOverlap_none _ _ _ hsource']) rfl))

end Sys2Proof.Machine

end

section
/-! SUPPORT. A frame of registers over updates elsewhere, events, folds and HULL_STAT; and the state that a request leaves whose effect has such a frame. -/

namespace Sys2Proof.Machine

open Sys2Proof.Safety

namespace OnlyRegs

variable {offs : List Nat} {s t : State}

/-- An update of parts of the state that the frame does not speak of. -/
theorem aside (hm : t.mem = s.mem) (hc : t.cores = s.cores) (hs : t.sessions = s.sessions) (hp : t.ports = s.ports) (hr : t.regs = s.regs) :
    OnlyRegs offs s t := ⟨hm, hc, hs, hp, RegsKept.of_regs_eq hr⟩

theorem raiseJob (k : Nat) (j : Word) (l : List Word) : OnlyRegs offs s (s.raiseJob k j l) :=
  ⟨State.raiseJob_mem .., State.raiseJob_cores .., State.raiseJob_sessions .., State.raiseJob_ports ..,
    fun w => ⟨raiseJob_wf s k j l w, fun o ho => raiseJob_reg s k j l w o ho.2⟩⟩

theorem raise (k : Nat) (l : List Word) : OnlyRegs offs s (s.raise k l) := raiseJob k 0 l

/-- A fold each step of which keeps it. -/
theorem foldl {α : Type} {f : State → α → State} {l : List α} (hf : ∀ u a, OnlyRegs offs u (f u a)) : OnlyRegs offs s (l.foldl f s) :=
  List.foldlRecOn l f refl (fun u hu a _ => hu.trans (hf u a))

/-- A register that is neither among those listed nor one that shows events. -/
theorem reg {o : Nat} (h : OnlyRegs offs s t) (w : regsCanonical s) (ho : o ∉ offs) (he : o ∉ evtRegs) : t.reg o = s.reg o := (h.regs w).2 o ⟨ho, he⟩

end OnlyRegs

theorem syncSweep_onlyRegs (s : State) (c : Fin 2) : OnlyRegs [] s (s.syncSweep c) := by
  unfold State.syncSweep
  refine .ite .refl ?_
  dsimp only
  split
  · refine OnlyRegs.trans ?_ (.raise _ _)
    exact .aside rfl rfl rfl rfl rfl
  · exact .aside rfl rfl rfl rfl rfl

/-- HULL_STAT follows the lanes; events and the sweeps' places aside, nothing else changes (R332, R341). -/
theorem syncHull_onlyRegs (s : State) : OnlyRegs [Csr.hullStat] s s.syncHull := by
  have hsweeps : OnlyRegs [Csr.hullStat] s ((s.syncSweep 0).syncSweep 1) :=
    ((syncSweep_onlyRegs s 0).trans (syncSweep_onlyRegs _ 1)).mono (List.forall_mem_nil _)
  unfold State.syncHull
  exact (hsweeps.trans (.setReg _ List.mem_cons_self)).trans (.foldl fun _ _ => .raise _ _)

variable {s u : State} {k : Fin 64} {x : Session} {id : BitVec 32} {rest : List (BitVec 32 × Nat)} {mt : Nat} {r : Response} {offs : List Nat}

theorem replied_sent : Sent u (u.replied k x id rest r) := fun _ h => List.mem_cons_of_mem _ h

/-- The request has been answered with r, and memory and the cores are as they were. -/
def Served (s t : State) (k : Fin 64) (x : Session) (id : BitVec 32) (rest : List (BitVec 32 × Nat)) (r : Response) : Prop :=
  Answered t k x id rest r ∧ SameMemory s t ∧ t.cores = s.cores

/-- A request in turn whose effect leaves u is served (R349, R350). -/
theorem serve_leaves {effect : State → State × Response} (hd : Due s k x mt id rest) (he : effect (s.taken k x id rest) = (u, r))
    (hu : OnlyRegs offs (s.taken k x id rest) u) :
    s.serve (.ningonus k) mt effect = u.replied k x id rest r ∧ Served s (u.replied k x id rest r) k x id rest r := by
  have hserve := serve_due (effect := effect) hd (by rw [he]; exact hu.sessions) (by rw [he]; exact hu.ports)
  rw [he] at hserve
  exact ⟨hserve, answered_replied, fun a => congrArg (fun m => sparseGet memDefault m a) hu.mem, hu.cores⟩

/-- A request that writes one register. -/
theorem writeOne_leaves {o st : Nat} {mask value : Word} (hd : Due s k x 0x3 id rest) (ho : o < 2 ^ 32)
    (he : (s.taken k x id rest).csrWriteNgs o mask value = (u, st)) (hu : OnlyRegs offs (s.taken k x id rest) u) :
    writeOne k o mask value s = .next (u.replied k x id rest (oneStatus st)) ∧
      Served s (u.replied k x id rest (oneStatus st)) k x id rest (oneStatus st) := by
  obtain ⟨hserve, hserved⟩ := serve_leaves (effect := fun s => s.writeBody (oneWrite o mask value)) hd (by rw [writeBody_oneWrite _ _ _ _ ho, he]) hu
  exact ⟨congrArg _ hserve, hserved⟩

end Sys2Proof.Machine

end

section
/-! SUPPORT. A write that a register accepts, and one that reaches write-only fields alone (R11, R469, R474). -/

namespace Sys2Proof.Machine

open Sys2Proof.Safety

/-- An assigned register outside the cores' blocks and the mailbox, of a unit that is present. -/
structure State.Writable (s : State) (o : Nat) : Prop where
  bound : o < 2 ^ 32
  align : o % 8 = 0
  assigned : csrAssigned o = true
  mailbox : isMailbox o = false
  outside : ¬ (0x20_0000 ≤ o ∧ o < 0x40_0000)
  present : s.csrAbsent o = false

/-- The state once a register has taken its new value, before what the write sets off. -/
def State.stored (s : State) (o : Nat) (new : Word) : State := if new = s.reg o then s else s.setReg o new

variable {s : State} {o : Nat} {mask value : Word}

theorem stored_onlyRegs (s : State) (o : Nat) (new : Word) : OnlyRegs [o] s (s.stored o new) := .ite .refl (.setReg _ List.mem_cons_self)

theorem reg_stored (w : regsCanonical s) (o : Nat) (new : Word) : (s.stored o new).reg o = new := by
  unfold State.stored
  split
  · next hsame => exact hsame.symm
  · rw [State.reg_setReg _ _ _ _ w, if_pos rfl]

theorem stored_same (s : State) (o : Nat) : s.stored o (s.reg o) = s := if_pos rfl

theorem writable_of_locked (s : State) (h : o ∈ lockedRegs) : s.Writable o := by
  obtain ⟨halign, hbound, hassigned, hmbx, hcore, -⟩ := lockedRegs_spec o h
  exact ⟨hbound, halign, hassigned, hmbx, hcore, csrAbsent_lockedRegs s h⟩

/-- A write with a value that the register does not reject. -/
theorem csrWrite_accepted (h : s.Writable o) (hrej : csrRejects o mask ((s.reg o &&& ~~~ mask) ||| (value &&& mask)) = false) :
    s.csrWrite o mask value =
      ((s.stored o (csrNew (csrAccess o) (s.reg o) mask value)).csrActs o ((csrAccess o).wo &&& mask &&& value) (s.reg o)
        (csrNew (csrAccess o) (s.reg o) mask value), csrStatus (csrAccess o) (s.reg o) mask value) := by
  obtain ⟨-, halign, hassigned, -, hcore, hpresent⟩ := h
  simp [State.csrWrite, halign, hassigned, hpresent, hrej, hcore, State.csrStore, State.stored, csrNew, csrStatus]

theorem csrWriteNgs_accepted (h : s.Writable o) (hrej : csrRejects o mask ((s.reg o &&& ~~~ mask) ||| (value &&& mask)) = false) :
    s.csrWriteNgs o mask value =
      ((s.stored o (csrNew (csrAccess o) (s.reg o) mask value)).csrActs o ((csrAccess o).wo &&& mask &&& value) (s.reg o)
        (csrNew (csrAccess o) (s.reg o) mask value), csrStatus (csrAccess o) (s.reg o) mask value) := by
  rw [← csrWrite_accepted h hrej]
  simp [State.csrWriteNgs, h.mailbox]

/-- MASK reaches write-only fields alone, none of them with a range. -/
structure WriteOnly (o : Nat) (mask : Word) : Prop where
  apart : mask &&& ((csrAccess o).rw ||| (csrAccess o).rwl ||| (csrAccess o).w1c) = 0#64
  inside : mask &&& ~~~ (csrAccess o).wo = 0#64
  unlocks : mask.bit 63 = false
  accepted : ∀ new, csrRejects o mask new = false

/-- A register keeps its value under a MASK that reaches none of its writable fields. -/
theorem csrNew_apart {a : Access} {old : Word} (h : mask &&& (a.rw ||| a.rwl ||| a.w1c) = 0#64) : csrNew a old mask value = old := by
  apply BitVec.eq_of_getLsbD_eq
  intro b hb
  have hbit : (mask.getLsbD b && (a.rw.getLsbD b || a.rwl.getLsbD b || a.w1c.getLsbD b)) = false := by
    simpa only [BitVec.getLsbD_and, BitVec.getLsbD_or, BitVec.getLsbD_zero] using congrArg (BitVec.getLsbD · b) h
  simp only [csrNew, apply_ite (BitVec.getLsbD · b), BitVec.getLsbD_and, BitVec.getLsbD_or, BitVec.getLsbD_not, hb, decide_true, Bool.true_and]
  cases hm : mask.getLsbD b
  · cases old.getLsbD b <;> simp
    grind
  · simp only [hm, Bool.true_and, Bool.or_eq_false_iff] at hbit
    obtain ⟨⟨hrw, hrwl⟩, hw1c⟩ := hbit
    cases old.getLsbD b <;> simp [hrw, hrwl, hw1c]

theorem csrStatus_writeOnly {old : Word} (h : WriteOnly o mask) : csrStatus (csrAccess o) old mask value = 0 := by
  have hrwl : mask &&& (csrAccess o).rwl = 0#64 := by
    have hsub : (csrAccess o).rwl = ((csrAccess o).rw ||| (csrAccess o).rwl ||| (csrAccess o).w1c) &&& (csrAccess o).rwl :=
      BitVec.eq_of_getLsbD_eq fun b _ => by simp only [BitVec.getLsbD_and, BitVec.getLsbD_or]; cases (csrAccess o).rwl.getLsbD b <;> simp
    rw [hsub, ← BitVec.and_assoc, h.apart, BitVec.zero_and]
  have hall : mask &&& ~~~ ((csrAccess o).rw ||| (csrAccess o).rwl ||| (csrAccess o).w1c ||| (csrAccess o).wo) = 0#64 := by
    rw [BitVec.not_or, BitVec.and_comm (~~~ _), ← BitVec.and_assoc, h.inside, BitVec.zero_and]
  simp [csrStatus, hrwl, hall, h.unlocks, stOk]

/-- Such a write changes no register of itself: it sets off what the fields are for. -/
theorem csrWriteNgs_writeOnly (h : s.Writable o) (hm : WriteOnly o mask) :
    s.csrWriteNgs o mask value = (s.csrActs o ((csrAccess o).wo &&& mask &&& value) (s.reg o) (s.reg o), 0) := by
  rw [csrWriteNgs_accepted h (hm.accepted _), csrNew_apart hm.apart, stored_same, csrStatus_writeOnly hm]

end Sys2Proof.Machine

end

section
/-! SUPPORT. What the write-only fields of lanes, of the Hull, of HLT_CTL and of channels set off (R233, R323, R326, R447). -/

namespace Sys2Proof.Machine

open Sys2Proof.Safety

variable {s : State} {i : Nat} {act old new : Word}

/-- A register whose writable fields are those of MASK, all write-only, and which has no LOCK. -/
theorem writeOnly_of_access {o : Nat} {mask : Word} (haccess : csrAccess o = { rw := 0, rwl := 0, w1c := 0, wo := mask }) (hunlocks : mask.bit 63 = false)
    (hne : ∀ q ∈ lockedRegs, o ≠ q) : WriteOnly o mask := by
  simp only [lockedRegs, List.forall_mem_cons] at hne
  obtain ⟨hpow, -, hthm, -, hmem, -, heth, -⟩ := hne
  refine ⟨?_, ?_, hunlocks, fun new => ?_⟩
  · rw [haccess]
    simp
  · rw [haccess]
    exact BitVec.and_not_self mask
  · simp [csrRejects, hpow, hthm, heth, hmem]

/-- A register without LOCK sets off something only as a lane's or as that of a stack's channels. -/
theorem csrActs_of_no_lock {o : Nat} (hne : ∀ q ∈ lockedRegs, o ≠ q) : s.csrActs o act old new =
    if inTable o (Csr.optLane 0) 8 128 then if act.bit 56 then s.laneRetry ((o - Csr.optLane 0) / 8) else s
    else if 0x50_8000 ≤ o ∧ o < 0x51_0000 ∧ (o - 0x50_8000) % 0x1000 = 0x10 then s.retest ((o - 0x50_8000) / 0x1000) act
    else s := by
  simp only [lockedRegs, plainRegs, List.forall_mem_cons] at hne
  obtain ⟨hpow, hpool, -, hhlt, hmem, hhull, -, hft, -⟩ := hne
  simp only [State.csrActs, hpow, hpool, hhlt, hmem, hhull, hft, if_false]

/-! ### A lane's RETRY -/

theorem optLane_facts : ∀ i : Fin 128, Csr.optLane i.val < 2 ^ 32 ∧ Csr.optLane i.val % 8 = 0 ∧ csrAssigned (Csr.optLane i.val) = true ∧
    isMailbox (Csr.optLane i.val) = false ∧ csrAccess (Csr.optLane i.val) = { rw := 0, rwl := 0, w1c := 0, wo := Word.mask 56 56 } ∧
    inTable (Csr.optLane i.val) (Csr.optLane 0) 8 128 = true := by
  decide

/-- The tables of units that may be absent and that stand in front of the lanes' do not hold a lane's register. -/
theorem optLane_apart : ∀ i : Fin 128, ∀ t ∈ [(Csr.powCore 0, 32), (Csr.chkCoreCnt 0, 32), (Csr.spdEcc 0, 32), (Csr.spdUeAddr 0, 32),
    (Csr.fabMsgErr 0, 32), (Csr.cartInfo 0, 4), (Csr.lasStat 0, 24), (Csr.lasBias 0, 24)], inTable (Csr.optLane i.val) t.1 8 t.2 = false := by
  decide

/-- The registers of R474 that are no table are no lane's. -/
theorem optLane_ne : ∀ i : Fin 128, ∀ o ∈ lockedRegs, Csr.optLane i.val ≠ o := by
  decide

theorem optLane_index (i : Nat) : (Csr.optLane i - Csr.optLane 0) / 8 = i := by
  simp only [Csr.optLane]
  omega

theorem optLane_above (i : Nat) : 0x70_0000 < Csr.optLane i := by
  simp only [Csr.optLane]
  omega

theorem optLane_writable (i : Fin 128) (hi : s.laneState i.val ≠ laneAbsent) : s.Writable (Csr.optLane i.val) := by
  obtain ⟨hbound, halign, hassigned, hmbx, -, htable⟩ := optLane_facts i
  have habove := optLane_above i.val
  have hapart := optLane_apart i
  simp only [List.forall_mem_cons, List.not_mem_nil, false_implies, implies_true, and_true] at hapart
  have hcore : ¬ (0x20_0000 ≤ Csr.optLane i.val ∧ Csr.optLane i.val < 0x40_0000) := by omega
  have hstack : ¬ (0x50_8000 ≤ Csr.optLane i.val ∧ Csr.optLane i.val < 0x51_0000) := by omega
  refine ⟨hbound, halign, hassigned, hmbx, hcore, ?_⟩
  simp [State.csrAbsent, hcore, hstack, hapart, htable, optLane_index, hi]

theorem optLane_writeOnly (i : Fin 128) : WriteOnly (Csr.optLane i.val) (Word.mask 56 56) := by
  obtain ⟨-, -, -, -, haccess, -⟩ := optLane_facts i
  exact writeOnly_of_access haccess (by decide) (optLane_ne i)

theorem csrActs_optLane (i : Fin 128) : s.csrActs (Csr.optLane i.val) act old new = if act.bit 56 then s.laneRetry i.val else s := by
  obtain ⟨-, -, -, -, -, htable⟩ := optLane_facts i
  rw [csrActs_of_no_lock (optLane_ne i), htable, if_pos rfl, optLane_index]

/-- A DARK lane whose wavelength is fed restarts at RESTORE, its attempt count at 0 (R326). -/
theorem laneRetry_restarts (w : regsCanonical s) (hdark : s.laneState i = laneDark) (hfed : s.waveDark (laneCart i) (i % 8) = false) :
    OnlyRegs [Csr.optLane i, Csr.fabPath i, Csr.hullStat] s (s.laneRetry i) ∧ (s.laneRetry i).laneState i = laneRestore ∧
      (s.laneRetry i).fld (Csr.optLane i) 59 58 = 0 := by
  let v := (s.lockFrom i laneRestore).setFld (Csr.optLane i) 59 58 0
  have hlock : OnlyRegs [Csr.optLane i] s (s.lockFrom i laneRestore) :=
    (OnlyRegs.setFld (s := s) 63 60 laneRestore List.mem_cons_self).trans (.aside rfl rfl rfl rfl rfl)
  have hv : OnlyRegs [Csr.optLane i] s v := hlock.trans (.setFld _ _ _ List.mem_cons_self)
  have hretry : s.laneRetry i = (if v.pathState i = pathDark then v.setFld (Csr.fabPath i) 63 60 pathDownSt else v).syncHull :=
    if_pos ⟨hdark, by rw [hfed]; rfl⟩
  have hrest : OnlyRegs [Csr.fabPath i, Csr.hullStat] v (s.laneRetry i) := by
    rw [hretry]
    exact .trans (.ite (.setFld _ _ _ List.mem_cons_self) .refl) ((syncHull_onlyRegs _).mono (by simp))
  have hread : (s.laneRetry i).reg (Csr.optLane i) = v.reg (Csr.optLane i) := by
    refine hrest.reg (hv.regs w).1 ?_ (not_evtReg (by have := optLane_above i; omega))
    simp only [List.mem_cons, List.not_mem_nil, or_false, Csr.optLane, Csr.fabPath, Csr.hullStat]
    omega
  refine ⟨(hv.mono (by simp)).trans (hrest.mono (by simp)), ?_, ?_⟩
  · unfold State.laneState State.fld
    rw [hread]
    refine (State.fld_setFld_ne _ _ _ _ _ _ _ _ (hlock.regs w).1 (by decide) (.inr (.inr (by decide)))).trans ?_
    exact State.fld_setFld s (Csr.optLane i) 63 60 laneRestore w (by decide)
  · unfold State.fld
    rw [hread]
    exact State.fld_setFld _ _ _ _ _ (hlock.regs w).1 (by decide)

/-! ### HULL_CTL.COLD and HLT_CTL.RELEASE -/

theorem hullCtl_writeOnly : WriteOnly Csr.hullCtl (Word.mask 16 16) := ⟨by decide, by decide, by decide, fun _ => rfl⟩

theorem hltCtl_writeOnly : WriteOnly Csr.hltCtl (Word.mask 16 16) := ⟨by decide, by decide, by decide, fun _ => rfl⟩

/-- Ending retentions raises events alone besides. -/
theorem endRetentions_onlyRegs (l : List Retained) (s : State) : OnlyRegs [] s (l.foldl (fun (t : State) r => t.endRetention r) s) :=
  .foldl fun u r => by
    refine OnlyRegs.trans ?_ (.raiseJob _ _ _)
    exact .aside rfl rfl rfl rfl rfl

theorem endRetention_sent (s : State) (r : Retained) : Sent s (s.endRetention r) := fun _ h => raiseJob_sent _ _ _ _ _ h

theorem endRetention_retained (s : State) (r : Retained) :
    (s.endRetention r).retained = s.retained.filter (fun x => !(x.job == r.job && x.base == r.base)) :=
  State.raiseJob_retained _ _ _ _

/-- Of the retentions those are left that agree with none of the list. -/
theorem endRetentions_retained (l : List Retained) : ∀ (s : State) (r : Retained),
    r ∈ (l.foldl (fun (t : State) r => t.endRetention r) s).retained → r ∈ s.retained ∧ r ∉ l := by
  induction l with
  | nil => exact fun s r h => ⟨h, List.not_mem_nil⟩
  | cons a l ih =>
    intro s r h
    obtain ⟨hmem, hout⟩ := ih _ r h
    rw [endRetention_retained, List.mem_filter] at hmem
    obtain ⟨hs, hne⟩ := hmem
    refine ⟨hs, ?_⟩
    rw [List.mem_cons, not_or]
    refine ⟨fun he => ?_, hout⟩
    subst he
    simp at hne

/-- Event 0x9F has been raised for each retention ended. -/
theorem endRetentions_raised (l : List Retained) : ∀ (s : State), Sent s (l.foldl (fun (t : State) r => t.endRetention r) s) ∧
    ∀ r ∈ l, Raised (l.foldl (fun (t : State) r => t.endRetention r) s) 0x9F r.job := by
  induction l with
  | nil => exact fun s => ⟨Sent.refl s, by simp⟩
  | cons a l ih =>
    intro s
    obtain ⟨hsent, hraised⟩ := ih (s.endRetention a)
    refine ⟨(endRetention_sent s a).trans hsent, List.forall_mem_cons.mpr ⟨?_, hraised⟩⟩
    exact Raised.sent (raised_raiseJob _ _ _ _) hsent

/-! ### RETEST bits of a stack's channels -/

theorem hbmChanClr_facts : ∀ st : Fin 8, Csr.hbmChanClr st.val < 2 ^ 32 ∧ Csr.hbmChanClr st.val % 8 = 0 ∧ csrAssigned (Csr.hbmChanClr st.val) = true ∧
    isMailbox (Csr.hbmChanClr st.val) = false ∧ csrAccess (Csr.hbmChanClr st.val) = { rw := 0, rwl := 0, w1c := 0, wo := Word.mask 31 0 } ∧
    (∀ t ∈ [(Csr.powCore 0, 32), (Csr.chkCoreCnt 0, 32), (Csr.spdEcc 0, 32), (Csr.spdUeAddr 0, 32), (Csr.fabMsgErr 0, 32), (Csr.optLane 0, 128)],
      inTable (Csr.hbmChanClr st.val) t.1 8 t.2 = false) ∧ (∀ o ∈ lockedRegs, Csr.hbmChanClr st.val ≠ o) := by
  decide

theorem hbmChanClr_place (st : Fin 8) : 0x50_8000 ≤ Csr.hbmChanClr st.val ∧ Csr.hbmChanClr st.val < 0x51_0000 ∧
    (Csr.hbmChanClr st.val - 0x50_8000) % 0x1000 = 0x10 ∧ (Csr.hbmChanClr st.val - 0x50_8000) / 0x1000 = st.val := by
  revert st
  decide

theorem hbmChanClr_writable (st : Fin 8) (h : s.stackPresent st.val = true) : s.Writable (Csr.hbmChanClr st.val) := by
  obtain ⟨hbound, halign, hassigned, hmbx, -, hapart, -⟩ := hbmChanClr_facts st
  obtain ⟨hlo, hhi, -, hindex⟩ := hbmChanClr_place st
  simp only [List.forall_mem_cons, List.not_mem_nil, false_implies, implies_true, and_true] at hapart
  have hcore : ¬ (0x20_0000 ≤ Csr.hbmChanClr st.val ∧ Csr.hbmChanClr st.val < 0x40_0000) := by omega
  refine ⟨hbound, halign, hassigned, hmbx, hcore, ?_⟩
  simp [State.csrAbsent, hcore, hapart, hlo, hhi, hindex, h]

theorem hbmChanClr_writeOnly (st : Fin 8) : WriteOnly (Csr.hbmChanClr st.val) (Word.mask 31 0) := by
  obtain ⟨-, -, -, -, haccess, -, hne⟩ := hbmChanClr_facts st
  exact writeOnly_of_access haccess (by decide) hne

theorem csrActs_hbmChanClr (st : Fin 8) : s.csrActs (Csr.hbmChanClr st.val) act old new = s.retest st.val act := by
  obtain ⟨-, -, -, -, -, hapart, hne⟩ := hbmChanClr_facts st
  obtain ⟨hlo, hhi, hoff, hindex⟩ := hbmChanClr_place st
  have hlane : inTable (Csr.hbmChanClr st.val) (Csr.optLane 0) 8 128 = false := hapart (Csr.optLane 0, 128) (by decide)
  rw [csrActs_of_no_lock hne, hlane, if_neg Bool.false_ne_true, if_pos ⟨hlo, hhi, hoff⟩, hindex]

theorem retest_onlyRegs (s : State) (k : Nat) (bits : Word) : OnlyRegs [Csr.hbmChanMap k] s (s.retest k bits) :=
  (OnlyRegs.setReg _ List.mem_cons_self).trans (.aside rfl rfl rfl rfl rfl)

/-- A mark asked for is cancelled where the channel is not mapped out (R233). -/
theorem retest_marks (w : regsCanonical s) (k : Nat) (bits : Word) {c : Nat} (hc : c < 32) :
    ((s.retest k bits).reg (Csr.hbmChanMap k)).bit (32 + c) =
      ((s.reg (Csr.hbmChanMap k)).bit (32 + c) && !(bits.bit c && !(s.reg (Csr.hbmChanMap k)).bit c)) := by
  have hreg : (s.retest k bits).reg (Csr.hbmChanMap k) = _ := (State.reg_setReg s _ _ _ w).trans (if_pos rfl)
  have hbool (mark bit mapped : Bool) : (mark && !(bit && mark && !mapped)) = (mark && !(bit && !mapped)) := by
    cases mark <;> cases bit <;> rfl
  rw [hreg]
  simp only [Word.bit, BitVec.getLsbD_and, BitVec.getLsbD_not, BitVec.getLsbD_shiftLeft, BitVec.getLsbD_ushiftRight, Word.getLsbD_mask,
    show 32 + c < 64 by omega, show ¬ 32 + c < 32 by omega, show 32 + c - 32 = c by omega, show c < 64 by omega, show c - 0 < 31 + 1 - 0 by omega,
    Nat.zero_le, decide_true, decide_false, Bool.not_false, Bool.true_and, Bool.and_true]
  exact hbool _ _ _

/-- A channel that is mapped out stays so. -/
theorem retest_mapped (w : regsCanonical s) (k : Nat) (bits : Word) {c : Nat} (hc : c < 32) :
    ((s.retest k bits).reg (Csr.hbmChanMap k)).bit c = (s.reg (Csr.hbmChanMap k)).bit c := by
  have hreg : (s.retest k bits).reg (Csr.hbmChanMap k) = _ := (State.reg_setReg s _ _ _ w).trans (if_pos rfl)
  rw [hreg]
  simp only [Word.bit, BitVec.getLsbD_and, BitVec.getLsbD_not, BitVec.getLsbD_shiftLeft]
  simp [hc, show c < 64 by omega]

/-- A retest asked for is kept in flash where the channel is mapped out (R233). -/
theorem retest_kept (s : State) (st : Fin 8) (bits : Word) {c : Nat} (hc : c < 32) :
    ((s.retest st.val bits).flash.retest[st]).getLsbD c =
      ((s.flash.retest[st]).getLsbD c || (bits.bit c && (s.reg (Csr.hbmChanMap st.val)).bit c)) := by
  simp only [State.retest, State.setReg_flash, Fin.getElem_fin, Vector.getElem_setIfInBounds_self, BitVec.getLsbD_or, BitVec.truncate_eq_setWidth,
    BitVec.getLsbD_setWidth, BitVec.getLsbD_and, Word.getLsbD_mask, Word.bit]
  simp [hc, show c < 64 by omega]

end Sys2Proof.Machine

end

section
/-! SUPPORT. POW_CTL: the fields that a write gives it and what it sets off (R389, R392). -/

namespace Sys2Proof.Machine

open Sys2Proof.Safety

variable {s : State} {o : Nat} {act old new mask value : Word}

/-- Words that agree on the bits of a field agree in the field. -/
theorem field_congr {a b : Word} {hi lo : Nat} (h : ∀ n, lo ≤ n → n ≤ hi → a.bit n = b.bit n) : a.field hi lo = b.field hi lo := by
  apply Nat.eq_of_testBit_eq
  intro i
  rw [Word.testBit_field, Word.testBit_field]
  by_cases hi' : i < hi + 1 - lo
  · rw [show a.getLsbD (lo + i) = b.getLsbD (lo + i) from h _ (by omega) (by omega)]
  · simp [hi']

/-- A writable field of an unlocked register that MASK covers takes VALUE's (R11). -/
theorem csrNew_field (h : o ∈ lockedRegs) (hl : old.bit 63 = false) {hi lo : Nat} (hhi : hi < 64)
    (hmask : ∀ b, b < 64 → lo ≤ b → b ≤ hi → (mask.bit b && ((csrAccess o).rw ||| (csrAccess o).rwl).bit b) = true) :
    (csrNew (csrAccess o) old mask value).field hi lo = value.field hi lo :=
  field_congr fun n hlo hn => by rw [csrNew_unlocked_bit h hl (by omega), if_pos (hmask n (by omega) hlo hn)]

/-- A field that MASK does not reach is kept (R11). -/
theorem csrNew_field_apart (h : o ∈ lockedRegs) (hl : old.bit 63 = false) {hi lo : Nat} (hhi : hi < 64)
    (hmask : ∀ b, b < 64 → lo ≤ b → b ≤ hi → mask.bit b = false) : (csrNew (csrAccess o) old mask value).field hi lo = old.field hi lo :=
  field_congr fun n hlo hn => by
    rw [csrNew_unlocked_bit h hl (by omega), hmask n (by omega) hlo hn, Bool.false_and, if_neg Bool.false_ne_true]

/-- What a write puts in a field that MASK covers, before it is accepted, is VALUE's. -/
theorem field_put (old mask value : Word) {hi lo : Nat} (hhi : hi < 64) (hmask : ∀ b, b < 64 → lo ≤ b → b ≤ hi → mask.bit b = true) :
    ((old &&& ~~~ mask) ||| (value &&& mask)).field hi lo = value.field hi lo :=
  field_congr fun n hlo hn => by
    have hm : mask.getLsbD n = true := hmask n (by omega) hlo hn
    simp [Word.bit, hm]

theorem csrActs_powCtl : s.csrActs Csr.powCtl act old new =
    (let t := if s.power.budget.isNone then s.setFld Csr.powStat 35 24 (new.field 15 0) else s
     if old.field 15 0 ≠ new.field 15 0 then t.raise 0x50 [BitVec.ofNat 64 (new.field 15 0)] else t) := rfl

/-- POW_STAT shows the cap; a changed one raises event 0x50 (R389). -/
theorem csrActs_powCtl_onlyRegs : OnlyRegs [Csr.powStat] s (s.csrActs Csr.powCtl act old new) := by
  rw [csrActs_powCtl]
  have hshown : OnlyRegs [Csr.powStat] s (if s.power.budget.isNone then s.setFld Csr.powStat 35 24 (new.field 15 0) else s) :=
    .ite (.setFld _ _ _ List.mem_cons_self) .refl
  exact .ite (hshown.trans (.raise _ _)) hshown

theorem csrActs_powCtl_raised (h : old.field 15 0 ≠ new.field 15 0) : Raised (s.csrActs Csr.powCtl act old new) 0x50 0 := by
  rw [csrActs_powCtl]
  dsimp only
  rw [if_pos h]
  exact raised_raise _ _ _

/-- A register with LOCK that a write gives a new value, and what the write sets off elsewhere. -/
theorem stored_acts (w : regsCanonical s) (ho : o ∈ lockedRegs) {offs : List Nat} (hoff : o ∉ offs)
    (hacts : OnlyRegs offs (s.stored o new) ((s.stored o new).csrActs o act old new)) :
    OnlyRegs (o :: offs) s ((s.stored o new).csrActs o act old new) ∧ ((s.stored o new).csrActs o act old new).reg o = new := by
  have hstored := stored_onlyRegs s o new
  have hevt : o ∉ evtRegs := (show ∀ o ∈ lockedRegs, o ∉ evtRegs by decide) o ho
  exact ⟨(hstored.mono (by simp)).trans (hacts.mono fun _ h => List.mem_cons_of_mem _ h),
    (hacts.reg (hstored.regs w).1 hoff hevt).trans (reg_stored w o new)⟩

end Sys2Proof.Machine

end

section
/-! PROOFS. Requests whose write sets something off. -/

namespace Sys2Proof.Machine

open Sys2Proof.Safety

variable {s : State} {k : Fin 64} {x : Session} {id : BitVec 32} {rest : List (BitVec 32 × Nat)}

/-- A request whose MASK reaches write-only fields alone leaves what these set off. -/
theorem writeOne_writeOnly {u : State} {o : Nat} {mask value : Word} {offs : List Nat} (hd : Due s k x 0x3 id rest)
    (ho : (s.taken k x id rest).Writable o) (hm : WriteOnly o mask)
    (hu : (s.taken k x id rest).csrActs o ((csrAccess o).wo &&& mask &&& value) (s.reg o) (s.reg o) = u)
    (hkept : OnlyRegs offs (s.taken k x id rest) u) :
    writeOne k o mask value s = .next (u.replied k x id rest (oneStatus 0)) ∧
      Served s (u.replied k x id rest (oneStatus 0)) k x id rest (oneStatus 0) :=
  writeOne_leaves hd ho.bound ((csrWriteNgs_writeOnly ho hm).trans (congrArg (·, 0) hu)) hkept

/-- The status of a write of POW_CTL's fields while it is not locked. -/
theorem csrStatus_powCtl {old mask value : Word} (hl : old.bit 63 = false)
    (hm : mask &&& ~~~ ((csrAccess Csr.powCtl).rw ||| (csrAccess Csr.powCtl).rwl ||| (csrAccess Csr.powCtl).w1c ||| (csrAccess Csr.powCtl).wo) = 0) :
    csrStatus (csrAccess Csr.powCtl) old mask value = 0 := by
  simp [csrStatus, hl, hm, stOk]

/-- POW_CTL, when it is not locked, takes a new value in fields that it does not reject (R389, R392). -/
theorem writeOne_powCtl {mask value : Word} (w : regsCanonical s) (hd : Due s k x 0x3 id rest) (hl : (s.reg Csr.powCtl).bit 63 = false)
    (hrej : csrRejects Csr.powCtl mask ((s.reg Csr.powCtl &&& ~~~ mask) ||| (value &&& mask)) = false)
    (hm : mask &&& ~~~ ((csrAccess Csr.powCtl).rw ||| (csrAccess Csr.powCtl).rwl ||| (csrAccess Csr.powCtl).w1c ||| (csrAccess Csr.powCtl).wo) = 0) :
    ∃ t, writeOne k Csr.powCtl mask value s = .next t ∧
      Served s t k x id rest (oneStatus 0) ∧
      t.reg Csr.powCtl = csrNew (csrAccess Csr.powCtl) (s.reg Csr.powCtl) mask value ∧
      ((s.reg Csr.powCtl).field 15 0 ≠ (t.reg Csr.powCtl).field 15 0 → Raised t 0x50 0) ∧ SameRegisters s t [Csr.powCtl, Csr.powStat] := by
  have hmem : Csr.powCtl ∈ lockedRegs := by decide
  have hwrite := csrWriteNgs_accepted (s := s.taken k x id rest) (value := value) (writable_of_locked _ hmem) hrej
  obtain ⟨hkept, hreg⟩ := stored_acts (s := s.taken k x id rest) w hmem (by decide)
    (csrActs_powCtl_onlyRegs (act := (csrAccess Csr.powCtl).wo &&& mask &&& value) (old := s.reg Csr.powCtl)
      (new := csrNew (csrAccess Csr.powCtl) (s.reg Csr.powCtl) mask value))
  obtain ⟨hrun, hserved⟩ := writeOne_leaves hd (by decide) hwrite hkept
  rw [show csrStatus _ ((s.taken k x id rest).reg Csr.powCtl) mask value = 0 from csrStatus_powCtl hl hm] at hrun hserved
  refine ⟨_, hrun, hserved, hreg, fun hne => ?_, fun o ho he => hkept.reg w ho he⟩
  exact Raised.sent (csrActs_powCtl_raised (fun heq => hne (heq.trans (congrArg (Word.field · 15 0) hreg.symm)))) replied_sent

/-- R326: RETRY restarts a DARK lane. -/
theorem exec_optLaneRetry (i : Fin 128) (w : regsCanonical s) (hd : Due s k x 0x3 id rest) (hdark : s.laneState i.val = laneDark)
    (hfed : s.waveDark (laneCart i.val) (i.val % 8) = false) :
    ∃ t, exec (.optLaneRetry k i) s = .next t ∧ Served s t k x id rest (oneStatus 0) ∧
      t.laneState i.val = laneRestore ∧ t.fld (Csr.optLane i.val) 59 58 = 0 := by
  obtain ⟨hkept, hstate, htries⟩ := laneRetry_restarts (s := s.taken k x id rest) w hdark hfed
  have hacts : (s.taken k x id rest).csrActs (Csr.optLane i.val) ((csrAccess (Csr.optLane i.val)).wo &&& Word.mask 56 56 &&& Word.mask 56 56)
      (s.reg (Csr.optLane i.val)) (s.reg (Csr.optLane i.val)) = (s.taken k x id rest).laneRetry i.val := by
    obtain ⟨-, -, -, -, haccess, -⟩ := optLane_facts i
    rw [csrActs_optLane, haccess]
    exact if_pos (by decide)
  obtain ⟨hrun, hserved⟩ := writeOne_writeOnly hd (optLane_writable i fun habsent => absurd (hdark.symm.trans habsent) (by decide))
    (optLane_writeOnly i) hacts hkept
  exact ⟨_, hrun, hserved, hstate, htries⟩

/-- R323: COLD discards the stored lock points. -/
theorem exec_hullCold (hd : Due s k x 0x3 id rest) :
    ∃ t, exec (.hullCold k) s = .next t ∧ Served s t k x id rest (oneStatus 0) ∧ t.flash.points = 0 := by
  have hkept : OnlyRegs [] (s.taken k x id rest) (s.taken k x id rest).hullCold := .aside rfl rfl rfl rfl rfl
  obtain ⟨hrun, hserved⟩ := writeOne_writeOnly (value := Word.mask 16 16) hd (writable_of_locked _ (by decide)) hullCtl_writeOnly rfl hkept
  exact ⟨_, hrun, hserved, rfl⟩

/-- R447: RELEASE ends every retention. -/
theorem exec_hltRelease (hd : Due s k x 0x3 id rest) :
    ∃ t, exec (.hltRelease k) s = .next t ∧ Served s t k x id rest (oneStatus 0) ∧ t.retained = [] ∧
      ∀ r ∈ s.retained, Raised t 0x9F r.job := by
  obtain ⟨hrun, hserved⟩ := writeOne_writeOnly (value := Word.mask 16 16) hd (writable_of_locked _ (by decide)) hltCtl_writeOnly rfl
    (endRetentions_onlyRegs s.retained (s.taken k x id rest))
  obtain ⟨-, hraised⟩ := endRetentions_raised s.retained (s.taken k x id rest)
  refine ⟨_, hrun, hserved, List.eq_nil_iff_forall_not_mem.mpr fun r hr => ?_, fun r hr => Raised.sent (hraised r hr) replied_sent⟩
  obtain ⟨hin, hout⟩ := endRetentions_retained _ _ r hr
  exact hout hin

/-- R233: RETEST bits cancel marks, or ask for a retest of channels mapped out. -/
theorem exec_hbmChanClr (st : Fin 8) (bits : BitVec 32) (w : regsCanonical s) (hd : Due s k x 0x3 id rest) (hst : s.stackPresent st.val = true) :
    ∃ t, exec (.hbmChanClr k st bits) s = .next t ∧ Served s t k x id rest (oneStatus 0) ∧
      (∀ c, c < 32 → (t.reg (Csr.hbmChanMap st.val)).bit (32 + c) =
        ((s.reg (Csr.hbmChanMap st.val)).bit (32 + c) && !(bits.getLsbD c && !(s.reg (Csr.hbmChanMap st.val)).bit c))) ∧
      (∀ c, c < 32 → (t.reg (Csr.hbmChanMap st.val)).bit c = (s.reg (Csr.hbmChanMap st.val)).bit c) ∧
      (∀ c, c < 32 → (t.flash.retest[st]).getLsbD c = ((s.flash.retest[st]).getLsbD c || (bits.getLsbD c && (s.reg (Csr.hbmChanMap st.val)).bit c))) := by
  let act : Word := (csrAccess (Csr.hbmChanClr st.val)).wo &&& Word.mask 31 0 &&& bits.zeroExtend 64
  have hact : ∀ c, c < 32 → act.bit c = bits.getLsbD c := fun c hc => by
    obtain ⟨-, -, -, -, haccess, -⟩ := hbmChanClr_facts st
    simp only [act, haccess, Word.bit, BitVec.getLsbD_and, Word.getLsbD_mask, BitVec.truncate_eq_setWidth, BitVec.getLsbD_setWidth]
    simp [hc, show c < 64 by omega]
  obtain ⟨hrun, hserved⟩ := writeOne_writeOnly hd (hbmChanClr_writable st hst) (hbmChanClr_writeOnly st) (csrActs_hbmChanClr st)
    (retest_onlyRegs (s.taken k x id rest) st.val act)
  refine ⟨_, hrun, hserved, fun c hc => ?_, fun c hc => retest_mapped (s := s.taken k x id rest) w st.val act hc, fun c hc => ?_⟩
  · rw [← hact c hc]
    exact retest_marks (s := s.taken k x id rest) w st.val act hc
  · rw [← hact c hc]
    exact retest_kept (s.taken k x id rest) st act hc

/-- R389: the cap is set. -/
theorem exec_powCapWrite (cap : BitVec 16) (w : regsCanonical s) (hd : Due s k x 0x3 id rest) (hl : (s.reg Csr.powCtl).bit 63 = false)
    (hlo : 900 ≤ cap.toNat) (hhi : cap.toNat ≤ 3200) :
    ∃ t, exec (.powCapWrite k cap) s = .next t ∧ Served s t k x id rest (oneStatus 0) ∧
      t.fld Csr.powCtl 15 0 = cap.toNat ∧ (cap.toNat ≠ s.fld Csr.powCtl 15 0 → Raised t 0x50 0) ∧
      SameRegisters s t [Csr.powCtl, Csr.powStat] := by
  have hvalue : Word.field (cap.zeroExtend 64) 15 0 = cap.toNat := by
    simp only [Word.field, BitVec.truncate_eq_setWidth, BitVec.toNat_setWidth]
    omega
  have hrej : csrRejects Csr.powCtl (Word.mask 15 0) ((s.reg Csr.powCtl &&& ~~~ Word.mask 15 0) ||| (cap.zeroExtend 64 &&& Word.mask 15 0)) = false := by
    have hput := (field_put (s.reg Csr.powCtl) (Word.mask 15 0) (cap.zeroExtend 64) (hi := 15) (lo := 0) (by decide) (by decide)).trans hvalue
    simp only [csrRejects, if_true, hput]
    simp [hlo, hhi]
  obtain ⟨t, hrun, hserved, hreg, hraised, hsame⟩ := writeOne_powCtl w hd hl hrej (by decide)
  have hcap : t.fld Csr.powCtl 15 0 = cap.toNat := by
    unfold State.fld
    rw [hreg, csrNew_field (by decide) hl (by decide) (by decide), hvalue]
  exact ⟨t, hrun, hserved, hcap, fun hne => hraised fun heq => hne (hcap.symm.trans heq.symm), hsame⟩

/-- The word that POW_MODE_WRITE writes. -/
theorem powModeWord_fields : ∀ (mode eq : Bool) (align : BitVec 4),
    (Word.place align.toNat 4 44 ||| Word.placeBit eq 40 ||| Word.placeBit mode 32).bit 32 = mode ∧
    (Word.place align.toNat 4 44 ||| Word.placeBit eq 40 ||| Word.placeBit mode 32).bit 40 = eq ∧
    (Word.place align.toNat 4 44 ||| Word.placeBit eq 40 ||| Word.placeBit mode 32).field 47 44 = align.toNat := by
  decide

/-- R392: mode, equalisation and alignment are set. -/
theorem exec_powModeWrite (mode eq : Bool) (align : BitVec 4) (w : regsCanonical s) (hd : Due s k x 0x3 id rest) (hl : (s.reg Csr.powCtl).bit 63 = false) :
    ∃ t, exec (.powModeWrite k mode eq align) s = .next t ∧ Served s t k x id rest (oneStatus 0) ∧
      (t.reg Csr.powCtl).bit 32 = mode ∧ (t.reg Csr.powCtl).bit 40 = eq ∧ t.fld Csr.powCtl 47 44 = align.toNat ∧
      t.fld Csr.powCtl 15 0 = s.fld Csr.powCtl 15 0 ∧ SameRegisters s t [Csr.powCtl, Csr.powStat] := by
  obtain ⟨t, hrun, hserved, hreg, -, hsame⟩ := writeOne_powCtl w hd hl
    (mask := Word.mask 47 44 ||| Word.mask 40 40 ||| Word.mask 32 32)
    (value := Word.place align.toNat 4 44 ||| Word.placeBit eq 40 ||| Word.placeBit mode 32) rfl (by decide)
  obtain ⟨hmode, heq, halign⟩ := powModeWord_fields mode eq align
  have hmem : Csr.powCtl ∈ lockedRegs := by decide
  refine ⟨t, hrun, hserved, ?_, ?_, ?_, ?_, hsame⟩
  · rw [hreg, csrNew_unlocked_bit hmem hl (by decide), if_pos (by decide), hmode]
  · rw [hreg, csrNew_unlocked_bit hmem hl (by decide), if_pos (by decide), heq]
  · unfold State.fld
    rw [hreg, csrNew_field hmem hl (by decide) (by decide), halign]
  · unfold State.fld
    rw [hreg, csrNew_field_apart hmem hl (by decide) (by decide)]

/-- What DRILL_SET does with the image of DRL_CTL: reserved bits are ignored (R463; log 42). -/
def drillWrite (body : List Byte) (s : State) : State × Response :=
  if body.length ≠ 8 then (s, plain stMalformed)
  else
    let p := s.csrWrite Csr.drlCtl (-1) (BitVec.ofNat 64 (natOfBytes body))
    (p.1, plain (if p.2 = stReadOnly then stOk else p.2))

theorem exec_drillSet_eq (body : List Byte) : exec (.drillSet k body) s = .next (s.serve (.ningonus k) 0x51 (drillWrite body)) := rfl

/-- DRL_CTL, when it is not locked, takes the image, and the answer is empty. -/
theorem drillWrite_unlocked (v : Word) (hl : (s.reg Csr.drlCtl).bit 63 = false) :
    drillWrite (bytesOfNat 8 v.toNat) s = (s.stored Csr.drlCtl (csrNew (csrAccess Csr.drlCtl) (s.reg Csr.drlCtl) (-1) v), plain stOk) := by
  have hword : BitVec.ofNat 64 (natOfBytes (bytesOfNat 8 v.toNat)) = v := by
    rw [natOfBytes_bytesOfNat, Nat.mod_eq_of_lt (by simpa using v.isLt), BitVec.ofNat_toNat, BitVec.setWidth_eq]
  have hwrite : s.csrWrite Csr.drlCtl (-1) v = (s.stored Csr.drlCtl (csrNew (csrAccess Csr.drlCtl) (s.reg Csr.drlCtl) (-1) v), _) :=
    csrWrite_accepted (writable_of_locked s (by decide)) rfl
  have hstatus : csrStatus (csrAccess Csr.drlCtl) (s.reg Csr.drlCtl) (-1) v = stReadOnly :=
    (csrStatus_unlocked (by decide) hl).trans (if_neg (by decide))
  rw [drillWrite, if_neg (by simp [bytesOfNat_length]), hword, hwrite, hstatus]
  rfl

/-- R463: the image of DRL_CTL is written. -/
theorem exec_drillSet (v : Word) (w : regsCanonical s) (hd : Due s k x 0x51 id rest) (hl : (s.reg Csr.drlCtl).bit 63 = false) :
    ∃ t, exec (.drillSet k (bytesOfNat 8 v.toNat)) s = .next t ∧
      Served s t k x id rest { status := 0, body := [] } ∧ t.fld Csr.drlCtl 11 0 = v.field 11 0 ∧
      t.fld Csr.drlCtl 55 32 = v.field 55 32 ∧ SameRegisters s t [Csr.drlCtl] := by
  let new := csrNew (csrAccess Csr.drlCtl) (s.reg Csr.drlCtl) (-1) v
  have hkept := stored_onlyRegs (s.taken k x id rest) Csr.drlCtl new
  have hreg := reg_stored (s := s.taken k x id rest) w Csr.drlCtl new
  obtain ⟨hserve, hserved⟩ := serve_leaves hd (drillWrite_unlocked (s := s.taken k x id rest) v hl) hkept
  refine ⟨_, (exec_drillSet_eq _).trans (congrArg _ hserve), hserved, ?_, ?_, fun o ho he => hkept.reg w ho he⟩
  · exact (congrArg (Word.field · 11 0) hreg).trans (csrNew_field (by decide) hl (by decide) (by decide))
  · exact (congrArg (Word.field · 55 32) hreg).trans (csrNew_field (by decide) hl (by decide) (by decide))

/-- A sink bound to a key: its queue and numbering go on when it was bound to the same (R362). -/
def boundSink (old : Option Sink) (key : BitVec 256) (mask : BitVec 16) : Sink :=
  match old with
  | some q => if q.key = key then { q with mask := mask } else { key := key, mask := mask, seq := 0, queue := [], dropped := 0 }
  | none => { key := key, mask := mask, seq := 0, queue := [], dropped := 0 }

theorem boundSink_spec (old : Option Sink) (key : BitVec 256) (mask : BitVec 16) :
    (boundSink old key mask).key = key ∧ (boundSink old key mask).mask = mask := by
  unfold boundSink
  split
  · split
    · next h => exact ⟨h, rfl⟩
    · exact ⟨rfl, rfl⟩
  · exact ⟨rfl, rfl⟩

/-- What SINK_SET does on a session: one of the four sinks is bound to its key (R362). -/
def bindSink (k : Fin 64) (sink : BitVec 8) (mask : BitVec 16) (s : State) : State × Response :=
  match s.sessions[k] with
  | none => (s, plain stDenied)
  | some x =>
    if 4 ≤ sink.toNat then (s, plain stMalformed)
    else ({ s with sinks := s.sinks.setIfInBounds sink.toNat (some (boundSink (s.sinks[sink.toNat]?).join x.ch.key mask)) }, plain stOk)

theorem exec_sinkSet_eq (sink : BitVec 8) (mask : BitVec 16) :
    exec (.sinkSet k sink mask) s = .next (s.serve (.ningonus k) 0x20 (bindSink k sink mask)) := rfl

theorem bindSink_open (sink : Fin 4) (mask : BitVec 16) (hx : s.sessions[k] = some x) :
    bindSink k (BitVec.ofNat 8 sink.val) mask s =
      ({ s with sinks := s.sinks.setIfInBounds sink.val (some (boundSink s.sinks[sink] x.ch.key mask)) }, plain stOk) := by
  have hsink : (BitVec.ofNat 8 sink.val).toNat = sink.val := by
    rw [BitVec.toNat_ofNat]
    omega
  have hold : (s.sinks[sink.val]?).join = s.sinks[sink] := by simp
  rw [bindSink, hx]
  dsimp only
  rw [hsink, if_neg (by omega), hold]

/-- R362: a sink is bound to the session's key. -/
theorem exec_sinkSet (sink : Fin 4) (mask : BitVec 16) (hd : Due s k x 0x20 id rest) :
    ∃ t q, exec (.sinkSet k (BitVec.ofNat 8 sink.val) mask) s = .next t ∧
      Served s t k x id rest { status := 0, body := [] } ∧ t.sinks[sink] = some q ∧ q.key = x.ch.key ∧
      q.mask = mask ∧ (∀ i : Fin 4, i ≠ sink → t.sinks[i] = s.sinks[i]) ∧ ∀ o, t.reg o = s.reg o := by
  obtain ⟨hserve, hserved⟩ := serve_leaves (offs := []) hd (bindSink_open (s := s.taken k x id rest) sink mask taken_session) (.aside rfl rfl rfl rfl rfl)
  obtain ⟨hkey, hmask⟩ := boundSink_spec s.sinks[sink] x.ch.key mask
  refine ⟨_, _, (exec_sinkSet_eq _ _).trans (congrArg _ hserve), hserved, Vector.getElem_setIfInBounds_self sink.isLt, hkey, hmask,
    fun i hi => ?_, fun _ => rfl⟩
  exact Vector.getElem_setIfInBounds_ne i.isLt fun he => hi (Fin.ext he.symm)

/-- Settles O48: each request by the state that its write leaves, `writeOne_leaves` and `serve_leaves` for the answer and the frame. -/
theorem settingRequests : Obligations.SettingRequests := by
  intro s k x id rest w
  exact ⟨fun i => exec_optLaneRetry i w, exec_hullCold, fun cap => exec_powCapWrite cap w, fun mode eq align => exec_powModeWrite mode eq align w,
    fun st bits => exec_hbmChanClr st bits w, exec_hltRelease, fun v => exec_drillSet v w, exec_sinkSet⟩

end Sys2Proof.Machine

end

section
/-! PROOFS. The machine as a whole: what a step takes, what reset leaves, and the canonical form that every step keeps. -/

namespace Sys2Proof.Machine

open Sys2Proof.Safety

/-- Settles O1: a step looks at the queue alone. -/
theorem stepTakesFront : Obligations.StepTakesFront := by
  intro c rest s h
  unfold step
  rw [h]

/-- A byte that was never written: a statistics memory holds EMPTY records, everything else 0 (log 4). -/
theorem memDefault_eq (a : Nat) :
    memDefault a = if (statsOwner a).isSome && a % 8 == 2 then 0x80 else if (statsOwner a).isSome && a % 8 == 3 then 0xFF else 0 := by
  unfold memDefault
  cases statsOwner a with
  | none => rfl
  | some n => simp

theorem reset_core (n : Fin 32) : State.reset.cores[n] = Core.atReset := by simp [State.reset]

theorem reset_session (k : Fin 64) : State.reset.sessions[k] = none := by simp [State.reset]

/-- Settles O3: the model's literal, field by field; memory and the register file are empty, so that every place reads its default. -/
theorem resetState : Obligations.ResetState := by
  refine ⟨rfl, rfl, rfl, memDefault_eq, fun _ => rfl, fun n => ?_, rfl, reset_session, rfl, rfl, rfl, by decide⟩
  rw [reset_core]
  exact ⟨by decide, rfl⟩

variable {qq : List Instr} {s : State}

/-- Every command keeps memory and the register file canonical and leaves the queue alone: the lemma of its meaning. -/
theorem exec_kept (c : Instr) (hk : Kept qq s) : KeptOut qq (exec c s) := by
  cases c with
  | nop => exact execNop_kept hk
  | sAdd => exact execSAdd_kept hk
  | sSub => exact execSSub_kept hk
  | sMul => exact execSMul_kept hk
  | sMulhu => exact execSMulhu_kept hk
  | sDivu => exact execSDivu_kept hk
  | sRemu => exact execSRemu_kept hk
  | sAnd => exact execSAnd_kept hk
  | sOr => exact execSOr_kept hk
  | sXor => exact execSXor_kept hk
  | sShl => exact execSShl_kept hk
  | sShr => exact execSShr_kept hk
  | sSra => exact execSSra_kept hk
  | sMin => exact execSMin_kept hk
  | sMax => exact execSMax_kept hk
  | sAddi => exact execSAddi_kept hk
  | sSubi => exact execSSubi_kept hk
  | sMuli => exact execSMuli_kept hk
  | sAndi => exact execSAndi_kept hk
  | sOri => exact execSOri_kept hk
  | sXori => exact execSXori_kept hk
  | sShli => exact execSShli_kept hk
  | sShri => exact execSShri_kept hk
  | sSrai => exact execSSrai_kept hk
  | sLi => exact execSLi_kept hk
  | sLih => exact execSLih_kept hk
  | sLd => exact execSLd_kept hk
  | sLd32 => exact execSLd32_kept hk
  | sSt => exact execSSt_kept hk
  | sSt32 => exact execSSt32_kept hk
  | sAmoadd => exact execSAmoadd_kept hk
  | sAmomax => exact execSAmomax_kept hk
  | sAmomin => exact execSAmomin_kept hk
  | sAmoswap => exact execSAmoswap_kept hk
  | sAmocas => exact execSAmocas_kept hk
  | scalarAccessComplete => exact execScalarAccessComplete_kept hk
  | bZ => exact execBZ_kept hk
  | bNz => exact execBNz_kept hk
  | bEq => exact execBEq_kept hk
  | bNe => exact execBNe_kept hk
  | bLt => exact execBLt_kept hk
  | bLtu => exact execBLtu_kept hk
  | bGe => exact execBGe_kept hk
  | bGeu => exact execBGeu_kept hk
  | bP => exact execBP_kept hk
  | bJ => exact execBJ_kept hk
  | bCall => exact execBCall_kept hk
  | bJr => exact execBJr_kept hk
  | pEq => exact execPEq_kept hk
  | pNe => exact execPNe_kept hk
  | pLt => exact execPLt_kept hk
  | pLtu => exact execPLtu_kept hk
  | pEqi => exact execPEqi_kept hk
  | pLti => exact execPLti_kept hk
  | pAnd => exact execPAnd_kept hk
  | pOr => exact execPOr_kept hk
  | pXor => exact execPXor_kept hk
  | pNot => exact execPNot_kept hk
  | dLd => exact execDLd_kept hk
  | dSt => exact execDSt_kept hk
  | dMov => exact execDMov_kept hk
  | dSetbase => exact execDSetbase_kept hk
  | dAddbase => exact execDAddbase_kept hk
  | dSetrows => exact execDSetrows_kept hk
  | dSetcols => exact execDSetcols_kept hk
  | dSetstride => exact execDSetstride_kept hk
  | dSettid => exact execDSettid_kept hk
  | dSetscale => exact execDSetscale_kept hk
  | dSetfmt => exact execDSetfmt_kept hk
  | dZero => exact execDZero_kept hk
  | dGet => exact execDGet_kept hk
  | syncWait => exact execSyncWait_kept hk
  | syncWsel => exact execSyncWsel_kept hk
  | syncSig => exact execSyncSig_kept hk
  | syncSet => exact execSyncSet_kept hk
  | syncXsig => exact execSyncXsig_kept hk
  | syncRead => exact execSyncRead_kept hk
  | syncIdle => exact execSyncIdle_kept hk
  | syncUntil => exact execSyncUntil_kept hk
  | sysCsrr => exact execSysCsrr_kept hk
  | sysCsrw => exact execSysCsrw_kept hk
  | sysIfence => exact execSysIfence_kept hk
  | sysFt => exact execSysFt_kept hk
  | sysCyc => exact execSysCyc_kept hk
  | sysEnd => exact execSysEnd_kept hk
  | sysEvent => exact execSysEvent_kept hk
  | coreEnd => exact execCoreEnd_kept hk
  | instructionFetchFill => exact execInstructionFetchFill_kept hk
  | dispatch => exact execDispatch_kept hk
  | instructionStart => exact execInstructionStart_kept hk
  | instructionComplete => exact execInstructionComplete_kept hk
  | deadlockDetect => exact execDeadlockDetect_kept hk
  | waitTimeoutExpiry => exact execWaitTimeoutExpiry_kept hk
  | mvCopy => exact execMvCopy_kept hk
  | mvCvt => exact execMvCvt_kept hk
  | mvFill => exact execMvFill_kept hk
  | mvRed => exact execMvRed_kept hk
  | mvBcast => exact execMvBcast_kept hk
  | mmIssue => exact execMmIssue_kept hk
  | mmDrain => exact execMmDrain_kept hk
  | issueAccumulated => exact execIssueAccumulated_kept hk
  | drainVerdict => exact execDrainVerdict_kept hk
  | matrixRetry => exact execMatrixRetry_kept hk
  | retryVerdict => exact execRetryVerdict_kept hk
  | arraysGate => exact execArraysGate_kept hk
  | arraysRiseEnd => exact execArraysRiseEnd_kept hk
  | keepWarmExpiry => exact execKeepWarmExpiry_kept hk
  | vecAdd => exact execVecAdd_kept hk
  | vecSub => exact execVecSub_kept hk
  | vecMul => exact execVecMul_kept hk
  | vecMax => exact execVecMax_kept hk
  | vecMin => exact execVecMin_kept hk
  | vecFma => exact execVecFma_kept hk
  | vecAdds => exact execVecAdds_kept hk
  | vecMuls => exact execVecMuls_kept hk
  | vecBcadd => exact execVecBcadd_kept hk
  | vecBcmul => exact execVecBcmul_kept hk
  | vecCvt => exact execVecCvt_kept hk
  | vecExp2 => exact execVecExp2_kept hk
  | vecLog2 => exact execVecLog2_kept hk
  | vecRcp => exact execVecRcp_kept hk
  | vecRsqrt => exact execVecRsqrt_kept hk
  | vecSqrt => exact execVecSqrt_kept hk
  | vecAbs => exact execVecAbs_kept hk
  | vecNeg => exact execVecNeg_kept hk
  | vecRelu => exact execVecRelu_kept hk
  | vecSigmoid => exact execVecSigmoid_kept hk
  | vecTanh => exact execVecTanh_kept hk
  | vecExp => exact execVecExp_kept hk
  | vecSoftplus => exact execVecSoftplus_kept hk
  | vecElu => exact execVecElu_kept hk
  | vecGelu => exact execVecGelu_kept hk
  | vecSilu => exact execVecSilu_kept hk
  | vecErf => exact execVecErf_kept hk
  | vecDrelu => exact execVecDrelu_kept hk
  | vecDsigmoid => exact execVecDsigmoid_kept hk
  | vecDtanh => exact execVecDtanh_kept hk
  | vecDexp => exact execVecDexp_kept hk
  | vecDsoftplus => exact execVecDsoftplus_kept hk
  | vecDelu => exact execVecDelu_kept hk
  | vecDgelu => exact execVecDgelu_kept hk
  | vecDsilu => exact execVecDsilu_kept hk
  | vecDerf => exact execVecDerf_kept hk
  | vecRsum => exact execVecRsum_kept hk
  | vecRmax => exact execVecRmax_kept hk
  | vecRmin => exact execVecRmin_kept hk
  | vecRsumsq => exact execVecRsumsq_kept hk
  | rowStat => exact execRowStat_kept hk
  | rowSoftmax => exact execRowSoftmax_kept hk
  | rowOsmx => exact execRowOsmx_kept hk
  | rowFinish => exact execRowFinish_kept hk
  | rowMerge => exact execRowMerge_kept hk
  | rowNorm => exact execRowNorm_kept hk
  | rowRms => exact execRowRms_kept hk
  | rowDsoftmax => exact execRowDsoftmax_kept hk
  | rowDnorm => exact execRowDnorm_kept hk
  | rowDrms => exact execRowDrms_kept hk
  | cmPut => exact execCmPut_kept hk
  | cmGet => exact execCmGet_kept hk
  | cmAmo => exact execCmAmo_kept hk
  | cmSend => exact execCmSend_kept hk
  | cmSignal => exact execCmSignal_kept hk
  | cmAllreduce => exact execCmAllreduce_kept hk
  | cmRedscat => exact execCmRedscat_kept hk
  | cmAllgather => exact execCmAllgather_kept hk
  | cmBcast => exact execCmBcast_kept hk
  | cmReduce => exact execCmReduce_kept hk
  | cmAlltoall => exact execCmAlltoall_kept hk
  | cmBarrier => exact execCmBarrier_kept hk
  | coreStartRequest => exact execCoreStartRequest_kept hk
  | corePllLock => exact execCorePllLock_kept hk
  | coreIdleGate => exact execCoreIdleGate_kept hk
  | scratchpadClearDone => exact execScratchpadClearDone_kept hk
  | d2dCrcReplay => exact execD2dCrcReplay_kept hk
  | d2dLaneFail => exact execD2dLaneFail_kept hk
  | patrolScrub => exact execPatrolScrub_kept hk
  | channelNotAnswering => exact execChannelNotAnswering_kept hk
  | atomicOperation => exact execAtomicOperation_kept hk
  | refreshRateRaise => exact execRefreshRateRaise_kept hk
  | refreshRateLower => exact execRefreshRateLower_kept hk
  | windowZeroingDone => exact execWindowZeroingDone_kept hk
  | flitReceive => exact execFlitReceive_kept hk
  | ackTimeout => exact execAckTimeout_kept hk
  | pathDown => exact execPathDown_kept hk
  | routeChangeResend => exact execRouteChangeResend_kept hk
  | pathStateBroadcast => exact execPathStateBroadcast_kept hk
  | pathStateReceive => exact execPathStateReceive_kept hk
  | keyEpochChange => exact execKeyEpochChange_kept hk
  | previousKeyDiscard => exact execPreviousKeyDiscard_kept hk
  | put => exact execPut_kept hk
  | get => exact execGet_kept hk
  | amo => exact execAmo_kept hk
  | send => exact execSend_kept hk
  | signal => exact execSignal_kept hk
  | ack => exact execAck_kept hk
  | getData => exact execGetData_kept hk
  | amoOld => exact execAmoOld_kept hk
  | resend => exact execResend_kept hk
  | fail => exact execFail_kept hk
  | resendHoldoffExpiry => exact execResendHoldoffExpiry_kept hk
  | messageRetryTimer => exact execMessageRetryTimer_kept hk
  | streamRelease => exact execStreamRelease_kept hk
  | messageTimeout => exact execMessageTimeout_kept hk
  | pathRetrain => exact execPathRetrain_kept hk
  | discovery => exact execDiscovery_kept hk
  | missingPeerRecheck => exact execMissingPeerRecheck_kept hk
  | groupCreate => exact execGroupCreate_kept hk
  | join => exact execJoin_kept hk
  | noJoin => exact execNoJoin_kept hk
  | collectiveStart => exact execCollectiveStart_kept hk
  | descriptorRecord => exact execDescriptorRecord_kept hk
  | collectiveChunk => exact execCollectiveChunk_kept hk
  | collectiveComplete => exact execCollectiveComplete_kept hk
  | collectiveTimeout => exact execCollectiveTimeout_kept hk
  | abort => exact execAbort_kept hk
  | laserLight => exact execLaserLight_kept hk
  | laneSweepDone => exact execLaneSweepDone_kept hk
  | laneRestoreDone => exact execLaneRestoreDone_kept hk
  | laneRestoreTimeout => exact execLaneRestoreTimeout_kept hk
  | laneAcquired => exact execLaneAcquired_kept hk
  | laneVerify => exact execLaneVerify_kept hk
  | lossOfLock => exact execLossOfLock_kept hk
  | berLimitExceeded => exact execBerLimitExceeded_kept hk
  | berWarning => exact execBerWarning_kept hk
  | wrongIndexInService => exact execWrongIndexInService_kept hk
  | relockAttempt => exact execRelockAttempt_kept hk
  | attemptCountReset => exact execAttemptCountReset_kept hk
  | optLaneRetry => exact execOptLaneRetry_kept hk
  | hullCold => exact execHullCold_kept hk
  | biasSample => exact execBiasSample_kept hk
  | spareWarmDone => exact execSpareWarmDone_kept hk
  | laserSwap => exact execLaserSwap_kept hk
  | swapStageDone => exact execSwapStageDone_kept hk
  | suddenLaserFailure => exact execSuddenLaserFailure_kept hk
  | cartridgeRemoved => exact execCartridgeRemoved_kept hk
  | hostLaserSwap => exact execHostLaserSwap_kept hk
  | bypassClose => exact execBypassClose_kept hk
  | bypassOpen => exact execBypassOpen_kept hk
  | supFrame => exact execSupFrame_kept hk
  | heartbeat => exact execHeartbeat_kept hk
  | heartbeatMissing => exact execHeartbeatMissing_kept hk
  | hostLinkLoss => exact execHostLinkLoss_kept hk
  | hostReconnect => exact execHostReconnect_kept hk
  | pieceNoConnection => exact execPieceNoConnection_kept hk
  | rdmaPieceComplete => exact execRdmaPieceComplete_kept hk
  | cnp => exact execCnp_kept hk
  | cnpRateRecovery => exact execCnpRateRecovery_kept hk
  | lldpTransmit => exact execLldpTransmit_kept hk
  | ptpMessage => exact execPtpMessage_kept hk
  | hello => exact execHello_kept hk
  | data => exact execData_kept hk
  | close => exact execClose_kept hk
  | sessionIdleTimeout => exact execSessionIdleTimeout_kept hk
  | reqidHoldExpiry => exact execReqidHoldExpiry_kept hk
  | requestRetransmit => exact execRequestRetransmit_kept hk
  | ping => exact execPing_kept hk
  | csrRead => exact execCsrRead_kept hk
  | csrWrite => exact execCsrWrite_kept hk
  | lockWrite => exact execLockWrite_kept hk
  | submit => exact execSubmit_kept hk
  | jobAdmission => exact execJobAdmission_kept hk
  | jobStarted => exact execJobStarted_kept hk
  | cancel => exact execCancel_kept hk
  | jobQuery => exact execJobQuery_kept hk
  | worklist => exact execWorklist_kept hk
  | worklistPoll => exact execWorklistPoll_kept hk
  | completionRecordWrite => exact execCompletionRecordWrite_kept hk
  | completionRingRecheck => exact execCompletionRingRecheck_kept hk
  | sinkSet => exact execSinkSet_kept hk
  | event => exact execEvent_kept hk
  | levelSet => exact execLevelSet_kept hk
  | resume => exact execResume_kept hk
  | reset => exact execReset_kept hk
  | update => exact execUpdate_kept hk
  | updateWriteDone => exact execUpdateWriteDone_kept hk
  | attest => exact execAttest_kept hk
  | enroll => exact execEnroll_kept hk
  | acquit => exact execAcquit_kept hk
  | acquittalStageDone => exact execAcquittalStageDone_kept hk
  | acquittalVerdict => exact execAcquittalVerdict_kept hk
  | drillSet => exact execDrillSet_kept hk
  | serviceQueuePoll => exact execServiceQueuePoll_kept hk
  | ingestSlotWrite => exact execIngestSlotWrite_kept hk
  | generate => exact execGenerate_kept hk
  | append => exact execAppend_kept hk
  | stop => exact execStop_kept hk
  | tokenRingPoll => exact execTokenRingPoll_kept hk
  | estimateUpdate => exact execEstimateUpdate_kept hk
  | alignedStepRelease => exact execAlignedStepRelease_kept hk
  | powerMeasurement => exact execPowerMeasurement_kept hk
  | powerControlInterval => exact execPowerControlInterval_kept hk
  | pstateStepDone => exact execPstateStepDone_kept hk
  | pauseSlot => exact execPauseSlot_kept hk
  | calibrationComplete => exact execCalibrationComplete_kept hk
  | measuredModeExit => exact execMeasuredModeExit_kept hk
  | powCapWrite => exact execPowCapWrite_kept hk
  | powModeWrite => exact execPowModeWrite_kept hk
  | droopDetect => exact execDroopDetect_kept hk
  | droopCeilingRise => exact execDroopCeilingRise_kept hk
  | poolEpoch => exact execPoolEpoch_kept hk
  | poolReport => exact execPoolReport_kept hk
  | poolBudgetCompute => exact execPoolBudgetCompute_kept hk
  | temperatureSample => exact execTemperatureSample_kept hk
  | thermalControl => exact execThermalControl_kept hk
  | tripHoldEnd => exact execTripHoldEnd_kept hk
  | ftAnnounce => exact execFtAnnounce_kept hk
  | ftExchange => exact execFtExchange_kept hk
  | ftHoldover => exact execFtHoldover_kept hk
  | auxPowerApplied => exact execAuxPowerApplied_kept hk
  | auxPowerLost => exact execAuxPowerLost_kept hk
  | mainEnHigh => exact execMainEnHigh_kept hk
  | mainEnLow => exact execMainEnLow_kept hk
  | inputUndervoltage => exact execInputUndervoltage_kept hk
  | inputOvervoltage => exact execInputOvervoltage_kept hk
  | resetNLow => exact execResetNLow_kept hk
  | resetNRelease => exact execResetNRelease_kept hk
  | bootStageDone => exact execBootStageDone_kept hk
  | bootComplete => exact execBootComplete_kept hk
  | bootWatchdog => exact execBootWatchdog_kept hk
  | recoveryFetch => exact execRecoveryFetch_kept hk
  | recoveryRoundWait => exact execRecoveryRoundWait_kept hk
  | mbxSubmit => exact execMbxSubmit_kept hk
  | hbmChanClr => exact execHbmChanClr_kept hk
  | jobHalt => exact execJobHalt_kept hk
  | halt => exact execHalt_kept hk
  | peerLost => exact execPeerLost_kept hk
  | retentionEnd => exact execRetentionEnd_kept hk
  | hltRelease => exact execHltRelease_kept hk
  | healthEvaluation => exact execHealthEvaluation_kept hk
  | healthJournal => exact execHealthJournal_kept hk
  | drillFire => exact execDrillFire_kept hk
  | drillEscape => exact execDrillEscape_kept hk
  | eventRateSecond => exact execEventRateSecond_kept hk
  | fabricTimeReached => exact execFabricTimeReached_kept hk
  | drainBankRead => exact execDrainBankRead_kept hk
  | csrValueReturn => exact execCsrValueReturn_kept hk
  | rootAnnouncement => exact execRootAnnouncement_kept hk
  | hostPortUp => exact execHostPortUp_kept hk
  | mainInputInRange => exact execMainInputInRange_kept hk
  | recoveryImageWritten => exact execRecoveryImageWritten_kept hk
  | debugPortWrite => exact execDebugPortWrite_kept hk
  | icmpEchoRequest => exact execIcmpEchoRequest_kept hk
  | lldpReceive => exact execLldpReceive_kept hk

/-- Settles O4: on an empty queue by `State.tick_kept`, with a command in front by `exec_kept`. -/
theorem stepKeepsCanonical : Obligations.StepKeepsCanonical := by
  intro s t hm hr hstep
  unfold step at hstep
  cases hq : s.pending with
  | nil =>
    rw [hq] at hstep
    obtain ⟨-, hmem, hregs⟩ := KeptOut.next (State.tick_kept ⟨hq, hm, hr⟩) t hstep
    exact ⟨hmem, hregs⟩
  | cons c rest =>
    rw [hq] at hstep
    have hk : Kept rest { s with pending := rest } := ⟨rfl, hm, hr⟩
    obtain ⟨-, hmem, hregs⟩ := exec_kept c hk t hstep
    exact ⟨hmem, hregs⟩

end Sys2Proof.Machine

end

section
/-! SUPPORT. What an operation writes of the register file, field by field: every field that shares no bit with those written reads as before. -/

namespace Sys2Proof.Machine

open Sys2Proof.Safety

/-- A field of a register: the register's offset, and the field's highest and lowest bit. -/
abbrev RegField := Nat × Nat × Nat

/-- Bits [hi:lo] of register o share no bit with the fields listed, and o shows no events. -/
abbrev Apart (l : List RegField) (o hi lo : Nat) : Prop :=
  o ∉ evtRegs ∧ ∀ f ∈ l, f.1 ≠ o ∨ hi < f.2.2 ∨ f.2.1 < lo

/-- The registers that show events stand at two places of Pip's block (R466, R477). -/
theorem not_mem_evtRegs {o : Nat} : o ∉ evtRegs ↔ o ≠ 0x1_0008 ∧ ¬ (0x1_0200 ≤ o ∧ o ≤ 0x1_0278 ∧ o % 8 = 0) := by
  have hmem : o ∈ evtRegs ↔ o = 0x1_0008 ∨ ∃ k, k < 16 ∧ 0x1_0200 + 8 * k = o := by simp [evtRegs, Csr.evtLast, Csr.evtCnt]
  rw [hmem, not_or]
  refine and_congr_right fun _ => not_congr ⟨fun ⟨k, hk, he⟩ => by omega, fun ⟨hlo, hhi, h8⟩ => ⟨(o - 0x1_0200) / 8, by omega, by omega⟩⟩

theorem Apart.subset {l m : List RegField} {o hi lo : Nat} (h : Apart m o hi lo) (hsub : ∀ f ∈ l, f ∈ m) : Apart l o hi lo :=
  ⟨h.1, fun f hf => h.2 f (hsub f hf)⟩

theorem apart_nil {o hi lo : Nat} : Apart [] o hi lo ↔ o ≠ 0x1_0008 ∧ ¬ (0x1_0200 ≤ o ∧ o ≤ 0x1_0278 ∧ o % 8 = 0) := by
  simp only [Apart, not_mem_evtRegs, List.not_mem_nil, false_implies, implies_true, and_true]

theorem apart_cons {a h l o hi lo : Nat} {m : List RegField} :
    Apart ((a, h, l) :: m) o hi lo ↔ (a ≠ o ∨ hi < l ∨ h < lo) ∧ Apart m o hi lo := by
  simp only [Apart, List.forall_mem_cons]
  tauto

theorem apart_append {l m : List RegField} {o hi lo : Nat} : Apart (l ++ m) o hi lo ↔ Apart l o hi lo ∧ Apart m o hi lo := by
  simp only [Apart, List.forall_mem_append]
  tauto

/-- A word is its field of all bits. -/
theorem Word.field_all (w : Word) : w.field 63 0 = w.toNat := by
  simp only [Word.field]
  omega

/-- A bit is its field of one bit. -/
theorem Word.bit_eq_field (w : Word) (k : Nat) : w.bit k = decide (w.field k k = 1) := by
  have h := Word.testBit_field w k k 0
  have hlt : w.field k k < 2 := by
    have := Word.field_lt w k k
    simpa using this
  rw [Word.bit, ← Nat.add_zero k, ← Bool.true_and (w.getLsbD _), ← (decide_eq_true (by omega : 0 < k + 1 - k)), ← h]
  rcases Nat.lt_succ_iff_lt_or_eq.mp hlt with h0 | h1
  · simp [Nat.lt_one_iff.mp h0]
  · simp [h1]

/-- No word has bits above 63. -/
theorem Word.field_above (w : Word) {hi lo : Nat} (h : 63 < lo) : w.field hi lo = 0 := by
  have hlt : w.toNat < 2 ^ lo := lt_of_lt_of_le w.isLt (Nat.pow_le_pow_right (by decide) h)
  simp [Word.field, Nat.div_eq_of_lt hlt]

/-- From s to t the fields listed, and the registers that show events, have been written, and nothing else of the register file: memory and the cores are
as before, and what has been sent stays. -/
structure Wrote (l : List RegField) (s t : State) : Prop where
  mem : t.mem = s.mem
  cores : t.cores = s.cores
  sent : Sent s t
  canonical : regsCanonical s → regsCanonical t
  fld : regsCanonical s → ∀ {o hi lo : Nat}, Apart l o hi lo → t.fld o hi lo = s.fld o hi lo

namespace Wrote

variable {l m : List RegField} {s t u : State} {o : Nat}

theorem refl : Wrote l s s := ⟨rfl, rfl, Sent.refl s, id, fun _ _ _ _ _ => rfl⟩

theorem trans (h : Wrote l s t) (k : Wrote l t u) : Wrote l s u :=
  ⟨k.mem.trans h.mem, k.cores.trans h.cores, h.sent.trans k.sent, fun w => k.canonical (h.canonical w),
    fun w _ _ _ ha => (k.fld (h.canonical w) ha).trans (h.fld w ha)⟩

theorem mono (h : Wrote l s t) (hsub : ∀ f ∈ l, f ∈ m) : Wrote m s t :=
  ⟨h.mem, h.cores, h.sent, h.canonical, fun w _ _ _ ha => h.fld w (ha.subset hsub)⟩

/-- Two operations after each other write what either writes. -/
theorem append (h : Wrote l s t) (k : Wrote m t u) : Wrote (l ++ m) s u :=
  (h.mono fun _ hf => List.mem_append_left _ hf).trans (k.mono fun _ hf => List.mem_append_right _ hf)

/-- An update of parts of the state other than registers, memory, cores and outputs. -/
theorem aside (h : Wrote l s t) (hm : u.mem = t.mem) (hc : u.cores = t.cores) (ho : u.out = t.out) (hr : u.regs = t.regs) : Wrote l s u :=
  h.trans ⟨hm, hc, Sent.of_eq ho, fun w => by unfold regsCanonical; rw [hr]; exact w, fun _ _ _ _ _ => by unfold State.fld State.reg; rw [hr]⟩

/-! One part of the state replaced. -/

theorem hull (h : Wrote l s t) (x : Hull) : Wrote l s { t with hull := x } := h.aside rfl rfl rfl rfl
theorem ring (h : Wrote l s t) (x : Ring) : Wrote l s { t with ring := x } := h.aside rfl rfl rfl rfl
theorem flash (h : Wrote l s t) (x : Flash) : Wrote l s { t with flash := x } := h.aside rfl rfl rfl rfl
theorem power (h : Wrote l s t) (x : Power) : Wrote l s { t with power := x } := h.aside rfl rfl rfl rfl
theorem pool (h : Wrote l s t) (x : Pool) : Wrote l s { t with pool := x } := h.aside rfl rfl rfl rfl
theorem time (h : Wrote l s t) (x : TimeSync) : Wrote l s { t with time := x } := h.aside rfl rfl rfl rfl
theorem pins (h : Wrote l s t) (x : Pins) : Wrote l s { t with pins := x } := h.aside rfl rfl rfl rfl
theorem boot (h : Wrote l s t) (x : Boot) : Wrote l s { t with boot := x } := h.aside rfl rfl rfl rfl
theorem health (h : Wrote l s t) (x : Health) : Wrote l s { t with health := x } := h.aside rfl rfl rfl rfl
theorem conns (h : Wrote l s t) (x : List Conn) : Wrote l s { t with conns := x } := h.aside rfl rfl rfl rfl
theorem xfers (h : Wrote l s t) (x : List Xfer) : Wrote l s { t with xfers := x } := h.aside rfl rfl rfl rfl
theorem ports (h : Wrote l s t) (x : Vector HostPort 8) : Wrote l s { t with ports := x } := h.aside rfl rfl rfl rfl
theorem sessions (h : Wrote l s t) (x : Vector (Option Session) 64) : Wrote l s { t with sessions := x } := h.aside rfl rfl rfl rfl
theorem jobs (h : Wrote l s t) (x : List Job) : Wrote l s { t with jobs := x } := h.aside rfl rfl rfl rfl
theorem drills (h : Wrote l s t) (x : List Drill) : Wrote l s { t with drills := x } := h.aside rfl rfl rfl rfl

theorem emit (h : Wrote l s t) (x : Output) : Wrote l s (t.emit x) :=
  h.trans ⟨rfl, rfl, fun _ hx => List.mem_cons_of_mem _ hx, id, fun _ _ _ _ _ => rfl⟩

theorem setReg (h : Wrote l s t) (v : Word) (ho : (o, 63, 0) ∈ l) : Wrote l s (t.setReg o v) := by
  refine h.trans ⟨rfl, rfl, Sent.refl _, State.setReg_wf t o v, fun w q hi lo ha => ?_⟩
  unfold State.fld
  rw [State.reg_setReg t o q v w]
  rcases ha.2 _ ho with hne | habove
  · rw [if_neg (Ne.symm hne)]
  · have hlo : 63 < lo := by simpa using habove
    rw [Word.field_above _ hlo, Word.field_above _ hlo]

theorem setFld (h : Wrote l s t) {hi lo : Nat} (v : Nat) (hh : hi < 64) (ho : (o, hi, lo) ∈ l) : Wrote l s (t.setFld o hi lo v) :=
  h.trans ⟨rfl, rfl, Sent.refl _, State.setFld_wf t o hi lo v, fun w q hi' lo' ha =>
    State.fld_setFld_ne t o hi lo v q hi' lo' w hh (by rcases ha.2 _ ho with h | h | h <;> [exact .inl (Ne.symm h); exact .inr (.inl h); exact .inr (.inr h)])⟩

theorem setBit (h : Wrote l s t) {n : Nat} (b : Bool) (hn : n < 64) (ho : (o, n, n) ∈ l) : Wrote l s (t.setBit o n b) := h.setFld _ hn ho

theorem bump (h : Wrote l s t) {hi lo : Nat} (k : Nat) (hh : hi < 64) (ho : (o, hi, lo) ∈ l) : Wrote l s (t.bump o hi lo k) := h.setFld _ hh ho

theorem raiseJob (h : Wrote l s t) (k : Nat) (j : Word) (r : List Word) : Wrote l s (t.raiseJob k j r) :=
  h.trans ⟨State.raiseJob_mem .., State.raiseJob_cores .., raiseJob_sent t k j r, raiseJob_wf t k j r,
    fun w _ _ _ ha => raiseJob_fld t k j r w _ _ _ ha.1⟩

theorem raise (h : Wrote l s t) (k : Nat) (r : List Word) : Wrote l s (t.raise k r) := h.raiseJob k 0 r

theorem ringSend (h : Wrote l s t) (k : Nat) (p : List Byte) : Wrote l s (t.ringSend k p) := by
  refine h.trans ⟨?_, ?_, ringSend_sent t k p, fun w => ?_, fun w _ _ _ _ => ?_⟩
  · unfold State.ringSend; split <;> rfl
  · unfold State.ringSend; split <;> rfl
  · unfold regsCanonical; rw [ringSend_regs]; exact w
  · unfold State.fld State.reg; rw [ringSend_regs]

theorem ite {c : Prop} [Decidable c] (ht : Wrote l s t) (hu : Wrote l s u) : Wrote l s (if c then t else u) := by
  split
  · exact ht
  · exact hu

/-- A fold each step of which keeps it. -/
theorem foldl {α : Type} {f : State → α → State} {as : List α} (h : Wrote l s t) (hf : ∀ u, ∀ a ∈ as, Wrote l u (f u a)) : Wrote l s (as.foldl f t) :=
  h.trans (List.foldlRecOn as f refl fun u hu a ha => hu.trans (hf u a ha))

theorem sameMemory (h : Wrote l s t) : SameMemory s t := fun a => congrArg (fun m => sparseGet memDefault m a) h.mem

/-- A register of which no field is written. -/
theorem reg (h : Wrote l s t) (w : regsCanonical s) (ha : Apart l o 63 0) : t.reg o = s.reg o := by
  have he := h.fld w ha
  simp only [State.fld, Word.field_all] at he
  exact BitVec.eq_of_toNat_eq he

/-- A bit outside the fields written. -/
theorem bit (h : Wrote l s t) (w : regsCanonical s) {k : Nat} (ha : Apart l o k k) : (t.reg o).bit k = (s.reg o).bit k := by
  have he := h.fld w ha
  unfold State.fld at he
  rw [Word.bit_eq_field, Word.bit_eq_field, he]

theorem raised (h : Wrote l s t) {k : Nat} {j : Word} (hr : Raised s k j) : Raised t k j := Raised.sent hr h.sent

/-- The registers whose fields are written. -/
theorem sameRegisters (h : Wrote l s t) (w : regsCanonical s) {offs : List Nat} (hsub : ∀ f ∈ l, f.1 ∈ offs) : SameRegisters s t offs := by
  intro o ho he
  exact h.reg w ⟨he, fun f hf => .inl fun e => ho (e ▸ hsub f hf)⟩

theorem frame (h : Wrote l s t) (w : regsCanonical s) {offs : List Nat} (hsub : ∀ f ∈ l, f.1 ∈ offs) : Frame s t offs :=
  ⟨h.sameMemory, h.cores, h.sameRegisters w hsub⟩

/-- A field that was written last reads as written. -/
theorem reads {hi lo v : Nat} (h : Wrote l (s.setFld o hi lo v) t) (w : regsCanonical s) (hh : hi < 64) (hv : v < 2 ^ (hi + 1 - lo)) (ha : Apart l o hi lo) :
    t.fld o hi lo = v :=
  (h.fld (State.setFld_wf s o hi lo v w) ha).trans ((State.fld_setFld s o hi lo v w hh).trans (Nat.mod_eq_of_lt hv))

/-- A count that was written last has been added to, up to its limit. -/
theorem counts {hi lo k : Nat} (h : Wrote l (s.bump o hi lo k) t) (w : regsCanonical s) (hh : hi < 64) (ha : Apart l o hi lo) :
    t.fld o hi lo = min (s.fld o hi lo + k) (2 ^ (hi + 1 - lo) - 1) :=
  (h.fld (State.setFld_wf s o hi lo _ w) ha).trans (State.fld_bump s o hi lo k w hh)

end Wrote

end Sys2Proof.Machine

end

section
/-! SUPPORT. What the operations on lanes, on paths that go DOWN and on HULL_STAT write (R260, R270, R320 to R323, R341). -/

namespace Sys2Proof.Machine

open Sys2Proof.Safety

variable {l : List RegField} {s t : State} {i : Nat}

/-- The next port that the half sweeps, if any: the first that has a lane in SWEEP (R322). -/
def State.nextSweep (s : State) (c : Fin 2) : Option Nat := (List.range 16).find? (fun p => (if portHalf p then 1 else 0) == c.val && s.sweeping p)

/-- The half goes on to that port, with event 0x4C (R322). -/
def State.sweepNext (s : State) (c : Fin 2) : State :=
  match s.nextSweep c with
  | some p => ({ s with hull := { s.hull with sweepPort := s.hull.sweepPort.set c (s.nextSweep c) } } : State).raise 0x4C [BitVec.ofNat 64 p]
  | none => { s with hull := { s.hull with sweepPort := s.hull.sweepPort.set c (s.nextSweep c) } }

theorem syncSweep_eq (s : State) (c : Fin 2) : s.syncSweep c = if (s.hull.sweepPort[c]).any s.sweeping then s else s.sweepNext c := by
  unfold State.syncSweep State.sweepNext State.nextSweep
  cases hp : s.hull.sweepPort[c] <;> rfl

theorem sweepNext_hull (s : State) (c : Fin 2) : (s.sweepNext c).hull = { s.hull with sweepPort := s.hull.sweepPort.set c (s.nextSweep c) } := by
  unfold State.sweepNext
  split
  · exact State.raise_hull ..
  · rfl

@[simp] theorem sweepNext_flash (s : State) (c : Fin 2) : (s.sweepNext c).flash = s.flash := by
  unfold State.sweepNext
  split
  · exact State.raise_flash ..
  · rfl

namespace Wrote

theorem laneTo (h : Wrote l s t) (st : Nat) (hl : (Csr.optLane i, 63, 60) ∈ l) : Wrote l s (t.laneTo i st) := h.setFld _ (by decide) hl

theorem lockFrom (h : Wrote l s t) (st : Nat) (hl : (Csr.optLane i, 63, 60) ∈ l) : Wrote l s (t.lockFrom i st) := (h.laneTo st hl).aside rfl rfl rfl rfl

theorem beginLock (h : Wrote l s t) (hl : (Csr.optLane i, 63, 60) ∈ l) : Wrote l s (t.beginLock i) := h.lockFrom _ hl

theorem broadcastStates (h : Wrote l s t) : Wrote l s t.broadcastStates :=
  h.trans (.ite refl (refl.foldl fun _ _ _ => refl.emit _))

theorem modLink (h : Wrote l s t) (f : Link → Link) : Wrote l s (t.modLink i f) := by
  refine h.trans ?_
  unfold State.modLink
  split
  · exact refl.aside rfl rfl rfl rfl
  · exact refl

theorem pathGoesDown (h : Wrote l s t) (hp : (Csr.fabPath i, 63, 60) ∈ l) (hc : (Csr.fabLcnt i, 63, 48) ∈ l) : Wrote l s (t.pathGoesDown i) := by
  unfold State.pathGoesDown
  exact (((((h.setFld _ (by decide) hp).bump _ (by decide) hc).foldl fun _ _ _ => refl.modLink _).modLink _).raise _ _).broadcastStates

theorem takeDown (h : Wrote l s t) (hp : (Csr.fabPath i, 63, 60) ∈ l) (hc : (Csr.fabLcnt i, 63, 48) ∈ l) : Wrote l s (t.takeDown i) :=
  .ite h (h.pathGoesDown hp hc)

theorem laneGoesDark (h : Wrote l s t) (hl : (Csr.optLane i, 63, 60) ∈ l) (hp : (Csr.fabPath i, 63, 60) ∈ l) : Wrote l s (t.laneGoesDark i) :=
  .ite (h.laneTo _ hl) ((h.laneTo _ hl).setFld _ (by decide) hp)

theorem syncSweep (h : Wrote l s t) (c : Fin 2) : Wrote l s (t.syncSweep c) := by
  refine h.trans ?_
  rw [syncSweep_eq]
  refine .ite refl ?_
  unfold State.sweepNext
  split
  · refine Wrote.raise ?_ _ _
    exact refl.aside rfl rfl rfl rfl
  · exact refl.aside rfl rfl rfl rfl

theorem syncHull (h : Wrote l s t) (hs : (Csr.hullStat, 63, 0) ∈ l) : Wrote l s t.syncHull := by
  have hsweeps := (h.syncSweep 0).syncSweep 1
  unfold State.syncHull
  exact (hsweeps.setReg _ hs).foldl fun _ _ _ => refl.raise _ _

theorem noteFec (h : Wrote l s t) (preber corr uncorr : BitVec 16) (hb : (Csr.optFec i, 63, 48) ∈ l) (hu : (Csr.optFec i, 47, 32) ∈ l)
    (hc : (Csr.optFec i, 31, 0) ∈ l) : Wrote l s (t.noteFec i preber corr uncorr) :=
  ((h.setFld _ (by decide) hb).bump _ (by decide) hu).bump _ (by decide) hc

theorem relock (h : Wrote l s t) (hl : (Csr.optLane i, 63, 60) ∈ l) (ha : (Csr.optLane i, 59, 58) ∈ l) (hc : (Csr.optLane i, 57, 57) ∈ l) :
    Wrote l s (t.relock i) :=
  (((h.laneTo _ hl).setFld _ (by decide) ha).setBit _ (by decide) hc).raise _ _

theorem keepPoint (h : Wrote l s t) (moved : Nat) : Wrote l s (t.keepPoint i moved) :=
  .ite (h.aside rfl rfl rfl rfl) (.ite (h.aside rfl rfl rfl rfl) h)

end Wrote

/-! ### What these operations leave of the rest of the state -/

@[simp] theorem syncSweep_flash (s : State) (c : Fin 2) : (s.syncSweep c).flash = s.flash := by
  rw [syncSweep_eq]
  split
  · rfl
  · exact sweepNext_flash s c

@[simp] theorem syncHull_flash (s : State) : s.syncHull.flash = s.flash := by
  unfold State.syncHull
  exact List.foldlRecOn (motive := fun t : State => t.flash = s.flash) _ _ (by simp) (fun t ht _ _ => by simp [ht])

@[simp] theorem broadcastStates_flash (s : State) : s.broadcastStates.flash = s.flash := by
  unfold State.broadcastStates
  split
  · rfl
  · exact List.foldlRecOn (motive := fun t : State => t.flash = s.flash) _ _ rfl (fun t ht _ _ => ht)

@[simp] theorem laneGoesDark_flash (s : State) (i : Nat) : (s.laneGoesDark i).flash = s.flash := by
  unfold State.laneGoesDark
  dsimp only
  split <;> rfl

theorem laneTo_state (w : regsCanonical s) {st : Nat} (hst : st < 16) : (s.laneTo i st).laneState i = st :=
  Wrote.reads (l := []) .refl w (by decide) hst (by simp only [apart_nil, Csr.optLane]; omega)

/-- The path of a lane that lost lock is DOWN, unless it is DARK or ABSENT (R320). -/
theorem takeDown_pathState (w : regsCanonical s) : (s.takeDown i).pathState i =
    if s.pathState i = pathDark ∨ s.pathState i = pathAbsent then s.pathState i else pathDownSt := by
  have hdown : (s.pathGoesDown i).pathState i = pathDownSt := by
    have hrest : Wrote [(Csr.fabLcnt i, 63, 48)] (s.setFld (Csr.fabPath i) 63 60 pathDownSt) (s.pathGoesDown i) := by
      unfold State.pathGoesDown
      exact ((((Wrote.refl.bump _ (by decide) (by simp)).foldl fun _ _ _ => Wrote.refl.modLink _).modLink _).raise _ _).broadcastStates
    exact hrest.reads w (by decide) (by decide) (by simp only [apart_cons, apart_nil, Csr.fabPath, Csr.fabLcnt]; omega)
  unfold State.takeDown
  dsimp only
  by_cases hkeeps : s.pathState i = pathDark ∨ s.pathState i = pathAbsent
  · rw [if_pos (.inr hkeeps), if_pos hkeeps]
  · rw [if_neg hkeeps]
    by_cases hst : s.pathState i = pathDownSt
    · rw [if_pos (.inl hst), hst]
    · rw [if_neg (by tauto), hdown]

end Sys2Proof.Machine

end

section
/-! PROOFS. Lock of lanes (R320 to R323, R325, R326, R341). -/

namespace Sys2Proof.Machine

open Sys2Proof.Safety

variable {s : State} {i : Fin 128} {c : Fin 2}

/-! ### Sweeps -/

theorem sweeping_of_lanes {t : State} (h : ∀ j, t.laneState j = s.laneState j) (p : Nat) : t.sweeping p = s.sweeping p := by
  unfold State.sweeping
  simp only [h]

theorem syncSweep_sweeping (w : regsCanonical s) (c : Fin 2) (p : Nat) : (s.syncSweep c).sweeping p = s.sweeping p :=
  sweeping_of_lanes (fun j => ((Wrote.refl (l := [])).syncSweep c).fld w (by simp only [apart_nil, Csr.optLane]; omega)) p

theorem syncHull_sweeping (w : regsCanonical s) (p : Nat) : s.syncHull.sweeping p = s.sweeping p :=
  sweeping_of_lanes (fun j => ((Wrote.refl (l := [(Csr.hullStat, 63, 0)])).syncHull (by simp)).fld w
    (by simp only [apart_cons, apart_nil, Csr.optLane, Csr.hullStat]; omega)) p

theorem syncSweep_other (s : State) {c d : Fin 2} (h : c ≠ d) : (s.syncSweep c).hull.sweepPort[d] = s.hull.sweepPort[d] := by
  have hne : c.val ≠ d.val := fun e => h (Fin.ext e)
  rw [syncSweep_eq]
  split
  · rfl
  · simp [sweepNext_hull, hne]

/-- The half of which a port is swept sweeps on while a lane of the port waits, then goes on to its next port (R322). -/
theorem syncSweep_port {p : Nat} (h : s.hull.sweepPort[c] = some p) :
    (s.sweeping p = true → (s.syncSweep c).hull.sweepPort[c] = some p) ∧
    (s.sweeping p = false → (s.syncSweep c).hull.sweepPort[c] = s.nextSweep c ∧ ((s.nextSweep c).isSome = true → Raised (s.syncSweep c) 0x4C 0)) := by
  rw [syncSweep_eq, h, Option.any_some]
  refine ⟨fun hs => by rw [if_pos hs, h], fun hs => ?_⟩
  rw [hs, if_neg (by simp), sweepNext_hull]
  refine ⟨by simp, fun hsome => ?_⟩
  obtain ⟨q, hq⟩ := Option.isSome_iff_exists.mp hsome
  unfold State.sweepNext
  split
  · exact raised_raise _ _ _
  · next hnone => exact absurd (hq.symm.trans hnone) (Option.some_ne_none q)

/-- The sweeps' places are those that `syncSweep` gives both halves. -/
theorem syncHull_sweepPort (s : State) : s.syncHull.hull.sweepPort = ((s.syncSweep 0).syncSweep 1).hull.sweepPort := by
  unfold State.syncHull
  exact List.foldlRecOn (motive := fun t : State => t.hull.sweepPort = ((s.syncSweep 0).syncSweep 1).hull.sweepPort) _ _ rfl
    (fun t ht _ _ => by rw [State.raise_hull]; exact ht)

theorem syncHull_sent (s : State) : Sent ((s.syncSweep 0).syncSweep 1) s.syncHull := by
  have hrest : Wrote [(Csr.hullStat, 63, 0)] ((s.syncSweep 0).syncSweep 1) s.syncHull := by
    unfold State.syncHull
    exact (Wrote.refl.setReg _ (by simp)).foldl fun _ _ _ => Wrote.refl.raise _ _
  exact hrest.sent

theorem nextSweep_congr {t : State} (h : ∀ p, t.sweeping p = s.sweeping p) : t.nextSweep c = s.nextSweep c := by
  unfold State.nextSweep
  simp only [h]

theorem syncHull_port (w : regsCanonical s) {p : Nat} (h : s.hull.sweepPort[c] = some p) :
    (s.sweeping p = true → s.syncHull.hull.sweepPort[c] = some p) ∧
    (s.sweeping p = false → s.syncHull.hull.sweepPort[c] = s.nextSweep c ∧ ((s.nextSweep c).isSome = true → Raised s.syncHull 0x4C 0)) := by
  have hsent := syncHull_sent s
  rw [syncHull_sweepPort]
  match c with
  | 0 =>
    obtain ⟨hstay, hnext⟩ := syncSweep_port h
    have hone : ((s.syncSweep 0).syncSweep 1).hull.sweepPort[(0 : Fin 2)] = (s.syncSweep 0).hull.sweepPort[(0 : Fin 2)] := syncSweep_other _ (by decide)
    have hsent1 : Sent (s.syncSweep 0) ((s.syncSweep 0).syncSweep 1) := ((Wrote.refl (l := [])).syncSweep 1).sent
    rw [hone]
    exact ⟨hstay, fun hs => ⟨(hnext hs).1, fun hsome => Raised.sent ((hnext hs).2 hsome) (hsent1.trans hsent)⟩⟩
  | 1 =>
    have hzero : (s.syncSweep 0).hull.sweepPort[(1 : Fin 2)] = some p := (syncSweep_other s (by decide)).trans h
    obtain ⟨hstay, hnext⟩ := syncSweep_port hzero
    rw [syncSweep_sweeping w] at hstay hnext
    rw [nextSweep_congr (syncSweep_sweeping w 0)] at hnext
    exact ⟨hstay, fun hs => ⟨(hnext hs).1, fun hsome => Raised.sent ((hnext hs).2 hsome) hsent⟩⟩

theorem nextSweep_half (s : State) (i : Fin 128) (hc : laneCart i.val = c.val) :
    s.nextSweep c = (List.range 16).find? (fun p => portHalf p == portHalf (i.val / 8) && s.sweeping p) := by
  unfold State.nextSweep
  congr 1
  funext p
  rw [← hc]
  unfold laneCart
  cases portHalf p <;> cases portHalf (i.val / 8) <;> rfl

/-! ### The states of a lock -/

theorem exec_laneSweepDone (w : regsCanonical s) (hc : laneCart i.val = c.val) (hst : s.laneState i.val = laneSweep)
    (hport : s.hull.sweepPort[c] = some (i.val / 8)) :
    ∃ t, exec (.laneSweepDone i) s = .next t ∧ t.laneState i.val = laneAcquire ∧ t.fld (Csr.optLane i.val) 57 57 = 1 ∧
      Frame s t [Csr.optLane i.val, Csr.hullStat] ∧
      (t.sweeping (i.val / 8) = true → t.hull.sweepPort[c] = some (i.val / 8)) ∧
      (t.sweeping (i.val / 8) = false →
        t.hull.sweepPort[c] = (List.range 16).find? (fun p => portHalf p == portHalf (i.val / 8) && t.sweeping p) ∧
        ((t.hull.sweepPort[c]).isSome = true → Raised t 0x4C 0)) := by
  let v := s.laneTo i.val laneAcquire
  let u := v.setBit (Csr.optLane i.val) 57 true
  have hv : Wrote [(Csr.optLane i.val, 63, 60)] s v := Wrote.refl.laneTo _ (by simp)
  have hu : Wrote [(Csr.optLane i.val, 57, 57)] v u := Wrote.refl.setBit _ (by decide) (by simp)
  have hsync : Wrote [(Csr.hullStat, 63, 0)] u u.syncHull := Wrote.refl.syncHull (by simp)
  have wv := hv.canonical w
  have wu := hu.canonical wv
  have hmem : s.hull.sweepPort.toList.contains (some (i.val / 8)) = true := by
    rw [List.contains_iff_mem, ← hport]
    simp
  have hexec : exec (.laneSweepDone i) s = .next u.syncHull := if_pos ⟨hst, hmem⟩
  obtain ⟨hstay, hnext⟩ := syncHull_port wu (c := c) (p := i.val / 8) hport
  refine ⟨_, hexec, ?_, ?_, ?_, ?_, ?_⟩
  · exact (hu.append hsync).reads w (by decide) (by decide) (by simp only [List.cons_append, List.nil_append, apart_cons, apart_nil, Csr.optLane, Csr.hullStat]; omega)
  · exact hsync.reads wv (by decide) (by decide) (by simp only [apart_cons, apart_nil, Csr.optLane, Csr.hullStat]; omega)
  · exact ((hv.append hu).append hsync).frame w (by simp)
  · rw [syncHull_sweeping wu]
    exact hstay
  · rw [syncHull_sweeping wu, ← nextSweep_half _ i hc, nextSweep_congr (syncHull_sweeping wu)]
    intro hs
    rw [(hnext hs).1]
    exact ⟨rfl, (hnext hs).2⟩

theorem exec_laneRestoreDone (w : regsCanonical s) (hst : s.laneState i.val = laneRestore) :
    ∃ t, exec (.laneRestoreDone i) s = .next t ∧ t.laneState i.val = laneAcquire ∧ t.fld (Csr.optLane i.val) 57 57 = 0 ∧ Frame s t [Csr.optLane i.val] := by
  let v := s.laneTo i.val laneAcquire
  have hv : Wrote [(Csr.optLane i.val, 63, 60)] s v := Wrote.refl.laneTo _ (by simp)
  have hu : Wrote [(Csr.optLane i.val, 57, 57)] v (v.setBit (Csr.optLane i.val) 57 false) := Wrote.refl.setBit _ (by decide) (by simp)
  refine ⟨_, if_pos hst, ?_, ?_, ?_⟩
  · exact hu.reads w (by decide) (by decide) (by simp only [apart_cons, apart_nil, Csr.optLane]; omega)
  · exact Wrote.reads (l := []) .refl (hv.canonical w) (by decide) (by decide) (by simp only [apart_nil, Csr.optLane]; omega)
  · exact (hv.append hu).frame w (by simp)

theorem exec_laneRestoreTimeout (w : regsCanonical s) (hst : s.laneState i.val = laneRestore) :
    ∃ t, exec (.laneRestoreTimeout i) s = .next t ∧ t.laneState i.val = laneSweep ∧ Frame s t [Csr.optLane i.val, Csr.hullStat] := by
  have hv : Wrote [(Csr.optLane i.val, 63, 60)] s (s.laneTo i.val laneSweep) := Wrote.refl.laneTo _ (by simp)
  have hsync : Wrote [(Csr.hullStat, 63, 0)] (s.laneTo i.val laneSweep) (s.laneTo i.val laneSweep).syncHull := Wrote.refl.syncHull (by simp)
  exact ⟨_, if_pos hst, hsync.reads w (by decide) (by decide) (by simp only [apart_cons, apart_nil, Csr.optLane, Csr.hullStat]; omega),
    (hv.append hsync).frame w (by simp)⟩

theorem exec_laneAcquired (w : regsCanonical s) (loofs rxp : BitVec 16) (hst : s.laneState i.val = laneAcquire) :
    ∃ t, exec (.laneAcquired i loofs rxp) s = .next t ∧ t.laneState i.val = laneVerify ∧ t.fld (Csr.optLane i.val) 31 16 = loofs.toNat ∧
      t.fld (Csr.optLane i.val) 15 0 = rxp.toNat ∧ Frame s t [Csr.optLane i.val] := by
  let v := s.laneTo i.val laneVerify
  let u := v.setFld (Csr.optLane i.val) 31 16 loofs.toNat
  have hv : Wrote [(Csr.optLane i.val, 63, 60)] s v := Wrote.refl.laneTo _ (by simp)
  have hu : Wrote [(Csr.optLane i.val, 31, 16)] v u := Wrote.refl.setFld _ (by decide) (by simp)
  have ht : Wrote [(Csr.optLane i.val, 15, 0)] u (u.setFld (Csr.optLane i.val) 15 0 rxp.toNat) := Wrote.refl.setFld _ (by decide) (by simp)
  refine ⟨_, if_pos hst, ?_, ?_, ?_, ?_⟩
  · exact (hu.append ht).reads w (by decide) (by decide) (by simp only [List.cons_append, List.nil_append, apart_cons, apart_nil, Csr.optLane]; omega)
  · exact ht.reads (hv.canonical w) (by decide) loofs.isLt (by simp only [apart_cons, apart_nil, Csr.optLane]; omega)
  · exact Wrote.reads (l := []) .refl (hu.canonical (hv.canonical w)) (by decide) rxp.isLt (by simp only [apart_nil, Csr.optLane]; omega)
  · exact ((hv.append hu).append ht).frame w (by simp)

/-! ### Verification -/

theorem keepPoint_cold {u : State} {j moved : Nat} (h : u.fld (Csr.optLane j) 57 57 = 1) :
    (u.keepPoint j moved).flash.points = u.flash.points ||| BitVec.ofNat 128 (2 ^ j) := by
  have hbit : (u.reg (Csr.optLane j)).bit 57 = true := by
    rw [Word.bit_eq_field]
    exact decide_eq_true h
  unfold State.keepPoint
  simp only [hbit, if_true]
  rfl

theorem keepPoint_warm {u : State} {j moved : Nat} (h : u.fld (Csr.optLane j) 57 57 = 0) :
    (u.keepPoint j moved).flash.points.getLsbD j = u.flash.points.getLsbD j := by
  have hbit : (u.reg (Csr.optLane j)).bit 57 = false := by
    have h0 : (u.reg (Csr.optLane j)).field 57 57 = 0 := h
    rw [Word.bit_eq_field, h0]
    rfl
  unfold State.keepPoint
  simp only [hbit, Bool.false_eq_true, if_false]
  cases hpoint : u.flash.points.getLsbD j with
  | false => simpa using hpoint
  | true =>
    have hstored : (u.storePoint j).points.getLsbD j = true := by simp [State.storePoint, hpoint]
    simp only [Bool.true_and]
    split <;> split <;> [exact hstored; exact hpoint; exact hstored; exact hpoint]

/-- Beyond the lane's state a lock that begins sets its time alone. -/
theorem lockFrom_wrote {l : List RegField} (v : State) (j st : Nat) : Wrote l (v.laneTo j st) (v.lockFrom j st) := Wrote.refl.aside rfl rfl rfl rfl

theorem exec_laneVerify_locks (w : regsCanonical s) (pilot index : BitVec 8) (moved : Nat) (hst : s.laneState i.val = laneVerify)
    (hpilot : pilot.toNat = i.val % 8) (hindex : index.toNat = i.val % 8) :
    ∃ t, exec (.laneVerify i pilot index moved) s = .next t ∧ t.laneState i.val = laneLocked ∧ t.fld (Csr.optLane i.val) 55 48 = i.val % 8 ∧
      Frame s t [Csr.optLane i.val, Csr.hullStat] ∧
      (s.fld (Csr.optLane i.val) 57 57 = 1 → t.flash.points = s.flash.points ||| BitVec.ofNat 128 (2 ^ i.val)) ∧
      (s.fld (Csr.optLane i.val) 57 57 = 0 → t.flash.points.getLsbD i.val = s.flash.points.getLsbD i.val) := by
  let v := s.setFld (Csr.optLane i.val) 55 48 pilot.toNat
  let took := (v.now - v.hull.laneSince.toList.getD i.val 0) / 10000000
  let u := (v.lockFrom i.val laneLocked).setFld (Csr.optLane i.val) 47 40 (min 255 took)
  have hv : Wrote [(Csr.optLane i.val, 55, 48)] s v := Wrote.refl.setFld _ (by decide) (by simp)
  have hu : Wrote [(Csr.optLane i.val, 47, 40)] (v.laneTo i.val laneLocked) u :=
    (lockFrom_wrote v i.val laneLocked).setFld _ (by decide) (by simp)
  have hlock : Wrote [(Csr.optLane i.val, 63, 60)] v (v.laneTo i.val laneLocked) := Wrote.refl.laneTo _ (by simp)
  have ht : Wrote [(Csr.hullStat, 63, 0)] u (u.keepPoint i.val moved).syncHull := (Wrote.refl.keepPoint moved).syncHull (by simp)
  have hcold : u.fld (Csr.optLane i.val) 57 57 = s.fld (Csr.optLane i.val) 57 57 :=
    ((hv.append hlock).append hu).fld w (by simp only [List.cons_append, List.nil_append, apart_cons, apart_nil, Csr.optLane]; omega)
  have hexec : exec (.laneVerify i pilot index moved) s = .next (u.keepPoint i.val moved).syncHull := by
    show execLaneVerify i pilot index moved s = _
    unfold execLaneVerify
    rw [if_neg (not_not_intro hst)]
    exact if_pos ⟨hpilot, hindex⟩
  refine ⟨_, hexec, ?_, ?_, ?_, fun h => ?_, fun h => ?_⟩
  · exact (hu.append ht).reads (hv.canonical w) (by decide) (by decide)
      (by simp only [List.cons_append, List.nil_append, apart_cons, apart_nil, Csr.optLane, Csr.hullStat]; omega)
  · refine Eq.trans ?_ hpilot
    exact ((hlock.append hu).append ht).reads w (by decide) pilot.isLt
      (by simp only [List.cons_append, List.nil_append, apart_cons, apart_nil, Csr.optLane, Csr.hullStat]; omega)
  · exact (((hv.append hlock).append hu).append ht).frame w (by simp)
  · rw [syncHull_flash, keepPoint_cold (hcold.trans h)]
    rfl
  · rw [syncHull_flash, keepPoint_warm (hcold.trans h)]
    rfl

/-- What an attempt of RELOCK leaves (R325, R326). -/
theorem relock_leaves {v : State} {j : Nat} (w : regsCanonical v) :
    Wrote [(Csr.optLane j, 63, 60), (Csr.optLane j, 59, 58), (Csr.optLane j, 57, 57)] v (v.relock j) ∧ (v.relock j).laneState j = laneRelock ∧
      (v.relock j).fld (Csr.optLane j) 59 58 = min 3 (v.fld (Csr.optLane j) 59 58 + 1) ∧
      (v.relock j).fld (Csr.optLane j) 57 57 = (if min 3 (v.fld (Csr.optLane j) 59 58 + 1) = 3 then 1 else 0) ∧
      Raised (v.relock j) 0x41 0 ∧ (v.relock j).flash = v.flash := by
  let att := min 3 (v.fld (Csr.optLane j) 59 58 + 1)
  let a := v.laneTo j laneRelock
  let b := a.setFld (Csr.optLane j) 59 58 att
  let c := b.setBit (Csr.optLane j) 57 (decide (att = 3))
  have ha : Wrote [(Csr.optLane j, 63, 60)] v a := Wrote.refl.laneTo _ (by simp)
  have hb : Wrote [(Csr.optLane j, 59, 58)] a b := Wrote.refl.setFld _ (by decide) (by simp)
  have hc : Wrote [(Csr.optLane j, 57, 57)] b c := Wrote.refl.setBit _ (by decide) (by simp)
  have hr : Wrote [] c (v.relock j) := Wrote.refl.raise _ _
  have hatt : att < 4 := by omega
  refine ⟨Wrote.refl.relock (by simp) (by simp) (by simp), ?_, ?_, ?_, raised_raise _ _ _, State.raise_flash ..⟩
  · exact ((hb.append hc).append hr).reads w (by decide) (by decide)
      (by simp only [List.cons_append, List.nil_append, apart_cons, apart_nil, Csr.optLane]; omega)
  · exact (hc.append hr).reads (ha.canonical w) (by decide) hatt (by simp only [List.cons_append, List.nil_append, apart_cons, apart_nil, Csr.optLane]; omega)
  · refine (hr.reads (hb.canonical (ha.canonical w)) (by decide) (v := if decide (att = 3) then 1 else 0) (by split <;> decide)
      (by simp only [apart_nil, Csr.optLane]; omega)).trans ?_
    simp only [decide_eq_true_eq, att]

theorem exec_laneVerify_relocks (w : regsCanonical s) (pilot index : BitVec 8) (moved : Nat) (hst : s.laneState i.val = laneVerify)
    (hwrong : pilot.toNat ≠ i.val % 8 ∨ index.toNat ≠ i.val % 8) (hatt : s.fld (Csr.optLane i.val) 59 58 < 3) :
    ∃ t, exec (.laneVerify i pilot index moved) s = .next t ∧ t.laneState i.val = laneRelock ∧
      t.fld (Csr.optLane i.val) 59 58 = s.fld (Csr.optLane i.val) 59 58 + 1 ∧
      t.fld (Csr.optLane i.val) 57 57 = (if s.fld (Csr.optLane i.val) 59 58 = 2 then 1 else 0) ∧ t.fld (Csr.optLane i.val) 55 48 = pilot.toNat ∧
      Raised t 0x41 0 ∧ t.flash = s.flash ∧ Frame s t [Csr.optLane i.val] := by
  let v := s.setFld (Csr.optLane i.val) 55 48 pilot.toNat
  have hv : Wrote [(Csr.optLane i.val, 55, 48)] s v := Wrote.refl.setFld _ (by decide) (by simp)
  obtain ⟨hrelock, hstate, hcount, hsweep, hraised, hflash⟩ := relock_leaves (j := i.val) (hv.canonical w)
  have hsame : v.fld (Csr.optLane i.val) 59 58 = s.fld (Csr.optLane i.val) 59 58 := hv.fld w (by simp only [apart_cons, apart_nil, Csr.optLane]; omega)
  have hexec : exec (.laneVerify i pilot index moved) s = .next (v.relock i.val) :=
    ((if_neg (not_not_intro hst)).trans (if_neg (by omega))).trans (congrArg _ (if_pos (hsame.symm ▸ hatt)))
  rw [hsame] at hcount hsweep
  refine ⟨_, hexec, hstate, hcount.trans (by omega), hsweep.trans ?_, ?_, hraised, hflash, (hv.append hrelock).frame w (by simp)⟩
  · exact if_congr (by omega) rfl rfl
  · exact hrelock.reads w (by decide) pilot.isLt (by simp only [apart_cons, apart_nil, Csr.optLane]; omega)

theorem exec_laneVerify_fails (w : regsCanonical s) (pilot index : BitVec 8) (moved : Nat) (hst : s.laneState i.val = laneVerify)
    (hwrong : pilot.toNat ≠ i.val % 8 ∨ index.toNat ≠ i.val % 8) (hatt : s.fld (Csr.optLane i.val) 59 58 = 3) :
    ∃ t, exec (.laneVerify i pilot index moved) s = .next t ∧ t.laneState i.val = laneDark ∧
      (s.pathState i.val ≠ pathAbsent → t.pathState i.val = pathDark) ∧ Raised t 0x42 0 ∧ t.flash = s.flash ∧
      Frame s t [Csr.optLane i.val, Csr.optFec i.val, Csr.hullStat, Csr.fabPath i.val, Csr.fabLcnt i.val] := by
  let v := s.setFld (Csr.optLane i.val) 55 48 pilot.toNat
  let u := v.laneTo i.val laneDark
  let t := ((v.laneGoesDark i.val).raise 0x42 [BitVec.ofNat 64 i.val]).syncHull.broadcastStates
  have hv : Wrote [(Csr.optLane i.val, 55, 48)] s v := Wrote.refl.setFld _ (by decide) (by simp)
  have hu : Wrote [(Csr.optLane i.val, 63, 60)] v u := Wrote.refl.laneTo _ (by simp)
  have hdark : Wrote [(Csr.fabPath i.val, 63, 60)] u (v.laneGoesDark i.val) := .ite .refl (Wrote.refl.setFld _ (by decide) (by simp))
  have hraise : Wrote [] (v.laneGoesDark i.val) ((v.laneGoesDark i.val).raise 0x42 [BitVec.ofNat 64 i.val]) := Wrote.refl.raise _ _
  have hsync : Wrote [(Csr.hullStat, 63, 0)] ((v.laneGoesDark i.val).raise 0x42 [BitVec.ofNat 64 i.val]) t := (Wrote.refl.syncHull (by simp)).broadcastStates
  have hrest := hraise.append hsync
  have hsame : v.fld (Csr.optLane i.val) 59 58 = s.fld (Csr.optLane i.val) 59 58 := hv.fld w (by simp only [apart_cons, apart_nil, Csr.optLane]; omega)
  have hexec : exec (.laneVerify i pilot index moved) s = .next t :=
    ((if_neg (not_not_intro hst)).trans (if_neg (by omega))).trans (congrArg _ (if_neg (by rw [hsame]; omega)))
  have wu := hu.canonical (hv.canonical w)
  refine ⟨_, hexec, ?_, fun habsent => ?_, hsync.raised (raised_raise _ _ _), ?_, ?_⟩
  · exact (hdark.append hrest).reads (hv.canonical w) (by decide) (by decide)
      (by simp only [List.cons_append, List.nil_append, apart_cons, apart_nil, Csr.optLane, Csr.hullStat, Csr.fabPath]; omega)
  · have hpath : u.pathState i.val = s.pathState i.val :=
      (hv.append hu).fld w (by simp only [List.cons_append, List.nil_append, apart_cons, apart_nil, Csr.optLane, Csr.fabPath]; omega)
    have hgoes : v.laneGoesDark i.val = u.setFld (Csr.fabPath i.val) 63 60 pathDark := if_neg (hpath.symm ▸ habsent)
    have hlast : Wrote [(Csr.hullStat, 63, 0)] (u.setFld (Csr.fabPath i.val) 63 60 pathDark) t := hgoes ▸ hrest
    exact hlast.reads wu (by decide) (by decide) (by simp only [apart_cons, apart_nil, Csr.fabPath, Csr.hullStat]; omega)
  · simp only [t, broadcastStates_flash, syncHull_flash, State.raise_flash, laneGoesDark_flash]
    rfl
  · exact (((hv.append hu).append hdark).append hrest).frame w (by simp)

/-! ### A LOCKED lane that loses its lock -/

/-- The state in which a lit lane begins to lock (R321, R322). -/
def State.lockStart (s : State) (j : Nat) : Nat := if s.flash.points.getLsbD j then laneRestore else laneSweep

theorem lockStart_lt (s : State) (j : Nat) : s.lockStart j < 2 ^ (63 + 1 - 60) := by
  unfold State.lockStart
  split <;> decide

/-- What is written after a lane began to lock leaves its state. -/
theorem beginLock_state {l : List RegField} {t : State} {j : Nat} (w : regsCanonical s) (h : Wrote l (s.beginLock j) t) (ha : Apart l (Csr.optLane j) 63 60) :
    t.laneState j = s.lockStart j :=
  Wrote.reads ((lockFrom_wrote s j _).trans h) w (by decide) (lockStart_lt s j) ha

/-- The path of a lane at the end of an operation that takes it DOWN from u on; u has the path's state of s. -/
theorem takeDown_syncHull_pathState {u : State} (w : regsCanonical u) (hu : u.pathState i.val = s.pathState i.val) :
    (u.takeDown i.val).syncHull.pathState i.val = if s.pathState i.val = pathDark ∨ s.pathState i.val = pathAbsent then s.pathState i.val else pathDownSt := by
  have hdown : Wrote [(Csr.fabPath i.val, 63, 60), (Csr.fabLcnt i.val, 63, 48)] u (u.takeDown i.val) := Wrote.refl.takeDown (by simp) (by simp)
  have hsync : Wrote [(Csr.hullStat, 63, 0)] (u.takeDown i.val) (u.takeDown i.val).syncHull := Wrote.refl.syncHull (by simp)
  have hsame : (u.takeDown i.val).syncHull.pathState i.val = (u.takeDown i.val).pathState i.val :=
    hsync.fld (hdown.canonical w) (by simp only [apart_cons, apart_nil, Csr.fabPath, Csr.hullStat]; omega)
  rw [hsame, takeDown_pathState w, hu]

theorem exec_lossOfLock (w : regsCanonical s) (hst : s.laneState i.val = laneLocked) (hdrill : NoDrill s 11 i.val) :
    ∃ t, exec (.lossOfLock i) s = .next t ∧ (t.laneState i.val = (if s.flash.points.getLsbD i.val then laneRestore else laneSweep) ∧
      t.pathState i.val = if s.pathState i.val = pathDark ∨ s.pathState i.val = pathAbsent then s.pathState i.val else pathDownSt) ∧
      t.fld (Csr.optLane i.val) 59 58 = s.fld (Csr.optLane i.val) 59 58 ∧ Raised t 0x47 0 ∧
      Frame s t [Csr.optLane i.val, Csr.optFec i.val, Csr.hullStat, Csr.fabPath i.val, Csr.fabLcnt i.val] := by
  let u := (s.beginLock i.val).raise 0x47 [Word.placeBit false 8 ||| Word.place i.val 8 0]
  have hlock : Wrote [(Csr.optLane i.val, 63, 60)] s (s.beginLock i.val) := Wrote.refl.beginLock (by simp)
  have hraise : Wrote [] (s.beginLock i.val) u := Wrote.refl.raise _ _
  have hrest : Wrote [(Csr.fabPath i.val, 63, 60), (Csr.fabLcnt i.val, 63, 48), (Csr.hullStat, 63, 0)] u (u.takeDown i.val).syncHull :=
    (Wrote.refl.takeDown (by simp) (by simp)).syncHull (by simp)
  have hexec : exec (.lossOfLock i) s = .next (u.takeDown i.val).syncHull := by
    show execLossOfLock i s = _
    unfold execLossOfLock
    rw [if_neg (not_not_intro hst), hdrill]
    rfl
  have hall := hlock.append (hraise.append hrest)
  refine ⟨_, hexec, ⟨?_, ?_⟩, ?_, hrest.raised (raised_raise _ _ _), hall.frame w (by simp)⟩
  · exact beginLock_state w (hraise.append hrest)
      (by simp only [List.nil_append, apart_cons, apart_nil, Csr.optLane, Csr.hullStat, Csr.fabPath, Csr.fabLcnt]; omega)
  · refine takeDown_syncHull_pathState (hraise.canonical (hlock.canonical w)) ?_
    exact (hlock.append hraise).fld w (by simp only [List.cons_append, List.nil_append, apart_cons, apart_nil, Csr.optLane, Csr.fabPath]; omega)
  · exact hall.fld w (by
      simp only [List.cons_append, List.nil_append, apart_cons, apart_nil, Csr.optLane, Csr.hullStat, Csr.fabPath, Csr.fabLcnt]; omega)

/-- What a report of a lane's FEC shows (R317, R341). -/
theorem noteFec_shows {l : List RegField} {t : State} {j : Nat} (w : regsCanonical s) (preber corr uncorr : BitVec 16)
    (h : Wrote l (s.noteFec j preber corr uncorr) t) (ha : Apart l (Csr.optFec j) 63 0) :
    t.fld (Csr.optFec j) 63 48 = preber.toNat ∧
    t.fld (Csr.optFec j) 47 32 = min (s.fld (Csr.optFec j) 47 32 + uncorr.toNat) (2 ^ 16 - 1) ∧
    t.fld (Csr.optFec j) 31 0 = min (s.fld (Csr.optFec j) 31 0 + corr.toNat) (2 ^ 32 - 1) := by
  let a := s.setFld (Csr.optFec j) 63 48 preber.toNat
  let b := a.bump (Csr.optFec j) 47 32 uncorr.toNat
  have hpart {hi lo : Nat} (hhi : hi ≤ 63) : Apart l (Csr.optFec j) hi lo :=
    ⟨ha.1, fun f hf => by rcases ha.2 f hf with h1 | h1 | h1 <;> omega⟩
  have ha' : Wrote [(Csr.optFec j, 63, 48)] s a := Wrote.refl.setFld _ (by decide) (by simp)
  have hb : Wrote [(Csr.optFec j, 47, 32)] a b := Wrote.refl.bump _ (by decide) (by simp)
  have hc : Wrote [(Csr.optFec j, 31, 0)] b (s.noteFec j preber corr uncorr) := Wrote.refl.bump _ (by decide) (by simp)
  have wa := ha'.canonical w
  have wb := hb.canonical wa
  refine ⟨?_, ?_, ?_⟩
  · exact ((hb.append hc).append h).reads w (by decide) preber.isLt (apart_append.mpr
      ⟨by simp only [List.cons_append, List.nil_append, apart_cons, apart_nil, Csr.optFec]; omega, hpart (by decide)⟩)
  · refine ((hc.append h).counts wa (by decide) (apart_append.mpr ⟨by simp only [apart_cons, apart_nil, Csr.optFec]; omega, hpart (by decide)⟩)).trans ?_
    rw [ha'.fld w (by simp only [apart_cons, apart_nil, Csr.optFec]; omega)]
  · refine (h.counts wb (by decide) (hpart (by decide))).trans ?_
    rw [(ha'.append hb).fld w (by simp only [List.cons_append, List.nil_append, apart_cons, apart_nil, Csr.optFec]; omega)]

/-- The fields of OPT_FEC. -/
def fecFields (j : Nat) : List RegField := [(Csr.optFec j, 63, 48), (Csr.optFec j, 47, 32), (Csr.optFec j, 31, 0)]

theorem noteFec_wrote (s : State) (j : Nat) (preber corr uncorr : BitVec 16) : Wrote (fecFields j) s (s.noteFec j preber corr uncorr) :=
  Wrote.refl.noteFec _ _ _ (by simp [fecFields]) (by simp [fecFields]) (by simp [fecFields])

theorem exec_berLimitExceeded (w : regsCanonical s) (preber corr uncorr : BitVec 16) (hst : s.laneState i.val = laneLocked) :
    ∃ t, exec (.berLimitExceeded i preber corr uncorr) s = .next t ∧
      (t.laneState i.val = (if s.flash.points.getLsbD i.val then laneRestore else laneSweep) ∧
        t.pathState i.val = if s.pathState i.val = pathDark ∨ s.pathState i.val = pathAbsent then s.pathState i.val else pathDownSt) ∧
      t.fld (Csr.optLane i.val) 59 58 = s.fld (Csr.optLane i.val) 59 58 ∧ t.fld (Csr.optFec i.val) 63 48 = preber.toNat ∧
      t.fld (Csr.optFec i.val) 47 32 = min (s.fld (Csr.optFec i.val) 47 32 + uncorr.toNat) (2 ^ 16 - 1) ∧
      Frame s t [Csr.optLane i.val, Csr.optFec i.val, Csr.hullStat, Csr.fabPath i.val, Csr.fabLcnt i.val] := by
  let v := s.noteFec i.val preber corr uncorr
  let u := v.beginLock i.val
  have hv : Wrote (fecFields i.val) s v := noteFec_wrote s i.val preber corr uncorr
  have hu : Wrote [(Csr.optLane i.val, 63, 60)] v u := Wrote.refl.beginLock (by simp)
  have hrest : Wrote [(Csr.fabPath i.val, 63, 60), (Csr.fabLcnt i.val, 63, 48), (Csr.hullStat, 63, 0)] u (u.takeDown i.val).syncHull :=
    (Wrote.refl.takeDown (by simp) (by simp)).syncHull (by simp)
  have hall := (hv.append hu).append hrest
  obtain ⟨hber, huncorr, -⟩ := noteFec_shows w preber corr uncorr (hu.append hrest) (j := i.val)
    (by simp only [List.cons_append, List.nil_append, apart_cons, apart_nil, Csr.optLane, Csr.optFec, Csr.hullStat, Csr.fabPath, Csr.fabLcnt]; omega)
  refine ⟨_, if_neg (not_not_intro hst), ⟨?_, ?_⟩, ?_, hber, huncorr, hall.frame w (by simp [fecFields])⟩
  · exact beginLock_state (s := v) (hv.canonical w) hrest (by simp only [apart_cons, apart_nil, Csr.optLane, Csr.hullStat, Csr.fabPath, Csr.fabLcnt]; omega)
  · refine takeDown_syncHull_pathState (hu.canonical (hv.canonical w)) ?_
    exact (hv.append hu).fld w (by
      simp only [fecFields, List.cons_append, List.nil_append, apart_cons, apart_nil, Csr.optLane, Csr.optFec, Csr.fabPath]; omega)
  · exact hall.fld w (by
      simp only [fecFields, List.cons_append, List.nil_append, apart_cons, apart_nil, Csr.optLane, Csr.optFec, Csr.hullStat, Csr.fabPath, Csr.fabLcnt]
      omega)

theorem exec_berWarning (w : regsCanonical s) (preber corr uncorr : BitVec 16) (hst : s.laneState i.val = laneLocked) :
    ∃ t, exec (.berWarning i preber corr uncorr) s = .next t ∧ t.fld (Csr.optFec i.val) 63 48 = preber.toNat ∧
      t.fld (Csr.optFec i.val) 31 0 = min (s.fld (Csr.optFec i.val) 31 0 + corr.toNat) (2 ^ 32 - 1) ∧ Frame s t [Csr.optFec i.val] ∧
      (preber.toNat ≤ 10000 → t.out = s.out) ∧
      (10000 < preber.toNat → (∀ w ∈ s.hull.berWarned, w.1 = i.val → w.2 + 60000000000 ≤ s.now) → Raised t 0x48 0) := by
  let v := s.noteFec i.val preber corr uncorr
  have hv : Wrote (fecFields i.val) s v := noteFec_wrote s i.val preber corr uncorr
  have hexec : exec (.berWarning i preber corr uncorr) s =
      if preber.toNat ≤ 10000 ∨ v.hull.berWarned.any (fun w => w.1 == i.val && decide (v.now < w.2 + 60000000000)) then .next v
      else .next ({ v with hull := { v.hull with berWarned := (i.val, v.now) :: v.hull.berWarned.filter (fun w => w.1 != i.val) } }.raise 0x48
        [BitVec.ofNat 64 i.val]) := if_neg (not_not_intro hst)
  by_cases hquiet : preber.toNat ≤ 10000 ∨ v.hull.berWarned.any (fun w => w.1 == i.val && decide (v.now < w.2 + 60000000000))
  · rw [if_pos hquiet] at hexec
    obtain ⟨hber, -, hcorr⟩ := noteFec_shows w preber corr uncorr (Wrote.refl (l := [])) (j := i.val) (by simp only [apart_nil, Csr.optFec]; omega)
    refine ⟨_, hexec, hber, hcorr, hv.frame w (by simp [fecFields]), fun _ => rfl, fun hhigh hold => ?_⟩
    obtain ⟨x, hx, hlate⟩ := List.any_eq_true.mp (hquiet.resolve_left (by omega))
    simp only [Bool.and_eq_true, beq_iff_eq, decide_eq_true_eq] at hlate
    exact absurd (hold x hx hlate.1) (Nat.not_le.mpr hlate.2)
  · rw [if_neg hquiet] at hexec
    have ht : Wrote [] v ({ v with hull := { v.hull with berWarned := (i.val, v.now) :: v.hull.berWarned.filter (fun w => w.1 != i.val) } }.raise 0x48
        [BitVec.ofNat 64 i.val]) := by
      refine Wrote.raise ?_ _ _
      exact Wrote.refl.aside rfl rfl rfl rfl
    obtain ⟨hber, -, hcorr⟩ := noteFec_shows w preber corr uncorr ht (j := i.val) (by simp only [apart_nil, Csr.optFec]; omega)
    exact ⟨_, hexec, hber, hcorr, (hv.append ht).frame w (by simp [fecFields]), fun hlow => absurd (.inl hlow) hquiet, fun _ _ => raised_raise _ _ _⟩

theorem exec_wrongIndexInService (w : regsCanonical s) (pilot index : BitVec 8) (hst : s.laneState i.val = laneLocked)
    (hwrong : pilot.toNat ≠ i.val % 8 ∨ index.toNat ≠ i.val % 8) :
    ∃ t, exec (.wrongIndexInService i pilot index) s = .next t ∧ t.laneState i.val = laneRelock ∧
      t.fld (Csr.optLane i.val) 59 58 = min 3 (s.fld (Csr.optLane i.val) 59 58 + 1) ∧ t.fld (Csr.optLane i.val) 55 48 = pilot.toNat ∧ Raised t 0x41 0 ∧
      (t.pathState i.val = if s.pathState i.val = pathDark ∨ s.pathState i.val = pathAbsent then s.pathState i.val else pathDownSt) ∧
      Frame s t [Csr.optLane i.val, Csr.optFec i.val, Csr.hullStat, Csr.fabPath i.val, Csr.fabLcnt i.val] := by
  let a := s.setFld (Csr.optLane i.val) 55 48 pilot.toNat
  let b := a.takeDown i.val
  let v : State := { b with hull := { b.hull with laneSince := b.hull.laneSince.set i.val b.now } }
  have ha : Wrote [(Csr.optLane i.val, 55, 48)] s a := Wrote.refl.setFld _ (by decide) (by simp)
  have hb : Wrote [(Csr.fabPath i.val, 63, 60), (Csr.fabLcnt i.val, 63, 48)] a b := Wrote.refl.takeDown (by simp) (by simp)
  have hv : Wrote [] b v := Wrote.refl.aside rfl rfl rfl rfl
  have wa := ha.canonical w
  have wb := hb.canonical wa
  have hsame : v.fld (Csr.optLane i.val) 59 58 = s.fld (Csr.optLane i.val) 59 58 := ((ha.append hb).append hv).fld w (by
    simp only [List.cons_append, List.nil_append, apart_cons, apart_nil, Csr.optLane, Csr.fabPath, Csr.fabLcnt]; omega)
  obtain ⟨hrelock, hstate, hcount, -, hraised, -⟩ := relock_leaves (j := i.val) (hv.canonical wb)
  have hsync : Wrote [(Csr.hullStat, 63, 0)] (v.relock i.val) (v.relock i.val).syncHull := Wrote.refl.syncHull (by simp)
  have wr := hrelock.canonical (hv.canonical wb)
  have hlast := (hv.append hrelock).append hsync
  refine ⟨_, if_pos ⟨hst, hwrong⟩, ?_, ?_, ?_, hsync.raised hraised, ?_, ((ha.append hb).append hlast).frame w (by simp)⟩
  · exact (hsync.fld wr (by simp only [apart_cons, apart_nil, Csr.optLane, Csr.hullStat]; omega)).trans hstate
  · rw [← hsame, ← hcount]
    exact hsync.fld wr (by simp only [apart_cons, apart_nil, Csr.optLane, Csr.hullStat]; omega)
  · exact (hb.append hlast).reads w (by decide) pilot.isLt (by
      simp only [List.cons_append, List.nil_append, apart_cons, apart_nil, Csr.optLane, Csr.fabPath, Csr.fabLcnt, Csr.hullStat]; omega)
  · have hpath : a.pathState i.val = s.pathState i.val := ha.fld w (by simp only [apart_cons, apart_nil, Csr.optLane, Csr.fabPath]; omega)
    rw [← hpath, ← takeDown_pathState wa]
    exact hlast.fld wb (by simp only [List.cons_append, List.nil_append, apart_cons, apart_nil, Csr.optLane, Csr.fabPath, Csr.hullStat]; omega)

theorem exec_relockAttempt (w : regsCanonical s) (found : Bool) (hst : s.laneState i.val = laneRelock) :
    ∃ t, exec (.relockAttempt i found) s = .next t ∧ t.laneState i.val = laneVerify ∧
      t.fld (Csr.optLane i.val) 59 58 = s.fld (Csr.optLane i.val) 59 58 ∧
      t.fld (Csr.optLane i.val) 55 48 = (if found then s.fld (Csr.optLane i.val) 55 48 else 0xFF) ∧ Frame s t [Csr.optLane i.val] := by
  let v := if found then s else s.setFld (Csr.optLane i.val) 55 48 0xFF
  have hv : Wrote [(Csr.optLane i.val, 55, 48)] s v := .ite .refl (Wrote.refl.setFld _ (by decide) (by simp))
  have ht : Wrote [(Csr.optLane i.val, 63, 60)] v (v.laneTo i.val laneVerify) := Wrote.refl.laneTo _ (by simp)
  refine ⟨_, if_neg (not_not_intro hst), laneTo_state (hv.canonical w) (by decide), ?_, ?_, (hv.append ht).frame w (by simp)⟩
  · exact (hv.append ht).fld w (by simp only [List.cons_append, List.nil_append, apart_cons, apart_nil, Csr.optLane]; omega)
  · refine (ht.fld (hv.canonical w) (by simp only [apart_cons, apart_nil, Csr.optLane]; omega)).trans ?_
    cases found with
    | true => rfl
    | false => exact Wrote.reads (l := []) (v := 0xFF) .refl w (by decide) (by decide) (by simp only [apart_nil, Csr.optLane]; omega)

theorem exec_attemptCountReset (w : regsCanonical s) (hst : s.laneState i.val = laneLocked) (hlong : s.hull.laneSince[i] + 3600000000000 ≤ s.now) :
    ∃ t, exec (.attemptCountReset i) s = .next t ∧ t.fld (Csr.optLane i.val) 59 58 = 0 ∧ t.laneState i.val = laneLocked ∧ Frame s t [Csr.optLane i.val] := by
  have ht : Wrote [(Csr.optLane i.val, 59, 58)] s (s.setFld (Csr.optLane i.val) 59 58 0) := Wrote.refl.setFld _ (by decide) (by simp)
  have hsince : s.hull.laneSince.toList.getD i.val 0 + 3600000000000 ≤ s.now := by simpa using hlong
  refine ⟨_, if_pos ⟨hst, hsince⟩, ?_, ?_, ht.frame w (by simp)⟩
  · exact Wrote.reads (l := []) .refl w (by decide) (by decide) (by simp only [apart_nil, Csr.optLane]; omega)
  · exact (ht.fld w (by simp only [apart_cons, apart_nil, Csr.optLane]; omega)).trans hst

end Sys2Proof.Machine

end

section
/-! PROOFS. The light of the lasers, and the lock of lanes as a whole (R322). -/

namespace Sys2Proof.Machine

open Sys2Proof.Safety

/-- A fold whose steps keep I: a step at a establishes P, and every step keeps it. -/
theorem foldl_reaches {σ α : Type} {f : σ → α → σ} {I P : σ → Prop} {l : List α} {a : α} (hI : ∀ t, ∀ b ∈ l, I t → I (f t b))
    (hP : ∀ t, ∀ b ∈ l, I t → P t → P (f t b)) (hreach : ∀ t, I t → P (f t a)) (ha : a ∈ l) {t : σ} (ht : I t) :
    I (l.foldl f t) ∧ P (l.foldl f t) := by
  have hkeeps : ∀ m : List α, (∀ b ∈ m, b ∈ l) → ∀ u, I u → P u → I (m.foldl f u) ∧ P (m.foldl f u) := fun m hm u hu hp =>
    List.foldlRecOn (motive := fun u => I u ∧ P u) m f ⟨hu, hp⟩ (fun u hu b hb => ⟨hI u b (hm b hb) hu.1, hP u b (hm b hb) hu.1 hu.2⟩)
  obtain ⟨front, back, rfl⟩ := List.append_of_mem ha
  have hfront : I (front.foldl f t) :=
    List.foldlRecOn (motive := I) front f ht (fun u hu b hb => hI u b (by simp [hb]) hu)
  rw [List.foldl_append, List.foldl_cons]
  exact hkeeps back (fun b hb => by simp [hb]) _ (hI _ a (by simp) hfront) (hreach _ hfront)

variable {s t : State} {i : Nat}

theorem lockStart_ne (s : State) (j : Nat) : s.lockStart j ≠ laneOff ∧ s.lockStart j ≠ laneAbsent := by
  unfold State.lockStart
  split <;> decide

theorem beginLocks_wrote (l : List Nat) (t : State) : Wrote (l.map fun j => (Csr.optLane j, 63, 60)) t (l.foldl State.beginLock t) :=
  Wrote.refl.foldl fun _ j hj => Wrote.refl.beginLock (List.mem_map.mpr ⟨j, hj, rfl⟩)

theorem beginLock_lane (w : regsCanonical t) (a : Nat) : (t.beginLock a).laneState i = if i = a then t.lockStart i else t.laneState i := by
  by_cases hia : i = a
  · subst hia
    rw [if_pos rfl]
    exact beginLock_state w (Wrote.refl (l := [])) (by simp only [apart_nil, Csr.optLane]; omega)
  · rw [if_neg hia]
    exact Wrote.fld (l := [(Csr.optLane a, 63, 60)]) (Wrote.refl.beginLock (by simp)) w (by simp only [apart_cons, apart_nil, Csr.optLane]; omega)

/-- Lanes of a list begin to lock; the others stay as they are. -/
theorem beginLocks_lane (l : List Nat) : ∀ t : State, regsCanonical t →
    (l.foldl State.beginLock t).laneState i = if i ∈ l then t.lockStart i else t.laneState i := by
  induction l with
  | nil => intro t _; rfl
  | cons a l ih =>
    intro t w
    have hlock : Wrote [(Csr.optLane a, 63, 60)] t (t.beginLock a) := Wrote.refl.beginLock (by simp)
    rw [List.foldl_cons, ih _ (hlock.canonical w), beginLock_lane w a, show (t.beginLock a).lockStart i = t.lockStart i from rfl]
    by_cases hl : i ∈ l <;> by_cases hia : i = a <;> simp [hl, hia]

/-- The laser m, if it is off, is lit for wavelength k (R322). -/
def State.lit (t : State) (m k : Nat) : State :=
  if t.lasState m = lasOff then (t.setFld (Csr.lasStat m) 63 60 lasActive).setFld (Csr.lasStat m) 55 52 k else t

theorem lit_wrote (t : State) (m k : Nat) : Wrote [(Csr.lasStat m, 63, 60), (Csr.lasStat m, 55, 52)] t (t.lit m k) :=
  .ite ((Wrote.refl.setFld _ (by decide) (by simp)).setFld _ (by decide) (by simp)) .refl

theorem lit_flash (t : State) (m k : Nat) : (t.lit m k).flash = t.flash := by
  unfold State.lit
  split <;> rfl

theorem lit_lasState (w : regsCanonical t) (m k n : Nat) :
    (t.lit m k).lasState n = if n = m ∧ t.lasState m = lasOff then lasActive else t.lasState n := by
  by_cases hoff : t.lasState m = lasOff
  · have hlit : t.lit m k = (t.setFld (Csr.lasStat m) 63 60 lasActive).setFld (Csr.lasStat m) 55 52 k := if_pos hoff
    have hlast : Wrote [(Csr.lasStat m, 55, 52)] (t.setFld (Csr.lasStat m) 63 60 lasActive) (t.lit m k) := by
      rw [hlit]
      exact Wrote.refl.setFld _ (by decide) (by simp)
    by_cases hn : n = m
    · subst hn
      rw [if_pos ⟨rfl, hoff⟩]
      exact hlast.reads w (by decide) (by decide) (by simp only [apart_cons, apart_nil, Csr.lasStat]; omega)
    · rw [if_neg (by tauto)]
      exact (lit_wrote t m k).fld w (by simp only [apart_cons, apart_nil, Csr.lasStat]; omega)
  · rw [if_neg (by tauto), State.lit, if_neg hoff]

/-- The wavelength k of half c is lit, and its lanes that are OFF begin to lock (R322). -/
def State.lightWave (c k : Nat) (t : State) : State :=
  let u := t.lit (12 * c + t.feed c k) k
  ((u.waveLanes c k).filter (fun l => u.laneState l == laneOff)).foldl State.beginLock u

/-- The wavelengths of half c that LASER_LIGHT lights (R322). -/
def State.litWaves (t : State) (c : Nat) : List Nat := (List.range 8).filter (fun k => t.feed c k != 15 && t.lightable (12 * c + t.feed c k))

theorem exec_laserLight (hp : s.pins.pwrGood = true) (hr : s.pins.resetLow = false) :
    exec .laserLight s = .next ((((List.range 2).filter (fun c => s.cartGood c)).foldl (fun (t : State) c =>
      (t.litWaves c).foldl (fun (t : State) k => t.lightWave c k) t) s).syncHull) := by
  show execLaserLight s = _
  unfold execLaserLight
  rw [hp, hr]
  rfl

/-- What a laser m at an index of a cartridge and lanes write lies apart from the feeds. -/
theorem lightWave_wrote (c k : Nat) (t : State) : Wrote ([(Csr.lasStat (12 * c + t.feed c k), 63, 60), (Csr.lasStat (12 * c + t.feed c k), 55, 52)] ++
    (((t.lit (12 * c + t.feed c k) k).waveLanes c k).filter (fun l => (t.lit (12 * c + t.feed c k) k).laneState l == laneOff)).map
      fun j => (Csr.optLane j, 63, 60)) t (t.lightWave c k) :=
  (lit_wrote t _ k).append (beginLocks_wrote _ _)

theorem beginLocks_flash (l : List Nat) (t : State) : (l.foldl State.beginLock t).flash = t.flash :=
  List.foldlRecOn (motive := fun u : State => u.flash = t.flash) l _ rfl (fun _ hu _ _ => hu)

theorem lightWave_flash (c k : Nat) (t : State) : (t.lightWave c k).flash = t.flash :=
  (beginLocks_flash _ _).trans (lit_flash t _ k)

/-- While LASER_LIGHT goes on from s: feeds and flash stay, the lane i is OFF or has begun to lock, the laser m is as it was or ACTIVE. -/
structure Lighting (s : State) (i m : Nat) (t : State) : Prop where
  mem : t.mem = s.mem
  cores : t.cores = s.cores
  canonical : regsCanonical t
  flash : t.flash = s.flash
  feed : ∀ d j, d < 2 → j < 8 → t.feed d j = s.feed d j
  lane : t.laneState i = laneOff ∨ t.laneState i = s.lockStart i
  laser : t.lasState m = s.lasState m ∨ t.lasState m = lasActive

/-- The lane i has begun to lock, and the laser m no longer is OFF. -/
def Lit (s : State) (i m : Nat) (t : State) : Prop := t.laneState i = s.lockStart i ∧ (s.lasState m = lasOff → t.lasState m = lasActive)

variable {m : Nat}

theorem lightWave_lane (w : regsCanonical t) {c k : Nat} (hm : 12 * c + t.feed c k < 24) :
    (t.lightWave c k).laneState i = if i ∈ t.waveLanes c k ∧ t.laneState i = laneOff then t.lockStart i else t.laneState i := by
  let u := t.lit (12 * c + t.feed c k) k
  have hlanes (j : Nat) : u.laneState j = t.laneState j :=
    (lit_wrote t _ k).fld w (by simp only [apart_cons, apart_nil, Csr.lasStat, Csr.optLane]; omega)
  have hwave : u.waveLanes c k = t.waveLanes c k := by simp only [State.waveLanes, hlanes]
  have hstart : u.lockStart i = t.lockStart i := by simp only [State.lockStart, u, lit_flash]
  have hlist : i ∈ (u.waveLanes c k).filter (fun l => u.laneState l == laneOff) ↔ i ∈ t.waveLanes c k ∧ t.laneState i = laneOff := by
    rw [List.mem_filter, hwave, hlanes, beq_iff_eq]
  exact (beginLocks_lane _ u ((lit_wrote t _ k).canonical w)).trans (by rw [hstart, hlanes]; exact if_congr hlist rfl rfl)

theorem lightWave_lasState (w : regsCanonical t) {c k : Nat} (hm : m < 24) :
    (t.lightWave c k).lasState m = if m = 12 * c + t.feed c k ∧ t.lasState (12 * c + t.feed c k) = lasOff then lasActive else t.lasState m := by
  rw [← lit_lasState w _ k]
  refine (beginLocks_wrote _ _).fld ((lit_wrote t _ k).canonical w) ⟨not_mem_evtRegs.mpr (by simp only [Csr.lasStat]; omega), fun f hf => ?_⟩
  obtain ⟨j, -, rfl⟩ := List.mem_map.mp hf
  simp only [Csr.lasStat, Csr.optLane]
  omega

theorem lightWave_feed (w : regsCanonical t) {c k d j : Nat} (hd : d < 2) (hm : 12 * c + t.feed c k < 24) :
    (t.lightWave c k).feed d j = t.feed d j := by
  refine (lightWave_wrote c k t).fld w (apart_append.mpr ⟨?_, not_mem_evtRegs.mpr (by simp only [Csr.cartWmap]; omega), fun f hf => ?_⟩)
  · simp only [apart_cons, apart_nil, Csr.cartWmap, Csr.lasStat]
    omega
  · obtain ⟨q, -, rfl⟩ := List.mem_map.mp hf
    simp only [Csr.cartWmap, Csr.optLane]
    omega

theorem Lighting.lightWave (h : Lighting s i m t) {c k : Nat} (hfeed : 12 * c + t.feed c k < 24) (hm : m < 24) : Lighting s i m (t.lightWave c k) where
  mem := (lightWave_wrote c k t).mem.trans h.mem
  cores := (lightWave_wrote c k t).cores.trans h.cores
  canonical := (lightWave_wrote c k t).canonical h.canonical
  flash := (lightWave_flash c k t).trans h.flash
  feed := fun d j hd hj => (lightWave_feed h.canonical hd hfeed).trans (h.feed d j hd hj)
  lane := by
    rw [lightWave_lane h.canonical hfeed]
    have hstart : t.lockStart i = s.lockStart i := by simp only [State.lockStart, h.flash]
    split
    · exact .inr hstart
    · exact h.lane
  laser := by
    rw [lightWave_lasState h.canonical hm]
    split
    · exact .inr rfl
    · exact h.laser

theorem Lit.lightWave (h : Lit s i m t) (ht : Lighting s i m t) {c k : Nat} (hfeed : 12 * c + t.feed c k < 24) (hm : m < 24) :
    Lit s i m (t.lightWave c k) := by
  refine ⟨?_, fun hoff => ?_⟩
  · have hne : t.laneState i ≠ laneOff := by
      rw [h.1]
      exact (lockStart_ne s i).1
    rw [lightWave_lane ht.canonical hfeed, if_neg (fun hl => hne hl.2), h.1]
  · rw [lightWave_lasState ht.canonical hm, h.2 hoff, ite_self]

/-- The step of the lane's own wavelength lights its laser, and the lane begins to lock. -/
theorem Lighting.lit {c : Fin 2} {k : Nat} (h : Lighting s i m t) (hk : k < 8) (hm : m = 12 * c.val + s.feed c.val k) (hm24 : m < 24)
    (hi : i ∈ s.waveLanes c.val k) : Lit s i m (t.lightWave c.val k) := by
  have hfeed := h.feed c.val k c.isLt hk
  have hstart : t.lockStart i = s.lockStart i := by simp only [State.lockStart, h.flash]
  refine ⟨?_, fun hoff => ?_⟩
  · rw [lightWave_lane h.canonical (by omega)]
    rcases h.lane with hl | hl
    · have hwave : i ∈ t.waveLanes c.val k := by
        unfold State.waveLanes at hi ⊢
        obtain ⟨hrange, hplace⟩ := List.mem_filter.mp hi
        refine List.mem_filter.mpr ⟨hrange, ?_⟩
        simp only [Bool.and_eq_true] at hplace
        rw [hplace.1.1, hplace.1.2, hl]
        rfl
      rw [if_pos ⟨hwave, hl⟩, hstart]
    · rw [hl, if_neg (fun hne => (lockStart_ne s i).1 hne.2)]
  · rw [lightWave_lasState h.canonical hm24, hfeed, ← hm]
    rcases h.laser with hl | hl
    · rw [hl, hoff, if_pos ⟨rfl, rfl⟩]
    · rw [hl, ite_self]

/-- The lasers of half d are lit and their lanes begin to lock. -/
def State.lightHalf (t : State) (d : Nat) : State := (t.litWaves d).foldl (fun (t : State) k => t.lightWave d k) t

/-- One half: it keeps what has been lit, and lights its own. -/
theorem Lighting.lightHalf (h : Lighting s i m t) (hm : m < 24) (hfeeds : ∀ d j, d < 2 → j < 8 → s.feed d j = 15 ∨ s.feed d j < 12) {d : Nat} (hd : d < 2) :
    Lighting s i m (t.lightHalf d) ∧ (Lit s i m t → Lit s i m (t.lightHalf d)) := by
  have hsmall : ∀ j ∈ t.litWaves d, ∀ u, Lighting s i m u → 12 * d + u.feed d j < 24 := by
    intro j hj u hu
    simp only [State.litWaves, List.mem_filter, List.mem_range, Bool.and_eq_true, bne_iff_ne] at hj
    have hcases := hfeeds d j hd hj.1
    have htj := h.feed d j hd hj.1
    have huj := hu.feed d j hd hj.1
    omega
  refine ⟨List.foldlRecOn (motive := Lighting s i m) _ _ h fun u hu j hj => hu.lightWave (hsmall j hj u hu) hm, fun hlit => ?_⟩
  exact (List.foldlRecOn (motive := fun u => Lighting s i m u ∧ Lit s i m u) _ _ ⟨h, hlit⟩ fun u hu j hj =>
    ⟨hu.1.lightWave (hsmall j hj u hu.1) hm, hu.2.lightWave hu.1 (hsmall j hj u hu.1) hm⟩).2

theorem Lighting.litHalf {c : Fin 2} {k : Nat} (h : Lighting s i (12 * c.val + s.feed c.val k) t)
    (hfeeds : ∀ d j, d < 2 → j < 8 → s.feed d j = 15 ∨ s.feed d j < 12) (hk : k < 8) (hfed : s.feed c.val k ≠ 15)
    (hlit : s.lightable (12 * c.val + s.feed c.val k) = true) (hi : i ∈ s.waveLanes c.val k) :
    Lit s i (12 * c.val + s.feed c.val k) (t.lightHalf c.val) := by
  have hcases := hfeeds c.val k c.isLt hk
  have hm : 12 * c.val + s.feed c.val k < 24 := by omega
  have hsmall : ∀ j ∈ t.litWaves c.val, ∀ u, Lighting s i (12 * c.val + s.feed c.val k) u → 12 * c.val + u.feed c.val j < 24 := by
    intro j hj u hu
    simp only [State.litWaves, List.mem_filter, List.mem_range, Bool.and_eq_true, bne_iff_ne] at hj
    have hcases := hfeeds c.val j c.isLt hj.1
    have htj := h.feed c.val j c.isLt hj.1
    have huj := hu.feed c.val j c.isLt hj.1
    omega
  have hmem : k ∈ t.litWaves c.val := by
    simp only [State.litWaves, List.mem_filter, List.mem_range, Bool.and_eq_true, bne_iff_ne]
    refine ⟨hk, ?_, ?_⟩
    · rw [h.feed c.val k c.isLt hk]
      exact hfed
    · rw [h.feed c.val k c.isLt hk]
      unfold State.lightable at hlit ⊢
      rw [h.flash]
      exact hlit
  exact (foldl_reaches (I := Lighting s i (12 * c.val + s.feed c.val k)) (fun u j hj hu => hu.lightWave (hsmall j hj u hu) hm)
    (fun u j hj hu hl => hl.lightWave hu (hsmall j hj u hu) hm) (fun u hu => hu.lit hk rfl hm hi) hmem h).2

theorem laserLight_lights (w : regsCanonical s) {i : Fin 128} {c : Fin 2} (hgood : s.cartGood c.val = true)
    (hfeeds : ∀ d j, d < 2 → j < 8 → s.feed d j = 15 ∨ s.feed d j < 12) (hfed : s.feed c.val (i.val % 8) ≠ 15)
    (hlit : s.lightable (12 * c.val + s.feed c.val (i.val % 8)) = true) (hi : i.val ∈ s.waveLanes c.val (i.val % 8)) (hoff : s.laneState i.val = laneOff)
    (hp : s.pins.pwrGood = true) (hr : s.pins.resetLow = false) :
    ∃ t, exec .laserLight s = .next t ∧ t.laneState i.val = (if s.flash.points.getLsbD i.val then laneRestore else laneSweep) ∧
      SameMemory s t ∧ t.cores = s.cores ∧
      (s.lasState (12 * c.val + s.feed c.val (i.val % 8)) = lasOff → t.lasState (12 * c.val + s.feed c.val (i.val % 8)) = lasActive) := by
  have hk : i.val % 8 < 8 := Nat.mod_lt _ (by decide)
  have hcases := hfeeds c.val _ c.isLt hk
  let m := 12 * c.val + s.feed c.val (i.val % 8)
  have hm : m < 24 := by omega
  have hstart : Lighting s i.val m s := ⟨rfl, rfl, w, rfl, fun _ _ _ _ => rfl, .inl hoff, .inl rfl⟩
  have hhalf : ∀ d ∈ (List.range 2).filter (fun c => s.cartGood c), d < 2 := fun d hd => List.mem_range.mp (List.mem_filter.mp hd).1
  obtain ⟨hkept, hlights⟩ := foldl_reaches (f := State.lightHalf) (I := Lighting s i.val m) (P := Lit s i.val m) (a := c.val)
    (fun u d hd hu => (hu.lightHalf hm hfeeds (hhalf d hd)).1) (fun u d hd hu => (hu.lightHalf hm hfeeds (hhalf d hd)).2)
    (fun u hu => hu.litHalf hfeeds hk hfed hlit hi) (List.mem_filter.mpr ⟨List.mem_range.mpr c.isLt, hgood⟩) hstart
  let t := ((List.range 2).filter (fun c => s.cartGood c)).foldl State.lightHalf s
  have hsync : Wrote [(Csr.hullStat, 63, 0)] t t.syncHull := Wrote.refl.syncHull (by simp)
  have hmem : t.syncHull.mem = s.mem := hsync.mem.trans hkept.mem
  refine ⟨t.syncHull, exec_laserLight hp hr, ?_, fun a => congrArg (fun m => sparseGet memDefault m a) hmem, hsync.cores.trans hkept.cores,
    fun hlas => ?_⟩
  · exact (hsync.fld hkept.canonical (by simp only [apart_cons, apart_nil, Csr.optLane, Csr.hullStat]; omega)).trans hlights.1
  · exact (hsync.fld hkept.canonical (by simp only [apart_cons, apart_nil, Csr.lasStat, Csr.hullStat]; omega)).trans (hlights.2 hlas)

/-- Settles O42: one theorem per command, each from what its operations write (`Wrote`). -/
theorem laneLock : Obligations.LaneLock := by
  intro s i w st k att f down relocking own hull path
  exact ⟨fun c hc hst hp => exec_laneSweepDone w hc hst hp, exec_laneRestoreDone w, exec_laneRestoreTimeout w, exec_laneAcquired w,
    exec_laneVerify_locks w, exec_laneVerify_relocks w, exec_laneVerify_fails w, exec_lossOfLock w, exec_berLimitExceeded w, exec_berWarning w,
    exec_wrongIndexInService w, exec_relockAttempt w, exec_attemptCountReset w,
    fun c hp hr hgood hfeeds hfed hlit hi hoff => laserLight_lights w hgood hfeeds hfed hlit hi hoff hp hr⟩

end Sys2Proof.Machine

end

section
/-! PROOFS. The supervisory ring (R336 to R339, R341, R460). -/

namespace Sys2Proof.Machine

open Sys2Proof.Safety

variable {l : List RegField} {s t : State}

theorem Wrote.journalAdd (h : Wrote l s t) (type : Nat) (body : List Word) (hc : (Csr.jrnStat, 31, 0) ∈ l) (hp : (Csr.jrnStat, 47, 32) ∈ l) :
    Wrote l s (t.journalAdd type body) := by
  unfold State.journalAdd
  refine Wrote.setFld (Wrote.bump ?_ _ (by decide) hc) _ (by decide) hp
  exact h.aside rfl rfl rfl rfl

/-- The record added is the newest of the journal. -/
theorem journalAdd_head (s : State) (type : Nat) (body : List Word) : (s.journalAdd type body).flash.journal.head? =
    some { type := type, boot := s.flash.bootCnt, ft := s.ft, body := body, time := s.now, resumed := false } := rfl

/-- Frames that events send leave the by-pass and what has been heard. -/
theorem ringSend_ring (s : State) (k : Nat) (p : List Byte) : ∃ q, (s.ringSend k p).ring = { s.ring with seq := q } := by
  unfold State.ringSend
  split
  · exact ⟨_, rfl⟩
  · exact ⟨_, rfl⟩

theorem raiseOnce_ring (s : State) (k : Nat) (j : Word) (r : List Word) : ∃ q, (s.raiseOnce k j r).ring = { s.ring with seq := q } := by
  unfold State.raiseOnce State.deliver
  dsimp only [State.bump_ring, State.setReg_ring]
  split
  · exact ringSend_ring s _ _
  · exact ⟨_, rfl⟩

theorem raiseJob_ring (s : State) (k : Nat) (j : Word) (r : List Word) : ∃ q, (s.raiseJob k j r).ring = { s.ring with seq := q } := by
  obtain ⟨p, hp⟩ := raiseOnce_ring s k j r
  unfold State.raiseJob
  dsimp only
  split
  · obtain ⟨q, hq⟩ := raiseOnce_ring (s.raiseOnce k j r) 0x9B 0 []
    exact ⟨q, by rw [hq, hp]⟩
  · exact ⟨p, hp⟩

/-- The by-pass is closed (R337). -/
def State.bypassed (s : State) : State := { s with ring := { s.ring with closed := true } }

theorem bypassed_flash (s : State) : s.bypassed.flash = s.flash := rfl

theorem exec_bypassClose (w : regsCanonical s) (hopen : s.ring.closed = false)
    (hwhy : s.pins.aux = false ∨ s.pins.resetLow = true ∨ s.now < s.boot.since + 5000000) :
    ∃ t, exec .bypassClose s = .next t ∧ t.ring.closed = true ∧ t.fld Csr.supStat 31 16 = min (s.fld Csr.supStat 31 16 + 1) (2 ^ 16 - 1) ∧
      (∃ r, t.flash.journal.head? = some r ∧ r.type = 4) ∧ Frame s t [Csr.supStat, Csr.jrnStat] := by
  let u := s.bump Csr.supStat 31 16 1
  let v := u.journalAdd 4 []
  have hu : Wrote [(Csr.supStat, 31, 16)] s u := Wrote.refl.bump _ (by decide) (by simp)
  have hv : Wrote [(Csr.jrnStat, 31, 0), (Csr.jrnStat, 47, 32)] u v := Wrote.refl.journalAdd _ _ (by simp) (by simp)
  have ht : Wrote [] v v.bypassed := Wrote.refl.ring _
  have hexec : exec .bypassClose s = .next v.bypassed := by
    show execBypassClose s = _
    unfold execBypassClose
    exact if_pos (by simpa [hopen] using hwhy)
  refine ⟨_, hexec, rfl, ?_, ⟨_, (congrArg (fun f : Flash => f.journal.head?) (bypassed_flash v)).trans (journalAdd_head u 4 []), rfl⟩,
    ((hu.append hv).append ht).frame w (by simp)⟩
  exact (hv.append ht).counts w (by decide) (by simp only [List.cons_append, List.nil_append, apart_cons, apart_nil, Csr.supStat, Csr.jrnStat]; omega)

theorem exec_bypassOpen (w : regsCanonical s) (hclosed : s.ring.closed = true) (haux : s.pins.aux = true) (hreset : s.pins.resetLow = false) :
    ∃ t, exec .bypassOpen s = .next t ∧ t.ring.closed = false ∧ t.ring.missing = false ∧ Frame s t [Csr.supStat] := by
  let v := if s.fld Csr.supStat 63 62 = 0 then s.setFld Csr.supStat 63 62 1 else s
  have hv : Wrote [(Csr.supStat, 63, 62)] s v := .ite (Wrote.refl.setFld _ (by decide) (by simp)) .refl
  have hexec : exec .bypassOpen s = .next { v with ring := { v.ring with closed := false, heardAt := v.now, missing := false } } := by
    show execBypassOpen s = _
    unfold execBypassOpen
    exact if_pos (by simp [hclosed, haux, hreset])
  exact ⟨_, hexec, rfl, rfl, (hv.ring _).frame w (by simp)⟩

/-- What the frame f changes of the ring's record (R338, R339). -/
def Ring.hears (r : Ring) (f : SupFrame) (now : Nat) : Ring :=
  let near := f.type == 1 && f.ttl == 255
  { r with
    heard := (f.serial, now) :: r.heard.filter (fun h => h.1 != f.serial && decide (now < h.2 + 1000000000))
    heardAt := if near then now else r.heardAt, missing := r.missing && !near }

theorem exec_supFrame (w : regsCanonical s) (f : SupFrame) (hopen : s.ring.closed = false) (haux : s.pins.aux = true)
    (hother : f.serial ≠ serialOf s.flash.identity) (httl : 1 < f.ttl) :
    ∃ t, exec (.supFrame f) s = .next t ∧ Output.supFrame { f with ttl := f.ttl - 1 } ∈ t.out ∧ t.fld Csr.supStat 63 62 = 2 ∧
      (f.macOk = false → t.fld Csr.supStat 15 0 = min (s.fld Csr.supStat 15 0 + 1) (2 ^ 16 - 1)) ∧ (f.serial, s.now) ∈ t.ring.heard ∧
      Frame s t [Csr.supStat] := by
  let a := s.setFld Csr.supStat 63 62 2
  let b := if f.macOk then a else a.bump Csr.supStat 15 0 1
  let c : State := { b with ring := b.ring.hears f b.now }
  let d := c.setFld Csr.supStat 47 40 (min 255 (b.ring.hears f b.now).heard.length)
  let t := d.emit (.supFrame { f with ttl := f.ttl - 1 })
  have ha : Wrote [(Csr.supStat, 63, 62)] s a := Wrote.refl.setFld _ (by decide) (by simp)
  have hb : Wrote [(Csr.supStat, 15, 0)] a b := .ite .refl (Wrote.refl.bump _ (by decide) (by simp))
  have hc : Wrote [] b c := Wrote.refl.ring _
  have ht : Wrote [(Csr.supStat, 47, 40)] c t := (Wrote.refl.setFld _ (by decide) (by simp)).emit _
  have hpass : ¬ (f.serial = serialOf d.flash.identity ∨ f.ttl ≤ 1) := by
    have hid : d.flash = s.flash := by
      simp only [d, c, State.setFld_flash, b]
      split <;> rfl
    rw [hid]
    exact fun h => h.elim hother (by omega)
  have hexec : exec (.supFrame f) s = .next t := by
    show execSupFrame f s = _
    unfold execSupFrame
    rw [if_neg (by simp [hopen, haux])]
    exact if_neg hpass
  have hnow : b.now = s.now := by
    simp only [b]
    split <;> rfl
  refine ⟨t, hexec, List.mem_cons_self, ?_, fun hmac => ?_, ?_, ((ha.append hb).append (hc.append ht)).frame w (by simp)⟩
  · exact (hb.append (hc.append ht)).reads w (by decide) (by decide)
      (by simp only [List.cons_append, List.nil_append, apart_cons, apart_nil, Csr.supStat]; omega)
  · have hcount : Wrote [(Csr.supStat, 47, 40)] (a.bump Csr.supStat 15 0 1) t := by
      have hbad : b = a.bump Csr.supStat 15 0 1 := if_neg (by simp [hmac])
      rw [← hbad]
      exact hc.append ht
    rw [← ha.fld w (by simp only [apart_cons, apart_nil, Csr.supStat]; omega)]
    exact hcount.counts (ha.canonical w) (by decide) (by simp only [apart_cons, apart_nil, Csr.supStat]; omega)
  · rw [← hnow]
    exact List.mem_cons_self

theorem exec_heartbeat (w : regsCanonical s) (haux : s.pins.aux = true) (hopen : s.ring.closed = false) :
    ∃ t f, exec .heartbeat s = .next t ∧ Output.supFrame f ∈ t.out ∧ f.type = 1 ∧ f.ttl = 255 ∧ f.seq = s.ring.seq ∧
      f.payload = BitVec.ofNat 8 s.mstate :: bytesOfNat 2 (s.fld Csr.hltScore 9 0) ∧ t.ring.seq = s.ring.seq + 1 ∧ Frame s t [] := by
  let p := BitVec.ofNat 8 s.mstate :: bytesOfNat 2 (s.fld Csr.hltScore 9 0)
  let id := s.reg Csr.fabId
  let f : SupFrame := { type := 1, ttl := 255, src := if id.bit 63 then BitVec.ofNat 16 (id.field 15 0) else 0xFFFF
                        serial := serialOf s.flash.identity, seq := s.ring.seq, payload := p, macOk := s.flash.ringKey }
  have hsend : s.ringSend 1 p = { s.emit (.supFrame f) with ring := { s.ring with seq := s.ring.seq + 1 } } := if_neg (by simp [hopen])
  have ht : Wrote [] s (s.ringSend 1 p) := Wrote.refl.ringSend _ _
  refine ⟨s.ringSend 1 p, f, if_pos haux, ?_, rfl, rfl, rfl, rfl, ?_, ht.frame w (by simp)⟩
  · rw [hsend]
    exact List.mem_cons_self
  · rw [hsend]

theorem exec_heartbeatMissing (w : regsCanonical s) (lost : Bool) (hopen : s.ring.closed = false) (haux : s.pins.aux = true)
    (hpresent : s.ring.missing = false) (hwhy : lost = true ∨ s.ring.heardAt + 300000000 ≤ s.now) :
    ∃ t, exec (.heartbeatMissing lost) s = .next t ∧ Raised t 0x4B 0 ∧ t.ring.missing = true ∧ Frame s t [Csr.supStat] := by
  let v := if lost then s.setFld Csr.supStat 63 62 0 else s
  let u : State := { v with ring := { v.ring with missing := true } }
  have hv : Wrote [(Csr.supStat, 63, 62)] s v := .ite (Wrote.refl.setFld _ (by decide) (by simp)) .refl
  have hu : Wrote [(Csr.supStat, 63, 62)] s u := hv.ring _
  have hexec : exec (.heartbeatMissing lost) s = .next (u.raise 0x4B []) := by
    show execHeartbeatMissing lost s = _
    unfold execHeartbeatMissing
    exact if_neg (by rcases hwhy with h | h <;> simp [hopen, haux, hpresent, h])
  obtain ⟨q, hq⟩ := raiseJob_ring u 0x4B 0 []
  refine ⟨_, hexec, raised_raise _ _ _, ?_, (hu.raise _ _).frame w (by simp)⟩
  rw [State.raise, hq]

/-- Settles O44: one theorem per command of the ring. -/
theorem supervisoryRing : Obligations.SupervisoryRing := fun _ w =>
  ⟨exec_bypassClose w, exec_bypassOpen w, exec_supFrame w, exec_heartbeat w, exec_heartbeatMissing w⟩

end Sys2Proof.Machine

end

section
/-! PROOFS. Fabric time (R405 to R409). -/

namespace Sys2Proof.Machine

open Sys2Proof.Safety

variable {l : List RegField} {s t : State}

/-! ### Root and parent -/

/-- This chip is the root of the best candidate it knows (R406). -/
def State.isRoot (s : State) : Bool := s.ownRoot || s.bestRoot.2 == s.chip

/-- Best candidate and parent recorded and shown (R406). -/
def State.bestNoted (s : State) : State :=
  State.setFld { s with time := { s.time with best := s.bestRoot, parent := s.parentFor s.bestRoot.2 } } Csr.ftStat 55 40 s.bestRoot.2

/-- The hops to the root b through the parent p, as FT_STAT shows them. -/
def hopsTo (p : Option Nat) (b : Nat) : Nat :=
  match p with
  | none => 0
  | some p => if p = b then 1 else if chipY p = chipY b then 2 else 3

/-- The chip enters ROOT, from the state st (R407). -/
def State.entersRoot (s : State) (st : Nat) : State := if st = ftRoot then s else (s.setFld Csr.ftStat 63 61 ftRoot).setFld Csr.ftStat 59 56 0

/-- The chip leaves ROOT, when st is ROOT, and shows its hops (R407). -/
def State.leavesRoot (s : State) (st hops : Nat) : State :=
  let s := s.setFld Csr.ftStat 59 56 hops
  if st = ftRoot then
    State.setFld { s with time := { s.time with good := 0, stepped := false, ptpLocked := false } } Csr.ftStat 63 60 (2 * ftAcquire)
  else s

/-- Root and parent follow the best candidate; the event of a root change is still to come. -/
def State.rootFollowed (s : State) : State :=
  if s.isRoot then s.bestNoted.entersRoot s.ftState else s.bestNoted.leavesRoot s.ftState (hopsTo (s.parentFor s.bestRoot.2) s.bestRoot.2)

theorem chooseRoot_eq (s : State) : s.chooseRoot =
    if s.time.best.2 = s.bestRoot.2 ∧ s.ftState ≠ ftFree then s.rootFollowed
    else if s.time.best.2 = s.bestRoot.2 ∧ !s.isRoot then s.rootFollowed
    else s.rootFollowed.raise 0x5C [BitVec.ofNat 64 s.bestRoot.2] := rfl

/-- The fields of FT_STAT that following a root writes. -/
def rootFields : List RegField := [(Csr.ftStat, 63, 61), (Csr.ftStat, 63, 60), (Csr.ftStat, 59, 56)]

theorem entersRoot_wrote (s : State) (st : Nat) : Wrote rootFields s (s.entersRoot st) :=
  .ite .refl ((Wrote.refl.setFld _ (by decide) (by decide)).setFld _ (by decide) (by decide))

theorem leavesRoot_wrote (s : State) (st hops : Nat) : Wrote rootFields s (s.leavesRoot st hops) := by
  have hshown : Wrote rootFields s (s.setFld Csr.ftStat 59 56 hops) := Wrote.refl.setFld _ (by decide) (by decide)
  exact .ite ((hshown.time _).setFld _ (by decide) (by decide)) hshown

theorem bestNoted_wrote (s : State) : Wrote [(Csr.ftStat, 55, 40)] s s.bestNoted := (Wrote.refl.time _).setFld _ (by decide) (by simp)

theorem rootFollowed_wrote (s : State) : Wrote rootFields s.bestNoted s.rootFollowed :=
  .ite (entersRoot_wrote _ _) (leavesRoot_wrote _ _ _)

theorem chooseRoot_follows (s : State) : Wrote [] s.rootFollowed s.chooseRoot := by
  rw [chooseRoot_eq]
  exact .ite .refl (.ite .refl (Wrote.refl.raise _ _))

theorem chooseRoot_wrote (s : State) : Wrote ((Csr.ftStat, 55, 40) :: rootFields) s s.chooseRoot :=
  ((bestNoted_wrote s).append (rootFollowed_wrote s)).append (chooseRoot_follows s) |>.mono (by simp)

theorem chooseRoot_raised (h : s.time.best.2 ≠ s.bestRoot.2) : Raised s.chooseRoot 0x5C 0 := by
  rw [chooseRoot_eq, if_neg fun hb => h hb.1, if_neg fun hb => h hb.1]
  exact raised_raise _ _ _

theorem chooseRoot_shows (w : regsCanonical s) : s.chooseRoot.fld Csr.ftStat 55 40 = s.bestRoot.2 % 2 ^ 16 :=
  (((rootFollowed_wrote s).append (chooseRoot_follows s)).fld ((bestNoted_wrote s).canonical w) (by decide)).trans
    (State.fld_setFld { s with time := { s.time with best := s.bestRoot, parent := s.parentFor s.bestRoot.2 } } _ 55 40 _ w (by decide))

theorem rootFollowed_kept (s : State) : s.rootFollowed.ft = s.ft ∧ s.rootFollowed.part = s.part ∧ s.rootFollowed.time.best = s.bestRoot ∧
    s.rootFollowed.time.heard = s.time.heard := by
  unfold State.rootFollowed State.entersRoot State.leavesRoot
  split
  · split <;> exact ⟨rfl, rfl, rfl, rfl⟩
  · split <;> exact ⟨rfl, rfl, rfl, rfl⟩

/-- Following a root leaves fabric time and the candidates heard; the best of them is recorded. -/
theorem chooseRoot_kept (s : State) : s.chooseRoot.ft = s.ft ∧ s.chooseRoot.part = s.part ∧ s.chooseRoot.time.best = s.bestRoot ∧
    s.chooseRoot.time.heard = s.time.heard := by
  have hevent : s.chooseRoot.ft = s.rootFollowed.ft ∧ s.chooseRoot.part = s.rootFollowed.part ∧ s.chooseRoot.time = s.rootFollowed.time := by
    rw [chooseRoot_eq]
    split
    · exact ⟨rfl, rfl, rfl⟩
    · split
      · exact ⟨rfl, rfl, rfl⟩
      · exact ⟨State.raise_ft .., State.raise_part .., State.raise_time ..⟩
  obtain ⟨hft, hpart, htime⟩ := hevent
  rw [hft, hpart, htime]
  exact rootFollowed_kept s

theorem bestNoted_ftState (w : regsCanonical s) : s.bestNoted.ftState = s.ftState := (bestNoted_wrote s).fld w (by decide)

theorem chooseRoot_root (w : regsCanonical s) (h : s.isRoot = true) : s.chooseRoot.ftState = ftRoot := by
  refine ((chooseRoot_follows s).fld ((rootFollowed_wrote s).canonical ((bestNoted_wrote s).canonical w)) (by decide)).trans ?_
  unfold State.rootFollowed State.entersRoot
  rw [if_pos h]
  split
  next hroot => exact (bestNoted_ftState w).trans hroot
  next =>
    exact Wrote.reads (l := [(Csr.ftStat, 59, 56)]) (Wrote.refl.setFld _ (by decide) (by simp)) ((bestNoted_wrote s).canonical w) (by decide)
      (by decide) (by decide)

theorem chooseRoot_stays (w : regsCanonical s) (h : s.isRoot = false) (hst : s.ftState ≠ ftRoot) : s.chooseRoot.ftState = s.ftState := by
  refine ((chooseRoot_follows s).fld ((rootFollowed_wrote s).canonical ((bestNoted_wrote s).canonical w)) (by decide)).trans ?_
  unfold State.rootFollowed State.leavesRoot
  rw [if_neg (by simp [h]), if_neg hst, ← bestNoted_ftState w]
  exact Wrote.fld (l := [(Csr.ftStat, 59, 56)]) (Wrote.refl.setFld _ (by decide) (by simp)) ((bestNoted_wrote s).canonical w) (by decide)

theorem Wrote.fabId (h : Wrote l s t) (w : regsCanonical s) (hid : Apart l Csr.fabId 63 0) : t.chip = s.chip ∧ t.neighbours = s.neighbours := by
  have hreg := h.reg w hid
  have hchip : t.chip = s.chip := by unfold State.chip State.fld; rw [hreg]
  refine ⟨hchip, ?_⟩
  unfold State.neighbours State.gridX State.gridY State.fld
  rw [hchip, hreg]

theorem Wrote.ownRoot (h : Wrote l s t) (w : regsCanonical s) (hid : Apart l Csr.fabId 63 0) (hpart : t.part = s.part) : t.ownRoot = s.ownRoot := by
  unfold State.ownRoot
  rw [h.reg w hid, hpart]

/-- What the best candidate rests on: FT_CTL, FAB_ID, the part, the time and the candidates heard. -/
theorem Wrote.bestRoot (h : Wrote l s t) (w : regsCanonical s) (hctl : Apart l Csr.ftCtl 19 16) (hid : Apart l Csr.fabId 63 0) (hpart : t.part = s.part)
    (hnow : t.now = s.now) (hheard : t.time.heard = s.time.heard) : t.bestRoot = s.bestRoot := by
  have hcand : t.ownCandidate = s.ownCandidate := by unfold State.ownCandidate; rw [(h.fabId w hid).1, h.fld w hctl]
  unfold State.bestRoot
  rw [h.ownRoot w hid hpart, hcand, hheard, hnow]

/-! ### The commands -/

theorem announces {as : List Nat} {b : Nat × Nat} {c : Nat} (s : State) (hc : c ∈ as) :
    Output.announce c b ∈ (as.foldl (fun (t : State) c => t.emit (.announce c b)) s).out :=
  (foldl_reaches (I := fun _ : State => True) (P := fun t : State => Output.announce c b ∈ t.out) (fun _ _ _ _ => trivial)
    (fun _ _ _ _ h => List.mem_cons_of_mem _ h) (fun _ _ => List.mem_cons_self) hc trivial).2

/-- The announcements of FT_ANNOUNCE (R406). -/
def State.announced (s : State) : State := if s.ownRoot then s else s.neighbours.foldl (fun (t : State) c => t.emit (.announce c s.time.best)) s

theorem announced_wrote (s : State) : Wrote [] s s.announced := .ite .refl (Wrote.refl.foldl fun _ _ _ => Wrote.refl.emit _)

theorem announced_kept (s : State) : s.announced.ft = s.ft ∧ s.announced.time = s.time := by
  unfold State.announced
  split
  · exact ⟨rfl, rfl⟩
  · exact List.foldlRecOn (motive := fun t : State => t.ft = s.ft ∧ t.time = s.time) _ _ ⟨rfl, rfl⟩ fun _ h _ _ => h

theorem exec_ftAnnounce (w : regsCanonical s) (hon : s.mainOn = true) (hstage : 8 ≤ s.boot.stage) :
    ∃ t, exec .ftAnnounce s = .next t ∧ t.time.best = s.bestRoot ∧ t.fld Csr.ftStat 55 40 = s.bestRoot.2 % 2 ^ 16 ∧
      Frame s t [Csr.ftStat] ∧ t.ft = s.ft ∧ (s.ownRoot = false → ∀ c ∈ s.neighbours, Output.announce c s.bestRoot ∈ t.out) ∧
      (s.ownRoot = true ∨ s.bestRoot.2 = s.chip → t.ftState = ftRoot) ∧ (s.time.best.2 ≠ s.bestRoot.2 → Raised t 0x5C 0) := by
  let u := s.chooseRoot
  have hu := chooseRoot_wrote s
  have ht : Wrote [] u u.announced := announced_wrote u
  have hexec : exec .ftAnnounce s = .next u.announced := if_neg (by simp [hon, hstage])
  obtain ⟨hft, hpart, hbest, -⟩ := chooseRoot_kept s
  obtain ⟨haft, hatime⟩ := announced_kept u
  refine ⟨_, hexec, (congrArg TimeSync.best hatime).trans hbest, ?_, (hu.append ht).frame w (by simp [rootFields]), haft.trans hft, fun hown c hc => ?_,
    fun hroot => ?_, fun hne => ht.raised (chooseRoot_raised hne)⟩
  · exact (ht.fld (hu.canonical w) (by decide)).trans (chooseRoot_shows w)
  · have houtside : u.ownRoot = false := (hu.ownRoot w (by decide) hpart).trans hown
    unfold State.announced
    rw [if_neg (by simp [houtside]), ← hbest]
    exact announces u ((hu.fabId w (by decide)).2 ▸ hc)
  · exact (ht.fld (hu.canonical w) (by decide)).trans (chooseRoot_root w (by simpa [State.isRoot] using hroot))

theorem exec_rootAnnouncement (w : regsCanonical s) (chip : BitVec 16) (prio : BitVec 4) (root : BitVec 16) (hon : s.mainOn = true)
    (hstage : 8 ≤ s.boot.stage) :
    ∃ t, exec (.rootAnnouncement chip prio root) s = .next t ∧ (chip.toNat, (prio.toNat, root.toNat), s.now) ∈ t.time.heard ∧
      Frame s t [Csr.ftStat] ∧ t.ft = s.ft ∧
      (s.time.heard = [] → s.ownRoot = false → better (prio.toNat, root.toNat) s.ownCandidate = true →
        t.time.best = (prio.toNat, root.toNat) ∧ t.fld Csr.ftStat 55 40 = root.toNat ∧ (s.time.best.2 ≠ root.toNat → Raised t 0x5C 0)) := by
  let h : Nat × (Nat × Nat) × Nat := (chip.toNat, (prio.toNat, root.toNat), s.now)
  let v : State := { s with time := { s.time with heard := h :: s.time.heard.filter (fun x => x.1 != chip.toNat) } }
  have hv : Wrote [] s v := Wrote.refl.time _
  have hexec : exec (.rootAnnouncement chip prio root) s = .next v.chooseRoot := if_neg (by simp [hon, hstage])
  obtain ⟨hft, -, hbest, hheard⟩ := chooseRoot_kept v
  refine ⟨_, hexec, hheard ▸ List.mem_cons_self, (hv.append (chooseRoot_wrote v)).frame w (by simp [rootFields]), hft, fun hnone hown hbetter => ?_⟩
  have hnew : v.bestRoot = (prio.toNat, root.toNat) := by
    have hlist : v.time.heard = [h] := by simp [v, hnone]
    have hlate : v.now ≤ h.2.2 + 4000000 := Nat.le_add_right _ _
    have hother : v.ownRoot = false := hown
    have hwins : better h.2.1 v.ownCandidate = true := hbetter
    unfold State.bestRoot
    rw [if_neg (by simp [hother]), hlist, List.filter_singleton, decide_eq_true hlate, cond_true, List.foldl_cons, List.foldl_nil, if_pos hwins]
  rw [hnew] at hbest
  refine ⟨hbest, ?_, fun hne => chooseRoot_raised (hnew ▸ hne)⟩
  rw [chooseRoot_shows (hv.canonical w), hnew, Nat.mod_eq_of_lt root.isLt]

/-- What an exchange with the offset twice/2 leaves of STATE, of the count of good exchanges, and whether it locks; and whether FT steps (R407). -/
structure Exchange where
  st : Nat
  good : Nat
  lock : Bool
  step : Bool

/-- An exchange taken in the state st. -/
def exchangeTaken (st good : Nat) (stepped : Bool) (twice : Int) : Exchange :=
  let far := decide (8000 < twice.natAbs)
  let near := decide (twice.natAbs < 16)
  let enter := st == ftFree || ((st == ftLocked || st == ftHoldover) && far)
  let st1 := if enter then ftAcquire else st
  let stepped := if enter then false else stepped
  let good := if enter then (if near then 1 else 0) else if near then good + 1 else 0
  let lock := (st1 == ftAcquire || st1 == ftHoldover) && decide (16 ≤ good)
  { st := if lock then ftLocked else st1, good := good, lock := lock, step := st1 == ftAcquire && !stepped && decide (8000 < twice) }

section

variable {good : Nat} {stepped : Bool} {twice : Int}

theorem exchangeTaken_step_iff (st : Nat) : (exchangeTaken st good stepped twice).step = true ↔
    twice > 8000 ∧ (st = ftFree ∨ st = ftLocked ∨ st = ftHoldover ∨ (st = ftAcquire ∧ stepped = false)) := by
  have hfar : 8000 < twice → 8000 < twice.natAbs := by omega
  by_cases h : 8000 < twice
  · by_cases he : st = ftFree ∨ st = ftLocked ∨ st = ftHoldover
    · rcases he with rfl | rfl | rfl <;> simp [exchangeTaken, h, hfar h, ftFree, ftLocked, ftHoldover, ftAcquire]
    · simp only [not_or] at he
      obtain ⟨hf, hl, hh⟩ := he
      simp [exchangeTaken, h, hf, hl, hh]
  · simp [exchangeTaken, h]

theorem exchangeTaken_free : (exchangeTaken ftFree good stepped twice).st = ftAcquire := by
  by_cases hn : twice.natAbs < 16 <;> simp [exchangeTaken, hn, ftFree, ftAcquire]

theorem exchangeTaken_locked : (exchangeTaken ftLocked good stepped twice).st = if twice.natAbs > 8000 then ftAcquire else ftLocked := by
  by_cases hf : 8000 < twice.natAbs
  · have hn : ¬ twice.natAbs < 16 := by omega
    simp [exchangeTaken, hf, hn, ftLocked, ftAcquire]
  · simp [exchangeTaken, hf, ftFree, ftLocked, ftAcquire, ftHoldover]

theorem exchangeTaken_holdover (hf : twice.natAbs > 8000) : (exchangeTaken ftHoldover good stepped twice).st = ftAcquire := by
  have hn : ¬ twice.natAbs < 16 := by omega
  have hf' : 8000 < twice.natAbs := hf
  simp [exchangeTaken, hf', hn, ftHoldover, ftAcquire]

theorem exchangeTaken_locks {st : Nat} (hst : st = ftAcquire ∨ st = ftHoldover) (hn : twice.natAbs < 16) (hgood : 15 ≤ good) :
    (exchangeTaken st good stepped twice).st = ftLocked ∧ (exchangeTaken st good stepped twice).lock = true := by
  have hf : ¬ 8000 < twice.natAbs := by omega
  have h16 : 16 ≤ good + 1 := by omega
  rcases hst with rfl | rfl <;> simp [exchangeTaken, hf, hn, hgood, ftFree, ftLocked, ftAcquire, ftHoldover]

theorem exchangeTaken_waits (hn : 16 ≤ twice.natAbs) :
    (exchangeTaken ftAcquire good stepped twice).st = ftAcquire ∧ (exchangeTaken ftAcquire good stepped twice).good = 0 := by
  have hnear : ¬ twice.natAbs < 16 := by omega
  simp [exchangeTaken, hnear, ftFree, ftLocked, ftAcquire, ftHoldover]

theorem exchangeTaken_lt (st : Nat) (hst : st < 8) : (exchangeTaken st good stepped twice).st < 8 := by
  have hstate : ∀ (c : Bool) {a b : Nat}, a < 8 → b < 8 → (if c then a else b) < 8 := fun c _ _ ha hb => by cases c <;> assumption
  exact hstate _ (by decide) (hstate _ (by decide) hst)

end

theorem exec_ftExchange (w : regsCanonical s) (t1 t2 t3 t4 : Int) (freq : BitVec 16) (hon : s.mainOn = true) (hparent : s.time.parent.isSome = true) :
      let twice := (t2 - t1) - (t4 - t3)
      let off := twice / 2
      let step := twice > 8000 ∧ (s.ftState = ftFree ∨ s.ftState = ftLocked ∨ s.ftState = ftHoldover ∨ (s.ftState = ftAcquire ∧ s.time.stepped = false))
      ∃ t, exec (.ftExchange t1 t2 t3 t4 freq) s = .next t ∧ t.fld Csr.ftStat 15 0 = freq.toNat ∧ t.time.lastExchange = s.now ∧ Frame s t [Csr.ftStat] ∧
        (step → t.ft = s.ft + BitVec.ofInt 64 (off / 4) ∧ t.time.slew = 0) ∧ (¬ step → t.ft = s.ft ∧ t.time.slew = off / 4) ∧
        (s.ftState = ftFree → t.ftState = ftAcquire) ∧
        (s.ftState = ftLocked → t.ftState = if twice.natAbs > 8000 then ftAcquire else ftLocked) ∧
        (s.ftState = ftHoldover → twice.natAbs > 8000 → t.ftState = ftAcquire) ∧
        (s.ftState = ftAcquire ∨ s.ftState = ftHoldover → twice.natAbs < 16 → 15 ≤ s.time.good → t.ftState = ftLocked ∧ Raised t 0x5C 0) ∧
        (s.ftState = ftAcquire → 16 ≤ twice.natAbs → t.ftState = ftAcquire ∧ t.time.good = 0) := by
  intro twice off step
  let x := exchangeTaken s.ftState s.time.good s.time.stepped twice
  let a : State := { s with
    ft := if x.step then s.ft + BitVec.ofInt 64 (off / 4) else s.ft
    time := { s.time with
      good := x.good
      stepped := (if s.ftState == ftFree || ((s.ftState == ftLocked || s.ftState == ftHoldover) && decide (8000 < twice.natAbs)) then false
        else s.time.stepped) || x.step
      lastExchange := s.now, slew := if x.step then 0 else off / 4, slewAt := s.now } }
  let b := a.setFld Csr.ftStat 63 61 x.st
  let c := (b.setFld Csr.ftStat 31 16 (tempCode off)).setFld Csr.ftStat 15 0 freq.toNat
  let t := if x.lock then c.raise 0x5C [BitVec.ofNat 64 s.time.best.2] else c
  have ha : Wrote [] s a := Wrote.refl.aside rfl rfl rfl rfl
  have hb : Wrote [(Csr.ftStat, 63, 61)] a b := Wrote.refl.setFld _ (by decide) (by simp)
  have hc : Wrote [(Csr.ftStat, 31, 16), (Csr.ftStat, 15, 0)] b c := (Wrote.refl.setFld _ (by decide) (by simp)).setFld _ (by decide) (by simp)
  have ht : Wrote [] c t := .ite (Wrote.refl.raise _ _) .refl
  obtain ⟨p, hp⟩ := Option.isSome_iff_exists.mp hparent
  have hexec : exec (.ftExchange t1 t2 t3 t4 freq) s = .next t := by
    show execFtExchange t1 t2 t3 t4 freq s = _
    unfold execFtExchange
    rw [hp]
    exact if_neg (by simp [hon])
  have hft : t.ft = a.ft := by
    simp only [t, apply_ite State.ft, State.raise_ft, ite_self]
    rfl
  have htime : t.time = a.time := by
    simp only [t, apply_ite State.time, State.raise_time, ite_self]
    rfl
  have hfreq : t.fld Csr.ftStat 15 0 = freq.toNat := ht.reads (s := b.setFld Csr.ftStat 31 16 (tempCode off)) (State.setFld_wf _ _ _ _ _ (hb.canonical (ha.canonical w)))
    (by decide) freq.isLt (by decide)
  have hst : t.ftState = x.st := (hc.append ht).reads (ha.canonical w) (by decide) (exchangeTaken_lt _ (Word.field_lt _ _ _)) (by decide)
  have hraised : x.lock = true → Raised t 0x5C 0 := fun hl => by
    simp only [t, if_pos hl]
    exact raised_raise _ _ _
  have hstep : x.step = true ↔ step := exchangeTaken_step_iff _
  refine ⟨t, hexec, hfreq, congrArg TimeSync.lastExchange htime, ((ha.append hb).append (hc.append ht)).frame w (by simp),
    fun h => ?_, fun h => ?_, fun h => ?_, fun h => ?_, fun h hfar => ?_, fun h hn hg => ?_, fun h hn => ?_⟩
  · exact ⟨hft.trans (if_pos (hstep.mpr h)), (congrArg TimeSync.slew htime).trans (if_pos (hstep.mpr h))⟩
  · exact ⟨hft.trans (if_neg fun k => h (hstep.mp k)), (congrArg TimeSync.slew htime).trans (if_neg fun k => h (hstep.mp k))⟩
  · rw [hst]; simp only [x, h]; exact exchangeTaken_free
  · rw [hst]; simp only [x, h]; exact exchangeTaken_locked
  · rw [hst]; simp only [x, h]; exact exchangeTaken_holdover hfar
  · obtain ⟨hlocked, hlock⟩ := exchangeTaken_locks (stepped := s.time.stepped) h hn hg
    exact ⟨hst.trans hlocked, hraised hlock⟩
  · rw [hst]; rw [htime]; simp only [a, x, h]; exact exchangeTaken_waits hn

theorem exec_ftHoldover (w : regsCanonical s) (hon : s.mainOn = true) (hst : s.ftState = ftLocked) (hlate : s.time.lastExchange + 5000000 ≤ s.now) :
    ∃ t, exec .ftHoldover s = .next t ∧ Raised t 0x5C 0 ∧ Frame s t [Csr.ftStat] ∧ t.ft = s.ft ∧
      (s.ownRoot = false → s.bestRoot.2 ≠ s.chip → t.ftState = ftHoldover) := by
  let u : State := State.setFld { s with time := { s.time with good := 0, slew := 0 } } Csr.ftStat 63 61 ftHoldover
  let v := u.raise 0x5C [BitVec.ofNat 64 s.time.best.2]
  have hu : Wrote [(Csr.ftStat, 63, 61)] s u := (Wrote.refl.time _).setFld _ (by decide) (by simp)
  have hraise : Wrote [] u v := Wrote.refl.raise _ _
  have hv := hu.append hraise
  have hexec : exec .ftHoldover s = .next v.chooseRoot := if_pos ⟨hon, hst, hlate⟩
  have hpart : v.part = s.part := State.raise_part u _ _
  have hnow : v.now = s.now := State.raise_now u _ _
  have htime : v.time = u.time := State.raise_time u _ _
  refine ⟨_, hexec, (chooseRoot_wrote v).raised (raised_raise _ _ _), (hv.append (chooseRoot_wrote v)).frame w (by simp [rootFields]),
    (chooseRoot_kept v).1.trans (State.raise_ft u _ _), fun hown hother => ?_⟩
  have hstate : v.ftState = ftHoldover :=
    hraise.reads (s := { s with time := { s.time with good := 0, slew := 0 } }) w (by decide) (by decide) (by decide)
  have hbest : v.bestRoot = s.bestRoot := hv.bestRoot w (by decide) (by decide) hpart hnow (htime ▸ rfl)
  have hnot : v.isRoot = false := by
    unfold State.isRoot
    rw [hv.ownRoot w (by decide) hpart, hbest, (hv.fabId w (by decide)).1, hown]
    simpa using hother
  rw [chooseRoot_stays (hv.canonical w) hnot (by rw [hstate]; decide), hstate]

theorem exec_ptpMessage (w : regsCanonical s) (j : Fin 8) (ptp : Word) (hroot : s.ftState = ftRoot) (hptp : (s.reg Csr.ftCtl).bit 0 = true)
    (hup : (s.port j.val).up = true) :
    ∃ t, exec (.ptpMessage j ptp) s = .next t ∧ (t.reg Csr.ftStat).bit 60 = true ∧ Frame s t [Csr.ftStat] ∧
      (s.time.ptpLocked = false → s.ft.toNat + 1000000 < ptp.toNat → t.ft = ptp ∧ t.time.slew = 0) ∧
      (s.time.ptpLocked = true ∨ ptp.toNat ≤ s.ft.toNat + 1000000 → t.ft = s.ft ∧ t.time.slew = (ptp.toNat : Int) - s.ft.toNat) := by
  let d : Int := (ptp.toNat : Int) - s.ft.toNat
  let step := !s.time.ptpLocked && decide (1000000 < d)
  let u : State := { s with
    ft := if step then ptp else s.ft
    time := { s.time with ptpLocked := true, slew := if step then 0 else d, slewAt := s.now } }
  have hu : Wrote [(Csr.ftStat, 60, 60)] s u := Wrote.refl.aside rfl rfl rfl rfl
  have ht : Wrote [(Csr.ftStat, 60, 60)] s (u.setBit Csr.ftStat 60 true) := hu.setBit _ (by decide) (by simp)
  have hexec : exec (.ptpMessage j ptp) s = .next (u.setBit Csr.ftStat 60 true) := by
    show execPtpMessage j ptp s = _
    unfold execPtpMessage
    exact if_neg (by simp [hroot, hptp, hup])
  refine ⟨_, hexec, ?_, ht.frame w (by simp), fun hfirst hahead => ?_, fun hnot => ?_⟩
  · rw [State.bit_setBit u _ _ _ _ w (by decide), if_pos rfl]
  · have hstep : step = true := by simp only [step, hfirst, d]; simp; omega
    exact ⟨if_pos hstep, if_pos hstep⟩
  · have hstep : ¬ step = true := by
      rcases hnot with h | h
      · simp [step, h]
      · simp only [step, d, Bool.and_eq_true, decide_eq_true_eq, not_and]
        omega
    exact ⟨if_neg hstep, if_neg hstep⟩

/-- Settles O56: one theorem per command. -/
theorem fabricTime : Obligations.FabricTime := fun _ w =>
  ⟨exec_ftAnnounce w, exec_rootAnnouncement w, exec_ftExchange w, exec_ftHoldover w, exec_ptpMessage w⟩

end Sys2Proof.Machine

end

section
/-! PROOFS. The power manager (R379 to R393). -/

namespace Sys2Proof.Machine

open Sys2Proof.Safety

variable {l : List RegField} {s t : State}

/-! ### Operations -/

theorem Wrote.withhold (h : Wrote l s t) (k : Nat) : Wrote l s (t.withhold k) := by
  have hshown : Csr.evtCnt (k / 16 % 16) ∈ evtRegs :=
    List.mem_cons_of_mem _ (List.mem_map_of_mem (List.mem_range.mpr (Nat.mod_lt _ (by decide))))
  exact h.trans ⟨rfl, rfl, Sent.refl _, State.setFld_wf _ _ _ _ _, fun w q hi lo ha =>
    State.fld_setFld_ne t _ _ _ _ q hi lo w (by decide) (.inl fun e => ha.1 (e ▸ hshown))⟩

theorem Wrote.syncFix (h : Wrote l s t) (hfix : (Csr.powStat, 46, 46) ∈ l) : Wrote l s t.syncFix := by
  unfold State.syncFix
  have hbit : Wrote l s (t.setBit Csr.powStat 46 (t.runningCores.all (fun n => t.fld (Csr.powCore n.val) 63 60 == 3))) := h.setBit _ (by decide) hfix
  exact .ite (hbit.raise _ _) hbit

theorem Wrote.syncHbmPause (h : Wrote l s t) (hpause : ∀ k, k < 8 → (Csr.hbmStat k, 47, 40) ∈ l) : Wrote l s t.syncHbmPause :=
  h.foldl fun _ k hk => .ite (Wrote.refl.setFld _ (by decide) (hpause k (List.mem_range.mp hk))) .refl

theorem syncHbmPause_power (s : State) : s.syncHbmPause.power = s.power := by
  unfold State.syncHbmPause
  refine List.foldlRecOn (motive := fun t : State => t.power = s.power) _ _ rfl fun t ht k _ => ?_
  split
  · exact ht
  · exact ht

/-- A mask built up from the members of a list: bit k is set when a member of index k satisfies p. -/
theorem getLsbD_mask {α : Type} (f : α → Nat) (p : α → Bool) (l : List α) (m : BitVec 32) {k : Nat} (hk : k < 32) :
    (l.foldl (fun (m : BitVec 32) a => if p a then m ||| (1#32 <<< f a) else m) m).getLsbD k = (m.getLsbD k || l.any (fun a => p a && f a == k)) := by
  induction l generalizing m with
  | nil => simp
  | cons a l ih =>
    have hbit : (1#32 <<< f a).getLsbD k = (f a == k) := by
      rw [BitVec.getLsbD_shiftLeft, BitVec.getLsbD_one]
      by_cases he : f a = k
      · simp [he, hk]
      · have hne : (f a == k) = false := by simpa using he
        rw [hne]
        by_cases hlt : k < f a
        · simp [hlt]
        · have hpos : k - f a ≠ 0 := by omega
          simp [hpos]
    rw [List.foldl_cons, ih, List.any_cons]
    cases hp : p a with
    | true => rw [if_pos rfl, BitVec.getLsbD_or, hbit, Bool.true_and, Bool.or_assoc]
    | false => rw [if_neg (by simp), Bool.false_and, Bool.false_or]

/-! ### Measures and slots -/

theorem exec_estimateUpdate (estimate : Nat) (hon : s.mainOn = true) : ∃ t, exec (.estimateUpdate estimate) s = .next t ∧ t = { s with power := { s.power with
    peakStop := decide (3300 < estimate) || (s.power.peakStop && decide (3300 ≤ estimate)) } } :=
  ⟨_, if_neg (by simp [hon]), rfl⟩

theorem exec_pauseSlot (hon : s.mainOn = true) : ∃ t, exec .pauseSlot s = .next t ∧ t = { s with power := { s.power with stopped := t.power.stopped } } ∧
    ∀ n : Fin 32, t.power.stopped.getLsbD n.val = ((s.cores[n]).run == .running &&
      (s.power.peakStop || decide ((s.now / 1000 % 64 + 64 - 2 * n.val % 64) % 64 < 64 - s.runSlots n.val))) := by
  refine ⟨_, if_neg (by simp [hon]), rfl, fun n => ?_⟩
  have hzero : (0 : BitVec 32).getLsbD n.val = false := BitVec.getLsbD_zero
  dsimp only
  rw [getLsbD_mask (fun m : Fin 32 => m.val) (fun m => s.power.peakStop || s.stoppedIn m.val (s.now / 1000 % 64)) s.runningCores 0 n.isLt, hzero,
    Bool.false_or, Bool.eq_iff_iff, List.any_eq_true]
  constructor
  · rintro ⟨m, hm, hstops⟩
    simp only [Bool.and_eq_true, beq_iff_eq] at hstops
    obtain rfl : m = n := Fin.ext hstops.2
    exact Bool.and_eq_true_iff.mpr ⟨(List.mem_filter.mp hm).2, hstops.1⟩
  · intro h
    obtain ⟨hrun, hstops⟩ := Bool.and_eq_true_iff.mp h
    exact ⟨n, List.mem_filter.mpr ⟨List.mem_finRange n, hrun⟩, Bool.and_eq_true_iff.mpr ⟨hstops, beq_self_eq_true _⟩⟩

/-- A word of three fields of 16 bits above an empty one (R477). -/
theorem fields_of_three (a b c : BitVec 16) :
    let x := Word.place a.toNat 16 48 ||| Word.place b.toNat 16 32 ||| Word.place c.toNat 16 16
    x.field 63 48 = a.toNat ∧ x.field 47 32 = b.toNat ∧ x.field 31 16 = c.toNat := by
  have hplace : ∀ (v : BitVec 16) (lo : Nat), lo + 15 < 64 → (Word.place v.toNat 16 lo).field (lo + 15) lo = v.toNat := fun v lo hlo => by
    have hv := Word.field_place v.toNat (lo + 15) lo hlo
    rw [show lo + 15 + 1 - lo = 16 by omega] at hv
    exact hv.trans (Nat.mod_eq_of_lt v.isLt)
  intro x
  refine ⟨?_, ?_, ?_⟩
  · rw [Word.field_or, Word.field_or, Word.field_place_apart _ _ 32 _ _ (by omega), Word.field_place_apart _ _ 16 _ _ (by omega), hplace a 48 (by omega)]
    simp
  · rw [Word.field_or, Word.field_or, Word.field_place_apart _ _ 48 _ _ (by omega), Word.field_place_apart _ _ 16 _ _ (by omega), hplace b 32 (by omega)]
    simp
  · rw [Word.field_or, Word.field_or, Word.field_place_apart _ _ 48 _ _ (by omega), Word.field_place_apart _ _ 32 _ _ (by omega), hplace c 16 (by omega)]
    simp

/-- What a measurement leaves of the time for which it and the estimate have agreed (R384). -/
def Power.measured (p : Power) (off measured now : Nat) : Power :=
  { p with disagree := if 12 * measured < off then p.disagree + 1 else 0, agreeSince := if 6 * measured < off then now else p.agreeSince }

/-- Measured mode begins (R384). -/
def State.entersMeasured (s : State) : State := ((s.setBit Csr.powStat 47 true).bump Csr.powCnt 47 32 1).raise 0x53 [1]

theorem entersMeasured_wrote (s : State) : Wrote [(Csr.powCnt, 47, 32)] (s.setBit Csr.powStat 47 true) s.entersMeasured :=
  (Wrote.refl.bump _ (by decide) (by simp)).raise _ _

theorem exec_powerMeasurement (w : regsCanonical s) (measured estimate : Nat) (mainv maina auxv : BitVec 16) (hon : s.mainOn = true) :
    let apart := 12 * measured < (estimate - measured + (measured - estimate)) * 100
    ∃ t, exec (.powerMeasurement measured estimate mainv maina auxv) s = .next t ∧ t.fld Csr.powStat 23 12 = min 4095 measured ∧
      t.fld Csr.powStat 11 0 = min 4095 estimate ∧ t.fld Csr.pipStat 63 48 = mainv.toNat ∧ t.fld Csr.pipStat 47 32 = maina.toNat ∧
      t.fld Csr.pipStat 31 16 = auxv.toNat ∧ t.power.disagree = (if apart then s.power.disagree + 1 else 0) ∧
      Frame s t [Csr.pipStat, Csr.powStat, Csr.powCnt] ∧
      (apart → 499 ≤ s.power.disagree → (t.reg Csr.powStat).bit 47 = true) ∧
      (apart → 499 ≤ s.power.disagree → (s.reg Csr.powStat).bit 47 = false → Raised t 0x53 0) := by
  intro apart
  let x := Word.place mainv.toNat 16 48 ||| Word.place maina.toNat 16 32 ||| Word.place auxv.toNat 16 16
  let a := s.setReg Csr.pipStat x
  let b := a.setFld Csr.powStat 23 12 (min 4095 measured)
  let c := b.setFld Csr.powStat 11 0 (min 4095 estimate)
  let p := s.power.measured (absDiff estimate measured * 100) measured s.now
  let d : State := { c with power := p }
  let enters := 500 ≤ p.disagree ∧ !(d.reg Csr.powStat).bit 47
  let t := if enters then d.entersMeasured else d
  have ha : Wrote [(Csr.pipStat, 63, 0)] s a := Wrote.refl.setReg _ (by simp)
  have hb : Wrote [(Csr.powStat, 23, 12)] a b := Wrote.refl.setFld _ (by decide) (by simp)
  have hc : Wrote [(Csr.powStat, 11, 0)] b c := Wrote.refl.setFld _ (by decide) (by simp)
  have hd : Wrote [] c d := Wrote.refl.power _
  have hset : Wrote [(Csr.powStat, 47, 47)] d (d.setBit Csr.powStat 47 true) := Wrote.refl.setBit _ (by decide) (by simp)
  have ht : Wrote [(Csr.powStat, 47, 47), (Csr.powCnt, 47, 32)] d t := .ite (hset.append (entersMeasured_wrote d)) .refl
  have wa := ha.canonical w
  have wd := hd.canonical (hc.canonical (hb.canonical wa))
  have hshown := ((hb.append hc).append (hd.append ht))
  have hpip : ∀ hi lo, t.fld Csr.pipStat hi lo = x.field hi lo := fun hi lo =>
    (hshown.fld wa ⟨by decide, by simp [Csr.pipStat, Csr.powStat, Csr.powCnt]⟩).trans
      (by unfold State.fld; rw [State.reg_setReg _ _ _ _ w, if_pos rfl])
  have hpower : t.power = p := by
    simp only [t, State.entersMeasured, apply_ite State.power, State.raise_power, State.bump_power, State.setBit_power, ite_self]
    rfl
  obtain ⟨hmain, hamps, haux⟩ := fields_of_three mainv maina auxv
  have hexec : exec (.powerMeasurement measured estimate mainv maina auxv) s = .next t := by
    show execPowerMeasurement measured estimate mainv maina auxv s = _
    unfold execPowerMeasurement
    rw [if_neg (by simp [hon])]
    exact (apply_ite Host.Outcome.next enters d.entersMeasured d).symm
  have hkept : (d.reg Csr.powStat).bit 47 = (s.reg Csr.powStat).bit 47 := ((ha.append hb).append (hc.append hd)).bit w (by decide)
  have hmany : apart → 499 ≤ s.power.disagree → 500 ≤ p.disagree := fun hapart hlong => by
    have hp : p.disagree = s.power.disagree + 1 := if_pos hapart
    omega
  refine ⟨t, hexec, ?_, ?_, (hpip _ _).trans hmain, (hpip _ _).trans hamps, (hpip _ _).trans haux, congrArg Power.disagree hpower,
    (ha.append hshown).frame w (by simp), fun hapart hlong => ?_, fun hapart hlong hout => ?_⟩
  · exact (hc.append (hd.append ht)).reads wa (by decide) (by omega) (by decide)
  · exact (hd.append ht).reads (hb.canonical wa) (by decide) (by omega) (by decide)
  · by_cases hin : (d.reg Csr.powStat).bit 47 = true
    · have hstays : t = d := if_neg fun h => absurd h.2 (by simp [hin])
      rw [hstays, hin]
    · have henters : t = d.entersMeasured := if_pos ⟨hmany hapart hlong, by simpa using hin⟩
      rw [henters, (entersMeasured_wrote d).bit (hset.canonical wd) (by decide), State.bit_setBit _ _ _ _ _ wd (by decide), if_pos rfl]
  · have henters : t = d.entersMeasured := if_pos ⟨hmany hapart hlong, by rw [hkept, hout]; rfl⟩
    rw [henters]
    exact raised_raise _ _ _

theorem exec_measuredModeExit (w : regsCanonical s) (hin : (s.reg Csr.powStat).bit 47 = true) (hlong : s.power.agreeSince + 10000000000 ≤ s.now) :
    ∃ t, exec .measuredModeExit s = .next t ∧ (t.reg Csr.powStat).bit 47 = false ∧ Raised t 0x53 0 ∧ Frame s t [Csr.powStat] := by
  let a := s.setBit Csr.powStat 47 false
  let b : State := { a with power := { a.power with disagree := 0 } }
  have ha : Wrote [(Csr.powStat, 47, 47)] s a := Wrote.refl.setBit _ (by decide) (by simp)
  have hb : Wrote [] a (b.raise 0x53 [0]) := (Wrote.refl.power _).raise _ _
  refine ⟨_, if_pos ⟨hin, hlong⟩, (hb.bit (ha.canonical w) (by decide)).trans ?_, raised_raise _ _ _, (ha.append hb).frame w (by simp)⟩
  rw [State.bit_setBit _ _ _ _ _ w (by decide), if_pos rfl]

theorem exec_calibrationComplete (w : regsCanonical s) (hon : s.mainOn = true) (hnot : s.power.calibrated = false) (hlong : 10000000000 ≤ s.power.runNs) :
    ∃ t, exec .calibrationComplete s = .next t ∧ t.power.calibrated = true ∧ t.flash.powCal = true ∧ (t.reg Csr.powStat).bit 48 = false ∧
      Raised t 0x54 0 ∧ Frame s t [Csr.powStat] := by
  let a : State := { s with power := { s.power with calibrated := true }, flash := { s.flash with powCal := true } }
  let b := a.setBit Csr.powStat 48 false
  have ha : Wrote [(Csr.powStat, 48, 48)] s a := Wrote.refl.aside rfl rfl rfl rfl
  have hb : Wrote [(Csr.powStat, 48, 48)] s b := ha.setBit _ (by decide) (by simp)
  have ht : Wrote [] b (b.raise 0x54 []) := Wrote.refl.raise _ _
  refine ⟨_, if_pos ⟨hon, by simp [hnot], hlong⟩, congrArg Power.calibrated (State.raise_power b 0x54 []), congrArg Flash.powCal (State.raise_flash b 0x54 []),
    (ht.bit (hb.canonical w) (by decide)).trans ?_, raised_raise _ _ _, (hb.append ht).frame w (by simp)⟩
  rw [State.bit_setBit _ _ _ _ _ (ha.canonical w) (by decide), if_pos rfl]

/-! ### The control interval -/

theorem bestState_le (s : State) (pred : Vector Nat 13) (top : Nat) : s.bestState pred top ≤ 12 := by
  unfold State.bestState
  split
  next p hp => exact Nat.le_of_lt_succ (List.mem_range.mp (List.mem_of_find?_eq_some hp))
  next => exact le_rfl

theorem bestDuty_le (s : State) (pred : Vector Nat 64) : s.bestDuty pred ≤ 64 := by
  unfold State.bestDuty
  split
  next i hi => exact List.mem_range.mp (List.mem_reverse.mp (List.mem_of_find?_eq_some hi))
  next => decide

/-- MODE, EQ and ALIGN take effect (R392, R393). -/
def State.modesTaken (s : State) : State :=
  let ctl := s.reg Csr.powCtl
  { s with power := { s.power with mode := ctl.bit 32, eq := ctl.bit 40, align := min 10 (ctl.field 47 44) } }

/-- The memory is withheld, or no longer (R387). -/
def State.memoryHeld (s : State) (hold : Bool) : State := State.syncHbmPause { s with power := { s.power with pausing := hold } }

theorem memoryHeld_power (s : State) (hold : Bool) : (s.memoryHeld hold).power = { s.power with pausing := hold } := syncHbmPause_power _

/-- The fields that withholding memory writes. -/
def pauseFields : List RegField := (List.range 8).map (fun k => (Csr.hbmStat k, 47, 40))

theorem memoryHeld_wrote (s : State) (hold : Bool) : Wrote pauseFields s (s.memoryHeld hold) := by
  refine Wrote.syncHbmPause ?_ fun k hk => List.mem_map_of_mem (List.mem_range.mpr hk)
  exact Wrote.refl.power _

/-- A control interval that sets the ceiling and the duty k, and withholds memory or not (R386, R387, R392). -/
def State.intervalTaken (s : State) (ceiling k : Nat) (hold : Bool) : State :=
  let was := s.fld Csr.powStat 55 49
  let s := ((s.modesTaken.setFld Csr.powStat 59 56 ceiling).setFld Csr.powStat 55 49 k).memoryHeld hold
  if k < 64 ∧ (was = 64 ∨ was = 0) then s.raise 0x51 [BitVec.ofNat 64 k] else s

theorem intervalTaken_power (s : State) (ceiling k : Nat) (hold : Bool) : (s.intervalTaken ceiling k hold).power = { s.modesTaken.power with pausing := hold } := by
  unfold State.intervalTaken
  simp only [apply_ite State.power, State.raise_power, ite_self]
  exact memoryHeld_power _ hold

theorem intervalTaken_leaves (w : regsCanonical s) {ceiling k : Nat} (hold : Bool) (hceiling : ceiling < 16) (hk : k < 128) :
    let t := s.intervalTaken ceiling k hold
    t.fld Csr.powStat 59 56 = ceiling ∧ t.fld Csr.powStat 55 49 = k ∧ (k < 64 → s.fld Csr.powStat 55 49 = 64 → Raised t 0x51 0) ∧
      Frame s t (Csr.powStat :: (List.range 8).map Csr.hbmStat) := by
  intro t
  let a := s.modesTaken
  let b := a.setFld Csr.powStat 59 56 ceiling
  let c := b.setFld Csr.powStat 55 49 k
  have ha : Wrote [] s a := Wrote.refl.power _
  have hb : Wrote [(Csr.powStat, 59, 56)] a b := Wrote.refl.setFld _ (by decide) (by simp)
  have hc : Wrote [(Csr.powStat, 55, 49)] b c := Wrote.refl.setFld _ (by decide) (by simp)
  have ht : Wrote pauseFields c t := .ite ((memoryHeld_wrote c hold).raise _ _) (memoryHeld_wrote c hold)
  refine ⟨(hc.append ht).reads (ha.canonical w) (by decide) hceiling (by decide), ht.reads (hb.canonical (ha.canonical w)) (by decide) hk (by decide),
    fun hlow hwas => ?_, ((ha.append hb).append (hc.append ht)).frame w (by decide)⟩
  simp only [t, State.intervalTaken]
  rw [if_pos ⟨hlow, .inl hwas⟩]
  exact raised_raise _ _ _

theorem exec_powerControlInterval (w : regsCanonical s) (pred : Vector Nat 13) (duty : Vector Nat 64) (eq : Fin 13) (hserving : s.serving = true) :
    let mode := (s.reg Csr.powCtl).bit 32
    let top := if mode then (if (s.reg Csr.powCtl).bit 40 then eq.val else 0) else 3
    let cur := s.fld Csr.powStat 59 56
    let best := s.bestState pred top
    let next := if best < cur then max top (cur - 1) else best
    let k := if s.target < pred[12] * 100 then s.bestDuty duty else 64
    ∃ t, exec (.powerControlInterval pred duty eq) s = .next t ∧ t.power.mode = mode ∧ t.power.eq = (s.reg Csr.powCtl).bit 40 ∧
      t.power.align = min 10 (s.fld Csr.powCtl 47 44) ∧
      t.fld Csr.powStat 59 56 = (if s.target < s.fld Csr.powStat 23 12 * 100 then min 12 (max next (cur + 1)) else next) ∧
      t.fld Csr.powStat 55 49 = k ∧ (k < 64 → s.fld Csr.powStat 55 49 = 64 → Raised t 0x51 0) ∧
      t.power.pausing = (decide (s.target < pred[12] * 100) && decide (s.target < duty[0] * 100)) ∧
      Frame s t (Csr.powStat :: (List.range 8).map Csr.hbmStat) := by
  intro mode top cur best next k
  let ceiling := if s.target < s.fld Csr.powStat 23 12 * 100 then min 12 (max next (cur + 1)) else next
  let hold := decide (s.target < pred[12] * 100) && decide (s.target < duty[0] * 100)
  have hlast : pred.toList.getD 12 0 = pred[12] := by simp [List.getD]
  have hfirst : duty.toList.getD 0 0 = duty[0] := by simp [List.getD]
  have htops : (if !mode then 3 else if (s.reg Csr.powCtl).bit 40 then eq.val else 0) = top := by cases hm : mode <;> simp [top, hm]
  have hexec : exec (.powerControlInterval pred duty eq) s = .next (s.intervalTaken ceiling k hold) := by
    have hmodel : exec (.powerControlInterval pred duty eq) s = .next (
      let top := if !mode then 3 else if (s.reg Csr.powCtl).bit 40 then eq.val else 0
      let best := s.bestState pred top
      let next := if best < cur then max top (cur - 1) else best
      let short := decide (s.target < pred.toList.getD 12 0 * 100)
      s.intervalTaken (if decide (s.target < s.fld Csr.powStat 23 12 * 100) then min 12 (max next (cur + 1)) else next) (if short then s.bestDuty duty else 64)
        (short && decide (s.target < duty.toList.getD 0 0 * 100))) := if_neg (by simp [hserving])
    rw [hmodel, htops, hlast, hfirst]
    simp only [decide_eq_true_eq]
    rfl
  have htop : top ≤ 12 := by
    have heq := eq.isLt
    simp only [top]
    split_ifs <;> omega
  have hcur : cur < 16 := Word.field_lt _ 59 56
  have hbest : best ≤ 12 := bestState_le _ _ _
  have hceiling : ceiling < 16 := by
    simp only [ceiling, next]
    split_ifs <;> omega
  have hk : k < 128 := by
    have := bestDuty_le s duty
    simp only [k]
    split_ifs <;> omega
  have hpower := intervalTaken_power s ceiling k hold
  obtain ⟨hshown, hduty, hraised, hframe⟩ := intervalTaken_leaves w hold hceiling hk
  exact ⟨_, hexec, congrArg Power.mode hpower, congrArg Power.eq hpower, congrArg Power.align hpower, hshown, hduty, hraised,
    congrArg Power.pausing hpower, hframe⟩

/-! ### P-states and droop -/

theorem wantedState_lt (s : State) (n : Nat) : s.wantedState n < 16 := by
  have hp : s.fld Csr.powStat 59 56 < 16 := Word.field_lt _ 59 56
  have ht : s.fld (Csr.powCore n) 59 56 < 16 := Word.field_lt _ 59 56
  have hd : s.fld (Csr.powCore n) 55 52 < 16 := Word.field_lt _ 55 52
  have htop : s.topState ≤ 3 := by unfold State.topState; split <;> omega
  simp only [State.wantedState, State.ceilings]
  omega

theorem exec_pstateStepDone (w : regsCanonical s) (n : Fin 32) (hon : s.mainOn = true) (hpresent : s.corePresent n.val = true) (v : Nat)
    (hne : s.fld (Csr.powCore n.val) 63 60 ≠ s.wantedState n.val) (hv : v < 16)
    (hstep : (if s.fld (Csr.powCore n.val) 63 60 < s.wantedState n.val then s.fld (Csr.powCore n.val) 63 60 + 1 else s.fld (Csr.powCore n.val) 63 60 - 1) = v) :
    ∃ t, exec (.pstateStepDone n) s = .next t ∧ t.fld (Csr.powCore n.val) 63 60 = v ∧ Frame s t [Csr.powCore n.val, Csr.powStat] := by
  have hn := n.isLt
  let u := s.setFld (Csr.powCore n.val) 63 60 v
  have hu : Wrote [(Csr.powCore n.val, 63, 60)] s u := Wrote.refl.setFld _ (by decide) (by simp)
  have ht : Wrote [(Csr.powStat, 46, 46)] u u.syncFix := Wrote.refl.syncFix (by simp)
  have hexec : exec (.pstateStepDone n) s = .next u.syncFix := by
    simp only [u, ← hstep]
    exact if_neg (by simp [hon, hpresent, hne])
  exact ⟨_, hexec, ht.reads w (by decide) hv (by simp only [apart_cons, apart_nil, Csr.powCore, Csr.powStat]; omega), (hu.append ht).frame w (by simp)⟩

/-- The core's droop ceiling falls, at the time of a droop window (R390). -/
def State.droops (s : State) (n : Fin 32) : State :=
  let o := Csr.powCore n.val
  let s := (s.setFld o 55 52 (min 12 (s.fld o 63 60 + 1))).bump Csr.powCnt 63 48 1
  { s with power := { s.power with droopAt := s.power.droopAt.set n s.now } }

/-- The event of a droop window: withheld within a second of the last one of the core (R390). -/
def State.tellsDroop (s : State) (n : Fin 32) : State :=
  let recent := (s.power.droopEventAt[n]).any (fun t => decide (s.now < t + 1000000000))
  if recent then s.withhold 0x5B
  else
    let s := { s with power := { s.power with droopEventAt := s.power.droopEventAt.set n (some s.now) } }
    s.raise 0x5B [BitVec.ofNat 64 n.val]

theorem tellsDroop_wrote (s : State) (n : Fin 32) : Wrote [] s (s.tellsDroop n) := by
  unfold State.tellsDroop
  refine .ite (Wrote.refl.withhold _) (Wrote.raise ?_ _ _)
  exact Wrote.refl.power _

theorem tellsDroop_raised {n : Fin 32} (h : s.power.droopEventAt[n] = none) : Raised (s.tellsDroop n) 0x5B 0 := by
  unfold State.tellsDroop
  rw [h]
  exact raised_raise _ _ _

theorem exec_droopDetect (w : regsCanonical s) (n : Fin 32) (hon : s.mainOn = true) (hpresent : s.corePresent n.val = true) (cycles : Nat) (excess : Bool) :
    let o := Csr.powCore n.val
    ∃ t, exec (.droopDetect n cycles excess) s = .next t ∧ t.fld o 31 0 = min (s.fld o 31 0 + cycles) (2 ^ 32 - 1) ∧
      t.fld o 55 52 = (if excess then min 12 (s.fld o 63 60 + 1) else s.fld o 55 52) ∧ Frame s t [o, Csr.powCnt] ∧
      (excess = true → s.power.droopEventAt[n] = none → Raised t 0x5B 0) := by
  intro o
  have hn := n.isLt
  let a := s.bump o 31 0 cycles
  let b := a.setFld o 55 52 (min 12 (a.fld o 63 60 + 1))
  let t := (a.droops n).tellsDroop n
  have ha : Wrote [(o, 31, 0)] s a := Wrote.refl.bump _ (by decide) (by simp)
  have hb : Wrote [(o, 55, 52)] a b := Wrote.refl.setFld _ (by decide) (by simp)
  have hd : Wrote [(Csr.powCnt, 63, 48)] b (a.droops n) := (Wrote.refl.bump 1 (by decide) (by simp)).power _
  have ht : Wrote [(Csr.powCnt, 63, 48)] b t := (hd.append (tellsDroop_wrote _ n)).mono (by simp)
  have hps : a.fld o 63 60 = s.fld o 63 60 := ha.fld w (by simp only [apart_cons, apart_nil, o, Csr.powCore]; omega)
  cases excess with
  | false =>
    refine ⟨a, if_neg (by simp [hon, hpresent]), State.fld_bump s o 31 0 cycles w (by decide), ?_, ha.frame w (by simp), fun h => absurd h (by simp)⟩
    exact ha.fld w (by simp only [apart_cons, apart_nil, o, Csr.powCore]; omega)
  | true =>
    have hexec : exec (.droopDetect n cycles true) s = .next t := by
      show execDroopDetect n cycles true s = _
      unfold execDroopDetect
      rw [if_neg (by simp [hon, hpresent])]
      exact (apply_ite Host.Outcome.next _ _ _).symm
    refine ⟨t, hexec, ?_, ?_, ((ha.append hb).append ht).frame w (by simp), fun _ hnone => tellsDroop_raised hnone⟩
    · exact (hb.append ht).counts w (by decide) (by simp only [List.cons_append, List.nil_append, apart_cons, apart_nil, o, Csr.powCore, Csr.powCnt]; omega)
    · rw [if_pos rfl, ← hps]
      exact ht.reads (ha.canonical w) (by decide) (by omega) (by simp only [apart_cons, apart_nil, o, Csr.powCore, Csr.powCnt]; omega)

theorem exec_droopCeilingRise (w : regsCanonical s) (n : Fin 32) (hon : s.mainOn = true) (hpresent : s.corePresent n.val = true)
    (hlow : s.topState < s.fld (Csr.powCore n.val) 55 52) (hlong : s.power.droopAt[n] + 10000000 ≤ s.now) :
    ∃ t, exec (.droopCeilingRise n) s = .next t ∧ t.fld (Csr.powCore n.val) 55 52 = s.fld (Csr.powCore n.val) 55 52 - 1 ∧ t.power.droopAt[n] = s.now ∧
      Frame s t [Csr.powCore n.val] := by
  let o := Csr.powCore n.val
  let u := s.setFld o 55 52 (s.fld o 55 52 - 1)
  let t : State := { u with power := { s.power with droopAt := s.power.droopAt.set n s.now } }
  have hu : Wrote [(o, 55, 52)] s u := Wrote.refl.setFld _ (by decide) (by simp)
  have ht : Wrote [] u t := Wrote.refl.power _
  have hd : s.fld o 55 52 < 16 := Word.field_lt _ 55 52
  have hn := n.isLt
  refine ⟨t, if_pos ⟨hon, hpresent, hlow, hlong⟩, ht.reads w (by decide) (by omega) (by simp only [apart_nil, o, Csr.powCore]; omega), ?_,
    (hu.append ht).frame w (by simp [o])⟩
  simp [t]

/-- Settles O54: one theorem per command. -/
theorem powerManager : Obligations.PowerManager := fun s w =>
  ⟨fun e => exec_estimateUpdate e, exec_pauseSlot, exec_powerMeasurement w, exec_measuredModeExit w, exec_calibrationComplete w, exec_powerControlInterval w,
    fun n hon hpresent =>
      have hps : s.fld (Csr.powCore n.val) 63 60 < 16 := Word.field_lt _ 63 60
      ⟨fun h => exec_pstateStepDone w n hon hpresent _ (ne_of_lt h) (lt_of_le_of_lt h (wantedState_lt s n.val)) (if_pos h),
        fun h => exec_pstateStepDone w n hon hpresent _ (ne_of_gt h) (lt_of_le_of_lt (Nat.sub_le _ _) hps) (if_neg (Nat.not_lt.mpr h.le)),
        exec_droopDetect w n hon hpresent, exec_droopCeilingRise w n hon hpresent⟩⟩

end Sys2Proof.Machine

end

section
/-! SUPPORT. What writing registers, sending and raising events leave of the rest of the state. -/

namespace Sys2Proof.Machine

open Sys2Proof.Safety

/-- The state with registers, outputs, event sinks and the ring's sequence number replaced. -/
def State.told (s : State) (r : List (Nat × Word)) (o : List Output) (k : Vector (Option Sink) 4) (n : BitVec 16) : State :=
  { s with regs := r, out := o, sinks := k, ring := { s.ring with seq := n } }

/-- From s to t registers have been written, and outputs and events sent: the register file stays canonical, what has been sent stays. -/
structure Tells (s t : State) : Prop where
  canonical : regsCanonical s → regsCanonical t
  sent : Sent s t
  shape : ∃ r o k n, t = s.told r o k n

namespace Tells

variable {s t u : State}

/-- Every part of the state that a telling leaves. -/
theorem part {α : Type} (h : Tells s t) (p : State → α) (hp : ∀ s r o k n, p (State.told s r o k n) = p s := by intros; rfl) : p t = p s := by
  obtain ⟨r, o, k, n, rfl⟩ := h.shape
  exact hp s r o k n

theorem refl : Tells s s := ⟨id, Sent.refl s, s.regs, s.out, s.sinks, s.ring.seq, rfl⟩

theorem trans (h : Tells s t) (k : Tells t u) : Tells s u := by
  refine ⟨fun w => k.canonical (h.canonical w), h.sent.trans k.sent, ?_⟩
  obtain ⟨r, o, q, n, rfl⟩ := h.shape
  obtain ⟨r', o', q', n', rfl⟩ := k.shape
  exact ⟨_, _, _, _, rfl⟩

theorem setReg (h : Tells s t) (o : Nat) (v : Word) : Tells s (t.setReg o v) :=
  h.trans ⟨State.setReg_wf t o v, Sent.refl _, (t.setReg o v).regs, t.out, t.sinks, t.ring.seq, rfl⟩

theorem setFld (h : Tells s t) (o hi lo v : Nat) : Tells s (t.setFld o hi lo v) := h.setReg _ _

theorem setBit (h : Tells s t) (o n : Nat) (b : Bool) : Tells s (t.setBit o n b) := h.setReg _ _

theorem bump (h : Tells s t) (o hi lo k : Nat) : Tells s (t.bump o hi lo k) := h.setReg _ _

theorem withhold (h : Tells s t) (k : Nat) : Tells s (t.withhold k) := h.setReg _ _

theorem emit (h : Tells s t) (x : Output) : Tells s (t.emit x) := h.trans ⟨id, fun _ hx => List.mem_cons_of_mem _ hx, t.regs, (t.emit x).out, t.sinks, t.ring.seq, rfl⟩

theorem ite {c : Prop} [Decidable c] (ht : Tells s t) (hu : Tells s u) : Tells s (if c then t else u) := by
  split
  · exact ht
  · exact hu

theorem foldl {α : Type} {f : State → α → State} {as : List α} (h : Tells s t) (hf : ∀ u, ∀ a ∈ as, Tells u (f u a)) : Tells s (as.foldl f t) :=
  h.trans (List.foldlRecOn as f refl fun u hu a ha => hu.trans (hf u a ha))

theorem ringSend (h : Tells s t) (k : Nat) (p : List Byte) : Tells s (t.ringSend k p) := by
  have hshape : ∃ r o q n, t.ringSend k p = t.told r o q n := by
    unfold State.ringSend
    split
    · exact ⟨t.regs, t.out, t.sinks, t.ring.seq, rfl⟩
    · exact ⟨t.regs, _, t.sinks, _, rfl⟩
  exact h.trans ⟨fun w => by unfold regsCanonical; rw [ringSend_regs]; exact w, ringSend_sent t k p, hshape⟩

theorem deliver (h : Tells s t) (e : EventRec) : Tells s (t.deliver e) :=
  h.trans ⟨id, fun _ hx => List.mem_cons_of_mem _ hx, t.regs, (t.deliver e).out, (t.deliver e).sinks, t.ring.seq, rfl⟩

theorem raiseOnce (h : Tells s t) (k : Nat) (j : Word) (r : List Word) : Tells s (t.raiseOnce k j r) := by
  unfold State.raiseOnce
  exact (((Tells.ite (h.ringSend _ _) h).setReg _ _).bump _ _ _ _).deliver _

theorem raiseJob (h : Tells s t) (k : Nat) (j : Word) (r : List Word) : Tells s (t.raiseJob k j r) := by
  unfold State.raiseJob
  exact .ite ((h.raiseOnce _ _ _).raiseOnce _ _ _) (h.raiseOnce _ _ _)

theorem raise (h : Tells s t) (k : Nat) (r : List Word) : Tells s (t.raise k r) := h.raiseJob k 0 r

theorem setMstate (h : Tells s t) (m : Nat) : Tells s (t.setMstate m) := by
  unfold State.setMstate
  exact .ite h ((h.setFld _ _ _ _).ringSend _ _)

end Tells

/-- Entering a module state writes MSTATE. -/
theorem Wrote.setMstate {l : List RegField} {s t : State} (h : Wrote l s t) (m : Nat) (hm : (Csr.powStat, 63, 60) ∈ l) : Wrote l s (t.setMstate m) := by
  unfold State.setMstate
  exact .ite h ((h.setFld _ (by decide) hm).ringSend _ _)

end Sys2Proof.Machine

end

section
/-! SUPPORT. The end of main power and the start of a boot (R402, R403, R423, R424, R432, R473, R487 to R489). -/

namespace Sys2Proof.Machine

open Sys2Proof.Safety

variable {l : List RegField} {s t : State}

/-! ### Main power ends -/

/-- What the end of main power clears, before registers are written (R437, R488, R489). -/
def State.mainCleared (s : State) : State :=
  { s with
    jobs := [], admissions := [], rings := [], halts := [], xfers := [], conns := []
    retained := [], acquittal := none, drills := [], outMsgs := [], outStreams := [], inStreams := [], groups := Vector.replicate 64 none
    earlyJoins := [], forming := [], groupFails := [], heldPuts := [], heldReplies := []
    portFinds := Vector.replicate 16 none, sessions := Vector.replicate 64 none, links := Vector.replicate 128 Link.idle, known := [], mem := [], poison := []
    cores := s.cores.map (fun c => if c.run = .absent then c else Core.atReset)
    ports := s.ports.map (fun p => { p with up := false })
    hull := { s.hull with swaps := Vector.replicate 2 none, queued := [], sweepPort := Vector.replicate 2 none }
    power := Power.atReset s.flash.powCal, pool := Pool.off, time := TimeSync.free
    flash := { s.flash with savedFt := s.ft, slot := match s.update with | some u => if u.target = 0 then none else s.flash.slot | none => s.flash.slot }
    update := none, resetWaits := false, resetAfterJobs := false }

theorem mainOff_tells (s : State) : Tells s.mainCleared s.mainOff := by
  unfold State.mainOff
  refine Tells.setFld (.ite (Tells.setFld ?_ _ _ _ _) ?_) _ _ _ _
  all_goals
    refine Tells.foldl (Tells.foldl (Tells.foldl .refl fun u i _ => ?_) fun u i _ => ?_) fun u j _ => ?_
    · exact .ite (.ite .refl (Tells.refl.setReg _ _)) ((Tells.ite .refl (Tells.refl.setReg _ _)).setReg _ _)
    · exact Tells.refl.setFld _ _ _ _
    · exact (Tells.refl.setFld _ _ _ _).setFld _ _ _ _

/-- Main power is gone from s to t: no job, no byte of memory and no session is left, and every core is gated or absent. -/
structure MainGone (s t : State) : Prop where
  jobs : t.jobs = []
  mem : t.mem = []
  sessions : ∀ k : Fin 64, t.sessions[k] = none
  run : ∀ n : Fin 32, (t.cores[n]).run = if (s.cores[n]).run = .absent then .absent else .gated

theorem mainOff_gone (s : State) : MainGone s s.mainOff := by
  have h := mainOff_tells s
  refine ⟨h.part State.jobs, h.part State.mem, fun k => ?_, fun n => ?_⟩
  · rw [h.part State.sessions]
    simp [State.mainCleared]
  · rw [h.part State.cores]
    simp only [State.mainCleared, Fin.getElem_fin, Vector.getElem_map]
    split
    · assumption
    · rfl

theorem MainGone.tells (h : MainGone s t) {u : State} (k : Tells t u) : MainGone s u :=
  ⟨(k.part State.jobs).trans h.jobs, (k.part State.mem).trans h.mem, fun i => by rw [k.part State.sessions]; exact h.sessions i,
    fun n => by rw [k.part State.cores]; exact h.run n⟩

/-- PWR_GOOD goes low. -/
def State.powerLow (s : State) : State := { s with pins := { s.pins with pwrGood := false } }

theorem mainDown_eq (s : State) (m : Nat) : s.mainDown m = ((s.mainOff.setFld Csr.pipStat 63 32 0).powerLow).setMstate m := rfl

/-- What main power's end leaves in the state m (R402, R488). -/
structure MainDown (s t : State) (m : Nat) : Prop where
  canonical : regsCanonical s → regsCanonical t
  gone : MainGone s t
  mstate : regsCanonical s → t.mstate = m
  pins : t.pins = { s.pins with pwrGood := false }
  flash : t.flash = s.mainCleared.flash
  health : t.health = s.health
  now : t.now = s.now

theorem mainDown_leaves (s : State) {m : Nat} (hm : m < 16) : MainDown s (s.mainDown m) m := by
  have hoff : Tells s.mainCleared (s.mainOff.setFld Csr.pipStat 63 32 0) := (mainOff_tells s).setFld _ _ _ _
  have hset : Tells (s.mainOff.setFld Csr.pipStat 63 32 0).powerLow (s.mainDown m) := by
    rw [mainDown_eq]
    exact Tells.refl.setMstate m
  have hgone : MainGone s (s.mainOff.setFld Csr.pipStat 63 32 0) := (mainOff_gone s).tells (Tells.refl.setFld _ _ _ _)
  have hlow : MainGone s (s.mainOff.setFld Csr.pipStat 63 32 0).powerLow := ⟨hgone.jobs, hgone.mem, hgone.sessions, hgone.run⟩
  refine ⟨fun w => hset.canonical (hoff.canonical w), hlow.tells hset, fun w => ?_, ?_, (hset.part State.flash).trans (hoff.part State.flash),
    (hset.part State.health).trans (hoff.part State.health), (hset.part State.now).trans (hoff.part State.now)⟩
  · rw [mainDown_eq]
    exact setMstate_mstate (s := (s.mainOff.setFld Csr.pipStat 63 32 0).powerLow) (hoff.canonical w) hm
  · rw [hset.part State.pins]
    show { (s.mainOff.setFld Csr.pipStat 63 32 0).pins with pwrGood := false } = _
    rw [hoff.part State.pins]
    rfl

/-! ### Main power comes up -/

theorem mainUp_mstate (w : regsCanonical s) : s.mainUp.mstate = mBoot :=
  setMstate_mstate (s := { s with pins := { s.pins with pwrGood := true }, boot := { s.boot with stage := 0, since := s.now } }) w (by decide)

theorem mainUp_tells (s : State) : Tells { s with pins := { s.pins with pwrGood := true }, boot := { s.boot with stage := 0, since := s.now } } s.mainUp :=
  Tells.refl.setMstate _

/-! ### The start of a boot -/

/-- Flash as a boot finds it: what was written is in force, an image half written is none, the boot is counted (R414, R430). -/
def State.flashAtBoot (s : State) : Flash :=
  let f := (applyWritten s.flash s.plan).1
  { f with slot := match s.update with | some u => if u.target = 0 then none else f.slot | none => f.slot, bootCnt := f.bootCnt + 1 }

/-- The registers as a boot starts: those kept, and the boot's cause and count (R423, R478). -/
def State.bootShown (b s : State) (f : Flash) (cause : Nat) : State :=
  let b := keptRegs.foldl (fun (t : State) o => t.setReg o (s.reg o)) b
  let b := b.setFld Csr.drlStat 63 58 0
  let b := (b.setFld Csr.fwStat 63 60 cause).setFld Csr.fwStat 31 0 f.bootCnt
  let b := (b.setFld Csr.fwStat 55 54 (min 3 f.wdf)).setFld Csr.fwStat 59 56 f.badr
  let b := if cause = 5 then b.setBit Csr.fwStat 49 true else b
  b.setFld Csr.powStat 63 60 (if s.pins.pwrGood then mBoot else if s.mstate == mTripped && cause == 1 then mTripped else mStandby)

/-- The germ loader hands over to a good image (R424, R487). -/
def State.handsOver (b : State) (slot : Option Image) (hold : Bool) : State :=
  let b := { b with boot := { b.boot with watchdog := true }, running := slot }
  if b.pins.pwrGood then b.setMstate mBoot
  else if hold then b.setMstate mTripped
  else if b.mainAllowed then b.mainUp
  else b.setMstate mStandby

/-- The state that the germ loader finds (R423, R473). -/
def State.booting (s : State) (cause : Nat) : State :=
  (s.bootBase s.flashAtBoot (applyWritten s.flash s.plan).2 cause).bootShown s s.flashAtBoot cause

theorem startBoot_eq (s : State) (cause : Nat) :
    s.startBoot cause = match slotReason s.flashAtBoot with
      | 0 => (s.booting cause).handsOver s.flashAtBoot.slot (s.mstate == mTripped && cause == 1)
      | r => (s.booting cause).enterRecovery r := by
  unfold State.startBoot State.booting State.flashAtBoot
  rcases applyWritten s.flash s.plan with ⟨f, plan⟩
  rfl

theorem startBoot_good (cause : Nat) (h : slotReason s.flashAtBoot = 0) :
    s.startBoot cause = (s.booting cause).handsOver s.flashAtBoot.slot (s.mstate == mTripped && cause == 1) := by
  rw [startBoot_eq, h]
  rfl

theorem startBoot_bad (cause : Nat) (h : slotReason s.flashAtBoot ≠ 0) : s.startBoot cause = (s.booting cause).enterRecovery (slotReason s.flashAtBoot) := by
  rw [startBoot_eq]
  split
  next h0 => exact absurd h0 h
  next => rfl

/-- What is written but not yet in force says nothing of the image in the slot. -/
theorem slotReason_flashAtBoot (h : s.update = none) : slotReason s.flashAtBoot = slotReason s.flash := by
  unfold State.flashAtBoot applyWritten
  rw [h]
  split <;> rfl

theorem flashAtBoot_slot (h : s.update = none) : s.flashAtBoot.slot = s.flash.slot := by
  unfold State.flashAtBoot applyWritten
  rw [h]
  split <;> rfl

theorem flashAtBoot_counts (s : State) : s.flashAtBoot.bootCnt = s.flash.bootCnt + 1 ∧ s.flashAtBoot.wdf = s.flash.wdf := by
  unfold State.flashAtBoot applyWritten
  split <;> exact ⟨rfl, rfl⟩

theorem imageReason_lt (i : Image) (f : Flash) : imageReason i f < 16 := by
  unfold imageReason
  split_ifs <;> omega

/-- No reason has a number above 8 (R416, R426). -/
theorem slotReason_lt (f : Flash) : slotReason f < 16 := by
  unfold slotReason
  split
  · omega
  · split
    · omega
    · exact imageReason_lt _ _

theorem bootShown_tells (b s : State) (f : Flash) (cause : Nat) : Tells b (b.bootShown s f cause) := by
  have hkept : Tells b (keptRegs.foldl (fun (t : State) o => t.setReg o (s.reg o)) b) := Tells.refl.foldl fun _ _ _ => Tells.refl.setReg _ _
  have hcause := ((((hkept.setFld Csr.drlStat 63 58 0).setFld Csr.fwStat 63 60 cause).setFld Csr.fwStat 31 0 f.bootCnt).setFld Csr.fwStat 55 54 (min 3 f.wdf)).setFld
    Csr.fwStat 59 56 f.badr
  exact (Tells.ite (hcause.setBit _ _ _) hcause).setFld _ _ _ _

/-- FW_STAT shows the cause, and MSTATE whether main power is on (R423, R424). -/
theorem bootShown_shows {b : State} (w : regsCanonical b) (s : State) (f : Flash) {cause : Nat} (hc : cause < 16) :
    (b.bootShown s f cause).fld Csr.fwStat 63 60 = cause ∧ (s.pins.pwrGood = true → (b.bootShown s f cause).mstate = mBoot) := by
  let a := (keptRegs.foldl (fun (t : State) o => t.setReg o (s.reg o)) b).setFld Csr.drlStat 63 58 0
  let c := a.setFld Csr.fwStat 63 60 cause
  let d := ((c.setFld Csr.fwStat 31 0 f.bootCnt).setFld Csr.fwStat 55 54 (min 3 f.wdf)).setFld Csr.fwStat 59 56 f.badr
  let e := if cause = 5 then d.setBit Csr.fwStat 49 true else d
  let m := if s.pins.pwrGood then mBoot else if s.mstate == mTripped && cause == 1 then mTripped else mStandby
  have ha : Tells b a := (Tells.refl.foldl fun _ _ _ => Tells.refl.setReg _ _).setFld _ _ _ _
  have hd : Wrote [(Csr.fwStat, 31, 0), (Csr.fwStat, 55, 54), (Csr.fwStat, 59, 56)] c d :=
    ((Wrote.refl.setFld _ (by decide) (by simp)).setFld _ (by decide) (by simp)).setFld _ (by decide) (by simp)
  have he : Wrote [(Csr.fwStat, 49, 49)] d e := .ite (Wrote.refl.setBit _ (by decide) (by simp)) .refl
  have hlast : Wrote [(Csr.powStat, 63, 60)] e (e.setFld Csr.powStat 63 60 m) := Wrote.refl.setFld _ (by decide) (by simp)
  refine ⟨((hd.append he).append hlast).reads (ha.canonical w) (by decide) hc (by decide), fun hgood => ?_⟩
  have hm : m = mBoot := if_pos hgood
  have we := he.canonical (hd.canonical (State.setFld_wf _ _ _ _ _ (ha.canonical w)))
  show (e.setFld Csr.powStat 63 60 m).fld Csr.powStat 63 60 = mBoot
  rw [State.fld_setFld _ _ _ _ _ we (by decide), hm]
  rfl

/-- A state b that boots: t is it with other boot progress, image, PWR_GOOD and flash, once what is told of them has been told. -/
def BootsTo (b t : State) (f : Flash) (run : Option Image) (q : Boot) (g : Bool) : Prop :=
  Tells { b with flash := f, running := run, boot := q, pins := { b.pins with pwrGood := g } } t

/-- The germ loader hands over: the image runs under the watchdog (R424, R426). -/
theorem handsOver_leaves (b : State) (slot : Option Image) (hold : Bool) :
    ∃ q g, q.watchdog = true ∧ q.cause = b.boot.cause ∧ (b.boot.stage = 0 → q.stage = 0) ∧ BootsTo b (b.handsOver slot hold) b.flash slot q g ∧
      (b.mainAllowed = true → hold = false → g = true) ∧ (regsCanonical b → b.pins.pwrGood = true ∨ (hold = false ∧ b.mainAllowed = true) →
        (b.handsOver slot hold).mstate = mBoot) := by
  have hallowed : (State.mainAllowed { b with boot := { b.boot with watchdog := true }, running := slot }) = b.mainAllowed := rfl
  unfold State.handsOver
  dsimp only
  rw [hallowed]
  split
  next hgood =>
    refine ⟨{ b.boot with watchdog := true }, b.pins.pwrGood, rfl, rfl, id, Tells.refl.setMstate _, fun _ _ => hgood, fun w _ => ?_⟩
    exact setMstate_mstate (s := { b with boot := { b.boot with watchdog := true }, running := slot }) w (by decide)
  next hgood =>
    split
    next hhold =>
      exact ⟨{ b.boot with watchdog := true }, b.pins.pwrGood, rfl, rfl, id, Tells.refl.setMstate _, fun _ h => absurd h (by simp [hhold]),
        fun _ h => absurd h (by simp [hgood, hhold])⟩
    next hhold =>
      split
      next hmay =>
        have htells := mainUp_tells { b with boot := { b.boot with watchdog := true }, running := slot }
        refine ⟨{ b.boot with watchdog := true, stage := 0, since := b.now }, true, rfl, rfl, fun _ => rfl, htells, fun _ _ => rfl, fun w _ => ?_⟩
        exact mainUp_mstate (s := { b with boot := { b.boot with watchdog := true }, running := slot }) w
      next hmay =>
        exact ⟨{ b.boot with watchdog := true }, b.pins.pwrGood, rfl, rfl, id, Tells.refl.setMstate _, fun h => absurd h hmay,
          fun _ h => absurd h (by simp [hgood, hmay])⟩

theorem handsOver_wrote (b : State) (slot : Option Image) (hold : Bool) : Wrote [(Csr.powStat, 63, 60)] b (b.handsOver slot hold) := by
  unfold State.handsOver State.mainUp
  refine .ite (Wrote.setMstate ?_ _ (by simp)) (.ite (Wrote.setMstate ?_ _ (by simp)) (.ite (Wrote.setMstate ?_ _ (by simp)) (Wrote.setMstate ?_ _ (by simp))))
  all_goals exact Wrote.refl.aside rfl rfl rfl rfl

/-- Recovery is decided (R432). -/
theorem enterRecovery_leaves (b : State) {reason : Nat} (hr : reason < 16) :
    ∃ q g, q.recovering = true ∧ q.cause = b.boot.cause ∧ q.stage = b.boot.stage ∧
      BootsTo b (b.enterRecovery reason) { b.flash with badr := reason } none q g ∧
      Raised (b.enterRecovery reason) 0x71 0 ∧ Raised (b.enterRecovery reason) 0x72 0 ∧
      (regsCanonical b → (b.enterRecovery reason).fld Csr.fwStat 59 56 = reason) ∧
      Wrote [(Csr.fwStat, 59, 56), (Csr.fwStat, 49, 49), (Csr.powStat, 63, 60)] b (b.enterRecovery reason) := by
  let q : Boot := { b.boot with recovering := true, port := 0, waitSec := 0, waiting := false }
  let a : State := { b with flash := { b.flash with badr := reason }, running := none, boot := q, pins := { b.pins with pwrGood := b.pins.pwrGood || b.mayRecover } }
  let c := ((a.setFld Csr.fwStat 59 56 reason).setBit Csr.fwStat 49 true).setMstate mBoot
  have ha : Wrote [(Csr.fwStat, 59, 56)] b a := Wrote.refl.aside rfl rfl rfl rfl
  have hset : Wrote [(Csr.fwStat, 59, 56)] b (a.setFld Csr.fwStat 59 56 reason) := ha.setFld _ (by decide) (by simp)
  have hc : Wrote [(Csr.fwStat, 49, 49), (Csr.powStat, 63, 60)] (a.setFld Csr.fwStat 59 56 reason) c :=
    (Wrote.refl.setBit _ (by decide) (by simp)).setMstate _ (by simp)
  have htold : Wrote [(Csr.fwStat, 49, 49), (Csr.powStat, 63, 60)] (a.setFld Csr.fwStat 59 56 reason) (b.enterRecovery reason) := (hc.raise _ _).raise _ _
  have hsecond : Wrote [] (c.raise 0x71 [BitVec.ofNat 64 reason]) (b.enterRecovery reason) := Wrote.refl.raise _ _
  refine ⟨q, b.pins.pwrGood || b.mayRecover, rfl, rfl, rfl, ?_, hsecond.raised (raised_raise _ _ _), raised_raise _ _ _, fun w => ?_, (hset.append htold).mono (by simp)⟩
  · exact ((((Tells.refl (s := a)).setFld _ _ _ _).setBit _ _ _).setMstate _).raise _ _ |>.raise _ _
  · exact htold.reads (ha.canonical w) (by decide) hr (by decide)

/-- What a boot leaves whatever the image (R423, R473). -/
structure Booted (s t : State) (cause : Nat) : Prop where
  canonical : regsCanonical t
  sent : Sent s t
  jobs : t.jobs = []
  mem : t.mem = []
  sessions : ∀ k : Fin 64, t.sessions[k] = none
  begun : t.boot.cause = cause
  stage : t.boot.stage = 0
  shown : t.fld Csr.fwStat 63 60 = cause
  bootCnt : t.flash.bootCnt = s.flash.bootCnt + 1
  wdf : t.flash.wdf = s.flash.wdf
  slot : s.update = none → t.flash.slot = s.flash.slot
  ft : t.ft = s.ft
  pins : ∃ g, t.pins = { s.pins with pwrGood := g }

theorem bootBase_canonical (s : State) (f : Flash) (plan : Option Plan) (cause : Nat) : regsCanonical (s.bootBase f plan cause) := rfl

theorem bootsTo_booted {b t : State} {f g : Flash} {plan : Option Plan} {cause : Nat} {run : Option Image} {q : Boot} {good : Bool}
    (hb : Tells (s.bootBase f plan cause) b) (h : BootsTo b t g run q good) (hq : q.cause = cause) (hstage : q.stage = 0) (hshown : t.fld Csr.fwStat 63 60 = cause)
    (hcnt : g.bootCnt = s.flash.bootCnt + 1) (hwdf : g.wdf = s.flash.wdf) (hslot : s.update = none → g.slot = s.flash.slot) : Booted s t cause := by
  have hcan := hb.canonical (bootBase_canonical s f plan cause)
  refine ⟨h.canonical hcan, Sent.trans hb.sent h.sent, (h.part State.jobs).trans (hb.part State.jobs), (h.part State.mem).trans (hb.part State.mem), fun k => ?_,
    (congrArg Boot.cause (h.part State.boot)).trans hq, (congrArg Boot.stage (h.part State.boot)).trans hstage, hshown,
    (congrArg Flash.bootCnt (h.part State.flash)).trans hcnt, (congrArg Flash.wdf (h.part State.flash)).trans hwdf,
    fun hu => (congrArg Flash.slot (h.part State.flash)).trans (hslot hu), (h.part State.ft).trans (hb.part State.ft), good, ?_⟩
  · rw [h.part State.sessions]
    show b.sessions[k] = none
    rw [hb.part State.sessions]
    simp [State.bootBase, State.reset]
  · rw [h.part State.pins]
    show { b.pins with pwrGood := good } = _
    rw [hb.part State.pins]
    rfl

section

variable {cause : Nat}

theorem booting_tells (s : State) (cause : Nat) : Tells (s.bootBase s.flashAtBoot (applyWritten s.flash s.plan).2 cause) (s.booting cause) :=
  bootShown_tells _ _ _ _

theorem booting_canonical (s : State) (cause : Nat) : regsCanonical (s.booting cause) := (booting_tells s cause).canonical (bootBase_canonical _ _ _ _)

theorem booting_shows (s : State) (hc : cause < 16) :
    (s.booting cause).fld Csr.fwStat 63 60 = cause ∧ (s.pins.pwrGood = true → (s.booting cause).mstate = mBoot) :=
  bootShown_shows (bootBase_canonical _ _ _ _) s _ hc

theorem startBoot_booted (s : State) (hc : cause < 16) : Booted s (s.startBoot cause) cause := by
  have hb := booting_tells s cause
  have hflash : (s.booting cause).flash = s.flashAtBoot := hb.part State.flash
  have hboot : (s.booting cause).boot = (s.bootBase s.flashAtBoot (applyWritten s.flash s.plan).2 cause).boot := hb.part State.boot
  have hcause : (s.booting cause).boot.cause = cause := by rw [hboot]; rfl
  have hstage : (s.booting cause).boot.stage = 0 := by rw [hboot]; rfl
  obtain ⟨hcnt, hwdf⟩ := flashAtBoot_counts s
  by_cases hgood : slotReason s.flashAtBoot = 0
  · rw [startBoot_good cause hgood]
    obtain ⟨q, g, -, hq, hq0, hto, -, -⟩ := handsOver_leaves (s.booting cause) s.flashAtBoot.slot (s.mstate == mTripped && cause == 1)
    rw [hflash] at hto
    refine bootsTo_booted hb hto (hq.trans hcause) (hq0 hstage) ?_ hcnt hwdf flashAtBoot_slot
    exact ((handsOver_wrote _ _ _).fld (booting_canonical s cause) (by decide)).trans (booting_shows s hc).1
  · rw [startBoot_bad cause hgood]
    obtain ⟨q, g, -, hq, hq0, hto, -, -, -, hwrote⟩ := enterRecovery_leaves (s.booting cause) (slotReason_lt s.flashAtBoot)
    refine bootsTo_booted hb hto (hq.trans hcause) (hq0.trans hstage) ?_ ?_ ?_ ?_
    · exact (hwrote.fld (booting_canonical s cause) (by decide)).trans (booting_shows s hc).1
    · rw [hflash]; exact hcnt
    · rw [hflash]; exact hwdf
    · rw [hflash]; exact flashAtBoot_slot

theorem booting_pins (s : State) (cause : Nat) : (s.booting cause).pins = s.pins := (booting_tells s cause).part State.pins

/-- A boot from a good image (R416, R424). -/
theorem startBoot_runs (hu : s.update = none) (h : slotReason s.flash = 0) :
    (s.startBoot cause).running = s.flash.slot ∧ (s.startBoot cause).boot.watchdog = true ∧ (s.pins.pwrGood = true → (s.startBoot cause).mstate = mBoot) := by
  rw [startBoot_good cause ((slotReason_flashAtBoot hu).trans h)]
  obtain ⟨q, g, hq, -, -, hto, -, hup⟩ := handsOver_leaves (s.booting cause) s.flashAtBoot.slot (s.mstate == mTripped && cause == 1)
  refine ⟨(hto.part State.running).trans (flashAtBoot_slot hu), (congrArg Boot.watchdog (hto.part State.boot)).trans hq, fun hgood => ?_⟩
  exact hup (booting_canonical s cause) (.inl (by rw [booting_pins]; exact hgood))

/-- Main power starts with a boot when nothing holds it off (R403, R487). -/
theorem startBoot_powers (hu : s.update = none) (h : slotReason s.flash = 0) (hmay : s.mainAllowed = true) (hhold : (s.mstate == mTripped && cause == 1) = false) :
    (s.startBoot cause).pins.pwrGood = true ∧ (s.startBoot cause).mstate = mBoot := by
  have hallowed : (s.booting cause).mainAllowed = true := by
    unfold State.mainAllowed
    rw [booting_pins]
    exact hmay
  rw [startBoot_good cause ((slotReason_flashAtBoot hu).trans h), hhold]
  obtain ⟨q, g, -, -, -, hto, hg, hup⟩ := handsOver_leaves (s.booting cause) s.flashAtBoot.slot false
  exact ⟨(congrArg Pins.pwrGood (hto.part State.pins)).trans (hg hallowed rfl), hup (booting_canonical s cause) (.inr ⟨rfl, hallowed⟩)⟩

/-- Recovery begins without a good image (R416, R432). -/
theorem startBoot_recovers (hu : s.update = none) (h : slotReason s.flash ≠ 0) :
    (s.startBoot cause).running = none ∧ (s.startBoot cause).boot.recovering = true ∧ Raised (s.startBoot cause) 0x71 0 ∧
      Raised (s.startBoot cause) 0x72 0 ∧ (s.startBoot cause).fld Csr.fwStat 59 56 = slotReason s.flash := by
  have hsame := slotReason_flashAtBoot hu
  rw [startBoot_bad cause (by rw [hsame]; exact h), hsame]
  obtain ⟨q, g, hq, -, -, hto, hfirst, hsecond, hreason, -⟩ := enterRecovery_leaves (s.booting cause) (slotReason_lt s.flash)
  exact ⟨hto.part State.running, (congrArg Boot.recovering (hto.part State.boot)).trans hq, hfirst, hsecond, hreason (booting_canonical s cause)⟩

theorem startBoot_begun (hu : s.update = none) (hc : cause < 16) : BootBegun s (s.startBoot cause) cause := by
  have h := startBoot_booted s hc
  exact ⟨h.begun, h.bootCnt, h.shown, h.stage, h.jobs, h.mem, h.sessions, startBoot_runs hu, startBoot_recovers hu⟩

/-- The beginning of a boot speaks of flash and PWR_GOOD before it alone. -/
theorem begun_congr {u : State} (h : BootBegun s t cause) (hf : u.flash = s.flash) (hp : u.pins.pwrGood = s.pins.pwrGood) : BootBegun u t cause := by
  unfold BootBegun
  rw [hf, hp]
  exact h

end

end Sys2Proof.Machine

end

section
/-! PROOFS. Power and reset pins (R402, R409, R423, R427, R483 to R489, R498). -/

namespace Sys2Proof.Machine

open Sys2Proof.Safety

variable {s t : State}

/-! ### Auxiliary power -/

/-- Pip runs, before its boot (R409, R483). -/
def State.auxApplied (s : State) (slot : BitVec 6) (elapsed : Nat) : State :=
  let s : State := { s with
    pins := { s.pins with aux := true, slotId := slot, pwrGood := false, thermTrip := s.flash.held }
    ft := if s.flash.calOk then s.flash.savedFt + BitVec.ofNat 64 elapsed else 0
    ring := { s.ring with heardAt := s.now } }
  s.setReg Csr.pipUptime 0

theorem auxApplied_kept (s : State) (slot : BitVec 6) (elapsed : Nat) : let u := s.auxApplied slot elapsed
    u.flash = s.flash ∧ u.update = s.update ∧ u.pins = { s.pins with aux := true, slotId := slot, pwrGood := false, thermTrip := s.flash.held } :=
  ⟨rfl, rfl, rfl⟩

theorem exec_auxPowerApplied (slot : BitVec 6) (elapsed : Nat) (hoff : s.pins.aux = false) : exec (.auxPowerApplied slot elapsed) s =
    .next (if s.pins.resetLow then (s.auxApplied slot elapsed).setMstate mStandby else (s.auxApplied slot elapsed).startBoot 0) :=
  if_neg (by simp [hoff])

theorem auxPowerApplied_boots (slot : BitVec 6) (elapsed : Nat) (hoff : s.pins.aux = false) (hu : s.update = none) (hreset : s.pins.resetLow = false) :
    ∃ t, exec (.auxPowerApplied slot elapsed) s = .next t ∧ t.pins.aux = true ∧ t.pins.slotId = slot ∧
      t.ft = (if s.flash.calOk then s.flash.savedFt + BitVec.ofNat 64 elapsed else 0) ∧
      BootBegun { s with pins := { s.pins with pwrGood := false } } t 0 ∧
      (slotReason s.flash = 0 → s.pins.mainIn = true → s.pins.mainEn = true → s.pins.needEdge = false → t.pins.pwrGood = true ∧ t.mstate = mBoot) := by
  let u := s.auxApplied slot elapsed
  have hboot := startBoot_booted u (cause := 0) (by decide)
  obtain ⟨g, hpins⟩ := hboot.pins
  obtain ⟨hflash, hupdate, hup⟩ := auxApplied_kept s slot elapsed
  have hnone : u.update = none := hupdate.trans hu
  rw [hup] at hpins
  refine ⟨u.startBoot 0, ?_, congrArg Pins.aux hpins, congrArg Pins.slotId hpins, hboot.ft,
    begun_congr (startBoot_begun hnone (by decide)) hflash.symm (congrArg Pins.pwrGood hup).symm, fun hgood hin hen hedge => ?_⟩
  · rw [exec_auxPowerApplied slot elapsed hoff, if_neg (by simp [hreset])]
  · refine startBoot_powers hnone (hflash ▸ hgood) ?_ (by simp)
    unfold State.mainAllowed
    simp only [u, hup, hin, hen, hedge, hreset]
    rfl

theorem auxPowerApplied_waits (w : regsCanonical s) (slot : BitVec 6) (elapsed : Nat) (hoff : s.pins.aux = false) (hreset : s.pins.resetLow = true) :
    ∃ t, exec (.auxPowerApplied slot elapsed) s = .next t ∧ t.pins.aux = true ∧ t.mstate = mStandby ∧ t.running = s.running := by
  let u := s.auxApplied slot elapsed
  have hu : regsCanonical u := State.setReg_wf _ _ _ w
  have ht : Tells u (u.setMstate mStandby) := Tells.refl.setMstate _
  refine ⟨u.setMstate mStandby, ?_, congrArg Pins.aux (ht.part State.pins), setMstate_mstate hu (by decide), ht.part State.running⟩
  rw [exec_auxPowerApplied slot elapsed hoff, if_pos hreset]

/-- What auxiliary power's loss leaves of pins and boot (R427, R498). -/
def State.auxLost (s : State) : State :=
  { s with pins := { s.pins with aux := false, pwrGood := false, thermTrip := false }, running := none
           boot := { s.boot with recovering := false, watchdog := false, waiting := false } }

/-- Main power is gone also from a state that differs in pins and boot alone. -/
theorem MainGone.aside (h : MainGone s t) {u : State} (hj : u.jobs = t.jobs) (hm : u.mem = t.mem) (hs : u.sessions = t.sessions) (hc : u.cores = t.cores) :
    MainGone s u :=
  ⟨hj.trans h.jobs, hm.trans h.mem, fun k => by rw [hs]; exact h.sessions k, fun n => by rw [hc]; exact h.run n⟩

theorem MainGone.and (h : MainGone s t) : t.jobs = [] ∧ t.mem = [] ∧ (∀ k : Fin 64, t.sessions[k] = none) ∧
    (∀ n : Fin 32, (t.cores[n]).run = if (s.cores[n]).run = .absent then .absent else .gated) :=
  ⟨h.jobs, h.mem, h.sessions, h.run⟩

/-- MSTATE reads as it was written last. -/
theorem mstate_setFld (w : regsCanonical s) {m : Nat} (hm : m < 16) : (s.setFld Csr.powStat 63 60 m).mstate = m :=
  (State.fld_setFld _ _ _ _ _ w (by decide)).trans (Nat.mod_eq_of_lt hm)

theorem auxLost_leaves (s : State) (m : Nat) : let t := s.auxLost.setFld Csr.powStat 63 60 m
    t.jobs = s.jobs ∧ t.mem = s.mem ∧ t.sessions = s.sessions ∧ t.cores = s.cores ∧ t.flash = s.flash :=
  ⟨rfl, rfl, rfl, rfl, rfl⟩

theorem exec_auxPowerLost (w : regsCanonical s) (haux : s.pins.aux = true) :
    ∃ t, exec .auxPowerLost s = .next t ∧ t.mstate = mOff ∧ t.pins.aux = false ∧ t.pins.pwrGood = false ∧ t.running = none ∧
      (t.jobs = [] ∧ t.mem = [] ∧ (∀ k : Fin 64, t.sessions[k] = none) ∧
        (∀ n : Fin 32, (t.cores[n]).run = if (s.cores[n]).run = .absent then .absent else .gated)) ∧ t.flash.savedFt = s.ft := by
  let u := s.mainOff.setReg Csr.pipStat 0
  have hu : Tells s.mainCleared u := (mainOff_tells s).setReg _ _
  obtain ⟨hj, hm, hs, hc, hf⟩ := auxLost_leaves u mOff
  refine ⟨u.auxLost.setFld Csr.powStat 63 60 mOff, if_neg (by simp [haux]), mstate_setFld (s := u.auxLost) (hu.canonical w) (by decide), rfl, rfl, rfl,
    (((mainOff_gone s).tells (Tells.refl.setReg _ _)).aside hj hm hs hc).and, ?_⟩
  rw [hf, hu.part State.flash]
  rfl

/-! ### Main power -/

theorem tryMain_starts {u : State} (w : regsCanonical u) (hmay : u.mainAllowed = true) (hoff : u.pins.pwrGood = false) (hrec : u.boot.recovering = false)
    (hst : u.mstate = mStandby) (hrun : u.running.isSome = true) :
    u.tryMain.mstate = mBoot ∧ u.tryMain.pins.pwrGood = true ∧ u.tryMain.boot.stage = 0 ∧ u.tryMain.boot.since = u.now ∧ u.tryMain.running = u.running := by
  have hup : u.tryMain = u.mainUp := by
    unfold State.tryMain
    rw [if_neg (by simp [hmay, hoff]), if_neg (by simp [hrec]), if_neg (by rw [hst]; decide), if_pos ⟨hst, hrun⟩]
  have ht := mainUp_tells u
  rw [hup]
  exact ⟨mainUp_mstate w, congrArg Pins.pwrGood (ht.part State.pins), congrArg Boot.stage (ht.part State.boot), congrArg Boot.since (ht.part State.boot),
    ht.part State.running⟩

/-- Main power may start (R424, R487). -/
def MayStart (s : State) : Prop :=
  s.pins.aux = true ∧ s.pins.resetLow = false ∧ s.pins.pwrGood = false ∧ s.boot.recovering = false ∧ s.mstate = mStandby ∧ s.running.isSome = true

theorem exec_mainEnHigh (w : regsCanonical s) (h : MayStart s) (hin : s.pins.mainIn = true) (hen : s.pins.mainEn = false) :
    ∃ t, exec .mainEnHigh s = .next t ∧ t.mstate = mBoot ∧ t.pins.pwrGood = true ∧ t.boot.stage = 0 ∧ t.boot.since = s.now ∧ t.running = s.running := by
  obtain ⟨haux, hreset, hoff, hrec, hst, hrun⟩ := h
  let u : State := { s with pins := { s.pins with mainEn := true, needEdge := s.pins.needEdge && !s.pins.mainIn } }
  exact ⟨u.tryMain, if_neg (by simp [hen]), tryMain_starts (u := u) w (by simp [u, State.mainAllowed, haux, hreset, hin]) hoff hrec hst hrun⟩

theorem exec_mainInputInRange (w : regsCanonical s) (h : MayStart s) (hen : s.pins.mainEn = true) (hedge : s.pins.needEdge = false) :
    ∃ t, exec .mainInputInRange s = .next t ∧ t.mstate = mBoot ∧ t.pins.pwrGood = true ∧ t.boot.stage = 0 ∧ t.boot.since = s.now ∧ t.running = s.running := by
  obtain ⟨haux, hreset, hoff, hrec, hst, hrun⟩ := h
  let u : State := { s with pins := { s.pins with mainIn := true } }
  exact ⟨u.tryMain, rfl, tryMain_starts (u := u) w (by simp [u, State.mainAllowed, haux, hreset, hen, hedge]) hoff hrec hst hrun⟩

/-- An input with which main power is lost: the state with the pins p (R485, R488). -/
theorem losePower_leaves (w : regsCanonical s) (p : Pins) (hgood : p.pwrGood = true) :
    let t := State.losePower { s with pins := p }
    t.pins = { p with pwrGood := false } ∧ t.mstate = mStandby ∧ t.pins.pwrGood = false ∧
      (t.jobs = [] ∧ t.mem = [] ∧ (∀ k : Fin 64, t.sessions[k] = none) ∧
        (∀ n : Fin 32, (t.cores[n]).run = if (s.cores[n]).run = .absent then .absent else .gated)) ∧ t.flash.savedFt = s.ft := by
  have h := mainDown_leaves { s with pins := p } (m := mStandby) (by decide)
  have hdown : State.losePower { s with pins := p } = State.mainDown { s with pins := p } mStandby := if_pos hgood
  intro t
  simp only [t, hdown]
  exact ⟨h.pins, h.mstate w, congrArg Pins.pwrGood h.pins, h.gone.and, congrArg Flash.savedFt h.flash⟩

/-! ### RESET_N -/

/-- The module held in reset, in the state m (R489). -/
def State.heldInReset (s : State) (m : Nat) : State :=
  { s with running := none, boot := { s.boot with recovering := false, watchdog := false, waiting := false } }.setFld Csr.powStat 63 60 m

theorem heldInReset_leaves (s : State) (m : Nat) : (s.heldInReset m).pins = s.pins ∧ (s.heldInReset m).running = none ∧
    (s.heldInReset m).jobs = s.jobs ∧ (s.heldInReset m).mem = s.mem ∧ (s.heldInReset m).sessions = s.sessions ∧ (s.heldInReset m).cores = s.cores :=
  ⟨rfl, rfl, rfl, rfl, rfl, rfl⟩

theorem exec_resetNLow (w : regsCanonical s) (haux : s.pins.aux = true) (hhigh : s.pins.resetLow = false) :
    ∃ t, exec .resetNLow s = .next t ∧ t.pins.resetLow = true ∧ t.pins.pwrGood = s.pins.pwrGood ∧ t.running = none ∧
      (t.jobs = [] ∧ t.mem = [] ∧ (∀ k : Fin 64, t.sessions[k] = none) ∧
        (∀ n : Fin 32, (t.cores[n]).run = if (s.cores[n]).run = .absent then .absent else .gated)) ∧
      t.mstate = (if s.pins.pwrGood then mBoot else if s.mstate = mTripped then mTripped else mStandby) := by
  let m := if s.pins.pwrGood then mBoot else if s.mstate = mTripped then mTripped else mStandby
  let u : State := { s with pins := { s.pins with resetLow := true } }
  have hm : m < 16 := by
    simp only [m]
    split
    · decide
    · split <;> decide
  have hoff := mainOff_tells u
  have hgone : MainGone s u.mainOff := ⟨(mainOff_gone u).jobs, (mainOff_gone u).mem, (mainOff_gone u).sessions, (mainOff_gone u).run⟩
  obtain ⟨hp, hr, hj, hmem, hs, hc⟩ := heldInReset_leaves u.mainOff m
  have hpins : (u.mainOff.heldInReset m).pins = { s.pins with resetLow := true } := hp.trans (hoff.part State.pins)
  have hexec : exec .resetNLow s = .next (u.mainOff.heldInReset m) := by
    show execResetNLow s = _
    unfold execResetNLow
    rw [if_neg (by simp [hhigh])]
    exact if_neg (by simp [haux])
  exact ⟨_, hexec, congrArg Pins.resetLow hpins, (congrArg Pins.pwrGood hpins :), hr, (hgone.aside hj hmem hs hc).and, mstate_setFld
    (s := { u.mainOff with running := none, boot := { u.mainOff.boot with recovering := false, watchdog := false, waiting := false } }) (hoff.canonical w) hm⟩

theorem exec_resetNRelease (haux : s.pins.aux = true) (hlow : s.pins.resetLow = true) (hu : s.update = none) :
    ∃ t, exec .resetNRelease s = .next t ∧ t.pins.resetLow = false ∧ BootBegun s t 1 := by
  let u : State := { s with pins := { s.pins with resetLow := false } }
  obtain ⟨g, hpins⟩ := (startBoot_booted u (cause := 1) (by decide)).pins
  have hexec : exec .resetNRelease s = .next (u.startBoot 1) := by
    show execResetNRelease s = _
    unfold execResetNRelease
    rw [if_neg (by simp [hlow])]
    exact congrArg Host.Outcome.next (if_pos haux)
  exact ⟨_, hexec, congrArg Pins.resetLow hpins, startBoot_begun (s := u) hu (by decide)⟩

/-- Settles O57: one theorem per edge. -/
theorem powerAndResetPins : Obligations.PowerAndResetPins := fun s w =>
  ⟨fun slot elapsed hoff hu => ⟨auxPowerApplied_boots slot elapsed hoff hu, auxPowerApplied_waits w slot elapsed hoff⟩, exec_auxPowerLost w,
    exec_mainEnHigh w, exec_mainInputInRange w,
    fun hgood =>
      ⟨let ⟨hpins, h⟩ := losePower_leaves w { s.pins with mainEn := false } hgood; ⟨_, rfl, congrArg Pins.mainEn hpins, h⟩,
      let ⟨hpins, h⟩ := losePower_leaves w { s.pins with mainIn := false } hgood; ⟨_, rfl, congrArg Pins.mainIn hpins, h⟩,
      let ⟨hpins, h⟩ := losePower_leaves w { s.pins with mainIn := false, needEdge := true } hgood
      ⟨_, rfl, congrArg Pins.mainIn hpins, congrArg Pins.needEdge hpins, h⟩⟩,
    fun hoff => congrArg Host.Outcome.next (if_neg (by simp [hoff])), exec_resetNLow w, exec_resetNRelease⟩

end Sys2Proof.Machine

end

section
/-! PROOFS. Power pools (R394 to R397). -/

namespace Sys2Proof.Machine

open Sys2Proof.Safety

variable {l : List RegField} {s t : State}

/-! ### Budget and block -/

/-- The budget b is set, before it is shown. -/
def State.budgeted (s : State) (b : Option Nat) : State := { s with power := { s.power with budget := b } }

theorem setBudget_eq (s : State) (b : Option Nat) : s.setBudget b =
    let u := (s.budgeted b).setFld Csr.powStat 35 24 (s.budgeted b).budgetNow
    if u.budgetNow = s.budgetNow then u else u.raise 0x50 [BitVec.ofNat 64 u.budgetNow] := rfl

theorem setBudget_tells (s : State) (b : Option Nat) : Tells (s.budgeted b) (s.setBudget b) := by
  rw [setBudget_eq]
  exact .ite (Tells.refl.setFld _ _ _ _) ((Tells.refl.setFld _ _ _ _).raise _ _)

theorem setBudget_follows (s : State) (b : Option Nat) : Wrote [] ((s.budgeted b).setFld Csr.powStat 35 24 (s.budgeted b).budgetNow) (s.setBudget b) := by
  rw [setBudget_eq]
  exact .ite .refl (Wrote.refl.raise _ _)

theorem Wrote.setBudget (h : Wrote l s t) (b : Option Nat) (hb : (Csr.powStat, 35, 24) ∈ l) : Wrote l s (t.setBudget b) := by
  have hset : Wrote l s ((t.budgeted b).setFld Csr.powStat 35 24 (t.budgeted b).budgetNow) := Wrote.setFld (h.power _) _ (by decide) hb
  exact hset.trans ((setBudget_follows t b).mono (by simp))

theorem setBudget_shows (w : regsCanonical s) (b : Nat) : (s.setBudget (some b)).fld Csr.powStat 35 24 = b % 2 ^ 12 :=
  ((setBudget_follows s (some b)).fld (State.setFld_wf (s.budgeted (some b)) _ _ _ _ w) (by decide)).trans
    (State.fld_setFld (s.budgeted (some b)) _ _ _ _ w (by decide))

/-- The chips of the block on the own row or column rest on FAB_ID and POOL_CTL. -/
theorem Wrote.blockLine (h : Wrote l s t) (w : regsCanonical s) (hid : Apart l Csr.fabId 63 0) (hctl : Apart l Csr.poolCtl 63 0) (row : Bool) :
    t.blockLine row = s.blockLine row := by
  unfold State.blockLine State.inBlock State.fld
  rw [(h.fabId w hid).1, (h.fabId w hid).2, h.reg w hctl]

theorem reports {as : List Nat} {c : Nat} (s : State) (m : PoolMsg) (hc : c ∈ as) :
    Output.poolReport c m ∈ (as.foldl (fun (t : State) c => t.emit (.poolReport c m)) s).out :=
  (foldl_reaches (I := fun _ : State => True) (P := fun t : State => Output.poolReport c m ∈ t.out) (fun _ _ _ _ => trivial)
    (fun _ _ _ _ h => List.mem_cons_of_mem _ h) (fun _ _ => List.mem_cons_self) hc trivial).2

theorem reports_wrote (as : List Nat) (s : State) (m : PoolMsg) : Wrote [] s (as.foldl (fun (t : State) c => t.emit (.poolReport c m)) s) :=
  Wrote.refl.foldl fun _ _ _ => Wrote.refl.emit _

theorem reports_tells (as : List Nat) (s : State) (m : PoolMsg) : Tells s (as.foldl (fun (t : State) c => t.emit (.poolReport c m)) s) :=
  Tells.refl.foldl fun _ _ _ => Tells.refl.emit _

/-! ### An epoch -/

/-- The other members, an epoch older (R397). -/
def Pool.aged (p : Pool) (chip : Nat) : List PoolMember :=
  (p.members.filter (fun m => m.chip != chip)).map (fun (m : PoolMember) => { m with missed := if m.arrived then 0 else m.missed + 1, arrived := false })

/-- Nothing has been heard of any other member for ten epochs (R397). -/
def Pool.silent (p : Pool) (chip : Nat) : Bool :=
  !(p.members.filter (fun m => m.chip != chip)).isEmpty && ((p.aged chip).filter (fun m => decide (m.missed < 10))).isEmpty

/-- The own record of the last epoch. -/
def Pool.mine (p : Pool) (chip : Nat) : Option PoolMember := p.members.find? (fun m => m.chip == chip)

/-- The own cap has changed since the last epoch. -/
def Pool.changed (p : Pool) (chip cap : Nat) : Bool := decide (p.base ≠ cap) && (p.mine chip).isSome

/-- Every budget returns to its base cap (R397). -/
def Pool.resets (p : Pool) (chip cap : Nat) : Bool := p.changed chip cap || !p.excluded.isEmpty || p.silent chip

/-- The budget that takes force (R395 to R397). -/
def Pool.next (p : Pool) (chip cap : Nat) : Nat := if p.resets chip cap || (p.mine chip).isNone then cap else p.budget

/-- The pool's record as the epoch begins. -/
def Pool.epochal (p : Pool) (chip cap : Nat) : Pool :=
  { p with
    members := ((p.aged chip).filter (fun m => decide (m.missed < 10))).map (fun (m : PoolMember) => if p.resets chip cap then { m with b := m.base } else m)
    budget := p.next chip cap, base := cap
    excluded := ((p.aged chip).filter (fun m => decide (10 ≤ m.missed))).map (fun (m : PoolMember) => m.chip), runCycles := 0, waitCycles := 0 }

/-- Members that left, or a change of caps, are told (R397). -/
def State.tellsEpoch (s : State) (p : Pool) (chip cap : Nat) : State :=
  if !((p.aged chip).filter (fun m => decide (10 ≤ m.missed))).isEmpty || p.changed chip cap || p.silent chip then
    s.raise 0x59 [BitVec.ofNat 64 ((p.aged chip).filter (fun m => decide (10 ≤ m.missed))).length]
  else s

/-- The pool's record alone is replaced. -/
def State.pooled (s : State) (p : Pool) : State := { s with pool := p }

/-- The budget that the epoch begins with is in force. -/
def State.epochBegun (s : State) (cap : Nat) : State :=
  ((s.pooled (s.pool.epochal s.chip cap)).tellsEpoch s.pool s.chip cap).setBudget (some (s.pool.next s.chip cap))

/-- This chip's report. -/
def State.ownReport (s : State) (w budget cap : Nat) : PoolMsg := { chip := BitVec.ofNat 16 s.chip, w := w, b := budget, base := cap, hash := s.poolHash }

/-- POOL_STAT at the epoch. -/
def State.epochShown (s : State) (w : Nat) : State :=
  let s : State := s.setFld Csr.poolStat 42 32 w
  if s.fld Csr.poolStat 63 61 = 2 then s else s.setFld Csr.poolStat 63 61 1

theorem exec_poolEpoch_eq (hon : s.mainOn = true) (hin : s.inPool = true) (hst : s.fld Csr.poolStat 63 61 ≠ 3) :
    let cap := s.fld Csr.powCtl 15 0
    let u := s.epochBegun cap
    let m := u.ownReport s.pool.wait (s.pool.next s.chip cap) cap
    let v := (u.pooled (u.pool.take m)).epochShown s.pool.wait
    exec .poolEpoch s = .next ((v.blockLine true ++ v.blockLine false).foldl (fun (t : State) c => t.emit (.poolReport c m)) v) := by
  show execPoolEpoch s = _
  unfold execPoolEpoch
  dsimp only
  rw [if_neg (by simp [hon]), if_neg (by simp [hin]), if_neg hst]
  rfl

theorem epochBegun_wrote (s : State) (cap : Nat) : Wrote [(Csr.powStat, 35, 24)] s (s.epochBegun cap) := by
  unfold State.epochBegun State.tellsEpoch
  refine Wrote.setBudget (.ite (Wrote.raise ?_ _ _) ?_) _ (by simp)
  · exact Wrote.refl.aside rfl rfl rfl rfl
  · exact Wrote.refl.aside rfl rfl rfl rfl

theorem tellsEpoch_tells (s : State) (p : Pool) (chip cap : Nat) : Tells s (s.tellsEpoch p chip cap) := .ite (Tells.refl.raise _ _) .refl

theorem epochBegun_leaves (s : State) (cap : Nat) : (s.epochBegun cap).pool = s.pool.epochal s.chip cap ∧
    (s.epochBegun cap).power.budget = some (s.pool.next s.chip cap) := by
  have htold := tellsEpoch_tells (s.pooled (s.pool.epochal s.chip cap)) s.pool s.chip cap
  have hset := setBudget_tells ((s.pooled (s.pool.epochal s.chip cap)).tellsEpoch s.pool s.chip cap) (some (s.pool.next s.chip cap))
  exact ⟨(hset.part State.pool).trans (htold.part State.pool), congrArg Power.budget (hset.part State.power)⟩

theorem epochBegun_shows (w : regsCanonical s) (cap : Nat) : (s.epochBegun cap).fld Csr.powStat 35 24 = s.pool.next s.chip cap % 2 ^ 12 :=
  setBudget_shows ((tellsEpoch_tells (s.pooled (s.pool.epochal s.chip cap)) s.pool s.chip cap).canonical w) _

theorem epochShown_wrote (s : State) (w : Nat) : Wrote [(Csr.poolStat, 42, 32), (Csr.poolStat, 63, 61)] s (s.epochShown w) := by
  have hw : Wrote [(Csr.poolStat, 42, 32), (Csr.poolStat, 63, 61)] s (s.setFld Csr.poolStat 42 32 w) := Wrote.refl.setFld _ (by decide) (by simp)
  exact .ite hw (hw.setFld _ (by decide) (by simp))

theorem epochShown_tells (s : State) (w : Nat) : Tells s (s.epochShown w) :=
  .ite (Tells.refl.setFld _ _ _ _) ((Tells.refl.setFld _ _ _ _).setFld _ _ _ _)

/-- The budget computed for the epoch takes force when the caps stand and another member has reported. -/
theorem next_of_heard {p : Pool} {chip cap : Nat} {y : PoolMember} (hmine : p.mine chip = some y) (hbase : p.base = cap) (hall : p.excluded = [])
    {z : PoolMember} (hz : z ∈ p.members) (hother : z.chip ≠ chip) (harrived : z.arrived = true) : p.next chip cap = p.budget := by
  have hleft : { z with missed := 0, arrived := false } ∈ (p.aged chip).filter (fun m => decide (m.missed < 10)) := by
    refine List.mem_filter.mpr ⟨List.mem_map.mpr ⟨z, List.mem_filter.mpr ⟨hz, by simpa using hother⟩, by simp [harrived]⟩, by simp⟩
  have hsilent : p.silent chip = false := by
    unfold Pool.silent
    rw [List.isEmpty_eq_false_iff.mpr (List.ne_nil_of_mem hleft), Bool.and_false]
  have hresets : p.resets chip cap = false := by simp [Pool.resets, Pool.changed, hbase, hall, hsilent]
  simp [Pool.next, hresets, hmine]

theorem exec_poolEpoch (w : regsCanonical s) (hon : s.mainOn = true) (hin : s.inPool = true) (hst : s.fld Csr.poolStat 63 61 ≠ 3) :
    let cap := s.fld Csr.powCtl 15 0
    ∃ t m, exec .poolEpoch s = .next t ∧ (∀ c ∈ s.blockLine true ++ s.blockLine false, Output.poolReport c m ∈ t.out) ∧ m.chip = BitVec.ofNat 16 s.chip ∧
      m.base = cap ∧ m.w = s.pool.wait ∧ m.hash = s.poolHash ∧ t.power.budget = some m.b ∧ t.fld Csr.powStat 35 24 = m.b % 2 ^ 12 ∧ t.pool.runCycles = 0 ∧
      (s.pool.members.find? (fun y => y.chip == s.chip) = none → m.b = cap) ∧
      (∀ y, s.pool.members.find? (fun y => y.chip == s.chip) = some y → s.pool.base = cap → s.pool.excluded = [] →
        (∃ z ∈ s.pool.members, z.chip ≠ s.chip ∧ z.arrived = true) → m.b = s.pool.budget) ∧
      Frame s t [Csr.powStat, Csr.poolStat] := by
  intro cap
  let u := s.epochBegun cap
  let m := u.ownReport s.pool.wait (s.pool.next s.chip cap) cap
  let v := (u.pooled (u.pool.take m)).epochShown s.pool.wait
  let t := (v.blockLine true ++ v.blockLine false).foldl (fun (t : State) c => t.emit (.poolReport c m)) v
  have hu : Wrote [(Csr.powStat, 35, 24)] s u := epochBegun_wrote s cap
  have hp : Wrote [] u (u.pooled (u.pool.take m)) := Wrote.refl.pool _
  have hv : Wrote [(Csr.poolStat, 42, 32), (Csr.poolStat, 63, 61)] u v := hp.append (epochShown_wrote _ _)
  have ht : Wrote [] v t := reports_wrote _ _ _
  have hvt : Tells (u.pooled (u.pool.take m)) t := (epochShown_tells _ _).trans (reports_tells _ _ _)
  obtain ⟨hpool, hbudget⟩ := epochBegun_leaves s cap
  refine ⟨t, m, exec_poolEpoch_eq hon hin hst, fun c hc => ?_, congrArg (BitVec.ofNat 16) (hu.fabId w (by decide)).1, rfl, rfl, ?_, ?_, ?_, ?_, fun hnone => ?_,
    fun y hmine hbase hall ⟨z, hz, hother, harrived⟩ => next_of_heard hmine hbase hall hz hother harrived, ((hu.append hv).append ht).frame w (by simp)⟩
  · refine reports v m ?_
    rw [(hu.append hv).blockLine w (by decide) (by decide), (hu.append hv).blockLine w (by decide) (by decide)]
    exact hc
  · show u.poolHash = s.poolHash
    unfold State.poolHash
    rw [hu.reg w (by decide)]
  · exact (congrArg Power.budget (hvt.part State.power)).trans hbudget
  · exact ((hv.append ht).fld (hu.canonical w) (by decide)).trans (epochBegun_shows w cap)
  · rw [hvt.part State.pool]
    exact congrArg Pool.runCycles hpool
  · show s.pool.next s.chip cap = cap
    have hmine : s.pool.mine s.chip = none := hnone
    simp [Pool.next, hmine]

/-! ### Reports -/

/-- A report of the own row goes on along the own column (R395). -/
def State.passesOn (s : State) (m : PoolMsg) : State :=
  if chipY m.chip.toNat = chipY s.chip then (s.blockLine false).foldl (fun (t : State) c => t.emit (.poolReport c m)) s else s

theorem passesOn_wrote (s : State) (m : PoolMsg) : Wrote [] s (s.passesOn m) := .ite (reports_wrote _ _ _) .refl

theorem passesOn_tells (s : State) (m : PoolMsg) : Tells s (s.passesOn m) := .ite (reports_tells _ _ _) .refl

theorem passesOn_out {m : PoolMsg} {c : Nat} (hrow : chipY m.chip.toNat = chipY s.chip) (hc : c ∈ s.blockLine false) :
    Output.poolReport c m ∈ (s.passesOn m).out := by
  unfold State.passesOn
  rw [if_pos hrow]
  exact reports s m hc

/-- A member is excluded until the next epoch (R397). -/
def Pool.exclude (p : Pool) (chip : Nat) : Pool := { p with members := p.members.filter (fun x => x.chip != chip), excluded := chip :: p.excluded }

theorem exec_poolReport_eq (m : PoolMsg) (hin : s.inPool = true) (hblock : s.inBlock m.chip.toNat = true) : exec (.poolReport m) s = .next (State.passesOn
    (if s.pool.members.any (fun x => x.chip == m.chip.toNat && x.base != m.base) then
      (s.pooled (s.pool.exclude m.chip.toNat)).raise 0x59 [BitVec.ofNat 64 m.chip.toNat] else s.pooled (s.pool.take m)) m) := by
  show execPoolReport m s = _
  unfold execPoolReport
  dsimp only
  rw [if_neg (by simp [hin, hblock])]
  exact (apply_ite Host.Outcome.next _ _ _).symm

theorem exec_poolReport_takes (w : regsCanonical s) (m : PoolMsg) (hin : s.inPool = true) (hblock : s.inBlock m.chip.toNat = true)
    (hsame : ∀ y ∈ s.pool.members, y.chip = m.chip.toNat → y.base = m.base) :
    ∃ t, exec (.poolReport m) s = .next t ∧
      { chip := m.chip.toNat, w := m.w, b := m.b, base := m.base, hash := m.hash, missed := 0, arrived := true } ∈ t.pool.members ∧
      (chipY m.chip.toNat = chipY s.chip → ∀ c ∈ s.blockLine false, Output.poolReport c m ∈ t.out) ∧ Frame s t [] := by
  let u := s.pooled (s.pool.take m)
  have hu : Wrote [] s u := Wrote.refl.pool _
  have hexec : exec (.poolReport m) s = .next (u.passesOn m) := by
    rw [exec_poolReport_eq m hin hblock, if_neg (by simpa using hsame)]
  refine ⟨_, hexec, ?_, fun hrow c hc => passesOn_out (s := u) hrow hc, (hu.append (passesOn_wrote u m)).frame w (by simp)⟩
  rw [(passesOn_tells u m).part State.pool]
  exact List.mem_append_right _ List.mem_cons_self

theorem exec_poolReport_excludes (w : regsCanonical s) (m : PoolMsg) (hin : s.inPool = true) (hblock : s.inBlock m.chip.toNat = true)
    (hother : ∃ y ∈ s.pool.members, y.chip = m.chip.toNat ∧ y.base ≠ m.base) :
    ∃ t, exec (.poolReport m) s = .next t ∧ Raised t 0x59 0 ∧ m.chip.toNat ∈ t.pool.excluded ∧ (∀ y ∈ t.pool.members, y.chip ≠ m.chip.toNat) ∧ Frame s t [] := by
  let u := s.pooled (s.pool.exclude m.chip.toNat)
  let v := u.raise 0x59 [BitVec.ofNat 64 m.chip.toNat]
  have hu : Wrote [] s u := Wrote.refl.pool _
  have hv : Wrote [] s v := hu.raise _ _
  have ht : Tells u (v.passesOn m) := (Tells.refl.raise _ _).trans (passesOn_tells v m)
  have hexec : exec (.poolReport m) s = .next (v.passesOn m) := by
    rw [exec_poolReport_eq m hin hblock, if_pos (by simpa using hother)]
  refine ⟨_, hexec, (passesOn_wrote v m).raised (raised_raise _ _ _), ?_, ?_, (hv.append (passesOn_wrote v m)).frame w (by simp)⟩
  · rw [ht.part State.pool]
    exact List.mem_cons_self
  · rw [ht.part State.pool]
    intro y hy
    simpa using (List.mem_filter.mp hy).2

/-! ### Budgets -/

/-- The member of lowest chip ID of a list that holds one. -/
def lowestOf (here : List PoolMember) : PoolMember :=
  here.foldl (fun (b : PoolMember) m => if m.chip < b.chip then m else b)
    (here.headD { chip := 0, w := 0, b := 0, base := 0, hash := 0, missed := 0, arrived := false })

theorem lowestOf_mem {here : List PoolMember} (h : here ≠ []) : lowestOf here ∈ here := by
  refine List.foldlRecOn (motive := fun b => b ∈ here) here _ ?_ fun b hb m hm => ?_
  · cases here with
    | nil => exact absurd rfl h
    | cons m l => exact List.mem_cons_self
  · split
    · exact hm
    · exact hb

/-- Members heard and budgets computed are counted (R395). -/
def State.poolCounted (s : State) (n : Nat) : State := (s.setFld Csr.poolStat 60 48 n).bump Csr.poolStat 31 0 1

/-- The budgets of the next epoch (R396). -/
def State.poolComputed (s : State) : State :=
  let members := poolBudgets (s.fld Csr.poolCtl 11 0) (s.fld Csr.poolCtl 23 12) s.pool.members
  let mine := match members.find? (fun m => m.chip == s.chip) with | some m => m.b | none => s.pool.budget
  (s.pooled { s.pool with members := members, budget := mine }).setFld Csr.poolStat 63 61 2

theorem exec_poolBudgetCompute_eq (hin : s.inPool = true) (hhere : s.pool.members.filter (fun y => y.arrived) ≠ []) :
    let here := s.pool.members.filter (fun y => y.arrived)
    let u := s.poolCounted here.length
    exec .poolBudgetCompute s = if here.any (fun m => m.hash != (lowestOf here).hash)
      then .next ((u.leavePool 3).raise 0x59 [BitVec.ofNat 64 (lowestOf here).chip])
      else .next (if u.fld Csr.poolStat 63 61 = 2 then u.poolComputed else u.poolComputed.raise 0x59 [0]) :=
  if_neg (by simpa [hin] using hhere)

theorem poolCounted_wrote (s : State) (n : Nat) : Wrote [(Csr.poolStat, 31, 0)] (s.setFld Csr.poolStat 60 48 n) (s.poolCounted n) :=
  Wrote.refl.bump _ (by decide) (by simp)

theorem exec_poolBudgetCompute_agrees (w : regsCanonical s) (hin : s.inPool = true) (hhere : s.pool.members.filter (fun y => y.arrived) ≠ [])
    (hfew : (s.pool.members.filter (fun y => y.arrived)).length < 2 ^ 13)
    (hsame : ∀ a ∈ s.pool.members.filter (fun y => y.arrived), ∀ b ∈ s.pool.members.filter (fun y => y.arrived), a.hash = b.hash) :
    ∃ t, exec .poolBudgetCompute s = .next t ∧ t.fld Csr.poolStat 63 61 = 2 ∧
      t.fld Csr.poolStat 60 48 = (s.pool.members.filter (fun y => y.arrived)).length ∧
      t.pool.members = poolBudgets (s.fld Csr.poolCtl 11 0) (s.fld Csr.poolCtl 23 12) s.pool.members ∧
      (∀ y, t.pool.members.find? (fun y => y.chip == s.chip) = some y → t.pool.budget = y.b) ∧ Frame s t [Csr.poolStat] := by
  let here := s.pool.members.filter (fun y => y.arrived)
  let u := s.poolCounted here.length
  let members := poolBudgets (u.fld Csr.poolCtl 11 0) (u.fld Csr.poolCtl 23 12) u.pool.members
  let mine := match members.find? (fun m => m.chip == u.chip) with | some m => m.b | none => u.pool.budget
  let v := u.pooled { u.pool with members := members, budget := mine }
  let t := if u.fld Csr.poolStat 63 61 = 2 then u.poolComputed else u.poolComputed.raise 0x59 [0]
  have hlen : Wrote [(Csr.poolStat, 60, 48)] s (s.setFld Csr.poolStat 60 48 here.length) := Wrote.refl.setFld _ (by decide) (by simp)
  have hu : Wrote [(Csr.poolStat, 31, 0)] (s.setFld Csr.poolStat 60 48 here.length) u := poolCounted_wrote s _
  have hsu := hlen.append hu
  have hv : Wrote [] u v := Wrote.refl.pool _
  have hset : Wrote [(Csr.poolStat, 63, 61)] v (v.setFld Csr.poolStat 63 61 2) := Wrote.refl.setFld _ (by decide) (by simp)
  have ht : Wrote [] (v.setFld Csr.poolStat 63 61 2) t := .ite .refl (Wrote.refl.raise _ _)
  have htells : Tells v t := .ite (Tells.refl.setFld _ _ _ _) ((Tells.refl.setFld _ _ _ _).raise _ _)
  have hcount : Tells s u := (Tells.refl.setFld _ _ _ _).bump _ _ _ _
  have hexec : exec .poolBudgetCompute s = .next t := by
    rw [exec_poolBudgetCompute_eq hin hhere, if_neg]
    simp only [List.any_eq_true, bne_iff_ne, not_exists, not_and, not_not]
    exact fun a ha => hsame a ha _ (lowestOf_mem hhere)
  have hmembers : t.pool.members = members := congrArg Pool.members (htells.part State.pool)
  have hbudget : t.pool.budget = mine := congrArg Pool.budget (htells.part State.pool)
  have hchip : u.chip = s.chip := (hsu.fabId w (by decide)).1
  refine ⟨t, hexec, ?_, ?_, ?_, fun y hy => ?_, (hsu.append ((hv.append hset).append ht)).frame w (by simp)⟩
  · exact ht.reads (hv.canonical (hsu.canonical w)) (by decide) (by decide) (by decide)
  · exact (hu.append ((hv.append hset).append ht)).reads w (by decide) hfew (by decide)
  · rw [hmembers]
    simp only [members]
    rw [hsu.fld w (by decide), hsu.fld w (by decide), hcount.part State.pool]
  · rw [hmembers, ← hchip] at hy
    rw [hbudget]
    simp only [mine]
    rw [hy]

theorem leavePool_leaves (s : State) (st : Nat) : (s.leavePool st).pool.members = [] ∧ (s.leavePool st).power.budget = none := by
  have h := setBudget_tells { s with pool := { s.pool with members := [], excluded := [] } } none
  exact ⟨congrArg Pool.members (h.part State.pool), congrArg Power.budget (h.part State.power)⟩

theorem leavePool_wrote (s : State) (st : Nat) : Wrote [(Csr.powStat, 35, 24), (Csr.poolStat, 63, 61)] s (s.leavePool st) := by
  unfold State.leavePool
  refine Wrote.setFld (Wrote.setBudget ?_ _ (by simp)) _ (by decide) (by simp)
  exact Wrote.refl.pool _

theorem leavePool_shows (w : regsCanonical s) {st : Nat} (hst : st < 8) : (s.leavePool st).fld Csr.poolStat 63 61 = st := by
  have hb : Wrote [(Csr.powStat, 35, 24)] s (({ s with pool := { s.pool with members := [], excluded := [] } } : State).setBudget none) := by
    refine Wrote.setBudget ?_ _ (by simp)
    exact Wrote.refl.pool _
  exact (State.fld_setFld _ _ _ _ _ (hb.canonical w) (by decide)).trans (Nat.mod_eq_of_lt hst)

theorem exec_poolBudgetCompute_differs (w : regsCanonical s) (hin : s.inPool = true) (hhere : s.pool.members.filter (fun y => y.arrived) ≠ [])
    (hother : ∃ a ∈ s.pool.members.filter (fun y => y.arrived), ∃ b ∈ s.pool.members.filter (fun y => y.arrived), a.hash ≠ b.hash) :
    ∃ t, exec .poolBudgetCompute s = .next t ∧ t.fld Csr.poolStat 63 61 = 3 ∧ t.pool.members = [] ∧ t.power.budget = none ∧ Raised t 0x59 0 ∧
      Frame s t [Csr.poolStat, Csr.powStat] := by
  let here := s.pool.members.filter (fun y => y.arrived)
  let u := s.poolCounted here.length
  let v := u.leavePool 3
  have hu : Wrote [(Csr.poolStat, 60, 48), (Csr.poolStat, 31, 0)] s u := (Wrote.refl.setFld _ (by decide) (by simp)).bump _ (by decide) (by simp)
  have hv := leavePool_wrote u 3
  have ht : Wrote [] v (v.raise 0x59 [BitVec.ofNat 64 (lowestOf here).chip]) := Wrote.refl.raise _ _
  have htells : Tells v (v.raise 0x59 [BitVec.ofNat 64 (lowestOf here).chip]) := Tells.refl.raise _ _
  have hdiffer : here.any (fun m => m.hash != (lowestOf here).hash) = true := by
    obtain ⟨a, ha, b, hb, hne⟩ := hother
    simp only [List.any_eq_true, bne_iff_ne]
    by_cases hal : a.hash = (lowestOf here).hash
    · exact ⟨b, hb, fun hbl => hne (hal.trans hbl.symm)⟩
    · exact ⟨a, ha, hal⟩
  have hexec : exec .poolBudgetCompute s = .next (v.raise 0x59 [BitVec.ofNat 64 (lowestOf here).chip]) := by
    rw [exec_poolBudgetCompute_eq hin hhere]
    exact if_pos hdiffer
  obtain ⟨hmembers, hbudget⟩ := leavePool_leaves u 3
  exact ⟨_, hexec, (ht.fld (hv.canonical (hu.canonical w)) (by decide)).trans (leavePool_shows (hu.canonical w) (by decide)),
    (congrArg Pool.members (htells.part State.pool)).trans hmembers, (congrArg Power.budget (htells.part State.power)).trans hbudget,
    raised_raise _ _ _, ((hu.append hv).append ht).frame w (by simp)⟩

end Sys2Proof.Machine

end

section
/-! PROOFS. Temperature samples and thermal shutdown (R398, R402, R403). -/

namespace Sys2Proof.Machine

open Sys2Proof.Safety

variable {l : List RegField} {s t : State}

/-- The power manager's record may be replaced before or after a telling. -/
theorem Tells.power (h : Tells s t) (p : Power) : Tells { s with power := p } { t with power := p } := by
  refine ⟨h.canonical, h.sent, ?_⟩
  obtain ⟨r, o, k, n, rfl⟩ := h.shape
  exact ⟨r, o, k, n, rfl⟩

theorem Wrote.mstate (h : Wrote l s t) (w : regsCanonical s) (ha : Apart l Csr.powStat 63 60) : t.mstate = s.mstate := h.fld w ha

theorem Wrote.serving (h : Wrote l s t) (w : regsCanonical s) (ha : Apart l Csr.powStat 63 60) : t.serving = s.serving := by
  unfold State.serving
  rw [h.mstate w ha]

theorem Wrote.mainOn (h : Wrote l s t) (w : regsCanonical s) (ha : Apart l Csr.powStat 63 60) : t.mainOn = s.mainOn := by
  unfold State.mainOn
  rw [h.mstate w ha, h.serving w ha]

/-! ### Readings -/

/-- A reading in range is read back as it was (R398). -/
theorem toInt_tempCode {v : Int} (hlo : -32768 ≤ v) (hhi : v ≤ 32767) : (BitVec.ofNat 16 (tempCode v)).toInt = v := by
  have hclamp : max (-32768) (min 32767 v) = v := by omega
  unfold tempCode
  rw [hclamp, BitVec.ofNat_toNat, BitVec.setWidth_eq, BitVec.toInt_ofInt]
  exact Int.bmod_eq_of_le (by omega) (by omega)

theorem tempCode_lt (v : Int) : tempCode v < 2 ^ 16 := BitVec.isLt _

/-- The higher of a site's valid sensors (R398). -/
def higher (a b : Option Int) : Option Int :=
  match a, b with
  | some x, some y => some (max x y)
  | some x, none => some x
  | none, y => y

/-- The site's register after a sample (R398). -/
def State.siteRead (s : State) (site val : Nat) (t : Int) : State :=
  let o := Csr.thmSens site
  let peak := max (BitVec.ofNat 16 (s.fld o 39 24)).toInt t
  ((s.setFld o 63 62 val).setFld o 15 0 (tempCode t)).setFld o 39 24 (tempCode peak)

/-- The stack's register shows its temperature (R242). -/
def State.stackRead (s : State) (site : Nat) (t : Int) : State :=
  if 32 ≤ site ∧ site < 40 ∧ s.stackPresent (site - 32) then
    s.setFld (Csr.hbmStat (site - 32)) 63 56 (max 0 (min 255 (t / 16))).toNat
  else s

/-- The inlet has left its range of temperature. -/
def inletOutside (site : Nat) (t : Int) : Bool := site == 55 && (decide (t < 240) || decide (640 < t))

/-- The power manager's record alone is replaced. -/
def State.powered (s : State) (p : Power) : State := { s with power := p }

/-- The power manager keeps whether the inlet is out of its range. -/
def State.inletNoted (s : State) (site : Nat) (t : Int) : State :=
  if site = 55 then s.powered { s.power with inletOut := inletOutside site t } else s

/-- The event of an inlet that leaves its range. -/
def State.tellsInlet (s : State) (left : Bool) (t : Int) : State := if left then s.raise 0x5E [BitVec.ofNat 64 (tempCode t)] else s

/-- What the power manager keeps of a site at 110 °C or above (R402). -/
def Power.heat (p : Power) (site : Nat) (t : Int) : Power :=
  { p with hot := (p.hot.filter (fun i => i != site)) ++ (if decide (1760 ≤ t) then [site] else []) }

/-- A site has been sampled, and the inlet's range is told. -/
def State.sampledInlet (s : State) (site val : Nat) (t : Int) : State :=
  let u := (s.siteRead site val t).stackRead site t
  (u.inletNoted site t).tellsInlet (inletOutside site t && !u.power.inletOut) t

/-- A site has been sampled. -/
def State.sampled (s : State) (site val : Nat) (t : Int) : State :=
  let v := s.sampledInlet site val t
  v.powered (v.power.heat site t)

theorem siteRead_tells (s : State) (site val : Nat) (t : Int) : Tells s (s.siteRead site val t) :=
  ((Tells.refl.setFld _ _ _ _).setFld _ _ _ _).setFld _ _ _ _

theorem stackRead_tells (s : State) (site : Nat) (t : Int) : Tells s (s.stackRead site t) := .ite (Tells.refl.setFld _ _ _ _) .refl

theorem inletNoted_eq (s : State) (site : Nat) (t : Int) :
    s.inletNoted site t = s.powered (if site = 55 then { s.power with inletOut := inletOutside site t } else s.power) := by
  unfold State.inletNoted
  split <;> rfl

theorem tellsInlet_tells (s : State) (left : Bool) (t : Int) : Tells s (s.tellsInlet left t) := .ite (Tells.refl.raise _ _) .refl

/-- A sample leaves everything but what the power manager keeps of the inlet. -/
theorem sampledInlet_tells (s : State) (site val : Nat) (t : Int) :
    Tells (s.powered (if site = 55 then { s.power with inletOut := inletOutside site t } else s.power)) (s.sampledInlet site val t) := by
  have hread := (siteRead_tells s site val t).trans (stackRead_tells (s.siteRead site val t) site t)
  have hpower : ((s.siteRead site val t).stackRead site t).power = s.power := hread.part State.power
  refine Tells.trans ?_ (tellsInlet_tells _ _ _)
  rw [inletNoted_eq, hpower]
  exact hread.power _

theorem sampledInlet_hot (s : State) (site val : Nat) (t : Int) : (s.sampledInlet site val t).power.hot = s.power.hot := by
  rw [(sampledInlet_tells s site val t).part State.power]
  show (if site = 55 then { s.power with inletOut := inletOutside site t } else s.power).hot = s.power.hot
  split <;> rfl

/-- A site without a valid sensor (R398). -/
def State.siteLost (s : State) (site : Nat) : State :=
  State.setFld { s with power := { s.power with hot := s.power.hot.filter (fun i => i != site) } } (Csr.thmSens site) 63 62 2

theorem exec_temperatureSample_eq (site : Fin 57) (a b : Option Int) (haux : s.pins.aux = true) : exec (.temperatureSample site a b) s =
    match higher a b with
    | none => .next (if s.siteValid site.val then (s.siteLost site.val).raise 0x5A [BitVec.ofNat 64 site.val] else s.siteLost site.val)
    | some v =>
      let val := if a.isSome && b.isSome then 0 else 1
      let x := s.sampled site.val val v
      if (decide (1760 ≤ v) && (s.sampledInlet site.val val v).power.hot.contains site.val) ∧ x.mainOn then
        .next (x.thermalShutdown site.val (s.siteTemp site.val) v) else .next x :=
  if_neg (by simp [haux])

theorem exec_temperatureSample_lost (w : regsCanonical s) (site : Fin 57) {a b : Option Int} (haux : s.pins.aux = true) (ha : a = none) (hb : b = none) :
    ∃ t, exec (.temperatureSample site a b) s = .next t ∧ t.fld (Csr.thmSens site.val) 63 62 = 2 ∧ site.val ∉ t.power.hot ∧
      Frame s t [Csr.thmSens site.val] ∧ (s.fld (Csr.thmSens site.val) 63 62 ≠ 2 → Raised t 0x5A 0) := by
  subst ha hb
  have hsite := site.isLt
  let o := Csr.thmSens site.val
  let u : State := { s with power := { s.power with hot := s.power.hot.filter (fun i => i != site.val) } }
  let v := s.siteLost site.val
  let t := if s.siteValid site.val then v.raise 0x5A [BitVec.ofNat 64 site.val] else v
  have hu : Wrote [(o, 63, 62)] s u := Wrote.refl.power _
  have hv : Wrote [(o, 63, 62)] s v := hu.setFld _ (by decide) (by simp [o])
  have ht : Wrote [] v t := .ite (Wrote.refl.raise _ _) .refl
  have htells : Tells u t := .ite ((Tells.refl.setFld _ _ _ _).raise _ _) (Tells.refl.setFld _ _ _ _)
  refine ⟨t, exec_temperatureSample_eq site none none haux, ?_, ?_, (hv.append ht).frame w (by simp [o]), fun hvalid => ?_⟩
  · exact ht.reads (s := u) w (by decide) (by decide) (by simp only [apart_nil, Csr.thmSens]; omega)
  · rw [htells.part State.power]
    simp [u]
  · have hwas : s.siteValid site.val = true := by simpa [State.siteValid] using hvalid
    simp only [t, if_pos hwas]
    exact raised_raise _ _ _

/-- The fields of a site's register. -/
def siteFields (site : Nat) : List RegField := [(Csr.thmSens site, 63, 62), (Csr.thmSens site, 15, 0), (Csr.thmSens site, 39, 24)]

/-- The field in which a stack shows its temperature. -/
def stackFields (site : Nat) : List RegField := if 32 ≤ site ∧ site < 40 then [(Csr.hbmStat (site - 32), 63, 56)] else []

/-- Registers of other blocks than the memory's share no bit with what a stack shows. -/
theorem stackFields_apart {o hi lo : Nat} (site : Nat) (he : Apart [] o hi lo) (ho : o < 0x50_0000) : Apart (stackFields site) o hi lo := by
  unfold stackFields
  split
  · rw [apart_cons]
    exact ⟨.inl (by simp only [Csr.hbmStat, Csr.hbm]; omega), he⟩
  · exact he

theorem siteRead_wrote (s : State) (site val : Nat) (t : Int) : Wrote (siteFields site) s (s.siteRead site val t) :=
  ((Wrote.refl.setFld _ (by decide) (by simp [siteFields])).setFld _ (by decide) (by simp [siteFields])).setFld _ (by decide) (by simp [siteFields])

theorem stackRead_wrote (s : State) (site : Nat) (t : Int) : Wrote (stackFields site) s (s.stackRead site t) := by
  unfold State.stackRead
  split
  next h =>
    obtain ⟨hlo, hhi, -⟩ := h
    exact Wrote.refl.setFld _ (by decide) (by simp [stackFields, hlo, hhi])
  next => exact .refl

/-- What follows the readings changes no register of sites and stacks. -/
theorem sampled_follows (s : State) (site val : Nat) (t : Int) : Wrote [] ((s.siteRead site val t).stackRead site t) (s.sampled site val t) := by
  refine Wrote.power ?_ _
  refine Wrote.trans (Wrote.ite (Wrote.power ?_ _) ?_) (.ite (Wrote.refl.raise _ _) .refl)
  · exact .refl
  · exact .refl

theorem sampled_wrote (s : State) (site val : Nat) (t : Int) : Wrote (siteFields site ++ stackFields site) s (s.sampled site val t) :=
  ((siteRead_wrote s site val t).append (stackRead_wrote _ site t)).append (sampled_follows s site val t) |>.mono (by simp)

theorem sampled_hot (s : State) (site val : Nat) (t : Int) : site ∈ (s.sampled site val t).power.hot ↔ 1760 ≤ t := by
  show site ∈ ((s.sampledInlet site val t).power.hot.filter (fun i => i != site)) ++ (if decide (1760 ≤ t) then [site] else []) ↔ _
  by_cases h : 1760 ≤ t <;> simp [h]

/-- The sample shows in the site's register, its peak and its stack (R398). -/
theorem sampled_shows (w : regsCanonical s) {site val : Nat} {v : Int} (hsite : site < 57) (hval : val < 4) (hlo : -32768 ≤ v) (hhi : v ≤ 32767) :
    let x := s.sampled site val v
    let o := Csr.thmSens site
    x.siteTemp site = v ∧ x.fld o 63 62 = val ∧ (BitVec.ofNat 16 (x.fld o 39 24)).toInt = max (BitVec.ofNat 16 (s.fld o 39 24)).toInt v ∧
      (32 ≤ site → site < 40 → s.stackPresent (site - 32) = true → x.fld (Csr.hbmStat (site - 32)) 63 56 = (max 0 (min 255 (v / 16))).toNat) := by
  intro x o
  let peak := max (BitVec.ofNat 16 (s.fld o 39 24)).toInt v
  let a := s.setFld o 63 62 val
  let b := a.setFld o 15 0 (tempCode v)
  let c := s.siteRead site val v
  have ha : Wrote [(o, 63, 62)] s a := Wrote.refl.setFld _ (by decide) (by simp)
  have hb : Wrote [(o, 15, 0)] a b := Wrote.refl.setFld _ (by decide) (by simp)
  have hc : Wrote [(o, 39, 24)] b c := Wrote.refl.setFld _ (by decide) (by simp [o])
  have hx : Wrote (stackFields site) c x := ((stackRead_wrote c site v).append (sampled_follows s site val v)).mono (by simp)
  have wa := ha.canonical w
  have wb := hb.canonical wa
  have he (hi lo : Nat) : Apart (stackFields site) o hi lo := stackFields_apart site (by simp only [apart_nil, o, Csr.thmSens]; omega) (by simp only [o, Csr.thmSens]; omega)
  have hpeak := (BitVec.ofNat 16 (s.fld o 39 24)).toInt_lt
  have hpeak' := (BitVec.ofNat 16 (s.fld o 39 24)).le_toInt
  refine ⟨?_, ?_, ?_, fun h32 h40 hpresent => ?_⟩
  · have hcode : x.fld o 15 0 = tempCode v :=
      (hc.append hx).reads wa (by decide) (tempCode_lt v) (apart_append.mpr ⟨by simp only [apart_cons, apart_nil, o, Csr.thmSens]; omega, he _ _⟩)
    show (BitVec.ofNat 16 (x.fld o 15 0)).toInt = v
    rw [hcode, toInt_tempCode hlo hhi]
  · exact (hb.append (hc.append hx)).reads w (by decide) (by omega)
      (apart_append.mpr ⟨by simp only [apart_cons, apart_nil, o, Csr.thmSens]; omega, apart_append.mpr ⟨by simp only [apart_cons, apart_nil, o, Csr.thmSens]; omega, he _ _⟩⟩)
  · have hcode : x.fld o 39 24 = tempCode peak := hx.reads wb (by decide) (tempCode_lt peak) (he _ _)
    rw [hcode, toInt_tempCode (by omega) (by omega)]
  · have hstack : c.stackRead site v = c.setFld (Csr.hbmStat (site - 32)) 63 56 (max 0 (min 255 (v / 16))).toNat := if_pos ⟨h32, h40, hpresent⟩
    have hlast := sampled_follows s site val v
    rw [show (s.siteRead site val v).stackRead site v = _ from hstack] at hlast
    exact hlast.reads (hc.canonical wb) (by decide) (by omega) (by simp only [apart_nil, Csr.hbmStat, Csr.hbm]; omega)

theorem sampled_tellsInlet {site val : Nat} {v : Int} (hsite : site = 55) (hout : v < 240 ∨ 640 < v) (hin : s.power.inletOut = false) :
    Raised (s.sampled site val v) 0x5E 0 := by
  have hread : ((s.siteRead site val v).stackRead site v).power = s.power :=
    ((siteRead_tells s site val v).trans (stackRead_tells _ site v)).part State.power
  have houtside : inletOutside site v = true := by
    rcases hout with h | h <;> simp [inletOutside, hsite, h]
  have hraised : Raised (s.sampledInlet site val v) 0x5E 0 := by
    unfold State.sampledInlet
    dsimp only
    rw [hread, houtside, hin]
    exact raised_raise _ _ _
  have hlast : Wrote [] (s.sampledInlet site val v) (s.sampled site val v) := Wrote.refl.power _
  exact hlast.raised hraised

theorem exec_temperatureSample_reads (w : regsCanonical s) (site : Fin 57) {a b : Option Int} {v : Int} (haux : s.pins.aux = true) (h : higher a b = some v)
    (hlo : -32768 ≤ v) (hhi : v ≤ 32767) (hcalm : v < 1760 ∨ site.val ∉ s.power.hot ∨ s.mainOn = false) :
    let o := Csr.thmSens site.val
    ∃ t, exec (.temperatureSample site a b) s = .next t ∧ t.siteTemp site.val = v ∧
      t.fld o 63 62 = (if a.isSome && b.isSome then 0 else 1) ∧ (BitVec.ofNat 16 (t.fld o 39 24)).toInt = max (BitVec.ofNat 16 (s.fld o 39 24)).toInt v ∧
      (site.val ∈ t.power.hot ↔ 1760 ≤ v) ∧
      Frame s t (o :: (if 32 ≤ site.val ∧ site.val < 40 then [Csr.hbmStat (site.val - 32)] else [])) ∧
      (32 ≤ site.val → site.val < 40 → s.stackPresent (site.val - 32) = true →
        t.fld (Csr.hbmStat (site.val - 32)) 63 56 = (max 0 (min 255 (v / 16))).toNat) ∧
      (site.val = 55 → v < 240 ∨ 640 < v → s.power.inletOut = false → Raised t 0x5E 0) := by
  intro o
  have hsite := site.isLt
  let val := if a.isSome && b.isSome then 0 else 1
  let x := s.sampled site.val val v
  have hval : val < 4 := by
    simp only [val]
    split <;> decide
  have hx := sampled_wrote s site.val val v
  have hon : x.mainOn = s.mainOn := hx.mainOn w (apart_append.mpr
    ⟨by simp only [siteFields, apart_cons, apart_nil, Csr.thmSens, Csr.powStat]; omega, stackFields_apart _ (by decide) (by decide)⟩)
  obtain ⟨htemp, hshown, hpeak, hstack⟩ := sampled_shows w hsite hval hlo hhi
  have hexec : exec (.temperatureSample site a b) s = .next x := by
    rw [exec_temperatureSample_eq site a b haux, h]
    refine if_neg ?_
    rw [sampledInlet_hot, hon]
    rcases hcalm with hc | hc | hc
    · simp [Int.not_le.mpr hc]
    · simp [hc]
    · simp [hc]
  refine ⟨x, hexec, htemp, hshown, hpeak, sampled_hot s site.val val v, hx.frame w ?_, hstack, sampled_tellsInlet⟩
  intro f hf
  rcases List.mem_append.mp hf with hf | hf
  · have ho : f.1 = o := by
      simp only [siteFields, List.mem_cons, List.not_mem_nil, or_false] at hf
      rcases hf with rfl | rfl | rfl <;> rfl
    exact ho ▸ List.mem_cons_self
  · unfold stackFields at hf
    split at hf
    next hc =>
      rw [if_pos hc, List.mem_singleton.mp hf]
      simp
    next => exact absurd hf List.not_mem_nil

/-! ### Thermal shutdown -/

/-- What a shutdown keeps in flash and of the module's health, and shows in THM_TRIP (R402). -/
def State.tripped (s : State) (site : Nat) (ft : Word) : State :=
  let trips := min 255 (s.flash.trips + 1)
  let s := { s with
    flash := { s.flash with trips := trips, held := true }
    health := { s.health with tripAt := some s.now } }
  s.setReg Csr.thmTrip (Word.place trips 8 56 ||| Word.place site 8 48 ||| Word.place ft.toNat 48 0)

/-- THERM_TRIP_N goes low. -/
def State.tripLow (s : State) : State := { s with pins := { s.pins with thermTrip := true } }

theorem thermalShutdown_eq (s : State) (site : Nat) (first second : Int) : s.thermalShutdown site first second =
    let words := [BitVec.ofNat 64 site, Word.place (tempCode first) 16 0, Word.place (tempCode second) 16 0, s.ft, BitVec.ofNat 64 s.mstate] ++ s.jobWords
    (((((s.tripLow.mainDown mTripped).journalAdd 3 words).tripped site s.ft).bump Csr.jrnStat 63 48 1).raise 0x57 [BitVec.ofNat 64 site]) := rfl

theorem tripped_leaves (s : State) (site : Nat) (ft : Word) : let u := s.tripped site ft
    u.flash = { s.flash with trips := min 255 (s.flash.trips + 1), held := true } ∧ u.health.tripAt = some s.now ∧ u.pins = s.pins ∧ u.jobs = s.jobs ∧
      u.mem = s.mem :=
  ⟨rfl, rfl, rfl, rfl, rfl⟩

theorem tripped_wrote (s : State) (site : Nat) (ft : Word) : Wrote [(Csr.thmTrip, 63, 0)] s (s.tripped site ft) := by
  unfold State.tripped
  refine Wrote.setReg ?_ _ (by decide)
  exact Wrote.refl.aside rfl rfl rfl rfl

theorem tripped_shows (w : regsCanonical s) {site : Nat} (hsite : site < 57) (ft : Word) : (s.tripped site ft).fld Csr.thmTrip 55 48 = site := by
  have wh : regsCanonical { s with
      flash := { s.flash with trips := min 255 (s.flash.trips + 1), held := true }
      health := { s.health with tripAt := some s.now } } := w
  unfold State.tripped State.fld
  dsimp only
  rw [State.reg_setReg _ _ _ _ wh, if_pos rfl, Word.field_or, Word.field_or, Word.field_place_apart _ _ 56 _ _ (by omega),
    Word.field_place_apart _ _ 0 _ _ (by omega), Word.field_place site 55 48 (by omega), Nat.mod_eq_of_lt (by omega)]
  simp

/-- The journal's record tells nothing else of the state than its registers and flash. -/
theorem journalAdd_tells (s : State) (type : Nat) (body : List Word) : ∃ f, Tells { s with flash := f } (s.journalAdd type body) ∧
    f.trips = s.flash.trips ∧ ∃ r, f.journal.head? = some r ∧ r.type = type := by
  unfold State.journalAdd
  dsimp only
  exact ⟨_, ((Tells.refl.bump _ _ _ _).setFld _ _ _ _), rfl, _, rfl, rfl⟩

theorem thermalShutdown_leaves (w : regsCanonical s) {site : Nat} (hsite : site < 57) (first second : Int) :
    let t := s.thermalShutdown site first second
    t.mstate = mTripped ∧ t.pins.thermTrip = true ∧ t.pins.pwrGood = false ∧ t.jobs = [] ∧ t.mem = [] ∧ Raised t 0x57 0 ∧ t.flash.held = true ∧
      t.flash.trips = min 255 (s.flash.trips + 1) ∧ t.health.tripAt = some s.now ∧ (∃ r, t.flash.journal.head? = some r ∧ r.type = 3) ∧
      t.fld Csr.thmTrip 55 48 = site := by
  intro t
  let words := [BitVec.ofNat 64 site, Word.place (tempCode first) 16 0, Word.place (tempCode second) 16 0, s.ft, BitVec.ofNat 64 s.mstate] ++ s.jobWords
  let d := s.tripLow.mainDown mTripped
  let j := d.journalAdd 3 words
  let u := j.tripped site s.ft
  have hd := mainDown_leaves s.tripLow (m := mTripped) (by decide)
  have wd : regsCanonical d := hd.canonical w
  obtain ⟨f, hj, htrips, r, hhead, htype⟩ := journalAdd_tells d 3 words
  obtain ⟨huf, hut, hup, huj, hum⟩ := tripped_leaves j site s.ft
  have hjw : Wrote [(Csr.jrnStat, 31, 0), (Csr.jrnStat, 47, 32)] d j := Wrote.refl.journalAdd _ _ (by decide) (by decide)
  have hu : Wrote [(Csr.thmTrip, 63, 0)] j u := tripped_wrote j site s.ft
  have hb : Wrote [(Csr.jrnStat, 63, 48)] u t := (Wrote.refl.bump _ (by decide) (by simp)).raise _ _
  have ht : Tells u t := (Tells.refl.bump _ _ _ _).raise _ _
  have hjf : j.flash = f := hj.part State.flash
  have hfl : t.flash = { f with trips := min 255 (f.trips + 1), held := true } := by rw [ht.part State.flash, huf, hjf]
  have hdf : d.flash.trips = s.flash.trips := (congrArg Flash.trips hd.flash :)
  have hpins : t.pins = d.pins := (ht.part State.pins).trans (hup.trans (hj.part State.pins))
  have hjobs : t.jobs = d.jobs := (ht.part State.jobs).trans (huj.trans (hj.part State.jobs))
  have hmem : t.mem = d.mem := (ht.part State.mem).trans (hum.trans (hj.part State.mem))
  refine ⟨?_, ?_, ?_, hjobs.trans hd.gone.jobs, hmem.trans hd.gone.mem, raised_raise _ _ _, ?_, ?_, ?_, ⟨r, ?_, htype⟩, ?_⟩
  · exact ((hjw.append (hu.append hb)).mstate wd (by decide)).trans (hd.mstate w)
  · rw [hpins, hd.pins]
    rfl
  · rw [hpins, hd.pins]
  · rw [hfl]
  · rw [hfl]
    show min 255 (f.trips + 1) = _
    rw [htrips, hdf]
  · rw [ht.part State.health, hut, hj.part State.now]
    exact congrArg some hd.now
  · rw [hfl]
    exact hhead
  · exact (hb.fld (hu.canonical (hjw.canonical wd)) (by decide)).trans (tripped_shows (hjw.canonical wd) hsite s.ft)

theorem exec_temperatureSample_trips (w : regsCanonical s) (site : Fin 57) {a b : Option Int} {v : Int} (haux : s.pins.aux = true) (h : higher a b = some v)
    (hhot : 1760 ≤ v) (hagain : site.val ∈ s.power.hot) (hon : s.mainOn = true) :
    ∃ t, exec (.temperatureSample site a b) s = .next t ∧ t.mstate = mTripped ∧ t.pins.thermTrip = true ∧ t.pins.pwrGood = false ∧ t.jobs = [] ∧ t.mem = [] ∧
      Raised t 0x57 0 ∧ t.flash.held = true ∧ t.flash.trips = min 255 (s.flash.trips + 1) ∧ t.health.tripAt = some s.now ∧
      (∃ r, t.flash.journal.head? = some r ∧ r.type = 3) ∧ t.fld Csr.thmTrip 55 48 = site.val := by
  have hsite := site.isLt
  let val := if a.isSome && b.isSome then 0 else 1
  let x := s.sampled site.val val v
  have hx := sampled_wrote s site.val val v
  have hxon : x.mainOn = true := (hx.mainOn w (apart_append.mpr
    ⟨by simp only [siteFields, apart_cons, apart_nil, Csr.thmSens, Csr.powStat]; omega, stackFields_apart _ (by decide) (by decide)⟩)).trans hon
  have htells := sampledInlet_tells s site.val val v
  have hflash : x.flash = s.flash := htells.part State.flash
  have hnow : x.now = s.now := htells.part State.now
  have hexec : exec (.temperatureSample site a b) s = .next (x.thermalShutdown site.val (s.siteTemp site.val) v) := by
    rw [exec_temperatureSample_eq site a b haux, h]
    refine if_pos ⟨?_, hxon⟩
    rw [sampledInlet_hot]
    simp [hhot, hagain]
  refine ⟨_, hexec, ?_⟩
  rw [← hflash, ← hnow]
  exact thermalShutdown_leaves (hx.canonical w) hsite _ _

theorem exec_tripHoldEnd (hst : s.mstate = mTripped) (hcool : s.coolEnough = true) (hmay : s.mainAllowed = true) (hu : s.update = none) :
    ∃ t, exec .tripHoldEnd s = .next t ∧ BootBegun s t 4 ∧ (slotReason s.flash = 0 → t.pins.pwrGood = true ∧ t.mstate = mBoot) :=
  ⟨_, if_pos ⟨hst, hcool, hmay⟩, startBoot_begun hu (by decide), fun hgood => startBoot_powers hu hgood hmay (by simp)⟩

end Sys2Proof.Machine

end

section
/-! PROOFS. Throttles and pauses for heat, and the statement on pools and heat (R399 to R401). -/

namespace Sys2Proof.Machine

open Sys2Proof.Safety

variable {l : List RegField} {s t : State}

theorem Tells.syncHbmPause (h : Tells s t) : Tells s t.syncHbmPause := h.foldl fun _ _ _ => .ite (Tells.refl.setFld _ _ _ _) .refl

/-! ### Ceilings -/

theorem thermalState_le (top : Nat) (f : Int) : thermalState top f ≤ 12 := by
  unfold thermalState
  split
  next p hp => exact Nat.le_of_lt_succ (List.mem_range.mp (List.mem_of_find?_eq_some hp))
  next => exact le_rfl

theorem thermalCore_lt (s : State) (n : Nat) : (s.thermalCore n).1 < 16 := by
  unfold State.thermalCore
  dsimp only
  split
  · exact (by decide : 12 < 16)
  · next t _ =>
      have hnow := thermalState_le s.topState (thermalMhz16 s.topState t (16 * (s.fld Csr.thmCtl 7 0 : Int)))
      have hnext := thermalState_le s.topState (thermalMhz16 s.topState (t + 16) (16 * (s.fld Csr.thmCtl 7 0 : Int)))
      dsimp only
      split <;> omega

theorem thermalCore_invalid {n : Nat} (h : s.siteValid n = false) : (s.thermalCore n).1 = 12 := by
  have hnone : s.coreTemp n = none := by simp [State.coreTemp, h]
  unfold State.thermalCore
  rw [hnone]

/-- The ceilings and lost run slots of all cores (R399). -/
def State.thermalAll (s : State) : List (Nat × Nat) :=
  (List.range 32).map (fun n => if s.corePresent n then s.thermalCore n else (s.topState, 0))

theorem thermalAll_getD {n : Nat} (hn : n < 32) (hpresent : s.corePresent n = true) : s.thermalAll.getD n (s.topState, 0) = s.thermalCore n := by
  simp [State.thermalAll, List.getD, hn, hpresent]

/-- The ceilings of heat are shown (R399). -/
def State.ceilingsShown (s : State) (res : List (Nat × Nat)) : State :=
  (List.range 32).foldl (fun (u : State) n => if u.corePresent n then u.setFld (Csr.powCore n) 59 56 (res.getD n (s.topState, 0)).1 else u) s

/-- The fields of the cores' ceilings of heat. -/
def ceilingFields : List RegField := (List.range 32).map (fun n => (Csr.powCore n, 59, 56))

theorem ceilingsShown_wrote (s : State) (res : List (Nat × Nat)) : Wrote ceilingFields s (s.ceilingsShown res) :=
  Wrote.refl.foldl fun _ n hn => .ite (Wrote.refl.setFld _ (by decide) (List.mem_map_of_mem hn)) .refl

theorem ceilingsShown_tells (s : State) (res : List (Nat × Nat)) : Tells s (s.ceilingsShown res) :=
  Tells.refl.foldl fun _ _ _ => .ite (Tells.refl.setFld _ _ _ _) .refl

theorem ceilingsShown_shows (w : regsCanonical s) {res : List (Nat × Nat)} {n : Nat} (hn : n < 32) (hpresent : s.corePresent n = true)
    (hlt : (res.getD n (s.topState, 0)).1 < 16) : (s.ceilingsShown res).fld (Csr.powCore n) 59 56 = (res.getD n (s.topState, 0)).1 := by
  have hset : ∀ u : State, regsCanonical u ∧ u.cores = s.cores → (u.setFld (Csr.powCore n) 59 56 (res.getD n (s.topState, 0)).1).fld (Csr.powCore n) 59 56 =
      (res.getD n (s.topState, 0)).1 := fun u hu =>
    (State.fld_setFld u _ _ _ _ hu.1 (by decide)).trans (Nat.mod_eq_of_lt hlt)
  refine (foldl_reaches (I := fun u : State => regsCanonical u ∧ u.cores = s.cores)
    (P := fun u : State => u.fld (Csr.powCore n) 59 56 = (res.getD n (s.topState, 0)).1) (fun u b _ hu => ?_) (fun u b _ hu hp => ?_) (fun u hu => ?_)
    (List.mem_range.mpr hn) ⟨w, rfl⟩).2
  · split
    · exact ⟨State.setFld_wf _ _ _ _ _ hu.1, hu.2⟩
    · exact hu
  · split
    · by_cases hb : b = n
      · rw [hb]
        exact hset u hu
      · rw [State.fld_setFld_ne u _ _ _ _ _ _ _ hu.1 (by decide) (.inl (by simp only [Csr.powCore]; omega))]
        exact hp
    · exact hp
  · have hhere : u.corePresent n = true := by
      unfold State.corePresent
      rw [hu.2]
      exact hpresent
    rw [if_pos hhere]
    exact hset u hu

/-! ### Pauses -/

theorem sitePause_lt (s : State) (i : Nat) : s.sitePause i < 256 := by
  have hpause : ∀ t set : Int, pauseOf t set ≤ 204 := fun _ _ => Nat.min_le_left _ _
  unfold State.sitePause
  dsimp only
  split
  · decide
  · split
    · decide
    · split
      · decide
      · exact lt_of_le_of_lt (hpause _ _) (by decide)

theorem syncHbmPause_shows (w : regsCanonical s) {k : Nat} (hk : k < 8) (hpresent : s.stackPresent k = true)
    (hlt : s.power.pauses.toList.getD k 0 < 256) :
    s.syncHbmPause.fld (Csr.hbmStat k) 47 40 = max (s.power.pauses.toList.getD k 0) (if s.power.pausing then 204 else 0) := by
  have hmax : max (s.power.pauses.toList.getD k 0) (if s.power.pausing then 204 else 0) < 256 := by
    split <;> omega
  have hset : ∀ u : State, Tells s u → (u.setFld (Csr.hbmStat k) 47 40 (max (u.power.pauses.toList.getD k 0) (if u.power.pausing then 204 else 0))).fld
      (Csr.hbmStat k) 47 40 = max (s.power.pauses.toList.getD k 0) (if s.power.pausing then 204 else 0) := fun u hu => by
    rw [hu.part State.power]
    exact (State.fld_setFld u _ _ _ _ (hu.canonical w) (by decide)).trans (Nat.mod_eq_of_lt hmax)
  refine (foldl_reaches (I := Tells s)
    (P := fun u : State => u.fld (Csr.hbmStat k) 47 40 = max (s.power.pauses.toList.getD k 0) (if s.power.pausing then 204 else 0))
    (fun u b _ hu => .ite (hu.setFld _ _ _ _) hu) (fun u b _ hu hp => ?_) (fun u hu => ?_) (List.mem_range.mpr hk) Tells.refl).2
  · split
    · by_cases hb : b = k
      · rw [hb]
        exact hset u hu
      · rw [State.fld_setFld_ne u _ _ _ _ _ _ _ (hu.canonical w) (by decide) (.inl (by simp only [Csr.hbmStat, Csr.hbm]; omega))]
        exact hp
    · exact hp
  · have hhere : u.stackPresent k = true := by
      unfold State.stackPresent
      rw [hu.part State.part, hu.part State.h1Lost]
      exact hpresent
    rw [if_pos hhere]
    exact hset u hu

/-! ### The control of heat -/

/-- The cores that throttle (R399). -/
def State.throttling (s : State) (res : List (Nat × Nat)) : BitVec 32 :=
  (List.range 32).foldl (fun (m : BitVec 32) n =>
    let r := res.getD n (s.topState, 0)
    if s.topState < r.1 ∨ 0 < r.2 then m ||| (1#32 <<< n) else m) 0

theorem throttling_bit (res : List (Nat × Nat)) {n : Nat} (hn : n < 32) : (s.throttling res).getLsbD n =
    (decide (s.topState < (res.getD n (s.topState, 0)).1) || decide (0 < (res.getD n (s.topState, 0)).2)) := by
  have hmask : s.throttling res = (List.range 32).foldl (fun (m : BitVec 32) a =>
      if decide (s.topState < (res.getD a (s.topState, 0)).1) || decide (0 < (res.getD a (s.topState, 0)).2) then m ||| (1#32 <<< a) else m) 0 := by
    unfold State.throttling
    simp only [Bool.or_eq_true, decide_eq_true_eq]
  have hzero : (0 : BitVec 32).getLsbD n = false := BitVec.getLsbD_zero
  rw [hmask, getLsbD_mask (fun a => a) _ (List.range 32) 0 hn, hzero, Bool.false_or, Bool.eq_iff_iff, List.any_eq_true]
  constructor
  · rintro ⟨a, -, ha⟩
    obtain ⟨hp, he⟩ := Bool.and_eq_true_iff.mp ha
    obtain rfl : a = n := by simpa using he
    exact hp
  · exact fun hp => ⟨n, List.mem_range.mpr hn, Bool.and_eq_true_iff.mpr ⟨hp, by simp⟩⟩

/-- An event 0x55 has been raised within the last second (R399). -/
def State.throttleRecent (s : State) : Bool :=
  match s.power.throttleAt with
  | some w => decide (s.now < w + 1000000000)
  | none => false

/-- What the control of heat leaves of the power manager's record (R399, R400). -/
def State.heatPower (s : State) (p : Power) : Power :=
  { p with
    throttled := s.throttling s.thermalAll, pauses := Vector.ofFn (fun i => s.sitePause i.val)
    extraPause := Vector.ofFn (fun i => (s.thermalAll.getD i.val (s.topState, 0)).2)
    throttleAt := if decide (s.throttling s.thermalAll ≠ s.power.throttled) && !s.throttleRecent then some s.now else s.power.throttleAt }

theorem heatPower_pausing (s : State) (p : Power) : (s.heatPower p).pausing = p.pausing := rfl

/-- A pause begins or ends (R400). -/
def State.pausesMoved (s : State) : Bool :=
  (List.range 16).any (fun i => (s.power.pauses.toList.getD i 0 == 0) != ((Vector.ofFn (fun i : Fin 16 => s.sitePause i.val)).toList.getD i 0 == 0))

/-- The events of throttles and pauses (R399, R400). -/
def State.tellsHeat (s : State) (throttle recent moved : Bool) (hot : BitVec 32) : State :=
  let t := if throttle then (if recent then s.withhold 0x55 else s.raise 0x55 [hot.zeroExtend 64]) else s
  if moved then t.raise 0x56 [] else t

theorem exec_thermalControl_eq (hon : s.mainOn = true) :
    let u := s.ceilingsShown s.thermalAll
    exec .thermalControl s = .next ((u.powered (s.heatPower u.power)).syncHbmPause.tellsHeat
      (decide (s.throttling s.thermalAll ≠ s.power.throttled)) s.throttleRecent s.pausesMoved (s.throttling s.thermalAll)) := by
  show execThermalControl s = _
  unfold execThermalControl
  rw [if_neg (by simp [hon])]
  unfold State.tellsHeat State.pausesMoved State.heatPower State.throttleRecent State.throttling State.ceilingsShown State.thermalAll State.powered
  generalize List.range 32 = cores, List.range 16 = sites
  rfl

theorem tellsHeat_wrote (s : State) (throttle recent moved : Bool) (hot : BitVec 32) : Wrote [] s (s.tellsHeat throttle recent moved hot) := by
  have hfirst : Wrote [] s (if throttle then (if recent then s.withhold 0x55 else s.raise 0x55 [hot.zeroExtend 64]) else s) :=
    .ite (.ite (Wrote.refl.withhold _) (Wrote.refl.raise _ _)) .refl
  exact .ite (hfirst.raise _ _) hfirst

theorem tellsHeat_tells (s : State) (throttle recent moved : Bool) (hot : BitVec 32) : Tells s (s.tellsHeat throttle recent moved hot) := by
  have hfirst : Tells s (if throttle then (if recent then s.withhold 0x55 else s.raise 0x55 [hot.zeroExtend 64]) else s) :=
    .ite (.ite (Tells.refl.withhold _) (Tells.refl.raise _ _)) .refl
  exact .ite (hfirst.raise _ _) hfirst

theorem tellsHeat_throttle (s : State) (moved : Bool) (hot : BitVec 32) : Raised (s.tellsHeat true false moved hot) 0x55 0 := by
  have hlast : Wrote [] (s.raise 0x55 [hot.zeroExtend 64]) (s.tellsHeat true false moved hot) := .ite (Wrote.refl.raise _ _) .refl
  exact hlast.raised (raised_raise _ _ _)

theorem tellsHeat_pause (s : State) (throttle recent : Bool) (hot : BitVec 32) : Raised (s.tellsHeat throttle recent true hot) 0x56 0 := raised_raise _ _ _

theorem pausesMoved_of {i : Fin 16} (h : (s.power.pauses[i] = 0) ≠ (s.sitePause i.val = 0)) : s.pausesMoved = true := by
  have hold : s.power.pauses.toList.getD i.val 0 = s.power.pauses[i] := by simp [List.getD]
  have hnew : (Vector.ofFn (fun i : Fin 16 => s.sitePause i.val)).toList.getD i.val 0 = s.sitePause i.val := by simp [List.getD]
  refine List.any_eq_true.mpr ⟨i.val, List.mem_range.mpr i.isLt, ?_⟩
  rw [hold, hnew, bne_iff_ne]
  exact fun he => h (propext (beq_iff_eq.symm.trans ((Bool.eq_iff_iff.mp he).trans beq_iff_eq)))

theorem powered_units (s : State) (p : Power) : (s.powered p).part = s.part ∧ (s.powered p).h1Lost = s.h1Lost := ⟨rfl, rfl⟩

theorem exec_thermalControl (w : regsCanonical s) (hon : s.mainOn = true) : ∃ t, exec .thermalControl s = .next t ∧
    (∀ n, n < 32 → s.corePresent n = true → t.fld (Csr.powCore n) 59 56 = (s.thermalCore n).1 ∧ (s.siteValid n = false → t.fld (Csr.powCore n) 59 56 = 12)) ∧
    (∀ n, n < 32 → s.corePresent n = true → t.power.throttled.getLsbD n = (decide (s.topState < (s.thermalCore n).1) || decide (0 < (s.thermalCore n).2))) ∧
    (∀ i : Fin 16, t.power.pauses[i] = s.sitePause i.val) ∧
    (∀ k, k < 8 → s.stackPresent k = true → t.fld (Csr.hbmStat k) 47 40 = max (s.sitePause k) (if s.power.pausing then 204 else 0)) ∧
    (t.power.throttled ≠ s.power.throttled → s.power.throttleAt = none → Raised t 0x55 0) ∧
    ((∃ i : Fin 16, (s.power.pauses[i] = 0) ≠ (s.sitePause i.val = 0)) → Raised t 0x56 0) ∧
    Frame s t ((List.range 32).map Csr.powCore ++ (List.range 8).map Csr.hbmStat) := by
  let hot := s.throttling s.thermalAll
  let u := s.ceilingsShown s.thermalAll
  let p := s.heatPower u.power
  let v := u.powered p
  let t := v.syncHbmPause.tellsHeat (decide (hot ≠ s.power.throttled)) s.throttleRecent s.pausesMoved hot
  have hu : Wrote ceilingFields s u := ceilingsShown_wrote s _
  have hv : Wrote [] u v := Wrote.refl.power _
  have hsync : Wrote pauseFields v v.syncHbmPause := Wrote.refl.syncHbmPause fun k hk => List.mem_map_of_mem (List.mem_range.mpr hk)
  have htold : Wrote [] v.syncHbmPause t := tellsHeat_wrote _ _ _ _ _
  have wv := hv.canonical (hu.canonical w)
  have hut : Tells s u := ceilingsShown_tells s _
  have hvt : Tells v t := (Tells.refl.syncHbmPause).trans (tellsHeat_tells _ _ _ _ _)
  have hpower : t.power = p := hvt.part State.power
  have hceiling : ∀ n, n < 32 → s.corePresent n = true → t.fld (Csr.powCore n) 59 56 = (s.thermalCore n).1 := fun n hn hpresent => by
    have hlater := (hv.append (hsync.append htold)).fld (hu.canonical w) (o := Csr.powCore n) (hi := 59) (lo := 56)
      ⟨not_evtReg (by simp only [Csr.powCore]; omega), fun f hf => .inl fun e => by
        have hoffs : ∀ f ∈ [] ++ (pauseFields ++ []), 0x50_0000 ≤ f.1 := by decide
        have hhigh := hoffs f hf
        rw [e] at hhigh
        simp only [Csr.powCore] at hhigh
        omega⟩
    rw [hlater]
    have hget := thermalAll_getD hn hpresent
    rw [← hget]
    exact ceilingsShown_shows w hn hpresent (by rw [hget]; exact thermalCore_lt s n)
  refine ⟨t, exec_thermalControl_eq hon, fun n hn hpresent => ⟨hceiling n hn hpresent, fun hinvalid => ?_⟩, fun n hn hpresent => ?_, fun i => ?_,
    fun k hk hpresent => ?_, fun hne hnone => ?_, fun ⟨i, hi⟩ => ?_, (hu.append (hv.append (hsync.append htold))).frame w (by decide)⟩
  · rw [hceiling n hn hpresent, thermalCore_invalid hinvalid]
  · rw [hpower]
    show (s.throttling s.thermalAll).getLsbD n = _
    rw [throttling_bit _ hn, thermalAll_getD hn hpresent]
  · rw [hpower]
    simp [p, State.heatPower]
  · have hpause : v.power.pauses.toList.getD k 0 = s.sitePause k := by
      have hk16 : k < 16 := by omega
      simp [v, State.powered, p, State.heatPower, List.getD, hk16]
    have hpausing : v.power.pausing = s.power.pausing :=
      (heatPower_pausing s u.power).trans (congrArg Power.pausing (hut.part State.power))
    have hpresent' : v.stackPresent k = true := by
      unfold State.stackPresent
      rw [(powered_units u p).1.trans (hut.part State.part), (powered_units u p).2.trans (hut.part State.h1Lost)]
      exact hpresent
    rw [htold.fld (hsync.canonical wv) (by simp only [apart_nil, Csr.hbmStat, Csr.hbm]; omega),
      syncHbmPause_shows wv hk hpresent' (by rw [hpause]; exact sitePause_lt s k), hpause, hpausing]
  · rw [hpower] at hne
    have hthrottle : decide (hot ≠ s.power.throttled) = true := decide_eq_true hne
    have hrecent : s.throttleRecent = false := by
      unfold State.throttleRecent
      rw [hnone]
    simp only [t]
    rw [hthrottle, hrecent]
    exact tellsHeat_throttle _ _ _
  · simp only [t]
    rw [pausesMoved_of hi]
    exact tellsHeat_pause _ _ _ _

/-- The higher of the valid sensors, as the statement names its cases (R398). -/
theorem higher_eq {a b : Option Int} {v : Int}
    (h : (a = some v ∧ b = none) ∨ (a = none ∧ b = some v) ∨ (∃ x y, a = some x ∧ b = some y ∧ v = max x y)) : higher a b = some v := by
  rcases h with ⟨rfl, rfl⟩ | ⟨rfl, rfl⟩ | ⟨x, y, rfl, rfl, rfl⟩ <;> rfl

/-- Settles O55: one theorem per command. -/
theorem poolsAndHeat : Obligations.PoolsAndHeat := fun _ w =>
  ⟨exec_poolEpoch w,
    fun m hin hblock => ⟨exec_poolReport_takes w m hin hblock, exec_poolReport_excludes w m hin hblock⟩,
    fun hin hhere hfew => ⟨exec_poolBudgetCompute_agrees w hin hhere hfew, exec_poolBudgetCompute_differs w hin hhere⟩,
    fun site _ _ haux => ⟨exec_temperatureSample_lost w site haux, fun _ hv hlo hhi =>
      ⟨exec_temperatureSample_reads w site haux (higher_eq hv) hlo hhi, exec_temperatureSample_trips w site haux (higher_eq hv)⟩⟩,
    exec_thermalControl w, exec_tripHoldEnd⟩

end Sys2Proof.Machine

end

section
/-! PROOFS. Sessions (R346 to R349, R362, R419). -/

namespace Sys2Proof.Machine

open Sys2Proof.Safety

variable {s t : State} {k : Fin 64} {x : Session}

/-- A state that differs in sessions, outputs and the count of free values alone. -/
theorem frame_aside (hm : t.mem = s.mem) (hc : t.cores = s.cores) (hr : t.regs = s.regs) : Frame s t [] := by
  refine ⟨fun a => congrArg (fun m => sparseGet memDefault m a) hm, hc, fun o _ _ => ?_⟩
  unfold State.reg
  rw [hr]

/-- The first session that a test accepts. -/
theorem find_first {p : Fin 64 → Bool} (hk : p k = true) (hbelow : ∀ i : Fin 64, i < k → p i = false) : (List.finRange 64).find? p = some k := by
  rw [List.find?_eq_some_iff_getElem]
  refine ⟨hk, k.val, by simp, by simp, fun j hj => ?_⟩
  rw [List.getElem_finRange]
  simpa using hbelow ⟨j, by omega⟩ (by simpa [Fin.lt_def] using hj)

theorem chan_of (h : s.sessions[k] = some x) : s.chan? (.ningonus k) = some x.ch := congrArg (Option.map Session.ch) h

theorem setChan_of (h : s.sessions[k] = some x) (c : Channel) :
    s.setChan (.ningonus k) c = { s with sessions := s.sessions.set k (some { x with ch := c }) } := by
  have h' : s.sessions[k.val] = some x := h
  simp [State.setChan, h']

/-! ### Handshakes -/

/-- A session of a new key (R347). -/
def State.newSession (s : State) (key : BitVec 256) (port : Nat) (nets : Bool × Bool) (role : Nat) : Session :=
  { ch := newChannel s key port nets, role := role, evNext := 0, evOut := [] }

theorem exec_hello_opens {port : Fin 8} (key : BitVec 256) (nets : Bool × Bool) (role : Nat) (hserving : s.serving = true)
    (hup : (s.port port.val).up = true) (hid : (s.reg Csr.secStat).bit 55 = true) (hrole : s.keyRole key = some role) (hfree : s.sessions[k] = none)
    (hbelow : ∀ i : Fin 64, i < k → s.sessions[i] ≠ none) :
    ∃ t y, exec (.hello port none key true nets) s = .next t ∧ t.sessions[k] = some y ∧ y.role = role ∧ y.ch.key = key ∧ y.ch.port = port.val ∧
      y.ch.nets = nets ∧ y.ch.lastAuth = s.now ∧ y.ch.ready = [] ∧ Output.helloAck port.val 0 y.ch.sid ∈ t.out ∧
      (∀ i : Fin 64, i ≠ k → t.sessions[i] = s.sessions[i]) ∧ Frame s t [] := by
  let y := s.newSession key port.val nets role
  let t : State := State.emit { s.drew with sessions := s.sessions.set k (some y) } (.helloAck port.val stOk y.ch.sid)
  have hfirst : (List.finRange 64).find? (fun i => (s.sessions[i]).isNone) = some k :=
    find_first (by rw [hfree]; rfl) fun i hi => Option.isNone_eq_false_iff.mpr (Option.isSome_iff_ne_none.mpr (hbelow i hi))
  have hexec : exec (.hello port none key true nets) s = .next t := by
    show execHello port none key true nets s = _
    unfold execHello
    dsimp only
    rw [if_neg (by simp [hserving, hup, hid]), hrole]
    dsimp only
    rw [hfirst]
    rfl
  refine ⟨t, y, hexec, by simp [t, State.emit], rfl, rfl, rfl, rfl, rfl, rfl, List.mem_cons_self, fun i hi => ?_, frame_aside rfl rfl rfl⟩
  have hne : k.val ≠ i.val := fun e => hi (Fin.ext e.symm)
  simp [t, State.emit, hne]

theorem exec_hello_refuses {port : Fin 8} (key : BitVec 256) (nets : Bool × Bool) (sigOk : Bool) (hserving : s.serving = true)
    (hup : (s.port port.val).up = true) (hid : (s.reg Csr.secStat).bit 55 = true) (hbad : s.keyRole key = none ∨ sigOk = false) :
    ∃ t, exec (.hello port none key sigOk nets) s = .next t ∧ Raised t 0x96 0 ∧ t.sessions = s.sessions := by
  refine ⟨s.authFail.raise 0x96 [], ?_, raised_raise _ _ _, State.raise_sessions ..⟩
  show execHello port none key sigOk nets s = _
  unfold execHello
  dsimp only
  rw [if_neg (by simp [hserving, hup, hid])]
  split
  next role hrole =>
    rcases hbad with h | h
    · exact absurd (h.symm.trans hrole) (by simp)
    · exact absurd h (by simp)
  next => rfl

/-! ### Datagrams -/

/-- A request that is next in order joins the ready ones when none is held. -/
theorem takeRequest_next (hx : s.sessions[k] = some x) {c : Channel} {id h : BitVec 32} {mt : Nat} (hkept : ∀ q ∈ c.kept, q.1 ≠ id) (hwait : c.waiting = [])
    (hready : ∀ q ∈ c.ready, q.1 ≠ id ∧ q.2 ∈ ningonusTypes) (hmt : mt ∈ ningonusTypes) (hlast : c.last = some h) (hid : id = h + 1) :
    s.takeRequest (.ningonus k) c id mt = s.setChan (.ningonus k) { c with ready := c.ready ++ [(id, mt)] } := by
  have hnone : c.kept.find? (fun q => q.1 == id) = none := List.find?_eq_none.mpr fun q hq => by simpa using hkept q hq
  have hnew : (c.ready.any (fun q => q.1 == id) || c.waiting.any (fun q => q.1 == id)) = false := by
    rw [hwait, List.any_nil, Bool.or_false, List.any_eq_false]
    exact fun q hq => by simpa using (hready q hq).1
  unfold State.takeRequest
  rw [hnone]
  dsimp only
  rw [hnew, hlast]
  dsimp only
  have hnone : c.waiting.length = 0 := by rw [hwait]; rfl
  rw [if_neg (by simp), if_pos hid, hnone]
  dsimp only [Channel.settle]
  refine refuseUnknown_known _ ⟨{ x with ch := { c with ready := c.ready ++ [(id, mt)] } }, by rw [setChan_of hx]; simp, fun q hq => ?_⟩
  rcases List.mem_append.mp hq with hq | hq
  · simpa using (hready q hq).2
  · rw [List.mem_singleton.mp hq]
    simpa using hmt

theorem exec_data {port : Fin 8} (ctr : Nat) (id h : BitVec 32) (mt : BitVec 16) (hx : s.sessions[k] = some x) (hup : (s.port port.val).up = true)
    (hacc : x.ch.accepts ctr true = true) (hctr : ctr < 2 ^ 32) (hmt : mt.toNat ∈ ningonusTypes) (hlast : x.ch.last = some h) (hid : id = h + 1)
    (hkept : ∀ q ∈ x.ch.kept, q.1 ≠ id) (hwait : x.ch.waiting = []) (hready : ∀ q ∈ x.ch.ready, q.1 ≠ id ∧ q.2 ∈ ningonusTypes) :
    ∃ t, exec (.data (.ningonus k) port ctr true id mt) s = .next t ∧
      (∃ y, t.sessions[k] = some y ∧ y.role = x.role ∧ y.ch.ready = x.ch.ready ++ [(id, mt.toNat)] ∧ y.ch.lastAuth = s.now ∧ y.ch.port = port.val) ∧
      (∀ i : Fin 64, i ≠ k → t.sessions[i] = s.sessions[i]) ∧ t = { s with sessions := t.sessions } := by
  let c := x.ch.heard s.now ctr port.val
  let y : Session := { x with ch := { c with ready := c.ready ++ [(id, mt.toNat)] } }
  have hnotEvent : mt.toNat ≠ mtEvent := fun e => absurd hmt (by rw [e]; decide)
  have hexec : exec (.data (.ningonus k) port ctr true id mt) s = .next { s with sessions := s.sessions.set k (some y) } := by
    show execData (.ningonus k) port ctr true id mt s = _
    unfold execData
    rw [chan_of hx]
    dsimp only
    rw [if_neg (by simp [hup]), if_neg (by simp [hacc]), if_neg (Nat.not_le.mpr hctr), if_neg hnotEvent,
      takeRequest_next (c := c) hx hkept hwait hready hmt hlast hid, setChan_of hx]
  refine ⟨_, hexec, ⟨y, by simp, rfl, rfl, rfl, rfl⟩, fun i hi => ?_, rfl⟩
  have hne : k.val ≠ i.val := fun e => hi (Fin.ext e.symm)
  simp [hne]

theorem exec_close (ctr : Nat) (hx : s.sessions[k] = some x) (hacc : x.ch.accepts ctr true = true) :
    ∃ t, exec (.close (.ningonus k) ctr true) s = .next t ∧ t = { s with sessions := s.sessions.set k none } := by
  refine ⟨_, ?_, rfl⟩
  show execClose (.ningonus k) ctr true s = _
  unfold execClose
  rw [chan_of hx]
  exact if_pos hacc

theorem exec_sessionIdleTimeout (hx : s.sessions[k] = some x) (hlong : x.ch.lastAuth + 60000000000 ≤ s.now) :
    ∃ t, exec (.sessionIdleTimeout (.ningonus k)) s = .next t ∧ t = { s with sessions := s.sessions.set k none } := by
  refine ⟨_, ?_, rfl⟩
  show execSessionIdleTimeout (.ningonus k) s = _
  unfold execSessionIdleTimeout
  rw [chan_of hx]
  exact if_pos hlong

/-- The only held request is released. -/
theorem release_only {c : Channel} {id : BitVec 32} {mt since : Nat} (hwait : c.waiting = [(id, mt, since)]) :
    Channel.release 1 c id = { c with ready := c.ready ++ [(id, mt)], waiting := [] } := by
  simp [Channel.release, hwait]

theorem exec_reqidHoldExpiry (id : BitVec 32) (mt since : Nat) (hx : s.sessions[k] = some x) (hwait : x.ch.waiting = [(id, mt, since)])
    (hready : x.ch.ready = []) (hmt : mt ∈ ningonusTypes) (hlong : since + 640000000 ≤ s.now) :
    ∃ t y, exec (.reqidHoldExpiry (.ningonus k)) s = .next t ∧ t.sessions[k] = some y ∧ y.ch.ready = [(id, mt)] ∧ y.ch.waiting = [] ∧
      t = { s with sessions := t.sessions } := by
  let c : Channel := { x.ch with ready := [(id, mt)], waiting := [] }
  let y : Session := { x with ch := c }
  have hfind : x.ch.waiting.find? (fun w => decide (w.2.2 + 640000000 ≤ s.now)) = some (id, mt, since) := by simp [hwait, hlong]
  have hreleased : Channel.release x.ch.waiting.length x.ch id = c := by
    rw [hwait, List.length_singleton, release_only hwait, hready, List.nil_append]
  have hexec : exec (.reqidHoldExpiry (.ningonus k)) s = .next { s with sessions := s.sessions.set k (some y) } := by
    show execReqidHoldExpiry (.ningonus k) s = _
    unfold execReqidHoldExpiry
    rw [chan_of hx]
    dsimp only
    rw [hfind]
    dsimp only
    rw [hreleased]
    dsimp only [c, List.length_nil, Channel.settle]
    rw [setChan_of hx, refuseUnknown_known _ ⟨y, by simp [y, c], by simpa [y, c] using hmt⟩]
  exact ⟨_, y, hexec, by simp, rfl, rfl, rfl⟩

/-! ### Events -/

/-- A datagram leaves by the port of its session. -/
theorem sendOn_of (hx : s.sessions[k] = some x) (hup : (s.port x.ch.port).up = true) (htx : x.ch.tx + 1 < 2 ^ 32) (d : Nat → Word → Output) :
    s.sendOn (.ningonus k) d =
      State.emit { s with sessions := s.sessions.set k (some { x with ch := { x.ch with tx := x.ch.tx + 1 } }) } (d x.ch.port x.ch.sid) := by
  unfold State.sendOn
  rw [chan_of hx]
  dsimp only
  have hport : ∀ v : Vector (Option Session) 64, ({ s with sessions := v } : State).outPort x.ch.port x.ch.nets = some x.ch.port := fun _ => outPort_of_up hup
  rw [setChan_of hx, hport, if_neg (by omega)]

theorem exec_event (sink : Fin 4) (q : Sink) (seq : Nat) (e : EventRec) (rest : List (Nat × EventRec)) (hq : s.sinks[sink] = some q)
    (hx : s.sessions[k] = some x) (hkey : x.ch.key = q.key) (hbelow : ∀ i : Fin 64, i < k → ∀ y, s.sessions[i] = some y → y.ch.key ≠ q.key)
    (hqueue : q.queue = (seq, e) :: rest) (hnew : ∀ r ∈ x.evOut, ¬ (r.sink = sink.val ∧ r.seq = seq)) (hup : (s.port x.ch.port).up = true)
    (htx : x.ch.tx + 1 < 2 ^ 32) :
    ∃ t y, exec (.event sink) s = .next t ∧ Output.eventMsg x.ch.port x.ch.sid x.evNext seq e ∈ t.out ∧ t.sessions[k] = some y ∧ y.evNext = x.evNext + 1 ∧
      y.ch.tx = x.ch.tx + 1 ∧ (∃ r ∈ y.evOut, r.reqid = x.evNext ∧ r.sink = sink.val ∧ r.seq = seq) ∧ t.sinks = s.sinks ∧ Frame s t [] := by
  let r : EventReq := { reqid := x.evNext, sink := sink.val, seq := seq, begun := s.now, sent := s.now, interval := 20000000 }
  let y : Session := { x with evNext := x.evNext + 1, evOut := x.evOut ++ [r] }
  let u : State := { s with sessions := s.sessions.set k (some y) }
  have hu : u.sessions[k] = some y := by simp [u]
  have hfirst : (List.finRange 64).find? (fun i => match s.sessions[i] with | some x => x.ch.key == q.key | none => false) = some k := by
    refine find_first (by simp [hx, hkey]) fun i hi => ?_
    cases hi' : s.sessions[i] with
    | none => rfl
    | some z => simpa using hbelow i hi z hi'
  have hfind : q.queue.find? (fun m => !x.evOut.any (fun e => e.sink == sink.val && e.seq == m.1)) = some (seq, e) := by
    rw [hqueue, List.find?_cons_of_pos]
    simp only [Bool.not_eq_true', List.any_eq_false, Bool.and_eq_true, beq_iff_eq]
    exact hnew
  have hexec : exec (.event sink) s = .next (u.sendOn (.ningonus k) (fun p sid => .eventMsg p sid x.evNext seq e)) := by
    show execEvent sink s = _
    unfold execEvent
    rw [hq]
    dsimp only
    split
    next hnone => exact absurd (hnone.symm.trans hfirst) (by simp)
    next i hi =>
      obtain rfl : k = i := Option.some.inj (hfirst.symm.trans hi)
      rw [hx]
      dsimp only
      rw [hfind]
  rw [sendOn_of hu hup htx] at hexec
  exact ⟨_, { y with ch := { y.ch with tx := y.ch.tx + 1 } }, hexec, List.mem_cons_self, by simp [State.emit], rfl, rfl,
    ⟨r, by simp [y], rfl, rfl, rfl⟩, rfl, frame_aside rfl rfl rfl⟩

theorem exec_requestRetransmit (r : EventReq) (q : Sink) (e : EventRec) (hx : s.sessions[k] = some x) (hout : x.evOut = [r])
    (hlive : s.now < r.begun + 5000000000) (hdue : r.sent + r.interval ≤ s.now) (hq : (s.sinks[r.sink]?).join = some q)
    (hfind : q.queue.find? (fun m => m.1 == r.seq) = some (r.seq, e)) (hup : (s.port x.ch.port).up = true) (htx : x.ch.tx + 1 < 2 ^ 32) :
    ∃ t y, exec (.requestRetransmit k) s = .next t ∧ Output.eventMsg x.ch.port x.ch.sid r.reqid r.seq e ∈ t.out ∧ t.sessions[k] = some y ∧
      y.evOut = [{ r with sent := s.now, interval := min 640000000 (2 * r.interval) }] ∧ Frame s t [] := by
  let y : Session := { x with evOut := [{ r with sent := s.now, interval := min 640000000 (2 * r.interval) }] }
  let u : State := { s with sessions := s.sessions.set k (some y) }
  have hu : u.sessions[k] = some y := by simp [u]
  have hexec : exec (.requestRetransmit k) s = .next (u.sendOn (.ningonus k) (fun p sid => .eventMsg p sid r.reqid r.seq e)) := by
    show execRequestRetransmit k s = _
    unfold execRequestRetransmit
    rw [hx]
    have hone : x.evOut.filter (fun e => decide (s.now < e.begun + 5000000000)) = [r] := by simp [hout, hlive]
    have hagain : [r].filter (fun e => decide (e.sent + e.interval ≤ s.now)) = [r] := by simp [hdue]
    dsimp only
    rw [hone, hagain]
    simp only [List.map_cons, List.map_nil, if_pos hdue, List.foldl_cons, List.foldl_nil]
    rw [hq]
    dsimp only
    rw [hfind]
  rw [sendOn_of hu hup htx] at hexec
  exact ⟨_, { y with ch := { y.ch with tx := y.ch.tx + 1 } }, hexec, List.mem_cons_self, by simp [State.emit], rfl, frame_aside rfl rfl rfl⟩

/-- Settles O46: one theorem per command, HELLO by its outcome. -/
theorem sessions : Obligations.Sessions := fun _ _ _ _ =>
  ⟨fun key nets role => exec_hello_opens key nets role, fun key nets sigOk => exec_hello_refuses key nets sigOk, exec_data, exec_close,
    exec_sessionIdleTimeout, exec_reqidHoldExpiry, exec_event, exec_requestRetransmit⟩

end Sys2Proof.Machine

end

section
/-! SUPPORT. Transfers and connections: what opening connections and placing pieces leave, and serving a request (R343 to R345, R349). -/

namespace Sys2Proof.Machine

open Sys2Proof.Safety

variable {l : List RegField} {s t u : State}

/-! ### Transfers and connections -/

/-- The state with other connections, transfers, registers, outputs and transfer numbers. -/
def State.moved (s : State) (c : List Conn) (x : List Xfer) (r : List (Nat × Word)) (o : List Output) (n : Nat) : State :=
  { s with conns := c, xfers := x, regs := r, out := o, nextXfer := n }

/-- From s to t only connections, transfers, the fields l of registers, and what has been sent have changed. -/
structure Moves (l : List RegField) (s t : State) : Prop where
  wrote : Wrote l s t
  shape : ∃ c x r o n, t = s.moved c x r o n

namespace Moves

/-- Every part of the state that transfers leave. -/
theorem part {α : Type} (h : Moves l s t) (p : State → α) (hp : ∀ s c x r o n, p (State.moved s c x r o n) = p s := by intros; rfl) : p t = p s := by
  obtain ⟨c, x, r, o, n, rfl⟩ := h.shape
  exact hp s c x r o n

theorem of_eq (h : Wrote l s t) (he : t = s.moved t.conns t.xfers t.regs t.out t.nextXfer) : Moves l s t := ⟨h, _, _, _, _, _, he⟩

theorem refl : Moves l s s := of_eq .refl rfl

theorem trans (h : Moves l s t) (k : Moves l t u) : Moves l s u := by
  refine ⟨h.wrote.trans k.wrote, ?_⟩
  obtain ⟨c, x, r, o, n, rfl⟩ := h.shape
  obtain ⟨c', x', r', o', n', rfl⟩ := k.shape
  exact ⟨_, _, _, _, _, rfl⟩

theorem mono {m : List RegField} (h : Moves l s t) (hsub : ∀ f ∈ l, f ∈ m) : Moves m s t := ⟨h.wrote.mono hsub, h.shape⟩

theorem emit (h : Moves l s t) (x : Output) : Moves l s (t.emit x) := h.trans (of_eq (Wrote.refl.emit x) rfl)

theorem conns (h : Moves l s t) (c : List Conn) : Moves l s { t with conns := c } := h.trans (of_eq (Wrote.refl.conns c) rfl)

theorem xfers (h : Moves l s t) (x : List Xfer) : Moves l s { t with xfers := x } := h.trans (of_eq (Wrote.refl.xfers x) rfl)

theorem setFld {o hi lo : Nat} (h : Moves l s t) (v : Nat) (hh : hi < 64) (ho : (o, hi, lo) ∈ l) : Moves l s (t.setFld o hi lo v) :=
  h.trans (of_eq (Wrote.refl.setFld v hh ho) rfl)

theorem foldl {α : Type} {f : State → α → State} {as : List α} (h : Moves l s t) (hf : ∀ u, ∀ a ∈ as, Moves l u (f u a)) : Moves l s (as.foldl f t) :=
  h.trans (List.foldlRecOn as f refl fun u hu a ha => hu.trans (hf u a ha))

end Moves

/-- The fields in which ports show their connections (R373). -/
def rconnFields : List RegField := (List.range 8).map (fun j => (Csr.ethPortStat j, 47, 40))

theorem syncConns_moves (s : State) : Moves rconnFields s s.syncConns :=
  Moves.refl.foldl fun _ _ hj => Moves.refl.setFld _ (by decide) (List.mem_map_of_mem hj)

theorem openConns_moves (s : State) (server : BitVec 256) : Moves rconnFields s (s.openConns server) := by
  unfold State.openConns
  refine Moves.trans ?_ (syncConns_moves _)
  exact (Moves.refl.foldl fun _ _ _ => Moves.refl.emit _).conns _

theorem placeOn_moves (s : State) (c : Conn) (x : Xfer) (p : Nat) : Moves [] s (s.placeOn c x p) :=
  Moves.of_eq (Wrote.refl.aside rfl rfl rfl rfl) rfl

theorem placePieces_moves (fuel : Nat) (s : State) : Moves [] s (s.placePieces fuel) := by
  induction fuel generalizing s with
  | zero => exact Moves.refl
  | succ n ih =>
    unfold State.placePieces
    split
    · exact Moves.refl
    · exact (placeOn_moves _ _ _ _).trans (ih _)

theorem place_moves (s : State) : Moves [] s s.place := placePieces_moves _ s

theorem startXfer_moves (s : State) (use : XferUse) (server : BitVec 256) (len : Nat) : Moves rconnFields s (s.startXfer use server len) := by
  unfold State.startXfer
  refine Moves.trans (Moves.trans ?_ (openConns_moves _ server)) ((place_moves _).mono (by simp))
  exact Moves.of_eq (Wrote.refl.aside rfl rfl rfl rfl) rfl

theorem dropXfer_moves (s : State) (id : Nat) : Moves [] s (s.dropXfer id) := by
  unfold State.dropXfer
  refine Moves.trans ?_ (place_moves _)
  exact Moves.of_eq (Wrote.refl.aside rfl rfl rfl rfl) rfl

/-! ### Transfers that go on -/

/-- Every transfer of s goes on in t under its number, for its purpose and server. -/
def XfersGoOn (s t : State) : Prop := ∀ x ∈ s.xfers, ∃ y ∈ t.xfers, y.id = x.id ∧ y.purpose = x.purpose ∧ y.server = x.server

theorem XfersGoOn.of_eq (h : t.xfers = s.xfers) : XfersGoOn s t := fun x hx => ⟨x, h ▸ hx, rfl, rfl, rfl⟩

theorem XfersGoOn.trans (h : XfersGoOn s t) (k : XfersGoOn t u) : XfersGoOn s u := fun x hx => by
  obtain ⟨y, hy, hid, hpurpose, hserver⟩ := h x hx
  obtain ⟨z, hz, hid', hpurpose', hserver'⟩ := k y hy
  exact ⟨z, hz, hid'.trans hid, hpurpose'.trans hpurpose, hserver'.trans hserver⟩

theorem placeOn_goesOn (s : State) (c : Conn) (x : Xfer) (p : Nat) : XfersGoOn s (s.placeOn c x p) := fun y hy =>
  ⟨_, List.mem_map_of_mem hy, by split <;> rfl, by split <;> rfl, by split <;> rfl⟩

theorem placePieces_goesOn (fuel : Nat) (s : State) : XfersGoOn s (s.placePieces fuel) := by
  induction fuel generalizing s with
  | zero => exact .of_eq rfl
  | succ n ih =>
    unfold State.placePieces
    split
    · exact .of_eq rfl
    · exact (placeOn_goesOn _ _ _ _).trans (ih _)

theorem syncConns_xfers (s : State) : s.syncConns.xfers = s.xfers :=
  List.foldlRecOn (motive := fun t : State => t.xfers = s.xfers) _ _ rfl fun _ h _ _ => h

theorem openConns_xfers (s : State) (server : BitVec 256) : (s.openConns server).xfers = s.xfers := by
  unfold State.openConns
  rw [syncConns_xfers]
  exact List.foldlRecOn (motive := fun t : State => t.xfers = s.xfers) _ _ rfl fun _ h _ _ => h

/-- A transfer that begins is under way for its purpose, from its server. -/
theorem startXfer_begins (s : State) (use : XferUse) (server : BitVec 256) (len : Nat) :
    ∃ y ∈ (s.startXfer use server len).xfers, y.purpose = use ∧ y.server = server := by
  let x : Xfer := { id := s.nextXfer, purpose := use, server := server, waiting := (List.range (ceilDiv len (2 ^ 20))).map (fun p => (p, s.now))
                    bound := [], flying := [], outcome := if len = 0 then some true else none }
  let u := State.openConns { s with xfers := s.xfers ++ [x], nextXfer := s.nextXfer + 1 } server
  have hx : x ∈ u.xfers := by
    rw [openConns_xfers]
    exact List.mem_append_right _ List.mem_cons_self
  obtain ⟨y, hy, -, hpurpose, hserver⟩ := placePieces_goesOn (4 * u.conns.length) u x hx
  exact ⟨y, hy, hpurpose, hserver⟩

/-! ### Requests served -/

section

variable {k : Fin 64} {x : Session} {id : BitVec 32} {rest : List (BitVec 32 × Nat)} {mt : Nat} {r : Response}

theorem Wrote.taken (k : Fin 64) (x : Session) (id : BitVec 32) (rest : List (BitVec 32 × Nat)) : Wrote l s (s.taken k x id rest) := Wrote.refl.sessions _

theorem Wrote.replied (h : Wrote l s t) : Wrote l s (t.replied k x id rest r) :=
  h.trans ⟨rfl, rfl, fun _ hx => List.mem_cons_of_mem _ hx, fun w => w, fun _ _ _ _ _ => rfl⟩

/-- A served request whose effect and answer are known, with sessions and ports left alone. -/
theorem serve_effect {effect : State → State × Response} (h : Due s k x mt id rest) (heff : effect (s.taken k x id rest) = (u, r))
    (hs : u.sessions = (s.taken k x id rest).sessions) (hp : u.ports = s.ports) :
    s.serve (.ningonus k) mt effect = u.replied k x id rest r := by
  have hserve := serve_due (effect := effect) h (by rw [heff]; exact hs) (by rw [heff]; exact hp)
  rw [heff] at hserve
  exact hserve

/-- An answer without an effect. -/
theorem replied_taken : (s.taken k x id rest).replied k x id rest r =
    { s with out := ((s.taken k x id rest).replied k x id rest r).out, sessions := ((s.taken k x id rest).replied k x id rest r).sessions } := rfl

end

end Sys2Proof.Machine

end

section
/-! PROOFS. Requests on work and levels (R350, R353, R357 to R359, R377, R404, R459). -/

namespace Sys2Proof.Machine

open Sys2Proof.Safety

variable {l : List RegField} {s t u : State}

/-! ### A job released -/

/-- What the release of a job's cores and groups leaves: outputs, sessions, ports, completion rings, jobs and a reset that waits. -/
def State.surroundings (s : State) : List Output × Vector (Option Session) 64 × Vector HostPort 8 × List ComplRing × List Job × Bool :=
  (s.out, s.sessions, s.ports, s.rings, s.jobs, s.resetAfterJobs)

theorem surroundings_eq {o : List Output} {x : Vector (Option Session) 64} {p : Vector HostPort 8} {r : List ComplRing} {j : List Job} {b : Bool} :
    s.surroundings = (o, x, p, r, j, b) ↔ s.out = o ∧ s.sessions = x ∧ s.ports = p ∧ s.rings = r ∧ s.jobs = j ∧ s.resetAfterJobs = b := by
  simp only [State.surroundings, Prod.mk.injEq]

theorem freeOverlap_surroundings (s : State) (dst src : List (Nat × Nat)) : (s.freeOverlap dst src).surroundings = s.surroundings := by
  unfold State.freeOverlap
  refine List.foldlRecOn (motive := fun t : State => t.surroundings = s.surroundings) _ _ rfl fun t ht r _ => ?_
  refine List.foldlRecOn (motive := fun t : State => t.surroundings = s.surroundings) _ _ ht fun v hv i _ => ?_
  split
  · exact hv
  · exact hv

theorem loseStaging_surroundings (s : State) (g : Group) : (s.loseStaging g).surroundings = s.surroundings := by
  unfold State.loseStaging
  split
  · exact freeOverlap_surroundings _ _ _
  · rfl

theorem releaseGroups_surroundings (s : State) (job : Word) : (s.releaseGroups job).surroundings = s.surroundings := by
  have hslot (t : State) (i : Nat) : (t.releaseSlot i).surroundings = t.surroundings := rfl
  refine List.foldlRecOn (motive := fun t : State => t.surroundings = s.surroundings) _ _ rfl fun t ht i _ => ?_
  split
  · split
    · exact (hslot _ i).trans ((loseStaging_surroundings t _).trans ht)
    · exact ht
  · exact ht

theorem leaveJobs_surroundings (s : State) (j : Job) : ((maskCores j.cores).foldl (fun (t : State) n => if (t.cores[n]).job = j.id then t.leaveJob n else t) s).surroundings =
    s.surroundings := by
  have hleave (t : State) (n : Fin 32) : (t.leaveJob n).surroundings = t.surroundings := rfl
  refine List.foldlRecOn (motive := fun t : State => t.surroundings = s.surroundings) _ _ rfl fun t ht n _ => ?_
  split
  · exact (hleave t n).trans ht
  · exact ht

/-- The device has let go of the job: it is held no more, the rest of its surroundings is as before. -/
theorem releaseJob_surroundings (s : State) (j : Job) :
    (s.releaseJob j).surroundings = (s.out, s.sessions, s.ports, s.rings, s.jobs.filter (fun x => x.id != j.id), s.resetAfterJobs) := by
  have hgroups := (releaseGroups_surroundings _ j.id).trans (leaveJobs_surroundings s j)
  simp only [State.surroundings, Prod.mk.injEq] at hgroups
  obtain ⟨hout, hsessions, hports, hrings, hjobs, hreset⟩ := hgroups
  simp only [State.surroundings, State.releaseJob, hout, hsessions, hports, hrings, hjobs, hreset]

/-! ### SUBMIT -/

/-- The admission that a SUBMIT body asks for. -/
def admissionOf (body : List Byte) : Admission :=
  { digest := digestOfBytes ((body.drop 64).take 32), key := digestOfBytes ((body.drop 128).take 32), nl := bodyNat body 96 2, ref := refOf body 32
    server := serverAt body 0 }

/-- The state that has accepted a submission and fetches its descriptor (R353, R357). -/
def State.admits (s : State) (a : Admission) : State :=
  State.startXfer { s with admissions := s.admissions ++ [a] } (.descriptor a.digest) a.server a.ref.len

theorem admits_moves (s : State) (a : Admission) : Moves rconnFields { s with admissions := s.admissions ++ [a] } (s.admits a) := startXfer_moves _ _ _ _

/-- A submission that passes every check is answered OK and fetched unless its digest is held. -/
theorem submit_accepts {body : List Byte} (hlock : (s.reg Csr.secStat).bit 60 = false)
    (hlen : body.length = 224) (hclean : refClean body 32 = true) (hzero : bodyNat body 98 30 = 0)
    (hkey : s.maySign (digestOfBytes ((body.drop 128).take 32)) = true) (hreset : s.resetAfterJobs = false) (hacq : s.acquittal = none)
    (hheld : s.mstate ≠ mHeld) (hnl : bodyNat body 96 2 = s.fld Csr.capNl 23 16) :
    s.submit body true = if s.digestHeld (admissionOf body).digest then (s, stOk) else (s.admits (admissionOf body), stOk) := by
  unfold State.submit
  dsimp only
  rw [if_neg (by simp [hlock]), if_neg (by simp [hlen, hclean, hzero]), if_neg (by simp [hkey]), if_neg (by simp [hreset, hacq]), if_neg hheld,
    if_neg (not_not.mpr hnl)]
  rfl

theorem rconnFields_offsets : ∀ f ∈ rconnFields, f.1 ∈ (List.range 8).map Csr.ethPortStat := fun f hf => by
  obtain ⟨j, hj, rfl⟩ := List.mem_map.mp hf
  exact List.mem_map_of_mem hj

theorem exec_submit (w : regsCanonical s) {k : Fin 64} {x : Session} {id : BitVec 32} {rest : List (BitVec 32 × Nat)} {body : List Byte}
    (hdue : Due s k x 0x10 id rest) (hlock : (s.reg Csr.secStat).bit 60 = false)
    (hlen : body.length = 224) (hclean : refClean body 32 = true) (hzero : bodyNat body 98 30 = 0)
    (hkey : s.maySign (digestOfBytes ((body.drop 128).take 32)) = true) (hreset : s.resetAfterJobs = false) (hacq : s.acquittal = none)
    (hheld : s.mstate ≠ mHeld) (hnl : bodyNat body 96 2 = s.fld Csr.capNl 23 16) :
    ∃ t, exec (.submit k body true) s = .next t ∧ Answered t k x id rest { status := 0, body := [] } ∧ t.jobs = s.jobs ∧
      Frame s t ((List.range 8).map Csr.ethPortStat) ∧
      (s.digestHeld (admissionOf body).digest = true → t = { s with out := t.out, sessions := t.sessions }) ∧
      (s.digestHeld (admissionOf body).digest = false →
        (∃ y ∈ t.xfers, y.purpose = .descriptor (admissionOf body).digest ∧ y.server = serverAt body 0) ∧ t.admissions = s.admissions ++ [admissionOf body]) := by
  let v := s.taken k x id rest
  have hsubmit : v.submit body true = if v.digestHeld (admissionOf body).digest then (v, stOk) else (v.admits (admissionOf body), stOk) :=
    submit_accepts (s := v) hlock hlen hclean hzero hkey hreset hacq hheld hnl
  have hexec {u : State} (h : v.submit body true = (u, stOk)) (hs : u.sessions = v.sessions) (hp : u.ports = s.ports) :
      exec (.submit k body true) s = .next (u.replied k x id rest (plain stOk)) := by
    refine congrArg Host.Outcome.next (serve_effect hdue ?_ hs hp)
    dsimp only
    rw [h]
  by_cases hnew : v.digestHeld (admissionOf body).digest = true
  · rw [if_pos hnew] at hsubmit
    have hframe : Wrote [] s (v.replied k x id rest (plain stOk)) := (Wrote.taken ..).replied
    exact ⟨_, hexec hsubmit rfl rfl, answered_replied, rfl, hframe.frame w (by simp), fun _ => rfl, fun h => absurd (hnew.symm.trans h) (by decide)⟩
  · rw [if_neg hnew] at hsubmit
    have hmoves := admits_moves v (admissionOf body)
    have hbefore : Wrote rconnFields s { v with admissions := v.admissions ++ [admissionOf body] } := Wrote.refl.aside rfl rfl rfl rfl
    refine ⟨_, hexec hsubmit (hmoves.part State.sessions) (hmoves.part State.ports), answered_replied, hmoves.part State.jobs,
      (hbefore.trans hmoves.wrote).replied.frame w rconnFields_offsets, fun h => absurd h hnew,
      fun _ => ⟨startXfer_begins _ _ _ _, hmoves.part State.admissions⟩⟩

/-! ### CANCEL -/

/-- What a record and its event leave: sessions, ports, jobs and a reset that waits. -/
def State.audience (s : State) : Vector (Option Session) 64 × Vector HostPort 8 × List Job × Bool := (s.sessions, s.ports, s.jobs, s.resetAfterJobs)

theorem addRecord_audience (s : State) (job : Word) (kind reason : Nat) (arg : Word) (detail : List Byte) (final : Bool) :
    (s.addRecord job kind reason arg detail final).audience = s.audience := by
  unfold State.addRecord
  split
  · rfl
  · dsimp only
    split
    · exact (Tells.refl.raiseJob _ _ _).part State.audience
    · rfl

/-- A record finds room in the ring of its job. -/
theorem addRecord_rings {job : Word} {r : ComplRing} (hr : s.rings.find? (fun r => r.job == job && !r.final) = some r) (hroom : r.waiting.length < 256)
    (kind reason : Nat) (arg : Word) (detail : List Byte) (final : Bool) :
    ∃ y ∈ (s.addRecord job kind reason arg detail final).rings, y.job = job ∧ y.final = final ∧
      y.waiting = r.waiting ++ [{ job := job, seq := r.nextSeq, kind := kind, reason := reason, ft := s.ft, arg := arg, detail := detail }] := by
  have hfound : r.job = job ∧ r.final = false := by simpa using List.find?_some hr
  have hnotFull : decide (256 ≤ r.waiting.length) = false := by simpa using hroom
  refine ⟨{ r with waiting := r.waiting ++ [{ job := job, seq := r.nextSeq, kind := kind, reason := reason, ft := s.ft, arg := arg, detail := detail }]
                   nextSeq := r.nextSeq + 1, final := final }, ?_, hfound.1, rfl, rfl⟩
  unfold State.addRecord
  rw [hr]
  simp only [hnotFull, Bool.not_false, if_true, Bool.false_eq_true, if_false]
  exact List.mem_map.mpr ⟨r, List.mem_of_find?_eq_some hr, by simp [hfound]⟩

theorem afterJob_waitless (h : s.resetAfterJobs = false) : s.afterJob = s := by
  unfold State.afterJob
  rw [if_neg (by simp [h])]

/-- A job let go of while no reset waits. -/
theorem released_surroundings (h : s.resetAfterJobs = false) (j : Job) :
    ((s.releaseJob j).afterJob).surroundings = (s.out, s.sessions, s.ports, s.rings, s.jobs.filter (fun x => x.id != j.id), false) := by
  have hrel := releaseJob_surroundings s j
  rw [h] at hrel
  rw [afterJob_waitless (surroundings_eq.mp hrel).2.2.2.2.2]
  exact hrel

/-- What an admitted or starting job's failure leaves (R357). -/
theorem failStart_leaves (h : s.resetAfterJobs = false) (j : Job) (reason : Nat) (detail : List Byte) :
    ∃ u, Tells (s.addRecord j.id 2 reason 0 detail true) u ∧ Raised u 0x98 j.id ∧
      (s.failStart j reason detail).surroundings = (u.out, s.sessions, s.ports, u.rings, s.jobs.filter (fun x => x.id != j.id), false) := by
  have htells := Tells.refl.raiseJob (s := s.addRecord j.id 2 reason 0 detail true) 0x98 j.id (BitVec.ofNat 64 reason :: wordsOf 4 (digestBytes j.digest))
  have haud := (htells.part State.audience).trans (addRecord_audience s _ _ _ _ _ _)
  refine ⟨_, htells, raised_raiseJob _ _ _ _, ?_⟩
  show ((State.releaseJob (State.raiseJob (s.addRecord j.id 2 reason 0 detail true) 0x98 j.id (BitVec.ofNat 64 reason :: wordsOf 4 (digestBytes j.digest)))
    j).afterJob).surroundings = _
  generalize State.raiseJob (s.addRecord j.id 2 reason 0 detail true) _ _ _ = u at haud ⊢
  simp only [State.audience, Prod.mk.injEq] at haud
  obtain ⟨hsessions, hports, hjobs, hwait⟩ := haud
  rw [← hsessions, ← hports, ← hjobs]
  exact released_surroundings (hwait.trans h) j

section

variable {k : Fin 64} {x : Session} {id : BitVec 32} {rest : List (BitVec 32 × Nat)} {job : Word} {j : Job}

/-- The effect of CANCEL (R350, R358). -/
def cancelEffect (k : Fin 64) (job : Word) (s : State) : State × Response :=
  match s.job? job, s.sessions[k] with
  | some j, some x =>
    if x.role ≠ 0 ∧ j.key ≠ x.ch.key then (s, plain stDenied)
    else if j.phase ≠ .running then (s.failStart j 8 [], plain stOk)
    else
      ((s.putJob { j with cancelled := true }).askHalt { job := job, cause := 8, detail := 0, loc := 0, ft := s.ft, fenced := false }, plain stOk)
  | _, _ => (s, plain stNotFound)

/-- A request of the job's own key, or of an owner's, is not denied. -/
theorem cancelEffect_allowed (hj : s.job? job = some j) (hx : s.sessions[k] = some x) (hmay : x.role = 0 ∨ j.key = x.ch.key) :
    cancelEffect k job s = if j.phase ≠ .running then (s.failStart j 8 [], plain stOk) else
      ((s.putJob { j with cancelled := true }).askHalt { job := job, cause := 8, detail := 0, loc := 0, ft := s.ft, fenced := false }, plain stOk) := by
  unfold cancelEffect
  rw [hj, hx]
  exact if_neg fun ⟨hrole, hkey⟩ => hmay.elim hrole hkey

theorem exec_cancel {v : State} (hdue : Due s k x 0x11 id rest) (heff : cancelEffect k job (s.taken k x id rest) = (v, plain stOk))
    (hs : v.sessions = (s.taken k x id rest).sessions) (hp : v.ports = s.ports) :
    exec (.cancel k job) s = .next (v.replied k x id rest (plain stOk)) := by
  show Host.Outcome.next (s.serve (.ningonus k) 0x11 (cancelEffect k job)) = _
  rw [serve_effect hdue heff hs hp]

theorem exec_cancel_waiting (hdue : Due s k x 0x11 id rest) (hj : s.job? job = some j) (hmay : x.role = 0 ∨ j.key = x.ch.key)
    (hphase : j.phase ≠ .running) (hwait : s.resetAfterJobs = false) :
    ∃ t, exec (.cancel k job) s = .next t ∧ Answered t k x id rest { status := 0, body := [] } ∧ t.job? job = none ∧ Raised t 0x98 job ∧
      ∀ r, s.rings.find? (fun r => r.job == job && !r.final) = some r → r.waiting.length < 256 →
        ∃ y ∈ t.rings, y.job = job ∧ y.final = true ∧ y.waiting = r.waiting ++
          [{ job := job, seq := r.nextSeq, kind := 2, reason := 8, ft := s.ft, arg := 0, detail := [] }] := by
  have hid : j.id = job := by simpa using List.find?_some hj
  obtain ⟨u, htells, hraised, hleaves⟩ := failStart_leaves (s := s.taken k x id rest) hwait j 8 []
  have heff := cancelEffect_allowed (s := s.taken k x id rest) (job := job) (j := j) hj taken_session hmay
  rw [if_pos hphase] at heff
  generalize (s.taken k x id rest).failStart j 8 [] = v at hleaves heff
  obtain ⟨hout, hsessions, hports, hrings, hjobs, -⟩ := surroundings_eq.mp hleaves
  refine ⟨_, exec_cancel hdue heff hsessions hports, answered_replied, ?_, ?_, fun r hr hroom => ?_⟩
  · show v.jobs.find? _ = none
    rw [hjobs]
    exact List.find?_eq_none.mpr fun y hy => by simpa [hid] using (List.mem_filter.mp hy).2
  · rw [← hid]
    exact Raised.sent hraised fun o ho => List.mem_cons_of_mem _ (hout ▸ ho)
  · obtain ⟨y, hy, hrest⟩ := addRecord_rings (s := s.taken k x id rest) (job := job) hr hroom 2 8 0 [] true
    refine ⟨y, ?_, hrest⟩
    show y ∈ v.rings
    rw [hrings, htells.part State.rings, hid]
    exact hy

theorem exec_cancel_running (w : regsCanonical s) (hdue : Due s k x 0x11 id rest) (hj : s.job? job = some j) (hmay : x.role = 0 ∨ j.key = x.ch.key)
    (hphase : j.phase = .running) :
    ∃ t, exec (.cancel k job) s = .next t ∧ Answered t k x id rest { status := 0, body := [] } ∧ t.job? job = some { j with cancelled := true } ∧
      Frame s t [] ∧ t.halts = s.halts ++ [{ job := job, cause := 8, detail := 0, loc := 0, ft := s.ft, fenced := false }] := by
  have heff := cancelEffect_allowed (s := s.taken k x id rest) (job := job) (j := j) hj taken_session hmay
  rw [if_neg (not_not.mpr hphase)] at heff
  have hput : ((s.taken k x id rest).putJob { j with cancelled := true }).job? job = some { j with cancelled := true } :=
    job?_putJob (show (s.taken k x id rest).job? job = some j from hj) rfl
  have hwrote : Wrote [] s (((s.taken k x id rest).putJob { j with cancelled := true }).askHalt
      { job := job, cause := 8, detail := 0, loc := 0, ft := s.ft, fenced := false }) := Wrote.refl.aside rfl rfl rfl rfl
  exact ⟨_, exec_cancel hdue heff rfl rfl, answered_replied, hput, hwrote.replied.frame w (by simp), rfl⟩

/-! ### JOB_QUERY, WORKLIST, LEVEL_SET and RESUME -/

theorem exec_jobQuery {r : JobRecord} (hdue : Due s k x 0x12 id rest) (hr : s.lastRecords.find? (fun r => r.job == job) = some r) :
    ∃ t, exec (.jobQuery k job) s = .next t ∧ Answered t k x id rest { status := 0, body := complBytes r } ∧
      t = { s with out := t.out, sessions := t.sessions } := by
  have hfound : (s.taken k x id rest).lastRecords.find? (fun r => r.job == job) = some r := hr
  refine ⟨_, congrArg Host.Outcome.next (serve_effect hdue ?_ rfl rfl), answered_replied, replied_taken⟩
  rw [hfound]
  rfl

/-- The state with one of the four work lists set or disabled. -/
def State.listed (s : State) (list : Fin 4) (o : Option WorkList) : State := { s with worklists := s.worklists.setIfInBounds list o }

theorem exec_worklist {list : Fin 4} (server : BitVec 256) (rkey va len : Nat) {interval : Nat} (hdue : Due s k x 0x13 id rest)
    (hinterval : interval = 0 ∨ (10 ≤ interval ∧ interval ≤ 60000)) :
    ∃ t, exec (.worklist k list.val server rkey va len interval) s = .next t ∧ Answered t k x id rest { status := 0, body := [] } ∧
      t.worklists[list] = (if interval = 0 then none else
        some { server := server, ref := { srv := 0, rkey := rkey, va := va, len := len }, interval := interval, cons := 0, polled := none }) ∧
      (∀ i : Fin 4, i ≠ list → t.worklists[i] = s.worklists[i]) ∧ t = { s with out := t.out, sessions := t.sessions, worklists := t.worklists } := by
  let o : Option WorkList := if interval = 0 then none else
    some { server := server, ref := { srv := 0, rkey := rkey, va := va, len := len }, interval := interval, cons := 0, polled := none }
  have hform : ¬ (4 ≤ list.val ∨ (interval ≠ 0 ∧ (interval < 10 ∨ 60000 < interval))) := by omega
  have hexec : exec (.worklist k list.val server rkey va len interval) s = .next (((s.taken k x id rest).listed list o).replied k x id rest (plain stOk)) := by
    refine congrArg Host.Outcome.next (serve_effect hdue ?_ rfl rfl)
    dsimp only
    rw [if_neg hform]
    rfl
  refine ⟨_, hexec, answered_replied, ?_, fun i hi => ?_, rfl⟩
  · exact Vector.getElem_setIfInBounds_self list.isLt
  · exact Vector.getElem_setIfInBounds_ne i.isLt fun e => hi (Fin.ext e.symm)

/-- A level set and written to the journal when it has changed (R460). -/
def State.level (s : State) (o hi lo : Nat) (body : List Word) (v : Byte) : State :=
  if v.toNat = s.fld o hi lo then s.setFld o hi lo v.toNat else (s.setFld o hi lo v.toNat).journalAdd 8 body

theorem level_wrote (s : State) (o hi lo : Nat) (body : List Word) (v : Byte) :
    Wrote [(Csr.jrnStat, 31, 0), (Csr.jrnStat, 47, 32)] (s.setFld o hi lo v.toNat) (s.level o hi lo body v) := by
  unfold State.level
  exact .ite .refl (Wrote.refl.journalAdd _ _ (by simp) (by simp))

theorem level_seats (s : State) (o hi lo : Nat) (body : List Word) (v : Byte) : (s.level o hi lo body v).sessions = s.sessions ∧
    (s.level o hi lo body v).ports = s.ports := by
  unfold State.level
  split <;> exact ⟨rfl, rfl⟩

/-- What a level that LEVEL_SET has set leaves. -/
theorem level_leaves (w : regsCanonical s) {o hi lo : Nat} (hh : hi < 64) (hwide : hi + 1 - lo = 8) (ho : Apart [(Csr.jrnStat, 31, 0), (Csr.jrnStat, 47, 32)] o hi lo)
    {body : List Word} {v : Byte} (hexec : exec (.levelSet k [b, v]) s = .next (((s.taken k x id rest).level o hi lo body v).replied k x id rest (plain stOk))) :
    ∃ t, exec (.levelSet k [b, v]) s = .next t ∧ Answered t k x id rest { status := 0, body := [] } ∧ t.fld o hi lo = v.toNat ∧
      Frame s t [o, Csr.jrnStat] := by
  have hset : Wrote [(o, hi, lo), (Csr.jrnStat, 31, 0), (Csr.jrnStat, 47, 32)] s ((s.taken k x id rest).setFld o hi lo v.toNat) :=
    (Wrote.taken ..).setFld _ hh (by simp)
  have hlevel := level_wrote (s.taken k x id rest) o hi lo body v
  refine ⟨_, hexec, answered_replied, hlevel.replied.reads ?_ hh ?_ ho, (hset.trans (hlevel.mono (by simp))).replied.frame w (by simp)⟩
  · exact (Wrote.taken (l := []) ..).canonical w
  · rw [hwide]; exact v.isLt

theorem exec_levelSet_cpl (hdue : Due s k x 0x30 id rest) {v : Byte} (hlo : s.fld Csr.clLvl 15 8 ≤ v.toNat) (hhi : v.toNat ≤ s.fld Csr.clLvl 23 16) :
    exec (.levelSet k [1, v]) s = .next (((s.taken k x id rest).level Csr.clLvl 7 0 [1, BitVec.ofNat 64 v.toNat] v).replied k x id rest (plain stOk)) := by
  obtain ⟨hs, hp⟩ := level_seats (s.taken k x id rest) Csr.clLvl 7 0 [1, BitVec.ofNat 64 v.toNat] v
  have hlevel : bodyNat [1, v] 0 1 = 1 := rfl
  have hvalue : bodyNat [1, v] 1 1 = v.toNat := rfl
  refine congrArg Host.Outcome.next (serve_effect hdue ?_ hs hp)
  dsimp only
  rw [hlevel, hvalue]
  simp only [if_true]
  rw [if_neg]
  · rfl
  · have h1 : (s.taken k x id rest).fld Csr.clLvl 15 8 ≤ v.toNat := hlo
    have h2 : v.toNat ≤ (s.taken k x id rest).fld Csr.clLvl 23 16 := hhi
    simp; omega

theorem exec_levelSet_nl (hdue : Due s k x 0x30 id rest) {v : Byte} (hlo : s.fld Csr.capNl 7 0 ≤ v.toNat) (hhi : v.toNat ≤ s.fld Csr.capNl 15 8) :
    exec (.levelSet k [2, v]) s = .next (((s.taken k x id rest).level Csr.capNl 23 16 [2, BitVec.ofNat 64 v.toNat] v).replied k x id rest (plain stOk)) := by
  obtain ⟨hs, hp⟩ := level_seats (s.taken k x id rest) Csr.capNl 23 16 [2, BitVec.ofNat 64 v.toNat] v
  have hlevel : bodyNat [2, v] 0 1 = 2 := rfl
  have hvalue : bodyNat [2, v] 1 1 = v.toNat := rfl
  refine congrArg Host.Outcome.next (serve_effect hdue ?_ hs hp)
  dsimp only
  rw [hlevel, hvalue]
  simp only [show ¬ (2 = 1) by decide, if_false]
  rw [if_neg]
  · rfl
  · have h1 : (s.taken k x id rest).fld Csr.capNl 7 0 ≤ v.toNat := hlo
    have h2 : v.toNat ≤ (s.taken k x id rest).fld Csr.capNl 15 8 := hhi
    simp; omega

/-- The journal's record of the shutdown is marked resumed (R404). -/
def State.unheld (s : State) : State :=
  { s with flash := { s.flash with
      held := false
      journal := s.flash.journal.map (fun (r : JournalRec) => if r.type = 3 then { r with resumed := true } else r) } }

/-- A held module goes on (R404). -/
def State.resumes (s : State) : State := ((s.unheld.setFld Csr.jrnStat 63 48 0).setMstate mReady).raise 0x58 [0]

theorem resumes_tells (s : State) : Tells s.unheld s.resumes := ((Tells.refl.setFld _ _ _ _).setMstate _).raise _ _

theorem exec_resume (w : regsCanonical s) (hdue : Due s k x 0x31 id rest) (hheld : s.mstate = mHeld) (hvalid : (s.reg Csr.secStat).bit 55 = true)
    (hcool : ∀ i, i < 57 → s.sitePresent i = true → s.siteCool i = true) :
    ∃ t, exec (.resume k) s = .next t ∧ Answered t k x id rest { status := 0, body := [] } ∧ t.mstate = mReady ∧ t.flash.held = false ∧ Raised t 0x58 0 ∧
      Frame s t [Csr.powStat, Csr.jrnStat] := by
  let v := s.taken k x id rest
  have hsites : (List.range 57).all (fun i => !v.sitePresent i || v.siteCool i) = true := by
    refine List.all_eq_true.mpr fun i hi => ?_
    have hsite : v.sitePresent i = true → v.siteCool i = true := hcool i (List.mem_range.mp hi)
    cases hp : v.sitePresent i with
    | false => rfl
    | true => exact hsite hp
  have htells := resumes_tells v
  have hunheld : Wrote [(Csr.jrnStat, 63, 48), (Csr.powStat, 63, 60)] s v.unheld := Wrote.refl.aside rfl rfl rfl rfl
  have hset := hunheld.setFld 0 (by decide) (List.mem_cons_self)
  have hready := (hset.setMstate mReady (by simp)).raise 0x58 [0]
  have hexec : exec (.resume k) s = .next (v.resumes.replied k x id rest (plain stOk)) := by
    refine congrArg Host.Outcome.next (serve_effect hdue ?_ (htells.part State.sessions) (htells.part State.ports))
    dsimp only
    rw [if_neg (show ¬ v.mstate ≠ mHeld from not_not.mpr hheld), if_neg (show ¬ ((!(v.reg Csr.secStat).bit 55) = true ∨
      (!(List.range 57).all (fun i => !v.sitePresent i || v.siteCool i)) = true) by rw [hsites]; simp; exact hvalid)]
    rfl
  have hmstate : v.resumes.mstate = mReady :=
    (((Wrote.refl (l := [])).raise 0x58 [0]).fld ((hset.setMstate mReady (by simp)).canonical w) (by decide)).trans
      (setMstate_mstate (hset.canonical w) (by decide))
  refine ⟨_, hexec, answered_replied, hmstate, congrArg Flash.held (htells.part State.flash), ?_, hready.replied.frame w (by simp)⟩
  exact Raised.sent (raised_raise _ _ _) fun o ho => List.mem_cons_of_mem _ ho

end

/-- Settles O49: each request is served as `serve_effect` says; a job that has not started fails and is let go of (`failStart_leaves`), and what writes
registers writes the fields that `Wrote` lists. -/
theorem jobRequests : Obligations.JobRequests := by
  unfold Obligations.JobRequests
  intro s k x id rest w ok portRegs
  refine ⟨fun body hdue hlock hlen hclean hzero hkey hreset hacq hheld hnl => ?_, fun job j hdue hj hmay => ⟨?_, ?_⟩, fun job r => exec_jobQuery,
    fun list server rkey va len interval => exec_worklist server rkey va len, fun v hdue => ⟨fun hlo hhi => ?_, fun hlo hhi => ?_⟩, exec_resume w⟩
  · obtain ⟨t, hexec, hok, hjobs, hframe, hheld, hnew⟩ := exec_submit w hdue hlock hlen hclean hzero hkey hreset hacq hheld hnl
    refine ⟨t, hexec, hok, hjobs, hframe, hheld, fun h => ?_⟩
    obtain ⟨hxfer, hadm⟩ := hnew h
    exact ⟨hxfer, _, hadm, rfl, rfl, rfl, rfl, rfl⟩
  · exact exec_cancel_waiting hdue hj hmay
  · exact exec_cancel_running w hdue hj hmay
  · exact level_leaves w (by decide) rfl (by decide) (exec_levelSet_cpl hdue hlo hhi)
  · exact level_leaves w (by decide) rfl (by decide) (exec_levelSet_nl hdue hlo hhi)

end Sys2Proof.Machine

end

section
/-! PROOFS. Firmware: RESET, UPDATE, the watchdog and recovery (R414, R416, R423, R426, R428 to R432). -/

namespace Sys2Proof.Machine

open Sys2Proof.Safety

variable {l : List RegField} {s t u : State}

/-! ### RESET -/

/-- No reset is pending: nothing is settled. -/
theorem settleReset_idle (hw : s.resetWaits = false) (ha : s.resetAfterJobs = false) : s.settleReset = s := by
  unfold State.settleReset
  rw [if_neg (by simp [hw])]
  exact afterJob_waitless ha

theorem settleReset_jobs (hw : s.resetWaits = false) (hj : s.jobs ≠ []) : s.settleReset = s := by
  unfold State.settleReset State.afterJob
  rw [if_neg (by simp [hw]), if_neg (by simp [hj])]

theorem settleReset_now (hw : s.resetWaits = true) (hu : s.update = none) : s.settleReset = s.startBoot 2 := by
  unfold State.settleReset
  exact if_pos ⟨hw, by rw [hu]; rfl⟩

section

variable {k : Fin 64} {x : Session} {id : BitVec 32} {rest : List (BitVec 32 × Nat)}

/-- The effect of RESET (R430). -/
def resetEffect (mode : Byte) (s : State) : State × Response :=
  if mode = 0 then ({ s with resetWaits := true }, plain stOk)
  else if mode = 1 then ({ s with resetAfterJobs := true }, plain stOk)
  else (s, plain stMalformed)

theorem exec_reset_now (hdue : Due s k x 0x32 id rest) (hu : s.update = none) :
    ∃ t, exec (.reset k 0) s = .next t ∧ Output.response x.ch.port x.ch.sid id { status := 0, body := [] } ∈ t.out ∧ BootBegun s t 2 := by
  let u := State.replied { s.taken k x id rest with resetWaits := true } k x id rest (plain stOk)
  have hexec : exec (.reset k 0) s = .next (u.startBoot 2) := by
    have hserve := serve_effect (effect := resetEffect 0) (u := { s.taken k x id rest with resetWaits := true }) (r := plain stOk) hdue rfl rfl rfl
    exact congrArg Host.Outcome.next ((congrArg State.settleReset hserve).trans (settleReset_now rfl hu))
  exact ⟨_, hexec, (startBoot_booted u (by decide)).sent _ List.mem_cons_self, begun_congr (startBoot_begun (s := u) hu (by decide)) rfl rfl⟩

theorem exec_reset_later (hdue : Due s k x 0x32 id rest) (hj : s.jobs ≠ []) (hw : s.resetWaits = false) :
    ∃ t, exec (.reset k 1) s = .next t ∧ Answered t k x id rest { status := 0, body := [] } ∧
      t = { s with out := t.out, sessions := t.sessions, resetAfterJobs := true } := by
  let u := State.replied { s.taken k x id rest with resetAfterJobs := true } k x id rest (plain stOk)
  have hexec : exec (.reset k 1) s = .next u := by
    have hserve := serve_effect (effect := resetEffect 1) (u := { s.taken k x id rest with resetAfterJobs := true }) (r := plain stOk) hdue rfl rfl rfl
    exact congrArg Host.Outcome.next ((congrArg State.settleReset hserve).trans (settleReset_jobs hw hj))
  exact ⟨_, hexec, answered_replied, rfl⟩

/-! ### UPDATE -/

/-- The object of an UPDATE has been asked for, unless the body was refused (R429). -/
def State.askedObject (s : State) (body : List Byte) (st : Nat) : State :=
  if st = stMalformed ∨ st = stTooLarge ∨ st = stBusy then s
  else (s.openConns (serverAt body 32)).emit (.rdmaRead (serverAt body 32) (refOf body 64).rkey (refOf body 64).va (refOf body 64).len)

theorem askedObject_moves (s : State) (body : List Byte) (st : Nat) : Moves rconnFields s (s.askedObject body st) := by
  unfold State.askedObject
  split
  · exact Moves.refl
  · exact (openConns_moves _ _).emit _

/-- A good object is to be written (R429, R430). -/
def State.writesObject (s : State) (target : Nat) (o : FetchedObject) : State :=
  (State.setFld { s with update := some { target := target, body := o.body, repeated := false } } Csr.fwStat 53 52 3).raise 0x74 []

/-- The reason that a rejected image leaves (R416). -/
def badReason (f : Flash) (o : FetchedObject) (st : Nat) : Nat :=
  match o.body with
  | .image i => if st = stDigest ∨ st = stFormat ∨ st = stBadSig ∨ st = stDenied then updateReason i f else 0
  | _ => 0

/-- An object is rejected (R416, R429). -/
def State.rejectsObject (s : State) (bad st : Nat) : State :=
  (if bad = 0 then s else State.setFld { s with flash := { s.flash with badr := bad } } Csr.fwStat 59 56 bad).raise 0x76 [BitVec.ofNat 64 st]

/-- The effect of an UPDATE whose object was fetched, from the status that it is answered with. -/
def State.updated (s : State) (body : List Byte) (o : FetchedObject) (st : Nat) : State :=
  if st = 0 then (s.askedObject body st).writesObject (bodyNat body 0 1) o
  else (s.askedObject body st).rejectsObject (badReason (s.askedObject body st).flash o st) st

/-- The fields that an UPDATE writes. -/
def updateFields : List RegField := rconnFields ++ [(Csr.fwStat, 53, 52), (Csr.fwStat, 59, 56)]

/-- What an UPDATE leaves alone, and that it writes no other field. -/
theorem updated_leaves (s : State) (body : List Byte) (o : FetchedObject) (st : Nat) :
    Wrote updateFields s (s.updated body o st) ∧ (s.updated body o st).sessions = s.sessions ∧ (s.updated body o st).ports = s.ports := by
  have hasked := askedObject_moves s body st
  have hfrom : Wrote updateFields s (s.askedObject body st) := hasked.wrote.mono fun _ h => List.mem_append_left _ h
  have hs : (s.askedObject body st).sessions = s.sessions := hasked.part State.sessions
  have hp : (s.askedObject body st).ports = s.ports := hasked.part State.ports
  unfold State.updated
  generalize s.askedObject body st = a at hfrom hs hp
  have hflash (g : Flash) : Wrote updateFields s { a with flash := g } := hfrom.flash _
  have hupdate (p : Option Update) : Wrote updateFields s { a with update := p } := hfrom.aside rfl rfl rfl rfl
  split
  · exact ⟨((hupdate _).setFld _ (by decide) (List.mem_append_right _ (by simp))).raise _ _,
      (State.raise_sessions ..).trans hs, (State.raise_ports ..).trans hp⟩
  · unfold State.rejectsObject
    split
    · exact ⟨hfrom.raise _ _, (State.raise_sessions ..).trans hs, (State.raise_ports ..).trans hp⟩
    · exact ⟨((hflash _).setFld _ (by decide) (List.mem_append_right _ (by simp))).raise _ _,
        (State.raise_sessions ..).trans hs, (State.raise_ports ..).trans hp⟩

/-- A good object is on its way into flash. -/
theorem updated_good (w : regsCanonical s) (body : List Byte) (o : FetchedObject) : (s.updated body o 0).update =
      some { target := bodyNat body 0 1, body := o.body, repeated := false } ∧ (s.updated body o 0).fld Csr.fwStat 53 52 = 3 ∧
    Raised (s.updated body o 0) 0x74 0 := by
  have wa := (askedObject_moves s body 0).wrote.canonical w
  refine ⟨State.raise_update .., ?_, raised_raise _ _ _⟩
  exact Wrote.reads (l := []) (s := { s.askedObject body 0 with update := some { target := bodyNat body 0 1, body := o.body, repeated := false } })
    (Wrote.refl.raise _ _) wa (by decide) (by decide) (by decide)

theorem updated_bad (body : List Byte) (o : FetchedObject) {st : Nat} (hst : st ≠ 0) (hu : s.update = none) :
    (s.updated body o st).update = none ∧ Raised (s.updated body o st) 0x76 0 := by
  have hasked : (s.askedObject body st).update = none := ((askedObject_moves s body st).part State.update).trans hu
  unfold State.updated
  rw [if_neg hst]
  generalize s.askedObject body st = a at hasked
  refine ⟨(State.raise_update ..).trans ?_, raised_raise _ _ _⟩
  split
  · exact hasked
  · exact hasked

/-- A well-formed UPDATE whose object was fetched is answered with the object's status (R429). -/
theorem updateAnswer_fetched {body : List Byte} (o : FetchedObject) (hform : updateFormOk body = true)
    (hlen : (refOf body 64).len ≤ updateLimit (bodyNat body 0 1)) (hu : s.update = none) (ha : s.resetAfterJobs = false)
    (hreach : s.reaches (serverAt body 32) = true) : s.updateAnswer body (some o) = s.updateStatus (bodyNat body 0 1) o := by
  unfold State.updateAnswer
  dsimp only
  rw [if_neg (by simp [hform]), if_neg (by omega), if_neg (by simp [hu, ha]), if_pos hreach]

/-- The effect of UPDATE with a fetched object. -/
def updateEffect (body : List Byte) (o : FetchedObject) (s : State) : State × Response :=
  (s.updated body o (s.updateAnswer body (some o)), plain (s.updateAnswer body (some o)))

theorem exec_update_eq (body : List Byte) (o : FetchedObject) (s : State) :
    exec (.update k body (some o)) s = .next (s.serve (.ningonus k) 0x40 (updateEffect body o)) := by
  show execUpdate k body (some o) s = _
  unfold execUpdate
  refine congrArg Host.Outcome.next (congrArg (s.serve (.ningonus k) 0x40) (funext fun v => ?_))
  unfold updateEffect State.updated
  dsimp only
  generalize v.updateAnswer body (some o) = st
  cases st with
  | zero => rfl
  | succ n => rfl

theorem updateFields_offsets : ∀ f ∈ updateFields, f.1 ∈ Csr.fwStat :: (List.range 8).map Csr.ethPortStat := fun f hf => by
  rcases List.mem_append.mp hf with h | h
  · exact List.mem_cons_of_mem _ (rconnFields_offsets f h)
  · have hoff : f.1 = Csr.fwStat := by
      simp only [List.mem_cons, List.not_mem_nil, or_false] at h
      rcases h with rfl | rfl <;> rfl
    rw [hoff]
    exact List.mem_cons_self

theorem exec_update (w : regsCanonical s) {body : List Byte} (o : FetchedObject) (hdue : Due s k x 0x40 id rest) (hform : updateFormOk body = true)
    (hlen : (refOf body 64).len ≤ updateLimit (bodyNat body 0 1)) (hu : s.update = none) (ha : s.resetAfterJobs = false)
    (hreach : s.reaches (serverAt body 32) = true) :
    ∃ t, exec (.update k body (some o)) s = .next t ∧ Answered t k x id rest { status := s.updateStatus (bodyNat body 0 1) o, body := [] } ∧
      Frame s t (Csr.fwStat :: (List.range 8).map Csr.ethPortStat) ∧
      (s.updateStatus (bodyNat body 0 1) o = 0 → t.update = some { target := bodyNat body 0 1, body := o.body, repeated := false } ∧
        t.fld Csr.fwStat 53 52 = 3 ∧ Raised t 0x74 0) ∧
      (s.updateStatus (bodyNat body 0 1) o ≠ 0 → t.update = none ∧ Raised t 0x76 0) := by
  let v := s.taken k x id rest
  have hanswer : v.updateAnswer body (some o) = s.updateStatus (bodyNat body 0 1) o := updateAnswer_fetched (s := v) o hform hlen hu ha hreach
  have heff : updateEffect body o v = (v.updated body o (s.updateStatus (bodyNat body 0 1) o), plain (s.updateStatus (bodyNat body 0 1) o)) := by
    unfold updateEffect
    rw [hanswer]
  generalize s.updateStatus (bodyNat body 0 1) o = st at heff
  obtain ⟨hwrote, hs, hp⟩ := updated_leaves v body o st
  refine ⟨_, (exec_update_eq body o s).trans (congrArg Host.Outcome.next (serve_effect hdue heff hs hp)), answered_replied,
    ((Wrote.taken ..).trans hwrote).replied.frame w updateFields_offsets, fun hst => ?_, fun hst => ?_⟩
  · rw [hst]
    obtain ⟨hupdate, hfld, hraised⟩ := updated_good (s := v) w body o
    exact ⟨hupdate, hfld, Raised.sent hraised fun _ h => List.mem_cons_of_mem _ h⟩
  · obtain ⟨hupdate, hraised⟩ := updated_bad (s := v) body o hst hu
    exact ⟨hupdate, Raised.sent hraised fun _ h => List.mem_cons_of_mem _ h⟩

end

/-! ### The end of a write -/

/-- The state without the write that has ended (R430). -/
def State.writeEnded (s : State) : State := State.setFld { s with update := none } Csr.fwStat 53 52 0

/-- What a write that has ended leaves in flash for the next reset (R414, R430). -/
def State.awaitsReset (s : State) (b : UpdateBody) (ok : Bool) : State :=
  match b with
  | .image i => State.setBit { s with flash := { s.flash with slot := if ok then some i else none } } Csr.fwStat 51 ok
  | .settings c => if ok then { s with flash := { s.flash with newSettings := some c } } else s
  | .plan p => if ok then { s with flash := { s.flash with newPlan := some p } } else s

theorem awaitsReset_tells (s : State) (b : UpdateBody) (ok : Bool) : ∃ f, Tells { s with flash := f } (s.awaitsReset b ok) ∧
    Wrote [(Csr.fwStat, 51, 51)] s (s.awaitsReset b ok) := by
  unfold State.awaitsReset
  split
  · exact ⟨_, Tells.refl.setBit _ _ _, (Wrote.refl.flash _).setBit _ (by decide) (by simp)⟩
  · split
    · exact ⟨_, Tells.refl, Wrote.refl.flash _⟩
    · exact ⟨s.flash, Tells.refl, Wrote.refl⟩
  · split
    · exact ⟨_, Tells.refl, Wrote.refl.flash _⟩
    · exact ⟨s.flash, Tells.refl, Wrote.refl⟩

theorem awaitsReset_shown (w : regsCanonical s) (i : Image) : ((s.awaitsReset (.image i) true).reg Csr.fwStat).bit 51 = true := by
  have w' : regsCanonical { s with flash := { s.flash with slot := some i } } := w
  exact (State.bit_setBit _ _ _ _ _ w' (by decide)).trans (if_pos rfl)

/-- The state in which a write has ended and its outcome is told (R430). -/
def State.written (s : State) (p : Update) (ok : Bool) : State :=
  (s.writeEnded.awaitsReset p.body ok).raise (if ok then 0x75 else 0x76) [BitVec.ofNat 64 p.target]

/-- What the end of a write leaves. -/
theorem written_leaves (w : regsCanonical s) (p : Update) (ok : Bool) :
    (s.written p ok).update = none ∧ (s.written p ok).fld Csr.fwStat 53 52 = 0 ∧ Raised (s.written p ok) (if ok then 0x75 else 0x76) 0 ∧
      Frame s (s.written p ok) [Csr.fwStat] ∧ (s.written p ok).flash = (s.writeEnded.awaitsReset p.body ok).flash ∧
      (s.written p ok).resetWaits = s.resetWaits ∧ (s.written p ok).resetAfterJobs = s.resetAfterJobs := by
  obtain ⟨f, htells, hwrote⟩ := awaitsReset_tells s.writeEnded p.body ok
  have htold : Tells { s.writeEnded with flash := f } (s.written p ok) := htells.raise _ _
  have hlast : Wrote [(Csr.fwStat, 51, 51)] s.writeEnded (s.written p ok) := hwrote.raise _ _
  have hfirst : Wrote [(Csr.fwStat, 53, 52)] s { s with update := none } := Wrote.refl.aside rfl rfl rfl rfl
  have hended : Wrote [(Csr.fwStat, 53, 52)] s s.writeEnded := hfirst.setFld _ (by decide) (by simp)
  exact ⟨htold.part State.update, hlast.reads w (by decide) (by decide) (by decide), raised_raise _ _ _, (hended.append hlast).frame w (by simp),
    State.raise_flash .., htold.part State.resetWaits, htold.part State.resetAfterJobs⟩

theorem exec_updateWriteDone {p : Update} {ok : Bool} (w : regsCanonical s) (hp : s.update = some p) (hrec : s.boot.recovering = false)
    (hw : s.resetWaits = false) (ha : s.resetAfterJobs = false) (hok : ok = true ∨ p.repeated = true) :
    exec (.updateWriteDone ok) s = .next (s.written p ok) := by
  obtain ⟨-, -, -, -, -, hwaits, hafter⟩ := written_leaves w p ok
  have hlast : ¬ ((!ok) = true ∧ (!p.repeated) = true) := by rcases hok with h | h <;> simp [h]
  show execUpdateWriteDone ok s = _
  unfold execUpdateWriteDone
  rw [hp, hrec]
  dsimp only
  rw [if_neg hlast]
  exact congrArg Host.Outcome.next (settleReset_idle (hwaits.trans hw) (hafter.trans ha))

theorem exec_updateWriteDone_repeats {p : Update} (hp : s.update = some p) (hrec : s.boot.recovering = false) (hfirst : p.repeated = false) :
    exec (.updateWriteDone false) s = .next { s with update := some { p with repeated := true } } := by
  show execUpdateWriteDone false s = _
  unfold execUpdateWriteDone
  rw [hp, hrec]
  dsimp only
  exact if_pos (by simp [hfirst])

theorem updateWriteDone_good {p : Update} (w : regsCanonical s) (hp : s.update = some p) (hrec : s.boot.recovering = false)
    (hw : s.resetWaits = false) (ha : s.resetAfterJobs = false) :
    ∃ t, exec (.updateWriteDone true) s = .next t ∧ t.update = none ∧ t.fld Csr.fwStat 53 52 = 0 ∧ Raised t 0x75 0 ∧ Frame s t [Csr.fwStat] ∧
      (∀ i, p.body = .image i → t.flash = { s.flash with slot := some i } ∧ (t.reg Csr.fwStat).bit 51 = true) ∧
      (∀ c, p.body = .settings c → t.flash = { s.flash with newSettings := some c }) ∧
      (∀ q, p.body = .plan q → t.flash = { s.flash with newPlan := some q }) := by
  obtain ⟨hupdate, hfld, hraised, hframe, hflash, -, -⟩ := written_leaves w p true
  refine ⟨_, exec_updateWriteDone w hp hrec hw ha (.inl rfl), hupdate, hfld, hraised, hframe, fun i hi => ⟨?_, ?_⟩, fun c hc => ?_, fun q hq => ?_⟩
  · rw [hflash, hi]; rfl
  · have we : regsCanonical s.writeEnded := State.setFld_wf _ _ _ _ _ w
    obtain ⟨-, -, hwrote⟩ := awaitsReset_tells s.writeEnded p.body true
    have hlast : Wrote [] (s.writeEnded.awaitsReset p.body true) (s.written p true) := Wrote.refl.raise _ _
    rw [hlast.bit (hwrote.canonical we) (by decide), hi]
    exact awaitsReset_shown we i
  · rw [hflash, hc]; rfl
  · rw [hflash, hq]; rfl

theorem updateWriteDone_bad {p : Update} (w : regsCanonical s) (hp : s.update = some p) (hrec : s.boot.recovering = false)
    (hw : s.resetWaits = false) (ha : s.resetAfterJobs = false) (hagain : p.repeated = true) :
    ∃ t, exec (.updateWriteDone false) s = .next t ∧ t.update = none ∧ Raised t 0x76 0 ∧ (∀ i, p.body = .image i → t.flash.slot = none) := by
  obtain ⟨hupdate, -, hraised, -, hflash, -, -⟩ := written_leaves w p false
  refine ⟨_, exec_updateWriteDone w hp hrec hw ha (.inr hagain), hupdate, hraised, fun i hi => ?_⟩
  rw [hflash, hi]; rfl

/-! ### The watchdog -/

theorem exec_bootWatchdog (hdog : s.boot.watchdog = true) (hm : s.mstate = mBoot) (hpin : s.pins.resetLow = false)
    (hlate : s.boot.since + 60000000000 ≤ s.now) (hu : s.update = none) :
    ∃ t, exec .bootWatchdog s = .next t ∧ t.flash.wdf = s.flash.wdf + 1 ∧ Raised t 0x77 0 ∧
      BootBegun { s with flash := { s.flash with wdf := s.flash.wdf + 1 } } t 3 := by
  let a : State := { s with flash := { s.flash with wdf := s.flash.wdf + 1 } }
  have htells : Tells a (a.raise 0x77 []) := Tells.refl.raise _ _
  have hraised : Raised (a.raise 0x77 []) 0x77 0 := raised_raise _ _ _
  have hexec : exec .bootWatchdog s = .next ((a.raise 0x77 []).startBoot 3) := by
    show execBootWatchdog s = _
    unfold execBootWatchdog
    exact if_pos ⟨hdog, hm, by simp [hpin], hlate⟩
  have hflash : (a.raise 0x77 []).flash = a.flash := htells.part State.flash
  have hpins : (a.raise 0x77 []).pins = s.pins := htells.part State.pins
  have hupdate : (a.raise 0x77 []).update = none := (htells.part State.update).trans hu
  generalize a.raise 0x77 [] = b at hraised hexec hflash hpins hupdate
  have hbooted := startBoot_booted b (cause := 3) (by decide)
  exact ⟨_, hexec, hbooted.wdf.trans (congrArg Flash.wdf hflash), Raised.sent hraised hbooted.sent,
    begun_congr (startBoot_begun hupdate (by decide)) hflash.symm (congrArg Pins.pwrGood hpins).symm⟩

/-! ### Recovery -/

theorem nextPort_aside (s : State) : ∃ q, s.nextPort = { s with boot := q } := by
  unfold State.nextPort
  dsimp only
  split
  · exact ⟨_, rfl⟩
  · exact ⟨_, rfl⟩

theorem Wrote.nextPort (h : Wrote l s t) : Wrote l s t.nextPort := by
  obtain ⟨q, hq⟩ := nextPort_aside t
  rw [hq]
  exact h.boot q

/-- Recovery's attempt on the present port may be made. -/
theorem fetch_allowed (hrec : s.boot.recovering = true) (hwait : s.boot.waiting = false) (hgood : s.pins.pwrGood = true) (hu : s.update = none) :
    ¬ ((!s.boot.recovering) = true ∨ s.boot.waiting = true ∨ (!s.pins.pwrGood) = true ∨ s.update.isSome = true) := by
  simp [hrec, hwait, hgood, hu]

/-- The image is asked for on the present port (R431, R432). -/
def State.asksImage (s : State) : State := s.emit (.fetchImage (recoveryPort s.boot.port) s.flash.recoveryServer)

theorem exec_recoveryFetch_none (hrec : s.boot.recovering = true) (hwait : s.boot.waiting = false) (hgood : s.pins.pwrGood = true) (hu : s.update = none) :
    ∃ t, exec (.recoveryFetch none) s = .next t ∧
      t = { s with boot := t.boot, out := .fetchImage (recoveryPort s.boot.port) s.flash.recoveryServer :: s.out } ∧
      (s.boot.port < 3 → t.boot = { s.boot with port := s.boot.port + 1 }) ∧
      (3 ≤ s.boot.port → t.boot.waiting = true ∧ t.boot.port = 0 ∧
        t.boot.waitSec = (if s.boot.waitSec = 0 then 1 else min 60 (2 * s.boot.waitSec))) := by
  have hexec : exec (.recoveryFetch none) s = .next s.asksImage.nextPort := if_neg (fetch_allowed hrec hwait hgood hu)
  obtain ⟨q, hq⟩ := nextPort_aside s.asksImage
  refine ⟨_, hexec, by rw [hq]; rfl, fun h => ?_, fun h => ?_⟩
  · unfold State.nextPort
    exact congrArg State.boot (if_pos (show s.asksImage.boot.port < 3 from h))
  · have hlast : ¬ s.asksImage.boot.port < 3 := not_lt.mpr h
    unfold State.nextPort
    dsimp only
    rw [if_neg hlast]
    exact ⟨rfl, rfl, rfl⟩

theorem exec_recoveryFetch_good (w : regsCanonical s) (hrec : s.boot.recovering = true) (hwait : s.boot.waiting = false) (hgood : s.pins.pwrGood = true)
    (hu : s.update = none) {i : Image} (hi : imageReason i s.flash = 0) :
    ∃ t, exec (.recoveryFetch (some i)) s = .next t ∧ t.update = some { target := 0, body := .image i, repeated := false } ∧ t.fld Csr.fwStat 53 52 = 3 ∧
      Frame s t [Csr.fwStat] := by
  let a : State := { s.asksImage with update := some { target := 0, body := .image i, repeated := false } }
  have hexec : exec (.recoveryFetch (some i)) s = .next (a.setFld Csr.fwStat 53 52 3) := by
    show execRecoveryFetch (some i) s = _
    unfold execRecoveryFetch
    rw [if_neg (fetch_allowed hrec hwait hgood hu)]
    dsimp only
    rw [show imageReason i (s.emit (.fetchImage (recoveryPort s.boot.port) s.flash.recoveryServer)).flash = 0 from hi]
    rfl
  have ha : Wrote [(Csr.fwStat, 53, 52)] s a := (Wrote.refl.emit (.fetchImage (recoveryPort s.boot.port) s.flash.recoveryServer)).aside rfl rfl rfl rfl
  exact ⟨_, hexec, rfl, Wrote.reads (l := []) Wrote.refl (ha.canonical w) (by decide) (by decide) (by decide),
    (ha.setFld _ (by decide) (by simp)).frame w (by simp)⟩

theorem exec_recoveryFetch_bad (w : regsCanonical s) (hrec : s.boot.recovering = true) (hwait : s.boot.waiting = false) (hgood : s.pins.pwrGood = true)
    (hu : s.update = none) {i : Image} (hi : imageReason i s.flash ≠ 0) :
    ∃ t, exec (.recoveryFetch (some i)) s = .next t ∧ t.update = none ∧ Raised t 0x71 0 ∧ t.fld Csr.fwStat 59 56 = imageReason i s.flash ∧
      Frame s t [Csr.fwStat] := by
  let r := imageReason i s.flash
  let a : State := { s.asksImage with flash := { s.flash with badr := r } }
  let b := a.setFld Csr.fwStat 59 56 r
  have hexec : exec (.recoveryFetch (some i)) s = .next (b.raise 0x71 [BitVec.ofNat 64 r]).nextPort := by
    show execRecoveryFetch (some i) s = _
    unfold execRecoveryFetch
    rw [if_neg (fetch_allowed hrec hwait hgood hu)]
    dsimp only
    split
    next h => exact absurd h hi
    next => rfl
  have ha : Wrote [(Csr.fwStat, 59, 56)] s a := (Wrote.refl.emit (.fetchImage (recoveryPort s.boot.port) s.flash.recoveryServer)).aside rfl rfl rfl rfl
  have hb : Wrote [(Csr.fwStat, 59, 56)] s b := ha.setFld _ (by decide) (by simp)
  have hlast : Wrote [] b (b.raise 0x71 [BitVec.ofNat 64 r]).nextPort := (Wrote.refl.raise _ _).nextPort
  have hsecond : Wrote [] (b.raise 0x71 [BitVec.ofNat 64 r]) (b.raise 0x71 [BitVec.ofNat 64 r]).nextPort := Wrote.refl.nextPort
  refine ⟨_, hexec, ?_, hsecond.raised (raised_raise _ _ _), hlast.reads (ha.canonical w) (by decide) (imageReason_lt i s.flash) (by decide),
    (hb.append hlast).frame w (by simp)⟩
  obtain ⟨q, hq⟩ := nextPort_aside (b.raise 0x71 [BitVec.ofNat 64 r])
  rw [hq]
  exact (State.raise_update ..).trans hu

theorem exec_recoveryImageWritten_good {p : Update} {i : Image} (hrec : s.boot.recovering = true) (hp : s.update = some p) (hi : p.body = .image i)
    (hgood : imageReason i s.flash = 0) :
    ∃ t, exec (.recoveryImageWritten true) s = .next t ∧ t.flash.slot = some i ∧ t.running = some i ∧ Raised t 0x73 0 ∧ t.boot.cause = 5 ∧
      t.fld Csr.fwStat 63 60 = 5 ∧ t.flash.wdf = 0 := by
  let a : State := { s with update := none, flash := { s.flash with slot := some i, wdf := 0 } }
  have htells : Tells a (a.raise 0x73 []) := Tells.refl.raise _ _
  have hraised : Raised (a.raise 0x73 []) 0x73 0 := raised_raise _ _ _
  have hexec : exec (.recoveryImageWritten true) s = .next ((a.raise 0x73 []).startBoot 5) := by
    show execRecoveryImageWritten true s = _
    unfold execRecoveryImageWritten
    rw [hrec, hp]
    dsimp only
    rw [hi]
    rfl
  have hflash : (a.raise 0x73 []).flash = a.flash := htells.part State.flash
  have hupdate : (a.raise 0x73 []).update = none := htells.part State.update
  have hreason : slotReason a.flash = 0 := hgood
  generalize a.raise 0x73 [] = b at hraised hexec hflash hupdate
  have hbooted := startBoot_booted b (cause := 5) (by decide)
  refine ⟨_, hexec, (hbooted.slot hupdate).trans (congrArg Flash.slot hflash), ?_, Raised.sent hraised hbooted.sent, hbooted.begun, hbooted.shown,
    hbooted.wdf.trans (congrArg Flash.wdf hflash)⟩
  exact (startBoot_runs hupdate (by rw [hflash]; exact hreason)).1.trans (congrArg Flash.slot hflash)

theorem exec_recoveryImageWritten_repeats {p : Update} {i : Image} (hrec : s.boot.recovering = true) (hp : s.update = some p) (hi : p.body = .image i)
    (hfirst : p.repeated = false) : exec (.recoveryImageWritten false) s = .next { s with update := some { p with repeated := true } } := by
  show execRecoveryImageWritten false s = _
  unfold execRecoveryImageWritten
  rw [hrec, hp]
  dsimp only
  rw [hi, hfirst]
  rfl

theorem exec_recoveryImageWritten_fails (w : regsCanonical s) {p : Update} {i : Image} (hrec : s.boot.recovering = true) (hp : s.update = some p)
    (hi : p.body = .image i) (hagain : p.repeated = true) :
    ∃ t, exec (.recoveryImageWritten false) s = .next t ∧ t.update = none ∧ t.flash.slot = none ∧ t.fld Csr.fwStat 53 52 = 0 := by
  let a : State := { s with update := none, flash := { s.flash with slot := none } }
  have hexec : exec (.recoveryImageWritten false) s = .next (a.setFld Csr.fwStat 53 52 0).nextPort := by
    show execRecoveryImageWritten false s = _
    unfold execRecoveryImageWritten
    rw [hrec, hp]
    dsimp only
    rw [hi, hagain]
    rfl
  have hlast : Wrote [] (a.setFld Csr.fwStat 53 52 0) (a.setFld Csr.fwStat 53 52 0).nextPort := Wrote.refl.nextPort
  obtain ⟨q, hq⟩ := nextPort_aside (a.setFld Csr.fwStat 53 52 0)
  refine ⟨_, hexec, ?_, ?_, hlast.reads w (by decide) (by decide) (by decide)⟩
  · rw [hq]; rfl
  · rw [hq]; rfl

/-- Settles O59: boots by `startBoot_booted` and `startBoot_begun`, UPDATE by `updated_leaves`, the end of a write by `written_leaves`. -/
theorem firmwareUpdates : Obligations.FirmwareUpdates := by
  unfold Obligations.FirmwareUpdates
  intro s k x id rest w
  refine ⟨exec_reset_now, exec_reset_later, fun body o hdue hform hlen hu ha hreach => exec_update w o hdue hform hlen hu ha hreach,
    fun p hp hrec hw ha => ⟨updateWriteDone_good w hp hrec hw ha, fun h => ⟨_, exec_updateWriteDone_repeats hp hrec h, rfl⟩, updateWriteDone_bad w hp hrec hw ha⟩,
    exec_bootWatchdog, fun hrec hwait hgood hu => ⟨exec_recoveryFetch_none hrec hwait hgood hu, fun i => exec_recoveryFetch_good w hrec hwait hgood hu,
      fun i => exec_recoveryFetch_bad w hrec hwait hgood hu⟩,
    fun hrec hwait hlate => ⟨_, if_pos ⟨hrec, hwait, hlate⟩, rfl⟩,
    fun p i hrec hp hi => ⟨exec_recoveryImageWritten_good hrec hp hi, fun h => ⟨_, exec_recoveryImageWritten_repeats hrec hp hi h, rfl⟩,
      exec_recoveryImageWritten_fails w hrec hp hi⟩⟩

end Sys2Proof.Machine

end

section
/-! SUPPORT. What halting every job and taking every path down leave (R435, R442 to R447): the security status, sessions, the mailbox, no new job. -/

namespace Sys2Proof.Machine

open Sys2Proof.Safety

variable {s t u : State}

/-- The parts of the state that a halt leaves: sessions, the mailbox, and a reset that waits for the last job. -/
def State.seats (s : State) : Vector (Option Session) 64 × Vector Word 15 × Bool := (s.sessions, s.mailbox, s.resetAfterJobs)

/-- From s to t what has been sent stays, SEC_STAT reads as before, no job or admission has joined, and sessions, mailbox and a waiting reset are as before. -/
structure Abides (s t : State) : Prop where
  sent : Sent s t
  sec : RegsKept (fun o => o = Csr.secStat) s t
  seats : t.seats = s.seats
  jobs : ∀ j ∈ t.jobs, j ∈ s.jobs
  admissions : ∀ a ∈ t.admissions, a ∈ s.admissions

namespace Abides

theorem refl : Abides s s := ⟨Sent.refl s, RegsKept.of_regs_eq rfl, rfl, fun _ h => h, fun _ h => h⟩

theorem trans (h : Abides s t) (k : Abides t u) : Abides s u :=
  ⟨h.sent.trans k.sent, h.sec.trans k.sec, k.seats.trans h.seats, fun j hj => h.jobs j (k.jobs j hj), fun a ha => h.admissions a (k.admissions a ha)⟩

/-- An update of other parts of the state. -/
theorem aside (h : Abides s t) (ho : u.out = t.out) (hr : u.regs = t.regs) (hs : u.seats = t.seats) (hj : u.jobs = t.jobs)
    (ha : u.admissions = t.admissions) : Abides s u :=
  h.trans ⟨Sent.of_eq ho, RegsKept.of_regs_eq hr, hs, fun _ h => hj ▸ h, fun _ h => ha ▸ h⟩

theorem setReg {o : Nat} (h : Abides s t) (v : Word) (ho : o ≠ Csr.secStat) : Abides s (t.setReg o v) :=
  h.trans ⟨Sent.refl _, RegsKept.setReg v ho, rfl, fun _ h => h, fun _ h => h⟩

theorem setFld {o : Nat} (h : Abides s t) (hi lo v : Nat) (ho : o ≠ Csr.secStat) : Abides s (t.setFld o hi lo v) := h.setReg _ ho

theorem setBit {o : Nat} (h : Abides s t) (n : Nat) (b : Bool) (ho : o ≠ Csr.secStat) : Abides s (t.setBit o n b) := h.setReg _ ho

theorem bump {o : Nat} (h : Abides s t) (hi lo k : Nat) (ho : o ≠ Csr.secStat) : Abides s (t.bump o hi lo k) := h.setReg _ ho

theorem emit (h : Abides s t) (x : Output) : Abides s (t.emit x) :=
  h.trans ⟨fun _ hx => List.mem_cons_of_mem _ hx, RegsKept.of_regs_eq rfl, rfl, fun _ h => h, fun _ h => h⟩

theorem raiseJob (h : Abides s t) (k : Nat) (j : Word) (r : List Word) : Abides s (t.raiseJob k j r) := by
  have htells : Tells t (t.raiseJob k j r) := Tells.refl.raiseJob k j r
  have hevt : Csr.secStat ∉ evtRegs := by decide
  refine h.trans ⟨htells.sent, fun w => ⟨htells.canonical w, fun o ho => ?_⟩, htells.part State.seats,
    fun _ h => htells.part State.jobs ▸ h, fun _ h => htells.part State.admissions ▸ h⟩
  exact raiseJob_reg t k j r w o (ho ▸ hevt)

theorem raise (h : Abides s t) (k : Nat) (r : List Word) : Abides s (t.raise k r) := h.raiseJob k 0 r

theorem ite {c : Prop} [Decidable c] (ht : Abides s t) (hu : Abides s u) : Abides s (if c then t else u) := by
  split
  · exact ht
  · exact hu

theorem foldl {α : Type} {f : State → α → State} {as : List α} (h : Abides s t) (hf : ∀ u, ∀ a ∈ as, Abides u (f u a)) : Abides s (as.foldl f t) :=
  h.trans (List.foldlRecOn as f refl fun u hu a ha => hu.trans (hf u a ha))

theorem journalAdd (h : Abides s t) (type : Nat) (body : List Word) : Abides s (t.journalAdd type body) := by
  refine h.trans ?_
  unfold State.journalAdd
  refine Abides.setFld (Abides.bump ?_ _ _ _ (by decide)) _ _ _ (by decide)
  exact Abides.refl.aside rfl rfl rfl rfl rfl

theorem modLink (h : Abides s t) (i : Nat) (f : Link → Link) : Abides s (t.modLink i f) := by
  refine h.trans ?_
  unfold State.modLink
  split
  · exact Abides.refl.aside rfl rfl rfl rfl rfl
  · exact Abides.refl

end Abides

/-- A fold each step of which only removes entries of a list, and all those that its element names. -/
theorem foldl_removes {α β : Type} {f : State → α → State} {part : State → List β} {names : α → β → Prop} (hless : ∀ t a, ∀ b ∈ part (f t a), b ∈ part t)
    (hgone : ∀ t a, ∀ b ∈ part (f t a), ¬ names a b) (as : List α) (s : State) :
    ∀ b ∈ part (as.foldl f s), b ∈ part s ∧ ∀ a ∈ as, ¬ names a b := by
  induction as generalizing s with
  | nil => exact fun b hb => ⟨hb, fun a ha => absurd ha List.not_mem_nil⟩
  | cons a as ih =>
    intro b hb
    obtain ⟨hfrom, hrest⟩ := ih (f s a) b hb
    refine ⟨hless s a b hfrom, fun c hc => ?_⟩
    rcases List.mem_cons.mp hc with rfl | hc
    · exact hgone s c b hfrom
    · exact hrest c hc

/-- A fold over the list itself, whose every element names at least itself, empties it. -/
theorem foldl_empties {β : Type} {f : State → β → State} {part : State → List β} {names : β → β → Prop} (hless : ∀ t a, ∀ b ∈ part (f t a), b ∈ part t)
    (hgone : ∀ t a, ∀ b ∈ part (f t a), ¬ names a b) (hself : ∀ b, names b b) (s : State) : part ((part s).foldl f s) = [] :=
  List.eq_nil_iff_forall_not_mem.mpr fun b hb => by
    obtain ⟨hfrom, hnone⟩ := foldl_removes hless hgone (part s) s b hb
    exact hnone b hfrom (hself b)

/-! ### Groups and memory -/

theorem clGrp_ne_secStat {i o : Nat} (hi : i < 64) (ho : o < 0x40) : Csr.clGrp i o ≠ Csr.secStat := by
  simp only [Csr.clGrp, Csr.secStat]
  omega

theorem freeOverlap_abides (s : State) (dst src : List (Nat × Nat)) : Abides s (s.freeOverlap dst src) := by
  unfold State.freeOverlap
  refine Abides.refl.foldl fun u r _ => Abides.refl.foldl fun v i _ => ?_
  split
  · exact Abides.refl.aside rfl rfl rfl rfl rfl
  · exact Abides.refl

theorem loseTensor_abides (s : State) (d : Desc) : Abides s (s.loseTensor d) := .ite .refl (freeOverlap_abides _ _ _)

theorem loseDd_abides (s : State) (m : Member) (q : BitVec 32) : Abides s (s.loseDd m q) := by
  unfold State.loseDd
  dsimp only
  split
  · exact .ite (loseTensor_abides _ _) .refl
  · split
    · exact .ite (loseTensor_abides _ _) .refl
    · exact .refl

theorem loseStaging_abides (s : State) (g : Group) : Abides s (s.loseStaging g) := .ite (freeOverlap_abides _ _ _) .refl

theorem dropEntries_abides (s : State) (core : Nat) (seqs : List Nat) : Abides s (s.dropEntries core seqs) := by
  unfold State.dropEntries
  split
  · exact Abides.refl.aside rfl rfl rfl rfl rfl
  · exact .refl

theorem settleAt_abides (s : State) (core : Nat) : Abides s (s.settleAt core) := by
  unfold State.settleAt
  split
  · unfold State.settle
    dsimp only
    split
    · exact .refl
    · split
      · exact .refl
      · exact Abides.refl.aside rfl rfl rfl rfl rfl
  · exact .refl

theorem putGroup_abides (s : State) {i : Nat} (hi : i < 64) (g : Group) : Abides s (s.putGroup i g) := by
  unfold State.putGroup
  refine Abides.setReg (Abides.setReg ?_ _ (clGrp_ne_secStat hi (by decide))) _ (clGrp_ne_secStat hi (by decide))
  exact Abides.refl.aside rfl rfl rfl rfl rfl

theorem stopGroup_abides (s : State) {i : Nat} (hi : i < 64) (g : Group) (phase : GroupPhase) (lost : Member → Option (BitVec 32)) :
    Abides s (s.stopGroup i g phase lost) := by
  unfold State.stopGroup
  refine Abides.foldl (Abides.trans (Abides.trans (Abides.refl.foldl fun u m _ => ?_) (loseStaging_abides _ g)) (putGroup_abides _ hi _))
    fun u m _ => settleAt_abides u m.core
  split
  · exact (loseDd_abides u m _).trans (dropEntries_abides _ _ _)
  · exact dropEntries_abides _ _ _

theorem haltGroups_abides (s : State) (job : Word) : Abides s (s.haltGroups job) := by
  unfold State.haltGroups
  refine Abides.refl.foldl fun u i hi => ?_
  have hi64 := List.mem_range.mp hi
  split
  · exact .ite (((stopGroup_abides u hi64 _ _ _).setReg _ (clGrp_ne_secStat hi64 (by decide))).raiseJob _ _ _) .refl
  · exact .refl

/-! ### Work that is abandoned -/

theorem logEntry_abides (s : State) (e : CheckEvent) : Abides s (s.logEntry e) := by
  have hlog (v : Word) (k : Nat) (hk : k < 4) : Csr.chkLog (v.field 7 0) k ≠ Csr.secStat := by
    have := Word.field_lt v 7 0
    simp only [Csr.chkLog, Csr.secStat]
    omega
  have hfull : Abides s (if (s.reg (Csr.chkLog (s.fld Csr.chkStat 7 0) 2)).bit 63 then (s.setBit Csr.chkStat 32 true).raise 0x17 [] else s) :=
    .ite ((Abides.refl.setBit _ _ (by decide)).raise _ _) .refl
  unfold State.logEntry
  dsimp only
  refine .ite hfull ?_
  exact ((((hfull.setReg _ (hlog _ 0 (by decide))).setReg _ (hlog _ 1 (by decide))).setReg _ (hlog _ 2 (by decide))).setReg _ (hlog _ 3 (by decide))).setFld _ _ _
    (by decide)

/-- A failed comparison whose event was abandoned is logged alone (R218). -/
theorem recordCheck_abandoned (s : State) (e : CheckEvent) (h : e.outcome = 3) : Abides s (s.recordCheck e) := by
  have heq : s.recordCheck e = s.logEntry e := by
    unfold State.recordCheck
    dsimp only
    split
    next h0 => exact absurd (h.symm.trans h0) (by decide)
    next h1 => exact absurd (h.symm.trans h1) (by decide)
    next h2 => exact absurd (h.symm.trans h2) (by decide)
    next => rfl
  rw [heq]
  exact logEntry_abides s e

theorem abandonWork_abides (s : State) (n : Fin 32) : Abides s (s.abandonWork n) := by
  unfold State.abandonWork
  refine Abides.foldl (Abides.foldl (freeOverlap_abides _ _ _) fun u m _ => recordCheck_abandoned u _ rfl) fun u d _ => .ite .refl ?_
  exact (recordCheck_abandoned u _ rfl).setFld _ _ _ (by decide)

/-! ### A job halted and let go of -/

theorem addRecord_abides (s : State) (job : Word) (kind reason : Nat) (arg : Word) (detail : List Byte) (final : Bool) :
    Abides s (s.addRecord job kind reason arg detail final) := by
  unfold State.addRecord
  split
  · exact .refl
  · dsimp only
    refine .ite (Abides.raiseJob ?_ _ _ _) ?_
    · exact Abides.refl.aside rfl rfl rfl rfl rfl
    · exact Abides.refl.aside rfl rfl rfl rfl rfl

theorem retainWindows_abides (s : State) (j : Job) : Abides s (s.retainWindows j) := by
  unfold State.retainWindows
  refine .ite .refl ?_
  exact Abides.refl.aside rfl rfl rfl rfl rfl

theorem releaseSlot_abides (s : State) {i : Nat} (hi : i < 64) : Abides s (s.releaseSlot i) := by
  unfold State.releaseSlot
  refine Abides.setFld ?_ _ _ _ (clGrp_ne_secStat hi (by decide))
  exact Abides.refl.aside rfl rfl rfl rfl rfl

theorem releaseGroups_abides (s : State) (job : Word) : Abides s (s.releaseGroups job) := by
  unfold State.releaseGroups
  refine Abides.refl.foldl fun u i hi => ?_
  split
  next g _ => exact .ite ((loseStaging_abides u g).trans (releaseSlot_abides _ (List.mem_range.mp hi))) .refl
  next => exact .refl

theorem leaveJobs_abides (s : State) (l : List (Fin 32)) (job : Word) :
    Abides s (l.foldl (fun (t : State) n => if (t.cores[n]).job = job then t.leaveJob n else t) s) :=
  Abides.refl.foldl fun _ _ _ => .ite (Abides.refl.aside rfl rfl rfl rfl rfl) .refl

/-- The transfers of a job. -/
def Job.owns (j : Job) (x : Xfer) : Bool :=
  match x.purpose with
  | .program k => k == j.id | .checkpoint k _ => k == j.id | .ingest k _ => k == j.id | _ => false

/-- What waits for a job, or runs for it, outside cores and groups is gone (R357, R444). -/
def State.forgetsJob (s : State) (j : Job) : State :=
  let gone := (s.xfers.filter j.owns).map (fun x => x.id)
  { s with
    jobs := s.jobs.filter (fun x => x.id != j.id), outMsgs := s.outMsgs.filter (fun m => m.job != j.id)
    earlyJoins := s.earlyJoins.filter (fun e => e.2.job != j.id), forming := s.forming.filter (fun g => g.job != j.id)
    groupFails := s.groupFails.filter (fun f => f.1 != j.id)
    halts := s.halts.filter (fun h => h.job != j.id)
    xfers := s.xfers.filter (fun x => !j.owns x)
    conns := s.conns.map (fun (c : Conn) => { c with pieces := c.pieces.filter (fun p => !gone.contains p.1) }) }

theorem releaseJob_eq (s : State) (j : Job) : s.releaseJob j =
    (((maskCores j.cores).foldl (fun (t : State) n => if (t.cores[n]).job = j.id then t.leaveJob n else t) s).releaseGroups j.id).forgetsJob j := rfl

/-- A job let go of is held no more. -/
theorem forgetsJob_abides (s : State) (j : Job) : Abides s (s.forgetsJob j) ∧ ∀ x ∈ (s.forgetsJob j).jobs, x.id ≠ j.id :=
  ⟨⟨Sent.refl _, RegsKept.of_regs_eq rfl, rfl, fun _ h => (List.mem_filter.mp h).1, fun _ h => h⟩, fun x hx => by simpa using (List.mem_filter.mp hx).2⟩

theorem releaseJob_abides (s : State) (j : Job) : Abides s (s.releaseJob j) ∧ ∀ x ∈ (s.releaseJob j).jobs, x.id ≠ j.id := by
  rw [releaseJob_eq]
  obtain ⟨hforget, hgone⟩ := forgetsJob_abides
    (((maskCores j.cores).foldl (fun (t : State) n => if (t.cores[n]).job = j.id then t.leaveJob n else t) s).releaseGroups j.id) j
  exact ⟨((leaveJobs_abides s _ _).trans (releaseGroups_abides _ _)).trans hforget, hgone⟩

/-- A halted job's last words: event 0x9E and the journal's record (R445, R460). -/
def State.tellsHalt (s : State) (j : Job) (m : HaltMsg) (words : List Word) : State :=
  (({ s with halted := j.id :: s.halted.filter (fun k => k != j.id) }).raiseJob 0x9E j.id [Word.place m.cause 8 0]).journalAdd 1 words

theorem tellsHalt_abides (s : State) (j : Job) (m : HaltMsg) (words : List Word) : Abides s (s.tellsHalt j m words) := by
  unfold State.tellsHalt
  refine Abides.journalAdd (Abides.raiseJob ?_ _ _ _) _ _
  exact Abides.refl.aside rfl rfl rfl rfl rfl

theorem haltJob_abides (s : State) (j : Job) (m : HaltMsg) : Abides s (s.haltJob j m) ∧ ∀ x ∈ (s.haltJob j m).jobs, x.id ≠ j.id := by
  have hgroups := haltGroups_abides s j.id
  have hwork : Abides s ((maskCores j.cores).foldl (fun (t : State) n => t.abandonWork n) (s.haltGroups j.id)) :=
    hgroups.foldl fun u n _ => abandonWork_abides u n
  have hretain := hwork.trans (retainWindows_abides _ j)
  unfold State.haltJob
  dsimp only
  generalize State.retainWindows _ j = a at hretain
  have hrecord (kind : Nat) (detail : List Byte) := hretain.trans (addRecord_abides a j.id kind 0 0 detail true)
  have hend {b : State} (hb : Abides s b) (words : List Word) :
      Abides s ((b.releaseJob j).tellsHalt j m words) ∧ ∀ x ∈ ((b.releaseJob j).tellsHalt j m words).jobs, x.id ≠ j.id := by
    obtain ⟨hrel, hgone⟩ := releaseJob_abides b j
    have htell := tellsHalt_abides (b.releaseJob j) j m words
    exact ⟨(hb.trans hrel).trans htell, fun x hx => hgone x (htell.jobs x hx)⟩
  exact hend (hrecord _ _) _

theorem sendHalt_abides (s : State) (m : HaltMsg) (row : Bool) : Abides s (s.sendHalt m row) := by
  unfold State.sendHalt
  exact .ite (Abides.refl.foldl fun u c _ => Abides.refl.emit _) .refl

/-- A halt on this device ends its job, when there is one. -/
theorem originHalt_abides (s : State) (h : HaltRequest) : Abides s (s.originHalt h) ∧ ∀ x ∈ (s.originHalt h).jobs, x.id ≠ h.job := by
  unfold State.originHalt
  split
  next hnone =>
    refine ⟨.refl, fun x hx he => ?_⟩
    exact absurd (List.find?_eq_none.mp hnone x hx) (by simp [he])
  next j hj =>
    have hid : j.id = h.job := by simpa using List.find?_some hj
    dsimp only
    split
    · obtain ⟨hab, hgone⟩ := haltJob_abides (s.sendHalt _ true) j _
      exact ⟨(sendHalt_abides s _ true).trans hab, fun x hx => hid ▸ hgone x hx⟩
    · obtain ⟨hab, hgone⟩ := haltJob_abides s j _
      exact ⟨hab, fun x hx => hid ▸ hgone x hx⟩

/-- Every job of the device is halted (R442). -/
theorem haltAll_abides (s : State) (cause : Nat) : Abides s (s.haltAll cause) ∧ (s.haltAll cause).jobs = [] := by
  refine ⟨Abides.refl.foldl fun u j _ => (originHalt_abides u _).1, ?_⟩
  exact foldl_empties (part := State.jobs) (names := fun j x => x.id = j.id) (fun u j => (originHalt_abides u _).1.jobs)
    (fun u j x hx => (originHalt_abides u _).2 x hx) (fun _ => rfl) s

/-! ### Retained windows, admissions, paths -/

theorem endRetention_abides (s : State) (r : Retained) : Abides s (s.endRetention r) := by
  unfold State.endRetention
  refine Abides.raiseJob ?_ _ _ _
  exact Abides.refl.aside rfl rfl rfl rfl rfl

/-- Every retention ends. -/
theorem endRetentions_empties (s : State) : (s.retained.foldl (fun (t : State) r => t.endRetention r) s).retained = [] :=
  List.eq_nil_iff_forall_not_mem.mpr fun r hr => by
    obtain ⟨hold, hnone⟩ := endRetentions_retained s.retained s r hr
    exact hnone hold

/-- An admission that is dropped leaves with its transfer. -/
theorem dropAdmission_moves (s : State) (d : BitVec 256) : ∃ u, Moves [] s u ∧
    s.dropAdmission d = { u with admissions := u.admissions.filter (fun a => a.digest != d) } := by
  unfold State.dropAdmission
  split
  · exact ⟨_, dropXfer_moves s _, rfl⟩
  · exact ⟨s, Moves.refl, rfl⟩

theorem dropAdmission_abides (s : State) (d : BitVec 256) : Abides s (s.dropAdmission d) ∧ (∀ a ∈ (s.dropAdmission d).admissions, a.digest ≠ d) ∧
    (s.dropAdmission d).retained = s.retained := by
  obtain ⟨u, hu, heq⟩ := dropAdmission_moves s d
  have hadm : u.admissions = s.admissions := hu.part State.admissions
  have hsec : RegsKept (fun o => o = Csr.secStat) s u := fun w => ⟨hu.wrote.canonical w, fun o ho => by rw [ho]; exact hu.wrote.reg w (by decide)⟩
  rw [heq]
  refine ⟨⟨hu.wrote.sent, hsec, hu.part State.seats, fun _ h => hu.part State.jobs ▸ h, fun a ha => ?_⟩, fun a ha => ?_, hu.part State.retained⟩
  · exact hadm ▸ (List.mem_filter.mp ha).1
  · simpa using (List.mem_filter.mp ha).2

/-- A state with other links has told what leads from s to t. -/
def TellsOfLinks (s t : State) : Prop := ∃ l, Tells { s with links := l } t

theorem TellsOfLinks.tells (h : TellsOfLinks s t) (k : Tells t u) : TellsOfLinks s u := h.imp fun _ hl => hl.trans k

theorem TellsOfLinks.links (h : TellsOfLinks s t) (l' : Vector Link 128) : TellsOfLinks s { t with links := l' } := by
  obtain ⟨l, hl⟩ := h
  obtain ⟨r, o, k, n, rfl⟩ := hl.shape
  exact ⟨l', hl.canonical, hl.sent, r, o, k, n, rfl⟩

theorem TellsOfLinks.modLink (h : TellsOfLinks s t) (i : Nat) (f : Link → Link) : TellsOfLinks s (t.modLink i f) := by
  unfold State.modLink
  split
  · exact h.links _
  · exact h

theorem broadcastStates_tells (s : State) : Tells s s.broadcastStates :=
  .ite .refl (Tells.refl.foldl fun _ _ _ => Tells.refl.emit _)

theorem pathGoesDown_tells (s : State) (i : Nat) : TellsOfLinks s (s.pathGoesDown i) := by
  let a := (s.setFld (Csr.fabPath i) 63 60 pathDownSt).bump (Csr.fabLcnt i) 63 48 1
  let b := (i :: a.controlled i).foldl State.dropFlits a
  have ha : TellsOfLinks s a := ⟨s.links, (Tells.refl.setFld _ _ _ _).bump _ _ _ _⟩
  have hb : TellsOfLinks s b :=
    List.foldlRecOn (motive := fun t : State => TellsOfLinks s t) _ _ ha fun u hu k _ => TellsOfLinks.modLink hu k _
  have hc := TellsOfLinks.modLink hb i (fun l => { l with draining := false, change := none })
  exact hc.tells ((Tells.refl.raise 0x31 [BitVec.ofNat 64 i]).trans (broadcastStates_tells _))

/-- A path that is taken down changes links, registers, and what has been told. -/
theorem takeDown_tells (s : State) (i : Nat) : TellsOfLinks s (s.takeDown i) := by
  unfold State.takeDown
  dsimp only
  split
  · exact ⟨s.links, Tells.refl⟩
  · exact pathGoesDown_tells s i

theorem broadcastStates_abides (s : State) : Abides s s.broadcastStates :=
  .ite .refl (Abides.refl.foldl fun _ _ _ => Abides.refl.emit _)

theorem pathGoesDown_abides (s : State) {i : Nat} (hi : i < 128) : Abides s (s.pathGoesDown i) := by
  have hpath : Csr.fabPath i ≠ Csr.secStat := by simp only [Csr.fabPath, Csr.secStat]; omega
  have hcnt : Csr.fabLcnt i ≠ Csr.secStat := by simp only [Csr.fabLcnt, Csr.secStat]; omega
  let a := (s.setFld (Csr.fabPath i) 63 60 pathDownSt).bump (Csr.fabLcnt i) 63 48 1
  let b := (i :: a.controlled i).foldl State.dropFlits a
  have ha : Abides s a := (Abides.refl.setFld _ _ _ hpath).bump _ _ _ hcnt
  have hb : Abides s b := ha.foldl fun u k _ => Abides.refl.modLink k _
  have hc := hb.modLink i (fun l => { l with draining := false, change := none })
  exact (hc.raise 0x31 [BitVec.ofNat 64 i]).trans (broadcastStates_abides _)

theorem takeDown_abides (s : State) {i : Nat} (hi : i < 128) : Abides s (s.takeDown i) := .ite .refl (pathGoesDown_abides s hi)

end Sys2Proof.Machine

end

section
/-! PROOFS. Keys, attestation and the debug port (R348, R418 to R420, R433 to R435, R439, R470, R477). -/

namespace Sys2Proof.Machine

open Sys2Proof.Safety

variable {l : List RegField} {s t u : State} {k : Fin 64} {x : Session} {id : BitVec 32} {rest : List (BitVec 32 × Nat)}

/-! ### ATTEST -/

/-- The bytes at the front of a report (R433). -/
theorem report_front (s : State) (i : Image) (nonce : List Byte) : ∃ v tail, s.report i nonce =
    bytesOfNat 2 1 ++ (bytesOfNat 1 v ++ (bytesOfNat 1 s.attestFlags ++ (bytesOfNat 4 s.flash.bootCnt ++ (bytesOfNat 8 s.ft.toNat ++ (nonce ++ tail))))) := by
  unfold State.report
  simp only [List.append_assoc]
  exact ⟨_, _, rfl⟩

theorem attestFlags_lt (s : State) : s.attestFlags < 256 := by
  have hbit (b : Bool) (k : Nat) (hk : k ≤ 5) : (if b then 2 ^ k else 0) ≤ 32 := by
    split
    · exact Nat.pow_le_pow_right (by decide) hk
    · omega
  unfold State.attestFlags
  dsimp only
  have h0 := hbit (!s.flash.owners.isEmpty) 0 (by decide)
  have h1 := hbit ((s.reg Csr.secStat).bit 60) 1 (by decide)
  have h2 := hbit ((s.reg Csr.fwStat).bit 50) 2 (by decide)
  have h3 := hbit (s.mstate == mHeld) 3 (by decide)
  have h4 := hbit s.degraded 4 (by decide)
  have h5 := hbit ((s.reg Csr.secStat).bit 54) 5 (by decide)
  omega

/-- What a report says at its front, whatever follows it. -/
theorem report_says (s : State) (i : Image) (nonce more : List Byte) (hn : nonce.length = 32) :
    let body := s.report i nonce ++ more
    bodyNat body 0 2 = 1 ∧ bodyNat body 3 1 = s.attestFlags ∧ bodyNat body 4 4 = s.flash.bootCnt % 2 ^ 32 ∧ bodyNat body 8 8 = s.ft.toNat ∧
      (body.drop 16).take 32 = nonce := by
  intro body
  obtain ⟨v, tail, hreport⟩ := report_front s i nonce
  have hbody : body = bytesOfNat 2 1 ++ (bytesOfNat 1 v ++ (bytesOfNat 1 s.attestFlags ++ (bytesOfNat 4 s.flash.bootCnt ++ (bytesOfNat 8 s.ft.toNat ++
      (nonce ++ (tail ++ more)))))) := by
    show s.report i nonce ++ more = _
    rw [hreport]
    simp only [List.append_assoc]
  have hflags := attestFlags_lt s
  have hft := s.ft.isLt
  rw [hbody]
  refine ⟨?_, ?_, ?_, ?_, ?_⟩
  · exact bodyNat_head 2 1 _
  · rw [bodyNat_skip 2 _ _ _ _ (by decide), bodyNat_skip 1 _ _ _ _ (by decide), bodyNat_head]
    omega
  · rw [bodyNat_skip 2 _ _ _ _ (by decide), bodyNat_skip 1 _ _ _ _ (by decide), bodyNat_skip 1 _ _ _ _ (by decide), bodyNat_head]
    norm_num
  · rw [bodyNat_skip 2 _ _ _ _ (by decide), bodyNat_skip 1 _ _ _ _ (by decide), bodyNat_skip 1 _ _ _ _ (by decide), bodyNat_skip 4 _ _ _ _ (by decide),
      bodyNat_head]
    omega
  · simp [List.drop_append, bytesOfNat_length, hn, List.drop_eq_nil_of_le]

theorem exec_attest {i : Image} {nonce : List Byte} (hdue : Due s k x 0x41 id rest) (hrun : s.running = some i) (hn : nonce.length = 32) :
    ∃ t body, exec (.attest k nonce) s = .next t ∧ Answered t k x id rest { status := 0, body := body } ∧
      bodyNat body 0 2 = 1 ∧ bodyNat body 3 1 = s.attestFlags ∧ bodyNat body 4 4 = s.flash.bootCnt % 2 ^ 32 ∧
      bodyNat body 8 8 = s.ft.toNat ∧ (body.drop 16).take 32 = nonce ∧ t = { s with out := t.out, sessions := t.sessions, fresh := t.fresh } := by
  let v := s.taken k x id rest
  let r : Response := { status := stOk, body := v.report i nonce ++ freeField 6 v.fresh 64 ++ v.certificate }
  have hrunning : v.running = some i := hrun
  have hexec : exec (.attest k nonce) s = .next (State.replied v.drew k x id rest r) := by
    refine congrArg Host.Outcome.next (serve_effect hdue ?_ rfl rfl)
    rw [hrunning]
    exact if_neg (not_not.mpr hn)
  obtain ⟨hver, hflags, hboots, hft, hnonce⟩ := report_says v i nonce (freeField 6 v.fresh 64 ++ v.certificate) hn
  rw [← List.append_assoc] at hver hflags hboots hft hnonce
  exact ⟨_, _, hexec, answered_replied, hver, hflags, hboots, hft, hnonce, rfl⟩

/-! ### ENROLL -/

/-- The sessions and sinks of keys that hold their role. -/
def State.keptRoles (s : State) : State :=
  { s with
    sessions := s.sessions.map (fun o => o.filter (fun x => s.keyRole x.ch.key == some x.role))
    sinks := s.sinks.map (fun o => match o with | some q => if (s.keyRole q.key).isSome then some q else none | none => none) }

theorem endRevoked_tells (s : State) : Tells s.keptRoles s.endRevoked := by
  unfold State.endRevoked
  exact Tells.foldl Tells.refl fun _ _ _ => Tells.refl.raise _ _

theorem endRevoked_wrote (s : State) : Wrote l s s.endRevoked := by
  unfold State.endRevoked
  refine Wrote.foldl ?_ fun _ _ _ => Wrote.refl.raise _ _
  exact Wrote.refl.aside rfl rfl rfl rfl

/-- A session that stays has the role of its key. -/
theorem endRevoked_stays (s : State) (i : Fin 64) {y : Session} (hy : s.endRevoked.sessions[i] = some y) : s.keyRole y.ch.key = some y.role := by
  rw [(endRevoked_tells s).part State.sessions] at hy
  have hfilter : (s.sessions[i]).filter (fun x => s.keyRole x.ch.key == some x.role) = some y := by
    rw [← hy]
    exact (Vector.getElem_map _ i.isLt).symm
  simpa using (Option.filter_eq_some_iff.mp hfilter).2

/-- The effect of ENROLL (R419, R420). -/
def enrollEffect (k : Fin 64) (body : List Byte) (claimOk : Bool) (s : State) : State × Response :=
  let claimant : Bool := match s.sessions[k] with | some x => x.role == 3 | none => true
  let (t, st) := s.enroll claimant body claimOk
  (t, plain st)

/-- An enrolment that succeeds is answered, and sessions of revoked keys end. -/
theorem exec_enroll {body : List Byte} {claimOk : Bool} (hdue : Due s k x 0x42 id rest)
    (heff : (s.taken k x id rest).enroll (x.role == 3) body claimOk = (u, stOk)) (hs : u.sessions = (s.taken k x id rest).sessions) (hp : u.ports = s.ports) :
    exec (.enroll k body claimOk) s = .next (u.replied k x id rest (plain stOk)).endRevoked := by
  have heffect : enrollEffect k body claimOk (s.taken k x id rest) = (u, plain stOk) := by
    unfold enrollEffect
    rw [taken_session]
    dsimp only
    rw [show (x.taken id rest).role = x.role from rfl, heff]
  exact congrArg Host.Outcome.next (congrArg State.endRevoked (serve_effect (effect := enrollEffect k body claimOk) hdue heffect hs hp))

/-- The registers that an enrolment writes. -/
def keyFields : List RegField := [(Csr.secStat, 63, 0), (Csr.secStat, 54, 54), (Csr.jrnStat, 31, 0), (Csr.jrnStat, 47, 32)]

/-- What is answered and left of an enrolment that writes no other registers. -/
theorem enrolled_leaves (w : regsCanonical s) (hu : Wrote keyFields (s.taken k x id rest) u) :
    Output.response x.ch.port x.ch.sid id { status := 0, body := [] } ∈ (u.replied k x id rest (plain stOk)).endRevoked.out ∧
      Frame s (u.replied k x id rest (plain stOk)).endRevoked [Csr.secStat, Csr.jrnStat] := by
  have hlast : Wrote keyFields (u.replied k x id rest (plain stOk)) (u.replied k x id rest (plain stOk)).endRevoked := endRevoked_wrote _
  have hall := (((Wrote.taken (l := keyFields) k x id rest).trans hu).replied (k := k) (x := x) (id := id) (rest := rest) (r := plain stOk)).trans hlast
  exact ⟨hlast.sent _ List.mem_cons_self, hall.frame w (by simp [keyFields])⟩

/-- The state that shows the keys of f (R419, R439). -/
def State.showsKeys (s : State) (f : Flash) : State := (State.syncSec { s with flash := f }).setBit Csr.secStat 54 true

theorem showsKeys_tells (s : State) (f : Flash) : Tells { s with flash := f } (s.showsKeys f) := (Tells.refl.setReg _ _).setBit _ _ _

theorem showsKeys_wrote (s : State) (f : Flash) : Wrote keyFields s (s.showsKeys f) := by
  unfold State.showsKeys State.syncSec
  refine Wrote.setBit (Wrote.setReg ?_ _ (by simp [keyFields])) _ (by decide) (by simp [keyFields])
  exact Wrote.refl.flash _

/-- SEC_STAT says whether the device is owned. -/
theorem showsKeys_owned (w : regsCanonical s) (f : Flash) : ((s.showsKeys f).reg Csr.secStat).bit 63 = !f.owners.isEmpty := by
  have w' : regsCanonical { s with flash := f } := w
  unfold State.showsKeys State.syncSec
  rw [State.bit_setBit _ _ _ _ _ (State.setReg_wf _ _ _ w') (by decide), if_neg (by decide), State.reg_setReg _ _ _ _ w', if_pos rfl]
  simp [Word.bit_or, Word.bit_placeBit, Word.bit_place_apart, State.secWord]

/-- The keys of the first owner (R420). -/
def Flash.owned (f : Flash) (key : BitVec 256) : Flash := { f with owners := f.owners ++ [key], keys := [], ckeys := 0, ringKey := false, cfgOk := true }

theorem newOwner_eq (s : State) (key : BitVec 256) : s.newOwner key =
    ((s.showsKeys (s.flash.owned key)).raise 0x62 [BitVec.ofNat 64 ((s.flash.owned key).owners.length - 1)]).journalAdd 8
      [0, BitVec.ofNat 64 ((s.flash.owned key).owners.length - 1)] := rfl

theorem journalAdd_flash (s : State) (type : Nat) (body : List Word) : ∃ j, (s.journalAdd type body).flash = { s.flash with journal := j } := ⟨_, rfl⟩

theorem newOwner_leaves (w : regsCanonical s) (key : BitVec 256) :
    Wrote keyFields s (s.newOwner key) ∧ (s.newOwner key).sessions = s.sessions ∧ (s.newOwner key).ports = s.ports ∧
      (∃ j, (s.newOwner key).flash = { s.flash.owned key with journal := j }) ∧ Raised (s.newOwner key) 0x62 0 ∧
      ((s.newOwner key).reg Csr.secStat).bit 63 = true := by
  rw [newOwner_eq]
  generalize [BitVec.ofNat 64 ((s.flash.owned key).owners.length - 1)] = n
  let a := s.showsKeys (s.flash.owned key)
  have ha := showsKeys_wrote s (s.flash.owned key)
  have htells : Tells { s with flash := s.flash.owned key } (a.raise 0x62 n) := (showsKeys_tells s _).raise _ _
  have hjournal : Wrote [(Csr.jrnStat, 31, 0), (Csr.jrnStat, 47, 32)] (a.raise 0x62 n) ((a.raise 0x62 n).journalAdd 8 (0 :: n)) :=
    Wrote.refl.journalAdd _ _ (by simp) (by simp)
  have hlast : Wrote [(Csr.jrnStat, 31, 0), (Csr.jrnStat, 47, 32)] a ((a.raise 0x62 n).journalAdd 8 (0 :: n)) := (Wrote.refl.raise _ _).trans hjournal
  refine ⟨ha.trans (hlast.mono (by simp [keyFields])), htells.part State.sessions, htells.part State.ports, ?_, hjournal.raised (raised_raise _ _ _), ?_⟩
  · obtain ⟨j, hj⟩ := journalAdd_flash (a.raise 0x62 n) 8 (0 :: n)
    exact ⟨j, by rw [hj, htells.part State.flash]⟩
  · rw [hlast.bit (ha.canonical w) (by decide), showsKeys_owned w]
    simp [Flash.owned]

theorem keysChanged_leaves (s : State) (f : Flash) :
    Wrote keyFields s (s.keysChanged f) ∧ (s.keysChanged f).sessions = s.sessions ∧ (s.keysChanged f).ports = s.ports ∧
      (s.keysChanged f).flash = { f with cfgOk := true } ∧ Raised (s.keysChanged f) 0x63 0 := by
  have htells : Tells { s with flash := { f with cfgOk := true } } (s.keysChanged f) := (showsKeys_tells s _).raise _ _
  exact ⟨(showsKeys_wrote s _).raise _ _, htells.part State.sessions, htells.part State.ports, htells.part State.flash, raised_raise _ _ _⟩

theorem exec_enroll_owner (w : regsCanonical s) {body : List Byte} (hdue : Due s k x 0x42 id rest) (hlen : body.length = 136) (hop : bodyNat body 0 1 = 1)
    (hkind : bodyNat body 1 1 = 0) (hslot : bodyNat body 2 1 = 0) (hzero : bodyNat body 3 5 = 0) (hnone : s.flash.owners = []) :
    ∃ t, exec (.enroll k body true) s = .next t ∧ (Output.response x.ch.port x.ch.sid id { status := 0, body := [] } ∈ t.out ∧
      Frame s t [Csr.secStat, Csr.jrnStat]) ∧ t.flash.owners = [sm3 ((body.drop 8).take 64)] ∧ t.flash.keys = [] ∧ t.flash.ckeys = 0 ∧
      t.flash.ringKey = false ∧ Raised t 0x62 0 ∧ (t.reg Csr.secStat).bit 63 = true := by
  let v := s.taken k x id rest
  let key := sm3 ((body.drop 8).take 64)
  obtain ⟨hwrote, hs, hp, ⟨j, hflash⟩, hraised, hbit⟩ := newOwner_leaves (s := v) w key
  have hunowned : v.flash.owners = [] := hnone
  have hnew : v.enroll (x.role == 3) body true = (v.newOwner key, stOk) := by
    unfold State.enroll
    dsimp only
    rw [if_neg (by simp [hlen, hop, hkind, hslot, hzero]), if_neg (by simp [hkind]), if_pos hkind]
    unfold State.enrollOwner
    rw [if_neg (by simp [hop, hunowned]), if_pos (by simp [hunowned])]
    rfl
  generalize v.newOwner key = a at hwrote hs hp hflash hraised hbit hnew
  let b := a.replied k x id rest (plain stOk)
  have hend : Wrote [] a b.endRevoked := ((Wrote.refl (l := [])).replied).trans (endRevoked_wrote _)
  have hkeys : b.endRevoked.flash = { v.flash.owned key with journal := j } := ((endRevoked_tells b).part State.flash).trans hflash
  refine ⟨_, exec_enroll hdue hnew hs hp, enrolled_leaves w hwrote, ?_, ?_, ?_, ?_, hend.raised hraised,
    (hend.bit (hwrote.canonical w) (by decide)).trans hbit⟩
  · rw [hkeys]
    simp [Flash.owned, hunowned, key]
  · rw [hkeys]; rfl
  · rw [hkeys]; rfl
  · rw [hkeys]; rfl

/-- The body of an enrolment of a key other than an owner's. -/
structure EnrolsKey (body : List Byte) (op kind slot : Nat) : Prop where
  length : body.length = 136
  op : bodyNat body 0 1 = op
  kind : bodyNat body 1 1 = kind
  slot : bodyNat body 2 1 = slot
  clear : bodyNat body 3 5 = 0
  claim : bodyNat body 72 64 = 0

/-- An enrolment of an operator's or observer's key by an owner. -/
theorem enroll_role {body : List Byte} {op kind : Nat} (hb : EnrolsKey body op kind 0) (hop : op = 1 ∨ op = 2) (hkind : kind = 1 ∨ kind = 2) (claimOk : Bool) :
    s.enroll false body claimOk = s.enrollRole op kind (sm3 ((body.drop 8).take 64)) := by
  unfold State.enroll
  dsimp only
  rw [hb.length, hb.op, hb.kind, hb.slot, hb.clear, hb.claim, if_neg, if_neg (by simp), if_neg (by omega), if_neg (by simp), if_pos (by omega)]
  rcases hkind with rfl | rfl <;> rcases hop with rfl | rfl <;> simp

/-- An enrolment of a checkpoint key by an owner. -/
theorem enroll_checkpoint {body : List Byte} {op slot : Nat} (hb : EnrolsKey body op 3 slot) (hop : op = 1 ∨ op = 2) (hlo : 1 ≤ slot) (hhi : slot ≤ 8)
    (claimOk : Bool) : s.enroll false body claimOk =
      if op = 1 then (s.keysChanged { s.flash with ckeys := s.flash.ckeys ||| (1#9 <<< slot) }, stOk)
      else if s.flash.ckeys.getLsbD slot then (s.keysChanged { s.flash with ckeys := s.flash.ckeys &&& ~~~ (1#9 <<< slot) }, stOk)
      else (s, stNotFound) := by
  unfold State.enroll
  dsimp only
  rw [hb.length, hb.op, hb.kind, hb.slot, hb.clear, hb.claim, if_neg, if_neg (by simp), if_neg (by omega), if_neg (by simp), if_neg (by omega), if_pos rfl]
  rcases hop with rfl | rfl <;> simp [hlo, hhi]

/-- The ring key installed by an owner. -/
theorem enroll_ring {body : List Byte} (hb : EnrolsKey body 1 4 0) (claimOk : Bool) :
    s.enroll false body claimOk = (s.keysChanged { s.flash with ringKey := true }, stOk) := by
  unfold State.enroll
  dsimp only
  rw [hb.length, hb.op, hb.kind, hb.slot, hb.clear, hb.claim, if_neg (by simp), if_neg (by simp), if_neg (by omega), if_neg (by simp), if_neg (by omega),
    if_neg (by omega), if_pos rfl]

/-- A change of keys that an owner sends. -/
theorem exec_enroll_keys (w : regsCanonical s) {body : List Byte} (hdue : Due s k x 0x42 id rest) (howner : x.role = 0) {f : Flash}
    (heff : (s.taken k x id rest).enroll false body false = ((s.taken k x id rest).keysChanged f, stOk)) :
    ∃ t, exec (.enroll k body false) s = .next t ∧ (Output.response x.ch.port x.ch.sid id { status := 0, body := [] } ∈ t.out ∧
      Frame s t [Csr.secStat, Csr.jrnStat]) ∧ t.flash = { f with cfgOk := true } ∧ Raised t 0x63 0 ∧
      ∀ i : Fin 64, ∀ y, t.sessions[i] = some y → t.keyRole y.ch.key = some y.role := by
  obtain ⟨hwrote, hs, hp, hflash, hraised⟩ := keysChanged_leaves (s.taken k x id rest) f
  have hclaimant : (x.role == 3) = false := by rw [howner]; rfl
  generalize (s.taken k x id rest).keysChanged f = a at hwrote hs hp hflash hraised heff
  let b := a.replied k x id rest (plain stOk)
  have hend : Wrote [] a b.endRevoked := ((Wrote.refl (l := [])).replied).trans (endRevoked_wrote _)
  have hkeys : b.endRevoked.flash = a.flash := (endRevoked_tells b).part State.flash
  refine ⟨_, exec_enroll hdue (by rw [hclaimant]; exact heff) hs hp, enrolled_leaves w hwrote, hkeys.trans hflash, hend.raised hraised, fun i y hy => ?_⟩
  have hrole : b.endRevoked.keyRole y.ch.key = b.keyRole y.ch.key := by
    unfold State.keyRole
    rw [hkeys]
    rfl
  exact hrole.trans (endRevoked_stays b i hy)

theorem exec_enroll_addRole (w : regsCanonical s) {body : List Byte} {kind : Nat} (hdue : Due s k x 0x42 id rest) (howner : x.role = 0)
    (hkind : kind = 1 ∨ kind = 2) (hb : EnrolsKey body 1 kind 0) (hroom : (s.flash.keys.filter (fun y => y.hash != sm3 ((body.drop 8).take 64))).length < 32) :
    ∃ t, exec (.enroll k body false) s = .next t ∧ (Output.response x.ch.port x.ch.sid id { status := 0, body := [] } ∈ t.out ∧
      Frame s t [Csr.secStat, Csr.jrnStat]) ∧ { hash := sm3 ((body.drop 8).take 64), role := kind } ∈ t.flash.keys ∧
      (∀ y ∈ t.flash.keys, y.hash = sm3 ((body.drop 8).take 64) → y.role = kind) ∧
      (∀ y ∈ s.flash.keys, y.hash ≠ sm3 ((body.drop 8).take 64) → y ∈ t.flash.keys) ∧ Raised t 0x63 0 := by
  generalize hkey : sm3 ((body.drop 8).take 64) = key at hroom ⊢
  have heff : (s.taken k x id rest).enroll false body false = ((s.taken k x id rest).keysChanged
      { s.flash with keys := s.flash.keys.filter (fun y => y.hash != key) ++ [{ hash := key, role := kind }] }, stOk) := by
    rw [enroll_role hb (.inl rfl) hkind, hkey]
    unfold State.enrollRole
    dsimp only
    rw [if_pos rfl]
    exact if_neg (not_le.mpr hroom)
  obtain ⟨t, hexec, hanswer, hflash, hraised, -⟩ := exec_enroll_keys w hdue howner heff
  refine ⟨t, hexec, hanswer, ?_, fun y hy he => ?_, fun y hy hne => ?_, hraised⟩
  · rw [hflash]; simp
  · rw [hflash] at hy
    rcases List.mem_append.mp hy with h | h
    · exact absurd he (by simpa using (List.mem_filter.mp h).2)
    · rw [List.mem_singleton.mp h]
  · rw [hflash]
    exact List.mem_append_left _ (List.mem_filter.mpr ⟨hy, by simpa using hne⟩)

theorem exec_enroll_removeRole (w : regsCanonical s) {body : List Byte} {kind : Nat} (hdue : Due s k x 0x42 id rest) (howner : x.role = 0)
    (hkind : kind = 1 ∨ kind = 2) (hb : EnrolsKey body 2 kind 0) (hheld : { hash := sm3 ((body.drop 8).take 64), role := kind } ∈ s.flash.keys) :
    ∃ t, exec (.enroll k body false) s = .next t ∧ (Output.response x.ch.port x.ch.sid id { status := 0, body := [] } ∈ t.out ∧
      Frame s t [Csr.secStat, Csr.jrnStat]) ∧ (∀ y, y ∈ t.flash.keys ↔ y ∈ s.flash.keys ∧ y.hash ≠ sm3 ((body.drop 8).take 64)) ∧ Raised t 0x63 0 ∧
      (s.flash.owner ≠ some (sm3 ((body.drop 8).take 64)) → s.flash.owners ≠ [] → ∀ i : Fin 64, ∀ y, t.sessions[i] = some y →
        y.ch.key ≠ sm3 ((body.drop 8).take 64)) := by
  generalize hkey : sm3 ((body.drop 8).take 64) = key at hheld ⊢
  have heff : (s.taken k x id rest).enroll false body false = ((s.taken k x id rest).keysChanged
      { s.flash with keys := s.flash.keys.filter (fun y => y.hash != key) }, stOk) := by
    rw [enroll_role hb (.inr rfl) hkind, hkey]
    unfold State.enrollRole
    dsimp only
    rw [if_neg (by decide)]
    exact if_pos (List.any_eq_true.mpr ⟨_, hheld, by simp⟩)
  obtain ⟨t, hexec, hanswer, hflash, hraised, hstays⟩ := exec_enroll_keys w hdue howner heff
  refine ⟨t, hexec, hanswer, fun y => ?_, hraised, fun hnot howned i y hy he => ?_⟩
  · rw [hflash]
    simp [List.mem_filter]
  · have hrole := hstays i y hy
    have hkeys : t.flash.keys.find? (fun k => k.hash == key) = none := by
      rw [hflash]
      exact List.find?_eq_none.mpr fun z hz => by simpa using (List.mem_filter.mp hz).2
    have howner' : t.flash.owner = s.flash.owner := by rw [hflash]; rfl
    have hsome : s.flash.owner ≠ none := fun h => howned (List.getLast?_eq_none_iff.mp h)
    unfold State.keyRole at hrole
    rw [he, howner', if_neg hnot, hkeys] at hrole
    dsimp only at hrole
    rw [if_neg (by simpa using hsome)] at hrole
    exact absurd hrole (by simp)

theorem bit_single (slot i : Nat) (hi : i < 9) (hslot : slot ≤ 8) : (1#9 <<< slot).getLsbD i = (i == slot) := by
  interval_cases slot <;> interval_cases i <;> rfl

theorem exec_enroll_checkpoint (w : regsCanonical s) {body : List Byte} {slot : Nat} (hdue : Due s k x 0x42 id rest) (howner : x.role = 0)
    (hlo : 1 ≤ slot) (hhi : slot ≤ 8) :
    (EnrolsKey body 1 3 slot → ∃ t, exec (.enroll k body false) s = .next t ∧ (Output.response x.ch.port x.ch.sid id { status := 0, body := [] } ∈ t.out ∧
      Frame s t [Csr.secStat, Csr.jrnStat]) ∧ Raised t 0x63 0 ∧ ∀ i, i < 9 → t.flash.ckeys.getLsbD i = (s.flash.ckeys.getLsbD i || i == slot)) ∧
    (EnrolsKey body 2 3 slot → s.flash.ckeys.getLsbD slot = true → ∃ t, exec (.enroll k body false) s = .next t ∧
      (Output.response x.ch.port x.ch.sid id { status := 0, body := [] } ∈ t.out ∧ Frame s t [Csr.secStat, Csr.jrnStat]) ∧ Raised t 0x63 0 ∧
      ∀ i, i < 9 → t.flash.ckeys.getLsbD i = (s.flash.ckeys.getLsbD i && i != slot)) := by
  refine ⟨fun hb => ?_, fun hb hheld => ?_⟩
  · obtain ⟨t, hexec, hanswer, hflash, hraised, -⟩ := exec_enroll_keys w hdue howner ((enroll_checkpoint hb (.inl rfl) hlo hhi false).trans (if_pos rfl))
    refine ⟨t, hexec, hanswer, hraised, fun i hi => ?_⟩
    rw [hflash]
    show (s.flash.ckeys ||| (1#9 <<< slot)).getLsbD i = _
    rw [BitVec.getLsbD_or, bit_single slot i hi hhi]
  · obtain ⟨t, hexec, hanswer, hflash, hraised, -⟩ := exec_enroll_keys w hdue howner
      ((enroll_checkpoint hb (.inr rfl) hlo hhi false).trans ((if_neg (by decide)).trans (if_pos hheld)))
    refine ⟨t, hexec, hanswer, hraised, fun i hi => ?_⟩
    rw [hflash]
    show (s.flash.ckeys &&& ~~~ (1#9 <<< slot)).getLsbD i = _
    rw [BitVec.getLsbD_and, BitVec.getLsbD_not, bit_single slot i hi hhi]
    simp [hi, bne]

theorem exec_enroll_ring (w : regsCanonical s) {body : List Byte} (hdue : Due s k x 0x42 id rest) (howner : x.role = 0) (hb : EnrolsKey body 1 4 0) :
    ∃ t, exec (.enroll k body false) s = .next t ∧ (Output.response x.ch.port x.ch.sid id { status := 0, body := [] } ∈ t.out ∧
      Frame s t [Csr.secStat, Csr.jrnStat]) ∧ Raised t 0x63 0 ∧ t.flash.ringKey = true := by
  obtain ⟨t, hexec, hanswer, hflash, hraised, -⟩ := exec_enroll_keys w hdue howner (enroll_ring hb false)
  exact ⟨t, hexec, hanswer, hraised, by rw [hflash]⟩

/-! ### The debug port -/

theorem mbxData_facts : ∀ i : Fin 15, (BitVec.ofNat 32 (Csr.mbxData i.val)).toNat = Csr.mbxData i.val ∧ inTable (Csr.mbxData i.val) (Csr.mbxData 0) 8 15 = true ∧
    (Csr.mbxData i.val - Csr.mbxData 0) / 8 = i.val := by
  decide

theorem exec_debugPortWrite_data (i : Fin 15) (mask value : Word) (hpip : s.pipRuns = true) :
    exec (.debugPortWrite (BitVec.ofNat 32 (Csr.mbxData i.val)) mask value) s =
      .next { s with mailbox := s.mailbox.set i ((s.mailbox[i] &&& ~~~ mask) ||| (value &&& mask)) } := by
  obtain ⟨hoff, htable, hplace⟩ := mbxData_facts i
  have hold : s.mailbox.toList.getD i.val 0 = s.mailbox[i] := by simp
  have hset (v : Word) : s.mailbox.setIfInBounds i.val v = s.mailbox.set i v := by
    apply Vector.ext
    intro j hj
    simp [Vector.getElem_setIfInBounds, Vector.getElem_set]
  show execDebugPortWrite _ mask value s = _
  unfold execDebugPortWrite
  dsimp only
  rw [hoff, htable, hplace, hold, hset, if_neg (by simp [hpip]), if_pos rfl]

theorem plainRegs_port : ∀ o ∈ plainRegs, (BitVec.ofNat 32 o).toNat = o ∧ inTable o (Csr.mbxData 0) 8 15 = false := by decide

/-- A write on the unlocked debug port is an owner's write of the register (R470). -/
theorem exec_debugPortWrite_register (w : regsCanonical s) {o : Nat} (mask value : Word) (hpip : s.pipRuns = true) (hopen : (s.reg Csr.secStat).bit 60 = true)
    (hscope : (s.reg Csr.secStat).bit 56 = true) (ho : o ∈ plainRegs) (hl : (s.reg o).bit 63 = false) :
    ∃ t, exec (.debugPortWrite (BitVec.ofNat 32 o) mask value) s = .next t ∧ Frame s t (o :: alsoRegs o) ∧
      ∀ b, b < 64 → (t.reg o).bit b = if mask.bit b && ((csrAccess o).rw ||| (csrAccess o).rwl).bit b then value.bit b else (s.reg o).bit b := by
  obtain ⟨hoff, htable⟩ := plainRegs_port o ho
  have hlocked := plainRegs_subset ho
  obtain ⟨-, -, -, hmbx, -, -, -, -⟩ := lockedRegs_spec o hlocked
  let new := csrNew (csrAccess o) (s.reg o) mask value
  let t := (s.stored o new).csrActs o ((csrAccess o).wo &&& mask &&& value) (s.reg o) new
  have hwrite : (s.csrWrite o mask value).1 = t := by
    have hngs : s.csrWriteNgs o mask value = s.csrWrite o mask value := by
      unfold State.csrWriteNgs
      rw [hmbx]
      rfl
    rw [← hngs, csrWriteNgs_eq s hlocked (csrRejects_plain ho mask)]
    rfl
  have hexec : exec (.debugPortWrite (BitVec.ofNat 32 o) mask value) s = .next t := by
    show execDebugPortWrite _ mask value s = _
    unfold execDebugPortWrite
    dsimp only
    rw [hoff, htable, hmbx, hwrite, if_neg (by simp [hpip]), if_neg (by decide), if_neg (by decide), if_pos ⟨hopen, hscope⟩]
  obtain ⟨honly, hreg⟩ := stored_acts (new := new) w hlocked (plainRegs_not_also o ho) (csrActs_plain (act := (csrAccess o).wo &&& mask &&& value) (old := s.reg o) ho)
  refine ⟨t, hexec, ⟨fun a => congrArg (fun m => sparseGet memDefault m a) honly.mem, honly.cores, fun q hq hqe => (honly.regs w).2 q ⟨hq, hqe⟩⟩, fun b hb => ?_⟩
  rw [hreg]
  exact csrNew_unlocked_bit hlocked hl hb

/-! ### Tokens -/

/-- The token has been taken from the mailbox, and the nonce changes (R434). -/
def State.tokenTaken (s : State) : State :=
  let s : State := { s with mailbox := Vector.replicate 15 0 }
  s.drew.setReg Csr.secDbgNonce s.free

theorem tokenTaken_wrote (s : State) : Wrote [(Csr.secDbgNonce, 63, 0)] s s.tokenTaken := by
  unfold State.tokenTaken
  refine Wrote.setReg ?_ _ (by simp)
  exact Wrote.refl.aside rfl rfl rfl rfl

theorem tokenTaken_nonce (w : regsCanonical s) : s.tokenTaken.reg Csr.secDbgNonce = s.free := by
  have w' : regsCanonical (State.drew { s with mailbox := Vector.replicate 15 0 }) := w
  exact (State.reg_setReg _ _ _ _ w').trans (if_pos rfl)

/-- A refused token is counted and told of (R434, R477). -/
def State.refuses (s : State) : State :=
  let n := s.refusals + 1
  ((((State.setFld { s with refusals := n } Csr.mbxStat 62 60 (if 16 ≤ n then 3 else 2)).setBit Csr.mbxStat 63 (decide (n < 16))).bump Csr.secStat 35 32 1)).raise 0x61 []

theorem exec_mbxSubmit_refused (w : regsCanonical s) {sigOk : Bool} (hpip : s.pipRuns = true) (hfew : s.refusals < 16) (hbad : s.tokenOk sigOk = false) :
    ∃ t, exec (.mbxSubmit sigOk) s = .next t ∧ Raised t 0x61 0 ∧ t.refusals = s.refusals + 1 ∧ t.mailbox = Vector.replicate 15 0 ∧
      t.reg Csr.secDbgNonce = s.free ∧ t.fld Csr.mbxStat 62 60 = (if s.refusals = 15 then 3 else 2) ∧
      Frame s t [Csr.mbxStat, Csr.secStat, Csr.secDbgNonce] := by
  let v := s.tokenTaken
  let a : State := { v with refusals := v.refusals + 1 }
  let code := if 16 ≤ v.refusals + 1 then 3 else 2
  let b := a.setFld Csr.mbxStat 62 60 code
  have hexec : exec (.mbxSubmit sigOk) s = .next v.refuses := by
    show execMbxSubmit sigOk s = _
    unfold execMbxSubmit
    dsimp only
    rw [if_neg (by simp [hpip]; omega), hbad]
    rfl
  have hv := tokenTaken_wrote s
  have wv := hv.canonical w
  have ha : Wrote [(Csr.mbxStat, 62, 60)] v a := Wrote.refl.aside rfl rfl rfl rfl
  have hb : Wrote [(Csr.mbxStat, 62, 60)] v b := ha.setFld _ (by decide) (by simp)
  have hlast : Wrote [(Csr.mbxStat, 63, 63), (Csr.secStat, 35, 32)] b v.refuses :=
    ((Wrote.refl.setBit _ (by decide) (by simp)).bump _ (by decide) (by simp)).raise _ _
  have hafter := hb.append hlast
  have hcode : code < 2 ^ (62 + 1 - 60) := by simp only [code]; split <;> decide
  have hcode' : code = if s.refusals = 15 then 3 else 2 := by
    have hrefusals : v.refusals = s.refusals := rfl
    simp only [code, hrefusals]
    exact if_congr (by omega) rfl rfl
  refine ⟨_, hexec, raised_raise _ _ _, State.raise_refusals .., State.raise_mailbox .., ?_, ?_, (hv.append hafter).frame w (by simp)⟩
  · exact (hafter.reg wv (by decide)).trans (tokenTaken_nonce w)
  · exact (hlast.reads wv (by decide) hcode (by decide)).trans hcode'

/-- The state in which the unlocked port shows its scope (R435). -/
def State.showsScope (s : State) (scope : Nat) : State :=
  (s.setBit Csr.secStat 60 true).setFld Csr.secStat 59 56 (s.fld Csr.secStat 59 56 ||| scope)

theorem showsScope_open (w : regsCanonical s) (scope : Nat) : ((s.showsScope scope).reg Csr.secStat).bit 60 = true := by
  have hset : Wrote [(Csr.secStat, 59, 56)] (s.setBit Csr.secStat 60 true) (s.showsScope scope) := Wrote.refl.setFld _ (by decide) (by simp)
  rw [hset.bit (State.setFld_wf _ _ _ _ _ w) (by decide), State.bit_setBit _ _ _ _ _ w (by decide)]
  rfl

/-- Every job is halted, every retention ends, and no descriptor is fetched any more (R435). -/
def State.endsWork (s : State) : State :=
  let s := s.haltAll 9
  let s := s.retained.foldl (fun (t : State) r => t.endRetention r) s
  s.admissions.foldl (fun (t : State) a => t.dropAdmission a.digest) s

theorem endsWork_leaves (s : State) : Abides s s.endsWork ∧ s.endsWork.jobs = [] ∧ s.endsWork.admissions = [] ∧ s.endsWork.retained = [] := by
  obtain ⟨hhalt, hjobs⟩ := haltAll_abides s 9
  have hdrop (b : State) (as : List Admission) : Abides b (as.foldl (fun (t : State) a => t.dropAdmission a.digest) b) ∧
      (as.foldl (fun (t : State) a => t.dropAdmission a.digest) b).retained = b.retained :=
    ⟨Abides.refl.foldl fun u x _ => (dropAdmission_abides u x.digest).1, List.foldlRecOn (motive := fun t : State => t.retained = b.retained) _ _ rfl
      fun u hu x _ => (dropAdmission_abides u x.digest).2.2.trans hu⟩
  have hends (a : State) : Abides a (a.retained.foldl (fun (t : State) r => t.endRetention r) a) := Abides.refl.foldl fun u r _ => endRetention_abides u r
  have hnone := endRetentions_empties (s.haltAll 9)
  unfold State.endsWork
  dsimp only
  have hretain := hends (s.haltAll 9)
  generalize (s.haltAll 9).retained.foldl (fun (t : State) r => t.endRetention r) (s.haltAll 9) = b at hnone hretain
  obtain ⟨hab, hkept⟩ := hdrop b b.admissions
  refine ⟨(hhalt.trans hretain).trans hab, ?_, ?_, hkept.trans hnone⟩
  · refine List.eq_nil_iff_forall_not_mem.mpr fun j hj => ?_
    have := hretain.jobs j (hab.jobs j hj)
    rw [hjobs] at this
    exact absurd this List.not_mem_nil
  · exact foldl_empties (part := State.admissions) (names := fun a x => x.digest = a.digest) (fun u a => (dropAdmission_abides u a.digest).1.admissions)
      (fun u a x hx => (dropAdmission_abides u a.digest).2.1 x hx) (fun _ => rfl) b

/-- Every path goes DOWN. -/
def State.pathsDown (s : State) : State := (List.range 128).foldl (fun (t : State) i => t.takeDown i) s

theorem pathsDown_abides (s : State) : Abides s s.pathsDown := Abides.refl.foldl fun u _ hi => takeDown_abides u (List.mem_range.mp hi)

theorem pathsDown_aside (s : State) : s.pathsDown.mem = s.mem ∧ s.pathsDown.retained = s.retained := by
  refine List.foldlRecOn (motive := fun t : State => t.mem = s.mem ∧ t.retained = s.retained) _ _ ⟨rfl, rfl⟩ fun u ⟨hm, hr⟩ i _ => ?_
  obtain ⟨l, hl⟩ := takeDown_tells u i
  exact ⟨(hl.part State.mem).trans hm, (hl.part State.retained).trans hr⟩

theorem unlock_eq (s : State) (scope : Nat) : s.unlock scope =
    (State.loseKeys (((s.showsScope scope).raise 0x60 [BitVec.ofNat 64 scope]).endsWork)).pathsDown := rfl

/-- What an unlock leaves (R435). -/
theorem unlock_leaves (w : regsCanonical s) (scope : Nat) :
    let t := s.unlock scope
    Raised t 0x60 0 ∧ (t.reg Csr.secStat).bit 60 = true ∧ t.jobs = [] ∧ t.sessions = Vector.replicate 64 none ∧ t.admissions = [] ∧ t.retained = [] ∧
      t.mailbox = s.mailbox ∧ t.resetAfterJobs = s.resetAfterJobs ∧ ∀ c ∈ t.mem, c.1 < hbmBase := by
  intro t
  let a := (s.showsScope scope).raise 0x60 [BitVec.ofNat 64 scope]
  have hshow : Tells s (s.showsScope scope) := (Tells.refl.setBit _ _ _).setFld _ _ _ _
  have ha : Tells (s.showsScope scope) a := Tells.refl.raise _ _
  have hseats : a.seats = s.seats := (ha.part State.seats).trans (hshow.part State.seats)
  have hopen : (a.reg Csr.secStat).bit 60 = true := by
    rw [Wrote.bit (l := []) (Wrote.refl.raise _ _) (hshow.canonical w) (by decide)]
    exact showsScope_open w scope
  have hraised : Raised a 0x60 0 := raised_raise _ _ _
  have wa := ha.canonical (hshow.canonical w)
  obtain ⟨hwork, hjobs, hadm, hret⟩ := endsWork_leaves a
  have ht : t = a.endsWork.loseKeys.pathsDown := unlock_eq s scope
  rw [ht]
  clear_value a
  generalize a.endsWork = b at hwork hjobs hadm hret
  have hlose : Sent b b.loseKeys ∧ RegsKept (fun o => o = Csr.secStat) b b.loseKeys := ⟨Sent.refl _, RegsKept.of_regs_eq rfl⟩
  have hdown := pathsDown_abides b.loseKeys
  obtain ⟨hmem, hretained⟩ := pathsDown_aside b.loseKeys
  have hempty {α : Type} {p q : List α} (hq : q = []) (h : ∀ y ∈ p, y ∈ q) : p = [] :=
    List.eq_nil_iff_forall_not_mem.mpr fun y hy => by
      have := h y hy
      rw [hq] at this
      exact absurd this List.not_mem_nil
  have hsec := ((hwork.sec.trans hlose.2).trans hdown.sec) wa
  have hall := hwork.seats.trans hseats
  have hlast := hdown.seats
  simp only [State.seats, Prod.mk.injEq] at hall hlast
  obtain ⟨-, hmailbox, hwait⟩ := hall
  obtain ⟨hsessions, hmailbox', hwait'⟩ := hlast
  refine ⟨Raised.sent hraised ((hwork.sent.trans hlose.1).trans hdown.sent), ?_, hempty hjobs hdown.jobs, hsessions, hempty hadm hdown.admissions,
    hretained.trans hret, hmailbox'.trans hmailbox, hwait'.trans hwait, fun c hc => ?_⟩
  · rw [hsec.2 _ rfl]
    exact hopen
  · rw [hmem] at hc
    simpa using (List.mem_filter.mp hc).2

theorem exec_mbxSubmit_accepted (w : regsCanonical s) (hpip : s.pipRuns = true) (hfew : s.refusals < 16) (hgood : s.tokenOk true = true)
    (hwait : s.resetAfterJobs = false) :
    ∃ t, exec (.mbxSubmit true) s = .next t ∧ Raised t 0x60 0 ∧ (t.reg Csr.secStat).bit 60 = true ∧ t.jobs = [] ∧ (∀ i : Fin 64, t.sessions[i] = none) ∧
      t.admissions = [] ∧ t.retained = [] ∧ t.mailbox = Vector.replicate 15 0 ∧ ∀ c ∈ t.mem, c.1 < hbmBase := by
  let v := s.tokenTaken.setFld Csr.mbxStat 62 60 1
  let scope := bodyNat s.token 2 2
  have wv : regsCanonical v := State.setFld_wf _ _ _ _ _ ((tokenTaken_wrote s).canonical w)
  obtain ⟨hraised, hopen, hjobs, hsessions, hadm, hret, hmailbox, hafter, hmem⟩ := unlock_leaves wv scope
  have hexec : exec (.mbxSubmit true) s = .next (v.unlock scope).afterJob := by
    show execMbxSubmit true s = _
    unfold execMbxSubmit
    dsimp only
    rw [if_neg (by simp [hpip]; omega), if_pos hgood]
    rfl
  rw [afterJob_waitless (hafter.trans hwait)] at hexec
  exact ⟨_, hexec, hraised, hopen, hjobs, fun i => by rw [hsessions]; simp, hadm, hret, hmailbox, hmem⟩

/-- Settles O60: reports by `report_says`, enrolments by `newOwner_leaves` and `exec_enroll_keys`, tokens by `tokenTaken_wrote` and `unlock_leaves`. -/
theorem keysAndDebug : Obligations.KeysAndDebug := by
  unfold Obligations.KeysAndDebug
  intro s k x id rest w answered plainBody
  have hbody {body : List Byte} {op kind slot : Nat} (h : plainBody body op kind slot) : EnrolsKey body op kind slot := by
    obtain ⟨hlen, hop, hkind, hslot, hclear, hclaim⟩ := h
    exact ⟨hlen, hop, hkind, hslot, hclear, hclaim⟩
  refine ⟨fun i nonce => exec_attest, fun body hdue => exec_enroll_owner w hdue, fun body kind hdue howner hkind => ⟨fun hb => ?_, fun hb => ?_⟩,
    fun body slot hdue howner hlo hhi => ⟨fun hb => ?_, fun hb => ?_, fun hb => ?_⟩,
    fun i mask value hpip => ⟨_, exec_debugPortWrite_data i mask value hpip, rfl⟩,
    fun o mask value hpip hopen hscope ho hl => exec_debugPortWrite_register w mask value hpip hopen hscope ho hl,
    fun sigOk => exec_mbxSubmit_refused w, exec_mbxSubmit_accepted w⟩
  · exact exec_enroll_addRole w hdue howner hkind (hbody hb)
  · exact exec_enroll_removeRole w hdue howner hkind (hbody hb)
  · exact (exec_enroll_checkpoint w hdue howner hlo hhi).1 (hbody hb)
  · exact (exec_enroll_checkpoint w hdue howner hlo hhi).2 (hbody hb)
  · exact exec_enroll_ring w hdue howner (hbody hb)

end Sys2Proof.Machine

end

section
/-! PROOFS. Drills and the acquittal test (R453 to R457, R460, R461). -/

namespace Sys2Proof.Machine

open Sys2Proof.Safety

variable {l : List RegField} {s t u : State}

/-! ### DRILL_FIRE -/

/-- A bit of a register's low field as the model tests it. -/
theorem field_low_bit (w : Word) {k : Nat} (hk : k < 12) : w.field 11 0 / 2 ^ k % 2 = if w.bit k then 1 else 0 := by
  have hbit := Word.testBit_field w 11 0 k
  rw [Nat.testBit_eq_decide_div_mod_eq, Nat.zero_add] at hbit
  have hlt : w.field 11 0 / 2 ^ k % 2 < 2 := Nat.mod_lt _ (by decide)
  unfold Word.bit
  cases hw : w.getLsbD k with
  | false =>
    rw [hw, Bool.and_false] at hbit
    have hne := of_decide_eq_false hbit
    simp only [Bool.false_eq_true, if_false]
    omega
  | true =>
    rw [hw, Bool.and_true, decide_eq_true (by omega : k < 11 + 1 - 0)] at hbit
    simpa using of_decide_eq_true hbit

/-- A drill waits at its unit from now on (R453, R454). -/
def State.awaitsDrill (s : State) (k unit : Nat) : State :=
  { s with
    drills := s.drills ++ [{ kind := k, unit := unit, since := s.now, injected := false }]
    health := { s.health with drilled := (k, unit, s.now) :: s.health.drilled.filter (fun d => !(d.1 == k && d.2.1 == unit)) } }

/-- PERIOD runs anew for the unit that is drilled, and for no other. -/
theorem drillDue_awaits (s : State) (k unit k' unit' : Nat) :
    (s.awaitsDrill k unit).drillDue k' unit' = if k' = k ∧ unit' = unit then false else s.drillDue k' unit' := by
  have hperiod : (s.awaitsDrill k unit).fld Csr.drlCtl 55 32 = s.fld Csr.drlCtl 55 32 := rfl
  unfold State.drillDue
  rw [hperiod]
  show (!((k, unit, s.now) :: s.health.drilled.filter (fun d => !(d.1 == k && d.2.1 == unit))).any
    (fun d => d.1 == k' && d.2.1 == unit' && decide (s.now < d.2.2 + max 60 (s.fld Csr.drlCtl 55 32) * 1000000000))) = _
  generalize hp : max 60 (s.fld Csr.drlCtl 55 32) * 1000000000 = p
  have hpos : 0 < p := by omega
  split
  next h =>
    obtain ⟨rfl, rfl⟩ := h
    simp [hpos]
  next h =>
    have hother : (k == k' && unit == unit') = false := by
      rw [Bool.and_eq_false_iff, beq_eq_false_iff_ne, beq_eq_false_iff_ne]
      by_contra hall
      push Not at hall
      exact h ⟨hall.1.symm, hall.2.symm⟩
    rw [List.any_cons, hother, Bool.false_and, Bool.false_or, List.any_filter]
    refine congrArg not (congrArg (List.any s.health.drilled) (funext fun d => ?_))
    by_cases hd : d.1 = k' ∧ d.2.1 = unit'
    · obtain ⟨h1, h2⟩ := hd
      rw [h1, h2]
      have hkeep : (!(k' == k && unit' == unit)) = true := by
        rw [Bool.not_eq_true', Bool.and_eq_false_iff, beq_eq_false_iff_ne, beq_eq_false_iff_ne]
        by_contra hall
        push Not at hall
        exact h hall
      rw [hkeep, Bool.true_and]
    · have hno : (d.1 == k' && d.2.1 == unit') = false := by
        rw [Bool.and_eq_false_iff, beq_eq_false_iff_ne, beq_eq_false_iff_ne]
        by_contra hall
        push Not at hall
        exact hd hall
      rw [hno, Bool.false_and, Bool.and_false]

/-- Whether a drill falls due depends on what has been drilled and on PERIOD. -/
theorem drillDue_congr (hh : t.health = s.health) (hn : t.now = s.now) (hp : t.fld Csr.drlCtl 55 32 = s.fld Csr.drlCtl 55 32) (k unit : Nat) :
    t.drillDue k unit = s.drillDue k unit := by
  unfold State.drillDue
  rw [hh, hn, hp]

theorem exec_drillFire {kind : Fin 12} {unit : Nat} (hserving : s.serving = true) (hon : (s.reg Csr.drlCtl).bit kind.val = true)
    (hunit : s.drillUnit kind.val unit = true) (hnone : ∀ d ∈ s.drills, ¬ (d.kind = kind.val ∧ d.unit = unit)) (hdue : s.drillDue kind.val unit = true) :
    exec (.drillFire kind unit) s = .next (if kind.val = 10 ∨ kind.val = 11 then (s.awaitsDrill kind.val unit).drillFired kind.val
      else s.awaitsDrill kind.val unit) := by
  have henabled : ¬ s.fld Csr.drlCtl 11 0 / 2 ^ kind.val % 2 = 0 := by
    unfold State.fld
    rw [field_low_bit _ kind.isLt, if_pos hon]
    decide
  have hidle : ¬ s.drills.any (fun d => d.kind == kind.val && d.unit == unit) = true := by
    rw [List.any_eq_true]
    rintro ⟨d, hd, he⟩
    exact hnone d hd (by simpa using he)
  show execDrillFire kind unit s = _
  unfold execDrillFire
  dsimp only
  rw [if_neg (by simp [hserving, henabled, hunit, hdue, hidle])]
  rfl

theorem drillFire_leaves (w : regsCanonical s) {kind : Fin 12} {unit : Nat} (hserving : s.serving = true) (hon : (s.reg Csr.drlCtl).bit kind.val = true)
    (hunit : s.drillUnit kind.val unit = true) (hnone : ∀ d ∈ s.drills, ¬ (d.kind = kind.val ∧ d.unit = unit)) (hdue : s.drillDue kind.val unit = true) :
    ∃ t, exec (.drillFire kind unit) s = .next t ∧ t.drills = s.drills ++ [{ kind := kind.val, unit := unit, since := s.now, injected := false }] ∧
      t.drillDue kind.val unit = false ∧ (∀ k u, k ≠ kind.val ∨ u ≠ unit → t.drillDue k u = s.drillDue k u) ∧
      (kind.val < 10 → t = { s with drills := t.drills, health := t.health }) ∧
      (10 ≤ kind.val → t.fld (Csr.drlCnt kind.val) 31 0 = min (s.fld (Csr.drlCnt kind.val) 31 0 + 1) (2 ^ 32 - 1) ∧ Frame s t [Csr.drlCnt kind.val]) := by
  have hexec := exec_drillFire hserving hon hunit hnone hdue
  let a := s.awaitsDrill kind.val unit
  have hself : a.drillDue kind.val unit = false := (drillDue_awaits ..).trans (if_pos ⟨rfl, rfl⟩)
  have hothers (k u : Nat) (h : k ≠ kind.val ∨ u ≠ unit) : a.drillDue k u = s.drillDue k u :=
    (drillDue_awaits ..).trans (if_neg fun ⟨hk, hu⟩ => h.elim (fun hne => hne hk) fun hne => hne hu)
  have ha : Wrote [(Csr.drlCnt kind.val, 31, 0)] s a := Wrote.refl.aside rfl rfl rfl rfl
  by_cases hnow : kind.val = 10 ∨ kind.val = 11
  · rw [if_pos hnow] at hexec
    have hctl : ∀ k : Fin 12, Apart [(Csr.drlCnt k.val, 31, 0)] Csr.drlCtl 55 32 := by decide
    have hcnt : ∀ k : Fin 12, Csr.drlCnt k.val ∉ evtRegs := by decide
    have hfired : Wrote [(Csr.drlCnt kind.val, 31, 0)] a (a.drillFired kind.val) := Wrote.refl.bump _ (by decide) (by simp)
    have hsame := drillDue_congr (s := a) (t := a.drillFired kind.val) rfl rfl (hfired.fld w (hctl kind))
    refine ⟨_, hexec, rfl, (hsame _ _).trans hself, fun k u h => (hsame _ _).trans (hothers k u h), fun h => absurd h (by omega), fun _ => ⟨?_, ?_⟩⟩
    · exact Wrote.counts (l := []) (s := a) Wrote.refl w (by decide) ⟨hcnt kind, by simp⟩
    · exact (ha.trans hfired).frame w (by simp)
  · rw [if_neg hnow] at hexec
    exact ⟨_, hexec, rfl, hself, hothers, fun _ => rfl, fun h => absurd h (by omega)⟩

/-! ### DRILL_ESCAPE -/

theorem fenceAdder_tells (s : State) (k c : Nat) : Tells s (s.fenceAdder k c) :=
  (Tells.refl.setBit _ _ _).trans (.ite .refl ((Tells.refl.setBit _ _ _).raise _ _))

theorem fenceAdder_wrote (s : State) (st : Fin 8) (ch : Fin 32) :
    Wrote [(Csr.hbmAmo st.val, ch.val, ch.val), (Csr.hbmChanMap st.val, 32 + ch.val, 32 + ch.val)] s (s.fenceAdder st.val ch.val) :=
  (Wrote.refl.setBit true (by omega) (by simp)).trans (.ite .refl ((Wrote.refl.setBit true (by omega) (by simp)).raise _ _))

/-- No register of a stack's block is DRL_STAT. -/
theorem fenceAdder_apart : ∀ (st : Fin 8) (ch : Fin 32) (hi lo : Nat),
    Apart [(Csr.hbmAmo st.val, ch.val, ch.val), (Csr.hbmChanMap st.val, 32 + ch.val, 32 + ch.val)] Csr.drlStat hi lo := by
  intro st ch hi lo
  have hoff : ∀ st : Fin 8, Csr.hbmAmo st.val ≠ Csr.drlStat ∧ Csr.hbmChanMap st.val ≠ Csr.drlStat := by decide
  have hevt : Csr.drlStat ∉ evtRegs := by decide
  obtain ⟨hamo, hmap⟩ := hoff st
  refine ⟨hevt, ?_⟩
  simp only [List.forall_mem_cons, List.not_mem_nil, false_implies, implies_true, and_true]
  exact ⟨.inl hamo, .inl hmap⟩

/-- The core at which a drill of kinds 0 to 4 escaped is fenced (R455). -/
def State.drillFences (s : State) (k : Nat) (n : Fin 32) : State :=
  if k != 5 && k != 6 then s.modCore n (fun c => { c.arraysLeave s.now with run := .fenced }) else s

/-- So is the adder pair that a drill of kind 6 met. -/
def State.drillPair (s : State) (k : Nat) (pair : Option (Fin 8 × Fin 32)) : State :=
  match k == 6, pair with
  | true, some (st, ch) => s.fenceAdder st.val ch.val
  | _, _ => s

/-- What an escaped drill of kinds 0 to 6 does to the core n at which it was, and to the core's job (R455). -/
def State.escapesAt (s : State) (k : Nat) (n : Fin 32) (pair : Option (Fin 8 × Fin 32)) : State :=
  let t := (s.drillFences k n).drillPair k pair
  if (s.cores[n]).job = 0 then t
  else t.askHalt { job := (s.cores[n]).job, cause := 11, detail := 0, loc := 0, ft := t.ft, fenced := (k != 5 && k != 6) || (k == 6 && pair.isSome) }

/-- What an escaped drill does to its unit (R455). -/
def State.escapes (s : State) (k unit : Nat) (pair : Option (Fin 8 × Fin 32)) : State :=
  if 7 ≤ k then { s with health := { s.health with escaped := true } }
  else
    match (List.finRange 32).find? (fun n => n.val == unit) with
    | none => s
    | some n => s.escapesAt k n pair

theorem drillFences_aside (s : State) (k : Nat) (n : Fin 32) : ∃ c, s.drillFences k n = { s with cores := c } := by
  unfold State.drillFences
  split
  · exact ⟨_, rfl⟩
  · exact ⟨s.cores, rfl⟩

theorem drillFences_other (s : State) (k : Nat) {n m : Fin 32} (h : m ≠ n) : (s.drillFences k n).cores[m] = s.cores[m] := by
  have hne : n.val ≠ m.val := fun e => h (Fin.ext e.symm)
  unfold State.drillFences
  split
  · simp [State.modCore, State.setCore, hne]
  · rfl

theorem drillFences_fenced (s : State) {k : Nat} (n : Fin 32) (h : k < 5) : ((s.drillFences k n).cores[n]).run = .fenced := by
  unfold State.drillFences
  rw [if_pos (by simp; omega)]
  simp [State.modCore, State.setCore]

theorem drillFences_none (s : State) {k : Nat} (n : Fin 32) (h : k = 5 ∨ k = 6) : s.drillFences k n = s := by
  unfold State.drillFences
  rw [if_neg (by rcases h with rfl | rfl <;> simp)]

theorem drillPair_tells (s : State) (k : Nat) (pair : Option (Fin 8 × Fin 32)) : Tells s (s.drillPair k pair) ∧
    RegsKept (fun o => o = Csr.drlStat) s (s.drillPair k pair) := by
  unfold State.drillPair
  split
  next st ch _ =>
    refine ⟨fenceAdder_tells s _ _, fun w => ⟨(fenceAdder_wrote s st ch).canonical w, fun o ho => ?_⟩⟩
    rw [ho]
    exact (fenceAdder_wrote s st ch).reg w (fenceAdder_apart st ch 63 0)
  next => exact ⟨Tells.refl, RegsKept.of_regs_eq rfl⟩

/-- Parts of the state that a drill's escape at a core leaves. -/
structure DrillLeft (s t : State) : Prop where
  drills : t.drills = s.drills
  lasting : t.health.lasting = s.health.lasting
  stat : RegsKept (fun o => o = Csr.drlStat) s t

theorem escapesAt_left (s : State) (k : Nat) (n : Fin 32) (pair : Option (Fin 8 × Fin 32)) : DrillLeft s (s.escapesAt k n pair) := by
  obtain ⟨htells, hkept⟩ := drillPair_tells (s.drillFences k n) k pair
  have hfence : DrillLeft s (s.drillFences k n) := by
    obtain ⟨c, hc⟩ := drillFences_aside s k n
    rw [hc]
    exact ⟨rfl, rfl, RegsKept.of_regs_eq rfl⟩
  have hpair : DrillLeft s ((s.drillFences k n).drillPair k pair) :=
    ⟨(htells.part State.drills).trans hfence.drills, (congrArg Health.lasting (htells.part State.health)).trans hfence.lasting, hfence.stat.trans hkept⟩
  unfold State.escapesAt
  dsimp only
  split
  · exact hpair
  · exact ⟨hpair.drills, hpair.lasting, hpair.stat.trans (RegsKept.of_regs_eq rfl)⟩

/-- The cores after an escape at a core, and the halt of its job. -/
theorem escapesAt_cores (s : State) (k : Nat) (n : Fin 32) (pair : Option (Fin 8 × Fin 32)) :
    (s.escapesAt k n pair).cores = (s.drillFences k n).cores ∧
      ((s.cores[n]).job ≠ 0 → ∃ h ∈ (s.escapesAt k n pair).halts, h.job = (s.cores[n]).job ∧ h.cause = 11) := by
  have hcores : ((s.drillFences k n).drillPair k pair).cores = (s.drillFences k n).cores := (drillPair_tells _ k pair).1.part State.cores
  unfold State.escapesAt
  dsimp only
  split
  next h => exact ⟨hcores, fun hne => absurd h hne⟩
  next h => exact ⟨hcores, fun _ => ⟨_, List.mem_append_right _ List.mem_cons_self, rfl, rfl⟩⟩

theorem escapes_left (s : State) (k unit : Nat) (pair : Option (Fin 8 × Fin 32)) : DrillLeft s (s.escapes k unit pair) := by
  unfold State.escapes
  split
  · exact ⟨rfl, rfl, RegsKept.of_regs_eq rfl⟩
  · split
    · exact ⟨rfl, rfl, RegsKept.of_regs_eq rfl⟩
    · exact escapesAt_left s k _ pair

theorem escapes_at (s : State) {k : Nat} (n : Fin 32) (pair : Option (Fin 8 × Fin 32)) (hk : k < 7) : s.escapes k n.val pair = s.escapesAt k n pair := by
  unfold State.escapes
  rw [if_neg (by omega)]
  split
  next h => exact absurd (List.find?_eq_none.mp h n (List.mem_finRange n)) (by simp)
  next m h =>
    have hm : m = n := Fin.ext (by simpa using List.find?_some h)
    rw [hm]

/-- The drill that escaped is counted, dropped and added to the lasting faults (R455). -/
def State.drillGone (s : State) (d : Drill) (k unit : Nat) : State :=
  (((if d.injected || k == 10 || k == 11 then s else s.drillFired k).drillDrop k unit).lastingAdd)

theorem drillGone_leaves (s : State) (d : Drill) (k : Fin 12) (unit : Nat) : Wrote [(Csr.drlCnt k.val, 31, 0)] s (s.drillGone d k.val unit) ∧
    (s.drillGone d k.val unit).drills = s.drills.filter (fun d => !(d.kind == k.val && d.unit == unit)) ∧
    s.now ∈ (s.drillGone d k.val unit).health.lasting ∧ (s.drillGone d k.val unit).halts = s.halts := by
  have hcount : Wrote [(Csr.drlCnt k.val, 31, 0)] s (if d.injected || k.val == 10 || k.val == 11 then s else s.drillFired k.val) :=
    .ite .refl (Wrote.refl.bump _ (by decide) (by simp))
  have hsame : Tells s (if d.injected || k.val == 10 || k.val == 11 then s else s.drillFired k.val) := .ite .refl (Tells.refl.bump _ _ _ _)
  unfold State.drillGone
  generalize (if d.injected || k.val == 10 || k.val == 11 then s else s.drillFired k.val) = a at hcount hsame
  refine ⟨hcount.aside rfl rfl rfl rfl, ?_, ?_, hsame.part State.halts⟩
  · rw [← hsame.part State.drills]
    rfl
  · rw [← hsame.part State.now]
    exact List.mem_cons_self

/-- The state after an escaped drill (R455). -/
def State.drillEscaped (s : State) (d : Drill) (k unit : Nat) (pair : Option (Fin 8 × Fin 32)) : State :=
  (((((s.drillGone d k unit).bump Csr.drlStat 47 32 1).escapes k unit pair).raise 0x19 [BitVec.ofNat 64 k, BitVec.ofNat 64 unit]).journalAdd 5
    [BitVec.ofNat 64 k, BitVec.ofNat 64 unit])

theorem exec_drillEscape {kind : Fin 12} {unit : Nat} {d : Drill} (pair : Option (Fin 8 × Fin 32))
    (hd : s.drills.find? (fun d => d.kind == kind.val && d.unit == unit) = some d) (hover : s.drillOver d = true) :
    exec (.drillEscape kind unit pair) s = .next (s.drillEscaped d kind.val unit pair) := by
  show execDrillEscape kind unit pair s = _
  unfold execDrillEscape
  rw [hd]
  dsimp only
  rw [if_neg (by simp [hover])]
  rfl

theorem drillEscape_leaves (w : regsCanonical s) {kind : Fin 12} {unit : Nat} {d : Drill} (pair : Option (Fin 8 × Fin 32))
    (hd : s.drills.find? (fun d => d.kind == kind.val && d.unit == unit) = some d) (hover : s.drillOver d = true) :
    ∃ t, exec (.drillEscape kind unit pair) s = .next t ∧ Raised t 0x19 0 ∧ s.now ∈ t.health.lasting ∧
      (∀ d ∈ t.drills, ¬ (d.kind = kind.val ∧ d.unit = unit)) ∧ t.fld Csr.drlStat 47 32 = min (s.fld Csr.drlStat 47 32 + 1) (2 ^ 16 - 1) ∧
      (∃ r, t.flash.journal.head? = some r ∧ r.type = 5) ∧
      (7 ≤ kind.val → t.health.escaped = true ∧ t.cores = s.cores ∧ t.halts = s.halts) ∧
      (∀ n : Fin 32, kind.val < 7 → unit = n.val → (kind.val < 5 → (t.cores[n]).run = .fenced) ∧
        (∀ m : Fin 32, m ≠ n → t.cores[m] = s.cores[m]) ∧ (5 ≤ kind.val → t.cores = s.cores) ∧
        ((s.cores[n]).job ≠ 0 → ∃ h ∈ t.halts, h.job = (s.cores[n]).job ∧ h.cause = 11)) := by
  obtain ⟨hgone, hdrills, hlasting, hhalts⟩ := drillGone_leaves s d kind unit
  let b := (s.drillGone d kind.val unit).bump Csr.drlStat 47 32 1
  have wg := hgone.canonical w
  have wb : regsCanonical b := State.setFld_wf _ _ _ _ _ wg
  have hleft := escapes_left b kind.val unit pair
  obtain ⟨wc, hstat⟩ := hleft.stat wb
  have hevent : Tells (b.escapes kind.val unit pair) ((b.escapes kind.val unit pair).raise 0x19 [BitVec.ofNat 64 kind.val, BitVec.ofNat 64 unit]) := Tells.refl.raise _ _
  have hjournal : Wrote [(Csr.jrnStat, 31, 0), (Csr.jrnStat, 47, 32)] ((b.escapes kind.val unit pair).raise 0x19 [BitVec.ofNat 64 kind.val, BitVec.ofNat 64 unit])
      (s.drillEscaped d kind.val unit pair) := Wrote.refl.journalAdd _ _ (by simp) (by simp)
  obtain ⟨f, hrec, -, -⟩ := journalAdd_tells ((b.escapes kind.val unit pair).raise 0x19 [BitVec.ofNat 64 kind.val, BitVec.ofNat 64 unit]) 5
    [BitVec.ofNat 64 kind.val, BitVec.ofNat 64 unit]
  have hpart {α : Type} (p : State → α) (hp : ∀ s c r o k n, p (State.told { s with flash := c } r o k n) = p s := by intros; rfl) :
      p (s.drillEscaped d kind.val unit pair) = p (b.escapes kind.val unit pair) := by
    obtain ⟨r, o, k, n, he⟩ := hrec.shape
    refine (congrArg p he).trans ((hp _ f r o k n).trans (hevent.part p fun s r o k n => ?_))
    exact hp s s.flash r o k n
  refine ⟨_, exec_drillEscape pair hd hover, hjournal.raised (raised_raise _ _ _), ?_, fun e he => ?_, ?_, ⟨_, journalAdd_head _ _ _, rfl⟩, fun hk => ?_, fun n hk hn => ?_⟩
  · rw [hpart State.health, hleft.lasting]
    exact hlasting
  · rw [hpart State.drills, hleft.drills] at he
    have hin : e ∈ s.drills.filter (fun d => !(d.kind == kind.val && d.unit == unit)) := hdrills ▸ he
    rintro ⟨hk, hu⟩
    simpa [hk, hu] using (List.mem_filter.mp hin).2
  · have hcnt : ∀ k : Fin 12, Apart [(Csr.drlCnt k.val, 31, 0)] Csr.drlStat 47 32 := by decide
    have hall : Wrote [(Csr.jrnStat, 31, 0), (Csr.jrnStat, 47, 32)] (b.escapes kind.val unit pair) (s.drillEscaped d kind.val unit pair) :=
      (Wrote.refl.raise _ _).trans hjournal
    rw [hall.fld wc (by decide)]
    unfold State.fld
    rw [hstat _ rfl]
    exact (State.fld_bump _ _ _ _ _ wg (by decide)).trans (congrArg (fun v => min (v + 1) (2 ^ 16 - 1)) (hgone.fld w (hcnt kind)))
  · rw [hpart State.health, hpart State.cores, hpart State.halts]
    unfold State.escapes
    rw [if_pos hk]
    exact ⟨rfl, hgone.cores, hhalts⟩
  · have hcores : b.cores = s.cores := hgone.cores
    subst hn
    rw [hpart State.cores, hpart State.halts, escapes_at b n pair hk]
    obtain ⟨hafter, hhalt⟩ := escapesAt_cores b kind.val n pair
    rw [hafter]
    refine ⟨drillFences_fenced b n, fun m hm => ?_, fun h5 => ?_, fun hjob => ?_⟩
    · rw [drillFences_other b kind.val hm, hcores]
    · rw [drillFences_none b n (by omega), hcores]
    · rw [hcores] at hhalt
      exact hhalt hjob

/-! ### The acquittal test -/

section

variable {k : Fin 64} {x : Session} {id : BitVec 32} {rest : List (BitVec 32 × Nat)}

theorem exec_acquit (w : regsCanonical s) (hdue : Due s k x 0x50 id rest) (hready : s.mstate = mReady) (hjobs : s.jobs = []) (hadm : s.admissions = [])
    (hfree : s.acquittal = none) :
    ∃ t, exec (.acquit k) s = .next t ∧ Answered t k x id rest { status := 0, body := [] } ∧ t.acquittal = some 0 ∧ t.fld Csr.drlStat 63 58 = 16 ∧
      Frame s t [Csr.drlStat] := by
  let a : State := { s.taken k x id rest with acquittal := some 0 }
  have ha : Wrote [(Csr.drlStat, 63, 58)] s a := Wrote.refl.aside rfl rfl rfl rfl
  have hset := ha.setFld 16 (by decide) List.mem_cons_self
  have hexec : exec (.acquit k) s = .next ((a.setFld Csr.drlStat 63 58 16).replied k x id rest (plain stOk)) := by
    refine congrArg Host.Outcome.next (serve_effect hdue ?_ rfl rfl)
    have hready' : (s.taken k x id rest).mstate = mReady := hready
    have hjobs' : (s.taken k x id rest).jobs = [] := hjobs
    have hadm' : (s.taken k x id rest).admissions = [] := hadm
    have hfree' : (s.taken k x id rest).acquittal = none := hfree
    rw [if_neg (fun h => absurd (hready'.symm.trans h) (by decide))]
    exact if_neg (by simp [hready', hjobs', hadm', hfree'])
  exact ⟨_, hexec, answered_replied, rfl, (Wrote.refl (l := [])).replied.reads (ha.canonical w) (by decide) (by decide) (by decide), hset.replied.frame w (by simp)⟩

end

/-- A drill kind of the test has been drilled on every eligible unit (R456). -/
def State.drilledAll (s : State) (d : Nat) : State :=
  ((s.bump (Csr.drlCnt d) 63 32 (s.drillUnits d)).bump (Csr.drlCnt d) 31 0 (s.drillUnits d)).setBit Csr.drlStat d true

/-- The fields of the registers that the last row of the test writes. -/
def testFields (d : Nat) : List RegField := [(Csr.drlCnt d, 63, 32), (Csr.drlCnt d, 31, 0), (Csr.drlStat, d, d)]

theorem drilledAll_wrote (s : State) {d : Nat} (hd : d < 11) : Wrote (testFields d) s (s.drilledAll d) :=
  ((Wrote.refl.bump _ (by decide) (by simp [testFields])).bump _ (by decide) (by simp [testFields])).setBit _ (by omega) (by simp [testFields])

theorem testFields_apart : ∀ d e : Fin 11, d ≠ e → Apart (testFields d.val) Csr.drlStat e.val e.val := by decide

theorem drilledAll_sets (w : regsCanonical s) {d : Nat} (hd : d < 11) : ((s.drilledAll d).reg Csr.drlStat).bit d = true := by
  have hbumps : Wrote (testFields d) s ((s.bump (Csr.drlCnt d) 63 32 (s.drillUnits d)).bump (Csr.drlCnt d) 31 0 (s.drillUnits d)) :=
    (Wrote.refl.bump _ (by decide) (by simp [testFields])).bump _ (by decide) (by simp [testFields])
  exact (State.bit_setBit _ _ _ _ _ (hbumps.canonical w) (by omega)).trans (if_pos rfl)

/-- After the last row every kind but 11 has passed. -/
theorem drilledAll_all (w : regsCanonical s) : let t := (List.range 11).foldl State.drilledAll s
    t.mem = s.mem ∧ t.cores = s.cores ∧ t.acquittal = s.acquittal ∧ ∀ d, d < 11 → (t.reg Csr.drlStat).bit d = true := by
  intro t
  have hkept : t.mem = s.mem ∧ t.cores = s.cores ∧ t.acquittal = s.acquittal :=
    List.foldlRecOn (motive := fun u : State => u.mem = s.mem ∧ u.cores = s.cores ∧ u.acquittal = s.acquittal) _ _ ⟨rfl, rfl, rfl⟩ fun u hu _ _ => hu
  obtain ⟨hmem, hcores, hacq⟩ := hkept
  refine ⟨hmem, hcores, hacq, fun d hd => ?_⟩
  refine (foldl_reaches (f := State.drilledAll) (I := fun u => regsCanonical u) (P := fun u => (u.reg Csr.drlStat).bit d = true) (a := d)
    (fun u e he hu => (drilledAll_wrote u (List.mem_range.mp he)).canonical hu) (fun u e he hu hp => ?_) (fun u hu => drilledAll_sets hu hd)
    (List.mem_range.mpr hd) w).2
  by_cases hed : e = d
  · rw [hed]
    exact drilledAll_sets hu hd
  · have he11 := List.mem_range.mp he
    have hapart := testFields_apart ⟨e, he11⟩ ⟨d, hd⟩ fun h => hed (congrArg Fin.val h)
    exact ((drilledAll_wrote u he11).bit hu hapart).trans hp

/-- The state after row k of the test (R456). -/
def State.testRow (s : State) (k : Nat) : State :=
  let s : State := { s with acquittal := some (k + 1) }
  if k = 0 then { s with cores := s.cores.map (fun c => c.acquitStart s.now) }
  else if k = 4 then (List.range 11).foldl State.drilledAll s
  else s

theorem exec_acquittalStageDone {k : Nat} (hk : s.acquittal = some k) (hready : s.mstate = mReady) (hlt : k < 5) :
    exec .acquittalStageDone s = .next (s.testRow k) := by
  show execAcquittalStageDone s = _
  unfold execAcquittalStageDone
  rw [hk]
  exact if_neg (by simp [hready]; omega)

theorem acquittalStageDone_leaves (w : regsCanonical s) {k : Nat} (hk : s.acquittal = some k) (hready : s.mstate = mReady) (hlt : k < 5) :
    ∃ t, exec .acquittalStageDone s = .next t ∧ t.acquittal = some (k + 1) ∧ SameMemory s t ∧
      (k = 0 → ∀ n : Fin 32, (t.cores[n]).run = (if (s.cores[n]).run = .gated then .idle else (s.cores[n]).run)) ∧
      (k ≠ 0 → t.cores = s.cores) ∧ (k = 4 → ∀ d, d < 11 → (t.reg Csr.drlStat).bit d = true) := by
  have hexec := exec_acquittalStageDone hk hready hlt
  have hmemory {t : State} (h : t.mem = s.mem) : SameMemory s t := fun a => congrArg (fun m => sparseGet memDefault m a) h
  by_cases h0 : k = 0
  · unfold State.testRow at hexec
    dsimp only at hexec
    rw [if_pos h0] at hexec
    refine ⟨_, hexec, rfl, fun _ => rfl, fun _ n => ?_, fun h => absurd h0 h, fun h => absurd h0 (by omega)⟩
    simp only [Fin.getElem_fin, Vector.getElem_map, Core.acquitStart]
    split <;> rfl
  · by_cases h4 : k = 4
    · unfold State.testRow at hexec
      dsimp only at hexec
      rw [if_neg h0, if_pos h4] at hexec
      have w' : regsCanonical { s with acquittal := some (k + 1) } := w
      obtain ⟨hmem, hcores, hacq, hbits⟩ := drilledAll_all w'
      exact ⟨_, hexec, hacq, hmemory hmem, fun h => absurd h h0, fun _ => hcores, fun _ => hbits⟩
    · unfold State.testRow at hexec
      dsimp only at hexec
      rw [if_neg h0, if_neg h4] at hexec
      exact ⟨_, hexec, rfl, fun _ => rfl, fun h => absurd h h0, fun _ => rfl, fun h => absurd h h4⟩

/-! ### The verdict -/

/-- The state of a module that has passed (R457). -/
def State.acquitted (s : State) : State :=
  { s with
    acquittal := none
    health := { s.health with t := 0, added := 0, escaped := false }
    flash := { s.flash with unproven := false, jrnT := 0 }
    cores := s.cores.map (fun c => if c.run = .fenced then { c with run := .gated } else c) }

/-- The verdict is told and written to the journal (R457, R460). -/
def State.tellsVerdict (s : State) (words rec : List Word) : State := (s.raise 0x1B words).journalAdd 6 rec

theorem tellsVerdict_leaves (s : State) (words rec : List Word) : Wrote [(Csr.jrnStat, 31, 0), (Csr.jrnStat, 47, 32)] s (s.tellsVerdict words rec) ∧
    Raised (s.tellsVerdict words rec) 0x1B 0 ∧ (s.tellsVerdict words rec).health = s.health ∧ (s.tellsVerdict words rec).acquittal = s.acquittal ∧
    (s.tellsVerdict words rec).flash.unproven = s.flash.unproven := by
  have hjournal : Wrote [(Csr.jrnStat, 31, 0), (Csr.jrnStat, 47, 32)] (s.raise 0x1B words) (s.tellsVerdict words rec) :=
    Wrote.refl.journalAdd _ _ (by simp) (by simp)
  obtain ⟨j, hj⟩ := journalAdd_flash (s.raise 0x1B words) 6 rec
  exact ⟨(Wrote.refl.raise _ _).trans hjournal, hjournal.raised (raised_raise _ _ _), State.raise_health .., State.raise_acquittal ..,
    (congrArg Flash.unproven hj).trans (congrArg Flash.unproven (State.raise_flash s 0x1B words) :)⟩

theorem acquittalVerdict_passes (w : regsCanonical s) (h5 : s.acquittal = some 5) (hready : s.mstate = mReady) :
    ∃ t, exec (.acquittalVerdict none) s = .next t ∧ t.acquittal = none ∧ Raised t 0x1B 0 ∧
      t.health.t = 0 ∧ t.health.escaped = false ∧ t.flash.unproven = false ∧ (t.reg Csr.hltScore).bit 63 = false ∧ t.fld Csr.drlStat 63 58 = 32 ∧
      (∀ n : Fin 32, (t.cores[n]).run = (if (s.cores[n]).run = .fenced then .gated else (s.cores[n]).run)) ∧ SameMemory s t ∧
      SameRegisters s t [Csr.hltScore, Csr.hltComp, Csr.drlStat, Csr.jrnStat] := by
  let a := s.acquitted.setBit Csr.hltScore 63 false
  let b := a.setFld Csr.hltComp 39 30 0
  let c := b.setFld Csr.drlStat 63 58 32
  have wa : regsCanonical a := State.setFld_wf _ _ _ _ _ w
  have wb : regsCanonical b := State.setFld_wf _ _ _ _ _ wa
  have hexec : exec (.acquittalVerdict none) s = .next (c.tellsVerdict [2] [2, 0]) := by
    show execAcquittalVerdict none s = _
    unfold execAcquittalVerdict
    rw [h5]
    exact if_neg (by simp [hready])
  obtain ⟨htold, hraised, hhealth, hacq, hflash⟩ := tellsVerdict_leaves c [2] [2, 0]
  have hscore : Wrote [(Csr.hltScore, 63, 63)] s.acquitted a := Wrote.refl.setBit _ (by decide) (by simp)
  have hlater : Wrote [(Csr.hltComp, 39, 30), (Csr.drlStat, 63, 58)] a c := (Wrote.refl.setFld _ (by decide) (by simp)).setFld _ (by decide) (by simp)
  have hafter := hlater.append htold
  have hall := hscore.append hafter
  refine ⟨_, hexec, hacq, hraised, congrArg Health.t hhealth, congrArg Health.escaped hhealth, hflash, ?_, htold.reads wb (by decide) (by decide) (by decide),
    fun n => ?_, hall.sameMemory, hall.sameRegisters w (by simp)⟩
  · rw [hafter.bit wa (by decide)]
    exact (State.bit_setBit _ _ _ _ _ w (by decide)).trans (if_pos rfl)
  · rw [hall.cores]
    simp only [State.acquitted, Fin.getElem_fin, Vector.getElem_map]
    split <;> rfl

/-- A failed unit, handled as a lasting fault in it, leaves memory, the test and the count of lasting faults. -/
theorem acquitFail_leaves (s : State) (f : FailedUnit) : (s.acquitFail f).mem = s.mem ∧ (s.acquitFail f).acquittal = s.acquittal ∧
    (s.acquitFail f).now = s.now ∧ (regsCanonical s → regsCanonical (s.acquitFail f)) := by
  have hmark (k c : Nat) : Tells s (s.markChannel k c) := .ite .refl ((Tells.refl.setBit _ _ _).raise _ _)
  have htells {t : State} (h : Tells s t) : t.mem = s.mem ∧ t.acquittal = s.acquittal ∧ t.now = s.now ∧ (regsCanonical s → regsCanonical t) :=
    ⟨h.part State.mem, h.part State.acquittal, h.part State.now, h.canonical⟩
  unfold State.acquitFail
  split
  · exact ⟨rfl, rfl, rfl, fun w => w⟩
  · exact htells (hmark _ _)
  · exact htells (fenceAdder_tells s _ _)
  · exact ⟨rfl, rfl, rfl, fun w => w⟩

theorem acquitFail_core (s : State) (n : Fin 32) (h : (s.cores[n]).run ≠ .absent) : ((s.acquitFail (.core n)).cores[n]).run = .fenced := by
  have h' : (s.cores[n.val]).run ≠ .absent := h
  simp [State.acquitFail, State.modCore, State.setCore, h']

theorem acquitFail_channel (w : regsCanonical s) (st : Fin 8) (ch : Fin 32) :
    ((s.acquitFail (.channel st ch)).reg (Csr.hbmChanMap st.val)).bit (32 + ch.val) = true := by
  have hevt : ∀ st : Fin 8, Csr.hbmChanMap st.val ∉ evtRegs := by decide
  show ((s.markChannel st.val ch.val).reg _).bit _ = true
  unfold State.markChannel
  split
  next h => exact h
  next =>
    have hset : regsCanonical (s.setBit (Csr.hbmChanMap st.val) (32 + ch.val) true) := State.setFld_wf _ _ _ _ _ w
    rw [Wrote.bit (l := []) (Wrote.refl.raise _ _) hset ⟨hevt st, by simp⟩, State.bit_setBit _ _ _ _ _ w (by omega), if_pos rfl]

theorem acquittalVerdict_fails (w : regsCanonical s) {k : Nat} (f : FailedUnit) (hk : s.acquittal = some k) (hready : s.mstate = mReady) (h5 : k ≤ 5) :
    ∃ t, exec (.acquittalVerdict (some f)) s = .next t ∧ t.acquittal = none ∧ Raised t 0x1B 0 ∧
      s.now ∈ t.health.lasting ∧ t.fld Csr.drlStat 63 58 = 49 + k ∧ SameMemory s t ∧
      (∀ n, f = .core n → (s.cores[n]).run ≠ .absent → (t.cores[n]).run = .fenced) ∧
      (∀ st ch, f = .channel st ch → (t.reg (Csr.hbmChanMap st.val)).bit (32 + ch.val) = true) := by
  let a : State := { s with acquittal := none }
  let b := (a.acquitFail f).lastingAdd
  let c := b.setFld Csr.drlStat 63 58 (48 + (k + 1))
  have hexec : exec (.acquittalVerdict (some f)) s = .next (c.tellsVerdict [3, BitVec.ofNat 64 (k + 1)] [3, BitVec.ofNat 64 (k + 1)]) := by
    show execAcquittalVerdict (some f) s = _
    unfold execAcquittalVerdict
    rw [hk]
    exact if_neg (by simp [hready])
  obtain ⟨hmem, hacq, hnow, hcan⟩ := acquitFail_leaves a f
  have wb : regsCanonical b := hcan w
  obtain ⟨htold, hraised, hhealth, hacq', -⟩ := tellsVerdict_leaves c [3, BitVec.ofNat 64 (k + 1)] [3, BitVec.ofNat 64 (k + 1)]
  have hafter : Wrote [(Csr.drlStat, 63, 58), (Csr.jrnStat, 31, 0), (Csr.jrnStat, 47, 32)] b
      (c.tellsVerdict [3, BitVec.ofNat 64 (k + 1)] [3, BitVec.ofNat 64 (k + 1)]) := by
    have hset : Wrote [(Csr.drlStat, 63, 58)] b c := Wrote.refl.setFld _ (by decide) (by simp)
    exact hset.append htold
  refine ⟨_, hexec, hacq'.trans hacq, hraised, ?_, (htold.reads wb (by decide) (by omega) (by decide)).trans (by omega), ?_, fun n hn hp => ?_, fun st ch hc => ?_⟩
  · rw [hhealth]
    exact hnow ▸ List.mem_cons_self
  · exact fun q => congrArg (fun m => sparseGet memDefault m q) (hafter.mem.trans hmem)
  · rw [hafter.cores]
    subst hn
    exact acquitFail_core a n hp
  · have hapart : ∀ st : Fin 8, Apart [(Csr.drlStat, 63, 58), (Csr.jrnStat, 31, 0), (Csr.jrnStat, 47, 32)] (Csr.hbmChanMap st.val) 63 0 := by decide
    rw [hafter.reg wb (hapart st)]
    subst hc
    exact acquitFail_channel (s := a) w st ch

/-- Settles O53: drills by `drillFire_leaves` and `drillEscape_leaves`, the test's rows by `acquittalStageDone_leaves`, its verdict by what each does. -/
theorem drillsAndAcquittal : Obligations.DrillsAndAcquittal := by
  unfold Obligations.DrillsAndAcquittal
  intro s w
  exact ⟨fun kind unit => drillFire_leaves w, fun kind unit d pair => drillEscape_leaves w pair, fun k x id rest => exec_acquit w,
    fun k => acquittalStageDone_leaves w, acquittalVerdict_passes w, fun k f => acquittalVerdict_fails w f⟩

end Sys2Proof.Machine

end

section
/-! SUPPORT. Connections and pieces: what placing pieces and failing over keep, and a host port that leaves UP (R343 to R345, R373). -/

namespace Sys2Proof.Machine

open Sys2Proof.Safety

variable {l : List RegField} {s t u : State}

/-! ### Connections and transfers through placements -/

/-- Server, port and state of a connection: what placing pieces leaves. -/
def Conn.link (c : Conn) : BitVec 256 × Nat × Bool := (c.server, c.port, c.up)

/-- The connections of t are those of s, in another order and with other pieces. -/
structure SameLinks (s t : State) : Prop where
  kept : ∀ c ∈ s.conns, ∃ d ∈ t.conns, d.link = c.link
  only : ∀ d ∈ t.conns, ∃ c ∈ s.conns, d.link = c.link

theorem SameLinks.of_eq (h : t.conns = s.conns) : SameLinks s t := ⟨fun c hc => ⟨c, h ▸ hc, rfl⟩, fun d hd => ⟨d, h ▸ hd, rfl⟩⟩

theorem SameLinks.trans (h : SameLinks s t) (k : SameLinks t u) : SameLinks s u where
  kept c hc := by
    obtain ⟨d, hd, hlink⟩ := h.kept c hc
    obtain ⟨e, he, hlink'⟩ := k.kept d hd
    exact ⟨e, he, hlink'.trans hlink⟩
  only e he := by
    obtain ⟨d, hd, hlink⟩ := k.only e he
    obtain ⟨c, hc, hlink'⟩ := h.only d hd
    exact ⟨c, hc, hlink.trans hlink'⟩

/-- How the transfer of a number has ended. -/
def State.outcomeOf (s : State) (id : Nat) : Option (Option Bool) := (s.xfers.find? (fun x => x.id == id)).map Xfer.outcome

/-- The transfer of a number among transfers that have changed under their numbers. -/
theorem find_xfer_map (xs : List Xfer) (id : Nat) {f : Xfer → Xfer} (hid : ∀ x, (f x).id = x.id) :
    (xs.map f).find? (fun x => x.id == id) = (xs.find? (fun x => x.id == id)).map f := by
  rw [List.find?_map]
  exact congrArg (fun p => (xs.find? p).map f) (funext fun x => by simp only [Function.comp, hid])

theorem outcomeOf_map (xs : List Xfer) (id : Nat) {f : Xfer → Xfer} (hid : ∀ x, (f x).id = x.id) (hout : ∀ x, (f x).outcome = x.outcome) :
    ((xs.map f).find? (fun x => x.id == id)).map Xfer.outcome = (xs.find? (fun x => x.id == id)).map Xfer.outcome := by
  rw [find_xfer_map xs id hid, Option.map_map]
  exact congrArg (fun g => (xs.find? (fun x => x.id == id)).map g) (funext hout)

theorem placeOn_links (s : State) (c : Conn) (x : Xfer) (p : Nat) : SameLinks s (s.placeOn c x p) where
  kept d hd := by
    by_cases hhere : (d.server == c.server && d.port == c.port) = true
    · exact ⟨_, List.mem_append_right _ (List.mem_map_of_mem (List.mem_filter.mpr ⟨hd, hhere⟩)), rfl⟩
    · exact ⟨d, List.mem_append_left _ (List.mem_filter.mpr ⟨hd, by simp only [Bool.not_eq_true] at hhere; simp [hhere]⟩), rfl⟩
  only d hd := by
    rcases List.mem_append.mp hd with hother | hhere
    · exact ⟨d, (List.mem_filter.mp hother).1, rfl⟩
    · obtain ⟨k, hk, rfl⟩ := List.mem_map.mp hhere
      exact ⟨k, (List.mem_filter.mp hk).1, rfl⟩

theorem placeOn_outcomeOf (s : State) (c : Conn) (x : Xfer) (p id : Nat) : (s.placeOn c x p).outcomeOf id = s.outcomeOf id :=
  outcomeOf_map s.xfers id (fun y => by split <;> rfl) (fun y => by split <;> rfl)

theorem placePieces_keeps (fuel : Nat) (s : State) :
    SameLinks s (s.placePieces fuel) ∧ ∀ id, (s.placePieces fuel).outcomeOf id = s.outcomeOf id := by
  induction fuel generalizing s with
  | zero => exact ⟨.of_eq rfl, fun _ => rfl⟩
  | succ n ih =>
    unfold State.placePieces
    split
    · exact ⟨.of_eq rfl, fun _ => rfl⟩
    · next x p c _ =>
      obtain ⟨hlinks, hends⟩ := ih (s.placeOn c x p)
      exact ⟨(placeOn_links s c x p).trans hlinks, fun id => (hends id).trans (placeOn_outcomeOf s c x p id)⟩

theorem place_links (s : State) : SameLinks s s.place := (placePieces_keeps _ s).1

theorem place_outcomeOf (s : State) (id : Nat) : s.place.outcomeOf id = s.outcomeOf id := (placePieces_keeps _ s).2 id

/-- After a placement the transfer of a number is there, with the outcome it had. -/
theorem place_find {id : Nat} {x : Xfer} (h : s.xfers.find? (fun x => x.id == id) = some x) :
    ∃ y, s.place.xfers.find? (fun x => x.id == id) = some y ∧ y.outcome = x.outcome := by
  have hends := place_outcomeOf s id
  unfold State.outcomeOf at hends
  rw [h] at hends
  exact Option.map_eq_some_iff.mp hends

theorem syncConns_conns (s : State) : s.syncConns.conns = s.conns :=
  List.foldlRecOn (motive := fun t : State => t.conns = s.conns) _ _ rfl fun _ h _ _ => h

/-- Opening connections leaves those there are. -/
theorem openConns_conns (s : State) (server : BitVec 256) : ∀ c ∈ s.conns, c ∈ (s.openConns server).conns := by
  intro c hc
  unfold State.openConns
  rw [syncConns_conns]
  exact List.mem_append_left _ (List.foldlRecOn (motive := fun t : State => c ∈ t.conns) _ _ hc fun _ h _ _ => h)

/-! ### Failing over (R345) -/

theorem reissue_moves (s : State) (lost : Conn → Bool) : Moves rconnFields s (s.reissue lost) := by
  unfold State.reissue
  refine Moves.trans (Moves.trans ?_ (syncConns_moves _)) ((place_moves _).mono (by simp))
  exact Moves.of_eq (Wrote.refl.aside rfl rfl rfl rfl) rfl

/-- A connection that has been lost is not up. -/
theorem reissue_down (s : State) (lost : Conn → Bool) {d : Conn} (hd : d ∈ (s.reissue lost).conns) (hup : d.up = true) :
    ∃ c ∈ s.conns, d.link = c.link ∧ lost c = false := by
  unfold State.reissue at hd
  obtain ⟨e, he, hlink⟩ := (place_links _).only d hd
  rw [syncConns_conns] at he
  obtain ⟨c, hc, rfl⟩ := List.mem_map.mp he
  by_cases hlost : lost c = true
  · rw [if_pos hlost] at hlink
    exact absurd (hup.symm.trans (congrArg (fun k => k.2.2) hlink)) Bool.noConfusion
  · rw [if_neg hlost] at hlink
    exact ⟨c, hc, hlink, by simpa using hlost⟩

/-! ### A host port leaves UP (R345, R373) -/

@[simp] theorem port_modPort_same (s : State) (f : HostPort → HostPort) (j : Fin 8) : (s.modPort j.val f).port j.val = f (s.port j.val) := by
  simp [State.port, State.modPort]

@[simp] theorem port_modPort_other (s : State) (f : HostPort → HostPort) {j k : Fin 8} (h : k ≠ j) : (s.modPort j.val f).port k.val = s.port k.val := by
  have hne : j.val ≠ k.val := fun e => h (Fin.ext e.symm)
  simp [State.port, State.modPort, hne]

/-- The registers and the state of a host port that leaves UP, the loss of a link counted. -/
def State.portLost (s : State) (j st hst : Nat) : State :=
  let s := s.modPort j (fun p => { p with up := false })
  let s := (s.setFld (Csr.ethPortStat j) 63 60 st).setFld (Csr.hoptStat j) 63 60 hst
  if st = 2 then s.bump (Csr.ethPortCnt j) 63 48 1 else s

/-- A port has left UP and its connections have failed over. -/
def State.portOver (s : State) (j st hst : Nat) : State :=
  ((s.portLost j st hst).raise 0x92 [BitVec.ofNat 64 j]).reissue (fun c => c.port == j)

/-- A network has lost its last port. -/
def State.networkLost (s : State) (net : Bool) : State :=
  { s.raise 0x94 [if net then 1 else 0] with netLost := s.netLost ||| (if net then 2 else 1) }

theorem portDown_of_up {j : Nat} (st hst : Nat) (hup : (s.port j).up = true) :
    s.portDown j st hst =
      if ((s.portOver j st hst).upPorts (portNet j)).isEmpty then (s.portOver j st hst).networkLost (portNet j) else s.portOver j st hst := by
  unfold State.portDown
  exact if_neg (by simp [hup])

theorem networkLost_wrote (s : State) (net : Bool) : Wrote l s (s.networkLost net) := by
  refine Wrote.trans (t := s.raise 0x94 [if net then 1 else 0]) (Wrote.refl.raise _ _) ?_
  exact Wrote.refl.aside rfl rfl rfl rfl

/-- What follows on the loss of a link writes the counts of connections, and events. -/
theorem portDown_after {j : Nat} (st hst : Nat) (hup : (s.port j).up = true) : Wrote rconnFields (s.portLost j st hst) (s.portDown j st hst) := by
  have hover : Wrote rconnFields (s.portLost j st hst) (s.portOver j st hst) := (Wrote.refl.raise _ _).trans (reissue_moves _ _).wrote
  rw [portDown_of_up st hst hup]
  exact Wrote.ite (hover.trans (networkLost_wrote _ _)) hover

/-- The fields of a port's registers that the loss of its link writes. -/
def portFields (j : Nat) : List RegField := [(Csr.ethPortStat j, 63, 60), (Csr.hoptStat j, 63, 60), (Csr.ethPortCnt j, 63, 48)]

theorem portLost_wrote (s : State) (j st hst : Nat) : Wrote (portFields j) s (s.portLost j st hst) := by
  have hset : Wrote (portFields j) s
      (((s.modPort j (fun p => { p with up := false })).setFld (Csr.ethPortStat j) 63 60 st).setFld (Csr.hoptStat j) 63 60 hst) :=
    ((Wrote.refl.ports _).setFld st (by decide) (by simp [portFields])).setFld hst (by decide) (by simp [portFields])
  exact Wrote.ite (hset.bump 1 (by decide) (by simp [portFields])) hset

theorem portDown_wrote {j : Nat} (st hst : Nat) (hup : (s.port j).up = true) : Wrote (portFields j ++ rconnFields) s (s.portDown j st hst) :=
  (portLost_wrote s j st hst).append (portDown_after st hst hup)

theorem rconnFields_apart {o hi lo : Nat} (he : o ∉ evtRegs) (h : 47 < lo) : Apart rconnFields o hi lo := by
  refine ⟨he, fun f hf => ?_⟩
  obtain ⟨k, -, rfl⟩ := List.mem_map.mp hf
  exact .inr (.inr h)

theorem portRegs_plain : ∀ j : Fin 8, Csr.ethPortStat j.val ∉ evtRegs ∧ Csr.hoptStat j.val ∉ evtRegs ∧ Csr.ethPortCnt j.val ∉ evtRegs := by decide

theorem hoptStat_ne_ethPortStat (i j : Nat) : i < 8 → Csr.hoptStat i ≠ Csr.ethPortStat j := fun h => by
  simp only [Csr.hoptStat, Csr.ethPortStat]
  omega

/-- A port that leaves UP shows the states that it goes to; a lost link is counted. -/
theorem portDown_shows (j : Fin 8) {st hst : Nat} (w : regsCanonical s) (hup : (s.port j.val).up = true) (hlt : st < 16) (hlt' : hst < 16) :
    (s.portDown j.val st hst).fld (Csr.ethPortStat j.val) 63 60 = st ∧ (s.portDown j.val st hst).fld (Csr.hoptStat j.val) 63 60 = hst ∧
      (st = 2 → (s.portDown j.val st hst).fld (Csr.ethPortCnt j.val) 63 48 = min (s.fld (Csr.ethPortCnt j.val) 63 48 + 1) (2 ^ 16 - 1)) := by
  obtain ⟨hstat, hopt, hcnt⟩ := portRegs_plain j
  let m := s.modPort j.val (fun p => { p with up := false })
  let a := m.setFld (Csr.ethPortStat j.val) 63 60 st
  let b := a.setFld (Csr.hoptStat j.val) 63 60 hst
  have hm : Wrote [] s m := Wrote.refl.ports _
  have hb : Wrote [(Csr.ethPortStat j.val, 63, 60), (Csr.hoptStat j.val, 63, 60)] s b :=
    ((Wrote.refl.ports _).setFld st (by decide) (by simp)).setFld hst (by decide) (by simp)
  have hlost : Wrote [(Csr.ethPortCnt j.val, 63, 48)] b (s.portLost j.val st hst) := Wrote.ite (Wrote.refl.bump 1 (by decide) (by simp)) Wrote.refl
  have hafter := hlost.append (portDown_after st hst hup)
  refine ⟨Wrote.reads (s := m) (l := (Csr.hoptStat j.val, 63, 60) :: ((Csr.ethPortCnt j.val, 63, 48) :: rconnFields)) ?_ (hm.canonical w) (by decide) hlt ?_,
    hafter.reads (State.setFld_wf m _ _ _ _ (hm.canonical w)) (by decide) hlt' ?_, fun h2 => ?_⟩
  · exact Wrote.append (l := [_]) (Wrote.refl.setFld hst (by decide) (by simp)) hafter
  · refine apart_cons.mpr ⟨.inl ?_, apart_cons.mpr ⟨.inl ?_, rconnFields_apart hstat (by decide)⟩⟩
    · exact hoptStat_ne_ethPortStat _ _ j.isLt
    · simp only [Csr.ethPortCnt, Csr.ethPortStat]
      omega
  · refine apart_cons.mpr ⟨.inl ?_, rconnFields_apart hopt (by decide)⟩
    simp only [Csr.ethPortCnt, Csr.hoptStat]
    omega
  · have hbump : s.portLost j.val st hst = b.bump (Csr.ethPortCnt j.val) 63 48 1 := if_pos h2
    have hcount := portDown_after st hst hup
    rw [hbump] at hcount
    rw [hcount.counts (hb.canonical w) (by decide) (rconnFields_apart hcnt (by decide)), hb.fld w ?_]
    refine apart_cons.mpr ⟨.inl ?_, apart_cons.mpr ⟨.inl ?_, apart_nil.mpr (not_mem_evtRegs.mp hcnt)⟩⟩
    · simp only [Csr.ethPortCnt, Csr.ethPortStat]
      omega
    · simp only [Csr.ethPortCnt, Csr.hoptStat]
      omega

theorem portLost_ports (s : State) (j st hst : Nat) : (s.portLost j st hst).ports = (s.modPort j (fun p => { p with up := false })).ports := by
  unfold State.portLost
  dsimp only
  split <;> rfl

theorem portOver_ports (s : State) (j st hst : Nat) : (s.portOver j st hst).ports = (s.portLost j st hst).ports :=
  ((reissue_moves _ _).part (·.ports)).trans ((Tells.refl.raise _ _).part (·.ports))

theorem networkLost_ports (s : State) (net : Bool) : (s.networkLost net).ports = s.ports := (Tells.refl.raise _ _).part (·.ports)

theorem portDown_ports {j : Nat} (st hst : Nat) (hup : (s.port j).up = true) :
    (s.portDown j st hst).ports = (s.modPort j (fun p => { p with up := false })).ports := by
  rw [portDown_of_up st hst hup, ← portLost_ports s j st hst, ← portOver_ports]
  split
  · exact networkLost_ports _ _
  · rfl

theorem port_congr (h : t.ports = s.ports) (j : Nat) : t.port j = s.port j := by
  unfold State.port
  rw [h]

/-- The loss of a port is reported. -/
theorem portDown_raises {j : Nat} (st hst : Nat) (hup : (s.port j).up = true) : Raised (s.portDown j st hst) 0x92 0 := by
  have hover : Raised (s.portOver j st hst) 0x92 0 := (reissue_moves _ _).wrote.raised (raised_raise _ _ _)
  rw [portDown_of_up st hst hup]
  split
  · exact Wrote.raised (l := []) (networkLost_wrote _ _) hover
  · exact hover

/-- A network without a port that is UP. -/
theorem upPorts_isEmpty {net : Bool} (h : ∀ k : Fin 8, portNet k.val = net → (s.port k.val).up = false) : (s.upPorts net).isEmpty = true := by
  rw [State.upPorts, List.isEmpty_iff, List.filter_eq_nil_iff]
  intro k hk
  have hlt := List.mem_range.mp hk
  by_cases hnet : portNet k = net
  · simp [h ⟨k, hlt⟩ hnet]
  · simp [hnet]

theorem networkLost_raised (s : State) (net : Bool) : Raised (s.networkLost net) 0x94 0 := raised_raise s 0x94 _

/-- The loss of a network is reported. -/
theorem portDown_raises_network {j : Fin 8} (st hst : Nat) (hup : (s.port j.val).up = true)
    (halone : ∀ k : Fin 8, k ≠ j → portNet k.val = portNet j.val → (s.port k.val).up = false) : Raised (s.portDown j.val st hst) 0x94 0 := by
  have hports := (portOver_ports s j.val st hst).trans (portLost_ports s j.val st hst)
  have hdown := portDown_of_up st hst hup
  generalize s.portOver j.val st hst = u at hports hdown
  have hempty : (u.upPorts (portNet j.val)).isEmpty = true := upPorts_isEmpty fun k hnet => by
    rw [port_congr hports]
    by_cases hk : k = j
    · rw [hk, port_modPort_same]
    · rw [port_modPort_other s _ hk]
      exact halone k hk hnet
  rw [hdown, if_pos hempty]
  exact networkLost_raised u _

end Sys2Proof.Machine

end

section
/-! PROOFS. Host ports, connections and pieces (R342 to R345, R373). -/

namespace Sys2Proof.Machine

open Sys2Proof.Safety

variable {s t u : State} {j : Fin 8}

/-! ### Links and addresses -/

theorem hostLinkLoss_port (w : regsCanonical s) (hup : (s.port j.val).up = true) :
    ∃ t, exec (.hostLinkLoss j none) s = .next t ∧ (t.port j.val).up = false ∧
      (∀ k : Fin 8, k ≠ j → t.port k.val = s.port k.val) ∧ t.fld (Csr.ethPortStat j.val) 63 60 = 2 ∧
      t.fld (Csr.ethPortCnt j.val) 63 48 = min (s.fld (Csr.ethPortCnt j.val) 63 48 + 1) (2 ^ 16 - 1) ∧ Raised t 0x92 0 ∧
      ((∀ k : Fin 8, k ≠ j → portNet k.val = portNet j.val → (s.port k.val).up = false) → Raised t 0x94 0) ∧ SameMemory s t ∧ t.cores = s.cores := by
  have hexec : exec (.hostLinkLoss j none) s = .next (s.portDown j.val 2 2) := congrArg Host.Outcome.next (if_pos hup)
  have hports := portDown_ports 2 2 hup
  obtain ⟨hstat, -, hcnt⟩ := portDown_shows j w hup (by decide : 2 < 16) (by decide : 2 < 16)
  have hwrote := portDown_wrote 2 2 hup
  refine ⟨_, hexec, ?_, fun k hk => ?_, hstat, hcnt rfl, portDown_raises 2 2 hup, portDown_raises_network 2 2 hup, hwrote.sameMemory, hwrote.cores⟩
  · rw [port_congr hports, port_modPort_same]
  · rw [port_congr hports, port_modPort_other s _ hk]

theorem hostLinkLoss_conn (server : BitVec 256) :
    ∃ t, exec (.hostLinkLoss j (some server)) s = .next t ∧ (∀ c ∈ t.conns, c.port = j.val → c.server = server → c.up = false) ∧
      t.ports = s.ports ∧ SameMemory s t ∧ t.cores = s.cores := by
  have hmoves := reissue_moves s (fun c => c.port == j.val && c.server == server && c.up)
  refine ⟨_, rfl, fun d hd hport hserver => ?_, hmoves.part (·.ports), hmoves.wrote.sameMemory, hmoves.wrote.cores⟩
  by_contra hup
  obtain ⟨c, -, hlink, hlost⟩ := reissue_down s _ hd (by simpa using hup)
  simp only [Conn.link, Prod.mk.injEq] at hlink
  obtain ⟨hs, hp, hu⟩ := hlink
  rw [← hs, ← hp, ← hu, hport, hserver] at hlost
  simp at hlost
  exact hup hlost

/-- Whether the address of a port is fixed, its address and its gateway: those that flash keeps, or a lease. -/
def State.portAddress (s : State) (j : Nat) (lease gateway : BitVec 128) : Bool × BitVec 128 × BitVec 128 :=
  match s.flash.ports.find? (fun a => a.port == j && s.flash.cfgOk) with
  | some a => if a.fixed then (true, a.addr, a.gateway) else (false, lease, gateway)
  | none => (false, lease, gateway)

/-- A port is UP with an address. -/
def State.portOn (s : State) (j : Nat) (a : Bool × BitVec 128 × BitVec 128) : State :=
  let vid := (s.flash.vlans.find? (fun v => v.1 == j && s.flash.cfgOk)).map (fun v => v.2.toNat)
  let s := s.modPort j (fun p => { p with up := true, fixed := a.1, addr := a.2.1, gateway := a.2.2, vlan := vid.getD 0 })
  let v4 := if a.2.1.toNat / 2 ^ 32 = 0xFFFF then a.2.1.toNat % 2 ^ 32 else 0
  ((s.setFld (Csr.ethPortStat j) 63 60 1).setFld (Csr.ethPortStat j) 31 0 v4).setFld (Csr.hoptStat j) 63 60 1

theorem exec_hostPortUp (lease gateway : BitVec 128) (hmain : s.mainOn = true) (hstage : 5 ≤ s.boot.stage) (hpresent : s.hostPresent j.val = true)
    (hdown : (s.port j.val).up = false) (hdark : s.fld (Csr.hoptStat j.val) 63 60 ≠ 4) :
    exec (.hostPortUp j lease gateway) s = .next ((s.portOn j.val (s.portAddress j.val lease gateway)).raise 0x93 [BitVec.ofNat 64 j.val]) := by
  show execHostPortUp j lease gateway s = _
  unfold execHostPortUp
  exact if_neg (by simp [hmain, hpresent, hdown, hdark]; omega)

theorem hostPortUp_leaves (w : regsCanonical s) (lease gateway : BitVec 128) (hmain : s.mainOn = true) (hstage : 5 ≤ s.boot.stage)
    (hpresent : s.hostPresent j.val = true) (hdown : (s.port j.val).up = false) (hdark : s.fld (Csr.hoptStat j.val) 63 60 ≠ 4) :
    ∃ t, exec (.hostPortUp j lease gateway) s = .next t ∧ (t.port j.val).up = true ∧ t.fld (Csr.ethPortStat j.val) 63 60 = 1 ∧ Raised t 0x93 0 ∧
      (∀ k : Fin 8, k ≠ j → t.port k.val = s.port k.val) ∧ ((s.flash.ports.find? (fun a => a.port == j.val && s.flash.cfgOk)) = none →
        (t.port j.val).addr = lease ∧ (t.port j.val).gateway = gateway) ∧
      (∀ a, (s.flash.ports.find? (fun a => a.port == j.val && s.flash.cfgOk)) = some a → a.fixed = true →
        (t.port j.val).addr = a.addr ∧ (t.port j.val).gateway = a.gateway) ∧ Frame s t [Csr.ethPortStat j.val, Csr.hoptStat j.val] := by
  have hexec := exec_hostPortUp lease gateway hmain hstage hpresent hdown hdark
  obtain ⟨hstat, -, -⟩ := portRegs_plain j
  generalize haddr : s.portAddress j.val lease gateway = a at hexec
  let vid := (s.flash.vlans.find? (fun v => v.1 == j.val && s.flash.cfgOk)).map (fun v => v.2.toNat)
  let up (p : HostPort) : HostPort := { p with up := true, fixed := a.1, addr := a.2.1, gateway := a.2.2, vlan := vid.getD 0 }
  let m := s.modPort j.val up
  let v4 := if a.2.1.toNat / 2 ^ 32 = 0xFFFF then a.2.1.toNat % 2 ^ 32 else 0
  let t := (s.portOn j.val a).raise 0x93 [BitVec.ofNat 64 j.val]
  have hm : Wrote [] s m := Wrote.refl.ports _
  have hrest : Wrote [(Csr.ethPortStat j.val, 31, 0), (Csr.hoptStat j.val, 63, 60)] (m.setFld (Csr.ethPortStat j.val) 63 60 1) t :=
    ((Wrote.refl.setFld v4 (by decide) (by simp)).setFld 1 (by decide) (by simp)).raise _ _
  have hall : Wrote [(Csr.ethPortStat j.val, 63, 60), (Csr.ethPortStat j.val, 31, 0), (Csr.hoptStat j.val, 63, 60)] s t :=
    (hm.append (Wrote.refl.setFld 1 (by decide) (List.mem_singleton.mpr rfl))).append hrest
  have hports : t.ports = m.ports := (Tells.refl (s := s.portOn j.val a).raise _ _).part (·.ports)
  have hsame : t.port j.val = up (s.port j.val) := (port_congr hports _).trans (port_modPort_same s up j)
  refine ⟨t, hexec, by rw [hsame], hrest.reads (hm.canonical w) (by decide) (by decide) ?_, raised_raise _ _ _, fun k hk => ?_, fun hnone => ?_,
    fun b hsome hfixed => ?_, hall.frame w ?_⟩
  · refine apart_cons.mpr ⟨.inr (.inr (by decide)), apart_cons.mpr ⟨.inl ?_, apart_nil.mpr (not_mem_evtRegs.mp hstat)⟩⟩
    exact hoptStat_ne_ethPortStat _ _ j.isLt
  · exact (port_congr hports _).trans (port_modPort_other s up hk)
  · have ha : a = (false, lease, gateway) := by rw [← haddr, State.portAddress, hnone]
    rw [hsame]
    simp [up, ha]
  · have ha : a = (true, b.addr, b.gateway) := by rw [← haddr, State.portAddress, hsome]; exact if_pos hfixed
    rw [hsame]
    simp [up, ha]
  · simp

/-! ### Connections open again -/

/-- Connections whose port is UP again are asked for. -/
def State.asksAgain (s : State) : State :=
  (s.conns.filter (fun c => !c.up && (s.port c.port).up)).foldl (fun (t : State) c => t.emit (.connect c.port c.server t.pathMtu)) s

/-- Connections are up on ports that are UP. -/
def State.linksUp (s : State) : State :=
  { s with conns := s.conns.map (fun (c : Conn) => if (s.port c.port).up then { c with up := true } else c) }

/-- Connections open to the servers of transfers under way. -/
def State.opensMissing (s : State) : State :=
  ((s.xfers.filter (fun x => x.outcome.isNone)).foldl (fun (t : State) x => t.openConns x.server) s).syncConns

/-- A network is back. -/
def State.networkBack (s : State) (net : Bool) (bit : Nat) : State :=
  if s.netLost.getLsbD bit && !(s.upPorts net).isEmpty then
    { (s.raise 0x95 [BitVec.ofNat 64 bit]) with netLost := s.netLost &&& ~~~ (1#2 <<< bit) }
  else s

theorem exec_hostReconnect (s : State) :
    exec .hostReconnect s = .next ((s.asksAgain.linksUp.opensMissing.networkBack false 0).networkBack true 1).place := rfl

theorem asksAgain_moves (s : State) : Moves [] s s.asksAgain := Moves.refl.foldl fun _ _ _ => Moves.refl.emit _

theorem asksAgain_conns (s : State) : s.asksAgain.conns = s.conns :=
  List.foldlRecOn (motive := fun t : State => t.conns = s.conns) _ _ rfl fun _ h _ _ => h

theorem opensMissing_moves (s : State) : Moves rconnFields s s.opensMissing :=
  (Moves.refl.foldl fun _ _ _ => openConns_moves _ _).trans (syncConns_moves _)

theorem opensMissing_conns (s : State) : ∀ c ∈ s.conns, c ∈ s.opensMissing.conns := fun c hc => by
  unfold State.opensMissing
  rw [syncConns_conns]
  exact List.foldlRecOn (motive := fun t : State => c ∈ t.conns) _ _ hc fun u h _ _ => openConns_conns u _ c h

theorem networkBack_keeps (s : State) (net : Bool) (bit : Nat) :
    Wrote [] s (s.networkBack net bit) ∧ (s.networkBack net bit).conns = s.conns ∧ (s.networkBack net bit).ports = s.ports := by
  have htells : Tells s (s.raise 0x95 [BitVec.ofNat 64 bit]) := Tells.refl.raise _ _
  have hwrote : Wrote [] s (s.raise 0x95 [BitVec.ofNat 64 bit]) := Wrote.refl.raise _ _
  unfold State.networkBack
  split
  · exact ⟨hwrote.aside rfl rfl rfl rfl, htells.part (·.conns), htells.part (·.ports)⟩
  · exact ⟨.refl, rfl, rfl⟩

theorem networkBack_raised {net : Bool} {bit : Nat} (hlost : s.netLost.getLsbD bit = true) (hup : s.upPorts net ≠ []) :
    Raised (s.networkBack net bit) 0x95 0 := by
  unfold State.networkBack
  rw [if_pos (by simpa [hlost] using hup)]
  exact raised_raise s 0x95 _

theorem upPorts_congr (h : t.ports = s.ports) (net : Bool) : t.upPorts net = s.upPorts net := by
  unfold State.upPorts
  exact List.filter_congr fun k _ => by rw [port_congr h]

theorem hostReconnect_leaves (s : State) :
    ∃ t, exec .hostReconnect s = .next t ∧ SameMemory s t ∧ t.cores = s.cores ∧ t.ports = s.ports ∧
      (∀ c ∈ s.conns, (s.port c.port).up = true → ∃ d ∈ t.conns, d.server = c.server ∧ d.port = c.port ∧ d.up = true) ∧
      (s.netLost.getLsbD 0 = true → (s.upPorts false) ≠ [] → Raised t 0x95 0) := by
  have hexec := exec_hostReconnect s
  have hasks := asksAgain_moves s
  have hconns := asksAgain_conns s
  have hup : Moves [] s.asksAgain s.asksAgain.linksUp := Moves.refl.conns _
  have hlinks : s.asksAgain.linksUp.conns =
      s.conns.map (fun (c : Conn) => if (s.port c.port).up then { c with up := true } else c) := by
    rw [State.linksUp, hconns]
    exact List.map_congr_left fun c _ => by rw [port_congr (hasks.part (·.ports))]
  generalize s.asksAgain.linksUp = a at hexec hup hlinks
  have hopen := opensMissing_moves a
  have hkept := opensMissing_conns a
  have hopened : Moves rconnFields s a.opensMissing := ((hasks.trans hup).mono (by simp)).trans hopen
  generalize a.opensMissing = b at hexec hopen hkept hopened
  obtain ⟨hwrote0, hconns0, hports0⟩ := networkBack_keeps b false 0
  have hraised := networkBack_raised (s := b) (net := false) (bit := 0)
  generalize b.networkBack false 0 = c at hexec hwrote0 hconns0 hports0 hraised
  obtain ⟨hwrote1, hconns1, hports1⟩ := networkBack_keeps c true 1
  generalize c.networkBack true 1 = d at hexec hwrote1 hconns1 hports1
  have hplace := place_moves d
  have hall := ((hwrote0.trans hwrote1).trans hplace.wrote)
  refine ⟨_, hexec, ?_, ?_, ?_, fun e he hport => ?_, fun hlost hsome => ?_⟩
  · exact (hopened.wrote.append hall).sameMemory
  · exact (hopened.wrote.append hall).cores
  · exact (hplace.part (·.ports)).trans (hports1.trans (hports0.trans (hopened.part (·.ports))))
  · have hmem : { e with up := true } ∈ a.conns := by
      rw [hlinks]
      exact List.mem_map.mpr ⟨e, he, if_pos hport⟩
    obtain ⟨f, hf, hlink⟩ := (place_links d).kept _ (hconns1 ▸ hconns0 ▸ hkept _ hmem)
    simp only [Conn.link, Prod.mk.injEq] at hlink
    exact ⟨f, hf, hlink⟩
  · refine (hwrote1.trans hplace.wrote).raised (hraised ?_ ?_)
    · rw [hopened.part (·.netLost)]
      exact hlost
    · rw [upPorts_congr (hopened.part (·.ports))]
      exact hsome

/-! ### The rate of a connection -/

theorem cnp_leaves (w : regsCanonical s) {server : BitVec 256} {c : Conn} (hup : (s.port j.val).up = true) (hecn : (s.reg Csr.ethCtl).bit 0 = true)
    (hc : c ∈ s.conns) (hserver : c.server = server) (hport : c.port = j.val) :
    ∃ t, exec (.cnp j server) s = .next t ∧
      (if c.halved = 0 ∧ c.rate = 100 ∨ c.cutAt + 50000 ≤ s.now then { c with halved := c.halved + 1, cutAt := s.now, riseAt := s.now }
        else { c with riseAt := s.now }) ∈ t.conns ∧
      t.fld (Csr.ethPortCnt j.val) 47 32 = min (s.fld (Csr.ethPortCnt j.val) 47 32 + 1) (2 ^ 16 - 1) ∧
      (∀ d ∈ s.conns, ¬ (d.server = server ∧ d.port = j.val) → d ∈ t.conns) ∧ Frame s t [Csr.ethPortCnt j.val] := by
  obtain ⟨-, -, hplain⟩ := portRegs_plain j
  let b := s.bump (Csr.ethPortCnt j.val) 47 32 1
  let f (c : Conn) : Conn := if c.server = server ∧ c.port = j.val then c.cnp s.now else c
  have hbump : Wrote [(Csr.ethPortCnt j.val, 47, 32)] s b := Wrote.refl.bump 1 (by decide) (List.mem_singleton.mpr rfl)
  have hbit : (b.reg Csr.ethCtl).bit 0 = true := by
    rw [hbump.bit w, hecn]
    refine apart_cons.mpr ⟨.inl ?_, apart_nil.mpr (by decide)⟩
    simp only [Csr.ethPortCnt, Csr.ethCtl]
    omega
  have hexec : exec (.cnp j server) s = .next { b with conns := s.conns.map f } := by
    show execCnp j server s = _
    unfold execCnp
    rw [if_neg (by simp [hup])]
    exact if_neg (by simp [b, hbit])
  have hconns : Wrote [] b { b with conns := s.conns.map f } := Wrote.refl.conns _
  refine ⟨_, hexec, List.mem_map.mpr ⟨c, hc, if_pos ⟨hserver, hport⟩⟩, hconns.counts w (by decide) (apart_nil.mpr (not_mem_evtRegs.mp hplain)),
    fun d hd hother => List.mem_map.mpr ⟨d, hd, if_neg hother⟩, ?_⟩
  exact Wrote.frame (hbump.trans (hconns.mono (by simp))) w (by simp)

theorem cnpRateRecovery_leaves {server : BitVec 256} {c : Conn} (hc : c ∈ s.conns) (hserver : c.server = server) (hport : c.port = j.val)
    (hdue : c.riseAt + 100000 ≤ s.now) :
    ∃ t, exec (.cnpRateRecovery j server) s = .next t ∧
      (if 100 * 2 ^ c.halved ≤ c.rate + 5 * 2 ^ c.halved then { c with rate := 100, halved := 0, riseAt := s.now }
        else { c with rate := c.rate + 5 * 2 ^ c.halved, riseAt := s.now }) ∈ t.conns ∧
      (∀ d ∈ s.conns, ¬ (d.server = server ∧ d.port = j.val) → d ∈ t.conns) ∧ t = { s with conns := t.conns } :=
  ⟨_, rfl, List.mem_map.mpr ⟨c, hc, if_pos ⟨hserver, hport, hdue⟩⟩,
    fun d hd hother => List.mem_map.mpr ⟨d, hd, if_neg fun ⟨hs, hp, _⟩ => hother ⟨hs, hp⟩⟩, rfl⟩

/-! ### LLDP and echo -/

theorem lldpReceive_leaves (nb : List Byte) (hup : (s.port j.val).up = true) :
    ∃ t, exec (.lldpReceive j nb) s = .next t ∧ t.port j.val = { s.port j.val with neighbour := some nb } ∧
      (∀ k : Fin 8, k ≠ j → t.port k.val = s.port k.val) ∧ t = { s with ports := t.ports } :=
  ⟨_, congrArg Host.Outcome.next (if_pos hup), port_modPort_same s _ j, fun _ hk => port_modPort_other s _ hk, rfl⟩

theorem icmpEchoRequest_leaves (v6 : Bool) (hup : (s.port j.val).up = true)
    (hfew : (s.port j.val).echoSecond ≠ s.now / 1000000000 ∨ (s.port j.val).echoes < 1000) :
    ∃ t, exec (.icmpEchoRequest j v6) s = .next t ∧ t = { s with out := .echo j.val v6 :: s.out, ports := t.ports } ∧
      (∀ k : Fin 8, k ≠ j → t.port k.val = s.port k.val) := by
  have hsent : (if (s.port j.val).echoSecond = s.now / 1000000000 then (s.port j.val).echoes else 0) < 1000 := by
    split <;> omega
  let count (p : HostPort) : HostPort :=
    { p with echoes := (if (s.port j.val).echoSecond = s.now / 1000000000 then (s.port j.val).echoes else 0) + 1, echoSecond := s.now / 1000000000 }
  refine ⟨(s.modPort j.val count).emit (.echo j.val v6), ?_, rfl, fun k hk => port_modPort_other s count hk⟩
  show execIcmpEchoRequest j v6 s = _
  unfold execIcmpEchoRequest
  dsimp only
  rw [if_neg (by simp [hup])]
  exact if_pos hsent

/-! ### Pieces -/

/-- A transfer after one of its pieces has come. -/
def Xfer.pieceDone (id p : Nat) (flying : List Nat) (y : Xfer) : Xfer :=
  if y.id = id then { y with flying := flying.filter (fun q => q != p),
                             outcome := if (flying.filter (fun q => q != p)).isEmpty && y.waiting.isEmpty then some true else none } else y

/-- A transfer that has found no connection. -/
def Xfer.noConnection (id : Nat) (y : Xfer) : Xfer := if y.id = id then { y with waiting := [], flying := [], outcome := some false } else y

theorem find_id {xs : List Xfer} {id : Nat} {x : Xfer} (h : xs.find? (fun x => x.id == id) = some x) : x.id = id := by
  simpa using List.find?_some h

theorem rdmaPieceComplete_leaves (w : regsCanonical s) {id p : Nat} {x : Xfer} (hx : s.xfers.find? (fun x => x.id == id) = some x)
    (hrun : x.outcome = none) (hp : p ∈ x.flying) :
    ∃ t y, exec (.rdmaPieceComplete id p) s = .next t ∧ t.xfers.find? (fun x => x.id == id) = some y ∧
      y.outcome = (if x.flying.filter (fun q => q != p) = [] ∧ x.waiting = [] then some true else none) ∧ Frame s t [] := by
  let m : State := { s with
    conns := s.conns.map (fun (c : Conn) => { c with pieces := c.pieces.filter (fun q => q != (id, p)) })
    xfers := s.xfers.map (Xfer.pieceDone id p x.flying) }
  have hexec : exec (.rdmaPieceComplete id p) s = .next m.place := by
    show execRdmaPieceComplete id p s = _
    unfold execRdmaPieceComplete
    rw [hx]
    exact if_neg (by simp [hp, hrun])
  have hfind : m.xfers.find? (fun x => x.id == id) = some (x.pieceDone id p x.flying) :=
    (find_xfer_map s.xfers id fun y => by unfold Xfer.pieceDone; split <;> rfl).trans (congrArg (Option.map _) hx)
  obtain ⟨y, hy, hout⟩ := place_find hfind
  have hwrote : Wrote [] s m := Wrote.refl.aside rfl rfl rfl rfl
  refine ⟨m.place, y, hexec, hy, ?_, (hwrote.trans (place_moves m).wrote).frame w (by simp)⟩
  rw [hout, Xfer.pieceDone, if_pos (find_id hx)]
  simp

theorem pieceNoConnection_leaves (w : regsCanonical s) {id p since : Nat} {x : Xfer} (hx : s.xfers.find? (fun x => x.id == id) = some x)
    (hrun : x.outcome = none) (hp : (p, since) ∈ x.waiting) (hdue : since + 30000000000 ≤ s.now)
    (hnone : s.conns.any (fun c => c.server == x.server && c.up) = false) :
    ∃ t y, exec (.pieceNoConnection id) s = .next t ∧ t.xfers.find? (fun x => x.id == id) = some y ∧ y.outcome = some false ∧ Frame s t [] := by
  let m : State := { s with
    conns := s.conns.map (fun (c : Conn) => { c with pieces := c.pieces.filter (fun q => q.1 != id) })
    xfers := s.xfers.map (Xfer.noConnection id) }
  have hwait : x.waiting.any (fun w => decide (w.2 + 30000000000 ≤ s.now)) = true := List.any_eq_true.mpr ⟨_, hp, by simpa using hdue⟩
  have hexec : exec (.pieceNoConnection id) s = .next m.place := by
    show execPieceNoConnection id s = _
    unfold execPieceNoConnection
    rw [hx]
    exact if_neg (by rw [hwait, hnone, hrun]; simp)
  have hfind : m.xfers.find? (fun x => x.id == id) = some (x.noConnection id) :=
    (find_xfer_map s.xfers id fun y => by unfold Xfer.noConnection; split <;> rfl).trans (congrArg (Option.map _) hx)
  obtain ⟨y, hy, hout⟩ := place_find hfind
  have hwrote : Wrote [] s m := Wrote.refl.aside rfl rfl rfl rfl
  refine ⟨m.place, y, hexec, hy, ?_, (hwrote.trans (place_moves m).wrote).frame w (by simp)⟩
  rw [hout, Xfer.noConnection, if_pos (find_id hx)]

/-- Settles O45: each operation through what it leaves; a port that leaves UP through the failing over of its connections, a piece through the placement
of those that wait. -/
theorem hostNetwork : Obligations.HostNetwork := by
  unfold Obligations.HostNetwork
  intro s j server w
  refine ⟨fun hup => hostLinkLoss_port w hup, hostLinkLoss_conn server,
    fun lease gateway hmain hstage hpresent hdown hdark => hostPortUp_leaves w lease gateway hmain hstage hpresent hdown hdark, hostReconnect_leaves s,
    fun c hup hecn hc hserver hport => cnp_leaves w hup hecn hc hserver hport,
    fun c hc hserver hport hdue => cnpRateRecovery_leaves hc hserver hport hdue,
    fun hup => ⟨_, congrArg Host.Outcome.next (if_pos hup), rfl⟩, fun nb hup => lldpReceive_leaves nb hup,
    fun v6 hup hfew => icmpEchoRequest_leaves v6 hup hfew, fun id p x hx hrun hp => rdmaPieceComplete_leaves w hx hrun hp,
    fun id p since x hx hrun hp hdue hnone => pieceNoConnection_leaves w hx hrun hp hdue hnone⟩

end Sys2Proof.Machine

end

section
/-! SUPPORT. Bytes and numbers read back from memory, and what the operations of a job's services leave (R9, R222, R363). -/

namespace Sys2Proof.Machine

open Sys2Proof.Safety

variable {s t u : State}

/-! ### Memory read back -/

theorem writeBytes_canonical {a : Nat} {bs : List Byte} (w : memCanonical s) : memCanonical (s.writeBytes a bs) := memWrite_wf w

theorem readByte_writeBytes {a : Nat} {bs : List Byte} (w : memCanonical s) (x : Nat) :
    (s.writeBytes a bs).readByte x = if a ≤ x ∧ x < a + bs.length then (bs[x - a]?).getD 0 else s.readByte x := sparseGet_memWrite w

theorem readByte_writeBytes_apart {a x : Nat} {bs : List Byte} (w : memCanonical s) (h : x < a ∨ a + bs.length ≤ x) :
    (s.writeBytes a bs).readByte x = s.readByte x := by
  rw [readByte_writeBytes w, if_neg (by omega)]

theorem readBytes_congr {a n : Nat} (h : ∀ i, i < n → t.readByte (a + i) = s.readByte (a + i)) : t.readBytes a n = s.readBytes a n :=
  List.map_congr_left fun i hi => h i (List.mem_range.mp hi)

/-- Bytes apart from those written read as before. -/
theorem readBytes_writeBytes_apart {a b n : Nat} {bs : List Byte} (w : memCanonical s) (h : b + n ≤ a ∨ a + bs.length ≤ b) :
    (s.writeBytes a bs).readBytes b n = s.readBytes b n :=
  readBytes_congr fun i hi => readByte_writeBytes_apart w (by omega)

/-- Part of the bytes written. -/
theorem readBytes_writeBytes {a : Nat} {bs : List Byte} (w : memCanonical s) (k n : Nat) (h : k + n ≤ bs.length) :
    (s.writeBytes a bs).readBytes (a + k) n = (bs.drop k).take n := by
  refine List.ext_getElem (by simp [State.readBytes]; omega) fun i hi _ => ?_
  have hlt : i < n := by simpa [State.readBytes] using hi
  simp only [State.readBytes, List.getElem_map, List.getElem_range, List.getElem_take, List.getElem_drop]
  rw [readByte_writeBytes w, if_pos (by omega), show a + k + i - a = k + i from by omega, List.getElem?_eq_getElem (by omega), Option.getD_some]

/-- A number among the bytes written. -/
theorem readNat_writeBytes {a n v : Nat} {pre post : List Byte} (w : memCanonical s) :
    (s.writeBytes a (pre ++ (bytesOfNat n v ++ post))).readNat (a + pre.length) n = v % 256 ^ n := by
  have hn := bytesOfNat_length n v
  unfold State.readNat
  rw [readBytes_writeBytes w pre.length n (by simp [hn]), List.drop_left, List.take_left' hn, natOfBytes_bytesOfNat]

theorem readNat_writeNat {a n v : Nat} (w : memCanonical s) (hlt : v < 256 ^ n) : (s.writeNat a n v).readNat a n = v := by
  have h := readNat_writeBytes (s := s) (a := a) (n := n) (v := v) (pre := []) (post := []) w
  rwa [Nat.mod_eq_of_lt hlt, List.nil_append, List.append_nil, List.length_nil, Nat.add_zero] at h

theorem readNat_writeBytes_apart {a b n : Nat} {bs : List Byte} (w : memCanonical s) (h : b + n ≤ a ∨ a + bs.length ≤ b) :
    (s.writeBytes a bs).readNat b n = s.readNat b n := congrArg natOfBytes (readBytes_writeBytes_apart w h)

theorem readNat_writeNat_apart {a b m n v : Nat} (w : memCanonical s) (h : b + n ≤ a ∨ a + m ≤ b) : (s.writeNat a m v).readNat b n = s.readNat b n :=
  readNat_writeBytes_apart w (by rw [bytesOfNat_length]; exact h)

theorem readByte_mem (h : t.mem = s.mem) (a : Nat) : t.readByte a = s.readByte a := congrArg (fun m => sparseGet memDefault m a) h

theorem readBytes_mem (h : t.mem = s.mem) (a n : Nat) : t.readBytes a n = s.readBytes a n := readBytes_congr fun _ _ => readByte_mem h _

theorem readNat_mem (h : t.mem = s.mem) (a n : Nat) : t.readNat a n = s.readNat a n := congrArg natOfBytes (readBytes_mem h a n)

theorem canonical_mem (h : t.mem = s.mem) (w : memCanonical s) : memCanonical t := by
  unfold memCanonical
  rw [h]
  exact w

/-! ### Services of a job (R363) -/

section

variable {job : Word} {k : Nat} {j : Job} {v : Service}

theorem service?_iff : s.service? job k = some (j, v) ↔ s.job? job = some j ∧ j.services[k]? = some v := by
  unfold State.service?
  split
  · next h => simp [h]
  · next i h =>
    rw [h, Option.map_eq_some_iff]
    constructor
    · rintro ⟨x, hx, he⟩
      obtain ⟨rfl, rfl⟩ := Prod.mk.inj he
      exact ⟨rfl, hx⟩
    · rintro ⟨hi, hx⟩
      obtain rfl := Option.some.inj hi
      exact ⟨v, hx, rfl⟩

theorem service_id (h : s.service? job k = some (j, v)) : j.id = job := by
  simpa using List.find?_some (service?_iff.mp h).1

theorem service?_congr (h : t.jobs = s.jobs) (job : Word) (k : Nat) : t.service? job k = s.service? job k := by
  unfold State.service? State.job?
  rw [h]

/-- A service replaced changes its job alone. -/
theorem setService_eq (s : State) (job : Word) (k : Nat) (v : Service) : s.setService job k v = { s with jobs := (s.setService job k v).jobs } := by
  unfold State.setService
  split <;> rfl

theorem setService_part {α : Type} (s : State) (job : Word) (k : Nat) (v : Service) (p : State → α)
    (hp : ∀ (u : State) (js : List Job), p { u with jobs := js } = p u := by intros; rfl) : p (s.setService job k v) = p s := by
  rw [setService_eq]
  exact hp _ _

/-- A service replaced is found in its place. -/
theorem setService_service (h : s.service? job k = some (j, v)) (x : Service) :
    (s.setService job k x).service? job k = some ({ j with services := j.services.set k x }, x) := by
  obtain ⟨hj, hv⟩ := service?_iff.mp h
  have hk : k < j.services.length := (List.getElem?_eq_some_iff.mp hv).1
  refine service?_iff.mpr ⟨?_, by simp [hk]⟩
  unfold State.setService
  rw [hj]
  exact job?_putJob (j := j) hj rfl

end

/-! ### Signals of a service (R65, R363) -/

/-- The state with other cores, halts asked, groups and registers. -/
def State.stirred (s : State) (c : Vector Core 32) (h : List HaltRequest) (g : Vector (Option Group) 64) (r : List (Nat × Word)) : State :=
  { s with cores := c, halts := h, groups := g, regs := r }

/-- From s to t only cores, halts asked, groups and registers have changed. -/
def Stirs (s t : State) : Prop := ∃ c h g r, t = s.stirred c h g r

namespace Stirs

theorem of_eq (h : t = s.stirred t.cores t.halts t.groups t.regs) : Stirs s t := ⟨_, _, _, _, h⟩

theorem refl : Stirs s s := of_eq rfl

theorem trans (h : Stirs s t) (k : Stirs t u) : Stirs s u := by
  obtain ⟨c, h, g, r, rfl⟩ := h
  obtain ⟨c', h', g', r', rfl⟩ := k
  exact ⟨_, _, _, _, rfl⟩

/-- Every part of the state that signals leave. -/
theorem part {α : Type} (h : Stirs s t) (p : State → α) (hp : ∀ s c h g r, p (State.stirred s c h g r) = p s := by intros; rfl) : p t = p s := by
  obtain ⟨c, h, g, r, rfl⟩ := h
  exact hp s c h g r

end Stirs

theorem setCore_stirs (s : State) (n : Fin 32) (c : Core) : Stirs s (s.setCore n c) := .of_eq rfl

theorem discardCollectives_stirs (s : State) (n : Nat) : Stirs s (s.discardCollectives n) := by
  obtain ⟨g, r, h⟩ := discardCollectives_eq s n
  rw [h]
  exact .of_eq rfl

theorem settle_stirs (s : State) (n : Fin 32) : Stirs s (s.settle n) := by
  unfold State.settle
  dsimp only
  split
  · exact .refl
  · split
    · exact .refl
    · exact .of_eq rfl

theorem trap_stirs (s : State) (n : Fin 32) (conds : List Condition) (cls : Nat) (pc : BitVec 48) : Stirs s (s.trap n conds cls pc) := by
  unfold State.trap
  dsimp only
  split
  · exact .refl
  · split
    · exact .refl
    · split
      · exact ((discardCollectives_stirs _ _).trans (setCore_stirs _ _ _)).trans (settle_stirs _ _)
      · split
        · exact setCore_stirs _ _ _
        · exact setCore_stirs _ _ _

theorem signal_stirs (s : State) (n : Fin 32) (code inc : Nat) (who : Signaller) : Stirs s (s.signal n code inc who) := by
  unfold State.signal
  dsimp only
  split
  · exact setCore_stirs _ _ _
  · split
    · exact (setCore_stirs _ _ _).trans (trap_stirs _ _ _ _ _)
    · exact (setCore_stirs _ _ _).trans (trap_stirs _ _ _ _ _)

theorem signalCross_stirs (s : State) (n : Fin 32) (x inc : Nat) (who : Signaller) : Stirs s (s.signalCross n x inc who) := by
  unfold State.signalCross
  dsimp only
  split
  · exact setCore_stirs _ _ _
  · exact signal_stirs _ _ _ _ _

theorem svcSignal_stirs (s : State) (j : Job) (v : Service) : Stirs s (s.svcSignal j v) := by
  unfold State.svcSignal
  split
  · split
    · exact signalCross_stirs _ _ _ _ _
    · exact .refl
  · exact .refl

/-! ### An entry of a service's queue is finished (R363) -/

theorem addRecord_part {α : Type} (s : State) (job : Word) (kind reason : Nat) (arg : Word) (detail : List Byte) (final : Bool) (p : State → α)
    (hp : ∀ (u : State) (r : List ComplRing) (l : List JobRecord), p { u with rings := r, lastRecords := l } = p u := by intros; rfl)
    (htells : ∀ u r o k n, p (State.told u r o k n) = p u := by intros; rfl) : p (s.addRecord job kind reason arg detail final) = p s := by
  unfold State.addRecord
  split
  · rfl
  · dsimp only
    split
    · exact ((Tells.refl.raiseJob _ _ _).part p htells).trans (hp _ _ _)
    · exact hp _ _ _

end Sys2Proof.Machine

end

section
/-! PROOFS. The checkpoint and the ingest service of a job (R363 to R368). -/

namespace Sys2Proof.Machine

open Sys2Proof.Safety

variable {s t : State} {job : Word} {k : Nat} {j : Job} {v : Service}

/-- A service of a job with a record of it of which p holds. -/
def State.hasService (s : State) (job : Word) (k : Nat) (p : Service → Prop) : Prop := ∃ j v, s.service? job k = some (j, v) ∧ p v

theorem hasService_set (h : s.service? job k = some (j, v)) {x : Service} {p : Service → Prop} (hp : p x) (hjobs : t.jobs = (s.setService job k x).jobs) :
    t.hasService job k p := ⟨_, x, (service?_congr hjobs job k).trans (setService_service h x), hp⟩

theorem hasService_setService (h : s.service? job k = some (j, v)) {x : Service} {p : Service → Prop} (hp : p x) : (s.setService job k x).hasService job k p :=
  hasService_set h hp rfl

/-! ### An entry is finished (R363) -/

/-- The entry's status and the consumer index are written. -/
def State.entryWritten (s : State) (ctl slot index status : Nat) : State := (s.writeNat (slot + 56) 8 status).writeNat (ctl + 8) 8 (index + 1)

theorem entryWritten_reads (w : memCanonical s) {ctl slot index status : Nat} (hctl : ctl + 4096 ≤ slot) (hst : status < 256 ^ 8) (hix : index + 1 < 256 ^ 8) :
    (s.entryWritten ctl slot index status).readNat (slot + 56) 8 = status ∧ (s.entryWritten ctl slot index status).readNat (ctl + 8) 8 = index + 1 :=
  ⟨(readNat_writeNat_apart (writeBytes_canonical w) (.inr (by omega))).trans (readNat_writeNat w hst), readNat_writeNat (writeBytes_canonical w) hix⟩

/-- The service is free for its next entry, and has signalled. -/
def State.entrySignalled (s : State) (j : Job) (k : Nat) (v : Service) : State := (s.setService j.id k { v with req := none }).svcSignal j v

theorem entrySignalled_leaves (h : s.service? job k = some (j, v)) :
    (s.entrySignalled j k v).mem = s.mem ∧ (s.entrySignalled j k v).hasService job k (fun x => x.req = none) := by
  have hstirs := svcSignal_stirs (s.setService j.id k { v with req := none }) j v
  refine ⟨(hstirs.part (·.mem)).trans (setService_part s _ _ _ (·.mem)), hasService_set h (x := { v with req := none }) rfl ?_⟩
  rw [← service_id h]
  exact hstirs.part (·.jobs)

/-- A record of a service's entry that has failed. -/
def State.entryTold (s : State) (j : Job) (k index status : Nat) : State :=
  if status = 0 then s else s.addRecord j.id 6 (status % 256) (Word.place k 8 0 ||| Word.place index 32 8) [] false

theorem entryTold_leaves (s : State) (j : Job) (k index status : Nat) :
    (s.entryTold j k index status).mem = s.mem ∧ (s.entryTold j k index status).jobs = s.jobs := by
  unfold State.entryTold
  split
  · exact ⟨rfl, rfl⟩
  · exact ⟨addRecord_part s _ _ _ _ _ _ (·.mem), addRecord_part s _ _ _ _ _ _ (·.jobs)⟩

theorem finishEntryOf_eq (s : State) (j : Job) (k : Nat) (v : Service) (index status : Nat) : s.finishEntryOf j k v index status =
    (((s.entryWritten (v.control j) (v.control j + 4096 + 64 * (index % 2 ^ v.qlog)) index status).entrySignalled j k v).entryTold j k index status) := rfl

/-- A finished entry shows its status, the consumer index has moved on, and the service takes the next. -/
theorem finishEntryOf_leaves (w : memCanonical s) (h : s.service? job k = some (j, v)) {index status : Nat} (hst : status < 256 ^ 8) (hix : index + 1 < 256 ^ 8) :
    (s.finishEntryOf j k v index status).readNat (v.control j + 4096 + 64 * (index % 2 ^ v.qlog) + 56) 8 = status ∧
      (s.finishEntryOf j k v index status).readNat (v.control j + 8) 8 = index + 1 ∧
      (s.finishEntryOf j k v index status).hasService job k (fun x => x.req = none) := by
  have hfinish := finishEntryOf_eq s j k v index status
  obtain ⟨hstatus, hindex⟩ := entryWritten_reads w (ctl := v.control j) (slot := v.control j + 4096 + 64 * (index % 2 ^ v.qlog)) (by omega) hst hix
  have ha : (s.entryWritten (v.control j) (v.control j + 4096 + 64 * (index % 2 ^ v.qlog)) index status).service? job k = some (j, v) :=
    (service?_congr rfl job k).trans h
  generalize s.entryWritten (v.control j) (v.control j + 4096 + 64 * (index % 2 ^ v.qlog)) index status = a at hfinish hstatus hindex ha
  obtain ⟨hmem, j', v', hservice, hv'⟩ := entrySignalled_leaves ha
  generalize a.entrySignalled j k v = b at hfinish hmem hservice
  obtain ⟨hmem', hjobs⟩ := entryTold_leaves b j k index status
  rw [hfinish]
  exact ⟨(readNat_mem (hmem'.trans hmem) _ _).trans hstatus, (readNat_mem (hmem'.trans hmem) _ _).trans hindex,
    j', v', (service?_congr hjobs _ _).trans hservice, hv'⟩

/-! ### Checkpoint (R366 to R368) -/

/-- The digest table of a save in plaintext. -/
def State.plainTable (s : State) (e : List Byte) : List Byte :=
  let n := chunkCount (bodyNat e 8 8)
  ckptTable (s.ckptChunks e) ((List.range n).map (fun i => ((List.replicate (16 * n) (0 : Byte)).drop (16 * i)).take 16))

/-- The service while it carries out an entry. -/
def Service.carrying (v : Service) (index xfer : Nat) (entry : List Byte) : Service :=
  { v with req := some { index := index, xfer := xfer, entry := entry, stage := 0, failed := 0 } }

/-- A chunk of a save on its way to the server. -/
def State.chunkWrite (s : State) (j : Job) (e : List Byte) (i : Nat) : Output :=
  .rdmaWrite (j.servers.getD (bodyNat e 24 2) 0) (bodyNat e 26 4) (bodyNat e 32 8 + chunkBytes * i) ((s.ckptChunks e).getD i []) false

/-- A save has sent its chunks and its table. -/
def State.chunksSent (s : State) (j : Job) (k : Nat) (v : Service) (index : Nat) (e : List Byte) : State :=
  ((List.range (chunkCount (bodyNat e 8 8))).foldl (fun (t : State) i => t.emit (s.chunkWrite j e i))
    (s.setService j.id k (v.carrying index s.nextXfer (e ++ s.plainTable e)))).emit
    (.rdmaWrite (j.servers.getD (bodyNat e 24 2) 0) (bodyNat e 26 4) (bodyNat e 32 8 + bodyNat e 8 8) (s.plainTable e) false)

theorem ckptStart_save {index base : Nat} {e : List Byte} (hop : bodyNat e 0 1 = 1) (hplain : bodyNat e 1 1 = 0) :
    s.ckptStart j k v index e base = (s.chunksSent j k v index e).startXfer (.checkpoint j.id k) (j.servers.getD (bodyNat e 24 2) 0)
      (bodyNat e 8 8 + 48 * chunkCount (bodyNat e 8 8)) := by
  unfold State.ckptStart
  dsimp only
  rw [hop, hplain]
  simp only [beq_self_eq_true, Nat.zero_mod, show decide (2 ≤ 0) = false from rfl, Bool.false_eq_true, and_false, if_false, if_true,
    show ((0 : Nat) == 1) = false from rfl]
  rfl

theorem emits_moves {α : Type} (f : α → Output) (as : List α) (s : State) : Moves [] s (as.foldl (fun t a => t.emit (f a)) s) :=
  Moves.refl.foldl fun _ _ _ => Moves.refl.emit _

theorem emits_sent {α : Type} (f : α → Output) {as : List α} (s : State) {a : α} (ha : a ∈ as) : f a ∈ (as.foldl (fun t a => t.emit (f a)) s).out :=
  (foldl_reaches (I := fun _ : State => True) (P := fun t : State => f a ∈ t.out) (fun _ _ _ _ => trivial)
    (fun _ _ _ _ h => List.mem_cons_of_mem _ h) (fun _ _ => List.mem_cons_self) ha trivial).2

theorem ckptChunks_getD (s : State) (e : List Byte) {i : Nat} (hi : i < chunkCount (bodyNat e 8 8)) :
    (s.ckptChunks e).getD i [] = s.readBytes (bodyNat e 2 6 + chunkBytes * i) (min chunkBytes (bodyNat e 8 8 - chunkBytes * i)) := by
  simp [State.ckptChunks, hi]

theorem chunksSent_leaves (h : s.service? job k = some (j, v)) (index : Nat) {e : List Byte} (hlen : e.length = 64) :
    (s.chunksSent j k v index e).hasService job k (fun w => ∃ r, w.req = some r ∧ r.index = index ∧ r.stage = 0 ∧ r.entry.take 64 = e) ∧
      (∀ i, i < chunkCount (bodyNat e 8 8) → Output.rdmaWrite (j.servers.getD (bodyNat e 24 2) 0) (bodyNat e 26 4) (bodyNat e 32 8 + chunkBytes * i)
        (s.readBytes (bodyNat e 2 6 + chunkBytes * i) (min chunkBytes (bodyNat e 8 8 - chunkBytes * i))) false ∈ (s.chunksSent j k v index e).out) ∧
      (s.chunksSent j k v index e).mem = s.mem := by
  have hx : ∃ r, (v.carrying index s.nextXfer (e ++ s.plainTable e)).req = some r ∧ r.index = index ∧ r.stage = 0 ∧ r.entry.take 64 = e :=
    ⟨_, rfl, rfl, rfl, List.take_left' hlen⟩
  unfold State.chunksSent
  generalize v.carrying index s.nextXfer (e ++ s.plainTable e) = x at hx
  have hmoves := emits_moves (s.chunkWrite j e) (List.range (chunkCount (bodyNat e 8 8))) (s.setService j.id k x)
  refine ⟨hasService_set h hx ((hmoves.emit _).part (·.jobs) |>.trans ?_), fun i hi => List.mem_cons_of_mem _ ?_,
    ((hmoves.emit _).part (·.mem)).trans (setService_part s _ _ _ (·.mem))⟩
  · rw [service_id h]
  · rw [← ckptChunks_getD s e hi]
    exact emits_sent (s.chunkWrite j e) _ (List.mem_range.mpr hi)

theorem readBytes_length (s : State) (a n : Nat) : (s.readBytes a n).length = n := by simp [State.readBytes]

/-- The ring's next entry of a service. -/
def State.entryAt (s : State) (j : Job) (v : Service) (cons : Nat) : List Byte := s.readBytes (v.control j + 4096 + 64 * (cons % 2 ^ v.qlog)) 64

theorem exec_queuePoll_refused {stored : StoredCheckpoint} {base : Nat} (h : s.service? job k = some (j, v)) (hkind : v.kind = 2) (hrun : v.running = true)
    (hreq : v.req = none) (hnew : s.readNat (v.control j) 8 ≠ s.readNat (v.control j + 8) 8)
    (hbad : ckptEntryOk s.flash j v (s.entryAt j v (s.readNat (v.control j + 8) 8)) = false) :
    exec (.serviceQueuePoll job k stored base) s = .next (s.finishEntryOf j k v (s.readNat (v.control j + 8) 8) 1) := by
  show execServiceQueuePoll job k stored base s = _
  unfold execServiceQueuePoll
  rw [h]
  dsimp only
  rw [if_neg (by simp [hkind, hrun]), hreq]
  dsimp only
  rw [if_neg hnew]
  exact if_pos (by simpa [State.entryAt] using hbad)

theorem exec_queuePoll_saves {stored : StoredCheckpoint} {base : Nat} (h : s.service? job k = some (j, v)) (hkind : v.kind = 2) (hrun : v.running = true)
    (hreq : v.req = none) (hnew : s.readNat (v.control j) 8 ≠ s.readNat (v.control j + 8) 8) {e : List Byte}
    (he : s.entryAt j v (s.readNat (v.control j + 8) 8) = e) (hgood : ckptEntryOk s.flash j v e = true) (hop : bodyNat e 0 1 = 1)
    (hclean : s.readFails .none [(bodyNat e 2 6, bodyNat e 8 8)] = none) :
    exec (.serviceQueuePoll job k stored base) s = .next (s.ckptStart j k v (s.readNat (v.control j + 8) 8) e base) := by
  have hcheck : s.readCheck .none [(bodyNat e 2 6, bodyNat e 8 8)] = (s, none) := by
    unfold State.readCheck
    dsimp only [State.memError]
    rw [hclean]
  unfold State.entryAt at he
  show execServiceQueuePoll job k stored base s = _
  unfold execServiceQueuePoll
  rw [h]
  dsimp only
  rw [if_neg (by simp [hkind, hrun]), hreq]
  dsimp only
  rw [if_neg hnew, he, if_neg (by simp [hgood]), if_pos hop, hcheck]

theorem checkpoint_takes (w : memCanonical s) (h : s.service? job k = some (j, v)) (hkind : v.kind = 2) (hrun : v.running = true) (hreq : v.req = none)
    (hnew : s.readNat (v.control j) 8 ≠ s.readNat (v.control j + 8) 8) (stored : StoredCheckpoint) (base : Nat) :
    let ctl := v.control j
    let cons := s.readNat (ctl + 8) 8
    let e := s.readBytes (ctl + 4096 + 64 * (cons % 2 ^ v.qlog)) 64
    (ckptEntryOk s.flash j v e = false → cons + 1 < 2 ^ 64 → ∃ t, exec (.serviceQueuePoll job k stored base) s = .next t ∧
      t.readNat (ctl + 4096 + 64 * (cons % 2 ^ v.qlog) + 56) 8 = 1 ∧ t.readNat (ctl + 8) 8 = cons + 1 ∧ t.hasService job k (fun w => w.req = none)) ∧
    (ckptEntryOk s.flash j v e = true → bodyNat e 0 1 = 1 → bodyNat e 1 1 = 0 → s.readFails .none [(bodyNat e 2 6, bodyNat e 8 8)] = none →
      ∃ t, exec (.serviceQueuePoll job k stored base) s = .next t ∧
        t.hasService job k (fun w => ∃ r, w.req = some r ∧ r.index = cons ∧ r.stage = 0 ∧ r.entry.take 64 = e) ∧
        (∀ i, i < chunkCount (bodyNat e 8 8) → Output.rdmaWrite (j.servers.getD (bodyNat e 24 2) 0) (bodyNat e 26 4) (bodyNat e 32 8 + chunkBytes * i)
          (s.readBytes (bodyNat e 2 6 + chunkBytes * i) (min chunkBytes (bodyNat e 8 8 - chunkBytes * i))) false ∈ t.out) ∧ SameMemory s t) := by
  intro ctl cons e
  constructor
  · intro hbad hix
    exact ⟨_, exec_queuePoll_refused h hkind hrun hreq hnew hbad, finishEntryOf_leaves w h (by decide) hix⟩
  · intro hgood hop hplain hclean
    have hexec := exec_queuePoll_saves (stored := stored) (base := base) h hkind hrun hreq hnew rfl hgood hop hclean
    rw [show s.entryAt j v (s.readNat (v.control j + 8) 8) = e from rfl, ckptStart_save hop hplain] at hexec
    obtain ⟨⟨j', v', hservice, hv'⟩, hsent, hmem⟩ := chunksSent_leaves h cons (readBytes_length s _ 64 : e.length = 64)
    generalize s.chunksSent j k v cons e = u at hexec hservice hsent hmem
    have hmoves := startXfer_moves u (.checkpoint j.id k) (j.servers.getD (bodyNat e 24 2) 0) (bodyNat e 8 8 + 48 * chunkCount (bodyNat e 8 8))
    refine ⟨_, hexec, ⟨j', v', (service?_congr (hmoves.part (·.jobs)) _ _).trans hservice, hv'⟩, fun i hi => hmoves.wrote.sent _ (hsent i hi), fun a => ?_⟩
    exact readByte_mem ((hmoves.part (·.mem)).trans hmem) a

theorem bodyNat_take {e : List Byte} {lo n m : Nat} (h : lo + n ≤ m) : bodyNat (e.take m) lo n = bodyNat e lo n := by
  unfold bodyNat
  rw [List.drop_take, List.take_take, Nat.min_eq_left (by omega)]

theorem ckptAdvance_saved {r : SvcRequest} {x : Xfer} {stored : StoredCheckpoint} {base : Nat} (hop : bodyNat r.entry 0 1 = 1) (hplain : bodyNat r.entry 1 1 = 0)
    (hstage : r.stage = 1) (hx : s.xfers.find? (fun x => x.id == r.xfer) = some x) (hdone : x.outcome = some true) :
    s.ckptAdvance j k v r stored base = (s.dropXfer x.id).finishEntryOf j k v r.index 0 := by
  have hop' : bodyNat (r.entry.take 64) 0 1 = 1 := (bodyNat_take (by decide)).trans hop
  have hplain' : bodyNat (r.entry.take 64) 1 1 = 0 := (bodyNat_take (by decide)).trans hplain
  unfold State.ckptAdvance
  dsimp only
  rw [hop', hplain', if_neg (by decide), hx]
  dsimp only
  rw [hdone]
  dsimp only
  rw [if_neg (by simp [hstage])]
  rfl

/-- The last transfer of a save has come: its entry is finished with status OK. -/
theorem checkpoint_ends (w : memCanonical s) (h : s.service? job k = some (j, v)) {r : SvcRequest} {x : Xfer} (stored : StoredCheckpoint) (base : Nat)
    (hkind : v.kind = 2) (hrun : v.running = true) (hreq : v.req = some r) (hop : bodyNat r.entry 0 1 = 1) (hplain : bodyNat r.entry 1 1 = 0)
    (hstage : r.stage = 1) (hx : s.xfers.find? (fun x => x.id == r.xfer) = some x) (hdone : x.outcome = some true) (hix : r.index + 1 < 2 ^ 64) :
    ∃ t, exec (.serviceQueuePoll job k stored base) s = .next t ∧
      t.readNat (v.control j + 4096 + 64 * (r.index % 2 ^ v.qlog) + 56) 8 = 0 ∧ t.readNat (v.control j + 8) 8 = r.index + 1 ∧
      t.hasService job k (fun w => w.req = none) := by
  have hexec : exec (.serviceQueuePoll job k stored base) s = .next (s.ckptAdvance j k v r stored base) := by
    show execServiceQueuePoll job k stored base s = _
    unfold execServiceQueuePoll
    rw [h]
    dsimp only
    rw [if_neg (by simp [hkind, hrun]), hreq]
  have hdrop := dropXfer_moves s x.id
  rw [ckptAdvance_saved hop hplain hstage hx hdone] at hexec
  exact ⟨_, hexec, finishEntryOf_leaves (canonical_mem (hdrop.part (·.mem)) w) ((service?_congr (hdrop.part (·.jobs)) _ _).trans h) (by decide) hix⟩

end Sys2Proof.Machine

end

section
/-! PROOFS. The ingest service of a job (R363 to R365). -/

namespace Sys2Proof.Machine

open Sys2Proof.Safety

variable {s t : State} {job : Word} {k : Nat} {j : Job} {v : Service}

/-! ### A shard is fetched, or fails -/

theorem exec_ingestFetches (entry : List Byte) (read : ShardRead) (h : s.service? job k = some (j, v)) (hkind : v.kind = 1) (hrun : v.running = true)
    (hlist : v.fld 32 8 / 64 ≠ 0) (hnone : s.xferOf (.ingest job k) = none) :
    exec (.ingestSlotWrite job k entry read) s = .next
      ((s.emit (.rdmaRead (j.servers.getD (bodyNat entry 0 2) 0) (bodyNat entry 4 4) (bodyNat entry 8 8) (bodyNat entry 16 8))).startXfer
        (.ingest job k) (j.servers.getD (bodyNat entry 0 2) 0) (bodyNat entry 16 8)) := by
  show execIngestSlotWrite job k entry read s = _
  unfold execIngestSlotWrite
  rw [h]
  dsimp only
  rw [if_neg (by simp [hkind, hrun]), if_neg hlist, hnone]

theorem ingest_fetches (entry : List Byte) (read : ShardRead) (h : s.service? job k = some (j, v)) (hkind : v.kind = 1) (hrun : v.running = true)
    (hlist : v.fld 32 8 / 64 ≠ 0) (hnone : s.xferOf (.ingest job k) = none) :
    ∃ t, exec (.ingestSlotWrite job k entry read) s = .next t ∧
      Output.rdmaRead (j.servers.getD (bodyNat entry 0 2) 0) (bodyNat entry 4 4) (bodyNat entry 8 8) (bodyNat entry 16 8) ∈ t.out ∧
      (∃ x ∈ t.xfers, x.purpose = .ingest job k) ∧ SameMemory s t := by
  have hexec := exec_ingestFetches entry read h hkind hrun hlist hnone
  let o : Output := .rdmaRead (j.servers.getD (bodyNat entry 0 2) 0) (bodyNat entry 4 4) (bodyNat entry 8 8) (bodyNat entry 16 8)
  have hmoves := startXfer_moves (s.emit o) (.ingest job k) (j.servers.getD (bodyNat entry 0 2) 0) (bodyNat entry 16 8)
  obtain ⟨x, hx, hpurpose, -⟩ := startXfer_begins (s.emit o) (.ingest job k) (j.servers.getD (bodyNat entry 0 2) 0) (bodyNat entry 16 8)
  exact ⟨_, hexec, hmoves.wrote.sent _ List.mem_cons_self, ⟨x, hx, hpurpose⟩, fun a => readByte_mem (hmoves.part (·.mem)) a⟩

theorem ingestFails_leaves (h : s.service? job k = some (j, v)) (status : Nat) :
    Raised (s.ingestFails j k v status) 0x9A j.id ∧ (∃ r ∈ (s.ingestFails j k v status).halts, r.job = j.id ∧ r.cause = 7) ∧
      (s.ingestFails j k v status).hasService job k (fun w => w.running = false) := by
  unfold State.ingestFails
  dsimp only
  have hjobs : (s.setService j.id k { v with running := false }).jobs = (s.setService job k { v with running := false }).jobs := by rw [service_id h]
  generalize s.setService j.id k { v with running := false } = a at hjobs
  have htells : Tells a (a.raiseJob 0x9A j.id [BitVec.ofNat 64 k, BitVec.ofNat 64 status]) := Tells.refl.raiseJob _ _ _
  have hraised := raised_raiseJob a 0x9A j.id [BitVec.ofNat 64 k, BitVec.ofNat 64 status]
  generalize a.raiseJob 0x9A j.id [BitVec.ofNat 64 k, BitVec.ofNat 64 status] = b at htells hraised
  refine ⟨hraised, ⟨_, List.mem_append_right _ List.mem_cons_self, rfl, rfl⟩, hasService_set h (x := { v with running := false }) rfl ?_⟩
  exact (htells.part (·.jobs)).trans hjobs

/-! ### A shard's slot is written -/

/-- The header of a slot. -/
def slotHead (v : Service) (len : Nat) (last : Bool) : List Byte :=
  bytesOfNat 8 v.index ++ bytesOfNat 4 v.epoch ++ bytesOfNat 4 0 ++ bytesOfNat 8 v.offset ++ bytesOfNat 8 len ++
    bytesOfNat 1 (if last then 1 else 0) ++ bytesOfNat 31 0

theorem slotHead_length (v : Service) (len : Nat) (last : Bool) : (slotHead v len last).length = 64 := by
  simp [slotHead, bytesOfNat_length]

/-- What a slot's header and bytes read as. -/
theorem slot_reads (w : memCanonical s) (a : Nat) {part : List Byte} (last : Bool) (hoff : v.offset < 2 ^ 64) (hlen : part.length < 2 ^ 64) :
    let t := s.writeBytes a (slotHead v part.length last ++ part)
    t.readNat a 8 = v.index % 2 ^ 64 ∧ t.readNat (a + 16) 8 = v.offset ∧ t.readNat (a + 24) 8 = part.length ∧
      t.readNat (a + 32) 1 = (if last then 1 else 0) ∧ t.readBytes (a + 64) part.length = part := by
  intro t
  let lst : Nat := if last then 1 else 0
  have hfield (pre : List Byte) (n x : Nat) (hsplit : ∃ post, slotHead v part.length last ++ part = pre ++ (bytesOfNat n x ++ post)) :
      t.readNat (a + pre.length) n = x % 256 ^ n := by
    obtain ⟨post, hsplit⟩ := hsplit
    show (s.writeBytes a _).readNat _ _ = _
    rw [hsplit]
    exact readNat_writeBytes w
  have hlast : lst % 256 ^ 1 = lst := by cases last <;> rfl
  refine ⟨hfield [] 8 v.index ⟨_, by simp only [slotHead, List.append_assoc, List.nil_append]; rfl⟩, ?_, ?_, ?_, ?_⟩
  · rw [← Nat.mod_eq_of_lt (show v.offset < 256 ^ 8 from hoff)]
    exact hfield (bytesOfNat 8 v.index ++ bytesOfNat 4 v.epoch ++ bytesOfNat 4 0) 8 v.offset ⟨_, by simp only [slotHead, List.append_assoc]; rfl⟩
  · rw [← Nat.mod_eq_of_lt (show part.length < 256 ^ 8 from hlen)]
    exact hfield (bytesOfNat 8 v.index ++ bytesOfNat 4 v.epoch ++ bytesOfNat 4 0 ++ bytesOfNat 8 v.offset) 8 part.length
      ⟨_, by simp only [slotHead, List.append_assoc]; rfl⟩
  · refine Eq.trans ?_ hlast
    exact hfield (bytesOfNat 8 v.index ++ bytesOfNat 4 v.epoch ++ bytesOfNat 4 0 ++ bytesOfNat 8 v.offset ++ bytesOfNat 8 part.length) 1 lst
      ⟨_, by simp only [slotHead, List.append_assoc, lst]; rfl⟩
  · rw [readBytes_writeBytes w 64 part.length (by rw [List.length_append, slotHead_length]), List.drop_left' (slotHead_length ..), List.take_length]

/-- The service after a slot. -/
def Service.afterSlot (v : Service) (len : Nat) (last : Bool) : Service :=
  if !last then { v with offset := v.offset + len }
  else if v.index + 1 < v.fld 32 8 / 64 then { v with index := v.index + 1, offset := 0 }
  else { v with index := 0, epoch := v.epoch + 1, offset := 0, running := v.fld 52 4 == 0 || decide (v.epoch + 1 < v.fld 52 4) }

theorem afterSlot_offset (v : Service) (len : Nat) (last : Bool) : (v.afterSlot len last).offset = if last then 0 else v.offset + len := by
  unfold Service.afterSlot
  cases last with
  | false => rfl
  | true =>
    rw [if_neg (by decide), if_pos rfl]
    split <;> rfl

/-- The part of a shard that the next slot takes. -/
def Service.slotPart (v : Service) (data : List Byte) : List Byte := (data.drop v.offset).take (2 ^ v.fld 48 1 - 64)

/-- A slot is written and shown by the producer index. -/
def State.slotFilled (s : State) (ctl slot : Nat) (bs : List Byte) : State := (s.writeBytes slot bs).writeNat ctl 8 (s.readNat ctl 8 + 1)

/-- The service has moved on after a slot. -/
def State.slotTold (s : State) (j : Job) (k : Nat) (v v' : Service) (x : Xfer) (last : Bool) : State :=
  ((if last then s.dropXfer x.id else s).setService j.id k v').svcSignal j v

theorem slotFilled_jobs (s : State) (ctl slot : Nat) (bs : List Byte) : (s.slotFilled ctl slot bs).jobs = s.jobs := rfl

theorem ingestSlot_eq (s : State) (j : Job) (k : Nat) (v : Service) (x : Xfer) (data : List Byte) : s.ingestSlot j k v x data =
    let part := v.slotPart data
    let last := decide (data.length ≤ v.offset + part.length)
    let slot := v.control j + 4096 + (s.readNat (v.control j) 8 % 2 ^ v.qlog) * 2 ^ v.fld 48 1
    (s.slotFilled (v.control j) slot (slotHead v part.length last ++ part)).slotTold j k v (v.afterSlot part.length last) x last := rfl

theorem slotTold_leaves (h : s.service? job k = some (j, v)) (v' : Service) (x : Xfer) (last : Bool) :
    (s.slotTold j k v v' x last).mem = s.mem ∧ (s.slotTold j k v v' x last).hasService job k (fun w => w = v') := by
  have hdrop : (if last then s.dropXfer x.id else s).mem = s.mem ∧ (if last then s.dropXfer x.id else s).jobs = s.jobs := by
    split
    · exact ⟨(dropXfer_moves s x.id).part (·.mem), (dropXfer_moves s x.id).part (·.jobs)⟩
    · exact ⟨rfl, rfl⟩
  unfold State.slotTold
  generalize (if last then s.dropXfer x.id else s) = a at hdrop
  obtain ⟨hmem, hjobs⟩ := hdrop
  have hstirs := svcSignal_stirs (a.setService j.id k v') j v
  refine ⟨(hstirs.part (·.mem)).trans ((setService_part a _ _ _ (·.mem)).trans hmem), hasService_set (x := v') ((service?_congr hjobs _ _).trans h) rfl ?_⟩
  rw [← service_id h]
  exact hstirs.part (·.jobs)

theorem slotFilled_leaves (w : memCanonical s) {ctl slot : Nat} {part : List Byte} (last : Bool) (hctl : ctl + 8 ≤ slot) (hprod : s.readNat ctl 8 + 1 < 2 ^ 64)
    (hoff : v.offset < 2 ^ 64) (hlen : part.length < 2 ^ 64) :
    let t := s.slotFilled ctl slot (slotHead v part.length last ++ part)
    t.readNat ctl 8 = s.readNat ctl 8 + 1 ∧ t.readNat slot 8 = v.index % 2 ^ 64 ∧ t.readNat (slot + 16) 8 = v.offset ∧
      t.readNat (slot + 24) 8 = part.length ∧ t.readNat (slot + 32) 1 = (if last then 1 else 0) ∧ t.readBytes (slot + 64) part.length = part ∧
      (∀ a, ¬ (ctl ≤ a ∧ a < ctl + 8) → ¬ (slot ≤ a ∧ a < slot + 64 + part.length) → t.readByte a = s.readByte a) := by
  intro t
  obtain ⟨hindex, hoffset, hlength, hlast, hpart⟩ := slot_reads (v := v) w slot last hoff hlen
  have w' := writeBytes_canonical (a := slot) (bs := slotHead v part.length last ++ part) w
  have hread (b n : Nat) (hb : slot ≤ b) : t.readNat b n = (s.writeBytes slot (slotHead v part.length last ++ part)).readNat b n :=
    readNat_writeNat_apart w' (.inr (by omega))
  refine ⟨readNat_writeNat w' hprod, (hread _ _ (by omega)).trans hindex, (hread _ _ (by omega)).trans hoffset, (hread _ _ (by omega)).trans hlength,
    (hread _ _ (by omega)).trans hlast, ?_, fun a hout hout' => ?_⟩
  · exact (readBytes_writeBytes_apart w' (.inr (by rw [bytesOfNat_length]; omega))).trans hpart
  · refine (readByte_writeBytes_apart w' (by rw [bytesOfNat_length]; omega)).trans (readByte_writeBytes_apart w ?_)
    rw [List.length_append, slotHead_length]
    omega

theorem exec_ingestSlot (entry : List Byte) {data : List Byte} {x : Xfer} (h : s.service? job k = some (j, v)) (hkind : v.kind = 1) (hrun : v.running = true)
    (hlist : v.fld 32 8 / 64 ≠ 0) (hx : s.xferOf (.ingest job k) = some x) (hdone : x.outcome = some true) (hgood : shardStatus entry data = 0)
    (hroom : s.readNat (v.control j) 8 < s.readNat (v.control j + 8) 8 + 2 ^ v.qlog) :
    exec (.ingestSlotWrite job k entry (.bytes data)) s = .next (s.ingestSlot j k v x data) := by
  show execIngestSlotWrite job k entry (.bytes data) s = _
  unfold execIngestSlotWrite
  rw [h]
  dsimp only
  rw [if_neg (by simp [hkind, hrun]), if_neg hlist, hx]
  dsimp only
  rw [hdone]
  dsimp only
  rw [if_neg (not_not.mpr hgood)]
  exact if_neg (by omega)

theorem exec_ingestFails (entry : List Byte) {st : Nat} {x : Xfer} (h : s.service? job k = some (j, v)) (hkind : v.kind = 1) (hrun : v.running = true)
    (hlist : v.fld 32 8 / 64 ≠ 0) (hx : s.xferOf (.ingest job k) = some x) (hdone : x.outcome = some true) :
    exec (.ingestSlotWrite job k entry (.failed st)) s = .next ((s.dropXfer x.id).ingestFails j k v st) := by
  show execIngestSlotWrite job k entry (.failed st) s = _
  unfold execIngestSlotWrite
  rw [h]
  dsimp only
  rw [if_neg (by simp [hkind, hrun]), if_neg hlist, hx]
  dsimp only
  rw [hdone]

theorem ingest_leaves (w : memCanonical s) (entry : List Byte) (read : ShardRead) {x : Xfer} (h : s.service? job k = some (j, v)) (hkind : v.kind = 1)
    (hrun : v.running = true) (hlist : v.fld 32 8 / 64 ≠ 0) (hx : s.xferOf (.ingest job k) = some x) (hdone : x.outcome = some true) :
    let ctl := v.control j
    let prod := s.readNat ctl 8
    let cons := s.readNat (ctl + 8) 8
    (∀ st, read = .failed st → ∃ t, exec (.ingestSlotWrite job k entry read) s = .next t ∧ Raised t 0x9A j.id ∧
      (∃ h ∈ t.halts, h.job = j.id ∧ h.cause = 7) ∧ t.hasService job k (fun w => w.running = false)) ∧
    (∀ data, read = .bytes data → shardStatus entry data = 0 → prod < cons + 2 ^ v.qlog → prod + 1 < 2 ^ 64 → 7 ≤ v.fld 48 1 → data.length < 2 ^ 64 →
      v.offset < data.length →
      let slot := ctl + 4096 + (prod % 2 ^ v.qlog) * 2 ^ (v.fld 48 1)
      let part := (data.drop v.offset).take (2 ^ (v.fld 48 1) - 64)
      ∃ t, exec (.ingestSlotWrite job k entry read) s = .next t ∧ t.readNat ctl 8 = prod + 1 ∧ t.readNat slot 8 = v.index % 2 ^ 64 ∧
        t.readNat (slot + 16) 8 = v.offset ∧ t.readNat (slot + 24) 8 = part.length ∧
        t.readNat (slot + 32) 1 = (if data.length ≤ v.offset + part.length then 1 else 0) ∧ t.readBytes (slot + 64) part.length = part ∧
        (∀ a, ¬ (ctl ≤ a ∧ a < ctl + 8) → ¬ (slot ≤ a ∧ a < slot + 64 + part.length) → t.readByte a = s.readByte a) ∧
        t.hasService job k (fun w => w.offset = if data.length ≤ v.offset + part.length then 0 else v.offset + part.length)) := by
  intro ctl prod cons
  constructor
  · rintro st rfl
    exact ⟨_, exec_ingestFails entry h hkind hrun hlist hx hdone,
      ingestFails_leaves ((service?_congr ((dropXfer_moves s x.id).part (·.jobs)) _ _).trans h) st⟩
  · rintro data rfl hgood hroom hprod hsize hlen hoff slot part
    have hexec := exec_ingestSlot entry h hkind hrun hlist hx hdone hgood hroom
    rw [ingestSlot_eq] at hexec
    let last := decide (data.length ≤ v.offset + part.length)
    have hpart : part.length < 2 ^ 64 := by
      have : part.length ≤ data.length := by simp only [part, List.length_take, List.length_drop]; omega
      omega
    have hfilled := slotFilled_leaves (v := v) w (ctl := ctl) (slot := slot) (part := part) last (by omega) hprod (by omega) hpart
    have hservice : (s.slotFilled ctl slot (slotHead v part.length last ++ part)).service? job k = some (j, v) :=
      (service?_congr (slotFilled_jobs _ _ _ _) _ _).trans h
    change _ = Host.Outcome.next ((s.slotFilled ctl slot (slotHead v part.length last ++ part)).slotTold j k v (v.afterSlot part.length last) x last) at hexec
    generalize s.slotFilled ctl slot (slotHead v part.length last ++ part) = a at hexec hfilled hservice
    obtain ⟨hmem, j', v', hafter, hv'⟩ := slotTold_leaves hservice (v.afterSlot part.length last) x last
    generalize a.slotTold j k v (v.afterSlot part.length last) x last = b at hexec hmem hafter
    obtain ⟨hread, hindex, hoffset, hlength, hlast, hbytes, hframe⟩ := hfilled
    refine ⟨_, hexec, (readNat_mem hmem _ _).trans hread, (readNat_mem hmem _ _).trans hindex, (readNat_mem hmem _ _).trans hoffset,
      (readNat_mem hmem _ _).trans hlength, ?_, (readBytes_mem hmem _ _).trans hbytes, fun a ha ha' => (readByte_mem hmem a).trans (hframe a ha ha'),
      j', v', hafter, ?_⟩
    · rw [readNat_mem hmem, hlast]
      simp [last]
    · show v'.offset = _
      rw [hv', afterSlot_offset]
      simp [last]

end Sys2Proof.Machine

end

section
/-! PROOFS. Clients of a serving endpoint: requests served on their sessions (R346, R349, R369). -/

namespace Sys2Proof.Machine

open Sys2Proof.Safety

variable {s t u : State} {job : Word} {k : Nat} {key : BitVec 256} {j : Job} {v : Service} {c d e : Channel}

/-! ### The session of a client -/

/-- The states s and t differ in jobs and in what has been sent alone; in t the service is as v but for its sessions, and the session of the key is d. -/
structure Attends (s t : State) (job : Word) (k : Nat) (key : BitVec 256) (v : Service) (d : Channel) : Prop where
  seat : ∃ j cs, t.service? job k = some (j, { v with clients := cs }) ∧ cs.find? (fun c => c.key == key) = some d
  shape : ∃ js o, t = { s with jobs := js, out := o }
  sent : Sent s t

namespace Attends

theorem start (h : s.service? job k = some (j, v)) (hc : s.chan? (.client job k key) = some c) : Attends s s job k key v c := by
  refine ⟨⟨j, v.clients, h, ?_⟩, ⟨s.jobs, s.out, rfl⟩, Sent.refl s⟩
  simpa only [State.chan?, h] using hc

/-- Every part of the state but jobs and what has been sent. -/
theorem part {α : Type} (h : Attends s t job k key v d) (p : State → α)
    (hp : ∀ (u : State) (js : List Job) (o : List Output), p { u with jobs := js, out := o } = p u := by intros; rfl) : p t = p s := by
  obtain ⟨js, o, rfl⟩ := h.shape
  exact hp s js o

theorem chan (h : Attends s t job k key v d) : t.chan? (.client job k key) = some d := by
  obtain ⟨j, cs, hservice, hfind⟩ := h.seat
  simpa only [State.chan?, hservice] using hfind

theorem key_eq (h : Attends s t job k key v d) : d.key = key := by
  obtain ⟨_, _, _, hfind⟩ := h.seat
  simpa using List.find?_some hfind

theorem emit (h : Attends s t job k key v d) (o : Output) : Attends s (t.emit o) job k key v d := by
  refine ⟨h.seat, ?_, fun x hx => List.mem_cons_of_mem _ (h.sent x hx)⟩
  obtain ⟨js, l, rfl⟩ := h.shape
  exact ⟨js, o :: l, rfl⟩

/-- The service is replaced, the session in its place. -/
theorem setService (h : Attends s t job k key v d) (x : Service) {cs : List Channel} (hcs : cs.find? (fun c => c.key == key) = some e) :
    Attends s (t.setService job k { x with clients := cs }) job k key x e := by
  obtain ⟨j, cs', hservice, -⟩ := h.seat
  refine ⟨⟨_, cs, setService_service hservice _, hcs⟩, ?_, fun o ho => ?_⟩
  · obtain ⟨js, l, rfl⟩ := h.shape
    rw [setService_eq]
    exact ⟨_, l, rfl⟩
  · rw [setService_part t _ _ _ (·.out)]
    exact h.sent o ho

theorem find_replaced {cs : List Channel} (hfind : cs.find? (fun c => c.key == key) = some d) (hkey : e.key = key) :
    (cs.map (fun c => if c.key = key then e else c)).find? (fun c => c.key == key) = some e := by
  have hsame : ((fun c : Channel => c.key == key) ∘ fun c => if c.key = key then e else c) = fun c => c.key == key := by
    funext c
    by_cases hc : c.key = key
    · simp [hc, hkey]
    · simp [hc]
  have hd : d.key = key := by simpa using List.find?_some hfind
  rw [List.find?_map, hsame, hfind, Option.map_some, if_pos hd]

theorem setChan (h : Attends s t job k key v d) (hkey : e.key = key) : Attends s (t.setChan (.client job k key) e) job k key v e := by
  obtain ⟨j, cs, hservice, hfind⟩ := h.seat
  unfold State.setChan
  dsimp only
  rw [hservice]
  exact h.setService v (find_replaced hfind hkey)

/-- A datagram leaves on the session. -/
theorem sendOn (h : Attends s t job k key v d) (hup : (s.port d.port).up = true) (htx : d.tx + 1 < 2 ^ 32) (f : Nat → Word → Output) :
    Attends s (t.sendOn (.client job k key) f) job k key v { d with tx := d.tx + 1 } ∧ f d.port d.sid ∈ (t.sendOn (.client job k key) f).out := by
  have hset := h.setChan (e := { d with tx := d.tx + 1 }) h.key_eq
  have hport : (t.setChan (.client job k key) { d with tx := d.tx + 1 }).outPort d.port d.nets = some d.port :=
    outPort_of_up ((congrArg HostPort.up (port_congr (hset.part (·.ports)) _)).trans hup)
  have hsend : t.sendOn (.client job k key) f = (t.setChan (.client job k key) { d with tx := d.tx + 1 }).emit (f d.port d.sid) := by
    unfold State.sendOn
    rw [h.chan]
    dsimp only
    rw [hport]
    exact if_neg (by omega)
  rw [hsend]
  exact ⟨hset.emit _, List.mem_cons_self⟩

/-- An answer leaves on the session. -/
theorem respond (h : Attends s t job k key v d) (hup : (s.port d.port).up = true) (htx : d.tx + 1 < 2 ^ 32) (id : BitVec 32) (r : Response) :
    ∃ e, Attends s (t.respond (.client job k key) id r true) job k key v e ∧ e.ready = d.ready ∧
      Output.response d.port d.sid id r ∈ (t.respond (.client job k key) id r true).out := by
  have hset := h.setChan (e := { d with kept := ((id, r) :: d.kept).take 1024 }) h.key_eq
  have hrespond : t.respond (.client job k key) id r true =
      (t.setChan (.client job k key) { d with kept := ((id, r) :: d.kept).take 1024 }).sendOn (.client job k key) (fun p sid => .response p sid id r) := by
    unfold State.respond
    rw [h.chan]
    rfl
  obtain ⟨hsent, hout⟩ := hset.sendOn hup htx (fun p sid => .response p sid id r)
  rw [hrespond]
  exact ⟨_, hsent, rfl, hout⟩

/-- Requests of known types stay in turn. -/
theorem refuseUnknown (h : Attends s t job k key v d) (hknown : ∀ q ∈ d.ready, q.2 ∈ clientTypes) (fuel : Nat) :
    State.refuseUnknown fuel t (.client job k key) = t := by
  cases fuel with
  | zero => rfl
  | succ n =>
    unfold State.refuseUnknown
    rw [h.chan]
    dsimp only
    split
    · next q rest hready =>
      exact if_pos (by simpa [sessionTypes] using hknown _ (by rw [hready]; exact List.mem_cons_self))
    · rfl

theorem frame (h : Attends s t job k key v d) (offs : List Nat) : Frame s t offs :=
  ⟨fun a => readByte_mem (h.part (·.mem)) a, h.part (·.cores), fun o _ _ => h.part (·.reg o)⟩

theorem endpoint (h : Attends s t job k key v d) :
    ∃ j cs, t.endpoint (.client job k key) = some (j, { v with clients := cs }, k, key) ∧ j.id = job ∧ cs.find? (fun c => c.key == key) = some d := by
  obtain ⟨j, cs, hservice, hfind⟩ := h.seat
  exact ⟨j, cs, by simp only [State.endpoint, hservice, Option.map_some], service_id hservice, hfind⟩

end Attends

/-- A client's request whose turn has come takes its effect and is answered OK, when the effect gives the service the requests rs (R349). -/
theorem serve_client {effect : State → State × Response} {id : BitVec 32} {mt : Nat} {rest : List (BitVec 32 × Nat)} {rs : List GenReq}
    (h : s.service? job k = some (j, v)) (hc : s.chan? (.client job k key) = some c) (hready : c.ready = (id, mt) :: rest)
    (hknown : ∀ q ∈ rest, q.2 ∈ clientTypes) (htx : c.tx + 1 < 2 ^ 32) (hup : (s.port c.port).up = true) (hmt : mt ∈ clientTypes)
    (heff : ∀ t, Attends s t job k key v { c with ready := rest, highest := some id } →
      Attends s (effect t).1 job k key { v with requests := rs } { c with ready := rest, highest := some id } ∧ (effect t).2 = plain stOk) :
    Output.response c.port c.sid id { status := 0, body := [] } ∈ (s.serve (.client job k key) mt effect).out ∧
      Frame s (s.serve (.client job k key) mt effect) [] ∧ (s.serve (.client job k key) mt effect).hasService job k (fun w => w.requests = rs) := by
  have hstart := Attends.start h hc
  obtain ⟨heffect, hok⟩ := heff _ (hstart.setChan (e := { c with ready := rest, highest := some id }) hstart.key_eq)
  have hserve : s.serve (.client job k key) mt effect =
      State.refuseUnknown rest.length ((effect (s.setChan (.client job k key) { c with ready := rest, highest := some id })).1.respond (.client job k key) id
        (effect (s.setChan (.client job k key) { c with ready := rest, highest := some id })).2 true) (.client job k key) := by
    unfold State.serve
    rw [hc]
    dsimp only
    rw [hready]
    dsimp only
    rw [if_neg (by simp), if_pos (by simpa [State.mayServe] using hmt)]
  obtain ⟨e, hanswer, hrest, hout⟩ := heffect.respond hup htx id (plain stOk)
  rw [hserve, hok, hanswer.refuseUnknown (by rw [hrest]; exact hknown)]
  obtain ⟨j', cs, hservice, -⟩ := hanswer.seat
  exact ⟨hout, hanswer.frame [], j', _, hservice, rfl⟩

/-! ### Requests -/

/-- A request of the same client under the same number. -/
def GenReq.same (q r : GenReq) : Bool := r.client == q.client && r.num == q.num

/-- A prompt below the limits takes its place behind the other requests. -/
theorem takePrompt_takes {x : Service} {q : GenReq} (hlen : q.tokens.length < x.maxCtx) (hroom : q.complete = false ∨ x.queued.length < x.qMax) :
    s.takePrompt j k x q = (s.setService j.id k { x with requests := x.requests.filter (fun r => !q.same r) ++ [q] }, plain stOk) := by
  unfold State.takePrompt
  dsimp only
  rw [if_neg (by omega), if_neg (by rcases hroom with h | h <;> simp [h])]
  rfl

theorem attends_takePrompt {cs : List Channel} {q : GenReq} (h : Attends s t job k key v d) (hid : j.id = job)
    (hcs : cs.find? (fun c => c.key == key) = some d) (hlen : q.tokens.length < v.maxCtx) (hroom : q.complete = false ∨ v.queued.length < v.qMax) :
    Attends s (t.takePrompt j k { v with clients := cs } q).1 job k key { v with requests := v.requests.filter (fun r => !q.same r) ++ [q] } d ∧
      (t.takePrompt j k { v with clients := cs } q).2 = plain stOk := by
  rw [takePrompt_takes (x := { v with clients := cs }) hlen hroom, hid]
  exact ⟨h.setService { v with requests := v.requests.filter (fun r => !q.same r) ++ [q] } hcs, rfl⟩

theorem find_request_none {rs : List GenReq} {num : Nat} (h : ∀ q ∈ rs, ¬ (q.client = key ∧ q.num = num)) :
    rs.any (fun q => q.client == key && q.num == num) = false := by
  simpa using h

/-- The effect of GENERATE. -/
def generateEffect (r : SessionRef) (num : Nat) (params : List Byte) (last : Bool) (tokens : List (BitVec 32)) (s : State) : State × Response :=
  match s.endpoint r with
  | none => (s, plain stDenied)
  | some (j, v, k, key) =>
    if params.length ≠ 32 ∨ 320 < tokens.length ∨ v.requests.any (fun q => q.client == key && q.num == num) then (s, plain stMalformed)
    else s.takePrompt j k v { client := key, num := num, params := params, tokens := tokens, complete := last, stopped := false, slot := none }

/-- The effect of APPEND. -/
def appendEffect (r : SessionRef) (num : Nat) (last : Bool) (tokens : List (BitVec 32)) (s : State) : State × Response :=
  match s.endpoint r with
  | none => (s, plain stDenied)
  | some (j, v, k, key) =>
    match v.requests.find? (fun q => q.client == key && q.num == num) with
    | none => (s, plain stNotFound)
    | some q =>
      if 336 < tokens.length ∨ q.complete then (s, plain stMalformed)
      else s.takePrompt j k v { q with tokens := q.tokens ++ tokens, complete := last }

/-- The effect of STOP. -/
def stopEffect (r : SessionRef) (num : Nat) (s : State) : State × Response :=
  match s.endpoint r with
  | none => (s, plain stDenied)
  | some (j, v, k, key) =>
    if v.requests.any (fun q => q.client == key && q.num == num) then
      (s.setService j.id k { v with requests := v.requests.map (fun (q : GenReq) => if q.client = key ∧ q.num = num then { q with stopped := true } else q) },
        plain stOk)
    else (s, plain stNotFound)

section

variable {id : BitVec 32} {mt num : Nat} {rest : List (BitVec 32 × Nat)} (h : s.service? job k = some (j, v))
  (hc : s.chan? (.client job k key) = some c) (hready : c.ready = (id, mt) :: rest) (hknown : ∀ q ∈ rest, q.2 ∈ clientTypes)
  (htx : c.tx + 1 < 2 ^ 32) (hup : (s.port c.port).up = true)

include h hc hready hknown htx hup

theorem generate_leaves (params : List Byte) (tokens : List (BitVec 32)) (last : Bool) (hmt : mt = 0x100) (hparams : params.length = 32)
    (htokens : tokens.length ≤ 320) (hnew : ∀ q ∈ v.requests, ¬ (q.client = key ∧ q.num = num)) (hlen : tokens.length < v.maxCtx)
    (hroom : last = false ∨ v.queued.length < v.qMax) :
    ∃ t, exec (.generate (.client job k key) num params last tokens) s = .next t ∧
      (Output.response c.port c.sid id { status := 0, body := [] } ∈ t.out ∧ Frame s t []) ∧ t.hasService job k (fun w => w.requests = v.requests ++
        [{ client := key, num := num, params := params, tokens := tokens, complete := last, stopped := false, slot := none }]) := by
  let q : GenReq := { client := key, num := num, params := params, tokens := tokens, complete := last, stopped := false, slot := none }
  have hothers : v.requests.filter (fun r => !q.same r) = v.requests := List.filter_eq_self.mpr fun r hr => by
    simpa [GenReq.same, q, ← not_and_or] using hnew r hr
  subst hmt
  obtain ⟨hout, hframe, hservice⟩ := serve_client (rs := v.requests.filter (fun r => !q.same r) ++ [q]) (effect := generateEffect (.client job k key) num params last tokens)
    h hc hready hknown htx hup (by decide) (fun t ht => by
      obtain ⟨i, cs, hend, hid, hcs⟩ := ht.endpoint
      unfold generateEffect
      rw [hend]
      dsimp only
      rw [if_neg (by rw [find_request_none hnew]; simp only [hparams]; simp; omega)]
      exact attends_takePrompt (q := q) ht hid hcs hlen hroom)
  rw [hothers] at hservice
  exact ⟨_, rfl, ⟨hout, hframe⟩, hservice⟩

theorem append_leaves {q : GenReq} (tokens : List (BitVec 32)) (last : Bool) (hmt : mt = 0x101)
    (hq : v.requests.find? (fun q => q.client == key && q.num == num) = some q) (hopen : q.complete = false) (htokens : tokens.length ≤ 336)
    (hlen : q.tokens.length + tokens.length < v.maxCtx) (hroom : last = false ∨ v.queued.length < v.qMax) :
    ∃ t, exec (.append (.client job k key) num last tokens) s = .next t ∧
      (Output.response c.port c.sid id { status := 0, body := [] } ∈ t.out ∧ Frame s t []) ∧
      t.hasService job k (fun w => { q with tokens := q.tokens ++ tokens, complete := last } ∈ w.requests ∧
        ∀ y ∈ v.requests, ¬ (y.client = key ∧ y.num = num) → y ∈ w.requests) := by
  let q' : GenReq := { q with tokens := q.tokens ++ tokens, complete := last }
  obtain ⟨hclient, hnum⟩ : q.client = key ∧ q.num = num := by simpa using List.find?_some hq
  subst hmt
  obtain ⟨hout, hframe, i, w, hservice, hw⟩ := serve_client (rs := v.requests.filter (fun r => !q'.same r) ++ [q']) (effect := appendEffect (.client job k key) num last tokens)
    h hc hready hknown htx hup (by decide) (fun t ht => by
      obtain ⟨i, cs, hend, hid, hcs⟩ := ht.endpoint
      unfold appendEffect
      rw [hend]
      dsimp only
      rw [hq]
      dsimp only
      rw [if_neg (by simp [hopen]; omega)]
      exact attends_takePrompt (q := q') ht hid hcs (by simpa [q'] using hlen) hroom)
  refine ⟨_, rfl, ⟨hout, hframe⟩, i, w, hservice, ?_⟩
  dsimp only
  rw [hw]
  refine ⟨List.mem_append_right _ List.mem_cons_self, fun y hy hother => List.mem_append_left _ (List.mem_filter.mpr ⟨hy, ?_⟩)⟩
  simpa [GenReq.same, q', hclient, hnum, ← not_and_or] using hother

theorem stop_leaves (hmt : mt = 0x102) (hsome : ∃ q ∈ v.requests, q.client = key ∧ q.num = num) :
    ∃ t, exec (.stop (.client job k key) num) s = .next t ∧
      (Output.response c.port c.sid id { status := 0, body := [] } ∈ t.out ∧ Frame s t []) ∧
      t.hasService job k (fun w => (∀ q ∈ w.requests, q.client = key → q.num = num → q.stopped = true) ∧
        ∀ y ∈ v.requests, ¬ (y.client = key ∧ y.num = num) → y ∈ w.requests) := by
  let f (q : GenReq) : GenReq := if q.client = key ∧ q.num = num then { q with stopped := true } else q
  subst hmt
  obtain ⟨hout, hframe, i, w, hservice, hw⟩ := serve_client (rs := v.requests.map f) (effect := stopEffect (.client job k key) num)
    h hc hready hknown htx hup (by decide) (fun t ht => by
      obtain ⟨i, cs, hend, hid, hcs⟩ := ht.endpoint
      unfold stopEffect
      rw [hend]
      dsimp only
      rw [if_pos (by simpa using hsome), hid]
      exact ⟨ht.setService { v with requests := v.requests.map f } hcs, rfl⟩)
  refine ⟨_, rfl, ⟨hout, hframe⟩, i, w, hservice, ?_⟩
  dsimp only
  rw [hw]
  refine ⟨fun q hq hclient hnum => ?_, fun y hy hother => List.mem_map.mpr ⟨y, hy, if_neg hother⟩⟩
  obtain ⟨y, hy, rfl⟩ := List.mem_map.mp hq
  by_cases hsame : y.client = key ∧ y.num = num
  · simp [f, hsame]
  · simp only [f, if_neg hsame] at hclient hnum
    exact absurd ⟨hclient, hnum⟩ hsame

end

end Sys2Proof.Machine

end

section
/-! PROOFS. The steps of a serving endpoint, then the services of a job as a whole (R363, R370). -/

namespace Sys2Proof.Machine

open Sys2Proof.Safety

variable {s t u : State} {k : Nat} {i j : Job} {v : Service} {q : GenReq}

/-! ### A step entry is written -/

/-- The requests that stay at a step. -/
def Service.staying (v : Service) : Service := { v with requests := v.requests.filter (fun q => !(q.stopped && q.slot.isNone)) }

/-- The waiting requests of a service have entered slots. -/
def State.admitsAll (s : State) (j : Job) (k : Nat) (v : Service) : State := v.queued.foldl (State.admitRequest j k) (s.setService j.id k v)

/-- The slots in which requests stand. -/
def Service.slotMap (v : Service) : Nat := v.requests.foldl (fun (m : Nat) q => match q.slot with | some i => m ||| 2 ^ i | none => m) 0

/-- The step entry is written and shown by the producer index. -/
def State.stepFilled (s : State) (j : Job) (v : Service) : State :=
  (s.writeBytes (v.control j + 4096 + 64 * (v.step % 2 ^ v.qlog)) (bytesOfNat 8 v.step ++ bytesOfNat 8 0 ++ bytesOfNat 32 v.slotMap ++ bytesOfNat 16 0)).writeNat
    (v.control j) 8 (v.step + 1)

/-- The next step has begun. -/
def State.stepWritten (s : State) (j : Job) (k : Nat) (v : Service) : State :=
  ((s.stepFilled j v).setService j.id k { v with step := v.step + 1 }).svcSignal j v

theorem nextStep_eq {i' : Job} {v' : Service} (h : s.service? j.id k = some (i, v)) (ha : (s.admitsAll j k v.staying).service? j.id k = some (i', v')) :
    s.nextStep j k = if v'.slotMap = 0 then s.admitsAll j k v.staying else (s.admitsAll j k v.staying).stepWritten j k v' := by
  unfold State.admitsAll at ha
  unfold State.nextStep
  rw [h]
  dsimp only
  rw [show { v with requests := v.requests.filter (fun q => !(q.stopped && q.slot.isNone)) } = v.staying from rfl, ha]
  rfl

theorem stepFilled_jobs (s : State) (j : Job) (v : Service) : (s.stepFilled j v).jobs = s.jobs := by simp [State.stepFilled, State.writeNat]

theorem stepFilled_out (s : State) (j : Job) (v : Service) : (s.stepFilled j v).out = s.out := by simp [State.stepFilled, State.writeNat]

theorem stepFilled_reads (w : memCanonical s) (j : Job) (hstep : v.step + 1 < 2 ^ 64) :
    (s.stepFilled j v).readNat (v.control j) 8 = v.step + 1 ∧ (s.stepFilled j v).readNat (v.control j + 4096 + 64 * (v.step % 2 ^ v.qlog)) 8 = v.step ∧
      (s.stepFilled j v).readNat (v.control j + 4096 + 64 * (v.step % 2 ^ v.qlog) + 16) 32 = v.slotMap % 256 ^ 32 := by
  let entry := bytesOfNat 8 v.step ++ bytesOfNat 8 0 ++ bytesOfNat 32 v.slotMap ++ bytesOfNat 16 0
  have w' := writeBytes_canonical (a := v.control j + 4096 + 64 * (v.step % 2 ^ v.qlog)) (bs := entry) w
  have hentry : entry = [] ++ (bytesOfNat 8 v.step ++ (bytesOfNat 8 0 ++ (bytesOfNat 32 v.slotMap ++ bytesOfNat 16 0))) := by
    simp only [entry, List.append_assoc, List.nil_append]
  have hmap : entry = (bytesOfNat 8 v.step ++ bytesOfNat 8 0) ++ (bytesOfNat 32 v.slotMap ++ bytesOfNat 16 0) := by
    simp only [entry, List.append_assoc]
  refine ⟨readNat_writeNat w' hstep, (readNat_writeNat_apart w' (.inr (by omega))).trans ?_, (readNat_writeNat_apart w' (.inr (by omega))).trans ?_⟩
  · have h := readNat_writeBytes (s := s) (a := v.control j + 4096 + 64 * (v.step % 2 ^ v.qlog)) (n := 8) (v := v.step) (pre := [])
      (post := bytesOfNat 8 0 ++ (bytesOfNat 32 v.slotMap ++ bytesOfNat 16 0)) w
    rw [← hentry, Nat.mod_eq_of_lt (show v.step < 256 ^ 8 by omega)] at h
    exact h
  · have h := readNat_writeBytes (s := s) (a := v.control j + 4096 + 64 * (v.step % 2 ^ v.qlog)) (n := 32) (v := v.slotMap)
      (pre := bytesOfNat 8 v.step ++ bytesOfNat 8 0) (post := bytesOfNat 16 0) w
    rw [← hmap] at h
    exact h

theorem stepWritten_leaves (h : s.service? j.id k = some (i, v)) :
    (s.stepWritten j k v).hasService j.id k (fun w => w = { v with step := v.step + 1 }) ∧ (s.stepWritten j k v).mem = (s.stepFilled j v).mem ∧
      (s.stepWritten j k v).out = s.out := by
  have hservice : (s.stepFilled j v).service? j.id k = some (i, v) := (service?_congr (stepFilled_jobs s j v) _ _).trans h
  have hout := stepFilled_out s j v
  unfold State.stepWritten
  generalize s.stepFilled j v = a at hservice hout
  have hstirs := svcSignal_stirs (a.setService j.id k { v with step := v.step + 1 }) j v
  exact ⟨hasService_set hservice rfl (hstirs.part (·.jobs)), (hstirs.part (·.mem)).trans (setService_part a _ _ _ (·.mem)),
    (hstirs.part (·.out)).trans ((setService_part a _ _ _ (·.out)).trans hout)⟩

/-! ### The first request enters a slot -/

theorem admitRequest_first (h : s.service? j.id k = some (i, v)) (hreq : v.requests = [q]) (hslot : q.slot = none) (hmax : 1 ≤ v.maxB) :
    ∃ a bs, State.admitRequest j k s q = (s.writeBytes a bs).setService j.id k { v with requests := [{ q with slot := some 0 }] } := by
  have hfind : (List.range v.maxB).find? (fun i => !v.requests.any (fun r => r.slot == some i)) = some 0 := by
    obtain ⟨n, hn⟩ := Nat.exists_eq_add_of_le hmax
    rw [hn, Nat.add_comm, List.range_succ_eq_map, hreq]
    simp [hslot]
  unfold State.admitRequest
  rw [h]
  dsimp only
  rw [hfind]
  dsimp only
  rw [hreq, List.map_singleton, if_pos ⟨rfl, rfl⟩]
  exact ⟨_, _, rfl⟩

theorem nextStep_admits (w : memCanonical s) (h : s.service? j.id k = some (i, v)) (hreq : v.requests = [q]) (hfull : q.complete = true) (hslot : q.slot = none)
    (hgo : q.stopped = false) (hmax : 1 ≤ v.maxB) (hstep : v.step + 1 < 2 ^ 64) :
    (s.nextStep j k).hasService j.id k (fun w => w.step = v.step + 1 ∧ w.requests = [{ q with slot := some 0 }]) ∧
      (s.nextStep j k).readNat (v.control j) 8 = v.step + 1 ∧ (s.nextStep j k).readNat (v.control j + 4096 + 64 * (v.step % 2 ^ v.qlog)) 8 = v.step ∧
      (s.nextStep j k).readNat (v.control j + 4096 + 64 * (v.step % 2 ^ v.qlog) + 16) 32 = 1 := by
  let v' : Service := { v with requests := [{ q with slot := some 0 }] }
  have hstay : v.staying = v := by
    have hfilter : v.requests.filter (fun q => !(q.stopped && q.slot.isNone)) = v.requests := by rw [hreq]; simp [hgo]
    unfold Service.staying
    rw [hfilter]
  have hqueued : v.queued = [q] := by simp [Service.queued, hreq, hfull, hslot]
  have hset := setService_service h v
  have hsetmem : (s.setService j.id k v).mem = s.mem := setService_part s _ _ _ (·.mem)
  have hadmits : s.admitsAll j k v.staying = State.admitRequest j k (s.setService j.id k v) q := by
    rw [hstay, State.admitsAll, hqueued]
    rfl
  obtain ⟨a, bs, hadmit⟩ := admitRequest_first (j := j) hset hreq hslot hmax
  rw [hadmit] at hadmits
  have wa : memCanonical ((s.setService j.id k v).writeBytes a bs) := writeBytes_canonical (canonical_mem hsetmem w)
  have hb : ((s.setService j.id k v).writeBytes a bs).service? j.id k = _ := (service?_congr rfl _ _).trans hset
  generalize (s.setService j.id k v).writeBytes a bs = b at hadmits wa hb
  have hservice := setService_service hb v'
  have wb : memCanonical (b.setService j.id k v') := canonical_mem (setService_part b _ _ _ (·.mem)) wa
  have hmap : v'.slotMap = 1 := rfl
  have hnext := nextStep_eq (j := j) h (hadmits ▸ hservice)
  rw [hadmits, if_neg (by rw [hmap]; decide)] at hnext
  generalize b.setService j.id k v' = c at hservice wb hnext
  obtain ⟨⟨i', x, hx, hx'⟩, hmem, -⟩ := stepWritten_leaves (j := j) hservice
  obtain ⟨hctl, hentry, hslots⟩ := stepFilled_reads (v := v') wb j hstep
  rw [hnext]
  refine ⟨⟨i', x, hx, ?_⟩, (readNat_mem hmem _ _).trans hctl, (readNat_mem hmem _ _).trans hentry, (readNat_mem hmem _ _).trans hslots⟩
  rw [hx']
  exact ⟨rfl, rfl⟩

/-! ### Whatever the next step finds -/

/-- From s to t nothing sent is lost, and the service goes on with index n, without requests if there were none. -/
structure Endures (s t : State) (job : Word) (k n : Nat) (idle : Prop) : Prop where
  sent : Sent s t
  service : t.hasService job k (fun v => v.index = n ∧ (idle → v.requests = []))

theorem admitRequest_endures {n : Nat} {idle : Prop} (j : Job) (q : GenReq) (h : Endures s t j.id k n idle) :
    Endures s (State.admitRequest j k t q) j.id k n idle := by
  obtain ⟨i, v, hservice, hindex, hidle⟩ := h.service
  unfold State.admitRequest
  rw [hservice]
  dsimp only
  split
  · exact h
  · next m _ =>
    generalize q.params ++ bytesOfNat 4 q.tokens.length ++ bytesOfNat 4 q.tokens.length ++ bytesOfNat 24 0 ++ q.tokens.flatMap (fun t => bytesOfNat 4 t.toNat) = bs
    have hb : (t.writeBytes (v.slotAddr j m) bs).service? j.id k = some (i, v) := (service?_congr rfl _ _).trans hservice
    have hout : (t.writeBytes (v.slotAddr j m) bs).out = t.out := rfl
    generalize t.writeBytes (v.slotAddr j m) bs = b at hb hout
    refine ⟨fun o ho => ?_, hasService_setService hb ⟨hindex, fun hi => ?_⟩⟩
    · rw [setService_part b _ _ _ (·.out), hout]
      exact h.sent o ho
    · simp only [hidle hi, List.map_nil]

theorem admitsAll_endures (j : Job) (v : Service) (h : s.service? j.id k = some (i, v)) :
    Endures s (s.admitsAll j k v.staying) j.id k v.index (v.requests = []) := by
  refine List.foldlRecOn (motive := fun t => Endures s t j.id k v.index (v.requests = [])) _ _ ⟨fun o ho => ?_, hasService_setService h ⟨rfl, fun he => ?_⟩⟩
    fun t ht q _ => admitRequest_endures j q ht
  · rw [setService_part s _ _ _ (·.out)]
    exact ho
  · simp only [Service.staying, he, List.filter_nil]

theorem nextStep_endures (h : s.service? j.id k = some (i, v)) : Endures s (s.nextStep j k) j.id k v.index (v.requests = []) := by
  have hall := admitsAll_endures j v h
  obtain ⟨i', v', hservice, hindex, hidle⟩ := hall.service
  have hnext := nextStep_eq (j := j) h hservice
  generalize s.admitsAll j k v.staying = a at hall hservice hnext
  rw [hnext]
  split
  · exact hall
  · obtain ⟨⟨i'', x, hx, hx'⟩, -, hout⟩ := stepWritten_leaves (j := j) hservice
    refine ⟨hall.sent.trans (Sent.of_eq hout), i'', x, hx, ?_⟩
    rw [hx']
    exact ⟨hindex, hidle⟩

/-! ### A token of a step goes to its client -/

/-- A slot with a token joined to it. -/
def State.tokenJoined (s : State) (a cur tok : Nat) : State := (s.writeNat (a + 64 + 4 * cur) 4 tok).writeNat (a + 36) 4 (cur + 1)

/-- A token ends its request. -/
def State.tokenEnds (s : State) (j : Job) (v : Service) (record n : Nat) (q : GenReq) : Bool :=
  s.readNat (record + 68 + 8 * n) 1 % 2 == 1 || decide (v.maxCtx ≤ s.readNat (v.slotAddr j n + 36) 4 + 1) || q.stopped

/-- The service after a token of the request q. -/
def Service.afterToken (v : Service) (q : GenReq) (done : Bool) : Service :=
  { v with requests := if done then v.requests.filter (fun x => !(x.client == q.client && x.num == q.num)) else v.requests }

theorem takeToken_eq {record n : Nat} (h : s.service? j.id k = some (i, v)) (hslot : q.slot = some n) :
    State.takeToken j k record s q =
      ((s.tokenJoined (v.slotAddr j n) (s.readNat (v.slotAddr j n + 36) 4) (s.readNat (record + 64 + 8 * n) 4)).setService j.id k
        (v.afterToken q (s.tokenEnds j v record n q))).sendOn (.client j.id k q.client) (fun port sid =>
          .tokens port sid q.client q.num stOk (s.tokenEnds j v record n q) [BitVec.ofNat 32 (s.readNat (record + 64 + 8 * n) 4)]) := by
  unfold State.takeToken
  rw [h, hslot]
  rfl

theorem tokenJoined_parts (s : State) (a cur tok : Nat) : (s.tokenJoined a cur tok).jobs = s.jobs ∧ (s.tokenJoined a cur tok).ports = s.ports := ⟨rfl, rfl⟩

theorem takeToken_leaves {record n : Nat} {c : Channel} (h : s.service? j.id k = some (i, v)) (hslot : q.slot = some n)
    (hc : s.chan? (.client j.id k q.client) = some c) (hup : (s.port c.port).up = true) (htx : c.tx + 1 < 2 ^ 32) :
    Output.tokens c.port c.sid q.client q.num 0 (s.tokenEnds j v record n q) [BitVec.ofNat 32 (s.readNat (record + 64 + 8 * n) 4)] ∈
        (State.takeToken j k record s q).out ∧
      (State.takeToken j k record s q).hasService j.id k (fun w => ∃ cs, w = { v.afterToken q (s.tokenEnds j v record n q) with clients := cs }) := by
  rw [takeToken_eq h hslot]
  generalize s.tokenEnds j v record n q = done
  obtain ⟨hjobs, hports⟩ := tokenJoined_parts s (v.slotAddr j n) (s.readNat (v.slotAddr j n + 36) 4) (s.readNat (record + 64 + 8 * n) 4)
  generalize s.tokenJoined (v.slotAddr j n) (s.readNat (v.slotAddr j n + 36) 4) (s.readNat (record + 64 + 8 * n) 4) = a at hjobs hports
  have ha : a.service? j.id k = some (i, v) := (service?_congr hjobs _ _).trans h
  have hfind : v.clients.find? (fun c => c.key == q.client) = some c := by simpa only [State.chan?, h] using hc
  have hstart : Attends a a j.id k q.client v c := Attends.start ha (by simpa only [State.chan?, ha] using hfind)
  have hset : Attends a (a.setService j.id k (v.afterToken q done)) j.id k q.client (v.afterToken q done) c :=
    hstart.setService (v.afterToken q done) (cs := v.clients) hfind
  obtain ⟨hsent, hout⟩ := hset.sendOn ((congrArg HostPort.up (port_congr hports _)).trans hup) htx (fun port sid =>
    .tokens port sid q.client q.num stOk done [BitVec.ofNat 32 (s.readNat (record + 64 + 8 * n) 4)])
  obtain ⟨i', cs, hservice, -⟩ := hsent.seat
  exact ⟨hout, i', _, hservice, cs, rfl⟩

/-! ### The token ring is read -/

theorem exec_tokenRing_begins (h : s.service? j.id k = some (j, v)) (hkind : v.kind = 3) (hrun : v.running = true) (hdone : v.step ≤ v.index) :
    exec (.tokenRingPoll j.id k) s = .next (s.nextStep j k) := by
  show execTokenRingPoll j.id k s = _
  unfold execTokenRingPoll
  rw [h]
  dsimp only
  rw [if_neg (by simp [hkind, hrun])]
  exact if_pos hdone

/-- The token ring of an endpoint, and the record of its step. -/
def Service.tokenRing (j : Job) (v : Service) : Nat := j.winBase v.qwin + v.fld 52 8
def Service.tokenRecord (j : Job) (v : Service) : Nat := v.tokenRing j + 4096 + 4096 * (v.index % 2 ^ v.qlog)

/-- The step's tokens have been taken. -/
def State.tokensTaken (s : State) (j : Job) (k : Nat) (v : Service) (q : GenReq) : State :=
  (State.takeToken j k (v.tokenRecord j) s q).writeNat (v.tokenRing j + 8) 8 (v.index + 1)

theorem exec_tokenRing_takes {v' : Service} {n : Nat} (h : s.service? j.id k = some (j, v)) (hkind : v.kind = 3) (hrun : v.running = true)
    (hreq : v.requests = [q]) (hslot : q.slot = some n) (hunder : v.index < v.step) (hnew : v.index < s.readNat (v.tokenRing j) 8)
    (h' : (s.tokensTaken j k v q).service? j.id k = some (i, v')) :
    exec (.tokenRingPoll j.id k) s = .next (((s.tokensTaken j k v q).setService j.id k { v' with index := v.index + 1 }).nextStep j k) := by
  have hactive : v.requests.filter (fun q => q.slot.isSome) = [q] := by simp [hreq, hslot]
  unfold State.tokensTaken Service.tokenRecord at h'
  unfold Service.tokenRing at h' hnew
  show execTokenRingPoll j.id k s = _
  unfold execTokenRingPoll
  rw [h]
  dsimp only
  rw [if_neg (by simp [hkind, hrun]), if_neg (by omega), if_neg (by omega), hactive]
  dsimp only [List.foldl_cons, List.foldl_nil]
  rw [h']
  rfl

theorem tokensTaken_leaves {n : Nat} {c : Channel} (h : s.service? j.id k = some (j, v)) (hslot : q.slot = some n)
    (hc : s.chan? (.client j.id k q.client) = some c) (hup : (s.port c.port).up = true) (htx : c.tx + 1 < 2 ^ 32) :
    Output.tokens c.port c.sid q.client q.num 0 (s.tokenEnds j v (v.tokenRecord j) n q) [BitVec.ofNat 32 (s.readNat (v.tokenRecord j + 64 + 8 * n) 4)] ∈
        (s.tokensTaken j k v q).out ∧
      (s.tokensTaken j k v q).hasService j.id k (fun w => ∃ cs, w = { v.afterToken q (s.tokenEnds j v (v.tokenRecord j) n q) with clients := cs }) := by
  obtain ⟨hout, i, w, hservice, hw⟩ := takeToken_leaves (record := v.tokenRecord j) h hslot hc hup htx
  unfold State.tokensTaken
  exact ⟨hout, i, w, (service?_congr rfl _ _).trans hservice, hw⟩

theorem tokenRing_takes {n : Nat} {c : Channel} (h : s.service? j.id k = some (j, v)) (hkind : v.kind = 3) (hrun : v.running = true)
    (hreq : v.requests = [q]) (hunder : v.index < v.step) (hslot : q.slot = some n) (hnew : v.index < s.readNat (v.tokenRing j) 8)
    (hc : s.chan? (.client j.id k q.client) = some c) (hup : (s.port c.port).up = true) (htx : c.tx + 1 < 2 ^ 32) :
    ∃ t, exec (.tokenRingPoll j.id k) s = .next t ∧
      Output.tokens c.port c.sid q.client q.num 0 (s.tokenEnds j v (v.tokenRecord j) n q) [BitVec.ofNat 32 (s.readNat (v.tokenRecord j + 64 + 8 * n) 4)] ∈ t.out ∧
      t.hasService j.id k (fun w => w.index = v.index + 1 ∧ (s.tokenEnds j v (v.tokenRecord j) n q = true → w.requests = [])) := by
  obtain ⟨hout, i, v', hservice, cs, hv'⟩ := tokensTaken_leaves h hslot hc hup htx
  have hexec := exec_tokenRing_takes h hkind hrun hreq hslot hunder hnew hservice
  generalize s.tokensTaken j k v q = a at hout hexec hservice
  have hset := setService_service hservice { v' with index := v.index + 1 }
  have hsame : (a.setService j.id k { v' with index := v.index + 1 }).out = a.out := setService_part a _ _ _ (·.out)
  generalize a.setService j.id k { v' with index := v.index + 1 } = b at hexec hset hsame
  obtain ⟨hsent, i', x, hx, hindex, hidle⟩ := nextStep_endures (j := j) hset
  refine ⟨_, hexec, hsent _ (hsame ▸ hout), i', x, hx, hindex, fun hdone => hidle ?_⟩
  show v'.requests = []
  rw [hv']
  show (v.afterToken q _).requests = []
  rw [Service.afterToken, hdone, if_pos rfl, hreq]
  simp

/-- Settles O51: the checkpoint, the ingest service, the clients' requests and the endpoint's steps, each through what it writes and what it leaves of its
service; only the bytes written and the service's own record change where the statement says so. -/
theorem services : Obligations.Services := by
  unfold Obligations.Services
  intro s job svc j v w h
  obtain rfl := service_id h
  refine ⟨fun hkind hrun hreq hnew stored base => checkpoint_takes w h hkind hrun hreq hnew stored base,
    fun r x stored base hkind hrun hreq hop hplain hstage hx hdone hix => checkpoint_ends w h stored base hkind hrun hreq hop hplain hstage hx hdone hix,
    fun entry read hkind hrun hlist => ⟨ingest_fetches entry read h hkind hrun hlist, fun x hx hdone => ingest_leaves w entry read h hkind hrun hlist hx hdone⟩,
    fun key c id mt rest num hc hready hknown htx hup => ⟨?_, ?_, ?_⟩, fun q hkind hrun hreq => ⟨?_, ?_⟩⟩
  · exact fun params tokens last hmt hparams htokens hnew hlen hroom =>
      generate_leaves h hc hready hknown htx hup params tokens last hmt hparams htokens hnew hlen hroom
  · exact fun q tokens last hmt hq hopen htokens hlen hroom => append_leaves h hc hready hknown htx hup tokens last hmt hq hopen htokens hlen hroom
  · exact fun hmt hsome => stop_leaves h hc hready hknown htx hup hmt hsome
  · exact fun hdone hfull hslot hgo hmax hstep => ⟨_, exec_tokenRing_begins h hkind hrun hdone, nextStep_admits w h hreq hfull hslot hgo hmax hstep⟩
  · exact fun n hunder hslot hnew c hc hup htx => tokenRing_takes h hkind hrun hreq hunder hslot hnew hc hup htx

end Sys2Proof.Machine

end

section
/-! SUPPORT. What the operations on lanes and paths leave of swaps and lasers, and what the message streams leave when routes change (R259, R271, R329). -/

namespace Sys2Proof.Machine

open Sys2Proof.Safety

variable {l m : List RegField} {s t u : State} {i : Nat}

/-! ### Swaps, queue, samples and lasers out of use -/

/-- What is decided of lasers: swaps under way and waiting, bias samples, BOL biases, and the lasers out of use. -/
def State.lasPlan (s : State) : Vector (Option Swap) 2 × List (Nat × List Nat) × Vector (List Nat) 24 × Vector Nat 24 × Vector Nat 24 :=
  (s.hull.swaps, s.hull.queued, s.hull.samples, s.hull.bol, s.flash.outOfUse)

/-- From s to t the fields l are written, memory, cores and what is decided of lasers stay. -/
structure Tends (l : List RegField) (s t : State) : Prop where
  wrote : Wrote l s t
  plan : t.lasPlan = s.lasPlan

namespace Tends

theorem refl : Tends l s s := ⟨.refl, rfl⟩

theorem trans (h : Tends l s t) (k : Tends l t u) : Tends l s u := ⟨h.wrote.trans k.wrote, k.plan.trans h.plan⟩

theorem mono (h : Tends l s t) (hsub : ∀ f ∈ l, f ∈ m) : Tends m s t := ⟨h.wrote.mono hsub, h.plan⟩

theorem append (h : Tends l s t) (k : Tends m t u) : Tends (l ++ m) s u := ⟨h.wrote.append k.wrote, k.plan.trans h.plan⟩

theorem setFld {o hi lo : Nat} (h : Tends l s t) (v : Nat) (hh : hi < 64) (ho : (o, hi, lo) ∈ l) : Tends l s (t.setFld o hi lo v) :=
  ⟨h.wrote.setFld v hh ho, h.plan⟩

theorem setReg {o : Nat} (h : Tends l s t) (v : Word) (ho : (o, 63, 0) ∈ l) : Tends l s (t.setReg o v) := ⟨h.wrote.setReg v ho, h.plan⟩

theorem raise (h : Tends l s t) (k : Nat) (r : List Word) : Tends l s (t.raise k r) :=
  ⟨h.wrote.raise k r, ((Tells.refl.raise k r).part State.lasPlan).trans h.plan⟩

theorem emit (h : Tends l s t) (x : Output) : Tends l s (t.emit x) := ⟨h.wrote.emit x, h.plan⟩

theorem ite {c : Prop} [Decidable c] (ht : Tends l s t) (hu : Tends l s u) : Tends l s (if c then t else u) := by
  split
  · exact ht
  · exact hu

theorem foldl {α : Type} {f : State → α → State} {as : List α} (h : Tends l s t) (hf : ∀ u, ∀ a ∈ as, Tends l u (f u a)) : Tends l s (as.foldl f t) :=
  h.trans (List.foldlRecOn as f refl fun u hu a ha => hu.trans (hf u a ha))

theorem beginLock (h : Tends l s t) (hl : (Csr.optLane i, 63, 60) ∈ l) : Tends l s (t.beginLock i) := ⟨h.wrote.beginLock hl, h.plan⟩

theorem laneTo (h : Tends l s t) (st : Nat) (hl : (Csr.optLane i, 63, 60) ∈ l) : Tends l s (t.laneTo i st) := ⟨h.wrote.laneTo st hl, h.plan⟩

theorem broadcastStates (h : Tends l s t) : Tends l s t.broadcastStates :=
  ⟨h.wrote.broadcastStates, ((broadcastStates_tells t).part State.lasPlan).trans h.plan⟩

theorem modLink (h : Tends l s t) (i : Nat) (f : Link → Link) : Tends l s (t.modLink i f) := by
  refine ⟨h.wrote.modLink f, Eq.trans ?_ h.plan⟩
  unfold State.modLink
  split <;> rfl

theorem pathGoesDown (h : Tends l s t) (hp : (Csr.fabPath i, 63, 60) ∈ l) (hc : (Csr.fabLcnt i, 63, 48) ∈ l) : Tends l s (t.pathGoesDown i) := by
  obtain ⟨k, hk⟩ := pathGoesDown_tells t i
  exact ⟨h.wrote.pathGoesDown hp hc, (hk.part State.lasPlan).trans h.plan⟩

theorem takeDown (h : Tends l s t) (hp : (Csr.fabPath i, 63, 60) ∈ l) (hc : (Csr.fabLcnt i, 63, 48) ∈ l) : Tends l s (t.takeDown i) :=
  .ite h (h.pathGoesDown hp hc)

theorem laneGoesDark (h : Tends l s t) (hl : (Csr.optLane i, 63, 60) ∈ l) (hp : (Csr.fabPath i, 63, 60) ∈ l) : Tends l s (t.laneGoesDark i) :=
  .ite (h.laneTo _ hl) ((h.laneTo _ hl).setFld _ (by decide) hp)

theorem sweepNext_plan (s : State) (c : Fin 2) : (s.sweepNext c).lasPlan = s.lasPlan := by
  unfold State.lasPlan
  rw [sweepNext_hull, sweepNext_flash]

theorem syncSweep_plan (s : State) (c : Fin 2) : (s.syncSweep c).lasPlan = s.lasPlan := by
  rw [syncSweep_eq]
  split
  · rfl
  · exact sweepNext_plan s c

theorem syncHull (h : Tends l s t) (hs : (Csr.hullStat, 63, 0) ∈ l) : Tends l s t.syncHull := by
  refine ⟨h.wrote.syncHull hs, Eq.trans ?_ h.plan⟩
  unfold State.syncHull
  refine (Tends.foldl (l := [(Csr.hullStat, 63, 0)]) (Tends.setReg refl _ (by simp)) fun _ _ _ => refl.raise _ _).plan.trans ?_
  exact (syncSweep_plan _ 1).trans (syncSweep_plan t 0)

end Tends

/-! ### Flits and messages on the way -/

/-- From s to t the fields l are written, and cores differ in what they have on the mesh alone; memory and what is decided of lasers stay. -/
structure Hushes (l : List RegField) (s t : State) : Prop where
  mem : t.mem = s.mem
  mesh : ∀ n : Fin 32, ∃ m, t.cores[n] = { s.cores[n] with mesh := m }
  sent : Sent s t
  canonical : regsCanonical s → regsCanonical t
  fld : regsCanonical s → ∀ {o hi lo : Nat}, Apart l o hi lo → t.fld o hi lo = s.fld o hi lo
  plan : t.lasPlan = s.lasPlan

theorem Tends.hushes (h : Tends l s t) : Hushes l s t where
  mem := h.wrote.mem
  mesh := fun n => ⟨(s.cores[n]).mesh, by rw [h.wrote.cores]⟩
  sent := h.wrote.sent
  canonical := h.wrote.canonical
  fld := h.wrote.fld
  plan := h.plan

namespace Hushes

theorem refl : Hushes l s s := Tends.refl.hushes

theorem trans (h : Hushes l s t) (k : Hushes l t u) : Hushes l s u where
  mem := k.mem.trans h.mem
  mesh := fun n => by
    obtain ⟨a, ha⟩ := h.mesh n
    obtain ⟨b, hb⟩ := k.mesh n
    exact ⟨b, by rw [hb, ha]⟩
  sent := h.sent.trans k.sent
  canonical := fun w => k.canonical (h.canonical w)
  fld := fun w _ _ _ ha => (k.fld (h.canonical w) ha).trans (h.fld w ha)
  plan := k.plan.trans h.plan

theorem mono (h : Hushes l s t) (hsub : ∀ f ∈ l, f ∈ m) : Hushes m s t :=
  ⟨h.mem, h.mesh, h.sent, h.canonical, fun w _ _ _ ha => h.fld w (ha.subset hsub), h.plan⟩

theorem append (h : Hushes l s t) (k : Hushes m t u) : Hushes (l ++ m) s u :=
  (h.mono fun _ hf => List.mem_append_left _ hf).trans (k.mono fun _ hf => List.mem_append_right _ hf)

theorem raised (h : Hushes l s t) {k : Nat} {j : Word} (hr : Raised s k j) : Raised t k j := Raised.sent hr h.sent

theorem sameMemory (h : Hushes l s t) : SameMemory s t := fun a => readByte_mem h.mem a

end Hushes

theorem aside_tends (hm : t.mem = s.mem) (hc : t.cores = s.cores) (ho : t.out = s.out) (hr : t.regs = s.regs) (hp : t.lasPlan = s.lasPlan) : Tends l s t :=
  ⟨Wrote.refl.aside hm hc ho hr, hp⟩

theorem pump_tends (fuel : Nat) (s : State) (i : Nat) : Tends [] s (s.pump fuel i) := by
  induction fuel generalizing s with
  | zero => exact .refl
  | succ n ih =>
    unfold State.pump
    split
    · exact .refl
    · next k _ =>
      split
      · exact .refl
      · split
        · exact .refl
        · next f _ =>
          generalize k.send f (s.controlOn i k.lseq.toNat) = p
          have hlink : Tends [] s { s with links := s.links.setIfInBounds i p.1 } := aside_tends rfl rfl rfl rfl rfl
          exact (hlink.emit (.flit i p.2)).trans (ih _)

theorem enqueue_tends (s : State) (i : Nat) (fs : List FlitRef) : Tends [] s (s.enqueue i fs) := (Tends.refl.modLink i _).trans (pump_tends _ _ _)

theorem sendReply_tends (s : State) (h : Msg) (r : Reply) : Tends [] s (s.sendReply h r) := by
  unfold State.sendReply
  split
  · exact aside_tends rfl rfl rfl rfl rfl
  · split
    · split
      · exact enqueue_tends _ _ _
      · exact aside_tends rfl rfl rfl rfl rfl
    · exact aside_tends rfl rfl rfl rfl rfl

theorem sendHeldReplies_tends (s : State) : Tends [] s s.sendHeldReplies := by
  refine Tends.trans (t := { s with heldReplies := [] }) (aside_tends rfl rfl rfl rfl rfl) ?_
  exact Tends.refl.foldl fun u p _ => sendReply_tends u p.1 p.2

theorem forwardFlit_tends (s : State) (i : Nat) (f : FlitRef) : Tends [] s (s.forwardFlit i f) := by
  unfold State.forwardFlit
  dsimp only
  split
  · exact .refl
  · exact .ite ((Tends.refl.modLink i _).trans (enqueue_tends _ _ _)) .refl

theorem forward_tends (s : State) (i : Nat) : Tends [] s (s.forward i) := by
  unfold State.forward
  split
  · exact .refl
  · exact .ite .refl ((Tends.refl.foldl fun u f _ => forwardFlit_tends u i f).modLink i _)

theorem forwardAll_tends (s : State) : Tends [] s s.forwardAll := Tends.refl.foldl fun u i _ => forward_tends u i

theorem putOut_tends (s : State) (x : OutMsg) : Tends [] s (s.putOut x) := aside_tends rfl rfl rfl rfl rfl

theorem modCore_mesh (s : State) (n : Fin 32) (f : MeshFlight) : Hushes [] s (s.modCore n (fun c => c.meshSend f)) where
  mem := rfl
  mesh := fun k => by
    by_cases hk : k = n
    · subst hk
      refine ⟨((s.cores[k]).meshSend f).mesh, ?_⟩
      have hset : (s.modCore k (fun c => c.meshSend f)).cores[k] = (s.cores[k]).meshSend f := by simp [State.modCore, State.setCore]
      rw [hset]
      unfold Core.meshSend
      split <;> rfl
    · have hne : n.val ≠ k.val := fun e => hk (Fin.ext e.symm)
      exact ⟨(s.cores[k]).mesh, by simp [State.modCore, State.setCore, hne]⟩
  sent := Sent.refl s
  canonical := id
  fld := fun _ _ _ _ _ => rfl
  plan := rfl

theorem crossMesh_hushes (s : State) (x : OutMsg) (path : Nat) : Hushes [] s (s.crossMesh x path) := by
  unfold State.crossMesh
  split
  · exact .refl
  · split
    · exact modCore_mesh _ _ _
    · exact .refl

theorem launch_hushes (s : State) (x : OutMsg) : Hushes [] s (s.launch x) := by
  unfold State.launch
  dsimp only
  generalize s.routed x = y
  split
  · next i _ =>
    split
    · refine (putOut_tends s y).hushes.trans ?_
      unfold State.transmit
      exact ((crossMesh_hushes _ y i).trans (Tends.refl.emit _).hushes).trans (enqueue_tends _ _ _).hushes
    · exact (putOut_tends s _).hushes
  · split
    · exact (putOut_tends s y).hushes
    · exact ((putOut_tends s y).raise _ _).hushes

/-- A message for another chip that is sent again is launched. -/
theorem sendAgain_hushes (s : State) {x : OutMsg} (h : x.key.peer ≠ s.chip) : Hushes [] s (s.sendAgain x) := by
  have hlaunch : s.sendAgain x = s.launch { x with retry := false } := if_neg h
  rw [hlaunch]
  exact launch_hushes s _

theorem chip_hushes (w : regsCanonical s) (h : Hushes [] s t) : t.chip = s.chip := h.fld w (apart_nil.mpr (by decide))

/-- A list without its repetitions holds members of the list alone. -/
theorem mem_of_mem_eraseDups {α : Type} [BEq α] {a : α} : ∀ {as : List α}, a ∈ as.eraseDups → a ∈ as
  | [], h => h
  | b :: as, h => by
    rw [List.eraseDups_cons] at h
    rcases List.mem_cons.mp h with rfl | h
    · exact List.mem_cons_self
    · exact List.mem_cons_of_mem _ (List.mem_of_mem_filter (mem_of_mem_eraseDups h))
termination_by as => as.length
decreasing_by exact Nat.lt_succ_of_le (List.length_filter_le _ _)

theorem resendStreams_hushes (w : regsCanonical s) {keys : List StreamKey} (hkeys : ∀ k ∈ keys, k.peer ≠ s.chip) :
    Hushes [] s (s.resendStreams keys) := by
  unfold State.resendStreams
  refine List.foldlRecOn (motive := fun t : State => Hushes [] s t) _ _ .refl fun t ht k hk => ht.trans ?_
  split
  · next y _ =>
    refine List.foldlRecOn (motive := fun u : State => Hushes [] t u) _ _ .refl fun u hu x hx => hu.trans (sendAgain_hushes u ?_)
    have hkey : x.key = k := by
      have h := (List.mem_filter.mp hx).2
      simp only [Bool.and_eq_true, beq_iff_eq] at h
      exact h.1
    rw [hkey, chip_hushes w (ht.trans hu)]
    exact hkeys k (mem_of_mem_eraseDups hk)
  · exact .refl

/-- Changed routes send what waited for them. -/
theorem routesChanged_hushes (w : regsCanonical s) : Hushes [] s s.routesChanged := by
  have hheld := sendHeldReplies_tends s
  unfold State.routesChanged
  refine (hheld.hushes.trans (resendStreams_hushes (hheld.wrote.canonical w) fun k hk => ?_)).trans (forwardAll_tends _).hushes
  obtain ⟨x, hx, rfl⟩ := List.mem_map.mp hk
  have h := (List.mem_filter.mp hx).2
  simp only [Bool.and_eq_true, bne_iff_ne] at h
  rw [chip_hushes w hheld.hushes]
  exact h.1.2

/-! ### Drains that end -/

/-- The fields of lanes and paths that change with their states. -/
def laneFields : List RegField := (List.range 128).flatMap (fun i => [(Csr.optLane i, 63, 60), (Csr.fabPath i, 63, 60), (Csr.fabLcnt i, 63, 48)])

/-- The registers that drains write. -/
def drainFields : List RegField := (Csr.hullStat, 63, 0) :: (List.range 128).flatMap (fun i => [(Csr.optLane i, 63, 60), (Csr.fabPath i, 63, 0), (Csr.fabPath i, 63, 60), (Csr.fabLcnt i, 63, 48)])

theorem mem_drainFields (hi : i < 128) : (Csr.optLane i, 63, 60) ∈ drainFields ∧ (Csr.fabPath i, 63, 0) ∈ drainFields ∧ (Csr.fabPath i, 63, 60) ∈ drainFields ∧
    (Csr.fabLcnt i, 63, 48) ∈ drainFields ∧ (Csr.hullStat, 63, 0) ∈ drainFields := by
  have hmem {f : RegField} (hf : f ∈ [(Csr.optLane i, 63, 60), (Csr.fabPath i, 63, 0), (Csr.fabPath i, 63, 60), (Csr.fabLcnt i, 63, 48)]) : f ∈ drainFields :=
    List.mem_cons_of_mem _ (List.mem_flatMap.mpr ⟨i, List.mem_range.mpr hi, hf⟩)
  exact ⟨hmem (by simp), hmem (by simp), hmem (by simp), hmem (by simp), List.mem_cons_self⟩

theorem rerouteFrom_tends (s : State) (i : Nat) : Tends l s (s.rerouteFrom i) := by
  unfold State.rerouteFrom
  dsimp only
  split
  · exact .refl
  · exact (Tends.refl.foldl fun u x _ => (putOut_tends u _).mono (by simp)).raise _ _

theorem retrainPath_tends (s : State) (hi : i < 128) : Tends drainFields s (s.retrainPath i) := by
  obtain ⟨hlane, -, hpath, hcnt, hstat⟩ := mem_drainFields hi
  unfold State.retrainPath
  dsimp only
  split
  · exact Tends.pathGoesDown (aside_tends rfl rfl rfl rfl rfl) hpath hcnt
  · exact (((Tends.refl.setFld _ (by decide) hpath).modLink i _).beginLock hlane).syncHull hstat

theorem settleDrain_tends (s : State) (hi : i < 128) : Tends drainFields s (s.settleDrain i) := by
  obtain ⟨-, hword, -⟩ := mem_drainFields hi
  unfold State.settleDrain
  dsimp only
  refine Tends.broadcastStates (Tends.trans ?_ (rerouteFrom_tends _ i))
  split
  · exact .refl
  · exact retrainPath_tends s hi
  · exact (Tends.refl.setReg _ hword).modLink i _

theorem settleDrains_hushes (before : State) (w : regsCanonical s) : Hushes drainFields s (before.settleDrains s) := by
  unfold State.settleDrains
  dsimp only
  split
  · exact .refl
  · have hall : Tends drainFields s (((List.range 128).filter (fun i => s.drainedOut i && !before.drainedOut i)).foldl State.settleDrain s) :=
      Tends.refl.foldl fun u i hi => settleDrain_tends u (List.mem_range.mp (List.mem_filter.mp hi).1)
    exact hall.hushes.trans ((routesChanged_hushes (hall.wrote.canonical w)).mono (by simp))

end Sys2Proof.Machine

end

section
/-! PROOFS. Bias samples and spares of lasers (R327, R328). -/

namespace Sys2Proof.Machine

open Sys2Proof.Safety

variable {l : List RegField} {s t u : State} {c i j k : Nat}

/-! ### The registers of lasers -/

/-- The fields of lasers that change with their states. -/
def lasFields : List RegField := (List.range 24).flatMap (fun j => [(Csr.lasStat j, 63, 60), (Csr.lasStat j, 55, 52)])

theorem mem_lasFields (hj : j < 24) : (Csr.lasStat j, 63, 60) ∈ lasFields ∧ (Csr.lasStat j, 55, 52) ∈ lasFields := by
  have hmem {f : RegField} (hf : f ∈ [(Csr.lasStat j, 63, 60), (Csr.lasStat j, 55, 52)]) : f ∈ lasFields :=
    List.mem_flatMap.mpr ⟨j, List.mem_range.mpr hj, hf⟩
  exact ⟨hmem (by simp), hmem (by simp)⟩

theorem lasFields_apart {o hi lo : Nat} (he : o ∉ evtRegs) (h : hi < 52 ∨ ∀ j < 24, o ≠ Csr.lasStat j) : Apart lasFields o hi lo := by
  refine ⟨he, fun f hf => ?_⟩
  obtain ⟨j, hj, hf⟩ := List.mem_flatMap.mp hf
  rcases h with hlow | hne
  · simp only [List.mem_cons, List.not_mem_nil, or_false] at hf
    rcases hf with rfl | rfl
    · exact .inr (.inl (Nat.lt_of_lt_of_le hlow (show 52 ≤ 60 by decide)))
    · exact .inr (.inl hlow)
  · simp only [List.mem_cons, List.not_mem_nil, or_false] at hf
    have hoff := hne j (List.mem_range.mp hj)
    rcases hf with rfl | rfl
    · exact .inl (Ne.symm hoff)
    · exact .inl (Ne.symm hoff)

/-- What a write of the registers of one laser leaves of another's state. -/
theorem lasState_other (h : Wrote [(Csr.lasStat j, 63, 60), (Csr.lasStat j, 55, 52)] s t) (w : regsCanonical s) (hne : i ≠ j) : t.lasState i = s.lasState i :=
  h.fld w (by simp only [apart_cons, apart_nil, Csr.lasStat]; omega)

theorem setLas_state (w : regsCanonical s) {st : Nat} (hst : st < 16) : (s.setFld (Csr.lasStat i) 63 60 st).lasState i = st :=
  Wrote.reads (l := []) .refl w (by decide) hst (by simp only [apart_nil, Csr.lasStat]; omega)

/-! ### Spares are warmed (R328) -/

theorem warmSpare_wrote (s : State) (i k : Nat) : Wrote [(Csr.lasStat i, 63, 60), (Csr.lasStat i, 55, 52)] s (s.warmSpare i k) :=
  (Wrote.refl.setFld _ (by decide) (by simp)).setFld _ (by decide) (by simp)

theorem warmSpare_tends (s : State) (k : Nat) (hi : i < 24) : Tends lasFields s (s.warmSpare i k) := by
  obtain ⟨hstate, hwave⟩ := mem_lasFields hi
  exact (Tends.refl.setFld _ (by decide) hstate).setFld _ (by decide) hwave

/-- A free spare is one of four of its cartridge, and off. -/
theorem freeSpares_off (h : j ∈ s.freeSpares c) : 12 * c + 8 ≤ j ∧ j < 12 * c + 12 ∧ s.lasState j = lasOff := by
  unfold State.freeSpares at h
  split at h
  · obtain ⟨hmem, hfree⟩ := List.mem_filter.mp h
    obtain ⟨q, hq, rfl⟩ := List.mem_map.mp hmem
    have hlt := List.mem_range.mp hq
    simp only [Bool.and_eq_true, beq_iff_eq] at hfree
    exact ⟨by omega, by omega, hfree.1.1⟩
  · exact absurd h List.not_mem_nil

/-- One free spare is assigned, if some laser needs one. -/
def State.assignSpare (c : Nat) (t : State) (i : Nat) : State :=
  match t.worst c (t.wantSpare c) with
  | some k => t.warmSpare i k
  | none => t

theorem assignSpares_eq (s : State) (c : Nat) : s.assignSpares c = (s.freeSpares c).foldl (State.assignSpare c) s := rfl

theorem assignSpare_tends (t : State) (c : Nat) (hi : i < 24) : Tends lasFields t (State.assignSpare c t i) := by
  unfold State.assignSpare
  split
  · exact warmSpare_tends t _ hi
  · exact .refl

theorem assignSpare_lasState (w : regsCanonical t) (c : Nat) (hne : i ≠ j) : (State.assignSpare c t j).lasState i = t.lasState i := by
  unfold State.assignSpare
  split
  · exact lasState_other (warmSpare_wrote t j _) w hne
  · rfl

theorem assignSpares_tends (s : State) (hc : c < 2) : Tends lasFields s (s.assignSpares c) := by
  rw [assignSpares_eq]
  refine Tends.refl.foldl fun u j hj => assignSpare_tends u c ?_
  have h := freeSpares_off hj
  omega

/-- A laser that is not off keeps its state while spares are assigned. -/
theorem assignSpares_lasState (w : regsCanonical s) (hc : c < 2) (hon : s.lasState i ≠ lasOff) : (s.assignSpares c).lasState i = s.lasState i := by
  rw [assignSpares_eq]
  refine (List.foldlRecOn (motive := fun t => regsCanonical t ∧ t.lasState i = s.lasState i) _ _ ⟨w, rfl⟩ fun t ht j hj => ?_).2
  obtain ⟨hlow, hhigh, hoff⟩ := freeSpares_off hj
  have hne : i ≠ j := fun e => hon (e ▸ hoff)
  exact ⟨(assignSpare_tends t c (by omega)).wrote.canonical ht.1, (assignSpare_lasState ht.1 c hne).trans ht.2⟩

theorem exec_spareWarmDone (w : regsCanonical s) (i : Fin 24) (hwarm : s.lasState i.val = lasWarming) :
    ∃ t, exec (.spareWarmDone i) s = .next t ∧ t.lasState i.val = lasStandby ∧ Frame s t [Csr.lasStat i.val] := by
  have hwrote : Wrote [(Csr.lasStat i.val, 63, 60)] s (s.setFld (Csr.lasStat i.val) 63 60 lasStandby) := Wrote.refl.setFld _ (by decide) (by simp)
  exact ⟨_, if_pos hwarm, setLas_state w (by decide), hwrote.frame w (by simp)⟩

/-! ### What bias samples keep -/

/-- From s to t the states of lasers may have changed, memory, cores and bias samples stay. -/
structure Samples (s t : State) : Prop where
  wrote : Wrote lasFields s t
  samples : t.hull.samples = s.hull.samples
  bol : t.hull.bol = s.hull.bol

namespace Samples

theorem refl : Samples s s := ⟨.refl, rfl, rfl⟩

theorem trans (h : Samples s t) (k : Samples t u) : Samples s u := ⟨h.wrote.trans k.wrote, k.samples.trans h.samples, k.bol.trans h.bol⟩

theorem of_tends (h : Tends lasFields s t) : Samples s t :=
  ⟨h.wrote, congrArg (fun p => p.2.2.1) h.plan, congrArg (fun p => p.2.2.2.1) h.plan⟩

theorem setLas (h : Samples s t) (st : Nat) (hj : j < 24) : Samples s (t.setFld (Csr.lasStat j) 63 60 st) :=
  h.trans (of_tends (Tends.refl.setFld st (by decide) (mem_lasFields hj).1))

theorem raise (h : Samples s t) (code : Nat) (r : List Word) : Samples s (t.raise code r) := h.trans (of_tends (Tends.refl.raise code r))

theorem queueSwap (h : Samples s t) (i : Nat) (paths : List Nat) : Samples s (t.queueSwap i paths) := by
  refine h.trans ?_
  unfold State.queueSwap
  split
  · exact .refl
  · exact ⟨Wrote.refl.aside rfl rfl rfl rfl, rfl, rfl⟩

theorem ratio (h : Samples s t) (i p : Nat) : t.ratioAtLeast i p = s.ratioAtLeast i p := by
  unfold State.ratioAtLeast
  rw [h.samples, h.bol]

end Samples

theorem queueSwap_lasState (s : State) (i : Nat) (paths : List Nat) (j : Nat) : (s.queueSwap i paths).lasState j = s.lasState j := by
  unfold State.queueSwap
  split <;> rfl

theorem assignedSpare_lt (hc : c < 2) (h : s.assignedSpare c k = some j) : j < 24 := by
  have hmem := List.mem_of_find?_eq_some h
  obtain ⟨q, hq, rfl⟩ := List.mem_map.mp hmem
  have hlt := List.mem_range.mp hq
  omega

/-! ### The thresholds (R327) -/

/-- A laser's life has ended. -/
def State.lifeEnds (s : State) (i : Nat) : State := ((s.setFld (Csr.lasStat i) 63 60 lasEol).raise 0x45 [BitVec.ofNat 64 i]).queueSwap i []

/-- A laser below its end of life is ACTIVE or at the warning. -/
def State.warns (s : State) (i st : Nat) : State :=
  if s.ratioAtLeast i 120 then
    if st = lasActive then (s.setFld (Csr.lasStat i) 63 60 lasWarn).raise 0x43 [BitVec.ofNat 64 i]
    else if st = lasWorn && !s.ratioAtLeast i 135 then s.setFld (Csr.lasStat i) 63 60 lasWarn else s
  else s.setFld (Csr.lasStat i) 63 60 lasActive

/-- The spare of a laser that no longer needs it is off again. -/
def State.sparesBack (s : State) (c k i : Nat) : State :=
  match s.assignedSpare c k with
  | some j => if s.ratioAtLeast i 115 then s else s.setFld (Csr.lasStat j) 63 60 lasOff
  | none => s

/-- A laser at the swap threshold is swapped, or worn without a spare. -/
def State.swapsAt (s : State) (c k i : Nat) (auto : Bool) : State :=
  if !s.ratioAtLeast i 135 then s
  else
    match s.assignedSpare c k with
    | some j => if auto && s.lasState j == lasStandby then s.queueSwap i [] else s
    | none => if s.lasState i = lasWorn then s else (s.setFld (Csr.lasStat i) 63 60 lasWorn).raise 0x4D [BitVec.ofNat 64 i]

theorem biasState_eq (s : State) (c k i : Nat) (low : Bool) : s.biasState c k i low =
    if s.lasState i = lasEol then s else if s.ratioAtLeast i 150 || low then s.lifeEnds i
    else (((s.warns i (s.lasState i)).sparesBack c k i).assignSpares c).swapsAt c k i ((s.reg Csr.hullCtl).bit 8) := rfl

theorem lifeEnds_samples (s : State) (hi : i < 24) : Samples s (s.lifeEnds i) := ((Samples.refl.setLas _ hi).raise _ _).queueSwap _ _

theorem warns_samples (s : State) (st : Nat) (hi : i < 24) : Samples s (s.warns i st) := by
  unfold State.warns
  split
  · split
    · exact (Samples.refl.setLas _ hi).raise _ _
    · split
      · exact Samples.refl.setLas _ hi
      · exact .refl
  · exact Samples.refl.setLas _ hi

theorem sparesBack_samples (s : State) (k i : Nat) (hc : c < 2) : Samples s (s.sparesBack c k i) := by
  unfold State.sparesBack
  split
  · next j hj =>
    split
    · exact .refl
    · exact Samples.refl.setLas _ (assignedSpare_lt hc hj)
  · exact .refl

theorem swapsAt_samples (s : State) (c k : Nat) (auto : Bool) (hi : i < 24) : Samples s (s.swapsAt c k i auto) := by
  unfold State.swapsAt
  split
  · exact .refl
  · split
    · split
      · exact Samples.refl.queueSwap _ _
      · exact .refl
    · split
      · exact .refl
      · exact (Samples.refl.setLas _ hi).raise _ _

theorem biasState_samples (s : State) (k : Nat) (low : Bool) (hc : c < 2) (hi : i < 24) : Samples s (s.biasState c k i low) := by
  rw [biasState_eq]
  split
  · exact .refl
  · split
    · exact lifeEnds_samples s hi
    · exact (((warns_samples s _ hi).trans (sparesBack_samples _ k i hc)).trans (.of_tends (assignSpares_tends _ hc))).trans (swapsAt_samples _ c k _ hi)

theorem raise_lasState (w : regsCanonical s) (code : Nat) (r : List Word) (i : Nat) : (s.raise code r).lasState i = s.lasState i :=
  (Wrote.refl (l := [])).raise code r |>.fld w (by simp only [apart_nil, Csr.lasStat]; omega)

theorem lifeEnds_leaves (w : regsCanonical s) : (s.lifeEnds i).lasState i = lasEol ∧ Raised (s.lifeEnds i) 0x45 0 := by
  have hset : Wrote [(Csr.lasStat i, 63, 60)] s (s.setFld (Csr.lasStat i) 63 60 lasEol) := Wrote.refl.setFld _ (by decide) (by simp)
  refine ⟨?_, ?_⟩
  · unfold State.lifeEnds
    rw [queueSwap_lasState, raise_lasState (hset.canonical w), setLas_state w (by decide)]
  · have hraised : Raised ((s.setFld (Csr.lasStat i) 63 60 lasEol).raise 0x45 [BitVec.ofNat 64 i]) 0x45 0 := raised_raise _ _ _
    unfold State.lifeEnds State.queueSwap
    split
    · exact hraised
    · exact hraised

/-- A laser whose life ends, or has ended, is at its end of life. -/
theorem biasState_ends (w : regsCanonical s) {low : Bool} (hend : s.ratioAtLeast i 150 = true ∨ low = true) :
    (s.biasState c k i low).lasState i = lasEol ∧ (s.lasState i ≠ lasEol → Raised (s.biasState c k i low) 0x45 0) := by
  rw [biasState_eq]
  split
  · next heol => exact ⟨heol, fun hne => absurd heol hne⟩
  · rw [if_pos (by simpa using hend)]
    obtain ⟨hstate, hraised⟩ := lifeEnds_leaves w (i := i)
    exact ⟨hstate, fun _ => hraised⟩

theorem swapsAt_lasState (w : regsCanonical s) (c k : Nat) (auto : Bool) (hwarn : s.lasState i = lasWarn) :
    ((s.swapsAt c k i auto).lasState i = lasWarn ∨ (s.swapsAt c k i auto).lasState i = lasWorn) ∧ Sent s (s.swapsAt c k i auto) := by
  have hset : Wrote [(Csr.lasStat i, 63, 60)] s (s.setFld (Csr.lasStat i) 63 60 lasWorn) := Wrote.refl.setFld _ (by decide) (by simp)
  unfold State.swapsAt
  split
  · exact ⟨.inl hwarn, Sent.refl s⟩
  · split
    · split
      · exact ⟨.inl ((queueSwap_lasState s i [] i).trans hwarn), (Samples.refl.queueSwap (s := s) i []).wrote.sent⟩
      · exact ⟨.inl hwarn, Sent.refl s⟩
    · split
      · exact ⟨.inl hwarn, Sent.refl s⟩
      · refine ⟨.inr ?_, (hset.raise _ _).sent⟩
        rw [raise_lasState (hset.canonical w), setLas_state w (by decide)]

/-- An ACTIVE laser at the warning is told, and its spare stays. -/
theorem biasState_warns (w : regsCanonical s) {low : Bool} (hc : c < 2) (hi : i < 24) (hactive : s.lasState i = lasActive)
    (hlow : low = false) (h150 : s.ratioAtLeast i 150 = false) (h120 : s.ratioAtLeast i 120 = true) (h115 : s.ratioAtLeast i 115 = true) :
    ((s.biasState c k i low).lasState i = lasWarn ∨ (s.biasState c k i low).lasState i = lasWorn) ∧ Raised (s.biasState c k i low) 0x43 0 := by
  let a := (s.setFld (Csr.lasStat i) 63 60 lasWarn).raise 0x43 [BitVec.ofNat 64 i]
  have ha : Samples s a := (Samples.refl.setLas _ hi).raise _ _
  have hset : Wrote [(Csr.lasStat i, 63, 60)] s (s.setFld (Csr.lasStat i) 63 60 lasWarn) := Wrote.refl.setFld _ (by decide) (by simp)
  have hstate : a.lasState i = lasWarn := by
    rw [raise_lasState (hset.canonical w), setLas_state w (by decide)]
  have hraised : Raised a 0x43 0 := raised_raise _ _ _
  have hwarns : s.warns i (s.lasState i) = a := by
    unfold State.warns
    rw [if_pos h120, if_pos hactive]
  have hback : a.sparesBack c k i = a := by
    unfold State.sparesBack
    split
    · exact if_pos ((ha.ratio i 115).trans h115)
    · rfl
  have hassign := assignSpares_tends a hc
  have hkept : (a.assignSpares c).lasState i = lasWarn :=
    (assignSpares_lasState (ha.wrote.canonical w) hc (by rw [hstate]; decide)).trans hstate
  rw [biasState_eq, if_neg (by rw [hactive]; decide), if_neg (by simp [h150, hlow]), hwarns, hback]
  obtain ⟨hlast, hsent⟩ := swapsAt_lasState (hassign.wrote.canonical (ha.wrote.canonical w)) c k ((s.reg Csr.hullCtl).bit 8) hkept
  exact ⟨hlast, Raised.sent hraised (hassign.wrote.sent.trans hsent)⟩

/-! ### A bias sample (R327, R341) -/

/-- The samples of a laser with one more. -/
def State.withSample (s : State) (i : Fin 24) (bias : BitVec 16) : List Nat :=
  ((min (2 * bias.toNat) (3 * s.hull.bol.toList.getD i.val 0)) :: s.hull.samples.toList.getD i.val []).take 60

/-- A sample has been taken and is shown. -/
def State.biasSampled (s : State) (i : Fin 24) (bias power offset : BitVec 16) (temp : BitVec 8) : State :=
  let a : State := { s with hull := { s.hull with samples := s.hull.samples.set i.val (s.withSample i bias) } }
  let b := a.setReg (Csr.lasBias i.val) (biasWord (s.hull.bol.toList.getD i.val 0) (s.withSample i bias) power)
  (b.setFld (Csr.lasStat i.val) 31 16 offset.toNat).setFld (Csr.lasStat i.val) 15 8 temp.toNat

/-- A sample is compared with the thresholds of the laser's wavelength. -/
def State.compared (s : State) (i : Fin 24) (low : Bool) : State :=
  match s.waveOf (i.val / 12) (i.val - 12 * (i.val / 12)) with
  | some k => s.biasState (i.val / 12) k i.val low
  | none => s

theorem compared_eq (s : State) (i : Fin 24) (low : Bool) :
    (match s.waveOf (i.val / 12) (i.val - 12 * (i.val / 12)) with
      | some k => Host.Outcome.next (s.biasState (i.val / 12) k i.val low).syncHull
      | none => .next s.syncHull) = (.next (s.compared i low).syncHull : Host.Outcome State Fault Refusal) := by
  unfold State.compared
  cases s.waveOf (i.val / 12) (i.val - 12 * (i.val / 12)) with
  | some k => rfl
  | none => rfl

theorem exec_biasSample {i : Fin 24} (bias power offset : BitVec 16) (temp : BitVec 8) (hpower : s.pins.pwrGood = true) (hgood : s.cartGood (i.val / 12) = true)
    (hoff : s.lasState i.val ≠ lasOff) (hret : s.lasState i.val ≠ lasRetired) (hfail : s.lasState i.val ≠ lasFailed) :
    exec (.biasSample i bias power offset temp) s =
      .next ((s.biasSampled i bias power offset temp).compared i (decide (power.toInt < -150))).syncHull := by
  have hexec : exec (.biasSample i bias power offset temp) s = _ := if_neg (by simp [hpower, hgood, hoff, hret, hfail])
  exact hexec.trans (compared_eq (s.biasSampled i bias power offset temp) i (decide (power.toInt < -150)))

theorem compared_samples (s : State) (i : Fin 24) (low : Bool) : Samples s (s.compared i low) := by
  unfold State.compared
  split
  · exact biasState_samples s _ low (by omega) i.isLt
  · exact .refl

/-- The fields that a sample writes. -/
def sampleFields (i : Nat) : List RegField := [(Csr.lasBias i, 63, 0), (Csr.lasStat i, 31, 16), (Csr.lasStat i, 15, 8)]

theorem biasSampled_wrote (s : State) (i : Fin 24) (bias power offset : BitVec 16) (temp : BitVec 8) :
    Wrote (sampleFields i.val) s (s.biasSampled i bias power offset temp) :=
  (((Wrote.refl.hull _).setReg _ (by simp [sampleFields])).setFld _ (by decide) (by simp [sampleFields])).setFld _ (by decide) (by simp [sampleFields])

theorem biasSampled_samples (s : State) (i : Fin 24) (bias power offset : BitVec 16) (temp : BitVec 8) :
    (s.biasSampled i bias power offset temp).hull.samples[i] = s.withSample i bias ∧ (s.biasSampled i bias power offset temp).hull.bol = s.hull.bol :=
  ⟨Vector.getElem_set_self .., rfl⟩

theorem biasWord_power (bol : Nat) (l : List Nat) (power : BitVec 16) : (biasWord bol l power).field 15 0 = power.toNat := by
  have hlow := Word.field_place power.toNat 15 0 (by decide)
  rw [show (15 + 1 - 0 : Nat) = 16 from rfl] at hlow
  unfold biasWord
  rw [Word.field_or, Word.field_or, Word.field_or, Word.field_place_apart _ 16 48 15 0 (.inl (by decide)), Word.field_place_apart _ 16 32 15 0 (.inl (by decide)),
    Word.field_place_apart _ 16 16 15 0 (.inl (by decide)), hlow, Nat.mod_eq_of_lt power.isLt]
  simp

theorem biasSampled_shows (w : regsCanonical s) (i : Fin 24) (bias power offset : BitVec 16) (temp : BitVec 8) :
    (s.biasSampled i bias power offset temp).fld (Csr.lasBias i.val) 15 0 = power.toNat ∧
      (s.biasSampled i bias power offset temp).fld (Csr.lasStat i.val) 31 16 = offset.toNat ∧
      (s.biasSampled i bias power offset temp).fld (Csr.lasStat i.val) 15 8 = temp.toNat := by
  let a : State := { s with hull := { s.hull with samples := s.hull.samples.set i.val (s.withSample i bias) } }
  let b := a.setReg (Csr.lasBias i.val) (biasWord (s.hull.bol.toList.getD i.val 0) (s.withSample i bias) power)
  let d := b.setFld (Csr.lasStat i.val) 31 16 offset.toNat
  have wa : regsCanonical a := w
  have hb : Wrote [(Csr.lasBias i.val, 63, 0)] a b := Wrote.refl.setReg _ (by simp)
  have hd : Wrote [(Csr.lasStat i.val, 31, 16)] b d := Wrote.refl.setFld _ (by decide) (by simp)
  have ht : Wrote [(Csr.lasStat i.val, 15, 8)] d (s.biasSampled i bias power offset temp) := Wrote.refl.setFld _ (by decide) (by simp)
  have wb := hb.canonical wa
  refine ⟨?_, ht.reads wb (by decide) offset.isLt (by simp only [apart_cons, apart_nil, Csr.lasStat]; omega),
    Wrote.reads (l := []) .refl (hd.canonical wb) (by decide) temp.isLt (by simp only [apart_nil, Csr.lasStat]; omega)⟩
  rw [(hd.append ht).fld wb (by simp only [List.cons_append, List.nil_append, apart_cons, apart_nil, Csr.lasBias, Csr.lasStat]; omega), State.fld,
    State.reg_setReg a _ _ _ wa, if_pos rfl]
  exact biasWord_power _ _ _

/-- The ratio as the statement of a sample speaks of it. -/
theorem biasSampled_ratio (s : State) (i : Fin 24) (bias power offset : BitVec 16) (temp : BitVec 8) (p : Nat) :
    (s.biasSampled i bias power offset temp).ratioAtLeast i.val p = decide (2 * p * s.hull.bol[i] * (s.withSample i bias).length ≤ 100 * (s.withSample i bias).sum) := by
  obtain ⟨hsamples, hbol⟩ := biasSampled_samples s i bias power offset temp
  have hget {α : Type} (v : Vector α 24) (d : α) : v.toList.getD i.val d = v[i] := by simp
  unfold State.ratioAtLeast
  rw [hget, hget, hsamples, hbol]

theorem withSample_eq (s : State) (i : Fin 24) (bias : BitVec 16) :
    s.withSample i bias = ((min (2 * bias.toNat) (3 * s.hull.bol[i])) :: s.hull.samples[i]).take 60 := by
  simp [State.withSample]

theorem syncHull_wrote (s : State) : Wrote [(Csr.hullStat, 63, 0)] s s.syncHull := Wrote.refl.syncHull (by simp)

theorem syncHull_lasState (w : regsCanonical s) (i : Nat) : s.syncHull.lasState i = s.lasState i :=
  (syncHull_wrote s).fld w (by simp only [apart_cons, apart_nil, Csr.lasStat, Csr.hullStat]; omega)

theorem biasSampled_waveOf (w : regsCanonical s) (i : Fin 24) (bias power offset : BitVec 16) (temp : BitVec 8) (m : Nat) :
    (s.biasSampled i bias power offset temp).waveOf (i.val / 12) m = s.waveOf (i.val / 12) m := by
  unfold State.waveOf
  refine congrArg (fun p => (List.range 8).find? p) (funext fun k => ?_)
  rw [show (s.biasSampled i bias power offset temp).feed (i.val / 12) k = s.feed (i.val / 12) k from (biasSampled_wrote s i bias power offset temp).fld w
    (by simp only [sampleFields, apart_cons, apart_nil, Csr.lasStat, Csr.lasBias, Csr.cartWmap]; omega)]

theorem biasSample_leaves (w : regsCanonical s) {i : Fin 24} (bias power offset : BitVec 16) (temp : BitVec 8) (hpower : s.pins.pwrGood = true)
    (hgood : s.cartGood (i.val / 12) = true) (hoff : s.lasState i.val ≠ lasOff) (hret : s.lasState i.val ≠ lasRetired) (hfail : s.lasState i.val ≠ lasFailed) :
    let l := ((min (2 * bias.toNat) (3 * s.hull.bol[i])) :: s.hull.samples[i]).take 60
    let reaches (p : Nat) : Prop := 2 * p * s.hull.bol[i] * l.length ≤ 100 * l.sum
    ∃ t, exec (.biasSample i bias power offset temp) s = .next t ∧ (SameMemory s t ∧ t.cores = s.cores) ∧ t.hull.samples[i] = l ∧
      t.fld (Csr.lasBias i.val) 15 0 = power.toNat ∧ t.fld (Csr.lasStat i.val) 31 16 = offset.toNat ∧ t.fld (Csr.lasStat i.val) 15 8 = temp.toNat ∧
      ((s.waveOf (i.val / 12) (i.val % 12)).isSome = true →
        (power.toInt < -150 ∨ reaches 150 → t.lasState i.val = lasEol ∧ (s.lasState i.val ≠ lasEol → Raised t 0x45 0)) ∧
        (-150 ≤ power.toInt → ¬ reaches 150 → reaches 120 → s.lasState i.val = lasActive →
          (t.lasState i.val = lasWarn ∨ t.lasState i.val = lasWorn) ∧ Raised t 0x43 0)) := by
  intro l reaches
  have hexec := exec_biasSample (offset := offset) (temp := temp) bias power hpower hgood hoff hret hfail
  have hsampled := biasSampled_wrote s i bias power offset temp
  obtain ⟨hnow, -⟩ := biasSampled_samples s i bias power offset temp
  obtain ⟨hbias, hofs, htemp⟩ := biasSampled_shows w i bias power offset temp
  have hwave := biasSampled_waveOf w i bias power offset temp
  have hratio := biasSampled_ratio s i bias power offset temp
  rw [withSample_eq] at hnow hratio
  have hstate : (s.biasSampled i bias power offset temp).lasState i.val = s.lasState i.val :=
    hsampled.fld w (by simp only [sampleFields, apart_cons, apart_nil, Csr.lasStat, Csr.lasBias]; omega)
  generalize s.biasSampled i bias power offset temp = a at hexec hsampled hnow hbias hofs htemp hwave hratio hstate
  have wa := hsampled.canonical w
  have hcomp := compared_samples a i (decide (power.toInt < -150))
  have hsync := syncHull_wrote (a.compared i (decide (power.toInt < -150)))
  have hplan : (a.compared i (decide (power.toInt < -150))).syncHull.hull.samples = a.hull.samples :=
    (congrArg (fun p => p.2.2.1) ((Tends.refl (l := [(Csr.hullStat, 63, 0)])).syncHull (by simp)).plan).trans hcomp.samples
  have hlow {o hi lo : Nat} (he : o ∉ evtRegs) (hhi : hi < 52) (ho : o ≠ Csr.hullStat) :
      (a.compared i (decide (power.toInt < -150))).syncHull.fld o hi lo = a.fld o hi lo :=
    (hcomp.wrote.append hsync).fld wa (apart_append.mpr ⟨lasFields_apart he (.inl hhi), he, fun f hf => .inl (by simpa [List.mem_singleton.mp hf] using ho.symm)⟩)
  have hplain : Csr.lasBias i.val ∉ evtRegs ∧ Csr.lasStat i.val ∉ evtRegs ∧ Csr.lasBias i.val ≠ Csr.hullStat ∧ Csr.lasStat i.val ≠ Csr.hullStat := by
    simp only [not_mem_evtRegs, Csr.lasBias, Csr.lasStat, Csr.hullStat]
    omega
  obtain ⟨he, he', hne, hne'⟩ := hplain
  have hall := hsampled.append (hcomp.wrote.append hsync)
  refine ⟨_, hexec, ⟨hall.sameMemory, hall.cores⟩, by rw [hplan]; exact hnow, (hlow he (by decide) hne).trans hbias, (hlow he' (by decide) hne').trans hofs,
    (hlow he' (by decide) hne').trans htemp, fun hsome => ?_⟩
  obtain ⟨k, hk⟩ := Option.isSome_iff_exists.mp hsome
  have hcompared : a.compared i (decide (power.toInt < -150)) = a.biasState (i.val / 12) k i.val (decide (power.toInt < -150)) := by
    unfold State.compared
    rw [hwave, show i.val - 12 * (i.val / 12) = i.val % 12 by omega, hk]
  have wc := hcomp.wrote.canonical wa
  rw [syncHull_lasState wc]
  rw [hcompared] at hsync ⊢
  refine ⟨fun hend => ?_, fun hhigh h150 h120 hactive => ?_⟩
  · obtain ⟨heol, hraised⟩ := biasState_ends (c := i.val / 12) (k := k) (i := i.val) (low := decide (power.toInt < -150)) wa (by
      rw [hratio]
      exact hend.symm.imp decide_eq_true decide_eq_true)
    exact ⟨heol, fun hne => hsync.raised (hraised (hstate.symm ▸ hne))⟩
  · have h115 : reaches 115 := by
      have h : 2 * 120 * s.hull.bol[i] * l.length ≤ 100 * l.sum := h120
      have hle : 2 * 115 * s.hull.bol[i] * l.length ≤ 2 * 120 * s.hull.bol[i] * l.length := by gcongr; decide
      exact hle.trans h
    obtain ⟨hwarn, hraised⟩ := biasState_warns (c := i.val / 12) (k := k) (i := i.val) (low := decide (power.toInt < -150)) wa (by omega) i.isLt
      (hstate.trans hactive) (by simpa using hhigh) (by rw [hratio]; exact decide_eq_false h150) (by rw [hratio]; exact decide_eq_true h120)
      (by rw [hratio]; exact decide_eq_true h115)
    exact ⟨hwarn, hsync.raised hraised⟩

end Sys2Proof.Machine

end

section
/-! PROOFS. Swaps of lasers: the feed of a wavelength, the loss of its lanes, and how a swap begins (R329 to R332). -/

namespace Sys2Proof.Machine

open Sys2Proof.Safety

variable {l : List RegField} {s t u : State} {c i j k : Nat}

/-! ### The swap of a cartridge, and the queue -/

theorem swap?_plan (h : t.lasPlan = s.lasPlan) (c : Nat) : t.swap? c = s.swap? c := by
  unfold State.swap?
  rw [show t.hull.swaps = s.hull.swaps from congrArg (fun p => p.1) h]

theorem queued_plan (h : t.lasPlan = s.lasPlan) : t.hull.queued = s.hull.queued := congrArg (fun p => p.2.1) h

theorem outOfUse_plan (h : t.lasPlan = s.lasPlan) : t.flash.outOfUse = s.flash.outOfUse := congrArg (fun p => p.2.2.2.2) h

theorem setSwap_swap (s : State) (hc : c < 2) (w : Option Swap) : (s.setSwap c w).swap? c = w := by
  simp [State.swap?, State.setSwap, hc]

theorem setSwap_wrote (s : State) (c : Nat) (w : Option Swap) : Wrote l s (s.setSwap c w) := Wrote.refl.aside rfl rfl rfl rfl

/-! ### The fields of lanes and paths -/

theorem mem_laneFields (hi : i < 128) : (Csr.optLane i, 63, 60) ∈ laneFields ∧ (Csr.fabPath i, 63, 60) ∈ laneFields ∧ (Csr.fabLcnt i, 63, 48) ∈ laneFields := by
  have hmem {f : RegField} (hf : f ∈ [(Csr.optLane i, 63, 60), (Csr.fabPath i, 63, 60), (Csr.fabLcnt i, 63, 48)]) : f ∈ laneFields :=
    List.mem_flatMap.mpr ⟨i, List.mem_range.mpr hi, hf⟩
  exact ⟨hmem (by simp), hmem (by simp), hmem (by simp)⟩

theorem laneFields_apart {o hi lo : Nat} (he : o ∉ evtRegs) (h : hi < 48 ∨ ∀ j < 128, o ≠ Csr.optLane j ∧ o ≠ Csr.fabPath j ∧ o ≠ Csr.fabLcnt j) :
    Apart laneFields o hi lo := by
  refine ⟨he, fun f hf => ?_⟩
  obtain ⟨j, hj, hf⟩ := List.mem_flatMap.mp hf
  simp only [List.mem_cons, List.not_mem_nil, or_false] at hf
  rcases h with hlow | hne
  · rcases hf with rfl | rfl | rfl
    · exact .inr (.inl (Nat.lt_of_lt_of_le hlow (show 48 ≤ 60 by decide)))
    · exact .inr (.inl (Nat.lt_of_lt_of_le hlow (show 48 ≤ 60 by decide)))
    · exact .inr (.inl hlow)
  · obtain ⟨h1, h2, h3⟩ := hne j (List.mem_range.mp hj)
    rcases hf with rfl | rfl | rfl
    · exact .inl (Ne.symm h1)
    · exact .inl (Ne.symm h2)
    · exact .inl (Ne.symm h3)

/-- Lanes and paths lie apart from the registers of cartridges and lasers. -/
theorem laneFields_laser (hj : j < 24) (hi lo : Nat) : Apart laneFields (Csr.lasStat j) hi lo := by
  refine laneFields_apart (not_mem_evtRegs.mpr ?_) (.inr fun n hn => ?_)
  · simp only [Csr.lasStat]
    omega
  · simp only [Csr.lasStat, Csr.optLane, Csr.fabPath, Csr.fabLcnt]
    omega

theorem laneFields_cart (hc : c < 2) (hi lo : Nat) : Apart laneFields (Csr.cartInfo c) hi lo ∧ Apart laneFields (Csr.cartWmap c) hi lo := by
  refine ⟨laneFields_apart (not_mem_evtRegs.mpr ?_) (.inr fun n hn => ?_), laneFields_apart (not_mem_evtRegs.mpr ?_) (.inr fun n hn => ?_)⟩
  · simp only [Csr.cartInfo]
    omega
  · simp only [Csr.cartInfo, Csr.optLane, Csr.fabPath, Csr.fabLcnt]
    omega
  · simp only [Csr.cartWmap]
    omega
  · simp only [Csr.cartWmap, Csr.optLane, Csr.fabPath, Csr.fabLcnt]
    omega

theorem waveLanes_lt (h : i ∈ s.waveLanes c k) : i < 128 := List.mem_range.mp (List.mem_filter.mp h).1

/-- Lanes that keep their states are the lanes of their wavelength still. -/
theorem waveLanes_congr (h : ∀ i, t.laneState i = s.laneState i) (c k : Nat) : t.waveLanes c k = s.waveLanes c k := by
  unfold State.waveLanes
  simp only [h]

/-! ### The loss of a wavelength's lanes -/

/-- A lane loses lock and light. -/
def State.laneLost (t : State) (i : Nat) : State :=
  if t.laneState i = laneDark ∨ t.laneState i = laneOff then t
  else (if t.laneState i = laneLocked then (t.laneTo i laneOff).raise 0x47 [Word.place i 8 0] else t.laneTo i laneOff).takeDown i

theorem waveLost_eq (s : State) (c k : Nat) : s.waveLost c k = (s.waveLanes c k).foldl State.laneLost s := rfl

theorem laneLost_tends (t : State) (hi : i < 128) : Tends laneFields t (t.laneLost i) := by
  obtain ⟨hlane, hpath, hcnt⟩ := mem_laneFields hi
  have hoff : Tends laneFields t (t.laneTo i laneOff) := Tends.refl.laneTo _ hlane
  exact .ite .refl ((Tends.ite (hoff.raise _ _) hoff).takeDown hpath hcnt)

theorem waveLost_tends (s : State) (c k : Nat) : Tends laneFields s (s.waveLost c k) := by
  rw [waveLost_eq]
  exact Tends.refl.foldl fun u i hi => laneLost_tends u (waveLanes_lt hi)

/-- What is written of other lanes leaves a lane's state. -/
theorem laneState_other (h : Wrote [(Csr.optLane j, 63, 60), (Csr.fabPath j, 63, 60), (Csr.fabLcnt j, 63, 48)] s t) (w : regsCanonical s)
    (hne : i ≠ j) (hi : i < 128) (hj : j < 128) : t.laneState i = s.laneState i :=
  h.fld w (by simp only [apart_cons, apart_nil, Csr.optLane, Csr.fabPath, Csr.fabLcnt]; omega)

theorem laneLost_wrote (t : State) (i : Nat) : Wrote [(Csr.optLane i, 63, 60), (Csr.fabPath i, 63, 60), (Csr.fabLcnt i, 63, 48)] t (t.laneLost i) := by
  have hoff : Wrote [(Csr.optLane i, 63, 60), (Csr.fabPath i, 63, 60), (Csr.fabLcnt i, 63, 48)] t (t.laneTo i laneOff) := Wrote.refl.laneTo _ (by simp)
  exact .ite .refl ((Wrote.ite (hoff.raise _ _) hoff).takeDown (by simp) (by simp))

/-- A lane that is lost is OFF, unless it is DARK. -/
theorem laneLost_state (w : regsCanonical t) (hi : i < 128) : (t.laneLost i).laneState i = laneOff ∨ (t.laneLost i).laneState i = t.laneState i := by
  have hoff : Wrote [(Csr.optLane i, 63, 60)] t (t.laneTo i laneOff) := Wrote.refl.laneTo _ (by simp)
  let a := if t.laneState i = laneLocked then (t.laneTo i laneOff).raise 0x47 [Word.place i 8 0] else t.laneTo i laneOff
  have ha : Wrote [(Csr.fabPath i, 63, 60), (Csr.fabLcnt i, 63, 48)] (t.laneTo i laneOff) (a.takeDown i) :=
    (Wrote.ite (Wrote.refl.raise _ _) .refl).takeDown (by simp) (by simp)
  by_cases hdark : t.laneState i = laneDark ∨ t.laneState i = laneOff
  · exact .inr (by rw [State.laneLost, if_pos hdark])
  · refine .inl ?_
    rw [State.laneLost, if_neg hdark]
    exact (ha.fld (hoff.canonical w) (by simp only [apart_cons, apart_nil, Csr.optLane, Csr.fabPath, Csr.fabLcnt]; omega)).trans (laneTo_state w (by decide))

/-- Lost lanes are present still. -/
theorem waveLost_present (w : regsCanonical s) (hi : i < 128) (h : s.laneState i ≠ laneAbsent) : (s.waveLost c k).laneState i ≠ laneAbsent := by
  rw [waveLost_eq]
  refine (List.foldlRecOn (motive := fun t => regsCanonical t ∧ t.laneState i ≠ laneAbsent) _ _ ⟨w, h⟩ fun t ht j hj => ?_).2
  have hj' := waveLanes_lt hj
  refine ⟨(laneLost_wrote t j).canonical ht.1, ?_⟩
  by_cases hij : i = j
  · subst hij
    rcases laneLost_state ht.1 hi with he | he
    · rw [he]
      decide
    · rw [he]
      exact ht.2
  · rw [laneState_other (laneLost_wrote t j) ht.1 hij hi hj']
    exact ht.2

/-! ### A swap begins (R329 to R332) -/

theorem modLinks_tends (s : State) (ps : List Nat) (f : Link → Link) : Tends l s (ps.foldl (fun (t : State) p => t.modLink p f) s) :=
  Tends.refl.foldl fun _ p _ => Tends.refl.modLink p f

theorem sendNotice_tends (s : State) (leaving : BitVec 128) : Tends l s (s.sendNotice leaving) :=
  .ite (Tends.refl.foldl fun _ _ _ => Tends.refl.emit _) .refl

/-- The record of a swap that begins. -/
def swapBegun (i k : Nat) (spare : Option Nat) (planned : Bool) (paths : List Nat) : Swap :=
  { laser := i, spare := spare, wave := k, stage := if planned then 0 else 1, planned := planned, paths := paths, uncorr := [] }

/-- The swap of a laser has its record, and waits no longer. -/
def State.swapRecorded (s : State) (c k i : Nat) (spare : Option Nat) (planned : Bool) (lost : List Nat) : State :=
  (s.unqueue i).setSwap c (some (swapBegun i k spare planned (s.wavePaths c k ++ lost).eraseDups))

theorem startSwap_eq (s : State) (c k i : Nat) (spare : Option Nat) (planned : Bool) (lost : List Nat) : s.startSwap c k i spare planned lost =
    if planned then
      (s.unqueue i).settleDrains ((((s.wavePaths c k ++ lost).eraseDups.foldl (fun (t : State) p => t.modLink p (fun l => { l with draining := true }))
        (s.swapRecorded c k i spare planned lost))).sendNotice
          (((s.wavePaths c k ++ lost).eraseDups.foldl (fun (t : State) p => t.modLink p (fun l => { l with draining := true }))
            (s.swapRecorded c k i spare planned lost)).leavingMask c k))
    else (s.swapRecorded c k i spare planned lost).waveLost c k := rfl

/-- A swap without a drain takes the lanes down. -/
theorem startSwap_unplanned (s : State) (c k i : Nat) (spare : Option Nat) (lost : List Nat) :
    Tends laneFields (s.swapRecorded c k i spare false lost) (s.startSwap c k i spare false lost) := waveLost_tends _ c k

/-- Beyond its record a swap that begins changes lanes, paths and what is on the mesh. -/
theorem startSwap_hushes (w : regsCanonical s) (c k i : Nat) (spare : Option Nat) (planned : Bool) (lost : List Nat) :
    Hushes (laneFields ++ drainFields) (s.swapRecorded c k i spare planned lost) (s.startSwap c k i spare planned lost) := by
  have wr : regsCanonical (s.swapRecorded c k i spare planned lost) := w
  cases planned with
  | false => exact (startSwap_unplanned s c k i spare lost).hushes.mono fun _ hf => List.mem_append_left _ hf
  | true =>
    rw [startSwap_eq, if_pos rfl]
    generalize s.swapRecorded c k i spare true lost = a at wr
    have hlinks := modLinks_tends (l := []) a (s.wavePaths c k ++ lost).eraseDups (fun l => { l with draining := true })
    generalize (s.wavePaths c k ++ lost).eraseDups.foldl (fun (t : State) p => t.modLink p (fun l => { l with draining := true })) a = b at hlinks
    have hnotice : Tends [] b (b.sendNotice (b.leavingMask c k)) := sendNotice_tends _ _
    have hready := hlinks.trans hnotice
    exact (hready.hushes.mono (by simp)).trans ((settleDrains_hushes (s.unqueue i) (hready.wrote.canonical wr)).mono fun _ hf => List.mem_append_right _ hf)

/-- A swap that has begun stands in its cartridge's place, and its laser waits no longer. -/
theorem startSwap_leaves (w : regsCanonical s) (hc : c < 2) (k i : Nat) (spare : Option Nat) (planned : Bool) (lost : List Nat) :
    let t := s.startSwap c k i spare planned lost
    (SameMemory s t ∧ ∀ n : Fin 32, ∃ m, t.cores[n] = { s.cores[n] with mesh := m }) ∧
      t.swap? c = some (swapBegun i k spare planned (s.wavePaths c k ++ lost).eraseDups) ∧ (∀ q ∈ t.hull.queued, q.1 ≠ i) := by
  intro t
  have hrest : Hushes (laneFields ++ drainFields) (s.swapRecorded c k i spare planned lost) t := startSwap_hushes w c k i spare planned lost
  refine ⟨⟨fun a => hrest.sameMemory a, hrest.mesh⟩, (swap?_plan hrest.plan c).trans (setSwap_swap _ hc _), fun q hq => ?_⟩
  rw [queued_plan hrest.plan] at hq
  simpa using (List.mem_filter.mp hq).2

section

variable {c : Fin 2} {lost : List Nat} (hswap : s.swap? c.val = none) (hqueue : s.hull.queued.find? (fun q => q.1 / 12 == c.val) = some (i, lost))
  (hpower : s.pins.pwrGood = true) (hwave : s.waveOf c.val (i - 12 * c.val) = some k)

include hswap hqueue hpower hwave

theorem exec_laserSwap_spare (hmay : (s.lasState i = lasEol ∨ s.lasState i = lasFailed) ∨ (s.reg Csr.hullCtl).bit 8 = true)
    (hspare : s.assignedSpare c.val k = some j) (hwarm : s.lasState j = lasStandby) :
    exec (.laserSwap c) s = .next (s.startSwap c.val k i (some j) (s.lasState i != lasFailed && (s.reg Csr.hullCtl).bit 8) lost) := by
  show execLaserSwap c s = _
  unfold execLaserSwap
  rw [hswap, hqueue]
  dsimp only
  rw [if_neg (by simp [hpower]), hwave]
  dsimp only
  rw [if_neg (by rcases hmay with (h | h) | h <;> simp [h]), hspare]
  dsimp only
  rw [if_pos hwarm]
  simp

theorem exec_laserSwap_off (hlives : ¬ (s.lasState i = lasEol ∨ s.lasState i = lasFailed)) (hauto : (s.reg Csr.hullCtl).bit 8 = false) :
    exec (.laserSwap c) s = .next (s.unqueue i) := by
  obtain ⟨heol, hfail⟩ := not_or.mp hlives
  show execLaserSwap c s = _
  unfold execLaserSwap
  rw [hswap, hqueue]
  dsimp only
  rw [if_neg (by simp [hpower]), hwave]
  exact if_pos (by simp [heol, hfail, hauto])

theorem exec_laserSwap_dark (hends : s.lasState i = lasEol ∨ s.lasState i = lasFailed) (hspare : s.assignedSpare c.val k = none) (hfree : s.freeSpares c.val = []) :
    ∃ planned, exec (.laserSwap c) s = .next (s.startSwap c.val k i none planned lost) := by
  refine ⟨s.lasState i != lasFailed && ((s.reg Csr.hullCtl).bit 8 || ((s.freeSpares c.val).isEmpty && s.assignedSpare c.val k == none)), ?_⟩
  show execLaserSwap c s = _
  unfold execLaserSwap
  rw [hswap, hqueue]
  dsimp only
  rw [if_neg (by simp [hpower]), hwave]
  dsimp only
  rw [if_neg (by rcases hends with h | h <;> simp [h]), hspare]
  dsimp only
  rw [if_neg (by rcases hends with h | h <;> simp [h]), hfree]

theorem laserSwap_leaves (w : regsCanonical s) :
    let quiet (t : State) : Prop := SameMemory s t ∧ ∀ n : Fin 32, ∃ m, t.cores[n] = { s.cores[n] with mesh := m }
    let auto := (s.reg Csr.hullCtl).bit 8
    let ended : Prop := s.lasState i = lasEol ∨ s.lasState i = lasFailed
    (∀ j, s.assignedSpare c.val k = some j → s.lasState j = lasStandby → ended ∨ auto = true →
      ∃ t w, exec (.laserSwap c) s = .next t ∧ quiet t ∧ t.swap? c.val = some w ∧ w.laser = i ∧ w.spare = some j ∧ w.wave = k ∧
        w.planned = (s.lasState i != lasFailed && auto) ∧ w.stage = (if w.planned then 0 else 1) ∧ (∀ q ∈ t.hull.queued, q.1 ≠ i)) ∧
    (¬ ended → auto = false → ∃ t, exec (.laserSwap c) s = .next t ∧ t = { s with hull := t.hull } ∧ t.swap? c.val = none ∧
      ∀ q ∈ t.hull.queued, q.1 ≠ i) ∧
    (ended → s.assignedSpare c.val k = none → s.freeSpares c.val = [] →
      ∃ t w, exec (.laserSwap c) s = .next t ∧ quiet t ∧ t.swap? c.val = some w ∧ w.laser = i ∧ w.spare = none ∧ w.wave = k) := by
  intro quiet auto ended
  refine ⟨fun j hspare hwarm hmay => ?_, fun hlives hauto => ?_, fun hends hspare hfree => ?_⟩
  · obtain ⟨hquiet, hrecord, hqueued⟩ := startSwap_leaves w c.isLt k i (some j) (s.lasState i != lasFailed && auto) lost
    exact ⟨_, _, exec_laserSwap_spare hswap hqueue hpower hwave hmay hspare hwarm, hquiet, hrecord, rfl, rfl, rfl, rfl, rfl, hqueued⟩
  · refine ⟨_, exec_laserSwap_off hswap hqueue hpower hwave hlives hauto, rfl, hswap, fun q hq => ?_⟩
    simpa using (List.mem_filter.mp hq).2
  · obtain ⟨planned, hexec⟩ := exec_laserSwap_dark hswap hqueue hpower hwave hends hspare hfree
    obtain ⟨hquiet, hrecord, -⟩ := startSwap_leaves w c.isLt k i none planned lost
    exact ⟨_, _, hexec, hquiet, hrecord, rfl, rfl, rfl⟩

end

end Sys2Proof.Machine

end

section
/-! PROOFS. The stages of a swap: drain, transfer, retrain and soak, or a wavelength that goes dark (R329, R331 to R333). -/

namespace Sys2Proof.Machine

open Sys2Proof.Safety

variable {l : List RegField} {s t u : State} {c i j k m : Nat} {w : Swap}

/-! ### The paths have drained -/

/-- Paths are in training. -/
def State.trainPaths (s : State) (ps : List Nat) : State := ps.foldl (fun (t : State) i => t.setFld (Csr.fabPath i) 63 60 pathTraining) s

theorem trainPaths_tends (s : State) {ps : List Nat} (h : ∀ i ∈ ps, i < 128) : Tends laneFields s (s.trainPaths ps) :=
  Tends.refl.foldl fun _ i hi => Tends.refl.setFld _ (by decide) (mem_laneFields (h i hi)).2.1

theorem setPath_state (wf : regsCanonical s) {st : Nat} (hst : st < 16) : (s.setFld (Csr.fabPath i) 63 60 st).pathState i = st :=
  Wrote.reads (l := []) .refl wf (by decide) hst (by simp only [apart_nil, Csr.fabPath]; omega)

theorem pathState_other (h : Wrote [(Csr.optLane j, 63, 60), (Csr.fabPath j, 63, 60)] s t) (wf : regsCanonical s) (hne : i ≠ j) (hi : i < 128) :
    t.pathState i = s.pathState i :=
  h.fld wf (by simp only [apart_cons, apart_nil, Csr.optLane, Csr.fabPath]; omega)

theorem trainPaths_state (wf : regsCanonical s) {ps : List Nat} (hi : i ∈ ps) (hlt : i < 128) : (s.trainPaths ps).pathState i = pathTraining := by
  have hwrote (t : State) (j : Nat) : Wrote [(Csr.optLane j, 63, 60), (Csr.fabPath j, 63, 60)] t (t.setFld (Csr.fabPath j) 63 60 pathTraining) :=
    Wrote.refl.setFld _ (by decide) (by simp)
  refine (foldl_reaches (I := regsCanonical) (P := fun t : State => t.pathState i = pathTraining) (fun t j _ wt => (hwrote t j).canonical wt)
    (fun t j _ wt ht => ?_) (fun t wt => setPath_state wt (by decide)) hi wf).2
  by_cases hij : i = j
  · subst hij
    exact setPath_state wt (by decide)
  · exact (pathState_other (hwrote t j) wt hij hlt).trans ht

theorem swapStageDone_waits {c : Fin 2} (hw : s.swap? c.val = some w) (hstage : w.stage = 0) (hdrain : s.swapDrained w = false) :
    exec (.swapStageDone c) s = .next s := by
  show execSwapStageDone c s = _
  unfold execSwapStageDone
  rw [hw]
  dsimp only
  rw [hstage]
  exact if_pos (by simp [hdrain])

theorem exec_swapStage_drained {c : Fin 2} (hw : s.swap? c.val = some w) (hstage : w.stage = 0) (hdrain : s.swapDrained w = true) :
    exec (.swapStageDone c) s = .next ((s.trainPaths (w.paths.filter (fun i => (s.waveLanes c.val w.wave).contains i && s.pathState i == pathUp))).setSwap c.val
      (some { w with stage := 1 })).broadcastStates := by
  show execSwapStageDone c s = _
  unfold execSwapStageDone
  rw [hw]
  dsimp only
  rw [hstage]
  exact if_neg (by simp [hdrain])

theorem swapStageDone_drained (wf : regsCanonical s) {c : Fin 2} (hw : s.swap? c.val = some w) (hstage : w.stage = 0) (hdrain : s.swapDrained w = true) :
    ∃ t, exec (.swapStageDone c) s = .next t ∧ (SameMemory s t ∧ t.cores = s.cores) ∧ t.swap? c.val = some { w with stage := 1 } ∧
      ∀ i ∈ w.paths, i ∈ s.waveLanes c.val w.wave → s.pathState i = pathUp → t.pathState i = pathTraining := by
  have hexec := exec_swapStage_drained hw hstage hdrain
  let ps := w.paths.filter (fun i => (s.waveLanes c.val w.wave).contains i && s.pathState i == pathUp)
  have hlanes : ∀ i ∈ ps, i < 128 := fun i hi => by
    have h := (List.mem_filter.mp hi).2
    simp only [Bool.and_eq_true, List.contains_iff_mem] at h
    exact waveLanes_lt h.1
  have htrain := trainPaths_tends s hlanes
  have hstate (i : Nat) (hi : i ∈ ps) := trainPaths_state wf hi (hlanes i hi)
  change _ = Host.Outcome.next ((s.trainPaths ps).setSwap c.val (some { w with stage := 1 })).broadcastStates at hexec
  generalize s.trainPaths ps = a at hexec htrain hstate
  have hset : Wrote [] a (a.setSwap c.val (some { w with stage := 1 })) := setSwap_wrote _ _ _
  have hcast : Tends [] (a.setSwap c.val (some { w with stage := 1 })) (a.setSwap c.val (some { w with stage := 1 })).broadcastStates := Tends.refl.broadcastStates
  have hrest := hset.trans hcast.wrote
  have hall := htrain.wrote.append hrest
  refine ⟨_, hexec, ⟨hall.sameMemory, hall.cores⟩, (swap?_plan hcast.plan _).trans (setSwap_swap _ c.isLt _), fun i hpath hlane hup => ?_⟩
  have hi : i ∈ ps := List.mem_filter.mpr ⟨hpath, by simpa [hup] using hlane⟩
  exact (hrest.fld (htrain.wrote.canonical wf) (by simp only [apart_nil, Csr.fabPath]; have := hlanes i hi; omega)).trans (hstate i hi)

/-! ### The feed moves -/

theorem setFeed_tends (s : State) (hk : k < 8) (m : Nat) : Tends [(Csr.cartWmap c, 4 * k + 3, 4 * k)] s (s.setFeed c k m) :=
  ⟨(Wrote.refl.setFld _ (by omega) (by simp)).flash _, rfl⟩

theorem setFeed_feed (wf : regsCanonical s) (hk : k < 8) (hm : m < 16) : (s.setFeed c k m).feed c k = m := by
  have hread := State.fld_setFld s (Csr.cartWmap c) (4 * k + 3) (4 * k) m wf (by omega)
  rw [show 4 * k + 3 + 1 - 4 * k = 4 by omega, Nat.mod_eq_of_lt (show m < 2 ^ 4 from hm)] at hread
  exact hread

theorem feed_apart (hc : c < 2) (hi lo : Nat) : Apart (lasFields ++ laneFields) (Csr.cartWmap c) hi lo := by
  refine apart_append.mpr ⟨lasFields_apart (not_mem_evtRegs.mpr ?_) (.inr fun j hj => ?_), (laneFields_cart hc hi lo).2⟩
  · simp only [Csr.cartWmap]
    omega
  · simp only [Csr.cartWmap, Csr.lasStat]
    omega

/-- A lane that is not DARK begins to lock. -/
def State.lockUnlessDark (t : State) (i : Nat) : State := if t.laneState i = laneDark then t else t.beginLock i

/-- A spare is lit for a wavelength. -/
def State.spareLit (s : State) (i k : Nat) : State := (s.setFld (Csr.lasStat i) 63 60 lasActive).setFld (Csr.lasStat i) 55 52 k

theorem transfer_eq (s : State) (c k m : Nat) : s.transfer c k m =
    (((s.setFeed c k m).spareLit (12 * c + m) k).waveLanes c k).foldl State.lockUnlessDark ((s.setFeed c k m).spareLit (12 * c + m) k) := rfl

theorem lockLanes_tends (s t : State) (c k : Nat) : Tends laneFields t ((s.waveLanes c k).foldl State.lockUnlessDark t) :=
  Tends.refl.foldl fun _ _ hi => .ite .refl (Tends.refl.beginLock (mem_laneFields (waveLanes_lt hi)).1)

theorem spareLit_wrote (s : State) (k : Nat) (hi : i < 24) : Wrote lasFields s (s.spareLit i k) :=
  (Wrote.refl.setFld _ (by decide) (mem_lasFields hi).1).setFld _ (by decide) (mem_lasFields hi).2

theorem spareLit_lasState (wf : regsCanonical s) (i k : Nat) : (s.spareLit i k).lasState i = lasActive := by
  have hwave : Wrote [(Csr.lasStat i, 55, 52)] (s.setFld (Csr.lasStat i) 63 60 lasActive) (s.spareLit i k) := Wrote.refl.setFld _ (by decide) (by simp)
  exact hwave.reads wf (by decide) (by decide) (by simp only [apart_cons, apart_nil, Csr.lasStat]; omega)

/-- After a transfer the spare feeds the wavelength and is ACTIVE. -/
theorem transfer_leaves (wf : regsCanonical s) (hc : c < 2) (hk : k < 8) (hm : m < 12) :
    Wrote ([(Csr.cartWmap c, 4 * k + 3, 4 * k)] ++ (lasFields ++ laneFields)) s (s.transfer c k m) ∧ (s.transfer c k m).feed c k = m ∧
      (s.transfer c k m).lasState (12 * c + m) = lasActive := by
  have hfeed := setFeed_tends (c := c) s hk m
  have hread := setFeed_feed (c := c) wf hk (show m < 16 by omega)
  rw [transfer_eq]
  generalize s.setFeed c k m = a at hfeed hread
  have wa := hfeed.wrote.canonical wf
  have hlit := spareLit_wrote (i := 12 * c + m) a k (by omega)
  have hactive := spareLit_lasState wa (12 * c + m) k
  generalize a.spareLit (12 * c + m) k = b at hlit hactive
  have hlanes := (lockLanes_tends b b c k).wrote
  have hrest := hlit.append hlanes
  exact ⟨hfeed.wrote.append hrest, (hrest.fld wa (feed_apart hc _ _)).trans hread,
    (hlanes.fld (hlit.canonical wa) (laneFields_laser (by omega) _ _)).trans hactive⟩

theorem endLaser_wrote (s : State) (hi : i < 24) (st : Nat) : Wrote lasFields s (s.endLaser i st) :=
  ((Wrote.refl.setFld _ (by decide) (mem_lasFields hi).1).setFld _ (by decide) (mem_lasFields hi).2).flash _

/-- The laser that a swap replaces is RETIRED, unless it has FAILED. -/
def State.retired (s : State) (i : Nat) : State := if s.lasState i = lasFailed then s else s.endLaser i lasRetired

theorem exec_swapStage_transfer {c : Fin 2} (hw : s.swap? c.val = some w) (hstage : w.stage = 1) (hspare : w.spare = some (12 * c.val + m))
    (hwarm : s.lasState (12 * c.val + m) = lasStandby) :
    exec (.swapStageDone c) s = .next (((((s.retired w.laser).transfer c.val w.wave m).raise 0x44 [Word.place (12 * c.val + m) 8 8 ||| Word.place w.laser 8 0]).setSwap
      c.val (some { w with stage := 2 })).syncHull) := by
  have hexec : exec (.swapStageDone c) s = .next (((((s.retired w.laser).transfer c.val w.wave (12 * c.val + m - 12 * c.val)).raise 0x44
      [Word.place (12 * c.val + m) 8 8 ||| Word.place w.laser 8 0]).setSwap c.val (some { w with stage := 2 })).syncHull) := by
    show execSwapStageDone c s = _
    unfold execSwapStageDone
    rw [hw]
    dsimp only
    rw [hstage]
    rw [hspare]
    exact if_neg (not_not_intro hwarm)
  rwa [Nat.add_sub_cancel_left] at hexec

theorem swapStageDone_transfer (wf : regsCanonical s) {c : Fin 2} (hw : s.swap? c.val = some w) (hwave : w.wave < 8) (hstage : w.stage = 1)
    (hspare : w.spare = some (12 * c.val + m)) (hm : m < 12) (hlaser : w.laser < 24) (hwarm : s.lasState (12 * c.val + m) = lasStandby) :
    ∃ t, exec (.swapStageDone c) s = .next t ∧ (SameMemory s t ∧ t.cores = s.cores) ∧ t.swap? c.val = some { w with stage := 2 } ∧
      t.feed c.val w.wave = m ∧ t.lasState (12 * c.val + m) = lasActive ∧ Raised t 0x44 0 := by
  have hexec := exec_swapStage_transfer hw hstage hspare hwarm
  have hretired : Wrote lasFields s (s.retired w.laser) := .ite .refl (endLaser_wrote s hlaser _)
  obtain ⟨htransfer, hfeed, hactive⟩ := transfer_leaves (hretired.canonical wf) c.isLt hwave hm
  generalize (s.retired w.laser).transfer c.val w.wave m = a at hexec htransfer hfeed hactive
  have wa := htransfer.canonical (hretired.canonical wf)
  have htold : Wrote [] a (a.raise 0x44 [Word.place (12 * c.val + m) 8 8 ||| Word.place w.laser 8 0]) := Wrote.refl.raise _ _
  have hraised : Raised (a.raise 0x44 [Word.place (12 * c.val + m) 8 8 ||| Word.place w.laser 8 0]) 0x44 0 := raised_raise _ _ _
  generalize a.raise 0x44 [Word.place (12 * c.val + m) 8 8 ||| Word.place w.laser 8 0] = b at hexec htold hraised
  have hset : Wrote [] b (b.setSwap c.val (some { w with stage := 2 })) := setSwap_wrote _ _ _
  have hsync : Tends [(Csr.hullStat, 63, 0)] (b.setSwap c.val (some { w with stage := 2 })) (b.setSwap c.val (some { w with stage := 2 })).syncHull :=
    Tends.refl.syncHull (by simp)
  have hrest := (htold.trans hset).append hsync.wrote
  have hall := hretired.append (htransfer.append hrest)
  refine ⟨_, hexec, ⟨hall.sameMemory, hall.cores⟩, (swap?_plan hsync.plan _).trans (setSwap_swap _ c.isLt _), ?_, ?_, (hset.append hsync.wrote).raised hraised⟩
  · exact (hrest.fld wa (by simp only [List.nil_append, apart_cons, apart_nil, Csr.cartWmap, Csr.hullStat]; omega)).trans hfeed
  · exact (hrest.fld wa (by simp only [List.nil_append, apart_cons, apart_nil, Csr.lasStat, Csr.hullStat]; omega)).trans hactive

/-! ### A wavelength goes dark (R332) -/

/-- The path of a lane is DOWN, the lane DARK. -/
def State.darkens (t : State) (i : Nat) : State := (t.takeDown i).laneGoesDark i

/-- The lanes of a wavelength are DARK. -/
def State.waveDarkens (s : State) (c k : Nat) : State := (s.waveLanes c k).foldl State.darkens s

theorem goDark_eq (s : State) (c k : Nat) : s.goDark c k =
    (((s.setFeed c k 15).waveDarkens c k).raise 0x46 [Word.place k 3 8 ||| Word.place c 1 0]).syncHull.broadcastStates := rfl

theorem darkens_tends (t : State) (hi : i < 128) : Tends laneFields t (t.darkens i) := by
  obtain ⟨hlane, hpath, hcnt⟩ := mem_laneFields hi
  exact (Tends.refl.takeDown hpath hcnt).laneGoesDark hlane hpath

theorem laneGoesDark_state (wf : regsCanonical t) (hi : i < 128) : (t.laneGoesDark i).laneState i = laneDark := by
  have hpath : Wrote [(Csr.fabPath i, 63, 60)] (t.laneTo i laneDark) (t.laneGoesDark i) := .ite .refl (Wrote.refl.setFld _ (by decide) (by simp))
  exact hpath.reads wf (by decide) (by decide) (by simp only [apart_cons, apart_nil, Csr.optLane, Csr.fabPath]; omega)

theorem laneGoesDark_wrote (t : State) (i : Nat) : Wrote [(Csr.optLane i, 63, 60), (Csr.fabPath i, 63, 60), (Csr.fabLcnt i, 63, 48)] t (t.laneGoesDark i) :=
  Wrote.refl.laneGoesDark (by simp) (by simp)

theorem darkens_wrote (t : State) (i : Nat) : Wrote [(Csr.optLane i, 63, 60), (Csr.fabPath i, 63, 60), (Csr.fabLcnt i, 63, 48)] t (t.darkens i) :=
  (Wrote.refl.takeDown (by simp) (by simp)).trans (laneGoesDark_wrote _ i)

theorem darkens_state (wf : regsCanonical t) (hi : i < 128) : (t.darkens i).laneState i = laneDark :=
  laneGoesDark_state ((Wrote.refl.takeDown (by simp) (by simp) : Wrote [(Csr.fabPath i, 63, 60), (Csr.fabLcnt i, 63, 48)] t (t.takeDown i)).canonical wf) hi

/-- A lane of a list whose lanes go DARK one by one is DARK. -/
theorem darken_fold (wf : regsCanonical s) {f : State → Nat → State} {ls : List Nat} (hls : ∀ j ∈ ls, j < 128)
    (hf : ∀ t j, Wrote [(Csr.optLane j, 63, 60), (Csr.fabPath j, 63, 60), (Csr.fabLcnt j, 63, 48)] t (f t j))
    (hdark : ∀ t, ∀ j < 128, regsCanonical t → (f t j).laneState j = laneDark) (hi : i ∈ ls) : (ls.foldl f s).laneState i = laneDark := by
  refine (foldl_reaches (I := regsCanonical) (P := fun t : State => t.laneState i = laneDark) (fun t j _ wt => (hf t j).canonical wt)
    (fun t j hj wt ht => ?_) (fun t wt => hdark t i (hls i hi) wt) hi wf).2
  by_cases hij : i = j
  · subst hij
    exact hdark t i (hls i hi) wt
  · exact (laneState_other (hf t j) wt hij (hls i hi) (hls j hj)).trans ht

theorem waveDarkens_tends (s : State) (c k : Nat) : Tends laneFields s (s.waveDarkens c k) := Tends.refl.foldl fun u _ hi => darkens_tends u (waveLanes_lt hi)

theorem waveDarkens_state (wf : regsCanonical s) (hi : i ∈ s.waveLanes c k) : (s.waveDarkens c k).laneState i = laneDark :=
  darken_fold wf (fun _ hj => waveLanes_lt hj) darkens_wrote (fun _ _ hj wt => darkens_state wt hj) hi

theorem setFeed_waveLanes (wf : regsCanonical s) (hk : k < 8) (m : Nat) : (s.setFeed c k m).waveLanes c k = s.waveLanes c k :=
  waveLanes_congr (fun i => (setFeed_tends s hk m).wrote.fld wf (by simp only [apart_cons, apart_nil, Csr.cartWmap, Csr.optLane]; omega)) c k

theorem goDark_leaves (wf : regsCanonical s) (hc : c < 2) (hk : k < 8) :
    Tends ([(Csr.cartWmap c, 4 * k + 3, 4 * k)] ++ (laneFields ++ [(Csr.hullStat, 63, 0)])) s (s.goDark c k) ∧ (s.goDark c k).feed c k = 15 ∧
      Raised (s.goDark c k) 0x46 0 ∧ ∀ i ∈ s.waveLanes c k, (s.goDark c k).laneState i = laneDark := by
  have hfeed := setFeed_tends (c := c) s hk 15
  have hread := setFeed_feed (c := c) wf hk (show 15 < 16 by decide)
  have hlanes := setFeed_waveLanes (c := c) wf hk 15
  rw [goDark_eq, ← hlanes]
  generalize s.setFeed c k 15 = a at hfeed hread
  have wa := hfeed.wrote.canonical wf
  have hdark := waveDarkens_tends a c k
  have hstates (i : Nat) (hi : i ∈ a.waveLanes c k) := waveDarkens_state wa hi
  generalize a.waveDarkens c k = b at hdark hstates
  have hraised : Raised (b.raise 0x46 [Word.place k 3 8 ||| Word.place c 1 0]) 0x46 0 := raised_raise _ _ _
  have htold : Tends [(Csr.hullStat, 63, 0)] b (b.raise 0x46 [Word.place k 3 8 ||| Word.place c 1 0]) := Tends.refl.raise _ _
  generalize b.raise 0x46 [Word.place k 3 8 ||| Word.place c 1 0] = d at hraised htold
  have hsync : Tends [(Csr.hullStat, 63, 0)] d d.syncHull.broadcastStates := (Tends.refl.syncHull (by simp)).broadcastStates
  have hrest := hdark.append (htold.trans hsync)
  refine ⟨hfeed.append hrest, (hrest.wrote.fld wa (apart_append.mpr ⟨(laneFields_cart hc _ _).2, ?_⟩)).trans hread, hsync.wrote.raised hraised,
    fun i hi => ((htold.trans hsync).wrote.fld (hdark.wrote.canonical wa) ?_).trans (hstates i hi)⟩
  · simp only [apart_cons, apart_nil, Csr.cartWmap, Csr.hullStat]
    omega
  · have hlt := waveLanes_lt hi
    simp only [apart_cons, apart_nil, Csr.optLane, Csr.hullStat]
    omega

theorem swapDark_eq (s : State) (c : Nat) (w : Swap) : s.swapDark c w = ((((s.release w.paths).setSwap c none).goDark c w.wave).sendNotice 0).routesChanged := rfl

theorem exec_swapStage_dark {c : Fin 2} (hw : s.swap? c.val = some w) (hstage : w.stage = 1) (hspare : w.spare = none) :
    exec (.swapStageDone c) s = .next (s.swapDark c.val w) := by
  show execSwapStageDone c s = _
  unfold execSwapStageDone
  rw [hw]
  dsimp only
  simp only [hstage, hspare]

theorem release_tends (s : State) (ps : List Nat) : Tends l s (s.release ps) := modLinks_tends s ps _

theorem swapStageDone_dark (wf : regsCanonical s) {c : Fin 2} (hw : s.swap? c.val = some w) (hwave : w.wave < 8) (hstage : w.stage = 1)
    (hspare : w.spare = none) :
    ∃ t, exec (.swapStageDone c) s = .next t ∧ (SameMemory s t ∧ ∀ n : Fin 32, ∃ m, t.cores[n] = { s.cores[n] with mesh := m }) ∧ t.swap? c.val = none ∧
      t.feed c.val w.wave = 15 ∧ Raised t 0x46 0 ∧ ∀ i ∈ s.waveLanes c.val w.wave, t.laneState i = laneDark := by
  have hexec := exec_swapStage_dark hw hstage hspare
  rw [swapDark_eq] at hexec
  have hrelease : Tends [] s (s.release w.paths) := release_tends s w.paths
  generalize s.release w.paths = a at hexec hrelease
  have hset : Wrote [] s (a.setSwap c.val none) := hrelease.wrote.trans (setSwap_wrote _ _ _)
  have hnone := setSwap_swap a c.isLt none
  generalize a.setSwap c.val none = b at hexec hset hnone
  have wb := hset.canonical wf
  have hlanes : b.waveLanes c.val w.wave = s.waveLanes c.val w.wave :=
    waveLanes_congr (fun i => hset.fld wf (by simp only [apart_nil, Csr.optLane]; omega)) _ _
  obtain ⟨hdark, hfeed, hraised, hstates⟩ := goDark_leaves wb c.isLt hwave
  generalize b.goDark c.val w.wave = d at hexec hdark hfeed hraised hstates
  have wd := hdark.wrote.canonical wb
  have hnotice : Tends [] d (d.sendNotice 0) := sendNotice_tends _ _
  have hroutes := routesChanged_hushes (hnotice.wrote.canonical wd)
  have hrest := hnotice.hushes.trans hroutes
  have hall := hdark.hushes.append hrest
  refine ⟨_, hexec, ⟨fun x => (hall.sameMemory x).trans (hset.sameMemory x), fun n => ?_⟩, (swap?_plan hall.plan _).trans hnone, ?_, hrest.raised hraised,
    fun i hi => ?_⟩
  · rw [← hset.cores]
    exact hall.mesh n
  · exact (hrest.fld wd (by simp only [apart_nil, Csr.cartWmap]; omega)).trans hfeed
  · rw [← hlanes] at hi
    have hlt := waveLanes_lt hi
    exact (hrest.fld wd (by simp only [apart_nil, Csr.optLane]; omega)).trans (hstates i hi)

/-! ### Retrain and soak (R329) -/

theorem exec_swapStage_retrained {c : Fin 2} (hw : s.swap? c.val = some w) (hstage : w.stage = 2)
    (hlocked : ∃ i ∈ s.waveLanes c.val w.wave, s.laneState i = laneLocked) :
    exec (.swapStageDone c) s = .next (s.setSwap c.val (some { w with stage := 3, uncorr := s.uncorrOf c.val w.wave })).syncHull := by
  have hretrained : s.retrained c.val w = s.setSwap c.val (some { w with stage := 3, uncorr := s.uncorrOf c.val w.wave }) := if_pos (by simpa using hlocked)
  show execSwapStageDone c s = _
  unfold execSwapStageDone
  rw [hw]
  dsimp only
  simp only [hstage, hretrained]

theorem swapStageDone_retrained {c : Fin 2} (hw : s.swap? c.val = some w) (hstage : w.stage = 2)
    (hlocked : ∃ i ∈ s.waveLanes c.val w.wave, s.laneState i = laneLocked) :
    ∃ t, exec (.swapStageDone c) s = .next t ∧ (SameMemory s t ∧ t.cores = s.cores) ∧
      t.swap? c.val = some { w with stage := 3, uncorr := s.uncorrOf c.val w.wave } := by
  have hset : Wrote [(Csr.hullStat, 63, 0)] s (s.setSwap c.val (some { w with stage := 3, uncorr := s.uncorrOf c.val w.wave })) := setSwap_wrote _ _ _
  have hsync : Tends [(Csr.hullStat, 63, 0)] (s.setSwap c.val (some { w with stage := 3, uncorr := s.uncorrOf c.val w.wave }))
      (s.setSwap c.val (some { w with stage := 3, uncorr := s.uncorrOf c.val w.wave })).syncHull := Tends.refl.syncHull (by simp)
  have hall := hset.trans hsync.wrote
  exact ⟨_, exec_swapStage_retrained hw hstage hlocked, ⟨hall.sameMemory, hall.cores⟩, (swap?_plan hsync.plan _).trans (setSwap_swap _ c.isLt _)⟩

theorem freshKeys_tends (s : State) (i : Nat) : Tends l s (s.freshKeys i) :=
  (Tends.refl.modLink i _).trans (aside_tends rfl rfl rfl rfl rfl)

theorem swapPathDone_tends (t : State) (w : Swap) {lanes : List Nat} (h1 : lanes.contains i = true → (Csr.optLane i, 63, 60) ∈ l)
    (h2 : lanes.contains i = true → (Csr.fabPath i, 63, 60) ∈ l) : Tends l t (t.swapPathDone w lanes i) := by
  have hlink : Tends l t (t.modLink i (fun l => { l with draining := false })) := Tends.refl.modLink i _
  unfold State.swapPathDone
  dsimp only
  generalize t.modLink i (fun l => { l with draining := false }) = a at hlink
  refine hlink.trans ?_
  split
  · exact .refl
  · next hmem =>
    have hin : lanes.contains i = true := by simpa using hmem
    split
    · have hkeys : Tends l a (if w.planned then a else a.freshKeys i) := .ite .refl (freshKeys_tends a i)
      exact .ite hkeys ((hkeys.setFld _ (by decide) (h2 hin)).raise _ _)
    · have hlock : Tends l a (if a.laneState i = laneLocked then a.beginLock i else a) := .ite (Tends.refl.beginLock (h1 hin)) .refl
      exact .ite (hlock.setFld _ (by decide) (h2 hin)) hlock

theorem soaked_wrote (h : Wrote l s t) (wf : regsCanonical s) (w : Swap) (ha : Apart l (Csr.optLane i) 63 60) (hb : Apart l (Csr.optFec i) 63 48)
    (hc : Apart l (Csr.optFec i) 47 32) : t.soaked w i = s.soaked w i := by
  have hlane : t.laneState i = s.laneState i := h.fld wf ha
  unfold State.soaked
  rw [hlane, h.fld wf hb, h.fld wf hc]

/-- A lane that has passed the soak keeps its state, and its path is UP. -/
theorem swapPathDone_up (wf : regsCanonical t) {lanes : List Nat} (hin : lanes.contains i = true) (hi : i < 128) (hsoak : t.soaked w i = true) :
    Wrote [(Csr.fabPath i, 63, 60)] t (t.swapPathDone w lanes i) ∧ (t.swapPathDone w lanes i).pathState i = pathUp := by
  have hlink : Wrote [] t (t.modLink i (fun l => { l with draining := false })) := Wrote.refl.modLink _
  unfold State.swapPathDone
  dsimp only
  generalize t.modLink i (fun l => { l with draining := false }) = a at hlink
  have wa := hlink.canonical wf
  have hsoak' : a.soaked w i = true := (soaked_wrote hlink wf w (by simp only [apart_nil, Csr.optLane]; omega) (by simp only [apart_nil, Csr.optFec]; omega)
    (by simp only [apart_nil, Csr.optFec]; omega)).trans hsoak
  rw [if_neg (by simpa using hin), if_pos hsoak']
  have hkeys : Wrote [] a (if w.planned then a else a.freshKeys i) := .ite .refl (freshKeys_tends a i).wrote
  generalize (if w.planned then a else a.freshKeys i) = b at hkeys
  have hb : Wrote [(Csr.fabPath i, 63, 60)] t b := (hlink.trans hkeys).mono (by simp)
  split
  · next hup => exact ⟨hb, hup⟩
  · have hraise : Wrote [] (b.setFld (Csr.fabPath i) 63 60 pathUp) ((b.setFld (Csr.fabPath i) 63 60 pathUp).raise 0x30 [BitVec.ofNat 64 i]) := Wrote.refl.raise _ _
    exact ⟨(hb.setFld _ (by decide) (by simp)).raise _ _, hraise.reads (hkeys.canonical wa) (by decide) (by decide) (by simp only [apart_nil, Csr.fabPath]; omega)⟩

/-- The paths of a swap that ends return. -/
def State.pathsReturn (s : State) (c : Nat) (w : Swap) : State := w.paths.foldl (fun (t : State) i => t.swapPathDone w (s.waveLanes c w.wave) i) s

theorem swapDone_eq (s : State) (c : Nat) (w : Swap) : s.swapDone c w = ((((s.pathsReturn c w).setSwap c none).sendNotice 0).syncHull.broadcastStates).routesChanged := rfl

theorem pathsReturn_tends (s : State) (c : Nat) (w : Swap) : Tends laneFields s (s.pathsReturn c w) := by
  refine Tends.refl.foldl fun u i _ => swapPathDone_tends u w (fun h => ?_) (fun h => ?_)
  · exact (mem_laneFields (waveLanes_lt (List.contains_iff_mem.mp h))).1
  · exact (mem_laneFields (waveLanes_lt (List.contains_iff_mem.mp h))).2.1

/-- A path whose lane has passed the soak is UP. -/
theorem pathsReturn_up (wf : regsCanonical s) (hpath : i ∈ w.paths) (hlane : i ∈ s.waveLanes c w.wave) (hsoak : s.soaked w i = true) :
    (s.pathsReturn c w).pathState i = pathUp := by
  have hi := waveLanes_lt hlane
  have hin : (s.waveLanes c w.wave).contains i = true := List.contains_iff_mem.mpr hlane
  have hother (t : State) (j : Nat) : Wrote [(Csr.optLane j, 63, 60), (Csr.fabPath j, 63, 60)] t (t.swapPathDone w (s.waveLanes c w.wave) j) :=
    (swapPathDone_tends t w (fun _ => by simp) (fun _ => by simp)).wrote
  have hkeep (t : State) (j : Nat) (wt : regsCanonical t) (ht : t.soaked w i = true) : (t.swapPathDone w (s.waveLanes c w.wave) j).soaked w i = true := by
    by_cases hij : i = j
    · subst hij
      refine (soaked_wrote (swapPathDone_up wt hin hi ht).1 wt w ?_ ?_ ?_).trans ht
      · simp only [apart_cons, apart_nil, Csr.optLane, Csr.fabPath]
        omega
      · simp only [apart_cons, apart_nil, Csr.optFec, Csr.fabPath]
        omega
      · simp only [apart_cons, apart_nil, Csr.optFec, Csr.fabPath]
        omega
    · by_cases hj : (s.waveLanes c w.wave).contains j = true
      · have hj' := waveLanes_lt (List.contains_iff_mem.mp hj)
        refine (soaked_wrote (hother t j) wt w ?_ ?_ ?_).trans ht
        · simp only [apart_cons, apart_nil, Csr.optLane, Csr.fabPath]
          omega
        · simp only [apart_cons, apart_nil, Csr.optFec, Csr.optLane, Csr.fabPath]
          omega
        · simp only [apart_cons, apart_nil, Csr.optFec, Csr.optLane, Csr.fabPath]
          omega
      · have hnone : Wrote [] t (t.swapPathDone w (s.waveLanes c w.wave) j) := (swapPathDone_tends t w (fun h => absurd h hj) (fun h => absurd h hj)).wrote
        refine (soaked_wrote hnone wt w ?_ ?_ ?_).trans ht
        · simp only [apart_nil, Csr.optLane]
          omega
        · simp only [apart_nil, Csr.optFec]
          omega
        · simp only [apart_nil, Csr.optFec]
          omega
  refine (foldl_reaches (I := fun t : State => regsCanonical t ∧ t.soaked w i = true) (P := fun t : State => t.pathState i = pathUp)
    (fun t j _ ht => ⟨(hother t j).canonical ht.1, hkeep t j ht.1 ht.2⟩) (fun t j _ ht hup => ?_) (fun t ht => (swapPathDone_up ht.1 hin hi ht.2).2) hpath
    ⟨wf, hsoak⟩).2
  by_cases hij : i = j
  · subst hij
    exact (swapPathDone_up ht.1 hin hi ht.2).2
  · exact (pathState_other (hother t j) ht.1 hij hi).trans hup

theorem exec_swapStage_soaked {c : Fin 2} (hw : s.swap? c.val = some w) (hstage : 2 < w.stage) : exec (.swapStageDone c) s = .next (s.swapDone c.val w) := by
  obtain ⟨n, hn⟩ := Nat.exists_eq_add_of_lt hstage
  show execSwapStageDone c s = _
  unfold execSwapStageDone
  rw [hw]
  dsimp only
  simp only [show w.stage = n + 3 by omega]

theorem swapStageDone_soaked (wf : regsCanonical s) {c : Fin 2} (hw : s.swap? c.val = some w) (hstage : 2 < w.stage) :
    ∃ t, exec (.swapStageDone c) s = .next t ∧ (SameMemory s t ∧ ∀ n : Fin 32, ∃ m, t.cores[n] = { s.cores[n] with mesh := m }) ∧ t.swap? c.val = none ∧
      ∀ i ∈ w.paths, i ∈ s.waveLanes c.val w.wave → s.soaked w i = true → t.pathState i = pathUp := by
  have hexec := exec_swapStage_soaked hw hstage
  rw [swapDone_eq] at hexec
  have hreturn := pathsReturn_tends s c.val w
  have hup (i : Nat) (hpath : i ∈ w.paths) (hlane : i ∈ s.waveLanes c.val w.wave) (hsoak : s.soaked w i = true) := pathsReturn_up wf hpath hlane hsoak
  generalize s.pathsReturn c.val w = a at hexec hreturn hup
  have hset : Wrote [] a (a.setSwap c.val none) := setSwap_wrote _ _ _
  have hnone := setSwap_swap a c.isLt none
  generalize a.setSwap c.val none = b at hexec hset hnone
  have wb := hset.canonical (hreturn.wrote.canonical wf)
  have hsync : Tends [(Csr.hullStat, 63, 0)] b (b.sendNotice 0).syncHull.broadcastStates := ((sendNotice_tends _ _).syncHull (by simp)).broadcastStates
  have hrest := hsync.hushes.trans ((routesChanged_hushes (hsync.wrote.canonical wb)).mono (by simp))
  have hfirst := hreturn.wrote.append hset
  refine ⟨_, hexec, ⟨fun x => (hrest.sameMemory x).trans (hfirst.sameMemory x), fun n => ?_⟩, (swap?_plan hrest.plan _).trans hnone,
    fun i hpath hlane hsoak => ?_⟩
  · rw [← hfirst.cores]
    exact hrest.mesh n
  · have hlt := waveLanes_lt hlane
    have hsame : (b.sendNotice 0).syncHull.broadcastStates.routesChanged.pathState i = b.pathState i :=
      hrest.fld wb (by simp only [apart_cons, apart_nil, Csr.fabPath, Csr.hullStat]; omega)
    exact hsame.trans ((hset.fld (hreturn.wrote.canonical wf) (by simp only [apart_nil, Csr.fabPath]; omega)).trans (hup i hpath hlane hsoak))

end Sys2Proof.Machine

end

section
/-! PROOFS. Sudden failures of lasers, and cartridges that are removed (R314, R331 to R333). -/

namespace Sys2Proof.Machine

open Sys2Proof.Safety

variable {l : List RegField} {s t u : State} {c i j k : Nat}

/-! ### A laser fails suddenly (R331) -/

/-- A laser has FAILED, with event 0x45. -/
def State.laserFails (s : State) (i : Nat) : State := (s.endLaser i lasFailed).raise 0x45 [BitVec.ofNat 64 i]

/-- A wavelength whose laser i has failed moves to a spare, or goes dark. -/
def State.failOver (s : State) (c k i : Nat) : State :=
  match s.assignedSpare c k, s.freeSpares c with
  | some j, _ => (s.startSwap c k i (some j) false []).syncHull
  | none, j :: _ => ((s.startSwap c k i (some j) false []).warmSpare j k).syncHull
  | none, [] => (s.waveLost c k).goDark c k

/-- Memory and cores stay, and laser i keeps its state. -/
def KeepsLaser (i : Nat) (s t : State) : Prop := ∃ l, Wrote l s t ∧ t.lasState i = s.lasState i ∧ t.flash.outOfUse = s.flash.outOfUse

theorem KeepsLaser.trans (h : KeepsLaser i s t) (h' : KeepsLaser i t u) : KeepsLaser i s u := by
  obtain ⟨l, hwrote, hstate, huse⟩ := h
  obtain ⟨m, hwrote', hstate', huse'⟩ := h'
  exact ⟨l ++ m, hwrote.append hwrote', hstate'.trans hstate, huse'.trans huse⟩

theorem Tends.keepsLaser (h : Tends l s t) (w : regsCanonical s) (ha : Apart l (Csr.lasStat i) 63 60) : KeepsLaser i s t :=
  ⟨l, h.wrote, h.wrote.fld w ha, outOfUse_plan h.plan⟩

theorem syncHull_keepsLaser (w : regsCanonical s) (hi : i < 24) : KeepsLaser i s s.syncHull :=
  (Tends.refl.syncHull (l := [(Csr.hullStat, 63, 0)]) (by simp)).keepsLaser w (by simp only [apart_cons, apart_nil, Csr.lasStat, Csr.hullStat]; omega)

theorem startSwap_keepsLaser (w : regsCanonical s) (c k : Nat) (spare : Option Nat) (hi : i < 24) :
    regsCanonical (s.startSwap c k i spare false []) ∧ KeepsLaser i s (s.startSwap c k i spare false []) := by
  have hrecord : Wrote [] s (s.swapRecorded c k i spare false []) := Wrote.refl.aside rfl rfl rfl rfl
  have hstart := startSwap_unplanned s c k i spare []
  exact ⟨hstart.wrote.canonical w, .trans ⟨[], hrecord, rfl, rfl⟩ (hstart.keepsLaser w (laneFields_laser hi _ _))⟩

theorem waveOf_lt {m : Nat} (h : s.waveOf c m = some k) : k < 8 := List.mem_range.mp (List.mem_of_find?_eq_some h)

theorem failOver_keepsLaser (w : regsCanonical s) (hc : c < 2) (hk : k < 8) (hi : i < 24) (hon : s.lasState i ≠ lasOff) : KeepsLaser i s (s.failOver c k i) := by
  unfold State.failOver
  split
  · next j _ =>
    obtain ⟨wt, hstart⟩ := startSwap_keepsLaser w c k (some j) hi
    exact hstart.trans (syncHull_keepsLaser wt hi)
  · next j js _ hfree =>
    obtain ⟨hlow, hhigh, hoff⟩ := freeSpares_off (hfree ▸ List.mem_cons_self : j ∈ s.freeSpares c)
    have hne : i ≠ j := fun e => hon (e ▸ hoff)
    obtain ⟨wt, hstart⟩ := startSwap_keepsLaser w c k (some j) hi
    have hwarm := warmSpare_tends (s.startSwap c k i (some j) false []) k (show j < 24 by omega)
    have hkeep : KeepsLaser i (s.startSwap c k i (some j) false []) ((s.startSwap c k i (some j) false []).warmSpare j k) :=
      ⟨_, hwarm.wrote, lasState_other (warmSpare_wrote _ j k) wt hne, outOfUse_plan hwarm.plan⟩
    exact (hstart.trans hkeep).trans (syncHull_keepsLaser (hwarm.wrote.canonical wt) hi)
  · have hlost := waveLost_tends s c k
    have wt := hlost.wrote.canonical w
    obtain ⟨hdark, -⟩ := goDark_leaves wt hc hk
    refine (hlost.keepsLaser w (laneFields_laser hi _ _)).trans (hdark.keepsLaser wt ?_)
    refine apart_append.mpr ⟨?_, apart_append.mpr ⟨laneFields_laser hi _ _, ?_⟩⟩
    · simp only [apart_cons, apart_nil, Csr.lasStat, Csr.cartWmap]
      omega
    · simp only [apart_cons, apart_nil, Csr.lasStat, Csr.hullStat]
      omega

theorem endLaser_lasState (w : regsCanonical s) {st : Nat} (hst : st < 16) : (s.endLaser i st).lasState i = st := by
  have hwave : Wrote [(Csr.lasStat i, 55, 52)] (s.setFld (Csr.lasStat i) 63 60 st) (s.endLaser i st) := (Wrote.refl.setFld _ (by decide) (by simp)).flash _
  exact hwave.reads w (by decide) hst (by simp only [apart_cons, apart_nil, Csr.lasStat]; omega)

theorem laserFails_leaves (w : regsCanonical s) (i : Fin 24) :
    Wrote lasFields s (s.laserFails i.val) ∧ (s.laserFails i.val).lasState i.val = lasFailed ∧ (s.laserFails i.val).flash.outOfUse[i] = lasFailed ∧
      (s.laserFails i.val).hull = s.hull ∧ Raised (s.laserFails i.val) 0x45 0 := by
  have hend : Wrote lasFields s (s.endLaser i.val lasFailed) := endLaser_wrote s i.isLt _
  have htold : Tells (s.endLaser i.val lasFailed) (s.laserFails i.val) := Tells.refl.raise _ _
  refine ⟨hend.raise _ _, (raise_lasState (hend.canonical w) _ _ _).trans (endLaser_lasState w (by decide)), ?_, htold.part (·.hull), raised_raise _ _ _⟩
  rw [htold.part (·.flash)]
  simp [State.endLaser]

section

variable {i : Fin 24} (hpower : s.pins.pwrGood = true) (hoff : s.lasState i.val ≠ lasOff) (hret : s.lasState i.val ≠ lasRetired)
  (hfail : s.lasState i.val ≠ lasFailed) (hswap : (s.laserFails i.val).swap? (i.val / 12) = none)

include hpower hoff hret hfail hswap

theorem exec_suddenLaserFailure_unfed (hwave : s.waveOf (i.val / 12) (i.val - 12 * (i.val / 12)) = none) :
    exec (.suddenLaserFailure i) s = .next ((s.laserFails i.val).assignSpares (i.val / 12)).syncHull := by
  show execSuddenLaserFailure i s = _
  unfold execSuddenLaserFailure
  dsimp only
  rw [if_neg (by simp [hpower, hoff, hret, hfail]), hwave]
  dsimp only
  rw [show ((s.endLaser i.val lasFailed).raise 0x45 [BitVec.ofNat 64 i.val]).swap? (i.val / 12) = none from hswap]
  rfl

theorem exec_suddenLaserFailure_fed (hwave : s.waveOf (i.val / 12) (i.val - 12 * (i.val / 12)) = some k) :
    exec (.suddenLaserFailure i) s = .next ((s.laserFails i.val).failOver (i.val / 12) k i.val) := by
  have hfails : (s.endLaser i.val lasFailed).raise 0x45 [BitVec.ofNat 64 i.val] = s.laserFails i.val := rfl
  show execSuddenLaserFailure i s = _
  unfold execSuddenLaserFailure
  dsimp only
  rw [if_neg (by simp [hpower, hoff, hret, hfail]), hwave]
  dsimp only
  rw [hfails]
  generalize s.laserFails i.val = a at hswap
  rw [hswap]
  unfold State.failOver
  cases a.assignedSpare (i.val / 12) k with
  | some j => rfl
  | none =>
    cases a.freeSpares (i.val / 12) with
    | cons j js => rfl
    | nil => rfl

end

theorem suddenLaserFailure_leaves (w : regsCanonical s) {i : Fin 24} (hpower : s.pins.pwrGood = true) (hoff : s.lasState i.val ≠ lasOff)
    (hret : s.lasState i.val ≠ lasRetired) (hfail : s.lasState i.val ≠ lasFailed) (hswap : s.swap? (i.val / 12) = none) :
    ∃ t, exec (.suddenLaserFailure i) s = .next t ∧ (SameMemory s t ∧ t.cores = s.cores) ∧ t.lasState i.val = lasFailed ∧
      t.flash.outOfUse[i] = lasFailed ∧ Raised t 0x45 0 := by
  obtain ⟨hfails, hstate, huse, hhull, hraised⟩ := laserFails_leaves w i
  have hswap' : (s.laserFails i.val).swap? (i.val / 12) = none := by
    unfold State.swap? at hswap ⊢
    rwa [hhull]
  have hc : i.val / 12 < 2 := by omega
  have hon : (s.laserFails i.val).lasState i.val ≠ lasOff := by
    rw [hstate]
    decide
  have wt := hfails.canonical w
  have hmoves : ∃ t, exec (.suddenLaserFailure i) s = .next t ∧ KeepsLaser i.val (s.laserFails i.val) t := by
    cases hwave : s.waveOf (i.val / 12) (i.val - 12 * (i.val / 12)) with
    | none =>
      have hassign := assignSpares_tends (s.laserFails i.val) hc
      exact ⟨_, exec_suddenLaserFailure_unfed hpower hoff hret hfail hswap' hwave,
        KeepsLaser.trans ⟨_, hassign.wrote, assignSpares_lasState wt hc hon, outOfUse_plan hassign.plan⟩ (syncHull_keepsLaser (hassign.wrote.canonical wt) i.isLt)⟩
    | some k =>
      exact ⟨_, exec_suddenLaserFailure_fed hpower hoff hret hfail hswap' hwave, failOver_keepsLaser wt hc (waveOf_lt hwave) i.isLt hon⟩
  obtain ⟨t, hexec, m, hrest, hkept, hplan⟩ := hmoves
  have hall := hfails.append hrest
  exact ⟨t, hexec, ⟨hall.sameMemory, hall.cores⟩, hkept.trans hstate, by rw [hplan]; exact huse, hrest.raised hraised⟩

/-! ### A cartridge is removed (R314, R333) -/

/-- The paths that a cartridge's swap held take flits again. -/
def State.swapReleased (s : State) (c : Nat) : State := match s.swap? c with | some w => s.release w.paths | none => s

/-- The lasers of a cartridge are off. -/
def State.lasersOff (s : State) (c : Nat) : State := (List.range 12).foldl (fun (t : State) m => t.setFld (Csr.lasStat (12 * c + m)) 63 60 lasOff) s

/-- The wavelengths of a cartridge have lost their light. -/
def State.wavesLost (s : State) (c : Nat) : State := (List.range 8).foldl (fun (t : State) k => t.waveLost c k) s

/-- A cartridge's registers read as 0, and nothing of it is decided. -/
def State.cartGone (s : State) (c : Nat) : State :=
  let t := ((s.setReg (Csr.cartInfo c) 0).setReg (Csr.cartWmap c) 0).setSwap c none
  { t with hull := { t.hull with queued := t.hull.queued.filter (fun q => q.1 / 12 != c) } }

/-- The lanes of a half are DARK. -/
def State.halfDark (s : State) (c : Nat) : State :=
  ((List.range 128).filter (fun i => laneCart i == c && s.laneState i != laneAbsent)).foldl (fun (t : State) i => t.laneGoesDark i) s

/-- The loss of a cartridge is told. -/
def State.cartTold (s : State) (c : Nat) : State :=
  ((s.raise 0x49 [BitVec.ofNat 64 c]).raise 0x46 [Word.place 0xFF 8 8 ||| Word.place c 1 0]).syncHull.broadcastStates

theorem exec_cartridgeRemoved {c : Fin 2} (hcarts : s.hasCarts = true) (hinfo : (s.reg (Csr.cartInfo c.val)).bit 63 = true) :
    exec (.cartridgeRemoved c) s = .next (((((((s.swapReleased c.val).lasersOff c.val).wavesLost c.val).cartGone c.val).halfDark c.val).cartTold c.val)) := by
  show execCartridgeRemoved c s = _
  unfold execCartridgeRemoved
  rw [if_neg (by simp [hcarts, hinfo])]
  unfold State.swapReleased
  cases s.swap? c.val with
  | none => rfl
  | some w => rfl

theorem swapReleased_tends (s : State) (c : Nat) : Tends l s (s.swapReleased c) := by
  unfold State.swapReleased
  split
  · exact release_tends _ _
  · exact .refl

theorem lasersOff_tends (s : State) (hc : c < 2) : Tends lasFields s (s.lasersOff c) :=
  Tends.refl.foldl fun _ m hm => Tends.refl.setFld _ (by decide) (mem_lasFields (by have := List.mem_range.mp hm; omega)).1

theorem lasersOff_lasState (w : regsCanonical s) {m : Nat} (hm : m < 12) : (s.lasersOff c).lasState (12 * c + m) = lasOff := by
  have hwrote (t : State) (n : Nat) : Wrote [(Csr.lasStat (12 * c + n), 63, 60), (Csr.lasStat (12 * c + n), 55, 52)] t
      (t.setFld (Csr.lasStat (12 * c + n)) 63 60 lasOff) := Wrote.refl.setFld _ (by decide) (by simp)
  refine (foldl_reaches (I := regsCanonical) (P := fun t : State => t.lasState (12 * c + m) = lasOff) (fun t n _ wt => (hwrote t n).canonical wt)
    (fun t n _ wt ht => ?_) (fun t wt => setLas_state wt (by decide)) (List.mem_range.mpr hm) w).2
  by_cases hmn : m = n
  · subst hmn
    exact setLas_state wt (by decide)
  · exact (lasState_other (hwrote t n) wt (by omega)).trans ht

theorem wavesLost_tends (s : State) (c : Nat) : Tends laneFields s (s.wavesLost c) := Tends.refl.foldl fun u k _ => waveLost_tends u c k

theorem wavesLost_present (w : regsCanonical s) (hi : i < 128) (h : s.laneState i ≠ laneAbsent) : (s.wavesLost c).laneState i ≠ laneAbsent :=
  (List.foldlRecOn (motive := fun t => regsCanonical t ∧ t.laneState i ≠ laneAbsent) _ _ ⟨w, h⟩
    fun u hu k _ => ⟨(waveLost_tends u c k).wrote.canonical hu.1, waveLost_present hu.1 hi hu.2⟩).2

theorem cartGone_leaves (w : regsCanonical s) (hc : c < 2) :
    Wrote [(Csr.cartInfo c, 63, 0), (Csr.cartWmap c, 63, 0)] s (s.cartGone c) ∧ (s.cartGone c).reg (Csr.cartInfo c) = 0 ∧ (s.cartGone c).swap? c = none := by
  let a := s.setReg (Csr.cartInfo c) 0
  have ha : Wrote [(Csr.cartInfo c, 63, 0)] s a := Wrote.refl.setReg _ (by simp)
  have hread : a.reg (Csr.cartInfo c) = 0 := by rw [State.reg_setReg _ _ _ _ w, if_pos rfl]
  have hwmap : Wrote [(Csr.cartWmap c, 63, 0)] a (a.setReg (Csr.cartWmap c) 0) := Wrote.refl.setReg _ (by simp)
  have hmap : Wrote [(Csr.cartWmap c, 63, 0)] a (s.cartGone c) := hwmap.aside rfl rfl rfl rfl
  exact ⟨ha.append hmap, (hmap.reg (ha.canonical w) (by simp only [apart_cons, apart_nil, Csr.cartInfo, Csr.cartWmap]; omega)).trans hread,
    setSwap_swap _ hc none⟩

theorem halfDark_tends (s : State) (c : Nat) : Tends laneFields s (s.halfDark c) := by
  refine Tends.refl.foldl fun _ i hi => ?_
  obtain ⟨hlane, hpath, -⟩ := mem_laneFields (List.mem_range.mp (List.mem_filter.mp hi).1)
  exact Tends.refl.laneGoesDark hlane hpath

theorem halfDark_state (w : regsCanonical s) (hi : i < 128) (hc : laneCart i = c) (h : s.laneState i ≠ laneAbsent) : (s.halfDark c).laneState i = laneDark :=
  darken_fold w (fun _ hj => List.mem_range.mp (List.mem_filter.mp hj).1) laneGoesDark_wrote (fun _ _ hj wt => laneGoesDark_state wt hj)
    (List.mem_filter.mpr ⟨List.mem_range.mpr hi, by simpa [hc] using h⟩)

theorem cartTold_leaves (s : State) (c : Nat) : Tends [(Csr.hullStat, 63, 0)] s (s.cartTold c) ∧ Raised (s.cartTold c) 0x49 0 ∧ Raised (s.cartTold c) 0x46 0 := by
  let a := s.raise 0x49 [BitVec.ofNat 64 c]
  have ha : Raised a 0x49 0 := raised_raise _ _ _
  have hb : Wrote [(Csr.hullStat, 63, 0)] a (a.raise 0x46 [Word.place 0xFF 8 8 ||| Word.place c 1 0]) := Wrote.refl.raise _ _
  have hraised : Raised (a.raise 0x46 [Word.place 0xFF 8 8 ||| Word.place c 1 0]) 0x46 0 := raised_raise _ _ _
  have hsync : Wrote [(Csr.hullStat, 63, 0)] (a.raise 0x46 [Word.place 0xFF 8 8 ||| Word.place c 1 0]) (s.cartTold c) := (Wrote.refl.syncHull (by simp)).broadcastStates
  exact ⟨(((Tends.refl.raise _ _).raise _ _).syncHull (by simp)).broadcastStates, (hb.trans hsync).raised ha, hsync.raised hraised⟩

theorem cartridgeRemoved_leaves (w : regsCanonical s) {c : Fin 2} (hcarts : s.hasCarts = true) (hinfo : (s.reg (Csr.cartInfo c.val)).bit 63 = true) :
    ∃ t, exec (.cartridgeRemoved c) s = .next t ∧ (SameMemory s t ∧ t.cores = s.cores) ∧ t.reg (Csr.cartInfo c.val) = 0 ∧ t.swap? c.val = none ∧
      Raised t 0x49 0 ∧ Raised t 0x46 0 ∧ (∀ m : Fin 12, t.lasState (12 * c.val + m.val) = lasOff) ∧
      ∀ i : Fin 128, laneCart i.val = c.val → s.laneState i.val ≠ laneAbsent → t.laneState i.val = laneDark := by
  have hexec := exec_cartridgeRemoved hcarts hinfo
  have hfree : Tends [] s (s.swapReleased c.val) := swapReleased_tends s c.val
  generalize s.swapReleased c.val = a at hexec hfree
  have wa := hfree.wrote.canonical w
  have hlasers := lasersOff_tends a c.isLt
  have hoff (m : Fin 12) := lasersOff_lasState (c := c.val) wa m.isLt
  generalize a.lasersOff c.val = b at hexec hlasers hoff
  have wb := hlasers.wrote.canonical wa
  have hlost := wavesLost_tends b c.val
  have hthere (i : Fin 128) := wavesLost_present (c := c.val) wb i.isLt
  generalize b.wavesLost c.val = d at hexec hlost hthere
  have wd := hlost.wrote.canonical wb
  obtain ⟨hgone, hinfo0, hswap⟩ := cartGone_leaves wd c.isLt
  generalize d.cartGone c.val = e at hexec hgone hinfo0 hswap
  have we := hgone.canonical wd
  have hdark := halfDark_tends e c.val
  have hstates (i : Fin 128) (hc : laneCart i.val = c.val) := halfDark_state we i.isLt hc
  generalize e.halfDark c.val = f at hexec hdark hstates
  have wf := hdark.wrote.canonical we
  obtain ⟨htold, hcart, hwave⟩ := cartTold_leaves f c.val
  have hrest := hdark.append htold
  have hall := hfree.wrote.append (hlasers.wrote.append (hlost.wrote.append (hgone.append hrest.wrote)))
  refine ⟨_, hexec, ⟨hall.sameMemory, hall.cores⟩, ?_, (swap?_plan hrest.plan _).trans hswap, hcart, hwave, fun m => ?_, fun i hc hpresent => ?_⟩
  · refine (hrest.wrote.reg we (apart_append.mpr ⟨(laneFields_cart c.isLt _ _).1, ?_⟩)).trans hinfo0
    simp only [apart_cons, apart_nil, Csr.cartInfo, Csr.hullStat]
    omega
  · have hm : 12 * c.val + m.val < 24 := by omega
    refine ((hlost.wrote.append (hgone.append hrest.wrote)).fld wb (apart_append.mpr ⟨laneFields_laser hm _ _, apart_append.mpr ⟨?_,
      apart_append.mpr ⟨laneFields_laser hm _ _, ?_⟩⟩⟩)).trans (hoff m)
    · simp only [apart_cons, apart_nil, Csr.lasStat, Csr.cartInfo, Csr.cartWmap]
      omega
    · simp only [apart_cons, apart_nil, Csr.lasStat, Csr.hullStat]
      omega
  · have hfirst : b.laneState i.val = s.laneState i.val := by
      refine (hfree.wrote.append hlasers.wrote).fld w (apart_append.mpr ⟨?_, lasFields_apart (not_mem_evtRegs.mpr ?_) (.inr fun j hj => ?_)⟩)
      · simp only [apart_nil, Csr.optLane]
        omega
      · simp only [Csr.optLane]
        omega
      · simp only [Csr.optLane, Csr.lasStat]
        omega
    have hlast : e.laneState i.val = d.laneState i.val := hgone.fld wd (by simp only [apart_cons, apart_nil, Csr.optLane, Csr.cartInfo, Csr.cartWmap]; omega)
    have hpresent' : e.laneState i.val ≠ laneAbsent := by
      rw [hlast]
      exact hthere i (by rwa [hfirst])
    exact (htold.wrote.fld wf (by simp only [apart_cons, apart_nil, Csr.optLane, Csr.hullStat]; omega)).trans (hstates i hc hpresent')

end Sys2Proof.Machine

end

section
/-! PROOFS. Swaps of host lasers, and the statement on lasers (R327, R335). -/

namespace Sys2Proof.Machine

open Sys2Proof.Safety

variable {l : List RegField} {s t : State} {j : Fin 8}

/-! ### A host laser reports its bias ratio, or has failed (R335) -/

theorem rconnFields_hopt (j : Fin 8) (hi lo : Nat) : Apart rconnFields (Csr.hoptStat j.val) hi lo := by
  refine ⟨(portRegs_plain j).2.1, fun f hf => ?_⟩
  obtain ⟨k, -, rfl⟩ := List.mem_map.mp hf
  exact .inl (Ne.symm (hoptStat_ne_ethPortStat _ _ j.isLt))

theorem portFields_hopt (j : Fin 8) {hi : Nat} (lo : Nat) (hhi : hi < 60) : Apart (portFields j.val ++ rconnFields) (Csr.hoptStat j.val) hi lo := by
  refine apart_append.mpr ⟨?_, rconnFields_hopt j hi lo⟩
  simp only [portFields, apart_cons, apart_nil, Csr.hoptStat, Csr.ethPortStat, Csr.ethPortCnt]
  omega

/-- A port that goes down, from UP or not, shows its state and is not UP. -/
theorem portDown_leaves (w : regsCanonical s) (j : Fin 8) {st hst : Nat} (hlt : st < 16) (hlt' : hst < 16) :
    Wrote (portFields j.val ++ rconnFields) s (s.portDown j.val st hst) ∧ (s.portDown j.val st hst).fld (Csr.hoptStat j.val) 63 60 = hst ∧
      ((s.portDown j.val st hst).port j.val).up = false := by
  by_cases hup : (s.port j.val).up = true
  · obtain ⟨-, hopt, -⟩ := portDown_shows j w hup hlt hlt'
    refine ⟨portDown_wrote st hst hup, hopt, ?_⟩
    rw [port_congr (portDown_ports st hst hup), port_modPort_same]
  · have hset : Wrote (portFields j.val ++ rconnFields) s (s.setFld (Csr.ethPortStat j.val) 63 60 st) := Wrote.refl.setFld _ (by decide) (by simp [portFields])
    have hdown : s.portDown j.val st hst = (s.setFld (Csr.ethPortStat j.val) 63 60 st).setFld (Csr.hoptStat j.val) 63 60 hst := if_pos (by simpa using hup)
    rw [hdown]
    exact ⟨hset.setFld _ (by decide) (by simp [portFields]),
      Wrote.reads (l := []) .refl (hset.canonical w) (by decide) hlt' ⟨(portRegs_plain j).2.1, by simp⟩, Bool.eq_false_of_not_eq_true hup⟩

/-! ### What the state of the hull leaves of host ports -/

theorem sweepNext_ports (s : State) (c : Fin 2) : (s.sweepNext c).ports = s.ports := by
  unfold State.sweepNext
  split
  · exact (Tells.refl.raise _ _).part (·.ports)
  · rfl

theorem syncSweep_ports (s : State) (c : Fin 2) : (s.syncSweep c).ports = s.ports := by
  rw [syncSweep_eq]
  split
  · rfl
  · exact sweepNext_ports s c

theorem syncHull_ports (s : State) : s.syncHull.ports = s.ports := by
  unfold State.syncHull
  exact List.foldlRecOn (motive := fun t : State => t.ports = s.ports) _ _ ((syncSweep_ports _ 1).trans (syncSweep_ports s 0))
    fun t ht _ _ => ((Tells.refl.raise _ _).part (·.ports)).trans ht

/-! ### A report -/

/-- The bias ratio of a host laser is shown. -/
def State.hostRatio (s : State) (j : Fin 8) (ratio : BitVec 16) : State := s.setFld (Csr.hoptStat j.val) 47 32 ratio.toNat

/-- A port's light moves to the spare of its half. -/
def State.hostMoves (s : State) (j : Fin 8) : State :=
  (((s.portDown j.val 2 3).setFld (Csr.hoptStat j.val) 59 56 (hostSpare j.val)).setHostUse j.val (hostSpare j.val)).raise 0x4A [BitVec.ofNat 64 j.val]

/-- A port goes dark. -/
def State.hostDark (s : State) (j : Fin 8) : State :=
  ((((s.portDown j.val 3 4).modPort j.val (fun p => { p with dark := true })).setHostUse j.val (s.flash.hostUse[j] + 3)).syncHull).raise 0x4A [BitVec.ofNat 64 j.val]

/-- The spare of a port's half is in use. -/
def State.hostTaken (s : State) (j : Fin 8) : Bool := s.flash.hostUse.toList.any (fun u => u == hostSpare j.val || u == hostSpare j.val + 3)

/-- What a report of a host laser does to its port. -/
def State.hostReported (s : State) (j : Fin 8) (ratio : BitVec 16) (failed : Bool) : State :=
  if s.hostTaken j then if failed || hostRatioAtLeast ratio 150 then s.hostDark j else s
  else if failed || hostRatioAtLeast ratio 135 then s.hostMoves j else s

theorem exec_hostLaserSwap (ratio : BitVec 16) (failed : Bool) (hon : s.mainOn = true) (hport : s.hostPresent j.val = true)
    (hlit : s.fld (Csr.hoptStat j.val) 63 60 ≠ 4) : exec (.hostLaserSwap j ratio failed) s = .next ((s.hostRatio j ratio).hostReported j ratio failed) := by
  have hratio : s.setFld (Csr.hoptStat j.val) 47 32 ratio.toNat = s.hostRatio j ratio := rfl
  show execHostLaserSwap j ratio failed s = _
  unfold execHostLaserSwap
  dsimp only
  rw [if_neg (by simp [hon, hport, hlit]), hratio]
  generalize s.hostRatio j ratio = a
  unfold State.hostReported State.hostTaken
  simp only [apply_ite Host.Outcome.next]
  rfl

theorem hostRatio_leaves (w : regsCanonical s) (j : Fin 8) (ratio : BitVec 16) :
    Wrote [(Csr.hoptStat j.val, 47, 32)] s (s.hostRatio j ratio) ∧ (s.hostRatio j ratio).fld (Csr.hoptStat j.val) 47 32 = ratio.toNat :=
  ⟨Wrote.refl.setFld _ (by decide) (by simp), Wrote.reads (l := []) .refl w (by decide) ratio.isLt ⟨(portRegs_plain j).2.1, by simp⟩⟩

/-- A port whose light has moved restarts on the spare. -/
theorem hostMoves_leaves (w : regsCanonical s) (j : Fin 8) : let t := s.hostMoves j
    (∃ l, Wrote l s t ∧ Apart l (Csr.hoptStat j.val) 47 32) ∧ t.fld (Csr.hoptStat j.val) 59 56 = hostSpare j.val ∧ t.fld (Csr.hoptStat j.val) 63 60 = 3 ∧
      t.flash.hostUse[j] = hostSpare j.val ∧ (t.port j.val).up = false ∧ Raised t 0x4A 0 := by
  intro t
  obtain ⟨hdown, hopt, hup⟩ := portDown_leaves w j (show 2 < 16 by decide) (show 3 < 16 by decide)
  let a := s.portDown j.val 2 3
  let b := a.setFld (Csr.hoptStat j.val) 59 56 (hostSpare j.val)
  have wa : regsCanonical a := hdown.canonical w
  have hplain := (portRegs_plain j).2.1
  have hspare : hostSpare j.val < 2 ^ (59 + 1 - 56) := by
    unfold hostSpare
    split <;> decide
  have hset : Wrote [(Csr.hoptStat j.val, 59, 56)] a b := Wrote.refl.setFld _ (by decide) (by simp)
  have htold : Tells (b.setHostUse j.val (hostSpare j.val)) t := Tells.refl.raise _ _
  have hrest : Wrote [] b t := (Wrote.refl.flash _).raise _ _
  refine ⟨⟨_, hdown.append (hset.append hrest), apart_append.mpr ⟨portFields_hopt j _ (by decide), hplain, by simp⟩⟩,
    hrest.reads wa (by decide) hspare ⟨hplain, by simp⟩, ((hset.append hrest).fld wa ⟨hplain, by simp⟩).trans hopt, ?_, ?_, raised_raise _ _ _⟩
  · rw [htold.part (·.flash)]
    simp [State.setHostUse]
  · rw [port_congr (htold.part (·.ports))]
    exact hup

/-- A port that has gone dark shows it. -/
theorem hostDark_leaves (w : regsCanonical s) (j : Fin 8) : let t := s.hostDark j
    (∃ l, Wrote l s t ∧ Apart l (Csr.hoptStat j.val) 47 32) ∧ t.fld (Csr.hoptStat j.val) 63 60 = 4 ∧ (t.port j.val).up = false ∧ Raised t 0x4A 0 := by
  intro t
  obtain ⟨hdown, hopt, hup⟩ := portDown_leaves w j (show 3 < 16 by decide) (show 4 < 16 by decide)
  let a := s.portDown j.val 3 4
  let b := (a.modPort j.val (fun p => { p with dark := true })).setHostUse j.val (s.flash.hostUse[j] + 3)
  have wa : regsCanonical a := hdown.canonical w
  have hplain := (portRegs_plain j).2.1
  have hrest : Wrote [(Csr.hullStat, 63, 0)] a t := (Wrote.syncHull ((Wrote.refl.ports _).flash _) (by simp)).raise _ _
  have hstat : ∀ hi lo, Apart [(Csr.hullStat, 63, 0)] (Csr.hoptStat j.val) hi lo := fun hi lo => by
    simp only [apart_cons, apart_nil, Csr.hoptStat, Csr.hullStat]
    omega
  refine ⟨⟨_, hdown.append hrest, apart_append.mpr ⟨portFields_hopt j _ (by decide), hstat _ _⟩⟩, (hrest.fld wa (hstat _ _)).trans hopt, ?_, raised_raise _ _ _⟩
  have hports : t.ports = (a.modPort j.val (fun p => { p with dark := true })).ports := ((Tells.refl.raise _ _).part (·.ports)).trans (syncHull_ports b)
  rw [port_congr hports, port_modPort_same]
  exact hup

theorem hostTaken_iff (s : State) (j : Fin 8) : s.hostTaken j = true ↔ ∃ u ∈ s.flash.hostUse.toList, u = hostSpare j.val ∨ u = hostSpare j.val + 3 := by
  simp only [State.hostTaken, List.any_eq_true, Bool.or_eq_true, beq_iff_eq]

theorem hostRatioAtLeast_iff (ratio : BitVec 16) (p : Nat) : hostRatioAtLeast ratio p = true ↔ p * 1024 ≤ 100 * ratio.toNat := decide_eq_true_iff

theorem hostLaserSwap_leaves (w : regsCanonical s) (ratio : BitVec 16) (failed : Bool) (hon : s.mainOn = true) (hport : s.hostPresent j.val = true)
    (hlit : s.fld (Csr.hoptStat j.val) 63 60 ≠ 4) :
    let f (t : State) (hi lo : Nat) : Nat := t.fld (Csr.hoptStat j.val) hi lo
    let reaches (p : Nat) : Prop := p * 1024 ≤ 100 * ratio.toNat
    let taken : Prop := ∃ u ∈ s.flash.hostUse.toList, u = hostSpare j.val ∨ u = hostSpare j.val + 3
    ∃ t, exec (.hostLaserSwap j ratio failed) s = .next t ∧ (SameMemory s t ∧ t.cores = s.cores) ∧ f t 47 32 = ratio.toNat ∧
      (¬ taken → failed = true ∨ reaches 135 →
        f t 59 56 = hostSpare j.val ∧ f t 63 60 = 3 ∧ t.flash.hostUse[j] = hostSpare j.val ∧ (t.port j.val).up = false ∧ Raised t 0x4A 0) ∧
      (taken → failed = true ∨ reaches 150 → f t 63 60 = 4 ∧ (t.port j.val).up = false ∧ Raised t 0x4A 0) ∧
      (failed = false → ¬ reaches 135 → f t 63 60 = f s 63 60 ∧ f t 59 56 = f s 59 56 ∧ t.ports = s.ports) := by
  intro f reaches taken
  have hexec := exec_hostLaserSwap ratio failed hon hport hlit
  obtain ⟨hratio, hshown⟩ := hostRatio_leaves w j ratio
  have htaken : (s.hostRatio j ratio).hostTaken j = true ↔ taken := hostTaken_iff s j
  have hports : (s.hostRatio j ratio).ports = s.ports := rfl
  generalize s.hostRatio j ratio = a at hexec hratio hshown htaken hports
  have wa := hratio.canonical w
  have hplain := (portRegs_plain j).2.1
  have hdue (p : Nat) : (failed || hostRatioAtLeast ratio p) = true ↔ failed = true ∨ reaches p := by rw [Bool.or_eq_true, hostRatioAtLeast_iff]
  by_cases htook : taken
  · by_cases hend : failed = true ∨ reaches 150
    · have hdo : a.hostReported j ratio failed = a.hostDark j := by rw [State.hostReported, if_pos (htaken.mpr htook), if_pos ((hdue 150).mpr hend)]
      obtain ⟨⟨l, hwrote, hapart⟩, hdark⟩ := hostDark_leaves wa j
      rw [hdo] at hexec
      generalize a.hostDark j = t at hexec hwrote hdark
      have hall := hratio.append hwrote
      refine ⟨t, hexec, ⟨hall.sameMemory, hall.cores⟩, (hwrote.fld wa hapart).trans hshown, fun hno => absurd htook hno, fun _ _ => hdark, fun hok hlow => ?_⟩
      have hhigh : 150 * 1024 ≤ 100 * ratio.toNat := hend.resolve_left (by simp [hok])
      have hlow' : ¬ 135 * 1024 ≤ 100 * ratio.toNat := hlow
      omega
    · have hdo : a.hostReported j ratio failed = a := by rw [State.hostReported, if_pos (htaken.mpr htook), if_neg (mt (hdue 150).mp hend)]
      rw [hdo] at hexec
      exact ⟨a, hexec, ⟨hratio.sameMemory, hratio.cores⟩, hshown, fun hno => absurd htook hno, fun _ he => absurd he hend,
        fun _ _ => ⟨hratio.fld w ⟨hplain, by simp⟩, hratio.fld w ⟨hplain, by simp⟩, hports⟩⟩
  · by_cases hmove : failed = true ∨ reaches 135
    · have hdo : a.hostReported j ratio failed = a.hostMoves j := by rw [State.hostReported, if_neg (mt htaken.mp htook), if_pos ((hdue 135).mpr hmove)]
      obtain ⟨⟨l, hwrote, hapart⟩, hmoves⟩ := hostMoves_leaves wa j
      rw [hdo] at hexec
      generalize a.hostMoves j = t at hexec hwrote hmoves
      have hall := hratio.append hwrote
      refine ⟨t, hexec, ⟨hall.sameMemory, hall.cores⟩, (hwrote.fld wa hapart).trans hshown, fun _ _ => hmoves, fun ht => absurd ht htook, fun hok hlow => ?_⟩
      exact absurd (hmove.resolve_left (by simp [hok])) hlow
    · have hdo : a.hostReported j ratio failed = a := by rw [State.hostReported, if_neg (mt htaken.mp htook), if_neg (mt (hdue 135).mp hmove)]
      rw [hdo] at hexec
      exact ⟨a, hexec, ⟨hratio.sameMemory, hratio.cores⟩, hshown, fun _ he => absurd he hmove, fun ht => absurd ht htook,
        fun _ _ => ⟨hratio.fld w ⟨hplain, by simp⟩, hratio.fld w ⟨hplain, by simp⟩, hports⟩⟩

/-- Settles O43: a sample, a warmed spare, a swap and its stages, a failure, a removal and a host laser are each followed through the registers, the swaps and
the queue that the operation writes; whatever else it does lies apart from what the statement reads. -/
theorem lasers : Obligations.Lasers := by
  unfold Obligations.Lasers
  intro s c w
  refine ⟨fun i bias power offset temp hpower hgood hoff hret hfail => biasSample_leaves w bias power offset temp hpower hgood hoff hret hfail,
    exec_spareWarmDone w, fun i lost k hswap hqueue hpower hwave => laserSwap_leaves hswap hqueue hpower hwave w, fun r hr hk => ?_,
    fun i hpower hoff hret hfail hswap => suddenLaserFailure_leaves w hpower hoff hret hfail hswap, cartridgeRemoved_leaves w,
    fun j ratio failed hon hport hlit => hostLaserSwap_leaves w ratio failed hon hport hlit⟩
  exact ⟨swapStageDone_waits hr, swapStageDone_drained w hr,
    fun m hstage hspare hm hlaser hwarm => swapStageDone_transfer w hr hk hstage hspare hm hlaser hwarm, swapStageDone_dark w hr hk,
    swapStageDone_retrained hr, swapStageDone_soaked w hr⟩

end Sys2Proof.Machine

end
